-- ==== Sys2Proof/Word.lean ====
section
/-! DEFINITION. The word types and the bit-numbering of the manual (R10: bit 0 least significant, ranges include both
ends, multi-byte values little-endian), and the sparse table that holds every large piece of state as plain data. -/

namespace Sys2Proof

abbrev Byte := BitVec 8
abbrev W16 := BitVec 16
abbrev W32 := BitVec 32
abbrev W64 := BitVec 64

/-- A sparse table: keys strictly rising, and no entry equal to the value an unlisted key reads as. -/
abbrev Tab (α : Type) := List (Nat × α)

end Sys2Proof
end

