-- ==== Sys2Proof/Config.lean ====
section
/-! DEFINITION. What one part fixes for its whole life (the fuse map, the Werdo image's policy tables, R1, R458, R507),
and the free values: every value the manual leaves open is an opaque constant here, so that no proof can see it. -/

namespace Sys2Proof

/-- R1: the order codes, coded as STW_ID.ORDER (R507). -/
inductive Order
  | z2T2A | z2T2B | z1T1A
  deriving DecidableEq, Repr

/-- R2, R350: the memory rates, coded as HUB_STAT.RATE. -/
inductive Rate
  | mt7500 | mt8533 | mt9600
  deriving DecidableEq, Repr, Inhabited

def Order.code : Order → Nat
  | .z2T2A => 0
  | .z2T2B => 1
  | .z1T1A => 2

/-- HUB_STAT.RATE (R350). -/
def Rate.code : Rate → Nat
  | .mt7500 => 0
  | .mt8533 => 1
  | .mt9600 => 2

/-- R2: the rate of the order code. -/
def Order.rate : Order → Rate
  | .z2T2A => .mt9600
  | .z2T2B => .mt8533
  | .z1T1A => .mt9600

/-- R1, the memory table of 14: usable capacity in bytes. -/
def Order.usable : Order → Nat
  | .z2T2A => 2061584302080
  | .z2T2B => 2061584302080
  | .z1T1A => 1030792151040

/-- R328: rows per bank. -/
def Order.rowsPerBank : Order → Nat
  | .z2T2A => 131072
  | .z2T2B => 131072
  | .z1T1A => 65536

namespace Config

/-- A free yes or no, one for each use (log entry 2): R75's choice, for one byte, between its earlier value and the
value the command wrote, and every other two-way choice the manual leaves to timing. -/
opaque freeBool : Nat → Bool

/-- A free number, one for each use (log entry 2): cycle counts that depend on contention (R149, R176), and the outcome of a
decode of four or more symbol errors (R340). -/
opaque freeNat : Nat → Nat

/-- A free 64-bit value, one for each use (log entry 2): the bits of an uncontrolled content. -/
opaque freeBits : Nat → BitVec 64

/-- The PCIe vendor ID of the maker, which R482 does not give (log entry 196). -/
opaque vendorId : BitVec 16

/-- What gives the serial number of the fuse map (R507). -/
opaque serialDraw : BitVec 48

/-- The serial number of the fuse map (R507): never 0 and never all ones; no other structure may be relied on. -/
def serial : BitVec 48 := 1 + serialDraw % 0xFFFFFFFFFFFE

/-- Another packet at the head of an input of the router output that the n-th VC2 packet asks for (R357, R358, log entry 129): present or not,
and its age stamp. Contention on the mesh is timing, so nothing constrains it. -/
opaque rival : Nat → Option Nat

/-- The MESH cycles that the n-th VC2 packet has spent waiting when it asks for a router output (R357, log entry 129). -/
opaque waited : Nat → Nat

/-- R2: the memory rate that the policy tables of a Werdo image name, by the CRC of the image. Their layout is not in the manual. -/
opaque policyRate : BitVec 32 → Rate

/-- R339: the four check symbols of a pair. The manual names a Reed-Solomon code of distance 5 and no generator. -/
opaque pairCheck : List (BitVec 8) → BitVec 64

/-- R334, R352: the 8 check bits that go with 64 bits of a buffer line or of a flit. The manual names no code matrix. -/
opaque secded : BitVec 64 → BitVec 8

/-- R458: the default standing reservations of the policy tables, in mA at 48 V. -/
def standing : List Nat := [4100, 6300, 2300, 700]

/-- R459: the default class reservations, in mA at 48 V. -/
def classRes : List Nat := [0, 10, 20, 30, 45, 60, 80, 100]

end Config

end Sys2Proof
end

