-- ==== Sys2Proof/Syntax.lean ====
section
/-! DEFINITION. The commands of the block: one constructor of `Instr` for each row of spec/opcode_table.json, with the
operands the manual gives the step (which queue, which register and value, which measured quantity). -/

namespace Sys2Proof

abbrev Hall := Fin 2
abbrev Core := Fin 128
abbrev Pos := Fin 72
abbrev Hub := Fin 8
abbrev Port := Fin 6
abbrev Job := Fin 16
abbrev Sem := Fin 4096

/-- R42: the core queue kinds, with their queue index. -/
inductive QKind
  | mq | wq | vq | tq
  deriving DecidableEq, Repr

/-- R42, R44: a core queue of a logical core, or the CQ ring of a job context in a hall. -/
inductive QRef
  | core (n : Core) (k : QKind)
  | cq (h : Hall) (j : Job)
  deriving DecidableEq, Repr

/-- R499: access widths of a BAR0 request. -/
abbrev Width := Nat

/-- R511: the flip-mask registers, by the memory each covers. -/
inductive FlipTarget
  | drn (h : Hall) (p : Pos)
  | wvr (h : Hall) (p : Pos)
  | lmp (h : Hall) (p : Pos)
  | ful (h : Hall) (p : Pos)
  | asy (h : Hall) (p : Pos)
  | asyCrc (h : Hall) (p : Pos)
  | ctr (h : Hall) (p : Pos)
  | sto (h : Hall) (p : Pos)
  | sea (h : Hall)
  | hub (h : Hall) (j : Hub)
  | lnk (h : Hall) (j : Port)
  | mesh (h : Hall)
  | seam (h : Hall)
  deriving DecidableEq, Repr

/-- R341: who reads or writes at a memory hub, with the code EV_MEM_UE carries. -/
inductive Reader
  | fetch | descriptor | ring | carter | walk | writeBack | scrub | drover | cooper | host | steward
  deriving DecidableEq, Repr

/-- R36, R341: who asks a memory hub, from which stop. -/
structure Asker where
  stop : Fin 180
  reader : Reader
  deriving DecidableEq, Repr

/-- R368: what a hall sends once more: the access of its stops to a memory hub that comes after `skip` others, with the `later` ones after it, or
the signal at place `i` among those on their way. -/
inductive Resend
  | access (skip later : Nat)
  | signal (i : Nat)
  deriving DecidableEq, Repr

/-- R369: what a hall loses: an access or a signal, named in the same way. -/
inductive Loss
  | access (skip : Nat)
  | signal (i : Nat)
  deriving DecidableEq, Repr

/-- R424: the domain whose PLL lost lock. -/
inductive PllDomain
  | core (h : Hall) | bench (h : Hall) | mesh (h : Hall) | memc (h : Hall) (j : Hub) | mgmt (h : Hall) | host (h : Hall)
  deriving DecidableEq, Repr

/-- R423 source 32, R518, R519: what left regulation. -/
inductive Supply
  | coreIsland (h : Hall) | mesh | memory | optics | mgmtConverter | mgmt33 | input48
  deriving DecidableEq, Repr

/-- R380: a symbol of a lane's codewords. -/
abbrev Sym := BitVec 10

/-- R380: one symbol of a codeword that arrives wrong: its place and the bits inverted. -/
structure SymError where
  pos : Fin 544
  mask : Sym
  deriving DecidableEq, Repr

/-- R380, R383: a codeword as it arrives: the active slot of its lane, and its symbol errors. -/
structure LaneWord where
  slot : Fin 4
  errors : List SymError
  deriving DecidableEq, Repr

/-- R382: what a training reaches: the lanes trained, and whether the receiver has deskewed them. -/
structure Training where
  lanes : List (Fin 5)
  deskewed : Bool
  deriving DecidableEq, Repr

/-- R385: the header of a Zodun frame, with its payload, whose length is LEN. -/
structure Frame where
  src : BitVec 12
  dst : BitVec 12
  vl : Fin 4
  kind : BitVec 3
  form : BitVec 4
  dfmt : BitVec 4
  seq : W32
  collId : W32
  jobTag : W32
  rstep : BitVec 12
  chunk : BitVec 12
  offset : W32
  contrib : W16
  tscale : Byte
  step : W32
  maskVersion : W32
  poison : W64
  pcrc : W32
  hcrc : W32
  payload : List Byte
  deriving DecidableEq, Repr

/-- R381: what a control codeword carries, with the codeword as it arrives. Of the time-base exchange (R400) `timeOffset` is the peer's offset
as measured, in units of 0.25 ns, and `master` the fabric address of the master the peer follows. -/
structure ControlCodeword where
  word : LaneWord
  lfa : BitVec 12
  credits : List Nat
  ack : Option W32
  replay : Option W32
  handover : Option (Fin 4)
  timeOffset : Int
  hops : Nat
  master : BitVec 12
  deriving DecidableEq, Repr

/-- R485: the sixteen bytes of a tally-chain frame, without its TYPE. -/
structure ChainFrame where
  seq : Byte
  addr : W16
  data : W64
  crc : W32
  deriving DecidableEq, Repr

/-- R484, R495: what a configuration request writes beside the BARs: Bus Master Enable, and MSI-X Enable and Function Mask of the PCIe MSI-X
rules. -/
structure PcieControl where
  busMaster : Bool
  msixEnable : Bool
  msixMask : Bool
  deriving DecidableEq, Repr

/-- R482, R484, R495: the fields of a hall's PCIe configuration space that the manual names. -/
inductive ConfigField
  | vendorId | deviceId | classCode | maxPayload | vectors | bar0 | bar2 | busMaster | msixEnable | msixMask
  deriving DecidableEq, Repr

/-- R529: the temperature sensors. -/
inductive Sensor
  | die | package | optics
  deriving DecidableEq, Repr

/-- R529: a sensor and what it reads, in °C. -/
structure Reading where
  sensor : Sensor
  temp : Byte
  deriving DecidableEq, Repr

/-- R344, R450: a row of a module hub's channel. -/
structure BadRow where
  hub : Fin 16
  channel : Fin 32
  bank : Fin 16
  row : BitVec 32
  deriving DecidableEq, Repr

/-- R450: what a self-test finds failing: positions, rows and packages (module hub and slot), and whether the mesh, the Joiner or another thing that
it covers failed, for which R450 names no consequence. -/
structure Findings where
  positions : List (Hall × Pos)
  rows : List BadRow
  packages : List (Fin 16 × Fin 8)
  other : Bool
  deriving DecidableEq, Repr

/-- R523: the two uses of SAMPLE/PRELOAD. -/
inductive ScanUse
  | sample | preload (v : W64)
  deriving DecidableEq, Repr

/-- The rows of the opcode table. -/
inductive Instr
  -- control opcodes and engine opcodes (R58): the queue whose oldest command in flight is executed
  | ctlNop (q : QRef)
  | semWait (q : QRef)
  | semSignal (q : QRef)
  | fence (q : QRef)
  | fenceEvent (q : QRef)
  | syncSwapmark (n : Core) (k : QKind)
  | loomLoadw (n : Core)
  | loadwWritePart (n : Core)
  | loomMatmul (n : Core)
  | loomMatmulT (n : Core)
  | lampLoadf (n : Core)
  | lampPredict (n : Core)
  | bitmapReplace (n : Core)
  | glnConfig (n : Core)
  | glnFence (n : Core)
  | wvrSpmm (n : Core)
  | wvrGather (n : Core)
  | wvrDispatch (n : Core)
  | maskScout (n : Core)
  | fulRun (n : Core)
  | fulSoftmax (n : Core)
  | fulAdam (n : Core)
  | fulSgdm (n : Core)
  | maskPrune (n : Core)
  | maskRegrow (n : Core)
  | maskRepair (n : Core)
  | ctrCopy (n : Core)
  | ctrFill (n : Core)
  | ctrPermute (n : Core)
  | drvAllgather (h : Hall) (j : Job)
  | drvRedscat (h : Hall) (j : Job)
  | drvBcast (h : Hall) (j : Job)
  | drvBarrier (h : Hall) (j : Job)
  -- life of a command
  | commandFetch (q : QRef)
  | waitMet (q : QRef)
  | grantAdmit (h : Hall)
  | semaphoreSignalApply (i : Nat)
  | brokenMark (q : QRef)
  | swapWindowOpen (n : Core)
  | swapWindowClose (n : Core)
  -- host register writes
  | qDoorbell (q : QRef) (v : W32)
  | qRestart (q : QRef) (v : W32)
  | qEnable (q : QRef) (v : W32)
  | qDisable (q : QRef) (v : W32)
  | semAdd (h : Hall) (i : Sem) (v : W64)
  | semSet (h : Hall) (i : Sem) (v : W64)
  | stwOwnWrite (n : Core) (v : W32)
  | stwSemgrpWrite (h : Hall) (g : Fin 64) (v : W32)
  | xlateInv (v : W32)
  | xlateInvDone
  | seaSlotCfgWrite (j : Job) (i : Fin 255) (v : W32)
  | seaJobEnable (j : Job) (v : W32)
  | seaJobDiscard (j : Job)
  | sealerClose (j : Job)
  | tnkReqWrite (h : Hall) (v : W32)
  | asyInject (h : Hall) (p : Pos) (v : W32)
  | flipArm (t : FlipTarget) (v : W32)
  | hubPkgRetire (h : Hall) (j : Hub) (i : Fin 8)
  | lnkLaneRetireWrite (h : Hall) (p : Port) (v : W32)
  | belStickyClear (h : Hall) (v : W64)
  | belForce (h : Hall) (v : W64)
  | killedClear (j : Job)
  | selftestStart (found : Findings)
  | copEnable (j : Job) (v : W32)
  | copRestore (j : Job)
  | copFetch (j : Job)
  | copIntervalWrite (j : Job) (v : W32)
  | cooperTrigger (j : Job)
  | cooperCopyDone (j : Job)
  | stwStartRetry (h : Hall)
  | hallReload (h : Hall) (v : W32)
  | flashRead (h : Hall)
  | flashProgram (h : Hall)
  | flashErase (h : Hall)
  | flashOpReserved (h : Hall)
  | scbRingEnable (h : Hall) (v : W32)
  | scbRingConsWrite (h : Hall) (v : W32)
  | registerWrite (h : Hall) (addr : BitVec 26) (width : Width) (v : W64)
  | bar2Read (h : Hall) (offset : BitVec 36) (len : Nat)
  | bar2Write (h : Hall) (offset : BitVec 36) (data : List Byte)
  -- events, faults and the pin
  | eventWrite (h : Hall)
  | msixFire (h : Hall) (v : Fin 17)
  | bellmanReport (h : Hall) (src : Fin 44) (cls : Fin 7) (job : Option Job)
  | slotDrop (n : Core)
  | aliveToggle
  -- memory hubs
  | hubReadRequest (pa : Nat) (len : Nat) (a : Asker) (job : Option Job)
  | hubWriteRequest (pa : Nat) (data : List (Byte × Bool)) (a : Asker) (job : Option Job)
  | hubFenceFlush (h : Hall) (j : Hub) (job : Job)
  | patrolScrub (h : Hall) (j : Hub) (ch : Fin 32)
  | refresh (h : Hall) (j : Hub) (ch : Fin 32)
  | mr4Read (h : Hall) (j : Hub) (i : Fin 8) (temp : Byte)
  | wck2dqTrack (h : Hall) (j : Hub) (ch : Fin 32) (reading : W16)
  | retrainWindow (h : Hall) (j : Hub) (ch : Fin 32) (ok : Bool)
  | repairLogAppend (h : Hall)
  -- the mesh and the Joiner
  | meshResend (h : Hall) (x : Resend)
  | meshLost (h : Hall) (x : Loss)
  | routerFailed (h : Hall) (stop : Fin 90)
  | seamWireLog (h : Hall) (link : Fin 18) (wire : W16)
  -- Zodun links and the Drover
  | frameReceive (h : Hall) (p : Port) (header payload : List Byte) (headWords dataWords : List LaneWord)
  | controlCodeword (h : Hall) (p : Port) (c : ControlCodeword)
  | frameReplayTimeout (h : Hall) (p : Port)
  | laneRotate (h : Hall) (p : Port)
  | laneRetire (h : Hall) (p : Port) (lane : Fin 5)
  | portTrain (h : Hall) (p : Port) (t : Training) (peer : Option (BitVec 12))
  | linkClockLost (h : Hall) (p : Port)
  | drvTimeout (h : Hall) (j : Job)
  -- the bench and the Miller
  | benchPeriodStart (h : Hall)
  | benchRound (h : Hall) (matched : Bool) (test : W16)
  | benchPause (h : Hall)
  | millerWindow (iIn : Nat) (vIn : Nat)
  | millerYield (h : Hall)
  | derateEnd
  -- start-up, supplies and temperature
  | coldStart
  | efuseTrip
  | vrFault (supply : Supply)
  | vinOut (vIn : Nat)
  | thermWarn (r : Reading)
  | thermTrip (temp : Byte)
  | pllUnlock (d : PllDomain)
  | stewardWatchdog (h : Hall)
  | hostLinkDown (h : Hall)
  -- the tally chain
  | chainEnum (f : ChainFrame)
  | chainSetLfa (f : ChainFrame)
  | chainStatus (f : ChainFrame)
  | chainIdent (f : ChainFrame)
  | chainRestart (f : ChainFrame)
  | chainForward (type : Byte) (f : ChainFrame)
  | chainInputLost
  -- boundary scan
  | bypass
  | samplePreload (u : ScanUse)
  | extest
  | clamp
  | idcode
  | trstReset
  -- supplies, cooling and host link, continued
  | mgmtSupplyUp
  | mgmtSupplyLost
  | thermWarnClear
  | hostLinkUp (h : Hall)
  | pcieConfigWrite (h : Hall) (bar0 bar2 : W64) (c : PcieControl)
  | copFetchTimeout (j : Job)
  deriving DecidableEq, Repr

end Sys2Proof
end

