-- ==== Sys2Proof/Machine/State.lean ====
section
/-! DEFINITION. The state of the module as plain data, and the state at step 12 of the cold start (R477, R503). Large pieces
are sparse tables (`Tab`): an unlisted key reads as the reset value of its kind. -/

namespace Sys2Proof.Machine

/-! ## Queues, semaphores and ownership (02) -/

/-- STW_Q_STAT.STATE (R45). -/
inductive QState
  | disabled | idle | run | wait | mark | haltFault | haltWait | fenced
  deriving DecidableEq, Repr

/-- Where a fetched command stands before its start: at its semaphore wait (stage 3), past it but held by the order of R56 or the
readiness of R137, with its request at the Miller (stage 4), or failed at its fetch or its checks while commands before it run (R70). -/
inductive Stage
  | wait | ready | request | failed
  deriving DecidableEq, Repr

/-- How a command fails before its start: a check (R52), or a read of its slot or descriptor block that meets a translation fault (its
cause, level and address), a fresh uncorrectable error or a poisoned line (R74, R306). -/
inductive FrontFail
  | check (status : Nat) | xlate (cause level va : Nat) | fresh | poison
  deriving DecidableEq, Repr

/-- One element of the accumulation buffer (R95, R155): the integer a and its tag, or an FP32 pattern in `a` on the float paths. `ecc` is what its
reader will find: 1 a corrected error, 2 an uncorrectable one (R511). -/
structure AccEl where
  a : Int := 0
  tag : Nat := 0
  poison : Bool := false
  ecc : Nat := 0
  deriving DecidableEq, Repr

/-- A kept entry of a placement (R112, R114, R132): contraction position, physical row, output column, the integer that enters the
array with its exponent code (A8), or the FP32 pattern of a float element. -/
structure Entry where
  k : Nat
  row : Nat
  col : Nat
  w : Int
  ew : Nat := 0
  bits : W32 := 0
  deriving DecidableEq, Repr

/-- R129: a placement held by a weight plane; `copyErr` is how many bits of the Assayer's copy of it are in error
(R283, R291), and `copyData` those of them in the first entry's data (R303). -/
structure Plane where
  fmt : BitVec 4
  pat : BitVec 4
  trans : Bool
  place : Nat
  cols : Nat
  entries : List Entry
  scales : Tab W32
  dropped : Bool
  loadw : BitVec 512
  copyErr : Nat := 0
  copyData : Nat := 0
  deriving DecidableEq, Repr

/-- A span bitmap (R201): bit s of row r is bit s of the r-th number. -/
structure Bitmap where
  rows : Nat
  nspan : Nat
  bits : List Nat
  deriving DecidableEq, Repr

/-- What the stage part of a LOOM.LOADW leaves for its write part (R133): the placement and the metadata counts, or the status
of the fault it met. -/
structure Staged where
  status : W16
  plane : Option Plane
  overfull : Nat
  range : Nat
  order : Nat
  deriving DecidableEq, Repr

/-- The progress of a Drover command (R393 to R397): the ring step being received with the segments taken on each channel, the partial
received so far, the local count word, the chunks received, the stale ones (R410, R412), and the frames resent (R398). -/
structure Coll where
  k : Nat := 0
  got : List Nat := []
  part : List (Nat × List (Byte × Bool)) := []
  contrib : Nat := 0
  own : Nat := 0
  ownBad : Bool := false
  received : Nat := 0
  stale : Nat := 0
  staleNow : Bool := false
  halt : Bool := false
  firstColl : Option W32 := none
  resent : Nat := 0
  deriving DecidableEq, Repr

/-- A fetched command that has not started, with its Carter descriptor block where it has one (R306). -/
structure Front where
  seq : W32
  cmd : BitVec 512
  desc : BitVec 1024
  stage : Stage
  fail : Option FrontFail := none
  dest : List (Nat × Nat) := []
  deriving DecidableEq, Repr

/-- A command in flight (stage 5 of R53 to stage 8). `charge` is what its class costs the grant it runs under (R457, R460). `covers` is what a fence waits for (R65) and `flushed` the module hubs that have served its flush (R335); `unacked`
marks a command one of whose writes was never acknowledged (R369), so that stage 7 of R53 never holds for it; `done` holds a computed bitmap
(R201) that replaces the held one when the command completes; `sealT` the tensor scale codes
of the job context's Sealer slots at its start (R267), and `dest` the runs of store bytes that its operands name as its destination (R75). -/
structure InFlight where
  seq : W32
  cmd : BitVec 512
  desc : BitVec 1024
  start : W64
  covers : List (Nat × W32) := []
  flushed : List Nat := []
  staged : Option Staged := none
  bitmap : Option Bitmap := none
  coll : Option Coll := none
  sealT : Tab Int := []
  unacked : Bool := false
  dest : List (Nat × Nat) := []
  charge : Nat := 0
  deriving DecidableEq, Repr

/-- R460: the grant a queue holds. -/
structure Grant where
  cc : BitVec 3
  charge : Nat
  lent : Nat
  since : W64
  yield : Bool := false
  deriving DecidableEq, Repr

/-- R76: the originating event of a boundary: its SEQ, SOURCE and SEVERITY. -/
structure Origin where
  seq : W32 := 0
  source : Byte := 0xFF
  sev : BitVec 3 := 2
  deriving DecidableEq, Repr

/-- R71: what a halted queue has still to mark BROKEN: the semaphores its known commands name in SSEM, the sequence numbers
`first` to `upto` - 1 that are still in the ring, the originating event of the boundary, and the FENCE.EVENT commands (queue and sequence
number) whose marker follows what the marks cause (R66). -/
structure Marking where
  sems : List Nat
  first : W32
  upto : W32
  origin : Origin
  fences : List (Nat × W32) := []
  deriving DecidableEq, Repr

/-- One queue block (R45) with the commands the queue holds. -/
structure Queue where
  base : W64 := 0
  cbase : W64 := 0
  enable : Bool := false
  job : BitVec 4 := 0
  sizeLog2 : BitVec 4 := 0
  prod : W32 := 0
  lastStatus : W16 := 0
  state : QState := .disabled
  cmplSeq : W32 := 0
  haltSeq : W32 := 0
  fetchSeq : W32 := 0
  front : Option Front := none
  inflight : List InFlight := []
  grant : Option Grant := none
  qwait : W32 := 0
  reqTime : W64 := 0
  markings : List Marking := []
  origin : Origin := {}
  deriving DecidableEq, Repr

/-- R62, R64: a semaphore. WAITERS is computed from the queues; `origin` is the boundary that set BROKEN (R76). -/
structure Semaphore where
  value : W64 := 0
  wrap : Bool := false
  broken : Bool := false
  origin : Origin := {}
  deriving DecidableEq, Repr

/-- STW_OWN and STW_SEMGRP (R505, R506). -/
structure Owner where
  owned : Bool := false
  job : BitVec 4 := 0
  deriving DecidableEq, Repr

/-- Who sent a signal: a command (R535), the host, the Sealer or the Cooper. -/
inductive SignalFrom
  | command (q : Nat) (seq : W32) (job : BitVec 4)
  | host
  deriving DecidableEq, Repr

/-- A signal on its way to its semaphore (R62, R63): held by its source, the stop `stop`, until it is answered, under number `num` of the series
of that stop towards the semaphores of the hall (R368); `notify` tells that stage 10 of its command follows it (R53), and `fences` names the
FENCE.EVENT commands whose marker follows what it causes (R66). -/
structure Signal where
  sem : Nat
  add : W64
  source : SignalFrom
  stop : Nat := 44
  num : Nat := 0
  notify : Bool := false
  fences : List (Nat × W32) := []
  deriving DecidableEq, Repr

/-- R368: one series of transactions, from one source to one destination on one network and VC: how many have been sent, and how many applied. -/
structure Series where
  sent : Nat := 0
  applied : Nat := 0
  deriving DecidableEq, Repr

/-! ## The logical core (01, 05, 06, 08) -/

/-- R153: the accumulation that is open. -/
structure Acc where
  rows : Nat
  path : Nat
  cols : Nat
  gate : Bool
  passes : Nat
  banded : Bool
  dropped : Bool
  bitmap : Option Bitmap
  els : Tab AccEl
  deriving DecidableEq, Repr

/-- R136: a plane as the MQ tracks it at check time. -/
structure PlaneDesc where
  fmt : BitVec 4
  pat : BitVec 4
  trans : Bool
  place : Nat
  cols : Nat
  deriving DecidableEq, Repr

/-- R136, R196, R200: the MQ's tracking in command order at check time. -/
structure MqTrack where
  plane0 : Option PlaneDesc := none
  plane1 : Option PlaneDesc := none
  acc : Option (Nat × Nat × Nat × Bool × Nat) := none
  slot0 : Option Nat := none
  slot1 : Option Nat := none
  projOpen : Option (Nat × Nat × Nat) := none
  projHeld : Option Nat := none
  bitmap : Option (Nat × Nat) := none
  glnMode : Nat := 0
  logUsed : Nat := 0
  logSize : Nat := 0
  logBase : Nat := 0
  gated : Bool := false
  loadw0 : BitVec 512 := 0
  loadw1 : BitVec 512 := 0
  deriving DecidableEq, Repr

/-- R199: a factor set held by a factor slot. -/
structure Factors where
  nspan : Nat
  su : List W32
  beta : List W32
  v : List (List Int)
  deriving DecidableEq, Repr

/-- R198, R200: the projection accumulator, in units of 2^-16; `ecc` is what a reader of its first entry will find (R511). -/
structure Projection where
  isOpen : Bool
  rows : Nat
  tx : Int
  count : Nat
  q : Tab Int
  ecc : Nat := 0
  deriving DecidableEq, Repr

/-- One logged gated matrix command (R211): where its entry lies in the store, what is in use of the log to its end (in units of 64 bytes, R220),
and, once it has run, the bitmap it used. `fin` holds the
finished elements of a LAST command, each with its saturation, `banded` and `dropped` the marks of its tiles. -/
structure LogEntry where
  cmd : BitVec 512
  loadw : BitVec 512
  seq : W32
  off : Nat
  used : Nat := 0
  t : Int := 0
  bitmap : Option Bitmap := none
  dest : List (Nat × Nat) := []
  fin : List (List (W32 × Bool)) := []
  banded : Bool := false
  dropped : Bool := false
  deriving DecidableEq, Repr

/-- The Gleaner of a logical core (R205, R206). -/
structure Gleaner where
  mode : Nat := 0
  nlog2 : Nat := 0
  gbase : Nat := 0
  logBase : Nat := 0
  logSize : Nat := 0
  raw : BitVec 160 := 0
  thetaRaw : W32 := 0
  theta : W32 := 0
  thetaMin : W32 := 0
  thetaMax : W32 := 0
  delta : W32 := 0
  mu : W32 := 0
  target : Nat := 0
  windowM1 : Nat := 0
  phase : Nat := 0
  moved : Bool := false
  skipped : Nat := 0
  madeup : Nat := 0
  audited : Nat := 0
  misses : Nat := 0
  wasted : Nat := 0
  winAud : Nat := 0
  winMiss : Nat := 0
  adjDown : Nat := 0
  adjUp : Nat := 0
  pending : Bool := false
  log : List LogEntry := []
  deriving DecidableEq, Repr

/-- R29 to R35, R504: an open swap window of a logical core; `copying` is a rotation whose store copy runs (R33). -/
structure SwapRun where
  start : W64
  old : Nat
  new : Nat
  cause : Nat
  swapped : Bool
  copying : Bool := false
  deriving DecidableEq, Repr

/-- What follows a logical core: its planes, its accumulation, its Lamplighter and Gleaner, its map entry and its window; `fenceTime` is when it
was fenced last (R29), `dropPending` a drop of its sample slots that the Steward has still to make (R436). -/
structure LCore where
  pos : Nat := 127
  fenced : Bool := false
  fenceTime : W64 := 0
  swap : Option SwapRun := none
  window : Option W32 := none
  track : MqTrack := {}
  plane0 : Option Plane := none
  plane1 : Option Plane := none
  acc : Option Acc := none
  slot0 : Option Factors := none
  slot1 : Option Factors := none
  proj : Option Projection := none
  bitmap : Option Bitmap := none
  gln : Gleaner := {}
  killOrigin : Option Origin := none
  dropPending : Bool := false
  deriving DecidableEq, Repr

/-! ## The physical position (05 to 14) -/

/-- A flip-mask register (R511). -/
structure Flip where
  arm : Bool := false
  check : Nat := 0
  data : Nat := 0
  sel : Nat := 0
  deriving DecidableEq, Repr

/-- An ECC register: corrected and uncorrectable counts. -/
structure Ecc where
  ce : Nat := 0
  ue : Nat := 0
  deriving DecidableEq, Repr

/-- TNK_POS.STATE (R26, R304). -/
inductive PosStatus
  | inService | bench | ready | retired | hole
  deriving DecidableEq, Repr

/-- R349: one store byte with its four check bits. -/
structure SByte where
  d : Byte := 0
  c : BitVec 4 := 0
  deriving DecidableEq, Repr

/-- R296: the record of an aligned 4 KiB store block. -/
structure BlockRec where
  value : W32 := 0
  valid : Bool := false
  err : Nat := 0
  deriving DecidableEq, Repr

/-- The registers of a core block that belong to the position (R509), the position's standing and its store. -/
structure Position where
  status : PosStatus := .ready
  fenced : Bool := false
  islandOn : Bool := true
  assays : Nat := 0
  ueSince : Nat := 0
  lastBench : Option W64 := none
  heldBench : Bool := false
  benchReq291 : Bool := false
  assayFence : Bool := false
  assayLogged : Bool := false
  bandTotal : W32 := 0
  feedWait : W32 := 0
  drnSat : W32 := 0
  drnNanTile : W32 := 0
  drnFlip : Flip := {}
  drnEcc : Ecc := {}
  wvrMatch : W32 := 0
  wvrQfull : W32 := 0
  wvrDrop : W32 := 0
  wvrFlip : Flip := {}
  wvrEcc : Ecc := {}
  lmpActive : W32 := 0
  lmpSkip : W32 := 0
  lmpFlip : Flip := {}
  lmpEcc : Ecc := {}
  glnMadeupCyc : W32 := 0
  glnAbandon : W32 := 0
  fulOdd : W32 := 0
  fulBusy : W32 := 0
  fulFlip : Flip := {}
  fulEcc : Ecc := {}
  asyEnable : Bool := true
  asyInject : Bool := false
  asyPasses : W32 := 0
  asyMismatch : W32 := 0
  asyUnchecked : W32 := 0
  asyCrcRetry : W32 := 0
  asyCrcFail : W32 := 0
  asyLastValid : Bool := false
  asyLastColValid : Bool := false
  asyLastRowValid : Bool := false
  asyLastCol : Nat := 0
  asyLastRow : Nat := 0
  asyFlip : Flip := {}
  asyCrcFlip : Flip := {}
  asyEcc : Ecc := {}
  ctrRd : W32 := 0
  ctrWr : W32 := 0
  ctrNarrow : W32 := 0
  ctrXmiss : W32 := 0
  ctrFlip : Flip := {}
  ctrEcc : Ecc := {}
  stoFlip : Flip := {}
  stoEcc : Ecc := {}
  store : Tab SByte := []
  records : Tab BlockRec := []
  deriving DecidableEq, Repr

/-! ## Memory hubs and translation (13, 14) -/

/-- R339: what differs, in a stored pair, from the code word of its data: the data symbols and the eight check bytes. -/
structure PairErr where
  syms : List (Nat × W16) := []
  chk : W64 := 0
  deriving DecidableEq, Repr

/-- R334: a line of the write-combining buffer, with its byte mask and 8 check bits for each 8 bytes. -/
structure BufLine where
  line : Nat
  mask : W64
  data : BitVec 512
  chk : W64 := 0
  poison : Bool
  job : Option Job
  deriving DecidableEq, Repr

/-- HUB_PKG (R350). -/
structure Package where
  retired : Bool := false
  cause : Nat := 0
  temp : Byte := 0
  hard : Nat := 0
  retrainFail : Nat := 0
  repaired : Nat := 0
  deriving DecidableEq, Repr

/-- HUB_SHADOW (R350). -/
structure Shadow where
  valid : Bool := false
  ch : Nat := 0
  bank : Nat := 0
  row : Nat := 0
  deriving DecidableEq, Repr

/-- A channel: whether its last retraining window failed, the windows of the round that have passed, the last reading of its oscillators
(R348), the rows of the scrub pass done (R343), and the refreshes issued (R347). -/
structure Channel where
  failed : Bool := false
  windows : Nat := 0
  osc : W16 := 0
  scrubPos : Nat := 0
  refreshes : W32 := 0
  deriving DecidableEq, Repr

/-- A memory hub (R350). `windowEnd` is when the retraining window opened last ends (R348), `hardRows` the hard rows without a shadow (R344),
`crcRetry` and `crcFail` the segments that a second sending cleared and those it did not (R297). -/
structure HubState where
  buf : List BufLine := []
  window : Nat := 0
  windowEnd : W64 := 0
  hardRows : List (Nat × Nat × Nat) := []
  crcRetry : W32 := 0
  crcFail : W32 := 0
  ce : W32 := 0
  ue : W32 := 0
  poisonRd : W32 := 0
  retAcc : W32 := 0
  flush : W32 := 0
  scrubPasses : W16 := 0
  lastUeValid : Bool := false
  lastUePa : Nat := 0
  flip : Flip := {}
  flipChk : W64 := 0
  pkgs : Tab Package := []
  shadows : Tab Shadow := []
  channels : Tab Channel := []
  fullTold : Bool := false
  deriving DecidableEq, Repr

/-- A table pointer that a hall has cached (R322): the entry of a level whose table maps the addresses with prefix `pre`, and the next table. -/
structure Ptr where
  job : Job
  level : Nat
  pre : Nat
  table : Nat
  deriving DecidableEq, Repr

/-- A cached leaf translation (R322). -/
structure Leaf where
  job : Job
  va : Nat
  size : Nat
  pa : Nat
  write : Bool
  deriving DecidableEq, Repr

/-! ## Zodun ports (16) -/

/-- A frame in the retry buffer (R387) with the times it has been replayed in a row, and the bits of its first word that LNK_FLIP
inverted. -/
structure Unacked where
  frame : Frame
  replays : Nat
  flip : Flip := {}
  deriving DecidableEq, Repr

/-- A frame in a receive buffer (R388), with the SEQ of its EV_CRC where it was accepted with its payload check failed (R386), and the bits of
its first word that LNK_FLIP inverted. -/
structure RxFrame where
  frame : Frame
  bad : Option W32 := none
  flip : Flip := {}
  deriving DecidableEq, Repr

/-- R381: what a control codeword of this module carries: `time` and `master` are its side of the time-base exchange (R400). -/
structure ControlSent where
  lfa : BitVec 12
  credits : List Nat
  ack : Option W32
  replay : Option W32
  handover : Option (Fin 4)
  time : W64
  hops : Nat
  master : BitVec 12
  deriving DecidableEq, Repr

/-- R380: the codeword of 544 symbols that an active slot last sent: a control codeword with what it tells, one with frame bytes, or one with none. -/
inductive SentWord
  | control (c : ControlSent) (w : List Sym) | data (w : List Sym) | idle (w : List Sym)
  deriving DecidableEq, Repr

/-- LNK_LANE (R401), with the symbols that arrived wrong in the second under way. -/
structure Lane where
  role : Nat := 6
  ser : Nat := 0
  bad : Nat := 0
  cal : W16 := 0
  retired : Bool := false
  deriving DecidableEq, Repr

/-- A Zodun port with its link hub registers (R401), sequence numbers, buffers and credits (R387, R388); `hops`, `offset`
and `master` are what the peer's control codewords told (R400), `owed` the credits the next control codeword returns, and `rxSlots` and
`rxSpare` the lanes of the receiving direction (R383). `line` holds the half bytes of frames not yet in a codeword, `round` counts codeword times,
`control` is the last control codeword sent, and `sent` what the slots last sent (R380, R381). `lost` tells that the port went down and has not come up since; `both` names a lane that still carries a slot beside
the lane it was handed to, with the codewords left (R383). -/
structure PortState where
  up : Bool := false
  lost : Bool := false
  active : Nat := 0
  spare : Option (Fin 5) := none
  rxSlots : List (Fin 5) := []
  rxSpare : Option (Fin 5) := none
  handover : Option (Fin 4) := none
  both : Option (Fin 5 × Fin 4 × Nat) := none
  peer : BitVec 12 := 0
  lanes : Tab Lane := []
  rotS : Byte := 2
  rotSlot : Nat := 0
  fecCorr : W32 := 0
  fecUnc : W32 := 0
  replayed : W32 := 0
  crcRetry : W32 := 0
  crcFail : Nat := 0
  rotates : W32 := 0
  drops : W32 := 0
  flip : Flip := {}
  rxSeq : W32 := 0
  txSeq : W32 := 0
  crcTries : Nat := 0
  askReplay : Bool := false
  retry : List Unacked := []
  egress : List Frame := []
  credits : List Nat := [8, 48, 64, 8]
  lastVl : Nat := 2
  vl3Wait : Nat := 0
  rx : List RxFrame := []
  owed : List Nat := [0, 0, 0, 0]
  hops : Nat := 255
  offset : Int := 0
  master : BitVec 12 := 0
  second : Nat := 0
  line : List (BitVec 4) := []
  round : Nat := 0
  control : Option ControlSent := none
  sent : List SentWord := []
  deriving DecidableEq, Repr

/-! ## Events (20) -/

/-- R491: an event before its record is written. -/
structure Event where
  time : W64
  seq : W32
  code : W16
  source : Byte
  severity : BitVec 3
  forced : Bool
  job : Option Job
  lockind : BitVec 4
  loc : BitVec 20
  payload : List Byte
  deriving DecidableEq, Repr

/-- R495: the count and age a vector keeps, its table entry and its pending bit. -/
structure Vector where
  addr : W64 := 0
  data : W32 := 0
  masked : Bool := true
  pendingBit : Bool := false
  count : Nat := 0
  first : W64 := 0
  urgent : Bool := false
  deriving DecidableEq, Repr

/-! ## The hall -/

/-- R476: a repair-log entry that the Steward has decided and not yet appended. -/
abbrev LogBytes := BitVec 512

/-- R459 to R461: a request at the Miller: the queue, its class with the reservation of that class at the time of the request, in mA at 48 V, and
that time. What it costs is charged when it is admitted (R457). -/
structure Request where
  queue : Nat
  cc : BitVec 3
  res : Nat
  time : W64
  deriving DecidableEq, Repr

/-- STW_SEAM_LINK (R379); `short` tells that the end has more faulty wires than spares (R373). -/
structure SeamLink where
  up : Bool := true
  short : Bool := false
  out : Bool := false
  spares : Nat := 0
  ce : Nat := 0
  failing : Bool := false
  deriving DecidableEq, Repr

/-- STW_START.STATE (R496). -/
inductive StartState
  | starting | running | flashBad | bootFail | mismatch | fault
  deriving DecidableEq, Repr

/-- R424, R503: a PLL or a supply that failed: the clock domain of the MESH, of the hub `j`, of the rest, or the supply. -/
inductive Lost
  | core | mesh | memc (j : Nat) | mgmt | host | islands | meshSupply | memorySupply | converter | other
  deriving DecidableEq, Repr

/-- R427: a failed PLL or supply: the source it raised (12 or 32), its class, what it feeds, and the domain of a PLL. -/
structure Outage where
  source : Nat
  cls : Nat
  part : Lost
  pll : Option PllDomain := none
  deriving DecidableEq, Repr

/-- R29: the swaps a hall has made in the windows of one number. -/
structure WindowUse where
  repairs : Nat := 0
  rotations : Nat := 0
  deriving DecidableEq, Repr

/-- What each hall holds of its own (Copies "hall" in 21); `back` is set by a reload of the hall while the module is down (R431). -/
structure HallState where
  -- R29, R289: the fenced cores, and the positions that have been fenced, in the order of their fencing
  fencedOrder : List Nat := []
  fencedPos : List Nat := []
  swapCount : W32 := 0
  windows : Tab WindowUse := []
  -- Tinker (R304)
  tnkEnable : Bool := true
  tnkPeriod : Nat := 15
  tnkRotAge : Nat := 24
  tnkActive : Bool := false
  tnkVerdict : Nat := 0
  tnkSlack : Nat := 0
  tnkPos : Nat := 0
  tnkRounds : Nat := 0
  tnkReqPending : Bool := false
  tnkReqPos : BitVec 7 := 0
  tnkRuns : W32 := 0
  tnkRetired : W32 := 0
  benchUnder289 : Bool := false
  benchWasRetired : Bool := false
  benchFrom : PosStatus := .ready
  benchGrant : Nat := 0
  benchSince : W64 := 0
  heldOrder : List Nat := []
  rotateReq : Option Nat := none
  -- queues (R44): the CQ ring served last
  cqTurn : Nat := 15
  -- translation (R322, R326)
  walks : W32 := 0
  ptrs : List Ptr := []
  -- the hall's MGMT clock has stopped (R378, R424)
  clockOff : Bool := false
  -- R427, R503: the PLLs and supplies that failed and are not known to be back
  conds : List Outage := []
  -- Sealer test registers (R280)
  seaFlip : Flip := {}
  seaEcc : Ecc := {}
  -- mesh and Joiner (R379)
  holes : List Nat := []
  tableGen : Byte := 0
  meshDetour : W32 := 0
  meshResend : W32 := 0
  meshLost : W32 := 0
  meshEcc : Ecc := {}
  meshFlip : Flip := {}
  seam : Tab SeamLink := []
  seamFlip : Flip := {}
  -- Bellman (R452)
  sticky : W64 := 0
  force : W64 := 0
  aliveMask : W64 := 0
  heldRouter : Nat := 0
  heldSeam : Nat := 0
  heldPll : Nat := 0
  heldVr : Nat := 0
  down : Bool := false
  back : Bool := false
  -- start, reload, flash (R496)
  start : StartState := .running
  reloadStatus : Nat := 0
  reloadMakeActive : Bool := false
  reloadSlot : Bool := false
  imageSlot : Bool := false
  imageFallback : Bool := false
  imageLogBad : Nat := 0
  imageVersion : W32 := 0
  imageCompat : W32 := 0
  flashStatus : Nat := 0
  flashOp : BitVec 2 := 0
  flashAddr : BitVec 27 := 0
  mailbox : Tab Byte := []
  flash : Tab Byte := []
  logPending : List LogBytes := []
  logHeld : List LogBytes := []
  -- host hub, Scrivener (R497)
  bar2Base : BitVec 10 := 0
  poisonRd : W32 := 0
  bar0Drop : W32 := 0
  linkUp : Bool := true
  busMaster : Bool := true
  msixEnable : Bool := true
  msixMask : Bool := false
  bar0Addr : W64 := 0
  bar2Addr : W64 := 0
  ringBase : W64 := 0
  ringEnable : Bool := false
  ringSizeLog2 : Nat := 7
  ringProd : W32 := 0
  ringCons : W32 := 0
  lost : W32 := 0
  coalCount : Nat := 1
  coalTimer : Nat := 0
  evSeq : W32 := 0
  held : List Event := []
  lostFirst : Option W32 := none
  lostNow : Nat := 0
  vectors : Tab Vector := []
  -- Miller (R469): what each hall has of its own, and the share that passed to the other hall when this one went down (R463)
  share : Nat := 0
  lent : Nat := 0
  requests : List Request := []
  ramp : List (W64 × Nat) := []
  lastAdmit : Option W64 := none
  copGrants : Tab Nat := []
  copLent : Tab Nat := []
  passed : Nat := 0
  -- Drover (R401)
  drvTimeout : Nat := 100
  aborted : List (W32 × W32 × Nat) := []
  deriving DecidableEq, Repr

/-! ## The job context (mirrored registers) -/

/-- A generation that is open in generation slot `slot` (R439, R440): 0 and 1 this module's own, 2 and 3 its predecessor's. For the latter,
the bytes of Sealer and state parts that have arrived, and whether the ledger and loss, and the parameters, have. -/
structure Gen where
  slot : Nat
  step : W32
  got : Nat := 0
  tail : Bool := false
  params : Bool := false
  poisoned : Bool := false
  unacked : Bool := false
  deriving DecidableEq, Repr

/-- The registers a job context has in both halls (R280, R326, R401, R421, R453, R454). -/
structure JobState where
  rootValid : Bool := false
  root : BitVec 36 := 0
  invalidating : Bool := false
  killed : Bool := false
  cause : Nat := 0
  slotmapEnable : Bool := false
  slotmapBase : Nat := 0
  -- Sealer (R280)
  seaEnable : Bool := false
  doneSem : Nat := 0
  closeSem : Nat := 0
  recBase : Nat := 0
  closes : W32 := 0
  seaV0 : W64 := 0
  -- Drover (R401)
  tag : W32 := 0
  ringValid : Bool := false
  succ : BitVec 12 := 0
  pred : BitVec 12 := 0
  tg : List (BitVec 12) := [0, 0, 0, 0]
  tgValid : Bool := false
  tgRank : BitVec 2 := 0
  -- ledger (R421)
  ledgerEnable : Bool := false
  ledgerBase : Nat := 0
  lastStale : W32 := 0
  staleValid : Bool := false
  staleChunks : Nat := 0
  -- Cooper (R454)
  copEnable : Bool := false
  copChmask : BitVec 3 := 0
  copDone : Nat := 0
  copTrig : Nat := 0
  stateBase : Nat := 0
  paramBase : Nat := 0
  shadowBase : Nat := 0
  genBase : Nat := 0
  lossBase : Nat := 0
  paramSize : W32 := 0
  stateSize : W32 := 0
  copStep : W32 := 0
  recLog2 : Nat := 0
  log2 : Nat := 6
  log2Next : Option Nat := none
  cost : W32 := 0
  tstep : W32 := 0
  mtbi : W32 := 0
  restoring : Bool := false
  fetching : Bool := false
  mode : Nat := 0
  result : Nat := 0
  copV0 : W64 := 0
  lastTrigger : Option W64 := none
  opening : Option (W32 × W64) := none
  closing : Option W32 := none
  openedAt : Option W64 := none
  gens : List Gen := []
  badGens : List (Nat × W32) := []
  fetched : Nat := 0
  fetchPoison : Bool := false
  replayed : Bool := false
  verifyStep : W32 := 0
  deriving DecidableEq, Repr

/-- The state of a Sealer slot (R262, R280); `stopped` is R281's stop of adaptation. `ecc0` and `ecc1` tell what a reader will find of the slot-state
word in hall 0 and hall 1: 1 a corrected error, 2 an uncorrectable one (R511). -/
structure Slot where
  fixed : Bool := false
  kind : Bool := false
  head : Nat := 2
  fall : Nat := 16
  t : Int := 0
  thresh : Nat := 64
  silent : Nat := 0
  lrun : Int := 19
  quiet : Nat := 0
  stopped : Bool := false
  ecc0 : Nat := 0
  ecc1 : Nat := 0
  deriving DecidableEq, Repr

/-- The open statistics of a slot in one hall (R265, R271); `maxFin` is the pattern of a non-negative FP32 value, `ecc` what a reader will find of their
slot-state word (R280, R511). -/
structure Stats where
  blocks : Nat := 0
  sat : Nat := 0
  unf : Nat := 0
  nan : Nat := 0
  zero : Nat := 0
  elems : Nat := 0
  nz : Nat := 0
  lost : Nat := 0
  maxFin : Nat := 0
  ecc : Nat := 0
  deriving DecidableEq, Repr

/-! ## Module level -/

/-- The Miller's registers that both halls hold (R469); `throttleFrom` is when the throttle was engaged and `warmEnd` when the thermal warning cleared
last (R468). -/
structure Miller where
  budget : Nat := 28000
  lend : Nat := 30
  margin : Nat := 20
  slack : Nat := 5
  coopCc : Nat := 2
  warn : Nat := 16
  yield : Nat := 100
  classes : List Nat := Config.classRes
  stand : List Nat := Config.standing
  iIn : Nat := 0
  vIn : Nat := 0
  throttle : Bool := false
  derate : Bool := false
  vinOut : Bool := false
  throttleUs : W32 := 0
  throttleFrom : W64 := 0
  warmEnd : W64 := 0
  benchWait : W32 := 0
  lastWindow : W64 := 0
  deriving DecidableEq, Repr

/-- The tally chain (R485 to R489, R497): the address registers and the frames sent on CHAIN_OUT. -/
structure Chain where
  inOk : Bool := false
  lfa : Option (BitVec 12) := none
  caddr : BitVec 12 := 0
  out : List (Byte × ChainFrame) := []
  deriving DecidableEq, Repr

/-- Supplies, the eFuse and the sensors (R477, R518, R519, R529): `lostAt` is when the 48 V input left regulation last, `temp` the last die
temperature above a limit, `warm` the condition of FS_THERM_WARN, `hot` that of FS_THERM_TRIP, and `dieWarm` tells that a die sensor is above its
warning limit. -/
structure Power where
  mgmt : Bool := true
  input48 : Bool := true
  die : Bool := true
  efuseOpen : Bool := false
  efuseLatch : Bool := false
  lostAt : W64 := 0
  temp : Byte := 0
  warm : Bool := false
  dieWarm : Bool := false
  hot : Bool := false
  deriving DecidableEq, Repr

/-- R523: the instruction register of the test access port. -/
inductive JtagIr
  | bypass | sample | extest | clamp | idcode
  deriving DecidableEq, Repr

/-- J_AUX (R522 to R524): the instruction, what the boundary registers hold, and whether the pins are driven (EXTEST or CLAMP entered). -/
structure Jtag where
  ir : JtagIr := .idcode
  boundary : W64 := 0
  driving : Bool := false
  deriving DecidableEq, Repr

/-- R400, R401: LNK_TIME_CFG, and whether the time base has ever locked to a peer. -/
structure TimeCfg where
  master : Bool := false
  holdover : Bool := false
  source : Nat := 15
  hops : Nat := 255
  offset : BitVec 12 := 0
  locked : Bool := false
  deriving DecidableEq, Repr

/-- R450, R453. -/
structure SelfTest where
  status : Nat := 0
  seconds : Nat := 0
  deriving DecidableEq, Repr

/-- What the part is: what its fuse map says (R126, R370, R477), namely the positions whose Loom has more than two faulty rows or columns, by
module-wide position number, and the wires of the Joiner links found faulty at manufacture, by 18 times the receiving hall plus the link, and wire;
and the halls whose flash reports another density than 1 Gbit or has no Basic Flash Parameter Table (R470). It never changes. -/
structure FuseMap where
  badLooms : List Nat := []
  wires : List (Nat × Nat) := []
  badFlash : List Nat := []
  deriving DecidableEq, Repr

/-- An access that the mesh leaves unanswered: the one of hall `hall` after `skip` others. It is sent once more with the `later` ones of its series
(R368), or lost (R369). -/
structure MeshFault where
  hall : Nat
  skip : Nat
  lost : Bool
  later : Nat := 0
  deriving DecidableEq, Repr

/-- The whole module, and the queue of commands that wait for it. `time` and `time1` are the copies of the time base that hall 0 and hall 1 hold
(R378). `outputs` counts the router outputs that VC2 packets have asked for, `promotes` those granted to them by age over VC1 (R358), one count for each
hall. `series` numbers the transactions of the mesh, `meshFault` is the one that is to get no answer, `resent` the series of the one sent once
more with how many later ones go with it (R368);
`delivered` is what the last hub read request delivered, `hostRead` what the last BAR2 read did. -/
structure State where
  pending : List Instr
  free : Nat
  order : Order
  rate : Rate
  time : W64
  time1 : W64
  fuse : FuseMap
  started : Bool
  aliveLevel : Bool
  moduleDown : Bool
  queues : Tab Queue
  sems : Tab Semaphore
  semGrp : Tab Owner
  own : Tab Owner
  signals : List Signal
  lcores : Tab LCore
  positions : Tab Position
  halls : Tab HallState
  hubs : Tab HubState
  ports : Tab PortState
  jobs : Tab JobState
  slots : Tab Slot
  stats : Tab Stats
  miller : Miller
  chain : Chain
  power : Power
  jtag : Jtag
  timeCfg : TimeCfg
  selfTest : SelfTest
  mem : List Host.Cell
  memErr : Tab PairErr
  outputs : Nat
  promotes : List W32
  series : Tab Series
  meshFault : Option MeshFault
  resent : Option (Nat × Nat)
  leafs : Tab (List Leaf)
  hostMem : List Host.Cell
  hostRead : List Byte
  hostReadPoison : Bool
  delivered : List (Byte × Bool)
  deriving DecidableEq, Repr

/-- Why a step stops. -/
inductive Fault where
  /-- A hub request at an address that does not exist: at or above the usable capacity, empty, or across a bolt
  boundary (R328: translation never produces any other address; R332: a request lies within one bolt). Raised by HUB_READ_REQUEST
  and HUB_WRITE_REQUEST only. Safe: the manual gives no such access. -/
  | noSuchAddress (pa : Nat)
  deriving DecidableEq, Repr

/-- Why a command has no meaning. -/
inductive Refusal where
  /-- The command is not modelled yet. Safe. -/
  | notModelled (mnemonic : String)
  deriving DecidableEq, Repr

/-- R508 at step 12: logical core n of a hall at position n mod 64, every position usable. -/
def resetLCores : Tab LCore :=
  (List.range 128).map fun n => (n, { pos := n % 64 })

/-- R508: positions 0 to 63 of each hall in service, the others ready spares. A ready spare is the unlisted value. -/
def resetPositions : Tab Position :=
  (List.range 64).map (fun i => (i, { status := .inService }))
    ++ (List.range 64).map (fun i => (72 + i, { status := .inService }))

/-- R472, log entry 6: the flash as shipped holds in slot A an image of 64 bytes (LENGTH 64, VERSION 0, COMPAT 0, and the
CRC-32C of no bytes, 0), and is erased elsewhere. An unlisted byte reads 0xFF. -/
def resetFlash : Tab Byte :=
  (0x0100000, 0x40) :: (List.range 63).map fun i => (0x0100001 + i, 0)

/-- A hall at step 12, with EV_START_DONE held for its ring (R477, R498). -/
def resetHall : HallState :=
  { share := 7300,
    evSeq := 1,
    flash := resetFlash,
    held := [{ time := 0, seq := 0, code := 0x0800, source := 0xFF, severity := 7, forced := false, job := none,
               lockind := 0, loc := 0, payload := [] }] }

/-- The module right after reset: step 12 of the cold start. -/
def State.reset : State :=
  { pending := [], free := 0, order := .z2T2A, rate := .mt9600, time := 0, time1 := 0, fuse := {}, started := true, aliveLevel := false,
    moduleDown := false, queues := [], sems := [], semGrp := [], own := [], signals := [],
    lcores := resetLCores, positions := resetPositions, halls := [], hubs := [], ports := [], jobs := [], slots := [],
    stats := [], miller := {}, chain := {}, power := {}, jtag := {}, timeCfg := {}, selfTest := {},
    mem := [], memErr := [], outputs := 0, promotes := [0, 0], series := [], meshFault := none,
    resent := none, leafs := [], hostMem := [], hostRead := [], hostReadPoison := false,
    delivered := [] }

end Sys2Proof.Machine
end

