-- ==== Sys2Proof/Machine/Ops.lean ====
section
/-! DEFINITION. The named operations over the tables of the state, the little-endian byte order (R10), the events (R491 to R494)
and the sticky bits of the Bellman (R425, R534). -/

namespace Sys2Proof.Machine

/-! ## Sparse tables -/

/-- What key `k` holds; an unlisted key reads as `d`. -/
def tabGet {α : Type} (d : α) (t : Tab α) (k : Nat) : α :=
  match t with
  | [] => d
  | (k', v) :: r => if k' = k then v else tabGet d r k

/-- The table with `v` at `k`, in the canonical form: keys rising, no entry equal to `d`. -/
def tabSet {α : Type} [DecidableEq α] (d : α) (k : Nat) (v : α) (t : Tab α) : Tab α :=
  match t with
  | [] => if v = d then [] else [(k, v)]
  | (k', v') :: r =>
    if k < k' then (if v = d then (k', v') :: r else (k, v) :: (k', v') :: r)
    else if k = k' then (if v = d then r else (k, v) :: r)
    else (k', v') :: tabSet d k v r

/-- The canonical form: keys strictly rising from `lo`, no entry equal to `d`. -/
def tabWfFrom {α : Type} [DecidableEq α] (d : α) (lo : Nat) (t : Tab α) : Bool :=
  match t with
  | [] => true
  | (k, v) :: r => decide (lo ≤ k) && decide (v ≠ d) && tabWfFrom d (k + 1) r

def tabWf {α : Type} [DecidableEq α] (d : α) (t : Tab α) : Bool := tabWfFrom d 0 t

/-- Every listed value changed, in the canonical form: what an unlisted key reads as stays unlisted. -/
def tabMap {α : Type} [DecidableEq α] (d : α) (f : Nat → α → α) (t : Tab α) : Tab α :=
  t.filterMap fun x => if f x.1 x.2 = d then none else some (x.1, f x.1 x.2)

/-- Device memory and host memory: an unlisted byte reads 0. -/
abbrev Memory.wf (m : List Host.Cell) : Bool := tabWf (0 : Byte) m

/-! ## Bytes and bit fields (R10) -/

/-- Bits `lo` to `lo + w - 1` of a number. -/
def bitsOf (n lo w : Nat) : Nat := (n >>> lo) % 2 ^ w

/-- One bit of a number. -/
def bitOf (n lo : Nat) : Bool := bitsOf n lo 1 == 1

/-- A Bool as a bit. -/
def boolNat (b : Bool) : Nat := if b then 1 else 0

/-- The number `v` with bits `lo` to `lo + w - 1` replaced by `x`. -/
def setBits (v lo w x : Nat) : Nat :=
  v - bitsOf v lo w * 2 ^ lo + (x % 2 ^ w) * 2 ^ lo

/-- The `n` little-endian bytes of a number. -/
def leBytes (n v : Nat) : List Byte := (List.range n).map fun i => BitVec.ofNat 8 (v >>> (8 * i))

/-- The number little-endian bytes stand for. -/
def leNat (bs : List Byte) : Nat := bs.foldr (fun b acc => b.toNat + 256 * acc) 0

/-- The number of bits set. -/
def popCount (n w : Nat) : Nat := ((List.range w).filter fun i => bitOf n i).length

/-- Sign extension of a `w`-bit number. -/
def signed (w v : Nat) : Int := if v % 2 ^ w < 2 ^ (w - 1) then (v % 2 ^ w : Nat) else (v % 2 ^ w : Nat) - (2 ^ w : Nat)

/-- A saturating count. -/
def satAdd (limit a b : Nat) : Nat := min limit (a + b)

/-- `n` items of a list from `i`, with `d` where the list ends. -/
def sliceD {α : Type} (d : α) (l : List α) (i n : Nat) : List α :=
  (List.range n).map fun j => l.getD (i + j) d

/-- `l` cut into pieces of `n`. -/
def chunksOf {α : Type} (n : Nat) (l : List α) : List (List α) :=
  (List.range ((l.length + (n - 1)) / n)).map fun i => (l.drop (i * n)).take n

/-- The list with item `i` replaced. -/
def listSet {α : Type} (l : List α) (i : Nat) (v : α) : List α := l.set i v

/-! ## The parts of the state -/

def getQueue (s : State) (k : Nat) : Queue := tabGet {} s.queues k
def setQueue (s : State) (k : Nat) (v : Queue) : State := { s with queues := tabSet {} k v s.queues }
def modQueue (s : State) (k : Nat) (f : Queue → Queue) : State := setQueue s k (f (getQueue s k))

def getSem (s : State) (k : Nat) : Semaphore := tabGet {} s.sems k
def setSem (s : State) (k : Nat) (v : Semaphore) : State := { s with sems := tabSet {} k v s.sems }

def getSemGrp (s : State) (k : Nat) : Owner := tabGet {} s.semGrp k
def setSemGrp (s : State) (k : Nat) (v : Owner) : State := { s with semGrp := tabSet {} k v s.semGrp }

def getOwn (s : State) (k : Nat) : Owner := tabGet {} s.own k
def setOwn (s : State) (k : Nat) (v : Owner) : State := { s with own := tabSet {} k v s.own }

def getCore (s : State) (k : Nat) : LCore := tabGet {} s.lcores k
def setCore (s : State) (k : Nat) (v : LCore) : State := { s with lcores := tabSet {} k v s.lcores }
def modCore (s : State) (k : Nat) (f : LCore → LCore) : State := setCore s k (f (getCore s k))

def getPos (s : State) (k : Nat) : Position := tabGet {} s.positions k
def setPos (s : State) (k : Nat) (v : Position) : State := { s with positions := tabSet {} k v s.positions }
def modPos (s : State) (k : Nat) (f : Position → Position) : State := setPos s k (f (getPos s k))

def getHall (s : State) (h : Nat) : HallState := tabGet resetHall s.halls h
def setHall (s : State) (h : Nat) (v : HallState) : State := { s with halls := tabSet resetHall h v s.halls }
def modHall (s : State) (h : Nat) (f : HallState → HallState) : State := setHall s h (f (getHall s h))

def getHub (s : State) (k : Nat) : HubState := tabGet {} s.hubs k
def setHub (s : State) (k : Nat) (v : HubState) : State := { s with hubs := tabSet {} k v s.hubs }
def modHub (s : State) (k : Nat) (f : HubState → HubState) : State := setHub s k (f (getHub s k))

def getPort (s : State) (k : Nat) : PortState := tabGet {} s.ports k
def setPort (s : State) (k : Nat) (v : PortState) : State := { s with ports := tabSet {} k v s.ports }
def modPort (s : State) (k : Nat) (f : PortState → PortState) : State := setPort s k (f (getPort s k))

def getJob (s : State) (j : Nat) : JobState := tabGet {} s.jobs j
def setJob (s : State) (j : Nat) (v : JobState) : State := { s with jobs := tabSet {} j v s.jobs }
def modJob (s : State) (j : Nat) (f : JobState → JobState) : State := setJob s j (f (getJob s j))

/-- R280: slot `i` of job context `j`. -/
def getSlot (s : State) (j i : Nat) : Slot := tabGet {} s.slots (256 * j + i)
def setSlot (s : State) (j i : Nat) (v : Slot) : State := { s with slots := tabSet {} (256 * j + i) v s.slots }

/-- R265: the open statistics of slot `i` of job context `j` in hall `h`. -/
def getStats (s : State) (h j i : Nat) : Stats := tabGet {} s.stats (4096 * h + 256 * j + i)
def setStats (s : State) (h j i : Nat) (v : Stats) : State :=
  { s with stats := tabSet {} (4096 * h + 256 * j + i) v s.stats }

/-- The number of a free value, and the state that has used it (log entry 2). -/
def takeFree (s : State) : Nat × State := (s.free, { s with free := s.free + 1 })

/-- A free integer (log entry 2): how an error that its code miscorrects changes a word. -/
def freeInt (n : Nat) : Int := if Config.freeBool n then -(Config.freeNat n : Int) else Config.freeNat n

/-- R42: the key of a queue: core queue q of logical core n is 4n + q, CQ ring j of hall h is 512 + 16h + j. -/
def qKey (q : QRef) : Nat :=
  match q with
  | .core n .mq => 4 * n.val
  | .core n .wq => 4 * n.val + 1
  | .core n .vq => 4 * n.val + 2
  | .core n .tq => 4 * n.val + 3
  | .cq h j => 512 + 16 * h.val + j.val

/-- The logical core of a core queue's key. -/
def qCore (k : Nat) : Option Nat := if k < 512 then some (k / 4) else none

/-- The hall of a queue. -/
def qHall (k : Nat) : Nat := if k < 512 then k / 256 else (k - 512) / 16

/-- R45: STW_Q_CFG.JOB; j for CQ ring j. -/
def qJob (s : State) (k : Nat) : BitVec 4 :=
  if k < 512 then (getQueue s k).job else BitVec.ofNat 4 ((k - 512) % 16)

/-- The outcome of an error of `n` bits in a word whose code corrects one error and detects two; beyond that it is a free value (log entry
2). -/
inductive EccRead
  | clean | corrected | uncorrectable
  deriving DecidableEq, Repr

def eccOutcome (n free : Nat) : EccRead :=
  if n = 0 then .clean else if n = 1 then .corrected else if n = 2 then .uncorrectable
  else if free % 3 = 0 then .clean else if free % 3 = 1 then .corrected else .uncorrectable

/-- The MQ of a logical core, and the key of the position under it (R26); none where it has none. -/
def corePos (s : State) (n : Nat) : Option Nat :=
  if (getCore s n).pos < 72 then some (72 * (n / 64) + (getCore s n).pos) else none

/-- The logical core that a position serves. -/
def posCore (s : State) (p : Nat) : Option Nat :=
  (List.range 64).map (fun i => 64 * (p / 72) + i) |>.find? fun n => (getCore s n).pos == p % 72

/-- R378: the copy of the module time base that hall `h` holds, in units of 1 ns: every timestamp the hall writes comes from it. -/
def now (s : State) (h : Nat) : W64 := if h = 0 then s.time else s.time1

/-- R400: both halls' copies of the time base. -/
def setTime (s : State) (f : W64 → W64) : State := { s with time := f s.time, time1 := f s.time1 }

/-- R477, R503: the die is powered and the start sequence has completed. -/
def dieUp (s : State) : Bool := s.power.die && s.started

/-- A hall's copy of the time base one MGMT cycle later (R378); it stands while the hall's MGMT clock has stopped. -/
def clockStep (s : State) (h : Nat) : W64 := if (getHall s h).clockOff then now s h else now s h + 4

/-- R378, log entry 1: what happens when no command waits: one MGMT cycle passes in each hall. -/
def tick (s : State) : State := { s with time := clockStep s 0, time1 := clockStep s 1 }

/-- R22: job context `j` is resident in hall `h`. -/
def resident (s : State) (h j : Nat) : Bool :=
  (List.range 64).any (fun i => (getOwn s (64 * h + i)).owned && (getOwn s (64 * h + i)).job.toNat == j)
    || (getQueue s (512 + 16 * h + j)).enable

/-- R22: any job context is resident in hall `h`. -/
def anyResident (s : State) (h : Nat) : Bool := (List.range 16).any fun j => resident s h j

/-! ## Events (R491 to R494) -/

/-- What a rule says of an event: the fields of R491 that the Scrivener does not add. -/
structure EventSpec where
  code : Nat
  source : Nat := 0xFF
  sev : Nat := 7
  forced : Bool := false
  job : Option Nat := none
  lockind : Nat := 0
  loc : Nat := 0
  payload : List Byte := []

/-- R492: the records an event takes. -/
def eventRecords (payload : List Byte) : Nat := max 1 ((payload.length + 11) / 12)

/-- The records waiting in a hall's holding store. -/
def heldRecords (h : HallState) : Nat := (h.held.map fun e => eventRecords e.payload).sum

/-- The SEQ the next event of a hall takes. -/
def nextSeq (s : State) (h : Nat) : W32 := (getHall s h).evSeq

/-- A job context number, where it is one. -/
def jobFin (j : Option Nat) : Option Job :=
  match j with
  | none => none
  | some n => if h : n < 16 then some ⟨n, h⟩ else none

/-- R494: the hall with one more event: held, or lost where the 1,024 records have no room; either way it takes a SEQ. -/
def hallEvent (hl : HallState) (now : W64) (e : EventSpec) : HallState :=
  if hl.lostNow = 0 ∧ heldRecords hl + eventRecords e.payload ≤ 1024 then
    { hl with
      evSeq := hl.evSeq + 1,
      held := hl.held ++ [{
        time := now, seq := hl.evSeq, code := BitVec.ofNat 16 e.code,
        source := BitVec.ofNat 8 e.source, severity := BitVec.ofNat 3 e.sev, forced := e.forced,
        job := jobFin e.job, lockind := BitVec.ofNat 4 e.lockind, loc := BitVec.ofNat 20 e.loc,
        payload := e.payload }] }
  else
    { hl with
      evSeq := hl.evSeq + 1,
      lost := hl.lost + 1,
      lostNow := hl.lostNow + 1,
      lostFirst := some (hl.lostFirst.getD hl.evSeq) }

/-- R491: an event of a hall. -/
def pushEvent (s : State) (h : Nat) (e : EventSpec) : State := modHall s h fun hl => hallEvent hl (now s h) e

/-- R491: an event of a level-4 block or of the power stages goes to both rings. -/
def pushEventBoth (s : State) (e : EventSpec) : State := pushEvent (pushEvent s 0 e) 1 e

/-! ## The sticky bits (R425, R534) -/

/-- R534: the held class of one of the four sources, raised by an occurrence of class `cls`. -/
def heldAfter (wasSet : Bool) (held cls : Nat) : Nat := if wasSet then max held cls else cls

/-- R425, R534: the sticky bit of source `src` set, with its held class. -/
def setSticky (s : State) (h src cls : Nat) : State :=
  modHall s h fun hl =>
    let was := bitOf hl.sticky.toNat src
    { hl with
      sticky := hl.sticky ||| BitVec.ofNat 64 (2 ^ src),
      heldRouter := if src = 8 then heldAfter was hl.heldRouter cls else hl.heldRouter,
      heldSeam := if src = 11 then heldAfter was hl.heldSeam cls else hl.heldSeam,
      heldPll := if src = 12 then heldAfter was hl.heldPll cls else hl.heldPll,
      heldVr := if src = 32 then heldAfter was hl.heldVr cls else hl.heldVr }

/-- R423: the event of a report carries the source and its class. -/
def raise (s : State) (h src cls : Nat) (e : EventSpec) : State :=
  pushEvent (setSticky s h src cls) h { e with source := src, sev := cls }

/-- An ECC register with one more corrected error, or one more uncorrectable one. -/
def Ecc.addCe (e : Ecc) : Ecc := { e with ce := satAdd 0xFFFF e.ce 1 }
def Ecc.addUe (e : Ecc) : Ecc := { e with ue := satAdd 0xFFFF e.ue 1 }

/-- A source of class C writes no event (R423). -/
def raiseQuiet (s : State) (h src : Nat) : State := setSticky s h src 0

/-- R423: a source of a level-4 block or of the power stages sets its bit in both halls. -/
def raiseBoth (s : State) (src cls : Nat) (e : EventSpec) : State := raise (raise s 0 src cls e) 1 src cls e

/-- R423, R424, R534: the class of a source, by the held class for the four sources whose class is by occurrence. -/
def sourceClass (hl : HallState) (src : Nat) : Nat :=
  if src = 8 then hl.heldRouter
  else if src = 11 then hl.heldSeam
  else if src = 12 then hl.heldPll
  else if src = 32 then hl.heldVr
  else if src = 13 ∨ src = 18 ∨ src = 20 ∨ src = 24 then 0
  else if src = 0 ∨ src = 1 ∨ src = 28 then 3
  else if src ∈ [2, 3, 4, 5, 6] then 2
  else if src = 7 then 4
  else if src = 31 then 5
  else if src = 35 ∨ src = 36 then 6
  else 1

/-- R429: the enable a hall's Bellman gives the merge circuit. -/
def aliveEnable (hl : HallState) : Bool :=
  !((List.range 44).any fun n =>
    bitOf hl.sticky.toNat n && decide (5 ≤ sourceClass hl n) && !bitOf hl.aliveMask.toNat n)

end Sys2Proof.Machine
end

