-- ==== Sys2Proof/Machine/Fec.lean ====
section
/-! DEFINITION. The Zodun line (16): the RS(544,514) codewords of a lane, the control codeword in every sixteen, and the striping of frame
bytes over the active slots (R380); the 64-byte frame header (R385). -/

namespace Sys2Proof.Machine

/-! ## The code (R380)

R380 takes the code from IEEE 802.3. PRESUMED (log entry 155): its field is that of x¹⁰ + x³ + 1, with α the root x, and its generator has the
roots α⁰ to α²⁹. -/

/-- A symbol times α. -/
def symShift (a : Sym) : Sym := (a <<< 1) ^^^ (if a.getLsbD 9 then 9 else 0)

/-- The product of two symbols, over the low `n` bits of the second. -/
def symMulBits (n : Nat) (a b : Sym) : Sym :=
  match n with
  | 0 => 0
  | n + 1 => (if b.getLsbD 0 then a else 0) ^^^ symMulBits n (symShift a) (b >>> 1)

def symMul (a b : Sym) : Sym := symMulBits 10 a b

/-- The powers of α from one on. -/
def symPowers (n : Nat) (a : Sym) : List Sym :=
  match n with
  | 0 => []
  | n + 1 => a :: symPowers n (symShift a)

/-- The generator without its leading 1, highest power first. -/
def generator : List Sym :=
  ((symPowers 30 1).foldl (fun g r => List.zipWith (· ^^^ ·) (g ++ [0]) (0 :: g.map (symMul r))) [1]).drop 1

/-- The parity registers after one more data symbol. -/
def parityStep (reg : List Sym) (d : Sym) : List Sym :=
  List.zipWith (fun r g => r ^^^ symMul (d ^^^ reg.headD 0) g) (reg.drop 1 ++ [0]) generator

/-- R380: the 30 parity symbols of 514 data symbols. -/
def rsParity (data : List Sym) : List Sym := data.foldl parityStep (List.replicate 30 0)

/-- R380: a codeword of 544 symbols. -/
def rsWord (data : List Sym) : List Sym := data ++ rsParity data

/-- A codeword as it arrives, with its symbol errors. -/
def withErrors (w : List Sym) (e : List SymError) : List Sym :=
  e.foldl (fun w x => w.set x.pos (w.getD x.pos 0 ^^^ x.mask)) w

/-- The positions at which a codeword arrived wrong. -/
def wrongSymbols (e : List SymError) : List (Fin 544) :=
  (List.finRange 544).filter fun i => ((e.filter fun x => x.pos == i).foldl (fun m x => m ^^^ x.mask) 0) != 0

/-- R380: the code corrects up to 15 symbols of a codeword. -/
def decodes (e : List SymError) : Bool := decide ((wrongSymbols e).length ≤ 15)

/-- R380: what the receiver makes of a codeword: its data, or nothing where it is uncorrectable. -/
def rsDecode (sent : List Sym) (e : List SymError) : Option (List Sym) :=
  if decodes e then some (sent.take 514) else none

/-- R401: the codeword was corrected. -/
def corrected (e : List SymError) : Bool := decodes e && !(wrongSymbols e).isEmpty

/-! ## The frame header (R385) -/

/-- R385: bytes 0 to 59 of a frame's header. -/
def headerStart (f : Frame) : List Byte :=
  leBytes 2 f.src.toNat ++ leBytes 2 f.dst.toNat ++ [BitVec.ofNat 8 (f.vl + 4 * f.kind.toNat), BitVec.ofNat 8 (f.form.toNat + 16 * f.dfmt.toNat)]
    ++ leBytes 2 f.payload.length ++ leBytes 4 f.seq.toNat ++ leBytes 4 f.collId.toNat ++ leBytes 4 f.jobTag.toNat
    ++ leBytes 2 f.rstep.toNat ++ leBytes 2 f.chunk.toNat ++ leBytes 4 f.offset.toNat ++ leBytes 2 f.contrib.toNat ++ [f.tscale, 0]
    ++ leBytes 4 f.step.toNat ++ leBytes 4 f.maskVersion.toNat ++ leBytes 8 f.poison.toNat ++ leBytes 4 f.pcrc.toNat
    ++ List.replicate 8 0

/-- R385: the bytes of a frame on the line. -/
def lineBytes (f : Frame) : List Byte := headerStart f ++ leBytes 4 f.hcrc.toNat ++ f.payload

/-- R385: the field of `w` bits from bit `b` of byte `i` of a header. -/
def headerField (l : List Byte) (i b w : Nat) : Nat := leNat ((l.drop i).take 8) / 2 ^ b % 2 ^ w

/-- R385: the frame that bytes of the line spell. -/
def frameOf (l : List Byte) : Frame :=
  let n (i b w : Nat) := headerField l i b w
  { src := BitVec.ofNat 12 (n 0 0 12), dst := BitVec.ofNat 12 (n 2 0 12), vl := Fin.ofNat 4 (n 4 0 2), kind := BitVec.ofNat 3 (n 4 2 3),
    form := BitVec.ofNat 4 (n 5 0 4), dfmt := BitVec.ofNat 4 (n 5 4 4), seq := BitVec.ofNat 32 (n 8 0 32),
    collId := BitVec.ofNat 32 (n 12 0 32), jobTag := BitVec.ofNat 32 (n 16 0 32), rstep := BitVec.ofNat 12 (n 20 0 12),
    chunk := BitVec.ofNat 12 (n 22 0 12), offset := BitVec.ofNat 32 (n 24 0 32), contrib := BitVec.ofNat 16 (n 28 0 16),
    tscale := BitVec.ofNat 8 (n 30 0 8), step := BitVec.ofNat 32 (n 32 0 32), maskVersion := BitVec.ofNat 32 (n 36 0 32),
    poison := BitVec.ofNat 64 (n 40 0 64), pcrc := BitVec.ofNat 32 (n 48 0 32), hcrc := BitVec.ofNat 32 (n 60 0 32),
    payload := (l.drop 64).take (n 6 0 13) }

/-! ## Striping (R380) -/

/-- The low half of a byte goes first (log entry 155). -/
def nibbles (bs : List Byte) : List (BitVec 4) := bs.flatMap fun (b : Byte) => [b.setWidth 4, (b >>> 4).setWidth 4]

/-- The 514 data symbols that 1,285 half bytes make; the first half byte holds the lowest bits of the first symbol. -/
def symbolsOf (l : List (BitVec 4)) : List Sym :=
  let v := l.foldr (fun x n => x.toNat + 16 * n) 0
  (List.range 514).map fun i => BitVec.ofNat 10 (v >>> (10 * i))

/-- R380: in the `r`-th codeword time of a port's lanes, slot `i` sends its control codeword: one in every 16 of a lane, and one of the
port's in every four. -/
def isControlWord (r i : Nat) : Bool := (r + 4 * i) % 16 == 15

end Sys2Proof.Machine
end

