-- ==== Sys2Proof/Machine/Net.lean ====
section
/-! DEFINITION. The mesh and the Joiner as a packet meets them (15): stops (R36, R352), virtual channels and packets (R353, R354), routes and
detours (R356, R365, R373), age stamps and grants (R357, R358), and the numbering of transactions (R368). -/

namespace Sys2Proof.Machine

/-! ## Stops (R36, R352) -/

/-- The columns of the core stops of a row. -/
def coreColumns (y : Nat) : List Nat :=
  if y = 0 ∨ y = 8 then List.range 10
  else if y = 2 ∨ y = 6 then [0, 1, 2, 3, 6, 7, 8, 9]
  else if y = 4 then [0, 2, 7, 9]
  else [0, 1, 3, 4, 5, 6, 8, 9]

/-- The index of the first core stop of a row. -/
def rowFirst (y : Nat) : Nat := [0, 10, 18, 26, 34, 38, 46, 54, 62].getD y 72

/-- R36: the column and row of a core stop. Index 127, no position (R508), falls at column 0 of row 8 (log entry 130). -/
def stopXY (i : Nat) : Nat × Nat :=
  let y := ((List.range 9).filter fun y => decide (rowFirst y ≤ i)).length - 1
  ((coreColumns y).getD (i - rowFirst y) 0, y)

/-- R352: the number of the stop at a column and row; the stops of hall 1 follow those of hall 0. -/
def stopAt (h x y : Nat) : Nat := 90 * h + 10 * y + x

def stopHall (p : Nat) : Nat := p / 90
def stopX (p : Nat) : Nat := p % 10
def stopY (p : Nat) : Nat := p % 90 / 10

/-- The stop of a position. -/
def posStop (p : Nat) : Nat := stopAt (p / 72) (stopXY (p % 72)).1 (stopXY (p % 72)).2

/-- The stop of a module hub. -/
def hubStop (hk : Nat) : Nat := stopAt (hk / 8) (if hk % 2 = 0 then 2 else 7) (2 * (hk % 8 / 2) + 1)

/-- The stop of a port's link hub. -/
def linkStop (k : Nat) : Nat :=
  let c := [(4, 2), (5, 2), (1, 4), (8, 4), (4, 6), (5, 6)].getD (k % 6) (0, 0)
  stopAt (k / 6) c.1 c.2

/-- The service stops of a hall: the Steward, the Cooper and Sealer, the host hub. -/
def stewardStop (h : Nat) : Nat := stopAt h 5 4
def cooperStop (h : Nat) : Nat := stopAt h 3 4
def hostStop (h : Nat) : Nat := stopAt h 4 4

/-- The distance of two naturals. -/
def natDist (a b : Nat) : Nat := (a - b) + (b - a)

/-- R30: the hops between two core stops. -/
def hops (a b : Nat) : Nat := natDist (stopXY a).1 (stopXY b).1 + natDist (stopXY a).2 (stopXY b).2

/-! ## Networks, virtual channels and packets (R352 to R354) -/

/-- R354. -/
inductive Vc
  | vc0 | vc1 | vc2 | vc3
  deriving DecidableEq, Repr

def Vc.code : Vc → Nat
  | .vc0 => 0
  | .vc1 => 1
  | .vc2 => 2
  | .vc3 => 3

/-- R354: the flits of a packet, at most. -/
def Vc.maxFlits : Vc → Nat
  | .vc0 => 1
  | .vc1 => 16
  | .vc2 => 16
  | .vc3 => 4

/-- R354: the input buffer of each router port for the VC, in flits. -/
def Vc.buffer : Vc → Nat
  | .vc0 => 4
  | .vc1 => 8
  | .vc2 => 16
  | .vc3 => 4

/-- R354: how many packets of one stop may be in the network at a time. -/
def Vc.admission : Vc → Option Nat
  | .vc0 => some 2
  | .vc1 => none
  | .vc2 => none
  | .vc3 => some 4

/-- R354, log entry 131: the VC of an access by its reader or writer. -/
def readerVc (r : Reader) : Vc :=
  match r with
  | .fetch | .descriptor | .ring | .walk | .steward => .vc1
  | .carter | .writeBack | .scrub | .drover | .cooper | .host => .vc2

/-- R294: the readers and writers whose data moves in segments, with a block check value. -/
def inSegments (r : Reader) : Bool :=
  match r with
  | .carter | .drover | .cooper => true
  | .fetch | .descriptor | .ring | .walk | .writeBack | .scrub | .host | .steward => false

/-! ## Routes (R356, R365, R373) -/

/-- R26: the stop is a hole of its hall. -/
def isHole (s : State) (p : Nat) : Bool :=
  (getHall s (stopHall p)).holes.any fun i => posStop (72 * stopHall p + i) == p

/-- R365: the row or column that a detour uses beside line `y` of `n` lines. -/
def beside (y n : Nat) : Nat := if y + 1 < n then y + 1 else y - 1

/-- Stops passed, in order, with the detours taken. -/
structure Route where
  stops : List Nat := []
  detours : List Nat := []
  deriving DecidableEq, Repr

/-- One column towards column `x`. -/
def toward (a b : Nat) : Nat := if a < b then a + 1 else a - 1

/-- R356, R365: from column `x` along row `y` to column `tx`; a hole on the way is passed in the row beside it. At the column where the packet turns
to row `ty`, a hole is passed by turning one row towards `ty` (log entry 132); a hole that is the destination answers through the router before it
(R367). Answers the stops passed and the row reached. -/
def alongRow (s : State) (h y tx ty : Nat) (n x : Nat) : Route × Nat :=
  match n with
  | 0 => ({}, y)
  | n + 1 =>
    if x = tx then ({}, y) else
      let x' := toward x tx
      if isHole s (stopAt h x' y) then
        if x' = tx ∧ ty = y then ({}, y)
        else if x' = tx then
          let y' := toward y ty
          ({ stops := [stopAt h x y', stopAt h x' y'], detours := [h] }, y')
        else
          let y' := beside y 9
          let x'' := toward x' tx
          let r := alongRow s h y tx ty n x''
          ({ stops := [stopAt h x y', stopAt h x' y', stopAt h x'' y', stopAt h x'' y] ++ r.1.stops, detours := h :: r.1.detours }, r.2)
      else
        let r := alongRow s h y tx ty n x'
        ({ r.1 with stops := stopAt h x' y :: r.1.stops }, r.2)

/-- R356, R365: from row `y` along column `x` to row `ty`; a hole on the way is passed in the column beside it. A hole at the end is the
destination itself, whose last router before it answers (R367). -/
def alongColumn (s : State) (h x ty : Nat) (n y : Nat) : Route :=
  match n with
  | 0 => {}
  | n + 1 =>
    if y = ty then {} else
      let y' := toward y ty
      if isHole s (stopAt h x y') then
        if y' = ty then {} else
          let x' := beside x 10
          let y'' := toward y' ty
          let r := alongColumn s h x ty n y''
          { stops := [stopAt h x' y, stopAt h x' y', stopAt h x' y'', stopAt h x y''] ++ r.stops, detours := h :: r.detours }
      else
        let r := alongColumn s h x ty n y'
        { r with stops := stopAt h x y' :: r.stops }

/-- R356: within one hall, first along the row and then along the column. -/
def hallRoute (s : State) (h x y tx ty : Nat) : Route :=
  let a := alongRow s h y tx ty 10 x
  let b := alongColumn s h tx ty 9 a.2
  { stops := stopAt h x y :: (a.1.stops ++ b.stops), detours := a.1.detours ++ b.detours }

/-- R370: the Joiner link of a row on a network, 0 for the Q-net and 1 for the P-net. -/
def linkOf (net y : Nat) : Nat := 9 * net + y

def getSeam (hl : HallState) (n : Nat) : SeamLink := tabGet {} hl.seam n

/-- R365, R373, R374: a link carries traffic: it is up and not out at either end, and no hole lies at its ends. -/
def linkUsable (s : State) (net y : Nat) : Bool :=
  ([0, 1].all fun h => (getSeam (getHall s h) (linkOf net y)).up && !(getSeam (getHall s h) (linkOf net y)).out)
    && !isHole s (stopAt 0 9 y) && !isHole s (stopAt 1 0 y)

/-- R356, R365, R373: the row on whose link a packet of row `y` crosses: its own, or the nearest one that carries traffic, the higher number
first. -/
def crossRow (s : State) (net y : Nat) : Nat :=
  let rows := (List.range 9).filter fun r => linkUsable s net r
  rows.foldl (fun best r => if natDist r y < natDist best y ∨ (natDist r y = natDist best y ∧ best < r) then r else best) (rows.headD y)

/-- A packet's way: its stops, the halls in which it takes a detour, and the Joiner link it crosses, with the hall that sends on it. -/
structure Way where
  stops : List Nat
  detours : List Nat
  link : Option (Nat × Nat)
  deriving DecidableEq, Repr

/-- R356, R365: the way of a packet between two stops on a network. -/
def way (s : State) (net src dst : Nat) : Way :=
  let h := stopHall src
  let g := stopHall dst
  if h = g then
    let r := hallRoute s h (stopX src) (stopY src) (stopX dst) (stopY dst)
    { stops := r.stops, detours := r.detours, link := none }
  else
    let y := crossRow s net (stopY src)
    let a := hallRoute s h (stopX src) (stopY src) (if h = 0 then 9 else 0) y
    let b := hallRoute s g (if h = 0 then 0 else 9) y (stopX dst) (stopY dst)
    { stops := a.stops ++ b.stops,
      detours := (if y = stopY src then [] else [h]) ++ a.detours ++ b.detours,
      link := some (h, linkOf net y) }

/-! ## Arbitration (R357, R358) -/

/-- R357: the age stamp of a packet after a number of hops and MESH cycles. -/
def ageStamp (hops cycles : Nat) : Nat := min 255 (hops + cycles / 16)

/-- A packet at the head of an input port, 0 local, 1 north, 2 east, 3 south, 4 west. -/
structure Head where
  vc : Vc
  stamp : Nat
  port : Nat
  deriving DecidableEq, Repr

/-- R357: within one VC the highest stamp, and among equal stamps the first port. -/
def oldest (l : List Head) : Option Head :=
  l.foldl (fun best x => match best with
    | none => some x
    | some b => if b.stamp < x.stamp ∨ (b.stamp = x.stamp ∧ x.port < b.port) then some x else some b) none

/-- The head of a VC that an output may grant. -/
def headOfVc (l : List Head) (v : Vc) : Option Head := oldest (l.filter fun x => x.vc == v)

/-- R358: the packet that an output grants, and whether age let a VC2 packet go before a VC1 packet. -/
def grantOutput (l : List Head) : Option (Head × Bool) :=
  match headOfVc l .vc0, headOfVc l .vc3, headOfVc l .vc1, headOfVc l .vc2 with
  | some a, _, _, _ => some (a, false)
  | none, some a, _, _ => some (a, false)
  | none, none, some a, some b => if a.stamp + 16 ≤ b.stamp then some (b, true) else some (a, false)
  | none, none, some a, none => some (a, false)
  | none, none, none, some b => some (b, false)
  | none, none, none, none => none

/-- R358: whether the VC2 packet that asks for an output as the `n`-th does, after `hops` hops and `cycles` MESH cycles, is granted it over a VC1
packet by age. What waits beside it is contention, and free (log entry 129). -/
def promoted (n hops cycles : Nat) : Bool :=
  let own : Head := { vc := .vc2, stamp := ageStamp hops cycles, port := 0 }
  let other : List Head := match Config.rival n with
    | none => []
    | some a => [{ vc := .vc1, stamp := min 255 a, port := 1 }]
  match grantOutput (own :: other) with
  | none => false
  | some g => g.2

/-- R357: the MESH cycles that the Joiner adds to the waiting of a packet between two stops of its way. -/
def seamCycles (p : Nat) (rest : List Nat) : Nat :=
  match rest with
  | [] => 0
  | q :: _ => if stopHall p = stopHall q then 0 else 12

/-- R357, R358: the grants of a VC2 packet over VC1 by age at the outputs of one hall on its way; `hops` and `cycles` count the hops and the MESH
cycles of waiting before the first. How long it waits at an output is contention, and free (log entry 129). -/
def promotions (h n hops cycles : Nat) (stops : List Nat) : Nat :=
  match stops with
  | [] => 0
  | p :: r =>
    let now := cycles + Config.waited n
    boolNat (stopHall p == h && promoted n hops now) + promotions h (n + 1) (hops + 1) (now + seamCycles p r) r

/-- R358, R365: a packet of a VC on its way: it counts once in a hall where it takes a detour, and, on VC2, each grant over VC1. -/
def travel (s : State) (v : Vc) (w : Way) : State :=
  let s := w.detours.eraseDups.foldl (fun s h => modHall s h fun hl => { hl with meshDetour := hl.meshDetour + 1 }) s
  if v = .vc2 then
    { s with outputs := s.outputs + w.stops.length,
             promotes := [0, 1].map fun h => s.promotes.getD h 0 + BitVec.ofNat 32 (promotions h s.outputs 0 0 w.stops) }
  else s

/-! ## Transactions (R355, R368) -/

/-- R368: the key of a series: its source, destination, network and VC. -/
def seriesKey (src dst net : Nat) (v : Vc) : Nat := ((180 * src + dst) * 2 + net) * 4 + v.code

def getSeries (s : State) (k : Nat) : Series := tabGet {} s.series k
def setSeries (s : State) (k : Nat) (v : Series) : State := { s with series := tabSet {} k v s.series }

/-- R368: what a destination does with a transaction of a number: it applies the next one expected, answers from its record one already
applied, and discards any other (one that has left the record too: log entry 183). -/
inductive Receipt
  | apply | again | discard
  deriving DecidableEq, Repr

/-- R368: a number stands in a destination's record of its last 256 transactions from a source. -/
def recorded (x : Series) (num : Nat) : Bool := decide (num < x.applied) && decide (x.applied ≤ num + 256)

def receiptOf (x : Series) (num : Nat) : Receipt :=
  if recorded x num then .again else if num = x.applied then .apply else .discard

/-- R368: a transaction of a series sent, applied at once and answered. -/
def transact (s : State) (k : Nat) : State :=
  let x := getSeries s k
  setSeries s k { sent := x.sent + 1, applied := x.sent + 1 }

end Sys2Proof.Machine
end

