-- ==== Sys2Proof/Machine/HubMem.lean ====
section
/-! DEFINITION. Device memory through the hubs: placement (R328), the check code and its outcomes (R339, R340), correction and hard
rows (R342, R344), package retirement (R346), the write-combining buffer (R334, R335), the way of an access over the mesh (R353, R368, R369)
with its block check value (R294, R295, R297), and CRC-32C with the repair-log entry (R293, R476). -/

namespace Sys2Proof.Machine

/-! ## CRC-32C and repair-log entries -/

/-- One bit of the reflected CRC-32C (R293). -/
def crcBit (c : W32) : W32 := if c.getLsbD 0 then (c >>> 1) ^^^ 0x82F63B78#32 else c >>> 1

def crcByte (c : W32) (b : Byte) : W32 :=
  crcBit (crcBit (crcBit (crcBit (crcBit (crcBit (crcBit (crcBit (c ^^^ b.setWidth 32))))))))

/-- R293: the CRC-32C of a byte string. -/
def crc32c (bs : List Byte) : W32 := ~~~ (bs.foldl crcByte 0xFFFFFFFF#32)

/-- R476: the 64 bytes of a repair-log entry. -/
def logEntry (time : W64) (kind cause unrepaired : Nat) (part : List Byte) : List Byte :=
  let head := leBytes 8 time.toNat ++ leBytes 1 kind ++ leBytes 1 cause
  let tail := [0xFF#8] ++ sliceD 0xFF#8 part 0 16 ++ List.replicate 32 0xFF#8
  let crc := crc32c (head ++ [0xFF#8] ++ tail)
  head ++ leBytes 1 unrepaired ++ tail ++ leBytes 4 crc.toNat

/-- R301, R344: the Steward of hall `h` has an entry to append. -/
def logDecision (s : State) (h : Nat) (entry : List Byte) : State :=
  modHall s h fun hl => { hl with logPending := hl.logPending ++ [BitVec.ofNat 512 (leNat entry)] }

/-- R488, R529: the die's temperature: as last told while a die sensor is above its warning limit, else a free value up to that limit (log entry
178). -/
def dieTemp (s : State) (n : Nat) : Byte := if s.power.dieWarm then s.power.temp else BitVec.ofNat 8 (Config.freeNat n % 96)

/-! ## Placement -/

/-- R328: where a physical address lies. -/
structure Place where
  ch : Nat
  bank : Nat
  row : Nat
  off : Nat
  crow : Nat
  coff : Nat
  deriving DecidableEq, Repr

/-- R328. -/
def place (pa : Nat) : Place :=
  let b := pa / 2048
  let g := b / 512
  let d := g / 16
  { ch := (b % 512) ^^^ (g % 512), bank := g % 16, row := 16 * (d / 15) + d % 15, off := pa % 2048,
    crow := 16 * (d / 15) + 15, coff := 128 * (d % 15) }

/-- R327: the module hub that serves an address. -/
def hubOf (pa : Nat) : Nat := (place pa).ch / 32

/-- R327: the package slot of an address in its hub. -/
def slotOf (pa : Nat) : Nat := (place pa).ch / 4 % 8

def getPkg (hb : HubState) (i : Nat) : Package := tabGet {} hb.pkgs i
def setPkg (hb : HubState) (i : Nat) (p : Package) : HubState := { hb with pkgs := tabSet {} i p hb.pkgs }

def getShadow (hb : HubState) (n : Nat) : Shadow := tabGet {} hb.shadows n

def getChannel (hb : HubState) (n : Nat) : Channel := tabGet {} hb.channels n

/-- R346: the package of an address is retired. -/
def retiredAt (s : State) (pa : Nat) : Bool := (getPkg (getHub s (hubOf pa)) (slotOf pa)).retired

/-! ## Bytes of the array -/

def readBytes (m : List Host.Cell) (a n : Nat) : List Byte := (List.range n).map fun i => tabGet 0 m (a + i)

def putBytes (m : List Host.Cell) (a : Nat) (bs : List Byte) : List Host.Cell :=
  match bs with
  | [] => m
  | b :: r => putBytes (tabSet 0 a b m) (a + 1) r

/-! ## The code of a pair (R339, R340) -/

def pL0 : W64 := 0x5555555555555555#64
def pL1 : W64 := 0xAAAAAAAAAAAAAAAA#64
def pBoth : W64 := 0xFFFFFFFFFFFFFFFF#64

/-- R339: the pattern for the lines that are poisoned. -/
def poisonPattern (l0 l1 : Bool) : W64 :=
  match l0, l1 with
  | false, false => 0
  | true, false => pL0
  | false, true => pL1
  | true, true => pBoth

/-- The check symbols that differ from a pattern. -/
def chkWeight (x : W64) : Nat :=
  ((List.range 4).filter fun k => bitsOf x.toNat (16 * k) 16 != 0).length

/-- The symbols of a stored pair in error, against a poison pattern. -/
def errWeight (e : PairErr) (pat : W64) : Nat :=
  (e.syms.filter fun x => x.2 != 0).length + chkWeight (e.chk ^^^ pat)

/-- R340: the outcome of a decode. -/
inductive Decode
  | clean | corrected | poisoned (l0 l1 : Bool) | uncorrectable
  deriving DecidableEq, Repr

/-- R339, R340; `choice` is the free value for four or more symbols in error (log entry 2). -/
def decodePair (e : PairErr) (choice : Nat) : Decode :=
  if errWeight e 0 = 0 then .clean
  else if errWeight e 0 = 1 then .corrected
  else if errWeight e pL0 ≤ 1 then .poisoned true false
  else if errWeight e pL1 ≤ 1 then .poisoned false true
  else if errWeight e pBoth ≤ 1 then .poisoned true true
  else if errWeight e 0 ≤ 3 ∨ errWeight e pL0 ≤ 3 ∨ errWeight e pL1 ≤ 3 ∨ errWeight e pBoth ≤ 3 then .uncorrectable
  else if choice % 6 = 0 then .clean
  else if choice % 6 = 1 then .corrected
  else if choice % 6 = 2 then .poisoned true false
  else if choice % 6 = 3 then .poisoned false true
  else if choice % 6 = 4 then .poisoned true true
  else .uncorrectable

/-- At most three symbols from some stored form: the decode is then fixed by R339 and R340. -/
def decodeFixed (e : PairErr) : Bool :=
  decide (errWeight e 0 ≤ 3 ∨ errWeight e pL0 ≤ 3 ∨ errWeight e pL1 ≤ 3 ∨ errWeight e pBoth ≤ 3)

/-- The bytes of a pair as stored: the data of its code word with the data symbols in error. -/
def storedBytes (data : List Byte) (e : PairErr) : List Byte :=
  e.syms.foldl (fun (bs : List Byte) (x : Nat × W16) =>
    (bs.set (2 * x.1) (bs.getD (2 * x.1) 0 ^^^ x.2.setWidth 8)).set (2 * x.1 + 1)
      (bs.getD (2 * x.1 + 1) 0 ^^^ (x.2 >>> 8).setWidth 8)) data

/-- R339, R350, R511: a pair written with its check bytes and a poison pattern; an armed HUB_FLIP acts on it and is disarmed. -/
def writeCodeword (s : State) (pair : Nat) (data : List Byte) (pat : W64) : State :=
  let hk := hubOf (128 * pair)
  let hb := getHub s hk
  let err : PairErr :=
    if hb.flip.arm then
      { syms := if hb.flip.data = 0 then [] else [(hb.flip.sel, BitVec.ofNat 16 hb.flip.data)],
        chk := pat ^^^ hb.flipChk }
    else { syms := [], chk := pat }
  let s := if hb.flip.arm then setHub s hk { hb with flip := { hb.flip with arm := false } } else s
  { s with mem := putBytes s.mem (128 * pair) data, memErr := tabSet {} pair err s.memErr }

/-- R329: a row of a bank that holds check segments. -/
def isCheckRow (row : Nat) : Bool := row % 16 == 15

/-- The physical address of a data row of module channel `ch`: R328 read backwards. -/
def rowPa (ch bank row : Nat) : Nat :=
  let g := 16 * (15 * (row / 16) + row % 16) + bank
  2048 * (512 * g + (ch ^^^ (g % 512)))

/-- R339, R340: the eight check bytes stored for a pair. -/
def checkBytes (s : State) (pair : Nat) : List Byte :=
  leBytes 8 (Config.pairCheck (readBytes s.mem (128 * pair) 128) ^^^ (tabGet {} s.memErr pair).chk).toNat

/-- R329: the check segment of a bolt: pair q at segment bytes 8q to 8q + 7. -/
def checkSegmentOf (s : State) (bolt : Nat) : List Byte := (List.range 16).flatMap fun q => checkBytes s (16 * bolt + q)

/-- R328, R329: the bolts whose check segments a check row of a bank holds, in the order of their segments: the data rows of its group in the
bank beside it. -/
def checkedBolts (ch bank crow : Nat) : List Nat := (List.range 15).map fun i => rowPa ch (bank ^^^ 1) (16 * (crow / 16) + i) / 2048

/-- R329: what a check row holds: fifteen check segments, each at its coff, and zero in bytes 1,920 to 2,047. -/
def hubCheckRow (s : State) (ch bank crow : Nat) : List Byte :=
  (checkedBolts ch bank crow).flatMap (checkSegmentOf s) ++ List.replicate 128 0

/-! ## The decoder (R339, R340) -/

/-- A decode of a stored pair: its outcome, and the bytes the decoder delivers. -/
structure PairDecode where
  st : State
  out : Decode
  bytes : List Byte

/-- The stored bytes with one symbol, of 64 of data and 4 of check, changed by a decoder that takes it for the one in error. -/
def symbolChanged (bs : List Byte) (n : Nat) : List Byte :=
  storedBytes bs (if Config.freeNat n % 68 < 64 then { syms := [(Config.freeNat n % 68, (Config.freeBits n).setWidth 16)] } else {})

/-- R339, R340: a stored pair decoded. With at most three symbols in error the outcome is fixed; with four or more it is free, and the
bytes are those stored, with one symbol changed where the decoder corrects. -/
def decodeStored (s : State) (pair : Nat) : PairDecode :=
  let e := tabGet {} s.memErr pair
  let data := readBytes s.mem (128 * pair) 128
  if decodeFixed e then
    { st := s, out := decodePair e 0, bytes := if decodePair e 0 = .uncorrectable then storedBytes data e else data }
  else
    let (n, s) := takeFree s
    let (m, s) := takeFree s
    let out := decodePair e (Config.freeNat n)
    { st := s, out := out,
      bytes := if out = .corrected then symbolChanged (storedBytes data e) m
        else if out = .clean ∨ out = .uncorrectable ∨ Config.freeBool m then storedBytes data e
        else symbolChanged (storedBytes data e) m }

/-- The errors of a stored pair lie in its check bytes alone, that is, in the check row (R329). -/
def errInCheck (e : PairErr) : Bool := e.syms.all fun x => x.2 == 0

/-! ## Buffer lines over the channel's copy (R334, R336) -/

/-- A whole line's mask. -/
def fullMask : W64 := 0xFFFFFFFFFFFFFFFF#64

def lineByte (l : BufLine) (i : Nat) : Byte := (l.data >>> (8 * i)).setWidth 8

def findLine (hb : HubState) (line : Nat) : Option BufLine := hb.buf.find? fun l => l.line == line

/-- The bytes of a line over what the channel holds. -/
def overlayLine (l : BufLine) (under : List Byte) : List Byte :=
  (List.range 64).map fun i => if l.mask.getLsbD i then lineByte l i else under.getD i 0

/-- R334: the poison of a line whose buffer line is `l`, from the poison of its channel copy. -/
def linePoison (l : BufLine) (under : Bool) : Bool := if l.mask = fullMask then l.poison else under || l.poison

/-- The bytes of one line with its poison, the buffer over the channel. -/
def lineNow (l : Option BufLine) (under : List Byte) (p : Bool) : List Byte × Bool :=
  match l with
  | none => (under, p)
  | some l => (overlayLine l under, linePoison l p)

/-- A pair's bytes with the poison of its lines. -/
structure PairValue where
  bytes : List Byte
  p0 : Bool
  p1 : Bool

/-- R336: the current value of a pair, which includes merged buffer bytes. -/
def pairNow (s : State) (pair : Nat) (bytes : List Byte) (p0 p1 : Bool) : PairValue :=
  let hb := getHub s (hubOf (128 * pair))
  let a := lineNow (findLine hb (2 * pair)) (bytes.take 64) p0
  let b := lineNow (findLine hb (2 * pair + 1)) (bytes.drop 64) p1
  { bytes := a.1 ++ b.1, p0 := a.2, p1 := b.2 }

/-- A pair's value written to its channel; the buffer lines stay (R336). -/
def writeValue (s : State) (pair : Nat) (v : PairValue) : State := writeCodeword s pair v.bytes (poisonPattern v.p0 v.p1)

/-! ## Package retirement and hard rows (R344, R346) -/

/-- R346: package slot `i` of module hub `hk` is retired. -/
def retirePackage (s : State) (hk i cause : Nat) : State :=
  let hb := getHub s hk
  if (getPkg hb i).retired then s else
    let hb := setPkg hb i { getPkg hb i with retired := true, cause := cause }
    let hb := { hb with shadows := hb.shadows.filter fun x => x.2.ch / 4 != i, hardRows := hb.hardRows.filter fun x => x.1 / 4 != i }
    let s := setHub s hk hb
    let s := logDecision s (hk / 8) (logEntry (now s (hk / 8)) 4 cause 0xFF (leBytes 1 hk ++ leBytes 1 i))
    raise s (hk / 8) 17 1 { code := 0x0405, lockind := 4, loc := hk, payload := leBytes 1 i ++ leBytes 1 cause }

/-- One pair of a row copied into a shadow through the decoder, with its current value (R336, R344). -/
def shadowPair (s : State) (pair : Nat) : State :=
  let d := decodeStored s pair
  match d.out with
  | .clean | .corrected => writeValue d.st pair (pairNow d.st pair d.bytes false false)
  | .poisoned l0 l1 => writeValue d.st pair (pairNow d.st pair d.bytes l0 l1)
  | .uncorrectable => writeValue d.st pair { pairNow d.st pair d.bytes true true with p0 := true, p1 := true }

/-- The lowest row shadow of a hub that is free. -/
def freeShadow (hb : HubState) : Option Nat := (List.range 16).find? fun n => !(getShadow hb n).valid

/-- The pairs that a row of module channel `ch` holds, or, for a check row, those whose check bytes it holds. -/
def rowPairs (ch bank row : Nat) : List Nat :=
  if isCheckRow row then (checkedBolts ch bank row).flatMap fun b => (List.range 16).map fun q => 16 * b + q
  else (List.range 16).map fun q => rowPa ch bank row / 128 + q

/-- R342, R344: a row of module channel `ch`, a data row or a check row, is hard. A row that is hard already is counted and logged no more. -/
def hardRow (s : State) (ch bank row : Nat) : State :=
  let hk := ch / 32
  let hb := getHub s hk
  let i := ch / 4 % 8
  let c := ch % 32
  let sh : Shadow := { valid := true, ch := c, bank := bank, row := row }
  if (List.range 16).any (fun n => getShadow hb n == sh) || hb.hardRows.contains (c, bank, row) then s else
    let pk := getPkg hb i
    let hb := setPkg hb i { pk with hard := min 15 (pk.hard + 1) }
    let s := logDecision (setHub s hk hb) (hk / 8)
      (logEntry (now s (hk / 8)) 3 0 0xFF (leBytes 1 hk ++ leBytes 1 c ++ leBytes 1 bank ++ leBytes 4 row))
    let s := match freeShadow hb with
      | some n =>
        let s := (rowPairs ch bank row).foldl shadowPair s
        let hb := getHub s hk
        let s := setHub s hk { hb with shadows := tabSet {} n sh hb.shadows }
        raise s (hk / 8) 15 1 { code := 0x0402, lockind := 4, loc := hk,
                                payload := leBytes 1 c ++ leBytes 1 bank ++ leBytes 4 row ++ leBytes 1 n }
      | none =>
        let s := setHub s hk { hb with hardRows := hb.hardRows ++ [(c, bank, row)], fullTold := true }
        if hb.fullTold then s else raise s (hk / 8) 15 1 { code := 0x0403, lockind := 4, loc := hk }
    if pk.hard + 1 ≥ 9 then retirePackage s hk i 2 else s

/-- R342: the row that holds a pair's error is hard: its check row where only check bytes are in error, and otherwise its data row. -/
def hardPair (s : State) (pair : Nat) (inCheck : Bool) : State :=
  let p := place (128 * pair)
  if inCheck then hardRow s p.ch (p.bank ^^^ 1) p.crow else hardRow s p.ch p.bank p.row

/-! ## Reading a pair (R340 to R342) -/

/-- R341: the code EV_MEM_UE carries for a reader. -/
def readerCode (r : Reader) : Nat :=
  match r with
  | .fetch => 0
  | .descriptor => 1
  | .ring => 2
  | .carter => 3
  | .walk => 4
  | .writeBack => 5
  | .scrub => 6
  | .drover => 7
  | .cooper => 8
  | .host => 9
  | .steward => 10

/-- What a read of a pair delivers. -/
structure PairRead where
  st : State
  bytes : List Byte
  p0 : Bool
  p1 : Bool
  fresh : Bool

/-- R341: what EV_MEM_UE says of a pair: channel, bank, row, address and reader kind. -/
def memPlace (pair : Nat) (r : Reader) : List Byte :=
  let p := place (128 * pair)
  leBytes 1 (p.ch % 32) ++ leBytes 1 p.bank ++ leBytes 4 p.row ++ leBytes 6 (128 * pair) ++ leBytes 1 (readerCode r)

/-- R340: a fresh uncorrectable error of a pair: counted, rewritten with P_BOTH, recorded and reported; its row is hard. -/
def pairUe (s : State) (pair : Nat) (stored : List Byte) (r : Reader) (job : Option Nat) : State :=
  let p := place (128 * pair)
  let hk := p.ch / 32
  let inCheck := errInCheck (tabGet {} s.memErr pair)
  let s := modHub s hk fun hb => { hb with ue := hb.ue + 1, lastUeValid := true, lastUePa := 128 * pair }
  let s := writeCodeword s pair stored pBoth
  let s := raise s (hk / 8) 14 1 { code := 0x0400, job := job, lockind := 4, loc := hk, payload := memPlace pair r }
  hardPair s pair inCheck

/-- R340: HUB_CE and FS_MEM_CE. -/
def pairCe (s : State) (pair : Nat) : State :=
  let hk := hubOf (128 * pair)
  raiseQuiet (modHub s hk fun hb => { hb with ce := hb.ce + 1 }) (hk / 8) 13

/-- R340: a read that finds a pair poisoned. -/
def pairPoisonRd (s : State) (pair : Nat) : State :=
  modHub s (hubOf (128 * pair)) fun hb => { hb with poisonRd := hb.poisonRd + 1 }

/-- R342: the read after a correction write-back of a value with poison pattern `pat`: the error was soft where the pair stands as it was
written; any error makes the row hard, and that read's outcome applies. -/
def rereadPair (s : State) (pair : Nat) (good : List Byte) (pat : W64) (r : Reader) (job : Option Nat) : PairRead :=
  let e := tabGet {} s.memErr pair
  if errWeight e pat = 0 then { st := s, bytes := good, p0 := false, p1 := false, fresh := false } else
    let d := decodeStored s pair
    let hard (s : State) : State := hardPair s pair (errInCheck e)
    match d.out with
    | .clean => { st := hard d.st, bytes := d.bytes, p0 := false, p1 := false, fresh := false }
    | .corrected => { st := hard (pairCe d.st pair), bytes := d.bytes, p0 := false, p1 := false, fresh := false }
    | .poisoned l0 l1 => { st := hard (pairPoisonRd d.st pair), bytes := d.bytes, p0 := l0, p1 := l1, fresh := false }
    | .uncorrectable => { st := pairUe d.st pair d.bytes r job, bytes := d.bytes, p0 := true, p1 := true, fresh := true }

/-- R340, R342: a read of a pair at its channel, with no regard to the buffer. A correction write-back takes the pair's current value, with
merged buffer bytes (R336). -/
def channelRead (s : State) (pair : Nat) (r : Reader) (job : Option Nat) : PairRead :=
  let d := decodeStored s pair
  match d.out with
  | .clean => { st := d.st, bytes := d.bytes, p0 := false, p1 := false, fresh := false }
  | .corrected =>
    let v := pairNow d.st pair d.bytes false false
    rereadPair (writeValue (pairCe d.st pair) pair v) pair d.bytes (poisonPattern v.p0 v.p1) r job
  | .poisoned l0 l1 => { st := pairPoisonRd d.st pair, bytes := d.bytes, p0 := l0, p1 := l1, fresh := false }
  | .uncorrectable => { st := pairUe d.st pair d.bytes r job, bytes := d.bytes, p0 := true, p1 := true, fresh := true }

/-! ## The write-combining buffer (R334) -/

def dropLines (hb : HubState) (f : Nat → Bool) : HubState := { hb with buf := hb.buf.filter fun l => !f l.line }

/-- A buffer line with bytes merged at an offset. -/
def lineMerge (l : BufLine) (off : Nat) (bs : List Byte) : BufLine :=
  match bs with
  | [] => l
  | b :: r =>
    lineMerge { l with
      mask := l.mask ||| BitVec.ofNat 64 (2 ^ off),
      data := (l.data &&& ~~~ ((0xFF#512) <<< (8 * off))) ||| ((b.setWidth 512) <<< (8 * off)) } (off + 1) r

/-- R334: the 8 check bits that go with each 8 bytes of a line. -/
def checkWords (data : BitVec 512) : W64 :=
  (List.range 8).foldl (fun c i => c ||| ((Config.secded ((data >>> (64 * i)).setWidth 64)).setWidth 64) <<< (8 * i)) 0

/-- R334: one buffer line written back. -/
def writeBackLine (s : State) (l : BufLine) : State :=
  let pair := l.line / 2
  let hk := hubOf (64 * l.line)
  let s := modHub s hk fun hb => dropLines hb fun n => n == l.line
  if retiredAt s (64 * l.line) then modHub s hk fun hb => { hb with retAcc := hb.retAcc + 1 } else
    let rd := channelRead s pair .writeBack (l.job.map fun j => j.val)
    let lo := rd.bytes.take 64
    let hi := rd.bytes.drop 64
    let odd := l.line % 2 == 1
    let data := if odd then lo ++ overlayLine l hi else overlayLine l lo ++ hi
    let p0 := if odd then rd.p0 else linePoison l rd.p0
    let p1 := if odd then linePoison l rd.p1 else rd.p1
    writeCodeword rd.st pair data (if rd.fresh then pBoth else poisonPattern p0 p1)

/-- R334: both lines of a pair are full in the buffer, and go as one pair. -/
def writeBackPair (s : State) (pair : Nat) : State :=
  let hk := hubOf (128 * pair)
  match findLine (getHub s hk) (2 * pair), findLine (getHub s hk) (2 * pair + 1) with
  | some a, some b =>
    if a.mask = fullMask ∧ b.mask = fullMask then
      let s := modHub s hk fun hb => dropLines hb fun n => n / 2 == pair
      writeCodeword s pair (overlayLine a [] ++ overlayLine b []) (poisonPattern a.poison b.poison)
    else s
  | _, _ => s

/-- R334: bytes merged into a buffer line. -/
def mergeLine (s : State) (line off : Nat) (bs : List Byte) (poison : Bool) (job : Option Nat) : State :=
  let hk := hubOf (64 * line)
  let put (l : BufLine) : BufLine :=
    let m := lineMerge l off bs
    { m with
      chk := checkWords m.data, poison := if bs.length = 64 then poison else l.poison || poison, job := jobFin job }
  let s := match findLine (getHub s hk) line with
    | some _ => modHub s hk fun hb => { hb with buf := hb.buf.map fun l => if l.line = line then put l else l }
    | none =>
      let s := match (getHub s hk).buf with
        | [] => s
        | o :: _ => if (getHub s hk).buf.length ≥ 256 then writeBackLine s o else s
      modHub s hk fun hb =>
        { hb with buf := hb.buf ++ [put { line := line, mask := 0, data := 0, poison := false, job := none }] }
  writeBackPair s (line / 2)

/-- The part of a write that falls on one line: its offset and bytes. -/
def lineSlice (pa : Nat) (data : List (Byte × Bool)) (line : Nat) : Nat × List (Byte × Bool) :=
  let lo := max pa (64 * line)
  (lo - 64 * line, (data.drop (lo - pa)).take (min (pa + data.length) (64 * line + 64) - lo))

/-- R334: the part of a write that falls on one pair. -/
def writePairPart (s : State) (pa : Nat) (data : List (Byte × Bool)) (job : Option Nat) (pair : Nat) : State :=
  let a := lineSlice pa data (2 * pair)
  let b := lineSlice pa data (2 * pair + 1)
  if a.2.length = 64 ∧ b.2.length = 64 then
    let s := modHub s (hubOf (128 * pair)) fun hb => dropLines hb fun n => n / 2 == pair
    writeCodeword s pair (a.2.map (·.1) ++ b.2.map (·.1))
      (poisonPattern (a.2.any (·.2)) (b.2.any (·.2)))
  else
    let s := if a.2 = [] then s else mergeLine s (2 * pair) a.1 (a.2.map (·.1)) (a.2.any (·.2)) job
    if b.2 = [] then s else mergeLine s (2 * pair + 1) b.1 (b.2.map (·.1)) (b.2.any (·.2)) job

/-- R332 to R334, R346: a write request within one bolt that has reached its hub; each byte carries its poison mark. -/
def serveWrite (s : State) (pa : Nat) (data : List (Byte × Bool)) (job : Option Nat) : State :=
  if data = [] then s
  else if retiredAt s pa then modHub s (hubOf pa) fun hb => { hb with retAcc := hb.retAcc + 1 }
  else
    (List.range ((pa + data.length - 1) / 128 + 1 - pa / 128)).foldl
      (fun s i => writePairPart s pa data job (pa / 128 + i)) s

/-! ## Reading (R333, R346) -/

/-- What a read delivers: bytes with their poison marks, and the pair of the first fresh uncorrectable error. -/
structure HubRead where
  st : State
  bytes : List (Byte × Bool)
  fresh : Option Nat

/-- Bytes with one poison mark. -/
def marked (x : List Byte × Bool) : List (Byte × Bool) := x.1.map fun b => (b, x.2)

/-- R333: one pair as the channel holds it, with the buffer's bytes over it. -/
def readPair (s : State) (pair : Nat) (r : Reader) (job : Option Nat) : HubRead :=
  let hb := getHub s (hubOf (128 * pair))
  let a := findLine hb (2 * pair)
  let b := findLine hb (2 * pair + 1)
  let rd := channelRead s pair r job
  { st := rd.st,
    bytes := marked (lineNow a (rd.bytes.take 64) rd.p0) ++ marked (lineNow b (rd.bytes.drop 64) rd.p1),
    fresh := if rd.fresh then some pair else none }

/-- The pairs from `pair` on, `n` of them. -/
def readPairs (s : State) (r : Reader) (job : Option Nat) (pair n : Nat) : HubRead :=
  match n with
  | 0 => { st := s, bytes := [], fresh := none }
  | n + 1 =>
    let a := readPair s pair r job
    let b := readPairs a.st r job (pair + 1) n
    { st := b.st, bytes := a.bytes ++ b.bytes, fresh := a.fresh <|> b.fresh }

/-- R333, R340, R346: a read request within one bolt that has reached its hub. -/
def serveRead (s : State) (pa len : Nat) (r : Reader) (job : Option Nat) : HubRead :=
  if len = 0 then { st := s, bytes := [], fresh := none }
  else if retiredAt s pa then
    { st := modHub s (hubOf pa) fun hb => { hb with retAcc := hb.retAcc + 1 },
      bytes := (readBytes s.mem pa len).map fun b => (b, true), fresh := none }
  else
    let rd := readPairs s r job (pa / 128) ((pa + len - 1) / 128 + 1 - pa / 128)
    { rd with bytes := (rd.bytes.drop (pa % 128)).take len }

/-! ## The mesh on the way (R353, R368, R369, R379, R511) -/

/-- What a packet carries after the mesh: its bytes with their poison marks. -/
structure Carried where
  st : State
  bytes : List (Byte × Bool)

/-- Each item of a list with its index changed. -/
def mapAt {α : Type} (f : Nat → α → α) (l : List α) : List α := (List.range l.length).zipWith f l

/-- R379: DATA XORed into bits [15:0] of the first line of a packet whose bytes begin `al` bytes into that line. -/
def xorFlit (al data : Nat) (bs : List (Byte × Bool)) : List (Byte × Bool) :=
  mapAt (fun i b => if al + i < 2 then (b.1 ^^^ BitVec.ofNat 8 (data >>> (8 * (al + i))), b.2) else b) bs

/-- One bit of the first 64 data bits inverted. -/
def flipBit (al n : Nat) (bs : List (Byte × Bool)) : List (Byte × Bool) :=
  mapAt (fun i b => if al + i = n / 8 then (b.1 ^^^ BitVec.ofNat 8 (2 ^ (n % 8)), b.2) else b) bs

/-- R353: the first line of a packet poisoned. -/
def poisonFirst (al : Nat) (bs : List (Byte × Bool)) : List (Byte × Bool) :=
  mapAt (fun i b => (b.1, b.2 || decide (al + i < 64))) bs

/-- The mask bits of a flit flip. -/
def flitBits (f : Flip) : Nat := popCount f.data 16 + popCount f.check 8

/-- R352, R353: the first flit of a packet flipped in its first 64 data bits and their 8 check bits. One wrong bit is corrected; two are
detected and poison the line, whose bits stay wrong. Three or more have a free outcome (log entry 2): a miscorrection of one further bit, a
poisoned line, or nothing seen. `ce` and `ue` count and report. -/
def flippedFlit (s : State) (f : Flip) (al : Nat) (bs : List (Byte × Bool)) (ce ue : State → State) : Carried :=
  if flitBits f = 0 then { st := s, bytes := bs }
  else if flitBits f = 1 then { st := ce s, bytes := bs }
  else if flitBits f = 2 then { st := ue s, bytes := poisonFirst al (xorFlit al f.data bs) }
  else
    let (n, s) := takeFree s
    let (m, s) := takeFree s
    if Config.freeNat n % 3 = 0 then { st := ce s, bytes := flipBit al (Config.freeNat m % 72) (xorFlit al f.data bs) }
    else if Config.freeNat n % 3 = 1 then { st := ue s, bytes := poisonFirst al (xorFlit al f.data bs) }
    else { st := s, bytes := xorFlit al f.data bs }

/-- R353: STW_MESH_ECC.CE. -/
def meshCe (h : Nat) (s : State) : State :=
  modHall s h fun hl => { hl with meshEcc := { hl.meshEcc with ce := satAdd 0xFFFF hl.meshEcc.ce 1 } }

/-- R353, R423: a double error, counted in STW_MESH_ECC.UE, with FS_MESH_UE. -/
def meshUe (h : Nat) (s : State) : State :=
  raise (modHall s h fun hl => { hl with meshEcc := { hl.meshEcc with ue := satAdd 0xFFFF hl.meshEcc.ue 1 } }) h 9 1
    { code := 0x0407 }

/-- R372, R379: a corrected flit at the receiving end of a link. -/
def seamCe (h n : Nat) (s : State) : State :=
  modHall s h fun hl =>
    { hl with seam := tabSet {} n { getSeam hl n with ce := satAdd 0xFFFF (getSeam hl n).ce 1 } hl.seam }

/-- R379, R511: an armed STW_MESH_FLIP of hall `h` acts on the packet where its way passes the stop: its first flit is the next one written to an
input buffer there. -/
def passMesh (s : State) (h : Nat) (stops : List Nat) (al : Nat) (bs : List (Byte × Bool)) : Carried :=
  let f := (getHall s h).meshFlip
  if f.arm && stops.contains (90 * h + f.sel) then
    flippedFlit (modHall s h fun hl => { hl with meshFlip := { f with arm := false } }) f al bs (meshCe h) (meshUe h)
  else { st := s, bytes := bs }

/-- R372: a wire of link `n` that has failed in service: its errors are corrected by the flit code at hall `h`, the receiving end, and counted;
how many a packet meets is free (log entry 2). -/
def failingWire (s : State) (h n : Nat) : State :=
  if (getSeam (getHall s h) n).failing then
    let (m, s) := takeFree s
    modHall s h fun hl =>
      { hl with seam := tabSet {} n { getSeam hl n with ce := satAdd 0xFFFF (getSeam hl n).ce (Config.freeNat m) } hl.seam }
  else s

/-- R372, R379, R511: a packet crosses on its link: a failed wire, and an armed STW_SEAM_FLIP of the sending hall. -/
def passSeam (s : State) (link : Option (Nat × Nat)) (al : Nat) (bs : List (Byte × Bool)) : Carried :=
  match link with
  | none => { st := s, bytes := bs }
  | some (h, n) =>
    let s := failingWire s (1 - h) n
    let f := (getHall s h).seamFlip
    if f.arm && f.sel == n then
      flippedFlit (modHall s h fun hl => { hl with seamFlip := { f with arm := false } }) f al bs (seamCe (1 - h) n) (meshUe (1 - h))
    else { st := s, bytes := bs }

/-- A packet on its way between two stops on a network and VC: its route with its detours and grants, and the flips it meets. Its bytes begin `al`
bytes into an aligned line. -/
def transit (s : State) (net : Nat) (v : Vc) (src dst al : Nat) (bs : List (Byte × Bool)) : Carried :=
  let w := way s net src dst
  let a := passMesh (travel s v w) (stopHall src) w.stops al bs
  let b := passSeam a.st w.link al a.bytes
  if stopHall src = stopHall dst then b else passMesh b.st (stopHall dst) w.stops al b.bytes

/-- STW_MESH_RESEND of a hall. -/
def countResent (s : State) (h n : Nat) : State :=
  modHall s h fun hl => { hl with meshResend := hl.meshResend + BitVec.ofNat 32 n }

/-- R368, R369: the fate of a transaction of a hall's stops: unanswered and sent once more, lost, or answered at its first sending. -/
inductive Fate
  | answered | again | lost
  deriving DecidableEq, Repr

/-- R368, R369: the fate of an access of series `key` from hall `h`, and the count of those before the one that gets no answer. -/
def fateOf (s : State) (h key : Nat) : Fate × State :=
  match s.meshFault with
  | some f =>
    if f.hall ≠ h then (.answered, s)
    else if f.skip ≠ 0 then (.answered, { s with meshFault := some { f with skip := f.skip - 1 } })
    else if f.lost then (.lost, { s with meshFault := none })
    else (.again, { s with meshFault := none, resent := if f.later = 0 then none else some (key, f.later) })
  | none =>
    match s.resent with
    | some (k, n) => if k = key then (.again, { s with resent := if n ≤ 1 then none else some (k, n - 1) }) else (.answered, s)
    | none => (.answered, s)

/-- R368: a transaction numbered and sent on the Q-net, with its fate; one that gets no answer has been sent once more, which counts. -/
def sendNumbered (s : State) (v : Vc) (src dst al : Nat) (bs : List (Byte × Bool)) : Fate × State :=
  let key := seriesKey src dst 0 v
  let (f, s) := fateOf (transact s key) (stopHall src) key
  (f, if f = .answered then s else countResent (transit s 0 v src dst al bs).st (stopHall src) 1)

/-- `n` free bytes. -/
def freeBytes (s : State) (n : Nat) : List Byte × State :=
  ((List.range n).map fun i => (Config.freeBits (s.free + i)).setWidth 8, { s with free := s.free + n })

/-- R75, R369: a lost write leaves each byte as it was or as written. -/
def lostWrite (s : State) (pa : Nat) (data : List (Byte × Bool)) (job : Option Nat) : State :=
  match data with
  | [] => s
  | b :: r =>
    let (n, s) := takeFree s
    lostWrite (if Config.freeBool n then serveWrite s pa [b] job else s) (pa + 1) r job

/-- The bytes of a packet without their marks. -/
def plainBytes (bs : List (Byte × Bool)) : List Byte := bs.map (·.1)

/-- R295: the block check value of what arrived is that of what was sent. -/
def sameCheck (got sent : List (Byte × Bool)) : Bool :=
  plainBytes got == plainBytes sent || crc32c (plainBytes got) == crc32c (plainBytes sent)

/-- R297: a segment that still mismatches is delivered with every line poisoned. -/
def poisonAll (bs : List (Byte × Bool)) : List (Byte × Bool) := bs.map fun b => (b.1, true)

/-- What a write request gives: whether its acknowledgement came (R369), and whether its segment failed its check twice (R297). -/
structure HubWrite where
  st : State
  acked : Bool := true
  bad : Bool := false

/-- R295, R297: data that has arrived at its hub is checked and, on a mismatch, sent once more. Answers the bytes taken and whether they failed. -/
def checkedWrite (s : State) (v : Vc) (src hk al : Nat) (data got : List (Byte × Bool)) : Carried × Bool :=
  if sameCheck got data then ({ st := s, bytes := got }, false) else
    let c := transit s 0 v src (hubStop hk) al data
    if sameCheck c.bytes data then
      ({ c with st := modHub c.st hk fun hb => { hb with crcRetry := hb.crcRetry + 1 } }, false)
    else ({ st := modHub c.st hk fun hb => { hb with crcFail := hb.crcFail + 1 }, bytes := poisonAll c.bytes }, true)

/-- A write request within one bolt from a stop, over the Q-net to its hub, whose acknowledgement returns on the P-net. -/
def hubWrite (s : State) (src : Nat) (r : Reader) (pa : Nat) (data : List (Byte × Bool)) (job : Option Nat) : HubWrite :=
  if data = [] then { st := s } else
    let hk := hubOf pa
    let v := readerVc r
    let (f, s) := sendNumbered s v src (hubStop hk) (pa % 64) data
    if f = .lost then { st := lostWrite s pa data job, acked := false }
    else
      let c := transit s 0 v src (hubStop hk) (pa % 64) data
      let k := if inSegments r then checkedWrite c.st v src hk (pa % 64) data c.bytes else (c, false)
      { st := (transit (serveWrite k.1.st pa k.1.bytes job) 1 v (hubStop hk) src 0 []).st, bad := k.2 }

/-- What a read request gives: the hub's answer, and the bytes as they arrive. -/
structure HubAnswer where
  st : State
  sent : List (Byte × Bool)
  bytes : List (Byte × Bool)
  fresh : Option Nat

/-- A read request within one bolt from a stop, over the Q-net to its hub and back on the P-net. A lost one delivers every line poisoned, its
bytes free, and counts as a fresh uncorrectable error (R369). -/
def hubRead (s : State) (src pa len : Nat) (r : Reader) (job : Option Nat) : HubAnswer :=
  if len = 0 then { st := s, sent := [], bytes := [], fresh := none } else
    let dst := hubStop (hubOf pa)
    let v := readerVc r
    let (f, s) := sendNumbered s v src dst 0 []
    if f = .lost then
      let (bs, s) := freeBytes s len
      { st := s, sent := bs.map fun b => (b, true), bytes := bs.map fun b => (b, true), fresh := some (pa / 128) }
    else
      let rd := serveRead (transit s 0 v src dst 0 []).st pa len r job
      let c := transit rd.st 1 v dst src (pa % 64) rd.bytes
      { st := c.st, sent := rd.bytes, bytes := c.bytes, fresh := rd.fresh }

/-! ## Segments on arrival (R294, R295, R297) -/

/-- A part of a segment: the hub it came from, where it begins in its line, what the hub sent and what arrived. -/
structure SegPart where
  hub : Nat
  al : Nat
  sent : List (Byte × Bool)
  got : List (Byte × Bool)

/-- The parts of a segment sent once more. -/
def resendParts (s : State) (v : Vc) (dst : Nat) (l : List SegPart) : Carried :=
  l.foldl (fun a x =>
    let c := transit a.st 1 v (hubStop x.hub) dst x.al x.sent
    { st := c.st, bytes := a.bytes ++ c.bytes }) { st := s, bytes := [] }

/-- R297: a mismatch cleared by the second attempt, or not, counts at the core, the link hub or, for a stop that has no such register, at the
memory hub concerned. -/
def countCrc (s : State) (dst hk : Nat) (failed : Bool) : State :=
  match (List.range 144).find? fun p => posStop p == dst with
  | some p =>
    modPos s p fun ps =>
      if failed then { ps with asyCrcFail := ps.asyCrcFail + 1 } else { ps with asyCrcRetry := ps.asyCrcRetry + 1 }
  | none =>
    match (List.range 12).find? fun k => linkStop k == dst with
    | some k =>
      modPort s k fun p => if failed then { p with crcFail := p.crcFail + 1 } else { p with crcRetry := p.crcRetry + 1 }
    | none =>
      modHub s hk fun hb => if failed then { hb with crcFail := hb.crcFail + 1 } else { hb with crcRetry := hb.crcRetry + 1 }

/-- What a segment gives where it is consumed. -/
structure SegRead where
  st : State
  bytes : List (Byte × Bool)
  bad : Bool

/-- R295, R297: a segment checked on arrival at the stop that consumes it; on a mismatch it is sent once more. -/
def checkSegment (s : State) (v : Vc) (dst : Nat) (l : List SegPart) : SegRead :=
  let sent := l.flatMap (·.sent)
  let got := l.flatMap (·.got)
  let hk := (l.head?.map (·.hub)).getD 0
  if sameCheck got sent then { st := s, bytes := got, bad := false } else
    let c := resendParts s v dst l
    if sameCheck c.bytes sent then { st := countCrc c.st dst hk false, bytes := c.bytes, bad := false }
    else { st := countCrc c.st dst hk true, bytes := poisonAll c.bytes, bad := true }

/-! ## Fence flush (R335) -/

/-- R335: the lines of a job context written back, oldest first. -/
def flushJob (s : State) (hk : Nat) (job : Nat) : State :=
  ((getHub s hk).buf.filter fun l => l.job.map (fun j => j.val) == some job).foldl writeBackLine s

/-- A hub's buffer holds a line whose last writer is job context `job`. -/
def holdsLine (hb : HubState) (job : Nat) : Bool := hb.buf.any fun l => l.job.map (fun j => j.val) == some job

end Sys2Proof.Machine
end

