-- ==== Sys2Proof/Machine/Store.lean ====
section
/-! DEFINITION. The 3 MiB store of a position: the check bits of each byte (R349), reads and writes, and the records of its 4 KiB
blocks (R296). -/

namespace Sys2Proof.Machine

/-- The bytes of a store (R6). -/
def storeSize : Nat := 0x300000

/-- R349: the column of data bit `i`. -/
def dataColumn (i : Nat) : Nat := [3, 5, 6, 7, 9, 10, 11, 12].getD i 0

/-- R349: the check bits of a byte. -/
def storeCheck (d : Byte) : BitVec 4 :=
  (List.range 8).foldl (fun c i => if d.getLsbD i then c ^^^ BitVec.ofNat 4 (dataColumn i) else c) 0

/-- R349: a byte written, poisoned by the syndrome 15. -/
def storeCode (d : Byte) (poison : Bool) : SByte := { d := d, c := storeCheck d ^^^ (if poison then 0xF else 0) }

/-- R349: the syndrome of a stored byte. -/
def syndrome (b : SByte) : Nat := (storeCheck b.d ^^^ b.c).toNat

/-- R349: the outcome of reading a byte. -/
inductive ByteRead
  | clean (d : Byte) | corrected (d : Byte) | uncorrectable (d : Byte) | poisoned (d : Byte)
  deriving DecidableEq, Repr

/-- R349. -/
def decodeByte (b : SByte) : ByteRead :=
  let y := syndrome b
  if y = 0 then .clean b.d
  else if y = 15 then .poisoned b.d
  else if y = 13 ∨ y = 14 then .uncorrectable b.d
  else .corrected ((List.range 8).foldl (fun d i => if dataColumn i = y then d ^^^ BitVec.ofNat 8 (2 ^ i) else d) b.d)

def readSByte (p : Position) (off : Nat) : SByte := tabGet {} p.store off

/-- The store with bytes written from `off`; an armed STW_STO_FLIP acts on the first of them (R351, R511). -/
def storeSet (t : Tab SByte) (off : Nat) (bs : List (Byte × Bool)) : Tab SByte :=
  match bs with
  | [] => t
  | b :: r => storeSet (tabSet {} off (storeCode b.1 b.2) t) (off + 1) r

/-- R511: the first byte of a write with the masks of STW_STO_FLIP. -/
def flipByte (f : Flip) (b : SByte) : SByte :=
  { d := b.d ^^^ BitVec.ofNat 8 f.data, c := b.c ^^^ BitVec.ofNat 4 f.check }

/-- R349, R351: bytes written to a position's store, with no regard to its block records. -/
def storeRaw (ps : Position) (off : Nat) (bs : List (Byte × Bool)) : Position :=
  match bs with
  | [] => ps
  | b :: r =>
    if ps.stoFlip.arm then
      { ps with store := storeSet (tabSet {} off (flipByte ps.stoFlip (storeCode b.1 b.2)) ps.store) (off + 1) r,
                stoFlip := { ps.stoFlip with arm := false } }
    else { ps with store := storeSet ps.store off (b :: r) }

/-- What a store read delivers. -/
structure StoreRead where
  st : State
  bytes : List (Byte × Bool)
  fresh : Option Nat

/-- R349: one byte of the store of position `p`, with the counts and reports of its outcome; a fresh uncorrectable one is rewritten poisoned. -/
def storeByte (s : State) (p off : Nat) : StoreRead :=
  let ps := getPos s p
  match decodeByte (readSByte ps off) with
  | .clean d => { st := s, bytes := [(d, false)], fresh := none }
  | .poisoned d => { st := s, bytes := [(d, true)], fresh := none }
  | .corrected d =>
    { st := raiseQuiet (setPos s p { ps with stoEcc := { ps.stoEcc with ce := satAdd 0xFFFF ps.stoEcc.ce 1 } }) (p / 72) 18,
      bytes := [(d, false)], fresh := none }
  | .uncorrectable d =>
    let ps := storeRaw { ps with stoEcc := { ps.stoEcc with ue := satAdd 0xFFFF ps.stoEcc.ue 1 } } off [(d, true)]
    { st := raise (setPos s p ps) (p / 72) 19 1 { code := 0x0401, lockind := 3, loc := p },
      bytes := [(d, true)], fresh := some off }

/-- `n` bytes of the store from `off`. -/
def storeRead (s : State) (p off n : Nat) : StoreRead :=
  match n with
  | 0 => { st := s, bytes := [], fresh := none }
  | n + 1 =>
    let a := storeByte s p off
    let b := storeRead a.st p (off + 1) n
    { st := b.st, bytes := a.bytes ++ b.bytes, fresh := a.fresh <|> b.fresh }

def getRec (ps : Position) (blk : Nat) : BlockRec := tabGet {} ps.records blk

/-- R296: any write but a whole-block Carter or swap-copy write clears VALID of the blocks it touches. -/
def clearRecords (ps : Position) (off n : Nat) : Position :=
  if n = 0 then ps else
    { ps with records :=
        ps.records.filter fun x => !(decide (off / 4096 ≤ x.1) && decide (x.1 ≤ (off + n - 1) / 4096)) }

/-- R296: an engine writes bytes of the store. -/
def storeWrite (s : State) (p off : Nat) (bs : List (Byte × Bool)) : State :=
  modPos s p fun ps => clearRecords (storeRaw ps off bs) off bs.length

/-- R296, R303: a block record written; an armed ASY_CRC_FLIP acts on it. -/
def setRecord (ps : Position) (blk : Nat) (v : W32) : Position :=
  let f := ps.asyCrcFlip
  { ps with
    records := tabSet {} blk
      { value := v, valid := true, err := if f.arm then popCount f.data 16 + popCount f.check 7 else 0 } ps.records,
    asyCrcFlip := { f with arm := false } }

/-- R296, R303: a Carter or swap-copy read of a whole block consults its record. Answers the value to check against, if the record
is VALID; an uncorrectable record loses VALID and counts in ASY_ECC.UE. -/
def recordValue (s : State) (p blk : Nat) : Option W32 × State :=
  let ps := getPos s p
  let r := getRec ps blk
  if !r.valid then (none, s)
  else if r.err = 0 then (some r.value, s)
  else
    let (n, s) := if r.err ≤ 2 then (0, s) else takeFree s
    if r.err = 1 ∨ (2 < r.err ∧ Config.freeNat n % 2 = 0) then
      (some (if r.err = 1 then r.value else (Config.freeBits n).setWidth 32),
        raiseQuiet (setPos s p { ps with asyEcc := { ps.asyEcc with ce := satAdd 0xFFFF ps.asyEcc.ce 1 } }) (p / 72) 20)
    else
      (none, setPos s p { ps with asyEcc := { ps.asyEcc with ue := satAdd 0xFFFF ps.asyEcc.ue 1 },
                                  records := tabSet {} blk {} ps.records })

end Sys2Proof.Machine
end

