-- ==== Sys2Proof/Machine/Translate.lean ====
section
/-! DEFINITION. Translation and protection (R321 to R324), and the reads and writes of a device virtual range. -/

namespace Sys2Proof.Machine

/-- Who accesses: the hall whose walks count and whose table pointers serve, the job context, the position whose leaf cache is used, and the stop. -/
structure Ctx where
  hall : Nat
  job : Nat
  pos : Option Nat
  stop : Nat

/-- R323: the cause code and the table level reached. -/
structure XFail where
  cause : Nat
  level : Nat
  deriving DecidableEq, Repr

/-- What a translation gives: the physical address or the fault, and whether the leaf cache missed. -/
structure XRes where
  st : State
  res : Except XFail Nat
  miss : Bool

/-- R321: the index a level takes from the address. -/
def levelIndex (level va : Nat) : Nat :=
  if level = 3 then bitsOf va 39 9 else if level = 2 then bitsOf va 30 9
  else if level = 1 then bitsOf va 21 9 else bitsOf va 16 5

/-- R321: the page a leaf of a level maps. -/
def pageSize (level : Nat) : Nat :=
  if level = 2 then 0x40000000 else if level = 1 then 0x200000 else 0x10000

/-- R321: the size and alignment of the table that a pointer of a level names. -/
def nextTableSize (level : Nat) : Nat := if level = 1 then 256 else 4096

/-- R323: what an entry of a level says. -/
inductive Pte
  | bad (cause : Nat) | table (addr : Nat) | page (addr : Nat) (write : Bool)
  deriving DecidableEq, Repr

/-- R321, R323: a table entry read at a level. -/
def decodePte (usable level e : Nat) : Pte :=
  let addr := bitsOf e 8 40 * 256
  let leaf := bitOf e 2
  if !bitOf e 0 then .bad 1
  else if bitsOf e 48 16 != 0 || bitsOf e 4 4 != 0 || bitOf e 1 then .bad 2
  else if leaf && level == 3 || !leaf && level == 0 then .bad 2
  else if leaf then
    if addr % pageSize level != 0 then .bad 2
    else if usable < addr + pageSize level then .bad 3
    else .page addr (bitOf e 3)
  else if addr % nextTableSize level != 0 then .bad 2
  else if usable < addr + nextTableSize level then .bad 3
  else .table addr

/-- What a walk gives: the page and its level, or the fault. -/
structure WalkRes where
  st : State
  res : Except XFail (Nat × Bool × Nat)

/-- R322: the address bits that pick an entry of a level and every level above it. -/
def levelPrefix (level va : Nat) : Nat := va >>> (if level = 3 then 39 else if level = 2 then 30 else 21)

/-- R322: a table pointer that the hall has cached. -/
def hitPtr (s : State) (c : Ctx) (level va : Nat) : Option Nat :=
  ((getHall s c.hall).ptrs.find? fun p => p.job.val == c.job && p.level == level && p.pre == levelPrefix level va).map (·.table)

/-- R322: a table pointer cached by the hall; the oldest of 256 gives way (log entry 12). -/
def cachePtr (s : State) (c : Ctx) (level va table : Nat) : State :=
  match jobFin (some c.job) with
  | none => s
  | some j =>
    modHall s c.hall fun hl =>
      let l := hl.ptrs ++ [{ job := j, level := level, pre := levelPrefix level va, table := table }]
      { hl with ptrs := l.drop (l.length - 256) }

/-- The bytes `i` to `i + n - 1` of a list. -/
def sliceOf {α : Type} (i n : Nat) (l : List α) : List α := (l.drop i).take n

/-- R322, R323, R332: the entry of a level, read with its 64-byte line. -/
def readPte (s : State) (c : Ctx) (va level table : Nat) : Pte × State :=
  let pa := table + 8 * levelIndex level va
  let rd := hubRead s c.stop (pa - pa % 64) 64 .walk (some c.job)
  let e := sliceOf (pa % 64) 8 rd.bytes
  if rd.fresh.isSome || e.any (·.2) then (.bad 4, rd.st) else (decodePte s.order.usable level (leNat (plainBytes e)), rd.st)

/-- R322: a walk from a table of a level down; a table pointer that the hall has cached is not read. -/
def walkFrom (s : State) (c : Ctx) (va level table : Nat) : WalkRes :=
  match level with
  | 0 =>
    match readPte s c va 0 table with
    | (.bad x, s) => { st := s, res := .error { cause := x, level := 0 } }
    | (.page a w, s) => { st := s, res := .ok (a, w, 0) }
    | (.table _, s) => { st := s, res := .error { cause := 2, level := 0 } }
  | l + 1 =>
    match hitPtr s c (l + 1) va with
    | some a => walkFrom s c va l a
    | none =>
      match readPte s c va (l + 1) table with
      | (.bad x, s) => { st := s, res := .error { cause := x, level := l + 1 } }
      | (.page a w, s) => { st := s, res := .ok (a, w, l + 1) }
      | (.table a, s) => walkFrom (cachePtr s c (l + 1) va a) c va l a

/-- R321 to R323: a walk of the tables of a job context. -/
def walk (s : State) (c : Ctx) (va : Nat) : WalkRes :=
  let s := modHall s c.hall fun hl => { hl with walks := hl.walks + 1 }
  let j := getJob s c.job
  if !j.rootValid then { st := s, res := .error { cause := 1, level := 3 } }
  else if s.order.usable < j.root.toNat * 4096 + 4096 then { st := s, res := .error { cause := 3, level := 3 } }
  else walkFrom s c va 3 (j.root.toNat * 4096)

/-- The leaf translations a position caches (R322). -/
def cachedLeafs (s : State) (c : Ctx) : List Leaf :=
  match c.pos with
  | none => []
  | some p => tabGet [] s.leafs p

/-- A leaf that serves an address. -/
def hitLeaf (ls : List Leaf) (job va : Nat) : Option Leaf :=
  ls.find? fun l => l.job.val == job && decide (l.va ≤ va) && decide (va < l.va + l.size)

/-- R322: a leaf cached; the oldest of 64 leaves (log entry 12). -/
def cacheLeaf (s : State) (c : Ctx) (l : Leaf) : State :=
  match c.pos with
  | none => s
  | some p =>
    let ls := tabGet [] s.leafs p ++ [l]
    { s with leafs := tabSet [] p (ls.drop (ls.length - 64)) s.leafs }

def levelOfSize (size : Nat) : Nat := if size = 0x40000000 then 2 else if size = 0x200000 then 1 else 0

/-- R321 to R323: one address translated for a read or a write. -/
def xlate (s : State) (c : Ctx) (va : Nat) (write : Bool) : XRes :=
  match hitLeaf (cachedLeafs s c) c.job va with
  | some l =>
    if write && !l.write then { st := s, res := .error { cause := 5, level := levelOfSize l.size }, miss := false }
    else { st := s, res := .ok (l.pa + (va - l.va)), miss := false }
  | none =>
    let w := walk s c va
    match w.res with
    | .error f => { st := w.st, res := .error f, miss := true }
    | .ok (a, wr, level) =>
      let size := pageSize level
      let st := match jobFin (some c.job) with
        | none => w.st
        | some j => cacheLeaf w.st c { job := j, va := va / size * size, size := size, pa := a, write := wr }
      if write && !wr then { st := st, res := .error { cause := 5, level := level }, miss := true }
      else { st := st, res := .ok (a + va % size), miss := true }

/-! ## Ranges of device virtual addresses -/

/-- R314, R332: the bytes of a range that its next request moves: a run of the Carter ends at a bolt, and every other engine issues lines of 64
bytes or whole bolts. -/
def requestSpan (r : Reader) (va len : Nat) : Nat :=
  if r = .carter then min len (2048 - va % 2048)
  else if va % 2048 = 0 ∧ 2048 ≤ len then 2048
  else min len (64 - va % 64)

/-- What a read of a range gives: the bytes up to the first translation fault, that fault with its address, the device virtual
address of the first fresh uncorrectable error, the leaf-cache misses, what came from which hub, and the source addresses of the segments that
failed their check (R297). -/
structure VaRead where
  st : State
  bytes : List (Byte × Bool)
  stop : Option (XFail × Nat)
  fresh : Option Nat
  misses : Nat
  parts : List SegPart := []
  bad : List Nat := []

/-- One request of a read at a physical address: the bytes wanted, out of the run or line that the request moves (R332). -/
def readRequest (s : State) (c : Ctx) (r : Reader) (pa n : Nat) : HubAnswer :=
  if r = .carter ∨ n = 2048 then hubRead s c.stop pa n r (some c.job)
  else
    let rd := hubRead s c.stop (pa - pa % 64) 64 r (some c.job)
    { rd with sent := sliceOf (pa % 64) n rd.sent, bytes := sliceOf (pa % 64) n rd.bytes }

/-- A range read request by request; `n` bounds the requests. -/
def vaReadFrom (s : State) (c : Ctx) (r : Reader) (n va len : Nat) : VaRead :=
  match n with
  | 0 => { st := s, bytes := [], stop := none, fresh := none, misses := 0 }
  | n + 1 =>
    if len = 0 then { st := s, bytes := [], stop := none, fresh := none, misses := 0 } else
      let take := requestSpan r va len
      let x := xlate s c va false
      match x.res with
      | .error f => { st := x.st, bytes := [], stop := some (f, va), fresh := none, misses := boolNat x.miss }
      | .ok pa =>
        let rd := readRequest x.st c r pa take
        let more := vaReadFrom rd.st c r n (va + take) (len - take)
        { st := more.st, bytes := rd.bytes ++ more.bytes, stop := more.stop,
          fresh := (rd.fresh.map fun pr => max va (va - pa % 128 + 128 * (pr - pa / 128))) <|> more.fresh,
          misses := boolNat x.miss + more.misses,
          parts := { hub := hubOf pa, al := pa % 64, sent := rd.sent, got := rd.bytes } :: more.parts }

/-- The segment of a range that ends at the next 4 KiB boundary (R294), read and checked on arrival (R295). -/
def segmentRead (s : State) (c : Ctx) (r : Reader) (va len : Nat) : VaRead :=
  let rd := vaReadFrom s c r (len / 64 + 2) va len
  let k := checkSegment rd.st (readerVc r) c.stop rd.parts
  { rd with st := k.st, bytes := k.bytes, bad := if k.bad then [va] else [] }

/-- A range read segment by segment; `n` bounds the segments. -/
def segmentsRead (s : State) (c : Ctx) (r : Reader) (n va len : Nat) : VaRead :=
  match n with
  | 0 => { st := s, bytes := [], stop := none, fresh := none, misses := 0 }
  | n + 1 =>
    if len = 0 then { st := s, bytes := [], stop := none, fresh := none, misses := 0 } else
      let take := min len (4096 - va % 4096)
      let a := segmentRead s c r va take
      if a.stop.isSome then a else
        let b := segmentsRead a.st c r n (va + take) (len - take)
        { b with bytes := a.bytes ++ b.bytes, fresh := a.fresh <|> b.fresh, misses := a.misses + b.misses,
                 parts := a.parts ++ b.parts, bad := a.bad ++ b.bad }

/-- A read of `len` bytes at a device virtual address. -/
def vaRead (s : State) (c : Ctx) (va len : Nat) (r : Reader) : VaRead :=
  if inSegments r then segmentsRead s c r (len / 4096 + 2) va len else vaReadFrom s c r (len / 64 + 2) va len

/-- What a write of a range gives; `acked` tells whether every acknowledgement came (R369), `bad` where a segment failed its check twice. -/
structure VaWrite where
  st : State
  stop : Option (XFail × Nat)
  misses : Nat
  acked : Bool := true
  bad : List Nat := []

/-- R332: the request that writes a piece at a physical address. An engine other than the Carter writes whole lines: a shorter piece is put into
its line, which is read, checked on arrival (R295) and written back. -/
def writeRequest (s : State) (c : Ctx) (r : Reader) (pa : Nat) (bs : List (Byte × Bool)) : HubWrite :=
  if r = .carter ∨ bs.length = 64 ∨ bs.length = 2048 then hubWrite s c.stop r pa bs (some c.job)
  else
    let lo := pa - pa % 64
    let rd := hubRead s c.stop lo 64 r (some c.job)
    let k : SegRead := if inSegments r then checkSegment rd.st (readerVc r) c.stop [{ hub := hubOf lo, al := 0, sent := rd.sent, got := rd.bytes }]
      else { st := rd.st, bytes := rd.bytes, bad := false }
    let line := k.bytes.take (pa % 64) ++ bs ++ k.bytes.drop (pa % 64 + bs.length)
    let w := hubWrite k.st c.stop r lo line (some c.job)
    { w with bad := k.bad || w.bad }

def vaWriteFrom (s : State) (c : Ctx) (r : Reader) (n va : Nat) (data : List (Byte × Bool)) : VaWrite :=
  match n with
  | 0 => { st := s, stop := none, misses := 0 }
  | n + 1 =>
    if data = [] then { st := s, stop := none, misses := 0 } else
      let take := requestSpan r va data.length
      let x := xlate s c va true
      match x.res with
      | .error f => { st := x.st, stop := some (f, va), misses := boolNat x.miss }
      | .ok pa =>
        let w := writeRequest x.st c r pa (data.take take)
        let more := vaWriteFrom w.st c r n (va + take) (data.drop take)
        { more with misses := boolNat x.miss + more.misses, acked := w.acked && more.acked,
                    bad := (if w.bad then [va] else []) ++ more.bad }

/-- A write at a device virtual address; each byte carries its poison mark. -/
def vaWrite (s : State) (c : Ctx) (r : Reader) (va : Nat) (data : List (Byte × Bool)) : VaWrite :=
  vaWriteFrom s c r (data.length / 64 + 2) va data

/-- R323: XLATE for causes 1 to 4, PROT for 5. -/
def xlateStatus (f : XFail) : Nat := if f.cause = 5 then 0x21 else 0x20

end Sys2Proof.Machine
end

