-- ==== Sys2Proof/Machine/Link.lean ====
section
/-! DEFINITION. Zodun ports as the blocks that send use them: the egress of a frame under its credit (R387, R388), a port that goes
down (R382, R384), and the Drover's channels with its abort frames (R389, R399). -/

namespace Sys2Proof.Machine

/-- The bytes a frame takes in a buffer (R385). -/
def frameSize (f : Frame) : Nat := 64 + f.payload.length

/-- R385: a frame with the fields that most kinds leave zero. -/
def blankFrame : Frame :=
  { src := 0, dst := 0, vl := 0, kind := 0, form := 0, dfmt := 0, seq := 0, collId := 0, jobTag := 0, rstep := 0,
    chunk := 0, offset := 0, contrib := 0, tscale := 0, step := 0, maskVersion := 0, poison := 0, pcrc := 0, hcrc := 0, payload := [] }

/-- R385: a frame as it is sent: its SEQ, and the check values of its payload and header. -/
def signFrame (f : Frame) (seq : W32) : Frame :=
  let f := { f with seq := seq, pcrc := crc32c f.payload }
  { f with hcrc := crc32c (headerStart f) }

/-- R388: the first frame of a virtual lane that waits at egress. -/
def firstOf (p : PortState) (vl : Nat) : Option Frame := p.egress.find? fun f => f.vl.val == vl

/-- R388: a virtual lane has a frame and holds a credit for it. -/
def canSend (p : PortState) (vl : Nat) : Bool := (firstOf p vl).isSome && decide (0 < p.credits.getD vl 0)

/-- R388: the virtual lane that sends next: VL0 first, VL1 and VL2 in turn, VL3 once in 16 frames when another waits. -/
def nextLane (p : PortState) : Option Nat :=
  let both := canSend p 1 || canSend p 2
  if canSend p 0 then some 0
  else if canSend p 3 && (!both || decide (15 ≤ p.vl3Wait)) then some 3
  else if canSend p 1 && (!canSend p 2 || p.lastVl == 2) then some 1
  else if canSend p 2 then some 2
  else none

/-- R387: the bytes the retry buffer holds. -/
def retryBytes (p : PortState) : Nat := (p.retry.map fun u => frameSize u.frame).sum

/-- R401, R511: what LNK_FLIP does to the first 64-bit word of a frame written to the retry buffer (0) or the receive buffer (1). -/
def bufFlip (p : PortState) (buf : Nat) : Flip := if p.flip.arm ∧ p.flip.sel = buf then { p.flip with arm := false } else {}

/-- The first 64-bit word of a frame's bytes with the bits of a mask inverted. -/
def xorWord (bs : List Byte) (mask : Nat) : List Byte :=
  bs.mapIdx fun i b => if i < 8 then b ^^^ BitVec.ofNat 8 (mask >>> (8 * i)) else b

/-- R401, R511: the bytes of a buffered frame as its reader takes them, `free` for the decode of three wrong bits or more: one wrong bit is corrected;
otherwise the word stands as it is stored, with one further bit wrong where the decoder takes it for the one in error (log entry 156). -/
def readLine (bs : List Byte) (x : Flip) (free : Nat) : List Byte :=
  if flitBits x ≤ 1 then bs
  else
    let bs := xorWord bs x.data
    match eccOutcome (flitBits x) free with
    | .corrected => if free / 3 % 72 < 64 then xorWord bs (2 ^ (free / 3 % 72)) else bs
    | .clean | .uncorrectable => bs

/-- R401: a frame as it is read from its buffer. -/
def readWord (f : Frame) (x : Flip) (free : Nat) : Frame :=
  if flitBits x ≤ 1 then f else frameOf (readLine (lineBytes f) x free)

def disarmBuf (p : PortState) (buf : Nat) : Flip :=
  if p.flip.sel = buf then { p.flip with arm := false } else p.flip

/-- R387, R388: one frame sent: it takes the next SEQ and a credit, and stays in the retry buffer until acknowledged. -/
def sendOne (p : PortState) : Option PortState :=
  if !p.up then none else
    match nextLane p with
    | none => none
    | some vl =>
      match firstOf p vl with
      | none => none
      | some f =>
        if 524288 < retryBytes p + frameSize f then none else
          some { p with
            egress := p.egress.erase f,
            retry := p.retry ++ [{ frame := signFrame f p.txSeq, replays := 0, flip := bufFlip p 0 }],
            line := p.line ++ nibbles (lineBytes (signFrame f p.txSeq)),
            flip := disarmBuf p 0,
            txSeq := p.txSeq + 1,
            credits := p.credits.set vl (p.credits.getD vl 0 - 1),
            lastVl := if vl = 1 ∨ vl = 2 then vl else p.lastVl,
            vl3Wait := if vl = 3 then 0 else if vl = 0 then p.vl3Wait else min 15 (p.vl3Wait + 1) }

/-- R388: frames sent while the line has not the bytes of one codeword, and lanes, credits and the retry buffer allow: what waits at egress is put in
order again for every frame. -/
def fillLine (n : Nat) (p : PortState) : PortState :=
  match n with
  | 0 => p
  | n + 1 =>
    if 1285 ≤ p.line.length then p
    else match sendOne p with
    | none => p
    | some p => fillLine n p

/-- A frame given to a port waits at its egress; a port that is down takes none. -/
def enqueueFrame (s : State) (k : Nat) (f : Frame) : State :=
  if (getPort s k).up then modPort s k fun p => { p with egress := p.egress ++ [f] } else s

/-- R382, R384: a port goes down; its buffers are lost, and its next training starts both sequence numbers at 0 (log entry 20). -/
def downPort (p : PortState) : PortState :=
  { p with
    up := false, lost := true, active := 0, spare := none, peer := 0,
    lanes := tabMap {} (fun _ l => { l with role := if l.retired then 5 else 6 }) p.lanes,
    rxSlots := [], rxSpare := none, handover := none, both := none,
    rxSeq := 0, txSeq := 0, crcTries := 0, askReplay := false, retry := [], egress := [], rx := [], owed := [0, 0, 0, 0],
    credits := [8, 48, 64, 8], lastVl := 2, vl3Wait := 0, hops := 255, offset := 0, master := 0,
    line := [], round := 0, control := none, sent := [] }

/-- R388: the receive buffers of each virtual lane, in frames. -/
def rxBuffers : List Nat := [8, 48, 64, 8]

/-- R388: the frames of a virtual lane that the receiver holds. -/
def rxHeld (p : PortState) (vl : Nat) : Nat := (p.rx.filter fun f => f.frame.vl.val == vl).length

/-- R388: credits to return for frames that leave their buffer, `n` on a virtual lane. -/
def oweCredits (p : PortState) (vl n : Nat) : PortState := { p with owed := p.owed.set vl (p.owed.getD vl 0 + n) }

/-- R389: the port a channel sends on, and the port it receives on. -/
def sendPort (h c : Nat) (dir : Bool) : Nat := 6 * h + 2 * c + boolNat dir
def recvPort (h c : Nat) (dir : Bool) : Nat := 6 * h + 2 * c + boolNat (!dir)

/-- The channels a mask names, ascending. -/
def maskChannels (m : Nat) : List Nat := (List.range 3).filter fun c => bitOf m c

/-- Bit field of a command record: `w` bits from bit `b` of byte `i` (R50). -/
def fld (c : BitVec 512) (i b w : Nat) : Nat := bitsOf c.toNat (8 * i + b) w

/-- R390, R391: the channels a Drover command uses; DRV.BARRIER takes the lowest channel named. -/
def drvChannels (cmd : BitVec 512) : List Nat :=
  if fld cmd 0 0 8 = 0xC3 then (maskChannels (fld cmd 24 2 3)).take 1 else maskChannels (fld cmd 24 2 3)

/-- R399: frames of an aborted COLL_ID that are still buffered leave the buffer, counted in LNK_DROP. -/
def dropColl (s : State) (k : Nat) (coll tag : W32) : State :=
  modPort s k fun p =>
    let gone := p.rx.filter fun f => f.frame.collId == coll && f.frame.jobTag == tag
    let p := (List.range 4).foldl (fun p vl => oweCredits p vl (gone.filter fun f => f.frame.vl.val == vl).length) p
    { p with rx := p.rx.filter fun f => !(f.frame.collId == coll && f.frame.jobTag == tag),
             drops := p.drops + BitVec.ofNat 32 gone.length }

/-- R399: the abort frame of a collective on a port. -/
def sendAbort (s : State) (k : Nat) (coll tag : W32) : State :=
  enqueueFrame (dropColl s k coll tag) k
    { blankFrame with src := s.chain.lfa.getD 0, dst := (getPort s k).peer, vl := 0, kind := 2, collId := coll, jobTag := tag }

/-- R399: abort frames on every port a Drover command uses. -/
def drvAbort (s : State) (h j : Nat) (cmd : BitVec 512) : State :=
  let coll := BitVec.ofNat 32 (fld cmd 28 0 32)
  let tag := (getJob s j).tag
  (drvChannels cmd).foldl
    (fun s c => sendAbort (sendAbort s (6 * h + 2 * c) coll tag) (6 * h + 2 * c + 1) coll tag) s

end Sys2Proof.Machine
end

