-- ==== Sys2Proof/Machine/Forms.lean ====
section
/-! DEFINITION. Operand forms that a boundary needs beside their engine: the descriptors, paths and runs of the Carter (R305 to R315), the program
words and addresses of FUL.RUN (R242 to R248), and the destination of a discarded command (R75). -/

namespace Sys2Proof.Machine

/-! ## Descriptors (R306, R307) -/

/-- One side of a move. -/
structure CDesc where
  base : Nat
  store : Bool
  ordered : Bool
  es : Nat
  ndim : Nat
  n : List Nat
  s : List Int
  deriving DecidableEq, Repr

/-- The 64-byte descriptor at bit `lo` of a descriptor block. -/
def cdesc (blk : BitVec 1024) (lo : Nat) : CDesc :=
  let b (i w : Nat) : Nat := bitsOf blk.toNat (lo + i) w
  { base := b 0 48, store := b 64 1 == 1, ordered := b 65 1 == 1, es := 2 ^ b 72 2, ndim := b 80 3,
    n := (List.range 5).map fun d => b (96 + 32 * d) 32 + 1,
    s := (List.range 5).map fun d => signed 40 (b (256 + 40 * d) 40) }

def srcDesc (blk : BitVec 1024) : CDesc := cdesc blk 0
def dstDesc (blk : BitVec 1024) : CDesc := cdesc blk 512

/-- R306: the reserved bits of a descriptor. -/
def cdescReserved (blk : BitVec 1024) (lo : Nat) : Bool :=
  [(48, 16), (66, 6), (74, 6), (83, 5), (88, 8), (456, 56)].any fun x => bitsOf blk.toNat (lo + x.1) x.2 != 0

def CDesc.count (x : CDesc) (d : Nat) : Nat := x.n.getD d 1
def CDesc.stride (x : CDesc) (d : Nat) : Int := x.s.getD d 0

/-- R307: NDIM is 1 to 5, and the dimensions above it are unused. -/
def CDesc.dimsOk (x : CDesc) : Bool :=
  decide (1 ≤ x.ndim) && decide (x.ndim ≤ 5)
    && (List.range 5).all fun d => decide (d < x.ndim) || (x.count d == 1 && x.stride d == 0)

/-- R307: the extent of a descriptor. -/
def CDesc.lo (x : CDesc) : Int := x.base + ((List.range 5).map fun d => min 0 (x.stride d * ((x.count d : Int) - 1))).sum
def CDesc.hi (x : CDesc) : Int :=
  x.base + ((List.range 5).map fun d => max 0 (x.stride d * ((x.count d : Int) - 1))).sum + x.es - 1

/-- The elements of a descriptor. -/
def CDesc.total (x : CDesc) : Nat := (List.range 5).foldl (fun a d => a * x.count d) 1

/-- R308: dest_ok, for a descriptor whose ORDERED is taken as clear. -/
def CDesc.noAlias (x : CDesc) : Bool :=
  ((List.range 5).foldl (fun (a : Bool × Int) d =>
    if 1 < x.count d then
      (a.1 && decide (a.2 ≤ ((x.stride d).natAbs : Int)), a.2 + (x.stride d).natAbs * ((x.count d : Int) - 1))
    else a) (true, (x.es : Int))).1

/-- PERM of a command: the source dimension that destination dimension d takes. -/
def permDim (c : BitVec 512) (d : Nat) : Nat := fld c 30 (3 * d) 3

/-- R309: PERM is a permutation of the dimensions in use and leaves the others. -/
def permOk (c : BitVec 512) (nd : Nat) : Bool :=
  (List.range 5).all fun d =>
    if d < nd then ((List.range nd).filter fun e => permDim c e == d).length == 1 else permDim c d == d

/-- R309: a copy whose destination is its source shifted. -/
def plainCopy (op : Nat) (a b : CDesc) : Bool :=
  op == 0xA0 && a.store == b.store && a.es == b.es && a.ndim == b.ndim && a.n == b.n && a.s == b.s

/-- R310: the extents overlap. -/
def extentsMeet (a b : CDesc) : Bool := a.store == b.store && decide (a.lo ≤ b.hi) && decide (b.lo ≤ a.hi)

/-- R308, checks 1 to 3 of a side. -/
def sideOk (x : CDesc) : Bool :=
  x.base % x.es == 0 && (x.s.all fun v => v % x.es == 0) && decide (x.total * x.es ≤ 2 ^ 40)
    && decide (0 ≤ x.lo) && decide (x.hi ≤ if x.store then 0x2FFFFF else 2 ^ 48 - 1)

/-- R308, check 1: the field rules and the agreement of the two sides (R305 to R309). -/
def carterFields (op : Nat) (c : BitVec 512) (blk : BitVec 1024) : Bool :=
  let a := srcDesc blk
  let b := dstDesc blk
  let perm0 := fld c 30 0 15 == 0
  let pat := fld c 32 0 64
  if op = 0xA1 then b.dimsOk && bitsOf blk.toNat 0 512 == 0 && perm0 && decide (pat < 2 ^ (8 * b.es))
  else
    a.dimsOk && b.dimsOk && !a.ordered && pat == 0 && a.es == b.es && a.ndim == b.ndim &&
      if op = 0xA0 then perm0 && a.n == b.n
      else permOk c b.ndim && (List.range 5).all fun d => b.count d == a.count (permDim c d)

/-- R308: the status of the first check that fails, 0 if none. -/
def carterCheck (op : Nat) (c : BitVec 512) (blk : BitVec 1024) : Nat :=
  let a := srcDesc blk
  let b := dstDesc blk
  if !carterFields op c blk then 0x15
  else if !(sideOk b && (op == 0xA1 || sideOk a)) then 0x15
  else if !(b.ordered || b.noAlias) then 0x16
  else if op != 0xA1 && extentsMeet a b && (!plainCopy op a b || b.ordered) then 0x17
  else 0

/-! ## Paths and walks (R307, R311, R313, R315) -/

/-- R313. -/
inductive CPath
  | narrow | transpose | run
  deriving DecidableEq, Repr

def carterPath (op : Nat) (c : BitVec 512) (blk : BitVec 1024) : CPath :=
  let a := srcDesc blk
  let b := dstDesc blk
  if b.ordered && !b.noAlias then .narrow
  else if op = 0xA2 then
    if decide (2 ≤ b.ndim) && permDim c 0 == 1 && permDim c 1 == 0 && permDim c 2 == 2 && permDim c 3 == 3 && permDim c 4 == 4
        && b.es != 8 && (a.stride 0).natAbs == b.es && (b.stride 0).natAbs == b.es then .transpose
    else .narrow
  else .run

/-- The weight of each dimension in a walk index. -/
def walkWeight (x : CDesc) (d : Nat) : Nat := (List.range d).foldl (fun a e => a * x.count e) 1

/-- The index of dimension `d` in a walk index. -/
def walkDigit (x : CDesc) (i d : Nat) : Nat := i / walkWeight x d % x.count d

/-- R307: addr of a walk index. -/
def walkAddr (x : CDesc) (i : Nat) : Nat :=
  ((x.base : Int) + ((List.range 5).map fun d => (walkDigit x i d : Int) * x.stride d).sum).toNat

/-- R309: the source walk index of a destination walk index. -/
def sourceIndex (op : Nat) (c : BitVec 512) (a b : CDesc) (i : Nat) : Nat :=
  if op = 0xA2 then ((List.range 5).map fun d => walkDigit b i d * walkWeight a (permDim c d)).sum else i

/-- R310: the walk indices of a descriptor that revisits no byte, in ascending address. -/
def ascending (x : CDesc) : List Nat :=
  (List.range 5).foldl (fun out d =>
    let ks := if x.stride d < 0 then (List.range (x.count d)).reverse else List.range (x.count d)
    ks.flatMap fun k => out.map (· + k * walkWeight x d)) [0]

/-- R315: the dimensions of a source that the buffer serves. -/
def servedDims (x : CDesc) : List Nat :=
  ((List.range 5).foldl (fun (a : List Nat × Nat) d =>
    (if x.stride d = 0 ∧ 1 < x.count d ∧ a.2 ≤ 65536 then a.1 ++ [d] else a.1,
     a.2 + (x.stride d).natAbs * (x.count d - 1))) ([], x.es)).1

/-- R315: the walk index whose read serves an index. -/
def servedIndex (x : CDesc) (dims : List Nat) (i : Nat) : Nat :=
  (dims.map fun d => walkDigit x i d * walkWeight x d).foldl (fun a v => a - v) i

/-! ## Runs (R314) -/

/-- Runs cut so far: those ended, the open one with the latest first, and its direction. -/
structure Cuts where
  ended : List (List (Nat × Nat)) := []
  cur : List (Nat × Nat) := []
  step : Int := 0

def Cuts.close (c : Cuts) : List (List (Nat × Nat)) := if c.cur = [] then c.ended else c.cur.reverse :: c.ended

/-- R314: one more element, its walk index with its address. `blk` is the address boundary that ends runs, and `stop` says where
the path ends one besides. -/
def cutStep (es blk : Nat) (stop : Nat → Bool) (c : Cuts) (e : Nat × Nat) : Cuts :=
  match c.cur with
  | [] => { c with cur := [e], step := 0 }
  | p :: r =>
    let d : Int := (e.2 : Int) - p.2
    if d.natAbs = es ∧ (c.step = 0 ∨ c.step = d) ∧ e.2 / blk = p.2 / blk ∧ !stop e.1 then { c with cur := e :: p :: r, step := d }
    else { ended := c.close, cur := [e], step := 0 }

/-- R294, R313, R314: the pieces of a side between address boundaries of `blk` bytes, each the walk indices and addresses it covers: its accesses, or
with the boundaries at 4 KiB the segments of a source. -/
def accesses (x : CDesc) (path : CPath) (blk : Nat) (order : List Nat) : List (List (Nat × Nat)) :=
  let stop (i : Nat) : Bool := match path with
    | .narrow => true
    | .transpose => i % x.count 0 % (256 / x.es) == 0
    | .run => false
  ((order.map fun i => (i, walkAddr x i)).foldl (cutStep x.es blk stop) {}).close.reverse

/-- The lowest address of an access. -/
def accessLow (l : List (Nat × Nat)) : Nat := (l.map (·.2)).foldl min ((l.map (·.2)).headD 0)

/-! ## FUL.RUN: the program and its addresses (R242, R243, R248) -/

structure FulOps where
  pbase : Nat
  ninst : Nat
  vl : Nat
  iters : Nat
  bases : List Nat
  sbase : Nat
  sen : Bool
  deriving DecidableEq, Repr

def fulOps (c : BitVec 512) : FulOps :=
  { pbase := fld c 24 0 22, ninst := fld c 27 0 8 + 1, vl := fld c 28 0 10 + 1, iters := fld c 30 0 16 + 1,
    bases := (List.range 8).map fun a => fld c (32 + 3 * a) 0 22, sbase := fld c 56 0 22, sen := fld c 59 0 1 == 1 }

/-- An instruction word as its fields (R243). -/
structure FInst where
  op : Nat
  ph : Nat
  ty : Nat
  msel : Nat
  men : Bool
  zm : Bool
  cb : Bool
  vd : Nat
  va : Nat
  vb : Nat
  vc : Nat
  imm : Nat
  deriving DecidableEq, Repr

def fInst (w : Nat) : FInst :=
  { op := bitsOf w 0 6, ph := bitsOf w 6 2, ty := bitsOf w 8 2, msel := bitsOf w 10 3, men := bitOf w 13, zm := bitOf w 14,
    cb := bitOf w 15, vd := bitsOf w 16 4, va := bitsOf w 20 4, vb := bitsOf w 24 4, vc := bitsOf w 28 4, imm := bitsOf w 32 32 }

/-- R243: the phase selects the iteration. -/
def phaseOn (ph i last : Nat) : Bool := ph == 0 || (ph == 1 && i == 0) || (ph == 2 && i == last)

/-- The memory formats; a code not listed is read as FP32 (R244). -/
def memFmt (vc : Nat) : Nat := if vc ≤ 2 ∨ vc = 8 ∨ vc = 9 then vc else 3

/-- The bytes of an element of a memory format. -/
def memBytes (f : Nat) : Nat := if f = 0 then 1 else if f = 3 ∨ f = 9 then 4 else 2

/-- The low bits of an address that are ignored. -/
def memAlign (f : Nat) : Nat := if f = 0 then 32 else memBytes f

/-- R242, R248: the address of a memory instruction in iteration `i`, its low bits below `al` dropped. -/
def memAddr (bases : List Nat) (strides : List Int) (x : FInst) (i al : Nat) : Int :=
  let a : Int := (bases.getD (x.vb % 8) 0 : Nat) + i * strides.getD (x.vb % 8) 0 + signed 24 (x.imm % 2 ^ 24)
  a - a % (al : Int)

/-- A byte address lies in the store; an address below 0 does not. -/
def memIn (a : Int) (n : Nat) : Bool := decide (0 ≤ a) && decide (a + n ≤ (storeSize : Int))

/-! ## The destination of a discarded command (R75) -/

/-- The bytes of the store of a position from `off` as they stand, without a read: their values only. -/
def peekBytes (ps : Position) (off n : Nat) : List Byte := (List.range n).map fun i => (readSByte ps (off + i)).d

/-- The bytes that one ST, STC or STCI of a program may write in iteration `i`. -/
def fulStoreRanges (o : FulOps) (strides : List Int) (i : Nat) (x : FInst) : List (Int × Nat) :=
  if !(decide (0x31 ≤ x.op) && decide (x.op ≤ 0x33)) || !phaseOn x.ph i (o.iters - 1) then [] else
    let f := if x.op = 0x33 then 8 else memFmt x.vc
    let a := memAddr o.bases strides x i (memAlign f)
    if f = 0 then [(a, 32 * ((o.vl + 31) / 32)), (a + 1024, (o.vl + 31) / 32)] else [(a, memBytes f * o.vl)]

/-- The part of a range that lies in the store (R249). -/
def clipStore (r : Int × Nat) : Nat × Nat :=
  let lo := max 0 r.1
  let hi := min (storeSize : Int) (r.1 + r.2)
  (lo.toNat, (hi - lo).toNat)

/-- The store bytes that a FUL.RUN may have written, by its program as it stands. -/
def fulDest (ps : Position) (c : BitVec 512) : List (Nat × Nat) :=
  let o := fulOps c
  let strides := (chunksOf 4 (peekBytes ps o.pbase 32)).map fun b => signed 32 (leNat b)
  let prog := (chunksOf 8 (peekBytes ps (o.pbase + 64) (8 * o.ninst))).map fun b => fInst (leNat b)
  ((List.range o.iters).flatMap fun i => prog.flatMap (fulStoreRanges o strides i)).map clipStore
    ++ (if o.sen then [(o.sbase, 8)] else [])

/-- R75: of the destination bytes from `off` each keeps its earlier value or holds one that the command wrote; which, and the values, are free. -/
def tearStore (s : State) (p off n : Nat) : State :=
  match n with
  | 0 => s
  | n + 1 =>
    let f := takeFree s
    tearStore (if Config.freeBool f.1 then storeWrite f.2 p off [((Config.freeBits f.1).setWidth 8, Config.freeNat f.1 % 2 == 1)] else f.2)
      p (off + 1) n

/-- R75, R314: a write access of a discarded Carter command, of `n` bytes from `lo`: issued or not, with the pattern of a CTR.FILL, or with free bytes. -/
def tearAccess (s : State) (x : Ctx) (p : Nat) (b : CDesc) (fill : Option (List Byte)) (lo n : Nat) : State :=
  let f := takeFree s
  let put (s : State) (bs : List (Byte × Bool)) : State := if b.store then storeWrite s p lo bs else (vaWrite s x .carter lo bs).st
  if !Config.freeBool f.1 then f.2 else
    match fill with
    | some e => put f.2 ((List.range n).map fun i => (e.getD (i % e.length) 0, false))
    | none =>
      let d := freeBytes f.2 n
      let g := takeFree d.2
      put g.2 (d.1.mapIdx fun i y => (y, Config.freeNat g.1 / 2 ^ i % 2 == 1))

/-- R75: the destination of a discarded Carter command. -/
def tearCarter (s : State) (x : Ctx) (p : Nat) (c : InFlight) : State :=
  let op := fld c.cmd 0 0 8
  let b := dstDesc c.desc
  (accesses b (carterPath op c.cmd c.desc) (if b.store then 4096 else 2048) (List.range b.total)).foldl
    (fun s l => tearAccess s x p b (if op = 0xA1 then some (leBytes b.es (fld c.cmd 32 0 64)) else none) (accessLow l) (l.length * b.es)) s

/-- R213, R216: what a GLN.FENCE of the core may write: what its log says is to be made up, and the record. -/
def fenceDest (g : Gleaner) : List (Nat × Nat) :=
  if g.mode = 0 then [] else (if g.mode = 1 then g.log.flatMap (·.dest) else []) ++ [(g.gbase, 64)]

/-- R164, R267: the Sealer slot that a command's TSLOT names, whose T the command reads when it starts. -/
def commandSlot (c : BitVec 512) : Option Nat :=
  let op := fld c 0 0 8
  let slot := if op = 0x11 ∨ op = 0x12 then (if fld c 25 2 1 = 1 then fld c 50 0 8 else 255)
    else if op = 0x40 ∨ op = 0x61 then fld c 27 0 8
    else if op = 0x41 then fld c 26 0 8
    else 255
  if slot = 255 then none else some slot

/-- R248: the slots that the A8 stores of a FUL.RUN's program name. -/
def fulSlots (ps : Position) (c : BitVec 512) : List Nat :=
  let o := fulOps c
  let prog := (chunksOf 8 (peekBytes ps (o.pbase + 64) (8 * o.ninst))).map fun b => fInst (leNat b)
  ((prog.filter fun x => (x.op == 0x31 || x.op == 0x32) && memFmt x.vc == 0 && decide (x.imm / 2 ^ 24 < 255)).map fun x => x.imm / 2 ^ 24).eraseDups

/-- The slots that a command may report to (R265); a GLN.FENCE reports the blocks of the logged outputs it has made up (R214). -/
def reportSlots (s : State) (n p : Nat) (c : BitVec 512) : List Nat :=
  if fld c 0 0 8 = 0x60 then fulSlots (getPos s p) c
  else if fld c 0 0 8 = 0x29 then ((getCore s n).gln.log.filterMap fun e => commandSlot e.cmd).eraseDups
  else (commandSlot c).toList

/-- R75, R265: a discarded command has reported the blocks it had written, so how much the slot's open statistics rose by is free. -/
def tearReports (s : State) (h j : Nat) (i : Nat) : State :=
  let t := getStats s h j i
  let up (v k : Nat) : Nat := satAdd (2 ^ 32 - 1) v (Config.freeNat (s.free + k))
  setStats { s with free := s.free + 9 } h j i
    { t with blocks := up t.blocks 0, sat := up t.sat 1, unf := up t.unf 2, nan := up t.nan 3, zero := up t.zero 4, elems := up t.elems 5,
             nz := up t.nz 6, lost := up t.lost 7, maxFin := max t.maxFin (Config.freeNat (s.free + 8) % 0x7F800000) }

/-- R75 for a command in flight of a queue of logical core `n` that is discarded (log entry 163). A command that has executed (R369) has written what it
writes. -/
def tear (s : State) (n : Nat) (x : Ctx) (c : InFlight) : State :=
  match x.pos with
  | none => s
  | some p =>
    if c.unacked then s
    else
      let op := fld c.cmd 0 0 8
      if 0xA0 ≤ op ∧ op ≤ 0xA2 then tearCarter s x p c
      else
        let dest := if op = 0x60 then fulDest (getPos s p) c.cmd else if op = 0x29 then fenceDest (getCore s n).gln else c.dest
        (reportSlots s n p c.cmd).foldl (fun s i => tearReports s x.hall x.job i) (dest.foldl (fun s r => tearStore s p r.1 r.2) s)

end Sys2Proof.Machine
end

