-- ==== Sys2Proof/Machine/Halt.lean ====
section
/-! DEFINITION. Completion records, discard boundaries, core fences, job kills, hall down and module down (R67 to R76, R430 to R434):
each as one shared operation. -/

namespace Sys2Proof.Machine

/-! ## Command headers (R50) -/

def opcodeOf (c : BitVec 512) : Nat := fld c 0 0 8
def hdrWait (c : BitVec 512) : Bool := fld c 1 0 1 == 1
def hdrSignal (c : BitVec 512) : Bool := fld c 1 1 1 == 1
def hdrNotify (c : BitVec 512) : Bool := fld c 1 2 1 == 1
def hdrJob (c : BitVec 512) : Nat := fld c 2 0 4
def hdrClass (c : BitVec 512) : Nat := fld c 3 0 3

/-- The semaphore WSEM names: 4096 × hall + index. -/
def hdrWsem (c : BitVec 512) : Nat := 4096 * fld c 4 12 1 + fld c 4 0 12

/-- The semaphore SSEM names. -/
def hdrSsem (c : BitVec 512) : Nat := 4096 * fld c 6 12 1 + fld c 6 0 12

def hdrWval (c : BitVec 512) : Nat := fld c 8 0 64
def hdrSadd (c : BitVec 512) : Nat := fld c 16 0 32

/-- The SSEM of a command that signals. -/
def ssemOf (c : BitVec 512) : List Nat := if hdrSignal c then [hdrSsem c] else []

/-- R42: the kind index of a core queue, 4 for a CQ ring. -/
def qKindOf (k : Nat) : Nat := if k < 512 then k % 4 else 4

/-- R491: LOCKIND and LOC of a queue. -/
def qLockind (k : Nat) : Nat := if k < 512 then 1 else 2
def qLoc (k : Nat) : Nat := if k < 512 then k else (k - 512) % 16

/-- R41, log entry 131: the stop from which a queue's commands reach the mesh: its core's, or for a CQ ring the link hub of its hall's first port. A
core with no position has none, and stands at the Steward's. -/
def queueStop (s : State) (k : Nat) : Nat :=
  match qCore k with
  | none => linkStop (6 * qHall k)
  | some n => match corePos s n with
    | none => stewardStop (qHall k)
    | some p => posStop p

/-- The translation context of a queue (R46). -/
def qCtx (s : State) (k : Nat) : Ctx :=
  { hall := qHall k, job := (qJob s k).toNat, pos := (qCore k).bind fun n => corePos s n, stop := queueStop s k }

/-- R47: the size of a queue's rings. -/
def ringSize (q : Queue) : Nat := 2 ^ q.sizeLog2.toNat

/-- R45: a queue state that is halted (R77). -/
def isHalted (st : QState) : Bool := st == .haltFault || st == .haltWait

/-! ## Origins and queue events -/

/-- The origin that the next event of a hall becomes (R76). -/
def originNext (s : State) (h src cls : Nat) : Origin :=
  { seq := nextSeq s h, source := BitVec.ofNat 8 src, sev := BitVec.ofNat 3 cls }

/-- R423: a source raised for a command of a queue; the event carries the job context, the queue and the sequence number. -/
def raiseQueue (s : State) (k src cls code : Nat) (seq : W32) (more : List Byte) : State :=
  raise s (qHall k) src cls
    { code := code, job := some (qJob s k).toNat, lockind := qLockind k, loc := qLoc k,
      payload := leBytes 4 seq.toNat ++ more }

/-- R320: what EV_XLATE and EV_PROT carry of the fault: the address, read or write, the level and the cause. -/
def xfailBytes (f : XFail) (va : Nat) (write : Bool) : List Byte :=
  leBytes 6 va ++ leBytes 1 (boolNat write) ++ leBytes 1 f.level ++ leBytes 1 f.cause

/-- R323: FS_XLATE, or FS_PROT for cause 5. -/
def raiseXfail (s : State) (k : Nat) (seq : W32) (f : XFail) (va : Nat) (write : Bool) : State :=
  if f.cause = 5 then raiseQueue s k 4 2 0x0104 seq (xfailBytes f va write)
  else raiseQueue s k 3 2 0x0103 seq (xfailBytes f va write)

/-! ## Grants (R457, R460) -/

/-- The voltage charged: MLR_MEAS.V_IN in units of 10 mV, 48 V before the first window (log entry 9). -/
def chargeVolt (m : Miller) : Nat := if m.vIn = 0 then 4800 else m.vIn

/-- R457: a reservation at 48 V as charged, rounded up to 1 mA. -/
def chargeOf (m : Miller) (res : Nat) : Nat := (res * 4800 + chargeVolt m - 1) / chargeVolt m

/-- R459: the reservation of a class, in mA at 48 V. -/
def classRes (m : Miller) (cc : Nat) : Nat := if cc = 0 then 0 else m.classes.getD cc 0

/-- R457, R459: what a class costs at the V_IN of the moment. -/
def classCharge (m : Miller) (cc : Nat) : Nat := chargeOf m (classRes m cc)

/-- R460: the largest class among commands in flight. -/
def topClass (l : List InFlight) : Nat := l.foldl (fun a c => max a (hdrClass c.cmd)) 0

/-- R457, R460: what the largest class among commands in flight cost when it was charged. -/
def topCharge (l : List InFlight) : Nat :=
  l.foldl (fun a c => if hdrClass c.cmd = topClass l then max a c.charge else a) 0

/-- R460: after a completion the grant falls to the largest class still in flight, at what that class was charged (R457); a loan falls with it
(R462). -/
def fallGrant (q : Queue) : Option Grant :=
  match q.grant with
  | none => none
  | some g =>
    if q.inflight = [] then none
    else
      let charge := min g.charge (topCharge q.inflight)
      some { g with cc := BitVec.ofNat 3 (topClass q.inflight), charge := charge, lent := min g.lent charge }

/-- R460, R462: the grant of a queue after a completion, and the hall's loans less what ended. -/
def releaseGrant (s : State) (k : Nat) : State :=
  let q := getQueue s k
  let g := fallGrant q
  let was := (q.grant.map (·.lent)).getD 0
  let now := (g.map (·.lent)).getD 0
  let s := setQueue s k { q with grant := g }
  if was = now then s else modHall s (qHall k) fun hl => { hl with lent := hl.lent - (was - now) }

/-- R461: how long the requests of a queue have waited, in units of 4 ns. -/
def waitedFor (s : State) (k : Nat) : Nat :=
  (((getHall s (qHall k)).requests.filter fun r => r.queue == k).map fun r => (now s (qHall k) - r.time).toNat / 4).sum

/-- A request of a queue withdrawn; its wait counts in MLR_QWAIT (R461). -/
def dropRequest (s : State) (k : Nat) : State :=
  let w := waitedFor s k
  let s := if w = 0 then s else modQueue s k fun q => { q with qwait := q.qwait + BitVec.ofNat 32 w }
  modHall s (qHall k) fun hl => { hl with requests := hl.requests.filter fun r => r.queue != k }

/-! ## Completion records (R67, R68) -/

/-- R67: the 16 bytes of a record. -/
def recordBytes (seq : W32) (status flags : Nat) (counts : List Nat) : List Byte :=
  leBytes 4 seq.toNat ++ leBytes 2 status ++ leBytes 2 flags
    ++ leBytes 2 (counts.getD 0 0) ++ leBytes 2 (counts.getD 1 0) ++ leBytes 2 (counts.getD 2 0) ++ leBytes 2 (counts.getD 3 0)

/-- R74: how an access of the completion ring fails. -/
inductive RecFail
  | xlate (f : XFail) (va : Nat) | fresh | poison
  deriving DecidableEq, Repr

/-- R47: the address of the record of a sequence number. -/
def recordVa (q : Queue) (seq : W32) : Nat := q.cbase.toNat + 16 * (seq.toNat % ringSize q)

/-- What writing a record gives. -/
structure RecordRes where
  st : State
  fail : Option RecFail

/-- R332, R341: the 64-byte line of a completion ring with a record put into it: the ring is written by read-modify-write. -/
def recordLine (line : List (Byte × Bool)) (off : Nat) (seq : W32) (status flags : Nat) (counts : List Nat) : List (Byte × Bool) :=
  line.take off ++ ((recordBytes seq status flags counts).map fun b => (b, false)) ++ line.drop (off + 16)

/-- R53 stage 8, R68, R74: the record written, STW_Q_CMPL_SEQ advanced, LAST_STATUS kept (R45). -/
def writeRecord (s : State) (k : Nat) (seq : W32) (status flags : Nat) (counts : List Nat) : RecordRes :=
  let q := getQueue s k
  let va := recordVa q seq
  let x := xlate s (qCtx s k) va true
  match x.res with
  | .error f => { st := x.st, fail := some (.xlate f va) }
  | .ok pa =>
    let rd := hubRead x.st (queueStop s k) (pa - pa % 64) 64 .ring (some (qJob s k).toNat)
    if rd.fresh.isSome then { st := rd.st, fail := some .fresh }
    else if rd.bytes.any (·.2) then { st := rd.st, fail := some .poison }
    else
      let w := hubWrite rd.st (queueStop s k) .ring (pa - pa % 64) (recordLine rd.bytes (pa % 64) seq status flags counts) (some (qJob s k).toNat)
      { st := modQueue w.st k fun q =>
          { q with cmplSeq := seq + 1, lastStatus := if status = 0 then q.lastStatus else BitVec.ofNat 16 status },
        fail := none }

/-- R74: the event of a lost record; it carries the sequence number. -/
def raiseRecFail (s : State) (k : Nat) (seq : W32) (f : RecFail) : State :=
  match f with
  | .xlate x va => raiseXfail s k seq x va true
  | .fresh => raiseQueue s k 1 3 0x0101 seq []
  | .poison => raiseQueue s k 0 3 0x0100 seq []

/-- R74: the origin a lost record gives. -/
def recFailOrigin (s : State) (k : Nat) (f : RecFail) : Origin :=
  match f with
  | .xlate x _ => originNext s (qHall k) (if x.cause = 5 then 4 else 3) 2
  | .fresh => originNext s (qHall k) 1 3
  | .poison => originNext s (qHall k) 0 3

/-- R74, R453: the kill that a lost record brings, by its CAUSE. -/
def recFailKill (f : RecFail) : Option Nat :=
  match f with
  | .xlate _ _ => none
  | .fresh => some 2
  | .poison => some 1

/-! ## Signals and notices (R53 stages 9 and 10) -/

/-- R355, R368: a signal sent towards its semaphore, under the next number of its source's series. -/
def sendSignal (s : State) (g : Signal) : State :=
  let key := seriesKey g.stop (stewardStop (g.sem / 4096)) 0 .vc0
  let x := getSeries s key
  { setSeries s key { x with sent := x.sent + 1 } with signals := s.signals ++ [{ g with num := x.sent }] }

/-- R535: EV_CMPL_NOTIFY. -/
def notifyEvent (s : State) (k : Nat) (seq : W32) (job : Nat) : State :=
  pushEvent s (qHall k) { code := 0x0001, job := some job, lockind := qLockind k, loc := qLoc k, payload := leBytes 4 seq.toNat }

/-- R53 stages 9 and 10: the signal of a completed command goes on its way, and its notice follows once it has been added; without a signal the
notice is written at once. -/
def signalNotify (s : State) (k : Nat) (c : InFlight) : State :=
  if hdrSignal c.cmd then
    sendSignal s { sem := hdrSsem c.cmd, add := BitVec.ofNat 64 (hdrSadd c.cmd),
                   source := .command k c.seq (BitVec.ofNat 4 (hdrJob c.cmd)), stop := queueStop s k, notify := hdrNotify c.cmd }
  else if hdrNotify c.cmd then notifyEvent s k c.seq (hdrJob c.cmd)
  else s

/-! ## Boundaries (R70 to R72, R76) -/

/-- A state, and the kill of the queue's job that what happened calls for, with its cause and origin. -/
structure Kills where
  st : State
  kill : Option (Nat × Origin)

/-- R391: the opcodes of the Drover. -/
def isDrover (op : Nat) : Bool := op ∈ [0xC0, 0xC1, 0xC2, 0xC3]

/-- R399, R432: a Drover command that does not end DONE sends its aborts. -/
def commandAborts (s : State) (k : Nat) (c : BitVec 512) : State :=
  if 512 ≤ k && isDrover (opcodeOf c) then drvAbort s (qHall k) ((k - 512) % 16) c else s

/-- R70, R73 to R75: the commands discarded leave their destinations open and write their records; after a lost record none of the later ones is
written. A Drover command sends its aborts (R399, R432). -/
def writeDiscards (s : State) (k : Nat) (cmds : List InFlight) (write : Bool) : Kills :=
  match cmds with
  | [] => { st := s, kill := none }
  | c :: r =>
    let s := if 512 ≤ k then commandAborts s k c.cmd else tear s (k / 4) (qCtx s k) c
    if write then
      let w := writeRecord s k c.seq 1 0 []
      match w.fail with
      | none => writeDiscards w.st k r true
      | some f =>
        let o := recFailOrigin w.st k f
        let more := writeDiscards (raiseRecFail w.st k c.seq f) k r false
        { st := more.st, kill := (recFailKill f).map fun c => (c, o) }
    else writeDiscards s k r false

/-- R129, R136, R198, R206: what becomes empty when MQ is enabled or halts. -/
def emptyMq (c : LCore) : LCore :=
  { c with track := {}, plane0 := none, plane1 := none, acc := none, slot0 := none, slot1 := none, proj := none,
           bitmap := none, gln := {} }

/-- NCOLS of a matrix command with LAST (R158). -/
def lastCols (c : BitVec 512) : Nat := fld c 48 0 10 + 1

/-- The output columns below which a logged command's spans are made up (R213): NCOLS of the LAST command of its accumulation, and every column
while that has not been logged. -/
def owedCols (b : Bitmap) (later : List LogEntry) : Nat :=
  match later.find? fun e => fld e.cmd 25 2 1 == 1 with
  | none => 8 * b.nspan
  | some e => lastCols e.cmd

/-- The bitmap leaves a span skipped that holds a column below `n`. -/
def skipsBelow (b : Bitmap) (n : Nat) : Bool :=
  b.bits.any fun r => (List.range b.nspan).any fun i => !bitOf r i && decide (8 * i < n)

/-- R218: the first logged command that ran with a span skipped and not made up. -/
def firstOwed (l : List LogEntry) : Option LogEntry :=
  match l with
  | [] => none
  | e :: r =>
    match e.bitmap with
    | none => firstOwed r
    | some b => if skipsBelow b (owedCols b (e :: r)) then some e else firstOwed r

/-- R218: MQ of a logical core halts with work of the log not made up: EV_GLEAN_ABANDON and GLN_ABANDON; the log is discarded. Where none is owed
yet, the entries of gated commands still in flight, which complete DONE (R72), stay until those have run. -/
def gleanAbandon (s : State) (n : Nat) : State :=
  let running (e : LogEntry) : Bool := (getQueue s (4 * n)).inflight.any fun c => c.seq == e.seq
  let s' := modCore s n fun c => { c with gln := { c.gln with log := [] } }
  match firstOwed (getCore s n).gln.log with
  | none => modCore s n fun c => { c with gln := { c.gln with log := c.gln.log.filter running } }
  | some e =>
    let s' := match corePos s n with
      | none => s'
      | some p => modPos s' p fun ps => { ps with glnAbandon := ps.glnAbandon + 1 }
    pushEvent s' (n / 64)
      { code := 0x0207, job := if (getOwn s n).owned then some (getOwn s n).job.toNat else none, lockind := 7, loc := n,
        payload := leBytes 4 e.seq.toNat }

/-- R129, R198 when MQ halts, and, DESIGN CHOICE (log entry 148), when it becomes FENCED: at once what is tracked in command order; the rest when nothing is in flight any more. -/
def emptyAtHalt (s : State) (k : Nat) : State :=
  if k < 512 ∧ k % 4 = 0 then
    let s := gleanAbandon s (k / 4)
    if (getQueue s k).inflight = [] then modCore s (k / 4) emptyMq
    else modCore s (k / 4) fun c => { c with track := {} }
  else s

/-- R45: the code of a queue state. -/
def qStateCode (st : QState) : Nat :=
  match st with
  | .disabled => 0
  | .idle => 1
  | .run => 2
  | .wait => 3
  | .mark => 4
  | .haltFault => 5
  | .haltWait => 6
  | .fenced => 7

/-- R76: EV_DISCARD of a queue. Without an originating event it is the originating event itself. -/
def evDiscard (s : State) (k : Nat) (o : Option Origin) (st : QState) (first : W32) : State :=
  let h := qHall k
  let org := o.getD { seq := nextSeq s h, source := 0xFF, sev := 2 }
  pushEvent s h
    { code := 0x0003, source := org.source.toNat, sev := org.sev.toNat, job := some (qJob s k).toNat,
      lockind := qLockind k, loc := qLoc k,
      payload := leBytes 4 org.seq.toNat ++ leBytes 1 (qStateCode st) ++ leBytes 4 first.toNat }

/-- One queue reaches a boundary: the commands named are discarded, the queue enters `st` with STW_Q_HALT_SEQ `first`, EV_DISCARD is
written, and what is to be marked BROKEN is noted: `known`, the SSEMs of the discarded, and (`spread`) of every command after them
up to the producer count. -/
def reachBoundary (s : State) (k : Nat) (first : W32) (st : QState) (o : Option Origin) (known : List Nat)
    (gone keep : List InFlight) (write spread : Bool) : Kills :=
  let q := getQueue s k
  let front := match q.front with
    | some f => ssemOf f.cmd
    | none => []
  let s := dropRequest (setQueue s k { q with inflight := keep, front := none }) k
  let d := writeDiscards s k gone write
  let s := releaseGrant d.st k
  let org := o.getD { seq := nextSeq s (qHall k), source := 0xFF, sev := 2 }
  let s := evDiscard s k o st first
  let s := modQueue s k fun q =>
    { q with state := st, haltSeq := first, origin := org,
             markings := q.markings ++ [{
               sems := known ++ gone.flatMap (fun c => ssemOf c.cmd) ++ (if spread then front else []),
               first := q.fetchSeq, upto := if spread then q.prod else q.fetchSeq, origin := org }] }
  { st := emptyAtHalt s k, kill := d.kill }

/-- R61: a queue in MARK of a core, with no window open, completes its marker DONE and goes on. A lost record halts it (R74). -/
def releaseMark (s : State) (k : Nat) : Kills :=
  let q := getQueue s k
  match q.state, q.inflight with
  | .mark, [c] =>
    let w := writeRecord (setQueue s k { q with inflight := [] }) k c.seq 0 0 []
    match w.fail with
    | none =>
      let s := modQueue w.st k fun q => { q with state := if q.fetchSeq = q.prod then .idle else .run }
      let s := if k % 4 = 0 then modCore s (k / 4) fun c =>
          { c with slot0 := none, slot1 := none, proj := none, bitmap := none } else s
      { st := signalNotify (releaseGrant s k) k c, kill := none }
    | some f =>
      let o := recFailOrigin w.st k f
      let r := reachBoundary (raiseRecFail w.st k c.seq f) k c.seq .haltFault (some o) (ssemOf c.cmd) [] [] false true
      { st := r.st, kill := (recFailKill f).map fun c => (c, o) }
  | _, _ => { st := s, kill := none }

/-- R61: the queues in MARK of a logical core that are released when another of its queues halts or becomes DISABLED; those of a fenced core are
released only by R73. -/
def releaseMarks (s : State) (k : Nat) : Kills :=
  match qCore k with
  | none => { st := s, kill := none }
  | some n =>
    if (getCore s n).swap.isSome ∨ (getCore s n).fenced then { st := s, kill := none } else
      let s := modCore s n fun c => { c with window := none }
      (List.range 4).foldl (fun a i =>
        let r := releaseMark a.st (4 * n + i)
        { st := r.st, kill := a.kill <|> r.kill }) { st := s, kill := none }

/-! ## Job kill (R74, R432 to R434, R447) -/

/-- The translation context of the Cooper, the Sealer and the Steward for a job context: no core's leaf cache. -/
def jobCtx (h j : Nat) : Ctx := { hall := h, job := j, pos := none, stop := cooperStop h }

/-- R439: the bytes of a generation slot. -/
def genSize (jb : JobState) : Nat := 8192 + 4096 * (jb.stateSize.toNat + jb.paramSize.toNat)

/-- R439: the address of generation slot `n`. -/
def genVa (jb : JobState) (n : Nat) : Nat := jb.genBase + n * genSize jb

/-- R447: STATUS 4 in the header of a generation slot. -/
def badSlot (s : State) (j n : Nat) : State :=
  (vaWrite s (jobCtx 0 j) .cooper (genVa (getJob s j) n + 4) [(4, false)]).st

/-- R447, R462, R467: the copy streams of a job context end, with their requests, their grants and their loans. -/
def copStreamsEnd (s : State) (j : Nat) : State :=
  [0, 1].foldl (fun s h => modHall s h fun hl =>
    { hl with requests := hl.requests.filter fun r => r.queue != 2048 + j, copGrants := tabSet 0 j 0 hl.copGrants,
              lent := hl.lent - tabGet 0 hl.copLent j, copLent := tabSet 0 j 0 hl.copLent }) s

/-- R447: every open generation of a job context becomes bad; its copies stop, and their grants end (R467). -/
def copFail (s : State) (j : Nat) : State :=
  let s := copStreamsEnd ((getJob s j).gens.foldl (fun s g => badSlot s j g.slot) s) j
  modJob s j fun jb =>
    { jb with opening := none, closing := none, openedAt := none, gens := [],
              badGens := jb.badGens ++ (jb.gens.filter fun g => decide (2 ≤ g.slot)).map fun g => (g.slot, g.step) }

/-- R74, R434: what a kill does to one queue of the job. The marker of a fenced core waits on for its repair swap; that of another core is
discarded, and the window number it fixed is forgotten (R61). -/
def killQueue (s : State) (k : Nat) (o : Origin) : State :=
  let q := getQueue s k
  match q.state with
  | .disabled | .haltFault | .haltWait | .fenced => s
  | .mark =>
    match qCore k with
    | none => s
    | some n =>
      if (getCore s n).swap.isSome then modCore s n fun c => { c with killOrigin := some (c.killOrigin.getD o) }
      else if (getCore s n).fenced then s
      else (reachBoundary (modCore s n fun c => { c with window := none }) k q.cmplSeq .haltFault (some o) [] q.inflight [] true true).st
  | .idle | .run | .wait => (reachBoundary s k q.cmplSeq .haltFault (some o) [] q.inflight [] true true).st

/-- The queues of a job context in both halls, in the order of their keys. -/
def jobQueues (s : State) (j : Nat) : List Nat :=
  (s.queues.map (·.1)).filter fun k => (getQueue s k).enable && (qJob s k).toNat == j

/-- R432: a job context is killed with a CAUSE; the first cause stands (R434). -/
def killJob (s : State) (j cause : Nat) (o : Origin) : State :=
  let s := modJob s j fun jb => { jb with killed := true, cause := if jb.killed then jb.cause else cause }
  copFail ((jobQueues s j).foldl (fun s k => killQueue s k o) s) j

/-- The kill that a boundary brought, carried out for the queue's job context. -/
def applyKill (j : Nat) (r : Kills) : State :=
  match r.kill with
  | none => r.st
  | some (cause, o) => killJob r.st j cause o

/-- R70, R71, R61: a queue halts at a boundary, and the markers that wait for it are released. -/
def haltQueue (s : State) (k : Nat) (first : W32) (st : QState) (o : Option Origin) (known : List Nat)
    (gone keep : List InFlight) (write : Bool) : State :=
  let r := reachBoundary s k first st o known gone keep write true
  let m := releaseMarks r.st k
  applyKill (qJob s k).toNat { st := m.st, kill := r.kill <|> m.kill }

/-- R74: a record that could not be written; the queue halts there, and the commands started after it are discarded without records. -/
def lostRecord (s : State) (k : Nat) (seq : W32) (sems : List Nat) (gone : List InFlight) (f : RecFail) : State :=
  let j := (qJob s k).toNat
  let o := recFailOrigin s k f
  let s := haltQueue (raiseRecFail s k seq f) k seq .haltFault (some o) sems gone [] false
  match recFailKill f with
  | none => s
  | some cause => killJob s j cause o

/-! ## Core fence (R73, R434) -/

/-- R73, R434: what a fence of its core does to one queue that is not the faulting one. A marker that waits, with no window open, is a started
command and is discarded. -/
def fenceQueue (s : State) (k : Nat) (o : Origin) : Kills :=
  let q := getQueue s k
  match q.state with
  | .disabled | .fenced => { st := s, kill := none }
  | .mark =>
    if ((qCore k).map fun n => (getCore s n).swap.isSome) = some true then { st := s, kill := none } else
      let r := reachBoundary s k q.cmplSeq .fenced (some o) [] q.inflight [] true false
      { r with st := modQueue r.st k fun q => { q with fetchSeq := q.cmplSeq } }
  | .haltFault | .haltWait =>
    let r := reachBoundary s k q.haltSeq .fenced (some o) [] q.inflight [] true false
    { r with st := modQueue r.st k fun q => { q with fetchSeq := q.cmplSeq } }
  | .idle | .run | .wait =>
    let r := reachBoundary s k q.cmplSeq .fenced (some o) [] q.inflight [] true false
    { r with st := modQueue r.st k fun q => { q with fetchSeq := q.cmplSeq } }

/-- R29: an item put into a list in the order of fencing: last, but before those fenced in the same cycle that come after it (`after`). -/
def inFenceOrder (after : Nat → Bool) (x : Nat) (l : List Nat) : List Nat :=
  if x ∈ l then l else l.takeWhile (fun y => !after y) ++ x :: l.dropWhile fun y => !after y

/-- R29: core `m` was fenced in this cycle of its hall, and has a higher number than `n`. DESIGN CHOICE (log entry 174): two fences count as of the
same MESH cycle when the hall's time base, which steps by 4 ns, reads the same at both, whatever commands lie between. -/
def fencedBeside (s : State) (n m : Nat) : Bool :=
  decide (n < m) && (getCore s m).fenced && (getCore s m).fenceTime == now s (n / 64)

/-- R29, R73, R289: the logical core and its position are fenced, in the hall's order of fences. -/
def markFenced (s : State) (n : Nat) : State :=
  let s := if (getCore s n).fenced then s else
    let t := now s (n / 64)
    let s := modHall s (n / 64) fun hl => { hl with fencedOrder := inFenceOrder (fencedBeside s n) n hl.fencedOrder }
    let s := match corePos s n with
      | none => s
      | some p => modHall s (n / 64) fun hl =>
          { hl with fencedPos := inFenceOrder (fun x => (posCore s x).any (fencedBeside s n)) p (hl.fencedPos.filter fun x => x != p) }
    modCore s n fun c => { c with fenceTime := t }
  let s := match corePos s n with
    | none => s
    | some p => modPos s p fun ps => { ps with fenced := true }
  modCore s n fun c => { c with fenced := true, window := if c.swap.isSome then c.window else none }

/-- R73: a fault that fences logical core `n`; `q0` is the faulting queue with its command, whose record is already written unless
`write` is false, and the commands in flight after it. -/
def fenceCore (s : State) (n : Nat) (o : Origin) (q0 : Option (Nat × W32 × List Nat × List InFlight × Bool)) : State :=
  let j := ((getOwn s n).job).toNat
  let s := markFenced s n
  let a : Kills := match q0 with
    | none => { st := s, kill := none }
    | some (k, seq, sems, gone, write) =>
      let r := reachBoundary s k seq .fenced (some o) sems gone [] write false
      { r with st := modQueue r.st k fun q => { q with fetchSeq := q.cmplSeq } }
  let skip := (q0.map fun x => x.1).getD 1024
  applyKill j ((List.range 4).foldl (fun a i =>
    if 4 * n + i = skip then a else
      let r := fenceQueue a.st (4 * n + i) o
      { st := r.st, kill := a.kill <|> r.kill }) a)

/-! ## Hall down and module down (R430, R431) -/

/-- R503: what the registers of a logical core read after a class H source of its hall or a class M source. -/
def faultCore (c : LCore) : LCore := emptyMq c

/-- R454, R503: COP_JOB_CTL after such a source. -/
def faultJob (j : JobState) : JobState := { j with restoring := false, fetching := false }

def disarm (f : Flip) : Flip := { f with arm := false }

/-- R503: the test registers of a position after such a source. -/
def faultPos (p : Position) : Position :=
  { p with drnFlip := disarm p.drnFlip, wvrFlip := disarm p.wvrFlip, lmpFlip := disarm p.lmpFlip, fulFlip := disarm p.fulFlip,
           asyFlip := disarm p.asyFlip, asyCrcFlip := disarm p.asyCrcFlip, ctrFlip := disarm p.ctrFlip, stoFlip := disarm p.stoFlip,
           asyInject := false }

/-- R503: the registers of hall `h` whose After fault column gives 0, after a class H source of the hall or a class M source. -/
def faultRegs (s : State) (h : Nat) : State :=
  let s := { s with
    lcores := tabMap {} (fun n c => if n / 64 = h then faultCore c else c) s.lcores,
    positions := tabMap {} (fun p v => if p / 72 = h then faultPos v else v) s.positions,
    hubs := tabMap {} (fun k v => if k / 8 = h then { v with flip := disarm v.flip } else v) s.hubs,
    ports := tabMap {} (fun k v => if k / 6 = h then { v with flip := disarm v.flip } else v) s.ports,
    jobs := tabMap {} (fun _ v => faultJob v) s.jobs }
  modHall s h fun hl =>
    { hl with seaFlip := disarm hl.seaFlip, meshFlip := disarm hl.meshFlip, seamFlip := disarm hl.seamFlip, force := 0, lent := 0 }

/-- R463: the share of a hall that goes down, or is reloaded, passes to the other hall, where that one is up. -/
def passShare (s : State) (h : Nat) : State :=
  let given := if (getHall s (1 - h)).down then 0 else (getHall s h).share
  modHall (modHall s h fun hl => { hl with share := 0, passed := given }) (1 - h) fun hl => { hl with share := hl.share + given }

/-- R463: a hall that is down holds no grant: no request of it waits, and those of its queues, its bench and its Cooper's streams end. -/
def dropGrants (s : State) (h : Nat) : State :=
  let s := ((s.queues.map (·.1)).filter fun k => qHall k == h).foldl (fun s k => modQueue (dropRequest s k) k fun q => { q with grant := none }) s
  modHall s h fun hl => { hl with lent := 0, requests := [], benchGrant := 0, copGrants := [], copLent := [] }

/-- R430, R434: hall `h` is down after source `src`, whose event is written already and is the origin of the boundaries; every generation that
is open becomes bad, since both halls copy it. -/
def hallDown (s : State) (h src : Nat) (o : Origin) : State :=
  let jobs := (List.range 16).filter fun j => resident s h j
  let s := pushEvent s (1 - h)
    { code := 0x0707, source := src, sev := 5, payload := leBytes 1 h ++ leBytes 1 src }
  let s := passShare (modHall s h fun hl => { hl with down := true }) h
  let s := jobs.foldl (fun s j => killJob s j 4 o) s
  let s := (List.range 16).foldl (fun s j => if (getJob s j).gens.isEmpty then s else copFail s j) s
  faultRegs (dropGrants s h) h

/-- R431: the module is down after source `src`; its ports go down and every job context is killed. -/
def moduleDown (s : State) (src : Nat) (o : Origin) : State :=
  let e : EventSpec := { code := 0x0708, source := src, sev := 6 }
  let s := pushEventBoth { s with moduleDown := true } e
  let s := (List.range 16).foldl (fun s j => killJob s j 5 o) s
  faultRegs (faultRegs ((List.range 12).foldl (fun s k => modPort s k downPort) s) 0) 1

/-- R430, R431: what an occurrence of class H or M of hall `h` does, its event being written. -/
def applyClass (s : State) (h src cls : Nat) (o : Origin) : State :=
  if cls = 5 then (if (getHall s h).down then s else hallDown s h src o)
  else if cls = 6 then (if s.moduleDown then s else moduleDown s src o)
  else s

end Sys2Proof.Machine
end

