-- ==== Sys2Proof/Machine/Complete.lean ====
section
/-! DEFINITION. A command's start, completion and fault as shared operations (R53 to R57, R65, R70, R137, R460), with the values of
a command's completion record (R67). -/

namespace Sys2Proof.Machine

/-! ## Starting (R55, R56, R137, R460) -/

/-- R56: FENCE, FENCE.EVENT and SYNC.SWAPMARK. -/
def isBarrier (c : BitVec 512) : Bool := opcodeOf c == 0x04 || opcodeOf c == 0x05 || opcodeOf c == 0x06

/-- R56, R213: the commands that start with nothing in flight before them and hold back everything after them: the barriers and
GLN.FENCE. -/
def holdsOrder (c : BitVec 512) : Bool := isBarrier c || opcodeOf c == 0x29

/-- LAMP.PREDICT with LAST or RESCORE (R201). -/
def writesBitmap (c : BitVec 512) : Bool := opcodeOf c == 0x21 && (fld c 24 2 1 == 1 || fld c 24 3 1 == 1)

/-- LOOM.MATMUL and LOOM.MATMUL.T. -/
def isMatrix (c : BitVec 512) : Bool := opcodeOf c == 0x11 || opcodeOf c == 0x12

/-- The plane a Loom command names (R130, R135): byte 25 bit 0. -/
def loomPlane (c : BitVec 512) : Nat := fld c 25 0 1

/-- R135: FIRST and LAST of a matrix command. -/
def isFirst (c : BitVec 512) : Bool := fld c 25 1 1 == 1
def isLast (c : BitVec 512) : Bool := fld c 25 2 1 == 1

/-- R135: GATE of a matrix command. -/
def isGated (c : BitVec 512) : Bool := fld c 25 5 1 == 1

/-- R137, R201: the readiness of a matrix command: the stage part of the latest LOADW into its plane has ended, and the drain holds its
open accumulation, or, for FIRST, holds none. DESIGN CHOICE (log entry 147): the drain accepts a new accumulation once no matrix command is in flight. -/
def loomReady (s : State) (k : Nat) (cmd : BitVec 512) : Bool :=
  if !isMatrix cmd then true else
    let fl := (getQueue s k).inflight
    let staging := fl.any fun c => opcodeOf c.cmd == 0x10 && loomPlane c.cmd == loomPlane cmd && c.staged.isNone
    let matrix := fl.filter fun c => isMatrix c.cmd
    let accOpen := (getCore s (k / 4)).acc.isSome
    !staging && (!isGated cmd || !(fl.any fun c => writesBitmap c.cmd)) &&
      (if isFirst cmd then !accOpen && matrix.isEmpty
       else match matrix.getLast? with
        | some m => !isLast m.cmd
        | none => accOpen)

/-- R56: the order of starts in a queue. -/
def startsInOrder (q : Queue) (cmd : BitVec 512) : Bool :=
  decide (q.inflight.length < 4) && !(q.inflight.any fun c => holdsOrder c.cmd) && (!holdsOrder cmd || q.inflight.isEmpty)

/-- R65: the queues in a scope of a queue's fence that hold commands of its job context. -/
def scopeQueues (s : State) (k scope : Nat) : List Nat :=
  if scope = 0 then [k]
  else if scope = 1 then (List.range 4).map fun i => k / 4 * 4 + i
  else (s.queues.map (·.1)).filter fun x =>
    (scope == 3 || qHall x == qHall k) && qJob s x == qJob s k

/-- R65: what a fence covers: every command of its job in flight within its scope when it starts. -/
def fenceCovers (s : State) (k : Nat) (cmd : BitVec 512) : List (Nat × W32) :=
  (scopeQueues s k (fld cmd 24 0 2)).flatMap fun x => (getQueue s x).inflight.map fun c => (x, c.seq)

/-- R45: IDLE, RUN or WAIT of a queue that runs. -/
def settle (q : Queue) : Queue :=
  match q.state with
  | .disabled | .mark | .haltFault | .haltWait | .fenced => q
  | .idle | .run | .wait =>
    match q.front with
    | some f => { q with state := if f.stage = .wait then .wait else .run }
    | none => { q with state := if q.inflight = [] ∧ q.fetchSeq = q.prod then .idle else .run }

/-- R280: a corrected slot-state word, counted by the hall that reads it. -/
def sealCe (s : State) (h : Nat) : State := modHall s h fun hl => { hl with seaEcc := hl.seaEcc.addCe }

/-- R281: an uncorrectable slot-state word: FS_SEALER_UE, and the slot adapts no more. -/
def sealUe (s : State) (h j i : Nat) : State :=
  let s := raise (modHall s h fun hl => { hl with seaEcc := hl.seaEcc.addUe }) h 23 1 { code := 0x0203, job := some j, lockind := 6, loc := i }
  setSlot s j i { getSlot s j i with stopped := true }

/-- R280, R281, R511: a slot as a reader finds it in hall `h`: a corrected word is counted, an uncorrectable one stops its adaptation. -/
def readSlotIn (s : State) (h j i : Nat) : State :=
  let x := getSlot s j i
  let e := if h = 0 then x.ecc0 else x.ecc1
  if e = 0 then s
  else
    let s := setSlot s j i (if h = 0 then { x with ecc0 := 0 } else { x with ecc1 := 0 })
    if e = 1 then sealCe s h else sealUe s h j i

/-- R267, R280: the slot word that a starting command reads. -/
def readStartSlot (s : State) (k : Nat) (cmd : BitVec 512) : State :=
  match commandSlot cmd with
  | none => s
  | some i => readSlotIn s (qHall k) (hdrJob cmd) i

/-- R267: the tensor scale codes of a job context's Sealer slots. -/
def slotScales (s : State) (j : Nat) : Tab Int :=
  (s.slots.filter fun x => x.1 / 256 == j && x.2.t != 0).map fun x => (x.1 % 256, x.2.t)

/-- R66: what a FENCE.EVENT with sequence number `seq` finds on its way when it starts: the signals and marks of the commands in its scope that have
completed. Its marker follows what they cause. -/
def tagEvents (s : State) (k : Nat) (cmd : BitVec 512) (seq : W32) : State :=
  let qs := scopeQueues s k (fld cmd 24 0 2)
  let s := { s with signals := s.signals.map fun g => match g.source with
    | .command x _ _ => if qs.contains x then { g with fences := (k, seq) :: g.fences } else g
    | .host => g }
  qs.foldl (fun s x => modQueue s x fun q =>
    { q with markings := q.markings.map fun m => { m with fences := (k, seq) :: m.fences } }) s

/-- R53 stage 5: the front command starts; `charge` is what its class costs (R460). -/
def startCommand (s : State) (k : Nat) (charge : Nat := 0) : State :=
  match (getQueue s k).front with
  | none => s
  | some f =>
    let covers := if opcodeOf f.cmd = 0x04 then fenceCovers s k f.cmd else []
    let s := if opcodeOf f.cmd = 0x05 then tagEvents s k f.cmd f.seq else s
    let s := readStartSlot s k f.cmd
    let s := if isMatrix f.cmd && isGated f.cmd then
        modCore s (k / 4) fun c => { c with gln := { c.gln with pending := true } } else s
    modQueue s k fun q => settle { q with
      front := none,
      inflight := q.inflight ++ [{
        seq := f.seq, cmd := f.cmd, desc := f.desc, start := now s (qHall k), covers := covers,
        sealT := slotScales s (hdrJob f.cmd), dest := f.dest, charge := charge }] }

/-- R459, R461: a request placed with the Miller of the queue's hall. -/
def placeRequest (s : State) (k : Nat) (cc : Nat) : State :=
  let s := modQueue s k fun q => settle { q with front := q.front.map fun f => { f with stage := .request } }
  modHall s (qHall k) fun hl =>
    { hl with requests := hl.requests ++ [{ queue := k, cc := BitVec.ofNat 3 cc, res := classRes s.miller cc, time := now s (qHall k) }] }

/-! ## The rings of a CQ (R44) -/

/-- The queue fetches: it has a posted command, none waiting before its start, and no marker or make-up in flight; a FENCED queue retires one
at a time (R73). A queue of a hall that is down has stopped (R430). -/
def mayFetch (s : State) (k : Nat) : Bool :=
  let q := getQueue s k
  dieUp s && q.enable && !(getHall s (qHall k)).down && q.front.isNone && q.fetchSeq != q.prod
    && !(q.inflight.any fun c => opcodeOf c.cmd == 0x06 || opcodeOf c.cmd == 0x29)
    && (q.state == .idle || q.state == .run || q.state == .wait || q.state == .fenced)

/-- The front command of a queue asks for its start. -/
def asksStart (q : Queue) : Bool := (q.front.map fun f => f.stage == .request) == some true

/-- R44: CQ ring `j` of a hall has a command to start in its turn: one that asks, or one posted that is fetched first. A ring that waits at a
semaphore, or whose order (R56) holds its next command back, has none and is passed over. -/
def cqDue (s : State) (h j : Nat) : Bool :=
  let q := getQueue s (512 + 16 * h + j)
  asksStart q || (mayFetch s (512 + 16 * h + j) && decide (q.inflight.length < 4) && !(q.inflight.any fun c => holdsOrder c.cmd))

/-- R44: the ring whose turn is next: the first after the one served last that has a command to start. -/
def cqNext (s : State) (h : Nat) : Option Nat :=
  ((List.range 16).map fun i => ((getHall s h).cqTurn + 1 + i) % 16).find? fun j => cqDue s h j

/-- R44: one turn of a CQ: the ring whose turn it is starts one command, as soon as that has been fetched. -/
def cqServe (s : State) (h : Nat) : State :=
  match cqNext s h with
  | none => s
  | some j =>
    if asksStart (getQueue s (512 + 16 * h + j)) then startCommand (modHall s h fun hl => { hl with cqTurn := j }) (512 + 16 * h + j) else s

/-- R44: the rings of a CQ served in their turns, until the ring whose turn it is has still to fetch its command (log entry 137). -/
def cqTurns (s : State) (h : Nat) : State := (List.range 16).foldl (fun s _ => cqServe s h) s

/-- R44: the front command of a CQ ring asks for its start, and the rings of its hall are served. -/
def askCq (s : State) (k : Nat) : State :=
  cqTurns (modQueue s k fun q => { q with front := q.front.map fun f => { f with stage := .request } }) (qHall k)

/-- R74, R306: the event of a command that failed before its start; a failed check has none (R76). Answers the state, the origin, the
status and the kill. -/
def raiseFront (s : State) (k : Nat) (seq : W32) (f : FrontFail) : State × Option Origin × Nat × Option Nat :=
  match f with
  | .check st => (s, none, st, none)
  | .xlate c l va =>
    let x : XFail := { cause := c, level := l }
    (raiseXfail s k seq x va false, some (originNext s (qHall k) (if c = 5 then 4 else 3) 2), xlateStatus x, none)
  | .fresh => (raiseQueue s k 1 3 0x0101 seq [], some (originNext s (qHall k) 1 3), 0x32, some 2)
  | .poison => (raiseQueue s k 0 3 0x0100 seq [], some (originNext s (qHall k) 0 3), 0x30, some 1)

/-- R70, R74: the front command failed, and nothing is in flight before it: its event, its record and the halt of the queue, with the
kill that POISON and UE_FETCH bring. A Drover command sends its abort frames (R399). -/
def failFront (s : State) (k : Nat) (f : Front) (why : FrontFail) : State :=
  let r := raiseFront s k f.seq why
  let j := (qJob s k).toNat
  let s := modQueue r.1 k fun q => { q with front := none }
  let s := commandAborts s k f.cmd
  let w := writeRecord s k f.seq r.2.2.1 0 []
  let s := match w.fail with
    | none => haltQueue w.st k f.seq .haltFault r.2.1 (ssemOf f.cmd) [] [] true
    | some x => lostRecord w.st k f.seq (ssemOf f.cmd) [] x
  match r.2.2.2 with
  | none => s
  | some cause => killJob s j cause (r.2.1.getD {})

/-- R53 stages 4 and 5: a front command past its wait starts, or requests its grant, as soon as its order and readiness allow
(R56, R137); CC0 and CQ need no grant (R465), the rings of a CQ taking turns (R44), and a class at or below the held one starts under it (R460), but
where the grant yields (R464). A front command that
failed halts its queue once nothing is in flight before it (R70). -/
def advance (s : State) (k : Nat) : State :=
  let q := getQueue s k
  match q.front with
  | none => setQueue s k (settle q)
  | some f =>
    match f.fail with
    | some why =>
      if q.inflight = [] ∧ (q.state = .idle ∨ q.state = .run ∨ q.state = .wait) then failFront s k f why else setQueue s k (settle q)
    | none =>
    if f.stage = .ready ∧ (q.state = .idle ∨ q.state = .run ∨ q.state = .wait) ∧ startsInOrder q f.cmd ∧ loomReady s k f.cmd then
      let cc := hdrClass f.cmd
      if 512 ≤ k then askCq s k
      else if cc = 0 then startCommand s k
      else
        match q.grant with
        | none => placeRequest s k cc
        | some g => if !g.yield ∧ cc ≤ g.cc.toNat then startCommand s k (min g.charge (classCharge s.miller cc)) else placeRequest s k cc
    else setQueue s k (settle q)

/-! ## Completing -/

/-- The oldest command in flight of a queue. -/
def headOf (s : State) (k : Nat) : Option InFlight := (getQueue s k).inflight.head?

/-- The oldest command in flight, if it has the opcode. One that waits for the acknowledgement of a lost write has executed, and stays where it
is (R369, log entry 138). -/
def headOp (s : State) (k op : Nat) : Option InFlight :=
  match headOf s k with
  | none => none
  | some c => if opcodeOf c.cmd = op ∧ dieUp s ∧ !c.unacked then some c else none

/-- The commands in flight after the oldest. -/
def afterHead (s : State) (k : Nat) : List InFlight := (getQueue s k).inflight.tail

/-- R369: the oldest command in flight of a queue has executed, and one of its writes is never acknowledged: stage 7 of R53 does not hold. -/
def markUnacked (s : State) (k : Nat) : State :=
  modQueue s k fun q => { q with inflight := match q.inflight with
    | [] => []
    | c :: r => { c with unacked := true } :: r }

/-- R68, R460, R53: what follows the record of a completed command: grant, signal and notice, and the next start. -/
def afterRecord (s : State) (k : Nat) (c : InFlight) : State :=
  let s := signalNotify (releaseGrant s k) k c
  let s := if (getQueue s k).state = .haltWait then emptyAtHalt s k else s
  advance s k

/-- R53 stages 8 to 10: the oldest command in flight completes DONE with its FLAGS and counters. -/
def completeDone (s : State) (k : Nat) (c : InFlight) (flags : Nat) (counts : List Nat) : State :=
  let s := modQueue s k fun q => { q with inflight := q.inflight.tail }
  let w := writeRecord s k c.seq 0 flags counts
  match w.fail with
  | none => afterRecord w.st k c
  | some f => lostRecord w.st k c.seq (ssemOf c.cmd) (getQueue w.st k).inflight f

/-- R70: the oldest command in flight ends with a fault status; its event, if it has one, is written already and is the origin. POISON
and UE_FETCH kill the job (R74), with its CAUSE. -/
def completeFault (s : State) (k : Nat) (c : InFlight) (status : Nat) (o : Option Origin) : State :=
  let gone := afterHead s k
  let s := commandAborts s k c.cmd
  let s := modQueue s k fun q => { q with inflight := q.inflight.tail }
  let w := writeRecord s k c.seq status 0 []
  let j := (qJob s k).toNat
  let s := match w.fail with
    | none => haltQueue w.st k c.seq .haltFault o (ssemOf c.cmd) gone [] true
    | some f => lostRecord w.st k c.seq (ssemOf c.cmd) gone f
  if status = 0x30 then killJob s j 1 (o.getD {}) else if status = 0x32 then killJob s j 2 (o.getD {}) else s

/-- R74, R536: the oldest command consumed poison: EV_JOB_POISON, its record POISON, and the job is killed. -/
def endPoison (s : State) (k : Nat) (c : InFlight) : State :=
  let o := originNext s (qHall k) 0 3
  completeFault (raiseQueue s k 0 3 0x0100 c.seq []) k c 0x30 (some o)

/-- R249: a Fuller access beyond the store ends the command with PROT. -/
def endXfail (s : State) (k : Nat) (c : InFlight) (f : XFail) (va : Nat) (write : Bool) : State :=
  let o := originNext s (qHall k) (if f.cause = 5 then 4 else 3) 2
  completeFault (raiseXfail s k c.seq f va write) k c (xlateStatus f) (some o)

/-! ## Record values -/

/-- R67: a record counter saturates at 0xFFFF. -/
def recCount (n : Nat) : Nat := min 0xFFFF n

/-- R75: for each byte of a destination, its earlier value or the value written, by a free choice (log entry 2). -/
def partialBytes (n : Nat) (was now : List (Byte × Bool)) : List (Byte × Bool) :=
  match was, now with
  | a :: r, b :: t => (if Config.freeBool n then b else a) :: partialBytes (n + 1) r t
  | _, _ => []

end Sys2Proof.Machine
end

