-- ==== Sys2Proof/Machine/Control.lean ====
section
/-! DEFINITION. The control opcodes (R58), the fences (R65, R66), the swap-window markers (R59, R60), the waits, signals and BROKEN marks
(R53, R62, R71), and the Miller's admission of a request (R461, R462). -/

namespace Sys2Proof.Machine

/-- A control command that only completes. -/
def runPlain (q : QRef) (op : Nat) (s : State) : State :=
  match headOp s (qKey q) op with
  | none => s
  | some c => completeDone s (qKey q) c 0 []

/-- CTL.NOP (R58): completes with its record, signal and notify. -/
def execCtlNop (q : QRef) (s : State) : Host.Outcome State Fault Refusal := .next (runPlain q 0x00 s)

/-- SEM.WAIT (R58): its wait was met before it started; it completes. -/
def execSemWait (q : QRef) (s : State) : Host.Outcome State Fault Refusal := .next (runPlain q 0x01 s)

/-- SEM.SIGNAL (R58): completes; its signal follows its record. -/
def execSemSignal (q : QRef) (s : State) : Host.Outcome State Fault Refusal := .next (runPlain q 0x02 s)

/-! ## Fences -/

/-- The module hubs within the scope of a fence of queue `k` (log entry 14: none below hall scope). -/
def scopeHubs (k scope : Nat) : List Nat :=
  if scope = 2 then (List.range 8).map fun i => 8 * qHall k + i
  else if scope = 3 then List.range 16 else []

/-- R65: every command the fence covers has completed. -/
def coversDone (s : State) (c : InFlight) : Bool :=
  c.covers.all fun x => !((getQueue s x.1).inflight.any fun f => f.seq == x.2)

/-- R65: the hubs within scope hold no line of the job context, or have served the fence's flush (R335). -/
def flushDone (s : State) (k : Nat) (c : InFlight) : Bool :=
  (scopeHubs k (fld c.cmd 24 0 2)).all fun h =>
    c.flushed.contains h || !holdsLine (getHub s h) (qJob s k).toNat

/-- R65: a FENCE completes. -/
def fenceMet (s : State) (k : Nat) (c : InFlight) : Bool := coversDone s c && flushDone s k c

/-- FENCE (R65). Until its conditions hold the step has no effect. -/
def runFence (q : QRef) (s : State) : State :=
  match headOp s (qKey q) 0x04 with
  | none => s
  | some c => if fenceMet s (qKey q) c then completeDone s (qKey q) c 0 [] else s

def execFence (q : QRef) (s : State) : Host.Outcome State Fault Refusal := .next (runFence q s)

/-- R66: signals and marks that the marker of a FENCE.EVENT follows have still to write their events. -/
def eventsPending (s : State) (k : Nat) (c : InFlight) : Bool :=
  (s.signals.any fun g => g.fences.contains (k, c.seq))
    || s.queues.any fun x => x.2.markings.any fun m => m.fences.contains (k, c.seq)

/-- FENCE.EVENT (R66): EV_FENCE_MARK with the queue and the sequence number, behind the events that the commands of its scope which had completed
when it started caused. -/
def runFenceEvent (q : QRef) (s : State) : State :=
  let k := qKey q
  match headOp s k 0x05 with
  | none => s
  | some c =>
    if !eventsPending s k c then
      completeDone
        (pushEvent s (qHall k)
          { code := 0x0002, job := some (qJob s k).toNat, lockind := qLockind k, loc := qLoc k,
            payload := leBytes 4 c.seq.toNat }) k c 0 []
    else s

def execFenceEvent (q : QRef) (s : State) : Host.Outcome State Fault Refusal := .next (runFenceEvent q s)

/-! ## Swap-window markers -/

/-- WINDOW of a SYNC.SWAPMARK. -/
def markWindow (c : BitVec 512) : W32 := BitVec.ofNat 32 (fld c 24 0 32)

/-- SYNC.SWAPMARK (R59, R60, R73): the queue enters MARK; the first of the four fixes the window number, and a marker with another is
rejected, but on a fenced core. -/
def runSwapmark (n : Core) (kind : QKind) (s : State) : State :=
  let k := qKey (.core n kind)
  match headOp s k 0x06 with
  | none => s
  | some c =>
    let lc := getCore s n
    let w := markWindow c.cmd
    if (getQueue s k).state = .mark ∨ isHalted (getQueue s k).state then s
    else if lc.fenced ∨ lc.window.getD w = w then
      modQueue (modCore s n fun lc => { lc with window := some (lc.window.getD w) }) k fun q => { q with state := .mark }
    else completeFault s k c 0x18 none

def execSyncSwapmark (n : Core) (kind : QKind) (s : State) : Host.Outcome State Fault Refusal := .next (runSwapmark n kind s)

/-! ## Waits -/

/-- The front command of a queue, waiting at its semaphore. -/
def waitingFront (s : State) (k : Nat) : Option Front :=
  match (getQueue s k).front with
  | none => none
  | some f => if f.stage = .wait ∧ !isHalted (getQueue s k).state then some f else none

/-- WAIT_MET (R53, R55): the value is at least WVAL; the command goes on to its grant. -/
def runWaitMet (q : QRef) (s : State) : State :=
  let k := qKey q
  match waitingFront s k with
  | none => s
  | some f =>
    if dieUp s ∧ hdrWval f.cmd ≤ (getSem s (hdrWsem f.cmd)).value.toNat then
      advance (modQueue s k fun q => { q with front := some { f with stage := .ready } }) k
    else s

def execWaitMet (q : QRef) (s : State) : Host.Outcome State Fault Refusal := .next (runWaitMet q s)

/-! ## The Miller's admission (R456, R461 to R465) -/

/-- R456: d in twentieths. -/
def derateTwentieths (m : Miller) : Nat := if m.derate then m.warn else 20

/-- R456: the limit in force in mA. -/
def aEff (m : Miller) : Nat := min m.budget (135000000 / chargeVolt m) * derateTwentieths m / 20

/-- R458: the charged total of the standing rows. -/
def standing (m : Miller) : Nat := (m.stand.map (chargeOf m)).sum

/-- R458: the grantable pool. -/
def pool (m : Miller) : Nat := aEff m - standing m

/-- The charges a hall has granted, loans left out. -/
def grantedIn (s : State) (h : Nat) : Nat :=
  (s.queues.map fun x =>
    if qHall x.1 = h then ((x.2.grant.map fun g => g.charge - g.lent).getD 0) else 0).sum
  + (getHall s h).benchGrant + ((getHall s h).copGrants.map fun x => x.2 - tabGet 0 (getHall s h).copLent x.1).sum

/-- R463: the unreserved share of a hall. -/
def unreserved (s : State) (h : Nat) : Nat := (getHall s h).share - grantedIn s h

/-- R461: the charges admitted in the last 1 µs. -/
def recentRamp (hl : HallState) (t : W64) : List (W64 × Nat) :=
  hl.ramp.filter fun x => decide ((t - x.1).toNat < 1000)

/-- R461: the ramp admits a charge. -/
def rampFits (hl : HallState) (t : W64) (charge : Nat) : Bool :=
  decide (((recentRamp hl t).map (·.2)).sum + charge ≤ 1000)

/-- R462: a loan admits a charge. -/
def loanFits (s : State) (h charge : Nat) : Bool :=
  let m := s.miller
  let hl := getHall s h
  let before := match hl.lastAdmit with
    | none => true
    | some t => decide (t.toNat + 10000 < m.lastWindow.toNat)
  decide (0 < m.lend) && before && decide (10000 ≤ m.lastWindow.toNat)
    && decide (m.iIn + charge ≤ aEff m - 100 * m.margin) && decide (2 * (hl.lent + charge) ≤ 100 * m.lend)

/-- R457, R460: what the queue of a request holds already. -/
def heldCharge (s : State) (r : Request) : Nat := if 2048 ≤ r.queue then 0 else ((getQueue s r.queue).grant.map (·.charge)).getD 0

/-- R457, R460: what a request costs at the V_IN of the moment: the reservation of its class, less what its queue still holds (log entry 175). -/
def requestCharge (s : State) (r : Request) : Nat := chargeOf s.miller r.res - heldCharge s r

/-- R461: how a request is admitted: `some false` from the share, `some true` on loan. -/
def admission (s : State) (h : Nat) (r : Request) : Option Bool :=
  let hl := getHall s h
  let charge := requestCharge s r
  if s.miller.throttle || hl.down || !rampFits hl (now s h) charge then none
  else if charge ≤ unreserved s h then some false
  else if loanFits s h charge then some true
  else none

/-- R460: the grant of a queue with `charge` added to it for a request. -/
def addGrant (q : Queue) (r : Request) (charge : Nat) (loan : Bool) (t : W64) : Grant :=
  let lent := if loan then charge else 0
  match q.grant with
  | none => { cc := r.cc, charge := charge, lent := lent, since := t }
  | some g => { cc := if g.cc ≤ r.cc then r.cc else g.cc, charge := g.charge + charge, lent := g.lent + lent, since := g.since }

/-- The key of a request of the Cooper for a job context (R467). -/
def copRequest (j : Nat) : Nat := 2048 + j

/-- R461: the oldest request of a hall admitted. -/
def admitRequest (s : State) (h : Nat) (r : Request) (loan : Bool) : State :=
  let charge := requestCharge s r
  let lent := if loan then charge else 0
  let s := modHall s h fun hl =>
    { hl with requests := hl.requests.tail, ramp := recentRamp hl (now s h) ++ [(now s h, charge)],
              lastAdmit := some (now s h), lent := hl.lent + lent }
  if 2048 ≤ r.queue then
    modHall s h fun hl =>
      { hl with copGrants := tabSet 0 (r.queue - 2048) charge hl.copGrants, copLent := tabSet 0 (r.queue - 2048) lent hl.copLent }
  else
    let s := modQueue s r.queue fun q =>
      { q with grant := some (addGrant q r charge loan (now s h)),
               qwait := q.qwait + BitVec.ofNat 32 ((now s h - r.time).toNat / 4) }
    startCommand s r.queue (min (heldCharge s r) (chargeOf s.miller r.res))

/-- R457, R467: the charge of a bench run: 110 % of MLR_CLASS(7), rounded up once. -/
def benchCharge (m : Miller) : Nat := (m.classes.getD 7 0 * 11 * 480 + chargeVolt m - 1) / chargeVolt m

/-- R468: MLR_THROTTLE at time `t`: the µs the throttle was engaged, with those of now. -/
def throttleCount (m : Miller) (t : W64) : W32 :=
  m.throttleUs + if m.throttle then BitVec.ofNat 32 ((t - m.throttleFrom).toNat / 1000) else 0

/-- R467: how long the bench of a hall has now waited for slack, in µs. -/
def benchWaited (s : State) (h : Nat) : Nat :=
  if (getHall s h).tnkActive ∧ (getHall s h).benchGrant = 0 then (now s h - (getHall s h).benchSince).toNat / 1000 else 0

/-- R467: the wait of a hall's bench ends, and counts in MLR_BENCH_WAIT. -/
def countBenchWait (s : State) (h : Nat) : State :=
  { s with miller := { s.miller with benchWait := s.miller.benchWait + BitVec.ofNat 32 (benchWaited s h) } }

/-- R467: the bench is admitted from slack, when no request of its hall waits; its wait counts in MLR_BENCH_WAIT. -/
def admitBench (s : State) (h : Nat) : State :=
  let hl := getHall s h
  let c := benchCharge s.miller
  if hl.tnkActive ∧ hl.benchGrant = 0 ∧ !s.miller.throttle ∧ !hl.down ∧ c + 100 * s.miller.slack ≤ unreserved s h ∧ rampFits hl (now s h) c then
    modHall (countBenchWait s h) h fun hl =>
      { hl with benchGrant := c, ramp := recentRamp hl (now s h) ++ [(now s h, c)], lastAdmit := some (now s h) }
  else s

/-- GRANT_ADMIT (R461, R462, R467): the oldest request of the hall, if its charge fits; it holds back every younger one. With none
waiting, the bench. -/
def runGrantAdmit (h : Hall) (s : State) : State :=
  match (getHall s h).requests with
  | [] => if dieUp s then admitBench s h else s
  | r :: _ =>
    if !dieUp s then s else
      match admission s h r with
      | none => s
      | some loan => admitRequest s h r loan

/-! ## Waits on a BROKEN semaphore (R71) -/

/-- The queues whose waiting command names a semaphore with its value below WVAL. -/
def brokenWaiters (s : State) (sem : Nat) : List Nat :=
  (s.queues.map (·.1)).filter fun k =>
    match waitingFront s k with
    | none => false
    | some f => hdrWsem f.cmd == sem && decide ((getSem s sem).value.toNat < hdrWval f.cmd) && (getQueue s k).state != .fenced

/-- R71: a queue enters HALT_WAIT at its waiting command. -/
def haltWaiting (s : State) (k : Nat) (o : Origin) : State :=
  match (getQueue s k).front with
  | none => s
  | some f => haltQueue s k f.seq .haltWait (some o) [] [] (getQueue s k).inflight true

/-- R71: the value of a semaphore has fallen: the queues that wait on it below their WVAL halt if it is BROKEN. -/
def recheckBroken (s : State) (sem : Nat) : State :=
  if (getSem s sem).broken then (brokenWaiters s sem).foldl (fun s k => haltWaiting s k (getSem s sem).origin) s else s

/-! ## Signals (R62, R63, R535) -/

/-- R62: an increment added modulo 2^64; the wrap sets SEM_STATUS.WRAP. -/
def addSem (sm : Semaphore) (add : W64) : Semaphore :=
  { sm with value := sm.value + add, wrap := sm.wrap || decide (2 ^ 64 ≤ sm.value.toNat + add.toNat) }

/-- R535: EV_SEM_WRAP. -/
def evSemWrap (s : State) (sem : Nat) (src : SignalFrom) : State :=
  match src with
  | .command k seq job =>
    pushEvent s (sem / 4096)
      { code := 0x0005, job := some job.toNat, lockind := qLockind k, loc := qLoc k,
        payload := leBytes 4 (sem % 4096) ++ leBytes 1 (sem / 4096) ++ leBytes 4 seq.toNat ++ leBytes 1 0 }
  | .host =>
    pushEvent s (sem / 4096)
      { code := 0x0005, payload := leBytes 4 (sem % 4096) ++ leBytes 1 (sem / 4096) ++ leBytes 4 0 ++ leBytes 1 1 }

/-- R62, R71: a signal applied to its semaphore. A wrap lowers the value. -/
def applySignal (s : State) (g : Signal) : State :=
  let sm := getSem s g.sem
  let s' := setSem s g.sem (addSem sm g.add)
  if 2 ^ 64 ≤ sm.value.toNat + g.add.toNat then recheckBroken (evSemWrap s' g.sem g.source) g.sem else s'

/-- The series of a signal (R368): from its source's stop to the Steward of its semaphore's hall, on VC0. -/
def signalSeries (g : Signal) : Nat := seriesKey g.stop (stewardStop (g.sem / 4096)) 0 .vc0

/-- R53 stage 10: the notice that follows the signal of its command. -/
def noticeOf (s : State) (g : Signal) : State :=
  match g.source with
  | .command k seq job => if g.notify then notifyEvent s k seq job.toNat else s
  | .host => s

/-- A signal as it reaches its destination. -/
structure Arrived where
  st : State
  sig : Signal

/-- R352 to R354, R365: a signal carried as one flit on VC0 of the Q-net to the Steward of its semaphore's hall; its increment stands in the first
64 data bits. An increment that arrives changed or poisoned is free (log entry 183). -/
def carrySignal (s : State) (g : Signal) : Arrived :=
  let sent : List (Byte × Bool) := (leBytes 8 g.add.toNat).map fun b => (b, false)
  let c := transit s 0 .vc0 g.stop (stewardStop (g.sem / 4096)) 0 sent
  if c.bytes = sent then { st := c.st, sig := g } else
    let (n, s) := takeFree c.st
    { st := s, sig := { g with add := Config.freeBits n } }

/-- R354: the acknowledgement of a signal, on VC0 of the P-net. -/
def answerSignal (s : State) (g : Signal) : State := (transit s 1 .vc0 (stewardStop (g.sem / 4096)) g.stop 0 []).st

/-- R355, R368: a signal that reaches its destination is applied where its number is the next of its series; one with a later number is discarded,
and stays with its source; one applied before is only answered. -/
def runSignalApply (i : Nat) (s : State) : State :=
  match s.signals[i]? with
  | none => s
  | some g =>
    if !dieUp s then s else
      let x := getSeries s (signalSeries g)
      let a := carrySignal s g
      match receiptOf x g.num with
      | .discard => a.st
      | .again => { answerSignal a.st g with signals := s.signals.eraseIdx i }
      | .apply =>
        let t := setSeries { answerSignal a.st g with signals := s.signals.eraseIdx i } (signalSeries g) { x with applied := x.applied + 1 }
        noticeOf (applySignal t a.sig) g

/-- A signal that is applied in the step that sends it (R62). -/
def sendHere (s : State) (g : Signal) : State :=
  let x := getSeries s (signalSeries g)
  let a := carrySignal s { g with num := x.sent }
  applySignal (setSeries (answerSignal a.st g) (signalSeries g) { sent := x.sent + 1, applied := x.applied + 1 }) a.sig

/-- SEMAPHORE_SIGNAL_APPLY (R62, R63): signals from any number of sources are applied one at a time. -/
def execSemaphoreSignalApply (i : Nat) (s : State) : Host.Outcome State Fault Refusal := .next (runSignalApply i s)

/-! ## BROKEN marks (R71, R72) -/

/-- R71: the job context of a queue owns the group of a semaphore. -/
def ownsSem (s : State) (job : BitVec 4) (sem : Nat) : Bool :=
  let g := getSemGrp s (64 * (sem / 4096) + sem % 4096 / 64)
  g.owned && g.job == job

/-- R71: one semaphore marked BROKEN for a job context, and the queues that wait on it halted. -/
def markBroken (s : State) (job : BitVec 4) (o : Origin) (sem : Nat) : State :=
  if ownsSem s job sem then
    let s := setSem s sem { getSem s sem with broken := true, origin := o }
    (brokenWaiters s sem).foldl (fun s k => haltWaiting s k o) s
  else s

/-- The SSEM of the command in a ring slot that has not been fetched; a slot that cannot be read names none (log entry 15). -/
def slotSsem (s : State) (k : Nat) (seq : W32) : List Nat × State :=
  let q := getQueue s k
  let rd := vaRead s (qCtx s k) (q.base.toNat + 64 * (seq.toNat % ringSize q)) 64 .fetch
  if rd.stop.isSome || rd.bytes.any (·.2) then ([], rd.st)
  else (ssemOf (BitVec.ofNat 512 (leNat (rd.bytes.map (·.1)))), rd.st)

/-- The SSEMs of `n` unfetched commands from `seq`. -/
def slotSsems (s : State) (k : Nat) (seq : W32) (n : Nat) : List Nat × State :=
  match n with
  | 0 => ([], s)
  | n + 1 =>
    let a := slotSsem s k seq
    let b := slotSsems a.2 k (seq + 1) n
    (a.1 ++ b.1, b.2)

/-- BROKEN_MARK (R71): the oldest marking a halted queue has to make. -/
def runBrokenMark (q : QRef) (s : State) : State :=
  let k := qKey q
  match (getQueue s k).markings with
  | [] => s
  | m :: rest =>
    if !dieUp s then s else
      let s := modQueue s k fun q => { q with markings := rest }
      let u := slotSsems s k m.first (min (m.upto - m.first).toNat (ringSize (getQueue s k)))
      (m.sems ++ u.1).eraseDups.foldl (fun s sem => markBroken s (qJob s k) m.origin sem) u.2

def execBrokenMark (q : QRef) (s : State) : Host.Outcome State Fault Refusal := .next (runBrokenMark q s)

end Sys2Proof.Machine
end

