-- ==== Sys2Proof/Machine/Current.lean ====
section
/-! DEFINITION. The shares of the halls in the grantable pool (R463), and the thermal limits with their derating (R468, R529). -/

namespace Sys2Proof.Machine

/-! ## Shares (R463) -/

/-- A hall that may hold a share. -/
def holdsShare (s : State) (h : Nat) : Bool := !(getHall s h).down

/-- R456 to R463: the shares after the pool became `p`: the halls that hold one keep their difference, as far as it goes, and sum to the
pool; a hall that is down holds none (log entry 44). -/
def sharesFor (s : State) (p : Nat) : Nat × Nat :=
  let a := (getHall s 0).share
  let b := (getHall s 1).share
  if !holdsShare s 0 then (0, if holdsShare s 1 then p else 0)
  else if !holdsShare s 1 then (p, 0)
  else if a + b ≤ p then (a + (p - (a + b)) / 2, p - (a + (p - (a + b)) / 2))
  else
    let cut := (a + b) - p
    let x := min p (a - min a (cut / 2))
    (x, p - x)

/-- The shares made to sum to the pool in force. -/
def reshare (s : State) : State :=
  let p := pool s.miller
  if (getHall s 0).share + (getHall s 1).share = p then s else
    let x := sharesFor s p
    modHall (modHall s 0 fun hl => { hl with share := x.1 }) 1 fun hl => { hl with share := x.2 }

/-- R463: what hall `h` gives: the excess over 10 % of the pool, when it has no request waiting and the other hall holds a share. -/
def shareGift (s : State) (h : Nat) : Nat :=
  if (getHall s h).requests.isEmpty && holdsShare s h && holdsShare s (1 - h) then unreserved s h - pool s.miller / 10 else 0

/-- R463: the exchange at a window, from the shares as they stood. -/
def exchangeShares (s : State) : State :=
  let g0 := shareGift s 0
  let g1 := shareGift s 1
  if g0 = 0 ∧ g1 = 0 then s else
    modHall (modHall s 0 fun hl => { hl with share := hl.share - g0 + g1 }) 1 fun hl => { hl with share := hl.share - g1 + g0 }

/-! ## Temperatures (R468, R529) -/

/-- R529: the limits of FS_THERM_WARN, in °C. -/
def warnLimit (x : Sensor) : Nat :=
  match x with
  | .die | .package => 95
  | .optics => 70

/-- R529: the limit of FS_THERM_TRIP, in °C. -/
def tripLimit : Nat := 110

/-- R468: FS_THERM_WARN; the derating begins. -/
def warned (s : State) : State :=
  raiseBoth (reshare { s with power := { s.power with warm := true }, miller := { s.miller with derate := true } }) 34 1 { code := 0x0704 }

end Sys2Proof.Machine
end

