-- ==== Sys2Proof/Machine/HostQueue.lean ====
section
/-! DEFINITION. Host writes of the queue blocks, the ownership tables, the semaphores and the translation registers (R46 to R48, R64,
R77, R324, R505, R506). -/

namespace Sys2Proof.Machine

/-- A write through hall `h`'s BAR0 reaches a register: the die is up and the hall's link too (R482, R484). -/
def hostUp (s : State) (h : Nat) : Bool := dieUp s && (getHall s h).linkUp

/-- A write of a mirrored register reaches it through either hall. -/
def anyHostUp (s : State) : Bool := hostUp s 0 || hostUp s 1

/-! ## STW_Q_CFG (R45, R46) -/

/-- R46: a ring size a queue may have. -/
def sizeOk (n : Nat) : Bool := decide (4 ≤ n) && decide (n ≤ 12)

/-- R46: SIZE_LOG2 as a write of STW_Q_CFG leaves it. -/
def writeSize (q : Queue) (v : W32) : Queue :=
  if !q.enable && sizeOk (bitsOf v.toNat 0 4) then { q with sizeLog2 := BitVec.ofNat 4 (bitsOf v.toNat 0 4) } else q

/-- R46, R27: a queue of an unowned core is not enabled. -/
def enableOwned (s : State) (k : Nat) : Bool :=
  match qCore k with
  | none => true
  | some n => (getOwn s n).owned

/-- R46, R129, R198, R469: ENABLE goes from 0 to 1. DESIGN CHOICE (log entry 135): the queue of a fenced core comes up FENCED; the manual does not
say in which state it does. -/
def enableQueue (s : State) (k : Nat) : State :=
  let fenced := match qCore k with
    | none => false
    | some n => (getCore s n).fenced
  let s := modQueue s k fun q =>
    { q with enable := true, prod := 0, cmplSeq := 0, haltSeq := 0, fetchSeq := 0, front := none, inflight := [], grant := none,
             qwait := 0, state := if fenced then .fenced else .idle }
  if k < 512 ∧ k % 4 = 0 then modCore s (k / 4) emptyMq else s

/-- Q_ENABLE (R46): a write of STW_Q_CFG with ENABLE 1. -/
def runQEnable (q : QRef) (v : W32) (s : State) : State :=
  let k := qKey q
  if !hostUp s (qHall k) then s else
    let s := modQueue s k fun q => writeSize q v
    let qu := getQueue s k
    if bitOf v.toNat 16 && !qu.enable && sizeOk qu.sizeLog2.toNat && enableOwned s k then enableQueue s k else s

def execQEnable (q : QRef) (v : W32) (s : State) : Host.Outcome State Fault Refusal := .next (runQEnable q v s)

/-- R46: a state in which clearing ENABLE is accepted. -/
def mayDisable (s : State) (k : Nat) : Bool :=
  match (getQueue s k).state with
  | .idle | .haltFault | .haltWait | .fenced => true
  | .mark => match qCore k with
    | none => true
    | some n => (getCore s n).swap.isNone
  | .disabled | .run | .wait => false

/-- R46, R61: ENABLE cleared. DESIGN CHOICE (log entry 136): commands in flight in HALT_WAIT go on, and ENABLE set again drops them without a
record; the manual does not say what becomes of them. A waiting marker completes DONE first, and the other markers of the core are released. -/
def disableQueue (s : State) (k : Nat) : State :=
  let a := if (getQueue s k).state = .mark then releaseMark s k else { st := s, kill := none }
  let s := dropRequest (modQueue a.st k fun q => { q with enable := false, state := .disabled, front := none }) k
  let b := releaseMarks s k
  applyKill (qJob s k).toNat { st := b.st, kill := a.kill <|> b.kill }

/-- Q_DISABLE (R46): a write of STW_Q_CFG with ENABLE 0. -/
def runQDisable (q : QRef) (v : W32) (s : State) : State :=
  let k := qKey q
  if !hostUp s (qHall k) then s
  else if (getQueue s k).enable then
    if !bitOf v.toNat 16 && mayDisable s k then disableQueue s k else s
  else modQueue s k fun q => writeSize q v

def execQDisable (q : QRef) (v : W32) (s : State) : Host.Outcome State Fault Refusal := .next (runQDisable q v s)

/-! ## Doorbell and restart (R48, R77) -/

/-- R48: a doorbell write is accepted. -/
def doorbellOk (q : Queue) (p : W32) : Bool :=
  q.state != .haltFault && q.state != .haltWait && q.state != .fenced
    && decide (0 ≤ (p - q.prod).toInt) && decide ((p - q.cmplSeq).toInt ≤ (ringSize q : Int))

/-- Q_DOORBELL (R48). -/
def runQDoorbell (q : QRef) (v : W32) (s : State) : State :=
  let k := qKey q
  if !hostUp s (qHall k) then s
  else if doorbellOk (getQueue s k) v then setQueue s k (settle { getQueue s k with prod := v })
  else
    pushEvent s (qHall k)
      { code := 0x0004, job := if (getQueue s k).enable then some (qJob s k).toNat else none,
        lockind := qLockind k, loc := qLoc k, payload := leBytes 4 v.toNat }

def execQDoorbell (q : QRef) (v : W32) (s : State) : Host.Outcome State Fault Refusal := .next (runQDoorbell q v s)

/-- R77, R433: a restart is accepted. -/
def restartOk (s : State) (k : Nat) (p : W32) : Bool :=
  let q := getQueue s k
  isHalted q.state && q.inflight.isEmpty && decide ((p - q.cmplSeq).toNat ≤ ringSize q)
    && !(getJob s (qJob s k).toNat).killed

/-- Q_RESTART (R77): the queue returns to RUN at STW_Q_CMPL_SEQ. -/
def runQRestart (q : QRef) (v : W32) (s : State) : State :=
  let k := qKey q
  if hostUp s (qHall k) && restartOk s k v then
    modQueue s k fun q => settle { q with prod := v, fetchSeq := q.cmplSeq, front := none, state := .run }
  else s

def execQRestart (q : QRef) (v : W32) (s : State) : Host.Outcome State Fault Refusal := .next (runQRestart q v s)

/-! ## Ownership (R505, R506) -/

/-- The four queues of logical core `n` are disabled. -/
def coreDisabled (s : State) (n : Nat) : Bool := (List.range 4).all fun i => !(getQueue s (4 * n + i)).enable

/-- STW_OWN_WRITE (R505). -/
def runOwnWrite (n : Core) (v : W32) (s : State) : State :=
  if hostUp s (n.val / 64) && coreDisabled s n then
    let owned := bitOf v.toNat 31
    let job := BitVec.ofNat 4 v.toNat
    let s := setOwn s n { owned := owned, job := job }
    (List.range 4).foldl (fun s i => modQueue s (4 * n.val + i) fun q => { q with job := if owned then job else 0 }) s
  else s

def execStwOwnWrite (n : Core) (v : W32) (s : State) : Host.Outcome State Fault Refusal := .next (runOwnWrite n v s)

/-- STW_SEMGRP_WRITE (R506): accepted at any time; only later checks see it. -/
def runSemgrpWrite (h : Hall) (g : Fin 64) (v : W32) (s : State) : State :=
  if hostUp s h then setSemGrp s (64 * h.val + g.val) { owned := bitOf v.toNat 31, job := BitVec.ofNat 4 v.toNat } else s

def execStwSemgrpWrite (h : Hall) (g : Fin 64) (v : W32) (s : State) : Host.Outcome State Fault Refusal :=
  .next (runSemgrpWrite h g v s)

/-! ## Semaphores (R64) -/

/-- SEM_ADD (R64): the value written is added, and counts as a signal. -/
def runSemAdd (h : Hall) (i : Sem) (v : W64) (s : State) : State :=
  if hostUp s h then sendHere s { sem := 4096 * h.val + i.val, add := v, source := .host, stop := hostStop h } else s

def execSemAdd (h : Hall) (i : Sem) (v : W64) (s : State) : Host.Outcome State Fault Refusal := .next (runSemAdd h i v s)

/-- SEM_SET (R64): the value replaced; waits on a BROKEN semaphore that it leaves below their WVAL halt (R71). -/
def runSemSet (h : Hall) (i : Sem) (v : W64) (s : State) : State :=
  let k := 4096 * h.val + i.val
  if hostUp s h then recheckBroken (setSem s k { getSem s k with value := v }) k else s

def execSemSet (h : Hall) (i : Sem) (v : W64) (s : State) : Host.Outcome State Fault Refusal := .next (runSemSet h i v s)

/-! ## Translation (R324, R326) -/

/-- XLATE_INV (R324, R326): each bit of JOBS written 1 starts an invalidation. -/
def runXlateInv (v : W32) (s : State) : State :=
  if anyHostUp s then
    (List.range 16).foldl (fun s j => if bitOf v.toNat j then modJob s j fun jb => { jb with invalidating := true } else s) s
  else s

def execXlateInv (v : W32) (s : State) : Host.Outcome State Fault Refusal := .next (runXlateInv v s)

/-- Leaf translations that stay when the job contexts marked are invalidated. -/
def keepLeafs (s : State) (ls : List Leaf) : List Leaf := ls.filter fun l => !(getJob s l.job).invalidating

/-- Table pointers that stay when the job contexts marked are invalidated. -/
def keepPtrs (s : State) (ps : List Ptr) : List Ptr := ps.filter fun p => !(getJob s p.job).invalidating

/-- R324, R369: a write of job context `j` is still to be acknowledged: one of a command in flight, or of a generation's copies. Every other access
is a whole step. -/
def unackedOf (s : State) (j : Nat) : Bool :=
  (s.queues.any fun x => (qJob s x.1).toNat == j && x.2.inflight.any fun c => c.unacked)
    || (getJob s j).gens.any fun g => g.unacked

/-- XLATE_INV_DONE (R324): the cached leaves and table pointers of every job context under invalidation are gone; the invalidation ends where every
access of the job context has been acknowledged. -/
def runXlateInvDone (s : State) : State :=
  if dieUp s then
    let leafs := (s.leafs.map fun x => (x.1, keepLeafs s x.2)).filter fun x => x.2 != []
    let s := [0, 1].foldl (fun a h => modHall a h fun hl => { hl with ptrs := keepPtrs s hl.ptrs }) { s with leafs := leafs }
    (List.range 16).foldl (fun s j =>
      if unackedOf s j then s else modJob s j fun jb => { jb with invalidating := false }) s
  else s

def execXlateInvDone (s : State) : Host.Outcome State Fault Refusal := .next (runXlateInvDone s)

end Sys2Proof.Machine
end

