-- ==== Sys2Proof/Machine/Bench.lean ====
section
/-! DEFINITION. The bench of each hall (R298 to R302, R467): its runs, their verdicts, retirement, and the host's request. -/

namespace Sys2Proof.Machine

/-- The key of position `i` of hall `h` (R26). -/
def posKey (h i : Nat) : Nat := 72 * h + i

/-- R476: PART of a KIND 1 or 2 entry. The island voltage is a free value (log entry 2): the manual gives no core supply voltage. -/
def corePart (i : Nat) (round test mV : Nat) (mhz : Nat) (temp : Byte) : List Byte :=
  leBytes 1 i ++ leBytes 2 round ++ leBytes 2 test ++ leBytes 2 mV ++ leBytes 2 mhz ++ [temp]

/-- R301: the repair-log entry of a retirement, with its cause. -/
def logRetired (s : State) (h i cause round test : Nat) : State :=
  let (n, s) := takeFree s
  let (t, s) := takeFree s
  logDecision s h (logEntry (now s h) 1 cause 0xFF
    (corePart i round test (Config.freeNat n) (if cause = 0 then 1188 else 1100) (dieTemp s t)))

/-- R289, R300: what a hall still had in mind for a position that leaves the reach of the bench. -/
def forgetPos (hl : HallState) (i : Nat) : HallState :=
  { hl with heldOrder := hl.heldOrder.filter fun x => x != i, rotateReq := if hl.rotateReq = some i then none else hl.rotateReq }

/-- R301: a position retired for life, logged with a cause; EV_CORE_RETIRE. A failed bench run raises FS_BENCH_FAIL. -/
def retirePosition (s : State) (h i cause round test : Nat) : State :=
  let p := posKey h i
  let s := modPos s p fun ps => { ps with status := .retired, islandOn := false, heldBench := false, fenced := false }
  let s := modHall s h fun hl => { forgetPos hl i with tnkRetired := hl.tnkRetired + 1 }
  let s := logRetired s h i cause round test
  if cause = 0 then
    raise (raise s h 29 1 { code := 0x0300, lockind := 3, loc := p }) h 29 1 { code := 0x0301, lockind := 3, loc := p }
  else pushEvent s h { code := 0x0301, lockind := 3, loc := p }

/-- R33, R301: the target of a rotation that failed while the store was copied is retired. What can fail is its router, so it stays a hole until
the hall is reloaded (R40), and its entry keeps it Retired then. The entry's CAUSE is a free value: none of R476 names it (log entry 139). -/
def retireTarget (s : State) (h i : Nat) : State :=
  let (n, s) := takeFree s
  let s := modHall s h fun hl => { forgetPos hl i with tnkRetired := hl.tnkRetired + 1 }
  pushEvent (logRetired s h i (Config.freeNat n % 3) 0xFFFF 0xFFFF) h { code := 0x0301, lockind := 3, loc := posKey h i }

/-- R289, R300: a position held for the bench, in the order in which the positions were fenced. -/
def holdForBench (s : State) (h i : Nat) : State :=
  modHall (modPos s (posKey h i) fun ps => { ps with heldBench := true }) h fun hl =>
    let rank (x : Nat) : Nat := hl.fencedPos.findIdx fun p => p == posKey h x
    { hl with heldOrder := if i ∈ hl.heldOrder then hl.heldOrder
        else hl.heldOrder.takeWhile (fun x => decide (rank x ≤ rank i)) ++ i :: hl.heldOrder.dropWhile fun x => decide (rank x ≤ rank i) }

/-- R299: the inconclusive runs in a row, with EV_BENCH_SLACK at each multiple of four. -/
def slackRun (s : State) (h : Nat) : State :=
  let s := modHall s h fun hl => { hl with tnkSlack := hl.tnkSlack + 1 }
  if (getHall s h).tnkSlack % 4 = 0 then
    pushEvent s h { code := 0x0302, lockind := 3, loc := posKey h (getHall s h).tnkPos }
  else s

/-- R301, R302: a retired position back from a run it was benched for on request. -/
def retiredAgain (ps : Position) : Position := { ps with status := .retired, islandOn := false }

/-- R509: the core-island supply of a hall stands. -/
def islandSupplied (s : State) (h : Nat) : Bool := !((getHall s h).conds.any fun c => c.part == .islands)

/-- R299, R302: the run of a hall ends with a verdict: 1 passed, 2 failed, 3 inconclusive. -/
def endBench (s : State) (h verdict round test : Nat) : State :=
  let hl := getHall s h
  let i := hl.tnkPos
  let p := posKey h i
  let s := modHall (countBenchWait s h) h fun hl =>
    { hl with tnkActive := false, tnkVerdict := verdict, tnkRuns := hl.tnkRuns + 1, benchGrant := 0, benchUnder289 := false,
              tnkSlack := if verdict = 3 then hl.tnkSlack else 0 }
  let s := modPos s p fun ps => { ps with ueSince := 0 }
  if verdict = 1 then
    modPos s p fun ps =>
      let ps := { ps with lastBench := some (now s h) }
      if hl.benchWasRetired then retiredAgain ps else { ps with status := .ready }
  else if verdict = 2 then
    if hl.benchWasRetired then raise (modPos s p retiredAgain) h 29 1 { code := 0x0300, lockind := 3, loc := p }
    else retirePosition s h i 0 round test
  else
    let s := modPos s p fun ps => if hl.benchWasRetired then retiredAgain ps else { ps with status := hl.benchFrom }
    slackRun (if hl.benchUnder289 then holdForBench s h i else s) h

/-- R299: the verdict of a run that ends at its period: 16 rounds make it passed. -/
def periodVerdict (hl : HallState) : Nat := if 16 ≤ hl.tnkRounds then 1 else 3

/-- R300, R289: a run begins on position `i`, whose core island is on for it (R298). -/
def beginBench (s : State) (h i : Nat) (under289 : Bool) : State :=
  let ps := getPos s (posKey h i)
  let on := islandSupplied s h
  let s := modPos s (posKey h i) fun ps =>
    { ps with status := .bench, heldBench := false, benchReq291 := false, fenced := false, islandOn := on }
  modHall s h fun hl =>
    { hl with tnkActive := true, tnkPos := i, tnkRounds := 0, benchUnder289 := under289,
              benchWasRetired := ps.status == .retired,
              benchFrom := if ps.status = .retired then .retired else .ready,
              benchGrant := 0, benchSince := now s h,
              heldOrder := hl.heldOrder.filter fun x => x != i,
              tnkReqPending := hl.tnkReqPending && hl.tnkReqPos.toNat != i }

/-- A position that may be a swap target or be benched in its turn: a ready spare that is not held for the bench. DESIGN CHOICE (log entry 133): a
position just rotated out, which awaits its bench run, counts as a ready spare; so does one held for the bench in TNK_POS.STATE. R26 names no state
for either. -/
def isSpare (ps : Position) : Bool := ps.status == .ready && !ps.heldBench && !ps.benchReq291

/-- R300, R33: position `i` of a hall is the target of a swap in progress. -/
def swapTarget (s : State) (h i : Nat) : Bool :=
  (List.range 64).any fun c => (getCore s (64 * h + c)).swap.any fun w => w.copying && w.new == i

/-- Older of two last-bench times: never benched comes first. -/
def olderBench (a b : Option W64) : Bool :=
  match a, b with
  | none, some _ => true
  | some x, some y => decide (x.toNat < y.toNat)
  | _, none => false

/-- The position of a list with the oldest last-bench time, the lowest index breaking a tie. -/
def oldestBench (s : State) (h : Nat) (l : List Nat) : Option Nat :=
  l.foldl (fun best i => match best with
    | none => some i
    | some b => if olderBench (getPos s (posKey h i)).lastBench (getPos s (posKey h b)).lastBench then some i else some b) none

/-- R300: the first position of the list to bench. -/
def benchChoice (s : State) (h : Nat) : Option (Nat × Bool) :=
  let hl := getHall s h
  match hl.heldOrder with
  | i :: _ => some (i, true)
  | [] =>
    match (List.range 72).find? fun i => (getPos s (posKey h i)).status == .ready && (getPos s (posKey h i)).benchReq291 && !swapTarget s h i with
    | some i => some (i, false)
    | none =>
      let ps := getPos s (posKey h hl.tnkReqPos.toNat)
      if hl.tnkReqPending ∧ (ps.status = .ready ∨ ps.status = .retired) ∧ !swapTarget s h hl.tnkReqPos.toNat then some (hl.tnkReqPos.toNat, false)
      else (oldestBench s h ((List.range 72).filter fun i => isSpare (getPos s (posKey h i)) && !swapTarget s h i)).map fun i => (i, false)

/-- R304: hours since the last passed bench run, 0xFFFF where there is none. -/
def benchAge (t : W64) (ps : Position) : Nat :=
  match ps.lastBench with
  | none => 0xFFFF
  | some b => min 0xFFFF ((t - b).toNat / 3600000000000)

/-- R300: more than `hours` have passed since the last passed bench run, or there was none. -/
def benchOlder (t : W64) (hours : Nat) (ps : Position) : Bool :=
  match ps.lastBench with
  | none => true
  | some b => decide (hours * 3600000000000 < (t - b).toNat)

/-- R300: the in-service position whose rotation ROT_AGE calls for. -/
def rotationDue (s : State) (h : Nat) : Option Nat :=
  match oldestBench s h ((List.range 72).filter fun i => (getPos s (posKey h i)).status == .inService) with
  | none => none
  | some i => if benchOlder (now s h) (getHall s h).tnkRotAge (getPos s (posKey h i)) then some i else none

/-- BENCH_PERIOD_START (R299, R300). The rotation of the oldest position is requested whether or not runs start. -/
def runBenchPeriod (h : Hall) (s : State) : State :=
  if !dieUp s then s else
    let s := if (getHall s h).tnkActive then endBench s h (periodVerdict (getHall s h)) 0xFFFF 0xFFFF else s
    let s := match if (getHall s h).tnkEnable then benchChoice s h else none with
      | none => s
      | some (i, u) => beginBench s h i u
    modHall s h fun hl => { hl with rotateReq := hl.rotateReq <|> rotationDue s h }

def execBenchPeriodStart (h : Hall) (s : State) : Host.Outcome State Fault Refusal := .next (runBenchPeriod h s)

/-- R298, R511: a round exercises every unit and memory of its position, so it consumes the flips armed there, and the injected mismatch with them;
how far it takes the position's counters the test list of the image decides, which is a free amount for each (log entry 140). A round that is gone
through (`whole`) holds an injected mismatch, the only one where every result matched: it fails at row 0 and column 0 (R292). Of a round that fails,
whether it came so far is free. -/
def roundPos (ps : Position) (whole : Bool) (n : Nat) : Position :=
  let more (i : Nat) (x : W32) : W32 := x + BitVec.ofNat 32 (Config.freeNat (n + i))
  let ecc (i : Nat) (x : Ecc) : Ecc := { ce := satAdd 0xFFFF x.ce (Config.freeNat (n + i)), ue := satAdd 0xFFFF x.ue (Config.freeNat (n + i + 1)) }
  { faultPos ps with
    bandTotal := more 0 ps.bandTotal, feedWait := more 1 ps.feedWait, drnSat := more 2 ps.drnSat, drnNanTile := more 3 ps.drnNanTile,
    wvrMatch := more 4 ps.wvrMatch, wvrQfull := more 5 ps.wvrQfull, wvrDrop := more 6 ps.wvrDrop, lmpActive := more 7 ps.lmpActive,
    lmpSkip := more 8 ps.lmpSkip, glnMadeupCyc := more 9 ps.glnMadeupCyc, fulOdd := more 10 ps.fulOdd, fulBusy := more 11 ps.fulBusy,
    asyPasses := more 12 ps.asyPasses, asyMismatch := more 13 ps.asyMismatch + (if whole then 1 else 0),
    asyLastValid := whole || ps.asyLastValid || Config.freeBool (n + 35),
    asyLastRowValid := whole || Config.freeBool (n + 36), asyLastColValid := whole || Config.freeBool (n + 37),
    asyLastRow := if whole then 0 else Config.freeNat (n + 38) % 256, asyLastCol := if whole then 0 else Config.freeNat (n + 39) % 1024,
    asyUnchecked := more 14 ps.asyUnchecked,
    asyCrcRetry := more 15 ps.asyCrcRetry, asyCrcFail := more 16 ps.asyCrcFail, ctrRd := more 17 ps.ctrRd, ctrWr := more 18 ps.ctrWr,
    ctrNarrow := more 19 ps.ctrNarrow, ctrXmiss := more 20 ps.ctrXmiss,
    drnEcc := ecc 21 ps.drnEcc, wvrEcc := ecc 23 ps.wvrEcc, lmpEcc := ecc 25 ps.lmpEcc, fulEcc := ecc 27 ps.fulEcc,
    asyEcc := ecc 29 ps.asyEcc, ctrEcc := ecc 31 ps.ctrEcc, stoEcc := ecc 33 ps.stoEcc }

/-- BENCH_ROUND (R298, R299): a round matched its golden values, or the run failed at test `test`. -/
def runBenchRound (h : Hall) (matched : Bool) (test : W16) (s : State) : State :=
  let hl := getHall s h
  if dieUp s ∧ hl.tnkActive ∧ 0 < hl.benchGrant then
    let s := { modPos s (posKey h hl.tnkPos) (fun ps => roundPos ps matched s.free) with free := s.free + 40 }
    if matched then modHall s h fun hl => { hl with tnkRounds := satAdd 0xFFFF hl.tnkRounds 1 }
    else endBench s h 2 (hl.tnkRounds + 1) test.toNat
  else s

def execBenchRound (h : Hall) (matched : Bool) (test : W16) (s : State) : Host.Outcome State Fault Refusal :=
  .next (runBenchRound h matched test s)

/-- R467: a request of the hall has waited 2 µs. -/
def benchMustPause (s : State) (h : Nat) : Bool :=
  (getHall s h).requests.any fun r => decide (2000 ≤ (now s h - r.time).toNat)

/-- BENCH_PAUSE (R467): the bench releases its grant and asks again on slack. -/
def runBenchPause (h : Hall) (s : State) : State :=
  if dieUp s ∧ 0 < (getHall s h).benchGrant ∧ benchMustPause s h then
    modHall s h fun hl => { hl with benchGrant := 0, benchSince := now s h }
  else s

def execBenchPause (h : Hall) (s : State) : Host.Outcome State Fault Refusal := .next (runBenchPause h s)

/-- R302: a position that TNK_REQ may name. -/
def reqNameable (s : State) (h i : Nat) : Bool :=
  decide (i < 72) && ((getPos s (posKey h i)).status == .ready || (getPos s (posKey h i)).status == .retired)

/-- TNK_REQ_WRITE (R302, R304). -/
def runTnkReq (h : Hall) (v : W32) (s : State) : State :=
  let i := bitsOf v.toNat 0 7
  if !hostUp s h then s
  else if !bitOf v.toNat 31 then modHall s h fun hl => { hl with tnkReqPending := false, tnkReqPos := BitVec.ofNat 7 i }
  else if reqNameable s h i then modHall s h fun hl => { hl with tnkReqPending := true, tnkReqPos := BitVec.ofNat 7 i }
  else pushEvent s h { code := 0x0303, lockind := 3, loc := posKey h i }

def execTnkReqWrite (h : Hall) (v : W32) (s : State) : Host.Outcome State Fault Refusal := .next (runTnkReq h v s)

/-- ASY_INJECT (R292, R303): a write of ASY_CTL; ENABLE is its bit 0, and INJECT written 1 arms a mismatch of the next verdict. -/
def runAsyInject (h : Hall) (p : Pos) (v : W32) (s : State) : State :=
  if hostUp s h ∧ (getPos s (posKey h p)).status ≠ .hole then
    modPos s (posKey h p) fun ps =>
      { ps with asyEnable := bitOf v.toNat 0, asyInject := ps.asyInject || bitOf v.toNat 31 }
  else s

def execAsyInject (h : Hall) (p : Pos) (v : W32) (s : State) : Host.Outcome State Fault Refusal :=
  .next (runAsyInject h p v s)

end Sys2Proof.Machine
end

