-- ==== Sys2Proof/Machine/Flags.lean ====
section
/-! DEFINITION. The FLAGS of a completion record (R67). -/

namespace Sys2Proof.Machine

/-- R67: the flags of a completion record. -/
structure RecFlags where
  nan : Bool := false
  inf : Bool := false
  sat : Bool := false
  unf : Bool := false
  metaDrop : Bool := false
  banded : Bool := false
  l128Sat : Bool := false
  emptyRow : Bool := false
  infIn : Bool := false
  skipped : Bool := false
  poisonCopied : Bool := false
  deriving DecidableEq, Repr

/-- R67: FLAGS as a number. -/
def RecFlags.toNat (f : RecFlags) : Nat :=
  f.nan.toNat + 2 * f.inf.toNat + 4 * f.sat.toNat + 8 * f.unf.toNat + 16 * f.metaDrop.toNat + 32 * f.banded.toNat
    + 64 * f.l128Sat.toNat + 128 * f.emptyRow.toNat + 256 * f.infIn.toNat + 512 * f.skipped.toNat
    + 1024 * f.poisonCopied.toNat

/-- Flags set by either part of a command. -/
def RecFlags.or (a b : RecFlags) : RecFlags :=
  { nan := a.nan || b.nan, inf := a.inf || b.inf, sat := a.sat || b.sat, unf := a.unf || b.unf,
    metaDrop := a.metaDrop || b.metaDrop, banded := a.banded || b.banded, l128Sat := a.l128Sat || b.l128Sat,
    emptyRow := a.emptyRow || b.emptyRow, infIn := a.infIn || b.infIn, skipped := a.skipped || b.skipped,
    poisonCopied := a.poisonCopied || b.poisonCopied }

end Sys2Proof.Machine
end

