-- ==== Sys2Proof/Machine/Num.lean ====
section
/-! DEFINITION. The number formats (03): exact values, the one rounding mode (R79, R80), the float formats (R90, R91), L128 (R95), X48
(R96), A8 (R85 to R89) and the conversions (R97 to R100). -/

namespace Sys2Proof.Machine

/-! ## Exact values -/

/-- A value of a float format, or an exact result before its rounding: ±m × 2^e, an infinity, or NaN. Zero has a sign. -/
inductive Val
  | nan | inf (neg : Bool) | fin (neg : Bool) (m : Nat) (e : Int)
  deriving DecidableEq, Repr

/-- +0. -/
def vZero : Val := .fin false 0 0

def vIsNan (v : Val) : Bool := match v with
  | .nan => true
  | _ => false

def vIsInf (v : Val) : Bool := match v with
  | .inf _ => true
  | _ => false

def vIsZero (v : Val) : Bool := match v with
  | .fin _ m _ => m == 0
  | _ => false

/-- The sign bit of a value. -/
def vSign (v : Val) : Bool := match v with
  | .nan => false
  | .inf n => n
  | .fin n _ _ => n

def vNeg (v : Val) : Val := match v with
  | .nan => .nan
  | .inf n => .inf !n
  | .fin n m e => .fin (!n) m e

def vAbs (v : Val) : Val := match v with
  | .nan => .nan
  | .inf _ => .inf false
  | .fin _ m e => .fin false m e

/-- m × 2^e as an integer multiple of 2^f, for f ≤ e. -/
def scaleTo (m : Nat) (e f : Int) : Nat := m * 2 ^ (e - f).toNat

/-- A signed magnitude. -/
def signedInt (neg : Bool) (m : Nat) : Int := if neg then -(m : Int) else (m : Int)

/-- An integer times 2^e; zero is +0. -/
def valOfInt (a : Int) (e : Int) : Val := .fin (decide (a < 0)) a.natAbs e

/-- The exact sum (R92): opposite values, and +0 with −0, give +0. -/
def vAdd (a b : Val) : Val :=
  match a, b with
  | .nan, _ => .nan
  | _, .nan => .nan
  | .inf x, .inf y => if x = y then .inf x else .nan
  | .inf x, .fin _ _ _ => .inf x
  | .fin _ _ _, .inf y => .inf y
  | .fin x m e, .fin y n f =>
    if m = 0 ∧ n = 0 then .fin (x && y) 0 0
    else if m = 0 then .fin y n f
    else if n = 0 then .fin x m e
    else
      let g := min e f
      valOfInt (signedInt x (scaleTo m e g) + signedInt y (scaleTo n f g)) g

def vSub (a b : Val) : Val := vAdd a (vNeg b)

/-- The exact product (R92): 0 × ∞ is NaN, and zero keeps the IEEE sign rule. -/
def vMul (a b : Val) : Val :=
  match a, b with
  | .nan, _ => .nan
  | _, .nan => .nan
  | .inf x, .inf y => .inf (x != y)
  | .inf x, .fin y n _ => if n = 0 then .nan else .inf (x != y)
  | .fin x m _, .inf y => if m = 0 then .nan else .inf (x != y)
  | .fin x m e, .fin y n f => .fin (x != y) (m * n) (e + f)

/-- a < b, false where either is NaN; −0 equals +0. -/
def vLt (a b : Val) : Bool :=
  match a, b with
  | .nan, _ => false
  | _, .nan => false
  | .inf x, .inf y => x && !y
  | .inf x, .fin _ _ _ => x
  | .fin _ _ _, .inf y => !y
  | .fin x m e, .fin y n f =>
    let g := min e f
    decide (signedInt x (scaleTo m e g) < signedInt y (scaleTo n f g))

/-- a = b as numbers, false where either is NaN. -/
def vEq (a b : Val) : Bool := !vIsNan a && !vIsNan b && !vLt a b && !vLt b a

def vLe (a b : Val) : Bool := !vIsNan a && !vIsNan b && !vLt b a

/-! ## Rounding (R79) -/

/-- The integer nearest to num / den, the even one on a tie. -/
def rneQuot (num den : Nat) : Nat :=
  let q := num / den
  let r := num % den
  if den < 2 * r then q + 1 else if 2 * r = den then q + q % 2 else q

/-- rne_int of m × 2^e. -/
def rneShift (m : Nat) (e : Int) : Nat := if 0 ≤ e then m * 2 ^ e.toNat else rneQuot m (2 ^ (-e).toNat)

/-- rne_int of a finite value times 2^k. -/
def rneVal (v : Val) (k : Int) : Int :=
  match v with
  | .fin n m e => signedInt n (rneShift m (e + k))
  | _ => 0

/-- The exponent of the leading bit of num / den, both positive. -/
def ratLog (num den : Nat) : Int :=
  let l : Int := (Nat.log2 num : Int) - (Nat.log2 den : Int)
  if 0 ≤ l then (if den * 2 ^ l.toNat ≤ num then l else l - 1)
  else (if den ≤ num * 2 ^ (-l).toNat then l else l - 1)

/-- rne_to(num / den × 2^k, p, emin): an integer and its exponent. -/
def rneRat (num den : Nat) (k : Int) (p : Nat) (emin : Int) : Nat × Int :=
  if num = 0 ∨ den = 0 then (0, emin) else
    let q : Int := max (ratLog num den + k) emin - ((p : Int) - 1)
    let sh := k - q
    (if 0 ≤ sh then rneQuot (num * 2 ^ sh.toNat) den else rneQuot num (den * 2 ^ (-sh).toNat), q)

/-! ## The float formats (R90) -/

/-- A float format: significant bits, exponent bits. -/
structure Fmt where
  p : Nat
  ebits : Nat
  deriving DecidableEq, Repr

def fp32 : Fmt := { p := 24, ebits := 8 }
def bf16 : Fmt := { p := 8, ebits := 8 }
def fp16 : Fmt := { p := 11, ebits := 5 }

def Fmt.bias (f : Fmt) : Int := 2 ^ (f.ebits - 1) - 1
def Fmt.emin (f : Fmt) : Int := 1 - f.bias

/-- R91: the canonical NaN of a format. -/
def Fmt.nan (f : Fmt) : Nat := (2 ^ f.ebits - 1) * 2 ^ (f.p - 1) + 2 ^ (f.p - 2)

def Fmt.signBit (f : Fmt) (neg : Bool) : Nat := if neg then 2 ^ (f.p + f.ebits - 1) else 0

def Fmt.infinity (f : Fmt) (neg : Bool) : Nat := f.signBit neg + (2 ^ f.ebits - 1) * 2 ^ (f.p - 1)

/-- The value of a bit pattern. -/
def Fmt.decode (f : Fmt) (b : Nat) : Val :=
  let frac := bitsOf b 0 (f.p - 1)
  let ex := bitsOf b (f.p - 1) f.ebits
  let neg := bitOf b (f.p + f.ebits - 1)
  if ex = 2 ^ f.ebits - 1 then (if frac = 0 then .inf neg else .nan)
  else if ex = 0 then .fin neg frac (f.emin - (f.p - 1))
  else .fin neg (2 ^ (f.p - 1) + frac) ((ex : Int) - f.bias - (f.p - 1))

/-- The pattern of m × 2^q, already rounded to the format; beyond range gives the infinity of the sign (R80). -/
def Fmt.pack (f : Fmt) (neg : Bool) (m : Nat) (q : Int) : Nat :=
  if m = 0 then f.signBit neg else
    let e := (Nat.log2 m : Int) + q
    if f.bias < e then f.infinity neg
    else if e < f.emin then f.signBit neg + m * 2 ^ (q - (f.emin - (f.p - 1))).toNat
    else f.signBit neg + (e + f.bias).toNat * 2 ^ (f.p - 1)
      + (m * 2 ^ (f.p - 1) / 2 ^ (Nat.log2 m) - 2 ^ (f.p - 1))

/-- An exact value rounded to the format once (R79, R80, R91). -/
def Fmt.encode (f : Fmt) (v : Val) : Nat :=
  match v with
  | .nan => f.nan
  | .inf n => f.infinity n
  | .fin n m e =>
    let r := rneRat m 1 e f.p f.emin
    f.pack n r.1 r.2

/-- A quotient rounded to the format once. -/
def Fmt.encodeRat (f : Fmt) (neg : Bool) (num den : Nat) (k : Int) : Nat :=
  let r := rneRat num den k f.p f.emin
  f.pack neg r.1 r.2

/-- The value of an FP32 pattern. -/
def f32 (b : W32) : Val := fp32.decode b.toNat

/-- An exact value rounded to FP32. -/
def toF32 (v : Val) : W32 := BitVec.ofNat 32 (fp32.encode v)

def f32Zero : W32 := 0
def f32Nan : W32 := 0x7FC00000#32
def f32One : W32 := 0x3F800000#32

def f32IsNan (b : W32) : Bool := vIsNan (f32 b)
def f32IsInf (b : W32) : Bool := vIsInf (f32 b)

def f32Add (a b : W32) : W32 := toF32 (vAdd (f32 a) (f32 b))
def f32Sub (a b : W32) : W32 := toF32 (vSub (f32 a) (f32 b))
def f32Mul (a b : W32) : W32 := toF32 (vMul (f32 a) (f32 b))

/-- One rounding of a × b + c (R93). -/
def f32Fma (a b c : W32) : W32 := toF32 (vAdd (vMul (f32 a) (f32 b)) (f32 c))

/-- IEEE division, rounded once. -/
def vDivTo (f : Fmt) (a b : Val) : Nat :=
  match a, b with
  | .nan, _ => f.nan
  | _, .nan => f.nan
  | .inf _, .inf _ => f.nan
  | .inf x, .fin y _ _ => f.infinity (x != y)
  | .fin x _ _, .inf y => f.signBit (x != y)
  | .fin x m e, .fin y n g =>
    if n = 0 then (if m = 0 then f.nan else f.infinity (x != y))
    else if m = 0 then f.signBit (x != y)
    else f.encodeRat (x != y) m n (e - g)

def f32Div (a b : W32) : W32 := BitVec.ofNat 32 (vDivTo fp32 (f32 a) (f32 b))

/-- The integer square root, by bits from bit `n` down. -/
def isqrtFrom (n x r : Nat) : Nat :=
  match n with
  | 0 => if (r + 1) * (r + 1) ≤ x then r + 1 else r
  | n + 1 => if (r + 2 ^ (n + 1)) * (r + 2 ^ (n + 1)) ≤ x then isqrtFrom n x (r + 2 ^ (n + 1)) else isqrtFrom n x r

def isqrt (x : Nat) : Nat := isqrtFrom (Nat.log2 x / 2 + 1) x 0

/-- A square root with a sticky bit below it: enough for one correct rounding. -/
def sqrtSticky (m : Nat) (e : Int) : Nat × Int :=
  let odd := e % 2
  let m := m * 2 ^ odd.toNat * 2 ^ 120
  let e := e - odd - 120
  let r := isqrt m
  (2 * r + (if r * r = m then 0 else 1), e / 2 - 1)

/-- The correctly rounded square root of FP32. -/
def f32Sqrt (a : W32) : W32 :=
  match f32 a with
  | .nan => f32Nan
  | .inf n => if n then f32Nan else a
  | .fin n m e =>
    if m = 0 then a
    else if n then f32Nan
    else
      let r := sqrtSticky m e
      toF32 (.fin false r.1 r.2)

/-- FP32 to BF16 and FP16, and back (R100). -/
def f32ToBf16 (a : W32) : W16 := BitVec.ofNat 16 (bf16.encode (f32 a))
def f32ToFp16 (a : W32) : W16 := BitVec.ofNat 16 (fp16.encode (f32 a))
def bf16ToF32 (a : W16) : W32 := toF32 (bf16.decode a.toNat)
def fp16ToF32 (a : W16) : W32 := toF32 (fp16.decode a.toNat)

/-! ## The formats' codes (R78) -/

def codeA8 : Nat := 0
def codeFp16 : Nat := 1
def codeBf16 : Nat := 2
def codeFp32 : Nat := 3
def codeW1 : Nat := 4
def codeW2 : Nat := 5
def codeX48 : Nat := 6

/-- The bytes of an element of a float code. -/
def floatBytes (code : Nat) : Nat := if code = 3 then 4 else 2

/-- The float format of a code. -/
def floatFmt (code : Nat) : Fmt := if code = 1 then fp16 else if code = 2 then bf16 else fp32

/-- A float element as FP32. -/
def floatToF32 (code b : Nat) : W32 := if code = 3 then BitVec.ofNat 32 b else toF32 ((floatFmt code).decode b)

/-- FP32 as an element of a float code; a NaN becomes canonical (R91). -/
def f32ToFloat (code : Nat) (a : W32) : Nat := (floatFmt code).encode (f32 a)

/-! ## X48 (R96) -/

/-- The value of an X48. -/
def x48Val (f : W32) (x : W16) : Val :=
  match f32 f with
  | .fin n m e => if m = 0 then .fin n 0 0 else .fin n (m * 2 ^ 16 + x.toNat) (e - 16)
  | v => v

/-- R257: a non-zero magnitude below 2^-149 goes to 2^-149 above 2^-150, and to zero at or below it. -/
def tinyX48 (neg : Bool) (m : Nat) (e : Int) : W32 × W16 :=
  (BitVec.ofNat 32 (fp32.signBit neg + boolNat (vLt (.fin false 1 (-150)) (.fin false m e))), 0)

/-- An exact value as X48 by rne48 (R257): 40 significant bits, no exponent below −126. -/
def toX48 (v : Val) : W32 × W16 :=
  match v with
  | .nan => (f32Nan, 0)
  | .inf n => (BitVec.ofNat 32 (fp32.infinity n), 0)
  | .fin n m e =>
    let r := rneRat m 1 e 40 (-126)
    let t := r.1 / 2 ^ 16
    -- the FP32 plane is the truncated value
    if t = 0 then tinyX48 n m e else
      let lead := Nat.log2 r.1
      if 127 < (lead : Int) + r.2 then (BitVec.ofNat 32 (fp32.infinity n), 0)
      else
        let shift := if 39 < lead then lead - 39 else 0
        let w := r.1 / 2 ^ shift
        (BitVec.ofNat 32 (fp32.pack n (w / 2 ^ 16) (r.2 + shift + 16)), BitVec.ofNat 16 (w % 2 ^ 16))

/-- X48 to FP32 and to BF16, each rounded once (R97, R100). -/
def x48ToF32 (f : W32) (x : W16) : W32 := toF32 (x48Val f x)
def x48ToBf16 (f : W32) (x : W16) : W16 := BitVec.ofNat 16 (bf16.encode (x48Val f x))

/-! ## L128 (R95, R98) -/

def l128Max : Int := 2 ^ 127 - 1
def l128Min : Int := -(2 ^ 127)

/-- An L128 integer kept in range, and whether it saturated. -/
def l128Clamp (a : Int) : Int × Bool :=
  if l128Max < a then (l128Max, true) else if a < l128Min then (l128Min, true) else (a, false)

/-- R98: an L128 element as FP32. -/
def l128ToF32 (a : Int) (tag : Nat) : W32 :=
  if tag = 1 then BitVec.ofNat 32 (fp32.infinity false)
  else if tag = 2 then BitVec.ofNat 32 (fp32.infinity true)
  else if tag = 3 then f32Nan
  else toF32 (valOfInt a (-48))

/-- R97: an FP32 addend as L128, with its tag and whether it saturated. -/
def f32ToL128 (v : W32) : Int × Nat × Bool :=
  match f32 v with
  | .nan => (0, 3, false)
  | .inf n => (0, if n then 2 else 1, false)
  | .fin n m e =>
    let r := l128Clamp (rneVal (.fin n m e) 48)
    (r.1, 0, r.2)

/-- R95: the tag of a sum. -/
def tagSum (a b : Nat) : Nat :=
  if a = 3 ∨ b = 3 then 3
  else if a = 0 then b
  else if b = 0 then a
  else if a = b then a else 3

/-! ## A8 (R85 to R89, R99) -/

/-- R85: the value of an A8 element: a signed byte, its block's sidecar and the tensor scale code. -/
def a8Val (m : Byte) (side : Byte) (t : Int) : Val := valOfInt m.toInt ((side.toNat % 32 : Nat) - 16 + t)

/-- R86: A8 to FP32, exact. -/
def a8ToF32 (m : Byte) (side : Byte) (t : Int) : W32 := toF32 (a8Val m side t)

/-- What a block conversion gives: 32 elements, the sidecar, and the partial-underflow count. -/
structure A8Block where
  m : List Byte
  side : Byte
  lost : Nat
  deriving DecidableEq, Repr

/-- The element code at exponent code `c` (R99). -/
def a8Code (v : Val) (t : Int) (c : Nat) : Int := rneVal v (16 - (c : Int) - t)

/-- The element fits at exponent code `c`; padding and NaN always do. -/
def a8Fits (t : Int) (c : Nat) (x : Val × Bool) : Bool :=
  if x.2 then true else
    match x.1 with
    | .nan => true
    | .inf _ => false
    | v => decide (-128 ≤ a8Code v t c) && decide (a8Code v t c ≤ 127)

/-- R99: the exponent code of a block. -/
def a8Exp (t : Int) (xs : List (Val × Bool)) : Nat :=
  ((List.range 32).find? fun c => xs.all (a8Fits t c)).getD 31

/-- R99: one element: its byte, whether it was clamped, and whether a finite non-zero input became 0. -/
def a8Elem (t : Int) (e : Nat) (x : Val × Bool) : Byte × Bool × Bool :=
  if x.2 then (0, false, false) else
    match x.1 with
    | .nan => (0, false, false)
    | .inf n => (if n then 0x80 else 0x7F, true, false)
    | v =>
      let q := a8Code v t e
      let m := min (max q (-128)) 127
      (BitVec.ofInt 8 m, m != q, !vIsZero v && m == 0)

/-- fp32_to_a8_block (R99); each input with its padding mark. -/
def toA8Block (t : Int) (xs : List (Val × Bool)) : A8Block :=
  let e := a8Exp t xs
  let r := xs.map (a8Elem t e)
  let sat := r.any fun x => x.2.1
  let nan := xs.any fun x => !x.2 && vIsNan x.1
  let nonzero := xs.any fun x => !x.2 && !vIsNan x.1 && !vIsInf x.1 && !vIsZero x.1
  let unf := nonzero && r.all (fun x => x.1 == 0) && !sat
  { m := r.map (·.1),
    side := BitVec.ofNat 8 (if nan then e + 0x60 else e + 0x20 * boolNat sat + 0x40 * boolNat unf),
    lost := (r.filter fun x => x.2.2).length }

end Sys2Proof.Machine
end

