-- ==== Sys2Proof/Machine/Panels.lean ====
section
/-! DEFINITION. Twin panels (04): patterns, layout (R105 to R111), the metadata check (R117), and where a kept entry lands in straight and
transposed placement (R112 to R115). -/

namespace Sys2Proof.Machine

/-! ## Patterns and sizes -/

/-- R105: a pattern k:M with its weft and warp bits. -/
structure Pattern where
  k : Nat
  m : Nat
  weft : Nat
  warp : Nat
  deriving DecidableEq, Repr

/-- R105: the pattern of a code. -/
def patternOf (code : Nat) : Pattern :=
  ([⟨1, 1, 0, 0⟩, ⟨1, 4, 2, 0⟩, ⟨2, 4, 2, 1⟩, ⟨1, 8, 3, 0⟩, ⟨2, 8, 3, 1⟩, ⟨4, 8, 3, 2⟩, ⟨1, 16, 4, 0⟩, ⟨2, 16, 4, 1⟩,
    ⟨4, 16, 4, 2⟩] : List Pattern).getD code ⟨1, 1, 0, 0⟩

/-- R105: codes 0x9 to 0xF are reserved. -/
def patternOk (code : Nat) : Bool := decide (code ≤ 8)

def Pattern.dense (p : Pattern) : Bool := p.m == 1

/-- Metadata bits of a slot. -/
def Pattern.bits (p : Pattern) : Nat := p.weft + p.warp

/-- R105: the logical rows of a panel, Lk. -/
def Pattern.lk (p : Pattern) : Nat := 256 * p.m / p.k

/-- R108: the columns of a panel, C. -/
def panelCols (wfmt : Nat) : Nat := if wfmt = 4 then 1024 else 512

/-- The bits of a code. -/
def codeBits (wfmt : Nat) : Nat := if wfmt = 4 then 1 else 2

/-- R108: the bytes of a column's count record. -/
def countBytes (p : Pattern) : Nat := if p.dense then 0 else 128 / p.k

def countOff (wfmt : Nat) : Nat := 64 + 4 * panelCols wfmt
def codeOff (wfmt : Nat) (p : Pattern) : Nat := countOff wfmt + panelCols wfmt * countBytes p
def metaOff (wfmt : Nat) (p : Pattern) : Nat := codeOff wfmt p + panelCols wfmt * (32 * codeBits wfmt)

/-- R108: the bytes of a panel. -/
def panelSize (wfmt : Nat) (p : Pattern) : Nat := metaOff wfmt p + panelCols wfmt * (32 * p.bits)

/-- R113: the panels of a transposed set, and whether they run along N. -/
def setSize (wfmt : Nat) (p : Pattern) : Nat × Bool :=
  if p.lk < panelCols wfmt then (panelCols wfmt / p.lk, false)
  else (p.lk / panelCols wfmt, decide (panelCols wfmt < p.lk))

/-- R82: the integer that enters the array for a code. -/
def codeWeight (wfmt code : Nat) : Int :=
  if wfmt = 4 then (if code = 0 then -1 else 1) else [(-3 : Int), -1, 1, 3].getD code 0

/-! ## The bytes of a panel -/

/-- Bytes as a number, from an array. -/
def recNat (a : Array Byte) (off len : Nat) : Nat := leNat ((List.range len).map fun i => a.getD (off + i) 0)

/-- The header fields the Loom reads (R111). -/
structure PanelHeader where
  version : Nat
  step : Nat
  kext : Nat
  next : Nat
  deriving DecidableEq, Repr

/-- R110, R111: KEXT above Lk is read as Lk, and NEXT above C as C. -/
def panelHeader (wfmt : Nat) (p : Pattern) (a : Array Byte) : PanelHeader :=
  { version := recNat a 0 4, step := recNat a 4 4, kext := min (recNat a 8 2) p.lk, next := min (recNat a 10 2) (panelCols wfmt) }

/-- The panel scale of a column. -/
def panelScale (a : Array Byte) (c : Nat) : W32 := BitVec.ofNat 32 (recNat a (64 + 4 * c) 4)

/-- The count, code and metadata records of a column as numbers (R109). -/
structure ColumnRec where
  counts : Nat
  codes : Nat
  metas : Nat
  deriving DecidableEq, Repr

def columnRec (wfmt : Nat) (p : Pattern) (a : Array Byte) (c : Nat) : ColumnRec :=
  { counts := recNat a (countOff wfmt + countBytes p * c) (countBytes p),
    codes := recNat a (codeOff wfmt p + 32 * codeBits wfmt * c) (32 * codeBits wfmt),
    metas := recNat a (metaOff wfmt p + 32 * p.bits * c) (32 * p.bits) }

/-- The count of a K-group (R109). -/
def ColumnRec.count (r : ColumnRec) (g : Nat) : Nat := bitsOf r.counts (4 * g) 4

/-- The code of a slot. -/
def ColumnRec.code (r : ColumnRec) (wfmt s : Nat) : Nat := bitsOf r.codes (codeBits wfmt * s) (codeBits wfmt)

/-- The weft index and warp rank of a slot. -/
def ColumnRec.weft (r : ColumnRec) (p : Pattern) (s : Nat) : Nat := bitsOf r.metas (p.bits * s) p.weft
def ColumnRec.warp (r : ColumnRec) (p : Pattern) (s : Nat) : Nat := bitsOf r.metas (p.bits * s + p.weft) p.warp

/-! ## The metadata check (R117) -/

/-- An entry of a panel: its logical row, column, slot, warp rank and code. -/
structure PanelEntry where
  row : Nat
  col : Nat
  slot : Nat
  warp : Nat
  code : Nat
  deriving DecidableEq, Repr

/-- Why an entry was removed. -/
inductive Drop
  | overfull | range | order
  deriving DecidableEq, Repr

/-- The result of the check: the kept entries row by row with columns ascending, the removals with their logical positions, and the
entries claimed by a count but absent from the slots. -/
structure CheckedPanel where
  rows : List (List PanelEntry)
  removed : List (Drop × Nat × Nat)
  absent : Nat
  deriving DecidableEq, Repr

/-- An entry put in its place in weft order; within a K-group weft order is row order. -/
def insertByRow (e : PanelEntry) (l : List PanelEntry) : List PanelEntry :=
  match l with
  | [] => [e]
  | x :: r => if e.row < x.row then e :: x :: r else x :: insertByRow e r

/-- The first of every logical row, in slot order; the rest are duplicates. -/
def splitDuplicates (l : List PanelEntry) (seen : List PanelEntry) : List PanelEntry × List PanelEntry :=
  match l with
  | [] => (seen, [])
  | e :: r =>
    if seen.any (fun x => x.row == e.row) then
      let t := splitDuplicates r seen
      (t.1, e :: t.2)
    else splitDuplicates r (seen ++ [e])

/-- Pass 1 for one column: kept entries, removals and absent claims. -/
structure ColumnCheck where
  kept : List PanelEntry
  removed : List (Drop × Nat × Nat)
  absent : Nat
  deriving DecidableEq, Repr

/-- Pass 1 for the K-groups from `g` on, `n` of them, the first slot being `base`. -/
def checkGroups (wfmt : Nat) (p : Pattern) (r : ColumnRec) (kext next c n g base : Nat) : ColumnCheck :=
  match n with
  | 0 => { kept := [], removed := [], absent := 0 }
  | n + 1 =>
    let cnt := r.count g
    let slots := ((List.range cnt).map fun i => base + i).filter fun s => decide (s ≤ 255)
    let ents := slots.map fun s =>
      { row := g * p.m + r.weft p s, col := c, slot := s, warp := r.warp p s, code := r.code wfmt s : PanelEntry }
    let inside := ents.filter fun e => decide (e.row < kext) && decide (c < next)
    let outside := ents.filter fun e => !(decide (e.row < kext) && decide (c < next))
    let d := splitDuplicates inside []
    let sorted := d.1.foldl (fun l e => insertByRow e l) []
    let more := checkGroups wfmt p r kext next c n (g + 1) (base + cnt)
    { kept := sorted.take p.k ++ more.kept,
      removed := outside.map (fun e => (Drop.range, e.row, e.col)) ++ d.2.map (fun e => (Drop.overfull, e.row, e.col))
        ++ (sorted.drop p.k).map (fun e => (Drop.overfull, e.row, e.col)) ++ more.removed,
      absent := (cnt - slots.length) + more.absent }

/-- A column of a dense panel: every position below KEXT and NEXT. -/
def denseColumn (wfmt : Nat) (r : ColumnRec) (kext next c : Nat) : ColumnCheck :=
  { kept := if c < next then
      (List.range kext).map fun s => { row := s, col := c, slot := s, warp := 0, code := r.code wfmt s : PanelEntry } else [],
    removed := [], absent := 0 }

/-- Pass 1 for one column. -/
def checkColumn (wfmt : Nat) (p : Pattern) (h : PanelHeader) (r : ColumnRec) (c : Nat) : ColumnCheck :=
  if p.dense then denseColumn wfmt r h.kext h.next c
  else checkGroups wfmt p r h.kext h.next c (256 / p.k) 0 0

/-- Pass 2 for one logical row: `h` is the N-group and `i` the place in it. -/
def checkRow (p : Pattern) (h i : Nat) (l : List PanelEntry) : List PanelEntry × List (Drop × Nat × Nat) :=
  match l with
  | [] => ([], [])
  | e :: r =>
    let i := if e.col / p.m = h then i else 0
    let t := checkRow p (e.col / p.m) (i + 1) r
    if p.k ≤ i then (t.1, (.overfull, e.row, e.col) :: t.2)
    else if e.warp ≠ i then (t.1, (.order, e.row, e.col) :: t.2)
    else (e :: t.1, t.2)

/-- Entries spread over their logical rows; within a row in the order of the list. -/
def byRow (n : Nat) (l : List PanelEntry) : Array (List PanelEntry) :=
  l.reverse.foldl (fun a e => a.modify e.row fun r => e :: r) (Array.replicate n [])

/-- R117: check_panel. -/
def checkPanel (wfmt : Nat) (p : Pattern) (a : Array Byte) : CheckedPanel :=
  let h := panelHeader wfmt p a
  let cols := (List.range (panelCols wfmt)).map fun c => checkColumn wfmt p h (columnRec wfmt p a c) c
  let rows := (byRow p.lk (cols.flatMap fun c => c.kept)).toList
  let removed := cols.flatMap fun c => c.removed
  let absent := (cols.map fun c => c.absent).sum
  if p.dense then { rows := rows, removed := removed, absent := absent }
  else
    let two := rows.map fun r => checkRow p 0 0 r
    { rows := two.map (·.1), removed := removed ++ two.flatMap (·.2), absent := absent }

/-- How many entries were removed for a reason. -/
def dropCount (d : Drop) (l : List (Drop × Nat × Nat)) : Nat := (l.filter fun x => x.1 == d).length

/-! ## Placement (R112, R114, R134) -/

/-- R114, R134: the placement of a set that holds a logical position. -/
def placementOf (wfmt : Nat) (p : Pattern) (row col : Nat) : Nat :=
  let g := setSize wfmt p
  if g.1 = 1 then 0 else if g.2 then row / panelCols wfmt else col / p.lk

/-- R112: the physical rows of one slot group, entries given row by row; `cnt` holds the entries already placed in each column. -/
def straightRows (wfmt : Nat) (p : Pattern) (rows : List (List PanelEntry)) (r : Nat) (cnt : Array Nat) : List Entry :=
  match rows with
  | [] => []
  | l :: rest =>
    let cnt := if r % p.m = 0 then Array.replicate (panelCols wfmt) 0 else cnt
    let es := l.map fun e =>
      { k := e.row, row := r / p.m * p.k + cnt.getD e.col 0, col := e.col, w := codeWeight wfmt e.code : Entry }
    es ++ straightRows wfmt p rest (r + 1) (l.foldl (fun a e => a.modify e.col (· + 1)) cnt)

/-- R112: a panel in straight placement. -/
def straightEntries (wfmt : Nat) (p : Pattern) (c : CheckedPanel) : List Entry :=
  straightRows wfmt p c.rows 0 (Array.replicate (panelCols wfmt) 0)

/-- R114: an entry of panel `j` in transposed placement; its contraction position is that of R135. -/
def transposedEntry (wfmt : Nat) (p : Pattern) (j : Nat) (e : PanelEntry) : Entry :=
  let g := setSize wfmt p
  let w := codeWeight wfmt e.code
  if g.1 = 1 then { k := e.col, row := e.col / p.m * p.k + e.warp, col := e.row, w := w }
  else if g.2 then
    { k := j * panelCols wfmt + e.col, row := j * (panelCols wfmt * p.k / p.m) + e.col / p.m * p.k + e.warp,
      col := e.row % panelCols wfmt, w := w }
  else { k := e.col % p.lk, row := (e.col % p.lk) / p.m * p.k + e.warp, col := j * p.lk + e.row, w := w }

/-- R114: what panel `j` of a set gives to placement `i`. -/
def transposedEntries (wfmt : Nat) (p : Pattern) (i j : Nat) (c : CheckedPanel) : List Entry :=
  (c.rows.flatMap fun r => r.filter fun e => placementOf wfmt p e.row e.col == i).map (transposedEntry wfmt p j)

/-- R134: the removals counted in the LOADW of placement `i`. -/
def removedFor (wfmt : Nat) (p : Pattern) (trans : Bool) (i : Nat) (c : CheckedPanel) : Nat × Nat × Nat :=
  let l := if trans then c.removed.filter fun x => placementOf wfmt p x.2.1 x.2.2 == i else c.removed
  (dropCount .overfull l + (if trans ∧ i ≠ 0 then 0 else c.absent), dropCount .range l, dropCount .order l)

/-! ## Dense panels of the A8 and float formats (R132) -/

/-- The columns, and the rows, of a dense panel of a format. -/
def denseDim (wfmt : Nat) : Nat := if wfmt = 0 then 256 else if wfmt = 3 then 32 else 64

/-- R132: the bytes of a dense panel. -/
def densePanelSize (wfmt : Nat) : Nat := if wfmt = 0 then 67584 else if wfmt = 3 then 4096 else 8192

/-- The element at logical row `r` of column `n`. -/
def denseEntry (wfmt : Nat) (a : Array Byte) (trans : Bool) (n r : Nat) : Entry :=
  let k := if trans then n else r
  let col := if trans then r else n
  if wfmt = 0 then
    { k := k, row := k, col := col, w := (a.getD (256 * n + r) 0).toInt, ew := recNat a (65536 + 8 * n + r / 32) 1 % 32 }
  else
    let d := denseDim wfmt
    { k := k, row := k, col := col, w := 0,
      bits := floatToF32 wfmt (recNat a (floatBytes wfmt * (d * n + r)) (floatBytes wfmt)) }

/-- R132: the entries of a dense panel by ascending physical row; a zero of A8 contributes nothing and is left out. -/
def denseEntries (wfmt : Nat) (a : Array Byte) (trans : Bool) : List Entry :=
  let d := denseDim wfmt
  let l := (List.range d).flatMap fun k => (List.range d).map fun c =>
    if trans then denseEntry wfmt a trans k c else denseEntry wfmt a trans c k
  if wfmt = 0 then l.filter fun e => e.w != 0 else l

/-- The bytes of a panel that LOOM.LOADW names. -/
def loadPanelSize (wfmt pattern : Nat) : Nat :=
  if wfmt = 4 ∨ wfmt = 5 then panelSize wfmt (patternOf pattern) else densePanelSize wfmt

/-- R131: G of a LOADW. -/
def loadG (wfmt pattern : Nat) (trans : Bool) : Nat :=
  if (wfmt = 4 ∨ wfmt = 5) ∧ trans then (setSize wfmt (patternOf pattern)).1 else 1

/-- The output columns of a path's placement. -/
def formatCols (wfmt : Nat) : Nat := if wfmt = 4 ∨ wfmt = 5 then panelCols wfmt else denseDim wfmt

end Sys2Proof.Machine
end

