-- ==== Sys2Proof/Machine/Operands.lean ====
section
/-! DEFINITION. Operand forms in the store that several engines share: byte ranges with their bounds and overlap tests, A8 slices (R88, R135),
reads that end a command with poison (R536), and the partial destination of a faulting command (R75). -/

namespace Sys2Proof.Machine

/-- A run of store bytes: its offset and length. -/
abbrev Range := Nat × Nat

/-- A range lies within the store. -/
def inStore (r : Range) : Bool := decide (r.1 + r.2 ≤ storeSize)

/-- Two ranges share a byte. -/
def meets (a b : Range) : Bool := decide (0 < a.2) && decide (0 < b.2) && decide (a.1 < b.1 + b.2) && decide (b.1 < a.1 + a.2)

/-- Some range of one list shares a byte with some range of the other. -/
def anyMeets (a b : List Range) : Bool := a.any fun x => b.any fun y => meets x y

/-- Two ranges of one list share a byte. -/
def selfMeets (l : List Range) : Bool :=
  match l with
  | [] => false
  | x :: r => r.any (meets x) || selfMeets r

/-- A signed 8-bit field of a command (TX, TW, TG). -/
def sfld (c : BitVec 512) (i : Nat) : Int := signed 8 (fld c i 0 8)

/-- R86: a tensor scale code a command may hold. -/
def scaleOk (t : Int) : Bool := decide (-100 ≤ t) && decide (t ≤ 100)

/-! ## Reads -/

/-- Several ranges read in turn. -/
def readRanges (s : State) (p : Nat) (l : List Range) : StoreRead :=
  match l with
  | [] => { st := s, bytes := [], fresh := none }
  | r :: t =>
    let a := storeRead s p r.1 r.2
    let b := readRanges a.st p t
    { st := b.st, bytes := a.bytes ++ b.bytes, fresh := a.fresh <|> b.fresh }

/-- The bytes without their marks, as an array. -/
def dataArray (l : List (Byte × Bool)) : Array Byte := (l.map (·.1)).toArray

/-- A byte of the list is poisoned. -/
def anyPoison (l : List (Byte × Bool)) : Bool := l.any (·.2)

/-! ## A8 slices (R88) -/

/-- The elements of an A8 slice of `n` elements from element `koff` of the tile at `base`: one range for each tile. -/
def a8ElemRanges (base koff n : Nat) : List Range :=
  if n = 0 then [] else
    (List.range ((koff + n - 1) / 1024 + 1 - koff / 1024)).map fun i =>
      let t := koff / 1024 + i
      let lo := max koff (1024 * t)
      let hi := min (koff + n) (1024 * t + 1024)
      (base + 1056 * t + lo % 1024, hi - lo)

/-- The sidecars of the blocks of that slice. -/
def a8SideRanges (base koff n : Nat) : List Range :=
  if n = 0 then [] else
    (List.range ((koff + n - 1) / 1024 + 1 - koff / 1024)).map fun i =>
      let t := koff / 1024 + i
      let lo := max koff (1024 * t)
      let hi := min (koff + n) (1024 * t + 1024)
      (base + 1056 * t + 1024 + lo % 1024 / 32, (hi - 1) % 1024 / 32 + 1 - lo % 1024 / 32)

/-- The bytes an engine reads of an A8 slice. -/
def a8Ranges (base koff n : Nat) : List Range := a8ElemRanges base koff n ++ a8SideRanges base koff n

/-- An element read as an operand: an A8 byte with its block's exponent code, or a float as FP32, with its poison. -/
structure Elem where
  m : Int := 0
  e : Nat := 0
  bits : W32 := 0
  poison : Bool := false
  deriving DecidableEq, Repr

/-- What reading a row of operands gives. -/
structure ElemRead where
  st : State
  els : List Elem

/-- A8 elements from their bytes and the sidecar bytes of their blocks. -/
def a8Elems (els sides : List (Byte × Bool)) : List Elem :=
  els.mapIdx fun i x =>
    let sd := sides.getD (i / 32) (0, false)
    { m := x.1.toInt, e := sd.1.toNat % 32, poison := x.2 || sd.2 }

/-- Float elements of a format code from their bytes. -/
def floatElems (code : Nat) (bs : List (Byte × Bool)) : List Elem :=
  (chunksOf (floatBytes code) bs).map fun c => { bits := floatToF32 code (leNat (c.map (·.1))), poison := anyPoison c }

/-- An A8 slice read (R88); `koff` is a multiple of 32. -/
def readA8 (s : State) (p base koff n : Nat) : ElemRead :=
  let a := readRanges s p (a8ElemRanges base koff n)
  let b := readRanges a.st p (a8SideRanges base koff n)
  { st := b.st, els := a8Elems a.bytes b.bytes }

/-- Float elements of a format code from `base`. -/
def readFloats (s : State) (p base code n : Nat) : ElemRead :=
  let a := storeRead s p base (floatBytes code * n)
  { st := a.st, els := floatElems code a.bytes }

/-- The value of an A8 or float element as FP32, under the tensor scale code `t`. -/
def Elem.toF32 (a8 : Bool) (t : Int) (x : Elem) : W32 :=
  if a8 then Machine.toF32 (valOfInt x.m ((x.e : Int) - 16 + t)) else x.bits

/-- The bytes of a row of `n` elements of a format. -/
def rowRanges (fmt base n : Nat) : List Range := if fmt = 0 then a8Ranges base 0 n else [(base, floatBytes fmt * n)]

/-- A row of `n` elements of a format read as operands. -/
def readRow (s : State) (p fmt base n : Nat) : ElemRead :=
  if fmt = 0 then readA8 s p base 0 n else readFloats s p base fmt n

/-! ## Writes -/

/-- Bytes to be written at a store offset. -/
abbrev Piece := Nat × List (Byte × Bool)

/-- Every piece written. -/
def putPieces (s : State) (p : Nat) (l : List Piece) : State := l.foldl (fun s x => storeWrite s p x.1 x.2) s

/-- R75: of a faulting command's bytes each may or may not have been written; a byte written with poison has been (R169). -/
def putPartialBytes (s : State) (p off : Nat) (bs : List (Byte × Bool)) : State :=
  match bs with
  | [] => s
  | b :: r =>
    let (n, s) := takeFree s
    putPartialBytes (if b.2 || Config.freeBool n then storeWrite s p off [b] else s) p (off + 1) r

/-- R75 for every piece. -/
def putPartial (s : State) (p : Nat) (l : List Piece) : State := l.foldl (fun s x => putPartialBytes s p x.1 x.2) s

/-- R75, R192: bytes of which each may or may not have been written, whether poisoned or not. -/
def putFreeBytes (s : State) (p off : Nat) (bs : List (Byte × Bool)) : State :=
  match bs with
  | [] => s
  | b :: r =>
    let (n, s) := takeFree s
    putFreeBytes (if Config.freeBool n then storeWrite s p off [b] else s) p (off + 1) r

/-- R75, R192 for every piece. -/
def putFree (s : State) (p : Nat) (l : List Piece) : State := l.foldl (fun s x => putFreeBytes s p x.1 x.2) s

/-- R75: what a faulting command did for each item of a list, or did not do, by a free choice; it did it for the items marked `sure`. -/
def freeSome {α : Type} (s : State) (sure : α → Bool) (l : List α) : State × List α :=
  match l with
  | [] => (s, [])
  | x :: r =>
    let f := takeFree s
    let t := freeSome f.2 sure r
    (t.1, if sure x || Config.freeBool f.1 then x :: t.2 else t.2)

/-- The bytes of the pieces as they were. -/
def restoreBytes (was t : Tab SByte) (l : List Piece) : Tab SByte :=
  l.foldl (fun t x => (List.range x.2.length).foldl (fun t i => tabSet {} (x.1 + i) (tabGet {} was (x.1 + i)) t) t) t

/-- R75: the bytes a command wrote as they were when it started, and then each of them written or not. -/
def rollback (was : Position) (s : State) (p : Nat) (l : List Piece) : State :=
  putFree (modPos s p fun ps => { ps with store := restoreBytes was.store ps.store l, records := was.records }) p l

/-- The range a piece covers. -/
def Piece.range (x : Piece) : Range := (x.1, x.2.length)

/-- R169: the bytes of the pieces that lie in a 64-byte store line of `lines` are poisoned. DESIGN CHOICE (log entry 144): bytes of such a line that
the command does not write stay as they are. -/
def poisonLines (lines : List Nat) (l : List Piece) : List Piece :=
  l.map fun x => (x.1, x.2.mapIdx fun i b => (b.1, b.2 || lines.contains ((x.1 + i) / 64)))

/-- The store lines of a range; those of poisoned bytes. -/
def linesOf (r : Range) : List Nat := (List.range ((r.1 + r.2 - 1) / 64 + 1 - r.1 / 64)).map fun i => r.1 / 64 + i

def poisonedLines (l : List Piece) : List Nat :=
  (l.flatMap fun x => (x.2.mapIdx fun i b => if b.2 then [(x.1 + i) / 64] else []).flatten).eraseDups

/-- R191, R238: lines written from poisoned values are written with poison. -/
def spreadPoison (l : List Piece) : List Piece := poisonLines (poisonedLines l) l

/-- The pieces write this byte, with this poison mark, at this offset. -/
def writesByte (l : List Piece) (off : Nat) (b : Byte × Bool) : Bool :=
  l.any fun x => decide (x.1 ≤ off) && x.2[off - x.1]? == some b

/-! ## The Fuller's busy count -/

/-- R261: cycles in which a VQ command was executing. -/
def addBusy (s : State) (p cycles : Nat) : State := modPos s p fun ps => { ps with fulBusy := ps.fulBusy + BitVec.ofNat 32 cycles }

/-- R261: a run whose length is not fixed (R239's slot waits, or a fault) adds a free count. -/
def freeBusy (s : State) (p : Nat) : State :=
  let (n, s) := takeFree s
  addBusy s p (Config.freeNat n)

/-! ## Engine ECC -/

/-- The bits a flip mask inverts. -/
def Flip.bits (f : Flip) : Nat := popCount f.data 16 + popCount f.check 9

/-- R423: an uncorrectable error in an engine's state. -/
def raiseEngineUe (s : State) (p : Nat) : State := raise s (p / 72) 21 1 { code := 0x0202, lockind := 3, loc := p }

end Sys2Proof.Machine
end

