-- ==== Sys2Proof/Machine/Swap.lean ====
section
/-! DEFINITION. Swap windows (R29 to R35, R289, R291): which swap a window makes, its effect, and its close. -/

namespace Sys2Proof.Machine

/-- R30: the ready spare with the fewest hops to a position, the lowest index breaking a tie. DESIGN CHOICE (log entry 130): a core with no position
(POS 127) is measured from column 0 of row 8; the manual gives it no position to measure from. -/
def nearestSpare (s : State) (h i : Nat) : Option Nat :=
  ((List.range 72).filter fun x => isSpare (getPos s (posKey h x)) && !swapTarget s h x).foldl (fun best x => match best with
    | none => some x
    | some b => if hops x i < hops b i then some x else some b) none

/-- R59: the four queues of a logical core are in MARK. -/
def allMarked (s : State) (n : Nat) : Bool := (List.range 4).all fun i => (getQueue s (4 * n + i)).state == .mark

/-- R29: an earlier fenced core whose window of the same number is open for its repair goes first. -/
def earlierRepair (s : State) (n : Nat) : Bool :=
  ((getHall s (n / 64)).fencedOrder.takeWhile fun x => x != n).any fun x =>
    allMarked s x && (getCore s x).swap.isNone && (getCore s x).window == (getCore s n).window

/-- R29: what the hall of logical core `n` has done in the windows of the number in which `n` stands. -/
def windowUse (s : State) (n : Nat) : WindowUse :=
  match (getCore s n).window with
  | none => {}
  | some w => tabGet {} (getHall s (n / 64)).windows w.toNat

/-- R29: a swap of logical core `n` counted in the window number in which it stands. -/
def countSwap (s : State) (n : Nat) (f : WindowUse → WindowUse) : State :=
  match (getCore s n).window with
  | none => s
  | some w => modHall s (n / 64) fun hl => { hl with windows := tabSet {} w.toNat (f (tabGet {} hl.windows w.toNat)) hl.windows }

/-- A window opens on a core with no swap of its own (R34), or with one. -/
def openWindow (s : State) (n old new cause : Nat) (swapped : Bool) : State :=
  modCore s n fun c =>
    { c with swap := some { start := now s (n / 64), old := old, new := new, cause := cause, swapped := swapped } }

/-- R129, R153, R198: what a swap empties; the Gleaner's state stands (R206). -/
def emptyAtSwap (c : LCore) : LCore :=
  { c with plane0 := none, plane1 := none, acc := none, slot0 := none, slot1 := none, proj := none, bitmap := none,
           track := { c.track with plane0 := none, plane1 := none, acc := none, slot0 := none, slot1 := none, projOpen := none,
                                   projHeld := none, bitmap := none } }

/-- R289: what becomes of the position whose checksum failed, at its repair swap. -/
def benchAfterAssay (s : State) (h i : Nat) : State :=
  let ps := getPos s (posKey h i)
  let hl := getHall s h
  let earlier := ps.assays - (if ps.assayLogged then 1 else 0)
  let s := modPos s (posKey h i) fun ps =>
    { ps with status := .ready, fenced := false, assayFence := false, assayLogged := false }
  if 1 ≤ earlier then retirePosition s h i 2 0xFFFF 0xFFFF
  else if hl.tnkActive ∧ hl.benchUnder289 ∨ !hl.tnkEnable then
    holdForBench s h i
  else
    beginBench (if hl.tnkActive then endBench s h 3 0 0 else s) h i true

/-- R32, R511: the store of a position cleared, as a spare's is at its repair swap: every byte written zero with valid check bits, every record's VALID
0. An armed STW_STO_FLIP acts on the lowest byte. -/
def clearStore (ps : Position) : Position := storeRaw { ps with store := [], records := [] } 0 [(0, false)]

/-- R32, R289: a repair swap of logical core `n`, whose window is open, to position `t`. -/
def repairSwap (s : State) (n t : Nat) : State :=
  let h := n / 64
  let old := (getCore s n).pos
  let s := modPos s (posKey h t) fun ps => { clearStore ps with status := .inService }
  let s := countSwap s n fun u => { u with repairs := u.repairs + 1 }
  let s := modCore s n fun c =>
    { emptyAtSwap c with pos := t, fenced := false, swap := c.swap.map fun w => { w with new := t, cause := 0, swapped := true } }
  let s := modHall s h fun hl =>
    { forgetPos hl old with fencedOrder := hl.fencedOrder.filter fun x => x != n }
  if old < 72 then
    if (getPos s (posKey h old)).status = .inService then
      if (getPos s (posKey h old)).assayFence then benchAfterAssay s h old
      else modPos s (posKey h old) fun ps => { ps with status := .ready, fenced := false }
    else s
  else s

/-! ## The store copy of a rotation (R31, R294 to R297) -/

/-- R296, R297: the bytes of an aligned 4 KiB block as a Carter or swap copy reads them: checked against a VALID record, with the
second read; a mismatch that stands delivers every line poisoned. -/
structure BlockRead where
  st : State
  bytes : List (Byte × Bool)
  fresh : Option Nat
  failed : Bool

/-- R296, R297: the read of the first `n` bytes of a block, checked against the block's record; after a mismatch it is read once more. -/
def readBlockOf (s : State) (p blk n : Nat) : BlockRead :=
  let rd := storeRead s p (4096 * blk) n
  let rec' := recordValue rd.st p blk
  match rec'.1 with
  | none => { st := rec'.2, bytes := rd.bytes, fresh := rd.fresh, failed := false }
  | some v =>
    if crc32c (rd.bytes.map (·.1)) = v then { st := rec'.2, bytes := rd.bytes, fresh := rd.fresh, failed := false }
    else
      let again := storeRead rec'.2 p (4096 * blk) n
      if crc32c (again.bytes.map (·.1)) = v then
        { st := modPos again.st p fun ps => { ps with asyCrcRetry := ps.asyCrcRetry + 1 },
          bytes := again.bytes, fresh := rd.fresh <|> again.fresh, failed := false }
      else
        { st := modPos again.st p fun ps => { ps with asyCrcFail := ps.asyCrcFail + 1 },
          bytes := again.bytes.map fun b => (b.1, true), fresh := rd.fresh <|> again.fresh, failed := true }

/-- R296: the checked read of a whole block, 4,096 bytes. -/
def readBlock (s : State) (p blk : Nat) : BlockRead := readBlockOf s p blk 4096

/-- R297: EV_CRC, with the hop, the transfer's job context and queue, and the source address. -/
def raiseCrc (s : State) (h : Nat) (hop : Nat) (job : Option Nat) (lockind loc addr : Nat) : State :=
  raise s h 5 2 { code := 0x0105, job := job, lockind := lockind, loc := loc, payload := leBytes 1 hop ++ leBytes 6 addr }

/-- R296: a whole block written by a swap or Carter copy, with a value that checks; the record takes its block check value. -/
def writeBlock (s : State) (p blk : Nat) (bs : List (Byte × Bool)) : State :=
  modPos s p fun ps => setRecord (storeRaw ps (4096 * blk) bs) blk (crc32c (bs.map (·.1)))

/-- R363, R367: the stop of a position accepts a packet addressed to the core: in service and not fenced; of the packets of a swap, those to a ready
spare too (log entry 134). Every other core stop, or the last router before a hole, answers FENCED. -/
def stopAccepts (ps : Position) : Bool := (ps.status == .inService && !ps.fenced) || ps.status == .ready

/-- R363: a read answered FENCED is delivered with every line poisoned; its bytes are free. -/
def fencedRead (s : State) (n : Nat) : BlockRead :=
  let (bs, s) := freeBytes s n
  { st := s, bytes := bs.map fun b => (b, true), fresh := none, failed := false }

/-- What arrives of a segment: its bytes, `lost` telling that a packet of it never did. -/
structure Sent where
  st : State
  bytes : List (Byte × Bool)
  lost : Bool

/-- R353, R368, R369: a segment sent as packets of at most 16 flits of 128 bytes from one stop to another, each a transaction of its own; of a lost
one the destination keeps each byte as it was or as sent. `old` is what stands there. -/
def sendPackets (s : State) (src dst : Nat) (old l : List (List (Byte × Bool))) : Sent :=
  match old, l with
  | o :: old, x :: r =>
    let (f, s) := sendNumbered s .vc2 src dst 0 x
    let a := if f = .lost then { st := { s with free := s.free + x.length }, bytes := partialBytes s.free o x } else transit s 0 .vc2 src dst 0 x
    let s := if f = .lost then a.st else (transit a.st 1 .vc2 dst src 0 []).st
    let b := sendPackets s src dst old r
    { st := b.st, bytes := a.bytes ++ b.bytes, lost := decide (f = .lost) || b.lost }
  | _, _ => { st := s, bytes := [], lost := false }

/-- R294, R295, R297: a segment sent over the mesh to the stop of position `t`, checked there, and sent once more on a mismatch. What arrives of
a segment with a lost packet is not checked. -/
def sendSegment (s : State) (src t : Nat) (old bs : List (Byte × Bool)) : Sent × Bool :=
  let a := sendPackets s src (posStop t) (chunksOf 2048 old) (chunksOf 2048 bs)
  if a.lost || sameCheck a.bytes bs then (a, false) else
    let b := sendPackets a.st src (posStop t) (chunksOf 2048 old) (chunksOf 2048 bs)
    if b.lost then (b, false)
    else if sameCheck b.bytes bs then ({ b with st := countCrc b.st (posStop t) 0 false }, false)
    else ({ b with st := countCrc b.st (posStop t) 0 true, bytes := poisonAll b.bytes }, true)

/-- R31, R294 to R297: one block copied from position `p` to position `t` for job context `job`, as one segment. A mismatch that stands at the
read-out or on arrival is reported, and the block arrives poisoned. One with a lost packet is stored as it arrived, with no
record. -/
def copyBlock (s : State) (p t : Nat) (job : Option Nat) (n blk : Nat) : State :=
  let r := if stopAccepts (getPos s p) then readBlock s p blk else fencedRead s 4096
  let s := if r.failed then raiseCrc r.st (p / 72) 3 job 7 n (4096 * blk) else r.st
  let g := sendSegment s (posStop p) t (storeRead s t (4096 * blk) 4096).bytes r.bytes
  let s := if g.2 then raiseCrc g.1.st (p / 72) 1 job 7 n (4096 * blk) else g.1.st
  if !stopAccepts (getPos s t) then s
  else if r.failed || g.2 || g.1.lost then storeWrite s t (4096 * blk) g.1.bytes
  else writeBlock s t blk g.1.bytes

/-- R31: the whole 3 MiB store. -/
def copyStore (s : State) (p t : Nat) (job : Option Nat) (n : Nat) : State :=
  (List.range 768).foldl (fun s blk => copyBlock s p t job n blk) s

/-- The owner of a logical core. -/
def ownerJob (s : State) (n : Nat) : Option Nat := if (getOwn s n).owned then some (getOwn s n).job.toNat else none

/-- R33: the store copy of a rotation begins; its window holds it until the close. -/
def beginRotation (s : State) (n t : Nat) : State :=
  let s := openWindow s n (getCore s n).pos t 1 false
  countSwap (modCore s n fun c => { c with swap := c.swap.map fun w => { w with copying := true } }) n
    fun u => { u with rotations := u.rotations + 1 }

/-- R31, R35: the copy of a rotation has ended: logical core `n` is mapped to its target, and the source becomes a spare awaiting its bench run. -/
def rotationSwap (s : State) (n : Nat) (w : SwapRun) : State :=
  let h := n / 64
  let s := copyStore s (posKey h w.old) (posKey h w.new) (ownerJob s n) n
  let s := modPos s (posKey h w.new) fun ps => { ps with status := .inService }
  let s := modPos s (posKey h w.old) fun ps => { ps with status := .ready }
  let s := modCore s n fun c => { emptyAtSwap c with pos := w.new, swap := some { w with swapped := true, copying := false } }
  modHall s h fun hl => { hl with rotateReq := if hl.rotateReq = some w.old then none else hl.rotateReq }

/-- R34: a repair is pending, and no spare is ready. -/
def noSpare (s : State) (n : Nat) : State := raise s (n / 64) 30 1 { code := 0x0007, job := ownerJob s n, lockind := 7, loc := n }

/-- R31, R33: how the store copy of a rotation ends. Where the source has become fenced the window is completed as a repair swap; where the target has
failed the swap is abandoned and the target retired. -/
def endRotation (s : State) (n : Nat) : State :=
  let h := n / 64
  match (getCore s n).swap with
  | none => s
  | some w =>
    if !w.copying then s
    else if (getCore s n).fenced then
      let s := modCore s n fun c => { c with swap := some { w with cause := 0, copying := false } }
      match nearestSpare s h (getCore s n).pos with
      | some t => repairSwap s n t
      | none => noSpare s n
    else if (getPos s (posKey h w.new)).status = .ready then rotationSwap s n w
    else retireTarget (modCore s n fun c => { c with swap := some { w with copying := false } }) h w.new

/-- R29: a repair swap will be made in the window in which logical core `n` stands, or may still be: a core fenced in its hall stands in that window,
or in none yet (log entry 177). -/
def repairWaits (s : State) (n : Nat) : Bool :=
  (getHall s (n / 64)).fencedOrder.any fun x => (getCore s x).window.isNone || (getCore s x).window == (getCore s n).window

/-- R29: a repair takes precedence: a rotation whose store copy still runs in the window in which logical core `n` stands is given up, and its
window closes with no swap (log entry 177). -/
def giveUpRotation (s : State) (n : Nat) : State :=
  ((List.range 64).map fun i => 64 * (n / 64) + i).foldl (fun s x =>
    if x ≠ n ∧ (getCore s x).window.isSome ∧ (getCore s x).window = (getCore s n).window ∧ (getCore s x).swap.any fun w => w.copying then
      countSwap (modCore s x fun c => { c with swap := c.swap.map fun w => { w with copying := false } }) x
        fun u => { u with rotations := u.rotations - 1 }
    else s) s

/-- R29, R291: this window rotates the position of logical core `n`. A core with no owner is rotated at any time (R27). -/
def rotates (s : State) (n : Nat) : Bool :=
  let h := n / 64
  let hl := getHall s h
  let i := (getCore s n).pos
  let first291 := (List.range 72).any fun x =>
    (getPos s (posKey h x)).status == .inService && (getPos s (posKey h x)).benchReq291
  let use := windowUse s n
  use.repairs == 0 && use.rotations == 0 && !repairWaits s n
    && ((getPos s (posKey h i)).benchReq291 || (!first291 && hl.rotateReq == some i))

/-- R27, R59: a window can open on logical core `n`: its four queues are in MARK, or no job context owns it and no queue of it is enabled. -/
def windowDue (s : State) (n : Nat) : Bool := allMarked s n || (!(getOwn s n).owned && coreDisabled s n)

/-- SWAP_WINDOW_OPEN (R27, R29 to R34): the Steward makes a repair swap, begins the copy of a rotation, or makes none. -/
def runSwapOpen (n : Core) (s : State) : State :=
  let c := getCore s n
  let h := n.val / 64
  if !dieUp s ∨ !windowDue s n ∨ c.swap.isSome then s
  else if c.fenced then
    if earlierRepair s n then s else
      match nearestSpare s h c.pos with
      | some t => repairSwap (openWindow (giveUpRotation s n) n c.pos t 0 false) n t
      | none => noSpare (openWindow s n c.pos c.pos 0 false) n
  else
    match if rotates s n then nearestSpare s h c.pos else none with
    | some t => beginRotation s n t
    | none => openWindow s n c.pos c.pos 1 false

def execSwapWindowOpen (n : Core) (s : State) : Host.Outcome State Fault Refusal := .next (runSwapOpen n s)

/-! ## The close (R35, R59, R73, R434) -/

/-- The state a queue takes as its marker completes: HALT_FAULT after a repair swap or a kill that met the window, FENCED where no
spare was ready, otherwise on to its next command. -/
def stateAtClose (c : LCore) (w : SwapRun) : QState :=
  if c.fenced then .fenced
  else if c.killOrigin.isSome ∨ (w.swapped ∧ w.cause = 0) then .haltFault
  else .run

/-- R71: a queue halted at the close has the SSEMs of its unstarted commands still to mark. -/
def noteUnstarted (s : State) (k : Nat) (o : Origin) : State :=
  modQueue s k fun q => { q with markings := q.markings ++ [{ sems := [], first := q.cmplSeq, upto := q.prod, origin := o }] }

/-- R59, R73, R434: one of the four markers completes, while the window still holds the others in MARK. -/
def closeMarker (s : State) (n : Nat) (w : SwapRun) (i : Nat) : State :=
  let k := 4 * n + i
  let c := getCore s n
  match headOf s k with
  | none => s
  | some f =>
    if (getQueue s k).state ≠ .mark then s else
    let st := stateAtClose c w
    let s := completeDone (modQueue s k fun q => { q with state := st }) k f 0 []
    let s := if i = 0 then modCore s n fun c =>
        { c with slot0 := none, slot1 := none, proj := none, bitmap := none } else s
    if st = .haltFault then
      let s := emptyAtHalt s k
      match c.killOrigin with
      | some o =>
        let s := modQueue s k fun q => { q with haltSeq := q.cmplSeq, origin := o }
        noteUnstarted (evDiscard s k (some o) .haltFault (getQueue s k).cmplSeq) k o
      | none => noteUnstarted s k (getQueue s k).origin
    else s

/-- SWAP_WINDOW_CLOSE (R33, R35, R59): a rotation's copy ends, the four markers complete DONE, the swap is counted and EV_CORE_SWAP written. -/
def runSwapClose (n : Core) (s : State) : State :=
  if !dieUp s then s else
  let s := endRotation s n
  match (getCore s n).swap with
  | none => s
  | some w =>
      let h := n.val / 64
      let s := if w.swapped then
          pushEvent (modHall s h fun hl => { hl with swapCount := hl.swapCount + 1 }) h
            { code := 0x0006, job := ownerJob s n, lockind := 7, loc := n,
              payload := leBytes 1 (if w.old < 72 then w.old else 127) ++ leBytes 1 w.new ++ leBytes 1 w.cause
                ++ leBytes 4 ((now s h - w.start).toNat / 1000) }
        else s
      let s := (List.range 4).foldl (fun s i => closeMarker s n w i) s
      modCore s n fun c => { c with swap := none, window := none, killOrigin := none }

def execSwapWindowClose (n : Core) (s : State) : Host.Outcome State Fault Refusal := .next (runSwapClose n s)

end Sys2Proof.Machine
end

