-- ==== Sys2Proof/Machine/Carter.lean ====
section
/-! DEFINITION. The Carter (chapter 13): descriptors and their checks (R305 to R311), runs and paths (R313 to R315), the copy with its
poison and faults (R316 to R320), and CTR.COPY, CTR.FILL and CTR.PERMUTE. -/

namespace Sys2Proof.Machine

/-! ## Reading the source -/

/-- An element's bytes as delivered, whether it is poisoned (R318), whether its segment failed its check (R297), and whether the buffer gave it back other
than it came, so that its carried value does not fit (R295). -/
structure CElem where
  bytes : List Byte := []
  poison : Bool := false
  failed : Bool := false
  wrong : Bool := false
  deriving DecidableEq, Repr

/-- The fault that ends a Carter command, with its address; for a failed check the row of R295's table too (log entry 101). -/
inductive CFault
  | xfail (f : XFail) (va : Nat) (write : Bool) | ue (va : Nat) | crc (hop addr : Nat)
  deriving DecidableEq, Repr

/-- Who a Carter command reads and writes for. -/
structure Cart where
  k : Nat
  p : Nat
  ctx : Ctx
  seq : W32

/-- One access read. -/
structure AccessRead where
  st : State
  bytes : List (Byte × Bool)
  stop : Option CFault
  fresh : Option CFault
  failed : Bool := false

/-- R295 to R297, R319: one segment read. -/
def readAccess (s : State) (w : Cart) (x : CDesc) (lo len : Nat) : AccessRead :=
  if x.store then
    if lo % 4096 = 0 ∧ len = 4096 then
      let r := readBlock s w.p (lo / 4096)
      { st := r.st, bytes := r.bytes, stop := none,
        fresh := if r.failed then some (.crc 3 lo) else r.fresh.map .ue, failed := r.failed }
    else
      let r := storeRead s w.p lo len
      { st := r.st, bytes := r.bytes, stop := none, fresh := r.fresh.map .ue }
  else
    let r := vaRead s w.ctx lo len .carter
    { st := modPos r.st w.p fun ps => { ps with ctrXmiss := ps.ctrXmiss + BitVec.ofNat 32 r.misses },
      bytes := r.bytes, stop := r.stop.map fun y => .xfail y.1 y.2 false,
      fresh := r.fresh.map .ue <|> r.bad.head?.map (.crc 1), failed := !r.bad.isEmpty }

/-- The element at offset `o` of an access. -/
def elemAt (es : Nat) (bytes : Array (Byte × Bool)) (failed : Bool) (o : Nat) (came : Array (Byte × Bool)) : CElem :=
  let l := (List.range es).map fun i => bytes.getD (o + i) (0, false)
  let was := (List.range es).map fun i => came.getD (o + i) (0, false)
  { bytes := l.map (·.1), poison := l.any (·.2), failed := failed, wrong := l.map (·.1) != was.map (·.1) }

/-- The source so far: what each walk index delivered, and the fault that stopped the reads with the walk indices of the segment it met. -/
structure Source where
  st : State
  els : Array (Option CElem)
  fault : Option (CFault × List Nat) := none

/-- R325, R511: an armed CTR_FLIP acts on the first word of an access written to the buffer. Answers the access, and the fault if the
word is uncorrectable. Three wrong bits or more that the decoder takes for one leave a further bit wrong. -/
def flipBuffer (s : State) (p lo es : Nat) (bytes : List (Byte × Bool)) : AccessRead :=
  let f := (getPos s p).ctrFlip
  if !f.arm then { st := s, bytes := bytes, stop := none, fresh := none }
  else
    let (n, s) := if f.bits ≤ 2 then (0, s) else takeFree s
    let s := modPos s p fun ps => { ps with ctrFlip := { ps.ctrFlip with arm := false } }
    let wrong := bytes.mapIdx fun i b => if i < 2 then (b.1 ^^^ BitVec.ofNat 8 (f.data >>> (8 * i)), b.2) else b
    match eccOutcome f.bits (Config.freeNat n) with
    | .clean => { st := s, bytes := wrong, stop := none, fresh := none }
    | .corrected =>
      { st := raiseQuiet (modPos s p fun ps => { ps with ctrEcc := ps.ctrEcc.addCe }) (p / 72) 20,
        bytes := if f.bits = 1 then bytes else flipBit 0 (Config.freeNat n / 3 % 72) wrong, stop := none, fresh := none }
    | .uncorrectable =>
      { st := raiseEngineUe (modPos s p fun ps => { ps with ctrEcc := ps.ctrEcc.addUe }) p,
        bytes := wrong.mapIdx fun i b => (b.1, b.2 || decide (i < max 8 es)), stop := none, fresh := some (.ue lo) }

/-- R319, R320: the next segment, none after one that stopped the command; one with an uncorrectable error or a failed check is delivered. -/
def readStep (w : Cart) (x : CDesc) (a : Source) (l : List (Nat × Nat)) : Source :=
  if a.fault.isSome then a else
    let lo := accessLow l
    let len := l.length * x.es
    let r := readAccess a.st w x lo len
    match r.stop with
    | some f => { a with st := r.st, fault := some (f, l.map (·.1)) }
    | none =>
      let b := flipBuffer r.st w.p lo x.es r.bytes
      let arr := b.bytes.toArray
      let came := if b.fresh.isSome then arr else r.bytes.toArray
      let fault := r.fresh <|> b.fresh
      { st := modPos b.st w.p fun ps => { ps with ctrRd := ps.ctrRd + BitVec.ofNat 32 len },
        els := l.foldl (fun (els : Array (Option CElem)) e => els.setIfInBounds e.1 (some (elemAt x.es arr r.failed (e.2 - lo) came))) a.els,
        fault := fault.map fun f => (f, l.map (·.1)) }

/-- R294, R314, R315: the source of a command read in the order of its segments. -/
def readSource (s : State) (w : Cart) (x : CDesc) (path : CPath) (order : List Nat) : Source :=
  (accesses x path 4096 order).foldl (readStep w x) { st := s, els := Array.replicate x.total none }

/-! ## Physical aliasing (R310) -/

/-- The physical address of a device virtual address that the command accesses. -/
def aliasPa (s : State) (c : Ctx) (va : Nat) (write : Bool) : Option Nat :=
  match (xlate s c va write).res with
  | .ok pa => some pa
  | .error _ => none

/-- The physical pages of 64 KiB that a list of addresses falls on. -/
def physPages (s : State) (c : Ctx) (write : Bool) (l : List Nat) : List Nat :=
  ((l.map (· / 65536)).eraseDups.filterMap fun v => aliasPa s c (65536 * v) write).map (· / 65536)

/-- R310: a byte read where the command has written, by its choice the earlier value or the written one. -/
def aliasBytes (n pa : Nat) (written : List (Nat × (Byte × Bool))) (was : List (Byte × Bool)) : List (Byte × Bool) :=
  match was with
  | [] => []
  | b :: r =>
    (match written.find? fun x => x.1 == pa with
      | some x => if Config.freeBool n then x.2 else b
      | none => b) :: aliasBytes (n + 1) (pa + 1) written r

/-- One element taken in the order of the writes, over what has been written before it. -/
def aliasStep (c : Ctx) (es : Nat) (a : State × List (Nat × (Byte × Bool)) × List CElem) (e : Nat × Nat × CElem) :
    State × List (Nat × (Byte × Bool)) × List CElem :=
  match aliasPa a.1 c e.1 false, aliasPa a.1 c e.2.1 true with
  | some ps, some pd =>
    let l := aliasBytes a.1.free ps a.2.1 (e.2.2.bytes.map fun b => (b, e.2.2.poison))
    let el : CElem := { bytes := l.map (·.1), poison := l.any (·.2), failed := e.2.2.failed, wrong := e.2.2.wrong }
    ({ a.1 with free := a.1.free + es }, (el.bytes.mapIdx fun i b => (pd + i, (b, el.poison))) ++ a.2.1, a.2.2 ++ [el])
  | _, _ => (a.1, a.2.1, a.2.2 ++ [e.2.2])

/-- R310: the elements with the choice at every byte of a physical page that both sides reach. -/
def aliasElems (s : State) (c : Ctx) (a b : CDesc) (l : List (Nat × Nat × CElem)) : State × List CElem :=
  if !a.store && !b.store
      && (physPages s c false (l.map (·.1))).any (fun p => (physPages s c true (l.map (·.2.1))).contains p) then
    let r := l.foldl (aliasStep c a.es) (s, [], [])
    (r.1, r.2.2)
  else (s, l.map (·.2.2))

/-! ## Writing the destination -/

/-- The destination so far: the first fault with the rank of its access in walk order, what has been written, and whether every write has been
acknowledged. -/
structure Dest where
  st : State
  fault : Option (CFault × Nat) := none
  acked : Bool := true
  bytes : Nat := 0
  lines : List Nat := []

/-- R296: one write access: its lowest address and bytes; `whole` tells that the value of what it carries checks. -/
def writeAccess (s : State) (w : Cart) (x : CDesc) (lo : Nat) (bs : List (Byte × Bool)) (whole : Bool) : VaWrite :=
  if x.store then
    { st := if lo % 4096 = 0 ∧ bs.length = 4096 ∧ whole then writeBlock s w.p (lo / 4096) bs else storeWrite s w.p lo bs,
      stop := none, misses := 0 }
  else
    let r := vaWrite s w.ctx .carter lo bs
    { r with st := modPos r.st w.p fun ps => { ps with ctrXmiss := ps.ctrXmiss + BitVec.ofNat 32 r.misses } }

/-- R295, R297: the hop at which a buffer word that came back wrong is found: the input of the transposer and of the narrow path, and where a run is
written, the store or the memory hub. -/
def wrongHop (path : CPath) (store : Bool) : Nat := match path with
  | .narrow | .transpose => 4
  | .run => if store then 2 else 8

/-- R297: a segment delivered poisoned, counted at that hop. -/
def countWrong (s : State) (w : Cart) (hop lo : Nat) : State :=
  if hop = 8 then
    match aliasPa s w.ctx lo true with
    | some pa => modHub s (hubOf pa) fun hb => { hb with crcFail := hb.crcFail + 1 }
    | none => s
  else modPos s w.p fun ps => { ps with asyCrcFail := ps.asyCrcFail + 1 }

/-- The address of a fault that the Carter meets in a page. -/
def CFault.addr (f : CFault) : Nat :=
  match f with
  | .xfail _ va _ => va
  | .ue va => va
  | .crc _ a => a

/-- R320, R75: the next write access; after a fault, one on another page may or may not be issued. `item` gives an element by its walk index, `rank`
its place in walk order, and `from'` its source address. -/
def writeStep (w : Cart) (x : CDesc) (path : CPath) (item : Nat → CElem) (rank from' : Nat → Nat) (a : Dest) (l : List (Nat × Nat)) : Dest :=
  let lo := accessLow l
  let head := (l.headD (0, 0)).1
  let l := if (l.headD (0, 0)).2 = lo then l else l.reverse
  let wrong := l.any fun e => (item e.1).wrong
  let bs := l.flatMap fun e => (item e.1).bytes.map fun b => (b, (item e.1).poison || wrong)
  let (go, st) := match a.fault with
    | none => (true, a.st)
    | some f =>
      let (n, st) := takeFree a.st
      (Config.freeBool n && f.1.addr / 65536 != lo / 65536, st)
  if !go then { a with st := st } else
    let hop := wrongHop path x.store
    let r := writeAccess (if wrong then countWrong st w hop lo else st) w x lo bs (l.all fun e => !(item e.1).failed && !wrong)
    let bad := if wrong then some hop else r.bad.head?.map fun _ => 8
    match r.stop with
    | some f => { a with st := r.st, fault := a.fault <|> some (.xfail f.1 f.2 true, rank head) }
    | none =>
      let poisoned := (bs.mapIdx fun i b => if b.2 then [(lo + i) / 64] else []).flatten
      { st := r.st, fault := a.fault <|> bad.map fun hop => (.crc hop (from' head), rank head), acked := a.acked && r.acked,
        bytes := a.bytes + bs.length, lines := a.lines ++ poisoned.eraseDups.filter fun n => !a.lines.contains n }

/-! ## The commands -/

/-- What a command has moved. -/
structure Moved where
  st : State
  fault : Option CFault
  bytes : Nat
  lines : Nat
  acked : Bool := true

/-- R310: a move's elements in descending source address for a positive shift, ascending for a negative one. -/
def moveOrder (a b : CDesc) : List Nat := if a.base < b.base then (ascending a).reverse else ascending a

/-- R320: of a read fault, whose segment begins at a rank, and a write fault at its rank, the first in walk order; an element is read before it
is written. -/
def firstFault (rd : Option (CFault × Nat)) (wr : Option (CFault × Nat)) : Option CFault :=
  match rd, wr with
  | some r, some w => if w.2 < r.2 then some w.1 else some r.1
  | some r, none => some r.1
  | none, some w => some w.1
  | none, none => none

/-- R309 to R320: the elements read and written. After a fault of the reads, what comes after its segment in walk order is not written. -/
def carterMove (s : State) (w : Cart) (op : Nat) (c : BitVec 512) (blk : BitVec 1024) : Moved :=
  let a := srcDesc blk
  let b := dstDesc blk
  let path := carterPath op c blk
  let move := plainCopy op a b && extentsMeet a b
  if move ∧ a.base = b.base then { st := s, fault := none, bytes := 0, lines := 0 }
  else
    let order := if move then moveOrder a b else List.range b.total
    let serve := if op = 0xA1 ∨ move then [] else servedDims a
    let from' (i : Nat) : Nat := if op = 0xA1 then 0 else sourceIndex op c a b i
    let walk := if path = .transpose then List.range a.total else order.map from'
    let src : Source :=
      if op = 0xA1 then { st := s, els := #[some { bytes := leBytes b.es (fld c 32 0 64) }] }
      else readSource s w a path (walk.filter fun i => servedIndex a serve i == i)
    let places := (walk.mapIdx fun n i => (n, i)).foldl (fun (t : Array Nat) x => t.setIfInBounds x.2 x.1) (Array.replicate a.total 0)
    let rank (i : Nat) : Nat := if op = 0xA1 then i else places.getD (from' i) 0
    let met := src.fault.map fun f => (f.1, (f.2.map fun i => places.getD i 0).foldl min (places.getD (f.2.headD 0) 0))
    let last := src.fault.map fun f => (f.2.map fun i => places.getD i 0).foldl max 0
    let got (i : Nat) : Option CElem := src.els.getD (if op = 0xA1 then 0 else servedIndex a serve (from' i)) none
    let ready := order.filter fun i => (got i).isSome && last.all fun n => decide (rank i ≤ n)
    let l := ready.map fun i => (if op = 0xA1 then 0 else walkAddr a (from' i), walkAddr b i, (got i).getD {})
    let al := if op = 0xA1 then (src.st, l.map (·.2.2)) else aliasElems src.st w.ctx a b l
    let first := (ready.mapIdx fun n i => (n, i)).foldl (fun (t : Array Nat) x => t.setIfInBounds x.2 x.1)
      (Array.replicate b.total 0)
    let els := al.2.toArray
    let d := (accesses b path (if b.store then 4096 else 2048) ready).foldl
      (writeStep w b path (fun i => els.getD (first.getD i 0) {}) rank (fun i => walkAddr a (from' i))) { st := al.1 }
    { st := modPos d.st w.p fun ps =>
        { ps with ctrWr := ps.ctrWr + BitVec.ofNat 32 d.bytes,
                  ctrNarrow := if path = .narrow then ps.ctrNarrow + BitVec.ofNat 32 (d.bytes / b.es) else ps.ctrNarrow },
      fault := firstFault met d.fault, bytes := d.bytes, lines := d.lines.length, acked := d.acked }

/-- R319: EV_UE_READ of a Carter command. -/
def raiseUeRead (s : State) (w : Cart) (seq : W32) (va : Nat) : State := raiseQueue s w.k 2 2 0x0102 seq (leBytes 6 va)

/-- R297, R319, R320: the fault of a Carter command, its events, record and boundary. After a failed check EV_CRC is the originating event, and
EV_UE_READ follows it. -/
def endCarter (s : State) (w : Cart) (c : InFlight) (f : CFault) : State :=
  match f with
  | .xfail x va write => endXfail s w.k c x va write
  | .ue va =>
    let o := originNext s (qHall w.k) 2 2
    completeFault (raiseUeRead s w c.seq va) w.k c 0x31 (some o)
  | .crc hop addr =>
    let o := originNext s (qHall w.k) 5 2
    let s := raiseCrc s (qHall w.k) hop (some (qJob s w.k).toNat) (qLockind w.k) (qLoc w.k) addr
    completeFault (raiseUeRead s w c.seq addr) w.k c 0x31 (some o)

/-- CTR.COPY (0xA0), CTR.FILL (0xA1) and CTR.PERMUTE (0xA2): the oldest command of the TQ. With a write unacknowledged, stage 7 of R53 does not hold
for it (R316, R369). -/
def runCarter (op n : Nat) (s : State) : State :=
  let k := 4 * n + 3
  match headOp s k op, corePos s n with
  | some c, some p =>
    let w : Cart := { k := k, p := p, ctx := qCtx s k, seq := c.seq }
    let m := carterMove s w op c.cmd c.desc
    match m.fault with
    | some f => endCarter m.st w c f
    | none =>
      if !m.acked then markUnacked m.st k else
      let bolts := (m.bytes + 2047) / 2048
      completeDone m.st k c ({ poisonCopied := decide (0 < m.lines) : RecFlags }).toNat
        [bolts % 65536, bolts / 65536 % 65536, recCount m.lines, 0]
  | _, _ => s

def execCtrCopy (n : Core) (s : State) : Host.Outcome State Fault Refusal := .next (runCarter 0xA0 n s)
def execCtrFill (n : Core) (s : State) : Host.Outcome State Fault Refusal := .next (runCarter 0xA1 n s)
def execCtrPermute (n : Core) (s : State) : Host.Outcome State Fault Refusal := .next (runCarter 0xA2 n s)

end Sys2Proof.Machine
end

