-- ==== Sys2Proof/Machine/Flash.lean ====
section
/-! DEFINITION. The flash of a hall (R471 to R476): slots, boot record, repair log, seam wire map, and the host's mailbox (R475, R496). -/

namespace Sys2Proof.Machine

/-! ## Bytes and layout (R471) -/

/-- One byte of a hall's flash; an erased byte reads 0xFF. -/
def flashByte (hl : HallState) (a : Nat) : Byte := tabGet 0xFF hl.flash a

def flashBytes (hl : HallState) (a n : Nat) : List Byte := (List.range n).map fun i => flashByte hl (a + i)

/-- Bytes programmed from `a` on: a program clears bits and sets none (log entry 40). -/
def flashProgram (t : Tab Byte) (a : Nat) (bs : List Byte) : Tab Byte :=
  match bs with
  | [] => t
  | b :: r => flashProgram (tabSet 0xFF a (tabGet 0xFF t a &&& b) t) (a + 1) r

/-- A range erased. -/
def flashErase (t : Tab Byte) (a n : Nat) : Tab Byte := t.filter fun x => decide (x.1 < a) || decide (a + n ≤ x.1)

def slotBase (b : Bool) : Nat := if b then 0x3100000 else 0x0100000
def slotSize : Nat := 0x3000000
def bootCopy (second : Bool) : Nat := if second then 0x8000 else 0

/-- The seam wire map inside its region (log entry 41). -/
def seamMapBase : Nat := 0x6180000
def seamMapSlots : Nat := 8192
def logBase : Nat := 0x6200000
def logSlots : Nat := 262144

/-! ## Slots and the boot record (R472, R473) -/

def slotWord (hl : HallState) (b : Bool) (i : Nat) : Nat := leNat (flashBytes hl (slotBase b + 4 * i) 4)
def slotLength (hl : HallState) (b : Bool) : Nat := slotWord hl b 0
def slotVersion (hl : HallState) (b : Bool) : W32 := BitVec.ofNat 32 (slotWord hl b 1)
def slotCompat (hl : HallState) (b : Bool) : W32 := BitVec.ofNat 32 (slotWord hl b 2)

/-- R472: a slot is valid. -/
def slotValid (hl : HallState) (b : Bool) : Bool :=
  let n := slotLength hl b
  decide (64 ≤ n) && decide (n ≤ slotSize)
    && decide ((crc32c (flashBytes hl (slotBase b + 64) (n - 64))).toNat = slotWord hl b 3)

/-- R473: a copy of the boot record matches its check value. -/
def bootGood (hl : HallState) (second : Bool) : Bool :=
  decide ((crc32c (flashBytes hl (bootCopy second) 60)).toNat = leNat (flashBytes hl (bootCopy second + 60) 4))

/-- R473: ACTIVE of the first copy that matches, 0 with none. -/
def activeSlot (hl : HallState) : Bool :=
  if bootGood hl false then flashByte hl 0 == 1
  else if bootGood hl true then flashByte hl 0x8000 == 1
  else false

/-- R473: the 64 bytes of a boot record. -/
def bootRecord (slot : Bool) : List Byte :=
  let head := leBytes 1 (boolNat slot) ++ List.replicate 59 0
  head ++ leBytes 4 (crc32c head).toNat

/-- R474: the copy at 0x8000 first, the copy at 0 second; each is erased (its 4 KiB) and rewritten. -/
def writeBoot (hl : HallState) (slot : Bool) : HallState :=
  let t := flashProgram (flashErase hl.flash 0x8000 4096) 0x8000 (bootRecord slot)
  { hl with flash := flashProgram (flashErase t 0 4096) 0 (bootRecord slot) }

/-! ## The repair log and the seam wire map (R476, R372) -/

/-- The first erased entry of a list of 64-byte entries at `base`: the keys of the flash rise, and an entry in use has a byte listed. -/
def firstErased (t : Tab Byte) (base : Nat) : Nat :=
  t.foldl (fun n x => if base ≤ x.1 ∧ (x.1 - base) / 64 = n then n + 1 else n) 0

def logEntryAt (hl : HallState) (base i : Nat) : List Byte := flashBytes hl (base + 64 * i) 64

/-- R476: the CRC of an entry matches, byte 10 taken as 0xFF. -/
def entryGood (e : List Byte) : Bool :=
  decide ((crc32c ((e.take 60).set 10 0xFF)).toNat = leNat ((e.drop 60).take 4))

/-- The entries of a list in flash, in order of appending. -/
def flashEntries (hl : HallState) (base slots : Nat) : List (List Byte) :=
  (List.range (min slots (firstErased hl.flash base))).map fun i => logEntryAt hl base i

/-- The bytes of a decided entry. -/
def entryBytes (e : LogBytes) : List Byte := leBytes 64 e.toNat

/-- R476: an entry appended at the end of its list, where there is room. -/
def appendEntry (hl : HallState) (base slots : Nat) (e : List Byte) : Option HallState :=
  let n := firstErased hl.flash base
  if n < slots then some { hl with flash := flashProgram hl.flash (base + 64 * n) e } else none

/-- R476: the region of an entry by its KIND. -/
def entryRegion (e : List Byte) : Nat × Nat :=
  if e.getD 8 0 = 6 then (seamMapBase, seamMapSlots) else (logBase, logSlots)

/-- R476: an append that fails: FS_FLASH; the Steward holds 64 entries, and loses those beyond. -/
def appendFailed (s : State) (h : Nat) (e : LogBytes) : State :=
  let s := modHall s h fun hl => { hl with logHeld := if hl.logHeld.length < 64 then hl.logHeld ++ [e] else hl.logHeld }
  raise s h 39 1 { code := 0x070B }

/-- One entry written to its list. -/
def writeEntry (s : State) (h : Nat) (e : LogBytes) : State :=
  let r := entryRegion (entryBytes e)
  match appendEntry (getHall s h) r.1 r.2 (entryBytes e) with
  | some hl => setHall s h hl
  | none => appendFailed s h e

/-- REPAIR_LOG_APPEND (R301, R344, R476): the oldest entry decided. -/
def runRepairLogAppend (h : Hall) (s : State) : State :=
  match (getHall s h).logPending with
  | [] => s
  | e :: rest => if dieUp s then writeEntry (modHall s h fun hl => { hl with logPending := rest }) h e else s

def execRepairLogAppend (h : Hall) (s : State) : Host.Outcome State Fault Refusal := .next (runRepairLogAppend h s)

/-- SEAM_WIRE_LOG (R372): a wire fails in service: more than 1,000 corrected errors of its link in a second, how many is free, and a KIND 6 entry
with the link and the wire, for the next start or reload, until which its errors go on.
-/
def runSeamWireLog (h : Hall) (link : Fin 18) (wire : W16) (s : State) : State :=
  if dieUp s then
    let (n, s) := takeFree s
    let s := modHall s h fun hl =>
      { hl with seam :=
          tabSet {} link.val { getSeam hl link.val with
            ce := satAdd 0xFFFF (getSeam hl link.val).ce (1001 + Config.freeNat n), failing := true } hl.seam }
    writeEntry s h (BitVec.ofNat 512 (leNat (logEntry (now s h) 6 0 0xFF (leBytes 1 link ++ leBytes 2 wire.toNat))))
  else s

def execSeamWireLog (h : Hall) (link : Fin 18) (wire : W16) (s : State) : Host.Outcome State Fault Refusal :=
  .next (runSeamWireLog h link wire s)

/-! ## The flash mailbox (R475, R478, R496) -/

/-- R478, R482: the start, image and mailbox registers of a hall answer: the module runs, or its start stopped with the host hub powered. -/
def bootUp (s : State) (h : Nat) : Bool :=
  hostUp s h || (!s.started && s.power.input48 && !s.power.efuseOpen && (getHall s h).linkUp
    && ((getHall s h).start == .flashBad || (getHall s h).start == .bootFail || (getHall s h).start == .mismatch
        || (getHall s h).start == .fault))

/-- R470: the hall's flash cannot be used: it reports another density or has no Basic Flash Parameter Table. -/
def flashUnusable (s : State) (h : Nat) : Bool := s.fuse.badFlash.contains h

/-- R475: the address lies in the slot that the hall is not running; a hall that runs none has both free. -/
def mailboxSlot (s : State) (h a : Nat) : Bool :=
  [false, true].any fun b =>
    decide (slotBase b ≤ a) && decide (a < slotBase b + slotSize) && !(s.started && b == (getHall s h).imageSlot)

/-- A mailbox operation done: OP and STATUS of STW_FLASH_CMD. -/
def mailboxDone (s : State) (h : Nat) (op : BitVec 2) (status : Nat) : State :=
  modHall s h fun hl => { hl with flashOp := op, flashStatus := status }

/-- One mailbox operation on the block of `n` bytes that STW_FLASH_ADDR names: REFUSED outside the slot not running, or its effect; FLASH_ERROR on a
flash that cannot be used (log entry 179). -/
def mailboxRun (s : State) (h : Nat) (op : BitVec 2) (n : Nat) (f : HallState → Nat → HallState) : State :=
  if !bootUp s h then s else
    let a := (getHall s h).flashAddr.toNat / n * n
    if flashUnusable s h then mailboxDone s h op 3
    else if mailboxSlot s h a then mailboxDone (modHall s h fun hl => f hl a) h op 1 else mailboxDone s h op 2

/-- The mailbox buffer, 256 bytes. -/
def bufferOf (l : List Byte) : Tab Byte :=
  ((List.range 256).map fun i => (i, l.getD i 0)).filter fun x => x.2 != 0

/-- FLASH_READ (R475): 256 bytes to the buffer. -/
def runFlashRead (h : Hall) (s : State) : State :=
  mailboxRun s h 0 256 fun hl a => { hl with mailbox := bufferOf (flashBytes hl a 256) }

def execFlashRead (h : Hall) (s : State) : Host.Outcome State Fault Refusal := .next (runFlashRead h s)

/-- FLASH_PROGRAM (R475): 256 bytes from the buffer. -/
def runFlashProgram (h : Hall) (s : State) : State :=
  mailboxRun s h 1 256 fun hl a =>
    { hl with flash := flashProgram hl.flash a ((List.range 256).map fun i => tabGet 0 hl.mailbox i) }

def execFlashProgram (h : Hall) (s : State) : Host.Outcome State Fault Refusal := .next (runFlashProgram h s)

/-- FLASH_ERASE (R475): 64 KiB. -/
def runFlashErase (h : Hall) (s : State) : State :=
  mailboxRun s h 2 65536 fun hl a => { hl with flash := flashErase hl.flash a 65536 }

def execFlashErase (h : Hall) (s : State) : Host.Outcome State Fault Refusal := .next (runFlashErase h s)

/-- FLASH_OP_RESERVED (R496): operation code 3 is executed as REFUSED. -/
def runFlashReserved (h : Hall) (s : State) : State := if bootUp s h then mailboxDone s h 3 2 else s

def execFlashOpReserved (h : Hall) (s : State) : Host.Outcome State Fault Refusal := .next (runFlashReserved h s)

end Sys2Proof.Machine
end

