-- ==== Sys2Proof/Machine/Hubs.lean ====
section
/-! DEFINITION. The commands of the memory hubs (14): requests, fence flushes, patrol scrub, refresh, temperature readout, oscillator
tracking, retraining, and retirement by the host. -/

namespace Sys2Proof.Machine

/-! ## Requests (R328, R332) -/

/-- R328, R332: a request of `n` bytes within one bolt below the usable capacity. -/
def requestOk (s : State) (pa n : Nat) : Bool :=
  decide (0 < n) && decide (pa + n ≤ s.order.usable) && decide (pa / 2048 = (pa + n - 1) / 2048)

/-- HUB_READ_REQUEST (R333, R340, R341): what it delivers at the stop that asks is held in `delivered`. What moves in segments is checked there
(R295, R297). -/
def runHubRead (s : State) (src pa n : Nat) (r : Reader) (job : Option Job) : State :=
  let rd := hubRead s src pa n r (job.map fun j => j.val)
  if inSegments r then
    let c := checkSegment rd.st (readerVc r) src [{ hub := hubOf pa, al := pa % 64, sent := rd.sent, got := rd.bytes }]
    { c.st with delivered := c.bytes }
  else { rd.st with delivered := rd.bytes }

def execHubReadRequest (pa len : Nat) (a : Asker) (job : Option Job) (s : State) : Host.Outcome State Fault Refusal :=
  if !dieUp s then .next s
  else if requestOk s pa len then .next (runHubRead s a.stop pa len a.reader job) else .fault (.noSuchAddress pa)

/-- HUB_WRITE_REQUEST (R333, R334): each byte comes with its poison. -/
def runHubWrite (s : State) (src pa : Nat) (data : List (Byte × Bool)) (r : Reader) (job : Option Job) : State :=
  (hubWrite s src r pa data (job.map fun j => j.val)).st

def execHubWriteRequest (pa : Nat) (data : List (Byte × Bool)) (a : Asker) (job : Option Job) (s : State) :
    Host.Outcome State Fault Refusal :=
  if !dieUp s then .next s
  else if requestOk s pa data.length then .next (runHubWrite s a.stop pa data a.reader job) else .fault (.noSuchAddress pa)

/-! ## Fence flush (R335) -/

/-- A FENCE or FENCE.EVENT in flight asks hub `hk` for its flush: what it covers has completed, and the hub has not served it. -/
def asksFlush (s : State) (k hk : Nat) (c : InFlight) : Bool :=
  (opcodeOf c.cmd == 4 || opcodeOf c.cmd == 5) && (scopeHubs k (fld c.cmd 24 0 2)).contains hk
    && coversDone s c && !c.flushed.contains hk

/-- The first queue of a job context with such a fence. -/
def flushQueue (s : State) (hk j : Nat) : Option Nat :=
  (s.queues.map (·.1)).find? fun k =>
    (qJob s k).toNat == j && (getQueue s k).inflight.any fun c => asksFlush s k hk c

/-- R353, R354: the flush request of a fence of queue `k` carried to hub `hk`, a packet of VC1 on the Q-net. -/
def askFlush (s : State) (k hk : Nat) : Fate × State :=
  let a := sendNumbered s .vc1 (queueStop s k) (hubStop hk) 0 []
  (a.1, (transit a.2 0 .vc1 (queueStop s k) (hubStop hk) 0 []).st)

/-- HUB_FENCE_FLUSH (R335): the lines of the job context written back, the flush counted and reported done, over the P-net. A request that is lost
leaves its fence as it was (R369, log entry 183). -/
def runFenceFlush (h : Hall) (j : Hub) (job : Job) (s : State) : State :=
  let hk := 8 * h.val + j.val
  match flushQueue s hk job with
  | none => s
  | some k =>
    if !dieUp s then s else
      let a := askFlush s k hk
      if a.1 = .lost then a.2 else
      let t := modHub (flushJob a.2 hk job) hk fun hb => { hb with flush := hb.flush + 1 }
      let t := (transit t 1 .vc1 (hubStop hk) (queueStop s k) 0 []).st
      modQueue t k fun q =>
        { q with inflight := q.inflight.map fun c => if asksFlush s k hk c then { c with flushed := hk :: c.flushed } else c }

def execHubFenceFlush (h : Hall) (j : Hub) (job : Job) (s : State) : Host.Outcome State Fault Refusal :=
  .next (runFenceFlush h j job s)

/-! ## Patrol scrub (R343) -/

/-- The channel's package slot (R327). -/
def chSlot (ch : Nat) : Nat := ch / 4

def chRetired (hb : HubState) (ch : Nat) : Bool := (getPkg hb (chSlot ch)).retired

/-- R343: the rows of a channel, data bolts and check rows. -/
def scrubRows (o : Order) : Nat := 16 * o.rowsPerBank

/-- One pair read by the scrub; a package retired on the way is read no more. -/
def scrubPair (s : State) (pair : Nat) : State :=
  if retiredAt s (128 * pair) then s else (channelRead s pair .scrub none).st

/-- R343: one row read with its check: a data bolt, or a check row with the pairs whose check bytes it holds. -/
def scrubRow (s : State) (mch pos : Nat) : State := (rowPairs mch (pos % 16) (pos / 16)).foldl scrubPair s

def setChannel (hb : HubState) (ch : Nat) (c : Channel) : HubState := { hb with channels := tabSet {} ch c hb.channels }

/-- R343: the pass of a hub ends when every channel not retired has been read. -/
def endPass (o : Order) (hb : HubState) : HubState :=
  let live := (List.range 32).filter fun c => !chRetired hb c
  if !live.isEmpty && live.all fun c => decide (scrubRows o ≤ (getChannel hb c).scrubPos) then
    (List.range 32).foldl (fun hb c => setChannel hb c { getChannel hb c with scrubPos := 0 })
      { hb with scrubPasses := hb.scrubPasses + 1 }
  else hb

/-- PATROL_SCRUB (R343): the next row of a channel; one that has done its pass waits for the others. -/
def runPatrolScrub (h : Hall) (j : Hub) (ch : Fin 32) (s : State) : State :=
  let hk := 8 * h.val + j.val
  let hb := getHub s hk
  if !dieUp s || chRetired hb ch then s else
    let pos := (getChannel hb ch).scrubPos
    let s := if pos < scrubRows s.order then
        modHub (scrubRow s (32 * hk + ch.val) pos) hk fun hb =>
          setChannel hb ch { getChannel hb ch with scrubPos := pos + 1 }
      else s
    modHub s hk (endPass s.order)

def execPatrolScrub (h : Hall) (j : Hub) (ch : Fin 32) (s : State) : Host.Outcome State Fault Refusal :=
  .next (runPatrolScrub h j ch s)

/-! ## Refresh, temperature, tracking (R330, R347, R348) -/

/-- A change of one channel whose package is not retired. -/
def onChannel (h : Hall) (j : Hub) (ch : Fin 32) (f : Channel → Channel) (s : State) : State :=
  let hk := 8 * h.val + j.val
  if dieUp s && !chRetired (getHub s hk) ch then
    modHub s hk fun hb => setChannel hb ch (f (getChannel hb ch))
  else s

/-- REFRESH (R347). -/
def runRefresh (h : Hall) (j : Hub) (ch : Fin 32) (s : State) : State :=
  onChannel h j ch (fun c => { c with refreshes := c.refreshes + 1 }) s

def execRefresh (h : Hall) (j : Hub) (ch : Fin 32) (s : State) : Host.Outcome State Fault Refusal := .next (runRefresh h j ch s)

/-- R529: a reading that passes a limit which the one before did not. -/
def passes (limit : Nat) (was now : Byte) : Bool := decide (was.toNat ≤ limit) && decide (limit < now.toNat)

/-- MR4_READ (R330, R350, R529): the temperature of a package; FS_THERM_WARN where it passes the warning limit. -/
def runMr4Read (h : Hall) (j : Hub) (i : Fin 8) (temp : Byte) (s : State) : State :=
  let hk := 8 * h.val + j.val
  if dieUp s && !(getPkg (getHub s hk) i).retired then
    let was := (getPkg (getHub s hk) i).temp
    let s := modHub s hk fun hb => setPkg hb i { getPkg hb i with temp := temp }
    if passes (warnLimit .package) was temp then warned s else s
  else s

def execMr4Read (h : Hall) (j : Hub) (i : Fin 8) (temp : Byte) (s : State) : Host.Outcome State Fault Refusal :=
  .next (runMr4Read h j i temp s)

/-- WCK2DQ_TRACK (R348). -/
def runWckTrack (h : Hall) (j : Hub) (ch : Fin 32) (reading : W16) (s : State) : State :=
  onChannel h j ch (fun c => { c with osc := reading }) s

def execWck2dqTrack (h : Hall) (j : Hub) (ch : Fin 32) (reading : W16) (s : State) : Host.Outcome State Fault Refusal :=
  .next (runWckTrack h j ch reading s)

/-! ## Retraining (R348) -/

/-- HUB_STAT.INWIN (R350): a retraining window of the hub is open. -/
def windowOpen (s : State) (hk : Nat) : Bool := decide (now s (hk / 8) < (getHub s hk).windowEnd)

/-- R348, R423: a second failure in a row is a retraining failure of the package, which is retired. -/
def retrainFailed (s : State) (hk ch : Nat) : State :=
  let i := chSlot ch
  let s := modHub s hk fun hb => setPkg hb i { getPkg hb i with retrainFail := satAdd 15 (getPkg hb i).retrainFail 1 }
  retirePackage (raise s (hk / 8) 16 1 { code := 0x0404, lockind := 4, loc := hk }) hk i 1

/-- RETRAIN_WINDOW (R348): one window of a channel, of five in a round; `ok` tells whether its result lies within the margins. DESIGN CHOICE (log
entry 141): it stays open for the whole 4 µs that R348 allows; no other channel of the hub enters one meanwhile. -/
def runRetrain (h : Hall) (j : Hub) (ch : Fin 32) (ok : Bool) (s : State) : State :=
  let hk := 8 * h.val + j.val
  let c := getChannel (getHub s hk) ch
  if !dieUp s || chRetired (getHub s hk) ch || windowOpen s hk then s else
    let s := modHub s hk fun hb =>
      setChannel { hb with window := ch.val, windowEnd := now s h + 4000 } ch
        { c with failed := !ok, windows := if ok then (c.windows + 1) % 5 else c.windows }
    if !ok && c.failed then retrainFailed s hk ch else s

def execRetrainWindow (h : Hall) (j : Hub) (ch : Fin 32) (ok : Bool) (s : State) : Host.Outcome State Fault Refusal :=
  .next (runRetrain h j ch ok s)

/-- HUB_PKG_RETIRE (R346): the host sets HUB_PKG.RETIRE. -/
def runPkgRetire (h : Hall) (j : Hub) (i : Fin 8) (s : State) : State :=
  if hostUp s h then retirePackage s (8 * h.val + j.val) i 3 else s

def execHubPkgRetire (h : Hall) (j : Hub) (i : Fin 8) (s : State) : Host.Outcome State Fault Refusal :=
  .next (runPkgRetire h j i s)

end Sys2Proof.Machine
end

