-- ==== Sys2Proof/Machine/Mesh.lean ====
section
/-! DEFINITION. The mesh (15): transactions resent and lost (R368, R369), Joiner links out of use (R373), and a router declared failed (R364,
R366). -/

namespace Sys2Proof.Machine

/-- The signal at place `i` among those on their way, where it left a stop of hall `h`. -/
def signalFrom (s : State) (h i : Nat) : Option Signal := s.signals[i]?.filter fun g => stopHall g.stop == h

/-- R368: how many later signals of its series are on their way after the signal at place `i`. -/
def laterSignals (s : State) (i : Nat) (g : Signal) : Nat :=
  ((s.signals.drop (i + 1)).filter fun x => signalSeries x == signalSeries g).length

/-- MESH_RESEND (R368): a transaction unanswered for 20 µs is sent once more, with the later unanswered ones of its series: the access of a hall's
stops that comes after `skip` others, with the `later` ones after it, which count and act again on the links they cross as they are sent (log entry
42), or a signal, which stays on its way. -/
def runMeshResend (h : Hall) (x : Resend) (s : State) : State :=
  if !dieUp s then s else
    match x with
    | .access skip later => { s with meshFault := some { hall := h, skip := skip, lost := false, later := later } }
    | .signal i =>
      match signalFrom s h i with
      | none => s
      | some g => countResent s h (1 + laterSignals s i g)

def execMeshResend (h : Hall) (x : Resend) (s : State) : Host.Outcome State Fault Refusal := .next (runMeshResend h x s)

/-- R369: a lost transaction counted and reported by the hall of its source. -/
def reportLost (s : State) (h : Nat) : State :=
  raise (modHall s h fun hl => { hl with meshLost := hl.meshLost + 1 }) h 10 1 { code := 0x0408 }

/-- A signal that never arrived leaves no gap in its series: the later ones go on under the numbers before theirs (log entry 142). -/
def closeGap (s : State) (g : Signal) : State :=
  let x := getSeries s (signalSeries g)
  { setSeries s (signalSeries g) { x with sent := x.sent - 1 } with
    signals := s.signals.map fun y => if signalSeries y = signalSeries g ∧ g.num < y.num then { y with num := y.num - 1 } else y }

/-- R369: a signal lost. Whether it was applied before its answers were lost is free, where it was next in its series (log entry 142). -/
def loseSignal (s : State) (i : Nat) (g : Signal) : State :=
  let (n, s) := takeFree { s with signals := s.signals.eraseIdx i }
  let x := getSeries s (signalSeries g)
  if receiptOf x g.num = .apply ∧ Config.freeBool n then
    noticeOf (applySignal (setSeries s (signalSeries g) { x with applied := x.applied + 1 }) g) g
  else closeGap s g

/-- MESH_LOST (R369): counted and reported; an access of a hall's stops, the one after `skip` others (log entry 43), or a signal. -/
def runMeshLost (h : Hall) (x : Loss) (s : State) : State :=
  if !dieUp s then s else
    match x with
    | .access skip => reportLost { s with meshFault := some { hall := h, skip := skip, lost := true } } h
    | .signal i =>
      match signalFrom s h i with
      | none => s
      | some g => loseSignal (reportLost s h) i g

def execMeshLost (h : Hall) (x : Loss) (s : State) : Host.Outcome State Fault Refusal := .next (runMeshLost h x s)

/-! ## Joiner links out of use (R365, R373, R423) -/

/-- R373: links out of use in a network (0: Q-net, 1: P-net), those of rows with a hole at a seam column counted with them. -/
def linksOut (s : State) (net : Nat) : Nat := ((List.range 9).filter fun y => !linkUsable s net y).length

/-- R373, R423: FS_SEAM for links out of use: class M at a third in one network, 0 with none. -/
def seamClass (s : State) : Nat :=
  if 3 ≤ linksOut s 0 ∨ 3 ≤ linksOut s 1 then 6
  else if linksOut s 0 + linksOut s 1 = 0 then 0 else 1

/-- R365: a position of a hall lies at the column of the seam. -/
def atSeam (h i : Nat) : Bool := (stopXY i).1 == (if h = 0 then 9 else 0)

/-- R379: STW_SEAM_LINK.UP of a link at both ends. -/
def setUp (s : State) (n : Nat) (up : Bool) : State :=
  [0, 1].foldl (fun s h => modHall s h fun hl => { hl with seam := tabSet {} n { getSeam hl n with up := up } hl.seam }) s

/-- R365, R423: a hole at the column of the seam puts the links of its row out of use on both networks. -/
def seamHole (s : State) (h i : Nat) : State :=
  if !atSeam h i then s else
    let y := (stopXY i).2
    let s := setUp (setUp s (linkOf 0 y) false) (linkOf 1 y) false
    let c := seamClass s
    let o := originNext s h 11 c
    applyClass (raiseBoth s 11 c { code := 0x0409 }) h 11 c o

/-! ## A failed router -/

/-- R36, R352: the position of a stop, none at a hub or service stop. -/
def stopPos (stop : Nat) : Option Nat := (List.range 72).find? fun i => stopXY i == (stop % 10, stop / 10)

/-- R366: stops that neighbour each other, diagonals included. -/
def neighbours (a b : Nat) : Bool :=
  decide (natDist (stopXY a).1 (stopXY b).1 ≤ 1) && decide (natDist (stopXY a).2 (stopXY b).2 ≤ 1)

/-- R366: the hall accepts a hole at position `i`. -/
def holeOk (hl : HallState) (i : Nat) : Bool :=
  decide (hl.holes.length < 2) && hl.holes.all fun x => !neighbours x i

/-- R26, R364: position `i` becomes a hole; a bench run there ends inconclusive (R299). -/
def makeHole (s : State) (h i : Nat) : State :=
  let s := if (getHall s h).tnkActive ∧ (getHall s h).tnkPos = i then endBench s h 3 0 0 else s
  let s := modHall s h fun hl =>
    { forgetPos hl i with holes := hl.holes ++ [i], tableGen := hl.tableGen + 1 }
  modPos s (posKey h i) fun ps => { ps with status := .hole, heldBench := false, benchReq291 := false }

/-- R73, R364, R436: the logical core of a hole is fenced, and its sample slots are to be dropped. -/
def fenceAtHole (s : State) (n : Nat) (o : Origin) : State :=
  if (getCore s n).fenced then s else
    modCore (fenceCore s n o none) n fun c => { c with dropPending := (getOwn s n).owned }

/-- ROUTER_FAILED (R364, R366, R423): a hole and a fence, or the hall down. -/
def runRouterFailed (h : Hall) (stop : Fin 90) (s : State) : State :=
  let hl := getHall s h
  let down :=
    let o := originNext s h 8 5
    applyClass (raise s h 8 5 { code := 0x0406 }) h 8 5 o
  if !dieUp s then s else
    match stopPos stop with
    | none => down
    | some i =>
      if hl.holes.contains i then s
      else if !holeOk hl i then down
      else
        let o := originNext s h 8 4
        let n := if (getPos s (posKey h i)).status = .inService then posCore s (posKey h i) else none
        let s := seamHole (makeHole (raise s h 8 4 { code := 0x0406, lockind := 3, loc := posKey h i }) h i) h i
        match n with
        | none => s
        | some n => fenceAtHole s n o

def execRouterFailed (h : Hall) (stop : Fin 90) (s : State) : Host.Outcome State Fault Refusal := .next (runRouterFailed h stop s)

end Sys2Proof.Machine
end

