-- ==== Sys2Proof/Machine/Miller.lean ====
section
/-! DEFINITION. The Miller's windows (R455, R463, R468), the yield of long-held grants (R464) and the end of a derating. Admission stands
beside the commands it starts (Control), the shares in Current. -/

namespace Sys2Proof.Machine

/-! ## Windows (R455, R468) -/

/-- R469: V_IN outside 40 V to 60 V. -/
def vinOutside (v : Nat) : Bool := decide (v < 4000) || decide (6000 < v)

/-- R455, R468: the measures of a window; I_IN comes with a resolution of 10 mA (log entry 176). -/
def measured (m : Miller) (iIn vIn : Nat) (now : W64) : Miller :=
  { m with iIn := iIn - iIn % 10, vIn := vIn, vinOut := vinOutside vIn, lastWindow := now }

/-- R468: the throttle is engaged at `t`. -/
def throttleOn (m : Miller) (t : W64) : Miller := if m.throttle then m else { m with throttle := true, throttleFrom := t }

/-- R468: the throttle is released at `t`; MLR_THROTTLE keeps the µs it was engaged. -/
def throttleOff (m : Miller) (t : W64) : Miller := { m with throttle := false, throttleUs := throttleCount m t }

/-- R468: FS_VIN. -/
def raiseVin (s : State) : State := raiseBoth s 33 1 { code := 0x0703 }

/-- R468: FS_VIN for an input voltage that has left its range. -/
def reportVin (s : State) (was : Bool) : State := if s.miller.vinOut ∧ !was then raiseVin s else s

/-- MILLER_WINDOW (R455, R463, R468): a window of 10 µs ends with its measures. -/
def runMillerWindow (iIn vIn : Nat) (s : State) : State :=
  if !dieUp s then s else
    let was := s.miller.vinOut
    let s := reportVin (exchangeShares (reshare { s with miller := measured s.miller iIn vIn (now s 0) })) was
    let m := s.miller
    if aEff m < m.iIn then raiseBoth { s with miller := throttleOn m (now s 0) } 43 1 { code := 0x0706 }
    else if m.iIn ≤ aEff m - 100 * m.margin then { s with miller := throttleOff m (now s 0) }
    else s

def execMillerWindow (iIn vIn : Nat) (s : State) : Host.Outcome State Fault Refusal := .next (runMillerWindow iIn vIn s)

/-! ## Yield (R464) -/

/-- A request of the hall has waited its yield time. -/
def yieldDue (s : State) (h : Nat) : Bool :=
  (getHall s h).requests.any fun r => decide (1000 * s.miller.yield ≤ (now s h - r.time).toNat)

/-- R464: a queue that has held its grant for longer than 100 µs yields. -/
def yieldGrant (now : W64) (q : Queue) : Queue :=
  { q with grant := q.grant.map fun g => if 100000 < (now - g.since).toNat then { g with yield := true } else g }

/-- MILLER_YIELD (R464). -/
def runMillerYield (h : Hall) (s : State) : State :=
  if dieUp s && yieldDue s h then
    ((s.queues.map (·.1)).filter fun k => qHall k == h.val).foldl (fun s k => modQueue s k (yieldGrant (now s h))) s
  else s

def execMillerYield (h : Hall) (s : State) : Host.Outcome State Fault Refusal := .next (runMillerYield h s)

/-- DERATE_END (R468): the derating ends 1 s after the warning cleared. -/
def runDerateEnd (s : State) : State :=
  if dieUp s && !s.power.warm && decide (1000000000 ≤ (now s 0 - s.miller.warmEnd).toNat) then
    reshare { s with miller := { s.miller with derate := false } }
  else s

def execDerateEnd (s : State) : Host.Outcome State Fault Refusal := .next (runDerateEnd s)

end Sys2Proof.Machine
end

