-- ==== Sys2Proof/Machine/Faults.lean ====
section
/-! DEFINITION. The Bellman's commands (R422 to R429, R433), the supplies, PLLs, sensors and watchdogs that raise class H and M sources
(R424, R468, R518, R519), and the PCIe link (R484). -/

namespace Sys2Proof.Machine

/-! ## Sources (R423) -/

/-- R423: the event of a source; none for a source of class C. Of two events the first is listed (log entry 45). -/
def sourceEvent (src : Nat) : Option Nat :=
  let l : List Nat :=
    [0x0100, 0x0101, 0x0102, 0x0103, 0x0104, 0x0105, 0x0106, 0x0200, 0x0406, 0x0407, 0x0408, 0x0409, 0x0700, 0, 0x0400,
     0x0402, 0x0404, 0x0405, 0, 0x0401, 0, 0x0202, 0x0201, 0x0203, 0, 0x0500, 0x0502, 0x0107, 0x0108, 0x0300, 0x0007,
     0x0701, 0x0702, 0x0703, 0x0704, 0x0704, 0x0705, 0x0709, 0x070A, 0x070B, 0x0600, 0x0601, 0x0503, 0x0706]
  let c := l.getD src 0
  if c = 0 then none else some c

/-- R534: the classes that the four sources may take. -/
def classesOf (src : Nat) : List Nat :=
  if src = 8 then [4, 5]
  else if src = 11 then [1, 6]
  else if src = 12 then [0, 1, 5, 6]
  else if src = 32 then [5, 6]
  else [sourceClass {} src]

/-- R428, R534: the class of a forced raise: the highest that the source can take. -/
def forcedClass (src : Nat) : Nat := (classesOf src).foldl max 0

/-- R423: the sources of level-4 blocks (Joiner, Miller, Cooper), of the power stages, and of what the module has once (log entry 46). -/
def inBothHalls (src : Nat) : Bool := [11, 32, 33, 34, 35, 36, 38, 40, 41, 42, 43].contains src

/-- The halls in which a source of hall `h` sets its bit (R423). -/
def sourceHalls (h src : Nat) : List Nat := if inBothHalls src then [0, 1] else [h]

/-- R425: a report with its event, where the source has one. -/
def report (s : State) (h src cls : Nat) (forced : Bool) (job : Option Nat) : State :=
  match sourceEvent src with
  | none => raiseQuiet s h src
  | some code => raise s h src cls { code := code, forced := forced, job := job }

/-! ## PLLs (R424) -/

/-- R424: the hall and class of a domain. -/
def pllHall (d : PllDomain) : Nat :=
  match d with
  | .core h | .bench h | .mesh h | .memc h _ | .mgmt h | .host h => h.val

def pllClass (d : PllDomain) : Nat :=
  match d with
  | .core _ | .mgmt _ => 5
  | .bench _ => 0
  | .mesh _ | .memc _ _ => 6
  | .host _ => 1

/-- R377: the domain (log entry 49: coded 0 to 5 in the order of R424) and its instance. -/
def pllEvent (d : PllDomain) : EventSpec :=
  match d with
  | .core h => { code := 0x0700, payload := leBytes 1 0 ++ leBytes 1 h }
  | .bench h => { code := 0x0700, payload := leBytes 1 1 ++ leBytes 1 h }
  | .mesh h => { code := 0x0700, payload := leBytes 1 2 ++ leBytes 1 h }
  | .memc h j => { code := 0x0700, lockind := 4, loc := 8 * h.val + j.val, payload := leBytes 1 3 }
  | .mgmt h => { code := 0x0700, payload := leBytes 1 4 ++ leBytes 1 h }
  | .host h => { code := 0x0700, payload := leBytes 1 5 ++ leBytes 1 h }

/-! ## BEL_STICKY, BEL_FORCE, KILLED (R427, R428, R433) -/

/-- R427: bit `n` may be cleared. -/
def clearable (s : State) (h n : Nat) : Bool :=
  let c := sourceClass (getHall s h) n
  !(c == 5 && (getHall s h).down) && !(c == 6 && s.moduleDown)

/-- R427, R534: bit `n` cleared, with its held class. -/
def clearBit (hl : HallState) (n : Nat) : HallState :=
  { hl with
    sticky := hl.sticky &&& ~~~ BitVec.ofNat 64 (2 ^ n),
    heldRouter := if n = 8 then 0 else hl.heldRouter,
    heldSeam := if n = 11 then 0 else hl.heldSeam,
    heldPll := if n = 12 then 0 else hl.heldPll,
    heldVr := if n = 32 then 0 else hl.heldVr }

/-- R427: whether a PLL or supply of a hall that failed is still out; no command tells of its return, so it may have come back since (log entry
47). -/
def stillOut (s : State) (h src cls : Nat) : Bool × State :=
  let is (x : Outage) : Bool := x.source == src && x.cls == cls
  if (getHall s h).conds.any is then
    let (n, s) := takeFree s
    if Config.freeBool n then (true, s) else (false, modHall s h fun hl => { hl with conds := hl.conds.filter fun x => !is x })
  else (false, s)

/-- R427: the event of a PLL or supply that is out: of a PLL with its domain and instance. -/
def outageEvent (x : Outage) : EventSpec :=
  match x.pll with
  | some d => pllEvent d
  | none => { code := 0x0702 }

/-- R427: the PLLs or supplies of a hall whose condition persists raise again, each with its event; one that may have come back is free (log entry
47). -/
def reraise (s : State) (h src : Nat) (x : Outage) : State :=
  if x.source ≠ src then s else
    let (n, s) := takeFree s
    if Config.freeBool n then (sourceHalls h src).foldl (fun s h => raise s h src x.cls (outageEvent x)) s
    else modHall s h fun hl => { hl with conds := hl.conds.filter fun y => y != x }

/-- R427: the ports of a hall that went down and are still down. -/
def lostPorts (s : State) (h : Nat) : List Nat :=
  (List.range 12).filter fun k => k / 6 == h && (getPort s k).lost && !(getPort s k).up

/-- R427: the class with which a source whose condition persists raises again, 0 where none persists: a temperature, the input voltage, the
chain input, the host link, the time base's holdover, a Joiner link out. -/
def persists (s : State) (h n : Nat) : Nat :=
  if n = 11 then seamClass s
  else boolNat (if n = 34 then s.power.warm
    else if n = 33 then s.miller.vinOut
    else if n = 37 then !(getHall s h).linkUp
    else if n = 38 then !s.chain.inOk
    else if n = 42 then s.timeCfg.holdover
    else false)

/-- R427: one bit written 1; a source whose condition persists raises again, FS_PORT_DOWN for each port still down,
FS_PLL_UNLOCK and FS_VR for each PLL and supply still out. -/
def clearSticky (s : State) (h n : Nat) : State :=
  if bitOf (getHall s h).sticky.toNat n && clearable s h n then
    let s := modHall s h fun hl => clearBit hl n
    if n = 26 then (lostPorts s h).foldl (fun s k => raise s h 26 1 { code := 0x0502, lockind := 5, loc := k }) s
    else if n = 12 ∨ n = 32 then (getHall s h).conds.foldl (fun s x => reraise s h n x) s
    else
      let c := persists s h n
      if c = 0 then s else (sourceHalls h n).foldl (fun s h => report s h n c false none) s
  else s

/-- BEL_STICKY_CLEAR (R427). -/
def runStickyClear (h : Hall) (v : W64) (s : State) : State :=
  if hostUp s h then (List.range 44).foldl (fun s n => if bitOf v.toNat n then clearSticky s h n else s) s else s

def execBelStickyClear (h : Hall) (v : W64) (s : State) : Host.Outcome State Fault Refusal := .next (runStickyClear h v s)

/-- R428: one source forced: its sticky bit and its event, marked, and nothing else. -/
def forceSource (s : State) (h n : Nat) : State :=
  (sourceHalls h n).foldl (fun s h => report s h n (forcedClass n) true none) s

/-- BEL_FORCE (R428): done at once, so that the bits read 0 after the step. -/
def runForce (h : Hall) (v : W64) (s : State) : State :=
  if hostUp s h then (List.range 44).foldl (fun s n => if bitOf v.toNat n then forceSource s h n else s) s else s

def execBelForce (h : Hall) (v : W64) (s : State) : Host.Outcome State Fault Refusal := .next (runForce h v s)

/-- KILLED_CLEAR (R433, R453): the host clears KILLED; CAUSE stays. -/
def runKilledClear (j : Job) (s : State) : State :=
  if anyHostUp s then modJob s j fun jb => { jb with killed := false } else s

def execKilledClear (j : Job) (s : State) : Host.Outcome State Fault Refusal := .next (runKilledClear j s)

/-! ## A report of a block (R425, R430 to R432) -/

/-- R534: the class of an occurrence reported: `cls` where the source may take it, else its highest (log entry 48). -/
def reportClass (src cls : Nat) : Nat := if (classesOf src).contains cls then cls else forcedClass src

/-- R453: the CAUSE of a kill by source. -/
def killCause (src : Nat) : Nat := if src = 0 then 1 else if src = 1 then 2 else 3

/-- BELLMAN_REPORT (R425): the sticky bit, the event, and the class carried out: J kills the job named, H takes the hall down, M the
module. -/
def runReport (h : Hall) (src : Fin 44) (cls : Fin 7) (job : Option Job) (s : State) : State :=
  if !dieUp s then s else
    let c := reportClass src cls
    let o := originNext s h src c
    let s := (sourceHalls h src).foldl (fun s x => report s x src c false (job.map fun j => j.val)) s
    if c = 3 then
      match job with
      | none => s
      | some j => killJob s j (killCause src) o
    else applyClass s h src c o

def execBellmanReport (h : Hall) (src : Fin 44) (cls : Fin 7) (job : Option Job) (s : State) :
    Host.Outcome State Fault Refusal := .next (runReport h src cls job s)

/-! ## The PCIe link (R482, R484) -/

/-- R484: the link of a hall is lost: configuration space returns to its reset values, FS_HOST_LINK is raised. -/
def dropLink (s : State) (h : Nat) : State :=
  let s := modHall s h fun hl =>
    { hl with linkUp := false, busMaster := false, msixEnable := false, msixMask := false, bar0Addr := 0, bar2Addr := 0 }
  if dieUp s then raise s h 37 1 { code := 0x0709 } else s

/-- HOST_LINK_DOWN (R484). -/
def runLinkDown (h : Hall) (s : State) : State := if (getHall s h).linkUp then dropLink s h else s

def execHostLinkDown (h : Hall) (s : State) : Host.Outcome State Fault Refusal := .next (runLinkDown h s)

/-- HOST_LINK_UP (R482): not while the pins are driven (R524). -/
def runLinkUp (h : Hall) (s : State) : State :=
  if s.power.input48 && !s.jtag.driving then modHall s h fun hl => { hl with linkUp := true } else s

def execHostLinkUp (h : Hall) (s : State) : Host.Outcome State Fault Refusal := .next (runLinkUp h s)

/-- PCIE_CONFIG_WRITE (R484, R495): the BAR addresses, Bus Master Enable, and MSI-X Enable and Function Mask. -/
def runConfigWrite (h : Hall) (bar0 bar2 : W64) (c : PcieControl) (s : State) : State :=
  if bootUp s h then
    modHall s h fun hl =>
      { hl with bar0Addr := bar0, bar2Addr := bar2, busMaster := c.busMaster, msixEnable := c.msixEnable, msixMask := c.msixMask }
  else s

def execPcieConfigWrite (h : Hall) (bar0 bar2 : W64) (c : PcieControl) (s : State) : Host.Outcome State Fault Refusal :=
  .next (runConfigWrite h bar0 bar2 c s)

/-! ## PLLs and the Steward (R424) -/

/-- R378, R427: what an unlocked PLL leaves behind: the condition, and the stopped clock of a hall's MGMT domain. -/
def noteUnlock (d : PllDomain) (hl : HallState) : HallState :=
  match d with
  | .bench _ => hl
  | .mgmt _ => { hl with clockOff := true, conds := { source := 12, cls := 5, part := .mgmt, pll := some d } :: hl.conds }
  | .core _ => { hl with conds := { source := 12, cls := 5, part := .core, pll := some d } :: hl.conds }
  | .mesh _ => { hl with conds := { source := 12, cls := 6, part := .mesh, pll := some d } :: hl.conds }
  | .memc _ j => { hl with conds := { source := 12, cls := 6, part := .memc j, pll := some d } :: hl.conds }
  | .host _ => { hl with conds := { source := 12, cls := 1, part := .host, pll := some d } :: hl.conds }

/-- PLL_UNLOCK (R377, R424). -/
def runPllUnlock (d : PllDomain) (s : State) : State :=
  if !dieUp s then s else
    let h := pllHall d
    let c := pllClass d
    let o := originNext s h 12 c
    let s := modHall (raise s h 12 c (pllEvent d)) h (noteUnlock d)
    match d with
    | .bench _ => if (getHall s h).tnkActive then endBench s h 3 0 0 else s
    | .host _ => dropLink s h
    | .core _ | .mesh _ | .memc _ _ | .mgmt _ => applyClass s h 12 c o

def execPllUnlock (d : PllDomain) (s : State) : Host.Outcome State Fault Refusal := .next (runPllUnlock d s)

/-- STEWARD_WATCHDOG (R423): the hall's Steward has trapped or its watchdog expired. -/
def runWatchdog (h : Hall) (s : State) : State :=
  if !dieUp s then s else
    let o := originNext s h 31 5
    applyClass (raise s h 31 5 { code := 0x0701 }) h 31 5 o

def execStewardWatchdog (h : Hall) (s : State) : Host.Outcome State Fault Refusal := .next (runWatchdog h s)

/-! ## Supplies (R423, R518, R519) -/

/-- R423: the hall whose core islands lose their supply; none for a supply of the module. -/
def supplyHall (x : Supply) : Option Nat :=
  match x with
  | .coreIsland h => some h.val
  | .mesh | .memory | .optics | .mgmtConverter | .mgmt33 | .input48 => none

/-- R509: every core island of a hall without power. -/
def islandsOff (s : State) (h : Nat) : State :=
  (List.range 72).foldl (fun s i => modPos s (posKey h i) fun ps => { ps with islandOn := false }) s

/-- R503: what a supply feeds. -/
def supplyPart (x : Supply) : Lost :=
  match x with
  | .coreIsland _ => .islands
  | .mesh => .meshSupply
  | .memory => .memorySupply
  | .mgmtConverter => .converter
  | .optics | .mgmt33 | .input48 => .other

/-- R427: a supply out. Its bit is set in both halls, so both note it; what a hall's own supply feeds is lost in that hall. -/
def noteSupply (s : State) (x : Supply) (cls : Nat) : State :=
  [0, 1].foldl (fun s h => modHall s h fun hl =>
    { hl with conds := { source := 32, cls := cls,
                         part := if supplyHall x = some (1 - h) then .other else supplyPart x } :: hl.conds }) s

/-- What goes with a supply: the management supply takes the chain interface and ALIVE with it (R519, R429), the 48 V input the die
(log entry 50). -/
def supplyGone (s : State) (x : Supply) : State :=
  match x with
  | .mgmt33 => { s with power := { s.power with mgmt := false, efuseLatch := false }, aliveLevel := false,
                        chain := { s.chain with inOk := false } }
  | .input48 => { s with power := { s.power with input48 := false, die := false, lostAt := now s 0 } }
  | .coreIsland h => islandsOff s h
  | .mesh | .memory | .optics | .mgmtConverter => s

/-- VR_FAULT (R423): a supply or the input outside regulation for 10 µs. With the die unpowered only the 48 V input can still be lost, and nothing
reports it (R533). -/
def runVrFault (x : Supply) (s : State) : State :=
  if !dieUp s then (if x = .input48 ∧ s.power.input48 then supplyGone s x else s) else
    let h := (supplyHall x).getD 0
    let c := if (supplyHall x).isSome then 5 else 6
    let o := originNext s h 32 c
    let s := noteSupply s x c
    supplyGone (applyClass (raiseBoth s 32 c { code := 0x0702 }) h 32 c o) x

def execVrFault (x : Supply) (s : State) : Host.Outcome State Fault Refusal := .next (runVrFault x s)

/-- VIN_OUT (R468, R518): the input outside 40 V to 60 V for 1 ms. -/
def runVinOut (vIn : Nat) (s : State) : State :=
  if dieUp s && vinOutside vIn then
    raiseVin (reshare { s with miller := { s.miller with vIn := vIn, vinOut := true } })
  else s

def execVinOut (vIn : Nat) (s : State) : Host.Outcome State Fault Refusal := .next (runVinOut vIn s)

/-- R518, R533: the eFuse can trip: it is closed, and the input stands or left regulation within the last 50 µs. -/
def tripOk (s : State) : Bool :=
  !s.power.efuseOpen && (s.power.input48 || decide ((now s 0 - s.power.lostAt).toNat ≤ 50000))

/-- EFUSE_TRIP (R518, R423, R431): the eFuse opens and latches FS_EFUSE; the module is unpowered, its ports are down, and its event comes with the next
start. -/
def runEfuseTrip (s : State) : State :=
  if tripOk s then
    let s := { s with power := { s.power with efuseOpen := true, efuseLatch := s.power.mgmt, die := false }, moduleDown := true }
    (List.range 12).foldl (fun s k => modPort s k downPort) s
  else s

def execEfuseTrip (s : State) : Host.Outcome State Fault Refusal := .next (runEfuseTrip s)

/-! ## Temperatures (R468, R529) -/

/-- THERM_WARN (R468, R529): a sensor above its warning limit; the derating begins. -/
def runThermWarn (r : Reading) (s : State) : State :=
  if dieUp s ∧ warnLimit r.sensor < r.temp.toNat then
    warned { s with power := { s.power with
      temp := if r.sensor = .die then r.temp else s.power.temp, dieWarm := s.power.dieWarm || decide (r.sensor = .die) } }
  else s

def execThermWarn (r : Reading) (s : State) : Host.Outcome State Fault Refusal := .next (runThermWarn r s)

/-- THERM_WARN_CLEAR (R468): the condition clears; the derating stays for 1 s, until DERATE_END. -/
def runThermClear (s : State) : State :=
  { s with power := { s.power with warm := false, dieWarm := false, hot := false },
           miller := { s.miller with warmEnd := if s.power.warm then now s 0 else s.miller.warmEnd } }

def execThermWarnClear (s : State) : Host.Outcome State Fault Refusal := .next (runThermClear s)

/-- THERM_TRIP (R431, R529): a die sensor above its trip limit: the module is down, and the die supplies go off. -/
def runThermTrip (temp : Byte) (s : State) : State :=
  if !dieUp s ∨ temp.toNat ≤ tripLimit then s else
    let o := originNext s 0 35 6
    let s := raiseBoth { s with power := { s.power with temp := temp } } 35 6 { code := 0x0704 }
    let s := applyClass s 0 35 6 o
    { s with power := { s.power with die := false, warm := true, dieWarm := true, hot := true } }

def execThermTrip (temp : Byte) (s : State) : Host.Outcome State Fault Refusal := .next (runThermTrip temp s)

/-! ## ALIVE (R429) -/

/-- R429: the pin toggles. -/
def toggling (s : State) : Bool :=
  dieUp s && s.power.mgmt && s.power.input48 && aliveEnable (getHall s 0) && aliveEnable (getHall s 1)

/-- ALIVE_TOGGLE (R429): the level changes while the pin toggles; it is held otherwise. -/
def runAliveToggle (s : State) : State := if toggling s then { s with aliveLevel := !s.aliveLevel } else s

def execAliveToggle (s : State) : Host.Outcome State Fault Refusal := .next (runAliveToggle s)

end Sys2Proof.Machine
end

