-- ==== Sys2Proof/Machine/Events.lean ====
section
/-! DEFINITION. The Scrivener's ring in host memory (R491 to R494), the MSI-X vectors (R495), and the ring registers (R493, R497). -/

namespace Sys2Proof.Machine

/-! ## Records (R491, R492) -/

/-- R491: byte 15 of a record, without PHASE. -/
def eventFlags (h : Nat) (e : Event) (more : Bool) : Nat :=
  e.severity.toNat + 8 * h + 16 * boolNat e.forced + 32 * boolNat e.job.isSome + 64 * boolNat more

/-- R491, R492: one record of an event: its head, and the piece of the payload it carries. -/
def recordOf (h : Nat) (e : Event) (more phase : Bool) (piece : List Byte) : List Byte :=
  leBytes 8 e.time.toNat ++ leBytes 4 e.seq.toNat ++ leBytes 2 e.code.toNat ++ [e.source]
    ++ leBytes 1 (eventFlags h e more + 128 * boolNat phase) ++ leBytes 1 ((e.job.map fun j => j.val).getD 0)
    ++ leBytes 3 (e.loc.toNat + 2 ^ 20 * e.lockind.toNat) ++ sliceD 0 piece 0 12

/-- R493: the room of the ring in records. -/
def ringRoom (hl : HallState) : Nat := 2 ^ hl.ringSizeLog2 - (hl.ringProd - hl.ringCons).toNat

/-- R491: PHASE of the ring pass in which record `n` lies. -/
def ringPhase (hl : HallState) (n : W32) : Bool := n.toNat / 2 ^ hl.ringSizeLog2 % 2 == 0

/-- R491: one record at its place in the ring. -/
def putRecord (s : State) (h : Nat) (e : Event) (i : Nat) (more : Bool) : State :=
  let hl := getHall s h
  let bs := recordOf h e more (ringPhase hl hl.ringProd) (e.payload.drop (12 * i))
  let a := hl.ringBase.toNat + 32 * (hl.ringProd.toNat % 2 ^ hl.ringSizeLog2)
  modHall { s with hostMem := putBytes s.hostMem a bs } h fun hl => { hl with ringProd := hl.ringProd + 1 }

/-- R495: the vector of an event. -/
def eventVector (e : Event) : Nat := (e.job.map fun j => j.val).getD 16

def getVector (hl : HallState) (v : Nat) : Vector := tabGet {} hl.vectors v
def setVector (hl : HallState) (v : Nat) (x : Vector) : HallState := { hl with vectors := tabSet {} v x hl.vectors }

/-- R495: an event written counts at its vector; severity 3 to 6 fires it at once. -/
def noteVector (now : W64) (e : Event) (hl : HallState) : HallState :=
  let v := getVector hl (eventVector e)
  setVector hl (eventVector e)
    { v with count := v.count + 1, first := if v.count = 0 then now else v.first,
             urgent := v.urgent || (decide (3 ≤ e.severity.toNat) && decide (e.severity.toNat ≤ 6)) }

/-- R494: room has returned in the holding store: EV_RING_OVERFLOW with the count lost and the SEQ of the first. -/
def overflow (s : State) (h : Nat) : State :=
  let hl := getHall s h
  match hl.lostFirst with
  | none => s
  | some f =>
    pushEvent (modHall s h fun hl => { hl with lostFirst := none, lostNow := 0 }) h
      { code := 0x0009, payload := leBytes 4 hl.lostNow ++ leBytes 4 f.toNat }

/-- R484, R493: the Scrivener may write records of `n`. -/
def ringReady (s : State) (h n : Nat) : Bool :=
  let hl := getHall s h
  dieUp s && hl.ringEnable && hl.linkUp && hl.busMaster && decide (n ≤ ringRoom hl)

/-- EVENT_WRITE (R491 to R494): the oldest event waiting, with all of its records. -/
def runEventWrite (h : Hall) (s : State) : State :=
  match (getHall s h).held with
  | [] => s
  | e :: rest =>
    let n := eventRecords e.payload
    if ringReady s h n then
      let s := modHall s h fun hl => { hl with held := rest }
      let s := (List.range n).foldl (fun s i => putRecord s h e i (i + 1 < n)) s
      overflow (modHall s h (noteVector (now s h) e)) h
    else s

def execEventWrite (h : Hall) (s : State) : Host.Outcome State Fault Refusal := .next (runEventWrite h s)

/-! ## MSI-X (R495) -/

/-- R495: a vector is due: its count, its timer, or a severe event. -/
def vectorDue (hl : HallState) (now : W64) (v : Vector) : Bool :=
  decide (0 < v.count)
    && (v.urgent || decide (max 1 hl.coalCount ≤ v.count) || decide (1000 * hl.coalTimer ≤ (now - v.first).toNat))

/-- R495, the PCIe MSI-X rules: a vector masked by itself or by Function Mask keeps its pending bit, any other sends its message; the events it covers
are counted once. -/
def fireVector (s : State) (h v : Nat) : State :=
  let x := getVector (getHall s h) v
  let due := vectorDue (getHall s h) (now s h) x
  let y := if due then { x with count := 0, urgent := false } else x
  if x.masked || (getHall s h).msixMask then
    if due then modHall s h fun hl => setVector hl v { y with pendingBit := true } else s
  else if due || x.pendingBit then
    modHall { s with hostMem := putBytes s.hostMem x.addr.toNat (leBytes 4 x.data.toNat) } h fun hl =>
      setVector hl v { y with pendingBit := false }
  else s

/-- MSIX_FIRE (R495): with MSI-X enabled in the configuration space. -/
def runMsixFire (h : Hall) (v : Fin 17) (s : State) : State :=
  if dieUp s && (getHall s h).linkUp && (getHall s h).busMaster && (getHall s h).msixEnable then fireVector s h v else s

def execMsixFire (h : Hall) (v : Fin 17) (s : State) : Host.Outcome State Fault Refusal := .next (runMsixFire h v s)

/-! ## Ring registers (R493, R497) -/

/-- R497: SCB_RING_CFG written: SIZE_LOG2 while ENABLE is 0 and the value lies from 7 to 16; ENABLE from 0 to 1 sets PROD and CONS to 0. -/
def writeRingCfg (v : W32) (hl : HallState) : HallState :=
  let n := bitsOf v.toNat 0 5
  let on := bitOf v.toNat 31
  let hl := if !hl.ringEnable ∧ 7 ≤ n ∧ n ≤ 16 then { hl with ringSizeLog2 := n } else hl
  if on && !hl.ringEnable then { hl with ringEnable := true, ringProd := 0, ringCons := 0 }
  else { hl with ringEnable := on }

/-- SCB_RING_ENABLE (R497). -/
def runRingEnable (h : Hall) (v : W32) (s : State) : State := if hostUp s h then modHall s h (writeRingCfg v) else s

def execScbRingEnable (h : Hall) (v : W32) (s : State) : Host.Outcome State Fault Refusal := .next (runRingEnable h v s)

/-- R493, R497: SCB_RING_CONS written; a value beyond PROD is ignored. -/
def writeRingCons (v : W32) (hl : HallState) : HallState :=
  if 0 < (v - hl.ringProd).toInt then hl else { hl with ringCons := v }

/-- SCB_RING_CONS_WRITE (R493). -/
def runRingCons (h : Hall) (v : W32) (s : State) : State := if hostUp s h then modHall s h (writeRingCons v) else s

def execScbRingConsWrite (h : Hall) (v : W32) (s : State) : Host.Outcome State Fault Refusal := .next (runRingCons h v s)

end Sys2Proof.Machine
end

