-- ==== Sys2Proof/Machine/Tiles.lean ====
section
/-! DEFINITION. Output tiles: conversion and layout (R164, R165), tile status and the side record (R101 to R104, R166 to R169), and the
block reports of the Sealer (R265 to R267). -/

namespace Sys2Proof.Machine

/-- Where and how an output is written (R158, R164). -/
structure OutSpec where
  fmt : Nat
  rows : Nat
  ncols : Nat
  base : Nat
  stride : Nat
  ocoff : Nat
  t : Int
  deriving DecidableEq, Repr

/-- An output element before its conversion. -/
structure OutEl where
  v : W32 := 0
  skip : Bool := false
  poison : Bool := false
  sat : Bool := false
  deriving DecidableEq, Repr

/-! ## Layout -/

/-- The bytes of an output row (R168). -/
def outRowLen (o : OutSpec) : Nat :=
  if o.fmt = 0 then 1056 * ((32 * o.ocoff + o.ncols + 1023) / 1024) else o.ncols * floatBytes o.fmt

/-- The number of output tiles (R166). -/
def outTiles (o : OutSpec) : Nat := (o.ncols + 255) / 256

/-- R168: where the side record starts. -/
def sideBase (o : OutSpec) : Nat := (o.base + (o.rows - 1) * o.stride + outRowLen o + 63) / 64 * 64

/-- R168: the length H of the status part. -/
def statusLen (o : OutSpec) : Nat := 64 * ((outTiles o + 7) / 8)

/-- R164: element `x` of the A8 row `r`. -/
def a8Addr (o : OutSpec) (r x : Nat) : Nat := o.base + r * o.stride + 1056 * (x / 1024) + x % 1024

/-- R164: the sidecar of block `b` of the A8 row `r`. -/
def a8SideAddr (o : OutSpec) (r b : Nat) : Nat := o.base + r * o.stride + 1056 * (b / 32) + 1024 + b % 32

/-- The ranges one output row writes. -/
def outRowRanges (o : OutSpec) (r : Nat) : List Range :=
  if o.fmt = 0 then
    a8ElemRanges (o.base + r * o.stride) (32 * o.ocoff) ((o.ncols + 31) / 32 * 32)
      ++ a8SideRanges (o.base + r * o.stride) (32 * o.ocoff) ((o.ncols + 31) / 32 * 32)
  else [(o.base + r * o.stride, o.ncols * floatBytes o.fmt)]

/-- Every range an output writes, its side record with `red` reduction records included. -/
def outRanges (o : OutSpec) (red : Nat) : List Range :=
  (List.range o.rows).flatMap (outRowRanges o) ++ [(sideBase o, statusLen o + 8 * red)]

/-! ## Conversion -/

/-- R265: a block report. -/
structure BlockReport where
  elems : Nat
  nz : Nat
  lost : Nat
  maxf : Nat
  nan : Bool
  sat : Bool
  unf : Bool
  zero : Bool
  deriving DecidableEq, Repr

/-- A finite non-zero FP32 pattern. -/
def f32FiniteNz (b : W32) : Bool :=
  match f32 b with
  | .fin _ m _ => m != 0
  | _ => false

/-- The magnitude pattern of a finite value, 0 otherwise. -/
def f32MagFinite (b : W32) : Nat := if f32IsNan b || f32IsInf b then 0 else b.toNat % 2 ^ 31

/-- R265: the report of one converted block; none where no element took part. -/
def blockReport (xs : List OutEl) (blk : A8Block) : Option BlockReport :=
  let part := xs.filter fun x => !x.skip
  if part = [] then none
  else
    let sat := blk.side.getLsbD 5
    let unf := blk.side.getLsbD 6
    some { elems := part.length, nz := (part.filter fun x => f32FiniteNz x.v).length, lost := blk.lost,
           maxf := (part.map fun x => f32MagFinite x.v).foldl max 0,
           nan := sat && unf, sat := sat && !unf, unf := unf && !sat, zero := blk.m.all (· == 0) }

/-- A written piece with the columns it holds, its block report, and its SAT and UNF. -/
structure OutPiece where
  row : Nat
  col : Nat
  pieces : List Piece
  report : Option BlockReport
  sat : Bool
  unf : Bool
  deriving DecidableEq, Repr

/-- A piece of up to 8 float columns, with the store lines that hold a poisoned element. -/
def floatPiece (o : OutSpec) (r : Nat) (col : Nat) (xs : List OutEl) : OutPiece × List Nat :=
  let w := floatBytes o.fmt
  let at' (i : Nat) : Nat := o.base + r * o.stride + (col + i) * w
  ({ row := r, col := col,
     pieces := [(at' 0, xs.flatMap fun x => (leBytes w (if x.skip then 0 else f32ToFloat o.fmt x.v)).map fun b => (b, false))],
     report := none, sat := false, unf := false },
   (xs.mapIdx fun i x => if x.poison then linesOf (at' i, w) else []).flatten)

/-- One A8 block of a row: 32 columns from `col`, padded where the row ends. -/
def a8Piece (o : OutSpec) (r : Nat) (col : Nat) (xs : List OutEl) : OutPiece × List Nat :=
  let blk := toA8Block o.t ((List.range 32).map fun i =>
    match xs[i]? with
    | some x => (f32 x.v, x.skip)
    | none => (vZero, true))
  let x := 32 * o.ocoff + col
  let side := a8SideAddr o r (x / 32)
  let rep := blockReport xs blk
  ({ row := r, col := col,
     pieces := [(a8Addr o r x, blk.m.map fun b => (b, false)), (side, [(blk.side, false)])],
     report := rep, sat := (rep.map (·.sat)).getD false, unf := (rep.map (·.unf)).getD false },
   (xs.mapIdx fun i e => if e.poison then [(a8Addr o r x + i) / 64, side / 64] else []).flatten)

/-- The pieces of one output row. -/
def outRow (o : OutSpec) (r : Nat) (xs : List OutEl) : List (OutPiece × List Nat) :=
  if o.fmt = 0 then (chunksOf 32 xs).mapIdx fun i c => a8Piece o r (32 * i) c
  else (chunksOf 8 xs).mapIdx fun i c => floatPiece o r (8 * i) c

/-! ## Tile status (R101, R102, R166, R167) -/

/-- The status of one output tile. -/
structure TileStat where
  nan : Bool := false
  inf : Bool := false
  first : Option (Nat × Bool) := none
  sat : Bool := false
  unf : Bool := false
  metaDrop : Bool := false
  banded : Bool := false
  l128 : Bool := false
  skipped : Bool := false
  skipSpans : Nat := 0
  poison : Bool := false
  deriving DecidableEq, Repr

/-- R101: an element is infinite at the conversion, or becomes infinite in it. -/
def outInf (fmt : Nat) (v : W32) : Bool :=
  f32IsInf v || ((fmt == 1 || fmt == 2) && !f32IsNan v && vIsInf ((floatFmt fmt).decode (f32ToFloat fmt v)))

/-- One element taken into its tile's flags; `pos` is its tile index. -/
def tileEl (fmt : Nat) (t : TileStat) (pos : Nat) (x : OutEl) : TileStat :=
  if x.skip then { t with poison := t.poison || x.poison } else
    let n := f32IsNan x.v
    let i := outInf fmt x.v
    { t with nan := t.nan || n, inf := t.inf || i, l128 := t.l128 || x.sat, poison := t.poison || x.poison,
             first := if t.first.isSome then t.first else if n || i then some (pos, n) else none }

/-- The skipped spans of a tile's part of a row. -/
def skipCount (xs : List OutEl) : Nat := ((chunksOf 8 xs).filter fun c => (c.headD {}).skip).length

/-- The elements of tile `q`, row by row. -/
def tileRows (q : Nat) (rows : List (List OutEl)) : List (List OutEl) := rows.map fun r => (r.drop (256 * q)).take 256

/-- R166, R167: the status of tile `q`. -/
def tileStat (fmt q : Nat) (metaDrop banded : Bool) (rows : List (List OutEl)) (pieces : List OutPiece) : TileStat :=
  let part := tileRows q rows
  let mine := pieces.filter fun x => x.col / 256 == q
  let els := (part.mapIdx fun r xs => xs.mapIdx fun j x => (256 * r + j, x)).flatten
  let t := els.foldl (fun t x => tileEl fmt t x.1 x.2) {}
  let spans := (part.map skipCount).sum
  { t with sat := mine.any (·.sat), unf := mine.any (·.unf), metaDrop := metaDrop, banded := banded,
           skipped := decide (0 < spans), skipSpans := spans }

/-- R167: the tile status word. -/
def TileStat.word (t : TileStat) (q : Nat) : Nat :=
  let f := t.first.getD (0, false)
  f.1 * 2 ^ 48 + f.2.toNat * 2 ^ 47 + t.first.isSome.toNat * 2 ^ 46 + q * 2 ^ 32 + t.skipSpans * 2 ^ 16
    + t.poison.toNat * 256 + t.skipped.toNat * 128 + t.l128.toNat * 64 + t.banded.toNat * 32 + t.metaDrop.toNat * 16
    + t.unf.toNat * 8 + t.sat.toNat * 4 + t.inf.toNat * 2 + t.nan.toNat

/-- R167: the flags of a tile as FLAGS of the command. -/
def TileStat.flags (t : TileStat) : RecFlags :=
  { nan := t.nan, inf := t.inf, sat := t.sat, unf := t.unf, metaDrop := t.metaDrop, banded := t.banded, l128Sat := t.l128,
    skipped := t.skipped }

/-- What an output comes to: the pieces written, the block reports, the tiles, and the poison. -/
structure Output where
  pieces : List OutPiece
  lines : List Nat
  tiles : List TileStat
  deriving DecidableEq, Repr

/-- R169: a piece of an output with a byte in a line that is written with poison. -/
def OutPiece.inLines (lines : List Nat) (x : OutPiece) : Bool :=
  x.pieces.any fun b => (linesOf b.range).any lines.contains

/-- R167: tile `q` is written with a poisoned line. -/
def linesInTile (lines : List Nat) (pieces : List OutPiece) (q : Nat) : Bool := pieces.any fun x => x.col / 256 == q && x.inLines lines

/-- R164 to R169: an output converted. DESIGN CHOICE (log entry 143): where OSTRIDE makes rows of one output overlap, they are written in ascending
order; the manual gives no order within one command. -/
def makeOutput (o : OutSpec) (metaDrop banded : Bool) (rows : List (List OutEl)) : Output :=
  let ps := (rows.mapIdx fun r xs => outRow o r xs).flatten
  let lines := (ps.flatMap (·.2)).eraseDups
  { pieces := ps.map (·.1), lines := lines,
    tiles := (List.range (outTiles o)).map fun q =>
      let t := tileStat o.fmt q metaDrop banded rows (ps.map (·.1))
      { t with poison := t.poison || linesInTile lines (ps.map (·.1)) q } }

/-- The bytes of an output's elements. -/
def Output.elementPieces (x : Output) : List Piece := x.pieces.flatMap fun p => p.pieces

/-- R168: the status part of a side record. -/
def statusPiece (o : OutSpec) (tiles : List TileStat) : Piece :=
  (sideBase o, ((tiles.mapIdx fun (q : Nat) (t : TileStat) => leBytes 8 (t.word q)).flatten
    ++ List.replicate (statusLen o - 8 * tiles.length) 0).map fun b => (b, false))

/-- R169: the bytes that hold POISON of the tiles written with poisoned lines; a faulting command has written them. -/
def poisonStatus (o : OutSpec) (tiles : List TileStat) : List Piece :=
  (tiles.mapIdx fun q t => if t.poison then [(sideBase o + 8 * q + 1, [((1 : Byte), false)])] else []).flatten

/-- R168: the status words of the tiles with made-up spans. -/
def statusWords (o : OutSpec) (tiles : List TileStat) : List Piece :=
  (tiles.mapIdx fun (q : Nat) (t : TileStat) =>
    if t.skipped then [(sideBase o + 8 * q, (leBytes 8 (t.word q)).map fun b => (b, false))] else []).flatten

/-- The flags of every tile of an output. -/
def Output.flags (x : Output) : RecFlags := (x.tiles.map TileStat.flags).foldl RecFlags.or {}

/-! ## The Sealer's open statistics (R265, R266, R271) -/

def satAdd32 (a b : Nat) : Nat := satAdd (2 ^ 32 - 1) a b

/-- A block report added to the open statistics of a slot. -/
def addReport (t : Stats) (r : BlockReport) : Stats :=
  { t with
    blocks := satAdd32 t.blocks 1, sat := satAdd32 t.sat r.sat.toNat, unf := satAdd32 t.unf r.unf.toNat,
    nan := satAdd32 t.nan r.nan.toNat, zero := satAdd32 t.zero r.zero.toNat, elems := satAdd32 t.elems r.elems,
    nz := satAdd32 t.nz r.nz, lost := satAdd32 t.lost r.lost, maxFin := max t.maxFin r.maxf }

/-- R280, R511: what an armed SEA_FLIP of hall `h` leaves in the next slot-state word written there: what its reader will find, and the number of a free
value where three or more bits give the word another content. -/
def sealFlip (s : State) (h : Nat) : Nat × Option Nat × State :=
  let f := (getHall s h).seaFlip
  if !f.arm then (0, none, s) else
    let (n, s) := takeFree (modHall s h fun hl => { hl with seaFlip := { f with arm := false } })
    match eccOutcome f.bits (Config.freeNat n) with
    | .clean => (0, if f.bits = 0 then none else some n, s)
    | .corrected => (1, if f.bits = 1 then none else some n, s)
    | .uncorrectable => (2, none, s)

/-- R280: the open statistics of a slot in a hall written. -/
def putStats (s : State) (h j i : Nat) (v : Stats) : State :=
  let f := sealFlip s h
  setStats f.2.2 h j i { v with ecc := f.1, blocks := match f.2.1 with
    | none => v.blocks
    | some n => (Config.freeBits n).toNat % 2 ^ 32 }

/-- R271, R281: the open statistics of a slot in a hall as a reader finds them; after an uncorrectable error their first count is a free value. -/
def readStats (s : State) (h j i : Nat) : Stats × State :=
  let t := getStats s h j i
  if t.ecc = 0 then (t, s)
  else if t.ecc = 1 then ({ t with ecc := 0 }, sealCe s h)
  else
    let (n, s) := takeFree (sealUe s h j i)
    ({ t with ecc := 0, blocks := Config.freeNat n }, s)

/-- R265, R266: block reports of a command reach their slot in the hall of the reporting core; 0xFF names none. -/
def sealReports (s : State) (h j slot : Nat) (l : List BlockReport) : State :=
  if slot = 255 ∨ l = [] then s else
    let t := readStats s h j slot
    putStats t.2 h j slot (l.foldl addReport t.1)

/-- The tensor scale code a command read from a slot at its start. -/
def slotScale (c : InFlight) (slot : Nat) : Int := tabGet 0 c.sealT slot

end Sys2Proof.Machine
end

