-- ==== Sys2Proof/Machine/Weaver.lean ====
section
/-! DEFINITION. The Weaver (07): the reader of loose blocks (R120, R121, R180), the lanes and the merge tree (R174 to R178), and WVR.SPMM,
WVR.GATHER and WVR.DISPATCH. -/

namespace Sys2Proof.Machine

/-! ## Loose blocks (R120) -/

/-- The header of a loose block; `poison` where a byte of it is poisoned. -/
structure Loose where
  base : Nat
  rows : Nat
  cols1 : Nat
  vfmt : Nat
  t : Int
  nnz : Nat
  poison : Bool
  deriving DecidableEq, Repr

def align64 (n : Nat) : Nat := (n + 63) / 64 * 64

/-- The bytes of a value of a loose block. -/
def looseBytes (vfmt : Nat) : Nat := if vfmt = 0 then 1 else floatBytes vfmt

def looseOffs (base : Nat) : Nat := base + 64
def looseIdx (base rows : Nat) : Nat := align64 (looseOffs base + 4 * (rows + 1))
def looseVals (base rows nnz : Nat) : Nat := align64 (looseIdx base rows + 2 * nnz)
def looseSides (base rows nnz vfmt : Nat) : Nat := align64 (looseVals base rows nnz + looseBytes vfmt * nnz)

/-- The first byte after a float loose block. -/
def looseEnd (base rows nnz vfmt : Nat) : Nat := looseVals base rows nnz + looseBytes vfmt * nnz

/-- R180: how many entries of a block lie wholly within the store; values count only where they are read. -/
def Loose.fit (b : Loose) (vals : Bool) : Nat :=
  let i := (storeSize - looseIdx b.base b.rows) / 2
  if !vals then i else
    let v := min i ((storeSize - looseVals b.base b.rows b.nnz) / looseBytes b.vfmt)
    if b.vfmt = 0 then min v (32 * (storeSize - looseSides b.base b.rows b.nnz 0)) else v

/-! ## The reader (R180) -/

/-- A kept entry: its contraction index, its entry number, its lane (R174) and its exact value. -/
structure WEntry where
  i : Nat
  x : Nat := 0
  lane : Nat
  v : Val
  deriving DecidableEq, Repr

/-- R174. -/
def laneOf (i : Nat) : Nat := i / 16 % 64

/-- A row as read: offset(r), the kept entries, and whether a byte read was poisoned. -/
structure WRow where
  start : Nat := 0
  ents : List WEntry := []
  poison : Bool := false
  deriving DecidableEq, Repr

/-- The reader's progress through a command: the blocks and rows read so far, the drops, and whether poison was met. `avoid` are the ranges the
command may write, in which a read takes by free choice the earlier byte or one the command writes (R192); `guesses` are the bytes so taken, which
the command's writes must bear out, and poisoned only where the command has met poison, now or (`tainted`) with all its reads of earlier bytes. -/
structure Reader where
  st : State
  p : Nat
  avoid : List Range := []
  tainted : Bool := false
  guesses : List (Nat × Byte × Bool) := []
  blocks : List Loose := []
  rows : List ((Nat × Nat) × WRow) := []
  overfull : Nat := 0
  range : Nat := 0
  order : Nat := 0
  poison : Bool := false

/-- R192: one byte read that the command may write: the earlier byte, or one that it writes, as a free value. -/
def Reader.overByte (r : Reader) (off : Nat) : (Byte × Bool) × Reader :=
  let f := takeFree r.st
  if (r.avoid.any fun x => meets x (off, 1)) && Config.freeBool f.1 then
    let b := ((Config.freeBits f.1).setWidth 8, (r.tainted || r.poison) && (Config.freeBits f.1).getLsbD 8)
    (b, { r with st := f.2, guesses := (off, b) :: r.guesses })
  else
    let a := storeRead f.2 r.p off 1
    (a.bytes.headD (0, false), { r with st := a.st })

/-- Bytes read one by one. -/
def Reader.overBytes (r : Reader) (off n : Nat) : List (Byte × Bool) × Reader :=
  match n with
  | 0 => ([], r)
  | n + 1 =>
    let a := r.overByte off
    let b := Reader.overBytes a.2 (off + 1) n
    (a.1 :: b.1, b.2)

/-- Bytes read by the reader. -/
def Reader.bytes (r : Reader) (off n : Nat) : List (Byte × Bool) × Reader :=
  if anyMeets [(off, n)] r.avoid then
    let a := r.overBytes off n
    (a.1, { a.2 with poison := a.2.poison || anyPoison a.1 })
  else
    let a := storeRead r.st r.p off n
    (a.bytes, { r with st := a.st, poison := r.poison || anyPoison a.bytes })

/-- Several ranges read by the reader. -/
def Reader.ranges (r : Reader) (l : List Range) : List (Byte × Bool) × Reader :=
  match l with
  | [] => ([], r)
  | x :: t =>
    let a := r.bytes x.1 x.2
    let b := Reader.ranges a.2 t
    (a.1 ++ b.1, b.2)

/-- R192: every byte taken as one the command writes is one. -/
def Reader.bornOut (r : Reader) (l : List Piece) : Bool := r.guesses.all fun g => writesByte l g.1 g.2

/-- A little-endian number read by the reader, and its poison. -/
def Reader.num (r : Reader) (off n : Nat) : Nat × Bool × Reader :=
  let a := r.bytes off n
  (leNat (a.1.map (·.1)), anyPoison a.1, a.2)

/-- A block's header, read once per command; a reserved VFMT counts min(NNZ, 65,535) in META_RANGE. -/
def Reader.block (r : Reader) (base : Nat) : Loose × Reader :=
  match r.blocks.find? fun b => b.base == base with
  | some b => (b, r)
  | none =>
    let a := r.bytes base 64
    let f (o n : Nat) : Nat := leNat ((sliceD (0, false) a.1 o n).map (·.1))
    let b : Loose :=
      { base := base, rows := f 0 4, cols1 := f 4 2, vfmt := f 6 1 % 16, t := signed 8 (f 7 1), nnz := f 8 4,
        poison := anyPoison a.1 }
    let bad := if 3 < b.vfmt then min b.nnz 65535 else 0
    (b, { a.2 with blocks := b :: a.2.blocks, range := a.2.range + bad })

/-- The value of entry `x`; 1 where values are not read. -/
def Reader.value (r : Reader) (b : Loose) (vals : Bool) (x : Nat) : Val × Bool × Reader :=
  if !vals then (.fin false 1 0, false, r)
  else if b.vfmt = 0 then
    let m := r.num (looseVals b.base b.rows b.nnz + x) 1
    let d := m.2.2.num (looseSides b.base b.rows b.nnz 0 + x / 32) 1
    (a8Val (BitVec.ofNat 8 m.1) (BitVec.ofNat 8 d.1) b.t, m.2.1 || d.2.1, d.2.2)
  else
    let w := looseBytes b.vfmt
    let m := r.num (looseVals b.base b.rows b.nnz + w * x) w
    ((floatFmt b.vfmt).decode m.1, m.2.1, m.2.2)

/-- R121: `n` entries from entry `x`; an index below `lo` breaks the order. -/
def Reader.entries (r : Reader) (b : Loose) (vals : Bool) (n x lo : Nat) : List WEntry × Bool × Reader :=
  match n with
  | 0 => ([], false, r)
  | n + 1 =>
    let i := r.num (looseIdx b.base b.rows + 2 * x) 2
    if i.1 < lo then ([], i.2.1, { i.2.2 with order := i.2.2.order + (n + 1) })
    else if b.cols1 < i.1 then
      let t := Reader.entries { i.2.2 with range := i.2.2.range + 1 } b vals n (x + 1) (i.1 + 1)
      (t.1, i.2.1 || t.2.1, t.2.2)
    else
      let v := i.2.2.value b vals x
      let t := Reader.entries v.2.2 b vals n (x + 1) (i.1 + 1)
      ({ i := i.1, x := x, lane := laneOf i.1, v := v.1 } :: t.1, i.2.1 || v.2.1 || t.2.1, t.2.2)

/-- R121, R180: a row read for the first time. -/
def Reader.readRow (r : Reader) (b : Loose) (vals : Bool) (row : Nat) : WRow × Reader :=
  if 3 < b.vfmt ∨ b.rows ≤ row then ({ poison := b.poison }, r)
  else if storeSize < looseOffs b.base + 4 * row + 8 then ({ poison := b.poison }, { r with range := r.range + 1 })
  else
    let s := r.num (looseOffs b.base + 4 * row) 4
    let e := s.2.2.num (looseOffs b.base + 4 * row + 4) 4
    let pz := b.poison || s.2.1 || e.2.1
    if e.1 < s.1 then ({ start := s.1, poison := pz }, { e.2.2 with order := e.2.2.order + 1 })
    else
      let lim := min b.nnz (b.fit vals)
      let r := { e.2.2 with range := e.2.2.range + (e.1 - max s.1 lim) }
      let t := r.entries b vals (min e.1 lim - s.1) s.1 0
      ({ start := s.1, ents := t.1, poison := pz || t.2.1 }, t.2.2)

/-- R180: row `row` of the block at `base`, read at most once per command. -/
def Reader.row (r : Reader) (base : Nat) (vals : Bool) (row : Nat) : WRow × Reader :=
  match r.rows.find? fun x => x.1 == (base, row) with
  | some x => (x.2, r)
  | none =>
    let b := r.block base
    let x := b.2.readRow b.1 vals row
    (x.1, { x.2 with rows := ((base, row), x.1) :: x.2.rows })

/-- Several rows in turn. -/
def Reader.rowList (r : Reader) (base : Nat) (vals : Bool) (l : List Nat) : List WRow × Reader :=
  match l with
  | [] => ([], r)
  | x :: t =>
    let a := r.row base vals x
    let b := a.2.rowList base vals t
    (a.1 :: b.1, b.2)

/-- R180, R228: a twin panel read and checked, with its bytes. DESIGN CHOICE (log entry 187): all of it is read, so poison anywhere in it counts. -/
def Reader.panel (r : Reader) (base wfmt : Nat) (p : Pattern) : Array Byte × CheckedPanel × Bool × Reader :=
  let a := r.bytes base (panelSize wfmt p)
  let arr := dataArray a.1
  let c := checkPanel wfmt p arr
  let n := removedFor wfmt p false 0 c
  (arr, c, anyPoison a.1,
    { a.2 with overfull := a.2.overfull + n.1, range := a.2.range + n.2.1, order := a.2.order + n.2.2 })

/-- R177, R183: column `n` of a twin panel as a stream. -/
def panelStream (wfmt : Nat) (arr : Array Byte) (c : CheckedPanel) (n : Nat) : List WEntry :=
  c.rows.flatMap fun l => (l.filter fun e => e.col == n).map fun e =>
    { i := e.row, x := e.slot, lane := laneOf e.row,
      v := vMul (valOfInt (codeWeight wfmt e.code) (if wfmt = 5 then -1 else 0)) (f32 (panelScale arr n)) }

/-! ## Lanes and tree -/

/-- R175: the matches of two streams of a lane; `fuel` bounds the steps. -/
def mergeLane (fuel : Nat) (a b : List WEntry) : List (WEntry × WEntry) :=
  match fuel, a, b with
  | 0, _, _ => []
  | _, [], _ => []
  | _, _, [] => []
  | f + 1, x :: a', y :: b' =>
    if x.i = y.i then (x, y) :: mergeLane f a' b'
    else if x.i < y.i then mergeLane f a' (y :: b')
    else mergeLane f (x :: a') b'

/-- The matches of a key, lane by lane. -/
def keyMatches (a b : List WEntry) : List (List (WEntry × WEntry)) :=
  (List.range 64).map fun l =>
    let x := a.filter fun e => e.lane == l
    let y := b.filter fun e => e.lane == l
    mergeLane (x.length + y.length) x y

/-- R177: a product, rounded once. -/
def wProduct (a b : Val) : W32 := toF32 (vMul a b)

/-- R177: a lane's partial sum; nothing where it made no match. -/
def lanePartial (l : List W32) : Option W32 :=
  match l with
  | [] => none
  | x :: r => some (r.foldl f32Add x)

/-- R178: a node's entry. -/
def treeNode (a b : Option W32) : Option W32 :=
  match a, b with
  | some x, some y => some (f32Add x y)
  | some x, none => some x
  | none, y => y

/-- R178: one level of the tree. -/
def treeLevel (l : List (Option W32)) : List (Option W32) :=
  match l with
  | a :: b :: r => treeNode a b :: treeLevel r
  | l => l

/-- R178: the root entry of a key, from its lanes' products. -/
def treeRoot (l : List (List W32)) : Option W32 :=
  (treeLevel (treeLevel (treeLevel (treeLevel (treeLevel (treeLevel (l.map lanePartial))))))).headD none

/-- The products of a key's matches. -/
def keyProducts (l : List (List (WEntry × WEntry))) : List (List W32) := l.map fun m => m.map fun x => wProduct x.1.v x.2.v

/-- R176: the entries that go to each lane for a key. -/
def laneLoad (a b : List WEntry) : List Nat :=
  (List.range 64).map fun l => ((a ++ b).filter fun e => e.lane == l).length

/-- R176: the entries of all the keys that go to the busiest lane. -/
def crowdOf (l : List (List Nat)) : Nat := (l.foldl (List.zipWith (· + ·)) (List.replicate 64 0)).foldl max 0

/-- The matches of a key, counted. -/
def matchCount (l : List (List (WEntry × WEntry))) : Nat := (l.map (·.length)).sum

/-! ## The lane queues' check bits (R176, R191, R195) -/

/-- R195, R511: an armed WVR_FLIP acts on the first lane-queue entry written, which its lane reads in the same command.
Answers the entry as it leaves the queue, and whether it was uncorrectable. -/
def Reader.flipEntry (r : Reader) (e : WEntry) : WEntry × Bool × Reader :=
  let p := r.p
  let f := (getPos r.st p).wvrFlip
  if !f.arm then (e, false, r) else
    let (n, s) := if f.bits ≤ 2 then (0, r.st) else takeFree r.st
    let s := modPos s p fun ps => { ps with wvrFlip := { f with arm := false } }
    match eccOutcome f.bits (Config.freeNat n) with
    | .clean => ({ e with i := e.i ^^^ f.data }, false, { r with st := s })
    | .corrected =>
      (if f.bits = 1 then e else { e with i := ((Config.freeBits n).setWidth 16).toNat }, false,
        { r with st := raiseQuiet (modPos s p fun ps => { ps with wvrEcc := ps.wvrEcc.addCe }) (p / 72) 20 })
    | .uncorrectable =>
      (e, true, { r with poison := true, st := raiseEngineUe (modPos s p fun ps => { ps with wvrEcc := ps.wvrEcc.addUe }) p })

/-- The flip applied to the first entry of the first stream that has one. -/
def Reader.flipFirst (r : Reader) (l : List WRow) : List WRow × Reader :=
  match l with
  | [] => ([], r)
  | x :: t =>
    match x.ents with
    | [] =>
      let a := r.flipFirst t
      (x :: a.1, a.2)
    | e :: es =>
      let a := r.flipEntry e
      ({ x with ents := a.1 :: es, poison := x.poison || a.2.1 } :: t, a.2.2)

/-- The flip over the keys of two lists of streams in their order (R177): key (0, 0) meets stream 0 of both, and every stream of `b` comes before the
second of `a`. -/
def Reader.flipKeys (r : Reader) (a b : List WRow) : List WRow × List WRow × Reader :=
  match a with
  | [] => ([], b, r)
  | x :: t =>
    if !x.ents.isEmpty then
      let f := r.flipFirst a
      (f.1, b, f.2)
    else if b.any fun y => !y.ents.isEmpty then
      let f := r.flipFirst b
      (a, f.1, f.2)
    else
      let f := r.flipFirst t
      (x :: f.1, b, f.2)

/-! ## Ending a command (R181, R190, R191, R192) -/

/-- What a command comes to: the reader, the bytes to write, the block reports, the matches and the flags, the entries that went to the busiest
lane (R176), and for each tile with poison its poisoned lines and its POISON bit (R191). -/
structure WRes where
  rd : Reader
  pieces : List Piece
  reports : List BlockReport := []
  found : Nat
  flags : RecFlags
  crowd : Nat
  marks : List (List Nat × Piece) := []

/-- R192: where the command's writes lie over bytes it reads, each such byte read is the earlier one or one the command wrote. Reads that its writes do
not bear out are all of earlier bytes. -/
def withOverlap (s : State) (p : Nat) (w : List Range) (f : Reader → WRes) : WRes :=
  let plain := f { st := s, p := p }
  let r := f { st := s, p := p, avoid := w, tainted := plain.rd.poison }
  if r.rd.bornOut r.pieces then r else plain

/-- R181: some entry was dropped. -/
def Reader.dropped (r : Reader) : Bool := decide (0 < r.overfull + r.range + r.order)

/-- R176, R181: the Weaver's counters. Delivery is never held while no lane gets more than 64 entries; beyond that the count is left to timing. -/
def weaverCounts (s : State) (p found drops crowd : Nat) : State :=
  let f := takeFree s
  modPos f.2 p fun ps =>
    { ps with wvrMatch := ps.wvrMatch + BitVec.ofNat 32 found, wvrDrop := ps.wvrDrop + BitVec.ofNat 32 drops,
              wvrQfull := ps.wvrQfull + BitVec.ofNat 32 (if crowd ≤ 64 then 0 else Config.freeNat f.1) }

/-- R75, R191: what a Weaver command that met poison has written: of the tiles with poison those it has reached, by a free choice, with every poisoned
byte of their lines and their POISON bits, and of the other bytes each or not. -/
def partWeaver (s : State) (p : Nat) (r : WRes) : State :=
  let x := freeSome s (fun _ => false) r.marks
  let reached := x.2.flatMap (·.1)
  let some' := r.marks.flatMap (·.1)
  let byte (off : Nat) (b : Byte × Bool) : Bool := !b.2 || !(some'.contains (off / 64)) || reached.contains (off / 64)
  let part (a : Piece) : List Piece := a.2.mapIdx (fun i b => (a.1 + i, [b])) |>.filter fun y => y.2.all (byte y.1)
  let sure (y : Piece) : Bool := y.2.any (·.2) && reached.contains (y.1 / 64)
  let y := freeSome x.1 sure (r.pieces.flatMap part)
  putPieces (putPieces y.1 p y.2) p ((r.marks.filter fun m => m.1.any reached.contains).map (·.2))

/-- R75, R191: a Weaver command that met poison: what it has written, reported and counted is left open. -/
def faultWeaver (s : State) (n p : Nat) (c : InFlight) (tslot : Nat) (r : WRes) : State :=
  let b := freeSome (partWeaver s p r) (fun _ => false) r.reports
  let f := takeFree (sealReports b.1 (n / 64) (hdrJob c.cmd) tslot b.2)
  weaverCounts f.2 p (Config.freeNat f.1 % (r.found + 1)) (r.rd.overfull + r.rd.range + r.rd.order) r.crowd

/-- A Weaver command ends. -/
def endWeaver (n : Nat) (k p : Nat) (c : InFlight) (tslot : Nat) (r : WRes) : State :=
  if r.rd.poison then endPoison (faultWeaver r.rd.st n p c tslot r) k c
  else
    let s := sealReports (putPieces r.rd.st p r.pieces) (n / 64) (hdrJob c.cmd) tslot r.reports
    let s := weaverCounts s p r.found (r.rd.overfull + r.rd.range + r.rd.order) r.crowd
    completeDone s k c (r.flags.or { metaDrop := r.rd.dropped }).toNat
      [recCount r.rd.overfull, recCount r.rd.range, recCount r.rd.order, 0]

/-- Unpoisoned bytes as a piece. -/
def plainPiece (off : Nat) (bs : List Byte) : Piece := (off, bs.map fun b => (b, false))

/-- An entry of a loose block to be written: its index, its value, and the poison it comes from. -/
structure LooseEl where
  i : Nat
  v : W32
  poison : Bool := false
  deriving DecidableEq, Repr

/-- Bytes with one poison mark. -/
def markBytes (poison : Bool) (bs : List Byte) : List (Byte × Bool) := bs.map fun b => (b, poison)

/-- A small loose block written by the module: FP32 values, TSCALE 0 (R187, R229); what comes from poison, the counts of poisoned entries among it, is poisoned (R191). DESIGN CHOICE (log entry
151): the bytes between its planes stay as they were. -/
def loosePieces (base rows cols1 : Nat) (ents : List (List LooseEl)) : List Piece :=
  let all := ents.flatten
  let nnz := all.length
  let tainted (l : List (List LooseEl)) : Bool := l.any fun x => x.any (·.poison)
  [(base, markBytes false (leBytes 4 rows ++ leBytes 2 cols1 ++ [3, 0]) ++ markBytes (tainted ents) (leBytes 4 nnz)
      ++ markBytes false (List.replicate 52 0)),
   (looseOffs base, (List.range (rows + 1)).flatMap fun i =>
      markBytes (tainted (ents.take i)) (leBytes 4 ((ents.take i).map (·.length)).sum)),
   (looseIdx base rows, all.flatMap fun e => markBytes e.poison (leBytes 2 e.i)),
   (looseVals base rows nnz, all.flatMap fun e => markBytes e.poison (leBytes 4 e.v.toNat))]

/-! ## Output rules shared by the checks (R159, R184) -/

/-- The alignment an operand of a format needs. -/
def fmtAlign (fmt : Nat) : Nat := if fmt = 0 then 32 else floatBytes fmt

/-- R159, R184: an output's format, slot, offset and alignment. -/
def outFieldsOk (o : OutSpec) (tslot : Nat) : Bool :=
  decide (o.fmt ≤ 3) && (o.fmt != 0 || (tslot != 255 && decide (32 * o.ocoff + o.ncols ≤ 1024)))
    && (o.fmt == 0 || o.ocoff == 0) && o.base % fmtAlign o.fmt == 0 && o.stride % fmtAlign o.fmt == 0

/-- R182: a loose block or panel header at a multiple of 64, wholly within the store. -/
def headerOk (base : Nat) : Bool := base % 64 == 0 && inStore (base, 64)

/-- R184, R192: the ranges written lie within the store and off the headers read. -/
def writesOk (w : List Range) (headers : List Nat) : Bool := w.all inStore && !anyMeets w (headers.map fun b => (b, 64))

/-! ## WVR.SPMM (R183, R184) -/

structure SpmmOps where
  btwin : Bool
  bfmt : Nat
  pattern : Nat
  tslot : Nat
  arow0 : Nat
  brow0 : Nat
  abase : Nat
  bbase : Nat
  out : OutSpec
  deriving DecidableEq, Repr

/-- The operands of WVR.SPMM, with the tensor scale code `t` of its slot. -/
def spmmOps (c : BitVec 512) (t : Int) : SpmmOps :=
  { btwin := fld c 24 0 1 == 1, bfmt := fld c 25 0 4, pattern := fld c 25 4 4, tslot := fld c 27 0 8, arow0 := fld c 32 0 32,
    brow0 := fld c 36 0 32, abase := fld c 40 0 22, bbase := fld c 43 0 22,
    out := { fmt := fld c 26 0 4, rows := fld c 28 0 8 + 1, ncols := fld c 30 0 10 + 1, base := fld c 46 0 22,
             stride := fld c 49 0 22, ocoff := fld c 29 0 5, t := t } }

/-- R184: check 6 of WVR.SPMM. DESIGN CHOICE (log entry 188): a side record over the planes of a twin panel passes, as R192 has it. -/
def spmmOk (c : BitVec 512) : Bool :=
  let o := spmmOps c 0
  (if o.btwin then
      (o.bfmt == 4 || o.bfmt == 5) && decide (1 ≤ o.pattern) && patternOk o.pattern && o.brow0 == 0
        && decide (o.out.ncols ≤ panelCols o.bfmt) && inStore (o.bbase, panelSize o.bfmt (patternOf o.pattern))
    else o.bfmt == 0 && o.pattern == 0)
    && outFieldsOk o.out o.tslot && headerOk o.abase && headerOk o.bbase
    && writesOk (outRanges o.out 0) [o.abase, o.bbase]

/-- The B streams of a command. -/
def spmmB (r : Reader) (o : SpmmOps) : List WRow × Reader :=
  if o.btwin then
    let p := r.panel o.bbase o.bfmt (patternOf o.pattern)
    ((List.range o.out.ncols).map fun n => { ents := panelStream o.bfmt p.1 p.2.1 n, poison := p.2.2.1 : WRow }, p.2.2.2)
  else r.rowList o.bbase true ((List.range o.out.ncols).map fun n => o.brow0 + n)

/-- An output of the Weaver with its side records, as pieces, poison where a value was poisoned (R190, R191); its block reports, its flags, and its tiles with
poison. -/
def weaverOut (r : Reader) (o : OutSpec) (rows : List (List OutEl)) (side : List Piece) (found crowd : Nat) : WRes :=
  let out := makeOutput o r.dropped false rows
  { rd := r, pieces := spreadPoison (poisonLines out.lines (out.elementPieces ++ [statusPiece o out.tiles] ++ side)),
    reports := out.pieces.filterMap (·.report), flags := out.flags, found := found, crowd := crowd,
    marks := (out.tiles.mapIdx fun (q : Nat) (t : TileStat) =>
      if t.poison then
        [(out.lines.filter fun x => linesInTile [x] out.pieces q, (sideBase o + 8 * q + 1, [((1 : Byte), false)]))]
      else []).flatten }

/-- WVR.SPMM computed: key 1,024 r + n has row AROW0 + r and row or column n as its streams (R183). -/
def spmmRes (o : SpmmOps) (r : Reader) : WRes :=
  let a := r.rowList o.abase true ((List.range o.out.rows).map fun r => o.arow0 + r)
  let b := spmmB a.2 o
  let f := b.2.flipKeys a.1 b.1
  let keys := a.1.mapIdx fun (r : Nat) (x : WRow) => b.1.mapIdx fun (n : Nat) (y : WRow) =>
    let x := if n = 0 then f.1.getD r x else x
    let y := if r = 0 then f.2.1.getD n y else y
    (keyMatches x.ents y.ents, x.poison || y.poison)
  let rows := keys.map fun l => l.map fun k =>
    { v := (treeRoot (keyProducts k.1)).getD 0, poison := k.2 : OutEl }
  weaverOut f.2.2 o.out rows [] ((keys.map fun l => (l.map fun k => matchCount k.1).sum).sum)
    (crowdOf (a.1.flatMap fun x => b.1.map fun y => laneLoad x.ents y.ents))

/-- WVR.SPMM (R183). -/
def runSpmm (n : Nat) (s : State) : State :=
  let k := 4 * n + 1
  match headOp s k 0x40, corePos s n with
  | some c, some p =>
    let o := spmmOps c.cmd (slotScale c (fld c.cmd 27 0 8))
    endWeaver n k p c o.tslot (withOverlap s p (outRanges o.out 0) (spmmRes o))
  | _, _ => s

def execWvrSpmm (n : Core) (s : State) : Host.Outcome State Fault Refusal := .next (runSpmm n s)

/-! ## WVR.GATHER (R185, R186) -/

structure GatherOps where
  tfmt : Nat
  unit : Bool
  tslot : Nat
  tsc : Int
  arow0 : Nat
  abase : Nat
  dbase : Nat
  tbase : Nat
  tstride : Nat
  out : OutSpec
  deriving DecidableEq, Repr

def gatherOps (c : BitVec 512) (t : Int) : GatherOps :=
  { tfmt := fld c 24 0 4, unit := fld c 24 4 1 == 1, tslot := fld c 26 0 8, tsc := sfld c 30, arow0 := fld c 32 0 32,
    abase := fld c 36 0 22, dbase := fld c 39 0 22, tbase := fld c 42 0 22, tstride := fld c 45 0 22,
    out := { fmt := fld c 25 0 4, rows := fld c 27 0 8 + 1, ncols := fld c 28 0 10 + 1, base := fld c 48 0 22,
             stride := fld c 51 0 22, ocoff := fld c 31 0 5, t := t } }

/-- The side record of WVR.GATHER: status words, then the misses from byte 64 (R190). -/
def gatherSide (o : OutSpec) : Range := (sideBase o, 64 + 4 * o.rows)

/-- R186: check 6 of WVR.GATHER. -/
def gatherOk (c : BitVec 512) : Bool :=
  let o := gatherOps c 0
  decide (o.tfmt ≤ 3) && scaleOk o.tsc && (o.tfmt == 0 || o.tsc == 0)
    && o.tbase % fmtAlign o.tfmt == 0 && o.tstride % fmtAlign o.tfmt == 0
    && outFieldsOk o.out o.tslot && headerOk o.abase && headerOk o.dbase
    && writesOk (gatherSide o.out :: outRanges o.out 0) [o.abase, o.dbase]

/-- The bytes of a slice or token row: a tile of R88 for A8. -/
def tableRowLen (fmt width : Nat) : Nat := if fmt = 0 then 1056 else floatBytes fmt * width

/-- A row of `n` elements of a format read by the reader. -/
def Reader.rowElems (r : Reader) (fmt base n : Nat) : List Elem × Reader :=
  if fmt = 0 then
    let a := r.ranges (a8ElemRanges base 0 n)
    let b := a.2.ranges (a8SideRanges base 0 n)
    (a8Elems a.1 b.1, b.2)
  else
    let a := r.bytes base (floatBytes fmt * n)
    (floatElems fmt a.1, a.2)

/-- R185, R186: the elements of slice row `j`; a row partly outside the store reads as poisoned. -/
def Reader.slice (r : Reader) (o : GatherOps) (j : Nat) : List Val × Bool × Reader :=
  let base := o.tbase + j * o.tstride
  let w := o.out.ncols
  if !inStore (base, tableRowLen o.tfmt w) then (List.replicate w vZero, true, { r with poison := true })
  else
    let a := r.rowElems o.tfmt base w
    (a.1.map fun x => if o.tfmt = 0 then valOfInt x.m ((x.e : Int) - 16 + o.tsc) else f32 x.bits, a.1.any (·.poison), a.2)

/-- The products of a bag's matches, element by element. -/
def Reader.bagProducts (r : Reader) (o : GatherOps) (d0 : Nat) (l : List (WEntry × WEntry)) :
    List (Nat × List W32) × Bool × Reader :=
  match l with
  | [] => ([], false, r)
  | m :: t =>
    let a := r.slice o (m.2.x - d0)
    let b := a.2.2.bagProducts o d0 t
    ((m.1.lane, a.1.map (wProduct m.1.v)) :: b.1, a.2.1 || b.2.1, b.2.2)

/-- One bag: its output row, the matches and the misses. -/
structure Bag where
  row : List OutEl
  found : Nat
  misses : Nat
  poison : Bool
  load : List Nat

/-- R185: a bag. -/
def Reader.bag (r : Reader) (o : GatherOps) (a d : WRow) : Bag × Reader :=
  let ms := (keyMatches a.ents d.ents).flatten
  let ps := r.bagProducts o d.start ms
  let pz := a.poison || d.poison || ps.2.1
  ({ row := (List.range o.out.ncols).map fun c =>
       { v := (treeRoot ((List.range 64).map fun l =>
           (ps.1.filter fun x => x.1 == l).map fun x => x.2.getD c 0)).getD 0, poison := pz },
     found := ms.length, misses := a.ents.length - ms.length, poison := pz, load := laneLoad a.ents d.ents }, ps.2.2)

/-- Every bag in turn. -/
def Reader.bags (r : Reader) (o : GatherOps) (d : WRow) (l : List WRow) : List Bag × Reader :=
  match l with
  | [] => ([], r)
  | a :: t =>
    let x := r.bag o a d
    let y := x.2.bags o d t
    (x.1 :: y.1, y.2)

/-- Every bag in turn; the directory's first delivery, to bag 0, is `d0`. -/
def Reader.bagRows (r : Reader) (o : GatherOps) (d d0 : WRow) (l : List WRow) : List Bag × Reader :=
  match l with
  | [] => ([], r)
  | a :: t =>
    let x := r.bag o a d0
    let y := x.2.bags o d t
    (x.1 :: y.1, y.2)

/-- WVR.GATHER computed. -/
def gatherRes (o : GatherOps) (r : Reader) : WRes :=
  let a := r.rowList o.abase (!o.unit) ((List.range o.out.rows).map fun r => o.arow0 + r)
  let d := a.2.row o.dbase true 0
  let f := d.2.flipKeys a.1 [d.1]
  let b := f.2.2.bagRows o d.1 (f.2.1.getD 0 d.1) f.1
  let side : Piece := (sideBase o.out + 64, b.1.flatMap fun x => markBytes x.poison (leBytes 4 x.misses))
  weaverOut b.2 o.out (b.1.map (·.row)) [side] ((b.1.map (·.found)).sum) (crowdOf (b.1.map (·.load)))

/-- WVR.GATHER (R185). -/
def runGather (n : Nat) (s : State) : State :=
  let k := 4 * n + 1
  match headOp s k 0x41, corePos s n with
  | some c, some p =>
    let o := gatherOps c.cmd (slotScale c (fld c.cmd 26 0 8))
    endWeaver n k p c o.tslot (withOverlap s p (gatherSide o.out :: outRanges o.out 0) (gatherRes o))
  | _, _ => s

def execWvrGather (n : Core) (s : State) : Host.Outcome State Fault Refusal := .next (runGather n s)

/-! ## WVR.DISPATCH (R187, R188) -/

structure DispatchOps where
  xfmt : Nat
  experts : Nat
  cap : Nat
  tokens : Nat
  width : Nat
  rbase : Nat
  xbase : Nat
  xstride : Nat
  ybase : Nat
  ystride : Nat
  rtbase : Nat
  sbase : Nat
  deriving DecidableEq, Repr

def dispatchOps (c : BitVec 512) : DispatchOps :=
  { xfmt := fld c 24 0 4, experts := fld c 25 0 8 + 1, cap := fld c 26 0 12 + 1, tokens := fld c 28 0 16 + 1,
    width := fld c 30 0 10 + 1, rbase := fld c 32 0 22, xbase := fld c 35 0 22, xstride := fld c 38 0 22,
    ybase := fld c 41 0 22, ystride := fld c 44 0 22, rtbase := fld c 47 0 22, sbase := fld c 50 0 22 }

/-- The bytes WVR.DISPATCH may write: the rows of the buffers, RT and the dispatch record. -/
def dispatchWrites (o : DispatchOps) : List Range :=
  ((List.range (o.experts * o.cap)).map fun i => (o.ybase + i * o.ystride, tableRowLen o.xfmt o.width))
  ++ [(o.rtbase, looseEnd o.rtbase o.experts (o.experts * o.cap) 3 - o.rtbase), (o.sbase, 8 * o.experts)]

/-- R188: check 6 of WVR.DISPATCH. -/
def dispatchOk (c : BitVec 512) : Bool :=
  let o := dispatchOps c
  decide (o.xfmt ≤ 3) && headerOk o.rbase && headerOk o.rtbase
    && [o.xbase, o.xstride, o.ybase, o.ystride].all (fun a => a % fmtAlign o.xfmt == 0)
    && writesOk (dispatchWrites o) [o.rbase]

/-- The bytes of a token row; a row partly outside the store reads as poisoned (log entry 30). -/
def Reader.token (r : Reader) (o : DispatchOps) (t : Nat) : List (Byte × Bool) × Reader :=
  let len := tableRowLen o.xfmt o.width
  if inStore (o.xbase + t * o.xstride, len) then r.bytes (o.xbase + t * o.xstride) len
  else (List.replicate len (0, true), { r with poison := true })

/-- Expert `e`'s buffer rows, its copied tokens in slot order from slot `i`. -/
def Reader.copies (r : Reader) (o : DispatchOps) (e i : Nat) (l : List (Nat × WEntry)) : List Piece × Reader :=
  match l with
  | [] => ([], r)
  | x :: t =>
    let a := r.token o x.1
    let b := a.2.copies o e (i + 1) t
    ((o.ybase + (e * o.cap + i) * o.ystride, a.1) :: b.1, b.2)

/-- Every expert's buffer. -/
def Reader.experts (r : Reader) (o : DispatchOps) (e : Nat) (l : List (List (Nat × WEntry))) : List Piece × Reader :=
  match l with
  | [] => ([], r)
  | x :: t =>
    let a := r.copies o e 0 (x.take o.cap)
    let b := a.2.experts o (e + 1) t
    (a.1 ++ b.1, b.2)

/-- WVR.DISPATCH computed (R187). DESIGN CHOICE (log entries 185, 186): where its outputs overlap the buffer rows are written first, then RT, then
the record; and an entry beyond the experts passes its lane queue before it is dropped. -/
def dispatchRes (o : DispatchOps) (r : Reader) : WRes :=
  let a := r.rowList o.rbase true (List.range o.tokens)
  let f := a.2.flipFirst a.1
  let bad (t : Nat) : Bool := (f.1.getD t {}).poison
  let ents := (f.1.mapIdx fun (t : Nat) (x : WRow) => x.ents.map fun e => (t, e)).flatten
  let good := ents.filter fun x => decide (x.2.i < o.experts)
  let r := { f.2 with range := f.2.range + (ents.length - good.length) }
  let per := (List.range o.experts).map fun e => good.filter fun x => x.2.i == e
  let y := r.experts o 0 per
  let rt := loosePieces o.rtbase o.experts (o.tokens - 1)
    (per.map fun l => (l.take o.cap).map fun x => { i := x.1, v := toF32 x.2.v, poison := bad x.1 })
  let rec' : Piece := (o.sbase, per.flatMap fun l =>
    markBytes (l.any fun x => bad x.1) (leBytes 4 l.length ++ leBytes 4 (min l.length o.cap)))
  { rd := y.2, pieces := spreadPoison (y.1 ++ rt ++ [rec']), found := good.length, flags := {},
    crowd := crowdOf [laneLoad (ents.map (·.2)) []] }

/-- WVR.DISPATCH (R187). -/
def runDispatch (n : Nat) (s : State) : State :=
  let k := 4 * n + 1
  match headOp s k 0x42, corePos s n with
  | some c, some p =>
    let o := dispatchOps c.cmd
    endWeaver n k p c 255 (withOverlap s p (dispatchWrites o) (dispatchRes o))
  | _, _ => s

def execWvrDispatch (n : Core) (s : State) : Host.Outcome State Fault Refusal := .next (runDispatch n s)

end Sys2Proof.Machine
end

