-- ==== Sys2Proof/Machine/Drover.lean ====
section
/-! DEFINITION. The Drover (16, 17): its operands and checks (R392), the ring collectives over the buffered frames of a hall's channels (R389
to R398), its faults (R399), and the step ledger with the stale-shard halt (R408 to R412). -/

namespace Sys2Proof.Machine

/-! ## Operands and checks -/

/-- A Drover command with what its job context gives it (R389, R390). -/
structure Drv where
  h : Nat
  j : Nat
  cmd : BitVec 512
  seq : W32

def Drv.key (d : Drv) : Nat := 512 + 16 * d.h + d.j
def Drv.op (d : Drv) : Nat := opcodeOf d.cmd
def Drv.group (d : Drv) : Bool := fld d.cmd 24 0 1 == 1
def Drv.dir (d : Drv) : Bool := fld d.cmd 24 1 1 == 1
def Drv.form (d : Drv) : Nat := fld d.cmd 25 4 4
def Drv.dfmt (d : Drv) : Nat := fld d.cmd 25 0 4
def Drv.avg (d : Drv) : Bool := fld d.cmd 26 0 1 == 1
def Drv.vchk (d : Drv) : Bool := fld d.cmd 26 1 1 == 1
def Drv.tscale (d : Drv) : Int := signed 8 (fld d.cmd 27 0 8)
def Drv.coll (d : Drv) : W32 := BitVec.ofNat 32 (fld d.cmd 28 0 32)
def Drv.buf (d : Drv) : Nat := fld d.cmd 32 0 48
def Drv.chunk (d : Drv) : Nat := fld d.cmd 38 0 32
def Drv.aux (d : Drv) : Nat := fld d.cmd 42 0 48
def Drv.root (d : Drv) : Nat := fld d.cmd 52 0 12
def Drv.expStep (d : Drv) : W32 := BitVec.ofNat 32 (fld d.cmd 54 0 32)
def Drv.expVer (d : Drv) : W32 := BitVec.ofNat 32 (fld d.cmd 58 0 32)

/-- R392: the rank and size that the command uses. -/
def Drv.rank (d : Drv) (s : State) : Nat := if d.group then (getJob s d.j).tgRank.toNat else fld d.cmd 48 0 12
def Drv.size (d : Drv) : Nat := if d.group then 4 else fld d.cmd 50 0 13

def Drv.tag (d : Drv) (s : State) : W32 := (getJob s d.j).tag
def Drv.channels (d : Drv) : List Nat := drvChannels d.cmd

/-- R388: the virtual lane of the command's frames. -/
def Drv.lane (d : Drv) : Fin 4 := if d.op = 0xC1 then 2 else if d.op = 0xC3 then 0 else 1

/-- R392, R390: the operand checks of a Drover command of a job context. -/
def drvOk (s : State) (j op : Nat) (c : BitVec 512) : Bool :=
  let d : Drv := { h := 0, j := j, cmd := c, seq := 0 }
  let jb := getJob s j
  let formOk := if op = 0xC1 then d.form == 0 || d.form == 2 || d.form == 3
    else if op = 0xC3 then d.form == 0 else d.form == 0 || d.form == 1
  let dfmtOk := if op = 0xC1 ∧ d.form = 0 then d.dfmt == 2 || d.dfmt == 3 else d.dfmt == 0
  let scale := if op = 0xC1 ∧ d.form = 2 then scaleOk d.tscale else fld c 27 0 8 == 0
  let auxOk := op == 0xC0 || op == 0xC1 || d.aux == 0
  let bufOk := op == 0xC3 || (d.buf % 64 == 0 && d.chunk % 64 == 0 && d.chunk != 0)
  let rankOk := if d.group then fld c 48 0 12 == 0 && fld c 50 0 13 == 0
    else decide (2 ≤ d.size) && decide (d.size ≤ 4096) && decide (fld c 48 0 12 < d.size)
  let rootOk := if op = 0xC2 then decide (d.root < d.size)
    else if op = 0xC1 then decide (1 ≤ d.root) && decide (d.root ≤ 16) else d.root == 0
  fld c 24 2 3 != 0 && formOk && dfmtOk && scale && auxOk && bufOk && rankOk && rootOk
    && (if d.group then jb.tgValid else jb.ringValid) && jb.tag != 0

/-! ## Segments and rank arithmetic -/

/-- The segments of a chunk. -/
def Drv.segments (d : Drv) : Nat := (d.chunk + 4095) / 4096

/-- R390: the segments of a chunk that channel number `i` of the command carries. -/
def Drv.share (d : Drv) (i : Nat) : Nat :=
  ((List.range d.segments).filter fun x => x % d.channels.length == i).length

/-- The rank `n` places onward in the direction of travel. -/
def Drv.onward (d : Drv) (s : State) (n : Int) : Nat :=
  let p : Int := d.size
  (((d.rank s : Int) + (if d.dir then -n else n)) % p).toNat

/-- R389: the logical fabric address of the neighbour the command sends to. -/
def Drv.expected (d : Drv) (s : State) : BitVec 12 :=
  let jb := getJob s d.j
  if d.group then jb.tg.getD ((jb.tgRank.toNat + (if d.dir then 3 else 1)) % 4) 0
  else if d.dir then jb.pred else jb.succ

def Drv.sendKey (d : Drv) (c : Nat) : Nat := sendPort d.h c d.dir
def Drv.recvKey (d : Drv) (c : Nat) : Nat := recvPort d.h c d.dir

/-! ## The course of a run -/

/-- How a run of a Drover command stands. -/
inductive DrvEnd
  | running | done | fault (cause ch port : Nat) | ueRead (seq : W32) | xfail (f : XFail) (va : Nat) (write : Bool)
  deriving DecidableEq, Repr

/-- A run so far, with the NAN, INF, SAT and UNF of the chunk it wrote (R398), and whether every write of it was acknowledged (R369). -/
structure DrvRun where
  st : State
  co : Coll
  fin : DrvEnd := .running
  flags : RecFlags := {}
  total : Nat := 0
  acked : Bool := true

/-- R387, R389: a frame sent on a channel, after the check of the port and of its peer. -/
def drvSend (d : Drv) (r : DrvRun) (ch : Nat) (f : Frame) : DrvRun :=
  if r.fin != .running then r else
    let k := d.sendKey ch
    if !(getPort r.st k).up then { r with fin := .fault 5 ch k }
    else if (getPort r.st k).peer ≠ d.expected r.st then { r with fin := .fault 3 ch k }
    else
      let f := { f with src := r.st.chain.lfa.getD 0, dst := (getPort r.st k).peer, vl := d.lane, collId := d.coll,
                        jobTag := d.tag r.st, form := BitVec.ofNat 4 d.form, dfmt := BitVec.ofNat 4 d.dfmt,
                        tscale := BitVec.ofInt 8 (if d.form = 2 then d.tscale else 0) }
      { r with st := enqueueFrame r.st k f }

/-- The poison mask of a payload: one bit for each of its 64-byte lines (R385). -/
def framePoison (bs : List (Byte × Bool)) : W64 :=
  BitVec.ofNat 64 (((chunksOf 64 bs).mapIdx fun i l => if l.any (·.2) then 2 ^ i else 0).sum)

/-- The mask of every line of a payload. -/
def allLines (f : Frame) : W64 := BitVec.ofNat 64 (2 ^ ((f.payload.length + 63) / 64) - 1)

/-- A received payload with the poison of its lines. -/
def frameBytes (f : Frame) : List (Byte × Bool) := f.payload.mapIdx fun i b => (b, f.poison.getLsbD (i / 64))

/-- R390: a chunk sent, segment by segment, over the channels in turn. -/
def sendChunk (d : Drv) (r : DrvRun) (step chunk : Nat) (bs : List (Byte × Bool)) (contrib : Nat) (stp ver : W32) : DrvRun :=
  (List.range d.segments).foldl (fun r i =>
    let seg := (bs.drop (4096 * i)).take 4096
    drvSend d r (d.channels.getD (i % d.channels.length) 0)
      { blankFrame with
        rstep := BitVec.ofNat 12 step, chunk := BitVec.ofNat 12 chunk, offset := BitVec.ofNat 32 (4096 * i),
        contrib := BitVec.ofNat 16 contrib, step := stp, maskVersion := ver, poison := framePoison seg,
        payload := seg.map (·.1) }) r

/-- R297: the command's own segment failed its check twice, at arrival (hop 1) or at a memory-hub write (hop 8): EV_CRC, and the command's end
with UE_READ. -/
def drvCrc (d : Drv) (r : DrvRun) (s : State) (hop va : Nat) : DrvRun :=
  { r with st := raiseCrc s d.h hop (some d.j) (qLockind d.key) (qLoc d.key) va, fin := .ueRead (nextSeq s d.h) }

/-- R392: `n` bytes of the command's own data. -/
def drvRead (d : Drv) (r : DrvRun) (va n : Nat) : DrvRun × List (Byte × Bool) :=
  if r.fin != .running then (r, []) else
    let rd := vaRead r.st (qCtx r.st d.key) va n .drover
    match rd.stop, rd.bad with
    | some f, _ => ({ r with st := rd.st, fin := .xfail f.1 f.2 false }, [])
    | none, b :: _ => (drvCrc d r rd.st 1 b, [])
    | none, [] => ({ r with st := rd.st }, rd.bytes)

/-- R392: bytes written through the job's translation. -/
def drvWrite (d : Drv) (r : DrvRun) (va : Nat) (bs : List (Byte × Bool)) : DrvRun :=
  if r.fin != .running then r else
    let w := vaWrite r.st (qCtx r.st d.key) .drover va bs
    let r := { r with acked := r.acked && w.acked }
    match w.stop, w.bad with
    | some f, _ => { r with st := w.st, fin := .xfail f.1 f.2 true }
    | none, b :: _ => drvCrc d r w.st 8 b
    | none, [] => { r with st := w.st }

/-- R391: the next frame of a channel for the command: its own, another COLL_ID's, or none. -/
inductive NextFrame
  | none | other | frame (x : RxFrame)

/-- R391: the frame is of a collective of the job, and of the channel and group, whose frames all come from the port's peer. -/
def ofJob (d : Drv) (s : State) (f : Frame) : Bool := f.jobTag == d.tag s && (f.kind == 0 || f.kind == 1)

/-- R391: the command's own frame of a ring step. The first frame of the job on the command's virtual lane must be of its COLL_ID; where that lane
holds none, a frame of another COLL_ID on another lane ends the command as well (log entry 109). -/
def nextFrame (d : Drv) (s : State) (k step : Nat) : NextFrame :=
  let l := (getPort s k).rx.filter fun x => ofJob d s x.frame
  let lane := l.filter fun x => x.frame.vl == d.lane
  let own (f : Frame) : Bool := f.collId == d.coll && f.kind == (if d.op = 0xC3 then 1 else 0) && f.rstep.toNat == step
  match lane with
  | x :: _ =>
    if x.frame.collId ≠ d.coll then .other
    else match lane.find? fun x => own x.frame with
      | some x => .frame x
      | none => .none
  | [] => if l.any fun x => x.frame.collId != d.coll then .other else .none

/-- R388, R401: a frame leaves its receive buffer, which owes its credit; an uncorrectable word of it poisons its payload (log entry 156). -/
def takeFrame (s : State) (k : Nat) (x : RxFrame) : Frame × State :=
  let (n, s) := takeFree s
  let s := modPort s k fun p => oweCredits { p with rx := p.rx.erase x } x.frame.vl 1
  let f := readWord x.frame x.flip (Config.freeNat n)
  (if eccOutcome (flitBits x.flip) (Config.freeNat n) = .uncorrectable then { f with poison := allLines f } else f, s)

/-- What the channels hold for the current ring step. -/
inductive Arrival
  | waiting | fault (cause ch port : Nat) | frame (i port : Nat) (x : RxFrame)

/-- The first channel that holds a frame the command waits for. -/
def arrival (d : Drv) (s : State) (co : Coll) (chs : List Nat) (i : Nat) : Arrival :=
  match chs with
  | [] => .waiting
  | c :: r =>
    if co.got.getD i 0 ≥ d.share i then arrival d s co r (i + 1)
    else match nextFrame d s (d.recvKey c) co.k with
      | .none => arrival d s co r (i + 1)
      | .other => .fault 4 c (d.recvKey c)
      | .frame x => .frame i (d.recvKey c) x

/-- Every segment of the current ring step has arrived. -/
def stepComplete (d : Drv) (co : Coll) : Bool :=
  (List.range d.channels.length).all fun i => decide (d.share i ≤ co.got.getD i 0)

/-! ## The step ledger (R408 to R412) -/

/-- What a Steward access of the ledger gives: the record's bytes, or nothing where the access is lost. -/
structure LedgerRead where
  st : State
  bytes : Option (List Byte)

/-- R410: a ledger record read; a fault writes its event and loses the access. -/
def readLedger (s : State) (k : Nat) (seq : W32) (h j va : Nat) : LedgerRead :=
  let rd := vaRead s (jobCtx h j) va 64 .steward
  match rd.stop with
  | some f => { st := raiseXfail rd.st k seq f.1 f.2 false, bytes := none }
  | none =>
    if rd.fresh.isSome || anyPoison rd.bytes then { st := rd.st, bytes := none }
    else { st := rd.st, bytes := some (rd.bytes.map (·.1)) }

/-- R408: the ledger record of a step. -/
def ledgerVa (jb : JobState) (step : W32) : Nat := jb.ledgerBase + 64 * (step.toNat % 2)

/-- What an update of the ledger leaves: LEDGER_MISS, and FIRST_COLL where the record was updated. -/
structure LedgerUpdate where
  st : State
  miss : Bool
  first : Option W32

/-- R410: one stale chunk entered in the record of step EXPSTEP + 1. -/
def ledgerStale (s : State) (d : Drv) : LedgerUpdate :=
  let jb := getJob s d.j
  if !jb.ledgerEnable then { st := s, miss := false, first := none } else
    let va := ledgerVa jb (d.expStep + 1)
    let rd := readLedger s d.key d.seq d.h d.j va
    match rd.bytes with
    | none => { st := rd.st, miss := false, first := none }
    | some b =>
      if BitVec.ofNat 32 (leNat (b.take 4)) ≠ d.expStep + 1 then { st := rd.st, miss := true, first := none }
      else
        let live := BitVec.ofNat 16 (leNat (sliceD 0 b 6 2)) &&& ~~~ (d.coll.setWidth 16)
        let count := satAdd (2 ^ 32 - 1) (leNat (sliceD 0 b 8 4)) 1
        let first := if leNat (sliceD 0 b 12 4) = 0 then d.coll else BitVec.ofNat 32 (leNat (sliceD 0 b 12 4))
        let w := vaWrite rd.st (jobCtx d.h d.j) .steward (va + 6)
          ((leBytes 2 live.toNat ++ leBytes 4 count ++ leBytes 4 first.toNat).map fun x => (x, false))
        match w.stop with
        | some f => { st := raiseXfail w.st d.key d.seq f.1 f.2 true, miss := false, first := none }
        | none => { st := w.st, miss := false, first := some first }

/-- R395, R410, R412: a received chunk found stale, once: the ledger, EV_SHARD_STALE, and the ledger registers. -/
def chunkStale (d : Drv) (r : DrvRun) (chunk : Nat) (f : Frame) : DrvRun :=
  if r.co.staleNow || !d.vchk || (f.step == d.expStep && f.maskVersion == d.expVer) then r else
    let u := ledgerStale r.st d
    let s := raise u.st d.h 27 1
      { code := 0x0107, job := some d.j,
        payload := leBytes 4 d.coll.toNat ++ leBytes 4 chunk ++ leBytes 4 f.step.toNat ++ leBytes 4 f.maskVersion.toNat
          ++ leBytes 4 d.expStep.toNat ++ leBytes 4 d.expVer.toNat ++ leBytes 1 (boolNat u.miss) }
    let jb := getJob s d.j
    let step := d.expStep + 1
    let halt := jb.ledgerEnable && jb.staleValid && jb.lastStale == d.expStep
    { r with
      st := setJob s d.j { jb with lastStale := step, staleValid := true,
                                   staleChunks := if jb.ledgerEnable then satAdd 0xFFFF jb.staleChunks 1 else jb.staleChunks },
      co := { r.co with stale := r.co.stale + 1, staleNow := true, halt := r.co.halt || halt,
                        firstColl := r.co.firstColl <|> u.first } }

/-- R412: the halt of the job after a gather that found the second stale step in a row. -/
def staleHalt (s : State) (d : Drv) (co : Coll) : State :=
  if !co.halt then s else
    let (n, s) := takeFree s
    let first := co.firstColl.getD ((Config.freeBits n).setWidth 32)
    let o := originNext s d.h 28 3
    killJob (raise s d.h 28 3
      { code := 0x0108, job := some d.j, payload := leBytes 4 (d.expStep + 1).toNat ++ leBytes 4 first.toNat }) d.j 3 o

/-! ## All-gather and broadcast (R395, R396) -/

/-- A chunk's address in BUF. -/
def Drv.chunkVa (d : Drv) (c : Nat) : Nat := d.buf + c * d.chunk

/-- R395: STEP and MASK_VERSION of a chunk the command originates. -/
def ownVersions (d : Drv) (bs : List (Byte × Bool)) : W32 × W32 :=
  if d.form = 1 then
    (BitVec.ofNat 32 (leNat (sliceD 0 (bs.map (·.1)) 4 4)), BitVec.ofNat 32 (leNat (sliceD 0 (bs.map (·.1)) 0 4)))
  else (d.expStep, d.expVer)

/-- An own chunk read and sent. -/
def sendOwn (d : Drv) (r : DrvRun) (c : Nat) : DrvRun :=
  let a := drvRead d r (d.chunkVa c) d.chunk
  let v := ownVersions d a.2
  sendChunk d a.1 0 c a.2 0 v.1 v.2

/-- The chunk that a gather or broadcast receives in its ring step. -/
def gatherChunk (d : Drv) (s : State) (co : Coll) : Nat := if d.op = 0xC2 then 0 else d.onward s (-(co.k : Int) - 1)

/-- The ring steps in which a member receives. -/
def gatherSteps (d : Drv) (s : State) : Nat := if d.op = 0xC2 then (if d.rank s = d.root then 0 else 1) else d.size - 1

/-- R395, R396: whether a received frame is sent on. -/
def sendsOn (d : Drv) (s : State) (co : Coll) : Bool :=
  if d.op = 0xC2 then d.onward s 1 != d.root else decide (co.k + 1 < d.size - 1)

/-- R395, R396: one received segment: written, at AUX too in the first ring step, checked, and sent on. -/
def gatherFrame (d : Drv) (r : DrvRun) (i port : Nat) (x : RxFrame) : DrvRun :=
  let a := takeFrame r.st port x
  let f := a.1
  let r := { r with st := a.2 }
  let c := gatherChunk d r.st r.co
  let off := f.offset.toNat
  let bs := (frameBytes f).take (d.chunk - off)
  let r := drvWrite d r (d.chunkVa c + off) bs
  let r := if r.co.k = 0 ∧ d.op = 0xC0 ∧ d.aux ≠ 0 then drvWrite d r (d.aux + off) bs else r
  if r.fin != .running then r
  else if x.bad.isSome then { r with fin := .ueRead (x.bad.getD 0) }
  else
    let r := chunkStale d r c f
    let r := if sendsOn d r.st r.co then
        drvSend d r (d.channels.getD i 0)
          { f with rstep := BitVec.ofNat 12 (if d.op = 0xC2 then 0 else r.co.k + 1), chunk := BitVec.ofNat 12 c }
      else r
    { r with co := { r.co with got := (List.range d.channels.length).map fun x =>
                                 r.co.got.getD x 0 + (if x = i then 1 else 0) } }

/-- The end of a ring step of a gather. -/
def gatherNext (d : Drv) (r : DrvRun) : DrvRun :=
  if r.fin = .running ∧ stepComplete d r.co then
    { r with co := { r.co with k := r.co.k + 1, got := [], received := r.co.received + 1, staleNow := false } }
  else r

/-- R395, R396: frames taken while there are any; `n` bounds them. -/
def gatherLoop (d : Drv) (n : Nat) (r : DrvRun) : DrvRun :=
  if r.fin != .running then r
  else if gatherSteps d r.st ≤ r.co.k then { r with fin := .done }
  else
    match n with
    | 0 => r
    | n + 1 =>
      match arrival d r.st r.co d.channels 0 with
      | .waiting => r
      | .fault cause ch port => { r with fin := .fault cause ch port }
      | .frame i port x => gatherLoop d n (gatherNext d (gatherFrame d r i port x))

/-! ## Reduce-scatter (R393, R394) -/

/-- An element as FP32 with its poison. -/
abbrev RElem := W32 × Bool

/-- R394: the columns of a masked-gradient block that fills a chunk. -/
def Drv.mgCols (d : Drv) : Option Nat := if d.chunk = 270400 then some 1024 else if d.chunk = 135232 then some 512 else none

/-- R123: the elements of a masked-gradient block, by its own tensor scale code. R86 bounds TSCALE in commands only: a block's code outside
−100 to 100 enters the formula of R85 as it stands (log entry 150). -/
def mgElems (cols : Nat) (bs : List (Byte × Bool)) : List RElem :=
  let a := bs.toArray
  let t := signed 8 (a.getD 13 (0, false)).1.toNat
  (List.range (256 * cols)).map fun i =>
    let m := a.getD (64 + i) (0, false)
    let sd := a.getD (64 + 256 * cols + i / 32) (0, false)
    (a8ToF32 m.1 sd.1 t, m.2 || sd.2)

/-- R394: a masked-gradient block of the given elements, with the own block's header and the command's TSCALE and STEP. -/
def mgBlock (d : Drv) (own : List (Byte × Bool)) (els : List RElem) : List (Byte × Bool) :=
  let head := own.take 64
  let bad := head.any (·.2)
  let head := head.mapIdx fun i b =>
    if i = 13 then (BitVec.ofInt 8 d.tscale, bad)
    else if 4 ≤ i ∧ i < 8 then ((leBytes 4 d.expStep.toNat).getD (i - 4) 0, bad) else b
  let blocks := (chunksOf 32 els).map fun c => (toA8Block d.tscale (c.map fun e => (f32 e.1, false)), c)
  head ++ (blocks.flatMap fun b => List.zipWith (fun m (e : RElem) => (m, e.2)) b.1.m b.2)
    ++ blocks.map fun b => (b.1.side, b.2.any (·.2))

/-- R394: the elements of a chunk of FORM 0. -/
def rawElems (code : Nat) (bs : List (Byte × Bool)) : List RElem :=
  (chunksOf (floatBytes code) bs).map fun c => (floatToF32 code (leNat (c.map (·.1))), anyPoison c)

/-- FP32 elements as stored. -/
def rawBytes (code : Nat) (els : List RElem) : List (Byte × Bool) :=
  els.flatMap fun e => (leBytes (floatBytes code) (f32ToFloat code e.1)).map fun b => (b, e.2)

/-- R393: what a member makes of its own chunk and the partial, each with its count. -/
def redCombine (ownN n : Nat) (own val : List RElem) : List RElem :=
  if n = 0 ∧ ownN = 0 then own.map fun _ => (f32Zero, false)
  else if n = 0 then own
  else if ownN = 0 then val
  else List.zipWith (fun (a b : RElem) => (f32Add b.1 a.1, a.2 || b.2)) own val

/-- R393: r / total. -/
def average (total : Nat) (v : W32) : W32 :=
  if total = 0 then f32Zero else BitVec.ofNat 32 (vDivTo fp32 (f32 v) (valOfInt total 0))

/-! ### Loose blocks -/

/-- A loose block taken apart (R120, R121): its rows and last column, its kept entries, and whether a byte of its structure was
poisoned. -/
structure LooseBlk where
  rows : Nat
  cols1 : Nat
  ents : List (List (Nat × RElem))
  bad : Bool

/-- R121: entries `x` on of a row, `n` of them at most. -/
def looseEntries (a : Array (Byte × Bool)) (b : Loose) (n x lo : Nat) : List (Nat × RElem) :=
  match n with
  | 0 => []
  | n + 1 =>
    let num (off w : Nat) : Nat := leNat ((List.range w).map fun i => (a.getD (off + i) (0, false)).1)
    let bad (off w : Nat) : Bool := (List.range w).any fun i => (a.getD (off + i) (0, false)).2
    let i := num (looseIdx 0 b.rows + 2 * x) 2
    if i < lo then []
    else if b.cols1 < i then looseEntries a b n (x + 1) (i + 1)
    else
      let w := looseBytes b.vfmt
      let at' := looseVals 0 b.rows b.nnz + w * x
      let sd := looseSides 0 b.rows b.nnz 0 + x / 32
      let v := if b.vfmt = 0 then
          (a8ToF32 (BitVec.ofNat 8 (num at' 1)) (BitVec.ofNat 8 (num sd 1)) b.t, bad at' 1 || bad sd 1)
        else (floatToF32 b.vfmt (num at' w), bad at' w)
      (i, v) :: looseEntries a b n (x + 1) (i + 1)

/-- A loose block in a chunk, its TSCALE taken as it stands (log entry 150). -/
def looseBlk (bs : List (Byte × Bool)) : LooseBlk :=
  let a := bs.toArray
  let num (off w : Nat) : Nat := leNat ((List.range w).map fun i => (a.getD (off + i) (0, false)).1)
  let b : Loose := { base := 0, rows := num 0 4, cols1 := num 4 2, vfmt := num 6 1 % 16, t := signed 8 (num 7 1), nnz := num 8 4,
                     poison := false }
  let rows := min b.rows (bs.length / 4)
  let room := (bs.length - looseIdx 0 b.rows) / 2
  { rows := b.rows, cols1 := b.cols1,
    ents := (List.range rows).map fun r =>
      let lo := num (looseOffs 0 + 4 * r) 4
      let hi := min (num (looseOffs 0 + 4 * r + 4) 4) (min b.nnz room)
      if 3 < b.vfmt then [] else looseEntries a b (hi - lo) lo 0,
    bad := (bs.take (looseVals 0 b.rows b.nnz)).any (·.2) }

/-- R394: two rows merged by ascending index, values added where indices meet; `n` bounds the entries. -/
def mergeLooseRows (n : Nat) (own val : List (Nat × RElem)) : List (Nat × RElem) :=
  match n with
  | 0 => []
  | n + 1 =>
    match own, val with
    | [], v => v
    | o, [] => o
    | a :: o, b :: v =>
      if a.1 < b.1 then a :: mergeLooseRows n o (b :: v)
      else if b.1 < a.1 then b :: mergeLooseRows n (a :: o) v
      else (a.1, (f32Add b.2.1 a.2.1, a.2.2 || b.2.2)) :: mergeLooseRows n o v

def combineLoose (ownN n : Nat) (own val : LooseBlk) : LooseBlk :=
  if n = 0 ∧ ownN = 0 then { own with ents := [], bad := false }
  else if n = 0 then own
  else if ownN = 0 then val
  else
    { rows := max own.rows val.rows, cols1 := max own.cols1 val.cols1, bad := own.bad || val.bad,
      ents := (List.range (max own.ents.length val.ents.length)).map fun r =>
        let a := own.ents.getD r []
        let b := val.ents.getD r []
        mergeLooseRows (a.length + b.length + 1) a b }

/-- R394: the most entries, up to `n`, with which a block of `rows` rows fits in `chunk` bytes. -/
def looseRoom (rows chunk n : Nat) : Nat :=
  match n with
  | 0 => 0
  | n + 1 => if looseEnd 0 rows (n + 1) 3 ≤ chunk then n + 1 else looseRoom rows chunk n

/-- The rows with only the first `n` entries. -/
def keepEntries (n : Nat) (l : List (List (Nat × RElem))) : List (List (Nat × RElem)) :=
  match l with
  | [] => []
  | r :: t => r.take n :: keepEntries (n - r.length) t

/-- A loose block as it is written: its bytes, the number of entries dropped, and the values of those kept. -/
structure LooseOut where
  bytes : List (Byte × Bool)
  dropped : Nat
  vals : List W32

/-- R394: a block as bytes of at most `chunk`, with FP32 values; bytes between its planes are zero (log entry 151). -/
def looseOut (chunk : Nat) (b : LooseBlk) : LooseOut :=
  let all := (b.ents.map (·.length)).sum
  let keep := looseRoom b.rows chunk all
  let ents := keepEntries keep b.ents ++ List.replicate (min b.rows (chunk / 4) - b.ents.length) []
  let flat := ents.flatten
  let offs := (ents.foldl (fun (a : List Nat × Nat) r => (a.1 ++ [a.2 + r.length], a.2 + r.length)) ([0], 0)).1
  let pad (l : List (Byte × Bool)) : List (Byte × Bool) := l ++ List.replicate (align64 l.length - l.length) (0, b.bad)
  let mk (l : List Byte) : List (Byte × Bool) := l.map fun x => (x, b.bad)
  let bs := mk (leBytes 4 b.rows ++ leBytes 2 b.cols1 ++ [3, 0] ++ leBytes 4 flat.length ++ List.replicate 52 0)
    ++ pad (mk (offs.flatMap fun o => leBytes 4 o)) ++ pad (mk (flat.flatMap fun e => leBytes 2 e.1))
    ++ flat.flatMap fun e => (leBytes 4 (f32ToFloat 3 e.2.1)).map fun x => (x, e.2.2 || b.bad)
  { bytes := bs.take chunk, dropped := all - keep, vals := flat.map fun e => e.2.1 }

/-! ### One member's step -/

/-- What a member makes of its own chunk and a partial: the bytes, the count, the entries dropped, and the FP32 values written. -/
structure Partial where
  bytes : List (Byte × Bool)
  n : Nat
  dropped : Nat := 0
  vals : List W32 := []
  sides : List Byte := []

/-- R393, R394: own and incoming combined, averaged for the result, and converted to the command's form. -/
def redOut (d : Drv) (ownN n : Nat) (own val : List (Byte × Bool)) (avg : Bool) : Partial :=
  let total := if n = 0 ∧ ownN = 0 then 0 else n + ownN
  let fin (v : W32) : W32 := if avg then average total v else v
  if d.form = 3 then
    let b := combineLoose ownN n (looseBlk own) (looseBlk val)
    let b := { b with ents := b.ents.map fun r => r.map fun e => (e.1, (fin e.2.1, e.2.2)) }
    let o := looseOut d.chunk b
    { bytes := o.bytes, n := total, dropped := o.dropped, vals := o.vals }
  else if d.form = 2 then
    match d.mgCols with
    | none => { bytes := own, n := total }
    | some c =>
      let els := (redCombine ownN n (mgElems c own) (mgElems c val)).map fun e => (fin e.1, e.2)
      let bs := mgBlock d own els
      { bytes := bs, n := total, vals := els.map (·.1), sides := (bs.drop (64 + 256 * c)).map (·.1) }
  else
    let els := (redCombine ownN n (rawElems d.dfmt own) (rawElems d.dfmt val)).map fun e => (fin e.1, e.2)
    { bytes := rawBytes d.dfmt els, n := total, vals := els.map (·.1) }

/-- R394: where a masked-gradient chunk has not the size of a block of R123, its result is a free value. -/
def redFree (d : Drv) (s : State) (p : Partial) : Partial × State :=
  if d.form = 2 ∧ d.mgCols = none then
    ({ p with bytes := (List.range d.chunk).map fun i => ((Config.freeBits (s.free + i)).setWidth 8, false) },
      { s with free := s.free + d.chunk })
  else (p, s)

/-- R398: the FLAGS of the written chunk under R101. -/
def redFlags (d : Drv) (p : Partial) : RecFlags :=
  let fmt := if d.form = 0 then d.dfmt else if d.form = 3 then 3 else 0
  { nan := p.vals.any f32IsNan, inf := p.vals.any (outInf fmt),
    sat := p.sides.any fun b => b.getLsbD 5 && !b.getLsbD 6, unf := p.sides.any fun b => b.getLsbD 6 && !b.getLsbD 5 }

/-- R385: CONTRIB of a frame; a count beyond its 16 bits is a free value. -/
def contribField (s : State) (n : Nat) : Nat × State :=
  if n < 65536 then (n, s) else
    let (u, s) := takeFree s
    ((Config.freeBits u).toNat % 65536, s)

/-- The mask version that a frame of a reduce-scatter carries: its block's, or the command's. -/
def redVersion (d : Drv) (bs : List (Byte × Bool)) : W32 :=
  if d.form = 2 then BitVec.ofNat 32 (leNat ((bs.take 4).map (·.1))) else d.expVer

/-- A chunk padded with zeros to CHUNK bytes. -/
def padChunk (d : Drv) (bs : List (Byte × Bool)) : List (Byte × Bool) :=
  bs.take d.chunk ++ List.replicate (d.chunk - bs.length) (0, false)

/-- A partial as the member sends it: poisoned throughout where its count word was. -/
def sendPartial (d : Drv) (r : DrvRun) (step chunk : Nat) (p : Partial) : DrvRun :=
  let f := redFree d r.st p
  let n := contribField f.2 p.n
  let bs := (padChunk d f.1.bytes).map fun b => (b.1, b.2 || r.co.ownBad)
  sendChunk d { r with st := n.2 } step chunk bs n.1 d.expStep (redVersion d bs)

/-- R394: EV_DRV_LOOSE_FULL. -/
def looseFull (d : Drv) (s : State) (p : Partial) : State :=
  if p.dropped = 0 then s else
    pushEvent s d.h { code := 0x010A, job := some d.j, payload := leBytes 4 p.dropped }

/-- R393: the start of a reduce-scatter: the count word, and the first chunk sent. -/
def redStart (d : Drv) (r : DrvRun) : DrvRun :=
  let a := drvRead d r d.aux 4
  let r := { a.1 with co := { a.1.co with own := leNat (a.2.map (·.1)), ownBad := anyPoison a.2 } }
  let c := d.onward r.st (-1)
  let b := drvRead d r (d.chunkVa c) d.chunk
  if b.1.fin != .running then b.1 else
    let p := redOut d 1 0 b.2 [] false
    sendPartial d { b.1 with st := looseFull d b.1.st p } 0 c { p with n := r.co.own }

/-- The bytes of the partial received, in the order of the chunk. -/
def partialChunk (d : Drv) (co : Coll) : List (Byte × Bool) :=
  let segs := co.part.foldl (fun (a : Array (List (Byte × Bool))) x => a.setIfInBounds (x.1 / 4096) x.2) (Array.replicate d.segments [])
  (segs.toList.mapIdx fun i x => x ++ List.replicate (min 4096 (d.chunk - 4096 * i) - x.length) (0, false)).flatten

/-- R393, R394: a partial has arrived whole: it is combined with the own chunk, and sent on or kept. -/
def redNext (d : Drv) (r : DrvRun) : DrvRun :=
  if r.fin != .running || !stepComplete d r.co then r else
    let k := r.co.k
    let c := d.onward r.st (-(k : Int) - 2)
    let a := drvRead d r (d.chunkVa c) d.chunk
    if a.1.fin != .running then a.1 else
      let r := a.1
      let own := a.2
      let val := partialChunk d r.co
      let vv := redVersion d val
      let ov := redVersion d own
      let differs := d.form == 2 && vv != ov
      let s := if differs then
          pushEvent r.st d.h
            { code := 0x0109, job := some d.j,
              payload := leBytes 4 d.coll.toNat ++ leBytes 4 c ++ leBytes 4 vv.toNat ++ leBytes 4 ov.toNat }
        else r.st
      let last := decide (k + 2 = d.size)
      let p := redOut d r.co.own (if differs then 0 else r.co.contrib) own val (last && d.avg)
      let r := { r with st := looseFull d s p,
                        co := { r.co with k := k + 1, got := [], part := [], contrib := 0, received := r.co.received + 1 } }
      if last then
        let f := redFree d r.st p
        let bs := f.1.bytes.map fun b => (b.1, b.2 || r.co.ownBad)
        let w := drvWrite d { r with st := f.2 } (d.chunkVa c) bs
        if w.fin != .running then w else { w with fin := .done, flags := redFlags d p, total := p.n }
      else sendPartial d r (k + 1) c p

/-- R393: one received segment kept. -/
def redFrame (d : Drv) (r : DrvRun) (i port : Nat) (x : RxFrame) : DrvRun :=
  let a := takeFrame r.st port x
  let f := a.1
  let r := { r with st := a.2 }
  if x.bad.isSome then { r with fin := .ueRead (x.bad.getD 0) } else
    { r with co := { r.co with
        got := (List.range d.channels.length).map fun x => r.co.got.getD x 0 + (if x = i then 1 else 0),
        part := r.co.part ++ [(f.offset.toNat, (frameBytes f).take (d.chunk - f.offset.toNat))],
        contrib := f.contrib.toNat } }

/-- R393: frames taken while there are any; `n` bounds them. -/
def redLoop (d : Drv) (n : Nat) (r : DrvRun) : DrvRun :=
  if r.fin != .running then r else
    match n with
    | 0 => r
    | n + 1 =>
      match arrival d r.st r.co d.channels 0 with
      | .waiting => r
      | .fault cause ch port => { r with fin := .fault cause ch port }
      | .frame i port x => redLoop d n (redNext d (redFrame d r i port x))

/-! ## Barrier (R397) -/

/-- R397: a token or a release sent; CONTRIB holds the count, RSTEP the round. -/
def sendToken (d : Drv) (r : DrvRun) (round count : Nat) : DrvRun :=
  drvSend d r (d.channels.getD 0 0)
    { blankFrame with kind := 1, rstep := BitVec.ofNat 12 round, contrib := BitVec.ofNat 16 count }

/-- R397: one token or release received. -/
def barrierFrame (d : Drv) (r : DrvRun) (port : Nat) (x : RxFrame) : DrvRun :=
  let a := takeFrame r.st port x
  let f := a.1
  let r := { r with st := a.2 }
  if x.bad.isSome then { r with fin := .ueRead (x.bad.getD 0) } else
    let root := d.rank r.st == 0
    if r.co.k = 0 then
      if root then
        if f.contrib.toNat = d.size then sendToken d { r with co := { r.co with k := 1 } } 1 0 else r
      else sendToken d { r with co := { r.co with k := 1 } } 0 (f.contrib.toNat + 1)
    else
      let r := if root then r else sendToken d r 1 0
      if r.fin = .running then { r with fin := .done } else r

/-- R397: tokens taken while there are any; `n` bounds them. -/
def barrierLoop (d : Drv) (n : Nat) (r : DrvRun) : DrvRun :=
  if r.fin != .running then r else
    match n with
    | 0 => r
    | n + 1 =>
      match nextFrame d r.st (d.recvKey (d.channels.getD 0 0)) r.co.k with
      | .none => r
      | .other => { r with fin := .fault 4 (d.channels.getD 0 0) (d.recvKey (d.channels.getD 0 0)) }
      | .frame x => barrierLoop d n (barrierFrame d r (d.recvKey (d.channels.getD 0 0)) x)

/-! ## The commands -/

/-- R399: a Drover command ends with DRV_FAULT: EV_DRV_FAULT with the channel and the peer's address, its record, its aborts and the boundary of
its ring. -/
def drvFault (s : State) (d : Drv) (c : InFlight) (cause ch : Nat) (peer : BitVec 12) : State :=
  let o := originNext s d.h 6 2
  let s := raise s d.h 6 2
    { code := 0x0106, job := some d.j,
      payload := leBytes 1 cause ++ leBytes 4 d.coll.toNat ++ leBytes 1 ch ++ leBytes 6 peer.toNat }
  completeFault s d.key c 0x50 (some o)

/-- R399: the first port of a command that is down, with its channel. -/
def downOf (d : Drv) (s : State) : Option (Nat × Nat) :=
  (d.channels.flatMap fun c => [(c, d.sendKey c), (c, d.recvKey c)]).find? fun x => !(getPort s x.2).up

/-- R399: an abort that arrived before the command. -/
def abortOf (d : Drv) (s : State) : Option (W32 × W32 × Nat) :=
  (getHall s d.h).aborted.find? fun x => x.1 == d.coll && x.2.1 == d.tag s

/-- The frames that the command's channels hold, as a bound on what one step takes. -/
def heldFrames (d : Drv) (s : State) : Nat := (d.channels.map fun c => (getPort s (d.recvKey c)).rx.length).sum

/-- A command's first step: what it sends of its own. -/
def drvBegin (d : Drv) (r : DrvRun) : DrvRun :=
  match abortOf d r.st with
  | some a =>
    let left (l : List (W32 × W32 × Nat)) : List (W32 × W32 × Nat) := l.filter fun x => !(x.1 == a.1 && x.2.1 == a.2.1)
    { r with st := modHall r.st d.h fun hl => { hl with aborted := left hl.aborted }, fin := .fault 2 (a.2.2 % 6 / 2) a.2.2 }
  | none =>
    match downOf d r.st with
    | some x => { r with fin := .fault 5 x.1 x.2 }
    | none =>
      if d.op = 0xC0 then sendOwn d r (d.rank r.st)
      else if d.op = 0xC1 then redStart d r
      else if d.op = 0xC2 then (if d.rank r.st = d.root then sendOwn d r 0 else r)
      else if d.rank r.st = 0 then sendToken d r 0 1 else r

/-- R398: the counters of a DONE record. -/
def drvCounts (d : Drv) (s : State) (r : DrvRun) : List Nat :=
  if d.op = 0xC1 then [recCount r.total, recCount (d.root * d.size), recCount r.co.resent, 0]
  else if d.op = 0xC3 then [d.size, d.size, recCount r.co.resent, 0]
  else if d.op = 0xC2 then
    let n := if d.rank s = d.root then 0 else 1
    [n, n, recCount r.co.resent, 0]
  else [r.co.received, d.size - 1, recCount r.co.resent, 0]

/-- The end of a run: the progress kept, or the command completed. -/
def drvFinish (d : Drv) (c : InFlight) (r : DrvRun) : State :=
  let keep (l : List InFlight) : List InFlight := match l with
    | [] => []
    | x :: t => { x with coll := some r.co } :: t
  let s := modQueue r.st d.key fun q => { q with inflight := keep q.inflight }
  match r.fin with
  | .running => s
  | .done =>
    if !r.acked then markUnacked s d.key else staleHalt (completeDone s d.key c r.flags.toNat (drvCounts d s r)) d r.co
  | .fault cause ch port => staleHalt (drvFault s d c cause ch (getPort s port).peer) d r.co
  | .ueRead seq =>
    let o : Origin := { seq := seq, source := 5, sev := 2 }
    staleHalt (completeFault s d.key c 0x31 (some o)) d r.co
  | .xfail f va write => staleHalt (endXfail s d.key c f va write) d r.co

/-- A Drover command runs as far as the frames that have arrived allow. -/
def runDrover (op : Nat) (h : Hall) (j : Job) (s : State) : State :=
  match headOp s (512 + 16 * h + j) op with
  | none => s
  | some c =>
    let d : Drv := { h := h, j := j, cmd := c.cmd, seq := c.seq }
    let r : DrvRun := match c.coll with
      | none => drvBegin d { st := s, co := {} }
      | some co => { st := s, co := co }
    let n := heldFrames d s + 1
    drvFinish d c (if op = 0xC1 then redLoop d n r else if op = 0xC3 then barrierLoop d n r else gatherLoop d n r)

def execDrvAllgather (h : Hall) (j : Job) (s : State) : Host.Outcome State Fault Refusal := .next (runDrover 0xC0 h j s)
def execDrvRedscat (h : Hall) (j : Job) (s : State) : Host.Outcome State Fault Refusal := .next (runDrover 0xC1 h j s)
def execDrvBcast (h : Hall) (j : Job) (s : State) : Host.Outcome State Fault Refusal := .next (runDrover 0xC2 h j s)
def execDrvBarrier (h : Hall) (j : Job) (s : State) : Host.Outcome State Fault Refusal := .next (runDrover 0xC3 h j s)

/-- The Drover command of a ring that has begun. -/
def runningDrv (s : State) (h j : Nat) : Option InFlight :=
  match headOf s (512 + 16 * h + j) with
  | none => none
  | some c => if 0xC0 ≤ opcodeOf c.cmd ∧ opcodeOf c.cmd ≤ 0xC3 ∧ c.coll.isSome then some c else none

/-- DRV_TIMEOUT (R399): no frame of the command came for DRV_CFG.TIMEOUT while it waited. One that waits for an acknowledgement has taken all
its frames (log entry 138). -/
def runDrvTimeout (h : Hall) (j : Job) (s : State) : State :=
  if !dieUp s then s else
    match runningDrv s h j with
    | none => s
    | some c =>
      if c.unacked then s else
      let d : Drv := { h := h, j := j, cmd := c.cmd, seq := c.seq }
      let co := c.coll.getD {}
      let i := ((List.range d.channels.length).find? fun i => decide (co.got.getD i 0 < d.share i)).getD 0
      let ch := d.channels.getD i 0
      staleHalt (drvFault s d c 1 ch (getPort s (d.recvKey ch)).peer) d co

def execDrvTimeout (h : Hall) (j : Job) (s : State) : Host.Outcome State Fault Refusal := .next (runDrvTimeout h j s)

/-- R399: the running commands of a hall that `hit` names end with a fault. -/
def endDrovers (s : State) (h cause port : Nat) (peer : BitVec 12) (hit : Drv → Bool) : State :=
  (List.range 16).foldl (fun s j =>
    match runningDrv s h j with
    | none => s
    | some c =>
      let d : Drv := { h := h, j := j, cmd := c.cmd, seq := c.seq }
      if hit d then staleHalt (drvFault s d c cause (port % 6 / 2) peer) d (c.coll.getD {}) else s) s

/-- R399: the Drover commands that use a port that went down, with the peer it had. -/
def endOnPort (s : State) (port : Nat) (peer : BitVec 12) : State :=
  endDrovers s (port / 6) 5 port peer fun d => d.channels.any fun c => d.sendKey c == port || d.recvKey c == port

/-- R399: an abort frame received on a port. -/
def receiveAbort (s : State) (port : Nat) (coll tag : W32) : State :=
  let h := port / 6
  let hit := (List.range 16).any fun j =>
    match runningDrv s h j with
    | none => false
    | some c => BitVec.ofNat 32 (fld c.cmd 28 0 32) == coll && (getJob s j).tag == tag
  let s := dropColl s port coll tag
  if hit then endDrovers s h 2 port (getPort s port).peer fun d => d.coll == coll && d.tag s == tag
  else modHall s h fun hl => { hl with aborted := hl.aborted.filter (fun x => !(x.1 == coll && x.2.1 == tag)) ++ [(coll, tag, port)] }

end Sys2Proof.Machine
end

