-- ==== Sys2Proof/Machine/Sealer.lean ====
section
/-! DEFINITION. The Sealer (11): writes of its slot and job registers (R268, R273, R276, R280), and the close of a job context (R270 to
R275). Every close that is due is made in one step, so SEA_JOB_STAT.CLOSING always reads 0 (log entry 56). -/

namespace Sys2Proof.Machine

/-! ## The slot-state words (R280, R281) -/

/-- R280, R281: a slot as a reader finds it in the two halls: a corrected word is counted, an uncorrectable one stops its adaptation. -/
def readSlot (s : State) (j i : Nat) : State :=
  readSlotIn (readSlotIn s 0 j i) 1 j i

/-- R281, R511: a slot-state word as it will be read: an uncorrectable one leaves T as it was, `t`. -/
def flippedSlot (x : Slot) (t : Int) (code : Nat) (n : Option Nat) : Slot :=
  { x with t := if code = 2 then t else match n with
    | none => x.t
    | some n => signed 8 (Config.freeBits n).toNat }

/-- A slot's state read and written in both halls (R263). -/
def modSlot (s : State) (j i : Nat) (f : Slot → Slot) : State :=
  let s := readSlot s j i
  let old := getSlot s j i
  let a := sealFlip s 0
  let b := sealFlip a.2.2 1
  let x := flippedSlot (flippedSlot (f old) old.t a.1 a.2.1) old.t b.1 b.2.1
  setSlot b.2.2 j i { x with ecc0 := a.1, ecc1 := b.1 }

/-! ## Register writes -/

/-- R273, R280: a slot after a write of SEA_SLOT_CFG; a T outside R86 leaves T, L_RUN and QUIET. -/
def slotCfg (x : Slot) (v : Nat) : Slot :=
  let head := bitsOf v 27 3
  let t := signed 8 (bitsOf v 0 8)
  let x := { x with fixed := bitOf v 31, kind := bitOf v 30, head := head, fall := bitsOf v 16 8 }
  if scaleOk t then { x with t := t, lrun := t + 21 - (head : Int), quiet := 0, stopped := false } else x

/-- SEA_SLOT_CFG_WRITE (R263, R273, R281). -/
def runSeaSlotCfg (j : Job) (i : Fin 255) (v : W32) (s : State) : State :=
  if anyHostUp s then modSlot s j i (fun x => slotCfg x v.toNat) else s

def execSeaSlotCfgWrite (j : Job) (i : Fin 255) (v : W32) (s : State) : Host.Outcome State Fault Refusal :=
  .next (runSeaSlotCfg j i v s)

/-- SEA_JOB_CFG written (R268, R280): fields only while ENABLE is 0; ENABLE set records V₀ and zeroes the close count. -/
def runSeaJobCfg (j : Job) (v : W32) (s : State) : State :=
  if !anyHostUp s then s else
    let jb := getJob s j
    let x := v.toNat
    let jb' := if jb.seaEnable then jb else
      { jb with doneSem := 4096 * bitsOf x 28 1 + bitsOf x 16 12, closeSem := 4096 * bitsOf x 12 1 + bitsOf x 0 12 }
    if bitOf x 31 && !jb.seaEnable then
      setJob s j { jb' with seaEnable := true, closes := 0, seaV0 := (getSem s jb'.closeSem).value }
    else setJob s j { jb' with seaEnable := bitOf x 31 }

/-- SEA_JOB_ENABLE (R268). -/
def execSeaJobEnable (j : Job) (v : W32) (s : State) : Host.Outcome State Fault Refusal := .next (runSeaJobCfg j v s)

/-- The open statistics of a job context's slots in both halls set to zero. -/
def dropStats (s : State) (j : Nat) : State :=
  let s := { s with stats := s.stats.filter fun x => x.1 % 4096 / 256 != j }
  putStats (putStats s 0 j 0 {}) 1 j 0 {}

/-- SEA_JOB_DISCARD (R276). -/
def execSeaJobDiscard (j : Job) (s : State) : Host.Outcome State Fault Refusal :=
  .next (if anyHostUp s then dropStats s j else s)

/-! ## Closing a slot (R271, R272) -/

/-- R271: the statistics of the two halls combined. -/
def combine (a b : Stats) : Stats :=
  { blocks := satAdd32 a.blocks b.blocks, sat := satAdd32 a.sat b.sat, unf := satAdd32 a.unf b.unf,
    nan := satAdd32 a.nan b.nan, zero := satAdd32 a.zero b.zero, elems := satAdd32 a.elems b.elems,
    nz := satAdd32 a.nz b.nz, lost := satAdd32 a.lost b.lost, maxFin := max a.maxFin b.maxFin }

/-- floor(log₂ MAX_FIN), none for zero. -/
def stepLog (maxFin : Nat) : Option Int :=
  match fp32.decode maxFin with
  | .fin _ m e => if m = 0 then none else some ((Nat.log2 m : Int) + e)
  | _ => none

/-- R272: L_RUN and QUIET after the step's maximum. -/
def trackMax (x : Slot) (l : Option Int) : Int × Nat :=
  let down := if max 1 x.fall ≤ x.quiet + 1 then (x.lrun - 1, 0) else (x.lrun, x.quiet + 1)
  match l with
  | none => down
  | some l => if x.lrun < l then (l, 0) else if l < x.lrun then down else (x.lrun, 0)

/-- What closing a slot gives: the slot, and what the record and the events say of it. -/
structure Closed where
  slot : Slot
  reported : Bool
  raised : Bool
  limit : Option Int
  silentStep : Bool
  alarm : Bool
  deriving DecidableEq, Repr

/-- R272: close_slot. -/
def closeSlot (x : Slot) (st : Stats) : Closed :=
  if st.blocks = 0 then { slot := x, reported := false, raised := false, limit := none, silentStep := false, alarm := false }
  else
    let q := trackMax x (stepLog st.maxFin)
    let head : Int := x.head
    let est := q.1 - 21 + head
    let raised := decide (0 < st.sat) && decide (est < x.t + 1)
    let t0 := if raised then x.t + 1 else est
    let limit := decide (100 < t0) || decide (t0 < -100)
    let t1 := max (-100) (min 100 t0)
    let lrun := max (-100 + 21 - head) (min (100 + 21 - head) (t1 + 21 - head))
    let silentStep := x.kind && st.zero == st.blocks && st.nan == 0
    let silent := if x.kind then (if silentStep then min (x.silent + 1) 65535 else 0) else x.silent
    { slot := { x with t := if x.fixed || x.stopped then x.t else t1, lrun := lrun, quiet := q.2, silent := silent },
      reported := true, raised := raised, limit := if limit then some t0 else none, silentStep := silentStep,
      alarm := silentStep && silent % x.thresh == 0 }

/-- R275: floor(65,536 × LOST / NONZERO_IN), saturating. -/
def unfFrac (st : Stats) : Nat := if st.nz = 0 then 0 else min 0xFFFF (65536 * st.lost / st.nz)

/-- R275: the slot step record; `old` is the slot before the close and `new` after it. -/
def slotRecord (close : Nat) (old new : Slot) (c : Closed) (st : Stats) : List Byte :=
  let flags := c.reported.toNat + 2 * (decide (0 < st.sat)).toNat + 4 * c.raised.toNat + 8 * c.limit.isSome.toNat
    + 16 * c.silentStep.toNat + 32 * c.alarm.toNat + 64 * old.fixed.toNat
  leBytes 4 close ++ [BitVec.ofInt 8 old.t, BitVec.ofInt 8 new.t, BitVec.ofInt 8 new.lrun, BitVec.ofNat 8 flags]
    ++ ([st.blocks, st.sat, st.unf, st.nan, st.zero, st.elems, st.nz, st.lost, st.maxFin].flatMap fun v => leBytes 4 v)
    ++ leBytes 2 (unfFrac st) ++ leBytes 2 new.silent ++ [BitVec.ofNat 8 new.quiet] ++ List.replicate 15 0

/-- R274: the events of a slot's close, in the hall that holds CLOSE_SEM. -/
def closeEvents (s : State) (h j i close : Nat) (c : Closed) : State :=
  let s := match c.limit with
    | none => s
    | some t => pushEvent s h { code := 0x0205, job := some j, lockind := 6, loc := i,
                                payload := leBytes 4 (t % 2 ^ 32).toNat ++ leBytes 4 close }
  if c.alarm then
    pushEvent s h { code := 0x0204, job := some j, lockind := 6, loc := i, payload := leBytes 4 c.slot.silent ++ leBytes 4 close }
  else s

/-- R275, R341: the memory event of a record that is lost, with the place of the record's pair and the slot. -/
def slotMemEvent (s : State) (h j i pa : Nat) : State :=
  raise s h 14 1 { code := 0x0400, job := some j, lockind := 4, loc := hubOf pa, payload := memPlace (pa / 128) .steward ++ leBytes 1 i }

/-- R275, R353: between two states an uncorrectable error was met on the way to a hub, or in it. -/
def memTrouble (s t : State) (hk : Nat) : Bool :=
  (getHub t hk).ue != (getHub s hk).ue || [0, 1].any fun h => (getHall t h).meshEcc.ue != (getHall s h).meshEcc.ue

/-- R275: a record written through the job's translation; a fault loses it, and so does an uncorrectable error met by its write, which is also what a
write without its acknowledgement comes to (R369, log entry 182). Their events name the slot. -/
def writeSlotRecord (s : State) (h j i : Nat) (bs : List Byte) : State :=
  let va := (getJob s j).recBase + 64 * i
  let w := vaWrite s (jobCtx h j) .steward va (bs.map fun b => (b, false))
  match w.stop, (xlate s (jobCtx h j) va true).res with
  | some f, _ =>
    raise w.st h (if f.1.cause = 5 then 4 else 3) 2
      { code := if f.1.cause = 5 then 0x0104 else 0x0103, job := some j, lockind := 6, loc := i,
        payload := xfailBytes f.1 f.2 true ++ leBytes 1 i }
  | none, .ok pa => if w.acked && !memTrouble s w.st (hubOf pa) then w.st else slotMemEvent w.st h j i pa
  | none, .error _ => w.st

/-- One slot closed: its state in both halls, its events, its record; its statistics start again. -/
def closeOne (h j close : Nat) (s : State) (i : Nat) : State :=
  let a := readStats s 0 j i
  let b := readStats a.2 1 j i
  let st := combine a.1 b.1
  let s := readSlot b.2 j i
  let old := getSlot s j i
  let c := closeSlot old st
  let s := if c.reported then modSlot s j i (fun _ => c.slot) else s
  let new := getSlot s j i
  let s := closeEvents s h j i close c
  let s := writeSlotRecord s h j i (slotRecord close old new c st)
  putStats (putStats s 0 j i {}) 1 j i {}

/-- R268: the closes that CLOSE_SEM has reached. -/
def closesDue (s : State) (j : Nat) : Nat :=
  let jb := getJob s j
  if jb.seaEnable then (getSem s jb.closeSem).value.toNat - jb.seaV0.toNat else 0

/-- R268, R270: a close: every slot in ascending order, SEA_JOB_CLOSES, and DONE_SEM. V₀ moves with the closes done. -/
def closeJob (s : State) (j : Nat) : State :=
  let h := (getJob s j).closeSem / 4096
  let k := (getJob s j).closes + 1
  let s := (List.range 255).foldl (closeOne h j k.toNat) s
  let s := modJob s j fun jb => { jb with closes := k, seaV0 := jb.seaV0 + 1 }
  sendHere s { sem := (getJob s j).doneSem, add := 1, source := .host, stop := cooperStop h }

/-- R268: closes that follow one another without a gap: a report enters the step after the last of them. -/
def closeJobs (j : Nat) (n : Nat) (s : State) : State :=
  match n with
  | 0 => s
  | n + 1 => closeJobs j n (closeJob s j)

/-- SEALER_CLOSE (R268): every close that is due. -/
def runSealerClose (j : Job) (s : State) : State := if dieUp s then closeJobs j (closesDue s j) s else s

def execSealerClose (j : Job) (s : State) : Host.Outcome State Fault Refusal := .next (runSealerClose j s)

end Sys2Proof.Machine
end

