-- ==== Sys2Proof/Machine/Cooper.lean ====
section
/-! DEFINITION. The Cooper (18): generations and their copies (R438 to R440), triggers in the three modes (R440, R442, R443, R446),
restore and fetch (R444, R445), failed copies (R447), and a fenced core's drop of its sample slots (R435, R436). A hall's copies of an
open are made when its request is admitted (R467); DONE_SEM rises for the close when every generation of the step before is complete, and for
the open when every copy has been acknowledged. -/

namespace Sys2Proof.Machine

/-! ## Copies -/

/-- Copies under way for one generation: whether a line copied was poisoned, whether every write was acknowledged (R369), and the hall and cause of
the copy that failed (1 translation fault, 2 uncorrectable error, 3 port down). -/
structure CopRun where
  st : State
  poison : Bool := false
  acked : Bool := true
  fail : Option (Nat × Nat) := none

/-- R438: the segments of a part: their index, offset and length. -/
def partSegments (len : Nat) : List (Nat × Nat × Nat) :=
  (List.range ((len + 4095) / 4096)).map fun i => (i, 4096 * i, min 4096 (len - 4096 * i))

/-- R440: a Cooper frame. -/
def copFrame (s : State) (j part off : Nat) (step : W32) (bs : List (Byte × Bool)) : Frame :=
  { blankFrame with
    src := s.chain.lfa.getD 0, dst := (getJob s j).succ, vl := 3, kind := 3, collId := BitVec.ofNat 32 part,
    jobTag := (getJob s j).tag, offset := BitVec.ofNat 32 off, step := step, poison := framePoison bs,
    payload := bs.map (·.1) }

/-- R438: the port on which segment `i` goes, on the channels of its hall that CHMASK names; to the predecessor where `back`. -/
def copPort (s : State) (j h i : Nat) (back : Bool) : Option Nat :=
  let chs := maskChannels (getJob s j).copChmask.toNat
  if chs = [] then none else some (sendPort h (chs.getD (i / 2 % chs.length) 0) back)

/-- R440: a segment sent by its hall's instance. -/
def copSend (r : CopRun) (j i : Nat) (f : Frame) : CopRun :=
  if r.fail.isSome then r else
    match copPort r.st j (i % 2) i false with
    | none => { r with fail := some (i % 2, 3) }
    | some k => if (getPort r.st k).up then { r with st := enqueueFrame r.st k f } else { r with fail := some (i % 2, 3) }

/-- R297: EV_CRC of a Cooper segment that failed its check twice at a hop. -/
def copCrc (s : State) (h j hop va : Nat) : State := raiseCrc s h hop (some j) 2 j va

/-- R440, R447: bytes read for a copy. -/
def copRead (r : CopRun) (j h va n : Nat) : CopRun × List (Byte × Bool) :=
  if r.fail.isSome then (r, []) else
    let rd := vaRead r.st (jobCtx h j) va n .cooper
    let poison := r.poison || anyPoison rd.bytes
    if rd.stop.isSome then ({ r with st := rd.st, poison := poison, fail := some (h, 1) }, rd.bytes)
    else match rd.bad with
    | b :: _ => ({ r with st := copCrc rd.st h j 1 b, poison := poison, fail := some (h, 2) }, rd.bytes)
    | [] => ({ r with st := rd.st, poison := poison, fail := if rd.fresh.isSome then some (h, 2) else none }, rd.bytes)

/-- R440, R447: bytes written by a copy. -/
def copWrite (r : CopRun) (j h va : Nat) (bs : List (Byte × Bool)) : CopRun :=
  if r.fail.isSome then r else
    let w := vaWrite r.st (jobCtx h j) .cooper va bs
    let r := { r with acked := r.acked && w.acked }
    match w.stop, w.bad with
    | some _, _ => { r with st := w.st, fail := some (h, 1) }
    | none, b :: _ => { r with st := copCrc w.st h j 8 b, fail := some (h, 2) }
    | none, [] => { r with st := w.st }

/-- A segment copied from one region to another, and sent as part `send` of generation `step` where it goes to the successor. -/
def copSegment (j src dst : Nat) (send : Option (Nat × W32)) (r : CopRun) (x : Nat × Nat × Nat) : CopRun :=
  let a := copRead r j (x.1 % 2) (src + x.2.1) x.2.2
  let b := copWrite a.1 j (x.1 % 2) (dst + x.2.1) a.2
  match send with
  | none => b
  | some p => copSend b j x.1 (copFrame b.st j p.1 x.2.1 p.2 a.2)

/-- A part copied by both halls' instances. -/
def copCopy (r : CopRun) (j src dst len : Nat) (send : Option (Nat × W32)) : CopRun :=
  (partSegments len).foldl (copSegment j src dst send) r

/-- R438: the segments of a part that the instance of hall `h` copies. -/
def copCopyIn (h : Nat) (r : CopRun) (j src dst len : Nat) (send : Option (Nat × W32)) : CopRun :=
  ((partSegments len).filter fun x => x.1 % 2 == h).foldl (copSegment j src dst send) r

/-! ## Generation slots (R439) -/

/-- The header of a generation slot. -/
def genHeader (step : W32) (owner : BitVec 12) (tag : W32) (status : Nat) : List (Byte × Bool) :=
  (leBytes 4 step.toNat ++ leBytes 1 status ++ leBytes 1 0 ++ leBytes 2 owner.toNat ++ leBytes 4 tag.toNat
    ++ List.replicate 52 0).map fun b => (b, false)

/-- STATUS and STEP of a generation slot, as its header holds them; nothing where it cannot be read. -/
def genState (s : State) (j n : Nat) : Option (Nat × W32) × State :=
  let rd := vaRead s (jobCtx 0 j) (genVa (getJob s j) n) 8 .cooper
  if rd.stop.isSome then (none, rd.st)
  else
    let b := rd.bytes.map (·.1)
    (some (leNat (sliceD 0 b 4 1), BitVec.ofNat 32 (leNat (b.take 4))), rd.st)

/-- STATUS 2 or 3. -/
def genGood (g : Option (Nat × W32)) : Bool := match g with
  | none => false
  | some x => x.1 == 2 || x.1 == 3

/-- R440, R447: of two slots the one that holds the older generation, so that the newest complete generation stands. -/
def olderSlot (s : State) (j a : Nat) : Nat × State :=
  let x := genState s j a
  let y := genState x.2 j (a + 1)
  let stepOf (g : Option (Nat × W32)) : W32 := (g.map (·.2)).getD 0
  (if genGood x.1 && !genGood y.1 then a + 1
   else if genGood y.1 && !genGood x.1 then a
   else if (stepOf y.1 - stepOf x.1).toNat < 2 ^ 31 then a else a + 1, y.2)

/-- The slot of a generation of a step with STATUS 2 or 3 among two slots. -/
def findGen (s : State) (j a : Nat) (step : W32) : Option Nat × State :=
  let x := genState s j a
  let y := genState x.2 j (a + 1)
  let is (g : Option (Nat × W32)) : Bool := genGood g && (g.map (·.2)) == some step
  (if is x.1 then some a else if is y.1 then some (a + 1) else none, y.2)

def setGens (s : State) (j : Nat) (f : List Gen → List Gen) : State := modJob s j fun jb => { jb with gens := f jb.gens }

/-- R439: POISONED set in a slot's header. -/
def markPoisoned (r : CopRun) (j n : Nat) : CopRun :=
  if r.poison then copWrite r j 0 (genVa (getJob r.st j) n + 5) [(1, false)] else r

/-- R439: STATUS written in a slot's header. -/
def setStatus (r : CopRun) (j n status : Nat) : CopRun :=
  copWrite r j 0 (genVa (getJob r.st j) n + 4) [(BitVec.ofNat 8 status, false)]

/-- R439, R280: the Sealer state of one slot in a generation. -/
def sealerBytes (x : Slot) : List Byte :=
  leBytes 4 (2 ^ 31 * boolNat x.fixed + 2 ^ 30 * boolNat x.kind + 2 ^ 27 * x.head + 2 ^ 16 * x.fall + (x.t % 256).toNat)
    ++ leBytes 4 (65536 * x.silent + x.thresh) ++ leBytes 4 (256 * (x.lrun % 256).toNat + x.quiet) ++ leBytes 4 0

/-- R439, R280, R511: the Sealer state of a job context as the Cooper copies it, each slot's words being read and decoded. -/
def slotWords (s : State) (j : Nat) : List (Byte × Bool) × State :=
  (List.range 255).foldl (fun a i =>
    let s := readSlotIn a.2 0 j i
    (a.1 ++ (sealerBytes (getSlot s j i)).map (fun b => (b, false)), s)) ([], s)

/-- R444: a Sealer slot from a generation. -/
def slotOfBytes (b : List Byte) : Slot :=
  let cfg := leNat (sliceD 0 b 0 4)
  let hl := leNat (sliceD 0 b 4 4)
  let est := leNat (sliceD 0 b 8 4)
  { fixed := bitOf cfg 31, kind := bitOf cfg 30, head := bitsOf cfg 27 3, fall := bitsOf cfg 16 8, t := signed 8 cfg,
    thresh := bitsOf hl 0 16, silent := bitsOf hl 16 16, lrun := signed 8 (est / 256), quiet := bitsOf est 0 8 }

/-- DONE_SEM of a job context rises. -/
def copDone (s : State) (j n : Nat) : State :=
  sendHere s { sem := (getJob s j).copDone, add := BitVec.ofNat 64 n, source := .host, stop := cooperStop 0 }

/-- R442: COST, once a trigger that opened a generation has raised DONE_SEM for its close and for its open. -/
def costAt (jb : JobState) (t : W64) : JobState :=
  match jb.openedAt with
  | none => jb
  | some a =>
    if jb.opening.isSome || jb.closing.isSome then jb
    else { jb with cost := BitVec.ofNat 32 ((t - a).toNat / 1000), openedAt := none }

/-- R440: DONE_SEM rises for the close once no generation of the closed step stands open (log entry 158). -/
def closeRise (s : State) (j : Nat) : State :=
  match (getJob s j).closing with
  | none => s
  | some step =>
    if (getJob s j).gens.any fun g => g.step == step then s
    else copDone (modJob s j fun jb => costAt { jb with closing := none } (now s 0)) j 1

/-- The own slot of the generation of a step that is open. -/
def openSlot (s : State) (j : Nat) (step : W32) : Nat :=
  (((getJob s j).gens.find? fun g => decide (g.slot < 2) && g.step == step).map (·.slot)).getD 0

/-- R447: a generation that is no longer open: a buddy slot remembers the step whose generation became bad there. -/
def dropGen (jb : JobState) (n : Nat) : JobState :=
  { jb with gens := jb.gens.filter (fun g => g.slot != n),
            badGens := jb.badGens ++ (jb.gens.filter fun g => g.slot == n && decide (2 ≤ n)).map fun g => (n, g.step) }

/-- R434, R447: one generation becomes bad; where it is the one whose copies are under way, their streams stop (R462, R467). Any other generation
stands. -/
def genFail (s : State) (j n : Nat) : State :=
  let opens := match (getJob s j).opening with
    | none => false
    | some o => openSlot s j o.1 == n
  let s := modJob (badSlot s j n) j fun jb => dropGen jb n
  if opens then modJob (copStreamsEnd s j) j fun jb => { jb with opening := none, openedAt := none } else s

/-- R447: a copy of the generation in slot `n` failed: FS_SNAP. -/
def snapFail (s : State) (j n : Nat) (step : W32) (cause : Nat) : State :=
  closeRise (genFail (raiseBoth s 40 1 { code := 0x0600, job := some j, payload := leBytes 4 step.toNat ++ leBytes 1 cause }) j n) j

/-- The end of copies of the generation in slot `n`: what they did, or the failure. A generation with a write that is never acknowledged does not
become complete (R369). -/
def copEnd (r : CopRun) (j n : Nat) (step : W32) : State :=
  match r.fail with
  | some f => snapFail r.st j n step f.2
  | none =>
    if r.acked then r.st
    else modJob r.st j fun jb => { jb with gens := jb.gens.map fun g => if g.slot = n then { g with unacked := true } else g }

/-! ## Triggers (R440 to R443, R446) -/

/-- R442: REC_LOG2. With TSTEP 0 the quotient has no value, and the result is free. -/
def recLog2 (cost tstep mtbi free : Nat) : Nat :=
  if cost = 0 ∨ mtbi = 0 then 0
  else if tstep = 0 then free % 17
  else ((List.range 17).filter fun n => n = 0 || decide (4 ^ n * (tstep * tstep) ≤ 2 * cost * mtbi * 1000000)).foldl max 0

/-- R443: the interval in force from a trigger of step `step` on. -/
def applyInterval (jb : JobState) (step : W32) : JobState :=
  match jb.log2Next with
  | none => jb
  | some n => if step.toNat % 2 ^ (max jb.log2 n) = 0 then { jb with log2 := n, log2Next := none } else jb

/-- R440: an open buddy generation with every part arrived is complete. -/
def completeBuddy (r : CopRun) (j n : Nat) : CopRun :=
  let jb := getJob r.st j
  match jb.gens.find? fun g => g.slot == n with
  | none => r
  | some g =>
    if r.acked && !g.unacked && g.tail && g.params && decide (4080 + 4096 * jb.stateSize.toNat ≤ g.got) then
      let r := setStatus r j n 2
      { r with st := setGens r.st j fun l => l.filter fun g => g.slot != n }
    else r

/-- R440: the close of an own generation: the ledger record and the loss word, here and to the successor. -/
def closeOwn (r : CopRun) (j : Nat) (g : Gen) : CopRun :=
  let jb := getJob r.st j
  let a := if jb.ledgerEnable then copRead r j 0 (ledgerVa jb g.step) 64 else (r, List.replicate 64 (0, false))
  let b := copRead a.1 j 0 jb.lossBase 64
  let bs := a.2 ++ b.2
  let r := copWrite b.1 j 0 (genVa jb g.slot + 64) bs
  let r := copSend r j 0 (copFrame r.st j 2 0 g.step bs)
  let r := markPoisoned r j g.slot
  if r.fail.isSome || !r.acked || g.unacked then r
  else
    let r := setStatus r j g.slot 2
    { r with st := setGens r.st j fun l => l.filter fun x => x.slot != g.slot }

/-- R440: the close of a buddy generation: the shadow region becomes its parameter part. -/
def closeBuddy (r : CopRun) (j : Nat) (g : Gen) : CopRun :=
  let jb := getJob r.st j
  let r := copCopy r j jb.shadowBase (genVa jb g.slot + 8192 + 4096 * jb.stateSize.toNat) (4096 * jb.paramSize.toNat) none
  let r := markPoisoned r j g.slot
  completeBuddy { r with st := setGens r.st j fun l => l.map fun x => if x.slot = g.slot then { x with params := true } else x } j g.slot

/-- R440: the close of trigger `step`, and the rise of DONE_SEM for it. -/
def closeGens (s : State) (j : Nat) (step : W32) : State :=
  let s := ((getJob s j).gens.filter fun g => g.step == step - 1).foldl
    (fun s g => copEnd (if g.slot < 2 then closeOwn { st := s } j g else closeBuddy { st := s } j g) j g.slot (step - 1)) s
  closeRise (modJob s j fun jb => { jb with closing := some (step - 1) }) j

/-- R467: the request of the Cooper's copy stream in a hall. -/
def copAsk (j : Nat) (s : State) (h : Nat) : State :=
  let cc := max 1 s.miller.coopCc
  modHall s h fun hl =>
    { hl with requests := hl.requests ++ [{ queue := copRequest j, cc := BitVec.ofNat 3 cc, res := classRes s.miller cc, time := now s h }] }

/-- R440: generation `step` opens: its header is written, and both halls' copy streams ask for their current (R467). A generation that opens while
a hall is down is bad at once (R447; DESIGN CHOICE, log entry 195). -/
def openGen (s : State) (j : Nat) (step : W32) : State :=
  let o := olderSlot s j 0
  let n := o.1
  let r := copWrite { st := o.2 } j 0 (genVa (getJob o.2 j) n) (genHeader step (o.2.chain.lfa.getD 0) (getJob o.2 j).tag 1)
  let t := modJob r.st j fun jb =>
    { jb with gens := jb.gens.filter (fun g => g.slot != n) ++ [{ slot := n, step := step }],
              opening := some (step, now s 0), openedAt := some (now s 0) }
  let t := copEnd { r with st := t } j n step
  if r.fail.isSome then t
  else if (getHall t 0).down || (getHall t 1).down then closeRise (genFail t j n) j
  else [0, 1].foldl (copAsk j) t

/-- R438, R440: the copies that the instance of hall `h` makes of an open generation: the Sealer state in hall 0, and the segments of the hall's
parity of the state region, which go to the successor too, and of the parameter region. -/
def copyHall (r : CopRun) (j h n : Nat) (step : W32) : CopRun :=
  let jb := getJob r.st j
  let va := genVa jb n
  let r := if h = 0 then
      let words := slotWords r.st j
      let r := { r with st := words.2 }
      copSend (copWrite r j 0 (va + 4096) words.1) j 0 (copFrame r.st j 0 0 step words.1)
    else r
  let r := copCopyIn h r j jb.stateBase (va + 8192) (4096 * jb.stateSize.toNat) (some (1, step))
  copCopyIn h r j jb.paramBase (va + 8192 + 4096 * jb.stateSize.toNat) (4096 * jb.paramSize.toNat) none

/-- R440, R467: a hall's copies, made when its stream's request is admitted. -/
def openCopies (s : State) (h j : Nat) : State :=
  match (getJob s j).opening with
  | none => s
  | some o =>
    let n := openSlot s j o.1
    copEnd (markPoisoned (copyHall { st := s } j h n o.1) j n) j n o.1

/-- GRANT_ADMIT (R461, R462, R467): the oldest request of the hall, or the bench; a copy stream that is admitted makes its copies. -/
def runAdmit (h : Hall) (s : State) : State :=
  let t := runGrantAdmit h s
  match (getHall s h).requests with
  | [] => t
  | r :: _ =>
    if decide (2048 ≤ r.queue) && !((getHall t h).requests.any fun x => x.queue == r.queue) then openCopies t h (r.queue - 2048) else t

def execGrantAdmit (h : Hall) (s : State) : Host.Outcome State Fault Refusal := .next (runAdmit h s)

/-- The 64 bytes of the loss word, where they can be read. -/
def lossBytes (s : State) (j va : Nat) : Option (List Byte) × State :=
  let rd := vaRead s (jobCtx 0 j) va 64 .cooper
  (if rd.stop.isSome then none else some (rd.bytes.map (·.1)), rd.st)

/-- R446: the verifying trigger. -/
def verifyTrigger (s : State) (j : Nat) (step : W32) : State :=
  let jb := getJob s j
  let g := findGen s j 0 jb.verifyStep
  let n := g.1.getD 0
  let a := lossBytes g.2 j jb.lossBase
  let b := lossBytes a.2 j (genVa jb n + 128)
  let (u, s) := takeFree b.2
  let differ := match a.1, b.1 with
    | some x, some y => (List.range 64).find? fun i => x.getD i 0 != y.getD i 0
    | _, _ => if Config.freeBool u then none else some (Config.freeNat u % 64)
  match differ with
  | none =>
    let s := copEnd (setStatus { st := s } j n 3) j n jb.verifyStep
    openGen (copDone (modJob s j fun jb => { jb with result := 4, mode := 0 }) j 1) j step
  | some i =>
    let s := copEnd (setStatus { st := s } j n 4) j n jb.verifyStep
    let s := raiseBoth (modJob s j fun jb => { jb with result := 5, mode := 2 }) 41 1
      { code := 0x0601, job := some j, payload := leBytes 4 jb.verifyStep.toNat ++ leBytes 1 i }
    copDone s j 2

/-- R442, R443: what every trigger of step `step` does to the registers. -/
def triggerRegs (s : State) (j : Nat) (step : W32) : State :=
  let (u, s) := takeFree s
  modJob s j fun jb =>
    let tstep := match jb.lastTrigger with
      | none => jb.tstep
      | some t => BitVec.ofNat 32 ((now s 0 - t).toNat / 1000)
    { applyInterval jb step with
      copStep := step + 1, copV0 := jb.copV0 + 1, lastTrigger := some (now s 0), tstep := tstep,
      recLog2 := recLog2 jb.cost.toNat tstep.toNat jb.mtbi.toNat (Config.freeNat u) }

/-- R440, R446: a trigger. -/
def copTrigger (s : State) (j : Nat) : State :=
  let step := (getJob s j).copStep
  let s := triggerRegs s j step
  let jb := getJob s j
  if jb.killed then s
  else if jb.mode = 2 then copDone s j 2
  else if jb.mode = 1 then
    if jb.replayed then verifyTrigger s j step
    else copDone (modJob s j fun jb => { jb with replayed := true }) j 2
  else
    let s := closeGens s j step
    if step.toNat % 2 ^ jb.log2 = 0 then openGen s j step else copDone s j 1

/-- COOPER_TRIGGER (R440): the trigger semaphore has reached V₀ + k. Triggers follow one another as closes do (R268): one waits until the one
before has raised DONE_SEM for its close and its open (log entry 180). -/
def runCooperTrigger (j : Job) (s : State) : State :=
  let jb := getJob s j
  if dieUp s && jb.copEnable && !(jb.opening.isSome || jb.closing.isSome)
      && decide (jb.copV0.toNat + 1 ≤ (getSem s jb.copTrig).value.toNat) then copTrigger s j else s

def execCooperTrigger (j : Job) (s : State) : Host.Outcome State Fault Refusal := .next (runCooperTrigger j s)

/-- R440: no part of a generation waits for its acknowledgement, and no copy stream for its grant. -/
def copiesDone (s : State) (j : Nat) (step : W32) : Bool :=
  let tag := (getJob s j).tag
  let part (f : Frame) : Bool := f.kind == 3 && f.jobTag == tag && f.step == step && decide (f.collId.toNat ≤ 1)
  ((List.range 12).all fun k =>
    let p := getPort s k
    !p.egress.any part && !p.retry.any fun u => part u.frame)
  && !((getJob s j).gens.any fun g => g.step == step && decide (g.slot < 2) && g.unacked)
  && [0, 1].all fun h => !(getHall s h).requests.any fun r => r.queue == copRequest j

/-- COOPER_COPY_DONE (R440, R442, R467): every copy of the open has been acknowledged; the copy streams' grants and loans end (R462). -/
def runCooperCopyDone (j : Job) (s : State) : State :=
  if !dieUp s then s else
    match (getJob s j).opening with
    | none => s
    | some o =>
      if copiesDone s j o.1 then
        copDone (modJob (copStreamsEnd s j) j fun jb => costAt { jb with opening := none } (now s 0)) j 1
      else s

def execCooperCopyDone (j : Job) (s : State) : Host.Outcome State Fault Refusal := .next (runCooperCopyDone j s)

/-! ## Register writes (R443, R454) -/

/-- COP_JOB_CFG written (R440, R454). -/
def runCopCfg (j : Job) (v : W32) (s : State) : State :=
  if !anyHostUp s then s else
    let jb := getJob s j
    let x := v.toNat
    let jb' := if jb.copEnable then jb else
      { jb with copChmask := BitVec.ofNat 3 (bitsOf x 28 3), copDone := 4096 * bitsOf x 25 1 + bitsOf x 13 12,
                copTrig := 4096 * bitsOf x 12 1 + bitsOf x 0 12 }
    if bitOf x 31 && !jb.copEnable then
      setJob s j { jb' with copEnable := true, copV0 := (getSem s jb'.copTrig).value, lastTrigger := none }
    else setJob s j { jb' with copEnable := bitOf x 31 }

/-- COP_ENABLE (R440, R454). -/
def execCopEnable (j : Job) (v : W32) (s : State) : Host.Outcome State Fault Refusal := .next (runCopCfg j v s)

/-- COP_INTERVAL_WRITE (R443): a value above 16 leaves LOG2. -/
def runCopInterval (j : Job) (v : W32) (s : State) : State :=
  let n := bitsOf v.toNat 0 5
  if anyHostUp s && decide (n ≤ 16) then modJob s j fun jb => { jb with log2Next := some n } else s

def execCopIntervalWrite (j : Job) (v : W32) (s : State) : Host.Outcome State Fault Refusal := .next (runCopInterval j v s)

/-! ## Restore and fetch (R444, R445) -/

/-- R444: no queue of the job is in RUN, WAIT or MARK in either hall. -/
def jobStill (s : State) (j : Nat) : Bool :=
  (jobQueues s j).all fun k =>
    let st := (getQueue s k).state
    st != .run && st != .wait && st != .mark

def setResult (s : State) (j v : Nat) : State := modJob s j fun jb => { jb with result := v }

/-- R444, R281: the 255 slot registers from their saved bytes; a slot whose adaptation an error stopped stays so. -/
def restoreSlots (s : State) (j : Nat) (bs : List Byte) : State :=
  (List.range 255).foldl (fun s i =>
    modSlot s j i fun old => { slotOfBytes (sliceD 0 bs (16 * i) 16) with stopped := old.stopped }) s

/-- R444: a generation slot's parts written back. With a write that is never acknowledged the restore does not end (R369). R281 keeps a slot whose
adaptation has stopped so: only a host write of T ends that. -/
def restoreFrom (s : State) (j n : Nat) : State :=
  let jb := getJob s j
  let va := genVa jb n
  let r := copCopy { st := s } j (va + 8192) jb.stateBase (4096 * jb.stateSize.toNat) none
  let r := copCopy r j (va + 8192 + 4096 * jb.stateSize.toNat) jb.paramBase (4096 * jb.paramSize.toNat) none
  let a := copRead r j 0 (va + 4096) 4080
  let r := a.1
  let r := if r.fail.isSome then r else { r with st := restoreSlots r.st j (a.2.map (·.1)) }
  let b := copRead r j 0 (va + 64) 64
  let r := if jb.ledgerEnable then copWrite b.1 j 0 (ledgerVa jb jb.copStep) b.2 else b.1
  match r.fail with
  | some f => raiseBoth r.st 40 1 { code := 0x0600, job := some j, payload := leBytes 4 jb.copStep.toNat ++ leBytes 1 f.2 }
  | none =>
    if !r.acked then modJob r.st j fun jb => { jb with restoring := true }
    else modJob r.st j fun jb => { jb with mode := 1, result := 1, replayed := false, verifyStep := jb.copStep, badGens := [] }

/-- COP_RESTORE (R444); a RESTORE that reads 1 is left alone (R502). -/
def runCopRestore (j : Job) (s : State) : State :=
  if !anyHostUp s || (getJob s j).restoring then s
  else if !jobStill s j then setResult s j 6
  else
    let g := findGen s j 0 (getJob s j).copStep
    match g.1 with
    | none => setResult g.2 j 2
    | some n => restoreFrom g.2 j n

def execCopRestore (j : Job) (s : State) : Host.Outcome State Fault Refusal := .next (runCopRestore j s)

/-- The successor's ports that CHMASK names, in both halls. -/
def copPorts (s : State) (j : Nat) : List Nat :=
  [0, 1].flatMap fun h => (maskChannels (getJob s j).copChmask.toNat).map fun c => sendPort h c false

/-- COP_FETCH (R444, R445): each hall's instance asks the successor's for its half of the segments. A FETCH that reads 1 is left alone (R502). -/
def runCopFetch (j : Job) (s : State) : State :=
  if !anyHostUp s || (getJob s j).fetching then s
  else if !jobStill s j then setResult s j 6
  else if copPorts s j = [] ∨ (copPorts s j).any (fun k => !(getPort s k).up) then setResult s j 3
  else
    let s := modJob s j fun jb => { jb with fetching := true, fetched := 0, fetchPoison := false }
    [0, 1].foldl (fun s h => match copPort s j h 0 false with
      | none => s
      | some k => enqueueFrame s k (copFrame s j 3 0 (getJob s j).copStep [])) s

def execCopFetch (j : Job) (s : State) : Host.Outcome State Fault Refusal := .next (runCopFetch j s)

/-- COP_FETCH_TIMEOUT (R445). -/
def runCopFetchTimeout (j : Job) (s : State) : State :=
  if dieUp s && (getJob s j).fetching then modJob s j fun jb => { jb with fetching := false, result := 3 } else s

def execCopFetchTimeout (j : Job) (s : State) : Host.Outcome State Fault Refusal := .next (runCopFetchTimeout j s)

/-! ## Cooper frames received (R440, R445) -/

/-- R445: a fetch request served from the buddy slot of its step, by the instance of the port's hall. -/
def serveFetch (s : State) (j h : Nat) (step : W32) : State :=
  let g := findGen s j 2 step
  match g.1 with
  | none => g.2
  | some n =>
    let va := genVa (getJob s j) n
    ((partSegments (genSize (getJob s j))).filter fun x => x.1 % 2 == h).foldl (fun s x =>
      let rd := vaRead s (jobCtx h j) (va + x.2.1) x.2.2 .cooper
      let rd := { rd with st := rd.bad.foldl (fun s b => copCrc s h j 1 b) rd.st }
      match copPort rd.st j h x.1 true with
      | none => rd.st
      | some k =>
        if rd.stop.isSome then rd.st
        else enqueueFrame rd.st k { copFrame rd.st j 4 x.2.1 step rd.bytes with dst := (getPort rd.st k).peer }) g.2

/-- R440, R445: fetch data written into own slot 0; when all of it has arrived, POISONED is set where a line came poisoned, and the generation is
restored from there. -/
def fetchData (s : State) (j h : Nat) (f : Frame) : State :=
  let jb := getJob s j
  let r := copWrite { st := s } j h (genVa jb 0 + f.offset.toNat) (frameBytes f)
  match r.fail with
  | some x =>
    raiseBoth (modJob r.st j fun jb => { jb with fetching := false, result := 3 }) 40 1
      { code := 0x0600, job := some j, payload := leBytes 4 jb.copStep.toNat ++ leBytes 1 x.2 }
  | none =>
    let poison := jb.fetchPoison || anyPoison (frameBytes f)
    let s := modJob r.st j fun jb => { jb with fetched := jb.fetched + f.payload.length, fetchPoison := poison }
    if jb.fetched + f.payload.length < genSize jb then s
    else
      let r := markPoisoned { st := modJob s j fun jb => { jb with fetching := false }, poison := poison } j 0
      restoreFrom r.st j 0

/-- R440, R447: the buddy slot of a generation of a step, opened where the predecessor's first part arrives. What arrives of a generation that has
become bad is dropped, and so is the tail of one that never opened here. -/
def buddySlot (s : State) (j : Nat) (f : Frame) : Option (Nat × CopRun) :=
  let jb := getJob s j
  match jb.gens.find? fun g => decide (2 ≤ g.slot) && g.step == f.step with
  | some g => some (g.slot, { st := s })
  | none =>
    if f.collId = 2 || jb.badGens.any (fun b => b.2 == f.step) then none
    else
      let o := olderSlot s j 2
      let r := copWrite { st := o.2 } j 0 (genVa (getJob s j) o.1) (genHeader f.step f.src f.jobTag 1)
      some (o.1, { r with st := modJob r.st j fun jb =>
        { jb with gens := jb.gens.filter (fun g => g.slot != o.1) ++ [{ slot := o.1, step := f.step }],
                  badGens := jb.badGens.filter fun b => b.1 != o.1 } })

/-- R440: a part of the predecessor's generation written into its buddy slot. -/
def buddyPart (s : State) (j h : Nat) (f : Frame) : State :=
  let part := f.collId.toNat
  match buddySlot s j f with
  | none => s
  | some b =>
    let base := if part = 0 then 4096 else if part = 1 then 8192 else 64
    let bs := frameBytes f
    let r := copWrite b.2 j h (genVa (getJob s j) b.1 + base + f.offset.toNat) bs
    let r := markPoisoned { r with poison := anyPoison bs } j b.1
    let upd (g : Gen) : Gen := if g.slot ≠ b.1 then g
      else if part = 2 then { g with tail := true } else { g with got := g.got + f.payload.length }
    closeRise (copEnd (completeBuddy { r with st := setGens r.st j fun l => l.map upd } j b.1) j b.1 f.step) j

/-- A KIND 3 frame on VL3 reaches the Cooper instance of its port's hall. -/
def receiveCooper (s : State) (port : Nat) (f : Frame) : State :=
  match (List.range 16).find? fun j => (getJob s j).tag == f.jobTag with
  | none => s
  | some j =>
    let part := f.collId.toNat
    let jb := getJob s j
    if part = 3 then (if jb.copEnable then serveFetch s j (port / 6) f.step else s)
    else if part = 4 then (if jb.fetching then fetchData s j (port / 6) f else s)
    else if part ≤ 2 ∧ jb.copEnable then buddyPart s j (port / 6) f
    else s

/-- R445, R447: a port of CHMASK went down: a copy or a fetch under way fails. -/
def copPortDown (s : State) (port : Nat) : State :=
  (List.range 16).foldl (fun s j =>
    let jb := getJob s j
    if !(copPorts s j).contains port then s
    else
      let s := if jb.fetching then modJob s j fun jb => { jb with fetching := false, result := 3 } else s
      match jb.opening with
      | none => s
      | some o => snapFail s j (openSlot s j o.1) o.1 3) s

/-! ## Dropping a micro-batch (R435, R436) -/

/-- R436: the slot-map entry of a logical core, where it can be read. -/
def slotMapEntry (s : State) (h j n : Nat) : Option W16 × State :=
  let va := (getJob s j).slotmapBase + 2 * (n % 128)
  let rd := vaRead s (jobCtx h j) va 2 .steward
  match rd.stop with
  | some f =>
    (none, raise rd.st h (if f.1.cause = 5 then 4 else 3) 2
      { code := if f.1.cause = 5 then 0x0104 else 0x0103, job := some j, lockind := 7, loc := n,
        payload := xfailBytes f.1 f.2 false })
  | none =>
    if rd.fresh.isSome || anyPoison rd.bytes then (none, rd.st)
    else (some (BitVec.ofNat 16 (leNat (rd.bytes.map (·.1)))), rd.st)

/-- R436: the ledger record whose STEP exceeds the other's by 1, by its place, with its bytes. -/
def laterRecord (a b : List Byte) : Option (Nat × List Byte) :=
  let step (x : List Byte) : W32 := BitVec.ofNat 32 (leNat (x.take 4))
  if step a = step b + 1 then some (0, a) else if step b = step a + 1 then some (1, b) else none

/-- What a drop did: the slots, the step, and LEDGER_MISS. -/
structure Dropped where
  st : State
  slots : W16
  step : W32
  miss : Bool

/-- R436, R410: LIVE bits cleared in the later record; a lost access leaves the ledger. -/
def dropLive (s : State) (h j n : Nat) (slots : W16) : Dropped :=
  let jb := getJob s j
  let rd := vaRead s (jobCtx h j) jb.ledgerBase 128 .steward
  let fault (s : State) (f : XFail × Nat) (write : Bool) : State :=
    raise s h (if f.1.cause = 5 then 4 else 3) 2
      { code := if f.1.cause = 5 then 0x0104 else 0x0103, job := some j, lockind := 7, loc := n,
        payload := xfailBytes f.1 f.2 write }
  match rd.stop with
  | some f => { st := fault rd.st f false, slots := slots, step := 0, miss := false }
  | none =>
    if rd.fresh.isSome || anyPoison rd.bytes then { st := rd.st, slots := slots, step := 0, miss := false }
    else
      let b := rd.bytes.map (·.1)
      match laterRecord (b.take 64) (b.drop 64) with
      | none => { st := rd.st, slots := slots, step := 0, miss := true }
      | some (i, r) =>
        let live := BitVec.ofNat 16 (leNat (sliceD 0 r 6 2)) &&& ~~~ slots
        let w := vaWrite rd.st (jobCtx h j) .steward (jb.ledgerBase + 64 * i + 6) ((leBytes 2 live.toNat).map fun x => (x, false))
        let st := match w.stop with
          | none => w.st
          | some f => fault w.st f true
        { st := st, slots := slots, step := BitVec.ofNat 32 (leNat (r.take 4)), miss := false }

/-- SLOT_DROP (R436): the Steward's drop for a logical core that was fenced. -/
def runSlotDrop (n : Core) (s : State) : State :=
  if !(getCore s n).dropPending || !dieUp s then s else
    let h := n.val / 64
    let j := (getOwn s n).job.toNat
    let jb := getJob s j
    let s := modCore s n fun c => { c with dropPending := false }
    let r : Dropped :=
      if jb.slotmapEnable && jb.ledgerEnable then
        let e := slotMapEntry s h j n
        match e.1 with
        | none => { st := e.2, slots := 0, step := 0, miss := false }
        | some v => dropLive e.2 h j n v
      else { st := s, slots := 0, step := 0, miss := true }
    pushEvent r.st h
      { code := 0x0008, job := some j, lockind := 7, loc := n,
        payload := leBytes 4 r.slots.toNat ++ leBytes 4 r.step.toNat ++ leBytes 1 (boolNat r.miss) }

def execSlotDrop (n : Core) (s : State) : Host.Outcome State Fault Refusal := .next (runSlotDrop n s)

end Sys2Proof.Machine
end

