-- ==== Sys2Proof/Machine/Ports.lean ====
section
/-! DEFINITION. Zodun ports (16): training, rotation and retirement of lanes (R382 to R384), frames received and replayed (R386, R387), control
codewords (R381, R388), and the time base they carry (R400). -/

namespace Sys2Proof.Machine

/-! ## The time base (R400) -/

/-- R400: a port's path to a master is the shorter, or as short to the master with the lower fabric address. -/
def nearer (p q : PortState) : Bool := decide (p.hops < q.hops) || (p.hops == q.hops && decide (p.master.toNat < q.master.toNat))

/-- R400: the port whose peer reports the fewest hops to the master; of two masters the lower fabric address, and of two ports the lower number,
breaks a tie. -/
def timeSource (s : State) : Option Nat :=
  ((List.range 12).filter fun k => (getPort s k).up && decide ((getPort s k).hops < 255)).foldl (fun best k => match best with
    | none => some k
    | some b => if nearer (getPort s k) (getPort s b) then some k else some b) none

/-- R401: LNK_TIME_CFG.OFFSET; an offset outside its twelve bits has no stated reading, and is free. -/
def offsetField (x : Int) (n : Nat) : BitVec 12 :=
  if -2048 ≤ x ∧ x < 2048 then BitVec.ofInt 12 x else (Config.freeBits n).setWidth 12

/-- R400, R401: LNK_TIME_CFG after a change of the ports or an exchange: the source, its hops plus one, its offset. The first lock, or an offset
above 1 µs, steps the time base by the offset; a module that has lost every path holds its time. -/
def updateTime (s : State) : State :=
  let t := s.timeCfg
  if t.master then { s with timeCfg := { t with holdover := false, source := 15, hops := 0, offset := 0 } }
  else
    match timeSource s with
    | some k =>
      let p := getPort s k
      let (n, s) := takeFree s
      let s := { s with timeCfg := { t with holdover := false, source := k, hops := min 255 (p.hops + 1), offset := offsetField p.offset n,
                                            locked := true } }
      if !t.locked || decide (4000 < p.offset.natAbs) then setTime s fun x => BitVec.ofInt 64 ((x.toNat : Int) + p.offset / 4) else s
    | none =>
      if t.source = 15 then s
      else raiseBoth { s with timeCfg := { t with holdover := true, source := 15, hops := 255, offset := 0 } } 42 1 { code := 0x0503 }

/-! ## Ports going down (R382, R384, R387, R399) -/

/-- FS_PORT_DOWN: a port that was up goes down, with the Drover commands and Cooper copies that use it. -/
def portDown (s : State) (k : Nat) : State :=
  if (getPort s k).up then
    let peer := (getPort s k).peer
    let s := raise (modPort s k downPort) (k / 6) 26 1 { code := 0x0502, lockind := 5, loc := k }
    updateTime (copPortDown (endOnPort s k peer) k)
  else s

/-- LINK_CLOCK_LOST (R377, R382). -/
def runLinkClockLost (h : Hall) (p : Port) (s : State) : State := if dieUp s then portDown s (6 * h.val + p.val) else s

def execLinkClockLost (h : Hall) (p : Port) (s : State) : Host.Outcome State Fault Refusal := .next (runLinkClockLost h p s)

/-! ## Lanes (R382 to R384) -/

def getLane (p : PortState) (n : Nat) : Lane := tabGet {} p.lanes n
def setLane (p : PortState) (n : Nat) (l : Lane) : PortState := { p with lanes := tabSet {} n l p.lanes }

/-- The lanes of a port that have not been retired. -/
def lanesLeft (p : PortState) : List Nat := (List.range 5).filter fun n => !(getLane p n).retired

/-- R382, R384: a port that trained on the lanes `ok`: four active and a spare, or four, or three. -/
def trainPort (p : PortState) (ok : List Nat) (peer : BitVec 12) : PortState :=
  let active := ok.take 4
  let p := (List.range 5).foldl (fun p n =>
    let l := getLane p n
    let role := if l.retired then 5 else match active.findIdx? (· == n) with
      | some i => i
      | none => if ok.contains n then 4 else 6
    setLane p n { l with role := role }) p
  let spare := (ok.drop 4).head?.map (Fin.ofNat 5)
  { p with up := true, lost := false, active := active.length, spare := spare, rxSlots := active.map (Fin.ofNat 5), rxSpare := spare,
           peer := peer, rotSlot := 0 }

/-- PORT_TRAIN (R382, R489): a port that is down tries to train. It comes up with at least three lanes that its receiver has deskewed, the
peer's address, and an address of its own. -/
def runPortTrain (h : Hall) (p : Port) (t : Training) (peer : Option (BitVec 12)) (s : State) : State :=
  let k := 6 * h.val + p.val
  let ps := getPort s k
  let ok := (lanesLeft ps).filter fun n => (t.lanes.map (·.val)).contains n
  match peer with
  | none => s
  | some a =>
    if dieUp s && !ps.up && !s.moduleDown && !s.jtag.driving && s.chain.lfa.isSome && t.deskewed && decide (3 ≤ ok.length) then
      setPort s k (trainPort ps ok a)
    else s

def execPortTrain (h : Hall) (p : Port) (t : Training) (peer : Option (BitVec 12)) (s : State) : Host.Outcome State Fault Refusal :=
  .next (runPortTrain h p t peer s)

/-- The lane of a role. -/
def laneOfRole (p : PortState) (role : Nat) : Option Nat := (List.range 5).find? fun n => (getLane p n).role == role

/-- R383: the calibrated spare takes over the next active slot, and the old lane becomes the spare. For 64 codewords both lanes carry the slot, and
the next control codeword marks the handover. -/
def rotateLanes (p : PortState) : PortState :=
  match p.spare, laneOfRole p p.rotSlot with
  | some sp, some old =>
    let a := getLane p sp
    let p := setLane (setLane p sp { a with role := p.rotSlot, cal := a.cal + 1 }) old { getLane p old with role := 4 }
    { p with spare := some (Fin.ofNat 5 old), rotSlot := (p.rotSlot + 1) % 4, rotates := p.rotates + 1,
             handover := some (Fin.ofNat 4 p.rotSlot), both := some (Fin.ofNat 5 old, Fin.ofNat 4 p.rotSlot, 64) }
  | _, _ => p

/-- LANE_ROTATE (R383). -/
def runLaneRotate (h : Hall) (p : Port) (s : State) : State :=
  if dieUp s && (getPort s (6 * h.val + p.val)).up then modPort s (6 * h.val + p.val) rotateLanes else s

def execLaneRotate (h : Hall) (p : Port) (s : State) : Host.Outcome State Fault Refusal := .next (runLaneRotate h p s)

/-- R384: the receiving direction without lane `n`: an active lane is replaced by the spare, or its slot closes up. -/
def dropRxLane (p : PortState) (n : Nat) : PortState :=
  if p.rxSlots.any fun x => x.val == n then
    match p.rxSpare with
    | some sp => { p with rxSlots := p.rxSlots.map fun x => if x.val = n then sp else x, rxSpare := none }
    | none => { p with rxSlots := p.rxSlots.filter fun x => x.val != n }
  else if p.rxSpare.map (·.val) = some n then { p with rxSpare := none }
  else p

/-- R383: the receiver switches a slot to its calibrated spare; the old lane becomes the spare. -/
def switchRx (p : PortState) (slot : Fin 4) : PortState :=
  match p.rxSpare, p.rxSlots[slot.val]? with
  | some sp, some old => { p with rxSlots := p.rxSlots.set slot sp, rxSpare := some old }
  | _, _ => p

/-- R384: the slots after slot `role` close up. -/
def closeUp (p : PortState) (role : Nat) : PortState :=
  (List.range 5).foldl (fun p i =>
    let x := getLane p i
    if role < x.role ∧ x.role < 4 then setLane p i { x with role := x.role - 1 } else p) p

/-- R384: the lanes of a port after lane `n` is retired: an active lane is replaced by the spare, or its slot closes up. -/
def dropLane (p : PortState) (n : Nat) : PortState :=
  let p := dropRxLane p n
  let l := getLane p n
  let role := l.role
  let p := setLane p n { l with retired := true, role := 5 }
  if !p.up then p
  else if role = 4 then { p with spare := none }
  else if role < 4 then
    match p.spare with
    | some sp => { setLane p sp { getLane p sp with role := role } with spare := none }
    | none => { closeUp p role with active := p.active - 1 }
  else p

/-- R384: a lane retired for life: the log entry, EV_LANE_RETIRE, and what the lanes that remain allow. -/
def retireLane (s : State) (k n : Nat) : State :=
  if (getLane (getPort s k) n).retired then s else
    let s := modPort s k fun p => dropLane p n
    let s := logDecision s (k / 6) (logEntry (now s (k / 6)) 5 0 0xFF (leBytes 1 k ++ leBytes 1 n))
    let s := raise s (k / 6) 25 1 { code := 0x0500, lockind := 5, loc := k, payload := leBytes 1 n }
    let left := (lanesLeft (getPort s k)).length
    let s := if left = 3 then raise s (k / 6) 25 1 { code := 0x0501, lockind := 5, loc := k } else s
    if left < 3 ∨ (getPort s k).active < 3 then portDown s k else s

/-- LANE_RETIRE (R384): a lane over its limits. -/
def runLaneRetire (h : Hall) (p : Port) (lane : Fin 5) (s : State) : State :=
  if dieUp s then retireLane s (6 * h.val + p.val) lane else s

def execLaneRetire (h : Hall) (p : Port) (lane : Fin 5) (s : State) : Host.Outcome State Fault Refusal :=
  .next (runLaneRetire h p lane s)

/-- R401: LNK_CTL written: ROT_S, and each bit of RETIRE. -/
def writeLnkCtl (s : State) (k : Nat) (v : W32) : State :=
  let rot := bitsOf v.toNat 8 8
  let s := modPort s k fun p => { p with rotS := if rot = 0 then p.rotS else BitVec.ofNat 8 rot }
  (List.range 5).foldl (fun s n => if bitOf v.toNat n then retireLane s k n else s) s

/-- LNK_LANE_RETIRE_WRITE (R384, R401). -/
def runLaneRetireWrite (h : Hall) (p : Port) (v : W32) (s : State) : State :=
  if hostUp s h then writeLnkCtl s (6 * h.val + p.val) v else s

def execLnkLaneRetireWrite (h : Hall) (p : Port) (v : W32) (s : State) : Host.Outcome State Fault Refusal :=
  .next (runLaneRetireWrite h p v s)

/-! ## Replay (R387) -/

/-- R387, R398: one more frame resent by the Drover command that sent it. -/
def countReplay (s : State) (h : Nat) (f : Frame) : State :=
  let bump (l : List InFlight) : List InFlight := match l with
    | [] => []
    | c :: r => { c with coll := c.coll.map fun x => { x with resent := x.resent + 1 } } :: r
  match (List.range 16).find? fun j =>
      (getJob s j).tag == f.jobTag && ((runningDrv s h j).map fun c => BitVec.ofNat 32 (fld c.cmd 28 0 32)) == some f.collId with
  | none => s
  | some j => if f.kind = 0 ∨ f.kind = 1 then
      modQueue s (512 + 16 * h + j) fun q => { q with inflight := bump q.inflight }
    else s

/-- R387: every unacknowledged frame resent in order, as the retry buffer gives it (log entry 156). The sixteenth replay of one in a row takes the port
down. -/
def replayFrames (s : State) (k : Nat) : State :=
  let l := (getPort s k).retry
  let s := modPort s k fun p =>
    { p with retry := p.retry.map fun u => { u with replays := u.replays + 1 }, replayed := p.replayed + BitVec.ofNat 32 l.length,
             line := p.line ++ (l.mapIdx fun i u => nibbles (readLine (lineBytes u.frame) u.flip (Config.freeNat (s.free + i)))).flatten }
  let s := { s with free := s.free + l.length }
  let s := l.foldl (fun s u => countReplay s (k / 6) u.frame) s
  if l.any fun u => decide (16 ≤ u.replays + 1) then portDown s k else s

/-- FRAME_REPLAY_TIMEOUT (R387): a frame has stood unacknowledged for 4 µs. -/
def runReplayTimeout (h : Hall) (p : Port) (s : State) : State :=
  let k := 6 * h.val + p.val
  if dieUp s && (getPort s k).up && !(getPort s k).retry.isEmpty then replayFrames s k else s

def execFrameReplayTimeout (h : Hall) (p : Port) (s : State) : Host.Outcome State Fault Refusal := .next (runReplayTimeout h p s)

/-! ## Control codewords (R381, R388, R400) -/

/-- A sequence number at or before another, modulo 2^32. -/
def seqLe (a b : W32) : Bool := decide ((b - a).toNat < 2 ^ 31)

/-- R387: frames up to a sequence number acknowledged. -/
def ackFrames (p : PortState) (n : W32) : PortState := { p with retry := p.retry.filter fun u => !seqLe u.frame.seq n }

/-- R388: credits returned, never above a lane's receive buffers. -/
def addCredits (p : PortState) (l : List Nat) : PortState :=
  { p with credits := (List.range 4).map fun i => min ([8, 48, 64, 8].getD i 0) (p.credits.getD i 0 + l.getD i 0) }

/-- An uncorrectable codeword (R386, R423). -/
def uncorrectable (s : State) (k : Nat) : State :=
  raiseQuiet (modPort s k fun p => { p with fecUnc := p.fecUnc + 1 }) (k / 6) 24

/-- R401: SER of a second with so many wrong symbols of the 45.2 · 10⁹ that a lane carries in it (R380). -/
def serOf (bad : Nat) : Nat :=
  if bad = 0 then 15 else ((List.range 16).filter fun e => decide (bad * 10 ^ e < 45200000000)).foldl max 0

/-- R401: a port's lanes at second `n` of its hall's time base. -/
def rollSecond (p : PortState) (n : Nat) : PortState :=
  if n = p.second then p
  else { p with second := n,
                lanes := tabMap {} (fun _ l => { l with ser := serOf (if n = p.second + 1 then l.bad else 0), bad := 0 }) p.lanes }

/-- The second of a hall's time base. -/
def secondOf (s : State) (h : Nat) : Nat := (now s h).toNat / 1000000000

/-- R401: wrong symbols of a codeword counted for the lane that carries its slot. -/
def countBad (p : PortState) (w : LaneWord) : PortState :=
  match p.rxSlots[w.slot.val]? with
  | none => p
  | some n => setLane p n { getLane p n with bad := (getLane p n).bad + (wrongSymbols w.errors).length }

/-- R386, R401: LNK_FEC_CORR. -/
def countCorrected (p : PortState) (w : LaneWord) : PortState :=
  if corrected w.errors then { p with fecCorr := p.fecCorr + 1 } else p

/-- R380, R401: a codeword has arrived on an active slot: the wrong symbols of its lane, and what the code made of it. -/
def noteWord (s : State) (k : Nat) (w : LaneWord) : State :=
  let s := modPort s k fun p => countCorrected (countBad (rollSecond p (secondOf s (k / 6))) w) w
  if decodes w.errors then s else uncorrectable s k

/-- R381, R388, R400: what a control codeword tells the port: a handover, the peer with its time base, credits, frames acknowledged. -/
def takeControl (p : PortState) (c : ControlCodeword) : PortState :=
  let p := match c.handover with
    | some slot => switchRx p slot
    | none => p
  let p := addCredits { p with peer := c.lfa, hops := min 255 c.hops, offset := c.timeOffset, master := c.master } c.credits
  match c.ack with
  | some n => ackFrames p n
  | none => p

/-- CONTROL_CODEWORD (R381): one that the code cannot correct is ignored. -/
def runControl (h : Hall) (p : Port) (c : ControlCodeword) (s : State) : State :=
  let k := 6 * h.val + p.val
  if !dieUp s || !(getPort s k).up then s
  else if !decodes c.word.errors then noteWord s k c.word
  else
    let s := modPort (noteWord s k c.word) k fun p => takeControl p c
    let s := updateTime s
    match c.replay with
    | none => s
    | some n => replayFrames (modPort s k fun p => ackFrames p (n - 1)) k

def execControlCodeword (h : Hall) (p : Port) (c : ControlCodeword) (s : State) : Host.Outcome State Fault Refusal :=
  .next (runControl h p c s)

/-! ## Codewords sent (R380, R381) -/

/-- R381: the control codeword a port sends now. One that the peer could not correct (`lost`) has its content sent again. -/
def controlOf (s : State) (k : Nat) (lost : Option ControlSent) : ControlSent :=
  let p := getPort s k
  let t := s.timeCfg
  { lfa := s.chain.lfa.getD 0,
    credits := (List.range 4).map fun i => p.owed.getD i 0 + match lost with
      | none => 0
      | some c => c.credits.getD i 0,
    ack := if p.askReplay then none else some (p.rxSeq - 1),
    replay := if p.askReplay then some p.rxSeq else none,
    handover := p.handover <|> lost.bind (·.handover),
    time := now s (k / 6),
    hops := if t.master then 0 else t.hops,
    master := if t.master then s.chain.lfa.getD 0 else (getPort s t.source).master }

/-- `n` free half bytes. -/
def freeNibbles (s : State) (n : Nat) : List (BitVec 4) × State :=
  ((List.range n).map fun i => (Config.freeBits (s.free + i)).setWidth 4, { s with free := s.free + n })

/-- R380: the codeword that carries the next bytes of the line; what the frames at hand do not fill is not said, and free (log entry 155). -/
def lineWord (s : State) (k : Nat) : List Sym × State :=
  let l := (getPort s k).line.take 1285
  let fill := freeNibbles s (1285 - l.length)
  (rsWord (symbolsOf (l ++ fill.1)), modPort fill.2 k fun p => { p with line := p.line.drop 1285 })

/-- R380, R381: the codeword that carries a control codeword's content, whose layout is not said: its data symbols are free (log entry 155). -/
def controlWord (s : State) : List Sym × State :=
  let data := freeNibbles s 1285
  (rsWord (symbolsOf data.1), data.2)

/-- R380: one codeword sent on active slot `i`: the control codeword in its turn, else the next frame bytes; a module without an address sends no control
codeword (R489). How a sender learns that a control codeword was uncorrectable is not said, and free (log entry 159). -/
def sendSlot (s : State) (k i : Nat) : State :=
  let p := getPort s k
  if isControlWord p.round i then
    if s.chain.lfa = none then
      let w := controlWord s
      modPort w.2 k fun p => { p with sent := p.sent ++ [.idle w.1] }
    else
      let (n, s) := takeFree s
      let c := controlOf s k (if Config.freeBool n then p.control else none)
      let w := controlWord s
      modPort w.2 k fun p => { p with control := some c, owed := [0, 0, 0, 0], handover := none, sent := p.sent ++ [.control c w.1] }
  else
    let s := modPort s k fun p => fillLine (p.egress.length + 1) p
    let idle := (getPort s k).line = []
    let w := lineWord s k
    modPort w.2 k fun p => { p with sent := p.sent ++ [if idle then .idle w.1 else .data w.1] }

/-- R383: one codeword less on the lane that hands its slot over. -/
def countBoth (p : PortState) : PortState :=
  { p with both := match p.both with
      | some (n, i, m + 1) => if m = 0 then none else some (n, i, m)
      | _ => none }

/-- R380: one codeword time of a port: each active slot sends one codeword. -/
def sendRound (s : State) (k : Nat) : State :=
  let p := getPort s k
  if !p.up || !dieUp s then s else
    let s := modPort s k fun p => countBoth { rollSecond p (secondOf s (k / 6)) with sent := [] }
    let s := (List.range p.active).foldl (fun s i => sendSlot s k i) s
    modPort s k fun p => { p with round := (p.round + 1) % 16 }

/-- R378, R380, log entry 1: what happens when no command waits: one MGMT cycle in each hall, and every third of them a codeword time of the
ports (12.04 ns, here 12). -/
def idleStep (s : State) : State :=
  (List.range 12).foldl (fun t k => if (now t (k / 6)).toNat % 12 < 4 then sendRound t k else t) (tick s)

/-! ## Frames received (R386) -/

/-- R386, check 4. -/
def frameForUs (s : State) (k : Nat) (f : Frame) : Bool :=
  some f.dst == s.chain.lfa && f.src == (getPort s k).peer && f.jobTag != 0
    && (List.range 16).any fun j => (getJob s j).tag == f.jobTag

/-- R387: the frame is lost, and a replay is asked for. -/
def lostFrame (s : State) (k : Nat) : State := modPort s k fun p => { p with askReplay := true }

/-- The frame takes its place in the sequence. -/
def tookSeq (s : State) (k : Nat) : State := modPort s k fun p => { p with rxSeq := p.rxSeq + 1, askReplay := false, crcTries := 0 }

/-- R386, R388: a frame accepted into its receive buffer; an abort and a Cooper frame leave it at once. -/
def acceptFrame (s : State) (k : Nat) (f : Frame) (bad : Option W32) : State :=
  let x : RxFrame := { frame := f, bad := bad, flip := bufFlip (getPort s k) 1 }
  let s := modPort s k fun p => { p with flip := disarmBuf p 1, rx := p.rx ++ [x] }
  if f.kind = 2 then receiveAbort (takeFrame s k x).2 k f.collId f.jobTag
  else if f.kind = 3 ∧ f.vl = 3 then receiveCooper (takeFrame s k x).2 k (takeFrame s k x).1
  else s

/-- R386, check 5: the payload's check value. -/
def checkPayload (s : State) (k : Nat) (f : Frame) : State :=
  let p := getPort s k
  if f.pcrc = crc32c f.payload then
    acceptFrame (tookSeq (if 0 < p.crcTries then modPort s k fun p => { p with crcRetry := p.crcRetry + 1 } else s) k) k f none
  else if p.crcTries < 4 then modPort s k fun p => { p with crcTries := p.crcTries + 1, askReplay := true }
  else
    let h := k / 6
    let j := (List.range 16).find? fun j => (getJob s j).tag == f.jobTag
    let seq := nextSeq s h
    let s := raiseCrc (modPort (tookSeq s k) k fun p => { p with crcFail := p.crcFail + 1 }) h 6 j 2 (j.getD 0) f.offset.toNat
    acceptFrame s k { f with poison := allLines f } (some seq)

/-- R386: checks 2 to 5 of a frame whose codewords all decoded. A frame beyond the credits given finds no buffer and is lost (log entry 160). -/
def checkFrame (s : State) (k : Nat) (f : Frame) (head : List Byte) : State :=
  let p := getPort s k
  if f.hcrc ≠ crc32c head then lostFrame s k
  else if f.seq ≠ p.rxSeq then (if seqLe f.seq p.rxSeq then s else lostFrame s k)
  else if rxBuffers.getD f.vl 0 ≤ rxHeld p f.vl then lostFrame s k
  else if !frameForUs s k f then modPort (tookSeq s k) k fun p => oweCredits { p with drops := p.drops + 1 } f.vl 1
  else checkPayload s k f

/-- FRAME_RECEIVE (R386): the codewords that carried a frame, and its bytes, checked in order. A codeword with bytes of two frames comes with
the first. -/
def runFrameReceive (h : Hall) (p : Port) (bytes : List Byte) (words : List LaneWord) (s : State) : State :=
  let k := 6 * h.val + p.val
  if !dieUp s || !(getPort s k).up then s
  else
    let s := words.foldl (fun s w => noteWord s k w) s
    if words.all fun w => decodes w.errors then checkFrame s k (frameOf bytes) (bytes.take 60) else lostFrame s k

def execFrameReceive (h : Hall) (p : Port) (header payload : List Byte) (headWords dataWords : List LaneWord) (s : State) :
    Host.Outcome State Fault Refusal := .next (runFrameReceive h p (header ++ payload) (headWords ++ dataWords) s)

end Sys2Proof.Machine
end

