-- ==== Sys2Proof/Machine/Start.lean ====
section
/-! DEFINITION. The cold start (R477 to R479), what it takes from the flash (R345, R476, R508), the reload of a hall (R480, R510) and the
full-module self-test (R450). -/

namespace Sys2Proof.Machine

/-- R22: a job context is resident in either hall; with the die unpowered none is. -/
def anyJob (s : State) : Bool := dieUp s && (anyResident s 0 || anyResident s 1)

/-! ## What a start reads from the flash -/

/-- R476: the entries that the Steward still holds appended; one for which there is no room raises FS_FLASH and is held again, or lost. -/
def appendHeld (s : State) (h : Nat) : State :=
  let l := (getHall s h).logHeld ++ (getHall s h).logPending
  l.foldl (fun s e => writeEntry s h e) (modHall s h fun hl => { hl with logHeld := [], logPending := [] })

/-- R476: the entries that count, with their index. -/
def goodEntries (hl : HallState) (base slots : Nat) : List (Nat × List Byte) :=
  let l := flashEntries hl base slots
  ((List.range l.length).zip l).filter fun x => entryGood x.2

/-- R476, R496: entries skipped, counted in STW_IMAGE.LOG_BAD. -/
def badEntries (hl : HallState) : Nat :=
  ((flashEntries hl logBase logSlots).filter fun e => !entryGood e).length

def entryKind (e : List Byte) : Nat := (e.getD 8 0).toNat
def entryPart (e : List Byte) (i : Nat) : Nat := (e.getD (12 + i) 0).toNat

/-- Entries of a KIND in the repair log. -/
def logOf (hl : HallState) (kind : Nat) : List (Nat × List Byte) :=
  (goodEntries hl logBase logSlots).filter fun x => entryKind x.2 == kind

/-- R126, R301: the positions of a hall retired for life, by the repair log or by the fuse map. -/
def retiredPositions (s : State) (h : Nat) : List Nat :=
  ((logOf (getHall s h) 1).map fun x => entryPart x.2 0) ++ (List.range 72).filter fun i => s.fuse.badLooms.contains (posKey h i)

/-- R304: ASSAY entries of a position. -/
def assayEntries (hl : HallState) (i : Nat) : Nat := ((logOf hl 2).filter fun x => entryPart x.2 0 == i).length

/-- R508: usable positions in ascending index. -/
def usablePositions (s : State) (h : Nat) : List Nat := (List.range 72).filter fun i => !(retiredPositions s h).contains i

/-- R508: a position after the mapping. -/
def startPosition (s : State) (h i : Nat) : Position :=
  let assays := min 3 (assayEntries (getHall s h) i)
  if (retiredPositions s h).contains i then { status := .retired, islandOn := false, assays := assays }
  else { status := if ((usablePositions s h).take 64).contains i then .inService else .ready, assays := assays,
         islandOn := islandSupplied s h }

/-- R508: logical core `i` of the hall after the mapping. -/
def startCore (s : State) (h i : Nat) : LCore :=
  match (usablePositions s h)[i]? with
  | some p => { pos := p }
  | none => { pos := 127, fenced := true }

/-- R508, R34: EV_NO_SPARE for each logical core left without a position. -/
def noSpares (s : State) (h : Nat) : State :=
  (List.range 64).foldl (fun s i =>
    if (getCore s (64 * h + i)).pos = 127 then
      raise s h 30 1 { code := 0x0007, job := ownerJob s (64 * h + i), lockind := 7, loc := 64 * h + i }
    else s) s

/-- R508: the hall's map laid out anew from its flash. -/
def mapHall (s : State) (h : Nat) : State :=
  let t := (List.range 72).foldl (fun t i => setPos t (posKey h i) (startPosition s h i)) s
  let t := (List.range 64).foldl (fun t i => setCore t (64 * h + i) (startCore s h i)) t
  noSpares (modHall t h fun hl =>
    { hl with fencedOrder := ((List.range 64).filter fun i => (startCore s h i).pos == 127).map fun i => 64 * h + i }) h

/-- R346: package slots retired, with their CAUSE. -/
def startPackages (s : State) (h : Nat) : State :=
  (logOf (getHall s h) 4).foldl (fun s x =>
    modHub s (entryPart x.2 0 % 16) fun hb =>
      let i := entryPart x.2 1 % 8
      setPkg hb i { getPkg hb i with retired := true, cause := (x.2.getD 9 0).toNat % 4 }) s

/-- R344, R345: one logged row at a start: hPPR unless it is marked repaired; whether a repair succeeds is free (log entry 2). A row that
is not repaired takes the lowest free shadow. -/
def startRow (s : State) (h : Nat) (x : Nat × List Byte) : State :=
  let hk := entryPart x.2 0 % 16
  let ch := entryPart x.2 1 % 32
  let i := chSlot ch
  let done := x.2.getD 10 0 == 0
  let gone := (getPkg (getHub s hk) i).retired
  let (n, s) := takeFree s
  let fixed := done || (!gone && Config.freeBool n)
  let s := if fixed && !done then
      modHall s h fun hl => { hl with flash := flashProgram hl.flash (logBase + 64 * x.1 + 10) [0] }
    else s
  modHub s hk fun hb =>
    let pk := getPkg hb i
    let hb := setPkg hb i { pk with hard := satAdd 15 pk.hard 1, repaired := if fixed then satAdd 255 pk.repaired 1 else pk.repaired }
    if fixed || gone then hb else
      match freeShadow hb with
      | none => hb
      | some m =>
        let sh : Shadow := { valid := true, ch := ch, bank := entryPart x.2 2 % 16, row := leNat ((x.2.drop 15).take 4) }
        { hb with shadows := tabSet {} m sh hb.shadows }

def startRows (s : State) (h : Nat) : State := (logOf (getHall s h) 3).foldl (fun s x => startRow s h x) s

/-- R384: lanes retired for life. -/
def startLanes (s : State) (h : Nat) : State :=
  (logOf (getHall s h) 5).foldl (fun s x =>
    modPort s (entryPart x.2 0 % 12) fun p =>
      setLane p (entryPart x.2 1 % 5) { getLane p (entryPart x.2 1 % 5) with retired := true, role := 5 }) s

/-- R370: the faulty wires of a hall's receiving end of a Joiner link, by the fuse map and the seam wire map. -/
def faultyWires (s : State) (h n : Nat) : List Nat :=
  (((goodEntries (getHall s h) seamMapBase seamMapSlots).filter fun x => entryPart x.2 0 == n).map fun x =>
      entryPart x.2 1 + 256 * entryPart x.2 2)
    ++ ((s.fuse.wires.filter fun x => x.1 == 18 * h + n).map fun x => x.2)

/-- R370, R373: a hall's end of a Joiner link with its spare wires set. -/
def startLink (s : State) (h n : Nat) : SeamLink :=
  let k := (faultyWires s h n).eraseDups.length
  { up := false, short := decide (64 < k), spares := min 64 k }

/-- R370: the ends of a hall. -/
def startEnds (s : State) (h : Nat) : State :=
  modHall s h fun hl => { hl with seam := (List.range 18).foldl (fun t n => tabSet {} n (startLink s h n) t) [] }

/-- R365, R373: a Joiner link trained: up where neither end is short of spares, no hole lies at its row's ends and its training does not fail,
which is free. -/
def trainLink (s : State) (n : Nat) : State :=
  let (u, s) := takeFree s
  let y := n % 9
  setUp s n (Config.freeBool u && !isHole s (stopAt 0 9 y) && !isHole s (stopAt 1 0 y)
    && [0, 1].all fun h => !(getSeam (getHall s h) n).short)

/-- R373, R374: the Joiner links trained one at a time. -/
def trainSeam (s : State) : State := (List.range 18).foldl trainLink s

/-! ## The slots (R478) -/

/-- R478: the slot a hall takes by itself, and whether it is not the one ACTIVE names. -/
def chosenSlot (hl : HallState) : Option (Bool × Bool) :=
  let a := activeSlot hl
  if slotValid hl a then some (a, false) else if slotValid hl (!a) then some (!a, true) else none

/-- R478: the slots of both halls, or the state in which the start stops. The East hall tries its other slot for the COMPAT of the West. -/
def chooseSlots (w e : HallState) : Except StartState ((Bool × Bool) × (Bool × Bool)) :=
  match chosenSlot w, chosenSlot e with
  | some a, some b =>
    if slotCompat w a.1 = slotCompat e b.1 then .ok (a, b)
    else if slotValid e (!b.1) ∧ slotCompat w a.1 = slotCompat e (!b.1) then .ok (a, (!b.1, true))
    else .error .mismatch
  | _, _ => .error .bootFail

/-- R496: STW_IMAGE for the slot a hall runs; LOG_BAD saturates. -/
def withImage (hl : HallState) (slot fallback : Bool) : HallState :=
  { hl with imageSlot := slot, imageFallback := fallback, imageLogBad := min 0x3FFF (badEntries hl),
            imageVersion := slotVersion hl slot, imageCompat := slotCompat hl slot }

/-! ## Cold start (R477, R479) -/

/-- What a hall keeps when its die registers are lost: the flash, and what the Steward holds for it. A hall whose start had stopped keeps the sticky bits
and events that wait for a start to complete (R479); where its start is resumed (`again`), it keeps besides what the host hub holds, powered from the
management domain (R478): its link, its configuration space and its mailbox. -/
def startHall (s : State) (h : Nat) (x : StartState) (again : Bool) : HallState :=
  let hl := getHall s h
  let wait := !s.started
  { resetHall with
    start := x, flash := hl.flash, logHeld := hl.logHeld, logPending := hl.logPending,
    held := if wait then hl.held else [], evSeq := if wait then hl.evSeq else 0,
    sticky := if wait then hl.sticky else 0, heldRouter := if wait then hl.heldRouter else 0,
    heldSeam := if wait then hl.heldSeam else 0, heldPll := if wait then hl.heldPll else 0, heldVr := if wait then hl.heldVr else 0,
    linkUp := again && hl.linkUp, busMaster := again && hl.busMaster, msixEnable := again && hl.msixEnable,
    msixMask := again && hl.msixMask, bar0Addr := if again then hl.bar0Addr else 0, bar2Addr := if again then hl.bar2Addr else 0,
    flashStatus := if again then hl.flashStatus else 0, flashOp := if again then hl.flashOp else 0,
    flashAddr := if again then hl.flashAddr else 0, mailbox := if again then hl.mailbox else [],
    reloadStatus := if again then hl.reloadStatus else 0, reloadMakeActive := again && hl.reloadMakeActive,
    reloadSlot := again && hl.reloadSlot }

/-- The slower of two memory rates. -/
def slower (a b : Rate) : Rate := if a.code ≤ b.code then a else b

/-- R2: the memory rate that the images of both halls' slots leave to the order code's. -/
def startRate (s : State) (a b : Bool) : Rate :=
  let policy (h : Nat) (x : Bool) : Rate := Config.policyRate (BitVec.ofNat 32 (slotWord (getHall s h) x 3))
  slower s.order.rate (slower (policy 0 a) (policy 1 b))

/-- The module at the beginning of a cold start: what lies outside the die stays, and the fuse map. -/
def startBase (s : State) (x : StartState) (again : Bool) : State :=
  { State.reset with
    pending := s.pending, free := s.free, order := s.order, rate := s.rate, fuse := s.fuse, started := false,
    chain := s.chain, hostMem := s.hostMem, hostRead := s.hostRead, hostReadPoison := s.hostReadPoison,
    miller := { derate := s.power.warm }, jtag := s.jtag,
    power := { s.power with die := false, efuseOpen := false },
    halls := tabSet resetHall 0 (startHall s 0 x again) (tabSet resetHall 1 (startHall s 1 x again) []) }

/-- R477, step 12: the events of the start. -/
def startEvents (s : State) (h : Nat) (fallback : Bool) : State :=
  let s := if fallback then pushEvent s h { code := 0x0801 } else s
  pushEvent s h { code := 0x0800 }

/-- R477: the start as far as the Joiner links, from slots `a` and `b`. -/
def startLinked (s : State) (a b : Bool × Bool) (again : Bool) : State :=
  let t := { startBase s .running again with rate := startRate s a.1 b.1 }
  let t := appendHeld (appendHeld t 0) 1
  let t := modHall (modHall t 0 fun hl => withImage hl a.1 a.2) 1 fun hl => withImage hl b.1 b.2
  trainSeam (startEnds (startEnds t 0) 1)

/-- R477: what the flash says of packages, rows and lanes; then the die has power, the shares stand and both halls are mapped. -/
def startMapped (t : State) : State :=
  let t := [0, 1].foldl (fun t h => startLanes (startRows (startPackages t h) h) h) t
  let t := { t with power := { t.power with die := true, efuseLatch := false }, started := true }
  mapHall (mapHall (reshare t) 0) 1

/-- R477, step 12: what the start reports; `latch` tells that an eFuse had opened (R518). -/
def startReported (t : State) (latch : Bool) : State :=
  let t := if seamClass t = 1 then raiseBoth t 11 1 { code := 0x0409 } else t
  let t := if latch then raiseBoth t 36 6 { code := 0x0705 } else t
  startEvents (startEvents t 0 (!slotValid (getHall t 0) (activeSlot (getHall t 0)))) 1
    (!slotValid (getHall t 1) (activeSlot (getHall t 1)))

/-- R477: a start that goes through, from slots `a` and `b`. -/
def startThrough (s : State) (a b : Bool × Bool) (again : Bool) : State :=
  let t := startLinked s a b again
  if seamClass t = 6 then raiseBoth (startBase s .fault again) 11 6 { code := 0x0409 }
  else startReported (startMapped t) s.power.efuseLatch

/-- R470: a start in which the flash of a hall cannot be used: that hall stops in FLASH_BAD, and the other, without a slot in each hall, in
BOOT_FAIL. -/
def flashStopped (s : State) (again : Bool) : State :=
  ([0, 1].filter fun h => flashUnusable s h).foldl (fun s h => modHall s h fun hl => { hl with start := .flashBad }) (startBase s .bootFail again)

/-- R477, R478: a cold start, from its beginning, or from step 3 where it is resumed (`again`), to step 12 or to the state in which it stops. -/
def coldStarted (s : State) (again : Bool) : State :=
  if flashUnusable s 0 || flashUnusable s 1 then flashStopped s again
  else match chooseSlots (getHall s 0) (getHall s 1) with
  | .error x => startBase s x again
  | .ok (a, b) => startThrough s a b again

/-- COLD_START (R477): the supplies come up, both within their ranges. An open eFuse keeps the die unpowered (R518). A supply that had been lost took the
test access port's state with it (R519); pins that are driven stay so while it stood (R524). -/
def runColdStart (s : State) : State :=
  if s.power.mgmt && s.power.input48 then s else
    let s := if s.power.mgmt then s else { s with chain := { s.chain with lfa := none, caddr := 0, inOk := false }, jtag := {} }
    let s := { s with power := { s.power with mgmt := true, input48 := true } }
    if s.power.efuseOpen then s else coldStarted s false

def execColdStart (s : State) : Host.Outcome State Fault Refusal := .next (runColdStart s)

/-- STW_START_RETRY (R478, R479, R533): a stopped start goes on from step 3, with both supplies present. -/
def runStartRetry (h : Hall) (s : State) : State := if bootUp s h && !s.started && s.power.mgmt then coldStarted s true else s

def execStwStartRetry (h : Hall) (s : State) : Host.Outcome State Fault Refusal := .next (runStartRetry h s)

/-! ## Reload of a hall (R480, R510) -/

/-- R510: the hall's own registers after a reload: those kept, the rest at reset. Class H sticky bits clear unless the reload fails
(`failed`). -/
def reloadedHall (hl : HallState) (share : Nat) (failed : Bool) : HallState :=
  let kept := if failed then hl else (List.range 44).foldl (fun x n => if sourceClass hl n = 5 then clearBit x n else x) hl
  { resetHall with
    clockOff := hl.clockOff && failed, conds := hl.conds,
    tnkEnable := hl.tnkEnable, tnkPeriod := hl.tnkPeriod, tnkRotAge := hl.tnkRotAge,
    sticky := kept.sticky, force := hl.force, aliveMask := hl.aliveMask, heldRouter := kept.heldRouter,
    heldSeam := kept.heldSeam, heldPll := kept.heldPll, heldVr := kept.heldVr, back := hl.back,
    start := hl.start, reloadStatus := hl.reloadStatus, reloadMakeActive := hl.reloadMakeActive, reloadSlot := hl.reloadSlot,
    imageSlot := hl.imageSlot, imageFallback := hl.imageFallback, imageLogBad := hl.imageLogBad,
    imageVersion := hl.imageVersion, imageCompat := hl.imageCompat,
    flashStatus := hl.flashStatus, flashOp := hl.flashOp, flashAddr := hl.flashAddr, mailbox := hl.mailbox, flash := hl.flash,
    logHeld := hl.logHeld, logPending := hl.logPending, seamFlip := hl.seamFlip,
    bar2Base := hl.bar2Base, poisonRd := hl.poisonRd, bar0Drop := hl.bar0Drop, linkUp := hl.linkUp, busMaster := hl.busMaster,
    msixEnable := hl.msixEnable, msixMask := hl.msixMask, bar0Addr := hl.bar0Addr, bar2Addr := hl.bar2Addr,
    ringBase := hl.ringBase, ringEnable := hl.ringEnable, ringSizeLog2 := hl.ringSizeLog2, ringProd := hl.ringProd,
    ringCons := hl.ringCons, lost := hl.lost, coalCount := hl.coalCount, coalTimer := hl.coalTimer, evSeq := hl.evSeq,
    held := hl.held, lostFirst := hl.lostFirst, lostNow := hl.lostNow, vectors := hl.vectors,
    share := share, drvTimeout := hl.drvTimeout }

/-- Table entries whose key lies outside a range. -/
def outside {α : Type} (lo n : Nat) (t : Tab α) : Tab α := t.filter fun x => decide (x.1 < lo) || decide (lo + n ≤ x.1)

/-- R264, R280: a Sealer slot whose word in hall `h` is copied anew from the other hall. -/
def copiedSlot (h : Nat) (x : Slot) : Slot := if h = 0 then { x with ecc0 := 0 } else { x with ecc1 := 0 }

/-- R510: what belongs to a hall outside its own registers, at reset: queues, ownership, its cores and positions, its caches, its open Sealer
statistics, the errors of its slot words (R264) and STW_MESH_PROMOTE. -/
def clearHall (s : State) (h : Nat) : State :=
  { s with
    slots := tabMap {} (fun _ x => copiedSlot h x) s.slots,
    promotes := s.promotes.set h 0,
    queues := outside (512 + 16 * h) 16 (outside (256 * h) 256 s.queues),
    own := outside (64 * h) 64 s.own,
    leafs := outside (72 * h) 72 s.leafs,
    stats := outside (4096 * h) 4096 s.stats }

/-- R463: the share that a hall gets back at the end of its reload: the one that passed when it went down, or the one it holds. -/
def shareBack (s : State) (h : Nat) : Nat := if (getHall s h).down then (getHall s h).passed else (getHall s h).share

/-- R463: the share that passed to the other hall, taken back from it; one that is down itself holds none, and less passes back to it later. -/
def takeShare (s : State) (h : Nat) : State :=
  let back := shareBack s h
  if !(getHall s h).down then s
  else modHall s (1 - h) fun hl => if hl.down then { hl with passed := hl.passed - back } else { hl with share := hl.share - back }

/-- R480, step 2: the bench run ends inconclusive, and Cooper copies in progress fail. -/
def quiesce (s : State) (h : Nat) : State :=
  let s := if (getHall s h).tnkActive then endBench s h 3 0 0 else s
  (List.range 16).foldl (fun s j => match (getJob s j).opening with
    | none => s
    | some o => snapFail s j (openSlot s j o.1) o.1 4) s

/-- R378: the time base of a hall whose MGMT clock had stopped, taken from the other hall's copy. -/
def resync (s : State) (h : Nat) : State :=
  if (getHall s h).clockOff then s else if h = 0 then { s with time := if s.time.toNat < s.time1.toNat then s.time1 else s.time }
  else { s with time1 := if s.time1.toNat < s.time.toNat then s.time else s.time1 }

/-- R480, steps 2 to 6. A reload that fails leaves the hall down, without its share. -/
def reloadThrough (s : State) (h : Nat) (slot failed : Bool) : State :=
  let s := quiesce s h
  let back := if failed then 0 else shareBack s h
  let passed := (getHall s h).passed
  let s := appendHeld (if failed then s else takeShare s h) h
  let s := modHall (clearHall s h) h fun hl =>
    let hl := withImage (reloadedHall hl back failed) slot false
    if failed then { hl with down := true, passed := passed } else hl
  mapHall (trainSeam (startEnds (resync s h) h)) h

/-- R480: a class H condition of a hall that is down persists at step 6: a PLL or a supply still out (log entry 52). -/
def persistsH (s : State) (h : Nat) : Bool × State :=
  if (getHall s h).down then
    let a := stillOut s h 12 5
    let b := stillOut a.2 h 32 5
    (a.1 || b.1, b.2)
  else (false, s)

/-- R431, R519: a class M condition persists: a MESH or MEMC PLL or a supply of the module out, or a third Joiner link of a network. -/
def persistsM (s : State) : Bool × State :=
  ([(0, 12), (0, 32), (1, 12), (1, 32)] : List (Nat × Nat)).foldl (fun a x =>
    let r := stillOut a.2 x.1 x.2 6
    (a.1 || r.1, r.2)) (seamClass s == 6 || !s.power.mgmt || !s.power.input48, s)

/-- R431, R481: both halls reloaded while no class M condition persists bring a module that is down back into service. -/
def comeBack (s : State) (h : Nat) : State :=
  if !s.moduleDown then s
  else
    let m := persistsM s
    let s := m.2
    if m.1 then modHall (modHall s h fun hl => { hl with back := false }) (1 - h) fun hl => { hl with back := false }
    else if (getHall s (1 - h)).back then
      { modHall (modHall s h fun hl => { hl with back := false }) (1 - h) fun hl => { hl with back := false } with moduleDown := false }
    else modHall s h fun hl => { hl with back := true }

/-- R480, step 6: STATUS, the boot record, and EV_RELOAD_DONE. -/
def endReload (s : State) (h : Nat) (slot : Bool) (status : Nat) : State :=
  let s := modHall s h fun hl =>
    let hl := { hl with reloadStatus := status }
    if status = 2 ∧ hl.reloadMakeActive then writeBoot hl slot else hl
  pushEvent s h
    { code := 0x0802, payload := leBytes 1 (boolNat slot) ++ leBytes 4 (getHall s h).imageVersion.toNat ++ leBytes 1 status }

/-- R480: a reload from slot `slot` whose checks let it start. -/
def reload (s : State) (h : Nat) (slot : Bool) : State :=
  let p := persistsH s h
  let bad := p.1
  let t := reloadThrough p.2 h slot bad
  let c := seamClass t
  let o := originNext t h 11 c
  let t := if c = 0 then t else raiseBoth t 11 c { code := 0x0409 }
  if bad then endReload t h slot 6
  else
    let t := endReload t h slot 2
    let t := comeBack t h
    if c = 6 then applyClass t h 11 6 o else t

/-- R480: the STATUS with which a reload is refused or ends at step 1. -/
def reloadRefusal (s : State) (h : Nat) (slot : Bool) : Option Nat :=
  if anyResident s h then some 3
  else if slotCompat (getHall s h) slot ≠ (getHall s (1 - h)).imageCompat then some 4
  else if !slotValid (getHall s h) slot then some 5
  else none

/-- R496: SLOT and MAKE_ACTIVE of STW_RELOAD written. -/
def writeReload (v : W32) (hl : HallState) : HallState :=
  { hl with reloadMakeActive := bitOf v.toNat 30, reloadSlot := bitOf v.toNat 29 }

/-- HALL_RELOAD (R480): a write of STW_RELOAD; with START the reload runs, to its end or its refusal. -/
def runHallReload (h : Hall) (v : W32) (s : State) : State :=
  if !hostUp s h then s else
    let s := modHall s h (writeReload v)
    let slot := bitOf v.toNat 29
    if !bitOf v.toNat 31 then s else
      match reloadRefusal s h slot with
      | some x => modHall s h fun hl => { hl with reloadStatus := x }
      | none => reload s h slot

def execHallReload (h : Hall) (v : W32) (s : State) : Host.Outcome State Fault Refusal := .next (runHallReload h v s)

/-! ## Self-test (R450) -/

/-- R301, R450: a failing position, when it is not retired or a hole already. A logical core it serves is fenced (log entry 53). -/
def failPosition (s : State) (x : Hall × Pos) : State :=
  let p := posKey x.1 x.2
  let ps := getPos s p
  if ps.status = .retired ∨ ps.status = .hole then s
  else if ps.status = .bench then endBench s x.1 2 0 0
  else
    let o := originNext s x.1 29 1
    let n := if ps.status = .inService then posCore s p else none
    let s := retirePosition s x.1 x.2 0 0 0
    match n with
    | none => s
    | some n => fenceCore s n o none

/-- R450: every store byte and every byte of a package not retired is left zero, with valid check bits. -/
def zeroAll (s : State) : State :=
  { s with
    mem := s.mem.filter fun x => retiredAt s x.1,
    memErr := s.memErr.filter fun x => retiredAt s (128 * x.1),
    hubs := tabMap {} (fun _ hb => { hb with buf := [] }) s.hubs,
    positions := tabMap {} (fun _ ps => { ps with store := [], records := [] }) s.positions }

/-- R450, R511: the test writes every memory that a flip mask covers, and so consumes the masks armed; the list that it runs on each position not
retired takes the position's counters on, as a bench round does. -/
def testPositions (s : State) (failing : List (Hall × Pos)) : State :=
  (List.range 144).foldl (fun s p =>
    if (getPos s p).status = .retired ∨ (getPos s p).status = .hole then s
    else { modPos s p (fun ps => roundPos ps (failing.all fun x => posKey x.1 x.2 != p) s.free) with free := s.free + 40 }) s

/-- R450, R511: the flip masks of the hubs with a package not retired, of the mesh and of the Joiner consumed. -/
def testFlips (s : State) : State :=
  let s := { s with hubs := tabMap {} (fun _ hb =>
    if (List.range 8).all fun i => (getPkg hb i).retired then hb else { hb with flip := disarm hb.flip }) s.hubs }
  [0, 1].foldl (fun s h => modHall s h fun hl => { hl with meshFlip := disarm hl.meshFlip, seamFlip := disarm hl.seamFlip }) s

/-- R344, R450: a failing row of a package not retired. -/
def failRow (s : State) (x : BadRow) : State :=
  if (getPkg (getHub s x.hub) (chSlot x.channel)).retired then s else hardRow s (32 * x.hub.val + x.channel.val) x.bank x.row.toNat

/-- R450: whether a self-test found anything failing. -/
def foundAny (x : Findings) : Bool := !(x.positions.isEmpty && x.rows.isEmpty && x.packages.isEmpty) || x.other

/-- SELFTEST_START (R450): BUSY while any job context is resident; else the whole test, with what it finds failing. How long it runs, up to 120 s, is
free (log entry 2); a failing package is retired with cause HARD_ROWS (log entry 72). -/
def runSelfTest (found : Findings) (s : State) : State :=
  if !anyHostUp s then s
  else if anyJob s then { s with selfTest := { s.selfTest with status := 4 } }
  else
    let (n, s) := takeFree s
    let s := zeroAll (testFlips (testPositions s found.positions))
    let s := found.positions.foldl failPosition s
    let s := found.packages.foldl (fun s x => retirePackage s x.1 x.2 2) (found.rows.foldl failRow s)
    { s with selfTest := { status := if foundAny found then 3 else 2, seconds := Config.freeNat n % 121 } }

def execSelftestStart (found : Findings) (s : State) : Host.Outcome State Fault Refusal :=
  .next (runSelfTest found s)

end Sys2Proof.Machine
end

