-- ==== Sys2Proof/Machine/Chain.lean ====
section
/-! DEFINITION. The tally chain (R485 to R490), the test access port (R522 to R524), and the management supply (R489, R519, R533). -/

namespace Sys2Proof.Machine

/-! ## Frames (R485) -/

/-- R485: bytes 0 to 11 of a frame. -/
def chainHead (type : Byte) (f : ChainFrame) : List Byte :=
  [type, f.seq] ++ leBytes 2 f.addr.toNat ++ leBytes 8 f.data.toNat

/-- R486: the frame's CRC matches. -/
def chainGood (type : Byte) (f : ChainFrame) : Bool := crc32c (chainHead type f) == f.crc

/-- A frame with its CRC. -/
def sealFrame (type : Byte) (f : ChainFrame) : ChainFrame := { f with crc := crc32c (chainHead type f) }

/-- A frame on CHAIN_OUT. -/
def sendChain (s : State) (type : Byte) (f : ChainFrame) : State :=
  { s with chain := { s.chain with out := s.chain.out ++ [(type, f)] } }

/-- R488: the response to an addressed frame, with its SEQ and ADDR. -/
def respond (s : State) (f : ChainFrame) (data : Nat) : State :=
  sendChain s 0x80 (sealFrame 0x80 { f with data := BitVec.ofNat 64 data })

/-- R488: a frame addressed to this module; a module with chain address 0 answers none (R487). -/
def addressed (s : State) (f : ChainFrame) : Bool := s.chain.caddr != 0 && f.addr.toNat == s.chain.caddr.toNat

/-- R488: the address held, as responses code it. -/
def lfaCode (s : State) : Nat :=
  match s.chain.lfa with
  | some a => a.toNat
  | none => 0x8000

/-- R486: what the interface does with a frame: bypassed without the supply, discarded with a bad CRC, else `act`. -/
def receiveChain (s : State) (type : Byte) (f : ChainFrame) (act : State → State) : State :=
  if !s.power.mgmt then sendChain s type f
  else if chainGood type f then act { s with chain := { s.chain with inOk := true } }
  else s

/-- R488: an addressed frame acted on here, or sent on unchanged. -/
def atAddress (s : State) (type : Byte) (f : ChainFrame) (act : State → State) : State :=
  if addressed s f then act s else sendChain s type f

/-! ## ENUM, SET_LFA, STATUS, IDENT, RESTART (R487, R488) -/

/-- R487: COUNT taken as the chain address, and sent on by one more. -/
def chainCount (f : ChainFrame) (s : State) : State :=
  let c := bitsOf f.data.toNat 0 16
  let s := { s with chain := { s.chain with caddr := if 1 ≤ c ∧ c ≤ 4095 then BitVec.ofNat 12 c else 0 } }
  sendChain s 0x01 (sealFrame 0x01 { f with data := BitVec.ofNat 64 (setBits f.data.toNat 0 16 (min (c + 1) 4096)) })

/-- CHAIN_ENUM (R487). -/
def execChainEnum (f : ChainFrame) (s : State) : Host.Outcome State Fault Refusal :=
  .next (receiveChain s 0x01 f (chainCount f))

/-- R488, R489: the address set, or removed by CLEAR; BUSY while a job context is resident in either hall. -/
def setLfa (f : ChainFrame) (s : State) : State :=
  if anyJob s then respond s f (lfaCode s + 0x10000)
  else
    let a : Option (BitVec 12) := if bitOf f.data.toNat 15 then none else some (BitVec.ofNat 12 f.data.toNat)
    let s := { s with chain := { s.chain with lfa := a } }
    respond s f (lfaCode s)

/-- CHAIN_SET_LFA (R488). -/
def execChainSetLfa (f : ChainFrame) (s : State) : Host.Outcome State Fault Refusal :=
  .next (receiveChain s 0x02 f fun s => atAddress s 0x02 f (setLfa f))

/-- R488: the start state of the module: that of the first hall not running (log entry 51). -/
def moduleStart (s : State) : StartState :=
  if (getHall s 0).start = .running then (getHall s 1).start else (getHall s 0).start

/-- R496: the code of a start state. -/
def startCode (x : StartState) : Nat :=
  match x with
  | .starting => 0
  | .running => 1
  | .flashBad => 2
  | .bootFail => 3
  | .mismatch => 4
  | .fault => 5

/-- R488, R533: the DATA of a STATUS response, with the highest die temperature. -/
def statusData (s : State) (temp : Byte) : Nat :=
  lfaCode s + 2 ^ 16 * startCode (moduleStart s)
    + 2 ^ 24 * (boolNat (toggling s) + 2 * boolNat (getHall s 0).down + 4 * boolNat (getHall s 1).down
        + 8 * boolNat s.moduleDown + 16 * boolNat s.power.die)
    + 2 ^ 32 * (if s.power.input48 then temp.toNat else 0)

/-- R488: the response to STATUS. -/
def chainStatusAct (f : ChainFrame) (s : State) : State :=
  let (n, s) := takeFree s
  respond s f (statusData s (dieTemp s n))

/-- CHAIN_STATUS (R488). -/
def execChainStatus (f : ChainFrame) (s : State) : Host.Outcome State Fault Refusal :=
  .next (receiveChain s 0x03 f fun s => atAddress s 0x03 f (chainStatusAct f))

/-- R488, R507: the DATA of an IDENT response. -/
def identData (s : State) : Nat := Config.serial.toNat + 2 ^ 48 * s.order.code + 2 ^ 56 * s.rate.code

/-- CHAIN_IDENT (R488). -/
def execChainIdent (f : ChainFrame) (s : State) : Host.Outcome State Fault Refusal :=
  .next (receiveChain s 0x04 f fun s => atAddress s 0x04 f fun s => respond s f (identData s))

/-- R488, R490, R524: RESTART is accepted with the die supplies off and no class M condition persisting; it is also the way out of the
pin-driving state. -/
def restartAllowed (s : State) : Bool := (!s.power.die || s.jtag.driving) && !s.power.hot && s.power.input48

/-- R488, R518, R524: the eFuse recloses, the pins are let go and the cold start begins, or BUSY. The host's links come up anew (R490). -/
def chainRestartAct (f : ChainFrame) (s : State) : State :=
  if restartAllowed s then coldStarted { respond s f 0 with jtag := {} } false else respond s f 0x10000

/-- CHAIN_RESTART (R488, R490). -/
def execChainRestart (f : ChainFrame) (s : State) : Host.Outcome State Fault Refusal :=
  .next (receiveChain s 0x05 f fun s => atAddress s 0x05 f (chainRestartAct f))

/-- R485 to R488: a frame by its TYPE. -/
def chainFrame (type : Byte) (f : ChainFrame) (s : State) : State :=
  if type = 0x01 then chainCount f s
  else if type = 0x02 then atAddress s type f (setLfa f)
  else if type = 0x03 then atAddress s type f (chainStatusAct f)
  else if type = 0x04 then atAddress s type f fun s => respond s f (identData s)
  else if type = 0x05 then atAddress s type f (chainRestartAct f)
  else sendChain s type f

/-- CHAIN_FORWARD (R486, R488): a frame of any TYPE; one not addressed to this module goes on to CHAIN_OUT unchanged. -/
def execChainForward (type : Byte) (f : ChainFrame) (s : State) : Host.Outcome State Fault Refusal :=
  .next (receiveChain s type f (chainFrame type f))

/-- CHAIN_INPUT_LOST (R486): FS_CHAIN; both addresses are kept. -/
def runInputLost (s : State) : State :=
  if s.power.mgmt then
    let s := { s with chain := { s.chain with inOk := false } }
    if dieUp s then raiseBoth s 38 1 { code := 0x070A } else s
  else s

def execChainInputLost (s : State) : Host.Outcome State Fault Refusal := .next (runInputLost s)

/-! ## The management supply (R489, R519, R533) -/

/-- MGMT_SUPPLY_UP (R489): it comes up with the 48 V input absent: the chain interface is active, no address is held, ALIVE is low. -/
def runMgmtUp (s : State) : State :=
  if !s.power.mgmt && !s.power.input48 then
    { s with power := { s.power with mgmt := true }, aliveLevel := false, jtag := {},
             chain := { s.chain with lfa := none, caddr := 0, inOk := false } }
  else s

def execMgmtSupplyUp (s : State) : Host.Outcome State Fault Refusal := .next (runMgmtUp s)

/-- MGMT_SUPPLY_LOST (R486, R429): with the die supplies off: the chain is bypassed and ALIVE low; the latch of FS_EFUSE is lost with
its supply (R519). -/
def runMgmtLost (s : State) : State :=
  if s.power.mgmt && !s.power.die then
    { s with power := { s.power with mgmt := false, efuseLatch := false }, aliveLevel := false,
             chain := { s.chain with inOk := false } }
  else s

def execMgmtSupplyLost (s : State) : Host.Outcome State Fault Refusal := .next (runMgmtLost s)

/-! ## The test access port (R522 to R524) -/

/-- R519, R522: the port is powered. -/
def tapUp (s : State) : Bool := s.power.mgmt

/-- R523: what the register that the instruction selects shifts out: the bypass bit 0, the IDCODE, or the boundary registers. -/
def tapData (j : Jtag) : W64 :=
  match j.ir with
  | .bypass => 0
  | .idcode => 0x15A209A7
  | .sample | .extest | .clamp => j.boundary

/-- BYPASS (R523): the bypass register. -/
def runBypass (s : State) : State := if tapUp s then { s with jtag := { s.jtag with ir := .bypass } } else s

def execBypass (s : State) : Host.Outcome State Fault Refusal := .next (runBypass s)

/-- IDCODE (R523). -/
def runIdcode (s : State) : State := if tapUp s then { s with jtag := { s.jtag with ir := .idcode } } else s

def execIdcode (s : State) : Host.Outcome State Fault Refusal := .next (runIdcode s)

/-- SAMPLE_PRELOAD (R523): with the die supplies on; what the pins show is free (log entry 2). -/
def runSample (u : ScanUse) (s : State) : State :=
  if tapUp s && s.power.die then
    match u with
    | .preload v => { s with jtag := { s.jtag with ir := .sample, boundary := v } }
    | .sample =>
      let (n, s) := takeFree s
      { s with jtag := { s.jtag with ir := .sample, boundary := Config.freeBits n } }
  else s

def execSamplePreload (u : ScanUse) (s : State) : Host.Outcome State Fault Refusal := .next (runSample u s)

/-- R524: the pins driven: both PCIe links and every Zodun port go down. -/
def drivePins (s : State) : State :=
  if s.jtag.driving then s else
    let s := dropLink (dropLink { s with jtag := { s.jtag with driving := true } } 0) 1
    (List.range 12).foldl portDown s

/-- R524: EXTEST or CLAMP, or BYPASS in its place while a job context is resident. -/
def runScan (ir : JtagIr) (s : State) : State :=
  if !tapUp s || !s.power.die then s
  else if anyJob s then { s with jtag := { s.jtag with ir := .bypass } }
  else drivePins { s with jtag := { s.jtag with ir := ir } }

/-- EXTEST (R524). -/
def execExtest (s : State) : Host.Outcome State Fault Refusal := .next (runScan .extest s)

/-- CLAMP (R524). -/
def execClamp (s : State) : Host.Outcome State Fault Refusal := .next (runScan .clamp s)

/-- TRST_RESET (R523): the port is reset to IDCODE; the pin-driving state is left only by a RESTART (R524). -/
def runTrst (s : State) : State := if tapUp s then { s with jtag := { s.jtag with ir := .idcode } } else s

def execTrstReset (s : State) : Host.Outcome State Fault Refusal := .next (runTrst s)

end Sys2Proof.Machine
end

