-- ==== Sys2Proof/Machine/Assay.lean ====
section
/-! DEFINITION. The Assayer (R283 to R292): the expected and observed sums of a pass, its verdict, and what a mismatch does. -/

namespace Sys2Proof.Machine

/-! ## A pass as the Assayer sees it -/

/-- One kept weight of the Assayer's copy (R283): contraction position, output column and value, an integer on the I48 paths and a float
pattern otherwise. -/
structure CopyWeight where
  k : Nat
  col : Nat
  w : Int
  bits : W32
  deriving DecidableEq, Repr

/-- A pass (R284). On the I48 paths `x` holds m × 2^e, and `y` the sums in the unit 2^-48, each x × w being worth 2^`shift`. On the
float paths `xf` holds the streamed elements, `ins` what entered the columns and `outs` what left them. -/
structure Pass where
  isFloat : Bool
  klen : Nat
  cols : Nat
  shift : Nat
  x : List (List Int)
  y : List (List Int)
  xf : List (List W32)
  ins : List (List W32)
  outs : List (List W32)
  weights : List CopyWeight
  /-- Rows and columns not checked (R286). -/
  openRows : List Nat
  openCols : List Nat
  /-- Columns skipped in every row: both of their sums are 0 (R219, R286). -/
  zeroCols : List Nat := []
  /-- The copy's weights with the flipped bits of its entry in error (R303). -/
  wrong : List CopyWeight := []

/-- The sum of a list of integers at index `i` of every row. -/
def colInts (l : List (List Int)) (i : Nat) : Int := (l.map fun r => r.getD i 0).sum

/-- ω(k) and the column weights as arrays: sums over the copy. -/
def addAt (a : Array Int) (i : Nat) (v : Int) : Array Int := a.modify i (· + v)

/-- R284: ω(k) = Σ_j ŵ(k, j). -/
def omega (n : Nat) (l : List CopyWeight) : Array Int := l.foldl (fun a e => addAt a e.k e.w) (Array.replicate n 0)

/-- R284: E_row(r), in units of the products. -/
def expectRow (om : Array Int) (x : List Int) : Int := (x.mapIdx fun k v => v * om.getD k 0).sum

/-- R284: σ(k) = Σ_r x(r, k). -/
def sigma (n : Nat) (x : List (List Int)) : Array Int := ((List.range n).map fun k => colInts x k).toArray

/-- R284: E_col(j) for every column. -/
def expectCols (cols : Nat) (sg : Array Int) (l : List CopyWeight) : Array Int :=
  l.foldl (fun a e => addAt a e.col (sg.getD e.k 0 * e.w)) (Array.replicate cols 0)

/-- R285 on the I48 paths: the rows, and the columns, whose sums differ. -/
def intFails (p : Pass) : List Nat × List Nat :=
  let n := p.x.foldl (fun a r => max a r.length) 0
  let om := omega n p.weights
  let ec := expectCols p.cols (sigma n p.x) p.weights
  let rows := (List.range p.x.length).filter fun r =>
    !p.openRows.contains r && expectRow om (p.x.getD r []) * 2 ^ p.shift != (p.y.getD r []).sum
  let cols := (List.range p.cols).filter fun j =>
    !p.openCols.contains j && !p.zeroCols.contains j && ec.getD j 0 * 2 ^ p.shift != colInts p.y j
  (rows, cols)

/-! ## Float paths -/

/-- The exact sum of values. -/
def vSum (l : List Val) : Val := l.foldl vAdd vZero

/-- A finite FP32 pattern. -/
def f32Finite (b : W32) : Bool := !f32IsNan b && !f32IsInf b

/-- R285: τ from n, the sum it bounds, and the count of the last term. -/
def tolerance (n : Nat) (s : Val) (count : Nat) : Val :=
  vAdd (vMul (valOfInt (2 * (n + 1)) (-24)) s) (valOfInt ((n + 1) * count) (-149))

/-- |O − E| ≤ τ. -/
def withinTol (o e t : Val) : Bool := vLe (vAbs (vSub o e)) t

/-- The weight values of contraction position `k`. -/
def weightsAt (p : Pass) (k : Nat) : List Val := (p.weights.filter fun e => e.k == k).map fun e => f32 e.bits

/-- R284, R285: the row check of row `r` on a float path. -/
def floatRowOk (p : Pass) (om omAbs : List Val) (r : Nat) : Bool :=
  let x := (p.xf.getD r []).map f32
  let e := vSum (List.zipWith vMul x om)
  let i := (p.ins.getD r []).map f32
  let o := vSum (List.zipWith vSub ((p.outs.getD r []).map f32) i)
  let s := vAdd (vSum (List.zipWith vMul (x.map vAbs) omAbs)) (vSum (i.map vAbs))
  withinTol o e (tolerance p.klen s p.cols)

/-- R284, R285: the column check of column `j` on a float path. -/
def floatColOk (p : Pass) (sg sgAbs : List Val) (j : Nat) : Bool :=
  let w := (p.weights.filter fun e => e.col == j).map fun e => (e.k, f32 e.bits)
  let i := p.ins.map fun r => f32 (r.getD j 0)
  let o := vSum (List.zipWith (fun (a : List W32) b => vSub (f32 (a.getD j 0)) b) p.outs i)
  let e := vSum (w.map fun x => vMul (sg.getD x.1 vZero) x.2)
  let s := vAdd (vSum (w.map fun x => vMul (sgAbs.getD x.1 vZero) (vAbs x.2))) (vSum (i.map vAbs))
  withinTol o e (tolerance p.klen s p.xf.length)

/-- R286: a row or column of a float pass with a NaN or infinity in it. -/
def floatRowOpen (p : Pass) (wBad : Bool) (r : Nat) : Bool :=
  wBad || !(p.xf.getD r []).all f32Finite || !(p.ins.getD r []).all f32Finite || !(p.outs.getD r []).all f32Finite

def floatColOpen (p : Pass) (xBad : Bool) (j : Nat) : Bool :=
  xBad || (p.weights.any fun e => e.col == j && !f32Finite e.bits)
    || (p.ins.any fun r => !f32Finite (r.getD j 0)) || (p.outs.any fun r => !f32Finite (r.getD j 0))

/-- What a verdict finds. -/
structure Verdict where
  rows : List Nat
  cols : List Nat
  unchecked : Nat
  deriving DecidableEq, Repr

/-- R284 to R286: the verdict of a pass. -/
def verdict (p : Pass) : Verdict :=
  if p.isFloat then
    let n := p.xf.foldl (fun a r => max a r.length) 0
    let rows := p.xf.length
    let wBad := p.weights.any fun e => !f32Finite e.bits
    let xBad := p.xf.any fun r => !r.all f32Finite
    let oRows := (List.range rows).filter fun r => p.openRows.contains r || floatRowOpen p wBad r
    let oCols := (List.range p.cols).filter fun j => p.openCols.contains j || (!p.zeroCols.contains j && floatColOpen p xBad j)
    let om := (List.range n).map fun k => vSum (weightsAt p k)
    let omAbs := (List.range n).map fun k => vSum ((weightsAt p k).map vAbs)
    let sg := (List.range n).map fun k => vSum (p.xf.map fun r => f32 (r.getD k 0))
    let sgAbs := (List.range n).map fun k => vSum (p.xf.map fun r => vAbs (f32 (r.getD k 0)))
    { rows := (List.range rows).filter fun r => !oRows.contains r && !floatRowOk p om omAbs r,
      cols := (List.range p.cols).filter fun j => !oCols.contains j && !p.zeroCols.contains j && !floatColOk p sg sgAbs j,
      unchecked := oRows.length + oCols.length }
  else
    { rows := (intFails p).1, cols := (intFails p).2, unchecked := p.openRows.length + p.openCols.length }

/-! ## What follows a verdict -/

/-- R291: an uncorrectable error in the copy. -/
def copyUncorrectable (s : State) (n p rows cols : Nat) : State :=
  let s := modPos s p fun ps =>
    { ps with asyUnchecked := ps.asyUnchecked + BitVec.ofNat 32 (rows + cols), asyEcc := ps.asyEcc.addUe,
              ueSince := min 3 (ps.ueSince + 1), benchReq291 := ps.benchReq291 || decide (2 ≤ ps.ueSince + 1) }
  raise s (p / 72) 22 1 { code := 0x0201, job := if (getOwn s n).owned then some (getOwn s n).job.toNat else none,
                          lockind := 3, loc := p }

/-- A verdict as the command sees it: the state, and the mismatch with its injected mark. -/
structure Assayed where
  st : State
  fail : Option (Verdict × Bool)

/-- R303, R511: a pass with the copy as its reader takes it. Three wrong bits or more that decode as clean leave the flipped bits in the entry, and as
corrected one further bit, so that its value is free (log entry 181). -/
def Pass.asRead (p : Pass) (copyErr free : Nat) : Pass :=
  if copyErr ≤ 2 then p
  else match eccOutcome copyErr free with
  | .clean => { p with weights := p.wrong }
  | .corrected => { p with weights := match p.wrong with
      | [] => []
      | e :: r => { e with w := free / 3, bits := BitVec.ofNat 32 (free / 3) } :: r }
  | .uncorrectable => p

/-- R287, R291, R292: the verdict of a pass of logical core `n` at position `p`; `copyErr` is the error of the copy. -/
def assay (s : State) (n p copyErr : Nat) (pass : Pass) : Assayed :=
  let ps := getPos s p
  if !ps.asyEnable then { st := s, fail := none } else
    let (f, s) := if copyErr ≤ 2 then (0, s) else takeFree s
    let s := modPos s p fun ps => { ps with asyPasses := ps.asyPasses + 1 }
    match eccOutcome copyErr (Config.freeNat f) with
    | .uncorrectable => { st := copyUncorrectable s n p (max pass.x.length pass.xf.length) pass.cols, fail := none }
    | e =>
      let s := if e = .corrected then
          raiseQuiet (modPos s p fun ps => { ps with asyEcc := ps.asyEcc.addCe }) (p / 72) 20 else s
      let v := verdict (pass.asRead copyErr (Config.freeNat f))
      let s := modPos s p fun ps => { ps with asyUnchecked := ps.asyUnchecked + BitVec.ofNat 32 v.unchecked }
      if ps.asyInject then
        { st := modPos s p fun ps => { ps with asyInject := false }, fail := some ({ v with rows := [0], cols := [0] }, true) }
      else if v.rows = [] ∧ v.cols = [] then { st := s, fail := none }
      else { st := s, fail := some (v, false) }

/-- R288: ASY_MISMATCH, ASY_LAST, the repair-log entry of a mismatch that is not injected (R292, R301), and EV_ASSAY. -/
def raiseAssay (s : State) (k p : Nat) (seq : W32) (path : Nat) (makeup : Bool) (v : Verdict) (injected : Bool) : State :=
  let (f, s) := takeFree s
  let (t, s) := takeFree s
  let s := modPos s p fun ps =>
    { ps with asyMismatch := ps.asyMismatch + 1, asyLastValid := true,
              asyLastRowValid := v.rows != [], asyLastColValid := v.cols != [],
              asyLastRow := v.rows.headD 0, asyLastCol := v.cols.headD 0,
              assays := if injected then ps.assays else min 3 (ps.assays + 1),
              assayFence := true, assayLogged := !injected }
  let s := if injected then s else
    logDecision s (p / 72) (logEntry (now s (p / 72)) 2 0 0xFF
      (leBytes 1 (p % 72) ++ leBytes 2 0xFFFF ++ leBytes 2 0xFFFF ++ leBytes 2 (Config.freeNat f) ++ leBytes 2 1100
        ++ [dieTemp s t]))
  raise s (p / 72) 7 4
    { code := 0x0200, job := some (qJob s k).toNat, lockind := 7, loc := k / 4,
      payload := leBytes 1 p ++ leBytes 4 seq.toNat ++ leBytes 4 v.rows.length ++ leBytes 4 v.cols.length
        ++ leBytes 4 (v.rows.headD 0) ++ leBytes 4 (v.cols.headD 0) ++ leBytes 1 path ++ leBytes 1 (boolNat makeup)
        ++ leBytes 1 (boolNat injected) }

/-- R288, R73, R436: the command at the head of queue `k` ends with `status` (ASSAY, or POISON under R290), its core is fenced, and the drop
of its sample slots is left to the Steward. `o` is the mismatch's event. -/
def endAssay (s : State) (k : Nat) (c : InFlight) (status : Nat) (o : Origin) : State :=
  let gone := afterHead s k
  let s := modQueue s k fun q => { q with inflight := q.inflight.tail }
  let w := writeRecord s k c.seq status 0 []
  let s := match w.fail with
    | none => fenceCore w.st (k / 4) o (some (k, c.seq, ssemOf c.cmd, gone, true))
    | some f =>
      let s := fenceCore (raiseRecFail w.st k c.seq f) (k / 4) o (some (k, c.seq, ssemOf c.cmd, gone, false))
      match recFailKill f with
      | none => s
      | some cause => killJob s (qJob s k).toNat cause o
  modCore s (k / 4) fun lc => { lc with dropPending := true }

end Sys2Proof.Machine
end

