-- ==== Sys2Proof/Machine/Loom.lean ====
section
/-! DEFINITION. The Loom (05): LOOM.LOADW in its two parts (R129 to R134), the passes of matrix commands with banding (R135 to R147), and
their operand fields. -/

namespace Sys2Proof.Machine

/-! ## LOOM.LOADW -/

/-- R130: the operands of LOOM.LOADW. -/
structure LoadwOps where
  wfmt : Nat
  pattern : Nat
  plane : Nat
  trans : Bool
  place : Nat
  gcount : Nat
  panels : List Nat
  deriving DecidableEq, Repr

def loadwOps (c : BitVec 512) : LoadwOps :=
  { wfmt := fld c 24 0 4, pattern := fld c 24 4 4, plane := fld c 25 0 1, trans := fld c 25 1 1 == 1, place := fld c 25 2 3,
    gcount := fld c 26 0 4, panels := (List.range (fld c 26 0 4)).map fun j => fld c (28 + 3 * j) 0 22 }

/-- The store bytes a LOADW reads. -/
def loadwRanges (o : LoadwOps) : List Range := o.panels.map fun a => (a, loadPanelSize o.wfmt o.pattern)

/-- R133: every named panel read into the staging buffer. -/
def readPanels (s : State) (p size : Nat) (l : List Nat) : State × List (List (Byte × Bool)) :=
  match l with
  | [] => (s, [])
  | a :: r =>
    let x := storeRead s p a size
    let y := readPanels x.st p size r
    (y.1, x.bytes :: y.2)

/-- The panel scales of a straight W placement (R129, R160). -/
def planeScales (wfmt : Nat) (a : Array Byte) : Tab W32 :=
  ((List.range (panelCols wfmt)).map fun c => (c, panelScale a c)).filter fun x => x.2 != 0

/-- R112, R114, R117, R134: the placement built from the panels' bytes, with its counts; META is for every LOADW of a set that contains a removed
entry. -/
def buildPlane (c : BitVec 512) (bytes : List (Array Byte)) : Staged :=
  let o := loadwOps c
  let pat := patternOf o.pattern
  let w := o.wfmt == 4 || o.wfmt == 5
  let checked := if w then bytes.map fun a => checkPanel o.wfmt pat a else []
  let entries :=
    if !w then denseEntries o.wfmt (bytes.headD #[]) o.trans
    else if o.trans then (checked.mapIdx fun j x => transposedEntries o.wfmt pat o.place j x).flatten
    else checked.flatMap fun x => straightEntries o.wfmt pat x
  let counts := checked.map fun x => removedFor o.wfmt pat o.trans o.place x
  let overs := (counts.map fun x => x.1).sum
  let range := (counts.map fun x => x.2.1).sum
  let order := (counts.map fun x => x.2.2).sum
  { status := 0, overfull := overs, range := range, order := order,
    plane := some {
      fmt := BitVec.ofNat 4 o.wfmt, pat := BitVec.ofNat 4 o.pattern, trans := o.trans, place := o.place,
      cols := formatCols o.wfmt, entries := entries,
      scales := if w && !o.trans then planeScales o.wfmt (bytes.headD #[]) else [],
      dropped := checked.any fun x => !x.removed.isEmpty || decide (0 < x.absent), loadw := c } }

/-- R133, R169: the stage part of a LOADW. -/
def stagePlane (s : State) (p : Nat) (c : BitVec 512) : State × Staged :=
  let o := loadwOps c
  let r := readPanels s p (loadPanelSize o.wfmt o.pattern) o.panels
  if r.2.any anyPoison then (r.1, { status := 0x30, plane := none, overfull := 0, range := 0, order := 0 })
  else (r.1, buildPlane c (r.2.map dataArray))

/-- The oldest LOADW in flight whose stage part has not run. -/
def unstaged (q : Queue) : Option InFlight := q.inflight.find? fun c => opcodeOf c.cmd == 0x10 && c.staged.isNone

/-- A command in flight replaced, by its sequence number. -/
def updateInFlight (q : Queue) (c : InFlight) : Queue :=
  { q with inflight := q.inflight.map fun x => if x.seq = c.seq then c else x }

/-- LOOM.LOADW (R130 to R134): the stage part. -/
def runLoadw (n : Core) (s : State) : State :=
  let k := 4 * n.val
  if !dieUp s then s else
    match unstaged (getQueue s k), corePos s n with
    | some c, some p =>
      let r := stagePlane s p c.cmd
      advance (modQueue r.1 k fun q => updateInFlight q { c with staged := some r.2 }) k
    | _, _ => s

def execLoomLoadw (n : Core) (s : State) : Host.Outcome State Fault Refusal := .next (runLoadw n s)

/-- A weight plane of a logical core. -/
def getPlane (c : LCore) (i : Nat) : Option Plane := if i = 0 then c.plane0 else c.plane1
def setPlane (c : LCore) (i : Nat) (v : Option Plane) : LCore :=
  if i = 0 then { c with plane0 := v } else { c with plane1 := v }

/-- R303: an armed ASY_FLIP acts on the first entry of the Assayer's copy. -/
def flipCopy (s : State) (p : Nat) (pl : Plane) : Plane × State :=
  let f := (getPos s p).asyFlip
  if f.arm ∧ pl.entries ≠ [] then
    ({ pl with copyErr := f.bits, copyData := f.data }, modPos s p fun ps => { ps with asyFlip := { f with arm := false } })
  else (pl, s)

/-- LOADW_WRITE_PART (R129, R133): the plane is written and the command completes, or its fault empties the plane. -/
def runLoadwWrite (n : Core) (s : State) : State :=
  let k := 4 * n.val
  match headOp s k 0x10, corePos s n with
  | some c, some p =>
    match c.staged with
    | none => s
    | some st =>
      match st.plane with
      | none => endPoison (modCore s n fun lc => setPlane lc (loomPlane c.cmd) none) k c
      | some pl =>
        let f := flipCopy s p pl
        completeDone (modCore f.2 n fun lc => setPlane lc (loomPlane c.cmd) (some f.1)) k c
          ({ metaDrop := pl.dropped : RecFlags }).toNat [recCount st.overfull, recCount st.range, recCount st.order, 0]
  | _, _ => s

def execLoadwWritePart (n : Core) (s : State) : Host.Outcome State Fault Refusal := .next (runLoadwWrite n s)

/-! ## Matrix command operands -/

/-- R135, R158: the operands of LOOM.MATMUL and LOOM.MATMUL.T. -/
structure MatOps where
  afmt : Nat
  wfmt : Nat
  plane : Nat
  first : Bool
  last : Bool
  fuse : Nat
  gate : Bool
  ffmt : Nat
  pattern : Nat
  rows : Nat
  klen : Nat
  koff : Nat
  tx : Int
  tw : Int
  abase : Nat
  astride : Nat
  fbase : Nat
  fstride : Nat
  ofmt : Nat
  act : Nat
  bias : Bool
  red : Bool
  rmin : Bool
  ncols : Nat
  tslot : Nat
  ocoff : Nat
  alpha : W16
  obase : Nat
  ostride : Nat
  bbase : Nat
  deriving DecidableEq, Repr

def matOps (c : BitVec 512) : MatOps :=
  { afmt := fld c 24 0 4, wfmt := fld c 24 4 4, plane := fld c 25 0 1, first := fld c 25 1 1 == 1, last := fld c 25 2 1 == 1,
    fuse := fld c 25 3 2, gate := fld c 25 5 1 == 1, ffmt := fld c 26 0 4, pattern := fld c 26 4 4, rows := fld c 27 0 8 + 1,
    klen := fld c 28 0 13, koff := fld c 30 0 10, tx := sfld c 32, tw := sfld c 33, abase := fld c 34 0 22,
    astride := fld c 37 0 22, fbase := fld c 40 0 22, fstride := fld c 43 0 22, ofmt := fld c 46 0 4, act := fld c 46 4 4,
    bias := fld c 47 0 1 == 1, red := fld c 47 1 1 == 1, rmin := fld c 47 2 1 == 1, ncols := fld c 48 0 10 + 1,
    tslot := fld c 50 0 8, ocoff := fld c 51 0 5, alpha := BitVec.ofNat 16 (fld c 52 0 16), obase := fld c 54 0 22,
    ostride := fld c 57 0 22, bbase := fld c 60 0 22 }

/-- R125, LOM_ACC.PATH: the path that an activation and a weight format form. -/
def pathOf (afmt wfmt : Nat) : Option Nat :=
  if afmt = 0 ∧ wfmt = 4 then some 0
  else if afmt = 0 ∧ wfmt = 5 then some 1
  else if afmt = 0 ∧ wfmt = 0 then some 2
  else if afmt = 1 ∧ wfmt = 1 then some 3
  else if afmt = 2 ∧ wfmt = 2 then some 4
  else if afmt = 3 ∧ wfmt = 3 then some 5
  else none

/-- R125: the contraction elements of a pass at most. -/
def pathMaxK (wfmt pattern : Nat) : Nat := if wfmt = 4 ∨ wfmt = 5 then (patternOf pattern).lk else denseDim wfmt

/-- The path is one of the three integer paths. -/
def isI48 (path : Nat) : Bool := decide (path ≤ 2)

/-- R144: each product m × 2^e × w is worth 2^shift in the unit 2^-48. -/
def pathShift (path : Nat) : Nat := if path = 0 then 32 else if path = 1 then 31 else 16

/-- The activation bytes of a pass. -/
def actRanges (o : MatOps) : List Range :=
  (List.range o.rows).flatMap fun r =>
    if o.afmt = 0 then a8Ranges (o.abase + r * o.astride) o.koff o.klen
    else [(o.abase + r * o.astride, floatBytes o.afmt * o.klen)]

/-- R145, R159: the fused operand's bytes as the store and overlap checks take them: for an A8 operand the whole tiles that hold elements below
NCOLS. -/
def fuseRanges (o : MatOps) : List Range :=
  if o.fuse = 0 then [] else (List.range o.rows).map fun r =>
    (o.fbase + r * o.fstride, if o.ffmt = 0 then 1056 * ((o.ncols + 1023) / 1024) else floatBytes o.ffmt * o.ncols)

/-- R161: the bias bytes. -/
def biasRanges (o : MatOps) : List Range := if o.bias then [(o.bbase, 4 * o.ncols)] else []

/-- R159: the bytes a matrix command reads. -/
def matReads (o : MatOps) : List Range := actRanges o ++ (if o.last then fuseRanges o ++ biasRanges o else [])

/-- R164: the output of a LAST command. -/
def matOut (o : MatOps) (t : Int) : OutSpec :=
  { fmt := o.ofmt, rows := o.rows, ncols := o.ncols, base := o.obase, stride := o.ostride, ocoff := o.ocoff, t := t }

/-- The bytes a LAST command writes. -/
def matWrites (o : MatOps) : List Range := outRanges (matOut o 0) (if o.red then o.rows else 0)

/-! ## The feeder -/

/-- The activation rows of a pass that are streamed, read from the store (R135). -/
def readActs (s : State) (p : Nat) (o : MatOps) (idx : List Nat) : State × List (List Elem) :=
  match idx with
  | [] => (s, [])
  | r :: t =>
    let a := if o.afmt = 0 then readA8 s p (o.abase + r * o.astride) o.koff o.klen
             else readFloats s p (o.abase + r * o.astride) o.afmt o.klen
    let b := readActs a.st p o t
    (b.1, a.els :: b.2)

/-! ## Bands (R138, R139) -/

/-- form_bands: the number of bands of live items with their intervals; `n` bounds it. -/
def bandCount (n : Nat) (left : List (Nat × Nat)) : Nat :=
  match n with
  | 0 => 0
  | n + 1 =>
    if left = [] then 0 else
      let top := left.foldl (fun a x => max a x.2) 0
      let rest := left.filter fun x => decide (x.1 + 24 < top)
      if rest.length = left.length then
        match left.find? fun x => x.2 == top with
        | none => 1
        | some x => 1 + bandCount n (left.erase x)
      else 1 + bandCount n rest

/-- The live A8 blocks of a row on a W path: their exponent codes. -/
def liveBlocks (xs : List Elem) : List (Nat × Nat) :=
  (chunksOf 32 xs).filterMap fun b => if b.any (fun x => x.m != 0) then some ((b.headD {}).e, (b.headD {}).e) else none

/-- The lowest and highest exponent codes of the weights at each contraction position of an A8 × A8 placement. -/
def weightSpan (n : Nat) (l : List Entry) : Array (Option (Nat × Nat)) :=
  l.foldl (fun a e => a.modify e.k fun o => match o with
    | none => some (e.ew, e.ew)
    | some (x, y) => some (min x e.ew, max y e.ew)) (Array.replicate n none)

/-- The live rows of an A8 × A8 pass. -/
def liveRows (span : Array (Option (Nat × Nat))) (xs : List Elem) : List (Nat × Nat) :=
  (xs.mapIdx fun k x => match span.getD k none with
    | none => none
    | some (a, b) => if x.m = 0 then none else some (x.e + a, x.e + b)).filterMap id

/-- R139: B of a pass. -/
def passBands (path : Nat) (pl : Plane) (rows : List (List Elem)) : Nat :=
  if path = 2 then
    let span := weightSpan 256 pl.entries
    rows.foldl (fun a xs => max a (bandCount 256 (liveRows span xs))) 1
  else if isI48 path then rows.foldl (fun a xs => max a (bandCount 256 (liveBlocks xs))) 1
  else 1

/-! ## The column chains (R142 to R144, R157) -/

/-- The weights at each contraction position: output column and integer. -/
def weightsByK (n : Nat) (l : List Entry) : Array (List (Nat × Int)) :=
  l.foldl (fun a e => a.modify e.k fun r => (e.col, e.w * 2 ^ e.ew) :: r) (Array.replicate n [])

/-- R142: the exact chain sums of a row over all its bands, in units of m × 2^e × w. -/
def chainSums (cols : Nat) (wk : Array (List (Nat × Int))) (xs : List Int) : List Int :=
  ((xs.mapIdx fun k x => (k, x)).foldl (fun (a : Array Int) kx =>
    if kx.2 = 0 then a else (wk.getD kx.1 []).foldl (fun a w => addAt a w.1 (kx.2 * w.2)) a) (Array.replicate cols 0)).toList

/-- The weights of each output column of a float placement in ascending contraction position. -/
def weightsByCol (n : Nat) (l : List Entry) : List (List (Nat × W32)) :=
  (l.reverse.foldl (fun (a : Array (List (Nat × W32))) e => a.modify e.col fun r => (e.k, e.bits) :: r)
    (Array.replicate n [])).toList

/-- R143: one FP32 chain: a fused multiply-add at each contraction position; padding counts as +0. -/
def chainFma (xs : Array W32) (ws : List (Nat × W32)) (v : W32) : W32 :=
  ws.foldl (fun v w => f32Fma (xs.getD w.1 0) w.2 v) v

/-- R169: the columns of a row that consume a poisoned activation; on a dense path every column consumes every activation of the row. -/
def poisonedCols (path : Nat) (pl : Plane) (xs : List Elem) : List Nat :=
  let ks := (xs.mapIdx fun k x => (k, x.poison)).filterMap fun x => if x.2 then some x.1 else none
  if ks = [] then [] else if 2 ≤ path then List.range pl.cols
  else ((pl.entries.filter fun e => ks.contains e.k).map (·.col)).eraseDups

/-! ## The accumulation buffer (R155, R157) -/

/-- The elements of row `r`, spread over the columns from `j`. -/
def spreadRow (l : Tab AccEl) (d : AccEl) (key n : Nat) : List AccEl × Tab AccEl :=
  match n with
  | 0 => ([], l)
  | n + 1 =>
    match l with
    | (k, v) :: r =>
      if k = key then
        let t := spreadRow r d (key + 1) n
        (v :: t.1, t.2)
      else
        let t := spreadRow l d (key + 1) n
        (d :: t.1, t.2)
    | [] =>
      let t := spreadRow [] d (key + 1) n
      (d :: t.1, t.2)

/-- The whole buffer as rows; row r begins at key 1024 × r. -/
def accRows (l : Tab AccEl) (d : AccEl) (cols r n : Nat) : List (List AccEl) :=
  match n with
  | 0 => []
  | n + 1 =>
    let t := spreadRow l d (1024 * r) cols
    t.1 :: accRows t.2 d cols (r + 1) n

/-- The rows as a table. -/
def accTab (rows : List (List AccEl)) : Tab AccEl :=
  ((rows.mapIdx fun r xs => xs.mapIdx fun j x => (1024 * r + j, x)).flatten).filter fun x => x.2 != {}

/-- What a new accumulation holds: 0 on the I48 paths, −0 at the top of every float column (R157). -/
def accStart (path : Nat) : AccEl := if isI48 path then {} else { a := 0x80000000 }

/-- R155, R511: an armed LOM_DRN_FLIP acts on the first entry the pass writes; its reader finds the errors. DESIGN CHOICE (log entry 184): the clear
of the entries at FIRST is no such write. -/
def flipAcc (s : State) (p : Nat) (rows : List (List AccEl)) : State × List (List AccEl) :=
  let f := (getPos s p).drnFlip
  match rows with
  | (e :: r) :: t =>
    if !f.arm then (s, rows) else
      let (n, s) := if f.bits ≤ 2 then (0, s) else takeFree (takeFree s).2
      let s := modPos s p fun ps => { ps with drnFlip := { f with arm := false } }
      let low := (e.a % 65536).toNat
      let bad : AccEl := { e with a := e.a - low + (low ^^^ f.data : Nat) }
      let e := match eccOutcome f.bits (Config.freeNat n) with
        | .clean => if f.bits = 0 then e else bad
        | .corrected => if f.bits = 1 then { e with ecc := 1 } else { bad with a := bad.a + freeInt (n - 1), ecc := 1 }
        | .uncorrectable => { bad with ecc := 2 }
      (s, (e :: r) :: t)
  | _ => (s, rows)

/-- R155, R172: one entry read: its errors are counted where they are found, and an uncorrectable entry is poisoned. -/
def readAccEl (s : State) (p : Nat) (e : AccEl) : State × AccEl :=
  if e.ecc = 0 then (s, e)
  else if e.ecc = 1 then
    (raiseQuiet (modPos s p fun ps => { ps with drnEcc := ps.drnEcc.addCe }) (p / 72) 20, { e with ecc := 0 })
  else (raiseEngineUe (modPos s p fun ps => { ps with drnEcc := ps.drnEcc.addUe }) p, { e with ecc := 0, poison := true })

/-- A row of entries read. -/
def readAccRow (s : State) (p : Nat) (l : List AccEl) : State × List AccEl :=
  match l with
  | [] => (s, [])
  | e :: r =>
    let a := readAccEl s p e
    let b := readAccRow a.1 p r
    (b.1, a.2 :: b.2)

/-- The buffer read, by a pass that adds to it or by the drain. -/
def readAccRows (s : State) (p : Nat) (l : List (List AccEl)) : State × List (List AccEl) :=
  match l with
  | [] => (s, [])
  | x :: r =>
    let a := readAccRow s p x
    let b := readAccRows a.1 p r
    (b.1, a.2 :: b.2)

/-! ## Gating (R147, R203, R208) -/

/-- A span of a gated command that is skipped: its bit is 0 and a column of it lies below NCOLS (R203). -/
def skippedSpans (b : Bitmap) (ncols : Nat) : List (List Bool) :=
  b.bits.map fun row => (List.range b.nspan).map fun i => !bitOf row i && decide (8 * i < ncols)

/-- select_audits over one row: which skipped spans are audited, and the phase after them. -/
def auditRow (n c : Nat) (l : List Bool) : List Bool × Nat :=
  match l with
  | [] => ([], c)
  | sk :: r =>
    if sk then
      let t := auditRow n ((c + 1) % n) r
      ((c == 0) :: t.1, t.2)
    else
      let t := auditRow n c r
      (false :: t.1, t.2)

/-- select_audits (R208). -/
def auditRows (n c : Nat) (l : List (List Bool)) : List (List Bool) × Nat :=
  match l with
  | [] => ([], c)
  | x :: r =>
    let a := auditRow n c x
    let b := auditRows n a.2 r
    (a.1 :: b.1, b.2)

/-- The spans of a gated pass that take no part: skipped and not audited. -/
def gatedOut (skip audit : List (List Bool)) : List (List Bool) :=
  List.zipWith (fun a b => List.zipWith (fun x y => x && !y) a b) skip audit

/-- The gating of a command: skipped spans, audited spans, and the phase after it. -/
structure Gating where
  skip : List (List Bool)
  audit : List (List Bool)
  phase : Nat

/-- R203, R208: the gating of a pass of a logical core. DESIGN CHOICE (log entry 146): NCOLS is a field of the LAST command, so in the passes before
it the spans below the plane's columns are taken. -/
def gatingOf (c : LCore) (o : MatOps) (ncols : Nat) : Option Gating :=
  if !o.gate then none else
    match c.bitmap with
    | none => none
    | some b =>
      let sk := skippedSpans b ncols
      if c.gln.mode = 2 ∨ c.gln.mode = 3 then
        let a := auditRows (2 ^ c.gln.nlog2) c.gln.phase sk
        some { skip := sk, audit := a.1, phase := a.2 }
      else some { skip := sk, audit := sk.map fun r => r.map fun _ => false, phase := c.gln.phase }

/-- A column is gated out of a row. -/
def outAt (out : List (List Bool)) (r j : Nat) : Bool := (out.getD r []).getD (j / 8) false

/-- R286: the rows and columns of a gated pass that are not checked, and the columns of +0 (R219). -/
def gatedOpen (out : List (List Bool)) (cols : Nat) : List Nat × List Nat × List Nat :=
  let n := out.length
  let all (j : Nat) : Bool := decide (0 < n) && (List.range n).all fun r => outAt out r j
  ((List.range n).filter fun r => (out.getD r []).any id,
   (List.range cols).filter fun j => ((List.range n).any fun r => outAt out r j) && !all j,
   (List.range cols).filter all)

/-! ## One pass -/

/-- What a pass gives: the accumulation after it, B, whether poison was read, and what the Assayer sees. -/
structure PassRes where
  st : State
  acc : Acc
  bands : Nat
  poison : Bool
  seen : Pass

/-- The accumulation a pass adds to (R153, R155). -/
def accFor (c : LCore) (o : MatOps) (path : Nat) (pl : Plane) : Acc :=
  match c.acc with
  | some a => if o.first then { rows := o.rows, path := path, cols := pl.cols, gate := o.gate, passes := 0, banded := false,
                                dropped := false, bitmap := c.bitmap, els := [] } else a
  | none => { rows := o.rows, path := path, cols := pl.cols, gate := o.gate, passes := 0, banded := false, dropped := false,
              bitmap := c.bitmap, els := [] }

/-- R284: the copy's weights. -/
def copyWeights (pl : Plane) : List CopyWeight :=
  pl.entries.map fun e => { k := e.k, col := e.col, w := e.w * 2 ^ e.ew, bits := e.bits }

/-- R303: the copy with DATA inverted in its first entry, whose low bits are taken for those of the weight's value (log entry 181); nothing where its
code tells the error. -/
def wrongWeights (pl : Plane) : List CopyWeight :=
  if pl.copyErr ≤ 2 then []
  else match pl.entries with
  | [] => []
  | e :: r =>
    let x : W32 := BitVec.ofNat 32 pl.copyData
    copyWeights { pl with entries := { e with w := (BitVec.ofInt 32 e.w ^^^ x).toInt, bits := e.bits ^^^ x } :: r }

/-- The I48 products of a pass. -/
def intPass (path : Nat) (pl : Plane) (rows : List (List Elem)) : List (List Int) :=
  let wk := weightsByK 4096 pl.entries
  rows.map fun xs => (chainSums pl.cols wk (xs.map fun x => x.m * 2 ^ x.e)).map fun v => v * 2 ^ pathShift path

/-- R219: the products with the spans gated out at +0. -/
def gatedRows (out : List (List Bool)) (y : List (List Int)) : List (List Int) :=
  y.mapIdx fun r l => l.mapIdx fun j v => if outAt out r j then 0 else v

/-- R142 to R147: a pass run over the rows streamed (`idx`) into an accumulation of as many rows; `out` marks the spans gated out of
it. The accumulation holds the sums of every span: which of the skipped ones are audited is known at LAST, and those that are not are written +0
whatever they hold (R165, R203). -/
def runPass (s : State) (p : Nat) (pl : Plane) (o : MatOps) (path : Nat) (acc : Acc) (idx : List Nat)
    (out : List (List Bool)) : PassRes :=
  let rd := readActs s p o idx
  let rows := rd.2
  let ra := readAccRows rd.1 p (accRows acc.els (if acc.passes = 0 then accStart path else {}) pl.cols 0 idx.length)
  let was := ra.2
  let pcols := rows.map fun xs => poisonedCols path pl xs
  let y := if isI48 path then intPass path pl rows else []
  let wc := if isI48 path then [] else weightsByCol pl.cols pl.entries
  let outs : List (List W32) :=
    if isI48 path then [] else
      List.zipWith (fun (xs : List Elem) (w : List AccEl) =>
        let a := (xs.map fun x => x.bits).toArray
        List.zipWith (fun ws (e : AccEl) => chainFma a ws (BitVec.ofInt 32 e.a)) wc w) rows was
  let now : List (List AccEl) := was.mapIdx fun r w =>
    let pc := pcols.getD r []
    let yr := y.getD r []
    let orow := outs.getD r []
    w.mapIdx fun j e =>
      { e with a := if isI48 path then e.a + yr.getD j 0 else (orow.getD j 0).toNat,
               poison := e.poison || (pc.contains j && !outAt out r j) }
  let fl := flipAcc ra.1 p now
  let b := passBands path pl rows
  let g := gatedOpen out pl.cols
  let badIn (e : AccEl) : Bool := !isI48 path && e.poison
  let pr := (List.range rows.length).filter fun r => (rows.getD r []).any (·.poison) || (was.getD r []).any badIn
  let pcs := (List.range pl.cols).filter fun j =>
    !g.2.2.contains j && (pcols.any (·.contains j) || was.any fun r => badIn (r.getD j {}))
  let s := modPos fl.1 p fun ps => { ps with bandTotal := ps.bandTotal + BitVec.ofNat 32 (b - 1) }
  let (n, s) := takeFree s
  let s := modPos s p fun ps => { ps with feedWait := ps.feedWait + BitVec.ofNat 32 (Config.freeNat n) }
  { st := s,
    acc := { acc with passes := acc.passes + 1, banded := acc.banded || decide (1 < b), dropped := acc.dropped || pl.dropped,
                      els := accTab fl.2 },
    bands := b,
    poison := (rows.any fun xs => xs.any (·.poison)) || was.any fun r => r.any (·.poison),
    seen := {
      isFloat := !isI48 path, klen := o.klen, cols := pl.cols, shift := pathShift path,
      x := if isI48 path then rows.map fun xs => xs.map fun x => x.m * 2 ^ x.e else [],
      y := gatedRows out y, xf := if isI48 path then [] else rows.map fun xs => xs.map fun x => x.bits,
      ins := if isI48 path then [] else was.map fun r => r.map fun e => BitVec.ofInt 32 e.a, outs := outs,
      weights := copyWeights pl, wrong := wrongWeights pl,
      openRows := (g.1 ++ pr).eraseDups, openCols := (g.2.1 ++ pcs).eraseDups, zeroCols := g.2.2 } }

end Sys2Proof.Machine
end

