-- ==== Sys2Proof/Machine/Special.lean ====
section
/-! DEFINITION. The correctly rounded functions of the drain (R162) and the Fuller (R247): each is enclosed in an interval of rising
precision until both ends round to one value. -/

namespace Sys2Proof.Machine

/-! ## Enclosures in units of 2^-q -/

/-- The partial sum of e^-t for t = x / 2^q: `n` more terms, the i-th power term being `term`. -/
def expSeries (q x n i : Nat) (term : Int) : Int :=
  match n with
  | 0 => 0
  | n + 1 => term + expSeries q x n (i + 1) (-(term * x / (2 ^ q * (i + 1))))

/-- Squared `n` times, rounding outward. -/
def squareTimes (q n : Nat) (lo hi : Nat) : Nat × Nat :=
  match n with
  | 0 => (lo, hi)
  | n + 1 => squareTimes q n (lo * lo / 2 ^ q) (hi * hi / 2 ^ q + 1)

/-- e^-x for x = `x` / 2^q below 2^9: the argument divided by 2^16, its series, and sixteen squarings. -/
def expNegPoint (q x : Nat) : Nat × Nat :=
  let t := x / 2 ^ 16
  let n := q / 7 + 4
  let e := expSeries q t n 0 (2 ^ q)
  squareTimes q 16 (e - (4 * n : Nat)).toNat (e + (4 * n : Nat)).toNat

/-- e^-x for x between two ends. -/
def expNeg (q : Nat) (x : Nat × Nat) : Nat × Nat := ((expNegPoint q x.2).1, (expNegPoint q x.1).2)

/-- The sum of z^(2i+1) / (2i+1) for z = `num` / `den` at most 1/3: `n` terms from i, the power being `p`. -/
def atanhSeries (num den n i p : Nat) : Nat :=
  match n with
  | 0 => 0
  | n + 1 => p / (2 * i + 1) + atanhSeries num den n (i + 1) (p * num * num / (den * den))

/-- ln y for y = 1 + f, 0 ≤ f < 1, as 2 atanh (f / (2 + f)); `f` is in units of 2^-q. -/
def lnOnePlus (q f : Nat) : Nat × Nat :=
  let den := 2 * 2 ^ q + f
  let n := q / 3 + 4
  let s := 2 * atanhSeries f den n 0 (f * 2 ^ q / den)
  (s, s + 4 * n)

/-- ln 2. -/
def ln2 (q : Nat) : Nat × Nat :=
  let n := q / 3 + 4
  let s := 2 * atanhSeries 1 3 n 0 (2 ^ q / 3)
  (s, s + 4 * n)

/-- √(2/π), by Machin's formula for π. -/
def atanInv (q k n i : Nat) (p : Int) : Int :=
  match n with
  | 0 => 0
  | n + 1 => p / (2 * i + 1 : Nat) + atanInv q k n (i + 1) (-(p / (k * k : Nat)))

/-- π. -/
def piBounds (q : Nat) : Nat × Nat :=
  let n := q / 4 + 4
  let s : Int := 16 * atanInv q 5 n 0 (2 ^ q / 5) - 4 * atanInv q 239 n 0 (2 ^ q / 239)
  ((s - (64 * n : Nat)).toNat, (s + (64 * n : Nat)).toNat)

/-- √(2/π). -/
def sqrtTwoOverPi (q : Nat) : Nat × Nat :=
  let p := piBounds q
  (isqrt (2 * 2 ^ (3 * q) / p.2), isqrt (2 * 2 ^ (3 * q) / p.1) + 1)

/-! ## Rounding an enclosure -/

/-- The value lo/den × 2^k to hi/den × 2^k, both positive, if it rounds to one pattern. -/
def roundEnclosure (f : Fmt) (neg : Bool) (lo hi : Nat × Nat) (k : Int) : Option Nat :=
  let a := f.encodeRat neg lo.1 lo.2 k
  let b := f.encodeRat neg hi.1 hi.2 k
  if a = b then some a else none

/-- The precisions tried. -/
def precisions : List Nat := [320, 576, 1088, 2112, 4160]

/-- The first precision at which an enclosure rounds to one pattern. -/
def firstRounded (f : Nat → Option Nat) : Nat := (precisions.findSome? f).getD 0

/-! ## Functions -/

/-- z / (1 + e^-w) for finite non-zero z and |w| enclosed by `wAbs` in units of 2^-q; `neg` is the sign of both. The result has the sign
of z. -/
def sigmoidTimes (neg : Bool) (m : Nat) (e : Int) (q : Nat) (wAbs : Nat × Nat) : Option Nat :=
  let y := expNeg q wAbs
  if neg then roundEnclosure fp32 true (m * y.1, 2 ^ q + y.1) (m * y.2, 2 ^ q + y.2) e
  else roundEnclosure fp32 false (m * 2 ^ q, 2 ^ q + y.2) (m * 2 ^ q, 2 ^ q + y.1) e

/-- m × 2^e in units of 2^-q, rounded down and up. -/
def fixedBounds (q m : Nat) (e : Int) : Nat × Nat :=
  if 0 ≤ e + q then (m * 2 ^ (e + q).toNat, m * 2 ^ (e + q).toNat)
  else (m / 2 ^ (-(e + q)).toNat, m / 2 ^ (-(e + q)).toNat + 1)

/-- |z| reaches 256, beyond which e^-|z| |z| rounds to zero and 1 / (1 + e^-|z|) to one. -/
def reaches256 (m : Nat) (e : Int) : Bool := decide (8 ≤ (Nat.log2 m : Int) + e)

/-- SiLU (R162). -/
def silu (z : W32) : W32 :=
  match f32 z with
  | .nan => f32Nan
  | .inf n => if n then 0x80000000#32 else z
  | .fin n m e =>
    if m = 0 then z
    else if reaches256 m e then (if n then 0x80000000#32 else z)
    else BitVec.ofNat 32 (firstRounded fun q => sigmoidTimes n m e q (fixedBounds q m e))

/-- |2 √(2/π) (z + 0.044715 z³)|: 1 / (1 + e^-w) is ½ (1 + tanh (w / 2)). -/
def geluArg (q m : Nat) (e : Int) : Nat × Nat :=
  let c := sqrtTwoOverPi q
  let z := fixedBounds q m e
  let poly (x : Nat) : Nat := 1000000 * x * 2 ^ (2 * q) + 44715 * x * x * x
  (2 * c.1 * poly z.1 / (1000000 * 2 ^ (3 * q)), 2 * c.2 * poly z.2 / (1000000 * 2 ^ (3 * q)) + 1)

/-- GELU, tanh form (R162). -/
def gelu (z : W32) : W32 :=
  match f32 z with
  | .nan => f32Nan
  | .inf n => if n then 0x80000000#32 else z
  | .fin n m e =>
    if m = 0 then z
    else if decide (4 ≤ (Nat.log2 m : Int) + e) then (if n then 0x80000000#32 else z)
    else BitVec.ofNat 32 (firstRounded fun q => sigmoidTimes n m e q (geluArg q m e))

/-- 2^x rounded to a format (R247). -/
def exp2To (f : Fmt) (x : Val) : Nat :=
  match x with
  | .nan => f.nan
  | .inf n => if n then 0 else f.infinity false
  | .fin n m e =>
    if m = 0 then f.encode (.fin false 1 0)
    else if 8 ≤ (Nat.log2 m : Int) + e then (if n then 0 else f.infinity false)
    else firstRounded fun q =>
      let v : Int := signedInt n (fixedBounds q m e).1
      let up : Int := -((-v) / 2 ^ q)
      let g : Nat := (up * 2 ^ q - v).toNat
      let l := ln2 q
      let y := if g = 0 then (2 ^ q, 2 ^ q) else expNeg q (g * l.1 / 2 ^ q, g * l.2 / 2 ^ q + 1)
      roundEnclosure f false (y.1, 1) (y.2, 1) (up - q)

/-- log₂ x rounded to a format (R247). -/
def log2To (f : Fmt) (x : Val) : Nat :=
  match x with
  | .nan => f.nan
  | .inf n => if n then f.nan else f.infinity false
  | .fin n m e =>
    if m = 0 then f.infinity true
    else if n then f.nan
    else
      let top := Nat.log2 m
      let ex : Int := top + e
      if m = 2 ^ top then f.encode (valOfInt ex 0)
      else firstRounded fun q =>
        let l := lnOnePlus q (m * 2 ^ (q - top) - 2 ^ q)
        let d := ln2 q
        let a : Int := ex * 2 ^ q + (l.1 * 2 ^ q / d.2 : Nat)
        let b : Int := ex * 2 ^ q + (l.2 * 2 ^ q / d.1 + 1 : Nat)
        if 0 < a then roundEnclosure f false (a.toNat, 1) (b.toNat, 1) (-q)
        else if b < 0 then roundEnclosure f true ((-b).toNat, 1) ((-a).toNat, 1) (-q)
        else none

/-- 1 / x rounded to a format (R247). -/
def rcpTo (f : Fmt) (x : Val) : Nat := vDivTo f (.fin false 1 0) x

/-- 1 / √x rounded to a format (R247). -/
def rsqrtTo (f : Fmt) (x : Val) : Nat :=
  match x with
  | .nan => f.nan
  | .inf n => if n then f.nan else 0
  | .fin n m e =>
    if m = 0 then f.infinity n
    else if n then f.nan
    else
      let odd := e % 2
      let m := m * 2 ^ odd.toNat
      let r := isqrt (2 ^ 240 / m)
      f.encode (.fin false (2 * r + (if r * r * m = 2 ^ 240 then 0 else 1)) (-121 - (e - odd) / 2))

/-- tanh x rounded to a format (R247): for |x| below 2^-30 between x - x³/3 and x - x³/3 + 2x⁵/15. -/
def tanhTo (f : Fmt) (x : Val) : Nat :=
  match x with
  | .nan => f.nan
  | .inf n => f.encode (.fin n 1 0)
  | .fin n m e =>
    if m = 0 then f.signBit n
    else if 8 ≤ (Nat.log2 m : Int) + e then f.encode (.fin n 1 0)
    else if (Nat.log2 m : Int) + e < -30 then
      let d := 2 ^ (-2 * e).toNat
      f.encodeRat n (m * (15 * d * d + 2 * m * m * m * m - 5 * m * m * d)) 15 (5 * e)
    else firstRounded fun q =>
      let w := fixedBounds q m (e + 1)
      let y := expNeg q w
      roundEnclosure f n (2 ^ q - y.2, 2 ^ q + y.2) (2 ^ q - y.1, 2 ^ q + y.1) 0

end Sys2Proof.Machine
end

