-- ==== Sys2Proof/Machine/Drain.lean ====
section
/-! DEFINITION. The drain (06): finishing stages, reductions, output and side record, and the two matrix commands with their outcome for the
Assayer, the Gleaner and the Sealer. -/

namespace Sys2Proof.Machine

/-! ## Finishing stages (R154) -/

/-- R97, R156: a bottom-edge addend in units of 2^-48 with its tag. It is not clamped alone: an element saturates only where the exact sum leaves the
range. -/
def valToL128 (v : Val) : Int × Nat :=
  match v with
  | .nan => (0, 3)
  | .inf n => (0, if n then 2 else 1)
  | .fin n m e => (rneVal (.fin n m e) 48, 0)

/-- An exact value times 2^k. -/
def vScale (v : Val) (k : Int) : Val :=
  match v with
  | .fin n m e => .fin n m (e + k)
  | v => v

/-- R160: the exponent T of the scale stage. -/
def scaleExp (path : Nat) (o : MatOps) : Int := if path ≤ 1 then o.tx else if path = 2 then o.tx + o.tw else 0

/-- R160: the factor p of the scale stage. -/
def scaleFactor (path : Nat) (pl : Plane) (j : Nat) : W32 :=
  if path ≤ 1 ∧ !pl.trans then tabGet 0 pl.scales j else f32One

/-- Stages 1 to 3 (R145, R154, R156): the accumulation with its fused operand as FP32, and whether it saturated. -/
def roundStage (path fuse : Nat) (t : Int) (e : AccEl) (x : W32) : W32 × Bool :=
  if isI48 path then
    if fuse = 1 then
      let a := valToL128 (vScale (f32 x) (-t))
      let r := l128Clamp (e.a + a.1)
      let tag := tagSum e.tag a.2
      (l128ToF32 r.1 tag, tag == 0 && r.2)
    else
      let y := l128ToF32 e.a e.tag
      (if fuse = 2 then f32Mul y x else y, false)
  else
    let y := BitVec.ofInt 32 e.a
    (if fuse = 1 then f32Add y x else if fuse = 2 then f32Mul y x else toF32 (f32 y), false)

/-- R160: the scale stage. -/
def scaleStage (y : W32) (t : Int) (p : W32) : W32 := toF32 (vScale (vMul (f32 y) (f32 p)) t)

/-- Leaky ReLU (R162). -/
def leaky (z : W32) (alpha : W16) : W32 :=
  match f32 z with
  | .nan => f32Nan
  | .inf n => if n then f32Mul (bf16ToF32 alpha) z else z
  | .fin n m _ =>
    if m = 0 ∨ !n then z
    else if vIsZero (bf16.decode alpha.toNat) then 0x80000000#32
    else f32Mul (bf16ToF32 alpha) z

/-- R162: the activation stage. -/
def activate (act : Nat) (alpha : W16) (z : W32) : W32 :=
  if act = 1 then
    (match f32 z with
     | .nan => f32Nan
     | .inf n => if n then 0 else z
     | .fin n m _ => if n ∨ m = 0 then 0 else z)
  else if act = 2 then leaky z alpha
  else if act = 3 then gelu z
  else if act = 4 then silu z
  else if f32IsNan z then f32Nan else z

/-- R154: stages 1 to 6 of one element. -/
def finishEl (path : Nat) (o : MatOps) (pl : Plane) (j : Nat) (e : AccEl) (fused bias : Elem) : OutEl :=
  let r := roundStage path o.fuse (scaleExp path o) e (fused.toF32 (o.ffmt == 0) o.tx)
  let z := scaleStage r.1 (scaleExp path o) (scaleFactor path pl j)
  let z := if o.bias then f32Add z bias.bits else z
  { v := activate o.act o.alpha z, sat := r.2, poison := e.poison || fused.poison || bias.poison }

/-! ## Reductions (R163) -/

/-- The order of FP32 patterns that are no NaN, +0 above −0. -/
def f32Key (b : W32) : Int := if b.getLsbD 31 then -((b.toNat % 2 ^ 31 : Nat) : Int) - 1 else (b.toNat : Int)

/-- The winner of a row: value and index; the lowest index among equals. -/
def winner (min : Bool) (l : List (Nat × W32)) : Option (Nat × W32) :=
  l.foldl (fun best x => match best with
    | none => some x
    | some b =>
      if min then (if f32Key x.2 < f32Key b.2 then some x else some b)
      else (if f32Key b.2 < f32Key x.2 then some x else some b)) none

/-- R163: the reduction of a row: result, index, and whether a NaN won. -/
def reduceRow (min : Bool) (l : List (Nat × W32)) : W32 × Nat × Bool :=
  match l.find? fun x => f32IsNan x.2 with
  | some x => (f32Nan, x.1, true)
  | none => match winner min l with
    | some x => (x.2, x.1, false)
    | none => (0, 0, false)

/-- R168: a reduction record. -/
def reductionBytes (r : W32 × Nat × Bool) : List Byte := leBytes 8 (r.1.toNat + r.2.1 * 2 ^ 32 + r.2.2.toNat * 2 ^ 48)

/-- R168: the reduction part of the side record. -/
def reductionPiece (o : OutSpec) (min : Bool) (rows : List (List OutEl)) : Piece :=
  (sideBase o + statusLen o,
   (rows.flatMap fun r => reductionBytes (reduceRow min (r.mapIdx fun j x => (j, x.v)))).map fun b => (b, false))

/-! ## Reading the fused operand and the bias -/

/-- R145: the fused operand, row by row. -/
def readFused (s : State) (p : Nat) (o : MatOps) (idx : List Nat) : State × List (List Elem) :=
  match idx with
  | [] => (s, [])
  | r :: t =>
    let a := readRow s p o.ffmt (o.fbase + r * o.fstride) o.ncols
    let b := readFused a.st p o t
    (b.1, a.els :: b.2)

/-- The finished elements of a LAST command, with the state after its reads. -/
structure Finished where
  st : State
  rows : List (List OutEl)
  poison : Bool

/-- R154 to R162 over the rows of an accumulation. -/
def finishAll (s : State) (p path : Nat) (o : MatOps) (pl : Plane) (acc : Acc) (idx : List Nat) : Finished :=
  let f := if o.fuse = 0 then (s, []) else readFused s p o idx
  let b := if o.bias then readFloats f.1 p o.bbase 3 o.ncols else { st := f.1, els := [] }
  let ra := readAccRows b.st p (accRows acc.els {} acc.cols 0 idx.length)
  { st := ra.1,
    rows := ra.2.mapIdx fun r xs =>
      let fr := f.2.getD r []
      (xs.take o.ncols).mapIdx fun j e => finishEl path o pl j e (fr.getD j {}) (b.els.getD j {}),
    poison := f.2.any (fun r => r.any (·.poison)) || b.els.any (·.poison) || ra.2.any fun r => r.any (·.poison) }

/-! ## The Gleaner's counts (R203, R204, R207, R208) -/

def gcount (a b : Nat) : Nat := satAdd (2 ^ 32 - 1) a b

/-- R207: a span fails the miss test. -/
def spanFails (mu : W32) (l : List OutEl) : Bool := l.any fun x => !vLe (vAbs (f32 x.v)) (f32 mu)

/-- The spans of a finished row with their elements. -/
def rowSpans (l : List OutEl) : List (List OutEl) := chunksOf 8 l

/-- How many spans of all the rows that are marked meet a test. -/
def countSpans (mark : List (List Bool)) (rows : List (List OutEl)) (f : List OutEl → Bool) : Nat :=
  ((rows.mapIdx fun r xs => ((rowSpans xs).mapIdx fun i sp => (mark.getD r []).getD i false && f sp).filter id).flatten).length

/-- R203, R204: what a gated LAST command adds to the counts; `g` is its gating and `rows` its finished elements. -/
def gleanCounts (gl : Gleaner) (g : Gating) (rows : List (List OutEl)) : Gleaner :=
  let skipped := countSpans g.skip rows fun _ => true
  let audited := countSpans g.audit rows fun _ => true
  let missed := countSpans g.audit rows (spanFails gl.mu)
  let active := g.skip.map fun r => r.map not
  let wasted := countSpans active rows fun sp => !spanFails gl.mu sp
  { gl with phase := g.phase, skipped := gcount gl.skipped skipped, audited := gcount gl.audited audited,
            winAud := gcount gl.winAud audited, misses := gcount gl.misses missed, winMiss := gcount gl.winMiss missed,
            wasted := gcount gl.wasted wasted }

/-- The elements of skipped spans marked (R165); a poisoned one is still written with poison (R169). -/
def markSkipped (skip : List (List Bool)) (rows : List (List OutEl)) : List (List OutEl) :=
  rows.mapIdx fun r xs => xs.mapIdx fun j x =>
    if outAt skip r j then { v := 0, skip := true, poison := x.poison } else x

/-! ## The EXACT log (R211) -/

/-- R201, R211: a bitmap as stored: 16 bytes a row. -/
def bitmapBytes (b : Bitmap) : List Byte := b.bits.flatMap fun r => leBytes 16 r

/-- The skipped spans of a tile, which keep SKIPPED (R213). -/
def tileHadSkip (skip : List (List Bool)) (q : Nat) : Bool := skip.any fun r => ((r.drop (32 * q)).take 32).any id

/-- R213: what make-up may write of an output: its skipped spans, of an A8 output the blocks that hold one, and their status words. -/
def makeupDest (o : MatOps) (skip : List (List Bool)) : List Range :=
  let sp := matOut o 0
  let span (r i : Nat) : List Range :=
    let x := 32 * o.ocoff + i / 4 * 32
    if o.ofmt = 0 then [(a8Addr sp r x, 32), (a8SideAddr sp r (x / 32), 1)]
    else [(sp.base + r * sp.stride + 8 * i * floatBytes o.ofmt, min 8 (o.ncols - 8 * i) * floatBytes o.ofmt)]
  (skip.mapIdx fun r l => (l.mapIdx fun i b => if b then span r i else []).flatten).flatten
    ++ ((List.range (outTiles sp)).filter (tileHadSkip skip)).map fun q => (sideBase sp + 8 * q, 8)

/-- R211: the part of a log entry that is known when its command runs: t (of an A8 output) and the bitmap, and what make-up needs of the finished
output. -/
def noteLog (s : State) (n p : Nat) (c : InFlight) (t : Int) (acc : Acc) (fin : List (List OutEl)) : State :=
  let lc := getCore s n
  match lc.gln.log.find? fun e => e.seq == c.seq with
  | none => s
  | some e =>
    let last := isLast c.cmd
    let t := if last && fld c.cmd 46 0 4 == 0 then t else 0
    let dest := match lc.bitmap with
      | some b => if last then makeupDest (matOps c.cmd) (skippedSpans b (matOps c.cmd).ncols) else []
      | none => []
    let e := { e with bitmap := lc.bitmap, t := t, dest := dest, banded := acc.banded, dropped := acc.dropped,
                      fin := fin.map fun r => r.map fun x => (x.v, x.sat) }
    let s := modCore s n fun lc => { lc with gln := { lc.gln with
      log := lc.gln.log.map fun x => if x.seq = c.seq then e else x } }
    if !last then s else
      let bytes := (lc.bitmap.map bitmapBytes).getD []
      let bytes := bytes ++ List.replicate (4096 - bytes.length) 0
      storeWrite (storeWrite s p (e.off + 84) [(BitVec.ofInt 8 t, false)]) p (e.off + 128) (bytes.map fun b => (b, false))

/-! ## The matrix commands -/

/-- The pieces of a LAST command's output with its side record. -/
def matPieces (o : MatOps) (sp : OutSpec) (out : Output) (rows : List (List OutEl)) : List Piece :=
  out.elementPieces ++ [statusPiece sp out.tiles] ++ (if o.red then [reductionPiece sp o.rmin rows] else [])

/-- The elements of an output that saturated, and its tiles with NAN or INF (R172). -/
def satCount (rows : List (List OutEl)) : Nat := (rows.map fun r => (r.filter fun x => x.sat).length).sum
def nanTiles (out : Output) : Nat := (out.tiles.filter fun t => t.nan || t.inf).length

/-- The counters of the position that a finished output moves (R172). -/
def drainCounts (s : State) (p sat tiles : Nat) : State :=
  modPos s p fun ps =>
    { ps with drnSat := ps.drnSat + BitVec.ofNat 32 sat, drnNanTile := ps.drnNanTile + BitVec.ofNat 32 tiles }

/-- R265, R214: the blocks of a command that are reported; in EXACT mode a block that holds a skipped span is left to make-up. -/
def matBlocks (exact : Bool) (out : Output) (rows : List (List OutEl)) : List OutPiece :=
  out.pieces.filter fun x => x.report.isSome && !(exact && (((rows.getD x.row []).drop x.col).take 32).any (·.skip))

/-- What a matrix command, or the make-up of a fence, met: poison, `late` when it was found after the verdict, and a mismatch with its injected
mark. -/
structure Trouble where
  poison : Bool
  late : Bool
  fail : Option (Verdict × Bool)
  deriving DecidableEq, Repr

/-- How such a command ends: DONE with its record, or POISON, or ASSAY, or both faults with their events in the order of detection (R169, R288,
R290). -/
def endMatrix (s : State) (k p : Nat) (c : InFlight) (path : Nat) (makeup : Bool) (t : Trouble) (done : State → State) : State :=
  match t.poison, t.fail with
  | false, none => done s
  | true, none => endPoison s k c
  | false, some v => endAssay (raiseAssay s k p c.seq path makeup v.1 v.2) k c 0x40 (originNext s (qHall k) 7 4)
  | true, some v =>
    let a := if t.late then raiseAssay s k p c.seq path makeup v.1 v.2 else s
    let o := originNext a (qHall k) 0 3
    let b := raiseQueue a k 0 3 0x0100 c.seq []
    let oa := originNext (if t.late then s else b) (qHall k) 7 4
    let d := if t.late then b else raiseAssay b k p c.seq path makeup v.1 v.2
    killJob (endAssay d k c 0x30 oa) (qJob s k).toNat 1 o

/-- The output of a LAST command: the state after its reads, its finished elements before the skipped spans are marked and after, the tiles
and blocks, the bytes to write, and whether poison was met. -/
structure MatOutput where
  st : State
  fin : List (List OutEl)
  rows : List (List OutEl)
  out : Output
  pieces : List Piece
  poison : Bool

/-- R154 to R169: the output that a LAST command computes. -/
def matOutput (s : State) (p : Nat) (c : InFlight) (o : MatOps) (path : Nat) (pl : Plane) (pr : PassRes) (g : Option Gating) : MatOutput :=
  let sp := matOut o (if o.tslot = 255 then 0 else slotScale c o.tslot)
  let fin := finishAll s p path o pl pr.acc (List.range o.rows)
  let rows := if g.isSome then markSkipped ((g.map (·.skip)).getD []) fin.rows else fin.rows
  let out := makeOutput sp pr.acc.dropped pr.acc.banded rows
  { st := fin.st, fin := fin.rows, rows := rows, out := out, pieces := poisonLines out.lines (matPieces o sp out rows),
    poison := pr.poison || fin.poison }

/-- R75, R169, R265: what a LAST command that ends with a fault has written and reported: its poisoned lines and the POISON of their tiles, and of
everything else each byte, block and tile or not. -/
def faultOutput (s : State) (n p : Nat) (c : InFlight) (o : MatOps) (m : MatOutput) (exact stopped : Bool) : State :=
  let sp := matOut o 0
  let s := putPieces (putPartial s p m.pieces) p (poisonStatus sp m.out.tiles)
  let b := freeSome s (OutPiece.inLines m.out.lines) (matBlocks exact m.out m.rows)
  let s := sealReports b.1 (n / 64) (hdrJob c.cmd) o.tslot (b.2.filterMap (·.report))
  let f := takeFree s
  let g := takeFree f.2
  let some' (i n : Nat) : Nat := Config.freeNat i % (n + 1)
  drainCounts g.2 p (if stopped then some' f.1 (satCount m.rows) else satCount m.rows) (some' g.1 (nanTiles m.out))

/-- The finishing part of a LAST command (R154 to R169). Whether poison that only the drain meets is found before the verdict is left to timing
(R287, R290). -/
def finishMatrix (s : State) (n p : Nat) (c : InFlight) (o : MatOps) (path : Nat) (pl : Plane) (pr : PassRes)
    (g : Option Gating) (fail : Option (Verdict × Bool)) : State :=
  let k := 4 * n
  let m := matOutput s p c o path pl pr g
  let exact := (getCore m.st n).gln.mode == 1 && o.gate
  let f := takeFree m.st
  let s := if fail.isSome || m.poison then faultOutput f.2 n p c o m exact fail.isSome
    else
      sealReports (drainCounts (putPieces m.st p m.pieces) p (satCount m.rows) (nanTiles m.out)) (n / 64) (hdrJob c.cmd) o.tslot
        ((matBlocks exact m.out m.rows).filterMap (·.report))
  endMatrix s k p c path false { poison := m.poison, late := !pr.poison && Config.freeBool f.1, fail := fail } fun s =>
    let s := modCore s n fun lc =>
      { lc with acc := none, gln := match g with
          | none => lc.gln
          | some g => gleanCounts lc.gln g m.fin }
    let s := if o.gate then noteLog s n p c (if o.tslot = 255 then 0 else slotScale c o.tslot) pr.acc m.fin else s
    completeDone s k c (m.out.flags.or { metaDrop := pl.dropped, banded := decide (1 < pr.bands) }).toNat
      [0, 0, 0, recCount (pr.bands - 1)]

/-- LOOM.MATMUL and LOOM.MATMUL.T (R135 to R147, R154 to R169, R283 to R292). -/
def runMatrix (op n : Nat) (s : State) : State :=
  let k := 4 * n
  match headOp s k op, corePos s n with
  | some c, some p =>
    let o := matOps c.cmd
    let lc := getCore s n
    match getPlane lc o.plane, pathOf o.afmt o.wfmt with
    | some pl, some path =>
      let g := gatingOf lc o (if o.last then o.ncols else pl.cols)
      let out := (g.map fun g => gatedOut g.skip g.audit).getD []
      let pr := runPass s p pl o path (accFor lc o path pl) (List.range o.rows) out
      let a := assay pr.st n p pl.copyErr pr.seen
      let s := if pl.copyErr = 1 ∧ (getPos pr.st p).asyEnable then
          modCore a.st n fun lc => setPlane lc o.plane (some { pl with copyErr := 0 }) else a.st
      if o.last then finishMatrix s n p c o path pl pr g a.fail
      else
        endMatrix s k p c path false { poison := pr.poison, late := false, fail := a.fail } fun s =>
          let s := modCore s n fun lc => { lc with acc := some pr.acc }
          let s := if o.gate then noteLog s n p c 0 pr.acc [] else s
          completeDone s k c ({ metaDrop := pl.dropped, banded := decide (1 < pr.bands) : RecFlags }).toNat
            [0, 0, 0, recCount (pr.bands - 1)]
    | _, _ => s
  | _, _ => s

/-- LOOM.MATMUL: straight placement. -/
def execLoomMatmul (n : Core) (s : State) : Host.Outcome State Fault Refusal := .next (runMatrix 0x11 n s)

/-- LOOM.MATMUL.T: transposed placement. -/
def execLoomMatmulT (n : Core) (s : State) : Host.Outcome State Fault Refusal := .next (runMatrix 0x12 n s)

end Sys2Proof.Machine
end

