-- ==== Sys2Proof/Machine/Fuller.lean ====
section
/-! DEFINITION. The Fuller (10): vector programs (FUL.RUN, R240 to R251) and FUL.SOFTMAX (R252 to R255). -/

namespace Sys2Proof.Machine

/-! ## The program (R242, R243, R244) -/

/-- R242: check 6 of FUL.RUN. -/
def fulOk (c : BitVec 512) : Bool :=
  let o := fulOps c
  o.pbase % 64 == 0 && inStore (o.pbase, 64 + 8 * o.ninst) && (o.bases.all fun b => decide (b < storeSize))
    && (if o.sen then o.sbase % 8 == 0 && inStore (o.sbase, 8) else o.sbase == 0)

/-! ## Elements and rounding (R240, R245 to R247) -/

/-- A vector element: its FP32 pattern and its poison. -/
structure VEl where
  v : W32 := 0
  poison : Bool := false
  deriving DecidableEq, Repr

/-- R240, I8: clamp(rne_int(x), −128, 127). -/
def clampInt (lo hi : Int) (v : Val) : Int :=
  match v with
  | .nan => 0
  | .inf n => if n then lo else hi
  | v => max lo (min hi (rneVal v 0))

/-- R240: an exact result rounded to TYPE, held as FP32. -/
def roundTy (ty : Nat) (v : Val) : W32 :=
  if ty = 0 then toF32 v
  else if ty = 1 then toF32 (fp16.decode (fp16.encode v))
  else if ty = 2 then toF32 (bf16.decode (bf16.encode v))
  else toF32 (valOfInt (clampInt (-128) 127 v) 0)

/-- The float format a special function rounds to; I8 is read as F32 (R247). -/
def tyFmt (ty : Nat) : Fmt := if ty = 1 then fp16 else if ty = 2 then bf16 else fp32

/-- R244 MAX and MIN: a NaN wins, and +0 is above −0. -/
def maxMin (min : Bool) (a b : W32) : W32 := (reduceRow min [(0, a), (1, b)]).1

/-- R247: the special functions. -/
def special (op ty : Nat) (x : W32) : W32 :=
  let f := tyFmt ty
  let r := if op = 0x10 then exp2To f (f32 x)
    else if op = 0x11 then log2To f (f32 x)
    else if op = 0x12 then rcpTo f (f32 x)
    else if op = 0x13 then rsqrtTo f (f32 x)
    else tanhTo f (f32 x)
  toF32 (f.decode r)

/-- R244: the element operations of MOV and the arithmetic instructions. -/
def alu (op ty : Nat) (a b c : W32) : W32 :=
  if op = 0x08 then roundTy ty (vAdd (f32 a) (f32 b))
  else if op = 0x09 then roundTy ty (vSub (f32 a) (f32 b))
  else if op = 0x0A then roundTy ty (vMul (f32 a) (f32 b))
  else if op = 0x0B then roundTy ty (vAdd (vMul (f32 a) (f32 b)) (f32 c))
  else if op = 0x0C then roundTy ty (f32 (maxMin false a b))
  else if op = 0x0D then roundTy ty (f32 (maxMin true a b))
  else if op = 0x0E then roundTy ty (vAbs (f32 a))
  else if op = 0x0F then roundTy ty (vNeg (f32 a))
  else if 0x10 ≤ op ∧ op ≤ 0x14 then special op ty a
  else roundTy ty (f32 a)

/-- How many of va, vb and vc an instruction of `alu` reads. -/
def aluSources (op : Nat) : Nat := if op = 0x0B then 3 else if 0x08 ≤ op ∧ op ≤ 0x0D then 2 else 1

/-- R245: the comparisons. -/
def cmpOp (op : Nat) (a b : W32) : Bool :=
  if op = 0x18 then vLt (f32 b) (f32 a)
  else if op = 0x19 then vLe (f32 b) (f32 a)
  else if op = 0x1A then vEq (f32 a) (f32 b)
  else f32IsNan a || f32IsNan b

/-- One level of R246's tree: absent inputs pass the other through. -/
def sumLevel (ty : Nat) (l : List (Option W32)) : List (Option W32) :=
  match l with
  | a :: b :: r => (match a, b with
      | some x, some y => some (roundTy ty (vAdd (f32 x) (f32 y)))
      | some x, none => some x
      | none, y => y) :: sumLevel ty r
  | l => l

/-- The tree over at most 2^`n` positions. -/
def treeSum (ty n : Nat) (l : List (Option W32)) : W32 :=
  match n with
  | 0 => (l.headD none).getD 0
  | n + 1 => treeSum ty n (sumLevel ty l)

/-- R246: a reduction over the elements that take part, with their indices. -/
def reduceVec (op ty : Nat) (l : List (Option W32)) : W32 :=
  let part := (l.mapIdx fun i x => x.map fun v => (i, v)).filterMap id
  let ofNat (n : Nat) : W32 := toF32 (valOfInt n 0)
  if op = 0x24 then treeSum ty 10 l
  else
    let isMin := op == 0x26 || op == 0x28
    let r := reduceRow isMin part
    if op = 0x25 ∨ op = 0x26 then
      (if part = [] then BitVec.ofNat 32 (fp32.infinity (!isMin)) else r.1)
    else ofNat (if part = [] then 1024 else r.2.1)

/-! ## The run's state -/

/-- The first element that set NAN or INF (R251): iteration, element, instruction, and whether it is a NaN. -/
structure FirstBad where
  iter : Nat
  idx : Nat
  inst : Nat
  isNan : Bool
  deriving DecidableEq, Repr

/-- How a run stopped: not yet; by poison (R241, R249); or by a write beyond the store at an address (R249). -/
inductive FStop
  | none | poison | prot (va : Nat)
  deriving DecidableEq, Repr

/-- R241: the state of one run. `flaw` is the register element that a reader will find in error, with 1 for a corrected error and 2 for an uncorrectable
one (R511). Of the schedule of R250, `clock` is when the next instruction may begin issue, `ready` when each vector and then each mask register may be
read, and `landed` when the last write has landed. -/
structure FRun where
  st : State
  p : Nat
  regs : List (List VEl)
  masks : List (List Bool)
  pieces : List Piece := []
  reports : List (Nat × BlockReport) := []
  flags : RecFlags := {}
  first : Option FirstBad := none
  odd : Nat := 0
  stop : FStop := .none
  flaw : Option (Nat × Nat × Nat) := none
  clock : Nat := 6
  ready : List Nat := []
  landed : Nat := 0

def FRun.reg (r : FRun) (i : Nat) : List VEl := r.regs.getD i []
def FRun.mask (r : FRun) (i : Nat) : List Bool := r.masks.getD i []

/-- MEN: the elements an instruction writes, or that take part. -/
def FRun.active (r : FRun) (x : FInst) (j : Nat) : Bool := !x.men || (r.mask x.msel).getD j false

/-- VB of element `j`; a column broadcast reads element i mod 1,024 (R243). -/
def FRun.srcB (r : FRun) (x : FInst) (i j : Nat) : VEl := (r.reg x.vb).getD (if x.cb then i % 1024 else j) {}

/-- R261, R511: an armed FUL_FLIP acts on the first element written to register `d`, the first index that `wr` holds of; a reader finds the errors. -/
def FRun.flipVec (r : FRun) (d : Nat) (wr : Nat → Bool) (l : List VEl) : List VEl × FRun :=
  let f := (getPos r.st r.p).fulFlip
  match (List.range l.length).find? wr with
  | none => (l, r)
  | some j =>
    if !f.arm then (l, r) else
      let (n, s) := if f.bits ≤ 2 then (0, r.st) else takeFree r.st
      let s := modPos s r.p fun ps => { ps with fulFlip := { f with arm := false } }
      let e := l.getD j {}
      let bad := l.set j { e with v := e.v ^^^ BitVec.ofNat 32 f.data }
      match eccOutcome f.bits (Config.freeNat n) with
      | .clean => (bad, { r with st := s })
      | .corrected =>
        (if f.bits = 1 then l else l.set j { e with v := (Config.freeBits n).setWidth 32 }, { r with st := s, flaw := some (d, j, 1) })
      | .uncorrectable => (bad, { r with st := s, flaw := some (d, j, 2) })

/-- R244: a vector result written under MEN and ZM. -/
def FRun.setVec (r : FRun) (x : FInst) (new : List VEl) : FRun :=
  let old := r.reg x.vd
  let wr (j : Nat) : Bool := r.active x j || x.zm
  let out := new.mapIdx fun j e => if r.active x j then e else if x.zm then {} else old.getD j {}
  let r := { r with flaw := r.flaw.filter fun f => !(f.1 == x.vd && wr f.2.1) }
  let f := r.flipVec x.vd wr out
  { f.2 with regs := f.2.regs.set x.vd f.1 }

/-- R244: a comparison's mask written under MEN and ZM. -/
def FRun.setMask (r : FRun) (x : FInst) (new : List Bool) : FRun :=
  let old := r.mask (x.vd % 8)
  let out := new.mapIdx fun j b => if r.active x j then b else if x.zm then false else old.getD j false
  { r with masks := r.masks.set (x.vd % 8) out }

/-- A mask instruction's result; MEN is ignored (R244). -/
def FRun.putMask (r : FRun) (x : FInst) (new : List Bool) : FRun := { r with masks := r.masks.set (x.vd % 8) new }

/-! ## Memory instructions (R248, R249) -/

/-- What an LD gives: the elements, and whether it reached beyond the store. -/
structure LoadRes where
  st : State
  els : List VEl
  beyond : Bool

/-- R248: the tensor scale code of an A8 LD. -/
def loadT (x : FInst) : Int :=
  let t := signed 8 (x.imm / 2 ^ 24)
  if scaleOk t then t else 0

/-- One element loaded. -/
def loadEl (s : State) (p f : Nat) (t a : Int) (j : Nat) : State × VEl × Bool :=
  if f = 0 then
    if !memIn (a + j) 1 || !memIn (a + 1024 + (j / 32 : Nat)) 1 then (s, {}, true) else
      let d := storeRead s p (a + j).toNat 1
      let e := storeRead d.st p (a + 1024 + (j / 32 : Nat)).toNat 1
      let m := (d.bytes.headD (0, false)).1
      let c := (e.bytes.headD (0, false)).1
      (e.st, { v := a8ToF32 m c t, poison := anyPoison d.bytes || anyPoison e.bytes }, false)
  else
    let n := memBytes f
    let b := a + (n * j : Nat)
    if !memIn b n then (s, {}, true) else
      let d := storeRead s p b.toNat n
      let v := leNat (d.bytes.map (·.1))
      (d.st, { v := if f = 8 ∨ f = 9 then toF32 (valOfInt v 0) else floatToF32 f v, poison := anyPoison d.bytes }, false)

/-- The elements of an LD from index `j`, `n` of them; those MEN excludes are not read. -/
def loadEls (s : State) (p f : Nat) (t a : Int) (act : Nat → Bool) (n j : Nat) : LoadRes :=
  match n with
  | 0 => { st := s, els := [], beyond := false }
  | n + 1 =>
    let d := if act j then loadEl s p f t a j else (s, {}, false)
    if d.2.2 then { st := d.1, els := [], beyond := true }
    else
      let r := loadEls d.1 p f t a act n (j + 1)
      { r with els := d.2.1 :: r.els }

/-- An element as bytes of a memory format other than A8. -/
def memEncode (f : Nat) (v : W32) : Nat :=
  if f = 8 then (clampInt 0 65535 (f32 v)).toNat
  else if f = 9 then (clampInt 0 (2 ^ 32 - 1) (f32 v)).toNat
  else f32ToFloat f v

/-- Elements to store: their source index, the element, and whether the mask excludes it. -/
abbrev StoreEl := Nat × VEl × Bool

/-- R251: NAN, INF and the first bad element. -/
def noteStored (r : FRun) (i inst f : Nat) (l : List StoreEl) : FRun :=
  if f = 8 ∨ f = 9 then r else
    let l := l.filter fun e => !e.2.2
    let bad := l.find? fun e => f32IsNan e.2.1.v || outInf f e.2.1.v
    { r with
      flags := r.flags.or { nan := l.any (fun e => f32IsNan e.2.1.v), inf := l.any (fun e => outInf f e.2.1.v) },
      first := r.first <|> bad.map fun e => { iter := i, idx := e.1, inst := inst, isNan := f32IsNan e.2.1.v } }

/-- One A8 block stored: its pieces, and its report with SAT and UNF. -/
def storeBlock (t a : Int) (b : Nat) (l : List StoreEl) : List (Int × List Byte) × Option BlockReport :=
  let els := l.map fun e => { v := e.2.1.v, skip := e.2.2 : OutEl }
  let blk := toA8Block t ((List.range 32).map fun i => match els[i]? with
    | some x => (f32 x.v, x.skip)
    | none => (vZero, true))
  ([(a + (32 * b : Nat), blk.m), (a + 1024 + (b : Nat), [blk.side])], blockReport els blk)

/-- The bytes of a store: address and bytes, and the block reports. -/
def storeBytes (f : Nat) (t a : Int) (l : List StoreEl) : List (Int × List Byte) × List BlockReport :=
  if f = 0 then
    let bs := (chunksOf 32 l).mapIdx fun b c => storeBlock t a b c
    (bs.flatMap (·.1), bs.filterMap (·.2))
  else
    let n := memBytes f
    ((l.mapIdx fun q e => (a + (n * q : Nat), leBytes n (memEncode f e.2.1.v), e.2.2)).filterMap fun x =>
      if x.2.2 then none else some (x.1, x.2.1), [])

/-- R249: bytes written, or dropped beyond the store; answers the first address beyond. -/
def FRun.write (r : FRun) (l : List (Int × List Byte)) (poison : Bool) : FRun × Option Int :=
  let bytes := l.flatMap fun x => x.2.mapIdx fun i b => (x.1 + (i : Int), b)
  let inside := bytes.filter fun x => memIn x.1 1
  let ps : List Piece := inside.map fun x => (x.1.toNat, [(x.2, poison)])
  ({ r with pieces := r.pieces ++ ps, st := if poison then r.st else putPieces r.st r.p ps },
    (bytes.find? fun x => !memIn x.1 1).map (·.1))

/-- ST, STC and STCI: elements stored at an address (R241, R248, R249, R251). DESIGN CHOICE (log entry 193): where one of them is poisoned, every byte
of the instruction is left open, with its poison. -/
def FRun.store (r : FRun) (i inst f slot : Nat) (t a : Int) (l : List StoreEl) : FRun :=
  let poison := l.any fun e => e.2.1.poison && !e.2.2
  let b := storeBytes f t a l
  let w := r.write b.1 poison
  let w := ({ w.1 with reports := r.reports ++ if slot = 255 then [] else b.2.map fun x => (slot, x) }, w.2)
  if poison then { w.1 with stop := .poison }
  else match w.2 with
    | some a => { w.1 with stop := .prot (a % 2 ^ 48).toNat }
    | none =>
      let r := noteStored w.1 i inst f l
      { r with flags := r.flags.or { sat := b.2.any (·.sat), unf := b.2.any (·.unf) } }

/-! ## One instruction -/

/-- What an instruction needs beside the run's state. -/
structure FEnv where
  vl : Nat
  last : Nat
  bases : List Nat
  strides : List Int
  scale : Nat → Int
  job : Nat

/-- R244, R246: a reduction. -/
def FRun.reduce (r : FRun) (e : FEnv) (x : FInst) : FRun :=
  let l := (List.range e.vl).map fun j => if r.active x j then some ((r.reg x.va).getD j {}) else none
  if l.any fun y => (y.map (·.poison)).getD false then { r with stop := .poison }
  else
    let v := reduceVec x.op x.ty (l.map fun y => y.map (·.v))
    -- MEN selects what takes part; every element below VL is written
    FRun.setVec r { x with men := false } (List.replicate e.vl { v := v })

/-- R241, R244, R245: a comparison. -/
def FRun.compareOp (r : FRun) (e : FEnv) (x : FInst) (i : Nat) : FRun :=
  let l := (List.range e.vl).map fun j => ((r.reg x.va).getD j {}, r.srcB x i j, r.active x j)
  if l.any fun y => y.2.2 && (y.1.poison || y.2.1.poison) then { r with stop := .poison }
  else r.setMask x (l.map fun y => cmpOp x.op y.1.v y.2.1.v)

/-- R241, R244: MOV, the arithmetic and the special functions. -/
def FRun.aluOp (r : FRun) (e : FEnv) (x : FInst) (i : Nat) : FRun :=
  let n := aluSources x.op
  r.setVec x ((List.range e.vl).map fun j =>
    let a := (r.reg x.va).getD j {}
    let b := r.srcB x i j
    let c := (r.reg x.vc).getD j {}
    { v := alu x.op x.ty a.v b.v c.v,
      poison := a.poison || (decide (2 ≤ n) && b.poison) || (decide (3 ≤ n) && c.poison) })

/-- R244: the mask instructions. -/
def FRun.maskOp (r : FRun) (e : FEnv) (x : FInst) : FRun :=
  let a := r.mask (x.va % 8)
  let b := r.mask (x.vb % 8)
  r.putMask x ((List.range e.vl).map fun j =>
    let p := a.getD j false
    let q := b.getD j false
    if x.op = 0x1C then true
    else if x.op = 0x1D then j == x.imm % 1024
    else if x.op = 0x1E then p && q
    else if x.op = 0x1F then p && !q
    else p || q)

/-- R248: LD. -/
def FRun.load (r : FRun) (e : FEnv) (x : FInst) (i : Nat) : FRun :=
  let f := memFmt x.vc
  let d := loadEls r.st r.p f (loadT x) (memAddr e.bases e.strides x i (memAlign f)) (fun j => r.active x j) e.vl 0
  if d.beyond then { r with st := d.st, stop := .poison } else FRun.setVec { r with st := d.st } x d.els

/-- R248: ST, STC and STCI. -/
def FRun.storeOp (r : FRun) (e : FEnv) (x : FInst) (i inst : Nat) : FRun :=
  let f := if x.op = 0x33 then 8 else memFmt x.vc
  let slot := if f = 0 then x.imm / 2 ^ 24 else 255
  let a := memAddr e.bases e.strides x i (memAlign f)
  let t := if slot = 255 then 0 else e.scale slot
  let src := (List.range e.vl).map fun j => (j, (r.reg x.va).getD j {})
  let r := if slot = 255 then r else { r with st := readSlotIn r.st (r.p / 72) e.job slot }
  let picked := src.filter fun y => (r.mask x.msel).getD y.1 false
  if x.op = 0x31 then
    r.store i inst f slot t a (src.map fun y =>
      if r.active x y.1 then (y.1, y.2, false)
      else if x.zm ∧ f ≠ 0 then (y.1, {}, false) else (y.1, {}, true))
  else if x.op = 0x32 then r.store i inst f slot t a (picked.map fun y => (y.1, y.2, false))
  else
    r.store i inst 8 255 0 a (picked.map fun y => (y.1, { v := toF32 (valOfInt y.1 0) }, false))

/-! ## What an instruction reads (R241, R244, R261) -/

/-- The instruction reads element `j` of register `g`: MEN and, for STC, the mask select; a column broadcast reads one element of VB. -/
def FRun.readsEl (r : FRun) (x : FInst) (i g j : Nat) : Bool :=
  let sel := if x.op = 0x32 then (r.mask x.msel).getD j false else r.active x j
  let isAlu := x.op == 0x04 || (decide (0x08 ≤ x.op) && decide (x.op ≤ 0x14))
  let n := if isAlu then aluSources x.op else if 0x18 ≤ x.op ∧ x.op ≤ 0x1B then 2
    else if (0x24 ≤ x.op ∧ x.op ≤ 0x28) ∨ x.op = 0x31 ∨ x.op = 0x32 then 1 else 0
  (decide (1 ≤ n) && g == x.va && sel) || (decide (2 ≤ n) && g == x.vb && (if x.cb then j == i % 1024 else sel))
    || (decide (3 ≤ n) && g == x.vc && sel)

/-- R261, R511: the element in error, if the instruction reads it: counted by this reader, and poisoned where it is uncorrectable (R241). -/
def FRun.readFlaw (r : FRun) (x : FInst) (i : Nat) : FRun :=
  match r.flaw with
  | none => r
  | some (g, j, code) =>
    if !r.readsEl x i g j then r
    else if code = 1 then
      { r with st := raiseQuiet (modPos r.st r.p fun ps => { ps with fulEcc := ps.fulEcc.addCe }) (r.p / 72) 20 }
    else
      { r with st := raiseEngineUe (modPos r.st r.p fun ps => { ps with fulEcc := ps.fulEcc.addUe }) r.p,
               regs := r.regs.set g ((r.reg g).set j { (r.reg g).getD j {} with poison := true }) }

/-! ## The schedule (R250) -/

/-- R240: the elements of a TYPE processed per CORE cycle. -/
def tyLanes (ty : Nat) : Nat := if ty = 0 then 64 else if ty = 3 then 256 else 128

/-- R250: the lanes of a memory format. -/
def fmtLanes (f : Nat) : Nat := if f = 0 then 256 else if f = 3 ∨ f = 9 then 64 else 128

/-- R244, R250: the issue cycles of an instruction over `vl` elements. -/
def issueCycles (vl : Nat) (x : FInst) : Nat :=
  let upTo (n : Nat) : Nat := (vl + n - 1) / n
  if (1 ≤ x.op ∧ x.op ≤ 4) ∨ (0x08 ≤ x.op ∧ x.op ≤ 0x0F) ∨ (0x18 ≤ x.op ∧ x.op ≤ 0x1B) then upTo (tyLanes x.ty)
  else if 0x10 ≤ x.op ∧ x.op ≤ 0x14 then upTo 16
  else if 0x24 ≤ x.op ∧ x.op ≤ 0x28 then upTo 64
  else if 0x30 ≤ x.op ∧ x.op ≤ 0x32 then upTo (fmtLanes (memFmt x.vc))
  else if x.op = 0x33 then upTo 128
  else 1

/-- R244: the latency of an instruction. -/
def fLatency (op : Nat) : Nat :=
  if (1 ≤ op ∧ op ≤ 4) ∨ (0x08 ≤ op ∧ op ≤ 0x0F) then 4
  else if (0x10 ≤ op ∧ op ≤ 0x14) ∨ (0x24 ≤ op ∧ op ≤ 0x28) then 12
  else if 0x18 ≤ op ∧ op ≤ 0x1B then 3
  else if 0x1C ≤ op ∧ op ≤ 0x20 then 1
  else if op = 0x30 then 8
  else if 0x31 ≤ op ∧ op ≤ 0x33 then 2
  else 0

/-- The registers an instruction names as sources: vector register v is v, mask register m is 16 + m. -/
def fSources (x : FInst) : List Nat :=
  let men := if x.men then [16 + x.msel] else []
  if x.op = 0x04 ∨ (0x08 ≤ x.op ∧ x.op ≤ 0x14) then [x.va, x.vb, x.vc].take (aluSources x.op) ++ men
  else if 1 ≤ x.op ∧ x.op ≤ 3 ∨ x.op = 0x30 then men
  else if 0x18 ≤ x.op ∧ x.op ≤ 0x1B then [x.va, x.vb] ++ men
  else if 0x1E ≤ x.op ∧ x.op ≤ 0x20 then [16 + x.va % 8, 16 + x.vb % 8]
  else if (0x24 ≤ x.op ∧ x.op ≤ 0x28) ∨ x.op = 0x31 then [x.va] ++ men
  else if x.op = 0x32 then [x.va, 16 + x.msel]
  else if x.op = 0x33 then [16 + x.msel]
  else []

/-- The register an instruction writes. -/
def fDest (x : FInst) : Option Nat :=
  if (1 ≤ x.op ∧ x.op ≤ 4) ∨ (0x08 ≤ x.op ∧ x.op ≤ 0x14) ∨ (0x24 ≤ x.op ∧ x.op ≤ 0x28) ∨ x.op = 0x30 then some x.vd
  else if 0x18 ≤ x.op ∧ x.op ≤ 0x20 then some (16 + x.vd % 8)
  else none

/-- R250: the schedule after an instruction, no store slot being waited for. -/
def FRun.issue (r : FRun) (vl : Nat) (x : FInst) : FRun :=
  let start := (fSources x).foldl (fun a g => max a (r.ready.getD g 0)) r.clock
  let last := start + issueCycles vl x - 1
  { r with
    clock := last + 1,
    ready := match fDest x with
      | none => r.ready
      | some d => r.ready.set d (last + fLatency x.op + 1),
    landed := if 0x31 ≤ x.op ∧ x.op ≤ 0x33 then last + 2 else r.landed }

/-- One instruction that is executed. -/
def fExecute (e : FEnv) (i : Nat) (r : FRun) (inst : Nat) (x : FInst) : FRun :=
  if x.op = 0x00 then r
  else if x.op = 0x01 then r.setVec x (List.replicate e.vl { v := roundTy x.ty (f32 (BitVec.ofNat 32 x.imm)) })
  else if x.op = 0x02 then r.setVec x ((List.range e.vl).map fun j => { v := roundTy x.ty (valOfInt (j : Nat) 0) })
  else if x.op = 0x03 then r.setVec x (List.replicate e.vl { v := roundTy x.ty (valOfInt i 0) })
  else if x.op = 0x04 ∨ (0x08 ≤ x.op ∧ x.op ≤ 0x14) then r.aluOp e x i
  else if 0x18 ≤ x.op ∧ x.op ≤ 0x1B then r.compareOp e x i
  else if 0x1C ≤ x.op ∧ x.op ≤ 0x20 then r.maskOp e x
  else if 0x24 ≤ x.op ∧ x.op ≤ 0x28 then r.reduce e x
  else if x.op = 0x30 then r.load e x i
  else if 0x31 ≤ x.op ∧ x.op ≤ 0x33 then r.storeOp e x i inst
  else { r with odd := r.odd + 1 }

/-- One instruction of iteration `i`. -/
def fStep (e : FEnv) (i : Nat) (r : FRun) (inst : Nat) (x : FInst) : FRun :=
  if r.stop ≠ .none ∨ !phaseOn x.ph i e.last then r else fExecute e i ((r.readFlaw x i).issue e.vl x) inst x

/-- The instructions of one iteration from number `j`. -/
def fProgram (e : FEnv) (i j : Nat) (r : FRun) (l : List FInst) : FRun :=
  match l with
  | [] => r
  | x :: t => fProgram e i (j + 1) (fStep e i r j x) t

/-- `n` iterations from `i` (R243). -/
def fIterate (e : FEnv) (l : List FInst) (n i : Nat) (r : FRun) : FRun :=
  match n with
  | 0 => r
  | n + 1 => if r.stop ≠ .none then r else fIterate e l n (i + 1) (fProgram e i 0 r l)

/-! ## FUL.RUN -/

/-- R251: the run status word. -/
def statusWord (r : FRun) : Nat :=
  let f := r.first.getD { iter := 0, idx := 0, inst := 0, isNan := false }
  f.iter + f.idx * 2 ^ 32 + f.inst * 2 ^ 42 + f.isNan.toNat * 2 ^ 50 + r.first.isSome.toNat * 2 ^ 51
    + r.flags.sat.toNat * 2 ^ 52 + r.flags.unf.toNat * 2 ^ 53

/-- R249: a store beyond the store ends the command with PROT; its event carries the sequence number, the address and the write. -/
def endFulProt (s : State) (k : Nat) (c : InFlight) (va : Nat) : State :=
  let o := originNext s (qHall k) 4 2
  completeFault (raiseQueue s k 4 2 0x0104 c.seq (leBytes 6 va ++ [1])) k c 0x21 (some o)

/-- Reports sent to their slots. -/
def sealEach (s : State) (h j : Nat) (l : List (Nat × BlockReport)) : State :=
  l.foldl (fun s x => sealReports s h j x.1 [x.2]) s

/-- A run to its end. DEDUCED (log entry 192): the whole header is read, its ignored bytes too. -/
def fulRun (s : State) (p : Nat) (c : InFlight) : FRun :=
  let o := fulOps c.cmd
  let hd := storeRead s p o.pbase 64
  let pr := storeRead hd.st p (o.pbase + 64) (8 * o.ninst)
  let r : FRun :=
    { st := pr.st, p := p, regs := List.replicate 16 (List.replicate o.vl {}), masks := List.replicate 8 (List.replicate o.vl false),
      ready := List.replicate 24 0 }
  if anyPoison hd.bytes || anyPoison pr.bytes then { r with stop := .poison }
  else
    let e : FEnv :=
      { vl := o.vl, last := o.iters - 1, bases := o.bases, scale := slotScale c, job := hdrJob c.cmd,
        strides := (chunksOf 4 (hd.bytes.take 32)).map fun b => signed 32 (leNat (b.map (·.1))) }
    fIterate e ((chunksOf 8 pr.bytes).map fun b => fInst (leNat (b.map (·.1)))) o.iters 0 r

/-- R75, R265: what a FUL.RUN that ends with a fault has written and reported is left open, and so is its length. -/
def faultFul (s : State) (n p : Nat) (c : InFlight) (r : FRun) : State :=
  let b := freeSome (rollback (getPos s p) (freeBusy r.st p) p r.pieces) (fun _ => false) r.reports
  sealEach b.1 (n / 64) (hdrJob c.cmd) b.2

/-- FUL.RUN (R239 to R251). FUL_BUSY rises by the cycles of R250 and the waits for store slots (R239), which are timing. -/
def runFul (n : Nat) (s : State) : State :=
  let k := 4 * n + 2
  match headOp s k 0x60, corePos s n with
  | some c, some p =>
    let o := fulOps c.cmd
    let r := fulRun s p c
    let r := { r with st := modPos r.st p fun ps => { ps with fulOdd := ps.fulOdd + BitVec.ofNat 32 r.odd } }
    match r.stop with
    | .poison => endPoison (faultFul s n p c r) k c
    | .prot va => endFulProt (faultFul s n p c r) k c va
    | .none =>
      let s' := addBusy (freeBusy r.st p) p (max r.clock (r.landed + 1))
      let s' := sealEach s' (n / 64) (hdrJob c.cmd) r.reports
      let s' := if o.sen then storeWrite s' p o.sbase ((leBytes 8 (statusWord r)).map fun b => (b, false)) else s'
      completeDone s' k c r.flags.toNat []
  | _, _ => s

def execFulRun (n : Core) (s : State) : Host.Outcome State Fault Refusal := .next (runFul n s)

/-! ## FUL.SOFTMAX (R252 to R255) -/

structure SoftOps where
  ifmt : Nat
  mask : Bool
  causal : Bool
  coff : Int
  tslot : Nat
  tx : Int
  scale : W32
  ibase : Nat
  istride : Nat
  mbase : Nat
  mstride : Nat
  out : OutSpec
  deriving DecidableEq, Repr

def softOps (c : BitVec 512) (t : Int) : SoftOps :=
  { ifmt := fld c 24 0 4, mask := fld c 25 0 1 == 1, causal := fld c 25 1 1 == 1, coff := signed 16 (fld c 30 0 16),
    tslot := fld c 27 0 8, tx := sfld c 32, scale := BitVec.ofNat 32 (fld c 34 0 32), ibase := fld c 38 0 22,
    istride := fld c 41 0 22, mbase := fld c 50 0 22, mstride := fld c 53 0 22,
    out := { fmt := fld c 24 4 4, rows := fld c 26 0 8 + 1, ncols := fld c 28 0 12 + 1, base := fld c 44 0 22,
             stride := fld c 47 0 22, ocoff := 0, t := t } }

/-- The bytes FUL.SOFTMAX reads. -/
def softReads (o : SoftOps) : List Range :=
  (List.range o.out.rows).flatMap fun r =>
    rowRanges o.ifmt (o.ibase + r * o.istride) o.out.ncols
      ++ (if o.mask then [(o.mbase + r * o.mstride, (o.out.ncols + 7) / 8)] else [])

/-- R252: check 6 of FUL.SOFTMAX. -/
def softOk (c : BitVec 512) : Bool :=
  let o := softOps c 0
  let w := outRanges o.out 0
  decide (o.ifmt ≤ 3) && decide (o.out.fmt ≤ 3) && (o.out.fmt == 0) == (o.tslot != 255)
    && (o.causal || o.coff == 0) && (o.mask || (o.mbase == 0 && o.mstride == 0))
    && scaleOk o.tx && (o.ifmt == 0 || o.tx == 0)
    && o.ibase % fmtAlign o.ifmt == 0 && o.istride % fmtAlign o.ifmt == 0
    && o.out.base % fmtAlign o.out.fmt == 0 && o.out.stride % fmtAlign o.out.fmt == 0
    && (softReads o).all inStore && w.all inStore && !anyMeets w (softReads o)

/-- R254: a row's case. -/
inductive SoftCase
  | nan | empty | infIn | normal
  deriving DecidableEq, Repr

/-- log₂ e as R253 gives it. -/
def log2e : W32 := 0x3FB8AA3B#32

/-- R253: softmax_row over the inputs with their keep marks. -/
def softmaxRow (xs : List (W32 × Bool)) (scale : W32) : List W32 × SoftCase :=
  let y := xs.map fun x => (f32Mul scale x.1, x.2)
  let u := y.map fun x => x.2 && x.1 != BitVec.ofNat 32 (fp32.infinity true)
  let yu := (List.zip y u).map fun x => if x.2 then some x.1.1 else none
  let part := yu.filterMap id
  let inf := BitVec.ofNat 32 (fp32.infinity false)
  if part.any f32IsNan then (xs.map fun _ => f32Nan, .nan)
  else if part = [] then (xs.map fun _ => 0, .empty)
  else
    let ninf := (part.filter fun v => v == inf).length
    if 0 < ninf then
      (yu.map fun v => if v = some inf then f32Div f32One (toF32 (valOfInt ninf 0)) else 0, .infIn)
    else
      let mx := (reduceRow false (part.mapIdx fun i v => (i, v))).1
      let e := yu.map fun v => v.map fun v => BitVec.ofNat 32 (exp2To fp32 (f32 (f32Mul (f32Sub v mx) log2e)))
      let r := BitVec.ofNat 32 (rcpTo fp32 (f32 (treeSum 0 12 e)))
      (e.map fun v => (v.map fun v => f32Mul v r).getD 0, .normal)

/-- A row of the bitmap: its bits and its poison. -/
def readBits (s : State) (p off n : Nat) : State × List Bool × Bool :=
  let a := storeRead s p off ((n + 7) / 8)
  (a.st, (List.range n).map fun j => ((a.bytes.getD (j / 8) (0, false)).1).getLsbD (j % 8), anyPoison a.bytes)

/-- A computed row: its outputs, its case, and whether poison that it uses was met. -/
structure SoftRow where
  els : List OutEl
  kind : SoftCase
  poison : Bool

/-- R253: row `r`. -/
def softRow (s : State) (p : Nat) (o : SoftOps) (r : Nat) : State × SoftRow :=
  let a := readRow s p o.ifmt (o.ibase + r * o.istride) o.out.ncols
  let m := if o.mask then readBits a.st p (o.mbase + r * o.mstride) o.out.ncols
    else (a.st, List.replicate o.out.ncols true, false)
  let keep := m.2.1.mapIdx fun j b => b && (!o.causal || decide ((j : Int) ≤ (r : Int) + o.coff))
  let xs := (List.zip a.els keep).map fun x => (Elem.toF32 (o.ifmt == 0) o.tx x.1, x.2)
  let pz := m.2.2 || (List.zip a.els keep).any fun x => x.1.poison && x.2
  let y := softmaxRow xs o.scale
  (m.1, { els := y.1.map fun v => { v := v, poison := pz }, kind := y.2, poison := pz })

/-- The rows from `r`, `n` of them. -/
def softRows (s : State) (p : Nat) (o : SoftOps) (n r : Nat) : State × List SoftRow :=
  match n with
  | 0 => (s, [])
  | n + 1 =>
    let a := softRow s p o r
    let b := softRows a.1 p o n (r + 1)
    (b.1, a.2 :: b.2)

/-- How many rows fell in a case. -/
def caseCount (k : SoftCase) (l : List SoftRow) : Nat := (l.filter fun r => r.kind == k).length

/-- R255. -/
def softCycles (rows n : Nat) : Nat := 24 + rows * (2 * ((n + 63) / 64) + (n + 15) / 16 + 28)

/-- FUL.SOFTMAX. -/
def runSoftmax (n : Nat) (s : State) : State :=
  let k := 4 * n + 2
  match headOp s k 0x61, corePos s n with
  | some c, some p =>
    let o := softOps c.cmd (slotScale c (fld c.cmd 27 0 8))
    let r := softRows s p o o.out.rows 0
    let out := makeOutput o.out false false (r.2.map (·.els))
    let pieces := poisonLines out.lines (out.elementPieces ++ [statusPiece o.out out.tiles])
    if r.2.any (·.poison) then
      let b := freeSome (putFree (freeBusy r.1 p) p pieces) (fun _ => false) (out.pieces.filterMap (·.report))
      endPoison (sealReports b.1 (n / 64) (hdrJob c.cmd) o.tslot b.2) k c
    else
      let s := sealReports (putPieces r.1 p pieces) (n / 64) (hdrJob c.cmd) o.tslot (out.pieces.filterMap (·.report))
      let inf := caseCount .infIn r.2
      let empty := caseCount .empty r.2
      completeDone (addBusy s p (softCycles o.out.rows o.out.ncols)) k c
        (out.flags.or { emptyRow := decide (0 < empty), infIn := decide (0 < inf) }).toNat
        [recCount inf, recCount empty, recCount (caseCount .nan r.2), 0]
  | _, _ => s

def execFulSoftmax (n : Core) (s : State) : Host.Outcome State Fault Refusal := .next (runSoftmax n s)

end Sys2Proof.Machine
end

