-- ==== Sys2Proof/Machine/Lamp.lean ====
section
/-! DEFINITION. The Lamplighter (08): factor sets, projections, scores and bitmaps (R197 to R201). -/

namespace Sys2Proof.Machine

/-! ## LAMP.LOADF (R199) -/

/-- R199: SLOT, NSPAN and FBASE. -/
def loadfSlot (c : BitVec 512) : Nat := fld c 24 0 1
def loadfSpans (c : BitVec 512) : Nat := fld c 25 0 7 + 1
def loadfBase (c : BitVec 512) : Nat := fld c 26 0 22

/-- The bytes of a factor set. -/
def factorSize (nspan : Nat) : Nat := 640 + 32 * nspan

/-- R199: a factor set from its bytes. -/
def factorSet (nspan : Nat) (a : Array Byte) : Factors :=
  { nspan := nspan,
    su := (List.range 32).map fun j => BitVec.ofNat 32 (recNat a (4 * j) 4),
    beta := (List.range nspan).map fun i => BitVec.ofNat 32 (recNat a (128 + 4 * i) 4),
    v := (List.range nspan).map fun i => (List.range 32).map fun j => (a.getD (640 + 32 * i + j) 0).toInt }

def getSlotF (c : LCore) (i : Nat) : Option Factors := if i = 0 then c.slot0 else c.slot1
def setSlotF (c : LCore) (i : Nat) (f : Option Factors) : LCore :=
  if i = 0 then { c with slot0 := f } else { c with slot1 := f }

/-- LAMP.LOADF (R199). -/
def runLoadf (n : Core) (s : State) : State :=
  let k := 4 * n.val
  match headOp s k 0x20, corePos s n with
  | some c, some p =>
    let ns := loadfSpans c.cmd
    let rd := storeRead s p (loadfBase c.cmd) (factorSize ns)
    if anyPoison rd.bytes then endPoison rd.st k c
    else completeDone (modCore rd.st n fun lc => setSlotF lc (loadfSlot c.cmd) (some (factorSet ns (dataArray rd.bytes)))) k c 0 []
  | _, _ => s

def execLampLoadf (n : Core) (s : State) : Host.Outcome State Fault Refusal := .next (runLoadf n s)

/-! ## LAMP.PREDICT (R196, R197, R200, R201) -/

/-- The operands of LAMP.PREDICT. -/
structure PredOps where
  slot : Nat
  first : Bool
  last : Bool
  rescore : Bool
  wbmap : Bool
  rows : Nat
  klen : Nat
  koff : Nat
  tx : Int
  abase : Nat
  astride : Nat
  ubase : Nat
  mbase : Nat
  deriving DecidableEq, Repr

def predOps (c : BitVec 512) : PredOps :=
  { slot := fld c 24 0 1, first := fld c 24 1 1 == 1, last := fld c 24 2 1 == 1, rescore := fld c 24 3 1 == 1,
    wbmap := fld c 24 4 1 == 1, rows := fld c 25 0 8 + 1, klen := fld c 26 0 13, koff := fld c 28 0 10, tx := sfld c 30,
    abase := fld c 32 0 22, astride := fld c 35 0 22, ubase := fld c 38 0 22, mbase := fld c 41 0 22 }

/-- The bytes a LAMP.PREDICT reads. -/
def predReads (o : PredOps) : List Range :=
  if o.rescore then [] else
    ((List.range o.rows).flatMap fun r => a8Ranges (o.abase + r * o.astride) o.koff o.klen) ++ [(o.ubase, 32 * o.klen)]

/-- The bytes it writes. -/
def predWrites (o : PredOps) : List Range := if o.last && o.wbmap then [(o.mbase, 16 * o.rows)] else []

/-- The activation rows of a slice, from row `r`. -/
def readSlices (s : State) (p : Nat) (o : PredOps) (r n : Nat) : State × List (List Elem) :=
  match n with
  | 0 => (s, [])
  | n + 1 =>
    let a := readA8 s p (o.abase + r * o.astride) o.koff o.klen
    let b := readSlices a.st p o (r + 1) n
    (b.1, a.els :: b.2)

/-- R196: the 32 projection sums of a row, in units of 2^-16. -/
def projectRow (u : List (List Int)) (xs : List Elem) : List Int :=
  (List.range 32).map fun j => (List.zipWith (fun (x : Elem) r => x.m * 2 ^ x.e * r.getD j 0) xs u).sum

/-- The projection after a command's slice. -/
def projectAdd (q : Tab Int) (rows : List (List Int)) : Tab Int :=
  ((rows.mapIdx fun r l => l.mapIdx fun j v => (32 * r + j, tabGet 0 q (32 * r + j) + v)).flatten).filter fun x => x.2 != 0

/-- R220, R511: an armed LMP_FLIP acts on the first entry written; its reader finds the errors. -/
def flipProj (s : State) (p : Nat) (pj : Projection) : Projection × State :=
  let f := (getPos s p).lmpFlip
  if !f.arm then ({ pj with ecc := 0 }, s) else
    let (n, s) := if f.bits ≤ 2 then (0, s) else takeFree (takeFree s).2
    let s := modPos s p fun ps => { ps with lmpFlip := { f with arm := false } }
    let v := tabGet 0 pj.q 0
    let bad := v - v % 65536 + ((v % 65536).toNat ^^^ f.data : Nat)
    match eccOutcome f.bits (Config.freeNat n) with
    | .clean => ({ pj with ecc := 0, q := if f.bits = 0 then pj.q else tabSet 0 0 bad pj.q }, s)
    | .corrected => ({ pj with ecc := 1, q := if f.bits = 1 then pj.q else tabSet 0 0 (bad + freeInt (n - 1)) pj.q }, s)
    | .uncorrectable => ({ pj with ecc := 2 }, s)

/-- R220: the projection read, by a slice that adds to it or by the scores (log entry 152); false where an entry is uncorrectable. -/
def readProj (s : State) (p : Nat) (pj : Projection) : State × Bool :=
  if pj.ecc = 0 then (s, true)
  else if pj.ecc = 1 then (raiseQuiet (modPos s p fun ps => { ps with lmpEcc := ps.lmpEcc.addCe }) (p / 72) 20, true)
  else (raiseEngineUe (modPos s p fun ps => { ps with lmpEcc := ps.lmpEcc.addUe }) p, false)

/-- R196: p(r, j). -/
def roundP (q : Int) (tx : Int) (su : W32) : W32 := toF32 (vScale (vMul (valOfInt q (-16)) (f32 su)) tx)

/-- R196: the score of a span. -/
def score (ps : List Val) (v : List Int) (beta : W32) : Val :=
  vAdd (vSum (List.zipWith (fun p w => vMul p (valOfInt w 0)) ps v)) (f32 beta)

/-- R196, R197: a span is active. -/
def spanActive (sc th : Val) : Bool := vIsNan sc || vIsNan th || vLe th sc

/-- The bits of a bitmap row. -/
def rowBits (l : List Bool) : Nat := (l.mapIdx fun i b => if b then 2 ^ i else 0).sum

/-- R196, R201: the bitmap that a factor set gives a projection under θ. -/
def scoreAll (pj : Projection) (f : Factors) (theta : W32) : Bitmap :=
  { rows := pj.rows, nspan := f.nspan,
    bits := (List.range pj.rows).map fun r =>
      let ps := (List.range 32).map fun j => f32 (roundP (tabGet 0 pj.q (32 * r + j)) pj.tx (f.su.getD j 0))
      rowBits ((List.range f.nspan).map fun i => spanActive (score ps (f.v.getD i []) (f.beta.getD i 0)) (f32 theta)) }

/-- R206: θ as a LAMP.PREDICT reads it: +0 while the Gleaner is unconfigured. -/
def thetaNow (g : Gleaner) : W32 := if g.mode = 0 then 0 else g.theta

/-- R200: the projection a command adds to. -/
def projFor (c : LCore) (o : PredOps) : Projection :=
  match c.proj with
  | some pj => if o.first then { isOpen := true, rows := o.rows, tx := o.tx, count := 0, q := [] } else pj
  | none => { isOpen := true, rows := o.rows, tx := o.tx, count := 0, q := [] }

/-- The slice part of a LAMP.PREDICT: the projection with its slice added; `none` where it consumed poison. -/
def projectSlice (s : State) (n p : Nat) (o : PredOps) : State × Option Projection :=
  let a := readSlices s p o 0 o.rows
  let u := storeRead a.1 p o.ubase (32 * o.klen)
  let us := (chunksOf 32 u.bytes).map fun r => r.map fun b => b.1.toInt
  let was := projFor (getCore s n) o
  let rd := readProj u.st p was
  let f := flipProj rd.1 p
    { was with isOpen := !o.last, count := was.count + 1, q := projectAdd was.q (a.2.map (projectRow us)) }
  (f.2, if anyPoison u.bytes || a.2.any (fun r => r.any (·.poison)) || !rd.2 then none else some f.1)

/-- What the projection part of a LAMP.PREDICT gives: with LAST or RESCORE it is then read for its scores; `none` where it consumed poison. -/
def project (s : State) (n p : Nat) (o : PredOps) : State × Option Projection :=
  let a := if o.rescore then (s, (getCore s n).proj) else projectSlice s n p o
  match a.2 with
  | none => a
  | some pj =>
    if !o.last then a else
      let r := readProj a.1 p pj
      (r.1, if r.2 then some pj else none)

/-- LAMP.PREDICT: the projection, and with LAST or RESCORE the bitmap, which BITMAP_REPLACE installs (R201). -/
def runPredict (n : Core) (s : State) : State :=
  let k := 4 * n.val
  match headOp s k 0x21, corePos s n with
  | some c, some p =>
    if c.bitmap.isSome then s else
      let o := predOps c.cmd
      let r := project s n p o
      match r.2 with
      | none => endPoison r.1 k c
      | some pj =>
        let s := modCore r.1 n fun lc => { lc with proj := some pj }
        if !o.last then completeDone s k c 0 []
        else
          match getSlotF (getCore s n) o.slot with
          | none => s
          | some f =>
            let b := scoreAll pj f (thetaNow (getCore s n).gln)
            modQueue s k fun q => updateInFlight q { c with bitmap := some b }
  | _, _ => s

def execLampPredict (n : Core) (s : State) : Host.Outcome State Fault Refusal := .next (runPredict n s)

/-- The active spans of a bitmap. -/
def activeSpans (b : Bitmap) : Nat := (b.bits.map fun r => popCount r b.nspan).sum

/-- BITMAP_REPLACE (R201): every earlier gated command has completed; the bitmap computed replaces the held one, and goes to MBASE with
WBMAP. -/
def runBitmapReplace (n : Core) (s : State) : State :=
  let k := 4 * n.val
  match headOp s k 0x21, corePos s n with
  | some c, some p =>
    match c.bitmap with
    | none => s
    | some b =>
      let o := predOps c.cmd
      let s := if o.wbmap then storeWrite s p o.mbase ((bitmapBytes b).map fun x => (x, false)) else s
      let a := activeSpans b
      let s := modPos s p fun ps =>
        { ps with lmpActive := ps.lmpActive + BitVec.ofNat 32 a, lmpSkip := ps.lmpSkip + BitVec.ofNat 32 (b.rows * b.nspan - a) }
      completeDone (modCore s n fun lc => { lc with bitmap := some b }) k c 0 []
  | _, _ => s

def execBitmapReplace (n : Core) (s : State) : Host.Outcome State Fault Refusal := .next (runBitmapReplace n s)

end Sys2Proof.Machine
end

