-- ==== Sys2Proof/Machine/Glean.lean ====
section
/-! DEFINITION. The Gleaner (08): the glean record (R205, R206), ADAPT (R210), and EXACT make-up (R211 to R216). -/

namespace Sys2Proof.Machine

/-! ## GLN.CONFIG (R205, R206) -/

/-- The operands of GLN.CONFIG. -/
structure GlnOps where
  mode : Nat
  nlog2 : Nat
  gbase : Nat
  logBase : Nat
  logSize : Nat
  deriving DecidableEq, Repr

def glnOps (c : BitVec 512) : GlnOps :=
  { mode := fld c 24 0 2, nlog2 := fld c 25 0 4, gbase := fld c 26 0 22, logBase := fld c 29 0 22, logSize := fld c 32 0 16 }

/-- R206: DELTA as read. -/
def readDelta (d : W32) : W32 := if vLt vZero (f32 d) && !f32IsInf d then d else 0

/-- R206: THETA_MIN and THETA_MAX as read. -/
def readBounds (theta lo hi : W32) : W32 × W32 :=
  let lo := if f32IsNan lo then 0xFF800000#32 else lo
  let hi := if f32IsNan hi then 0x7F800000#32 else hi
  if vLt (f32 hi) (f32 lo) then (theta, theta) else (lo, hi)

/-- R205, R206: the Gleaner as a glean record configures it; PENDING and the log keep
what gated commands that started since have set. -/
def configGleaner (o : GlnOps) (a : Array Byte) (pending : Bool) (log : List LogEntry) : Gleaner :=
  let w (i : Nat) : W32 := BitVec.ofNat 32 (recNat a i 4)
  let b := readBounds (w 0) (w 4) (w 8)
  { mode := o.mode, nlog2 := o.nlog2, gbase := o.gbase, logBase := o.logBase, logSize := o.logSize,
    raw := BitVec.ofNat 160 (recNat a 4 20), thetaRaw := w 0, theta := w 0, thetaMin := b.1, thetaMax := b.2,
    delta := readDelta (w 12), mu := w 16, target := recNat a 20 2, windowM1 := recNat a 22 2,
    phase := recNat a 24 4 % 2 ^ o.nlog2, moved := false, skipped := recNat a 32 4, madeup := recNat a 36 4,
    audited := recNat a 40 4, misses := recNat a 44 4, wasted := recNat a 48 4, winAud := recNat a 52 4,
    winMiss := recNat a 56 4, adjDown := recNat a 60 2, adjUp := recNat a 62 2, pending := pending, log := log }

/-- GLN.CONFIG (R205). MODE 0 reads no record and leaves the Gleaner unconfigured. -/
def runGlnConfig (n : Core) (s : State) : State :=
  let k := 4 * n.val
  match headOp s k 0x28, corePos s n with
  | some c, some p =>
    let o := glnOps c.cmd
    if o.mode = 0 then completeDone (modCore s n fun lc => { lc with gln := { pending := lc.gln.pending, log := lc.gln.log } }) k c 0 []
    else
      let rd := storeRead s p o.gbase 64
      if anyPoison rd.bytes then endPoison rd.st k c
      else completeDone (modCore rd.st n fun lc => { lc with gln := configGleaner o (dataArray rd.bytes) lc.gln.pending lc.gln.log }) k c 0 []
  | _, _ => s

def execGlnConfig (n : Core) (s : State) : Host.Outcome State Fault Refusal := .next (runGlnConfig n s)

/-! ## The record as written back (R206) -/

/-- R206: the 64 bytes of the glean record. -/
def gleanRecord (g : Gleaner) : List Byte :=
  leBytes 4 (if g.moved then g.theta else g.thetaRaw).toNat ++ leBytes 20 g.raw.toNat ++ leBytes 4 g.phase ++ leBytes 4 0
    ++ leBytes 4 g.skipped ++ leBytes 4 g.madeup ++ leBytes 4 g.audited ++ leBytes 4 g.misses ++ leBytes 4 g.wasted
    ++ leBytes 4 g.winAud ++ leBytes 4 g.winMiss ++ leBytes 2 g.adjDown ++ leBytes 2 g.adjUp

/-! ## ADAPT (R210) -/

/-- The greater, and the lesser, of two FP32 values that are no NaN; of two zeros the first, the bound (DESIGN CHOICE, log entry 189). -/
def f32Max (a b : W32) : W32 := if vLt (f32 a) (f32 b) then b else a
def f32Min (a b : W32) : W32 := if vLt (f32 b) (f32 a) then b else a

/-- adapt_at_fence: the Gleaner after it, and whether EV_GLEAN_BOUND is written. -/
def adaptAtFence (g : Gleaner) : Gleaner × Bool :=
  if g.winAud < g.windowM1 + 1 ∨ g.delta = 0 then (g, false)
  else
    let done (g : Gleaner) : Gleaner := { g with winAud := 0, winMiss := 0 }
    if g.target * g.winAud < g.winMiss * 65536 then
      if vLt (f32 g.thetaMin) (f32 g.theta) then
        (done { g with theta := f32Max g.thetaMin (f32Sub g.theta g.delta), moved := true,
                       adjDown := satAdd 0xFFFF g.adjDown 1 }, false)
      else (done g, true)
    else if g.winMiss * 131072 < g.target * g.winAud then
      if vLt (f32 g.theta) (f32 g.thetaMax) then
        (done { g with theta := f32Min g.thetaMax (f32Add g.theta g.delta), moved := true,
                       adjUp := satAdd 0xFFFF g.adjUp 1 }, false)
      else (done g, false)
    else (done g, false)

/-- R210: ADAPT at a fence, with EV_GLEAN_BOUND. -/
def runAdapt (s : State) (n : Nat) : State :=
  let g := (getCore s n).gln
  let r := adaptAtFence g
  let s := modCore s n fun lc => { lc with gln := r.1 }
  if r.2 then
    pushEvent s (n / 64)
      { code := 0x0206, job := if (getOwn s n).owned then some (getOwn s n).job.toNat else none, lockind := 7, loc := n,
        payload := leBytes 4 g.theta.toNat ++ leBytes 4 g.winAud ++ leBytes 4 g.winMiss }
  else s

/-! ## EXACT make-up (R213) -/

/-- The log cut into its closed accumulations, and the entries left over. DESIGN CHOICE (log entry 145): an accumulation still open at a GLN.FENCE is
made up by the fence after its LAST command. -/
def accumulations (l : List LogEntry) (run : List LogEntry) : List (List LogEntry) × List LogEntry :=
  match l with
  | [] => ([], run)
  | e :: r =>
    if e.bitmap.isNone then
      let t := accumulations r run
      (t.1, t.2 ++ [e])
    else if isLast e.cmd then
      let t := accumulations r []
      ((run ++ [e]) :: t.1, t.2)
    else accumulations r (run ++ [e])

/-- R213: the spans make-up computes: the skipped ones, and with an A8 output every span of a block that holds one. -/
def makeupSpans (a8 : Bool) (skip : List (List Bool)) : List (List Bool) :=
  skip.map fun r => r.mapIdx fun i sk => sk || (a8 && ((r.drop (i / 4 * 4)).take 4).any id)

/-- How a piece of make-up went: the fault that ended it, and the path of its pass. -/
structure MakeEnd where
  trouble : Trouble := { poison := false, late := false, fail := none }
  path : Nat := 0
  deriving DecidableEq, Repr

/-- Make-up goes on. -/
def MakeEnd.ok (m : MakeEnd) : Bool := !m.trouble.poison && m.trouble.fail.isNone

/-- Make-up met poison. -/
def metPoison : MakeEnd := { trouble := { poison := true, late := false, fail := none } }

/-- One replayed pass (R213, R219): the plane staged again from its LOADW, the streamed rows, and the Assayer's check; `whole` where every pass of the
accumulation has run. -/
structure Replay where
  st : State
  acc : Acc
  pl : Option Plane
  fin : MakeEnd
  whole : Bool := false

/-- R213: the passes of one accumulation replayed over the streamed rows. An injected mismatch shows row 0 (R292). -/
def replayPasses (s : State) (n p : Nat) (idx : List Nat) (out : List (List Bool)) (acc : Acc) (pl : Option Plane)
    (es : List LogEntry) : Replay :=
  match es with
  | [] => { st := s, acc := acc, pl := pl, fin := {}, whole := true }
  | e :: r =>
    let o := matOps e.cmd
    let sg := stagePlane s p e.loadw
    match sg.2.plane with
    | none => { st := sg.1, acc := acc, pl := pl, fin := metPoison }
    | some pl =>
      let f := flipCopy sg.1 p pl
      let path := (pathOf o.afmt o.wfmt).getD 0
      let acc := { acc with cols := pl.cols, path := path }
      let pr := runPass f.2 p f.1 o path acc idx out
      let a := assay pr.st n p f.1.copyErr pr.seen
      if a.fail.isNone && !pr.poison then replayPasses a.st n p idx out pr.acc (some pl) r
      else
        { st := a.st, acc := pr.acc, pl := some pl, whole := r.isEmpty,
          fin := { path := path, trouble := { poison := pr.poison, late := false, fail := a.fail.map fun v =>
            (if v.2 then v.1 else { v.1 with rows := v.1.rows.map fun i => idx.getD i 0 }, v.2) } } }

/-- Elements a log entry kept, as finished elements. -/
def keptRows (e : LogEntry) : List (List OutEl) := e.fin.map fun r => r.map fun x => { v := x.1, sat := x.2 }

/-- The final elements: those computed at make-up in their spans, the rest as the gated command finished them. -/
def mergeRows (comp : List (List Bool)) (idx : List Nat) (was now : List (List OutEl)) : List (List OutEl) :=
  was.mapIdx fun r xs =>
    let nr := now.getD (idx.idxOf r) []
    xs.mapIdx fun j x => if (comp.getD r []).getD (j / 8) false then nr.getD j x else x

/-- A piece of the final output that make-up writes: a span that was skipped, or an A8 block that held one. -/
def madeUpPiece (a8 : Bool) (skip : List (List Bool)) (x : OutPiece) : Bool :=
  let r := skip.getD x.row []
  if a8 then ((r.drop (x.col / 8)).take 4).any id else r.getD (x.col / 8) false

/-- What make-up writes of an accumulation (R213): the final elements, their output with the same output as it was, the pieces it writes, and the
tiles whose status words it rewrites (R168). -/
structure MadeUp where
  rows : List (List OutEl)
  out : Output
  old : Output
  mine : List OutPiece
  tiles : List TileStat

def madeUp (e : LogEntry) (skip comp : List (List Bool)) (idx : List Nat) (now : List (List OutEl)) : MadeUp :=
  let sp := matOut (matOps e.cmd) e.t
  let rows := mergeRows comp idx (keptRows e) now
  let out := makeOutput sp e.dropped e.banded rows
  let mine := out.pieces.filter (madeUpPiece ((matOps e.cmd).ofmt == 0) skip)
  { rows := rows, out := out, old := makeOutput sp e.dropped e.banded (markSkipped skip (keptRows e)), mine := mine,
    tiles := out.tiles.mapIdx fun q t => { t with skipped := tileHadSkip skip q, poison := linesInTile out.lines mine q } }

/-- The bytes that make-up writes, with the poison of their lines (R169). -/
def MadeUp.bytes (m : MadeUp) (e : LogEntry) : List Piece :=
  poisonLines m.out.lines (m.mine.flatMap fun x => x.pieces) ++ statusWords (matOut (matOps e.cmd) e.t) m.tiles

/-- The elements made up that saturated, and the tiles that came to hold NAN or INF (R172). -/
def MadeUp.sat (m : MadeUp) (skip : List (List Bool)) : Nat :=
  ((m.rows.mapIdx fun r xs => (xs.mapIdx fun j x => x.sat && (skip.getD r []).getD (j / 8) false).filter id).flatten).length

def MadeUp.fresh (m : MadeUp) : Nat :=
  ((List.zipWith (fun (a b : TileStat) => (a.nan || a.inf) && !(b.nan || b.inf)) m.out.tiles m.old.tiles).filter id).length

/-- R213: the finished accumulation written, counted and reported (R207, R214). -/
def writeMakeup (s : State) (n p job : Nat) (e : LogEntry) (skip comp : List (List Bool)) (m : MadeUp) : State :=
  let s := putPieces s p (m.bytes e)
  let s := sealReports s (n / 64) job (matOps e.cmd).tslot (m.mine.filterMap fun x => x.report)
  let s := drainCounts s p (m.sat skip) m.fresh
  modCore s n fun lc =>
    let g := lc.gln
    { lc with gln := { g with
        madeup := gcount g.madeup (countSpans comp m.rows fun _ => true),
        misses := gcount g.misses (countSpans skip m.rows (spanFails g.mu)),
        log := g.log.filter fun x => x.seq != e.seq } }

/-- R75, R169, R265: what the make-up of an accumulation has written and reported when it ends with a fault: its poisoned lines and the POISON of their
tiles, and of everything else each byte, block and tile or not. -/
def faultMakeup (s : State) (n p job : Nat) (e : LogEntry) (skip : List (List Bool)) (m : MadeUp) : State :=
  let s := putPieces (putPartial s p (m.bytes e)) p (poisonStatus (matOut (matOps e.cmd) e.t) m.tiles)
  let b := freeSome s (OutPiece.inLines m.out.lines) m.mine
  let s := sealReports b.1 (n / 64) job (matOps e.cmd).tslot (b.2.filterMap fun x => x.report)
  let f := takeFree s
  let g := takeFree f.2
  drainCounts g.2 p (Config.freeNat f.1 % (m.sat skip + 1)) (Config.freeNat g.1 % (m.fresh + 1))

/-- R169, R213, R290: the finishing part of an accumulation's make-up, once every pass has run: written, or, where the drain met poison or a pass did
not stand, ended as a matrix command ends. -/
def finishMakeup (n p job : Nat) (es : List LogEntry) (e : LogEntry) (skip comp : List (List Bool)) (idx : List Nat) (rp : Replay) (pl : Plane) :
    State × MakeEnd :=
  let f := finishAll rp.st p rp.acc.path (matOps e.cmd) pl rp.acc idx
  let m := madeUp e skip comp idx f.rows
  if rp.fin.ok && !f.poison then
    (modCore (writeMakeup f.st n p job e skip comp m) n fun lc => { lc with gln := { lc.gln with
      log := lc.gln.log.filter fun x => !(es.any fun y => y.seq == x.seq) } }, {})
  else
    let t := takeFree f.st
    let was := rp.fin.trouble
    (faultMakeup t.2 n p job e skip m,
      { path := rp.acc.path, trouble := { poison := was.poison || f.poison, late := !was.poison && Config.freeBool t.1, fail := was.fail } })

/-- R213: one accumulation made up. An accumulation with no span to compute is not replayed. -/
def makeUpAcc (s : State) (n p job : Nat) (es : List LogEntry) : State × MakeEnd :=
  match es.getLast? with
  | none => (s, {})
  | some e =>
    let o := matOps e.cmd
    let drop (s : State) : State := modCore s n fun lc => { lc with gln := { lc.gln with
      log := lc.gln.log.filter fun x => !(es.any fun y => y.seq == x.seq) } }
    match e.bitmap with
    | none => (drop s, {})
    | some b =>
      let skip := skippedSpans b o.ncols
      let comp := makeupSpans (o.ofmt == 0) skip
      let idx := (List.range o.rows).filter fun r => (comp.getD r []).any id
      if idx = [] then (drop s, {})
      else
        let out := idx.map fun r => (comp.getD r []).map not
        let acc : Acc := { rows := idx.length, path := 0, cols := 0, gate := true, passes := 0, banded := false,
                           dropped := false, bitmap := none, els := [] }
        let rp := replayPasses s n p idx out acc none es
        match rp.whole, rp.pl with
        | true, some pl => finishMakeup n p job es e skip comp idx rp pl
        | _, _ => (rp.st, rp.fin)

/-- R213: the log replayed accumulation by accumulation, up to the first fault. -/
def makeUpAll (s : State) (n p job : Nat) (l : List (List LogEntry)) : State × MakeEnd :=
  match l with
  | [] => (s, {})
  | es :: r =>
    let x := makeUpAcc s n p job es
    if x.2.ok then makeUpAll x.1 n p job r else x

/-- R213: a plane staged again from its latest LOADW. -/
def restagePlane (s : State) (n p i : Nat) : State × Bool :=
  match getPlane (getCore s n) i with
  | none => (s, true)
  | some pl =>
    let sg := stagePlane s p pl.loadw
    match sg.2.plane with
    | none => (sg.1, false)
    | some pl =>
      let f := flipCopy sg.1 p pl
      (modCore f.2 n fun lc => setPlane lc i (some f.1), true)

/-- What a GLN.FENCE owes in EXACT mode (R213): the log made up, and then the planes staged again. -/
def exactMakeUp (s : State) (n p job : Nat) : State × MakeEnd :=
  let x := makeUpAll s n p job (accumulations (getCore s n).gln.log []).1
  let f := takeFree x.1
  let s := modPos f.2 p fun ps => { ps with glnMadeupCyc := ps.glnMadeupCyc + BitVec.ofNat 32 (Config.freeNat f.1) }
  if !x.2.ok then (s, x.2) else
    let a := restagePlane s n p 0
    let b := if a.2 then restagePlane a.1 n p 1 else a
    (b.1, if b.2 then {} else metPoison)

/-! ## GLN.FENCE (R216, R218) -/

/-- R216: the record written to GBASE and the fence completed. -/
def finishFence (s : State) (n p : Nat) (c : InFlight) : State :=
  let s := modCore s n fun lc => { lc with gln := { lc.gln with pending := false } }
  let s := storeWrite s p (getCore s n).gln.gbase ((gleanRecord (getCore s n).gln).map fun b => (b, false))
  completeDone s (4 * n) c 0 []

/-- GLN.FENCE (R213, R216, R218, R290). -/
def runGlnFence (n : Core) (s : State) : State :=
  let k := 4 * n.val
  match headOp s k 0x29, corePos s n with
  | some c, some p =>
    let g := (getCore s n).gln
    if g.mode = 0 then completeDone s k c 0 []
    else if g.mode = 1 then
      let x := exactMakeUp s n p (hdrJob c.cmd)
      endMatrix x.1 k p c x.2.path true x.2.trouble fun s => finishFence s n p c
    else if g.mode = 3 then finishFence (runAdapt s n) n p c
    else finishFence s n p c
  | _, _ => s

def execGlnFence (n : Core) (s : State) : Host.Outcome State Fault Refusal := .next (runGlnFence n s)

end Sys2Proof.Machine
end

