-- ==== Sys2Proof/Machine/Mask.lean ====
section
/-! DEFINITION. Mask evolution (09): MASK.SCOUT on the Weaver; MASK.PRUNE, MASK.REGROW and MASK.REPAIR on the Fuller, with build_columns
(R223) and the mask report (R235). -/

namespace Sys2Proof.Machine

/-! ## MASK.SCOUT (R228, R229) -/

structure ScoutOps where
  wfmt : Nat
  pattern : Nat
  plog2 : Nat
  c0 : Nat
  nc : Nat
  phase : Nat
  pbase : Nat
  xbase : Nat
  xrow0 : Nat
  ybase : Nat
  yrow0 : Nat
  obase : Nat
  deriving DecidableEq, Repr

def scoutOps (c : BitVec 512) : ScoutOps :=
  { wfmt := fld c 24 0 4, pattern := fld c 24 4 4, plog2 := fld c 25 0 3, c0 := fld c 26 0 10, nc := fld c 28 0 10 + 1,
    phase := fld c 30 0 16, pbase := fld c 32 0 22, xbase := fld c 35 0 22, xrow0 := fld c 38 0 32, ybase := fld c 42 0 22,
    yrow0 := fld c 45 0 32, obase := fld c 49 0 22 }

/-- R224: a format, a pattern and a column range of whole N-groups within the panel. -/
def maskRangeOk (wfmt pattern c0 nc : Nat) : Bool :=
  (wfmt == 4 || wfmt == 5) && decide (1 ≤ pattern) && patternOk pattern && c0 % 16 == 0 && nc % 16 == 0
    && decide (c0 + nc ≤ panelCols wfmt)

/-- R229: the bytes the output may take. -/
def scoutSize (o : ScoutOps) : Nat :=
  let q := o.nc * (patternOf o.pattern).lk / 2 ^ o.plog2
  64 + align64 (4 * (o.nc + 1)) + align64 (2 * q) + align64 (4 * q)

/-- R228, R229: check 6 of MASK.SCOUT. -/
def scoutOk (c : BitVec 512) : Bool :=
  let o := scoutOps c
  let p := patternOf o.pattern
  maskRangeOk o.wfmt o.pattern o.c0 o.nc && decide (o.plog2 ≤ 6) && decide (2 ^ o.plog2 ≤ 256 / p.k)
    && headerOk o.pbase && headerOk o.xbase && headerOk o.ybase && o.obase % 64 == 0
    && inStore (o.pbase, panelSize o.wfmt p)
    && writesOk [(o.obase, scoutSize o)] [o.xbase, o.ybase]
    && !meets (o.obase, scoutSize o) (o.pbase, panelSize o.wfmt p)

/-- R228: the candidate rows of column `c`, ascending. -/
def scoutRows (o : ScoutOps) (h : PanelHeader) (kept : CheckedPanel) (c : Nat) : List Nat :=
  let p := patternOf o.pattern
  (List.range p.lk).filter fun r =>
    (r / p.m + c / p.m) % 2 ^ o.plog2 == o.phase % 2 ^ o.plog2 && decide (r < h.kext) && decide (c < h.next)
      && !((kept.rows.getD r []).any fun e => e.col == c)

/-- A candidate's value (R228): its streams' root value, how many matches, and its row. -/
structure Scouted where
  row : Nat
  value : Option W32
  found : Nat
  poison : Bool
  load : List Nat

/-- The candidates of a column. -/
def Reader.scoutCol (r : Reader) (o : ScoutOps) (armed : Bool) (c : Nat) (l : List Nat) : List Scouted × Bool × Reader :=
  match l with
  | [] => ([], armed, r)
  | row :: t =>
    let x := r.row o.xbase true (o.xrow0 + row)
    let y := x.2.row o.ybase true (o.yrow0 + c)
    let f := if armed then y.2.flipKeys [x.1] [y.1] else ([x.1], [y.1], y.2)
    let xs := f.1.headD {}
    let ys := f.2.1.headD {}
    let k := keyMatches xs.ents ys.ents
    let b := Reader.scoutCol f.2.2 o (armed && xs.ents.isEmpty && ys.ents.isEmpty) c t
    ({ row := row, value := treeRoot (keyProducts k), found := matchCount k, poison := xs.poison || ys.poison,
       load := laneLoad xs.ents ys.ents } :: b.1, b.2)

/-- The columns in turn. -/
def Reader.scoutCols (r : Reader) (o : ScoutOps) (h : PanelHeader) (kept : CheckedPanel) (armed : Bool) (l : List Nat) :
    List (List Scouted) × Reader :=
  match l with
  | [] => ([], r)
  | c :: t =>
    let a := r.scoutCol o armed c (scoutRows o h kept c)
    let b := a.2.2.scoutCols o h kept a.2.1 t
    (a.1 :: b.1, b.2)

/-- MASK.SCOUT computed: a candidate without a match is not written (R229). -/
def scoutRes (o : ScoutOps) (r : Reader) : WRes :=
  let pan := r.panel o.pbase o.wfmt (patternOf o.pattern)
  let h := panelHeader o.wfmt (patternOf o.pattern) pan.1
  let a := pan.2.2.2.scoutCols o h pan.2.1 true ((List.range o.nc).map fun i => o.c0 + i)
  let ents := a.1.map fun col => col.filterMap fun x => x.value.map fun v =>
    { i := x.row, v := v, poison := x.poison || pan.2.2.1 : LooseEl }
  let vals := ents.flatten.map (·.v)
  { rd := a.2, crowd := crowdOf (a.1.flatMap fun col => col.map (·.load)),
    pieces := spreadPoison <| loosePieces o.obase o.nc ((patternOf o.pattern).lk - 1) ents,
    found := (a.1.map fun col => (col.map (·.found)).sum).sum,
    flags := { nan := vals.any f32IsNan, inf := vals.any f32IsInf } }

/-- MASK.SCOUT (R189, R228, R229). -/
def runScout (n : Nat) (s : State) : State :=
  let k := 4 * n + 1
  match headOp s k 0x48, corePos s n with
  | some c, some p =>
    let o := scoutOps c.cmd
    endWeaver n k p c 255 (withOverlap s p [(o.obase, scoutSize o)] (scoutRes o))
  | _, _ => s

def execMaskScout (n : Core) (s : State) : Host.Outcome State Fault Refusal := .next (runScout n s)

/-! ## The VQ mask commands: operands (R224, R225) -/

structure MaskOps where
  wfmt : Nat
  pattern : Nat
  mcount : Nat
  mbf16 : Bool
  c0 : Nat
  nc : Nat
  pbase : Nat
  wbase : Nat
  xbase : Nat
  m0base : Nat
  m1base : Nat
  rbase : Nat
  newver : Nat
  step : Nat
  lim : Nat
  pthresh : W32
  sbase : Nat
  deriving DecidableEq, Repr

def maskOps (c : BitVec 512) : MaskOps :=
  { wfmt := fld c 24 0 4, pattern := fld c 24 4 4, mcount := fld c 25 0 2, mbf16 := fld c 25 2 1 == 1, c0 := fld c 26 0 10,
    nc := fld c 28 0 10 + 1, pbase := fld c 30 0 22, wbase := fld c 33 0 22, xbase := fld c 36 0 22, m0base := fld c 39 0 22,
    m1base := fld c 42 0 22, rbase := fld c 45 0 22, newver := fld c 48 0 32, step := fld c 52 0 32, lim := fld c 56 0 5,
    pthresh := BitVec.ofNat 32 (fld c 58 0 32), sbase := fld c 58 0 22 }

/-- The bytes of one moment element. -/
def MaskOps.mbytes (o : MaskOps) : Nat := if o.mbf16 then 2 else 4

/-- The bases of the moment planes in use. -/
def MaskOps.moments (o : MaskOps) : List Nat := [o.m0base, o.m1base].take o.mcount

/-- The regions of R225, the candidate header included for MASK.REGROW. -/
def maskRegions (o : MaskOps) (regrow : Bool) : List Range :=
  [(o.pbase, panelSize o.wfmt (patternOf o.pattern)), (o.wbase, 1024 * o.nc), (o.xbase, 512 * o.nc), (o.rbase, 64)]
    ++ (o.moments.map fun b => (b, 256 * o.mbytes * o.nc)) ++ (if regrow then [(o.sbase, 64)] else [])

/-- R224, R225: check 6 of MASK.PRUNE (0x68), MASK.REGROW (0x69) and MASK.REPAIR (0x6A). -/
def maskOk (op : Nat) (c : BitVec 512) : Bool :=
  let o := maskOps c
  let rs := maskRegions o (op == 0x69)
  maskRangeOk o.wfmt o.pattern o.c0 o.nc && decide (o.mcount ≤ 2) && (decide (1 ≤ o.mcount) || o.m0base == 0)
    && (decide (2 ≤ o.mcount) || o.m1base == 0) && (op == 0x6A || decide (o.lim ≤ (patternOf o.pattern).k))
    && (rs.all fun r => r.1 % 64 == 0) && rs.all inStore && !selfMeets rs

/-! ## Entries with their values (R221) -/

/-- An entry with its master and moments. -/
structure MEntry where
  row : Nat
  col : Nat
  code : Nat
  f : W32 := 0
  x : W16 := 0
  mo : List Nat := []
  deriving DecidableEq, Repr

/-- The counts of the mask report (R235). -/
structure MaskCounts where
  before : Nat := 0
  after : Nat := 0
  pruned : Nat := 0
  grown : Nat := 0
  candRead : Nat := 0
  candBad : Nat := 0
  candFull : Nat := 0
  candTwin : Nat := 0
  overfull : Nat := 0
  range : Nat := 0
  order : Nat := 0
  rankFixed : Nat := 0
  nanMaster : Nat := 0
  deriving DecidableEq, Repr

/-- The slot index of R221. -/
def slotIndex (o : MaskOps) (c s : Nat) : Nat := 256 * (c - o.c0) + s

/-- The moments of a slot. -/
def Reader.momentsAt (r : Reader) (o : MaskOps) (i : Nat) (l : List Nat) : List Nat × Reader :=
  match l with
  | [] => ([], r)
  | b :: t =>
    let a := r.num (b + o.mbytes * i) o.mbytes
    let d := a.2.2.momentsAt o i t
    (a.1 :: d.1, d.2)

/-- The values of kept entries, from their old slots. DESIGN CHOICE (log entry 191): those of an entry that the check removes are not read. -/
def Reader.values (r : Reader) (o : MaskOps) (l : List PanelEntry) : List MEntry × Reader :=
  match l with
  | [] => ([], r)
  | e :: t =>
    let i := slotIndex o e.col e.slot
    let f := r.num (o.wbase + 4 * i) 4
    let x := f.2.2.num (o.xbase + 2 * i) 2
    let m := x.2.2.momentsAt o i o.moments
    let d := m.2.values o t
    ({ row := e.row, col := e.col, code := e.code, f := BitVec.ofNat 32 f.1, x := BitVec.ofNat 16 x.1, mo := m.1 } :: d.1, d.2)

/-- The records of a column. -/
def Reader.colRec (r : Reader) (o : MaskOps) (c : Nat) : ColumnRec × Reader :=
  let p := patternOf o.pattern
  let a := r.num (o.pbase + countOff o.wfmt + countBytes p * c) (countBytes p)
  let b := a.2.2.num (o.pbase + codeOff o.wfmt p + 32 * codeBits o.wfmt * c) (32 * codeBits o.wfmt)
  let d := b.2.2.num (o.pbase + metaOff o.wfmt p + 32 * p.bits * c) (32 * p.bits)
  ({ counts := a.1, codes := b.1, metas := d.1 }, d.2.2)

/-- The records of several columns. -/
def Reader.colRecs (r : Reader) (o : MaskOps) (l : List Nat) : List (Nat × ColumnRec) × Reader :=
  match l with
  | [] => ([], r)
  | c :: t =>
    let a := r.colRec o c
    let b := a.2.colRecs o t
    ((c, a.1) :: b.1, b.2)

/-! ## Reading a unit (R226, R232, R238) -/

/-- R232: pass 2 of a repair for one row: kept entries, removals and ranks fixed. -/
def repairRow (p : Pattern) (h i : Nat) (l : List PanelEntry) : List PanelEntry × Nat × Nat :=
  match l with
  | [] => ([], 0, 0)
  | e :: r =>
    let i := if e.col / p.m = h then i else 0
    let t := repairRow p (e.col / p.m) (i + 1) r
    if p.k ≤ i then (t.1, t.2.1 + 1, t.2.2)
    else (e :: t.1, t.2.1, t.2.2 + (if e.warp = i then 0 else 1))

/-- The kept set of a unit of columns, with what its read removed: overfull, range, order, and ranks fixed. -/
def unitKept (repair : Bool) (wfmt : Nat) (p : Pattern) (h : PanelHeader) (cols : List (Nat × ColumnRec)) :
    List PanelEntry × Nat × Nat × Nat × Nat :=
  let cs := cols.map fun x => checkColumn wfmt p h x.2 x.1
  let rows := (byRow p.lk (cs.flatMap fun c => c.kept)).toList
  let rm := cs.flatMap fun c => c.removed
  let absent := (cs.map fun c => c.absent).sum
  if repair then
    let two := rows.map fun r => repairRow p 0 0 r
    (two.flatMap (·.1), dropCount .overfull rm + absent + (two.map (·.2.1)).sum, dropCount .range rm, 0, (two.map (·.2.2)).sum)
  else
    let two := rows.map fun r => checkRow p 0 0 r
    let rm := rm ++ two.flatMap (·.2)
    (two.flatMap (·.1), dropCount .overfull rm + absent, dropCount .range rm, dropCount .order rm, 0)

/-! ## build_columns (R223) -/

/-- The entries of a column in slot order: K-groups and rows ascending. -/
def columnSlots (ents : List MEntry) (lk c : Nat) : List MEntry :=
  let mine := ents.filter fun e => e.col == c
  (List.range lk).filterMap fun r => mine.find? fun e => e.row == r

/-- The warp rank of an entry: how many of its row's entries lie before it in its N-group. -/
def warpRank (ents : List MEntry) (m : Nat) (e : MEntry) : Nat :=
  (ents.filter fun x => x.row == e.row && decide (e.col / m * m ≤ x.col) && decide (x.col < e.col)).length

/-- Fields of `w` bits packed from bit 0. -/
def packFields (w : Nat) (l : List Nat) : Nat := l.foldr (fun v acc => v % 2 ^ w + 2 ^ w * acc) 0

/-- Elements of `n` bytes, padded with zeros to 256 slots. -/
def slotBytes (n : Nat) (l : List Nat) : List Byte := (l ++ List.replicate (256 - l.length) 0).flatMap fun v => leBytes n v

/-- One column rebuilt. -/
def buildColumn (o : MaskOps) (ents : List MEntry) (c : Nat) : List Piece :=
  let p := patternOf o.pattern
  let l := columnSlots ents p.lk c
  let counts := (List.range (256 / p.k)).map fun g => (l.filter fun e => e.row / p.m == g).length
  let metas := l.map fun e => e.row % p.m + p.m * warpRank ents p.m e
  let i := slotIndex o c 0
  [plainPiece (o.pbase + countOff o.wfmt + countBytes p * c) (leBytes (countBytes p) (packFields 4 counts)),
   plainPiece (o.pbase + codeOff o.wfmt p + 32 * codeBits o.wfmt * c)
     (leBytes (32 * codeBits o.wfmt) (packFields (codeBits o.wfmt) (l.map (·.code)))),
   plainPiece (o.pbase + metaOff o.wfmt p + 32 * p.bits * c) (leBytes (32 * p.bits) (packFields p.bits metas)),
   plainPiece (o.wbase + 4 * i) (slotBytes 4 (l.map fun e => e.f.toNat)),
   plainPiece (o.xbase + 2 * i) (slotBytes 2 (l.map fun e => e.x.toNat))]
  ++ o.moments.mapIdx fun j b => plainPiece (b + o.mbytes * i) (slotBytes o.mbytes (l.map fun e => e.mo.getD j 0))

/-! ## MASK.PRUNE (R227) -/

/-- The magnitude of an entry's master. -/
def MEntry.mag (e : MEntry) : Val := vAbs (x48Val e.f e.x)

/-- `e` put after every entry whose key is at least its own. -/
def insertDesc {α : Type} (key : α → Val) (e : α) (l : List α) : List α :=
  match l with
  | [] => [e]
  | x :: r => if vLt (key x) (key e) then e :: x :: r else x :: insertDesc key e r

/-- By magnitude descending; equals keep their order. -/
def sortDesc {α : Type} (key : α → Val) (l : List α) : List α := l.foldl (fun acc e => insertDesc key e acc) []

/-- R227: the threshold, +0 where it is absent. -/
def pruneThreshold (t : W32) : Val := if !f32IsNan t && vLt vZero (f32 t) then f32 t else vZero

/-- R227: what a K-group keeps. -/
def pruneGroup (keep : Nat) (thr : Val) (l : List MEntry) : List MEntry :=
  ((sortDesc MEntry.mag (l.filter fun e => !vIsNan e.mag)).take keep).filter fun e => !vLt e.mag thr

/-- R227: a unit pruned. -/
def pruneUnit (o : MaskOps) (cols : List Nat) (ents : List MEntry) (n : MaskCounts) : List MEntry × MaskCounts :=
  let p := patternOf o.pattern
  let kept := cols.flatMap fun c =>
    let mine := ents.filter fun e => e.col == c
    (List.range (256 / p.k)).flatMap fun g =>
      pruneGroup o.lim (pruneThreshold o.pthresh) (mine.filter fun e => e.row / p.m == g)
  (kept, { n with pruned := n.pruned + (ents.length - kept.length),
                  nanMaster := n.nanMaster + (ents.filter fun e => vIsNan e.mag).length })

/-! ## MASK.REGROW (R230, R231) -/

/-- A candidate. -/
structure Cand where
  row : Nat
  col : Nat
  v : W32
  deriving DecidableEq, Repr

def Cand.mag (c : Cand) : Val := vAbs (f32 c.v)

/-- R230. -/
def candBad (h : PanelHeader) (ents : List MEntry) (c : Cand) : Bool :=
  f32IsNan c.v || vIsZero (f32 c.v) || decide (h.kext ≤ c.row) || decide (h.next ≤ c.col)
    || ents.any fun e => e.row == c.row && e.col == c.col

/-- The lowest-ranked of a row's candidates: lowest magnitude, and the higher column among equals; `l` is by column. -/
def lowest (l : List Cand) : Option Cand :=
  l.foldl (fun b c => match b with
    | none => some c
    | some x => if vLe c.mag x.mag then some c else some x) none

/-- R231: at most `n` candidates of a row and N-group removed until `room` remain. -/
def twinTrim (n room : Nat) (l : List Cand) : List Cand :=
  match n with
  | 0 => l
  | n + 1 =>
    if l.length ≤ room then l
    else match lowest l with
      | none => l
      | some x => twinTrim n room (l.erase x)

/-- R231: a unit regrown; `cands` gives the candidates of each column. -/
def regrowUnit (o : MaskOps) (h : PanelHeader) (cols : List Nat) (cands : List Cand) (ents : List MEntry) (n : MaskCounts) :
    List MEntry × MaskCounts :=
  let p := patternOf o.pattern
  let good := cands.filter fun c => !candBad h ents c
  let tent := cols.flatMap fun c =>
    let mine := good.filter fun x => x.col == c
    (List.range (256 / p.k)).flatMap fun g =>
      let here := (ents.filter fun e => e.col == c && e.row / p.m == g).length
      (sortDesc Cand.mag (mine.filter fun x => x.row / p.m == g)).take (min o.lim (p.k - here))
  let groups := (cols.map fun c => c / p.m).eraseDups
  let final := (List.range p.lk).flatMap fun r => groups.flatMap fun hh =>
    let l := tent.filter fun x => x.row == r && x.col / p.m == hh
    twinTrim l.length (p.k - (ents.filter fun e => e.row == r && e.col / p.m == hh).length) l
  let new := final.map fun x =>
    let neg := vLt (f32 x.v) vZero
    { row := x.row, col := x.col, code := if o.wfmt = 4 then (if neg then 1 else 0) else (if neg then 2 else 1),
      mo := o.moments.map fun _ => 0 : MEntry }
  (ents ++ new, { n with
    candRead := n.candRead + cands.length, candBad := n.candBad + (cands.length - good.length),
    candFull := n.candFull + (good.length - tent.length), candTwin := n.candTwin + (tent.length - final.length),
    grown := n.grown + final.length })

/-! ## A command's run (R235 to R238) -/

/-- The units of 16 columns of a range. -/
def maskUnits (o : MaskOps) : List (List Nat) := chunksOf 16 ((List.range o.nc).map fun i => o.c0 + i)

/-- What the run has come to; `stopped` where a read met poison. -/
structure MaskRun where
  rd : Reader
  n : MaskCounts
  pieces : List Piece
  stopped : Bool
  nnz : Nat := 0

/-- R238, R261, log entry 154: an armed FUL_FLIP acts on the working state of a unit, in the first master that it reads. Answers the entries, and
whether the error is uncorrectable. -/
def flipWorking (s : State) (p : Nat) (l : List MEntry) : List MEntry × Bool × State :=
  let f := (getPos s p).fulFlip
  match l with
  | [] => ([], false, s)
  | e :: t =>
    if !f.arm then (l, false, s) else
      let n := takeFree (modPos s p fun ps => { ps with fulFlip := { f with arm := false } })
      let free : W32 := (Config.freeBits n.1).setWidth 32
      match eccOutcome f.bits (Config.freeNat n.1) with
      | .clean => ({ e with f := e.f ^^^ BitVec.ofNat 32 f.data } :: t, false, n.2)
      | .corrected =>
        (if f.bits = 1 then l else { e with f := free } :: t, false,
          raiseQuiet (modPos n.2 p fun ps => { ps with fulEcc := ps.fulEcc.addCe }) (p / 72) 20)
      | .uncorrectable => (l, true, raiseEngineUe (modPos n.2 p fun ps => { ps with fulEcc := ps.fulEcc.addUe }) p)

/-- R238: column `c` rebuilt from working state in which the master of `e` is poisoned: that master, and after a prune, which weighed it, the columns of
its N-group. -/
def taintColumn (op : Nat) (o : MaskOps) (ents : List MEntry) (e : MEntry) (c : Nat) : List Piece :=
  let p := patternOf o.pattern
  let ps := buildColumn o ents c
  let at' := o.wbase + 4 * (slotIndex o c 0 + (columnSlots ents p.lk c).findIdx fun x => x.row == e.row)
  if op = 0x68 ∧ c / p.m = e.col / p.m then ps.map fun x => (x.1, x.2.map fun b => (b.1, true))
  else if c = e.col then
    ps.map fun x => (x.1, x.2.mapIdx fun i b => (b.1, b.2 || (decide (at' ≤ x.1 + i) && decide (x.1 + i < at' + 4))))
  else ps

/-- One unit: read, changed and rebuilt, or the command stops before it, or, with an uncorrectable error in its working state, in the middle of it
(R238). -/
def maskUnit (op : Nat) (o : MaskOps) (h : PanelHeader) (cands : List Cand) (m : MaskRun) (cols : List Nat) : MaskRun :=
  if m.stopped then m else
    let p := patternOf o.pattern
    let recs := m.rd.colRecs o cols
    let k := unitKept (op == 0x6A) o.wfmt p h recs.1
    let v := recs.2.values o k.1
    if v.2.poison then { m with rd := v.2, stopped := true }
    else
      let w := flipWorking v.2.st v.2.p v.1
      let n := { m.n with before := m.n.before + v.1.length, overfull := m.n.overfull + k.2.1, range := m.n.range + k.2.2.1,
                          order := m.n.order + k.2.2.2.1, rankFixed := m.n.rankFixed + k.2.2.2.2 }
      let r := if op = 0x68 then pruneUnit o cols w.1 n
        else if op = 0x69 then regrowUnit o h cols (cands.filter fun c => cols.contains c.col) w.1 n
        else (w.1, n)
      let ps := match w.2.1, v.1 with
        | true, e :: _ => spreadPoison (cols.flatMap fun c => taintColumn op o r.1 e c)
        | _, _ => cols.flatMap fun c => buildColumn o r.1 c
      { m with
        rd := { v.2 with st := if w.2.1 then putFree w.2.2 v.2.p ps else putPieces w.2.2 v.2.p ps }, pieces := m.pieces ++ ps,
        n := { r.2 with after := r.2.after + r.1.length }, stopped := w.2.1 }

/-- R230: the candidate rows read; from the first poisoned row on, the columns are not reached. -/
def readCands (o : MaskOps) (r : Reader) (l : List Nat) : List Cand × Option Nat × Reader :=
  match l with
  | [] => ([], none, r)
  | c :: t =>
    let a := r.row o.sbase true (c - o.c0)
    if a.1.poison then ([], some c, a.2)
    else
      let b := readCands o a.2 t
      ((a.1.ents.map fun e => { row := e.i, col := c, v := toF32 e.v }) ++ b.1, b.2)

/-- R235: the mask report. DESIGN CHOICE (log entry 190): an entry that a count claims and no slot holds is one that the read removed. -/
def maskReport (o : MaskOps) (n : MaskCounts) (versionIn : Nat) (cand : Nat × Nat) : List Byte :=
  let changed := decide (0 < n.overfull + n.range + n.order + n.pruned + n.grown)
  ([n.before, n.after, n.pruned, n.grown, n.candRead, n.candBad, n.candFull, n.candTwin, n.overfull, n.range + cand.1,
    n.order + cand.2, n.rankFixed, n.nanMaster, versionIn, o.newver].flatMap fun v => leBytes 4 (min v (2 ^ 32 - 1)))
  ++ [BitVec.ofNat 8 (boolNat changed), 0, 0, 0]

/-- R223: the header written after the last column. -/
def maskHeader (o : MaskOps) (old : List Byte) : List Byte :=
  leBytes 4 o.newver ++ leBytes 4 o.step ++ sliceD 0 old 8 4 ++ [BitVec.ofNat 8 (o.wfmt + 16 * o.pattern)]
    ++ List.replicate 51 0

/-- The candidates of MASK.REGROW; none for the other commands. -/
def maskCands (op : Nat) (o : MaskOps) (r : Reader) : List Cand × Option Nat × Reader :=
  if op = 0x69 then readCands o r ((List.range o.nc).map fun i => o.c0 + i) else ([], none, r)

/-- R237: the cycles of a VQ mask command. -/
def maskCycles (o : MaskOps) (nnz : Nat) : Nat :=
  let p := patternOf o.pattern
  let bytes := countBytes p + 32 * codeBits o.wfmt + 32 * p.bits + 256 * (6 + o.mbytes * o.moments.length)
  24 + o.nc * max 16 ((2 * bytes + 4095) / 4096) + (nnz + 63) / 64

/-- The NNZ of the candidate block, as read. -/
def candNnz (r : Reader) : Nat := (r.blocks.head?.map (·.nnz)).getD 0

/-- A VQ mask command computed, with `cand` as its candidates. -/
def maskRes (op p : Nat) (o : MaskOps) (s : State) (cand : List Cand × Option Nat × Reader) : MaskRun :=
  let hd := Reader.bytes { st := s, p := p } o.pbase 64
  let old := hd.1.map (·.1)
  let h := panelHeader o.wfmt (patternOf o.pattern) old.toArray
  -- a poisoned candidate row stops the command before the unit that needs it
  let units := match cand.2.1 with
    | none => maskUnits o
    | some c => (maskUnits o).filter fun u => u.all fun x => decide (x / 16 < c / 16)
  let m := units.foldl (maskUnit op o h cand.1) { rd := hd.2, n := {}, pieces := [], stopped := hd.2.poison }
  let m := { m with stopped := m.stopped || cand.2.1.isSome }
  if m.stopped then m else
    let ps := [plainPiece o.pbase (maskHeader o old),
      plainPiece o.rbase (maskReport o m.n (leNat (old.take 4)) (cand.2.2.range, cand.2.2.order))]
    { m with rd := { m.rd with st := putPieces m.rd.st p ps }, pieces := m.pieces ++ ps, nnz := candNnz cand.2.2,
             n := { m.n with range := m.n.range + cand.2.2.range, order := m.n.order + cand.2.2.order } }

/-- A VQ mask command run; where its writes lie over the candidate block, R192 gives the candidates. -/
def maskRun (op p : Nat) (o : MaskOps) (s : State) : MaskRun :=
  let run (r : Reader) : (List Cand × Option Nat × Reader) × MaskRun :=
    let c := maskCands op o r
    (c, maskRes op p o c.2.2.st c)
  let plain := run { st := s, p := p }
  let r := run { st := s, p := p, avoid := maskRegions o false, tainted := plain.2.stopped }
  if r.1.2.2.bornOut r.2.pieces then r.2 else plain.2

/-- MASK.PRUNE, MASK.REGROW and MASK.REPAIR (R226 to R238). -/
def runMask (op n : Nat) (s : State) : State :=
  let k := 4 * n + 2
  match headOp s k op, corePos s n with
  | some c, some p =>
    let m := maskRun op p (maskOps c.cmd) s
    if m.stopped then endPoison (freeBusy m.rd.st p) k c
    else completeDone (addBusy m.rd.st p (maskCycles (maskOps c.cmd) m.nnz)) k c
      ({ metaDrop := decide (0 < m.n.overfull + m.n.range + m.n.order) : RecFlags }).toNat []
  | _, _ => s

def execMaskPrune (n : Core) (s : State) : Host.Outcome State Fault Refusal := .next (runMask 0x68 n s)
def execMaskRegrow (n : Core) (s : State) : Host.Outcome State Fault Refusal := .next (runMask 0x69 n s)
def execMaskRepair (n : Core) (s : State) : Host.Outcome State Fault Refusal := .next (runMask 0x6A n s)

end Sys2Proof.Machine
end

