-- ==== Sys2Proof/Machine/Optimiser.lean ====
section
/-! DEFINITION. The optimiser commands of the Fuller (10): FUL.ADAM and FUL.SGDM (R256 to R260). -/

namespace Sys2Proof.Machine

/-! ## Operands (R256) -/

structure OptOps where
  panel : Bool
  mbf16 : Bool
  gfmt : Nat
  wfmt : Nat
  pattern : Nat
  c0 : Nat
  nc : Nat
  n : Nat
  tg : Int
  wbase : Nat
  xbase : Nat
  m0base : Nat
  m1base : Nat
  gbase : Nat
  pbase : Nat
  hbase : Nat
  rbase : Nat
  deriving DecidableEq, Repr

def optOps (c : BitVec 512) : OptOps :=
  let panel := fld c 24 0 1 == 1
  let nc := fld c 28 10 10 + 1
  { panel := panel, mbf16 := fld c 24 1 1 == 1, gfmt := fld c 25 0 4, wfmt := fld c 26 0 4, pattern := fld c 26 4 4,
    c0 := if panel then fld c 28 0 10 else 0, nc := if panel then nc else 0,
    n := if panel then 256 * nc else fld c 28 0 20 + 1, tg := sfld c 31, wbase := fld c 32 0 22, xbase := fld c 35 0 22,
    m0base := fld c 38 0 22, m1base := fld c 41 0 22, gbase := fld c 44 0 22, pbase := fld c 47 0 22, hbase := fld c 50 0 22,
    rbase := fld c 53 0 22 }

/-- The bytes of one moment element. -/
def OptOps.mbytes (o : OptOps) : Nat := if o.mbf16 then 2 else 4

/-- The bytes of the gradient: of A8 a last tile that is not full still takes 1,056 (R89). -/
def gradSize (o : OptOps) : Nat :=
  if o.gfmt = 3 then 4 * o.n
  else if o.panel then 264 * o.nc
  else 1056 * ((o.n + 1023) / 1024)

/-- The regions of R256. -/
def optRegions (adam : Bool) (o : OptOps) : List Range :=
  [(o.wbase, 4 * o.n), (o.xbase, 2 * o.n), (o.m0base, o.mbytes * o.n)] ++ (if adam then [(o.m1base, o.mbytes * o.n)] else [])
    ++ [(o.gbase, gradSize o), (o.hbase, 64), (o.rbase, 64)]
    ++ (if o.panel then [(o.pbase, panelSize o.wfmt (patternOf o.pattern))] else [])

/-- R256: check 6 of FUL.ADAM and FUL.SGDM. -/
def optOk (adam : Bool) (c : BitVec 512) : Bool :=
  let o := optOps c
  let rs := optRegions adam o
  (o.gfmt == 0 || o.gfmt == 3) && scaleOk o.tg && (o.gfmt == 0 || o.tg == 0) && (adam || o.m1base == 0)
    && (if o.panel then (o.wfmt == 4 || o.wfmt == 5) && patternOk o.pattern && decide (o.c0 + o.nc ≤ panelCols o.wfmt)
        else o.wfmt == 0 && o.pattern == 0 && o.pbase == 0)
    && ([o.wbase, o.xbase, o.m0base, o.m1base, o.pbase, o.hbase, o.rbase].all fun b => b % 64 == 0)
    && o.gbase % (if o.gfmt = 0 ∧ !o.panel then 32 else 64) == 0 && rs.all inStore && !selfMeets rs

/-! ## One element (R257) -/

/-- The eight hyperparameters. -/
structure Hyper where
  lr : W32
  beta1 : W32
  beta2 : W32
  eps : W32
  wd : W32
  bc1 : W32
  bc2 : W32
  gscale : W32
  deriving DecidableEq, Repr

def hyperOf (l : List Byte) : Hyper :=
  let f (i : Nat) : W32 := BitVec.ofNat 32 (leNat (sliceD 0 l (4 * i) 4))
  { lr := f 0, beta1 := f 1, beta2 := f 2, eps := f 3, wd := f 4, bc1 := f 5, bc2 := f 6, gscale := f 7 }

/-- w − lr × (u + wd × w), one rne48. -/
def stepMaster (h : Hyper) (w u : Val) : W32 × W16 :=
  toX48 (vSub w (vMul (f32 h.lr) (vAdd u (vMul (f32 h.wd) w))))

/-- R257: adam; the new master and moments. -/
def adam (h : Hyper) (w : Val) (m v g0 : W32) : (W32 × W16) × W32 × W32 :=
  let g := f32Mul g0 h.gscale
  let m2 := toF32 (vAdd (vMul (f32 h.beta1) (f32 m)) (vMul (f32 (f32Sub f32One h.beta1)) (f32 g)))
  let v2 := toF32 (vAdd (vMul (f32 h.beta2) (f32 v)) (vMul (vMul (f32 (f32Sub f32One h.beta2)) (f32 g)) (f32 g)))
  let den := f32Add (f32Sqrt (f32Mul v2 h.bc2)) h.eps
  let u := f32Div (f32Mul m2 h.bc1) den
  (stepMaster h w (f32 u), m2, v2)

/-- R257: sgdm. -/
def sgdm (h : Hyper) (w : Val) (m g0 : W32) : (W32 × W16) × W32 :=
  let g := f32Mul g0 h.gscale
  let m2 := toF32 (vAdd (vMul (f32 h.beta1) (f32 m)) (f32 g))
  (stepMaster h w (f32 m2), m2)

/-- R258: the code that a master gives under a column scale; none where it is unchanged. -/
def derivedCode (wfmt : Nat) (w : Val) (scale : W32) : Option Nat :=
  let σ := f32 scale
  if vIsNan w || vIsZero w || vIsNan σ || vIsInf σ || vIsZero σ then none
  else
    let neg := vSign w != vSign σ
    let big := vLe (vAbs σ) (vAbs w)
    some (if wfmt = 4 then (if neg then 0 else 1) else if neg then (if big then 0 else 1) else (if big then 3 else 2))

/-! ## The run -/

/-- The report's counts (R259) with the bytes written so far. -/
structure OptRun where
  rd : Reader
  pieces : List Piece := []
  updated : Nat := 0
  nans : Nat := 0
  infs : Nat := 0
  codes : Nat := 0
  firstNan : Option Nat := none

/-- The gradient element `i` as FP32. -/
def Reader.grad (r : Reader) (o : OptOps) (i : Nat) : W32 × Reader :=
  if o.gfmt = 3 then
    let a := r.num (o.gbase + 4 * i) 4
    (BitVec.ofNat 32 a.1, a.2.2)
  else
    let at' := if o.panel then (o.gbase + i, o.gbase + 256 * o.nc + i / 32)
      else (o.gbase + 1056 * (i / 1024) + i % 1024, o.gbase + 1056 * (i / 1024) + 1024 + i % 1024 / 32)
    let a := r.num at'.1 1
    let b := a.2.2.num at'.2 1
    (a8ToF32 (BitVec.ofNat 8 a.1) (BitVec.ofNat 8 b.1) o.tg, b.2.2)

/-- A stored moment as FP32, and FP32 as stored. -/
def momentVal (bf : Bool) (b : Nat) : W32 := if bf then bf16ToF32 (BitVec.ofNat 16 b) else BitVec.ofNat 32 b
def momentBits (bf : Bool) (v : W32) : Nat := if bf then (f32ToBf16 v).toNat else v.toNat

/-- The code of slot `s` of column `c` rewritten (R258). -/
def optCode (o : OptOps) (scale : W32) (c s : Nat) (w : Val) (m : OptRun) : OptRun :=
  let b := codeBits o.wfmt
  let off := o.pbase + codeOff o.wfmt (patternOf o.pattern) + 32 * b * c + b * s / 8
  let a := m.rd.num off 1
  let old := bitsOf a.1 (b * s % 8) b
  match derivedCode o.wfmt w scale with
  | none => { m with rd := a.2.2 }
  | some v =>
    if v = old then { m with rd := a.2.2 }
    else
      let ps := [plainPiece off [BitVec.ofNat 8 (setBits a.1 (b * s % 8) b v)]]
      { m with rd := { a.2.2 with st := putPieces a.2.2.st a.2.2.p ps }, pieces := m.pieces ++ ps, codes := m.codes + 1 }

/-- Element `i` updated; with PANEL its slot's code follows. Nothing more happens once poison was read. -/
def optElement (isAdam : Bool) (o : OptOps) (h : Hyper) (scale : W32) (m : OptRun) (i : Nat) : OptRun :=
  if m.rd.poison then m else
    let w := m.rd.num (o.wbase + 4 * i) 4
    let x := w.2.2.num (o.xbase + 2 * i) 2
    let m0 := x.2.2.num (o.m0base + o.mbytes * i) o.mbytes
    let m1 := if isAdam then m0.2.2.num (o.m1base + o.mbytes * i) o.mbytes else (0, false, m0.2.2)
    let g := m1.2.2.grad o i
    if g.2.poison then { m with rd := g.2 } else
      let wv := x48Val (BitVec.ofNat 32 w.1) (BitVec.ofNat 16 x.1)
      let a := if isAdam then adam h wv (momentVal o.mbf16 m0.1) (momentVal o.mbf16 m1.1) g.1
        else
          let y := sgdm h wv (momentVal o.mbf16 m0.1) g.1
          (y.1, y.2, 0)
      let b0 := momentBits o.mbf16 a.2.1
      let b1 := momentBits o.mbf16 a.2.2
      let ps := [plainPiece (o.wbase + 4 * i) (leBytes 4 a.1.1.toNat), plainPiece (o.xbase + 2 * i) (leBytes 2 a.1.2.toNat),
        plainPiece (o.m0base + o.mbytes * i) (leBytes o.mbytes b0)]
        ++ (if isAdam then [plainPiece (o.m1base + o.mbytes * i) (leBytes o.mbytes b1)] else [])
      let out := [a.1.1, momentVal o.mbf16 b0] ++ (if isAdam then [momentVal o.mbf16 b1] else [])
      let nan := out.any f32IsNan
      let m := { m with
        rd := { g.2 with st := putPieces g.2.st g.2.p ps }, pieces := m.pieces ++ ps, updated := m.updated + 1,
        nans := m.nans + boolNat nan, infs := m.infs + boolNat (out.any f32IsInf),
        firstNan := m.firstNan <|> (if nan then some i else none) }
      if o.panel then optCode o scale (o.c0 + i / 256) (i % 256) (x48Val a.1.1 a.1.2) m else m

/-- R257: one column of a panel shard: its scale, and the slots below the sum of its counts. -/
def optColumn (isAdam : Bool) (o : OptOps) (h : Hyper) (m : OptRun) (i : Nat) : OptRun :=
  if m.rd.poison then m else
    let p := patternOf o.pattern
    let c := o.c0 + i
    let sc := m.rd.num (o.pbase + 64 + 4 * c) 4
    let cr := sc.2.2.num (o.pbase + countOff o.wfmt + countBytes p * c) (countBytes p)
    let slots := if p.dense then 256 else
      min 256 ((List.range (256 / p.k)).map fun g => bitsOf cr.1 (4 * g) 4).sum
    if cr.2.2.poison then { m with rd := cr.2.2 } else
      ((List.range slots).map fun s => 256 * i + s).foldl (optElement isAdam o h (BitVec.ofNat 32 sc.1)) { m with rd := cr.2.2 }

/-- The shard's elements in ascending order. DEDUCED (log entry 192): the whole hyperparameter block is read. -/
def optRun (isAdam : Bool) (o : OptOps) (s : State) (p : Nat) : OptRun :=
  let hb := Reader.bytes { st := s, p := p } o.hbase 64
  let h := hyperOf (hb.1.map (·.1))
  if o.panel then (List.range o.nc).foldl (optColumn isAdam o h) { rd := hb.2 }
  else (List.range o.n).foldl (optElement isAdam o h 0) { rd := hb.2 }

/-- R259: the optimiser report. -/
def optReport (m : OptRun) : List Byte :=
  let sat (n : Nat) : Nat := min n (2 ^ 32 - 1)
  ([sat m.updated, sat m.nans, sat m.infs, sat m.codes, m.firstNan.getD (2 ^ 32 - 1)].flatMap fun v => leBytes 4 v)
    ++ List.replicate 44 0

/-- R260: 24 + max(ceil(n / 16), ceil(bytes / 4,096)); the first is never the smaller, since an element moves at most 33 bytes. -/
def optCycles (n : Nat) : Nat := 24 + (n + 15) / 16

/-- FUL.ADAM (0x62) and FUL.SGDM (0x63). -/
def runOpt (op n : Nat) (s : State) : State :=
  let k := 4 * n + 2
  match headOp s k op, corePos s n with
  | some c, some p =>
    let o := optOps c.cmd
    let m := optRun (op == 0x62) o s p
    if m.rd.poison then endPoison (rollback (getPos s p) (freeBusy m.rd.st p) p m.pieces) k c
    else
      let s := putPieces m.rd.st p [plainPiece o.rbase (optReport m)]
      completeDone (addBusy s p (optCycles o.n)) k c
        ({ nan := decide (0 < m.nans), inf := decide (0 < m.infs) : RecFlags }).toNat []
  | _, _ => s

def execFulAdam (n : Core) (s : State) : Host.Outcome State Fault Refusal := .next (runOpt 0x62 n s)
def execFulSgdm (n : Core) (s : State) : Host.Outcome State Fault Refusal := .next (runOpt 0x63 n s)

end Sys2Proof.Machine
end

