-- ==== Sys2Proof/Machine/Fetch.lean ====
section
/-! DEFINITION. COMMAND_FETCH (R47, R52, R53, R73, R74): the fetch of a command and its checks in order, with what the MQ tracks at
check time (R136, R196, R200). -/

namespace Sys2Proof.Machine

/-! ## Check 1: reserved bits (R50, R51, R537) -/

/-- A field by its byte, first bit and width is not zero. -/
def anySet (c : BitVec 512) (l : List (Nat × Nat × Nat)) : Bool := l.any fun x => fld c x.1 x.2.1 x.2.2 != 0

/-- R50: the reserved bits of the header. -/
def headerReserved : List (Nat × Nat × Nat) := [(1, 3, 5), (2, 4, 4), (3, 3, 5), (4, 13, 3), (6, 13, 3), (20, 0, 32)]

/-- R51: the fields that WAIT 0 and SIGNAL 0 make reserved. -/
def waitReserved (c : BitVec 512) : List (Nat × Nat × Nat) :=
  (if hdrWait c then [] else [(4, 0, 16), (8, 0, 64)]) ++ (if hdrSignal c then [] else [(6, 0, 16), (16, 0, 32)])

/-- Bits [23:22] of 3-byte store offsets (R130, R182, R224). -/
def offsetReserved (l : List Nat) : List (Nat × Nat × Nat) := l.map fun i => (i, 22, 2)

/-- R130: the panel slots of a LOOM.LOADW that GCOUNT leaves unused. -/
def panelReserved (c : BitVec 512) : List (Nat × Nat × Nat) :=
  (List.range 8).map fun j => if j < fld c 26 0 4 then (28 + 3 * j, 22, 2) else (28 + 3 * j, 0, 24)

/-- The bits of bytes 24 to 63 that an opcode's operand layout leaves reserved (R58, R130, R135, R158, R182 to R187, R199, R205, R216,
R224, R227, R240 to R256, R305, R391). Bits [15:12] of bytes 52 and 53 of a Drover command, to which R391 gives no field and which it does not name
reserved, are ignored (log entry 149). -/
def operandReserved (op : Nat) (c : BitVec 512) : List (Nat × Nat × Nat) :=
  if op ∈ [0x00, 0x01, 0x02, 0x29] then [(24, 0, 320)]
  else if op = 0x04 ∨ op = 0x05 then [(24, 2, 6), (25, 0, 312)]
  else if op = 0x06 then [(28, 0, 288)]
  else if op = 0x10 then [(25, 5, 3), (26, 4, 4), (27, 0, 8), (52, 0, 96)] ++ panelReserved c
  else if op = 0x11 ∨ op = 0x12 then
    [(25, 6, 2), (28, 13, 3), (30, 10, 6), (47, 3, 5), (48, 10, 6), (51, 5, 3), (63, 0, 8)]
      ++ offsetReserved [34, 37, 40, 43, 54, 57, 60]
  else if op = 0x20 then [(24, 1, 7), (25, 7, 1), (29, 0, 280)] ++ offsetReserved [26]
  else if op = 0x21 then [(24, 5, 3), (26, 13, 3), (28, 10, 6), (31, 0, 8), (44, 0, 160)] ++ offsetReserved [32, 35, 38, 41]
  else if op = 0x28 then [(24, 2, 6), (25, 4, 4), (34, 0, 240)] ++ offsetReserved [26, 29]
  else if op = 0x40 then [(24, 1, 7), (26, 4, 4), (29, 5, 3), (30, 10, 6), (52, 0, 96)] ++ offsetReserved [40, 43, 46, 49]
  else if op = 0x41 then
    [(24, 5, 3), (25, 4, 4), (28, 10, 6), (31, 5, 3), (54, 0, 80)] ++ offsetReserved [36, 39, 42, 45, 48, 51]
  else if op = 0x42 then [(24, 4, 4), (26, 12, 4), (30, 10, 6), (53, 0, 88)] ++ offsetReserved [32, 35, 38, 41, 44, 47, 50]
  else if op = 0x48 then [(25, 3, 5), (26, 10, 6), (28, 10, 6), (52, 0, 96)] ++ offsetReserved [32, 35, 42, 49]
  else if op = 0x60 then [(28, 10, 6), (59, 1, 7), (60, 0, 32)] ++ offsetReserved [24, 32, 35, 38, 41, 44, 47, 50, 53, 56]
  else if op = 0x61 then [(25, 2, 6), (28, 12, 4), (33, 0, 8), (56, 0, 64)] ++ offsetReserved [38, 41, 44, 47, 50, 53]
  else if op = 0x62 ∨ op = 0x63 then
    [(24, 2, 6), (25, 4, 4), (27, 0, 8), (28, 20, 4), (56, 0, 64)] ++ offsetReserved [32, 35, 38, 41, 44, 47, 50, 53]
  else if op = 0x68 ∨ op = 0x69 ∨ op = 0x6A then
    [(25, 3, 5), (26, 10, 6), (28, 10, 6)] ++ offsetReserved [30, 33, 36, 39, 42, 45]
      ++ (if op = 0x68 then [(56, 5, 3), (57, 0, 8), (62, 0, 16)]
          else if op = 0x69 then [(56, 5, 3), (57, 0, 8), (58, 22, 2), (61, 0, 24)] else [(56, 0, 64)])
  else if op = 0xA0 ∨ op = 0xA1 ∨ op = 0xA2 then [(30, 15, 1), (40, 0, 192)]
  else if op = 0xC0 ∨ op = 0xC1 ∨ op = 0xC2 ∨ op = 0xC3 then
    [(24, 5, 3), (26, 2, 6), (48, 12, 4), (50, 13, 3), (62, 0, 16)]
  else []

/-- R52, check 1. -/
def reservedOk (c : BitVec 512) : Bool :=
  !anySet c (headerReserved ++ waitReserved c ++ operandReserved (opcodeOf c) c)

/-! ## Checks 2 to 5 (R52, R58) -/

/-- R58: a control opcode. -/
def isControl (op : Nat) : Bool := op ∈ [0x00, 0x01, 0x02, 0x04, 0x05, 0x06]

/-- R58: a Carter opcode. -/
def isCarter (op : Nat) : Bool := op ∈ [0xA0, 0xA1, 0xA2]

/-- R58: the opcodes of a queue kind, by its queue index; 4 is CQ. -/
def kindOpcodes (kind : Nat) : List Nat :=
  [[0x10, 0x11, 0x12, 0x20, 0x21, 0x28, 0x29], [0x40, 0x41, 0x42, 0x48], [0x60, 0x61, 0x62, 0x63, 0x68, 0x69, 0x6A],
   [0xA0, 0xA1, 0xA2], [0xC0, 0xC1, 0xC2, 0xC3]].getD kind []

/-- R52, check 2: the opcode is listed for a queue kind. -/
def opcodeListed (kind op : Nat) : Bool := (isControl op && (op != 0x06 || kind != 4)) || (kindOpcodes kind).contains op

/-- R52, check 4. -/
def semsOwned (s : State) (c : BitVec 512) : Bool :=
  let j := BitVec.ofNat 4 (hdrJob c)
  (!hdrWait c || ownsSem s j (hdrWsem c)) && (!hdrSignal c || ownsSem s j (hdrSsem c))

/-- R52, check 5, with the classes of R137, R182, R199, R200, R205, R216, R225, R240, R305 and R392. -/
def classOk (op cc : Nat) : Bool :=
  if isControl op then cc == 0 else if op = 0x20 ∨ op = 0x28 then true else cc != 0

/-! ## Check 6 of the MQ (R131, R136, R155, R158, R159, R196, R199, R200, R205, R211, R217) -/

/-- R113: the panels of a set, and whether they run along N. -/
def loadwSet (o : LoadwOps) : Nat × Bool :=
  if o.trans ∧ (o.wfmt = 4 ∨ o.wfmt = 5) then setSize o.wfmt (patternOf o.pattern) else (1, false)

/-- R131. -/
def loadwOk (o : LoadwOps) : Bool :=
  let g := loadwSet o
  decide (o.wfmt ≤ 5) && patternOk o.pattern && (o.pattern == 0 || o.wfmt == 4 || o.wfmt == 5)
    && decide (1 ≤ o.gcount) && decide (o.gcount ≤ g.1) && decide (o.place < g.1)
    && (o.panels.all fun a => a % 64 == 0) && (loadwRanges o).all inStore

/-- R115, R129: the plane as the MQ tracks it; the output columns that its panels supply. -/
def loadwPlane (o : LoadwOps) : PlaneDesc :=
  let g := loadwSet o
  { fmt := BitVec.ofNat 4 o.wfmt, pat := BitVec.ofNat 4 o.pattern, trans := o.trans, place := if g.2 then o.place else 0,
    cols := if 1 < g.1 ∧ !g.2 then o.gcount * (patternOf o.pattern).lk else formatCols o.wfmt }

def trackPlane (t : MqTrack) (i : Nat) : Option PlaneDesc := if i = 0 then t.plane0 else t.plane1
def trackSlot (t : MqTrack) (i : Nat) : Option Nat := if i = 0 then t.slot0 else t.slot1

/-- R158, R159: the finishing fields of a LAST command whose placement has `cols` output columns. -/
def finishOk (o : MatOps) (cols : Nat) : Bool :=
  let w := matWrites o
  decide (o.act ≤ 4) && (o.red || !o.rmin) && !(o.red && o.gate) && decide (o.ncols ≤ cols)
    && outFieldsOk (matOut o 0) o.tslot && (o.act == 2 || o.alpha == 0) && (o.bias || o.bbase == 0) && o.bbase % 4 == 0
    && w.all inStore && !anyMeets w (matReads o)

/-- R135, R136: the fields of a matrix command that its own bytes decide. -/
def matFieldsOk (o : MatOps) (path : Nat) : Bool :=
  let a8 := decide (path ≤ 2)
  o.fuse != 3 && (o.fuse == 0 || o.last) && decide (o.ffmt ≤ 3) && (o.fuse != 0 || o.ffmt == 0)
    && decide (1 ≤ o.klen) && decide (o.klen ≤ pathMaxK o.wfmt o.pattern) && o.koff % 32 == 0 && (a8 || o.koff == 0)
    && scaleOk o.tx && scaleOk o.tw && (a8 || o.tx == 0) && (path == 2 || o.tw == 0)
    && o.abase % fmtAlign o.afmt == 0 && o.astride % fmtAlign o.afmt == 0
    && (o.fuse == 0 || (o.fbase % fmtAlign o.ffmt == 0 && o.fstride % fmtAlign o.ffmt == 0))
    && (matReads o).all inStore

/-- R196, R211: a gated command of MODE EXACT to ADAPT with a bitmap of its size and, in EXACT, room in the log. -/
def gateOk (t : MqTrack) (op path : Nat) (o : MatOps) : Bool :=
  op == 0x11 && decide (path ≤ 2) && t.glnMode != 0 && t.bitmap == some (o.rows, formatCols o.wfmt / 8)
    && (t.glnMode != 1 || decide (t.logUsed + 2 + (if o.last then 64 else 0) ≤ t.logSize))

/-- R136, R155, R196: the command fits the open accumulation, or opens one. -/
def accOk (t : MqTrack) (o : MatOps) (path block : Nat) : Bool :=
  match t.acc with
  | none => o.first
  | some (rows, p, b, gate, passes) =>
    !o.first && rows == o.rows && p == path && b == block && gate == o.gate && decide (passes < 2 ^ 24)

/-- The passes of the accumulation with this command. -/
def accPasses (t : MqTrack) : Nat :=
  match t.acc with
  | none => 1
  | some (_, _, _, _, n) => n + 1

/-- R135, R136, R196: check 6 of a matrix command, with what the MQ tracks after it. -/
def trackMatrix (t : MqTrack) (op : Nat) (c : BitVec 512) : Option MqTrack :=
  let o := matOps c
  match trackPlane t o.plane, pathOf o.afmt o.wfmt with
  | some pl, some path =>
    if pl.fmt.toNat == o.wfmt && pl.pat.toNat == o.pattern && pl.trans == (op == 0x12) && accOk t o path pl.place
        && matFieldsOk o path && (!o.gate || gateOk t op path o)
        && (if o.last then finishOk o pl.cols else fld c 46 0 144 == 0) then
      some { t with
        acc := if o.last then none else some (o.rows, path, pl.place, o.gate, accPasses t),
        gated := t.gated || o.gate,
        logUsed := if o.gate ∧ t.glnMode = 1 then t.logUsed + 2 + (if o.last then 64 else 0) else t.logUsed }
    else none
  | _, _ => none

/-- R199. -/
def trackLoadf (t : MqTrack) (c : BitVec 512) : Option MqTrack :=
  let n := loadfSpans c
  if loadfBase c % 64 == 0 && inStore (loadfBase c, factorSize n) then
    some (if loadfSlot c = 0 then { t with slot0 := some n } else { t with slot1 := some n })
  else none

/-- R200: the projection a LAMP.PREDICT without RESCORE adds to. -/
def projOk (t : MqTrack) (o : PredOps) (tx : Nat) : Bool :=
  match t.projOpen with
  | none => o.first
  | some (rows, x, n) => !o.first && rows == o.rows && x == tx && decide (n < 65535)

/-- R200: the operands of a LAMP.PREDICT without RESCORE. -/
def sliceOk (o : PredOps) : Bool :=
  decide (1 ≤ o.klen) && decide (o.klen ≤ 4096) && o.koff % 32 == 0 && scaleOk o.tx && o.abase % 32 == 0 && o.astride % 32 == 0
    && o.ubase % 32 == 0 && (predReads o).all inStore

/-- R200: a RESCORE. -/
def rescoreOk (t : MqTrack) (c : BitVec 512) (o : PredOps) : Bool :=
  !o.first && o.last && t.projOpen.isNone && t.projHeld == some o.rows
    && !anySet c [(26, 0, 16), (28, 0, 16), (30, 0, 8), (32, 0, 72)]

/-- R196, R200: an accumulation with GATE is open. -/
def gateOpen (t : MqTrack) : Bool :=
  match t.acc with
  | none => false
  | some (_, _, _, g, _) => g

/-- R200, R201: check 6 of LAMP.PREDICT, with what the MQ tracks after it. -/
def trackPredict (t : MqTrack) (c : BitVec 512) : Option MqTrack :=
  let o := predOps c
  let tx := fld c 30 0 8
  let n := match t.projOpen with
    | none => 1
    | some (_, _, m) => m + 1
  if (if o.rescore then rescoreOk t c o else projOk t o tx && sliceOk o)
      && (!o.last || ((trackSlot t o.slot).isSome && !gateOpen t))
      && (if o.wbmap then o.mbase % 16 == 0 else o.mbase == 0) && (predWrites o).all inStore then
    some { t with
      projOpen := if o.last then none else some (o.rows, tx, n),
      projHeld := if o.last then some o.rows else none,
      bitmap := if o.last then (trackSlot t o.slot).map fun m => (o.rows, m) else t.bitmap }
  else none

/-- R205: check 6 of GLN.CONFIG. -/
def trackConfig (t : MqTrack) (c : BitVec 512) : Option MqTrack :=
  let o := glnOps c
  if !t.gated && (if 2 ≤ o.mode then decide (3 ≤ o.nlog2) && decide (o.nlog2 ≤ 10) else o.nlog2 == 0)
      && o.gbase % 64 == 0 && inStore (o.gbase, 64)
      && (if o.mode = 1 then o.logBase % 64 == 0 && o.logSize != 0 && inStore (o.logBase, 64 * o.logSize)
          else o.logBase == 0 && o.logSize == 0) then
    some { t with glnMode := o.mode, logBase := o.logBase, logSize := o.logSize, logUsed := 0 }
  else none

/-- R136, R217: a SYNC.SWAPMARK in MQ; it empties the Lamplighter (R198). -/
def trackMark (t : MqTrack) : Option MqTrack :=
  if t.acc.isNone && t.projOpen.isNone && !t.gated then
    some { t with slot0 := none, slot1 := none, projHeld := none, bitmap := none }
  else none

/-- Check 6 of a command of MQ, with what the MQ tracks after it; none is REJ_OPERAND. -/
def trackCommand (t : MqTrack) (c : BitVec 512) : Option MqTrack :=
  let op := opcodeOf c
  if op = 0x06 then trackMark t
  else if op = 0x10 then
    let o := loadwOps c
    if loadwOk o then
      some (if o.plane = 0 then { t with plane0 := some (loadwPlane o), loadw0 := c }
            else { t with plane1 := some (loadwPlane o), loadw1 := c })
    else none
  else if op = 0x11 ∨ op = 0x12 then trackMatrix t op c
  else if op = 0x20 then trackLoadf t c
  else if op = 0x21 then trackPredict t c
  else if op = 0x28 then trackConfig t c
  else if op = 0x29 then some { t with gated := false, logUsed := 0 }
  else some t

/-- R211: the 128 bytes of a log entry as they stand at check time. -/
def logBytes (c loadw : BitVec 512) (seq : W32) : List Byte :=
  leBytes 40 (fld c 24 0 320) ++ leBytes 40 (fld loadw 24 0 320) ++ leBytes 4 seq.toNat ++ List.replicate 44 0

/-- R211: the log entry that a gated EXACT command appends. -/
def appendLog (s : State) (n : Nat) (t : MqTrack) (c : BitVec 512) (seq : W32) : State :=
  let o := matOps c
  let off := t.logBase + 64 * t.logUsed
  let lw := if o.plane = 0 then t.loadw0 else t.loadw1
  let used := t.logUsed + 2 + (if o.last then 64 else 0)
  let s := modCore s n fun lc =>
    { lc with gln := { lc.gln with log := lc.gln.log ++ [{ cmd := c, loadw := lw, seq := seq, off := off, used := used }] } }
  match corePos s n with
  | none => s
  | some p =>
    storeWrite s p off ((logBytes c lw seq ++ (if o.last then List.replicate 4096 0 else [])).map fun b => (b, false))

/-- Check 6 in MQ: the state with what it tracks and logs, or none. -/
def checkMq (s : State) (n : Nat) (c : BitVec 512) (seq : W32) : Option State :=
  let t := (getCore s n).track
  match trackCommand t c with
  | none => none
  | some t' =>
    let s := modCore s n fun lc => { lc with track := t' }
    some (if isMatrix c && isGated c && t.glnMode == 1 then appendLog s n t c seq else s)

/-! ## Check 6 -/

/-- R58: check 6 of a control opcode. -/
def controlOk (kind : Nat) (c : BitVec 512) : Bool :=
  let op := opcodeOf c
  if op = 0x01 then hdrWait c
  else if op = 0x02 then hdrSignal c
  else if op = 0x04 ∨ op = 0x05 then !(kind == 4 && fld c 24 0 2 == 1)
  else true

/-- Check 6 of the commands of WQ, VQ and CQ, and of control opcodes. -/
def operandsOk (s : State) (k : Nat) (c : BitVec 512) : Bool :=
  let op := opcodeOf c
  if isControl op then controlOk (qKindOf k) c
  else if op = 0x40 then spmmOk c
  else if op = 0x41 then gatherOk c
  else if op = 0x42 then dispatchOk c
  else if op = 0x48 then scoutOk c
  else if op = 0x60 then fulOk c
  else if op = 0x61 then softOk c
  else if op = 0x62 then optOk true c
  else if op = 0x63 then optOk false c
  else if op = 0x68 ∨ op = 0x69 ∨ op = 0x6A then maskOk op c
  else if 512 ≤ k then drvOk s ((k - 512) % 16) op c
  else true

/-! ## The destination (R75) -/

/-- The store bytes that a command's operands name as its destination. That of FUL.RUN lies in its program, and that of a Carter command in its
descriptor block. -/
def destOf (op : Nat) (c : BitVec 512) : List Range :=
  if op = 0x11 ∨ op = 0x12 then (if (matOps c).last then matWrites (matOps c) else [])
  else if op = 0x21 then predWrites (predOps c)
  else if op = 0x40 then outRanges (spmmOps c 0).out 0
  else if op = 0x41 then gatherSide (gatherOps c 0).out :: outRanges (gatherOps c 0).out 0
  else if op = 0x42 then dispatchWrites (dispatchOps c)
  else if op = 0x48 then [((scoutOps c).obase, scoutSize (scoutOps c))]
  else if op = 0x61 then outRanges (softOps c 0).out 0
  else if op = 0x62 ∨ op = 0x63 then
    (optRegions (op == 0x62) (optOps c)).filter fun r => r.1 != (optOps c).gbase && r.1 != (optOps c).hbase
  else if op = 0x68 ∨ op = 0x69 ∨ op = 0x6A then maskRegions (maskOps c) false
  else []

/-! ## Stage 2 -/

/-- What the checks give: the state after them, the descriptor block read, and the failure. -/
structure CheckRes where
  st : State
  desc : BitVec 1024 := 0
  fail : Option FrontFail

/-- R306: the descriptor block of a Carter command; bits [6:0] of DBLK are not zero: it is not read. -/
def readDesc (s : State) (k : Nat) (c : BitVec 512) : CheckRes :=
  let va := fld c 24 0 48
  if va % 128 ≠ 0 then { st := s, fail := none } else
    let rd := vaRead s (qCtx s k) va 128 .descriptor
    match rd.stop with
    | some (f, a) => { st := rd.st, fail := some (.xlate f.cause f.level a) }
    | none =>
      if rd.fresh.isSome then { st := rd.st, fail := some .fresh }
      else if anyPoison rd.bytes then { st := rd.st, fail := some .poison }
      else
        let blk := BitVec.ofNat 1024 (leNat (rd.bytes.map (·.1)))
        { st := rd.st, desc := blk,
          fail := if cdescReserved blk 0 || cdescReserved blk 512 then some (.check 0x10) else none }

/-- Checks 4 to 6. -/
def checkRest (s : State) (k : Nat) (c : BitVec 512) (seq : W32) (desc : BitVec 1024) : CheckRes :=
  let op := opcodeOf c
  let bad (st : Nat) : CheckRes := { st := s, desc := desc, fail := some (.check st) }
  if !semsOwned s c then bad 0x13
  else if !classOk op (hdrClass c) then bad 0x14
  else if isCarter op then
    if fld c 24 0 7 ≠ 0 then bad 0x15
    else
      let st := carterCheck op c desc
      if st = 0 then { st := s, desc := desc, fail := none } else bad st
  else if !operandsOk s k c then bad 0x15
  else if qKindOf k = 0 then
    match checkMq s (k / 4) c seq with
    | none => bad 0x15
    | some s => { st := s, fail := none }
  else { st := s, fail := none }

/-- R52, checks 2 and 3. -/
def checkOwner (s : State) (k : Nat) (c : BitVec 512) : Option Nat :=
  if !opcodeListed (qKindOf k) (opcodeOf c) then some 0x11
  else if hdrJob c ≠ (qJob s k).toNat then some 0x12
  else none

/-- R52: the checks in order. The reserved bits of a descriptor block count under check 1 (R306), so that the block of a command of the TQ is read
before checks 2 and 3; an access to it that fails counts after them (log entry 161). -/
def checkCommand (s : State) (k : Nat) (c : BitVec 512) (seq : W32) : CheckRes :=
  let op := opcodeOf c
  let bad (st : Nat) : CheckRes := { st := s, fail := some (.check st) }
  if !reservedOk c then bad 0x10
  else if isCarter op && qKindOf k == 3 then
    let d := readDesc s k c
    match d.fail, checkOwner s k c with
    | some (.check x), _ => { d with fail := some (.check x) }
    | _, some x => { d with fail := some (.check x) }
    | some f, none => { d with fail := some f }
    | none, none => checkRest d.st k c seq d.desc
  else match checkOwner s k c with
  | some x => bad x
  | none => checkRest s k c seq 0

/-! ## Stage 1 -/

/-- R74: how the read of a command slot fails. -/
def fetchFail (rd : VaRead) : Option FrontFail :=
  match rd.stop with
  | some (f, a) => some (.xlate f.cause f.level a)
  | none => if rd.fresh.isSome then some .fresh else if anyPoison rd.bytes then some .poison else none

/-- R71: a wait that is not met on a semaphore marked BROKEN. -/
def brokenWait (s : State) (c : BitVec 512) : Bool :=
  hdrWait c && (getSem s (hdrWsem c)).broken && decide ((getSem s (hdrWsem c)).value.toNat < hdrWval c)

/-- Stage 3: the command enters its wait, or goes on (R53, R71). -/
def placeFront (s : State) (k : Nat) (f : Front) : State :=
  let s := modQueue s k fun q => settle { q with front := some f }
  if f.fail.isSome then advance s k
  else if brokenWait s f.cmd then haltWaiting s k (getSem s (hdrWsem f.cmd)).origin
  else if hdrWait f.cmd then s
  else advance s k

/-- R73: the record of a command that a FENCED queue retires; where it is lost, STW_Q_CMPL_SEQ still advances past it. -/
def retireRecord (s : State) (k : Nat) (seq : W32) : Kills :=
  let w := writeRecord s k seq 2 0 []
  match w.fail with
  | none => { st := w.st, kill := none }
  | some f =>
    let o := recFailOrigin w.st k f
    { st := modQueue (raiseRecFail w.st k seq f) k fun q => { q with cmplSeq := seq + 1 },
      kill := (recFailKill f).map fun c => (c, o) }

/-- R73: a FENCED queue retires a command, or takes its SYNC.SWAPMARK. A slot that cannot be read raises its source and is retired as
well. -/
def retireFenced (s : State) (k : Nat) (c : BitVec 512) (seq : W32) (bad : Option FrontFail) : State :=
  match bad with
  | none =>
    if opcodeOf c = 0x06 then
      modQueue s k fun q => { q with inflight := q.inflight ++ [{ seq := seq, cmd := c, desc := 0, start := now s (qHall k) }] }
    else
      let r := retireRecord s k seq
      applyKill (qJob s k).toNat
        { r with st := (ssemOf c).foldl (fun s x => markBroken s (qJob s k) (getQueue s k).origin x) r.st }
  | some why =>
    let e := raiseFront s k seq why
    let r := retireRecord e.1 k seq
    applyKill (qJob s k).toNat
      { st := r.st, kill := (e.2.2.2.map fun c => (c, e.2.1.getD {})) <|> r.kill }

/-- R47, R52, R53: the next command of a queue that may fetch, from its ring slot to its wait or its start. -/
def fetchOne (k : Nat) (s : State) : State :=
  if !mayFetch s k then s else
    let qu := getQueue s k
    let seq := qu.fetchSeq
    let rd := vaRead s (qCtx s k) (qu.base.toNat + 64 * (seq.toNat % ringSize qu)) 64 .fetch
    let s := modQueue rd.st k fun q => { q with fetchSeq := seq + 1 }
    let bad := fetchFail rd
    let c : BitVec 512 := if bad.isSome then 0 else BitVec.ofNat 512 (leNat (rd.bytes.map (·.1)))
    if qu.state = .fenced then retireFenced s k c seq bad
    else
      let r : CheckRes := if bad.isSome then { st := s, fail := bad } else checkCommand s k c seq
      placeFront r.st k
        { seq := seq, cmd := c, desc := r.desc, fail := r.fail, dest := if r.fail.isSome then [] else destOf (opcodeOf c) c,
          stage := if r.fail.isSome then .failed else if hdrWait c then .wait else .ready }

/-- COMMAND_FETCH (R47, R52, R53, R73, R74). On a CQ ring the rings of the hall then take their turns (R44). -/
def runFetch (q : QRef) (s : State) : State :=
  let k := qKey q
  if dieUp s ∧ 512 ≤ k then cqTurns (fetchOne k s) (qHall k) else fetchOne k s

def execCommandFetch (q : QRef) (s : State) : Host.Outcome State Fault Refusal := .next (runFetch q s)

end Sys2Proof.Machine
end

