-- ==== Sys2Proof/Machine/RegWrite.lean ====
section
/-! DEFINITION. Host writes of the registers of BAR0 (R499 to R501, 21), the flip masks (R511), and device memory through BAR2 (R483).
A register whose write has a row of its own is written by that row's meaning. -/

namespace Sys2Proof.Machine

/-! ## Fields -/

/-- A saturating ECC register written: 1 in any bit of a field clears the field. -/
def writeEcc (v : W32) (e : Ecc) : Ecc :=
  { ce := if bitsOf v.toNat 16 16 = 0 then e.ce else 0, ue := if bitsOf v.toNat 0 16 = 0 then e.ue else 0 }

/-- R511: a flip-mask register written: the masks first, then ARM; writing 0 to ARM has no effect. -/
def writeFlip (checkAt checkW dataW : Nat) (v : W32) (f : Flip) : Flip :=
  { f with arm := f.arm || bitOf v.toNat 31, check := bitsOf v.toNat checkAt checkW, data := bitsOf v.toNat 0 dataW }

/-- R379, R401: a selecting field that keeps its value for a write above its limit. -/
def writeSel (lo w limit : Nat) (v : W32) (f : Flip) : Flip :=
  { f with sel := if bitsOf v.toNat lo w ≤ limit then bitsOf v.toNat lo w else f.sel }

/-! ## Flip masks (R511) -/

/-- A flip-mask register of a core block; a hole's block discards writes (R367). -/
def flipPos (s : State) (h i : Nat) (f : Position → Position) : State :=
  if (getPos s (posKey h i)).status = .hole then s else modPos s (posKey h i) f

/-- R350: HUB_FLIP written: SYM, DATA and ARM. -/
def writeHubFlip (v : W32) (hb : HubState) : HubState :=
  { hb with flip := writeSel 16 6 63 v (writeFlip 22 0 16 v hb.flip) }

/-- The hall of a flip-mask register. -/
def flipHall (t : FlipTarget) : Nat :=
  match t with
  | .drn h _ | .wvr h _ | .lmp h _ | .ful h _ | .asy h _ | .asyCrc h _ | .ctr h _ | .sto h _ | .sea h | .hub h _ | .lnk h _
  | .mesh h | .seam h => h.val

/-- R511: a flip-mask register written. -/
def writeFlipReg (s : State) (t : FlipTarget) (v : W32) : State :=
  match t with
  | .drn h p => flipPos s h p fun ps => { ps with drnFlip := writeFlip 16 9 16 v ps.drnFlip }
  | .wvr h p => flipPos s h p fun ps => { ps with wvrFlip := writeFlip 16 7 16 v ps.wvrFlip }
  | .lmp h p => flipPos s h p fun ps => { ps with lmpFlip := writeFlip 16 8 16 v ps.lmpFlip }
  | .ful h p => flipPos s h p fun ps => { ps with fulFlip := writeFlip 16 7 16 v ps.fulFlip }
  | .asy h p => flipPos s h p fun ps => { ps with asyFlip := writeFlip 16 8 16 v ps.asyFlip }
  | .asyCrc h p => flipPos s h p fun ps => { ps with asyCrcFlip := writeFlip 16 7 16 v ps.asyCrcFlip }
  | .ctr h p => flipPos s h p fun ps => { ps with ctrFlip := writeFlip 16 8 16 v ps.ctrFlip }
  | .sto h p => flipPos s h p fun ps => { ps with stoFlip := writeFlip 8 4 8 v ps.stoFlip }
  | .sea h => modHall s h fun hl => { hl with seaFlip := writeFlip 16 8 16 v hl.seaFlip }
  | .hub h j => modHub s (8 * h.val + j.val) (writeHubFlip v)
  | .lnk h j => modPort s (6 * h.val + j.val) fun p => { p with flip := writeSel 30 1 1 v (writeFlip 16 8 16 v p.flip) }
  | .mesh h => modHall s h fun hl => { hl with meshFlip := writeSel 24 7 89 v (writeFlip 16 8 16 v hl.meshFlip) }
  | .seam h => modHall s h fun hl => { hl with seamFlip := writeSel 26 5 17 v (writeFlip 16 8 16 v hl.seamFlip) }

/-- FLIP_ARM (R511). -/
def runFlipArm (t : FlipTarget) (v : W32) (s : State) : State := if hostUp s (flipHall t) then writeFlipReg s t v else s

def execFlipArm (t : FlipTarget) (v : W32) (s : State) : Host.Outcome State Fault Refusal := .next (runFlipArm t v s)

/-! ## The control range -/

/-- STW_FLASH_CMD written (R496): OP, and with GO the operation. -/
def writeFlashCmd (h : Hall) (v : W32) (s : State) : State :=
  let op := bitsOf v.toNat 0 2
  let s := modHall s h fun hl => { hl with flashOp := BitVec.ofNat 2 op }
  if !bitOf v.toNat 31 then s
  else if op = 0 then runFlashRead h s
  else if op = 1 then runFlashProgram h s
  else if op = 2 then runFlashErase h s
  else runFlashReserved h s

/-- The start, reload and flash registers (R496). -/
def writeStart (h : Hall) (a : Nat) (v : W32) (s : State) : State :=
  if a = 0x00 then (if bitOf v.toNat 31 then runStartRetry h s else s)
  else if a = 0x04 then runHallReload h v s
  else if a = 0x10 then writeFlashCmd h v s
  else if a = 0x14 then modHall s h fun hl => { hl with flashAddr := BitVec.ofNat 27 v.toNat }
  else s

/-- STW_OWN and STW_SEMGRP (R505, R506). -/
def writeSteward (h : Hall) (a : Nat) (v : W32) (s : State) : State :=
  if 0x10100 ≤ a ∧ a < 0x10200 then runOwnWrite (Fin.ofNat 128 (64 * h.val + (a - 0x10100) / 4)) v s
  else if 0x10200 ≤ a ∧ a < 0x10300 then runSemgrpWrite h (Fin.ofNat 64 ((a - 0x10200) / 4)) v s
  else s

/-- R45: the queue whose block holds an address. -/
def queueAt (h : Hall) (a : Nat) : QRef :=
  if a < 0x24000 then
    let i := (a - 0x20000) / 64
    let n : Core := Fin.ofNat 128 (64 * h.val + i / 4)
    if i % 4 = 0 then .core n .mq else if i % 4 = 1 then .core n .wq else if i % 4 = 2 then .core n .vq else .core n .tq
  else .cq h (Fin.ofNat 16 ((a - 0x24000) / 64))

/-- STW_Q_CFG, STW_Q_DOORBELL and STW_Q_RESTART (R45 to R48, R77). -/
def writeQueue (h : Hall) (a : Nat) (v : W32) (s : State) : State :=
  let q := queueAt h a
  if a % 64 = 0x10 then (if bitOf v.toNat 16 then runQEnable q v s else runQDisable q v s)
  else if a % 64 = 0x14 then runQDoorbell q v s
  else if a % 64 = 0x24 then runQRestart q v s
  else s

/-- The Sealer's slot registers (R280): SEA_SLOT_CFG, and THRESH of SEA_SLOT_HEALTH, which a write of 0 leaves. -/
def writeSlotReg (a : Nat) (v : W32) (s : State) : State :=
  let n := (a - 0x40000) / 16
  let i := n % 256
  if hi : i < 255 then
    if a % 16 = 0 then runSeaSlotCfg (Fin.ofNat 16 (n / 256)) ⟨i, hi⟩ v s
    else if a % 16 = 4 ∧ bitsOf v.toNat 0 16 ≠ 0 then
      modSlot s (n / 256 % 16) i fun x => { x with thresh := bitsOf v.toNat 0 16 }
    else s
  else s

/-- The Sealer's job and test registers (R280). -/
def writeSealer (h : Hall) (a : Nat) (v : W32) (s : State) : State :=
  if a < 0x50400 then
    let j : Job := Fin.ofNat 16 ((a - 0x50000) / 64)
    if a % 64 = 0 then runSeaJobCfg j v s
    else if a % 64 = 0x18 ∧ bitOf v.toNat 0 then dropStats s j
    else s
  else if a = 0x51000 then writeFlipReg s (.sea h) v
  else if a = 0x51004 then modHall s h fun hl => { hl with seaEcc := writeEcc v hl.seaEcc }
  else s

/-- TNK_CFG and TNK_REQ (R304). -/
def writeTinker (h : Hall) (a : Nat) (v : W32) (s : State) : State :=
  if a = 0x60000 then
    let p := bitsOf v.toNat 16 8
    let r := bitsOf v.toNat 0 12
    modHall s h fun hl =>
      { hl with tnkEnable := bitOf v.toNat 31, tnkPeriod := if 1 ≤ p ∧ p ≤ 240 then p else hl.tnkPeriod,
                tnkRotAge := if r = 0 then hl.tnkRotAge else r }
  else if a = 0x60008 then runTnkReq h v s
  else s

/-- The mesh and Joiner registers (R379). -/
def writeMesh (h : Hall) (a : Nat) (v : W32) (s : State) : State :=
  if a = 0x80014 then modHall s h fun hl => { hl with meshEcc := writeEcc v hl.meshEcc }
  else if a = 0x80018 then writeFlipReg s (.mesh h) v
  else if a = 0x80200 then writeFlipReg s (.seam h) v
  else if 0x80100 ≤ a ∧ a < 0x80148 ∧ bitsOf v.toNat 0 16 ≠ 0 then
    let n := (a - 0x80100) / 4
    modHall s h fun hl => { hl with seam := tabSet {} n { getSeam hl n with ce := 0 } hl.seam }
  else s

/-- What a self-test started by a write of STW_SELFTEST finds is free (log entry 54): which positions and packages fail, and up to some number of
rows. -/
def freeFindings (n : Nat) : Findings :=
  { positions := (List.range 144).filterMap fun i =>
      if Config.freeBool (n + i) then some (Fin.ofNat 2 (i / 72), Fin.ofNat 72 (i % 72)) else none,
    packages := (List.range 128).filterMap fun i =>
      if Config.freeBool (n + 144 + i) then some (Fin.ofNat 16 (i / 8), Fin.ofNat 8 i) else none,
    rows := ((List.range (Config.freeNat (n + 272))).map fun i =>
      let x := Config.freeBits (n + 274 + i)
      ({ hub := Fin.ofNat 16 (bitsOf x.toNat 0 4), channel := Fin.ofNat 32 (bitsOf x.toNat 4 5), bank := Fin.ofNat 16 (bitsOf x.toNat 9 4),
         row := BitVec.ofNat 32 (bitsOf x.toNat 16 32) } : BadRow)).eraseDups,
    other := Config.freeBool (n + 273) }

/-- STW_SELFTEST.START written (R450, R453). -/
def startSelfTest (s : State) : State :=
  runSelfTest (freeFindings s.free) { s with free := s.free + 274 + Config.freeNat (s.free + 272) }

/-- STW_JOB_STAT and STW_SELFTEST (R433, R450, R453). -/
def writeJobStat (a : Nat) (v : W32) (s : State) : State :=
  if 0x90100 ≤ a ∧ a < 0x90140 then
    if bitOf v.toNat 31 then runKilledClear (Fin.ofNat 16 ((a - 0x90100) / 4)) s else s
  else if a = 0x90300 ∧ bitOf v.toNat 31 then startSelfTest s
  else s

/-- The Cooper's 32-bit registers (R454). -/
def writeCooper (a : Nat) (v : W32) (s : State) : State :=
  let j : Job := Fin.ofNat 16 ((a - 0xA0000) / 128)
  let o := a % 128
  if o = 0 then runCopCfg j v s
  else if o = 0x38 then modJob s j fun jb => if jb.copEnable then jb else { jb with copStep := v }
  else if o = 0x3C then runCopInterval j v s
  else if o = 0x48 then modJob s j fun jb => { jb with mtbi := v }
  else if o = 0x4C then
    let s := if bitOf v.toNat 31 then runCopRestore j s else s
    if bitOf v.toNat 30 then runCopFetch j s else s
  else s

/-- R469: MLR_CFG written. -/
def writeMlrCfg (v : W32) (m : Miller) : Miller :=
  let w := bitsOf v.toNat 0 5
  { m with lend := bitsOf v.toNat 24 8, margin := bitsOf v.toNat 16 8, slack := bitsOf v.toNat 8 8, coopCc := bitsOf v.toNat 5 3,
           warn := if 10 ≤ w ∧ w ≤ 20 then w else m.warn }

/-- The Miller's registers (R469). -/
def writeMiller (a : Nat) (v : W32) (s : State) : State :=
  let x := bitsOf v.toNat 0 16
  if a = 0xB0000 then
    if 20000 ≤ x ∧ x ≤ 28000 then reshare { s with miller := { s.miller with budget := x } } else s
  else if a = 0xB0004 then reshare { s with miller := writeMlrCfg v s.miller }
  else if a = 0xB0008 then (if 10 ≤ x then { s with miller := { s.miller with yield := x } } else s)
  else if 0xB0014 ≤ a ∧ a < 0xB0030 then
    { s with miller := { s.miller with classes := s.miller.classes.set ((a - 0xB0010) / 4) x } }
  else s

/-! ## Core blocks, hubs, links, host -/

/-- A core block's registers (R509); a hole's block discards writes. -/
def writeCoreBlock (h : Hall) (a : Nat) (v : W32) (s : State) : State :=
  let p : Pos := Fin.ofNat 72 ((a - 0x100000) / 0x10000)
  let o := a % 0x10000
  if o = 0x1108 then writeFlipReg s (.drn h p) v
  else if o = 0x110C then flipPos s h p fun ps => { ps with drnEcc := writeEcc v ps.drnEcc }
  else if o = 0x120C then writeFlipReg s (.wvr h p) v
  else if o = 0x1210 then flipPos s h p fun ps => { ps with wvrEcc := writeEcc v ps.wvrEcc }
  else if o = 0x130C then writeFlipReg s (.lmp h p) v
  else if o = 0x1310 then flipPos s h p fun ps => { ps with lmpEcc := writeEcc v ps.lmpEcc }
  else if o = 0x1408 then writeFlipReg s (.ful h p) v
  else if o = 0x140C then flipPos s h p fun ps => { ps with fulEcc := writeEcc v ps.fulEcc }
  else if o = 0x1500 then runAsyInject h p v s
  else if o = 0x1518 then
    flipPos s h p fun ps => { ps with asyLastValid := ps.asyLastValid && !bitOf v.toNat 31 }
  else if o = 0x151C then writeFlipReg s (.asy h p) v
  else if o = 0x1520 then writeFlipReg s (.asyCrc h p) v
  else if o = 0x1524 then flipPos s h p fun ps => { ps with asyEcc := writeEcc v ps.asyEcc }
  else if o = 0x1610 then writeFlipReg s (.ctr h p) v
  else if o = 0x1614 then flipPos s h p fun ps => { ps with ctrEcc := writeEcc v ps.ctrEcc }
  else if o = 0x1700 then writeFlipReg s (.sto h p) v
  else if o = 0x1704 then flipPos s h p fun ps => { ps with stoEcc := writeEcc v ps.stoEcc }
  else s

/-- A memory hub's 32-bit registers (R350). -/
def writeHub (h : Hall) (a : Nat) (v : W32) (s : State) : State :=
  let j : Hub := Fin.ofNat 8 ((a - 0x600000) / 0x10000)
  let o := a % 0x10000
  if o = 0x28 then writeFlipReg s (.hub h j) v
  else if 0x100 ≤ o ∧ o < 0x120 ∧ bitOf v.toNat 31 then runPkgRetire h j (Fin.ofNat 8 ((o - 0x100) / 4)) s
  else s

/-- A link hub's registers (R401). -/
def writeLink (h : Hall) (a : Nat) (v : W32) (s : State) : State :=
  let j : Port := Fin.ofNat 6 ((a - 0x680000) / 0x10000)
  let o := a % 0x10000
  if o = 4 then runLaneRetireWrite h j v s
  else if o = 0x200 then writeFlipReg s (.lnk h j) v
  else s

/-- R401, R421: a CQ command of a job context is in flight. -/
def cqBusy (s : State) (j : Nat) : Bool := !(getQueue s (512 + j)).inflight.isEmpty || !(getQueue s (528 + j)).inflight.isEmpty

/-- R401: the Drover job table. -/
def writeDrvJob (o : Nat) (v : W32) (jb : JobState) : JobState :=
  let lo := BitVec.ofNat 12 v.toNat
  let hi := BitVec.ofNat 12 (bitsOf v.toNat 16 12)
  if o = 0 then { jb with tag := v }
  else if o = 4 then { jb with ringValid := bitOf v.toNat 31, succ := hi, pred := lo }
  else if o = 8 then { jb with tg := (jb.tg.set 1 hi).set 0 lo }
  else if o = 0xC then { jb with tg := (jb.tg.set 3 hi).set 2 lo }
  else if o = 0x10 then { jb with tgValid := bitOf v.toNat 31, tgRank := BitVec.ofNat 2 v.toNat }
  else jb

/-- R400, R401: LNK_TIME_CFG.MASTER written. A module that gives up the mastership and has no path to a master is in holdover. -/
def writeTimeCfg (v : W32) (s : State) : State :=
  let t := s.timeCfg
  if bitOf v.toNat 31 = t.master then s
  else if bitOf v.toNat 31 then updateTime { s with timeCfg := { t with master := true } }
  else
    let s := { s with timeCfg := { t with master := false, source := 15, hops := 255, offset := 0 } }
    match timeSource s with
    | some _ => updateTime s
    | none => raiseBoth { s with timeCfg := { s.timeCfg with holdover := true } } 42 1 { code := 0x0503 }

/-- The Drover, time and ledger registers (R401, R421). -/
def writeDrover (h : Hall) (a : Nat) (v : W32) (s : State) : State :=
  let x := bitsOf v.toNat 0 16
  if a < 0x6F0200 then
    let j := (a - 0x6F0000) / 32
    if cqBusy s j then s else modJob s j (writeDrvJob (a % 32) v)
  else if a = 0x6F0400 then
    if 1 ≤ x ∧ x ≤ 60000 then modHall s h fun hl => { hl with drvTimeout := x } else s
  else if a = 0x6F0500 then writeTimeCfg v s
  else if 0x6F1000 ≤ a ∧ a < 0x6F1100 ∧ a % 16 = 0xC ∧ bitOf v.toNat 31 then
    let j := (a - 0x6F1000) / 16
    if cqBusy s j then s else modJob s j fun jb => { jb with staleValid := false }
  else s

/-- The host hub and the Scrivener (R497). -/
def writeHostReg (h : Hall) (a : Nat) (v : W32) (s : State) : State :=
  if a = 0x700000 then modHall s h fun hl => { hl with bar2Base := BitVec.ofNat 10 v.toNat }
  else if a = 0x710008 then runRingEnable h v s
  else if a = 0x710010 then runRingCons h v s
  else if a = 0x710018 then
    modHall s h fun hl => { hl with coalCount := bitsOf v.toNat 24 8, coalTimer := bitsOf v.toNat 0 16 }
  else s

/-- SEM_STATUS (R64): WRAP and BROKEN clear when written 1. -/
def writeSemStatus (h : Hall) (a : Nat) (v : W32) (s : State) : State :=
  let k := 4096 * h.val + (a - 0x800000) / 0x800
  if a % 0x800 = 0x18 then
    setSem s k { getSem s k with
      wrap := (getSem s k).wrap && !bitOf v.toNat 1, broken := (getSem s k).broken && !bitOf v.toNat 0 }
  else s

/-- A 32-bit register of BAR0 written at a 4-byte address. Reserved addresses and read-only registers ignore it (R15). -/
def write32 (h : Hall) (a : Nat) (v : W32) (s : State) : State :=
  if a < 0x200 then writeStart h a v s
  else if 0x10000 ≤ a ∧ a < 0x10400 then writeSteward h a v s
  else if 0x20000 ≤ a ∧ a < 0x24400 then writeQueue h a v s
  else if 0x40000 ≤ a ∧ a < 0x50000 then writeSlotReg a v s
  else if 0x50000 ≤ a ∧ a < 0x51008 then writeSealer h a v s
  else if 0x60000 ≤ a ∧ a < 0x60400 then writeTinker h a v s
  else if a = 0x70100 then runXlateInv v s
  else if 0x80000 ≤ a ∧ a < 0x80400 then writeMesh h a v s
  else if 0x90100 ≤ a ∧ a < 0x90400 then writeJobStat a v s
  else if 0xA0000 ≤ a ∧ a < 0xA0800 then writeCooper a v s
  else if 0xB0000 ≤ a ∧ a < 0xB1500 then writeMiller a v s
  else if 0x100000 ≤ a ∧ a < 0x580000 then writeCoreBlock h a v s
  else if 0x600000 ≤ a ∧ a < 0x680000 then writeHub h a v s
  else if 0x680000 ≤ a ∧ a < 0x6E0000 then writeLink h a v s
  else if 0x6F0000 ≤ a ∧ a < 0x6F1100 then writeDrover h a v s
  else if 0x700000 ≤ a ∧ a < 0x730000 then writeHostReg h a v s
  else if 0x800000 ≤ a ∧ a < 0x1000000 then writeSemStatus h a v s
  else s

/-! ## 64-bit registers (R500) -/

/-- The addresses of 64-bit registers. -/
def is64 (a : Nat) : Bool :=
  a == 0x10308 || a == 0x10310
    || (decide (0x20000 ≤ a) && decide (a < 0x24400) && (a % 64 == 0 || a % 64 == 8))
    || (decide (0x50000 ≤ a) && decide (a < 0x50400) && a % 64 == 8)
    || (decide (0x70000 ≤ a) && decide (a < 0x70100) && a % 16 == 0)
    || a == 0x90000 || a == 0x90008 || a == 0x90010
    || (decide (0x90200 ≤ a) && decide (a < 0x90280))
    || (decide (0xA0000 ≤ a) && decide (a < 0xA0800) && decide (8 ≤ a % 128) && decide (a % 128 ≤ 0x30))
    || (decide (0x600000 ≤ a) && decide (a < 0x680000) && (a % 0x10000 == 0x20 || a % 0x10000 == 0x30))
    || (decide (0x6F1000 ≤ a) && decide (a < 0x6F1100) && a % 16 == 0)
    || a == 0x710000
    || (decide (0x800000 ≤ a) && decide (a < 0x1000000) && (a % 0x800 == 0 || a % 0x800 == 8 || a % 0x800 == 0x10))

/-- R45, R46: STW_Q_BASE and STW_Q_CBASE, written while ENABLE is 0. -/
def writeQueueBase (h : Hall) (a : Nat) (v : W64) (s : State) : State :=
  let b := BitVec.ofNat 64 (bitsOf v.toNat 12 36 * 4096)
  modQueue s (qKey (queueAt h a)) fun q =>
    if q.enable then q else if a % 64 = 0 then { q with base := b } else { q with cbase := b }

/-- R454: a base or size register of the Cooper, written while ENABLE is 0; bits [11:6] of a base are zero but for the loss word's. -/
def writeCopBase (o : Nat) (v : W64) (jb : JobState) : JobState :=
  let b := bitsOf v.toNat 6 42 * 64
  if jb.copEnable then jb
  else if o = 0x08 then { jb with stateBase := b }
  else if o = 0x10 then { jb with paramBase := b }
  else if o = 0x18 then { jb with shadowBase := b }
  else if o = 0x20 then { jb with genBase := b }
  else if o = 0x28 then { jb with lossBase := b }
  else { jb with paramSize := BitVec.ofNat 32 (v.toNat / 2 ^ 32), stateSize := BitVec.ofNat 32 v.toNat }

/-- R421: DRV_LEDGER_BASE; ENABLE from 0 to 1 begins a new count of stale chunks. -/
def writeLedger (v : W64) (jb : JobState) : JobState :=
  let on := bitOf v.toNat 63
  { jb with ledgerEnable := on, ledgerBase := bitsOf v.toNat 7 41 * 128,
            staleChunks := if on && !jb.ledgerEnable then 0 else jb.staleChunks }

/-- A 64-bit register written by one 8-byte write. -/
def write64 (h : Hall) (a : Nat) (v : W64) (s : State) : State :=
  if 0x20000 ≤ a ∧ a < 0x24400 then writeQueueBase h a v s
  else if 0x50000 ≤ a ∧ a < 0x50400 then
    modJob s ((a - 0x50000) / 64) fun jb => if jb.seaEnable then jb else { jb with recBase := bitsOf v.toNat 6 42 * 64 }
  else if 0x70000 ≤ a ∧ a < 0x70100 then
    modJob s ((a - 0x70000) / 16) fun jb =>
      { jb with root := BitVec.ofNat 36 (bitsOf v.toNat 12 36), rootValid := bitOf v.toNat 0 }
  else if a = 0x90000 then runStickyClear h v s
  else if a = 0x90008 then runForce h v s
  else if a = 0x90010 then modHall s h fun hl => { hl with aliveMask := BitVec.ofNat 64 (bitsOf v.toNat 0 44) }
  else if 0x90200 ≤ a ∧ a < 0x90280 then
    modJob s ((a - 0x90200) / 8) fun jb =>
      { jb with slotmapEnable := bitOf v.toNat 63, slotmapBase := bitsOf v.toNat 8 40 * 256 }
  else if 0xA0000 ≤ a ∧ a < 0xA0800 then modJob s ((a - 0xA0000) / 128) (writeCopBase (a % 128) v)
  else if 0x600000 ≤ a ∧ a < 0x680000 then
    let k := 8 * h.val + (a - 0x600000) / 0x10000
    if a % 0x10000 = 0x30 then modHub s k fun hb => { hb with flipChk := v }
    else if bitOf v.toNat 63 then modHub s k fun hb => { hb with lastUeValid := false } else s
  else if 0x6F1000 ≤ a ∧ a < 0x6F1100 then
    let j := (a - 0x6F1000) / 16
    if cqBusy s j then s else modJob s j (writeLedger v)
  else if a = 0x710000 then
    modHall s h fun hl => if hl.ringEnable then hl else { hl with ringBase := BitVec.ofNat 64 (v.toNat / 4096 * 4096) }
  else if 0x800000 ≤ a ∧ a < 0x1000000 then
    let i : Sem := Fin.ofNat 4096 ((a - 0x800000) / 0x800)
    if a % 0x800 = 8 then runSemAdd h i v s else if a % 0x800 = 0x10 then runSemSet h i v s else s
  else s

/-! ## Bytes: the mailbox and the MSI-X table (R475, R495, R499) -/

/-- The table entry of a vector with one byte written: address, data, and the mask bit of vector control. -/
def msixByte (o : Nat) (b : Byte) (x : Vector) : Vector :=
  if o < 8 then { x with addr := BitVec.ofNat 64 (setBits x.addr.toNat (8 * o) 8 b.toNat) }
  else if o < 12 then { x with data := BitVec.ofNat 32 (setBits x.data.toNat (8 * (o - 8)) 8 b.toNat) }
  else if o = 12 then { x with masked := b.getLsbD 0 }
  else x

/-- An address that takes writes of any byte enables. -/
def byteAddr (a : Nat) : Bool :=
  (decide (0x100 ≤ a) && decide (a < 0x200)) || (decide (0x7E0000 ≤ a) && decide (a < 0x7E0110))
    || (decide (0x7F0000 ≤ a) && decide (a < 0x7F0008))

def writeByte (h : Nat) (a : Nat) (b : Byte) (s : State) : State :=
  if 0x100 ≤ a ∧ a < 0x200 then modHall s h fun hl => { hl with mailbox := tabSet 0 (a - 0x100) b hl.mailbox }
  else if 0x7E0000 ≤ a ∧ a < 0x7E0110 ∧ hostUp s h then
    modHall s h fun hl => setVector hl ((a - 0x7E0000) / 16) (msixByte (a % 16) b (getVector hl ((a - 0x7E0000) / 16)))
  else s

/-! ## REGISTER_WRITE (R499, R500, R503) -/

/-- R503: the register's block has lost its clock or its supply. The Steward, Sealer, Cooper, Miller and Bellman run on MGMT, a core block is held by
its router and the semaphores by theirs on MESH (R361, R509), a memory hub runs on its MEMC (log entry 162). -/
def blockLost (s : State) (h a : Nat) : Bool :=
  let out (x : Lost) : Bool := (getHall s h).conds.any fun c => c.part == x
  if a < 0xC0000 then out .mgmt || out .converter
  else if (0x100000 ≤ a ∧ a < 0x580000) ∨ 0x800000 ≤ a then out .mesh || out .meshSupply
  else if 0x600000 ≤ a ∧ a < 0x680000 then out (.memc ((a - 0x600000) / 0x10000)) || out .memorySupply
  else false

/-- A write discarded and counted in HST_BAR0_DROP. -/
def dropWrite (s : State) (h : Nat) : State := modHall s h fun hl => { hl with bar0Drop := hl.bar0Drop + 1 }

/-- An aligned write of 4 or 8 bytes, applied register by register in ascending address. -/
def writeAligned (h : Hall) (a n : Nat) (v : W64) (s : State) : State :=
  if n = 8 then
    if is64 a then write64 h a v s
    else write32 h (a + 4) (BitVec.ofNat 32 (v.toNat / 2 ^ 32)) (write32 h a (BitVec.ofNat 32 v.toNat) s)
  else if is64 (a / 8 * 8) then dropWrite s h
  else write32 h a (BitVec.ofNat 32 v.toNat) s

/-- REGISTER_WRITE (R499 to R501, R503): any BAR0 write, under the access rules; in a stopped start only the start, image and mailbox registers
take one (R478, R482). -/
def runRegisterWrite (h : Hall) (addr : BitVec 26) (width : Width) (v : W64) (s : State) : State :=
  let a := addr.toNat
  if !bootUp s h || blockLost s h a then s
  else if byteAddr a then
    (List.range (min width 8)).foldl (fun s i => writeByte h (a + i) (BitVec.ofNat 8 (v.toNat >>> (8 * i))) s) s
  else if !hostUp s h then
    if a < 0x200 ∧ (width = 4 ∨ width = 8) ∧ a % width = 0 then writeAligned h a width v s else s
  else if (width = 4 ∨ width = 8) ∧ a % width = 0 then writeAligned h a width v s
  else dropWrite s h

def execRegisterWrite (h : Hall) (addr : BitVec 26) (width : Width) (v : W64) (s : State) : Host.Outcome State Fault Refusal :=
  .next (runRegisterWrite h addr width v s)

/-! ## BAR2 (R483) -/

/-- R332: the pieces of a range that lie within one bolt each: address and length. -/
def boltPieces (fuel a n : Nat) : List (Nat × Nat) :=
  match fuel with
  | 0 => []
  | f + 1 =>
    if n = 0 then [] else
      let take := min n (2048 - a % 2048)
      (a, take) :: boltPieces f (a + take) (n - take)

/-- R483: the physical address of an offset. -/
def bar2Pa (hl : HallState) (offset : BitVec 36) : Nat := hl.bar2Base.toNat * 2 ^ 36 + offset.toNat

/-- A piece of a BAR2 read: at or above the usable capacity it reads zero. -/
def bar2Piece (s : State) (h pa n : Nat) : State × List (Byte × Bool) :=
  if s.order.usable ≤ pa then (s, List.replicate n (0, false))
  else
    let rd := hubRead s (hostStop h) pa n .host none
    (rd.st, rd.bytes)

/-- R483: a read completed; one that meets a poisoned line carries the poisoned mark and counts in HST_POISON_RD. In a stopped start it reads zero
(R478). -/
def runBar2Read (h : Hall) (offset : BitVec 36) (n : Nat) (s : State) : State :=
  if !hostUp s h then (if bootUp s h then { s with hostRead := List.replicate n 0, hostReadPoison := false } else s) else
    let pa := bar2Pa (getHall s h) offset
    let r := (boltPieces (n + 1) pa n).foldl (fun (r : State × List (Byte × Bool)) x =>
      let p := bar2Piece r.1 h x.1 x.2
      (p.1, r.2 ++ p.2)) (s, [])
    let poison := r.2.any (·.2)
    let s := if poison then modHall r.1 h fun hl => { hl with poisonRd := hl.poisonRd + 1 } else r.1
    { s with hostRead := r.2.map (·.1), hostReadPoison := poison }

/-- BAR2_READ (R483): the completion is held in `hostRead`. -/
def execBar2Read (h : Hall) (offset : BitVec 36) (len : Nat) (s : State) : Host.Outcome State Fault Refusal :=
  .next (runBar2Read h offset len s)

/-- R483: a BAR2 write, bolt by bolt; at or above the usable capacity it is discarded. -/
def runBar2Write (h : Hall) (offset : BitVec 36) (data : List Byte) (s : State) : State :=
  if !hostUp s h then s else
    let pa := bar2Pa (getHall s h) offset
    (boltPieces (data.length + 1) pa data.length).foldl (fun s x =>
      if s.order.usable ≤ x.1 then s
      else (hubWrite s (hostStop h) .host x.1 (((data.drop (x.1 - pa)).take x.2).map fun b => (b, false)) none).st) s

/-- BAR2_WRITE (R483). -/
def execBar2Write (h : Hall) (offset : BitVec 36) (data : List Byte) (s : State) : Host.Outcome State Fault Refusal :=
  .next (runBar2Write h offset data s)

end Sys2Proof.Machine
end

