-- ==== Sys2Proof/Machine/Dispatch.lean ====
section
/-! DEFINITION. The meaning of every command: one arm per constructor, each a direct call of its meaning. -/

namespace Sys2Proof.Machine

/-- The effect of a command on everything but the queue of pending commands. -/
def exec (i : Instr) (s : State) : Host.Outcome State Fault Refusal :=
  match i with
  | .ctlNop q => Sys2Proof.Machine.execCtlNop q s
  | .semWait q => Sys2Proof.Machine.execSemWait q s
  | .semSignal q => Sys2Proof.Machine.execSemSignal q s
  | .fence q => Sys2Proof.Machine.execFence q s
  | .fenceEvent q => Sys2Proof.Machine.execFenceEvent q s
  | .syncSwapmark n k => Sys2Proof.Machine.execSyncSwapmark n k s
  | .loomLoadw n => Sys2Proof.Machine.execLoomLoadw n s
  | .loadwWritePart n => Sys2Proof.Machine.execLoadwWritePart n s
  | .loomMatmul n => Sys2Proof.Machine.execLoomMatmul n s
  | .loomMatmulT n => Sys2Proof.Machine.execLoomMatmulT n s
  | .lampLoadf n => Sys2Proof.Machine.execLampLoadf n s
  | .lampPredict n => Sys2Proof.Machine.execLampPredict n s
  | .bitmapReplace n => Sys2Proof.Machine.execBitmapReplace n s
  | .glnConfig n => Sys2Proof.Machine.execGlnConfig n s
  | .glnFence n => Sys2Proof.Machine.execGlnFence n s
  | .wvrSpmm n => Sys2Proof.Machine.execWvrSpmm n s
  | .wvrGather n => Sys2Proof.Machine.execWvrGather n s
  | .wvrDispatch n => Sys2Proof.Machine.execWvrDispatch n s
  | .maskScout n => Sys2Proof.Machine.execMaskScout n s
  | .fulRun n => Sys2Proof.Machine.execFulRun n s
  | .fulSoftmax n => Sys2Proof.Machine.execFulSoftmax n s
  | .fulAdam n => Sys2Proof.Machine.execFulAdam n s
  | .fulSgdm n => Sys2Proof.Machine.execFulSgdm n s
  | .maskPrune n => Sys2Proof.Machine.execMaskPrune n s
  | .maskRegrow n => Sys2Proof.Machine.execMaskRegrow n s
  | .maskRepair n => Sys2Proof.Machine.execMaskRepair n s
  | .ctrCopy n => Sys2Proof.Machine.execCtrCopy n s
  | .ctrFill n => Sys2Proof.Machine.execCtrFill n s
  | .ctrPermute n => Sys2Proof.Machine.execCtrPermute n s
  | .drvAllgather h j => Sys2Proof.Machine.execDrvAllgather h j s
  | .drvRedscat h j => Sys2Proof.Machine.execDrvRedscat h j s
  | .drvBcast h j => Sys2Proof.Machine.execDrvBcast h j s
  | .drvBarrier h j => Sys2Proof.Machine.execDrvBarrier h j s
  | .commandFetch q => Sys2Proof.Machine.execCommandFetch q s
  | .waitMet q => Sys2Proof.Machine.execWaitMet q s
  | .grantAdmit h => Sys2Proof.Machine.execGrantAdmit h s
  | .semaphoreSignalApply ix => Sys2Proof.Machine.execSemaphoreSignalApply ix s
  | .brokenMark q => Sys2Proof.Machine.execBrokenMark q s
  | .swapWindowOpen n => Sys2Proof.Machine.execSwapWindowOpen n s
  | .swapWindowClose n => Sys2Proof.Machine.execSwapWindowClose n s
  | .qDoorbell q v => Sys2Proof.Machine.execQDoorbell q v s
  | .qRestart q v => Sys2Proof.Machine.execQRestart q v s
  | .qEnable q v => Sys2Proof.Machine.execQEnable q v s
  | .qDisable q v => Sys2Proof.Machine.execQDisable q v s
  | .semAdd h ix v => Sys2Proof.Machine.execSemAdd h ix v s
  | .semSet h ix v => Sys2Proof.Machine.execSemSet h ix v s
  | .stwOwnWrite n v => Sys2Proof.Machine.execStwOwnWrite n v s
  | .stwSemgrpWrite h g v => Sys2Proof.Machine.execStwSemgrpWrite h g v s
  | .xlateInv v => Sys2Proof.Machine.execXlateInv v s
  | .xlateInvDone => Sys2Proof.Machine.execXlateInvDone s
  | .seaSlotCfgWrite j ix v => Sys2Proof.Machine.execSeaSlotCfgWrite j ix v s
  | .seaJobEnable j v => Sys2Proof.Machine.execSeaJobEnable j v s
  | .seaJobDiscard j => Sys2Proof.Machine.execSeaJobDiscard j s
  | .sealerClose j => Sys2Proof.Machine.execSealerClose j s
  | .tnkReqWrite h v => Sys2Proof.Machine.execTnkReqWrite h v s
  | .asyInject h p v => Sys2Proof.Machine.execAsyInject h p v s
  | .flipArm t v => Sys2Proof.Machine.execFlipArm t v s
  | .hubPkgRetire h j ix => Sys2Proof.Machine.execHubPkgRetire h j ix s
  | .lnkLaneRetireWrite h p v => Sys2Proof.Machine.execLnkLaneRetireWrite h p v s
  | .belStickyClear h v => Sys2Proof.Machine.execBelStickyClear h v s
  | .belForce h v => Sys2Proof.Machine.execBelForce h v s
  | .killedClear j => Sys2Proof.Machine.execKilledClear j s
  | .selftestStart found => Sys2Proof.Machine.execSelftestStart found s
  | .copEnable j v => Sys2Proof.Machine.execCopEnable j v s
  | .copRestore j => Sys2Proof.Machine.execCopRestore j s
  | .copFetch j => Sys2Proof.Machine.execCopFetch j s
  | .copIntervalWrite j v => Sys2Proof.Machine.execCopIntervalWrite j v s
  | .cooperTrigger j => Sys2Proof.Machine.execCooperTrigger j s
  | .cooperCopyDone j => Sys2Proof.Machine.execCooperCopyDone j s
  | .stwStartRetry h => Sys2Proof.Machine.execStwStartRetry h s
  | .hallReload h v => Sys2Proof.Machine.execHallReload h v s
  | .flashRead h => Sys2Proof.Machine.execFlashRead h s
  | .flashProgram h => Sys2Proof.Machine.execFlashProgram h s
  | .flashErase h => Sys2Proof.Machine.execFlashErase h s
  | .flashOpReserved h => Sys2Proof.Machine.execFlashOpReserved h s
  | .scbRingEnable h v => Sys2Proof.Machine.execScbRingEnable h v s
  | .scbRingConsWrite h v => Sys2Proof.Machine.execScbRingConsWrite h v s
  | .registerWrite h addr width v => Sys2Proof.Machine.execRegisterWrite h addr width v s
  | .bar2Read h offset len => Sys2Proof.Machine.execBar2Read h offset len s
  | .bar2Write h offset data => Sys2Proof.Machine.execBar2Write h offset data s
  | .eventWrite h => Sys2Proof.Machine.execEventWrite h s
  | .msixFire h v => Sys2Proof.Machine.execMsixFire h v s
  | .bellmanReport h src cls job => Sys2Proof.Machine.execBellmanReport h src cls job s
  | .slotDrop n => Sys2Proof.Machine.execSlotDrop n s
  | .aliveToggle => Sys2Proof.Machine.execAliveToggle s
  | .hubReadRequest pa len a job => Sys2Proof.Machine.execHubReadRequest pa len a job s
  | .hubWriteRequest pa data a job => Sys2Proof.Machine.execHubWriteRequest pa data a job s
  | .hubFenceFlush h j job => Sys2Proof.Machine.execHubFenceFlush h j job s
  | .patrolScrub h j ch => Sys2Proof.Machine.execPatrolScrub h j ch s
  | .refresh h j ch => Sys2Proof.Machine.execRefresh h j ch s
  | .mr4Read h j ix temp => Sys2Proof.Machine.execMr4Read h j ix temp s
  | .wck2dqTrack h j ch reading => Sys2Proof.Machine.execWck2dqTrack h j ch reading s
  | .retrainWindow h j ch ok => Sys2Proof.Machine.execRetrainWindow h j ch ok s
  | .repairLogAppend h => Sys2Proof.Machine.execRepairLogAppend h s
  | .meshResend h x => Sys2Proof.Machine.execMeshResend h x s
  | .meshLost h x => Sys2Proof.Machine.execMeshLost h x s
  | .routerFailed h stop => Sys2Proof.Machine.execRouterFailed h stop s
  | .seamWireLog h link wire => Sys2Proof.Machine.execSeamWireLog h link wire s
  | .frameReceive h p header payload headWords dataWords => Sys2Proof.Machine.execFrameReceive h p header payload headWords dataWords s
  | .controlCodeword h p c => Sys2Proof.Machine.execControlCodeword h p c s
  | .frameReplayTimeout h p => Sys2Proof.Machine.execFrameReplayTimeout h p s
  | .laneRotate h p => Sys2Proof.Machine.execLaneRotate h p s
  | .laneRetire h p lane => Sys2Proof.Machine.execLaneRetire h p lane s
  | .portTrain h p t peer => Sys2Proof.Machine.execPortTrain h p t peer s
  | .linkClockLost h p => Sys2Proof.Machine.execLinkClockLost h p s
  | .drvTimeout h j => Sys2Proof.Machine.execDrvTimeout h j s
  | .benchPeriodStart h => Sys2Proof.Machine.execBenchPeriodStart h s
  | .benchRound h matched test => Sys2Proof.Machine.execBenchRound h matched test s
  | .benchPause h => Sys2Proof.Machine.execBenchPause h s
  | .millerWindow iIn vIn => Sys2Proof.Machine.execMillerWindow iIn vIn s
  | .millerYield h => Sys2Proof.Machine.execMillerYield h s
  | .derateEnd => Sys2Proof.Machine.execDerateEnd s
  | .coldStart => Sys2Proof.Machine.execColdStart s
  | .efuseTrip => Sys2Proof.Machine.execEfuseTrip s
  | .vrFault supply => Sys2Proof.Machine.execVrFault supply s
  | .vinOut vIn => Sys2Proof.Machine.execVinOut vIn s
  | .thermWarn r => Sys2Proof.Machine.execThermWarn r s
  | .thermTrip temp => Sys2Proof.Machine.execThermTrip temp s
  | .pllUnlock d => Sys2Proof.Machine.execPllUnlock d s
  | .stewardWatchdog h => Sys2Proof.Machine.execStewardWatchdog h s
  | .hostLinkDown h => Sys2Proof.Machine.execHostLinkDown h s
  | .chainEnum f => Sys2Proof.Machine.execChainEnum f s
  | .chainSetLfa f => Sys2Proof.Machine.execChainSetLfa f s
  | .chainStatus f => Sys2Proof.Machine.execChainStatus f s
  | .chainIdent f => Sys2Proof.Machine.execChainIdent f s
  | .chainRestart f => Sys2Proof.Machine.execChainRestart f s
  | .chainForward type f => Sys2Proof.Machine.execChainForward type f s
  | .chainInputLost => Sys2Proof.Machine.execChainInputLost s
  | .bypass => Sys2Proof.Machine.execBypass s
  | .samplePreload u => Sys2Proof.Machine.execSamplePreload u s
  | .extest => Sys2Proof.Machine.execExtest s
  | .clamp => Sys2Proof.Machine.execClamp s
  | .idcode => Sys2Proof.Machine.execIdcode s
  | .trstReset => Sys2Proof.Machine.execTrstReset s
  | .mgmtSupplyUp => Sys2Proof.Machine.execMgmtSupplyUp s
  | .mgmtSupplyLost => Sys2Proof.Machine.execMgmtSupplyLost s
  | .thermWarnClear => Sys2Proof.Machine.execThermWarnClear s
  | .hostLinkUp h => Sys2Proof.Machine.execHostLinkUp h s
  | .pcieConfigWrite h bar0 bar2 c => Sys2Proof.Machine.execPcieConfigWrite h bar0 bar2 c s
  | .copFetchTimeout j => Sys2Proof.Machine.execCopFetchTimeout j s

end Sys2Proof.Machine
end

