-- ==== Sys2Proof/Machine/RegRead.lean ====
section
/-! DEFINITION. What a host read of BAR0 returns (21 and the register tables of every chapter): the value of each register as a function
of the state. A read changes nothing (R499, R500), and the table has no command for it. -/

namespace Sys2Proof.Machine

/-! ## Fields -/

/-- R511: a flip-mask register read. -/
def flipWord (checkAt : Nat) (f : Flip) : Nat := boolNat f.arm * 2 ^ 31 + f.check * 2 ^ checkAt + f.data

/-- An ECC register read. -/
def eccWord (e : Ecc) : Nat := e.ce * 2 ^ 16 + e.ue

/-- A signed eight-bit field. -/
def byteField (t : Int) : Nat := (t % 256).toNat

/-- An ownership register read (R505, R506). -/
def ownerWord (o : Owner) : Nat := boolNat o.owned * 2 ^ 31 + o.job.toNat

/-! ## The start and Steward tables (R496, R504 to R507) -/

def readStart (hl : HallState) (a : Nat) : Nat :=
  if a = 0x00 then startCode hl.start
  else if a = 0x04 then boolNat hl.reloadMakeActive * 2 ^ 30 + boolNat hl.reloadSlot * 2 ^ 29 + hl.reloadStatus
  else if a = 0x08 then
    boolNat hl.imageSlot * 2 ^ 31 + boolNat hl.imageFallback * 2 ^ 30 + hl.imageLogBad % 2 ^ 14 * 2 ^ 16 + hl.imageVersion.toNat % 2 ^ 16
  else if a = 0x10 then hl.flashStatus * 2 ^ 28 + hl.flashOp.toNat
  else if a = 0x14 then hl.flashAddr.toNat
  else if 0x100 ≤ a ∧ a < 0x200 then leNat ((List.range 4).map fun i => tabGet 0 hl.mailbox (a - 0x100 + i))
  else 0

/-- R504: STW_MAP. -/
def mapWord (c : LCore) (down : Bool) : Nat := boolNat c.fenced * 2 ^ 31 + boolNat (c.swap.isSome && !down) * 2 ^ 30 + c.pos

def readSteward (s : State) (h a : Nat) : Nat :=
  if a < 0x10100 then mapWord (getCore s (64 * h + (a - 0x10000) / 4)) ((getHall s h).down || s.moduleDown)
  else if a < 0x10200 then ownerWord (getOwn s (64 * h + (a - 0x10100) / 4))
  else if a < 0x10300 then ownerWord (getSemGrp s (64 * h + (a - 0x10200) / 4))
  else if a = 0x10300 then (getHall s h).swapCount.toNat
  else if a = 0x10304 then h * 2 ^ 31 + s.order.code * 2 ^ 28 + s.rate.code * 2 ^ 26
  else 0

/-! ## Queue blocks (R45) -/

/-- R45: STW_Q_STAT.STATE. -/
def queueCode (x : QState) : Nat :=
  match x with
  | .disabled => 0
  | .idle => 1
  | .run => 2
  | .wait => 3
  | .mark => 4
  | .haltFault => 5
  | .haltWait => 6
  | .fenced => 7

def readQueue (s : State) (h : Hall) (a : Nat) : Nat :=
  let k := qKey (queueAt h a)
  let q := getQueue s k
  let o := a % 64
  if o = 0x10 then boolNat q.enable * 2 ^ 16 + (qJob s k).toNat * 2 ^ 8 + q.sizeLog2.toNat
  else if o = 0x18 then q.lastStatus.toNat * 2 ^ 16 + q.inflight.length * 2 ^ 8 + queueCode q.state
  else if o = 0x1C then q.cmplSeq.toNat
  else if o = 0x20 then q.haltSeq.toNat
  else 0

/-! ## Sealer and Tinker (R280, R304) -/

def slotWordAt (s : State) (a : Nat) : Nat :=
  let n := (a - 0x40000) / 16
  let x := getSlot s (n / 256) (n % 256)
  let o := a % 16
  if n % 256 = 255 then 0
  else if o = 0 then
    boolNat x.fixed * 2 ^ 31 + boolNat x.kind * 2 ^ 30 + x.head * 2 ^ 27 + x.fall * 2 ^ 16 + byteField x.t
  else if o = 4 then x.silent * 2 ^ 16 + x.thresh
  else if o = 8 then byteField x.lrun * 2 ^ 8 + x.quiet
  else 0

/-- R280, R454: a semaphore field: the hall's bit above the index. -/
def semField (k : Nat) (hallAt : Nat) : Nat := k / 4096 * 2 ^ hallAt + k % 4096

def readSealer (s : State) (h a : Nat) : Nat :=
  if a < 0x50400 then
    let j := getJob s ((a - 0x50000) / 64)
    let o := a % 64
    if o = 0 then
      boolNat j.seaEnable * 2 ^ 31 + j.doneSem / 4096 * 2 ^ 28 + j.doneSem % 4096 * 2 ^ 16 + semField j.closeSem 12
    else if o = 0x10 then j.closes.toNat
    else 0
  else if a = 0x51000 then flipWord 16 (getHall s h).seaFlip
  else if a = 0x51004 then eccWord (getHall s h).seaEcc
  else 0

/-- TNK_POS.STATE. -/
def posCode (x : PosStatus) : Nat :=
  match x with
  | .inService => 0
  | .bench => 1
  | .ready => 2
  | .retired => 3
  | .hole => 4

/-- R304, R509: FENCED: the position is in service and fenced. -/
def fencedBit (ps : Position) : Nat := boolNat (ps.status == .inService && ps.fenced)

/-- R304: TNK_POS. -/
def tnkPosWord (now : W64) (ps : Position) : Nat :=
  posCode ps.status * 2 ^ 29 + fencedBit ps * 2 ^ 28 + ps.assays * 2 ^ 26 + ps.ueSince * 2 ^ 24 + benchAge now ps

def readTinker (s : State) (h a : Nat) : Nat :=
  let hl := getHall s h
  if a = 0x60000 then boolNat hl.tnkEnable * 2 ^ 31 + hl.tnkPeriod * 2 ^ 16 + hl.tnkRotAge
  else if a = 0x60004 then
    boolNat hl.tnkActive * 2 ^ 31 + hl.tnkVerdict * 2 ^ 29 + min 31 hl.tnkSlack * 2 ^ 24 + hl.tnkPos * 2 ^ 16 + hl.tnkRounds
  else if a = 0x60008 then boolNat hl.tnkReqPending * 2 ^ 31 + hl.tnkReqPos.toNat
  else if a = 0x6000C then hl.tnkRuns.toNat
  else if a = 0x60010 then hl.tnkRetired.toNat
  else if 0x60100 ≤ a ∧ a < 0x60220 then tnkPosWord (now s h) (getPos s (72 * h + (a - 0x60100) / 4))
  else 0

/-! ## Translation, mesh and Joiner (R326, R379) -/

/-- R326: STW_XLATE_INV. -/
def xlateInvWord (s : State) : Nat :=
  let jobs := ((List.range 16).map fun j => boolNat (getJob s j).invalidating * 2 ^ j).sum
  boolNat (jobs != 0) * 2 ^ 31 + jobs

def readMesh (s : State) (h a : Nat) : Nat :=
  let hl := getHall s h
  if a = 0x80000 then
    (match hl.holes with
     | [] => 0
     | [x] => 2 ^ 23 + x * 2 ^ 16
     | x :: y :: _ => 2 ^ 31 + y * 2 ^ 24 + 2 ^ 23 + x * 2 ^ 16) + hl.tableGen.toNat
  else if a = 0x80004 then hl.meshDetour.toNat
  else if a = 0x80008 then hl.meshResend.toNat
  else if a = 0x8000C then hl.meshLost.toNat
  else if a = 0x80010 then (s.promotes.getD h 0).toNat
  else if a = 0x80014 then eccWord hl.meshEcc
  else if a = 0x80018 then flipWord 16 hl.meshFlip + hl.meshFlip.sel * 2 ^ 24
  else if 0x80100 ≤ a ∧ a < 0x80148 then
    let l := getSeam hl ((a - 0x80100) / 4)
    boolNat l.up * 2 ^ 31 + boolNat l.out * 2 ^ 30 + l.spares * 2 ^ 16 + l.ce
  else if a = 0x80200 then flipWord 16 hl.seamFlip + hl.seamFlip.sel * 2 ^ 26
  else 0

/-! ## Bellman, jobs, Cooper (R452 to R454) -/

/-- R452, R534: a held class, 0 while its sticky bit is clear. -/
def heldField (hl : HallState) (src held : Nat) : Nat := if bitOf hl.sticky.toNat src then held else 0

/-- R452. DEDUCED (log entry 194): ALIVE_EN reads its reset value until the time base moves. -/
def readBellman (s : State) (h a : Nat) : Nat :=
  let hl := getHall s h
  if a = 0x90018 then
    boolNat (decide (0 < (now s h).toNat) && aliveEnable hl) * 2 ^ 31 + boolNat s.aliveLevel * 2 ^ 30 + boolNat hl.down * 2 ^ 29
      + boolNat (getHall s (1 - h)).down * 2 ^ 28 + boolNat s.moduleDown * 2 ^ 27
  else if a = 0x9001C then
    heldField hl 32 hl.heldVr * 2 ^ 9 + heldField hl 12 hl.heldPll * 2 ^ 6 + heldField hl 11 hl.heldSeam * 2 ^ 3
      + heldField hl 8 hl.heldRouter
  else 0

def readJobStat (s : State) (a : Nat) : Nat :=
  if 0x90100 ≤ a ∧ a < 0x90140 then
    let j := getJob s ((a - 0x90100) / 4)
    boolNat j.killed * 2 ^ 31 + j.cause * 2 ^ 28
  else if a = 0x90300 then s.selfTest.status * 2 ^ 28 + s.selfTest.seconds
  else 0

/-- R445, R454: fetch data of a job context that waits to be sent, or for its acknowledgement. -/
def servesFetch (s : State) (tag : W32) : Bool :=
  let data (f : Frame) : Bool := f.kind == 3 && f.jobTag == tag && f.collId == 4
  (List.range 12).any fun k => (getPort s k).egress.any data || (getPort s k).retry.any fun u => data u.frame

/-- R454: COP_JOB_STAT.BUSY. -/
def copBusy (s : State) (j : JobState) : Bool :=
  j.opening.isSome || j.closing.isSome || j.restoring || j.fetching || servesFetch s j.tag

def readCooper (s : State) (a : Nat) : Nat :=
  let j := getJob s ((a - 0xA0000) / 128)
  let o := a % 128
  if o = 0 then
    boolNat j.copEnable * 2 ^ 31 + j.copChmask.toNat * 2 ^ 28 + j.copDone / 4096 * 2 ^ 25 + j.copDone % 4096 * 2 ^ 13
      + semField j.copTrig 12
  else if o = 0x38 then j.copStep.toNat
  else if o = 0x3C then (if j.cost = 0 ∨ j.mtbi = 0 then 0 else j.recLog2) * 2 ^ 16 + j.log2
  else if o = 0x40 then j.cost.toNat
  else if o = 0x44 then j.tstep.toNat
  else if o = 0x48 then j.mtbi.toNat
  else if o = 0x4C then boolNat j.restoring * 2 ^ 31 + boolNat j.fetching * 2 ^ 30
  else if o = 0x50 then boolNat (copBusy s j) * 2 ^ 31 + j.mode * 2 ^ 28 + j.result * 2 ^ 24
  else 0

/-! ## Miller (R469) -/

/-- R469: what the standing rows and both halls' grants take of the limit. -/
def reservedNow (s : State) : Nat :=
  standing s.miller + grantedIn s 0 + grantedIn s 1 + (getHall s 0).lent + (getHall s 1).lent

/-- R469: a value of the measuring part, 0 before its first window. -/
def windowValue (m : Miller) (x : Nat) : Nat := if m.lastWindow = 0 then 0 else x % 2 ^ 16

/-- R461, R469: MLR_QWAIT of a queue, with what its request has waited so far. -/
def qwaitNow (s : State) (k : Nat) : Nat := ((getQueue s k).qwait + BitVec.ofNat 32 (waitedFor s k)).toNat

def readMiller (s : State) (h a : Nat) : Nat :=
  let m := s.miller
  let hl := getHall s h
  if a = 0xB0000 then m.budget
  else if a = 0xB0004 then m.lend * 2 ^ 24 + m.margin * 2 ^ 16 + m.slack * 2 ^ 8 + m.coopCc * 2 ^ 5 + m.warn
  else if a = 0xB0008 then m.yield
  else if 0xB0010 ≤ a ∧ a < 0xB0030 then m.classes.getD ((a - 0xB0010) / 4) 0
  else if 0xB0030 ≤ a ∧ a < 0xB0040 then m.stand.getD ((a - 0xB0030) / 4) 0
  else if a = 0xB0040 then m.iIn % 2 ^ 16 * 2 ^ 16 + m.vIn % 2 ^ 16
  else if a = 0xB0044 then windowValue m (aEff m) * 2 ^ 16 + windowValue m (reservedNow s)
  else if a = 0xB0048 then windowValue m hl.share * 2 ^ 16 + hl.lent % 2 ^ 16
  else if a = 0xB004C then boolNat m.throttle * 2 ^ 31 + boolNat m.derate * 2 ^ 30 + boolNat m.vinOut * 2 ^ 29
  else if a = 0xB0050 then (throttleCount m (now s 0)).toNat
  else if a = 0xB0054 then (m.benchWait + BitVec.ofNat 32 (benchWaited s 0 + benchWaited s 1)).toNat
  else if 0xB1000 ≤ a ∧ a < 0xB1400 then qwaitNow s (256 * h + (a - 0xB1000) / 4)
  else if 0xB1400 ≤ a ∧ a < 0xB1440 then qwaitNow s (512 + 16 * h + (a - 0xB1400) / 4)
  else 0

/-! ## Core blocks (R509) -/

/-- R153: the half of LOM_PLANE for one plane. -/
def planeHalf (p : Option Plane) : Nat :=
  match p with
  | none => 0
  | some p => 2 ^ 15 + boolNat p.trans * 2 ^ 14 + p.place * 2 ^ 11 + p.pat.toNat * 2 ^ 4 + p.fmt.toNat

/-- R153: LOM_ACC. -/
def accWord (a : Option Acc) : Nat :=
  match a with
  | none => 0
  | some a => 2 ^ 16 + (a.rows - 1) * 2 ^ 8 + a.path

/-- R220: LMP_STATE. -/
def lmpWord (c : LCore) : Nat :=
  boolNat ((c.proj.map (·.isOpen)).getD false) * 2 ^ 31 + boolNat ((c.proj.map fun p => !p.isOpen).getD false) * 2 ^ 30
    + boolNat c.bitmap.isSome * 2 ^ 29 + boolNat c.slot1.isSome * 2 ^ 28 + boolNat c.slot0.isSome * 2 ^ 27
    + ((c.bitmap.map fun b => (b.rows - 1) * 2 ^ 8 + (b.nspan - 1)).getD 0)

/-- R211, R220: the log in use, in units of 64 bytes: to the end of the last entry and, of a LAST command, its bitmap. -/
def logUsed (g : Gleaner) : Nat := (g.log.getLast?.map fun e => e.used).getD 0

/-- R220: GLN_STATE. -/
def glnWord (g : Gleaner) : Nat := g.mode * 2 ^ 30 + g.nlog2 * 2 ^ 26 + boolNat g.pending * 2 ^ 25 + logUsed g

/-- R509: a register that follows the logical core: 0 where none is mapped. -/
def mappedWord (s : State) (p : Nat) (f : LCore → Nat) : Nat :=
  match posCore s p with
  | none => 0
  | some n => f (getCore s n)

/-- R509: STW_POS_STAT. -/
def posStatWord (s : State) (p : Nat) : Nat :=
  let ps := getPos s p
  posCode ps.status * 2 ^ 29 + fencedBit ps * 2 ^ 28 + boolNat ps.islandOn * 2 ^ 27
    + (match posCore s p with
       | none => 0
       | some n => 2 ^ 23 + n * 2 ^ 16 + (getOwn s n).job.toNat * 2 ^ 8 + boolNat (getOwn s n).owned * 2 ^ 7)
    + p % 72

/-- R303: ASY_LAST. -/
def asyLastWord (p : Position) : Nat :=
  boolNat p.asyLastValid * 2 ^ 31 + boolNat p.asyLastColValid * 2 ^ 30 + boolNat p.asyLastRowValid * 2 ^ 29 + p.asyLastCol * 2 ^ 16
    + p.asyLastRow

/-- The Loom, drain and Weaver registers of a core block. -/
def readLoomRegs (s : State) (k o : Nat) : Nat :=
  let p := getPos s k
  if o = 0x0000 then posStatWord s k
  else if o = 0x1000 then mappedWord s k fun c => planeHalf c.plane1 * 2 ^ 16 + planeHalf c.plane0
  else if o = 0x1004 then mappedWord s k fun c => accWord c.acc
  else if o = 0x1008 then p.bandTotal.toNat
  else if o = 0x100C then p.feedWait.toNat
  else if o = 0x1100 then p.drnSat.toNat
  else if o = 0x1104 then p.drnNanTile.toNat
  else if o = 0x1108 then flipWord 16 p.drnFlip
  else if o = 0x110C then eccWord p.drnEcc
  else if o = 0x1200 then p.wvrMatch.toNat
  else if o = 0x1204 then p.wvrQfull.toNat
  else if o = 0x1208 then p.wvrDrop.toNat
  else if o = 0x120C then flipWord 16 p.wvrFlip
  else if o = 0x1210 then eccWord p.wvrEcc
  else 0

/-- The Lamplighter, Gleaner and Fuller registers of a core block. -/
def readLampRegs (s : State) (k o : Nat) : Nat :=
  let p := getPos s k
  if o = 0x1300 then mappedWord s k lmpWord
  else if o = 0x1304 then p.lmpActive.toNat
  else if o = 0x1308 then p.lmpSkip.toNat
  else if o = 0x130C then flipWord 16 p.lmpFlip
  else if o = 0x1310 then eccWord p.lmpEcc
  else if o = 0x1380 then mappedWord s k fun c => glnWord c.gln
  else if o = 0x1384 then p.glnMadeupCyc.toNat
  else if o = 0x1388 then p.glnAbandon.toNat
  else if o = 0x1400 then p.fulOdd.toNat
  else if o = 0x1404 then p.fulBusy.toNat
  else if o = 0x1408 then flipWord 16 p.fulFlip
  else if o = 0x140C then eccWord p.fulEcc
  else 0

/-- The Assayer, Carter and store registers of a core block. -/
def readAssayRegs (p : Position) (o : Nat) : Nat :=
  if o = 0x1500 then boolNat p.asyInject * 2 ^ 31 + boolNat p.asyEnable
  else if o = 0x1504 then p.asyPasses.toNat
  else if o = 0x1508 then p.asyMismatch.toNat
  else if o = 0x150C then p.asyUnchecked.toNat
  else if o = 0x1510 then p.asyCrcRetry.toNat
  else if o = 0x1514 then p.asyCrcFail.toNat
  else if o = 0x1518 then asyLastWord p
  else if o = 0x151C then flipWord 16 p.asyFlip
  else if o = 0x1520 then flipWord 16 p.asyCrcFlip
  else if o = 0x1524 then eccWord p.asyEcc
  else if o = 0x1600 then p.ctrRd.toNat
  else if o = 0x1604 then p.ctrWr.toNat
  else if o = 0x1608 then p.ctrNarrow.toNat
  else if o = 0x160C then p.ctrXmiss.toNat
  else if o = 0x1610 then flipWord 16 p.ctrFlip
  else if o = 0x1614 then eccWord p.ctrEcc
  else if o = 0x1700 then flipWord 8 p.stoFlip
  else if o = 0x1704 then eccWord p.stoEcc
  else 0

/-- R509: a core block read; a hole's reads zero (R367). -/
def readCoreBlock (s : State) (h a : Nat) : Nat :=
  let k := 72 * h + (a - 0x100000) / 0x10000
  let o := a % 0x10000
  if (getPos s k).status = .hole then 0
  else if o < 0x1300 then readLoomRegs s k o
  else if o < 0x1500 then readLampRegs s k o
  else readAssayRegs (getPos s k) o

/-! ## Hubs, links, Drover (R350, R401, R421) -/

/-- R343: how far the scrub pass has come, over the rows of the hub's live channels, in units of 1/65,536. -/
def scrubProgress (s : State) (hb : HubState) : Nat :=
  let live := (List.range 32).filter fun c => !(getPkg hb (c / 4)).retired
  let rows := live.length * (16 * s.order.rowsPerBank)
  min 0xFFFF ((live.map fun c => (getChannel hb c).scrubPos).sum * 2 ^ 16 / rows)

/-- R350: HUB_STAT. -/
def hubStatWord (s : State) (hk : Nat) : Nat :=
  let hb := getHub s hk
  boolNat (windowOpen s hk) * 2 ^ 23 + hb.window * 2 ^ 24
    + ((List.range 16).filter fun n => (getShadow hb n).valid).length * 2 ^ 16
    + ((List.range 8).map fun i => boolNat (getPkg hb i).retired * 2 ^ (8 + i)).sum + s.rate.code

def readHub (s : State) (h a : Nat) : Nat :=
  let hb := getHub s (8 * h + (a - 0x600000) / 0x10000)
  let o := a % 0x10000
  if o = 0x00 then hubStatWord s (8 * h + (a - 0x600000) / 0x10000)
  else if o = 0x04 then hb.ce.toNat
  else if o = 0x08 then hb.ue.toNat
  else if o = 0x0C then hb.poisonRd.toNat
  else if o = 0x10 then hb.retAcc.toNat
  else if o = 0x14 then hb.flush.toNat
  else if o = 0x18 then hb.scrubPasses.toNat * 2 ^ 16 + scrubProgress s hb
  else if o = 0x28 then boolNat hb.flip.arm * 2 ^ 31 + hb.flip.sel * 2 ^ 16 + hb.flip.data
  else if 0x100 ≤ o ∧ o < 0x120 then
    let p := getPkg hb ((o - 0x100) / 4)
    boolNat p.retired * 2 ^ 31 + p.cause * 2 ^ 29 + p.temp.toNat * 2 ^ 16 + p.hard * 2 ^ 12 + p.retrainFail * 2 ^ 8 + p.repaired
  else if 0x200 ≤ o ∧ o < 0x240 then
    let x := getShadow hb ((o - 0x200) / 4)
    boolNat x.valid * 2 ^ 31 + x.ch * 2 ^ 26 + x.bank * 2 ^ 22 + x.row
  else 0

/-- R401: the bits of the retired lanes of a port. -/
def retiredLanes (p : PortState) : Nat :=
  ((List.range 5).map fun n => boolNat (tabGet ({} : Lane) p.lanes n).retired * 2 ^ n).sum

def readLink (s : State) (h a : Nat) : Nat :=
  let p := getPort s (6 * h + (a - 0x680000) / 0x10000)
  let o := a % 0x10000
  if o = 0x00 then
    boolNat p.up * 2 ^ 31 + p.active * 2 ^ 28 + boolNat p.spare.isSome * 2 ^ 27 + ((p.spare.map (·.val)).getD 0) * 2 ^ 24
      + retiredLanes p * 2 ^ 19 + p.peer.toNat
  else if o = 0x04 then p.rotS.toNat * 2 ^ 8 + retiredLanes p
  else if o = 0x08 then p.fecCorr.toNat
  else if o = 0x0C then p.fecUnc.toNat
  else if o = 0x10 then p.replayed.toNat
  else if o = 0x14 then p.crcRetry.toNat
  else if o = 0x18 then p.rotates.toNat
  else if o = 0x1C then p.drops.toNat
  else if 0x100 ≤ o ∧ o < 0x114 then
    let l := tabGet ({} : Lane) p.lanes ((o - 0x100) / 4)
    l.role * 2 ^ 29 + l.ser * 2 ^ 16 + l.cal.toNat
  else if o = 0x200 then flipWord 16 p.flip + p.flip.sel * 2 ^ 30
  else 0

def readDrvJob (j : JobState) (o : Nat) : Nat :=
  if o = 0 then j.tag.toNat
  else if o = 4 then boolNat j.ringValid * 2 ^ 31 + j.succ.toNat * 2 ^ 16 + j.pred.toNat
  else if o = 8 then (j.tg.getD 1 0).toNat * 2 ^ 16 + (j.tg.getD 0 0).toNat
  else if o = 0xC then (j.tg.getD 3 0).toNat * 2 ^ 16 + (j.tg.getD 2 0).toNat
  else if o = 0x10 then boolNat j.tgValid * 2 ^ 31 + j.tgRank.toNat
  else 0

def readDrover (s : State) (h a : Nat) : Nat :=
  let t := s.timeCfg
  if a < 0x6F0200 then readDrvJob (getJob s ((a - 0x6F0000) / 32)) (a % 32)
  else if a = 0x6F0400 then (getHall s h).drvTimeout
  else if a = 0x6F0500 then
    boolNat t.master * 2 ^ 31 + boolNat t.holdover * 2 ^ 30 + t.source * 2 ^ 20 + t.hops * 2 ^ 12 + t.offset.toNat
  else if 0x6F1000 ≤ a ∧ a < 0x6F1100 then
    let j := getJob s ((a - 0x6F1000) / 16)
    if a % 16 = 8 then j.lastStale.toNat
    else if a % 16 = 0xC then boolNat j.staleValid * 2 ^ 31 + j.staleChunks
    else 0
  else 0

/-! ## Host hub, Scrivener, chain, MSI-X, semaphores (R497, R495, R64) -/

/-- R495: a 32-bit word of the MSI-X table. -/
def msixWord (v : Vector) (o : Nat) : Nat :=
  if o = 0 then v.addr.toNat % 2 ^ 32
  else if o = 4 then v.addr.toNat / 2 ^ 32
  else if o = 8 then v.data.toNat
  else boolNat v.masked

def readHostReg (s : State) (h a : Nat) : Nat :=
  let hl := getHall s h
  if a = 0x700000 then hl.bar2Base.toNat
  else if a = 0x700004 then hl.poisonRd.toNat
  else if a = 0x700008 then hl.bar0Drop.toNat
  else if a = 0x710008 then boolNat hl.ringEnable * 2 ^ 31 + hl.ringSizeLog2
  else if a = 0x71000C then hl.ringProd.toNat
  else if a = 0x710010 then hl.ringCons.toNat
  else if a = 0x710014 then hl.lost.toNat
  else if a = 0x710018 then hl.coalCount * 2 ^ 24 + hl.coalTimer
  else if a = 0x720000 then
    boolNat s.chain.inOk * 2 ^ 31 + boolNat s.chain.lfa.isSome * 2 ^ 30 + (s.chain.lfa.getD 0).toNat * 2 ^ 16 + s.chain.caddr.toNat
  else if 0x7E0000 ≤ a ∧ a < 0x7E0110 then msixWord (getVector hl ((a - 0x7E0000) / 16)) (a % 16)
  else if a = 0x7F0000 then ((List.range 17).map fun v => boolNat (getVector hl v).pendingBit * 2 ^ v).sum
  else 0

/-- R64: WAITERS: the queues whose command waits on a semaphore. -/
def waiters (s : State) (k : Nat) : Nat :=
  (s.queues.filter fun x => match waitingFront s x.1 with
    | none => false
    | some f => hdrWsem f.cmd == k).length

/-- R64: SEM_STATUS. -/
def semStatusWord (s : State) (k : Nat) : Nat :=
  waiters s k * 2 ^ 16 + boolNat (getSem s k).wrap * 2 + boolNat (getSem s k).broken

/-! ## The whole map -/

/-- A 32-bit register at a 4-byte address, 0 where it is reserved (R15). -/
def read32 (s : State) (h : Hall) (a : Nat) : Nat :=
  if a < 0x200 then readStart (getHall s h) a
  else if 0x10000 ≤ a ∧ a < 0x10400 then readSteward s h a
  else if 0x20000 ≤ a ∧ a < 0x24400 then readQueue s h a
  else if 0x40000 ≤ a ∧ a < 0x50000 then slotWordAt s a
  else if 0x50000 ≤ a ∧ a < 0x51008 then readSealer s h a
  else if 0x60000 ≤ a ∧ a < 0x60400 then readTinker s h a
  else if a = 0x70100 then xlateInvWord s
  else if a = 0x70104 then (getHall s h).walks.toNat
  else if 0x80000 ≤ a ∧ a < 0x80400 then readMesh s h a
  else if 0x90000 ≤ a ∧ a < 0x90100 then readBellman s h a
  else if 0x90100 ≤ a ∧ a < 0x90400 then readJobStat s a
  else if 0xA0000 ≤ a ∧ a < 0xA0800 then readCooper s a
  else if 0xB0000 ≤ a ∧ a < 0xB1500 then readMiller s h a
  else if 0x100000 ≤ a ∧ a < 0x580000 then readCoreBlock s h a
  else if 0x600000 ≤ a ∧ a < 0x680000 then readHub s h a
  else if 0x680000 ≤ a ∧ a < 0x6E0000 then readLink s h a
  else if 0x6F0000 ≤ a ∧ a < 0x6F1100 then readDrover s h a
  else if 0x700000 ≤ a ∧ a < 0x800000 then readHostReg s h a
  else if 0x800000 ≤ a ∧ a < 0x1000000 ∧ a % 0x800 = 0x18 then semStatusWord s (4096 * h.val + (a - 0x800000) / 0x800)
  else 0

/-- R454: the bases and sizes of the Cooper. -/
def readCopBase (o : Nat) (j : JobState) : Nat :=
  if o = 0x08 then j.stateBase
  else if o = 0x10 then j.paramBase
  else if o = 0x18 then j.shadowBase
  else if o = 0x20 then j.genBase
  else if o = 0x28 then j.lossBase
  else j.paramSize.toNat * 2 ^ 32 + j.stateSize.toNat

/-- A 64-bit register at an 8-byte address. -/
def read64 (s : State) (h : Hall) (a : Nat) : Nat :=
  if a = 0x10308 then Config.serial.toNat
  else if a = 0x10310 then (now s h).toNat
  else if 0x20000 ≤ a ∧ a < 0x24400 then
    let q := getQueue s (qKey (queueAt h a))
    if a % 64 = 0 then q.base.toNat else q.cbase.toNat
  else if 0x50000 ≤ a ∧ a < 0x50400 then (getJob s ((a - 0x50000) / 64)).recBase
  else if 0x70000 ≤ a ∧ a < 0x70100 then
    let j := getJob s ((a - 0x70000) / 16)
    j.root.toNat * 2 ^ 12 + boolNat j.rootValid
  else if a = 0x90000 then (getHall s h).sticky.toNat
  else if a = 0x90008 then (getHall s h).force.toNat
  else if a = 0x90010 then (getHall s h).aliveMask.toNat
  else if 0x90200 ≤ a ∧ a < 0x90280 then
    let j := getJob s ((a - 0x90200) / 8)
    boolNat j.slotmapEnable * 2 ^ 63 + j.slotmapBase
  else if 0xA0000 ≤ a ∧ a < 0xA0800 then readCopBase (a % 128) (getJob s ((a - 0xA0000) / 128))
  else if 0x600000 ≤ a ∧ a < 0x680000 then
    let hb := getHub s (8 * h.val + (a - 0x600000) / 0x10000)
    if a % 0x10000 = 0x30 then hb.flipChk.toNat else boolNat hb.lastUeValid * 2 ^ 63 + hb.lastUePa
  else if 0x6F1000 ≤ a ∧ a < 0x6F1100 then
    let j := getJob s ((a - 0x6F1000) / 16)
    boolNat j.ledgerEnable * 2 ^ 63 + j.ledgerBase
  else if a = 0x710000 then (getHall s h).ringBase.toNat
  else if 0x800000 ≤ a ∧ a < 0x1000000 ∧ a % 0x800 = 0 then (getSem s (4096 * h.val + (a - 0x800000) / 0x800)).value.toNat
  else 0

/-- R500: the 4-byte word at a 4-byte address; half of a 64-bit register where it belongs to one. -/
def regWord (s : State) (h : Hall) (a : Nat) : Nat :=
  if !bootUp s h then 0xFFFFFFFF
  else if !hostUp s h ∧ 0x200 ≤ a then 0
  else if blockLost s h a then 0xFFFFFFFF
  else if is64 (a / 8 * 8) then
    let v := read64 s h (a / 8 * 8)
    if a % 8 = 0 then v % 2 ^ 32 else v / 2 ^ 32
  else read32 s h a % 2 ^ 32

/-- R499, R500: an aligned read of 4 or 8 bytes; a narrower one is part of the containing word. -/
def regRead (s : State) (h : Hall) (a n : Nat) : Nat :=
  if n = 8 then regWord s h a + regWord s h (a + 4) * 2 ^ 32
  else bitsOf (regWord s h (a / 4 * 4)) (8 * (a % 4)) (8 * min n 4)

/-- R482, R484, R495: what a configuration read finds in a field; all ones where the endpoint does not answer. The manual gives the fields, PCIe their
places (log entry 196). -/
def configRead (s : State) (h : Hall) (f : ConfigField) : Nat :=
  let hl := getHall s h
  if !bootUp s h then 0xFFFFFFFFFFFFFFFF else
    match f with
    | .vendorId => Config.vendorId.toNat
    | .deviceId => 0x5A20 + h.val
    | .classCode => 0x120000
    | .maxPayload => 512
    | .vectors => 17
    | .bar0 => hl.bar0Addr.toNat
    | .bar2 => hl.bar2Addr.toNat
    | .busMaster => boolNat hl.busMaster
    | .msixEnable => boolNat hl.msixEnable
    | .msixMask => boolNat hl.msixMask

end Sys2Proof.Machine
end

