-- ==== Sys2Proof/Safety.lean ====
section
/-! DEFINITION. What counts as a safe run, and the invariants and outcomes that the statements speak of. -/

namespace Sys2Proof.Machine

/-- A step that neither faults nor refuses. -/
def stepCompletes (s : State) : Bool :=
  match step s with
  | .next _ => true
  | .fault _ => false
  | .refused _ => false

/-! ## The canonical form of the tables -/

/-- Every sparse table of the state is in its one form: keys strictly rising, and no entry equal to what an unlisted key reads as. -/
structure Canonical (s : State) : Prop where
  queues : tabWf {} s.queues = true
  sems : tabWf {} s.sems = true
  semGrp : tabWf {} s.semGrp = true
  own : tabWf {} s.own = true
  lcores : tabWf {} s.lcores = true
  positions : tabWf {} s.positions = true
  halls : tabWf resetHall s.halls = true
  hubs : tabWf {} s.hubs = true
  ports : tabWf {} s.ports = true
  jobs : tabWf {} s.jobs = true
  slots : tabWf {} s.slots = true
  stats : tabWf {} s.stats = true
  mem : Memory.wf s.mem = true
  memErr : tabWf {} s.memErr = true
  series : tabWf {} s.series = true
  leafs : tabWf [] s.leafs = true
  hostMem : Memory.wf s.hostMem = true

/-! ## The legal values of configuration fields -/

/-- R469: BUDGET lies from 20,000 mA to 28,000 mA, WARN from 10 to 20 twentieths, YIELD is at least 10 µs, and class 0 reserves nothing. -/
def MillerLegal (m : Miller) : Prop :=
  20000 ≤ m.budget ∧ m.budget ≤ 28000 ∧ 10 ≤ m.warn ∧ m.warn ≤ 20 ∧ 10 ≤ m.yield ∧ m.classes.length = 8
    ∧ m.classes.getD 0 0 = 0

/-- The tables inside a hall are canonical: flash, mailbox, Joiner links, vectors, swap windows, and the grants and loans of copy streams. -/
def HallTables (hl : HallState) : Prop :=
  tabWf 0xFF hl.flash = true ∧ tabWf 0 hl.mailbox = true ∧ tabWf {} hl.seam = true ∧ tabWf {} hl.vectors = true
    ∧ tabWf {} hl.windows = true ∧ tabWf 0 hl.copGrants = true ∧ tabWf 0 hl.copLent = true

/-- R304, R401, R497: PERIOD of TNK_CFG, ROT_AGE, SIZE_LOG2 of SCB_RING_CFG and DRV_CFG.TIMEOUT keep their ranges, and the hall's tables their
form. -/
def HallLegal (hl : HallState) : Prop :=
  1 ≤ hl.tnkPeriod ∧ hl.tnkPeriod ≤ 240 ∧ 1 ≤ hl.tnkRotAge ∧ 7 ≤ hl.ringSizeLog2 ∧ hl.ringSizeLog2 ≤ 16
    ∧ 1 ≤ hl.drvTimeout ∧ hl.drvTimeout ≤ 60000 ∧ HallTables hl

/-- The packages, row shadows and channels of a hub are canonical tables. -/
def HubLegal (hb : HubState) : Prop := tabWf {} hb.pkgs = true ∧ tabWf {} hb.shadows = true ∧ tabWf {} hb.channels = true

/-- The store of a position and its block records are canonical tables. -/
def PosLegal (ps : Position) : Prop := tabWf {} ps.store = true ∧ tabWf {} ps.records = true

/-- R46: an enabled queue has a ring of 2^4 to 2^12 commands. -/
def QueueLegal (q : Queue) : Prop := q.enable = true → 4 ≤ q.sizeLog2.toNat ∧ q.sizeLog2.toNat ≤ 12

/-- R401: ROT_S is never 0, and the lanes are a canonical table. -/
def PortLegal (p : PortState) : Prop := p.rotS ≠ 0 ∧ tabWf {} p.lanes = true

/-- R443: LOG2 of the generation interval is at most 16. -/
def JobLegal (jb : JobState) : Prop := jb.log2 ≤ 16 ∧ jb.log2Next.getD 0 ≤ 16

/-- The configuration fields hold values that their registers accept, the tables inside a hall, hub, port or position are in their one form, and the
memory runs at most at the rate of the order code (R2). -/
structure Legal (s : State) : Prop where
  rate : s.rate.code ≤ s.order.rate.code
  miller : MillerLegal s.miller
  halls : ∀ x ∈ s.halls, HallLegal x.2
  queues : ∀ x ∈ s.queues, QueueLegal x.2
  ports : ∀ x ∈ s.ports, PortLegal x.2
  hubs : ∀ x ∈ s.hubs, HubLegal x.2
  positions : ∀ x ∈ s.positions, PosLegal x.2
  jobs : ∀ x ∈ s.jobs, JobLegal x.2

/-! ## Outcomes that the statements name -/

/-- The state with its oldest command in flight of queue `k` taken out, as it stands when the record is written. -/
def retiring (s : State) (k : Nat) : State := modQueue s k fun q => { q with inflight := q.inflight.tail }

/-- The completion record of the command can be written: its ring slot translates, and the slot's line is readable and not poisoned
(R74). -/
def RecordLands (s : State) (k : Nat) (c : InFlight) (status flags : Nat) (counts : List Nat) : Prop :=
  (writeRecord (retiring s k) k c.seq status flags counts).fail = none

/-- A queue whose commands go on (R45). -/
def Going (q : Queue) : Prop := q.state = .idle ∨ q.state = .run ∨ q.state = .wait

/-- R355, R368: the series of a queue's signals towards the semaphores of the hall of its command's SSEM. -/
def doneSeries (s : State) (k : Nat) (c : InFlight) : Nat := seriesKey (queueStop s k) (stewardStop (hdrSsem c.cmd / 4096)) 0 .vc0

/-- R53 stage 9, R368: the signal that a completed command sends, under the next number of its series; a notice that the command asks for follows
it. -/
def signalOf (s : State) (k : Nat) (c : InFlight) : List Signal :=
  if hdrSignal c.cmd then
    [{ sem := hdrSsem c.cmd, add := BitVec.ofNat 64 (hdrSadd c.cmd), source := .command k c.seq (BitVec.ofNat 4 (hdrJob c.cmd)),
       stop := queueStop s k, num := (getSeries s (doneSeries s k c)).sent, notify := hdrNotify c.cmd }]
  else []

/-- No packet of the mesh meets an error: no flip is armed, no wire fails, no transaction goes unanswered (R353, R368, R372). -/
structure QuietMesh (s : State) : Prop where
  fault : s.meshFault = none
  resent : s.resent = none
  flips : ∀ h, (getHall s h).meshFlip.arm = false ∧ (getHall s h).seamFlip.arm = false
  wires : ∀ h n, (getSeam (getHall s h) n).failing = false

/-- No access to device memory meets an error, and no buffer is full: no flip is armed, no package is retired, and every pair stands as it was written,
poisoned or not (R339). -/
structure QuietMemory (s : State) : Prop where
  mesh : QuietMesh s
  flips : ∀ k, (getHub s k).flip.arm = false
  room : ∀ k, (getHub s k).buf.length < 256
  packages : ∀ k i, (getPkg (getHub s k) i).retired = false
  sound : ∀ pair, ∃ l0 l1, tabGet {} s.memErr pair = { syms := [], chk := poisonPattern l0 l1 }

/-- R333, R334: the byte that device memory holds at a physical address: the write-combining buffer's over the channel's. -/
def heldByte (s : State) (pa : Nat) : Byte :=
  match findLine (getHub s (hubOf pa)) (pa / 64) with
  | none => tabGet 0 s.mem pa
  | some l => if l.mask.getLsbD (pa % 64) then lineByte l (pa % 64) else tabGet 0 s.mem pa

/-- R47, R67: the physical address of the completion record of the oldest command in flight of queue `k`, where its slot translates. -/
def recordPa (s : State) (k : Nat) (seq : W32) : Option Nat :=
  aliasPa (retiring s k) (qCtx (retiring s k) k) (recordVa (getQueue s k) seq) true

/-- R53 stage 10: the notice that a command without a signal writes as it completes. -/
def noticedNow (s : State) (k : Nat) (c : InFlight) : State :=
  if hdrSignal c.cmd then s else if hdrNotify c.cmd then notifyEvent s k c.seq (hdrJob c.cmd) else s

/-- R53, R67, R68: what the completion of command `c`, the oldest in flight of queue `k`, leaves: its record of R67 in memory and every other byte as
it was, the completion count one past it, the command gone, its signal on its way or its notice written, and every other queue, every semaphore, every
logical core and position and the rest of the machine as before. The walks of a translation count in their hall, and packets in the mesh. -/
structure RetiredDone (s t : State) (k : Nat) (c : InFlight) (flags : Nat) (counts : List Nat) : Prop where
  cmplSeq : (getQueue t k).cmplSeq = c.seq + 1
  inflight : (getQueue t k).inflight = afterHead s k
  front : (getQueue t k).front = none
  lastStatus : (getQueue t k).lastStatus = (getQueue s k).lastStatus
  signals : t.signals = s.signals ++ signalOf s k c
  others : ∀ k', k' ≠ k → getQueue t k' = getQueue s k'
  rest : t = { s with
    queues := t.queues, signals := t.signals, halls := t.halls, hubs := t.hubs, mem := t.mem, memErr := t.memErr, series := t.series,
    leafs := t.leafs, outputs := t.outputs, promotes := t.promotes, meshFault := t.meshFault, resent := t.resent, free := t.free }
  record : QuietMemory s → ∀ pa, recordPa s k c.seq = some pa → pa % 16 = 0 →
    (∀ i, i < 16 → heldByte t (pa + i) = (recordBytes c.seq 0 flags counts).getD i 0) ∧
    ∀ a, a < pa ∨ pa + 16 ≤ a → heldByte t a = heldByte s a
  halls : QuietMemory s → ∀ h, getHall t h = { getHall (noticedNow s k c) h with
    walks := (getHall t h).walks, ptrs := (getHall t h).ptrs, meshDetour := (getHall t h).meshDetour, lent := (getHall t h).lent }
  lent : ∀ h, (getHall t h).lent ≤ (getHall s h).lent
  hubs : QuietMemory s → ∀ x, getHub t x = { getHub s x with buf := (getHub t x).buf, poisonRd := (getHub t x).poisonRd }

end Sys2Proof.Machine
end

