-- ==== Sys2Proof/WellFormed.lean ====
section
/-! DEFINITION. Which terms of `Instr` are commands the manual allows: the bounds on operands that their types do not carry. -/

namespace Sys2Proof

/-- R499: a BAR0 request covers 1 to 8 bytes. -/
def widthOk (w : Width) : Bool := decide (1 ≤ w) && decide (w ≤ 8)

/-- R483: a BAR2 request covers at least one byte. -/
def transferOk (n : Nat) : Bool := decide (1 ≤ n)

/-- R332: a hub request covers at least one byte and lies within one bolt of 2,048 bytes. -/
def boltOk (pa n : Nat) : Bool := decide (1 ≤ n) && decide (pa % 2048 + n ≤ 2048)

/-- R385: a header has 64 bytes. -/
def headerOk (bs : List Byte) : Bool := decide (bs.length = 64)

/-- R385, R390: a frame carries at most one segment of 4 KiB. -/
def payloadOk (bs : List Byte) : Bool := decide (bs.length ≤ 4096)

/-- R381, R388: a control codeword returns credits for each of the four virtual lanes. -/
def creditsOk (c : ControlCodeword) : Bool := decide (c.credits.length = 4)

/-- R469: a measured current in mA or voltage in units of 10 mV fits its field of MLR_MEAS. -/
def measureOk (x : Nat) : Bool := decide (x < 2 ^ 16)

/-- R450: a self-test names each failing part once. -/
def failingOk (x : Findings) : Bool := decide x.positions.Nodup && decide x.rows.Nodup && decide x.packages.Nodup

/-- R382: a training names each lane once. -/
def lanesOk (t : Training) : Bool := decide t.lanes.Nodup

/-- A well-formed command. -/
def Instr.wellFormed (i : Instr) : Bool :=
  match i with
  | .selftestStart l => failingOk l
  | .registerWrite _ _ w _ => widthOk w
  | .bar2Read _ _ n => transferOk n
  | .bar2Write _ _ d => transferOk d.length
  | .hubReadRequest pa n _ _ => boltOk pa n
  | .hubWriteRequest pa d _ _ => boltOk pa d.length
  | .frameReceive _ _ head load _ _ => headerOk head && payloadOk load
  | .controlCodeword _ _ c => creditsOk c
  | .portTrain _ _ t _ => lanesOk t
  | .millerWindow i v => measureOk i && measureOk v
  | .vinOut v => measureOk v
  | .ctlNop _ | .semWait _ | .semSignal _ | .fence _ | .fenceEvent _ | .syncSwapmark _ _ | .loomLoadw _
  | .loadwWritePart _ | .loomMatmul _ | .loomMatmulT _ | .lampLoadf _ | .lampPredict _ | .bitmapReplace _
  | .glnConfig _ | .glnFence _ | .wvrSpmm _ | .wvrGather _ | .wvrDispatch _ | .maskScout _ | .fulRun _ | .fulSoftmax _
  | .fulAdam _ | .fulSgdm _ | .maskPrune _ | .maskRegrow _ | .maskRepair _ | .ctrCopy _ | .ctrFill _ | .ctrPermute _
  | .drvAllgather _ _ | .drvRedscat _ _ | .drvBcast _ _ | .drvBarrier _ _ | .commandFetch _ | .waitMet _
  | .grantAdmit _ | .semaphoreSignalApply _ | .brokenMark _ | .swapWindowOpen _ | .swapWindowClose _ | .qDoorbell _ _
  | .qRestart _ _ | .qEnable _ _ | .qDisable _ _ | .semAdd _ _ _ | .semSet _ _ _ | .stwOwnWrite _ _
  | .stwSemgrpWrite _ _ _ | .xlateInv _ | .xlateInvDone | .seaSlotCfgWrite _ _ _ | .seaJobEnable _ _
  | .seaJobDiscard _ | .sealerClose _ | .tnkReqWrite _ _ | .asyInject _ _ _ | .flipArm _ _ | .hubPkgRetire _ _ _
  | .lnkLaneRetireWrite _ _ _ | .belStickyClear _ _ | .belForce _ _ | .killedClear _ | .copEnable _ _ | .copRestore _
  | .copFetch _ | .copIntervalWrite _ _ | .cooperTrigger _ | .cooperCopyDone _ | .stwStartRetry _ | .hallReload _ _
  | .flashRead _ | .flashProgram _ | .flashErase _ | .flashOpReserved _ | .scbRingEnable _ _ | .scbRingConsWrite _ _
  | .eventWrite _ | .msixFire _ _ | .bellmanReport _ _ _ _ | .slotDrop _ | .aliveToggle | .hubFenceFlush _ _ _
  | .patrolScrub _ _ _ | .refresh _ _ _ | .mr4Read _ _ _ _ | .wck2dqTrack _ _ _ _ | .retrainWindow _ _ _ _
  | .repairLogAppend _ | .meshResend _ _ | .meshLost _ _ | .routerFailed _ _ | .seamWireLog _ _ _
  | .frameReplayTimeout _ _ | .laneRotate _ _ | .laneRetire _ _ _ | .linkClockLost _ _ | .drvTimeout _ _
  | .benchPeriodStart _ | .benchRound _ _ _ | .benchPause _ | .millerYield _ | .derateEnd | .coldStart | .efuseTrip
  | .vrFault _ | .thermWarn _ | .thermTrip _ | .pllUnlock _ | .stewardWatchdog _ | .hostLinkDown _ | .chainEnum _
  | .chainSetLfa _ | .chainStatus _ | .chainIdent _ | .chainRestart _ | .chainForward _ _ | .chainInputLost | .bypass
  | .samplePreload _ | .extest | .clamp | .idcode | .trstReset | .mgmtSupplyUp | .mgmtSupplyLost | .thermWarnClear
  | .hostLinkUp _ | .pcieConfigWrite _ _ _ _ | .copFetchTimeout _ => true

end Sys2Proof
end

