-- ==== Sys2Proof/Certificates/Slice0/Obligations.lean ====
section
/-! DEFINITION. The statements for the provers, each a Prop under the prefix Obligations. -/

open Sys2Proof Sys2Proof.Machine

/-! ## The machine as a whole -/

/-- The command at the front of the queue is the one a step executes, with the rest of the queue left. -/
def Obligations.StepRunsTheFrontCommand : Prop :=
  ∀ (c : Instr) (s : State), step { s with pending := c :: s.pending } = exec c s

/-- R378, and the model's choice of the unit (log entry 1): a step on an empty queue moves each hall's copy of the time base 4 ns on, unless the
hall's MGMT clock has stopped. R380: with the die up, at every third such step of its hall a port that is up sends a codeword on each active slot;
every sixteenth of a slot is a control codeword, the sixteenths of the slots four codewords apart (PRESUMED, log entry 155), or, of a module with no
address (R489), an idle one. Nothing else happens. -/
def EmptyQueueLetsTimePass : Prop :=
  ∀ s : State, Canonical s → s.pending = [] →
    ∃ t, step s = .next t ∧ t = { s with time := t.time, time1 := t.time1, ports := t.ports, free := t.free } ∧
      (∀ h, h < 2 → now t h = if (getHall s h).clockOff then now s h else now s h + 4) ∧
      (∀ k, 12 ≤ k ∨ (getPort s k).up = false ∨ dieUp s = false ∨ 4 ≤ (now t (k / 6)).toNat % 12 → getPort t k = getPort s k) ∧
      ∀ k, k < 12 → (getPort s k).up = true → dieUp s = true → (now t (k / 6)).toNat % 12 < 4 →
        (getPort t k).sent.length = (getPort s k).active ∧ (getPort t k).round = ((getPort s k).round + 1) % 16 ∧
        (s.chain.lfa ≠ none → ∀ i, i < (getPort s k).active →
          (isControlWord (getPort s k).round i = true ↔ ∃ c w, ((getPort t k).sent.drop i).head? = some (SentWord.control c w))) ∧
        (s.chain.lfa = none → ∀ i c w, ((getPort t k).sent.drop i).head? ≠ some (SentWord.control c w))

/-- No command is refused, and a command stops only at a hub request that no address of the manual allows (R328, R332). -/
def Obligations.OnlyAbsentAddressesStop : Prop :=
  (∀ (c : Instr) (s : State) (r : Refusal), exec c s ≠ .refused r) ∧
  ∀ (c : Instr) (s : State) (f : Fault), exec c s = .fault f →
    ∃ pa n, f = .noSuchAddress pa ∧ requestOk s pa n = false ∧
      ((∃ a job, c = .hubReadRequest pa n a job) ∨ ∃ data a job, c = .hubWriteRequest pa data a job ∧ data.length = n)

/-- A command never reads or changes the queue of commands that wait. -/
def CommandsLeaveTheWaitingQueue : Prop :=
  ∀ (c : Instr) (s t : State), exec c s = .next t → t.pending = s.pending

/-- What a step on an empty queue does (R378, R380, log entry 1); a command never reads or changes the queue of commands that wait. -/
def Obligations.QueueIsReadByStepsAlone : Prop :=
  EmptyQueueLetsTimePass ∧ CommandsLeaveTheWaitingQueue

/-- Every step keeps the canonical form of the state's own tables: device memory and its check codes, host memory, the register files, the series and
the leaf caches. The tables inside a hall, hub, port or position are Legal's. -/
def Obligations.StepKeepsCanonicalTables : Prop :=
  ∀ s t : State, Canonical s → step s = .next t → Canonical t

/-- The tables are canonical at reset. -/
def ResetIsCanonical : Prop := Canonical State.reset

/-- Every step keeps the configuration fields at values that their registers accept (R46, R304, R401, R443, R469, R497), and the memory at
no more than the rate of the order code (R2), and the tables inside halls, hubs, ports and positions (flash, mailbox, Joiner links, vectors, windows,
grants, packages, shadows, channels, lanes, stores, block records) canonical. -/
def Obligations.StepKeepsLegalConfiguration : Prop :=
  ∀ s t : State, Legal s → step s = .next t → Legal t

/-- The configuration fields are legal at reset. -/
def ResetIsLegal : Prop := Legal State.reset

/-- The tables are canonical and the configuration fields legal at reset. -/
def Obligations.ResetMeetsTheInvariants : Prop :=
  ResetIsCanonical ∧ ResetIsLegal

/-- R503, R508, R280, R469: what step 12 of the cold start leaves, in a module without a worn part (DESIGN CHOICE, log entry 4: an empty fuse map, so that
logical core n is at position n mod 64, 64 positions of a hall in service and 8 ready): every core queue and CQ ring DISABLED with its counts at 0, every semaphore at 0, no
core or semaphore group owned, no sticky bit, and the defaults of the Miller and of the Sealer's slots. -/
def Obligations.ResetLeavesTheResetColumn : Prop :=
  let s := State.reset
  dieUp s = true ∧
  (∀ k, (getQueue s k).state = .disabled ∧ (getQueue s k).enable = false ∧ (getQueue s k).prod = 0 ∧ (getQueue s k).cmplSeq = 0) ∧
  (∀ k, (getSem s k).value = 0 ∧ (getSem s k).wrap = false ∧ (getSem s k).broken = false) ∧
  (∀ n, (getOwn s n).owned = false) ∧ (∀ g, (getSemGrp s g).owned = false) ∧
  (∀ n, n < 128 → (getCore s n).pos = n % 64 ∧ (getCore s n).fenced = false) ∧
  (∀ h, h < 2 → ∀ i, i < 72 → (getPos s (72 * h + i)).status = if i < 64 then .inService else .ready) ∧
  (∀ h, (getHall s h).sticky = 0 ∧ (getHall s h).down = false ∧ (getHall s h).start = .running) ∧
  s.miller.budget = 28000 ∧ s.miller.warn = 16 ∧ s.miller.yield = 100 ∧
  (∀ j i, getSlot s j i = { fixed := false, kind := false, head := 2, fall := 16, t := 0, thresh := 64, silent := 0, lrun := 19, quiet := 0 })


/-! ## The life of a command (02) -/

/-- R53, R67, R68: a command that completes with no other waiting before its start retires: the 16 bytes of its record stand in its slot of the
completion ring, every other byte of device memory is as before, the completion count moves past it, its signal is sent or its notice written, and
all else stands. What memory holds is said where no access meets an error. -/
def Obligations.CompletionRetiresTheCommand : Prop :=
  ∀ (s : State) (k : Nat) (c : InFlight) (flags : Nat) (counts : List Nat),
    Canonical s → headOf s k = some c → (getQueue s k).front = none → Going (getQueue s k) → RecordLands s k c 0 flags counts →
      RetiredDone s (completeDone s k c flags counts) k c flags counts

/-- R53, R58: CTL.NOP, SEM.WAIT and SEM.SIGNAL complete, and with no command behind them before its start they retire with no other
effect. One that has executed and waits for a write's acknowledgement that never comes (R369) stays in flight: R369 leaves that end to the
writer's chapter, and this is the model's choice (log entry 138). -/
def PlainControlCommandsComplete : Prop :=
  ∀ (q : QRef) (s : State) (c : InFlight) (i : Instr),
    (i = .ctlNop q ∧ opcodeOf c.cmd = 0x00) ∨ (i = .semWait q ∧ opcodeOf c.cmd = 0x01) ∨ (i = .semSignal q ∧ opcodeOf c.cmd = 0x02) →
    dieUp s = true → headOf s (qKey q) = some c →
      (c.unacked = true → exec i s = .next s) ∧
      (c.unacked = false → exec i s = .next (completeDone s (qKey q) c 0 []) ∧
      (Canonical s → (getQueue s (qKey q)).front = none → Going (getQueue s (qKey q)) → RecordLands s (qKey q) c 0 0 [] →
        ∃ t, exec i s = .next t ∧ RetiredDone s t (qKey q) c 0 []))

/-- R65, R335: a FENCE completes once every command it covers has completed and every hub in its scope holds no line of its job context or has
served its flush (scopes below a hall flush none: the model's choice, log entry 14). R66: a FENCE.EVENT completes, writing EV_FENCE_MARK, once the
signals and marks of what it follows have come (how it knows them is the model's choice, log entry 80). Until then neither has an effect. -/
def FencesCompleteWhenMet : Prop :=
  ∀ (q : QRef) (s : State) (c : InFlight), dieUp s = true → headOf s (qKey q) = some c → c.unacked = false →
    let k := qKey q
    let met := (∀ x ∈ c.covers, ∀ f ∈ (getQueue s x.1).inflight, f.seq ≠ x.2) ∧
      (∀ hk ∈ scopeHubs k (fld c.cmd 24 0 2), hk ∈ c.flushed ∨
        ∀ l ∈ (getHub s hk).buf, l.job.map (fun j => j.val) ≠ some (qJob s k).toNat)
    let owed := (∃ g ∈ s.signals, (k, c.seq) ∈ g.fences) ∨ ∃ x ∈ s.queues, ∃ m ∈ x.2.markings, (k, c.seq) ∈ m.fences
    let mark : EventSpec := { code := 0x0002, job := some (qJob s k).toNat, lockind := qLockind k, loc := qLoc k,
                              payload := leBytes 4 c.seq.toNat }
    (opcodeOf c.cmd = 0x04 → met → exec (.fence q) s = .next (completeDone s k c 0 [])) ∧
    (opcodeOf c.cmd = 0x04 → ¬ met → exec (.fence q) s = .next s) ∧
    (opcodeOf c.cmd = 0x05 → ¬ owed → exec (.fenceEvent q) s = .next (completeDone (pushEvent s (qHall k) mark) k c 0 [])) ∧
    (opcodeOf c.cmd = 0x05 → owed → exec (.fenceEvent q) s = .next s)

/-- CTL.NOP, SEM.WAIT, SEM.SIGNAL, FENCE and FENCE.EVENT complete when they may, and have no other effect (R53, R58, R65, R66, R335). -/
def Obligations.ControlCommandsComplete : Prop :=
  PlainControlCommandsComplete ∧ FencesCompleteWhenMet

/-- R59, R60, R73: a SYNC.SWAPMARK takes its queue to MARK; the first of a core fixes the window number. A marker with another number is
rejected with status 0x18, but on a fenced core. -/
def Obligations.SwapMarkersEnterMark : Prop :=
  ∀ (n : Core) (kind : QKind) (s : State) (c : InFlight),
    let k := qKey (.core n kind)
    let w := markWindow c.cmd
    let lc := getCore s n
    Canonical s → dieUp s = true → headOf s k = some c → opcodeOf c.cmd = 0x06 → c.unacked = false →
    (getQueue s k).state ≠ .mark → isHalted (getQueue s k).state = false →
      (lc.fenced = true ∨ lc.window = none ∨ lc.window = some w →
        ∃ t, exec (.syncSwapmark n kind) s = .next t ∧ (getQueue t k) = { getQueue s k with state := .mark } ∧
          (getCore t n) = { lc with window := some (lc.window.getD w) } ∧
          (∀ k', k' ≠ k → getQueue t k' = getQueue s k') ∧ (∀ m, m ≠ n.val → getCore t m = getCore s m) ∧
          t = { s with queues := t.queues, lcores := t.lcores }) ∧
      (lc.fenced = false → ∀ x, lc.window = some x → x ≠ w →
        exec (.syncSwapmark n kind) s = .next (completeFault s k c 0x18 none))

/-- R52: the status of the first check that a command fails, in the order of the checks, for a command that is no Carter command of the TQ; check 6 of
the MQ follows what it tracks. -/
def RejectedWith (s : State) (k : Nat) (c : BitVec 512) (seq : W32) (st : Nat) : Prop :=
  (reservedOk c = false ∧ st = 0x10) ∨
  (reservedOk c = true ∧ (isCarter (opcodeOf c) && qKindOf k == 3) = false ∧
    ((opcodeListed (qKindOf k) (opcodeOf c) = false ∧ st = 0x11) ∨
     (opcodeListed (qKindOf k) (opcodeOf c) = true ∧
       ((hdrJob c ≠ (qJob s k).toNat ∧ st = 0x12) ∨
        (hdrJob c = (qJob s k).toNat ∧
          ((semsOwned s c = false ∧ st = 0x13) ∨
           (semsOwned s c = true ∧
             ((classOk (opcodeOf c) (hdrClass c) = false ∧ st = 0x14) ∨
              (classOk (opcodeOf c) (hdrClass c) = true ∧
                (operandsOk s k c = false ∨ qKindOf k = 0 ∧ checkMq s (k / 4) c seq = none) ∧ st = 0x15)))))))))

/-- R47, R52, R53: a queue that may fetch reads the slot of its sequence number; a command that passes its checks and waits on a semaphore
not marked BROKEN stands before its start, and the queue is in WAIT. A queue that may not fetch does not change. On a CQ ring this is said where no ring
of its hall asks for its turn (R44). -/
def FetchWaits : Prop :=
  ∀ (q : QRef) (s : State),
    let k := qKey q
    let qu := getQueue s k
    let rd := vaRead s (qCtx s k) (qu.base.toNat + 64 * (qu.fetchSeq.toNat % ringSize qu)) 64 .fetch
    let c : BitVec 512 := BitVec.ofNat 512 (leNat (rd.bytes.map (·.1)))
    let r := checkCommand (modQueue rd.st k fun q => { q with fetchSeq := qu.fetchSeq + 1 }) k c qu.fetchSeq
    (k < 512 ∨ ∀ j, j < 16 → asksStart (getQueue s (512 + 16 * qHall k + j)) = false) →
    (mayFetch s k = false → exec (.commandFetch q) s = .next s) ∧
    (Canonical s → mayFetch s k = true → Going qu → fetchFail rd = none → r.fail = none → hdrWait c = true →
      brokenWait r.st c = false →
        ∃ t, exec (.commandFetch q) s = .next t ∧
          getQueue t k = { qu with
            fetchSeq := qu.fetchSeq + 1, state := .wait,
            front := some { seq := qu.fetchSeq, cmd := c, desc := r.desc, stage := .wait, dest := destOf (opcodeOf c) c } } ∧
          (∀ k', k' ≠ k → getQueue t k' = getQueue s k') ∧ t.sems = s.sems ∧ t.signals = s.signals)

/-- R53, R54, R55: a fetched command of a core queue that waits on no semaphore goes on at once; of class 0, where its order allows, it starts. -/
def FetchStarts : Prop :=
  ∀ (n : Core) (kind : QKind) (s : State),
    let k := qKey (.core n kind)
    let qu := getQueue s k
    let rd := vaRead s (qCtx s k) (qu.base.toNat + 64 * (qu.fetchSeq.toNat % ringSize qu)) 64 .fetch
    let c : BitVec 512 := BitVec.ofNat 512 (leNat (rd.bytes.map (·.1)))
    let r := checkCommand (modQueue rd.st k fun q => { q with fetchSeq := qu.fetchSeq + 1 }) k c qu.fetchSeq
    Canonical s → mayFetch s k = true → Going qu → fetchFail rd = none → r.fail = none → hdrWait c = false → hdrClass c = 0 →
    startsInOrder qu c = true →
      ∃ t x, exec (.commandFetch (.core n kind)) s = .next t ∧ (getQueue t k).front = none ∧ (getQueue t k).state = .run ∧
        (getQueue t k).inflight = qu.inflight ++ [x] ∧ x.seq = qu.fetchSeq ∧ x.cmd = c ∧ x.charge = 0 ∧
        (getQueue t k).fetchSeq = qu.fetchSeq + 1 ∧ t.sems = s.sems

/-- R52, R53, R54, R70: the first check of a fetched command of a core queue that fails decides its status, and it never starts: behind commands in
flight it waits, and with none before it its record is written with that status, the count moves past it and the queue halts. -/
def FetchRejects : Prop :=
  ∀ (n : Core) (kind : QKind) (s : State) (st : Nat),
    let k := qKey (.core n kind)
    let qu := getQueue s k
    let rd := vaRead s (qCtx s k) (qu.base.toNat + 64 * (qu.fetchSeq.toNat % ringSize qu)) 64 .fetch
    let c : BitVec 512 := BitVec.ofNat 512 (leNat (rd.bytes.map (·.1)))
    let u := modQueue rd.st k fun q => { q with fetchSeq := qu.fetchSeq + 1 }
    Canonical s → mayFetch s k = true → Going qu → fetchFail rd = none → RejectedWith u k c qu.fetchSeq st →
      (qu.inflight ≠ [] → ∃ t f, exec (.commandFetch (.core n kind)) s = .next t ∧ (getQueue t k).front = some f ∧
        f.seq = qu.fetchSeq ∧ f.cmd = c ∧ f.fail = some (.check st) ∧ (getQueue t k).inflight = qu.inflight ∧
        (getQueue t k).cmplSeq = qu.cmplSeq ∧ (∀ k', k' ≠ k → getQueue t k' = getQueue s k')) ∧
      (qu.inflight = [] →
        (writeRecord (modQueue u k fun q => { q with state := .run, front := none }) k qu.fetchSeq st 0 []).fail = none →
          ∃ t, exec (.commandFetch (.core n kind)) s = .next t ∧ (getQueue t k).state = .haltFault ∧
            (getQueue t k).cmplSeq = qu.fetchSeq + 1 ∧ (getQueue t k).lastStatus = BitVec.ofNat 16 st ∧
            (getQueue t k).front = none ∧ (getQueue t k).inflight = [] ∧ t.sems = s.sems)

/-- R73: a FENCED queue retires the command it fetches with status FENCED, without waiting or executing, and marks its SSEM BROKEN under the
ownership rule of R71; a SYNC.SWAPMARK it takes as usual. -/
def FencedQueuesRetire : Prop :=
  ∀ (n : Core) (kind : QKind) (s : State),
    let k := qKey (.core n kind)
    let qu := getQueue s k
    let rd := vaRead s (qCtx s k) (qu.base.toNat + 64 * (qu.fetchSeq.toNat % ringSize qu)) 64 .fetch
    let c : BitVec 512 := BitVec.ofNat 512 (leNat (rd.bytes.map (·.1)))
    let u := modQueue rd.st k fun q => { q with fetchSeq := qu.fetchSeq + 1 }
    let w := writeRecord u k qu.fetchSeq 2 0 []
    Canonical s → mayFetch s k = true → qu.state = .fenced → fetchFail rd = none →
      (opcodeOf c ≠ 0x06 → w.fail = none → ∃ t, exec (.commandFetch (.core n kind)) s = .next t ∧
        t = (ssemOf c).foldl (fun s x => markBroken s (qJob s k) (getQueue s k).origin x) w.st ∧
        getQueue w.st k = { qu with fetchSeq := qu.fetchSeq + 1, cmplSeq := qu.fetchSeq + 1, lastStatus := 2 } ∧
        (hdrSignal c = false → t = w.st)) ∧
      (opcodeOf c = 0x06 → ∃ t x, exec (.commandFetch (.core n kind)) s = .next t ∧
        getQueue t k = { qu with fetchSeq := qu.fetchSeq + 1, inflight := qu.inflight ++ [x] } ∧ x.seq = qu.fetchSeq ∧ x.cmd = c ∧
        ∀ k', k' ≠ k → getQueue t k' = getQueue s k')

/-- R44, R47, R52 to R55, R70, R71, R73: what the fetch of a command does. -/
def Obligations.FetchPlacesAWaitingCommand : Prop :=
  FetchWaits ∧ FetchStarts ∧ FetchRejects ∧ FencedQueuesRetire

/-- What the start of the front command `f` of queue `k` leaves: it is the youngest in flight, with the time, and the queue is in RUN. -/
def Started (s t : State) (k : Nat) (f : Front) (charge : Nat) : Prop :=
  ∃ x : InFlight, (getQueue t k).front = none ∧ (getQueue t k).state = .run ∧ (getQueue t k).inflight = (getQueue s k).inflight ++ [x] ∧
    x.seq = f.seq ∧ x.cmd = f.cmd ∧ x.desc = f.desc ∧ x.dest = f.dest ∧ x.start = now s (qHall k) ∧ x.charge = charge

/-- R53, R55, R465: a wait is met when the value is at least WVAL. The command of a core queue of class 0, or of a CQ ring with no other ring of its
hall due (R44), then starts at once where its order and readiness allow (R56, R137); a CQ ring whose turn comes after one that has still to fetch its
command asks and waits (the model's choice, log entry 137); below WVAL nothing happens. The start reads the slot-state word that the command names
(R267, R280). -/
def MetWaitsStartTheirCommand : Prop :=
  ∀ (q : QRef) (s : State) (f : Front),
    let k := qKey q
    let asked : State := modQueue s k fun q => { q with front := some { f with stage := .request } }
    Canonical s → dieUp s = true → (getQueue s k).front = some f → f.stage = .wait → f.fail = none → Going (getQueue s k) →
      ((getSem s (hdrWsem f.cmd)).value.toNat < hdrWval f.cmd → exec (.waitMet q) s = .next s) ∧
      (hdrWval f.cmd ≤ (getSem s (hdrWsem f.cmd)).value.toNat →
        exec (.waitMet q) s = .next (advance (modQueue s k fun q => { q with front := some { f with stage := .ready } }) k)) ∧
      (hdrWval f.cmd ≤ (getSem s (hdrWsem f.cmd)).value.toNat → startsInOrder (getQueue s k) f.cmd = true → isMatrix f.cmd = false →
        (k < 512 ∧ hdrClass f.cmd = 0) ∨ (512 ≤ k ∧ ∀ j, j < 16 → 512 + 16 * qHall k + j ≠ k → cqDue s (qHall k) j = false) →
          ∃ t, exec (.waitMet q) s = .next t ∧ Started s t k f 0 ∧ t = { s with
            queues := t.queues, signals := t.signals, halls := t.halls, slots := t.slots } ∧
            (opcodeOf f.cmd ≠ 0x05 → (∀ k', k' ≠ k → getQueue t k' = getQueue s k') ∧ t.signals = s.signals) ∧
            (commandSlot f.cmd = none → t.slots = s.slots ∧ ∀ h, getHall t h =
              if 512 ≤ k ∧ h = qHall k then { getHall s h with cqTurn := (k - 512) % 16 } else getHall s h)) ∧
      (hdrWval f.cmd ≤ (getSem s (hdrWsem f.cmd)).value.toNat → startsInOrder (getQueue s k) f.cmd = true → isMatrix f.cmd = false →
        512 ≤ k → ∀ j, 512 + 16 * qHall k + j ≠ k → cqNext asked (qHall k) = some j →
          asksStart (getQueue s (512 + 16 * qHall k + j)) = false → exec (.waitMet q) s = .next asked)

/-- R457, R460, R461: the oldest request of a hall is admitted from the hall's share when the Miller does not throttle, the hall is not down, the
ramp of 1 A in 1 µs admits its charge and the unreserved share holds it. The charge is that of the V_IN of the moment, less what the queue holds (the
model's choice, log entry 175); the queue then holds the grant, its wait counts, and its command starts. A stream of the Cooper makes its copies
(R467). -/
def Obligations.GrantsAreAdmittedFromTheShare : Prop :=
  (∀ (h : Hall) (s : State) (r : Request) (rest : List Request) (loan : Bool), dieUp s = true →
    (getHall s h).requests = r :: rest → admission s h r = some loan →
      (r.queue < 2048 → exec (.grantAdmit h) s = .next (admitRequest s h r loan)) ∧
      (2048 ≤ r.queue → (∀ x ∈ rest, x.queue ≠ r.queue) →
        exec (.grantAdmit h) s = .next (openCopies (admitRequest s h r loan) h (r.queue - 2048)))) ∧
  ∀ (h : Hall) (s : State) (r : Request) (rest : List Request) (f : Front),
    let charge := chargeOf s.miller r.res - (((getQueue s r.queue).grant.map (·.charge)).getD 0)
    Canonical s → dieUp s = true → (getHall s h).requests = r :: rest → r.queue < 2048 → (getQueue s r.queue).front = some f →
    isMatrix f.cmd = false → opcodeOf f.cmd ≠ 0x05 → Going (getQueue s r.queue) →
    s.miller.throttle = false → (getHall s h).down = false →
    ((recentRamp (getHall s h) (now s h)).map (·.2)).sum + charge ≤ 1000 → charge ≤ unreserved s h →
      ∃ t, exec (.grantAdmit h) s = .next t ∧ (getHall t h).requests = rest ∧ (getHall t h).lent = (getHall s h).lent ∧
        (getHall t h).lastAdmit = some (now s h) ∧
        (getQueue t r.queue).grant = some (addGrant (getQueue s r.queue) r charge false (now s h)) ∧
        (getQueue t r.queue).qwait = (getQueue s r.queue).qwait + BitVec.ofNat 32 ((now s h - r.time).toNat / 4) ∧
        Started s t r.queue f (chargeOf s.miller r.res) ∧
        (∀ k', k' ≠ r.queue → getQueue t k' = getQueue s k') ∧
        t = { s with queues := t.queues, halls := t.halls, slots := t.slots }

/-- What an increment of `add` leaves of semaphore `k` (R62): the value modulo 2^64, WRAP where it passed zero, BROKEN as it was, and every
other semaphore as it was. -/
def SemIncremented (s t : State) (k : Nat) (add : W64) : Prop :=
  (getSem t k).value = (getSem s k).value + add ∧
  (getSem t k).wrap = ((getSem s k).wrap || decide (2 ^ 64 ≤ (getSem s k).value.toNat + add.toNat)) ∧
  (getSem t k).broken = (getSem s k).broken ∧ (∀ k', k' ≠ k → getSem t k' = getSem s k')

/-- The increment wraps its semaphore past zero (R62). -/
def wraps (s : State) (k : Nat) (add : W64) : Prop := 2 ^ 64 ≤ (getSem s k).value.toNat + add.toNat

/-- R53 stage 10: what the notice of the command that a signal came from adds to the events, where it asks for one. -/
def noticed (s : State) (g : Signal) : State :=
  match g.source with
  | .command k seq job =>
    if g.notify then
      pushEvent s (qHall k) { code := 0x0001, job := some job.toNat, lockind := qLockind k, loc := qLoc k, payload := leBytes 4 seq.toNat }
    else s
  | .host => s

/-- R352 to R354: what the way of a one-flit packet changes: counts and armed flips of halls; where no packet meets an error, the counts of the
detours alone, and the signal arrives as it was sent. -/
def SignalTravels (s : State) (g : Signal) : Prop :=
  let a := carrySignal s g
  a.st = { s with halls := a.st.halls, free := a.st.free } ∧
  (QuietMesh s → a.sig = g ∧ a.st.free = s.free ∧
    ∀ h, getHall a.st h = { getHall s h with meshDetour := (getHall a.st h).meshDetour })

/-- R53, R62, R63, R64, R355, R368, R535: a signal on its way whose number is the next of its series, and a host write of SEM_ADD, add to their
semaphore modulo 2^64; one that wraps the value past zero sets WRAP and writes EV_SEM_WRAP in the semaphore's hall; the notice of the
command follows. A signal with a later number stays with its source, and one among the last 256 applied is answered and not applied again (the model's
choices: log entries 170, 183). -/
def SignalsAddModuloTwoToTheSixtyFour : Prop :=
  (∀ (s : State) (i : Nat) (g : Signal), Canonical s → dieUp s = true → s.signals[i]? = some g →
    let x := getSeries s (Machine.signalSeries g)
    let a := carrySignal s g
    let back := answerSignal a.st g
    SignalTravels s g ∧
    (x.applied < g.num ∨ g.num + 256 < x.applied → exec (.semaphoreSignalApply i) s = .next a.st) ∧
    (g.num < x.applied → x.applied ≤ g.num + 256 →
      exec (.semaphoreSignalApply i) s = .next { back with signals := s.signals.eraseIdx i }) ∧
    (g.num = x.applied → (getSem s g.sem).broken = false ∨ ¬ wraps s g.sem a.sig.add →
      ∃ t u, exec (.semaphoreSignalApply i) s = .next t ∧ t = noticed u g ∧ u.signals = s.signals.eraseIdx i ∧
        SemIncremented s u g.sem a.sig.add ∧ getSeries u (Machine.signalSeries g) = { x with applied := x.applied + 1 } ∧
        (∀ k, k ≠ Machine.signalSeries g → getSeries u k = getSeries s k) ∧
        u = { s with signals := u.signals, sems := u.sems, halls := u.halls, series := u.series, free := u.free } ∧
        (¬ wraps s g.sem a.sig.add → u.halls = back.halls) ∧
        (wraps s g.sem a.sig.add →
          ∃ e : EventSpec, e.code = 0x0005 ∧
            getHall u (g.sem / 4096) = hallEvent (getHall back (g.sem / 4096)) (now s (g.sem / 4096)) e))) ∧
  (∀ (h : Hall) (i : Sem) (v : W64) (s : State), Canonical s → hostUp s h = true →
    let k := 4096 * h.val + i.val
    let g : Signal := { sem := k, add := v, source := .host, stop := hostStop h }
    let a := carrySignal s { g with num := (getSeries s (Machine.signalSeries g)).sent }
    let back := answerSignal a.st g
    (QuietMesh s → a.sig.add = v) ∧
    ((getSem s k).broken = false ∨ ¬ wraps s k a.sig.add →
      ∃ t, exec (.semAdd h i v) s = .next t ∧ SemIncremented s t k a.sig.add ∧
        t = { s with sems := t.sems, halls := t.halls, series := t.series, free := t.free } ∧
        (¬ wraps s k a.sig.add → t.halls = back.halls) ∧
        (wraps s k a.sig.add →
          getHall t h = hallEvent (getHall back h) (now s h)
            { code := 0x0005, payload := leBytes 4 i.val ++ leBytes 1 h.val ++ leBytes 4 0 ++ leBytes 1 1 })))

/-- R64, R71: SEM_SET replaces the value and nothing else; a value that it lowers below what commands await on a BROKEN semaphore halts their
queues. -/
def SemSetReplacesTheValue : Prop :=
  ∀ (h : Hall) (i : Sem) (v : W64) (s : State), Canonical s → hostUp s h = true →
    let k := 4096 * h.val + i.val
    let set := setSem s k { getSem s k with value := v }
    ((getSem s k).broken = false ∨ brokenWaiters set k = [] →
      ∃ t, exec (.semSet h i v) s = .next t ∧ getSem t k = { getSem s k with value := v } ∧
        (∀ k', k' ≠ k → getSem t k' = getSem s k') ∧ t = { s with sems := t.sems }) ∧
    ((getSem s k).broken = true →
      exec (.semSet h i v) s = .next ((brokenWaiters set k).foldl (fun u x => haltWaiting u x (getSem s k).origin) set))

/-- R44, R53, R55, R56, R62, R64, R71, R137, R368, R535: semaphores of 64 bits: a signal adds modulo 2^64, sets WRAP and causes
EV_SEM_WRAP where it wraps past zero, each signal is applied once; SEM_SET replaces a value; a wait is met when the value is at least
WVAL, and its command then starts. The rounds of a CQ and the numbers of a series are the model's (log entries 137, 170, 183). -/
def Obligations.SemaphoresCountAndWaitsAreMet : Prop :=
  SignalsAddModuloTwoToTheSixtyFour ∧ SemSetReplacesTheValue ∧ MetWaitsStartTheirCommand

/-- R71: a halted queue makes its oldest marking: here one whose commands are all known. A semaphore whose group the job context owns, and
on which no queue waits below its value, is marked BROKEN with the origin and keeps its value; one it does not own is left. -/
def Obligations.BrokenMarksReachOwnedSemaphores : Prop :=
  (∀ (q : QRef) (s : State) (m : Marking) (rest : List Marking), dieUp s = true →
    (getQueue s (qKey q)).markings = m :: rest → m.first = m.upto →
      exec (.brokenMark q) s = .next (m.sems.eraseDups.foldl (fun u sem => markBroken u (qJob u (qKey q)) m.origin sem)
        (modQueue s (qKey q) fun q => { q with markings := rest }))) ∧
  (∀ (s : State) (job : BitVec 4) (o : Origin) (sem : Nat), ownsSem s job sem = false → markBroken s job o sem = s) ∧
  (∀ (s : State) (job : BitVec 4) (o : Origin) (sem : Nat), Canonical s → ownsSem s job sem = true → brokenWaiters s sem = [] →
    getSem (markBroken s job o sem) sem = { getSem s sem with broken := true, origin := o } ∧
    (∀ k, k ≠ sem → getSem (markBroken s job o sem) k = getSem s k) ∧
    markBroken s job o sem = { s with sems := (markBroken s job o sem).sems })

/-- R30, R33, with the model's choice of which positions are no targets (log entry 133): the target of a swap is a ready spare of the same hall, that no other swap is filling, with the fewest hops to the position replaced, the
lowest index breaking a tie; a hall with such a spare has a target. -/
def SwapTargetIsTheNearestReadySpare : Prop :=
  ∀ (s : State) (h i : Nat),
    let may (x : Nat) : Prop := isSpare (getPos s (posKey h x)) = true ∧
      ∀ c, c < 64 → ∀ w, (getCore s (64 * h + c)).swap = some w → ¬ (w.copying = true ∧ w.new = x)
    (∀ t, nearestSpare s h i = some t → t < 72 ∧ may t ∧
      ∀ x, x < 72 → may x → hops t i < hops x i ∨ (hops t i = hops x i ∧ t ≤ x)) ∧
    (nearestSpare s h i = none → ∀ x, x < 72 → ¬ may x)

/-- R27, R29, R32 to R34: a window opens on a logical core whose four queues are in MARK, or which has no owner and no queue enabled. A fenced core
moves to the nearest ready spare, which serves it with an empty store and is fenced no more, and a rotation of the same window gives way to it (the
model's choice, log entry 177); with no spare it stays fenced and EV_NO_SPARE is written. The copy of a rotation to the nearest ready spare begins; a
core that is not fenced and whose position is not to be rotated keeps its position. -/
def SwapWindowsOpen : Prop :=
  ∀ (n : Core) (s : State),
    let h := n.val / 64
    let c := getCore s n
    let run (t : Nat) (cause : Nat) : SwapRun := { start := now s h, old := c.pos, new := t, cause := cause, swapped := false }
    Canonical s → dieUp s = true → windowDue s n = true → c.swap = none →
      (∀ t', c.fenced = true → earlierRepair s n = false → nearestSpare s h c.pos = some t' →
        ∃ t, exec (.swapWindowOpen n) s = .next t ∧ (getCore t n).pos = t' ∧ (getCore t n).fenced = false ∧
          (getCore t n).swap = some { run t' 0 with swapped := true } ∧
          (getCore t n).plane0 = none ∧ (getCore t n).plane1 = none ∧ (getCore t n).bitmap = none ∧
          (c.pos < 72 → (getPos s (posKey h c.pos)).status = .inService →
            (getPos s (posKey h c.pos)).assayFence = false ∨ (getHall s h).tnkActive = false →
              (getPos t (posKey h t')).status = .inService ∧
                ((getPos s (posKey h t')).stoFlip.arm = false → (getPos t (posKey h t')).store = [])) ∧
          (∀ m, m ≠ n.val → getCore t m = getCore s m ∨
            ∃ w, (getCore s m).swap = some w ∧ w.copying = true ∧ (getCore s m).window = c.window ∧
              getCore t m = { getCore s m with swap := some { w with copying := false } }) ∧ t.queues = s.queues ∧ t.sems = s.sems ∧ t.mem = s.mem) ∧
      (c.fenced = true → earlierRepair s n = false → nearestSpare s h c.pos = none →
        ∃ t, exec (.swapWindowOpen n) s = .next t ∧ getCore t n = { c with swap := some (run c.pos 0) } ∧
          (∀ m, m ≠ n.val → getCore t m = getCore s m) ∧ (getHall t h).sticky.getLsbD 30 = true ∧
          getHall t h = getHall (raise s h 30 1 { code := 0x0007, job := ownerJob s n, lockind := 7, loc := n }) h ∧
          t = { s with halls := t.halls, lcores := t.lcores }) ∧
      (∀ t', c.fenced = false → rotates s n = true → nearestSpare s h c.pos = some t' →
        ∃ t, exec (.swapWindowOpen n) s = .next t ∧ getCore t n = { c with swap := some { run t' 1 with copying := true } } ∧
          (∀ m, m ≠ n.val → getCore t m = getCore s m) ∧ t = { s with halls := t.halls, lcores := t.lcores }) ∧
      (c.fenced = false → rotates s n = false ∨ nearestSpare s h c.pos = none →
        ∃ t, exec (.swapWindowOpen n) s = .next t ∧ getCore t n = { c with swap := some (run c.pos 1) } ∧
          (∀ m, m ≠ n.val → getCore t m = getCore s m) ∧ t = { s with lcores := t.lcores })

/-- R27, R29 to R34: the target of a swap and the opening of a window, with the model's choices of log entries 133 and 177. -/
def Obligations.SwapWindowsMoveFencedCores : Prop :=
  SwapTargetIsTheNearestReadySpare ∧ SwapWindowsOpen

/-- R31, R33: how the copy of a rotation ends. With source and target sound the core moves to the target, which enters service, and the source
becomes a spare; with its source fenced the window becomes that of a repair; with its target failed the core keeps its position, and
the target stays out of service. -/
def RotationsEnd : Prop :=
  ∀ (n : Core) (s : State) (w : SwapRun), Canonical s → (getCore s n).swap = some w →
    let h := n.val / 64
    let u := endRotation s n
    (w.copying = false → u = s) ∧
    (w.copying = true → (getCore s n).fenced = false → (getPos s (posKey h w.new)).status = .ready → w.old ≠ w.new →
      (getCore u n).pos = w.new ∧ (getCore u n).swap = some { w with swapped := true, copying := false } ∧
      (getPos u (posKey h w.new)).status = .inService ∧ (getPos u (posKey h w.old)).status = .ready ∧
      (∀ m, m ≠ n.val → getCore u m = getCore s m) ∧ u.queues = s.queues ∧ u.sems = s.sems) ∧
    (w.copying = true → (getCore s n).fenced = true → ∀ t, nearestSpare (modCore s n fun c =>
        { c with swap := some { w with cause := 0, copying := false } }) h (getCore s n).pos = some t →
      (getCore u n).pos = t ∧ (getCore u n).fenced = false ∧
      (getCore u n).swap = some { w with new := t, cause := 0, swapped := true, copying := false }) ∧
    (w.copying = true → (getCore s n).fenced = true → nearestSpare (modCore s n fun c =>
        { c with swap := some { w with cause := 0, copying := false } }) h (getCore s n).pos = none →
      getCore u n = { getCore s n with swap := some { w with cause := 0, copying := false } } ∧
      (getHall u h).sticky.getLsbD 30 = true ∧ u.queues = s.queues ∧ u.sems = s.sems) ∧
    (w.copying = true → (getCore s n).fenced = false → (getPos s (posKey h w.new)).status ≠ .ready →
      getCore u n = { getCore s n with swap := some { w with copying := false } } ∧
      getPos u (posKey h w.new) = getPos s (posKey h w.new))

/-- R33, R35, R59, with the model's choices of log entries 133 and 173: at the close of a window the copy of a rotation ends; where a swap was made it is counted and EV_CORE_SWAP written with both
positions, the cause and the µs the window took; then the four markers complete in the order of the queues, and the window is over. -/
def MarkersCloseTheWindow : Prop :=
  ∀ (n : Core) (s : State), dieUp s = true →
    let h := n.val / 64
    let u := endRotation s n
    ((getCore u n).swap = none → exec (.swapWindowClose n) s = .next u) ∧
    ∀ w : SwapRun, (getCore u n).swap = some w →
      let told := if w.swapped then
          pushEvent (modHall u h fun hl => { hl with swapCount := hl.swapCount + 1 }) h
            { code := 0x0006, job := ownerJob u n, lockind := 7, loc := n,
              payload := leBytes 1 (if w.old < 72 then w.old else 127) ++ leBytes 1 w.new ++ leBytes 1 w.cause
                ++ leBytes 4 ((now u h - w.start).toNat / 1000) }
        else u
      exec (.swapWindowClose n) s = .next (modCore ((List.range 4).foldl (fun x i => closeMarker x n w i) told) n fun c =>
        { c with swap := none, window := none, killOrigin := none })

/-- R31, R33, R35, R59: what the close of a swap window does; the payload of EV_CORE_SWAP for a core with no position and the order of
the markers are the model's choices (log entries 133, 173). -/
def Obligations.SwapWindowsClose : Prop :=
  RotationsEnd ∧ MarkersCloseTheWindow


/-! ## Host writes of queues, ownership and translation (02, 13, 21) -/

/-- R48: a doorbell write is accepted or refused as the rule says; a refused one changes no queue and writes EV_DOORBELL_RANGE with the
queue and the value. -/
def Obligations.DoorbellIsAcceptedOrReported : Prop :=
  ∀ (q : QRef) (v : W32) (s : State), Canonical s → hostUp s (qHall (qKey q)) = true →
    let k := qKey q
    let qu := getQueue s k
    let accepted := qu.state ≠ .haltFault ∧ qu.state ≠ .haltWait ∧ qu.state ≠ .fenced ∧
      0 ≤ (v - qu.prod).toInt ∧ (v - qu.cmplSeq).toInt ≤ (2 ^ qu.sizeLog2.toNat : Int)
    (accepted → ∃ t, exec (.qDoorbell q v) s = .next t ∧ (getQueue t k).prod = v ∧
      getQueue t k = settle { qu with prod := v } ∧ (∀ k', k' ≠ k → getQueue t k' = getQueue s k') ∧ t = { s with queues := t.queues }) ∧
    (¬ accepted → ∃ t, exec (.qDoorbell q v) s = .next t ∧ t = { s with halls := t.halls } ∧
      (∀ h, h ≠ qHall k → getHall t h = getHall s h) ∧
      getHall t (qHall k) = hallEvent (getHall s (qHall k)) (now s (qHall k))
        { code := 0x0004, job := if qu.enable then some (qJob s k).toNat else none, lockind := qLockind k, loc := qLoc k,
          payload := leBytes 4 v.toNat })

/-- R77, R433: a halted queue with nothing in flight resumes at its completion count when the posted commands fit its ring and its job
context is not killed; any other restart is ignored. -/
def RestartResumesAHaltedQueue : Prop :=
  ∀ (q : QRef) (v : W32) (s : State), Canonical s → hostUp s (qHall (qKey q)) = true →
    let k := qKey q
    let qu := getQueue s k
    let accepted := (qu.state = .haltFault ∨ qu.state = .haltWait) ∧ qu.inflight = [] ∧
      (v - qu.cmplSeq).toNat ≤ 2 ^ qu.sizeLog2.toNat ∧ (getJob s (qJob s k).toNat).killed = false
    (accepted → ∃ t, exec (.qRestart q v) s = .next t ∧ t = { s with queues := t.queues } ∧
      (∀ k', k' ≠ k → getQueue t k' = getQueue s k') ∧
      getQueue t k = { qu with prod := v, fetchSeq := qu.cmplSeq, front := none,
                               state := if qu.cmplSeq = v then .idle else .run }) ∧
    (¬ accepted → exec (.qRestart q v) s = .next s)

/-- R46: ENABLE goes from 0 to 1 on a queue with a legal ring size whose core is owned: its counts are 0, nothing is fetched or in flight,
and the queue is IDLE, or, by the model's choice (log entry 135), FENCED on a fenced core; MQ begins empty. -/
def EnableStartsAnEmptyQueue : Prop :=
  ∀ (q : QRef) (v : W32) (s : State), Canonical s → hostUp s (qHall (qKey q)) = true → bitOf v.toNat 16 = true →
    let k := qKey q
    let qu := writeSize (getQueue s k) v
    (getQueue s k).enable = false →
      (sizeOk qu.sizeLog2.toNat = true → enableOwned s k = true →
        ∃ t, exec (.qEnable q v) s = .next t ∧ t = { s with queues := t.queues, lcores := t.lcores } ∧
          getQueue t k = { qu with
            enable := true, prod := 0, cmplSeq := 0, haltSeq := 0, fetchSeq := 0, front := none, inflight := [], grant := none, qwait := 0,
            state := if ((qCore k).map fun n => (getCore s n).fenced) = some true then .fenced else .idle } ∧
          (∀ k', k' ≠ k → getQueue t k' = getQueue s k') ∧
          (∀ n, getCore t n = if k < 512 ∧ k % 4 = 0 ∧ n = k / 4 then emptyMq (getCore s n) else getCore s n)) ∧
      (sizeOk qu.sizeLog2.toNat = false ∨ enableOwned s k = false →
        ∃ t, exec (.qEnable q v) s = .next t ∧ t = { s with queues := t.queues } ∧ getQueue t k = qu ∧
          ∀ k', k' ≠ k → getQueue t k' = getQueue s k')

/-- R46, R461: ENABLE cleared in IDLE, HALT_FAULT, HALT_WAIT or FENCED, with no marker of its core waiting, leaves the queue DISABLED with no
request at the Miller, whose wait counts; what is in flight stays (the model's choice, log entry 136); in RUN or WAIT the write leaves ENABLE at 1. -/
def DisableStopsAnIdleQueue : Prop :=
  ∀ (q : QRef) (v : W32) (s : State), Canonical s → hostUp s (qHall (qKey q)) = true → bitOf v.toNat 16 = false →
    let k := qKey q
    let qu := getQueue s k
    qu.enable = true →
      (qu.state = .idle ∨ qu.state = .haltFault ∨ qu.state = .haltWait ∨ qu.state = .fenced →
        (∀ n, qCore k = some n → ∀ i, i < 4 → (getQueue s (4 * n + i)).state ≠ .mark) →
          ∃ t, exec (.qDisable q v) s = .next t ∧ getQueue t k = { qu with
              enable := false, state := .disabled, front := none, qwait := qu.qwait + BitVec.ofNat 32 (waitedFor s k) } ∧
            (∀ k', k' ≠ k → getQueue t k' = getQueue s k') ∧
            getHall t (qHall k) = { getHall s (qHall k) with
              requests := (getHall s (qHall k)).requests.filter fun r => r.queue != k } ∧
            t = { s with queues := t.queues, halls := t.halls, lcores := t.lcores }) ∧
      (qu.state = .run ∨ qu.state = .wait → exec (.qDisable q v) s = .next s)

/-- R46, R77, R433, R461: the writes of STW_Q_RESTART and of ENABLE, with the model's choices of log entries 13, 135 and 136. -/
def Obligations.QueueControlWritesAct : Prop :=
  RestartResumesAHaltedQueue ∧ EnableStartsAnEmptyQueue ∧ DisableStopsAnIdleQueue

/-- R505, R506: a write of STW_OWN while the core's four queues are disabled sets the owner and the JOB of the four queues, and is refused
otherwise; a write of STW_SEMGRP sets the group's owner at any time and no semaphore. -/
def OwnershipTablesAreWritten : Prop :=
  (∀ (n : Core) (v : W32) (s : State), Canonical s → hostUp s (n.val / 64) = true →
    ((∀ i, i < 4 → (getQueue s (4 * n.val + i)).enable = false) →
      ∃ t, exec (.stwOwnWrite n v) s = .next t ∧ t = { s with own := t.own, queues := t.queues } ∧
        getOwn t n = { owned := v.getLsbD 31, job := v.setWidth 4 } ∧ (∀ m, m ≠ n.val → getOwn t m = getOwn s m) ∧
        (∀ i, i < 4 → getQueue t (4 * n.val + i) = { getQueue s (4 * n.val + i) with
          job := if v.getLsbD 31 then v.setWidth 4 else 0 }) ∧
        (∀ k, k / 4 ≠ n.val → getQueue t k = getQueue s k)) ∧
    ((∃ i, i < 4 ∧ (getQueue s (4 * n.val + i)).enable = true) → exec (.stwOwnWrite n v) s = .next s)) ∧
  (∀ (h : Hall) (g : Fin 64) (v : W32) (s : State), Canonical s → hostUp s h = true →
    ∃ t, exec (.stwSemgrpWrite h g v) s = .next t ∧ t = { s with semGrp := t.semGrp } ∧
      getSemGrp t (64 * h.val + g.val) = { owned := v.getLsbD 31, job := v.setWidth 4 } ∧
      ∀ x, x ≠ 64 * h.val + g.val → getSemGrp t x = getSemGrp s x)

/-- R324, R326: each bit of STW_XLATE_INV.JOBS written 1 starts an invalidation of its job context; when it is done, no leaf and no table
pointer of an invalidated job context is cached and every other one is; BUSY falls for each job context with no write still to be acknowledged. -/
def InvalidationDropsTheJobsLeafs : Prop :=
  (∀ (v : W32) (s : State), Canonical s → anyHostUp s = true →
    ∃ t, exec (.xlateInv v) s = .next t ∧ t = { s with jobs := t.jobs } ∧
      ∀ j, getJob t j = { getJob s j with
        invalidating := (getJob s j).invalidating || (decide (j < 16) && v.getLsbD j) }) ∧
  (∀ (s : State), Canonical s → dieUp s = true →
    ∃ t, exec .xlateInvDone s = .next t ∧ t = { s with jobs := t.jobs, leafs := t.leafs, halls := t.halls } ∧
      (∀ j, j < 16 → getJob t j = { getJob s j with invalidating := (getJob s j).invalidating && unackedOf s j }) ∧
      (∀ p l, l ∈ tabGet [] t.leafs p ↔ l ∈ tabGet [] s.leafs p ∧ (getJob s l.job.val).invalidating = false) ∧
      (∀ h, getHall t h = if h < 2 then { getHall s h with
        ptrs := (getHall s h).ptrs.filter fun x => !(getJob s x.job.val).invalidating } else getHall s h))

/-- R324, R326, R505, R506: the ownership tables, and the invalidation of cached translations. -/
def Obligations.OwnershipAndLeafsAreWritten : Prop :=
  OwnershipTablesAreWritten ∧ InvalidationDropsTheJobsLeafs

/-! ## The Sealer (11) -/

/-- R263, R268, R273, R276, R280, R281, R511: the Sealer's registers. A write of SEA_SLOT_CFG sets FIXED, KIND, HEAD and FALL, and with a legal T
the scale, L_RUN and QUIET; a flip of two bits leaves T and is found by the next reader; ENABLE set on a job context records V₀ and zeroes the close count; DISCARD zeroes the open statistics. What an
uncorrectable word becomes is the model's choice (log entry 98). -/
def Obligations.SealerRegistersAreWritten : Prop :=
  (∀ (j : Job) (i : Fin 255) (v : W32) (s : State), Canonical s → anyHostUp s = true →
    exec (.seaSlotCfgWrite j i v) s = .next (modSlot s j i fun x => slotCfg x v.toNat) ∧
    ((getHall s 0).seaFlip.arm = false → (getHall s 1).seaFlip.arm = false → (getSlot s j i).ecc0 = 0 → (getSlot s j i).ecc1 = 0 →
      ∃ t, exec (.seaSlotCfgWrite j i v) s = .next t ∧ t = { s with slots := t.slots } ∧
        getSlot t j i = slotCfg (getSlot s j i) v.toNat ∧
        ∀ j' i', 256 * j' + i' ≠ 256 * j.val + i.val → getSlot t j' i' = getSlot s j' i') ∧
    ((getHall s 0).seaFlip.arm = true → (getHall s 0).seaFlip.bits = 2 → (getHall s 1).seaFlip.arm = false →
      (getSlot s j i).ecc0 = 0 → (getSlot s j i).ecc1 = 0 →
        ∃ t, exec (.seaSlotCfgWrite j i v) s = .next t ∧ (getSlot t j i).t = (getSlot s j i).t ∧ (getSlot t j i).ecc0 = 2 ∧
          (getHall t 0).seaFlip = { (getHall s 0).seaFlip with arm := false })) ∧
  (∀ (j : Job) (v : W32) (s : State), Canonical s → anyHostUp s = true →
    ∃ t, exec (.seaJobEnable j v) s = .next t ∧ t = { s with jobs := t.jobs } ∧
      (∀ j', j' ≠ j.val → getJob t j' = getJob s j') ∧ (getJob t j).seaEnable = v.getLsbD 31 ∧
      (v.getLsbD 31 = true → (getJob s j).seaEnable = false → (getJob t j).closes = 0 ∧
        (getJob t j).seaV0 = (getSem s (getJob t j).closeSem).value ∧
        (getJob t j).closeSem = 4096 * bitsOf v.toNat 12 1 + bitsOf v.toNat 0 12 ∧
        (getJob t j).doneSem = 4096 * bitsOf v.toNat 28 1 + bitsOf v.toNat 16 12) ∧
      ((getJob s j).seaEnable = true → getJob t j = { getJob s j with seaEnable := v.getLsbD 31 })) ∧
  (∀ (j : Job) (s : State), Canonical s → anyHostUp s = true →
    (getHall s 0).seaFlip.arm = false → (getHall s 1).seaFlip.arm = false →
      ∃ t, exec (.seaJobDiscard j) s = .next t ∧ t = { s with stats := t.stats } ∧
        ∀ h j' i, j' < 16 → i < 256 → getStats t h j' i = if j' = j.val then {} else getStats s h j' i) ∧
  (∀ (j : Job) (s : State), anyHostUp s = true → exec (.seaJobDiscard j) s = .next (dropStats s j))

/-- R268, R270: while CLOSE_SEM has not reached V₀ + 1 nothing closes; with n closes due all of them are made, one after another: SEA_JOB_CLOSES and V₀
move by n, every slot's statistics are open again at zero in both halls, and a single close adds 1 to DONE_SEM. That the closes are made in one step
is the model's reading (log entry 56). -/
def Obligations.SealerCloseCountsAndSignals : Prop :=
  ∀ (j : Job) (s : State), dieUp s = true →
    let jb := getJob s j
    let n := (getSem s jb.closeSem).value.toNat - jb.seaV0.toNat
    (jb.seaEnable = false ∨ n = 0 → exec (.sealerClose j) s = .next s) ∧
    (Canonical s → jb.seaEnable = true → n ≠ 0 → (getSem s jb.doneSem).broken = false →
      (getHall s 0).seaFlip.arm = false → (getHall s 1).seaFlip.arm = false →
        ∃ t, exec (.sealerClose j) s = .next t ∧
          getJob t j = { jb with closes := jb.closes + BitVec.ofNat 32 n, seaV0 := jb.seaV0 + BitVec.ofNat 64 n } ∧
          (n = 1 → QuietMesh s → SemIncremented s t jb.doneSem 1) ∧ (∀ j', j' ≠ j.val → getJob t j' = getJob s j') ∧
          (∀ h i, h < 2 → i < 255 → getStats t h j i = {}) ∧ t.queues = s.queues ∧ t.lcores = s.lcores)

/-! ## The bench and the test registers (12, 21) -/

/-- R302, R304: TNK_REQ takes a ready spare or a retired position; a position it may not name leaves it unchanged and writes
EV_TNK_REQ_REFUSED; PENDING written 0 withdraws the request. That a position of 72 or more is refused, and what PENDING 0 does, are the model's
readings (log entry 29). -/
def BenchRequestsNameSpares : Prop :=
  ∀ (h : Hall) (v : W32) (s : State), Canonical s → hostUp s h = true →
    let i := bitsOf v.toNat 0 7
    let ok := i < 72 ∧ ((getPos s (posKey h i)).status = .ready ∨ (getPos s (posKey h i)).status = .retired)
    ∃ t, exec (.tnkReqWrite h v) s = .next t ∧ t = { s with halls := t.halls } ∧ (∀ x, x ≠ h.val → getHall t x = getHall s x) ∧
      (v.getLsbD 31 = true → ok → getHall t h = { getHall s h with tnkReqPending := true, tnkReqPos := BitVec.ofNat 7 i }) ∧
      (v.getLsbD 31 = true → ¬ ok →
        getHall t h = hallEvent (getHall s h) (now s h) { code := 0x0303, lockind := 3, loc := posKey h i }) ∧
      (v.getLsbD 31 = false → getHall t h = { getHall s h with tnkReqPending := false, tnkReqPos := BitVec.ofNat 7 i })

/-- The flip-mask register that a target names. -/
def flipOf (s : State) (t : FlipTarget) : Flip :=
  match t with
  | .drn h p => (getPos s (posKey h p)).drnFlip
  | .wvr h p => (getPos s (posKey h p)).wvrFlip
  | .lmp h p => (getPos s (posKey h p)).lmpFlip
  | .ful h p => (getPos s (posKey h p)).fulFlip
  | .asy h p => (getPos s (posKey h p)).asyFlip
  | .asyCrc h p => (getPos s (posKey h p)).asyCrcFlip
  | .ctr h p => (getPos s (posKey h p)).ctrFlip
  | .sto h p => (getPos s (posKey h p)).stoFlip
  | .sea h => (getHall s h).seaFlip
  | .hub h j => (getHub s (8 * h.val + j.val)).flip
  | .lnk h j => (getPort s (6 * h.val + j.val)).flip
  | .mesh h => (getHall s h).meshFlip
  | .seam h => (getHall s h).seamFlip

/-- Where CHECK lies in a flip-mask register, its width, and the width of DATA from bit 0 (21). -/
def flipLayout (t : FlipTarget) : Nat × Nat × Nat :=
  match t with
  | .drn _ _ => (16, 9, 16)
  | .wvr _ _ => (16, 7, 16)
  | .lmp _ _ => (16, 8, 16)
  | .ful _ _ => (16, 7, 16)
  | .asy _ _ => (16, 8, 16)
  | .asyCrc _ _ => (16, 7, 16)
  | .ctr _ _ => (16, 8, 16)
  | .sto _ _ => (8, 4, 8)
  | .sea _ => (16, 8, 16)
  | .hub _ _ => (22, 0, 16)
  | .lnk _ _ => (16, 8, 16)
  | .mesh _ => (16, 8, 16)
  | .seam _ => (16, 8, 16)

/-- A flip target in the core block of a hole, whose writes are discarded (R367). -/
def flipInHole (s : State) (t : FlipTarget) : Prop :=
  match t with
  | .drn h p | .wvr h p | .lmp h p | .ful h p | .asy h p | .asyCrc h p | .ctr h p | .sto h p =>
    (getPos s (posKey h p)).status = .hole
  | .sea _ | .hub _ _ | .lnk _ _ | .mesh _ | .seam _ => False

/-- R511, R367: a write of a flip-mask register stores CHECK and DATA and arms where ARM is 1; writing 0 to ARM does not disarm; no other
flip-mask register changes. In the core block of a hole the write is discarded. -/
def Obligations.FlipMasksAreStoredAndArmed : Prop :=
  ∀ (x : FlipTarget) (v : W32) (s : State), Canonical s → hostUp s (flipHall x) = true →
    let l := flipLayout x
    (flipInHole s x → exec (.flipArm x v) s = .next s) ∧
    (¬ flipInHole s x → ∃ t, exec (.flipArm x v) s = .next t ∧
      (flipOf t x).arm = ((flipOf s x).arm || v.getLsbD 31) ∧ (flipOf t x).check = bitsOf v.toNat l.1 l.2.1 ∧
      (flipOf t x).data = bitsOf v.toNat 0 l.2.2 ∧ (∀ y, y ≠ x → flipOf t y = flipOf s y) ∧
      t = { s with positions := t.positions, halls := t.halls, hubs := t.hubs, ports := t.ports })

/-- R292, R303, R367: a write of ASY_CTL sets ENABLE, and arms INJECT where its bit is 1; in the core block of a hole it is discarded. -/
def AssayerControlIsWritten : Prop :=
  ∀ (h : Hall) (p : Pos) (v : W32) (s : State), Canonical s → hostUp s h = true →
    let k := posKey h p
    ((getPos s k).status = .hole → exec (.asyInject h p v) s = .next s) ∧
    ((getPos s k).status ≠ .hole → ∃ t, exec (.asyInject h p v) s = .next t ∧ t = { s with positions := t.positions } ∧
      getPos t k = { getPos s k with asyEnable := v.getLsbD 0, asyInject := (getPos s k).asyInject || v.getLsbD 31 } ∧
      ∀ x, x ≠ k → getPos t x = getPos s x)

/-- R292, R302 to R304, R367: TNK_REQ and ASY_CTL. -/
def Obligations.BenchAndAssayerRegistersAreWritten : Prop :=
  BenchRequestsNameSpares ∧ AssayerControlIsWritten


/-! ## The Cooper (18) -/

/-- R433, R440, R443, R454: KILLED cleared by the host leaves CAUSE; COP_JOB_CFG enabled records V₀ of its trigger semaphore; an interval of at most
16 waits for the next trigger, a larger one is ignored; a fetch whose data stayed away ends with RESULT 3. (What
the Cooper does where the manual names no effect is the model's choice: log entries 76, 115.) -/
def CooperRegistersAreWritten : Prop :=
  (∀ (j : Job) (s : State), Canonical s → anyHostUp s = true →
    ∃ t, exec (.killedClear j) s = .next t ∧ t = { s with jobs := t.jobs } ∧
      getJob t j = { getJob s j with killed := false } ∧ ∀ x, x ≠ j.val → getJob t x = getJob s x) ∧
  (∀ (j : Job) (v : W32) (s : State), Canonical s → anyHostUp s = true →
    ∃ t, exec (.copEnable j v) s = .next t ∧ t = { s with jobs := t.jobs } ∧ (∀ x, x ≠ j.val → getJob t x = getJob s x) ∧
      (getJob t j).copEnable = v.getLsbD 31 ∧
      ((getJob s j).copEnable = true → getJob t j = { getJob s j with copEnable := v.getLsbD 31 }) ∧
      ((getJob s j).copEnable = false → (getJob t j).copChmask.toNat = bitsOf v.toNat 28 3 ∧
        (getJob t j).copTrig = 4096 * bitsOf v.toNat 12 1 + bitsOf v.toNat 0 12 ∧
        (getJob t j).copDone = 4096 * bitsOf v.toNat 25 1 + bitsOf v.toNat 13 12 ∧
        (v.getLsbD 31 = true → (getJob t j).copV0 = (getSem s (getJob t j).copTrig).value ∧ (getJob t j).lastTrigger = none))) ∧
  (∀ (j : Job) (v : W32) (s : State), Canonical s → anyHostUp s = true →
    let n := bitsOf v.toNat 0 5
    (n ≤ 16 → ∃ t, exec (.copIntervalWrite j v) s = .next t ∧ t = { s with jobs := t.jobs } ∧
      getJob t j = { getJob s j with log2Next := some n } ∧ ∀ x, x ≠ j.val → getJob t x = getJob s x) ∧
    (16 < n → exec (.copIntervalWrite j v) s = .next s)) ∧
  (∀ (j : Job) (s : State), Canonical s → dieUp s = true →
    ((getJob s j).fetching = true → ∃ t, exec (.copFetchTimeout j) s = .next t ∧ t = { s with jobs := t.jobs } ∧
      getJob t j = { getJob s j with fetching := false, result := 3 } ∧ ∀ x, x ≠ j.val → getJob t x = getJob s x) ∧
    ((getJob s j).fetching = false → exec (.copFetchTimeout j) s = .next s))

/-- R444, R445: RESTORE and FETCH while a queue of the job context is in RUN, WAIT or MARK have RESULT 6 and no other effect. Otherwise FETCH
ends with RESULT 3 where CHMASK names no port or one that is down, and begins with every port up: each hall's instance sends its request; RESTORE
takes the generation of COP_JOB_STEP from the slot that holds it, or ends with RESULT 2. One that is under way is left alone (R502). -/
def RestoreAndFetchNeedAStillJob : Prop :=
  ∀ (j : Job) (s : State), Canonical s → anyHostUp s = true →
    let busy := ∃ k, (getQueue s k).enable = true ∧ (qJob s k).toNat = j.val ∧
      ((getQueue s k).state = .run ∨ (getQueue s k).state = .wait ∨ (getQueue s k).state = .mark)
    let result (v : Nat) (i : Instr) : Prop := ∃ t, exec i s = .next t ∧ t = { s with jobs := t.jobs } ∧
      getJob t j = { getJob s j with result := v } ∧ ∀ x, x ≠ j.val → getJob t x = getJob s x
    let restores := (getJob s j).restoring = false
    let fetches := (getJob s j).fetching = false
    (¬ restores → exec (.copRestore j) s = .next s) ∧ (¬ fetches → exec (.copFetch j) s = .next s) ∧
    (busy → (restores → result 6 (.copRestore j)) ∧ (fetches → result 6 (.copFetch j))) ∧
    (¬ busy →
      (fetches → (copPorts s j = [] ∨ ∃ k ∈ copPorts s j, (getPort s k).up = false) → result 3 (.copFetch j)) ∧
      (fetches → copPorts s j ≠ [] → (∀ k ∈ copPorts s j, (getPort s k).up = true) →
        exec (.copFetch j) s = .next ([0, 1].foldl (fun u h => match copPort u j h 0 false with
          | none => u
          | some k => enqueueFrame u k (copFrame u j 3 0 (getJob u j).copStep []))
          (modJob s j fun jb => { jb with fetching := true, fetched := 0, fetchPoison := false }))) ∧
      (restores → ∀ n, (findGen s j 0 (getJob s j).copStep).1 = some n →
        exec (.copRestore j) s = .next (restoreFrom (findGen s j 0 (getJob s j).copStep).2 j n)) ∧
      (restores → (findGen s j 0 (getJob s j).copStep).1 = none →
        exec (.copRestore j) s = .next (setResult (findGen s j 0 (getJob s j).copStep).2 j 2)))

/-- R433, R440, R443 to R445, R454: the Cooper's registers, restores and fetches. -/
def Obligations.CooperRegistersAndRestoresAct : Prop :=
  CooperRegistersAreWritten ∧ RestoreAndFetchNeedAStillJob

/-- R440, R433: no trigger is taken before its semaphore reaches V₀ + 1 or while ENABLE is 0, nor while one before it has still to raise DONE_SEM (the
model's choice, log entry 180); one that is due acts on its step; a killed job
context's trigger moves the step and V₀ on by one, takes the interval written, and copies nothing. -/
def TriggersFollowTheirSemaphore : Prop :=
  ∀ (j : Job) (s : State), Canonical s → dieUp s = true →
    let jb := getJob s j
    (jb.copEnable = false ∨ jb.opening.isSome = true ∨ jb.closing.isSome = true ∨
      (getSem s jb.copTrig).value.toNat < jb.copV0.toNat + 1 → exec (.cooperTrigger j) s = .next s) ∧
    (jb.copEnable = true → jb.opening = none → jb.closing = none → jb.copV0.toNat + 1 ≤ (getSem s jb.copTrig).value.toNat →
      exec (.cooperTrigger j) s = .next (copTrigger s j) ∧
      (jb.killed = true → ∃ t, exec (.cooperTrigger j) s = .next t ∧ (getJob t j).copStep = jb.copStep + 1 ∧
        (getJob t j).copV0 = jb.copV0 + 1 ∧ (getJob t j).lastTrigger = some (now s 0) ∧
        (jb.log2Next = none → (getJob t j).log2 = jb.log2) ∧
        (∀ n, jb.log2Next = some n →
          (getJob t j).log2 = if jb.copStep.toNat % 2 ^ max jb.log2 n = 0 then n else jb.log2) ∧
        (∀ x, x ≠ j.val → getJob t x = getJob s x) ∧ t = { s with jobs := t.jobs, free := t.free }))

/-- R440, R442, R462, R467: when every copy of an open generation is acknowledged and no copy stream waits for its grant, the grants and loans of the
streams end and DONE_SEM rises by 1; where the close of the same trigger has raised it already, COST is the µs since the open. Until then
nothing happens. That the copies leave at once at the trigger, with a stream in each hall, is the model's reading (log entry 113). -/
def CopiesEndAtTheirLastAcknowledgement : Prop :=
  ∀ (j : Job) (s : State), Canonical s → dieUp s = true →
    let jb := getJob s j
    (jb.opening = none → exec (.cooperCopyDone j) s = .next s) ∧
    (∀ o, jb.opening = some o →
      (copiesDone s j o.1 = false → exec (.cooperCopyDone j) s = .next s) ∧
      (copiesDone s j o.1 = true → (getSem s jb.copDone).broken = false →
        ∃ t, exec (.cooperCopyDone j) s = .next t ∧
          (∀ a, jb.openedAt = some a → jb.closing = none →
            getJob t j = { jb with opening := none, openedAt := none, cost := BitVec.ofNat 32 ((now s 0 - a).toNat / 1000) }) ∧
          (jb.openedAt = none ∨ jb.closing.isSome = true → getJob t j = { jb with opening := none }) ∧
          (QuietMesh s → SemIncremented s t jb.copDone 1) ∧ (∀ x, x ≠ j.val → getJob t x = getJob s x) ∧
          (∀ h, h < 2 → tabWf 0 (getHall s h).copGrants = true → tabGet 0 (getHall t h).copGrants j = 0) ∧
          (∀ h, h < 2 → tabWf 0 (getHall s h).copLent = true → tabGet 0 (getHall t h).copLent j = 0) ∧
          t = { s with jobs := t.jobs, sems := t.sems, halls := t.halls, series := t.series, free := t.free }))

/-- R433, R440, R442, R467: the Cooper's triggers, and the end of an open generation's copies. -/
def Obligations.CooperTriggersAndCopiesEnd : Prop :=
  TriggersFollowTheirSemaphore ∧ CopiesEndAtTheirLastAcknowledgement


/-! ## The Bellman and the events (18, 20) -/

/-- R427: nothing that may persist of a source does in a hall: a port still down, a PLL or supply still out, or a condition of the other sources. -/
def Settled (s : State) (h n : Nat) : Prop :=
  (n = 26 → lostPorts s h = []) ∧ (n = 12 ∨ n = 32 → ∀ x ∈ (getHall s h).conds, x.source ≠ n) ∧
  (n ≠ 12 → n ≠ 32 → persists s h n = 0)

/-- R427, R534: sticky bits written 1 clear, with the held class of their source, where each may be cleared and its condition does not persist;
no other bit changes. A bit of class H of a hall that is down, or of class M of a module that is down, stays; a source whose condition
persists is raised again at once; each PLL or supply that failed is raised again with its event, or has come back, which is free (which conditions
persist is the model's choice, log entry 47). -/
def Obligations.StickyBitsClearWhenWritten : Prop :=
  (∀ (h : Hall) (v : W64) (s : State), Canonical s → hostUp s h = true →
    (∀ n, n < 44 → v.getLsbD n = true → clearable s h n = true ∧ Settled s h n) →
      ∃ t, exec (.belStickyClear h v) s = .next t ∧ t = { s with halls := t.halls } ∧ (∀ x, x ≠ h.val → getHall t x = getHall s x) ∧
        (∀ n, n < 64 → (getHall t h).sticky.getLsbD n = ((getHall s h).sticky.getLsbD n && !(decide (n < 44) && v.getLsbD n))) ∧
        (getHall t h).heldRouter = (if v.getLsbD 8 && (getHall s h).sticky.getLsbD 8 then 0 else (getHall s h).heldRouter) ∧
        (getHall t h).evSeq = (getHall s h).evSeq) ∧
  (∀ (h : Hall) (n : Nat) (s : State), n < 44 → hostUp s h = true → clearable s h n = false →
    exec (.belStickyClear h (BitVec.ofNat 64 (2 ^ n))) s = .next s) ∧
  (∀ (h : Hall) (n : Nat) (s : State), Canonical s → n < 44 → n ≠ 26 → hostUp s h = true → clearable s h n = true →
    (getHall s h).sticky.getLsbD n = true → persists (modHall s h fun hl => clearBit hl n) h n ≠ 0 →
      ∃ t, exec (.belStickyClear h (BitVec.ofNat 64 (2 ^ n))) s = .next t ∧ t = { s with halls := t.halls, free := t.free } ∧
        ∀ x ∈ sourceHalls h n, (getHall t x).sticky.getLsbD n = true) ∧
  (∀ (h : Hall) (n : Nat) (s : State), Canonical s → n = 12 ∨ n = 32 → hostUp s h = true → clearable s h n = true →
    (getHall s h).sticky.getLsbD n = true →
      ∃ t, exec (.belStickyClear h (BitVec.ofNat 64 (2 ^ n))) s = .next t ∧ t = { s with halls := t.halls, free := t.free } ∧
        (∀ c ∈ (getHall t h).conds, c ∈ (getHall s h).conds) ∧
        ∀ c ∈ (getHall t h).conds, c.source = n → ∀ x ∈ sourceHalls h n, (getHall t x).sticky.getLsbD n = true)

/-- R428: a source forced sets its sticky bit, in both halls for a source of both; a sticky bit that was set stays set, no hall and no module
goes down, and nothing but the halls' Bellman and events changes. -/
def ForcedSourcesSetTheirBits : Prop :=
  ∀ (h : Hall) (v : W64) (s : State), Canonical s → hostUp s h = true →
    ∃ t, exec (.belForce h v) s = .next t ∧ t = { s with halls := t.halls } ∧
      (∀ n, n < 44 → v.getLsbD n = true → ∀ x ∈ sourceHalls h n, (getHall t x).sticky.getLsbD n = true) ∧
      (∀ n x, n < 64 → (getHall s x).sticky.getLsbD n = true → (getHall t x).sticky.getLsbD n = true) ∧
      (∀ n x, n < 64 → (44 ≤ n ∨ v.getLsbD n = false) → (getHall t x).sticky.getLsbD n = (getHall s x).sticky.getLsbD n) ∧
      ∀ x, (getHall t x).down = (getHall s x).down

/-- R425: a report of a source that is not of class J, H or M sets the sticky bit in the source's halls and changes nothing but the halls;
one of class H takes its hall down once, one of class M the module. -/
def ReportsSetStickyBitsAndAct : Prop :=
  ∀ (h : Hall) (src : Fin 44) (cls : Fin 7) (job : Option Job) (s : State), Canonical s → dieUp s = true →
    let c := reportClass src cls
    let told := (sourceHalls h src).foldl (fun u x => report u x src c false (job.map fun j => j.val)) s
    (∀ x ∈ sourceHalls h src, (getHall told x).sticky.getLsbD src = true) ∧ told = { s with halls := told.halls } ∧
    (c ≠ 3 → c ≠ 5 → c ≠ 6 → exec (.bellmanReport h src cls job) s = .next told) ∧
    (c = 3 → job = none → exec (.bellmanReport h src cls job) s = .next told) ∧
    (∀ j, c = 3 → job = some j →
      exec (.bellmanReport h src cls job) s = .next (killJob told j (killCause src) (originNext s h src c))) ∧
    (c = 5 → (getHall s h).down = true → exec (.bellmanReport h src cls job) s = .next told) ∧
    (c = 5 → (getHall s h).down = false →
      exec (.bellmanReport h src cls job) s = .next (hallDown told h src (originNext s h src c))) ∧
    (c = 6 → s.moduleDown = true → exec (.bellmanReport h src cls job) s = .next told) ∧
    (c = 6 → s.moduleDown = false →
      exec (.bellmanReport h src cls job) s = .next (moduleDown told src (originNext s h src c)))

/-- R425, R428, R430 to R432, R534: reports of blocks and forced raises. -/
def Obligations.SourcesAreReportedAndForced : Prop :=
  ForcedSourcesSetTheirBits ∧ ReportsSetStickyBitsAndAct

/-- R429: ALIVE toggles while the die runs, the supplies are there and both halls enable it; otherwise it holds its level. -/
def AliveTogglesWhileBothHallsEnable : Prop :=
  ∀ s : State,
    (toggling s = true → exec .aliveToggle s = .next { s with aliveLevel := !s.aliveLevel }) ∧
    (toggling s = false → exec .aliveToggle s = .next s) ∧
    (toggling s = true ↔ dieUp s = true ∧ s.power.mgmt = true ∧ s.power.input48 = true ∧ ∀ h, h < 2 → ∀ n, n < 44 →
      (getHall s h).sticky.getLsbD n = true → 5 ≤ sourceClass (getHall s h) n → (getHall s h).aliveMask.getLsbD n = true)

/-- R491 to R494: EVENT_WRITE completes: the oldest event waiting goes to the host's ring with all of its records, as R491 lays them out, when the
ring is enabled, the link is up, Bus Master Enable is set and the records fit; PROD counts them, and only the records' bytes of host memory change. Events lost for want of
room are told of by one more event. Otherwise nothing happens. -/
def Obligations.EventsGoToTheRingInOrder : Prop :=
  ∀ (h : Hall) (s : State),
    (∀ e rest, (getHall s h).held = e :: rest → ringReady s h (eventRecords e.payload) = false →
      exec (.eventWrite h) s = .next s) ∧
    ((getHall s h).held = [] → exec (.eventWrite h) s = .next s) ∧
    (∀ e rest, Canonical s → (getHall s h).held = e :: rest → ringReady s h (eventRecords e.payload) = true →
      let n := eventRecords e.payload
      let hl := getHall s h
      let at' (i : Nat) : Nat := hl.ringBase.toNat + 32 * ((hl.ringProd + BitVec.ofNat 32 i).toNat % 2 ^ hl.ringSizeLog2)
      ∃ t, exec (.eventWrite h) s = .next t ∧ (getHall t h).ringProd = hl.ringProd + BitVec.ofNat 32 n ∧
        (hl.lostFirst = none → (getHall t h).held = rest ∧ (getHall t h).evSeq = hl.evSeq) ∧
        (∀ f, hl.lostFirst = some f → (getHall t h).evSeq = hl.evSeq + 1) ∧
        (hl.ringSizeLog2 ≤ 16 → ∀ i, i < n → readBytes t.hostMem (at' i) 32 =
          recordOf h e (decide (i + 1 < n)) (ringPhase hl (hl.ringProd + BitVec.ofNat 32 i)) (e.payload.drop (12 * i))) ∧
        (∀ x, x ≠ h.val → getHall t x = getHall s x) ∧
        (∀ a, (∀ i, i < n → a < at' i ∨ at' i + 32 ≤ a) → tabGet 0 t.hostMem a = tabGet 0 s.hostMem a) ∧
        t = { s with halls := t.halls, hostMem := t.hostMem })

/-- R495: MSIX_FIRE completes: with MSI-X enabled and bus mastering on, a vector that is due and masked neither by itself nor by the Function Mask
sends its message: DATA at ADDR in host memory, and its count starts again; a masked one keeps its pending bit and sends nothing; a vector with no
events and no pending bit does nothing, nor does any while MSI-X is disabled (log entry 5). -/
def Obligations.VectorsFireWhenDue : Prop :=
  ∀ (h : Hall) (v : Fin 17) (s : State), Canonical s →
    let hl := getHall s h
    let x := getVector hl v
    let due := vectorDue hl (now s h) x
    let masked := x.masked || hl.msixMask
    let sent (y : Vector) : State :=
      modHall { s with hostMem := putBytes s.hostMem x.addr.toNat (leBytes 4 x.data.toNat) } h fun hl => setVector hl v y
    (dieUp s = false ∨ hl.linkUp = false ∨ hl.busMaster = false ∨ hl.msixEnable = false → exec (.msixFire h v) s = .next s) ∧
    (dieUp s = true → hl.linkUp = true → hl.busMaster = true → hl.msixEnable = true →
      (due = true → masked = false →
        exec (.msixFire h v) s = .next (sent { x with count := 0, urgent := false, pendingBit := false })) ∧
      (due = true → masked = true →
        exec (.msixFire h v) s = .next (modHall s h fun hl => setVector hl v { x with count := 0, urgent := false, pendingBit := true })) ∧
      (due = false → masked = true ∨ x.pendingBit = false → exec (.msixFire h v) s = .next s) ∧
      (due = false → masked = false → x.pendingBit = true → exec (.msixFire h v) s = .next (sent { x with pendingBit := false })))

/-- R493, R497: SCB_RING_ENABLE and SCB_RING_CONS_WRITE complete: SCB_RING_CFG written enables the ring with PROD and CONS at 0, and takes SIZE_LOG2 from 7 to 16 while disabled; SCB_RING_CONS
moves to a value that is not beyond PROD and ignores any other. -/
def Obligations.RingRegistersAreWritten : Prop :=
  (∀ (h : Hall) (v : W32) (s : State), Canonical s → hostUp s h = true →
    let hl := getHall s h
    let n := bitsOf v.toNat 0 5
    ∃ t, exec (.scbRingEnable h v) s = .next t ∧ t = { s with halls := t.halls } ∧ (∀ x, x ≠ h.val → getHall t x = getHall s x) ∧
      getHall t h = { hl with
        ringEnable := v.getLsbD 31,
        ringSizeLog2 := if hl.ringEnable = false ∧ 7 ≤ n ∧ n ≤ 16 then n else hl.ringSizeLog2,
        ringProd := if v.getLsbD 31 = true ∧ hl.ringEnable = false then 0 else hl.ringProd,
        ringCons := if v.getLsbD 31 = true ∧ hl.ringEnable = false then 0 else hl.ringCons }) ∧
  (∀ (h : Hall) (v : W32) (s : State), Canonical s → hostUp s h = true →
    ∃ t, exec (.scbRingConsWrite h v) s = .next t ∧ t = { s with halls := t.halls } ∧ (∀ x, x ≠ h.val → getHall t x = getHall s x) ∧
      getHall t h = { getHall s h with
        ringCons := if 0 < (v - (getHall s h).ringProd).toInt then (getHall s h).ringCons else v })

/-- R435, R436: the Steward's drop for a fenced core writes EV_SLOT_DROP and is done once; without a slot map or a ledger it drops nothing
and marks LEDGER_MISS. A core with no drop pending has none. The widths of the payload's fields are the model's choice (log entry 38). -/
def SlotDropsAreMadeOnce : Prop :=
  ∀ (n : Core) (s : State), Canonical s → dieUp s = true →
    ((getCore s n).dropPending = false → exec (.slotDrop n) s = .next s) ∧
    ((getCore s n).dropPending = true →
      let j := (getOwn s n).job.toNat
      let h := n.val / 64
      ∃ t, exec (.slotDrop n) s = .next t ∧ getCore t n = { getCore s n with dropPending := false } ∧
        (∀ m, m ≠ n.val → getCore t m = getCore s m) ∧ t.queues = s.queues ∧ t.sems = s.sems ∧ t.jobs = s.jobs ∧
        ((getJob s j).slotmapEnable = false ∨ (getJob s j).ledgerEnable = false →
          t = { s with lcores := t.lcores, halls := t.halls } ∧
          getHall t h = hallEvent (getHall s h) (now s h)
            { code := 0x0008, job := some j, lockind := 7, loc := n, payload := List.replicate 8 0 ++ [1] }))


/-! ## Start, reload, self-test and flash (18, 20) -/

/-- R470, R478, R479, R533: a retry or a cold start with no valid slot in a hall stops in BOOT_FAIL, with slots of different COMPAT in MISMATCH, and where
the flash of a hall cannot be used in FLASH_BAD there (how a flash is seen to be unusable is the model's choice, log entry 179): the die is off, every
queue DISABLED and device memory lost, and the chain addresses, host memory, the halls' links, mailboxes, sticky bits and waiting events stand. A retry
of a start that has completed does nothing, nor does one without the management supply (log entries 64 to 66). -/
def StoppedStartsTellWhy : Prop :=
  (∀ (h : Hall) (s : State), bootUp s h = true →
    let kept (t : State) : Prop := t.started = false ∧ t.power.die = false ∧
      (∀ k, getQueue t k = {}) ∧ (∀ k, getSem t k = {}) ∧ t.mem = [] ∧ t.chain = s.chain ∧ t.hostMem = s.hostMem ∧ t.order = s.order ∧
      ∀ i, i < 2 → (getHall t i).sticky = (getHall s i).sticky ∧ (getHall t i).held = (getHall s i).held ∧
        (getHall t i).linkUp = (getHall s i).linkUp ∧ (getHall t i).busMaster = (getHall s i).busMaster ∧
        (getHall t i).mailbox = (getHall s i).mailbox ∧ (getHall t i).flash = (getHall s i).flash
    (s.started = true ∨ s.power.mgmt = false → exec (.stwStartRetry h) s = .next s) ∧
    (s.started = false → s.power.mgmt = true → exec (.stwStartRetry h) s = .next (coldStarted s true)) ∧
    (s.started = false → s.power.mgmt = true → flashUnusable s 0 = false → flashUnusable s 1 = false →
      ∀ x, chooseSlots (getHall s 0) (getHall s 1) = .error x →
        ∃ t, exec (.stwStartRetry h) s = .next t ∧ kept t ∧ ∀ i, i < 2 → (getHall t i).start = x) ∧
    (s.started = false → s.power.mgmt = true → flashUnusable s 0 = true ∨ flashUnusable s 1 = true →
      ∃ t, exec (.stwStartRetry h) s = .next t ∧ kept t ∧
        ∀ i, i < 2 → (getHall t i).start = if flashUnusable s i then .flashBad else .bootFail)) ∧
  ∀ (w e : HallState),
    (chooseSlots w e = .error .bootFail ↔ (chosenSlot w = none ∨ chosenSlot e = none)) ∧
    (∀ hl, chosenSlot hl = none ↔ slotValid hl false = false ∧ slotValid hl true = false)

/-- R477, R518, R524: the cold start runs when a supply that was absent is back; with both present it is no start, and an open eFuse keeps the die
unpowered. A management supply that was lost took the chain addresses and the test access port's state with it. -/
def ColdStartNeedsItsSupplies : Prop :=
  ∀ s : State,
    let on (s : State) : State := { s with power := { s.power with mgmt := true, input48 := true } }
    let fresh (s : State) : State := on { s with chain := { s.chain with lfa := none, caddr := 0, inOk := false }, jtag := {} }
    (s.power.mgmt = true → s.power.input48 = true → exec .coldStart s = .next s) ∧
    (s.power.mgmt = true → s.power.input48 = false → s.power.efuseOpen = false → exec .coldStart s = .next (coldStarted (on s) false)) ∧
    (s.power.mgmt = false → s.power.efuseOpen = false → exec .coldStart s = .next (coldStarted (fresh s) false)) ∧
    (s.power.mgmt = true → s.power.input48 = false → s.power.efuseOpen = true → exec .coldStart s = .next (on s)) ∧
    (s.power.mgmt = false → s.power.efuseOpen = true → exec .coldStart s = .next (fresh s))

/-- R477 to R479, R518: retries and cold starts. -/
def Obligations.StartsTellWhyTheyStop : Prop :=
  StoppedStartsTellWhy ∧ ColdStartNeedsItsSupplies

/-- R480, R496: a write of STW_RELOAD stores SLOT and MAKE_ACTIVE; with START it is refused with STATUS 3 while a job context is resident in
the hall, 4 where the slot's COMPAT differs from the other hall's image, 5 where the slot is not valid, in that order, and otherwise
the reload runs. -/
def ReloadsAreCheckedInOrder : Prop :=
  ∀ (h : Hall) (v : W32) (s : State), Canonical s → hostUp s h = true →
    let slot := v.getLsbD 29
    let hl : HallState := { getHall s h with reloadMakeActive := v.getLsbD 30, reloadSlot := slot }
    let ends (x : HallState) : Prop := ∃ t, exec (.hallReload h v) s = .next t ∧ t = { s with halls := t.halls } ∧
      getHall t h = x ∧ ∀ y, y ≠ h.val → getHall t y = getHall s y
    let other := (getHall s (1 - h.val)).imageCompat
    (v.getLsbD 31 = false → ends hl) ∧
    (v.getLsbD 31 = true → anyResident s h = true → ends { hl with reloadStatus := 3 }) ∧
    (v.getLsbD 31 = true → anyResident s h = false → slotCompat hl slot ≠ other → ends { hl with reloadStatus := 4 }) ∧
    (v.getLsbD 31 = true → anyResident s h = false → slotCompat hl slot = other → slotValid hl slot = false →
      ends { hl with reloadStatus := 5 }) ∧
    (v.getLsbD 31 = true → anyResident s h = false → slotCompat hl slot = other → slotValid hl slot = true →
      exec (.hallReload h v) s = .next (reload (setHall s h hl) h slot))

/-- R450: the self-test is BUSY while a job context is resident, and changes nothing else then; otherwise it passes where nothing is found failing
and fails where something is, and one that passes leaves every store byte zero with valid check bits and every byte of a package not retired
zero. -/
def SelfTestZeroesOrIsBusy : Prop :=
  ∀ (found : Findings) (s : State), Canonical s → anyHostUp s = true →
    (anyJob s = true →
      exec (.selftestStart found) s = .next { s with selfTest := { s.selfTest with status := 4 } }) ∧
    (anyJob s = false → ∃ t, exec (.selftestStart found) s = .next t ∧
      t.selfTest.status = (if foundAny found then 3 else 2) ∧
      (foundAny found = false → (∀ p off, readSByte (getPos t p) off = {}) ∧
        (∀ a, retiredAt s a = false → tabGet 0 t.mem a = 0) ∧ (∀ a, retiredAt s a = true → tabGet 0 t.mem a = tabGet 0 s.mem a) ∧
        t.queues = s.queues ∧ t.sems = s.sems ∧ t.lcores = s.lcores))

/-- R450, R480, R496: HALL_RELOAD and the self-test. -/
def Obligations.ReloadsAndSelfTestsAreChecked : Prop :=
  ReloadsAreCheckedInOrder ∧ SelfTestZeroesOrIsBusy

/-- R475, R496: the flash mailbox acts on the block that STW_FLASH_ADDR names where it lies in the slot the hall does not run, and is REFUSED
elsewhere and for operation 3: READ takes 256 bytes to the buffer, PROGRAM clears bits of 256 bytes from it, ERASE sets 64 KiB to
0xFF. A refused operation leaves flash and buffer; one on a flash that cannot be used ends with FLASH_ERROR. (That a program sets no bit, and which
flash cannot be used, are the model's choices: log entries 40, 179.) -/
def Obligations.MailboxActsOnTheIdleSlot : Prop :=
  ∀ (h : Hall) (s : State), Canonical s → bootUp s h = true →
    let hl := getHall s h
    let a := hl.flashAddr.toNat / 256 * 256
    let b := hl.flashAddr.toNat / 65536 * 65536
    let at' (i : Instr) (f : HallState → Prop) : Prop := ∃ t, exec i s = .next t ∧ t = { s with halls := t.halls } ∧
      (∀ x, x ≠ h.val → getHall t x = getHall s x) ∧ f (getHall t h)
    let ended (op : BitVec 2) (status : Nat) (x : HallState) : Prop := x = { hl with flashOp := op, flashStatus := status }
    let good := flashUnusable s h = false
    (good → mailboxSlot s h a = true → at' (.flashRead h) fun x =>
      (∀ i, i < 256 → tabGet 0 x.mailbox i = flashByte hl (a + i)) ∧ x = { hl with mailbox := x.mailbox, flashOp := 0, flashStatus := 1 }) ∧
    (good → mailboxSlot s h a = true → tabWf 0xFF hl.flash = true → at' (.flashProgram h) fun x =>
      (∀ i, i < 256 → flashByte x (a + i) = flashByte hl (a + i) &&& tabGet 0 hl.mailbox i) ∧
      (∀ i, i < a ∨ a + 256 ≤ i → flashByte x i = flashByte hl i) ∧ x = { hl with flash := x.flash, flashOp := 1, flashStatus := 1 }) ∧
    (good → mailboxSlot s h b = true → at' (.flashErase h) fun x =>
      (∀ i, b ≤ i → i < b + 65536 → flashByte x i = 0xFF) ∧
      (∀ i, i < b ∨ b + 65536 ≤ i → flashByte x i = flashByte hl i) ∧ x = { hl with flash := x.flash, flashOp := 2, flashStatus := 1 }) ∧
    (good → mailboxSlot s h a = false → at' (.flashRead h) (ended 0 2) ∧ at' (.flashProgram h) (ended 1 2)) ∧
    (good → mailboxSlot s h b = false → at' (.flashErase h) (ended 2 2)) ∧
    (¬ good → at' (.flashRead h) (ended 0 3) ∧ at' (.flashProgram h) (ended 1 3) ∧ at' (.flashErase h) (ended 2 3)) ∧
    at' (.flashOpReserved h) (ended 3 2)

/-- R344, R372, R476: the oldest repair-log entry decided, and a seam wire's entry, are appended at the first erased place of their list, the
wire's errors counted at its link, which goes on failing; with the list full, FS_FLASH is raised and the Steward holds the entry. (What it holds, and
how many errors the wire has shown, are the model's choices: log entries 71, 168.) -/
def RepairEntriesAreAppended : Prop :=
  (∀ (h : Hall) (s : State) (e : LogBytes) (rest : List LogBytes), Canonical s → dieUp s = true →
    (getHall s h).logPending = e :: rest →
      let r := entryRegion (entryBytes e)
      (∀ hl, appendEntry { getHall s h with logPending := rest } r.1 r.2 (entryBytes e) = some hl →
        ∃ t, exec (.repairLogAppend h) s = .next t ∧ getHall t h = hl ∧ t = { s with halls := t.halls }) ∧
      (appendEntry { getHall s h with logPending := rest } r.1 r.2 (entryBytes e) = none →
        exec (.repairLogAppend h) s = .next (appendFailed (modHall s h fun hl => { hl with logPending := rest }) h e))) ∧
  (∀ (h : Hall) (s : State), (getHall s h).logPending = [] → exec (.repairLogAppend h) s = .next s) ∧
  (∀ (h : Hall) (link : Fin 18) (wire : W16) (s : State), dieUp s = true →
    ∃ n, 1000 < n ∧ exec (.seamWireLog h link wire) s = .next (writeEntry (modHall { s with free := s.free + 1 } h fun hl =>
        { hl with seam := tabSet {} link.val { getSeam hl link.val with
          ce := min 0xFFFF ((getSeam hl link.val).ce + n), failing := true } hl.seam }) h
      (BitVec.ofNat 512 (leNat (logEntry (now s h) 6 0 0xFF (leBytes 1 link.val ++ leBytes 2 wire.toNat)))))) ∧
  (∀ (hl : HallState) (base slots : Nat) (e : List Byte),
    (firstErased hl.flash base < slots ↔ (appendEntry hl base slots e).isSome = true) ∧
    ∀ x, appendEntry hl base slots e = some x →
      x = { hl with flash := x.flash } ∧ ∀ i, i < base + 64 * firstErased hl.flash base → flashByte x i = flashByte hl i)

/-- R344, R372, R435, R436, R476: the Steward's slot drops and repair-log entries. -/
def Obligations.StewardWritesItsRecords : Prop :=
  SlotDropsAreMadeOnce ∧ RepairEntriesAreAppended

/-! ## The BARs (20, 21) -/

/-- R499 to R501, R503: a write at the address of a register whose block runs completes as the row that writes the register: doorbells, restarts, SEM_ADD,
SEM_SET, TNK_REQ, STW_XLATE_INV, BEL_STICKY, BEL_FORCE, the ring registers, ENABLE of a queue, STW_OWN, STW_SEMGRP, the Sealer's, ASY_CTL, the flip
masks, the Cooper's, KILLED, the retirements of a lane and a package, STW_START, STW_RELOAD and STW_FLASH_CMD. -/
def Obligations.RegisterAddressesNameTheirRows : Prop :=
  ∀ (h : Hall) (s : State), hostUp s h = true →
    let row (a : Nat) (w : Width) (v : W64) (i : Instr) : Prop := blockLost s h a = false →
      ∃ t, exec (.registerWrite h (BitVec.ofNat 26 a) w v) s = .next t ∧ exec i s = .next t
    (∀ (n : Fin 64) (q : Fin 4) (v : W64),
      let kind : QKind := if q = 0 then .mq else if q = 1 then .wq else if q = 2 then .vq else .tq
      let core : Core := Fin.ofNat 128 (64 * h.val + n.val)
      row (0x20000 + 256 * n.val + 64 * q.val + 0x14) 4 v (.qDoorbell (.core core kind) (v.setWidth 32)) ∧
      row (0x20000 + 256 * n.val + 64 * q.val + 0x24) 4 v (.qRestart (.core core kind) (v.setWidth 32)) ∧
      row (0x20000 + 256 * n.val + 64 * q.val + 0x10) 4 v
        (if v.getLsbD 16 then .qEnable (.core core kind) (v.setWidth 32) else .qDisable (.core core kind) (v.setWidth 32))) ∧
    (∀ (j : Job) (v : W64),
      row (0x24000 + 64 * j.val + 0x14) 4 v (.qDoorbell (.cq h j) (v.setWidth 32)) ∧
      row (0x24000 + 64 * j.val + 0x24) 4 v (.qRestart (.cq h j) (v.setWidth 32)) ∧
      row (0x24000 + 64 * j.val + 0x10) 4 v (if v.getLsbD 16 then .qEnable (.cq h j) (v.setWidth 32) else .qDisable (.cq h j) (v.setWidth 32)) ∧
      row (0x50000 + 64 * j.val) 4 v (.seaJobEnable j (v.setWidth 32)) ∧
      (v.getLsbD 0 = true → row (0x50018 + 64 * j.val) 4 v (.seaJobDiscard j)) ∧
      (v.getLsbD 31 = true → row (0x90100 + 4 * j.val) 4 v (.killedClear j)) ∧
      row (0xA0000 + 128 * j.val) 4 v (.copEnable j (v.setWidth 32)) ∧
      row (0xA003C + 128 * j.val) 4 v (.copIntervalWrite j (v.setWidth 32)) ∧
      (v.getLsbD 31 = true → v.getLsbD 30 = false → row (0xA004C + 128 * j.val) 4 v (.copRestore j)) ∧
      (v.getLsbD 31 = false → v.getLsbD 30 = true → row (0xA004C + 128 * j.val) 4 v (.copFetch j)) ∧
      ∀ i : Fin 255, row (0x40000 + 4096 * j.val + 16 * i.val) 4 v (.seaSlotCfgWrite j i (v.setWidth 32))) ∧
    (∀ (n : Fin 64) (v : W64),
      row (0x10100 + 4 * n.val) 4 v (.stwOwnWrite (Fin.ofNat 128 (64 * h.val + n.val)) (v.setWidth 32)) ∧
      row (0x10200 + 4 * n.val) 4 v (.stwSemgrpWrite h n (v.setWidth 32))) ∧
    (∀ (p : Pos) (v : W64),
      let flips : List (Nat × FlipTarget) := [(0x1108, .drn h p), (0x120C, .wvr h p), (0x130C, .lmp h p), (0x1408, .ful h p), (0x151C, .asy h p),
        (0x1520, .asyCrc h p), (0x1610, .ctr h p), (0x1700, .sto h p)]
      row (0x101500 + 0x10000 * p.val) 4 v (.asyInject h p (v.setWidth 32)) ∧
      ∀ x ∈ flips, row (0x100000 + 0x10000 * p.val + x.1) 4 v (.flipArm x.2 (v.setWidth 32))) ∧
    (∀ (j : Hub) (v : W64), row (0x600028 + 0x10000 * j.val) 4 v (.flipArm (.hub h j) (v.setWidth 32)) ∧
      ∀ i : Fin 8, v.getLsbD 31 = true → row (0x600100 + 0x10000 * j.val + 4 * i.val) 4 v (.hubPkgRetire h j i)) ∧
    (∀ (p : Port) (v : W64),
      row (0x680004 + 0x10000 * p.val) 4 v (.lnkLaneRetireWrite h p (v.setWidth 32)) ∧
      row (0x680200 + 0x10000 * p.val) 4 v (.flipArm (.lnk h p) (v.setWidth 32))) ∧
    (∀ v : W64,
      row 0x51000 4 v (.flipArm (.sea h) (v.setWidth 32)) ∧ row 0x80018 4 v (.flipArm (.mesh h) (v.setWidth 32)) ∧
      row 0x80200 4 v (.flipArm (.seam h) (v.setWidth 32)) ∧ row 0x4 4 v (.hallReload h (v.setWidth 32)) ∧
      (v.getLsbD 31 = true → row 0x0 4 v (.stwStartRetry h) ∧
        (Canonical s → v.toNat % 4 = 0 → row 0x10 4 v (.flashRead h)) ∧ (Canonical s → v.toNat % 4 = 1 → row 0x10 4 v (.flashProgram h)) ∧
        (Canonical s → v.toNat % 4 = 2 → row 0x10 4 v (.flashErase h)) ∧
        (Canonical s → v.toNat % 4 = 3 → row 0x10 4 v (.flashOpReserved h)))) ∧
    (∀ (i : Sem) (v : W64),
      row (0x800000 + 0x800 * i.val + 8) 8 v (.semAdd h i v) ∧ row (0x800000 + 0x800 * i.val + 16) 8 v (.semSet h i v)) ∧
    (∀ v : W64,
      row 0x60008 4 v (.tnkReqWrite h (v.setWidth 32)) ∧ row 0x70100 4 v (.xlateInv (v.setWidth 32)) ∧
      row 0x90000 8 v (.belStickyClear h v) ∧ row 0x90008 8 v (.belForce h v) ∧
      row 0x710008 4 v (.scbRingEnable h (v.setWidth 32)) ∧ row 0x710010 4 v (.scbRingConsWrite h (v.setWidth 32)))

/-- R475, R478, R482, R484, R499, R500, R503: every REGISTER_WRITE completes. One that the hall's host hub does not take, or at a register whose block has lost its
clock or its supply, changes nothing; one outside the byte-wide regions that is not an aligned access of 4 or 8 bytes is discarded and
counted in HST_BAR0_DROP; one within the mailbox buffer stores its bytes. Where a start has stopped, the mailbox takes its bytes, and only the start,
image and mailbox registers take a write. -/
def Obligations.RegisterWritesComplete : Prop :=
  ∀ (h : Hall) (a : BitVec 26) (w : Width) (v : W64) (s : State), Canonical s →
    let aligned := (w = 4 ∨ w = 8) ∧ a.toNat % w = 0
    let toMailbox (t : State) : Prop := 0x100 ≤ a.toNat → 1 ≤ w → w ≤ 8 → a.toNat + w ≤ 0x200 →
      t = { s with halls := t.halls } ∧ (∀ x, x ≠ h.val → getHall t x = getHall s x) ∧
      getHall t h = { getHall s h with mailbox := (getHall t h).mailbox } ∧
      (tabWf 0 (getHall s h).mailbox = true →
        (∀ i, i < w → tabGet 0 (getHall t h).mailbox (a.toNat - 0x100 + i) = BitVec.ofNat 8 (v.toNat / 256 ^ i)) ∧
        ∀ i, i < a.toNat - 0x100 ∨ a.toNat - 0x100 + w ≤ i →
          tabGet 0 (getHall t h).mailbox i = tabGet 0 (getHall s h).mailbox i)
    (bootUp s h = false ∨ blockLost s h a.toNat = true → exec (.registerWrite h a w v) s = .next s) ∧
    (hostUp s h = true → blockLost s h a.toNat = false →
      ∃ t, exec (.registerWrite h a w v) s = .next t ∧ t.pending = s.pending ∧ t.hostMem = s.hostMem ∧
        (byteAddr a.toNat = false → ¬ aligned →
          t = { s with halls := t.halls } ∧ (∀ x, x ≠ h.val → getHall t x = getHall s x) ∧
          getHall t h = { getHall s h with bar0Drop := (getHall s h).bar0Drop + 1 }) ∧
        toMailbox t) ∧
    (bootUp s h = true → hostUp s h = false → blockLost s h a.toNat = false →
      ∃ t, exec (.registerWrite h a w v) s = .next t ∧ t.pending = s.pending ∧ t.hostMem = s.hostMem ∧
        (byteAddr a.toNat = false → ¬ (a.toNat < 0x200 ∧ aligned) → t = s) ∧ toMailbox t)

/-- R332, R483: a BAR2 read within one bolt below the usable capacity delivers the hub's bytes, with the poisoned mark and one count in
HST_POISON_RD where a line is poisoned; at or above the capacity it reads zero. A BAR2 write there is discarded, and below it reaches
the hub. -/
def Bar2ReachesTheHubs : Prop :=
  ∀ (h : Hall) (o : BitVec 36) (s : State), Canonical s → hostUp s h = true →
    let pa := bar2Pa (getHall s h) o
    (∀ n, 0 < n → pa % 2048 + n ≤ 2048 → pa < s.order.usable →
      let rd := hubRead s (hostStop h) pa n .host none
      (rd.bytes.any (·.2) = false →
        exec (.bar2Read h o n) s = .next { rd.st with hostRead := rd.bytes.map (·.1), hostReadPoison := false }) ∧
      (rd.bytes.any (·.2) = true →
        exec (.bar2Read h o n) s = .next { modHall rd.st h (fun hl => { hl with poisonRd := hl.poisonRd + 1 }) with
          hostRead := rd.bytes.map (·.1), hostReadPoison := true })) ∧
    (∀ n, 0 < n → s.order.usable ≤ pa →
      exec (.bar2Read h o n) s = .next { s with hostRead := List.replicate n 0, hostReadPoison := false }) ∧
    (∀ data, s.order.usable ≤ pa → exec (.bar2Write h o data) s = .next s) ∧
    (∀ data, data ≠ [] → pa % 2048 + data.length ≤ 2048 → pa < s.order.usable →
      exec (.bar2Write h o data) s = .next (hubWrite s (hostStop h) .host pa (data.map fun b => (b, false)) none).st)


/-! ## The memory hubs (14) -/

/-- R328, R332, R333: a hub read of any stop and reader within one bolt below the usable capacity delivers what the hub answers, where its
data moves in segments what their check leaves of it (R297), and a write reaches the hub; a request that no translation gives stops.
While the die is down neither has an effect. -/
def HubRequestsReachOneBolt : Prop :=
  ∀ (pa : Nat) (a : Asker) (job : Option Job) (s : State),
    let src := a.stop
    let r := a.reader
    let ok (n : Nat) : Prop := 0 < n ∧ pa + n ≤ s.order.usable ∧ pa / 2048 = (pa + n - 1) / 2048
    let j := job.map fun j => j.val
    (dieUp s = true → ∀ n, ok n → ∃ t, exec (.hubReadRequest pa n a job) s = .next t ∧
      (inSegments r = false → t.delivered = (hubRead s src pa n r j).bytes) ∧
      (inSegments r = true → t.delivered = (checkSegment (hubRead s src pa n r j).st (readerVc r) src
        [{ hub := hubOf pa, al := pa % 64, sent := (hubRead s src pa n r j).sent, got := (hubRead s src pa n r j).bytes }]).bytes) ∧
      t.queues = s.queues ∧ t.sems = s.sems ∧ t.lcores = s.lcores) ∧
    (dieUp s = true → ∀ data, ok data.length → ∃ t, exec (.hubWriteRequest pa data a job) s = .next t ∧
      t = (hubWrite s src r pa data j).st ∧ t.queues = s.queues ∧ t.sems = s.sems ∧
      t.lcores = s.lcores ∧ t.delivered = s.delivered) ∧
    (dieUp s = true → ∀ n, ¬ ok n → exec (.hubReadRequest pa n a job) s = .fault (.noSuchAddress pa)) ∧
    (dieUp s = true → ∀ data, ¬ ok data.length → exec (.hubWriteRequest pa data a job) s = .fault (.noSuchAddress pa)) ∧
    (dieUp s = false → ∀ n data, exec (.hubReadRequest pa n a job) s = .next s ∧ exec (.hubWriteRequest pa data a job) s = .next s)

/-- R328, R332, R333, R483: the accesses of the memory hubs. -/
def Obligations.HubAccessesReachOneBolt : Prop :=
  Bar2ReachesTheHubs ∧ HubRequestsReachOneBolt

/-- R333, R334: a whole pair of 128 bytes written to a package that is not retired, with no flip armed on the way, no wire failing and no transaction unanswered,
is what device memory then holds, without error; no other byte of device memory changes. Beside it only the counts of the mesh move. -/
def Obligations.WholePairWritesAreStored : Prop :=
  ∀ (a : Asker) (pair : Nat) (data : List Byte) (poison : Bool) (job : Option Job) (s : State),
    Canonical s → dieUp s = true → data.length = 128 → 128 * pair + 128 ≤ s.order.usable → retiredAt s (128 * pair) = false →
    QuietMesh s → (getHub s (hubOf (128 * pair))).flip.arm = false →
      ∃ t, exec (.hubWriteRequest (128 * pair) (data.map fun b => (b, poison)) a job) s = .next t ∧
        readBytes t.mem (128 * pair) 128 = data ∧
        (∀ x, x < 128 * pair ∨ 128 * pair + 128 ≤ x → tabGet 0 t.mem x = tabGet 0 s.mem x) ∧
        (tabGet {} t.memErr pair).syms = [] ∧ (tabGet {} t.memErr pair).chk = poisonPattern poison poison ∧
        (∀ h, { getHall t h with meshDetour := 0 } = { getHall s h with meshDetour := 0 }) ∧
        (∀ k, k ≠ seriesKey a.stop (hubStop (hubOf (128 * pair))) 0 (readerVc a.reader) → getSeries t k = getSeries s k) ∧
        t = { s with mem := t.mem, memErr := t.memErr, hubs := t.hubs, series := t.series, outputs := t.outputs,
                     promotes := t.promotes, halls := t.halls }

/-- R330, R343, R347, R348, R350, R529: the upkeep of a channel or package that is not retired: a refresh counts, an oscillator reading is kept, a
temperature is stored, and raises FS_THERM_WARN where it passes 95 °C; where the package is retired nothing is done. -/
def UpkeepTouchesItsChannelAlone : Prop :=
  ∀ (h : Hall) (j : Hub) (s : State), Canonical s → dieUp s = true →
    let hk := 8 * h.val + j.val
    let hb := getHub s hk
    let only (i : Instr) (x : HubState) : Prop := ∃ t, exec i s = .next t ∧ t = { s with hubs := t.hubs } ∧ getHub t hk = x ∧
      ∀ y, y ≠ hk → getHub t y = getHub s y
    (∀ ch : Fin 32, chRetired hb ch = false →
      only (.refresh h j ch) (setChannel hb ch { getChannel hb ch with refreshes := (getChannel hb ch).refreshes + 1 })) ∧
    (∀ (ch : Fin 32) (r : W16), chRetired hb ch = false →
      only (.wck2dqTrack h j ch r) (setChannel hb ch { getChannel hb ch with osc := r })) ∧
    (∀ (i : Fin 8) (temp : Byte), (getPkg hb i).retired = false →
      (temp.toNat ≤ 95 ∨ 95 < (getPkg hb i).temp.toNat → only (.mr4Read h j i temp) (setPkg hb i { getPkg hb i with temp := temp })) ∧
      ((getPkg hb i).temp.toNat ≤ 95 → 95 < temp.toNat → ∃ t, exec (.mr4Read h j i temp) s = .next t ∧
        getHub t hk = setPkg hb i { getPkg hb i with temp := temp } ∧ t.miller = { s.miller with derate := true } ∧ t.power.warm = true ∧
        ∀ x, x < 2 → (getHall t x).sticky.getLsbD 34 = true)) ∧
    (∀ (ch : Fin 32) (r : W16), chRetired hb ch = true → exec (.refresh h j ch) s = .next s ∧ exec (.wck2dqTrack h j ch r) s = .next s ∧
      exec (.patrolScrub h j ch) s = .next s) ∧
    (∀ (i : Fin 8) (temp : Byte), (getPkg hb i).retired = true → exec (.mr4Read h j i temp) s = .next s)

/-- R335, R353, R354: the flush that a fence in flight asks of a hub travels on VC1, is counted there and told to the fence; in a quiet mesh none is
lost, and a lost one leaves the fence as it was (the model's choice, log entry 183). With no fence asking, nothing happens. -/
def FenceFlushIsServedOnce : Prop :=
  ∀ (h : Hall) (j : Hub) (job : Job) (s : State), Canonical s → dieUp s = true →
    let hk := 8 * h.val + j.val
    (flushQueue s hk job = none → exec (.hubFenceFlush h j job) s = .next s) ∧
    (∀ k, flushQueue s hk job = some k →
      let a := askFlush s k hk
      (QuietMesh s → a.1 = .answered) ∧
      (a.1 = .lost → exec (.hubFenceFlush h j job) s = .next a.2 ∧ a.2.queues = s.queues ∧ a.2.mem = s.mem) ∧
      (a.1 ≠ .lost → ∃ t, exec (.hubFenceFlush h j job) s = .next t ∧
        (getHub t hk).flush = (getHub (flushJob a.2 hk job) hk).flush + 1 ∧
        (getQueue t k).inflight = (getQueue s k).inflight.map (fun c =>
          if asksFlush s k hk c then { c with flushed := hk :: c.flushed } else c) ∧
        (∀ k', k' ≠ k → getQueue t k' = getQueue s k') ∧ t.sems = s.sems ∧ t.signals = s.signals ∧ t.lcores = s.lcores))

/-- R343, R350: a patrol scrub of a channel that has rows left of its pass advances by one row; a channel at the end of its pass waits (the order of the
rows and the wait are the model's choices, log entry 59). -/
def PatrolScrubAdvancesOneRow : Prop :=
  ∀ (h : Hall) (j : Hub) (ch : Fin 32) (s : State), dieUp s = true → chRetired (getHub s (8 * h.val + j.val)) ch = false →
    let hk := 8 * h.val + j.val
    let pos := (getChannel (getHub s hk) ch).scrubPos
    (pos < scrubRows s.order → exec (.patrolScrub h j ch) s = .next (modHub
      (modHub (scrubRow s (32 * hk + ch.val) pos) hk fun hb => setChannel hb ch { getChannel hb ch with scrubPos := pos + 1 })
      hk (endPass s.order))) ∧
    (scrubRows s.order ≤ pos → exec (.patrolScrub h j ch) s = .next (modHub s hk (endPass s.order)))

/-- R330, R335, R343, R347, R348, R350: refresh, oscillators, flush and scrub. -/
def Obligations.HubUpkeepIsServed : Prop :=
  UpkeepTouchesItsChannelAlone ∧ FenceFlushIsServedOnce ∧ PatrolScrubAdvancesOneRow

/-- R348: a retraining window whose result lies within the margins moves the round on; a first failure is remembered, and a second in a row
counts in HUB_PKG.RETRAIN_FAIL and retires the package with cause 1. A window stands open for the 4 µs that R348 allows (the model's choice,
log entry 141); while one of the hub stands open no other opens. -/
def RetrainingFailsTwiceBeforeRetiring : Prop :=
  ∀ (h : Hall) (j : Hub) (ch : Fin 32) (s : State), Canonical s → dieUp s = true →
    let hk := 8 * h.val + j.val
    let hb := getHub s hk
    let c := getChannel hb ch
    let opened (x : HubState) : HubState := { x with window := ch.val, windowEnd := now s h + 4000 }
    (windowOpen s hk = true → ∀ ok, exec (.retrainWindow h j ch ok) s = .next s) ∧
    (chRetired hb ch = false → windowOpen s hk = false →
      (∃ t, exec (.retrainWindow h j ch true) s = .next t ∧ t = { s with hubs := t.hubs } ∧
        getHub t hk = setChannel (opened hb) ch { c with failed := false, windows := (c.windows + 1) % 5 }) ∧
      (c.failed = false → ∃ t, exec (.retrainWindow h j ch false) s = .next t ∧ t = { s with hubs := t.hubs } ∧
        getHub t hk = setChannel (opened hb) ch { c with failed := true }) ∧
      (c.failed = true → tabWf {} hb.pkgs = true → ∃ t, exec (.retrainWindow h j ch false) s = .next t ∧
        (getPkg (getHub t hk) (ch.val / 4)).retired = true ∧ (getPkg (getHub t hk) (ch.val / 4)).cause = 1 ∧
        (getPkg (getHub t hk) (ch.val / 4)).retrainFail = min 15 ((getPkg hb (ch.val / 4)).retrainFail + 1) ∧
        (getHall t h).sticky.getLsbD 16 = true ∧ (getHall t h).sticky.getLsbD 17 = true ∧
        t = { s with hubs := t.hubs, halls := t.halls }))

/-- R346: HUB_PKG.RETIRE retires a package with cause 3, raises FS_PKG_RETIRE and logs it; one that is retired stays as it is. -/
def HostRetiresAPackage : Prop :=
  ∀ (h : Hall) (j : Hub) (i : Fin 8) (s : State), Canonical s → hostUp s h = true →
    let hk := 8 * h.val + j.val
    let hb := getHub s hk
    ((getPkg hb i).retired = true → exec (.hubPkgRetire h j i) s = .next s) ∧
    ((getPkg hb i).retired = false → tabWf {} hb.pkgs = true → ∃ t, exec (.hubPkgRetire h j i) s = .next t ∧
      getPkg (getHub t hk) i = { getPkg hb i with retired := true, cause := 3 } ∧
      (∀ x, x ≠ i.val → getPkg (getHub t hk) x = getPkg hb x) ∧ (∀ y, y ≠ hk → getHub t y = getHub s y) ∧
      (getHall t h).sticky.getLsbD 17 = true ∧ (getHall t h).logPending.length = (getHall s h).logPending.length + 1 ∧
      t = { s with hubs := t.hubs, halls := t.halls })

/-- R346, R348: how a package is retired by failed retraining and by the host. -/
def Obligations.PackagesRetire : Prop :=
  RetrainingFailsTwiceBeforeRetiring ∧ HostRetiresAPackage

/-- R349: a byte of the store reads as it was written, clean or poisoned; a single error among its 12 bits is corrected; a poisoned byte with a
further error in c0 or c1 is a fresh uncorrectable error, and with one in another bit is delivered unpoisoned with other data. A read
counts a correction and leaves the byte, and rewrites an uncorrectable one with the poison syndrome; no other byte changes. The rewrite is a write, and
takes the masks of an armed STW_STO_FLIP (R351, R511). -/
def Obligations.StoreBytesKeepTheirCode : Prop :=
  (∀ d : Byte, decodeByte (storeCode d false) = .clean d ∧ decodeByte (storeCode d true) = .poisoned d ∧
    (∀ i, i < 8 → decodeByte { d := d ^^^ BitVec.ofNat 8 (2 ^ i), c := storeCheck d } = .corrected d) ∧
    (∀ i, i < 4 → decodeByte { d := d, c := storeCheck d ^^^ BitVec.ofNat 4 (2 ^ i) } = .corrected d) ∧
    (∀ i, i < 2 → decodeByte { d := d, c := (storeCode d true).c ^^^ BitVec.ofNat 4 (2 ^ i) } = .uncorrectable d) ∧
    (∀ i, 2 ≤ i → i < 4 → ∃ x, x ≠ d ∧ decodeByte { d := d, c := (storeCode d true).c ^^^ BitVec.ofNat 4 (2 ^ i) } = .corrected x) ∧
    (∀ i, i < 8 → ∃ x, x ≠ d ∧ decodeByte { d := d ^^^ BitVec.ofNat 8 (2 ^ i), c := (storeCode d true).c } = .corrected x)) ∧
  ∀ (s : State) (p off : Nat), Canonical s →
    let x := decodeByte (readSByte (getPos s p) off)
    let t := (storeByte s p off).st
    (∀ d, x = .clean d → storeByte s p off = { st := s, bytes := [(d, false)], fresh := none }) ∧
    (∀ d, x = .poisoned d → storeByte s p off = { st := s, bytes := [(d, true)], fresh := none }) ∧
    (∀ d, x = .corrected d → (storeByte s p off).bytes = [(d, false)] ∧
      (getPos t p).stoEcc.ce = min 0xFFFF ((getPos s p).stoEcc.ce + 1) ∧ (getPos t p).store = (getPos s p).store) ∧
    (∀ d, x = .uncorrectable d → (storeByte s p off).bytes = [(d, true)] ∧
      (getPos t p).stoEcc.ue = min 0xFFFF ((getPos s p).stoEcc.ue + 1) ∧ (getPos t p).stoFlip.arm = false ∧
      ((getPos s p).stoFlip.arm = false → readSByte (getPos t p) off = storeCode d true) ∧
      ((getPos s p).stoFlip.arm = true → readSByte (getPos t p) off = flipByte (getPos s p).stoFlip (storeCode d true)) ∧
      (getHall t (p / 72)).sticky.getLsbD 19 = true ∧
      ∀ o, o ≠ off → readSByte (getPos t p) o = readSByte (getPos s p) o) ∧
    ∀ y, y ≠ p → getPos t y = getPos s y

/-! ## The mesh (15) -/

/-- R364 to R366, R368, R369, R423: an access sent once more counts where it is sent again, with the later ones of its series; a signal sent once more
counts with the later ones of its series at once; a lost transaction is counted and raises FS_MESH_LOST: for an access, in the hall of its source, which
the next accesses of that hall meet; for a signal, in its source's hall, and a lost one is on its way no more. A failed router that is a hole already
changes nothing, one at a stop that is no core's, or beyond the two holes a hall accepts, is a class H fault, and any other becomes a hole: the Joiner
links of its row, where it lies at the seam, are down, and its core, in service, is fenced. (Which access a row names, what becomes of a lost signal,
and how a series is numbered are the model's choices: log entries 43, 142, 170.) -/
def Obligations.MeshFaultsAreCountedAndRaised : Prop :=
  (∀ (h : Hall) (skip later : Nat) (s : State), dieUp s = true →
    exec (.meshResend h (.access skip later)) s =
      .next { s with meshFault := some { hall := h, skip := skip, lost := false, later := later } }) ∧
  (∀ (s : State) (v : Vc) (src dst al : Nat) (bs : List (Byte × Bool)), Canonical s →
    let u := sendNumbered s v src dst al bs
    let counts (n : Nat) : Prop := ∀ x, (getHall u.2 x).meshResend =
      (getHall s x).meshResend + BitVec.ofNat 32 (if x = stopHall src then n else 0)
    (s.meshFault = none → s.resent = none → u.1 = .answered ∧ counts 0) ∧
    (∀ later, s.meshFault = some { hall := stopHall src, skip := 0, lost := false, later := later } → u.1 = .again ∧ counts 1 ∧
      u.2.meshFault = none ∧ u.2.resent = if later = 0 then none else some (seriesKey src dst 0 v, later)) ∧
    (∀ n, s.meshFault = none → s.resent = some (seriesKey src dst 0 v, n) → u.1 = .again ∧ counts 1 ∧
      u.2.resent = if n ≤ 1 then none else some (seriesKey src dst 0 v, n - 1)) ∧
    (s.meshFault = some { hall := stopHall src, skip := 0, lost := true } → u.1 = .lost ∧ u.2.meshFault = none)) ∧
  (∀ (h : Hall) (i : Nat) (s : State), Canonical s → dieUp s = true →
    ((∀ g, s.signals[i]? = some g → stopHall g.stop ≠ h.val) →
      exec (.meshResend h (.signal i)) s = .next s ∧ exec (.meshLost h (.signal i)) s = .next s) ∧
    (∀ g, s.signals[i]? = some g → stopHall g.stop = h.val →
      (∃ t, exec (.meshResend h (.signal i)) s = .next t ∧ t = { s with halls := t.halls } ∧
        getHall t h = { getHall s h with meshResend := (getHall s h).meshResend + BitVec.ofNat 32 (1 + laterSignals s i g) } ∧
        ∀ x, x ≠ h.val → getHall t x = getHall s x) ∧
      (∃ t, exec (.meshLost h (.signal i)) s = .next t ∧
        (getHall t h).meshLost = (getHall s h).meshLost + 1 ∧ (getHall t h).sticky.getLsbD 10 = true ∧
        (receiptOf (getSeries s (signalSeries g)) g.num ≠ .apply ∨ (getSem s g.sem).value.toNat + g.add.toNat < 2 ^ 64 →
          t.signals.length + 1 = s.signals.length ∧ t.queues = s.queues ∧
            (t.sems = s.sems ∨ receiptOf (getSeries s (signalSeries g)) g.num = .apply ∧
              t.sems = (setSem s g.sem (addSem (getSem s g.sem) g.add)).sems))))) ∧
  (∀ (h : Hall) (skip : Nat) (s : State), Canonical s → dieUp s = true →
    ∃ t, exec (.meshLost h (.access skip)) s = .next t ∧
      t = { s with halls := t.halls, meshFault := some { hall := h, skip := skip, lost := true } } ∧
      (getHall t h).meshLost = (getHall s h).meshLost + 1 ∧ (getHall t h).sticky.getLsbD 10 = true ∧
      ∀ x, x ≠ h.val → getHall t x = getHall s x) ∧
  (∀ (h : Hall) (stop : Fin 90) (s : State), Canonical s → dieUp s = true →
    let down := applyClass (raise s h 8 5 { code := 0x0406 }) h 8 5 (originNext s h 8 5)
    (stopPos stop = none → exec (.routerFailed h stop) s = .next down) ∧
    (∀ i, stopPos stop = some i → (getHall s h).holes.contains i = true → exec (.routerFailed h stop) s = .next s) ∧
    (∀ i, stopPos stop = some i → (getHall s h).holes.contains i = false → holeOk (getHall s h) i = false →
      exec (.routerFailed h stop) s = .next down) ∧
    (∀ i, stopPos stop = some i → (getHall s h).holes.contains i = false → holeOk (getHall s h) i = true → (getHall s h).tnkActive = false →
      ∃ t, (getHall t h).holes = (getHall s h).holes ++ [i] ∧
        (getHall t h).tableGen = (getHall s h).tableGen + 1 ∧ (getPos t (posKey h i)).status = .hole ∧
        (getHall t h).sticky.getLsbD 8 = true ∧ t = { s with halls := t.halls, positions := t.positions } ∧
        (atSeam h i = false → seamHole t h i = t) ∧
        (atSeam h i = true → ∀ g, g < 2 → (getHall (seamHole t h i) g).sticky.getLsbD 11 = true ∧
          ∀ net, net < 2 → (getSeam (getHall (seamHole t h i) g) (linkOf net (stopXY i).2)).up = false) ∧
        ((getPos s (posKey h i)).status ≠ .inService ∨ posCore s (posKey h i) = none → exec (.routerFailed h stop) s = .next (seamHole t h i)) ∧
        (∀ n, (getPos s (posKey h i)).status = .inService → posCore s (posKey h i) = some n →
          exec (.routerFailed h stop) s = .next (fenceAtHole (seamHole t h i) n (originNext s h 8 4)))))


/-! ## Zodun links (16) -/

/-- The state after the codewords that carried a frame have been noted at port `k` (R380, R401). -/
def afterWords (s : State) (k : Nat) (words : List LaneWord) : State := words.foldl (fun s w => noteWord s k w) s

/-- R380, R386, R401: the codewords of a frame count in LNK_FEC_CORR and LNK_FEC_UNC, and an uncorrectable one raises FS_FEC. -/
def FrameCodewordsAreCounted : Prop :=
  ∀ (h : Hall) (p : Port) (words : List LaneWord) (s : State), Canonical s →
    let k := 6 * h.val + p.val
    let ps := getPort s k
    let t := afterWords s k words
    t = { s with ports := t.ports, halls := t.halls } ∧ (∀ y, y ≠ k → getPort t y = getPort s y) ∧
      getPort t k = { ps with
        lanes := (getPort t k).lanes, second := (getPort t k).second,
        fecCorr := ps.fecCorr + BitVec.ofNat 32 (words.filter fun w => corrected w.errors).length,
        fecUnc := ps.fecUnc + BitVec.ofNat 32 (words.filter fun w => !decodes w.errors).length } ∧
      ((∃ w ∈ words, decodes w.errors = false) → (getHall t h).sticky.getLsbD 24 = true) ∧
      ((∀ w ∈ words, decodes w.errors = true) → t.halls = s.halls)

/-- R386 to R388: what a port does with a frame that does not enter its buffers: one with an uncorrectable codeword or a bad header check is
lost and a replay asked for; one already received is dropped; a later one asks for a replay, as does one for which no buffer is free (the
model's choice, log entry 160); one for another module is dropped and its credit owed; a bad payload check asks for a replay up to four
times; a port that is down takes none. -/
def BadFramesAreNotAccepted : Prop :=
  FrameCodewordsAreCounted ∧
  ∀ (h : Hall) (p : Port) (header payload : List Byte) (headWords dataWords : List LaneWord) (s : State), Canonical s →
    let k := 6 * h.val + p.val
    let bytes := header ++ payload
    let words := headWords ++ dataWords
    let u := afterWords s k words
    let ps := getPort u k
    let f := frameOf bytes
    let run := exec (.frameReceive h p header payload headWords dataWords) s
    let only (x : PortState) : Prop := ∃ t, run = .next t ∧ t = { u with ports := t.ports } ∧ getPort t k = x ∧
      ∀ y, y ≠ k → getPort t y = getPort u y
    ((getPort s k).up = false → run = .next s) ∧
    (dieUp s = true → (getPort s k).up = true →
      ((∃ w ∈ words, decodes w.errors = false) → only { ps with askReplay := true }) ∧
      ((∀ w ∈ words, decodes w.errors = true) →
        (f.hcrc ≠ crc32c (bytes.take 60) → only { ps with askReplay := true }) ∧
        (f.hcrc = crc32c (bytes.take 60) →
          (f.seq ≠ ps.rxSeq → seqLe f.seq ps.rxSeq = true → run = .next u) ∧
          (f.seq ≠ ps.rxSeq → seqLe f.seq ps.rxSeq = false → only { ps with askReplay := true }) ∧
          (f.seq = ps.rxSeq → rxBuffers.getD f.vl 0 ≤ rxHeld ps f.vl → only { ps with askReplay := true }) ∧
          (f.seq = ps.rxSeq → rxHeld ps f.vl < rxBuffers.getD f.vl 0 →
            (frameForUs u k f = false → only { ps with
              rxSeq := ps.rxSeq + 1, askReplay := false, crcTries := 0, drops := ps.drops + 1,
              owed := ps.owed.set f.vl (ps.owed.getD f.vl 0 + 1) }) ∧
            (frameForUs u k f = true → f.pcrc ≠ crc32c f.payload → ps.crcTries < 4 →
              only { ps with crcTries := ps.crcTries + 1, askReplay := true })))))

/-- R385, R386, R388: a frame that passes every check, of a kind that waits for the Drover, takes its place in the sequence and waits in the
port's receive buffer. -/
def GoodFramesWaitInTheirBuffer : Prop :=
  ∀ (h : Hall) (p : Port) (header payload : List Byte) (headWords dataWords : List LaneWord) (s : State), Canonical s → dieUp s = true →
    let k := 6 * h.val + p.val
    let bytes := header ++ payload
    let words := headWords ++ dataWords
    let u := afterWords s k words
    let ps := getPort u k
    let f := frameOf bytes
    (getPort s k).up = true → (∀ w ∈ words, decodes w.errors = true) → f.hcrc = crc32c (bytes.take 60) → f.seq = ps.rxSeq →
    rxHeld ps f.vl < rxBuffers.getD f.vl 0 → frameForUs u k f = true → f.pcrc = crc32c f.payload →
    f.kind ≠ 2 → ¬ (f.kind = 3 ∧ f.vl = 3) →
      ∃ t, exec (.frameReceive h p header payload headWords dataWords) s = .next t ∧ t = { u with ports := t.ports } ∧
        (∀ y, y ≠ k → getPort t y = getPort u y) ∧
        getPort t k = { ps with
          rxSeq := ps.rxSeq + 1, askReplay := false, crcTries := 0, rx := ps.rx ++ [{ frame := f, bad := none, flip := bufFlip ps 1 }],
          crcRetry := if 0 < ps.crcTries then ps.crcRetry + 1 else ps.crcRetry, flip := disarmBuf ps 1 }

/-- R381, R383, R386 to R388, R400: an uncorrectable control codeword is ignored, counts in LNK_FEC_UNC and raises FS_FEC; a readable one of a
module that is its own time master returns credits up to the receive buffers' size, acknowledges frames up to its sequence number, and
hands a slot over where it marks one. -/
def ControlCodewordsReturnCredits : Prop :=
  ∀ (h : Hall) (p : Port) (c : ControlCodeword) (s : State), Canonical s → dieUp s = true →
    let k := 6 * h.val + p.val
    let ps := getPort s k
    let u := noteWord s k c.word
    (ps.up = false → exec (.controlCodeword h p c) s = .next s) ∧
    (ps.up = true → decodes c.word.errors = false → exec (.controlCodeword h p c) s = .next u ∧
      (getPort u k).fecUnc = ps.fecUnc + 1 ∧ (getPort u k).credits = ps.credits ∧ (getPort u k).retry = ps.retry ∧
      (getHall u h).sticky.getLsbD 24 = true ∧ u = { s with ports := u.ports, halls := u.halls }) ∧
    (ps.up = true → decodes c.word.errors = true → c.replay = none → s.timeCfg.master = true →
      ∃ t, exec (.controlCodeword h p c) s = .next t ∧ (∀ y, y ≠ k → getPort t y = getPort s y) ∧
        (∀ i, i < 4 → (getPort t k).credits.getD i 0 = min ([8, 48, 64, 8].getD i 0) (ps.credits.getD i 0 + c.credits.getD i 0)) ∧
        (∀ r, r ∈ (getPort t k).retry ↔ r ∈ ps.retry ∧ ∀ n, c.ack = some n → seqLe r.frame.seq n = false) ∧
        (∀ slot, c.handover = some slot → (getPort t k).rxSlots = (switchRx ps slot).rxSlots ∧
          (getPort t k).rxSpare = (switchRx ps slot).rxSpare) ∧
        (c.handover = none → (getPort t k).rxSlots = ps.rxSlots ∧ (getPort t k).rxSpare = ps.rxSpare) ∧
        (getPort t k).peer = c.lfa ∧ (getPort t k).hops = min 255 c.hops ∧ (getPort t k).master = c.master ∧
        t = { s with ports := t.ports, timeCfg := t.timeCfg })

/-- R380, R381, R383, R385 to R388, R400, R401: what a port does with a frame, and with a control codeword. -/
def Obligations.FramesAndCodewordsAreTakenInOrder : Prop :=
  BadFramesAreNotAccepted ∧ GoodFramesWaitInTheirBuffer ∧ ControlCodewordsReturnCredits

/-- R382, R489: a port that is down comes up with at least three lanes trained and deskewed, a peer and an address of its own, and takes four
lanes as active and the fifth as spare, in both directions; without one of these it stays down. -/
def PortsTrainOnThreeLanes : Prop :=
  ∀ (h : Hall) (p : Port) (tr : Training) (peer : Option (BitVec 12)) (s : State), Canonical s →
    let k := 6 * h.val + p.val
    let ok := (lanesLeft (getPort s k)).filter fun n => (tr.lanes.map (·.val)).contains n
    let may := dieUp s = true ∧ (getPort s k).up = false ∧ s.moduleDown = false ∧ s.jtag.driving = false ∧ s.chain.lfa.isSome = true ∧
      tr.deskewed = true ∧ 3 ≤ ok.length
    (∀ a, peer = some a → may → ∃ t, exec (.portTrain h p tr peer) s = .next t ∧ t = { s with ports := t.ports } ∧
      (getPort t k).up = true ∧ (getPort t k).peer = a ∧ (getPort t k).active = min 4 ok.length ∧
      ((getPort t k).spare.isSome = true ↔ ok.length = 5) ∧ (getPort t k).rxSlots.map (·.val) = ok.take 4 ∧
      ((getPort t k).rxSpare.isSome = true ↔ ok.length = 5) ∧ (getPort t k).rxSeq = (getPort s k).rxSeq ∧
      ∀ y, y ≠ k → getPort t y = getPort s y) ∧
    (peer = none ∨ ¬ may → exec (.portTrain h p tr peer) s = .next s)

/-- R383: a rotation gives the calibrated spare the next active slot, makes the old lane the spare and counts; the next control codeword marks
the handover, and both lanes carry the slot for 64 codewords; a port that is down or has no
spare does not rotate. -/
def RotationSwapsTheSpare : Prop :=
  ∀ (h : Hall) (p : Port) (s : State), Canonical s → dieUp s = true →
    let k := 6 * h.val + p.val
    let ps := getPort s k
    (ps.up = false ∨ ps.spare = none → exec (.laneRotate h p) s = .next s) ∧
    (∀ (sp old : Fin 5), ps.up = true → ps.spare = some sp → laneOfRole ps ps.rotSlot = some old.val → sp ≠ old →
      tabWf {} ps.lanes = true →
        ∃ t, exec (.laneRotate h p) s = .next t ∧ t = { s with ports := t.ports } ∧ (getPort t k).spare = some old ∧
          getLane (getPort t k) sp = { getLane ps sp with role := ps.rotSlot, cal := (getLane ps sp).cal + 1 } ∧
          getLane (getPort t k) old = { getLane ps old with role := 4 } ∧
          (∀ n, n ≠ sp.val → n ≠ old.val → getLane (getPort t k) n = getLane ps n) ∧
          (getPort t k).handover = some (Fin.ofNat 4 ps.rotSlot) ∧ (getPort t k).both = some (old, Fin.ofNat 4 ps.rotSlot, 64) ∧
          (getPort t k).rotSlot = (ps.rotSlot + 1) % 4 ∧ (getPort t k).rotates = ps.rotates + 1)

/-- R384, R401: a retired lane stays retired: retiring it again does nothing. Retiring a lane logs it and raises FS_LANE. The spare of a port leaves its
active lanes; an active lane is replaced by the spare; without one, four lanes become three and the port is degraded, and three take the port down with
FS_PORT_DOWN. LNK_CTL written sets ROT_S, which a value of 0 leaves, and its RETIRE bit retires the lane. (How the roles move up is the model's choice,
log entry 118.) -/
def LanesRetireForLife : Prop :=
  (∀ (h : Hall) (p : Port) (n : Fin 5) (s : State), Canonical s → dieUp s = true →
    let k := 6 * h.val + p.val
    let ps := getPort s k
    let retires (f : State → Prop) : Prop := ∃ t, exec (.laneRetire h p n) s = .next t ∧ (getLane (getPort t k) n).retired = true ∧
      (getHall t h).sticky.getLsbD 25 = true ∧ (getHall t h).logPending.length = (getHall s h).logPending.length + 1 ∧ f t
    let only (t : State) : Prop := t = { s with ports := t.ports, halls := t.halls } ∧ ∀ y, y ≠ k → getPort t y = getPort s y
    ((getLane ps n).retired = true → exec (.laneRetire h p n) s = .next s) ∧
    ((getLane ps n).retired = false → tabWf {} ps.lanes = true → ps.up = true →
      ((getLane ps n).role = 4 → ps.active = 4 → (lanesLeft ps).length = 5 → retires fun t => only t ∧
        (getPort t k).spare = none ∧ (getPort t k).up = true ∧ (getPort t k).active = 4 ∧
        ∀ x, x ≠ n.val → getLane (getPort t k) x = getLane ps x) ∧
      (∀ sp : Fin 5, (getLane ps n).role < 4 → ps.spare = some sp → sp ≠ n → ps.active = 4 → (lanesLeft ps).length = 5 → retires fun t => only t ∧
        (getPort t k).spare = none ∧ (getPort t k).up = true ∧ (getPort t k).active = 4 ∧
        getLane (getPort t k) sp = { getLane ps sp with role := (getLane ps n).role } ∧
        ∀ x, x ≠ n.val → x ≠ sp.val → getLane (getPort t k) x = getLane ps x) ∧
      ((getLane ps n).role < 4 → ps.spare = none → ps.active = 4 → (lanesLeft ps).length = 4 → retires fun t => only t ∧
        (getPort t k).up = true ∧ (getPort t k).active = 3 ∧
        ∀ x, x < 5 → x ≠ n.val → (getLane (getPort t k) x).role = (getLane ps x).role -
          (if (getLane ps n).role < (getLane ps x).role ∧ (getLane ps x).role < 4 then 1 else 0)) ∧
      ((lanesLeft ps).length ≤ 3 → retires fun t => (getPort t k).up = false ∧ (getHall t h).sticky.getLsbD 26 = true ∧
        ∀ x, (getLane ps x).retired = true → (getLane (getPort t k) x).retired = true))) ∧
  (∀ (h : Hall) (p : Port) (v : W32) (s : State), Canonical s → hostUp s h = true →
    let k := 6 * h.val + p.val
    let rot : PortState := { getPort s k with
      rotS := if bitsOf v.toNat 8 8 = 0 then (getPort s k).rotS else BitVec.ofNat 8 (bitsOf v.toNat 8 8) }
    ((∀ n, n < 5 → v.getLsbD n = false) → exec (.lnkLaneRetireWrite h p v) s = .next (setPort s k rot)) ∧
    ∀ n : Fin 5, (∀ m, m < 5 → v.getLsbD m = decide (m = n.val)) →
      exec (.lnkLaneRetireWrite h p v) s = exec (.laneRetire h p n) (setPort s k rot))

/-- R382 to R384, R489: the lanes of a port. -/
def Obligations.PortsTrainAndRotate : Prop :=
  PortsTrainOnThreeLanes ∧ RotationSwapsTheSpare ∧ LanesRetireForLife

/-- R377, R382, R384: a port whose clock is lost goes down: its buffers are empty and its sequence starts again (the model's choice, log entry 20),
FS_PORT_DOWN is raised, and its retired lanes stay retired; here with no Drover command, copy or time source on it. A port that is down stays as it
is. -/
def LostClocksTakeThePortDown : Prop :=
  ∀ (h : Hall) (p : Port) (s : State), Canonical s → dieUp s = true →
    let k := 6 * h.val + p.val
    ((getPort s k).up = false → exec (.linkClockLost h p) s = .next s) ∧
    ((getPort s k).up = true → (∀ j, j < 16 → runningDrv s h j = none) → (∀ j, (getJob s j).opening = none ∧ (getJob s j).fetching = false) →
      s.timeCfg.master = true →
        ∃ t, exec (.linkClockLost h p) s = .next t ∧ getPort t k = downPort (getPort s k) ∧ (∀ y, y ≠ k → getPort t y = getPort s y) ∧
          (getHall t h).sticky.getLsbD 26 = true ∧ t.queues = s.queues ∧ t.sems = s.sems)

/-- R387: a replay timeout of a port with unacknowledged frames resends them all, in their order, and counts them; without such a frame nothing
happens. -/
def TimeoutsReplayEveryFrame : Prop :=
  ∀ (h : Hall) (p : Port) (s : State), Canonical s → dieUp s = true →
    let k := 6 * h.val + p.val
    let ps := getPort s k
    (ps.up = false ∨ ps.retry = [] → exec (.frameReplayTimeout h p) s = .next s) ∧
    (ps.up = true → ps.retry ≠ [] → (∀ u ∈ ps.retry, u.replays + 1 < 16) → (∀ j, j < 16 → runningDrv s h j = none) →
      ∃ t, exec (.frameReplayTimeout h p) s = .next t ∧ t = { s with ports := t.ports, free := t.free } ∧
        getPort t k = { ps with
          line := ps.line ++
            (ps.retry.mapIdx fun i u => nibbles (readLine (lineBytes u.frame) u.flip (Config.freeNat (s.free + i)))).flatten,
          retry := ps.retry.map fun u => { u with replays := u.replays + 1 },
          replayed := ps.replayed + BitVec.ofNat 32 ps.retry.length } ∧
        ∀ y, y ≠ k → getPort t y = getPort s y)

/-- R377, R382, R384, R387: a port that goes down, and the replay of its frames. -/
def Obligations.PortsFallAndReplay : Prop :=
  LostClocksTakeThePortDown ∧ TimeoutsReplayEveryFrame


/-! ## The bench (12) -/

/-- R298 to R300, R467: at a period's start a run that has 16 rounds ends as passed and a shorter one as inconclusive, and with TNK disabled no
other begins, and the rotation of the oldest position is asked for where none is; a matched round counts up to 65,535, and a round uses up the
flips armed at its position and holds an injected mismatch at row 0 and column 0 (what it adds to the position's counters is free, log entry 140);
a round that does not match ends the run at once (the model's reading, log entry 25); the bench pauses when a request has waited 2 µs, and only
then. -/
def BenchRunsCountRounds : Prop :=
  ∀ (h : Hall) (s : State), Canonical s → dieUp s = true →
    let hl := getHall s h
    let asked (u : State) : State := modHall u h fun hl => { hl with rotateReq := hl.rotateReq <|> rotationDue u h }
    let rounded (matched : Bool) : State :=
      { modPos s (posKey h hl.tnkPos) (fun ps => roundPos ps matched s.free) with free := s.free + 40 }
    (hl.tnkActive = true → hl.tnkEnable = false →
      exec (.benchPeriodStart h) s = .next (asked (endBench s h (if 16 ≤ hl.tnkRounds then 1 else 3) 0xFFFF 0xFFFF))) ∧
    (hl.tnkActive = false → hl.tnkEnable = false → exec (.benchPeriodStart h) s = .next (asked s)) ∧
    (hl.tnkActive = false → hl.tnkEnable = true → ∀ i u, benchChoice s h = some (i, u) →
      ∃ t, exec (.benchPeriodStart h) s = .next t ∧ t = { s with halls := t.halls, positions := t.positions } ∧
        (getHall t h).tnkActive = true ∧ (getHall t h).tnkPos = i ∧ (getHall t h).tnkRounds = 0 ∧
        (getPos t (posKey h i)).status = .bench ∧ ∀ x, x ≠ posKey h i → getPos t x = getPos s x) ∧
    (hl.tnkActive = true → 0 < hl.benchGrant → ∀ test, ∃ t, exec (.benchRound h true test) s = .next t ∧
      t = { rounded true with halls := t.halls } ∧ getHall t h = { hl with tnkRounds := min 0xFFFF (hl.tnkRounds + 1) } ∧
      getPos t (posKey h hl.tnkPos) = roundPos (getPos s (posKey h hl.tnkPos)) true s.free ∧
      (getPos t (posKey h hl.tnkPos)).stoFlip.arm = false ∧ (getPos t (posKey h hl.tnkPos)).asyInject = false ∧
      (getPos t (posKey h hl.tnkPos)).asyLastValid = true ∧ (getPos t (posKey h hl.tnkPos)).asyLastRow = 0 ∧
      (getPos t (posKey h hl.tnkPos)).asyLastCol = 0 ∧
      ∀ x, x ≠ posKey h hl.tnkPos → getPos t x = getPos s x) ∧
    (hl.tnkActive = true → 0 < hl.benchGrant → ∀ test : W16,
      exec (.benchRound h false test) s = .next (endBench (rounded false) h 2 (hl.tnkRounds + 1) test.toNat)) ∧
    (hl.tnkActive = false ∨ hl.benchGrant = 0 → ∀ m test, exec (.benchRound h m test) s = .next s) ∧
    (0 < hl.benchGrant → (∃ r ∈ hl.requests, 2000 ≤ (now s h - r.time).toNat) → ∃ t, exec (.benchPause h) s = .next t ∧
      t = { s with halls := t.halls } ∧ getHall t h = { hl with benchGrant := 0, benchSince := now s h }) ∧
    (hl.benchGrant = 0 ∨ (∀ r ∈ hl.requests, (now s h - r.time).toNat < 2000) → exec (.benchPause h) s = .next s)

/-- R299: how a run that is not of a retired position, nor due under R289, ends: passed, its position is a ready spare with this as its last
bench time; inconclusive, the position is as it was before. Either way the run counts in TNK_RUNS and its grant ends. -/
def BenchVerdictsSettleThePosition : Prop :=
  ∀ (s : State) (h verdict round test : Nat), Canonical s → (getHall s h).benchWasRetired = false →
    (getHall s h).benchUnder289 = false →
      let i := (getHall s h).tnkPos
      let t := endBench s h verdict round test
      (getHall t h).tnkRuns = (getHall s h).tnkRuns + 1 ∧ (getHall t h).tnkActive = false ∧ (getHall t h).benchGrant = 0 ∧
      (getHall t h).tnkVerdict = verdict ∧
      (verdict = 1 → getPos t (posKey h i) = { getPos s (posKey h i) with ueSince := 0, status := .ready, lastBench := some (now s h) }) ∧
      (verdict = 2 → (getPos t (posKey h i)).status = .retired ∧ (getHall t h).tnkRetired = (getHall s h).tnkRetired + 1) ∧
      (verdict = 3 → (getPos t (posKey h i)).status = (getHall s h).benchFrom ∧ (getHall t h).tnkSlack = (getHall s h).tnkSlack + 1) ∧
      t.queues = s.queues ∧ t.sems = s.sems ∧ t.lcores = s.lcores

/-- R298 to R300, R467: the runs of the bench and their verdicts. -/
def Obligations.BenchRunsCountAndSettle : Prop :=
  BenchRunsCountRounds ∧ BenchVerdictsSettleThePosition

/-! ## The Miller (19) -/

/-- R455, R468: a window of 10 µs keeps its measures, I_IN with a resolution of 10 mA (how it is rounded is the model's choice, log entry 176). Above
A_EFF it throttles and raises FS_BUDGET in both halls; at or below A_EFF less the margin it releases the throttle, whose µs count; between the two it
leaves it. A V_IN that leaves its range raises FS_VIN in both halls. -/
def WindowsMeasureAndThrottle : Prop :=
  ∀ (i v : Nat) (s : State), Canonical s → dieUp s = true →
    let m : Miller := { s.miller with
      iIn := i - i % 10, vIn := v, vinOut := decide (v < 4000) || decide (6000 < v), lastWindow := now s 0 }
    ∃ t, exec (.millerWindow i v) s = .next t ∧ t = { s with halls := t.halls, miller := t.miller } ∧
      (aEff m < m.iIn → t.miller = (if m.throttle then m else { m with throttle := true, throttleFrom := now s 0 }) ∧
        ∀ h, h < 2 → (getHall t h).sticky.getLsbD 43 = true) ∧
      (m.iIn ≤ aEff m → aEff m - 100 * m.margin < m.iIn → t.miller = m) ∧
      (m.iIn ≤ aEff m - 100 * m.margin → t.miller = { m with
        throttle := false,
        throttleUs := if m.throttle = true then m.throttleUs + BitVec.ofNat 32 ((now s 0 - m.throttleFrom).toNat / 1000) else m.throttleUs }) ∧
      (m.vinOut = true → s.miller.vinOut = false → ∀ h, h < 2 → (getHall t h).sticky.getLsbD 33 = true) ∧
      (m.iIn ≤ aEff m → m.vinOut = false ∨ s.miller.vinOut = true →
        ∀ h, (getHall t h).sticky = (getHall s h).sticky ∧ (getHall t h).evSeq = (getHall s h).evSeq)

/-- R463: the shares of the halls sum to the pool after it is dealt anew. -/
def SharesSumToThePool : Prop :=
  ∀ s : State, Canonical s → (getHall s 0).down = false ∨ (getHall s 1).down = false →
    (getHall (reshare s) 0).share + (getHall (reshare s) 1).share = pool s.miller

/-- R464: when a request of the hall has waited YIELD, every queue of the hall that has held its grant for longer than 100 µs yields, and no
other queue changes; otherwise nothing does. -/
def LongHeldGrantsYield : Prop :=
  ∀ (h : Hall) (s : State), Canonical s → dieUp s = true →
    (yieldDue s h = false → exec (.millerYield h) s = .next s) ∧
    (yieldDue s h = true → ∃ t, exec (.millerYield h) s = .next t ∧ t = { s with queues := t.queues } ∧
      (∀ k, qHall k = h.val → getQueue t k = yieldGrant (now s h) (getQueue s k)) ∧
      ∀ k, qHall k ≠ h.val → getQueue t k = getQueue s k)

/-- R468, R518, R529: a die or package sensor above 95 °C, or an optics sensor above 70 °C, derates both halls and raises FS_THERM_WARN, and one at or
below its limit nothing; its end leaves the derating until DERATE_END, 1 s later, which does nothing before and while the warning holds; V_IN
outside 40 V to 60 V raises FS_VIN, and inside it nothing. -/
def WarningsDerate : Prop :=
  (∀ (r : Reading) (s : State), Canonical s → dieUp s = true →
    let limit := if r.sensor = .optics then 70 else 95
    (r.temp.toNat ≤ limit → exec (.thermWarn r) s = .next s) ∧
    (limit < r.temp.toNat → ∃ t, exec (.thermWarn r) s = .next t ∧
      t.power = { s.power with warm := true, dieWarm := s.power.dieWarm || decide (r.sensor = .die),
                               temp := if r.sensor = .die then r.temp else s.power.temp } ∧
      t.miller = { s.miller with derate := true } ∧ (∀ h, h < 2 → (getHall t h).sticky.getLsbD 34 = true) ∧
      t = { s with halls := t.halls, power := t.power, miller := t.miller })) ∧
  (∀ s : State, exec .thermWarnClear s = .next { s with
    power := { s.power with warm := false, dieWarm := false, hot := false },
    miller := { s.miller with warmEnd := if s.power.warm then now s 0 else s.miller.warmEnd } }) ∧
  (∀ s : State, dieUp s = true →
    (s.power.warm = true ∨ (now s 0 - s.miller.warmEnd).toNat < 1000000000 → exec .derateEnd s = .next s) ∧
    (s.power.warm = false → 1000000000 ≤ (now s 0 - s.miller.warmEnd).toNat →
      ∃ t, exec .derateEnd s = .next t ∧ t.miller = { s.miller with derate := false } ∧ t = { s with halls := t.halls, miller := t.miller })) ∧
  (∀ (v : Nat) (s : State), Canonical s → dieUp s = true →
    (4000 ≤ v → v ≤ 6000 → exec (.vinOut v) s = .next s) ∧
    (v < 4000 ∨ 6000 < v → ∃ t, exec (.vinOut v) s = .next t ∧ t.miller = { s.miller with vIn := v, vinOut := true } ∧
      (∀ h, h < 2 → (getHall t h).sticky.getLsbD 33 = true) ∧ t = { s with halls := t.halls, miller := t.miller }))

/-- R455, R463, R464, R468, R518, R529: the Miller's windows, shares, yields and derating; how the shares change with the pool is the
model's choice (log entry 44). -/
def Obligations.MillerMeasuresAndYields : Prop :=
  WindowsMeasureAndThrottle ∧ SharesSumToThePool ∧ LongHeldGrantsYield ∧ WarningsDerate

/-! ## Supplies and faults of a hall or the module (18, 22) -/

/-- R423, R424, R430, R431: a Steward's watchdog takes its hall down; a PLL of a core domain or of MGMT its hall, of the mesh or of a memory
controller the module; a bench PLL ends the hall's run; a supply of the core islands takes its hall down and the islands' power,
any other supply the module; a thermal trip, above 110 °C (R529), takes the module down and the die off. How a PLL's instance is
coded and what goes with a supply are the model's choices (log entries 49, 50). -/
def ClassHAndMFaultsTakeDown : Prop :=
  ∀ s : State, dieUp s = true →
    (∀ h : Hall, exec (.stewardWatchdog h) s = .next (applyClass (raise s h 31 5 { code := 0x0701 }) h 31 5 (originNext s h 31 5))) ∧
    (∀ d : PllDomain,
      let h := pllHall d
      let told := modHall (raise s h 12 (pllClass d) (pllEvent d)) h (noteUnlock d)
      let acts := exec (.pllUnlock d) s = .next (applyClass told h 12 (pllClass d) (originNext s h 12 (pllClass d)))
      match d with
      | .core _ => pllClass d = 5 ∧ acts
      | .mgmt _ => pllClass d = 5 ∧ acts
      | .mesh _ => pllClass d = 6 ∧ acts
      | .memc _ _ => pllClass d = 6 ∧ acts
      | .host _ => exec (.pllUnlock d) s = .next (dropLink told h)
      | .bench _ => exec (.pllUnlock d) s = .next (if (getHall told h).tnkActive then endBench told h 3 0 0 else told)) ∧
    (∀ h : Hall, exec (.vrFault (.coreIsland h)) s =
      .next (islandsOff (applyClass (raiseBoth (noteSupply s (.coreIsland h) 5) 32 5 { code := 0x0702 }) h 32 5 (originNext s h 32 5)) h)) ∧
    (∀ x : Supply, supplyHall x = none → exec (.vrFault x) s =
      .next (supplyGone (applyClass (raiseBoth (noteSupply s x 6) 32 6 { code := 0x0702 }) 0 32 6 (originNext s 0 32 6)) x)) ∧
    (∀ temp : Byte, temp.toNat ≤ 110 → exec (.thermTrip temp) s = .next s) ∧
    (∀ temp : Byte, 110 < temp.toNat → ∃ t, exec (.thermTrip temp) s = .next t ∧ t.power.die = false ∧ t.power.hot = true ∧
      t.power.temp = temp ∧ t.moduleDown = true ∧ ∀ h, h < 2 → (getHall t h).sticky.getLsbD 35 = true)

/-- A queue that goes on is halted at a boundary (R70, R432): nothing of it is in flight or before its start, STW_Q_HALT_SEQ is where it stood, and what
it has to mark BROKEN, up to its producer count, is noted with the origin. -/
def HaltedBy (s t : State) (k : Nat) (o : Origin) : Prop :=
  (getQueue t k).state = .haltFault ∧ (getQueue t k).inflight = [] ∧ (getQueue t k).front = none ∧
  (getQueue t k).haltSeq = (getQueue s k).cmplSeq ∧ (getQueue t k).origin = o ∧
  ∃ m, (getQueue t k).markings = (getQueue s k).markings ++ [m] ∧ m.origin = o ∧ m.upto = (getQueue s k).prod

/-- R430, R431, R432, R447, R454, R463, R503: what a hall down and a module down do: every job context resident in the hall, or every one, is killed with
cause 4 or 5, where no cause stood, and its queues that go on halt; the hall holds no share, grant or request, and the other hall, where it is up,
takes the share; the module's ports are down; the registers with an After fault of 0 read 0, and the cores, positions, hubs and ports of the other hall
stand where only a hall is down and no job context is resident. (That the open generations of both halls become bad, and what the other hall gets
back, are the model's choices: log entries 37, 39, 50.) -/
def DownHallsAndModulesLoseTheirPart : Prop :=
  (∀ (s : State) (h src : Nat) (o : Origin), Canonical s → h < 2 →
    let t := hallDown s h src o
    (getHall t h).down = true ∧ (getHall t h).share = 0 ∧ (getHall t h).requests = [] ∧ (getHall t h).lent = 0 ∧ (getHall t h).benchGrant = 0 ∧
    (getHall t (1 - h)).share = (getHall s (1 - h)).share + (if (getHall s (1 - h)).down then 0 else (getHall s h).share) ∧
    (getHall t (1 - h)).down = (getHall s (1 - h)).down ∧
    (∀ k, qHall k = h → (getQueue t k).grant = none) ∧
    (∀ j, j < 16 → resident s h j = true → (getJob t j).killed = true ∧
      (getJob t j).cause = (if (getJob s j).killed then (getJob s j).cause else 4) ∧
      ∀ k ∈ jobQueues s j, Going (getQueue s k) → HaltedBy s t k o) ∧
    (∀ j, j < 16 → (getJob t j).restoring = false ∧ (getJob t j).fetching = false ∧ (getJob t j).gens = []) ∧
    (getHall t h).seaFlip.arm = false ∧ (getHall t h).meshFlip.arm = false ∧ (getHall t h).seamFlip.arm = false ∧
    (∀ k, k / 8 = h → (getHub t k).flip.arm = false) ∧ (∀ k, k / 6 = h → (getPort t k).flip.arm = false) ∧
    ((∀ j, j < 16 → resident s h j = false ∧ (getJob s j).gens = []) →
      (∀ p, getPos t p = if p / 72 = h then faultPos (getPos s p) else getPos s p) ∧
      (∀ n, getCore t n = if n / 64 = h then faultCore (getCore s n) else getCore s n) ∧
      (∀ k, getHub t k = if k / 8 = h then { getHub s k with flip := disarm (getHub s k).flip } else getHub s k) ∧
      (∀ k, getPort t k = if k / 6 = h then { getPort s k with flip := disarm (getPort s k).flip } else getPort s k) ∧
      (∀ k, getQueue t k = if qHall k = h then { getQueue s k with grant := none, qwait := (getQueue t k).qwait } else getQueue s k) ∧
      t = { s with halls := t.halls, lcores := t.lcores, positions := t.positions, hubs := t.hubs, ports := t.ports, queues := t.queues,
                   jobs := t.jobs })) ∧
  (∀ (s : State) (src : Nat) (o : Origin), Canonical s →
    let t := moduleDown s src o
    t.moduleDown = true ∧ (∀ k, k < 12 → (getPort t k).up = false ∧ (getPort t k).flip.arm = false) ∧
    (∀ j, j < 16 → (getJob t j).killed = true ∧ (getJob t j).cause = (if (getJob s j).killed then (getJob s j).cause else 5) ∧
      (getJob t j).restoring = false ∧ (getJob t j).fetching = false ∧
      ∀ k ∈ jobQueues s j, Going (getQueue s k) → HaltedBy s t k o) ∧
    t.sems = s.sems ∧
    ((∀ j, j < 16 → jobQueues s j = [] ∧ (getJob s j).gens = []) →
      (∀ k, k < 12 → getPort t k = { downPort (getPort s k) with flip := disarm (getPort s k).flip }) ∧
      t.queues = s.queues ∧ t.mem = s.mem))

/-- R70, R74, R432, R434: a kill halts every queue of the job context that goes on, whose discarded commands and SSEMs are noted; the first CAUSE stands; a
queue of another job context, and one that is disabled, halted or FENCED, keeps what it has. A command that consumed poison ends with POISON, and
kills its job context. -/
def KillsKeepTheFirstCause : Prop :=
  (∀ (s : State) (j cause : Nat) (o : Origin), Canonical s →
    let t := killJob s j cause o
    (getJob t j).killed = true ∧ (getJob t j).cause = (if (getJob s j).killed then (getJob s j).cause else cause) ∧
    (getJob t j).gens = [] ∧ (∀ x, x ≠ j → getJob t x = getJob s x) ∧
    (∀ k ∈ jobQueues s j, Going (getQueue s k) → HaltedBy s t k o) ∧
    (∀ k, k ∉ jobQueues s j ∨ isHalted (getQueue s k).state = true ∨ (getQueue s k).state = .fenced ∨ (getQueue s k).state = .disabled →
      getQueue t k = getQueue s k) ∧
    t.sems = s.sems ∧
    (jobQueues s j = [] → (getJob s j).gens = [] → t = { s with jobs := t.jobs, halls := t.halls })) ∧
  ∀ (s : State) (k : Nat) (c : InFlight), Canonical s →
    let t := endPoison s k c
    (getJob t (qJob s k).toNat).killed = true ∧ (getQueue t k).state = .haltFault ∧ (getQueue t k).inflight = [] ∧
    (getQueue t k).front = none ∧ t.sems = s.sems

/-- R73, R436: a fence of a logical core: core and position are fenced, and each of its queues that is not disabled, FENCED already or at a marker whose
window is open, discards what is in flight and is FENCED. -/
def FencesStopTheFourQueues : Prop :=
  ∀ (s : State) (n : Nat) (o : Origin), Canonical s → n < 128 →
    let t := fenceCore s n o none
    (getCore t n).fenced = true ∧ (∀ p, corePos s n = some p → (getPos t p).fenced = true) ∧ t.sems = s.sems ∧
    ∀ i, i < 4 →
      let q := getQueue s (4 * n + i)
      ((getQueue t (4 * n + i)).state = .fenced ↔ q.state ≠ .disabled ∧ (q.state = .mark → (getCore s n).swap = none)) ∧
      (q.state ≠ .disabled → q.state ≠ .fenced → (q.state = .mark → (getCore s n).swap = none) →
        (getQueue t (4 * n + i)).inflight = [] ∧ (getQueue t (4 * n + i)).front = none ∧ (getQueue t (4 * n + i)).origin = o)

/-- R70, R73, R74, R423, R424, R430 to R434, R463: faults of class H and M, what they take down, kills and fences. -/
def Obligations.FaultsTakeDownHallsAndModules : Prop :=
  ClassHAndMFaultsTakeDown ∧ DownHallsAndModulesLoseTheirPart ∧ KillsKeepTheFirstCause ∧ FencesStopTheFourQueues

/-- R429, R431, R489, R518, R519, R533: the eFuse opens once, with the input there or lost no longer than 50 µs ago, takes the die's supply and the
ports, and latches while the management supply is there; the management supply comes up with an inactive chain address and ALIVE low, and its loss
clears the latch. (That the latch is lost with its supply is the model's choice, log entries 50 and 67.) -/
def SuppliesComeAndGo : Prop :=
  ∀ s : State, Canonical s →
    let mayTrip := s.power.efuseOpen = false ∧ (s.power.input48 = true ∨ (now s 0 - s.power.lostAt).toNat ≤ 50000)
    (mayTrip → ∃ t, exec .efuseTrip s = .next t ∧
      t = { s with power := { s.power with efuseOpen := true, efuseLatch := s.power.mgmt, die := false }, moduleDown := true, ports := t.ports } ∧
      ∀ k, getPort t k = if k < 12 then downPort (getPort s k) else getPort s k) ∧
    (¬ mayTrip → exec .efuseTrip s = .next s) ∧
    (s.power.mgmt = false → s.power.input48 = false →
      exec .mgmtSupplyUp s = .next { s with
        power := { s.power with mgmt := true }, aliveLevel := false, jtag := {},
        chain := { s.chain with lfa := none, caddr := 0, inOk := false } }) ∧
    (s.power.mgmt = true ∨ s.power.input48 = true → exec .mgmtSupplyUp s = .next s) ∧
    (s.power.mgmt = true → s.power.die = false →
      exec .mgmtSupplyLost s = .next { s with
        power := { s.power with mgmt := false, efuseLatch := false }, aliveLevel := false, chain := { s.chain with inOk := false } }) ∧
    (s.power.mgmt = false ∨ s.power.die = true → exec .mgmtSupplyLost s = .next s)

/-- R429, R489, R518, R519, R533: the ALIVE output, the eFuse and the management supply. -/
def Obligations.AliveAndSuppliesFollowPower : Prop :=
  AliveTogglesWhileBothHallsEnable ∧ SuppliesComeAndGo

/-- R482, R484, R524: a PCIe link lost returns its configuration space to reset and, with the die up, raises FS_HOST_LINK; it comes up with the
48 V input and undriven pins; the BARs, Bus Master Enable, MSI-X Enable and the Function Mask are written while the host hub answers. (What a link
keeps is the model's choice: log entries 11, 68.) -/
def HostLinksDropAndReturn : Prop :=
  ∀ (h : Hall) (s : State), Canonical s →
    ((getHall s h).linkUp = false → exec (.hostLinkDown h) s = .next s) ∧
    ((getHall s h).linkUp = true → ∃ t, exec (.hostLinkDown h) s = .next t ∧ t = { s with halls := t.halls } ∧
      (getHall t h).linkUp = false ∧ (getHall t h).busMaster = false ∧ (getHall t h).msixEnable = false ∧ (getHall t h).bar0Addr = 0 ∧ (getHall t h).bar2Addr = 0 ∧
      (dieUp s = true → (getHall t h).sticky.getLsbD 37 = true) ∧ ∀ x, x ≠ h.val → getHall t x = getHall s x) ∧
    (s.power.input48 = true → s.jtag.driving = false → ∃ t, exec (.hostLinkUp h) s = .next t ∧ t = { s with halls := t.halls } ∧
      getHall t h = { getHall s h with linkUp := true } ∧ ∀ x, x ≠ h.val → getHall t x = getHall s x) ∧
    (s.power.input48 = false ∨ s.jtag.driving = true → exec (.hostLinkUp h) s = .next s) ∧
    (∀ b0 b2 (c : PcieControl), bootUp s h = true → ∃ t, exec (.pcieConfigWrite h b0 b2 c) s = .next t ∧ t = { s with halls := t.halls } ∧
      getHall t h = { getHall s h with bar0Addr := b0, bar2Addr := b2, busMaster := c.busMaster, msixEnable := c.msixEnable,
                                       msixMask := c.msixMask } ∧ ∀ x, x ≠ h.val → getHall t x = getHall s x) ∧
    (∀ b0 b2 c, bootUp s h = false → exec (.pcieConfigWrite h b0 b2 c) s = .next s)

/-! ## The tally chain and boundary scan (20, 22) -/

/-- R486 to R488: a frame is bypassed without the management supply, and discarded with a bad CRC; a good one addressed elsewhere goes on to
CHAIN_OUT unchanged; ENUM always acts. -/
def ChainFramesPassOrAreDropped : Prop :=
  ∀ (f : ChainFrame) (s : State),
    let rows : List (Byte × Instr) :=
      [(0x01, .chainEnum f), (0x02, .chainSetLfa f), (0x03, .chainStatus f), (0x04, .chainIdent f), (0x05, .chainRestart f)]
    let sent (c : Chain) (type : Byte) : State := { s with chain := { c with out := s.chain.out ++ [(type, f)] } }
    (∀ x ∈ rows, s.power.mgmt = false → exec x.2 s = .next (sent s.chain x.1)) ∧
    (∀ x ∈ rows, s.power.mgmt = true → chainGood x.1 f = false → exec x.2 s = .next s) ∧
    (∀ x ∈ rows, x.1 ≠ 0x01 → s.power.mgmt = true → chainGood x.1 f = true → addressed s f = false →
      exec x.2 s = .next (sent { s.chain with inOk := true } x.1)) ∧
    (∀ type, s.power.mgmt = false → exec (.chainForward type f) s = .next (sent s.chain type)) ∧
    (∀ type, s.power.mgmt = true → chainGood type f = false → exec (.chainForward type f) s = .next s) ∧
    (∀ type, type ∉ rows.map (·.1) → s.power.mgmt = true → chainGood type f = true →
      exec (.chainForward type f) s = .next (sent { s.chain with inOk := true } type)) ∧
    (∀ x ∈ rows, exec (.chainForward x.1 f) s = exec x.2 s)

/-- R487: an active module that receives a good ENUM takes its COUNT c as its chain address if c lies from 1 to 4,095 and 0 otherwise, and
sends it on with min(c + 1, 4,096), the rest of its DATA as it was; nothing else changes. A module with chain address 0 answers no
addressed frame: it sends each on as it came. -/
def Obligations.EnumTakesItsCount : Prop :=
  ∀ (f : ChainFrame) (s : State), s.power.mgmt = true →
    (chainGood 0x01 f = true →
      let c := bitsOf f.data.toNat 0 16
      ∃ t, exec (.chainEnum f) s = .next t ∧ t = { s with chain := t.chain } ∧ t.chain.lfa = s.chain.lfa ∧
        t.chain.caddr = (if 1 ≤ c ∧ c ≤ 4095 then BitVec.ofNat 12 c else 0) ∧
        ∃ g, t.chain.out = s.chain.out ++ [(0x01, g)] ∧ bitsOf g.data.toNat 0 16 = min (c + 1) 4096 ∧
          g.data.toNat / 65536 = f.data.toNat / 65536 ∧ chainGood 0x01 g = true) ∧
    (s.chain.caddr = 0 →
      ∀ x ∈ [((0x02 : Byte), Instr.chainSetLfa f), (0x03, .chainStatus f), (0x04, .chainIdent f), (0x05, .chainRestart f)],
        chainGood x.1 f = true →
          exec x.2 s = .next { s with chain := { s.chain with inOk := true, out := s.chain.out ++ [(x.1, f)] } })

/-- R488 to R490, R524: SET_LFA sets or clears the fabric address, or is BUSY while a job context is resident; STATUS and IDENT answer with their
data, a die below its warning limit with a temperature that is free up to that limit (log entry 178); RESTART begins the cold start with the die off
or the pins driven, no trip persisting and the 48 V input there, lets the pins go, and is BUSY otherwise. -/
def ChainCommandsAct : Prop :=
  ∀ (f : ChainFrame) (s : State), s.power.mgmt = true →
    let u : State := { s with chain := { s.chain with inOk := true } }
    (addressed s f = true →
      (chainGood 0x02 f = true → anyJob s = true → exec (.chainSetLfa f) s = .next (respond u f (lfaCode s + 0x10000))) ∧
      (chainGood 0x02 f = true → anyJob s = false → ∃ t, exec (.chainSetLfa f) s = .next t ∧ t = { s with chain := t.chain } ∧
        t.chain.lfa = (if f.data.getLsbD 15 then none else some (f.data.setWidth 12)) ∧ t.chain.caddr = s.chain.caddr ∧
        t.chain.out = (respond u f (lfaCode t)).chain.out) ∧
      (chainGood 0x03 f = true → ∃ temp : Byte, exec (.chainStatus f) s = .next (respond { u with free := s.free + 1 } f (statusData u temp)) ∧
        (s.power.dieWarm = true → temp = s.power.temp) ∧ (s.power.dieWarm = false → temp.toNat ≤ 95)) ∧
      (chainGood 0x04 f = true → exec (.chainIdent f) s = .next (respond u f (identData s))) ∧
      (chainGood 0x05 f = true → restartAllowed s = false → exec (.chainRestart f) s = .next (respond u f 0x10000)) ∧
      (chainGood 0x05 f = true → restartAllowed s = true → exec (.chainRestart f) s = .next (coldStarted { respond u f 0 with jtag := {} } false)))

/-- R486 to R490: the frames of the tally chain. -/
def Obligations.ChainFramesActOrPass : Prop :=
  ChainFramesPassOrAreDropped ∧ ChainCommandsAct

/-- R486: a lost chain input raises FS_CHAIN in both halls with the die up, and keeps both addresses. -/
def LostChainInputKeepsAddresses : Prop :=
  ∀ s : State, Canonical s →
    (s.power.mgmt = false → exec .chainInputLost s = .next s) ∧
    (s.power.mgmt = true → ∃ t, exec .chainInputLost s = .next t ∧ t.chain = { s.chain with inOk := false } ∧
      (dieUp s = true → ∀ h, h < 2 → (getHall t h).sticky.getLsbD 38 = true) ∧ t = { s with chain := t.chain, halls := t.halls })

/-- R522 to R524: the instructions of the test access port: BYPASS and IDCODE select their registers with the management supply alone, and the
boundary registers stand; SAMPLE/PRELOAD needs the die; EXTEST and CLAMP load BYPASS while a job context is resident, and otherwise drive the pins and take
both links and every port down; a test reset selects IDCODE. Without its supply the port does nothing. -/
def ScanInstructionsAct : Prop :=
  ∀ s : State,
    let off := s.power.mgmt = false
    let selects (ir : JtagIr) : Host.Outcome State Fault Refusal := .next { s with jtag := { s.jtag with ir := ir } }
    (¬ off → exec .bypass s = selects .bypass ∧ exec .idcode s = selects .idcode ∧ exec .trstReset s = selects .idcode) ∧
    (∀ j : Jtag, tapData { j with ir := .idcode } = 0x15A209A7 ∧ tapData { j with ir := .bypass } = 0 ∧
      tapData { j with ir := .sample } = j.boundary) ∧ State.reset.jtag.ir = .idcode ∧
    (∀ v, ¬ off → s.power.die = true →
      exec (.samplePreload (.preload v)) s = .next { s with jtag := { s.jtag with ir := .sample, boundary := v } }) ∧
    (¬ off → s.power.die = true → ∃ t, exec (.samplePreload .sample) s = .next t ∧ t.jtag.ir = .sample ∧ t.jtag.driving = s.jtag.driving ∧
      t = { s with jtag := t.jtag, free := t.free }) ∧
    (¬ off → s.power.die = true → anyJob s = true → exec .extest s = selects .bypass ∧ exec .clamp s = selects .bypass) ∧
    (¬ off → s.power.die = true → anyJob s = false → s.jtag.driving = true →
      exec .extest s = selects .extest ∧ exec .clamp s = selects .clamp) ∧
    (¬ off → s.power.die = true → anyJob s = false → s.jtag.driving = false → Canonical s → ∀ x ∈ [JtagIr.extest, JtagIr.clamp],
      ∃ t, exec (if x = .extest then .extest else .clamp) s = .next t ∧ t.jtag = { s.jtag with ir := x, driving := true } ∧
        (∀ h, h < 2 → (getHall t h).linkUp = false) ∧ (∀ k, k < 12 → (getPort t k).up = false)) ∧
    (off → ∀ u, exec .bypass s = .next s ∧ exec .idcode s = .next s ∧ exec .trstReset s = .next s ∧ exec .extest s = .next s ∧
      exec .clamp s = .next s ∧ exec (.samplePreload u) s = .next s)

/-- R482, R484, R486, R522 to R524: the PCIe link, the chain input and the test access port. -/
def Obligations.LinksAndPinsAct : Prop :=
  HostLinksDropAndReturn ∧ LostChainInputKeepsAddresses ∧ ScanInstructionsAct


/-! ## The engines (05 to 10) -/

/-- What an engine of the core at position `p` touches: its own position and logical core, the halls' events and counters, the
Sealer's slots and open statistics, and the counter of the free values. -/
def OnCore (s e : State) (n p : Nat) : Prop :=
  e = { s with positions := e.positions, lcores := e.lcores, halls := e.halls, slots := e.slots, stats := e.stats, free := e.free } ∧
  (∀ x, x ≠ p → getPos e x = getPos s x) ∧ (∀ m, m ≠ n → getCore e m = getCore s m)

/-- Reading any byte of the store of position `p` outside the pieces gives what it gave before. Only a byte in error that the read rewrites poisoned
meets an armed STW_STO_FLIP there (R349, R511). -/
def StoreKept (s e : State) (p : Nat) (l : List Piece) : Prop :=
  ∀ off, (∀ x ∈ l, off < x.1 ∨ x.1 + x.2.length ≤ off) →
    ((getPos s p).stoFlip.arm = false ∨ ∀ d, decodeByte (readSByte (getPos s p) off) ≠ .uncorrectable d) →
      (storeByte e p off).bytes = (storeByte s p off).bytes

/-- What the last of the pieces over a store offset writes there, with its poison mark. -/
def lastWritten (l : List Piece) (off : Nat) : Option (Byte × Bool) :=
  (l.reverse.find? fun x => decide (x.1 ≤ off) && decide (off < x.1 + x.2.length)).bind fun x => x.2[off - x.1]?

/-- With no flip of the store armed, reading a byte of the pieces gives what the last piece over it writes. -/
def StoreWritten (s e : State) (p : Nat) (l : List Piece) : Prop :=
  (getPos s p).stoFlip.arm = false → ∀ off b, lastWritten l off = some b → (storeByte e p off).bytes = [b]

/-- The oldest command of a queue completes after an effect on its core that leaves the store but for the pieces, which it has written. With no
command behind it before its start and a record that lands it retires with DONE (R53, R67, R68). -/
def Completes (i : Instr) (s : State) (k n p : Nat) (c : InFlight) (flags : Nat) (counts : List Nat) (l : List Piece)
    (holds : State → Prop) : Prop :=
  ∃ e, exec i s = .next (completeDone e k c flags counts) ∧ OnCore s e n p ∧ StoreKept s e p l ∧ StoreWritten s e p l ∧ holds e ∧
    ((getQueue s k).front = none → Going (getQueue s k) → RecordLands e k c 0 flags counts →
      RetiredDone e (completeDone e k c flags counts) k c flags counts)

/-- The oldest command of a queue consumed poison and ends with it (R74, R536). -/
def EndsPoisoned (i : Instr) (s : State) (k n p : Nat) (c : InFlight) : Prop :=
  ∃ e, exec i s = .next (endPoison e k c) ∧ OnCore s e n p

/-- R349: every byte of the store of position `p` is delivered without poison: clean, or in error by a bit that its code corrects. -/
def SoundStore (s : State) (p : Nat) : Prop :=
  ∀ off, ∃ d, decodeByte (readSByte (getPos s p) off) = .clean d ∨ decodeByte (readSByte (getPos s p) off) = .corrected d

/-- The bytes that such a store delivers. -/
def storeData (s : State) (p off n : Nat) : Array Byte :=
  ((List.range n).map fun i => match decodeByte (readSByte (getPos s p) (off + i)) with
    | .clean d | .corrected d | .uncorrectable d | .poisoned d => d).toArray

/-- R129 to R134, R169: the stage part of a LOADW keeps the placement of its panels with the command, which from a sound store is that of their bytes;
the write part puts it into the plane named and completes with the counts of what was dropped; a staged poison empties the plane and ends the
command. -/
def Obligations.LoadwStagesAndWritesAPlane : Prop :=
  ∀ (n : Core) (s : State) (c : InFlight) (p : Nat), Canonical s → corePos s n = some p →
    let k := 4 * n.val
    let r := stagePlane s p c.cmd
    (dieUp s = true → unstaged (getQueue s k) = some c →
      exec (.loomLoadw n) s =
        .next (advance (modQueue r.1 k fun q => updateInFlight q { c with staged := some r.2 }) k) ∧
      OnCore s r.1 n p ∧ StoreKept s r.1 p []) ∧
    (SoundStore s p → r.2 = buildPlane c.cmd
      ((loadwOps c.cmd).panels.map fun a => storeData s p a (loadPanelSize (loadwOps c.cmd).wfmt (loadwOps c.cmd).pattern))) ∧
    (∀ st pl, headOp s k 0x10 = some c → c.staged = some st → st.plane = some pl →
      Completes (.loadwWritePart n) s k n p c ({ metaDrop := pl.dropped : RecFlags }).toNat
        [recCount st.overfull, recCount st.range, recCount st.order, 0] [] fun e =>
          ((getPos s p).asyFlip.arm = false → getPlane (getCore e n) (loomPlane c.cmd) = some pl) ∧
          getPlane (getCore e n) (1 - loomPlane c.cmd) = getPlane (getCore s n) (1 - loomPlane c.cmd) ∧
          (getCore e n).acc = (getCore s n).acc) ∧
    (∀ st, headOp s k 0x10 = some c → c.staged = some st → st.plane = none →
      ∃ e, exec (.loadwWritePart n) s = .next (endPoison e k c) ∧ OnCore s e n p ∧ StoreKept s e p [] ∧
        getPlane (getCore e n) (loomPlane c.cmd) = none ∧
        getPlane (getCore e n) (1 - loomPlane c.cmd) = getPlane (getCore s n) (1 - loomPlane c.cmd))

/-- R203, R211: what a gated LAST command writes into its log entry in EXACT mode: t of an A8 output, and its bitmap. -/
def notePieces (lc : LCore) (c : InFlight) (t : Int) : List Piece :=
  match lc.gln.log.find? fun e => e.seq == c.seq with
  | none => []
  | some e =>
    let bytes := (lc.bitmap.map bitmapBytes).getD []
    [(e.off + 84, [(BitVec.ofInt 8 (if (matOps c.cmd).ofmt = 0 then t else 0), false)]),
      plainPiece (e.off + 128) (bytes ++ List.replicate (4096 - bytes.length) 0)]

/-- R135 to R147, R153 to R169, R203, R211, R283 to R288: a matrix command on a plane that is held makes its pass and the Assayer checks it.
Without poison and without a mismatch it completes: not LAST, it leaves the accumulation and no byte of the store; LAST, it closes the accumulation,
writes the bytes of its output and, gated, its log entry alone, and the Gleaner counts its spans. Poison without a mismatch ends it. A mismatch counts,
writes only what a finished output writes, ends the command with ASSAY and fences the core. From a sound store and accumulation no poison is met, and
with the Assayer off no mismatch. -/
def Obligations.MatrixCommandsPassAndDrain : Prop :=
  ∀ (n : Core) (s : State) (c : InFlight) (p : Nat) (pl : Plane) (path : Nat) (t : Bool),
    let k := 4 * n.val
    let i : Instr := if t then .loomMatmulT n else .loomMatmul n
    let o := matOps c.cmd
    let lc := getCore s n
    let g := gatingOf lc o (if o.last then o.ncols else pl.cols)
    let out := (g.map fun g => gatedOut g.skip g.audit).getD []
    let pr := runPass s p pl o path (accFor lc o path pl) (List.range o.rows) out
    let a := assay pr.st n p pl.copyErr pr.seen
    let u := if pl.copyErr = 1 ∧ (getPos pr.st p).asyEnable then
      modCore a.st n fun lc => setPlane lc o.plane (some { pl with copyErr := 0 }) else a.st
    let m := matOutput u p c o path pl pr g
    let tsc := if o.tslot = 255 then 0 else slotScale c o.tslot
    Canonical s → corePos s n = some p → headOp s k (if t then 0x12 else 0x11) = some c → getPlane lc o.plane = some pl →
    pathOf o.afmt o.wfmt = some path →
      (a.fail = none → o.last = false → pr.poison = false →
        Completes i s k n p c ({ metaDrop := pl.dropped, banded := decide (1 < pr.bands) : RecFlags }).toNat
          [0, 0, 0, recCount (pr.bands - 1)] [] fun e => (getCore e n).acc = some pr.acc) ∧
      (a.fail = none → o.last = false → pr.poison = true → EndsPoisoned i s k n p c) ∧
      (a.fail = none → o.last = true → m.poison = false →
        Completes i s k n p c (m.out.flags.or { metaDrop := pl.dropped, banded := decide (1 < pr.bands) }).toNat
          [0, 0, 0, recCount (pr.bands - 1)] (m.pieces ++ if o.gate then notePieces lc c tsc else []) fun e =>
            (getCore e n).acc = none ∧
            ∃ log, (getCore e n).gln = { (match g with | none => lc.gln | some g => gleanCounts lc.gln g m.fin) with log := log }) ∧
      (a.fail = none → o.last = true → m.poison = true → EndsPoisoned i s k n p c) ∧
      (∀ v, a.fail = some v → (if o.last then m.poison else pr.poison) = false →
        ∃ e o', exec i s = .next (endAssay e k c 0x40 o') ∧ OnCore s e n p ∧ StoreKept s e p (if o.last then m.pieces else []) ∧
          (getPos e p).asyMismatch = (getPos s p).asyMismatch + 1 ∧ (getPos e p).asyLastValid = true ∧
          (getCore (endAssay e k c 0x40 o') n).fenced = true ∧ (getCore (endAssay e k c 0x40 o') n).dropPending = true) ∧
      (SoundStore s p → (getPos s p).drnFlip.arm = false → (∀ x ∈ (accFor lc o path pl).els, x.2.poison = false ∧ x.2.ecc ≤ 1) →
        pr.poison = false ∧ m.poison = false ∧ ((getPos s p).asyEnable = false → a.fail = none))

/-- R199 to R201, R220: LAMP.LOADF fills the slot it names from the factor set in the store; a LAMP.PREDICT that is not LAST adds its slice to the
projection and completes; one with LAST computes the bitmap that BITMAP_REPLACE installs, with WBMAP at MBASE, when it completes the
command. A sound store gives LAMP.LOADF its set, and with a projection whose code corrects it gives LAMP.PREDICT its own. -/
def LamplighterCommandsRun : Prop :=
  ∀ (n : Core) (s : State) (c : InFlight) (p : Nat), Canonical s → corePos s n = some p →
    let k := 4 * n.val
    (headOp s k 0x20 = some c →
      let ns := loadfSpans c.cmd
      let rd := storeRead s p (loadfBase c.cmd) (factorSize ns)
      (anyPoison rd.bytes = false ∨ SoundStore s p → Completes (.lampLoadf n) s k n p c 0 [] [] fun e =>
        getSlotF (getCore e n) (loadfSlot c.cmd) = some (factorSet ns (dataArray rd.bytes)) ∧
        getSlotF (getCore e n) (1 - loadfSlot c.cmd) = getSlotF (getCore s n) (1 - loadfSlot c.cmd)) ∧
      (anyPoison rd.bytes = true → EndsPoisoned (.lampLoadf n) s k n p c)) ∧
    (headOp s k 0x21 = some c → c.bitmap = none →
      let o := predOps c.cmd
      ((getPos s p).lmpFlip.arm = false → (if o.rescore then ∃ pj, (getCore s n).proj = some pj ∧ pj.ecc ≤ 1
        else SoundStore s p ∧ (projFor (getCore s n) o).ecc ≤ 1) → ∃ pj, (project s n p o).2 = some pj) ∧
      ((project s n p o).2 = none → EndsPoisoned (.lampPredict n) s k n p c) ∧
      (∀ pj, (project s n p o).2 = some pj → o.last = false → Completes (.lampPredict n) s k n p c 0 [] [] fun e =>
        (getCore e n).proj = some pj) ∧
      (∀ pj f, (project s n p o).2 = some pj → o.last = true → getSlotF (getCore s n) o.slot = some f →
        ∃ e, exec (.lampPredict n) s = .next (modQueue e k fun q =>
            updateInFlight q { c with bitmap := some (scoreAll pj f (thetaNow (getCore s n).gln)) }) ∧
          OnCore s e n p ∧ StoreKept s e p [] ∧ (getCore e n).proj = some pj)) ∧
    (∀ b, headOp s k 0x21 = some c → c.bitmap = some b →
      let o := predOps c.cmd
      Completes (.bitmapReplace n) s k n p c 0 [] (if o.wbmap then [plainPiece o.mbase (bitmapBytes b)] else []) fun e =>
        (getCore e n).bitmap = some b ∧
        (getPos e p).lmpActive = (getPos s p).lmpActive + BitVec.ofNat 32 (activeSpans b)) ∧
    (headOp s k 0x21 = some c → c.bitmap = none → exec (.bitmapReplace n) s = .next s)

/-- R205, R206, R210, R213, R216: GLN.CONFIG of MODE 0 leaves the Gleaner unconfigured and any other takes the glean record at GBASE; GLN.FENCE of an
unconfigured Gleaner only completes; in modes 2 and 3, in 3 after ADAPT, it writes the record of 64 bytes at GBASE and nothing else; in mode 1 it
completes with the log made up and the record written, as it does with an empty log over a sound store. -/
def GleanerCommandsRun : Prop :=
  ∀ (n : Core) (s : State) (c : InFlight) (p : Nat), Canonical s → corePos s n = some p →
    let k := 4 * n.val
    let g := (getCore s n).gln
    (headOp s k 0x28 = some c →
      let o := glnOps c.cmd
      let rd := storeRead s p o.gbase 64
      (o.mode = 0 → Completes (.glnConfig n) s k n p c 0 [] [] fun e => (getCore e n).gln = { pending := g.pending, log := g.log }) ∧
      (o.mode ≠ 0 → anyPoison rd.bytes = false ∨ SoundStore s p → Completes (.glnConfig n) s k n p c 0 [] [] fun e =>
        (getCore e n).gln = configGleaner o (dataArray rd.bytes) g.pending g.log) ∧
      (o.mode ≠ 0 → anyPoison rd.bytes = true → EndsPoisoned (.glnConfig n) s k n p c)) ∧
    (headOp s k 0x29 = some c →
      (g.mode = 0 → exec (.glnFence n) s = .next (completeDone s k c 0 [])) ∧
      (2 ≤ g.mode →
        let a := if g.mode = 3 then (adaptAtFence g).1 else g
        Completes (.glnFence n) s k n p c 0 [] [plainPiece g.gbase (gleanRecord a)] fun e =>
          (getCore e n).gln = { a with pending := false }) ∧
      (g.mode = 1 → (exactMakeUp s n p (hdrJob c.cmd)).2.ok = true ∨ (g.log = [] ∧ SoundStore s p) →
        ∃ e, exec (.glnFence n) s = .next (completeDone e k c 0 []) ∧ OnCore s e n p ∧ (getCore e n).gln.pending = false ∧
          StoreWritten s e p [plainPiece g.gbase (gleanRecord (getCore e n).gln)]))

/-- R199 to R201, R205, R206, R213, R216, R220: the commands of the Lamplighter and the Gleaner. -/
def Obligations.LamplighterAndGleanerCommandsRun : Prop :=
  LamplighterCommandsRun ∧ GleanerCommandsRun

/-- How a command of the WQ that writes to the ranges `w` and computes `f` ends: DONE with the counts of what its reader dropped, having written its pieces, or poisoned. -/
def WeaverEnds (i : Instr) (s : State) (n p : Nat) (c : InFlight) (w : List Range) (f : Machine.Reader → WRes) : Prop :=
  let r := withOverlap s p w f
  (r.rd.poison = false → Completes i s (4 * n + 1) n p c (r.flags.or { metaDrop := r.rd.dropped }).toNat
    [recCount r.rd.overfull, recCount r.rd.range, recCount r.rd.order, 0] r.pieces fun e =>
      (getPos e p).wvrMatch = (getPos r.rd.st p).wvrMatch + BitVec.ofNat 32 r.found) ∧
  (r.rd.poison = true → EndsPoisoned i s (4 * n + 1) n p c)

/-- R183, R185, R187, R189 to R192: WVR.SPMM, WVR.GATHER, WVR.DISPATCH and MASK.SCOUT write their output alone, count their matches and
complete with the counts of the entries dropped, or end with the poison they read. -/
def Obligations.WeaverCommandsRun : Prop :=
  ∀ (n : Core) (s : State) (c : InFlight) (p : Nat), Canonical s → corePos s n = some p →
    let k := 4 * n.val + 1
    (headOp s k 0x40 = some c →
      let o := spmmOps c.cmd (slotScale c (fld c.cmd 27 0 8))
      WeaverEnds (.wvrSpmm n) s n p c (outRanges o.out 0) (spmmRes o)) ∧
    (headOp s k 0x41 = some c →
      let o := gatherOps c.cmd (slotScale c (fld c.cmd 26 0 8))
      WeaverEnds (.wvrGather n) s n p c (gatherSide o.out :: outRanges o.out 0) (gatherRes o)) ∧
    (headOp s k 0x42 = some c →
      WeaverEnds (.wvrDispatch n) s n p c (dispatchWrites (dispatchOps c.cmd)) (dispatchRes (dispatchOps c.cmd))) ∧
    (headOp s k 0x48 = some c →
      let o := scoutOps c.cmd
      WeaverEnds (.maskScout n) s n p c [(o.obase, scoutSize o)] (scoutRes o))

/-- R239 to R261: FUL.RUN, FUL.SOFTMAX, FUL.ADAM and FUL.SGDM write their pieces alone and complete with their flags and counts; poison they
consume ends them, and FUL.RUN ends with PROT where it stored beyond the store. -/
def Obligations.FullerCommandsRun : Prop :=
  ∀ (n : Core) (s : State) (c : InFlight) (p : Nat), Canonical s → corePos s n = some p →
    let k := 4 * n.val + 2
    (headOp s k 0x60 = some c →
      let o := fulOps c.cmd
      let r := fulRun s p c
      (r.stop = .none → Completes (.fulRun n) s k n p c r.flags.toNat []
        (r.pieces ++ if o.sen then [plainPiece o.sbase (leBytes 8 (statusWord r))] else []) fun e =>
          (getPos e p).fulOdd = (getPos r.st p).fulOdd + BitVec.ofNat 32 r.odd) ∧
      (r.stop = .poison → EndsPoisoned (.fulRun n) s k n p c) ∧
      (∀ va, r.stop = .prot va → ∃ e, exec (.fulRun n) s = .next (endFulProt e k c va) ∧ OnCore s e n p)) ∧
    (headOp s k 0x61 = some c →
      let o := softOps c.cmd (slotScale c (fld c.cmd 27 0 8))
      let r := softRows s p o o.out.rows 0
      let out := makeOutput o.out false false (r.2.map (·.els))
      let inf := caseCount .infIn r.2
      let empty := caseCount .empty r.2
      (r.2.any (·.poison) = false → Completes (.fulSoftmax n) s k n p c
        (out.flags.or { emptyRow := decide (0 < empty), infIn := decide (0 < inf) }).toNat
        [recCount inf, recCount empty, recCount (caseCount .nan r.2), 0]
        (out.elementPieces ++ [statusPiece o.out out.tiles]) fun _ => True) ∧
      (r.2.any (·.poison) = true → EndsPoisoned (.fulSoftmax n) s k n p c)) ∧
    (∀ b : Bool, headOp s k (if b then 0x62 else 0x63) = some c →
      let o := optOps c.cmd
      let m := optRun b o s p
      let i : Instr := if b then .fulAdam n else .fulSgdm n
      (m.rd.poison = false → Completes i s k n p c
        ({ nan := decide (0 < m.nans), inf := decide (0 < m.infs) : RecFlags }).toNat []
        (m.pieces ++ [plainPiece o.rbase (optReport m)]) fun e =>
          (getPos e p).fulBusy = (getPos s p).fulBusy + BitVec.ofNat 32 (optCycles o.n)) ∧
      (m.rd.poison = true → EndsPoisoned i s k n p c))

/-- R226 to R238: MASK.PRUNE, MASK.REGROW and MASK.REPAIR rewrite the columns of their range, the panel's header and the mask report alone, and
complete with META set where an entry was dropped; poison they read ends them. -/
def Obligations.MaskCommandsRun : Prop :=
  ∀ (n : Core) (s : State) (c : InFlight) (p : Nat), Canonical s → corePos s n = some p →
    let k := 4 * n.val + 2
    ∀ x ∈ [((0x68 : Nat), Instr.maskPrune n), (0x69, .maskRegrow n), (0x6A, .maskRepair n)], headOp s k x.1 = some c →
      let m := maskRun x.1 p (maskOps c.cmd) s
      (m.stopped = false → Completes x.2 s k n p c
        ({ metaDrop := decide (0 < m.n.overfull + m.n.range + m.n.order) : RecFlags }).toNat [] m.pieces fun e =>
          (getPos e p).fulBusy = (getPos s p).fulBusy + BitVec.ofNat 32 (maskCycles (maskOps c.cmd) m.nnz)) ∧
      (m.stopped = true → EndsPoisoned x.2 s k n p c)

/-- R309 to R320: CTR.COPY, CTR.FILL and CTR.PERMUTE complete with the bolts and the poisoned lines they moved; they touch memory, their position
and the hubs, and no queue, semaphore, logical core or other position; a plain copy onto itself moves nothing; a fault ends them, and one
with a write unacknowledged waits (R369; that it stays in flight is the model's reading, log entry 138). -/
def Obligations.CarterCommandsRun : Prop :=
  ∀ (n : Core) (s : State) (c : InFlight) (p : Nat), Canonical s → corePos s n = some p →
    let k := 4 * n.val + 3
    let w : Cart := { k := k, p := p, ctx := qCtx s k, seq := c.seq }
    ∀ x ∈ [((0xA0 : Nat), Instr.ctrCopy n), (0xA1, .ctrFill n), (0xA2, .ctrPermute n)], headOp s k x.1 = some c →
      let m := carterMove s w x.1 c.cmd c.desc
      let bolts := (m.bytes + 2047) / 2048
      (m.fault = none → m.acked = false → exec x.2 s = .next (markUnacked m.st k)) ∧
      (m.fault = none → m.acked = true → exec x.2 s = .next (completeDone m.st k c ({ poisonCopied := decide (0 < m.lines) : RecFlags }).toNat
        [bolts % 65536, bolts / 65536 % 65536, recCount m.lines, 0])) ∧
      (∀ f, m.fault = some f → exec x.2 s = .next (endCarter m.st w c f)) ∧
      m.st = { s with
        positions := m.st.positions, halls := m.st.halls, hubs := m.st.hubs, mem := m.st.mem, memErr := m.st.memErr,
        leafs := m.st.leafs, series := m.st.series, meshFault := m.st.meshFault, resent := m.st.resent, outputs := m.st.outputs,
        promotes := m.st.promotes, free := m.st.free } ∧
      (∀ y, y ≠ p → getPos m.st y = getPos s y) ∧
      (plainCopy x.1 (srcDesc c.desc) (dstDesc c.desc) = true → extentsMeet (srcDesc c.desc) (dstDesc c.desc) = true →
        (srcDesc c.desc).base = (dstDesc c.desc).base → m.st = s ∧ m.bytes = 0 ∧ m.fault = none)

/-- A Drover command of a ring, and how far one run takes it (R391, R393 to R397). -/
def drvOf (h j : Nat) (c : InFlight) : Drv := { h := h, j := j, cmd := c.cmd, seq := c.seq }
def drvTurn (op : Nat) (s : State) (d : Drv) (c : InFlight) : DrvRun :=
  let r : DrvRun := match c.coll with
    | none => drvBegin d { st := s, co := {} }
    | some co => { st := s, co := co }
  let n := heldFrames d s + 1
  if op = 0xC1 then redLoop d n r else if op = 0xC3 then barrierLoop d n r else gatherLoop d n r

/-- R389 to R399, R409: a Drover command that still waits for frames keeps its progress and stays; one whose last frame has come completes with its
counts, or waits where a write stays unacknowledged, and any other end is its fault, each followed by the stale-shard halt; a command begun on a ring whose frames stay away ends
with DRV_FAULT of cause 1 on the first channel it waits for, and a ring with none has no timeout. No logical core, position or
semaphore changes while it runs. When the stale-shard halt comes, and that a command with a write unacknowledged stays and has no timeout, are the
model's readings (log entries 111, 138). -/
def Obligations.DroverCommandsRun : Prop :=
  ∀ (h : Hall) (j : Job) (s : State) (c : InFlight), Canonical s → dieUp s = true →
    let k := 512 + 16 * h.val + j.val
    let d := drvOf h j c
    (∀ x ∈ [((0xC0 : Nat), Instr.drvAllgather h j), (0xC1, .drvRedscat h j), (0xC2, .drvBcast h j), (0xC3, .drvBarrier h j)],
      headOp s k x.1 = some c →
        let r := drvTurn x.1 s d c
        ∃ e, (∀ y, y ≠ k → getQueue e y = getQueue s y) ∧
          (getQueue e k).inflight = { c with coll := some r.co } :: (getQueue s k).inflight.tail ∧
          e.sems = s.sems ∧ e.lcores = s.lcores ∧ e.positions = s.positions ∧
          (r.fin = .running → exec x.2 s = .next e) ∧
          (r.fin = .done → r.acked = false → exec x.2 s = .next (markUnacked e k)) ∧
          (r.fin = .done → r.acked = true → exec x.2 s = .next (staleHalt (completeDone e k c r.flags.toNat (drvCounts d e r)) d r.co)) ∧
          (∀ cause ch port, r.fin = .fault cause ch port → exec x.2 s = .next (staleHalt (drvFault e d c cause ch (getPort e port).peer) d r.co)) ∧
          (∀ seq, r.fin = .ueRead seq →
            exec x.2 s = .next (staleHalt (completeFault e k c 0x31 (some { seq := seq, source := 5, sev := 2 })) d r.co)) ∧
          (∀ f va write, r.fin = .xfail f va write → exec x.2 s = .next (staleHalt (endXfail e k c f va write) d r.co))) ∧
    (runningDrv s h j = none → exec (.drvTimeout h j) s = .next s) ∧
    (runningDrv s h j = some c → c.unacked = true → exec (.drvTimeout h j) s = .next s) ∧
    (runningDrv s h j = some c → c.unacked = false →
      let co := c.coll.getD {}
      let i := ((List.range d.channels.length).find? fun i => decide (co.got.getD i 0 < d.share i)).getD 0
      let ch := d.channels.getD i 0
      exec (.drvTimeout h j) s = .next (staleHalt (drvFault s d c 1 ch (getPort s (d.recvKey ch)).peer) d co))
end

