-- ==== Sys2Proof/Laws/Canonical.lean ====
section
/-! SUPPORT. The canonical form as one test, and that it holds at reset. -/

namespace Sys2Proof.Machine

/-- The canonical form of each table of the state. -/
def tableTests (s : State) : List Bool :=
  [tabWf {} s.queues, tabWf {} s.sems, tabWf {} s.semGrp, tabWf {} s.own, tabWf {} s.lcores, tabWf {} s.positions, tabWf resetHall s.halls,
   tabWf {} s.hubs, tabWf {} s.ports, tabWf {} s.jobs, tabWf {} s.slots, tabWf {} s.stats, Memory.wf s.mem, tabWf {} s.memErr,
   tabWf {} s.series, tabWf [] s.leafs, Memory.wf s.hostMem]

/-- Every table in its canonical form, as one test. -/
def canonicalTest (s : State) : Bool := (tableTests s).all id

/-- A state that passes the test is canonical. -/
theorem canonical_of_test {s : State} (h : canonicalTest s = true) : Canonical s := by
  have all : ∀ b ∈ tableTests s, b = true := List.all_eq_true.1 h
  constructor <;> (apply all; simp [tableTests])

/-- A canonical state passes the test. -/
theorem test_of_canonical {s : State} (h : Canonical s) : canonicalTest s = true := by
  simp only [canonicalTest, tableTests, List.all_cons, h.queues, h.sems, h.semGrp, h.own, h.lcores, h.positions, h.halls, h.hubs, h.ports,
    h.jobs, h.slots, h.stats, h.mem, h.memErr, h.series, h.leafs, h.hostMem]
  rfl

end Sys2Proof.Machine
end

