-- ==== Sys2Proof/Laws/Tab.lean ====
section
/-! SUPPORT. The laws of the sparse tables and of memory as bytes: reading after writing, and the canonical form that every
write keeps. -/

namespace Sys2Proof.Machine

variable {α : Type} [DecidableEq α]

/-- Another key reads as before. -/
theorem tabGet_tabSet_ne (d : α) (t : Tab α) {k k' : Nat} (v : α) (h : k' ≠ k) :
    tabGet d (tabSet d k v t) k' = tabGet d t k' := by
  induction t with
  | nil =>
    simp only [tabSet]
    split
    · rfl
    · simp [tabGet, Ne.symm h]
  | cons x r ih =>
    obtain ⟨a, b⟩ := x
    simp only [tabSet]
    split
    · split
      · rfl
      · simp [tabGet, Ne.symm h]
    · split
      · next h1 => subst h1; split <;> simp [tabGet, Ne.symm h]
      · simp only [tabGet]; split
        · rfl
        · exact ih

theorem tabWfFrom_le {d : α} {lo lo' : Nat} {t : Tab α} (h : tabWfFrom d lo t = true) (hl : lo' ≤ lo) :
    tabWfFrom d lo' t = true := by
  cases t with
  | nil => rfl
  | cons x r => simp [tabWfFrom] at *; exact ⟨⟨Nat.le_trans hl h.1.1, h.1.2⟩, h.2⟩

/-- A key below every listed one reads as the default. -/
theorem tabGet_below {d : α} {lo k : Nat} {t : Tab α} (h : tabWfFrom d lo t = true) (hk : k < lo) : tabGet d t k = d := by
  induction t generalizing lo with
  | nil => rfl
  | cons x r ih =>
    simp [tabWfFrom] at h
    simp only [tabGet]
    rw [if_neg (by omega)]
    exact ih h.2 (by omega)

theorem tabGet_tabSet_sameFrom {d : α} {lo : Nat} {t : Tab α} (h : tabWfFrom d lo t = true) (k : Nat) (v : α) :
    tabGet d (tabSet d k v t) k = v := by
  induction t generalizing lo with
  | nil =>
    simp only [tabSet]
    split
    · next hv => simp [tabGet, hv]
    · simp [tabGet]
  | cons x r ih =>
    obtain ⟨a, b⟩ := x
    simp [tabWfFrom] at h
    simp only [tabSet]
    split
    · next hk =>
      split
      · next hv =>
        simp only [tabGet]
        rw [if_neg (by omega), tabGet_below h.2 (by omega), hv]
      · simp [tabGet]
    · split
      · next h1 =>
        split
        · next hv => rw [hv]; exact tabGet_below h.2 (by omega)
        · simp [tabGet, h1]
      · next h1 =>
        simp only [tabGet]
        rw [if_neg (fun e => h1 e.symm)]
        exact ih h.2

/-- The key written reads as the value written. -/
theorem tabGet_tabSet_same {d : α} {t : Tab α} (h : tabWf d t = true) (k : Nat) (v : α) :
    tabGet d (tabSet d k v t) k = v := tabGet_tabSet_sameFrom h k v

/-- Reading after writing. -/
theorem tabGet_tabSet {d : α} {t : Tab α} (h : tabWf d t = true) (k k' : Nat) (v : α) :
    tabGet d (tabSet d k v t) k' = if k' = k then v else tabGet d t k' := by
  split
  · next e => rw [e]; exact tabGet_tabSet_same h k v
  · next e => exact tabGet_tabSet_ne d t v e

theorem tabWfFrom_tabSet {d : α} {lo : Nat} {t : Tab α} (h : tabWfFrom d lo t = true) {k : Nat} (hk : lo ≤ k) (v : α) :
    tabWfFrom d lo (tabSet d k v t) = true := by
  induction t generalizing lo with
  | nil =>
    simp only [tabSet]
    split
    · rfl
    · next hv => simp [tabWfFrom, hk, hv]
  | cons x r ih =>
    obtain ⟨a, b⟩ := x
    simp [tabWfFrom] at h
    simp only [tabSet]
    split
    · next hk' =>
      split
      · simp [tabWfFrom, h]
      · next hv => simp [tabWfFrom, hk, hv, h]; omega
    · split
      · next h1 =>
        subst h1
        split
        · exact tabWfFrom_le h.2 (by omega)
        · next hv => simp [tabWfFrom, hk, hv, h.2]
      · next h2 h1 =>
        simp only [tabWfFrom, Bool.and_eq_true, decide_eq_true_eq]
        exact ⟨⟨h.1.1, h.1.2⟩, ih h.2 (by omega)⟩

/-- A write keeps the canonical form. -/
theorem tabWf_tabSet {d : α} {t : Tab α} (h : tabWf d t = true) (k : Nat) (v : α) : tabWf d (tabSet d k v t) = true :=
  tabWfFrom_tabSet h (Nat.zero_le k) v

theorem tabWfFrom_filter {d : α} {lo : Nat} {t : Tab α} (h : tabWfFrom d lo t = true) (f : Nat × α → Bool) :
    tabWfFrom d lo (t.filter f) = true := by
  induction t generalizing lo with
  | nil => rfl
  | cons x r ih =>
    simp [tabWfFrom] at h
    simp only [List.filter]
    split
    · simp [tabWfFrom, h]; exact ih h.2
    · exact ih (tabWfFrom_le h.2 (by omega))

/-- Dropping entries keeps the canonical form. -/
theorem tabWf_filter {d : α} {t : Tab α} (h : tabWf d t = true) (f : Nat × α → Bool) : tabWf d (t.filter f) = true :=
  tabWfFrom_filter h f

theorem tabMap_cons (d : α) (f : Nat → α → α) (x : Nat × α) (r : Tab α) :
    tabMap d f (x :: r) = if f x.1 x.2 = d then tabMap d f r else (x.1, f x.1 x.2) :: tabMap d f r := by
  by_cases e : f x.1 x.2 = d <;> simp [tabMap, e]

theorem tabWfFrom_tabMap {d : α} {lo : Nat} {t : Tab α} (h : tabWfFrom d lo t = true) (f : Nat → α → α) :
    tabWfFrom d lo (tabMap d f t) = true := by
  induction t generalizing lo with
  | nil => rfl
  | cons x r ih =>
    simp only [tabWfFrom, Bool.and_eq_true, decide_eq_true_eq] at h
    by_cases e : f x.1 x.2 = d
    · rw [tabMap_cons, if_pos e]
      exact tabWfFrom_le (ih h.2) (by omega)
    · rw [tabMap_cons, if_neg e]
      simpa [tabWfFrom, h.1.1, e] using ih h.2

/-- A change of every listed value keeps the canonical form. -/
theorem tabWf_tabMap {d : α} {t : Tab α} (h : tabWf d t = true) (f : Nat → α → α) : tabWf d (tabMap d f t) = true :=
  tabWfFrom_tabMap h f

theorem tabGet_tabMapFrom {d : α} {lo : Nat} {t : Tab α} (h : tabWfFrom d lo t = true) (f : Nat → α → α) (k : Nat) (hf : f k d = d) :
    tabGet d (tabMap d f t) k = f k (tabGet d t k) := by
  induction t generalizing lo with
  | nil => exact hf.symm
  | cons x r ih =>
    simp only [tabWfFrom, Bool.and_eq_true, decide_eq_true_eq] at h
    have hr := ih h.2
    have below : x.1 = k → tabGet d (tabMap d f r) k = d := fun e => tabGet_below (tabWfFrom_tabMap h.2 f) (by omega)
    rw [tabMap_cons]
    by_cases hk : x.1 = k
    · subst hk
      by_cases e : f x.1 x.2 = d
      · rw [if_pos e, below rfl]; simp [tabGet, e]
      · rw [if_neg e]; simp [tabGet]
    · by_cases e : f x.1 x.2 = d
      · rw [if_pos e, hr]; simp [tabGet, hk]
      · rw [if_neg e]; simp [tabGet, hk, hr]

/-- What a key reads as after a change of every listed value that keeps the default. -/
theorem tabGet_tabMap {d : α} {t : Tab α} (h : tabWf d t = true) (f : Nat → α → α) (k : Nat) (hf : f k d = d) :
    tabGet d (tabMap d f t) k = f k (tabGet d t k) := tabGet_tabMapFrom h f k hf

/-- Bytes written keep the canonical form of memory. -/
theorem memory_wf_putBytes {m : List Host.Cell} (h : Memory.wf m = true) (a : Nat) (bs : List Byte) :
    Memory.wf (putBytes m a bs) = true := by
  induction bs generalizing m a with
  | nil => exact h
  | cons b r ih => simp only [putBytes]; exact ih (tabWf_tabSet h a b) (a + 1)

/-- A byte outside the bytes written reads as before. -/
theorem tabGet_putBytes_outside {m : List Host.Cell} (a : Nat) (bs : List Byte) {x : Nat}
    (hx : x < a ∨ a + bs.length ≤ x) : tabGet (0 : Byte) (putBytes m a bs) x = tabGet 0 m x := by
  induction bs generalizing m a with
  | nil => rfl
  | cons b r ih =>
    simp only [putBytes]
    simp at hx
    rw [ih (a + 1) (by omega)]
    exact tabGet_tabSet_ne (d := (0 : Byte)) m b (by omega)

/-- A byte written reads as what was written. -/
theorem tabGet_putBytes_inside {m : List Host.Cell} (h : Memory.wf m = true) (a : Nat) (bs : List Byte) {i : Nat}
    (hi : i < bs.length) : tabGet (0 : Byte) (putBytes m a bs) (a + i) = bs[i] := by
  induction bs generalizing m a i with
  | nil => simp at hi
  | cons b r ih =>
    simp only [putBytes]
    cases i with
    | zero =>
      rw [tabGet_putBytes_outside _ _ (by omega)]
      exact tabGet_tabSet_same h a b
    | succ j =>
      have := ih (tabWf_tabSet h a b) (a + 1) (i := j) (by simpa using hi)
      simpa [Nat.add_assoc, Nat.add_comm 1 j] using this

end Sys2Proof.Machine
end

