-- ==== Sys2Proof/Laws/State.lean ====
section
/-! SUPPORT. One lemma per field per update of State: what an update leaves alone, and what reading a part gives after writing it. -/

namespace Sys2Proof.Machine

/-! ## setQueue -/

@[simp] theorem setQueue_pending (s : State) (k : Nat) (v : Queue) : (setQueue s k v).pending = s.pending := rfl
@[simp] theorem setQueue_free (s : State) (k : Nat) (v : Queue) : (setQueue s k v).free = s.free := rfl
@[simp] theorem setQueue_order (s : State) (k : Nat) (v : Queue) : (setQueue s k v).order = s.order := rfl
@[simp] theorem setQueue_rate (s : State) (k : Nat) (v : Queue) : (setQueue s k v).rate = s.rate := rfl
@[simp] theorem setQueue_time (s : State) (k : Nat) (v : Queue) : (setQueue s k v).time = s.time := rfl
@[simp] theorem setQueue_time1 (s : State) (k : Nat) (v : Queue) : (setQueue s k v).time1 = s.time1 := rfl
@[simp] theorem setQueue_fuse (s : State) (k : Nat) (v : Queue) : (setQueue s k v).fuse = s.fuse := rfl
@[simp] theorem setQueue_started (s : State) (k : Nat) (v : Queue) : (setQueue s k v).started = s.started := rfl
@[simp] theorem setQueue_aliveLevel (s : State) (k : Nat) (v : Queue) : (setQueue s k v).aliveLevel = s.aliveLevel := rfl
@[simp] theorem setQueue_moduleDown (s : State) (k : Nat) (v : Queue) : (setQueue s k v).moduleDown = s.moduleDown := rfl
@[simp] theorem setQueue_sems (s : State) (k : Nat) (v : Queue) : (setQueue s k v).sems = s.sems := rfl
@[simp] theorem setQueue_semGrp (s : State) (k : Nat) (v : Queue) : (setQueue s k v).semGrp = s.semGrp := rfl
@[simp] theorem setQueue_own (s : State) (k : Nat) (v : Queue) : (setQueue s k v).own = s.own := rfl
@[simp] theorem setQueue_signals (s : State) (k : Nat) (v : Queue) : (setQueue s k v).signals = s.signals := rfl
@[simp] theorem setQueue_lcores (s : State) (k : Nat) (v : Queue) : (setQueue s k v).lcores = s.lcores := rfl
@[simp] theorem setQueue_positions (s : State) (k : Nat) (v : Queue) : (setQueue s k v).positions = s.positions := rfl
@[simp] theorem setQueue_halls (s : State) (k : Nat) (v : Queue) : (setQueue s k v).halls = s.halls := rfl
@[simp] theorem setQueue_hubs (s : State) (k : Nat) (v : Queue) : (setQueue s k v).hubs = s.hubs := rfl
@[simp] theorem setQueue_ports (s : State) (k : Nat) (v : Queue) : (setQueue s k v).ports = s.ports := rfl
@[simp] theorem setQueue_jobs (s : State) (k : Nat) (v : Queue) : (setQueue s k v).jobs = s.jobs := rfl
@[simp] theorem setQueue_slots (s : State) (k : Nat) (v : Queue) : (setQueue s k v).slots = s.slots := rfl
@[simp] theorem setQueue_stats (s : State) (k : Nat) (v : Queue) : (setQueue s k v).stats = s.stats := rfl
@[simp] theorem setQueue_miller (s : State) (k : Nat) (v : Queue) : (setQueue s k v).miller = s.miller := rfl
@[simp] theorem setQueue_chain (s : State) (k : Nat) (v : Queue) : (setQueue s k v).chain = s.chain := rfl
@[simp] theorem setQueue_power (s : State) (k : Nat) (v : Queue) : (setQueue s k v).power = s.power := rfl
@[simp] theorem setQueue_jtag (s : State) (k : Nat) (v : Queue) : (setQueue s k v).jtag = s.jtag := rfl
@[simp] theorem setQueue_timeCfg (s : State) (k : Nat) (v : Queue) : (setQueue s k v).timeCfg = s.timeCfg := rfl
@[simp] theorem setQueue_selfTest (s : State) (k : Nat) (v : Queue) : (setQueue s k v).selfTest = s.selfTest := rfl
@[simp] theorem setQueue_mem (s : State) (k : Nat) (v : Queue) : (setQueue s k v).mem = s.mem := rfl
@[simp] theorem setQueue_memErr (s : State) (k : Nat) (v : Queue) : (setQueue s k v).memErr = s.memErr := rfl
@[simp] theorem setQueue_outputs (s : State) (k : Nat) (v : Queue) : (setQueue s k v).outputs = s.outputs := rfl
@[simp] theorem setQueue_promotes (s : State) (k : Nat) (v : Queue) : (setQueue s k v).promotes = s.promotes := rfl
@[simp] theorem setQueue_series (s : State) (k : Nat) (v : Queue) : (setQueue s k v).series = s.series := rfl
@[simp] theorem setQueue_meshFault (s : State) (k : Nat) (v : Queue) : (setQueue s k v).meshFault = s.meshFault := rfl
@[simp] theorem setQueue_resent (s : State) (k : Nat) (v : Queue) : (setQueue s k v).resent = s.resent := rfl
@[simp] theorem setQueue_leafs (s : State) (k : Nat) (v : Queue) : (setQueue s k v).leafs = s.leafs := rfl
@[simp] theorem setQueue_hostMem (s : State) (k : Nat) (v : Queue) : (setQueue s k v).hostMem = s.hostMem := rfl
@[simp] theorem setQueue_hostRead (s : State) (k : Nat) (v : Queue) : (setQueue s k v).hostRead = s.hostRead := rfl
@[simp] theorem setQueue_hostReadPoison (s : State) (k : Nat) (v : Queue) : (setQueue s k v).hostReadPoison = s.hostReadPoison := rfl
@[simp] theorem setQueue_delivered (s : State) (k : Nat) (v : Queue) : (setQueue s k v).delivered = s.delivered := rfl
@[simp] theorem setQueue_queues (s : State) (k : Nat) (v : Queue) : (setQueue s k v).queues = tabSet ({} : Queue) k v s.queues := rfl
@[simp] theorem getSem_setQueue (s : State) (k : Nat) (v : Queue) (x : Nat) : getSem (setQueue s k v) x = getSem s x := rfl
@[simp] theorem getSemGrp_setQueue (s : State) (k : Nat) (v : Queue) (x : Nat) : getSemGrp (setQueue s k v) x = getSemGrp s x := rfl
@[simp] theorem getOwn_setQueue (s : State) (k : Nat) (v : Queue) (x : Nat) : getOwn (setQueue s k v) x = getOwn s x := rfl
@[simp] theorem getCore_setQueue (s : State) (k : Nat) (v : Queue) (x : Nat) : getCore (setQueue s k v) x = getCore s x := rfl
@[simp] theorem getPos_setQueue (s : State) (k : Nat) (v : Queue) (x : Nat) : getPos (setQueue s k v) x = getPos s x := rfl
@[simp] theorem getHall_setQueue (s : State) (k : Nat) (v : Queue) (x : Nat) : getHall (setQueue s k v) x = getHall s x := rfl
@[simp] theorem getHub_setQueue (s : State) (k : Nat) (v : Queue) (x : Nat) : getHub (setQueue s k v) x = getHub s x := rfl
@[simp] theorem getPort_setQueue (s : State) (k : Nat) (v : Queue) (x : Nat) : getPort (setQueue s k v) x = getPort s x := rfl
@[simp] theorem getJob_setQueue (s : State) (k : Nat) (v : Queue) (x : Nat) : getJob (setQueue s k v) x = getJob s x := rfl
theorem getQueue_setQueue_ne (s : State) {k x : Nat} (v : Queue) (h : x ≠ k) : getQueue (setQueue s k v) x = getQueue s x := tabGet_tabSet_ne _ _ _ h
theorem getQueue_setQueue_same (s : State) (k : Nat) (v : Queue) (h : tabWf ({} : Queue) s.queues = true) : getQueue (setQueue s k v) k = v := tabGet_tabSet_same h k v
@[simp] theorem modQueue_pending (s : State) (k : Nat) (u : Queue → Queue) : (modQueue s k u).pending = s.pending := rfl
@[simp] theorem modQueue_free (s : State) (k : Nat) (u : Queue → Queue) : (modQueue s k u).free = s.free := rfl
@[simp] theorem modQueue_order (s : State) (k : Nat) (u : Queue → Queue) : (modQueue s k u).order = s.order := rfl
@[simp] theorem modQueue_rate (s : State) (k : Nat) (u : Queue → Queue) : (modQueue s k u).rate = s.rate := rfl
@[simp] theorem modQueue_time (s : State) (k : Nat) (u : Queue → Queue) : (modQueue s k u).time = s.time := rfl
@[simp] theorem modQueue_time1 (s : State) (k : Nat) (u : Queue → Queue) : (modQueue s k u).time1 = s.time1 := rfl
@[simp] theorem modQueue_fuse (s : State) (k : Nat) (u : Queue → Queue) : (modQueue s k u).fuse = s.fuse := rfl
@[simp] theorem modQueue_started (s : State) (k : Nat) (u : Queue → Queue) : (modQueue s k u).started = s.started := rfl
@[simp] theorem modQueue_aliveLevel (s : State) (k : Nat) (u : Queue → Queue) : (modQueue s k u).aliveLevel = s.aliveLevel := rfl
@[simp] theorem modQueue_moduleDown (s : State) (k : Nat) (u : Queue → Queue) : (modQueue s k u).moduleDown = s.moduleDown := rfl
@[simp] theorem modQueue_sems (s : State) (k : Nat) (u : Queue → Queue) : (modQueue s k u).sems = s.sems := rfl
@[simp] theorem modQueue_semGrp (s : State) (k : Nat) (u : Queue → Queue) : (modQueue s k u).semGrp = s.semGrp := rfl
@[simp] theorem modQueue_own (s : State) (k : Nat) (u : Queue → Queue) : (modQueue s k u).own = s.own := rfl
@[simp] theorem modQueue_signals (s : State) (k : Nat) (u : Queue → Queue) : (modQueue s k u).signals = s.signals := rfl
@[simp] theorem modQueue_lcores (s : State) (k : Nat) (u : Queue → Queue) : (modQueue s k u).lcores = s.lcores := rfl
@[simp] theorem modQueue_positions (s : State) (k : Nat) (u : Queue → Queue) : (modQueue s k u).positions = s.positions := rfl
@[simp] theorem modQueue_halls (s : State) (k : Nat) (u : Queue → Queue) : (modQueue s k u).halls = s.halls := rfl
@[simp] theorem modQueue_hubs (s : State) (k : Nat) (u : Queue → Queue) : (modQueue s k u).hubs = s.hubs := rfl
@[simp] theorem modQueue_ports (s : State) (k : Nat) (u : Queue → Queue) : (modQueue s k u).ports = s.ports := rfl
@[simp] theorem modQueue_jobs (s : State) (k : Nat) (u : Queue → Queue) : (modQueue s k u).jobs = s.jobs := rfl
@[simp] theorem modQueue_slots (s : State) (k : Nat) (u : Queue → Queue) : (modQueue s k u).slots = s.slots := rfl
@[simp] theorem modQueue_stats (s : State) (k : Nat) (u : Queue → Queue) : (modQueue s k u).stats = s.stats := rfl
@[simp] theorem modQueue_miller (s : State) (k : Nat) (u : Queue → Queue) : (modQueue s k u).miller = s.miller := rfl
@[simp] theorem modQueue_chain (s : State) (k : Nat) (u : Queue → Queue) : (modQueue s k u).chain = s.chain := rfl
@[simp] theorem modQueue_power (s : State) (k : Nat) (u : Queue → Queue) : (modQueue s k u).power = s.power := rfl
@[simp] theorem modQueue_jtag (s : State) (k : Nat) (u : Queue → Queue) : (modQueue s k u).jtag = s.jtag := rfl
@[simp] theorem modQueue_timeCfg (s : State) (k : Nat) (u : Queue → Queue) : (modQueue s k u).timeCfg = s.timeCfg := rfl
@[simp] theorem modQueue_selfTest (s : State) (k : Nat) (u : Queue → Queue) : (modQueue s k u).selfTest = s.selfTest := rfl
@[simp] theorem modQueue_mem (s : State) (k : Nat) (u : Queue → Queue) : (modQueue s k u).mem = s.mem := rfl
@[simp] theorem modQueue_memErr (s : State) (k : Nat) (u : Queue → Queue) : (modQueue s k u).memErr = s.memErr := rfl
@[simp] theorem modQueue_outputs (s : State) (k : Nat) (u : Queue → Queue) : (modQueue s k u).outputs = s.outputs := rfl
@[simp] theorem modQueue_promotes (s : State) (k : Nat) (u : Queue → Queue) : (modQueue s k u).promotes = s.promotes := rfl
@[simp] theorem modQueue_series (s : State) (k : Nat) (u : Queue → Queue) : (modQueue s k u).series = s.series := rfl
@[simp] theorem modQueue_meshFault (s : State) (k : Nat) (u : Queue → Queue) : (modQueue s k u).meshFault = s.meshFault := rfl
@[simp] theorem modQueue_resent (s : State) (k : Nat) (u : Queue → Queue) : (modQueue s k u).resent = s.resent := rfl
@[simp] theorem modQueue_leafs (s : State) (k : Nat) (u : Queue → Queue) : (modQueue s k u).leafs = s.leafs := rfl
@[simp] theorem modQueue_hostMem (s : State) (k : Nat) (u : Queue → Queue) : (modQueue s k u).hostMem = s.hostMem := rfl
@[simp] theorem modQueue_hostRead (s : State) (k : Nat) (u : Queue → Queue) : (modQueue s k u).hostRead = s.hostRead := rfl
@[simp] theorem modQueue_hostReadPoison (s : State) (k : Nat) (u : Queue → Queue) : (modQueue s k u).hostReadPoison = s.hostReadPoison := rfl
@[simp] theorem modQueue_delivered (s : State) (k : Nat) (u : Queue → Queue) : (modQueue s k u).delivered = s.delivered := rfl
@[simp] theorem getSem_modQueue (s : State) (k : Nat) (u : Queue → Queue) (x : Nat) : getSem (modQueue s k u) x = getSem s x := rfl
@[simp] theorem getSemGrp_modQueue (s : State) (k : Nat) (u : Queue → Queue) (x : Nat) : getSemGrp (modQueue s k u) x = getSemGrp s x := rfl
@[simp] theorem getOwn_modQueue (s : State) (k : Nat) (u : Queue → Queue) (x : Nat) : getOwn (modQueue s k u) x = getOwn s x := rfl
@[simp] theorem getCore_modQueue (s : State) (k : Nat) (u : Queue → Queue) (x : Nat) : getCore (modQueue s k u) x = getCore s x := rfl
@[simp] theorem getPos_modQueue (s : State) (k : Nat) (u : Queue → Queue) (x : Nat) : getPos (modQueue s k u) x = getPos s x := rfl
@[simp] theorem getHall_modQueue (s : State) (k : Nat) (u : Queue → Queue) (x : Nat) : getHall (modQueue s k u) x = getHall s x := rfl
@[simp] theorem getHub_modQueue (s : State) (k : Nat) (u : Queue → Queue) (x : Nat) : getHub (modQueue s k u) x = getHub s x := rfl
@[simp] theorem getPort_modQueue (s : State) (k : Nat) (u : Queue → Queue) (x : Nat) : getPort (modQueue s k u) x = getPort s x := rfl
@[simp] theorem getJob_modQueue (s : State) (k : Nat) (u : Queue → Queue) (x : Nat) : getJob (modQueue s k u) x = getJob s x := rfl
theorem getQueue_modQueue_ne (s : State) {k x : Nat} (u : Queue → Queue) (h : x ≠ k) : getQueue (modQueue s k u) x = getQueue s x := tabGet_tabSet_ne _ _ _ h
theorem getQueue_modQueue_same (s : State) (k : Nat) (u : Queue → Queue) (h : tabWf ({} : Queue) s.queues = true) : getQueue (modQueue s k u) k = u (getQueue s k) := tabGet_tabSet_same h k _

/-! ## setSem -/

@[simp] theorem setSem_pending (s : State) (k : Nat) (v : Semaphore) : (setSem s k v).pending = s.pending := rfl
@[simp] theorem setSem_free (s : State) (k : Nat) (v : Semaphore) : (setSem s k v).free = s.free := rfl
@[simp] theorem setSem_order (s : State) (k : Nat) (v : Semaphore) : (setSem s k v).order = s.order := rfl
@[simp] theorem setSem_rate (s : State) (k : Nat) (v : Semaphore) : (setSem s k v).rate = s.rate := rfl
@[simp] theorem setSem_time (s : State) (k : Nat) (v : Semaphore) : (setSem s k v).time = s.time := rfl
@[simp] theorem setSem_time1 (s : State) (k : Nat) (v : Semaphore) : (setSem s k v).time1 = s.time1 := rfl
@[simp] theorem setSem_fuse (s : State) (k : Nat) (v : Semaphore) : (setSem s k v).fuse = s.fuse := rfl
@[simp] theorem setSem_started (s : State) (k : Nat) (v : Semaphore) : (setSem s k v).started = s.started := rfl
@[simp] theorem setSem_aliveLevel (s : State) (k : Nat) (v : Semaphore) : (setSem s k v).aliveLevel = s.aliveLevel := rfl
@[simp] theorem setSem_moduleDown (s : State) (k : Nat) (v : Semaphore) : (setSem s k v).moduleDown = s.moduleDown := rfl
@[simp] theorem setSem_queues (s : State) (k : Nat) (v : Semaphore) : (setSem s k v).queues = s.queues := rfl
@[simp] theorem setSem_semGrp (s : State) (k : Nat) (v : Semaphore) : (setSem s k v).semGrp = s.semGrp := rfl
@[simp] theorem setSem_own (s : State) (k : Nat) (v : Semaphore) : (setSem s k v).own = s.own := rfl
@[simp] theorem setSem_signals (s : State) (k : Nat) (v : Semaphore) : (setSem s k v).signals = s.signals := rfl
@[simp] theorem setSem_lcores (s : State) (k : Nat) (v : Semaphore) : (setSem s k v).lcores = s.lcores := rfl
@[simp] theorem setSem_positions (s : State) (k : Nat) (v : Semaphore) : (setSem s k v).positions = s.positions := rfl
@[simp] theorem setSem_halls (s : State) (k : Nat) (v : Semaphore) : (setSem s k v).halls = s.halls := rfl
@[simp] theorem setSem_hubs (s : State) (k : Nat) (v : Semaphore) : (setSem s k v).hubs = s.hubs := rfl
@[simp] theorem setSem_ports (s : State) (k : Nat) (v : Semaphore) : (setSem s k v).ports = s.ports := rfl
@[simp] theorem setSem_jobs (s : State) (k : Nat) (v : Semaphore) : (setSem s k v).jobs = s.jobs := rfl
@[simp] theorem setSem_slots (s : State) (k : Nat) (v : Semaphore) : (setSem s k v).slots = s.slots := rfl
@[simp] theorem setSem_stats (s : State) (k : Nat) (v : Semaphore) : (setSem s k v).stats = s.stats := rfl
@[simp] theorem setSem_miller (s : State) (k : Nat) (v : Semaphore) : (setSem s k v).miller = s.miller := rfl
@[simp] theorem setSem_chain (s : State) (k : Nat) (v : Semaphore) : (setSem s k v).chain = s.chain := rfl
@[simp] theorem setSem_power (s : State) (k : Nat) (v : Semaphore) : (setSem s k v).power = s.power := rfl
@[simp] theorem setSem_jtag (s : State) (k : Nat) (v : Semaphore) : (setSem s k v).jtag = s.jtag := rfl
@[simp] theorem setSem_timeCfg (s : State) (k : Nat) (v : Semaphore) : (setSem s k v).timeCfg = s.timeCfg := rfl
@[simp] theorem setSem_selfTest (s : State) (k : Nat) (v : Semaphore) : (setSem s k v).selfTest = s.selfTest := rfl
@[simp] theorem setSem_mem (s : State) (k : Nat) (v : Semaphore) : (setSem s k v).mem = s.mem := rfl
@[simp] theorem setSem_memErr (s : State) (k : Nat) (v : Semaphore) : (setSem s k v).memErr = s.memErr := rfl
@[simp] theorem setSem_outputs (s : State) (k : Nat) (v : Semaphore) : (setSem s k v).outputs = s.outputs := rfl
@[simp] theorem setSem_promotes (s : State) (k : Nat) (v : Semaphore) : (setSem s k v).promotes = s.promotes := rfl
@[simp] theorem setSem_series (s : State) (k : Nat) (v : Semaphore) : (setSem s k v).series = s.series := rfl
@[simp] theorem setSem_meshFault (s : State) (k : Nat) (v : Semaphore) : (setSem s k v).meshFault = s.meshFault := rfl
@[simp] theorem setSem_resent (s : State) (k : Nat) (v : Semaphore) : (setSem s k v).resent = s.resent := rfl
@[simp] theorem setSem_leafs (s : State) (k : Nat) (v : Semaphore) : (setSem s k v).leafs = s.leafs := rfl
@[simp] theorem setSem_hostMem (s : State) (k : Nat) (v : Semaphore) : (setSem s k v).hostMem = s.hostMem := rfl
@[simp] theorem setSem_hostRead (s : State) (k : Nat) (v : Semaphore) : (setSem s k v).hostRead = s.hostRead := rfl
@[simp] theorem setSem_hostReadPoison (s : State) (k : Nat) (v : Semaphore) : (setSem s k v).hostReadPoison = s.hostReadPoison := rfl
@[simp] theorem setSem_delivered (s : State) (k : Nat) (v : Semaphore) : (setSem s k v).delivered = s.delivered := rfl
@[simp] theorem setSem_sems (s : State) (k : Nat) (v : Semaphore) : (setSem s k v).sems = tabSet ({} : Semaphore) k v s.sems := rfl
@[simp] theorem getQueue_setSem (s : State) (k : Nat) (v : Semaphore) (x : Nat) : getQueue (setSem s k v) x = getQueue s x := rfl
@[simp] theorem getSemGrp_setSem (s : State) (k : Nat) (v : Semaphore) (x : Nat) : getSemGrp (setSem s k v) x = getSemGrp s x := rfl
@[simp] theorem getOwn_setSem (s : State) (k : Nat) (v : Semaphore) (x : Nat) : getOwn (setSem s k v) x = getOwn s x := rfl
@[simp] theorem getCore_setSem (s : State) (k : Nat) (v : Semaphore) (x : Nat) : getCore (setSem s k v) x = getCore s x := rfl
@[simp] theorem getPos_setSem (s : State) (k : Nat) (v : Semaphore) (x : Nat) : getPos (setSem s k v) x = getPos s x := rfl
@[simp] theorem getHall_setSem (s : State) (k : Nat) (v : Semaphore) (x : Nat) : getHall (setSem s k v) x = getHall s x := rfl
@[simp] theorem getHub_setSem (s : State) (k : Nat) (v : Semaphore) (x : Nat) : getHub (setSem s k v) x = getHub s x := rfl
@[simp] theorem getPort_setSem (s : State) (k : Nat) (v : Semaphore) (x : Nat) : getPort (setSem s k v) x = getPort s x := rfl
@[simp] theorem getJob_setSem (s : State) (k : Nat) (v : Semaphore) (x : Nat) : getJob (setSem s k v) x = getJob s x := rfl
theorem getSem_setSem_ne (s : State) {k x : Nat} (v : Semaphore) (h : x ≠ k) : getSem (setSem s k v) x = getSem s x := tabGet_tabSet_ne _ _ _ h
theorem getSem_setSem_same (s : State) (k : Nat) (v : Semaphore) (h : tabWf ({} : Semaphore) s.sems = true) : getSem (setSem s k v) k = v := tabGet_tabSet_same h k v

/-! ## setSemGrp -/

@[simp] theorem setSemGrp_pending (s : State) (k : Nat) (v : Owner) : (setSemGrp s k v).pending = s.pending := rfl
@[simp] theorem setSemGrp_free (s : State) (k : Nat) (v : Owner) : (setSemGrp s k v).free = s.free := rfl
@[simp] theorem setSemGrp_order (s : State) (k : Nat) (v : Owner) : (setSemGrp s k v).order = s.order := rfl
@[simp] theorem setSemGrp_rate (s : State) (k : Nat) (v : Owner) : (setSemGrp s k v).rate = s.rate := rfl
@[simp] theorem setSemGrp_time (s : State) (k : Nat) (v : Owner) : (setSemGrp s k v).time = s.time := rfl
@[simp] theorem setSemGrp_time1 (s : State) (k : Nat) (v : Owner) : (setSemGrp s k v).time1 = s.time1 := rfl
@[simp] theorem setSemGrp_fuse (s : State) (k : Nat) (v : Owner) : (setSemGrp s k v).fuse = s.fuse := rfl
@[simp] theorem setSemGrp_started (s : State) (k : Nat) (v : Owner) : (setSemGrp s k v).started = s.started := rfl
@[simp] theorem setSemGrp_aliveLevel (s : State) (k : Nat) (v : Owner) : (setSemGrp s k v).aliveLevel = s.aliveLevel := rfl
@[simp] theorem setSemGrp_moduleDown (s : State) (k : Nat) (v : Owner) : (setSemGrp s k v).moduleDown = s.moduleDown := rfl
@[simp] theorem setSemGrp_queues (s : State) (k : Nat) (v : Owner) : (setSemGrp s k v).queues = s.queues := rfl
@[simp] theorem setSemGrp_sems (s : State) (k : Nat) (v : Owner) : (setSemGrp s k v).sems = s.sems := rfl
@[simp] theorem setSemGrp_own (s : State) (k : Nat) (v : Owner) : (setSemGrp s k v).own = s.own := rfl
@[simp] theorem setSemGrp_signals (s : State) (k : Nat) (v : Owner) : (setSemGrp s k v).signals = s.signals := rfl
@[simp] theorem setSemGrp_lcores (s : State) (k : Nat) (v : Owner) : (setSemGrp s k v).lcores = s.lcores := rfl
@[simp] theorem setSemGrp_positions (s : State) (k : Nat) (v : Owner) : (setSemGrp s k v).positions = s.positions := rfl
@[simp] theorem setSemGrp_halls (s : State) (k : Nat) (v : Owner) : (setSemGrp s k v).halls = s.halls := rfl
@[simp] theorem setSemGrp_hubs (s : State) (k : Nat) (v : Owner) : (setSemGrp s k v).hubs = s.hubs := rfl
@[simp] theorem setSemGrp_ports (s : State) (k : Nat) (v : Owner) : (setSemGrp s k v).ports = s.ports := rfl
@[simp] theorem setSemGrp_jobs (s : State) (k : Nat) (v : Owner) : (setSemGrp s k v).jobs = s.jobs := rfl
@[simp] theorem setSemGrp_slots (s : State) (k : Nat) (v : Owner) : (setSemGrp s k v).slots = s.slots := rfl
@[simp] theorem setSemGrp_stats (s : State) (k : Nat) (v : Owner) : (setSemGrp s k v).stats = s.stats := rfl
@[simp] theorem setSemGrp_miller (s : State) (k : Nat) (v : Owner) : (setSemGrp s k v).miller = s.miller := rfl
@[simp] theorem setSemGrp_chain (s : State) (k : Nat) (v : Owner) : (setSemGrp s k v).chain = s.chain := rfl
@[simp] theorem setSemGrp_power (s : State) (k : Nat) (v : Owner) : (setSemGrp s k v).power = s.power := rfl
@[simp] theorem setSemGrp_jtag (s : State) (k : Nat) (v : Owner) : (setSemGrp s k v).jtag = s.jtag := rfl
@[simp] theorem setSemGrp_timeCfg (s : State) (k : Nat) (v : Owner) : (setSemGrp s k v).timeCfg = s.timeCfg := rfl
@[simp] theorem setSemGrp_selfTest (s : State) (k : Nat) (v : Owner) : (setSemGrp s k v).selfTest = s.selfTest := rfl
@[simp] theorem setSemGrp_mem (s : State) (k : Nat) (v : Owner) : (setSemGrp s k v).mem = s.mem := rfl
@[simp] theorem setSemGrp_memErr (s : State) (k : Nat) (v : Owner) : (setSemGrp s k v).memErr = s.memErr := rfl
@[simp] theorem setSemGrp_outputs (s : State) (k : Nat) (v : Owner) : (setSemGrp s k v).outputs = s.outputs := rfl
@[simp] theorem setSemGrp_promotes (s : State) (k : Nat) (v : Owner) : (setSemGrp s k v).promotes = s.promotes := rfl
@[simp] theorem setSemGrp_series (s : State) (k : Nat) (v : Owner) : (setSemGrp s k v).series = s.series := rfl
@[simp] theorem setSemGrp_meshFault (s : State) (k : Nat) (v : Owner) : (setSemGrp s k v).meshFault = s.meshFault := rfl
@[simp] theorem setSemGrp_resent (s : State) (k : Nat) (v : Owner) : (setSemGrp s k v).resent = s.resent := rfl
@[simp] theorem setSemGrp_leafs (s : State) (k : Nat) (v : Owner) : (setSemGrp s k v).leafs = s.leafs := rfl
@[simp] theorem setSemGrp_hostMem (s : State) (k : Nat) (v : Owner) : (setSemGrp s k v).hostMem = s.hostMem := rfl
@[simp] theorem setSemGrp_hostRead (s : State) (k : Nat) (v : Owner) : (setSemGrp s k v).hostRead = s.hostRead := rfl
@[simp] theorem setSemGrp_hostReadPoison (s : State) (k : Nat) (v : Owner) : (setSemGrp s k v).hostReadPoison = s.hostReadPoison := rfl
@[simp] theorem setSemGrp_delivered (s : State) (k : Nat) (v : Owner) : (setSemGrp s k v).delivered = s.delivered := rfl
@[simp] theorem setSemGrp_semGrp (s : State) (k : Nat) (v : Owner) : (setSemGrp s k v).semGrp = tabSet ({} : Owner) k v s.semGrp := rfl
@[simp] theorem getQueue_setSemGrp (s : State) (k : Nat) (v : Owner) (x : Nat) : getQueue (setSemGrp s k v) x = getQueue s x := rfl
@[simp] theorem getSem_setSemGrp (s : State) (k : Nat) (v : Owner) (x : Nat) : getSem (setSemGrp s k v) x = getSem s x := rfl
@[simp] theorem getOwn_setSemGrp (s : State) (k : Nat) (v : Owner) (x : Nat) : getOwn (setSemGrp s k v) x = getOwn s x := rfl
@[simp] theorem getCore_setSemGrp (s : State) (k : Nat) (v : Owner) (x : Nat) : getCore (setSemGrp s k v) x = getCore s x := rfl
@[simp] theorem getPos_setSemGrp (s : State) (k : Nat) (v : Owner) (x : Nat) : getPos (setSemGrp s k v) x = getPos s x := rfl
@[simp] theorem getHall_setSemGrp (s : State) (k : Nat) (v : Owner) (x : Nat) : getHall (setSemGrp s k v) x = getHall s x := rfl
@[simp] theorem getHub_setSemGrp (s : State) (k : Nat) (v : Owner) (x : Nat) : getHub (setSemGrp s k v) x = getHub s x := rfl
@[simp] theorem getPort_setSemGrp (s : State) (k : Nat) (v : Owner) (x : Nat) : getPort (setSemGrp s k v) x = getPort s x := rfl
@[simp] theorem getJob_setSemGrp (s : State) (k : Nat) (v : Owner) (x : Nat) : getJob (setSemGrp s k v) x = getJob s x := rfl
theorem getSemGrp_setSemGrp_ne (s : State) {k x : Nat} (v : Owner) (h : x ≠ k) : getSemGrp (setSemGrp s k v) x = getSemGrp s x := tabGet_tabSet_ne _ _ _ h
theorem getSemGrp_setSemGrp_same (s : State) (k : Nat) (v : Owner) (h : tabWf ({} : Owner) s.semGrp = true) : getSemGrp (setSemGrp s k v) k = v := tabGet_tabSet_same h k v

/-! ## setOwn -/

@[simp] theorem setOwn_pending (s : State) (k : Nat) (v : Owner) : (setOwn s k v).pending = s.pending := rfl
@[simp] theorem setOwn_free (s : State) (k : Nat) (v : Owner) : (setOwn s k v).free = s.free := rfl
@[simp] theorem setOwn_order (s : State) (k : Nat) (v : Owner) : (setOwn s k v).order = s.order := rfl
@[simp] theorem setOwn_rate (s : State) (k : Nat) (v : Owner) : (setOwn s k v).rate = s.rate := rfl
@[simp] theorem setOwn_time (s : State) (k : Nat) (v : Owner) : (setOwn s k v).time = s.time := rfl
@[simp] theorem setOwn_time1 (s : State) (k : Nat) (v : Owner) : (setOwn s k v).time1 = s.time1 := rfl
@[simp] theorem setOwn_fuse (s : State) (k : Nat) (v : Owner) : (setOwn s k v).fuse = s.fuse := rfl
@[simp] theorem setOwn_started (s : State) (k : Nat) (v : Owner) : (setOwn s k v).started = s.started := rfl
@[simp] theorem setOwn_aliveLevel (s : State) (k : Nat) (v : Owner) : (setOwn s k v).aliveLevel = s.aliveLevel := rfl
@[simp] theorem setOwn_moduleDown (s : State) (k : Nat) (v : Owner) : (setOwn s k v).moduleDown = s.moduleDown := rfl
@[simp] theorem setOwn_queues (s : State) (k : Nat) (v : Owner) : (setOwn s k v).queues = s.queues := rfl
@[simp] theorem setOwn_sems (s : State) (k : Nat) (v : Owner) : (setOwn s k v).sems = s.sems := rfl
@[simp] theorem setOwn_semGrp (s : State) (k : Nat) (v : Owner) : (setOwn s k v).semGrp = s.semGrp := rfl
@[simp] theorem setOwn_signals (s : State) (k : Nat) (v : Owner) : (setOwn s k v).signals = s.signals := rfl
@[simp] theorem setOwn_lcores (s : State) (k : Nat) (v : Owner) : (setOwn s k v).lcores = s.lcores := rfl
@[simp] theorem setOwn_positions (s : State) (k : Nat) (v : Owner) : (setOwn s k v).positions = s.positions := rfl
@[simp] theorem setOwn_halls (s : State) (k : Nat) (v : Owner) : (setOwn s k v).halls = s.halls := rfl
@[simp] theorem setOwn_hubs (s : State) (k : Nat) (v : Owner) : (setOwn s k v).hubs = s.hubs := rfl
@[simp] theorem setOwn_ports (s : State) (k : Nat) (v : Owner) : (setOwn s k v).ports = s.ports := rfl
@[simp] theorem setOwn_jobs (s : State) (k : Nat) (v : Owner) : (setOwn s k v).jobs = s.jobs := rfl
@[simp] theorem setOwn_slots (s : State) (k : Nat) (v : Owner) : (setOwn s k v).slots = s.slots := rfl
@[simp] theorem setOwn_stats (s : State) (k : Nat) (v : Owner) : (setOwn s k v).stats = s.stats := rfl
@[simp] theorem setOwn_miller (s : State) (k : Nat) (v : Owner) : (setOwn s k v).miller = s.miller := rfl
@[simp] theorem setOwn_chain (s : State) (k : Nat) (v : Owner) : (setOwn s k v).chain = s.chain := rfl
@[simp] theorem setOwn_power (s : State) (k : Nat) (v : Owner) : (setOwn s k v).power = s.power := rfl
@[simp] theorem setOwn_jtag (s : State) (k : Nat) (v : Owner) : (setOwn s k v).jtag = s.jtag := rfl
@[simp] theorem setOwn_timeCfg (s : State) (k : Nat) (v : Owner) : (setOwn s k v).timeCfg = s.timeCfg := rfl
@[simp] theorem setOwn_selfTest (s : State) (k : Nat) (v : Owner) : (setOwn s k v).selfTest = s.selfTest := rfl
@[simp] theorem setOwn_mem (s : State) (k : Nat) (v : Owner) : (setOwn s k v).mem = s.mem := rfl
@[simp] theorem setOwn_memErr (s : State) (k : Nat) (v : Owner) : (setOwn s k v).memErr = s.memErr := rfl
@[simp] theorem setOwn_outputs (s : State) (k : Nat) (v : Owner) : (setOwn s k v).outputs = s.outputs := rfl
@[simp] theorem setOwn_promotes (s : State) (k : Nat) (v : Owner) : (setOwn s k v).promotes = s.promotes := rfl
@[simp] theorem setOwn_series (s : State) (k : Nat) (v : Owner) : (setOwn s k v).series = s.series := rfl
@[simp] theorem setOwn_meshFault (s : State) (k : Nat) (v : Owner) : (setOwn s k v).meshFault = s.meshFault := rfl
@[simp] theorem setOwn_resent (s : State) (k : Nat) (v : Owner) : (setOwn s k v).resent = s.resent := rfl
@[simp] theorem setOwn_leafs (s : State) (k : Nat) (v : Owner) : (setOwn s k v).leafs = s.leafs := rfl
@[simp] theorem setOwn_hostMem (s : State) (k : Nat) (v : Owner) : (setOwn s k v).hostMem = s.hostMem := rfl
@[simp] theorem setOwn_hostRead (s : State) (k : Nat) (v : Owner) : (setOwn s k v).hostRead = s.hostRead := rfl
@[simp] theorem setOwn_hostReadPoison (s : State) (k : Nat) (v : Owner) : (setOwn s k v).hostReadPoison = s.hostReadPoison := rfl
@[simp] theorem setOwn_delivered (s : State) (k : Nat) (v : Owner) : (setOwn s k v).delivered = s.delivered := rfl
@[simp] theorem setOwn_own (s : State) (k : Nat) (v : Owner) : (setOwn s k v).own = tabSet ({} : Owner) k v s.own := rfl
@[simp] theorem getQueue_setOwn (s : State) (k : Nat) (v : Owner) (x : Nat) : getQueue (setOwn s k v) x = getQueue s x := rfl
@[simp] theorem getSem_setOwn (s : State) (k : Nat) (v : Owner) (x : Nat) : getSem (setOwn s k v) x = getSem s x := rfl
@[simp] theorem getSemGrp_setOwn (s : State) (k : Nat) (v : Owner) (x : Nat) : getSemGrp (setOwn s k v) x = getSemGrp s x := rfl
@[simp] theorem getCore_setOwn (s : State) (k : Nat) (v : Owner) (x : Nat) : getCore (setOwn s k v) x = getCore s x := rfl
@[simp] theorem getPos_setOwn (s : State) (k : Nat) (v : Owner) (x : Nat) : getPos (setOwn s k v) x = getPos s x := rfl
@[simp] theorem getHall_setOwn (s : State) (k : Nat) (v : Owner) (x : Nat) : getHall (setOwn s k v) x = getHall s x := rfl
@[simp] theorem getHub_setOwn (s : State) (k : Nat) (v : Owner) (x : Nat) : getHub (setOwn s k v) x = getHub s x := rfl
@[simp] theorem getPort_setOwn (s : State) (k : Nat) (v : Owner) (x : Nat) : getPort (setOwn s k v) x = getPort s x := rfl
@[simp] theorem getJob_setOwn (s : State) (k : Nat) (v : Owner) (x : Nat) : getJob (setOwn s k v) x = getJob s x := rfl
theorem getOwn_setOwn_ne (s : State) {k x : Nat} (v : Owner) (h : x ≠ k) : getOwn (setOwn s k v) x = getOwn s x := tabGet_tabSet_ne _ _ _ h
theorem getOwn_setOwn_same (s : State) (k : Nat) (v : Owner) (h : tabWf ({} : Owner) s.own = true) : getOwn (setOwn s k v) k = v := tabGet_tabSet_same h k v

/-! ## setCore -/

@[simp] theorem setCore_pending (s : State) (k : Nat) (v : LCore) : (setCore s k v).pending = s.pending := rfl
@[simp] theorem setCore_free (s : State) (k : Nat) (v : LCore) : (setCore s k v).free = s.free := rfl
@[simp] theorem setCore_order (s : State) (k : Nat) (v : LCore) : (setCore s k v).order = s.order := rfl
@[simp] theorem setCore_rate (s : State) (k : Nat) (v : LCore) : (setCore s k v).rate = s.rate := rfl
@[simp] theorem setCore_time (s : State) (k : Nat) (v : LCore) : (setCore s k v).time = s.time := rfl
@[simp] theorem setCore_time1 (s : State) (k : Nat) (v : LCore) : (setCore s k v).time1 = s.time1 := rfl
@[simp] theorem setCore_fuse (s : State) (k : Nat) (v : LCore) : (setCore s k v).fuse = s.fuse := rfl
@[simp] theorem setCore_started (s : State) (k : Nat) (v : LCore) : (setCore s k v).started = s.started := rfl
@[simp] theorem setCore_aliveLevel (s : State) (k : Nat) (v : LCore) : (setCore s k v).aliveLevel = s.aliveLevel := rfl
@[simp] theorem setCore_moduleDown (s : State) (k : Nat) (v : LCore) : (setCore s k v).moduleDown = s.moduleDown := rfl
@[simp] theorem setCore_queues (s : State) (k : Nat) (v : LCore) : (setCore s k v).queues = s.queues := rfl
@[simp] theorem setCore_sems (s : State) (k : Nat) (v : LCore) : (setCore s k v).sems = s.sems := rfl
@[simp] theorem setCore_semGrp (s : State) (k : Nat) (v : LCore) : (setCore s k v).semGrp = s.semGrp := rfl
@[simp] theorem setCore_own (s : State) (k : Nat) (v : LCore) : (setCore s k v).own = s.own := rfl
@[simp] theorem setCore_signals (s : State) (k : Nat) (v : LCore) : (setCore s k v).signals = s.signals := rfl
@[simp] theorem setCore_positions (s : State) (k : Nat) (v : LCore) : (setCore s k v).positions = s.positions := rfl
@[simp] theorem setCore_halls (s : State) (k : Nat) (v : LCore) : (setCore s k v).halls = s.halls := rfl
@[simp] theorem setCore_hubs (s : State) (k : Nat) (v : LCore) : (setCore s k v).hubs = s.hubs := rfl
@[simp] theorem setCore_ports (s : State) (k : Nat) (v : LCore) : (setCore s k v).ports = s.ports := rfl
@[simp] theorem setCore_jobs (s : State) (k : Nat) (v : LCore) : (setCore s k v).jobs = s.jobs := rfl
@[simp] theorem setCore_slots (s : State) (k : Nat) (v : LCore) : (setCore s k v).slots = s.slots := rfl
@[simp] theorem setCore_stats (s : State) (k : Nat) (v : LCore) : (setCore s k v).stats = s.stats := rfl
@[simp] theorem setCore_miller (s : State) (k : Nat) (v : LCore) : (setCore s k v).miller = s.miller := rfl
@[simp] theorem setCore_chain (s : State) (k : Nat) (v : LCore) : (setCore s k v).chain = s.chain := rfl
@[simp] theorem setCore_power (s : State) (k : Nat) (v : LCore) : (setCore s k v).power = s.power := rfl
@[simp] theorem setCore_jtag (s : State) (k : Nat) (v : LCore) : (setCore s k v).jtag = s.jtag := rfl
@[simp] theorem setCore_timeCfg (s : State) (k : Nat) (v : LCore) : (setCore s k v).timeCfg = s.timeCfg := rfl
@[simp] theorem setCore_selfTest (s : State) (k : Nat) (v : LCore) : (setCore s k v).selfTest = s.selfTest := rfl
@[simp] theorem setCore_mem (s : State) (k : Nat) (v : LCore) : (setCore s k v).mem = s.mem := rfl
@[simp] theorem setCore_memErr (s : State) (k : Nat) (v : LCore) : (setCore s k v).memErr = s.memErr := rfl
@[simp] theorem setCore_outputs (s : State) (k : Nat) (v : LCore) : (setCore s k v).outputs = s.outputs := rfl
@[simp] theorem setCore_promotes (s : State) (k : Nat) (v : LCore) : (setCore s k v).promotes = s.promotes := rfl
@[simp] theorem setCore_series (s : State) (k : Nat) (v : LCore) : (setCore s k v).series = s.series := rfl
@[simp] theorem setCore_meshFault (s : State) (k : Nat) (v : LCore) : (setCore s k v).meshFault = s.meshFault := rfl
@[simp] theorem setCore_resent (s : State) (k : Nat) (v : LCore) : (setCore s k v).resent = s.resent := rfl
@[simp] theorem setCore_leafs (s : State) (k : Nat) (v : LCore) : (setCore s k v).leafs = s.leafs := rfl
@[simp] theorem setCore_hostMem (s : State) (k : Nat) (v : LCore) : (setCore s k v).hostMem = s.hostMem := rfl
@[simp] theorem setCore_hostRead (s : State) (k : Nat) (v : LCore) : (setCore s k v).hostRead = s.hostRead := rfl
@[simp] theorem setCore_hostReadPoison (s : State) (k : Nat) (v : LCore) : (setCore s k v).hostReadPoison = s.hostReadPoison := rfl
@[simp] theorem setCore_delivered (s : State) (k : Nat) (v : LCore) : (setCore s k v).delivered = s.delivered := rfl
@[simp] theorem setCore_lcores (s : State) (k : Nat) (v : LCore) : (setCore s k v).lcores = tabSet ({} : LCore) k v s.lcores := rfl
@[simp] theorem getQueue_setCore (s : State) (k : Nat) (v : LCore) (x : Nat) : getQueue (setCore s k v) x = getQueue s x := rfl
@[simp] theorem getSem_setCore (s : State) (k : Nat) (v : LCore) (x : Nat) : getSem (setCore s k v) x = getSem s x := rfl
@[simp] theorem getSemGrp_setCore (s : State) (k : Nat) (v : LCore) (x : Nat) : getSemGrp (setCore s k v) x = getSemGrp s x := rfl
@[simp] theorem getOwn_setCore (s : State) (k : Nat) (v : LCore) (x : Nat) : getOwn (setCore s k v) x = getOwn s x := rfl
@[simp] theorem getPos_setCore (s : State) (k : Nat) (v : LCore) (x : Nat) : getPos (setCore s k v) x = getPos s x := rfl
@[simp] theorem getHall_setCore (s : State) (k : Nat) (v : LCore) (x : Nat) : getHall (setCore s k v) x = getHall s x := rfl
@[simp] theorem getHub_setCore (s : State) (k : Nat) (v : LCore) (x : Nat) : getHub (setCore s k v) x = getHub s x := rfl
@[simp] theorem getPort_setCore (s : State) (k : Nat) (v : LCore) (x : Nat) : getPort (setCore s k v) x = getPort s x := rfl
@[simp] theorem getJob_setCore (s : State) (k : Nat) (v : LCore) (x : Nat) : getJob (setCore s k v) x = getJob s x := rfl
theorem getCore_setCore_ne (s : State) {k x : Nat} (v : LCore) (h : x ≠ k) : getCore (setCore s k v) x = getCore s x := tabGet_tabSet_ne _ _ _ h
theorem getCore_setCore_same (s : State) (k : Nat) (v : LCore) (h : tabWf ({} : LCore) s.lcores = true) : getCore (setCore s k v) k = v := tabGet_tabSet_same h k v
@[simp] theorem modCore_pending (s : State) (k : Nat) (u : LCore → LCore) : (modCore s k u).pending = s.pending := rfl
@[simp] theorem modCore_free (s : State) (k : Nat) (u : LCore → LCore) : (modCore s k u).free = s.free := rfl
@[simp] theorem modCore_order (s : State) (k : Nat) (u : LCore → LCore) : (modCore s k u).order = s.order := rfl
@[simp] theorem modCore_rate (s : State) (k : Nat) (u : LCore → LCore) : (modCore s k u).rate = s.rate := rfl
@[simp] theorem modCore_time (s : State) (k : Nat) (u : LCore → LCore) : (modCore s k u).time = s.time := rfl
@[simp] theorem modCore_time1 (s : State) (k : Nat) (u : LCore → LCore) : (modCore s k u).time1 = s.time1 := rfl
@[simp] theorem modCore_fuse (s : State) (k : Nat) (u : LCore → LCore) : (modCore s k u).fuse = s.fuse := rfl
@[simp] theorem modCore_started (s : State) (k : Nat) (u : LCore → LCore) : (modCore s k u).started = s.started := rfl
@[simp] theorem modCore_aliveLevel (s : State) (k : Nat) (u : LCore → LCore) : (modCore s k u).aliveLevel = s.aliveLevel := rfl
@[simp] theorem modCore_moduleDown (s : State) (k : Nat) (u : LCore → LCore) : (modCore s k u).moduleDown = s.moduleDown := rfl
@[simp] theorem modCore_queues (s : State) (k : Nat) (u : LCore → LCore) : (modCore s k u).queues = s.queues := rfl
@[simp] theorem modCore_sems (s : State) (k : Nat) (u : LCore → LCore) : (modCore s k u).sems = s.sems := rfl
@[simp] theorem modCore_semGrp (s : State) (k : Nat) (u : LCore → LCore) : (modCore s k u).semGrp = s.semGrp := rfl
@[simp] theorem modCore_own (s : State) (k : Nat) (u : LCore → LCore) : (modCore s k u).own = s.own := rfl
@[simp] theorem modCore_signals (s : State) (k : Nat) (u : LCore → LCore) : (modCore s k u).signals = s.signals := rfl
@[simp] theorem modCore_positions (s : State) (k : Nat) (u : LCore → LCore) : (modCore s k u).positions = s.positions := rfl
@[simp] theorem modCore_halls (s : State) (k : Nat) (u : LCore → LCore) : (modCore s k u).halls = s.halls := rfl
@[simp] theorem modCore_hubs (s : State) (k : Nat) (u : LCore → LCore) : (modCore s k u).hubs = s.hubs := rfl
@[simp] theorem modCore_ports (s : State) (k : Nat) (u : LCore → LCore) : (modCore s k u).ports = s.ports := rfl
@[simp] theorem modCore_jobs (s : State) (k : Nat) (u : LCore → LCore) : (modCore s k u).jobs = s.jobs := rfl
@[simp] theorem modCore_slots (s : State) (k : Nat) (u : LCore → LCore) : (modCore s k u).slots = s.slots := rfl
@[simp] theorem modCore_stats (s : State) (k : Nat) (u : LCore → LCore) : (modCore s k u).stats = s.stats := rfl
@[simp] theorem modCore_miller (s : State) (k : Nat) (u : LCore → LCore) : (modCore s k u).miller = s.miller := rfl
@[simp] theorem modCore_chain (s : State) (k : Nat) (u : LCore → LCore) : (modCore s k u).chain = s.chain := rfl
@[simp] theorem modCore_power (s : State) (k : Nat) (u : LCore → LCore) : (modCore s k u).power = s.power := rfl
@[simp] theorem modCore_jtag (s : State) (k : Nat) (u : LCore → LCore) : (modCore s k u).jtag = s.jtag := rfl
@[simp] theorem modCore_timeCfg (s : State) (k : Nat) (u : LCore → LCore) : (modCore s k u).timeCfg = s.timeCfg := rfl
@[simp] theorem modCore_selfTest (s : State) (k : Nat) (u : LCore → LCore) : (modCore s k u).selfTest = s.selfTest := rfl
@[simp] theorem modCore_mem (s : State) (k : Nat) (u : LCore → LCore) : (modCore s k u).mem = s.mem := rfl
@[simp] theorem modCore_memErr (s : State) (k : Nat) (u : LCore → LCore) : (modCore s k u).memErr = s.memErr := rfl
@[simp] theorem modCore_outputs (s : State) (k : Nat) (u : LCore → LCore) : (modCore s k u).outputs = s.outputs := rfl
@[simp] theorem modCore_promotes (s : State) (k : Nat) (u : LCore → LCore) : (modCore s k u).promotes = s.promotes := rfl
@[simp] theorem modCore_series (s : State) (k : Nat) (u : LCore → LCore) : (modCore s k u).series = s.series := rfl
@[simp] theorem modCore_meshFault (s : State) (k : Nat) (u : LCore → LCore) : (modCore s k u).meshFault = s.meshFault := rfl
@[simp] theorem modCore_resent (s : State) (k : Nat) (u : LCore → LCore) : (modCore s k u).resent = s.resent := rfl
@[simp] theorem modCore_leafs (s : State) (k : Nat) (u : LCore → LCore) : (modCore s k u).leafs = s.leafs := rfl
@[simp] theorem modCore_hostMem (s : State) (k : Nat) (u : LCore → LCore) : (modCore s k u).hostMem = s.hostMem := rfl
@[simp] theorem modCore_hostRead (s : State) (k : Nat) (u : LCore → LCore) : (modCore s k u).hostRead = s.hostRead := rfl
@[simp] theorem modCore_hostReadPoison (s : State) (k : Nat) (u : LCore → LCore) : (modCore s k u).hostReadPoison = s.hostReadPoison := rfl
@[simp] theorem modCore_delivered (s : State) (k : Nat) (u : LCore → LCore) : (modCore s k u).delivered = s.delivered := rfl
@[simp] theorem getQueue_modCore (s : State) (k : Nat) (u : LCore → LCore) (x : Nat) : getQueue (modCore s k u) x = getQueue s x := rfl
@[simp] theorem getSem_modCore (s : State) (k : Nat) (u : LCore → LCore) (x : Nat) : getSem (modCore s k u) x = getSem s x := rfl
@[simp] theorem getSemGrp_modCore (s : State) (k : Nat) (u : LCore → LCore) (x : Nat) : getSemGrp (modCore s k u) x = getSemGrp s x := rfl
@[simp] theorem getOwn_modCore (s : State) (k : Nat) (u : LCore → LCore) (x : Nat) : getOwn (modCore s k u) x = getOwn s x := rfl
@[simp] theorem getPos_modCore (s : State) (k : Nat) (u : LCore → LCore) (x : Nat) : getPos (modCore s k u) x = getPos s x := rfl
@[simp] theorem getHall_modCore (s : State) (k : Nat) (u : LCore → LCore) (x : Nat) : getHall (modCore s k u) x = getHall s x := rfl
@[simp] theorem getHub_modCore (s : State) (k : Nat) (u : LCore → LCore) (x : Nat) : getHub (modCore s k u) x = getHub s x := rfl
@[simp] theorem getPort_modCore (s : State) (k : Nat) (u : LCore → LCore) (x : Nat) : getPort (modCore s k u) x = getPort s x := rfl
@[simp] theorem getJob_modCore (s : State) (k : Nat) (u : LCore → LCore) (x : Nat) : getJob (modCore s k u) x = getJob s x := rfl
theorem getCore_modCore_ne (s : State) {k x : Nat} (u : LCore → LCore) (h : x ≠ k) : getCore (modCore s k u) x = getCore s x := tabGet_tabSet_ne _ _ _ h
theorem getCore_modCore_same (s : State) (k : Nat) (u : LCore → LCore) (h : tabWf ({} : LCore) s.lcores = true) : getCore (modCore s k u) k = u (getCore s k) := tabGet_tabSet_same h k _

/-! ## setPos -/

@[simp] theorem setPos_pending (s : State) (k : Nat) (v : Position) : (setPos s k v).pending = s.pending := rfl
@[simp] theorem setPos_free (s : State) (k : Nat) (v : Position) : (setPos s k v).free = s.free := rfl
@[simp] theorem setPos_order (s : State) (k : Nat) (v : Position) : (setPos s k v).order = s.order := rfl
@[simp] theorem setPos_rate (s : State) (k : Nat) (v : Position) : (setPos s k v).rate = s.rate := rfl
@[simp] theorem setPos_time (s : State) (k : Nat) (v : Position) : (setPos s k v).time = s.time := rfl
@[simp] theorem setPos_time1 (s : State) (k : Nat) (v : Position) : (setPos s k v).time1 = s.time1 := rfl
@[simp] theorem setPos_fuse (s : State) (k : Nat) (v : Position) : (setPos s k v).fuse = s.fuse := rfl
@[simp] theorem setPos_started (s : State) (k : Nat) (v : Position) : (setPos s k v).started = s.started := rfl
@[simp] theorem setPos_aliveLevel (s : State) (k : Nat) (v : Position) : (setPos s k v).aliveLevel = s.aliveLevel := rfl
@[simp] theorem setPos_moduleDown (s : State) (k : Nat) (v : Position) : (setPos s k v).moduleDown = s.moduleDown := rfl
@[simp] theorem setPos_queues (s : State) (k : Nat) (v : Position) : (setPos s k v).queues = s.queues := rfl
@[simp] theorem setPos_sems (s : State) (k : Nat) (v : Position) : (setPos s k v).sems = s.sems := rfl
@[simp] theorem setPos_semGrp (s : State) (k : Nat) (v : Position) : (setPos s k v).semGrp = s.semGrp := rfl
@[simp] theorem setPos_own (s : State) (k : Nat) (v : Position) : (setPos s k v).own = s.own := rfl
@[simp] theorem setPos_signals (s : State) (k : Nat) (v : Position) : (setPos s k v).signals = s.signals := rfl
@[simp] theorem setPos_lcores (s : State) (k : Nat) (v : Position) : (setPos s k v).lcores = s.lcores := rfl
@[simp] theorem setPos_halls (s : State) (k : Nat) (v : Position) : (setPos s k v).halls = s.halls := rfl
@[simp] theorem setPos_hubs (s : State) (k : Nat) (v : Position) : (setPos s k v).hubs = s.hubs := rfl
@[simp] theorem setPos_ports (s : State) (k : Nat) (v : Position) : (setPos s k v).ports = s.ports := rfl
@[simp] theorem setPos_jobs (s : State) (k : Nat) (v : Position) : (setPos s k v).jobs = s.jobs := rfl
@[simp] theorem setPos_slots (s : State) (k : Nat) (v : Position) : (setPos s k v).slots = s.slots := rfl
@[simp] theorem setPos_stats (s : State) (k : Nat) (v : Position) : (setPos s k v).stats = s.stats := rfl
@[simp] theorem setPos_miller (s : State) (k : Nat) (v : Position) : (setPos s k v).miller = s.miller := rfl
@[simp] theorem setPos_chain (s : State) (k : Nat) (v : Position) : (setPos s k v).chain = s.chain := rfl
@[simp] theorem setPos_power (s : State) (k : Nat) (v : Position) : (setPos s k v).power = s.power := rfl
@[simp] theorem setPos_jtag (s : State) (k : Nat) (v : Position) : (setPos s k v).jtag = s.jtag := rfl
@[simp] theorem setPos_timeCfg (s : State) (k : Nat) (v : Position) : (setPos s k v).timeCfg = s.timeCfg := rfl
@[simp] theorem setPos_selfTest (s : State) (k : Nat) (v : Position) : (setPos s k v).selfTest = s.selfTest := rfl
@[simp] theorem setPos_mem (s : State) (k : Nat) (v : Position) : (setPos s k v).mem = s.mem := rfl
@[simp] theorem setPos_memErr (s : State) (k : Nat) (v : Position) : (setPos s k v).memErr = s.memErr := rfl
@[simp] theorem setPos_outputs (s : State) (k : Nat) (v : Position) : (setPos s k v).outputs = s.outputs := rfl
@[simp] theorem setPos_promotes (s : State) (k : Nat) (v : Position) : (setPos s k v).promotes = s.promotes := rfl
@[simp] theorem setPos_series (s : State) (k : Nat) (v : Position) : (setPos s k v).series = s.series := rfl
@[simp] theorem setPos_meshFault (s : State) (k : Nat) (v : Position) : (setPos s k v).meshFault = s.meshFault := rfl
@[simp] theorem setPos_resent (s : State) (k : Nat) (v : Position) : (setPos s k v).resent = s.resent := rfl
@[simp] theorem setPos_leafs (s : State) (k : Nat) (v : Position) : (setPos s k v).leafs = s.leafs := rfl
@[simp] theorem setPos_hostMem (s : State) (k : Nat) (v : Position) : (setPos s k v).hostMem = s.hostMem := rfl
@[simp] theorem setPos_hostRead (s : State) (k : Nat) (v : Position) : (setPos s k v).hostRead = s.hostRead := rfl
@[simp] theorem setPos_hostReadPoison (s : State) (k : Nat) (v : Position) : (setPos s k v).hostReadPoison = s.hostReadPoison := rfl
@[simp] theorem setPos_delivered (s : State) (k : Nat) (v : Position) : (setPos s k v).delivered = s.delivered := rfl
@[simp] theorem setPos_positions (s : State) (k : Nat) (v : Position) : (setPos s k v).positions = tabSet ({} : Position) k v s.positions := rfl
@[simp] theorem getQueue_setPos (s : State) (k : Nat) (v : Position) (x : Nat) : getQueue (setPos s k v) x = getQueue s x := rfl
@[simp] theorem getSem_setPos (s : State) (k : Nat) (v : Position) (x : Nat) : getSem (setPos s k v) x = getSem s x := rfl
@[simp] theorem getSemGrp_setPos (s : State) (k : Nat) (v : Position) (x : Nat) : getSemGrp (setPos s k v) x = getSemGrp s x := rfl
@[simp] theorem getOwn_setPos (s : State) (k : Nat) (v : Position) (x : Nat) : getOwn (setPos s k v) x = getOwn s x := rfl
@[simp] theorem getCore_setPos (s : State) (k : Nat) (v : Position) (x : Nat) : getCore (setPos s k v) x = getCore s x := rfl
@[simp] theorem getHall_setPos (s : State) (k : Nat) (v : Position) (x : Nat) : getHall (setPos s k v) x = getHall s x := rfl
@[simp] theorem getHub_setPos (s : State) (k : Nat) (v : Position) (x : Nat) : getHub (setPos s k v) x = getHub s x := rfl
@[simp] theorem getPort_setPos (s : State) (k : Nat) (v : Position) (x : Nat) : getPort (setPos s k v) x = getPort s x := rfl
@[simp] theorem getJob_setPos (s : State) (k : Nat) (v : Position) (x : Nat) : getJob (setPos s k v) x = getJob s x := rfl
theorem getPos_setPos_ne (s : State) {k x : Nat} (v : Position) (h : x ≠ k) : getPos (setPos s k v) x = getPos s x := tabGet_tabSet_ne _ _ _ h
theorem getPos_setPos_same (s : State) (k : Nat) (v : Position) (h : tabWf ({} : Position) s.positions = true) : getPos (setPos s k v) k = v := tabGet_tabSet_same h k v
@[simp] theorem modPos_pending (s : State) (k : Nat) (u : Position → Position) : (modPos s k u).pending = s.pending := rfl
@[simp] theorem modPos_free (s : State) (k : Nat) (u : Position → Position) : (modPos s k u).free = s.free := rfl
@[simp] theorem modPos_order (s : State) (k : Nat) (u : Position → Position) : (modPos s k u).order = s.order := rfl
@[simp] theorem modPos_rate (s : State) (k : Nat) (u : Position → Position) : (modPos s k u).rate = s.rate := rfl
@[simp] theorem modPos_time (s : State) (k : Nat) (u : Position → Position) : (modPos s k u).time = s.time := rfl
@[simp] theorem modPos_time1 (s : State) (k : Nat) (u : Position → Position) : (modPos s k u).time1 = s.time1 := rfl
@[simp] theorem modPos_fuse (s : State) (k : Nat) (u : Position → Position) : (modPos s k u).fuse = s.fuse := rfl
@[simp] theorem modPos_started (s : State) (k : Nat) (u : Position → Position) : (modPos s k u).started = s.started := rfl
@[simp] theorem modPos_aliveLevel (s : State) (k : Nat) (u : Position → Position) : (modPos s k u).aliveLevel = s.aliveLevel := rfl
@[simp] theorem modPos_moduleDown (s : State) (k : Nat) (u : Position → Position) : (modPos s k u).moduleDown = s.moduleDown := rfl
@[simp] theorem modPos_queues (s : State) (k : Nat) (u : Position → Position) : (modPos s k u).queues = s.queues := rfl
@[simp] theorem modPos_sems (s : State) (k : Nat) (u : Position → Position) : (modPos s k u).sems = s.sems := rfl
@[simp] theorem modPos_semGrp (s : State) (k : Nat) (u : Position → Position) : (modPos s k u).semGrp = s.semGrp := rfl
@[simp] theorem modPos_own (s : State) (k : Nat) (u : Position → Position) : (modPos s k u).own = s.own := rfl
@[simp] theorem modPos_signals (s : State) (k : Nat) (u : Position → Position) : (modPos s k u).signals = s.signals := rfl
@[simp] theorem modPos_lcores (s : State) (k : Nat) (u : Position → Position) : (modPos s k u).lcores = s.lcores := rfl
@[simp] theorem modPos_halls (s : State) (k : Nat) (u : Position → Position) : (modPos s k u).halls = s.halls := rfl
@[simp] theorem modPos_hubs (s : State) (k : Nat) (u : Position → Position) : (modPos s k u).hubs = s.hubs := rfl
@[simp] theorem modPos_ports (s : State) (k : Nat) (u : Position → Position) : (modPos s k u).ports = s.ports := rfl
@[simp] theorem modPos_jobs (s : State) (k : Nat) (u : Position → Position) : (modPos s k u).jobs = s.jobs := rfl
@[simp] theorem modPos_slots (s : State) (k : Nat) (u : Position → Position) : (modPos s k u).slots = s.slots := rfl
@[simp] theorem modPos_stats (s : State) (k : Nat) (u : Position → Position) : (modPos s k u).stats = s.stats := rfl
@[simp] theorem modPos_miller (s : State) (k : Nat) (u : Position → Position) : (modPos s k u).miller = s.miller := rfl
@[simp] theorem modPos_chain (s : State) (k : Nat) (u : Position → Position) : (modPos s k u).chain = s.chain := rfl
@[simp] theorem modPos_power (s : State) (k : Nat) (u : Position → Position) : (modPos s k u).power = s.power := rfl
@[simp] theorem modPos_jtag (s : State) (k : Nat) (u : Position → Position) : (modPos s k u).jtag = s.jtag := rfl
@[simp] theorem modPos_timeCfg (s : State) (k : Nat) (u : Position → Position) : (modPos s k u).timeCfg = s.timeCfg := rfl
@[simp] theorem modPos_selfTest (s : State) (k : Nat) (u : Position → Position) : (modPos s k u).selfTest = s.selfTest := rfl
@[simp] theorem modPos_mem (s : State) (k : Nat) (u : Position → Position) : (modPos s k u).mem = s.mem := rfl
@[simp] theorem modPos_memErr (s : State) (k : Nat) (u : Position → Position) : (modPos s k u).memErr = s.memErr := rfl
@[simp] theorem modPos_outputs (s : State) (k : Nat) (u : Position → Position) : (modPos s k u).outputs = s.outputs := rfl
@[simp] theorem modPos_promotes (s : State) (k : Nat) (u : Position → Position) : (modPos s k u).promotes = s.promotes := rfl
@[simp] theorem modPos_series (s : State) (k : Nat) (u : Position → Position) : (modPos s k u).series = s.series := rfl
@[simp] theorem modPos_meshFault (s : State) (k : Nat) (u : Position → Position) : (modPos s k u).meshFault = s.meshFault := rfl
@[simp] theorem modPos_resent (s : State) (k : Nat) (u : Position → Position) : (modPos s k u).resent = s.resent := rfl
@[simp] theorem modPos_leafs (s : State) (k : Nat) (u : Position → Position) : (modPos s k u).leafs = s.leafs := rfl
@[simp] theorem modPos_hostMem (s : State) (k : Nat) (u : Position → Position) : (modPos s k u).hostMem = s.hostMem := rfl
@[simp] theorem modPos_hostRead (s : State) (k : Nat) (u : Position → Position) : (modPos s k u).hostRead = s.hostRead := rfl
@[simp] theorem modPos_hostReadPoison (s : State) (k : Nat) (u : Position → Position) : (modPos s k u).hostReadPoison = s.hostReadPoison := rfl
@[simp] theorem modPos_delivered (s : State) (k : Nat) (u : Position → Position) : (modPos s k u).delivered = s.delivered := rfl
@[simp] theorem getQueue_modPos (s : State) (k : Nat) (u : Position → Position) (x : Nat) : getQueue (modPos s k u) x = getQueue s x := rfl
@[simp] theorem getSem_modPos (s : State) (k : Nat) (u : Position → Position) (x : Nat) : getSem (modPos s k u) x = getSem s x := rfl
@[simp] theorem getSemGrp_modPos (s : State) (k : Nat) (u : Position → Position) (x : Nat) : getSemGrp (modPos s k u) x = getSemGrp s x := rfl
@[simp] theorem getOwn_modPos (s : State) (k : Nat) (u : Position → Position) (x : Nat) : getOwn (modPos s k u) x = getOwn s x := rfl
@[simp] theorem getCore_modPos (s : State) (k : Nat) (u : Position → Position) (x : Nat) : getCore (modPos s k u) x = getCore s x := rfl
@[simp] theorem getHall_modPos (s : State) (k : Nat) (u : Position → Position) (x : Nat) : getHall (modPos s k u) x = getHall s x := rfl
@[simp] theorem getHub_modPos (s : State) (k : Nat) (u : Position → Position) (x : Nat) : getHub (modPos s k u) x = getHub s x := rfl
@[simp] theorem getPort_modPos (s : State) (k : Nat) (u : Position → Position) (x : Nat) : getPort (modPos s k u) x = getPort s x := rfl
@[simp] theorem getJob_modPos (s : State) (k : Nat) (u : Position → Position) (x : Nat) : getJob (modPos s k u) x = getJob s x := rfl
theorem getPos_modPos_ne (s : State) {k x : Nat} (u : Position → Position) (h : x ≠ k) : getPos (modPos s k u) x = getPos s x := tabGet_tabSet_ne _ _ _ h
theorem getPos_modPos_same (s : State) (k : Nat) (u : Position → Position) (h : tabWf ({} : Position) s.positions = true) : getPos (modPos s k u) k = u (getPos s k) := tabGet_tabSet_same h k _

/-! ## setHall -/

@[simp] theorem setHall_pending (s : State) (k : Nat) (v : HallState) : (setHall s k v).pending = s.pending := rfl
@[simp] theorem setHall_free (s : State) (k : Nat) (v : HallState) : (setHall s k v).free = s.free := rfl
@[simp] theorem setHall_order (s : State) (k : Nat) (v : HallState) : (setHall s k v).order = s.order := rfl
@[simp] theorem setHall_rate (s : State) (k : Nat) (v : HallState) : (setHall s k v).rate = s.rate := rfl
@[simp] theorem setHall_time (s : State) (k : Nat) (v : HallState) : (setHall s k v).time = s.time := rfl
@[simp] theorem setHall_time1 (s : State) (k : Nat) (v : HallState) : (setHall s k v).time1 = s.time1 := rfl
@[simp] theorem setHall_fuse (s : State) (k : Nat) (v : HallState) : (setHall s k v).fuse = s.fuse := rfl
@[simp] theorem setHall_started (s : State) (k : Nat) (v : HallState) : (setHall s k v).started = s.started := rfl
@[simp] theorem setHall_aliveLevel (s : State) (k : Nat) (v : HallState) : (setHall s k v).aliveLevel = s.aliveLevel := rfl
@[simp] theorem setHall_moduleDown (s : State) (k : Nat) (v : HallState) : (setHall s k v).moduleDown = s.moduleDown := rfl
@[simp] theorem setHall_queues (s : State) (k : Nat) (v : HallState) : (setHall s k v).queues = s.queues := rfl
@[simp] theorem setHall_sems (s : State) (k : Nat) (v : HallState) : (setHall s k v).sems = s.sems := rfl
@[simp] theorem setHall_semGrp (s : State) (k : Nat) (v : HallState) : (setHall s k v).semGrp = s.semGrp := rfl
@[simp] theorem setHall_own (s : State) (k : Nat) (v : HallState) : (setHall s k v).own = s.own := rfl
@[simp] theorem setHall_signals (s : State) (k : Nat) (v : HallState) : (setHall s k v).signals = s.signals := rfl
@[simp] theorem setHall_lcores (s : State) (k : Nat) (v : HallState) : (setHall s k v).lcores = s.lcores := rfl
@[simp] theorem setHall_positions (s : State) (k : Nat) (v : HallState) : (setHall s k v).positions = s.positions := rfl
@[simp] theorem setHall_hubs (s : State) (k : Nat) (v : HallState) : (setHall s k v).hubs = s.hubs := rfl
@[simp] theorem setHall_ports (s : State) (k : Nat) (v : HallState) : (setHall s k v).ports = s.ports := rfl
@[simp] theorem setHall_jobs (s : State) (k : Nat) (v : HallState) : (setHall s k v).jobs = s.jobs := rfl
@[simp] theorem setHall_slots (s : State) (k : Nat) (v : HallState) : (setHall s k v).slots = s.slots := rfl
@[simp] theorem setHall_stats (s : State) (k : Nat) (v : HallState) : (setHall s k v).stats = s.stats := rfl
@[simp] theorem setHall_miller (s : State) (k : Nat) (v : HallState) : (setHall s k v).miller = s.miller := rfl
@[simp] theorem setHall_chain (s : State) (k : Nat) (v : HallState) : (setHall s k v).chain = s.chain := rfl
@[simp] theorem setHall_power (s : State) (k : Nat) (v : HallState) : (setHall s k v).power = s.power := rfl
@[simp] theorem setHall_jtag (s : State) (k : Nat) (v : HallState) : (setHall s k v).jtag = s.jtag := rfl
@[simp] theorem setHall_timeCfg (s : State) (k : Nat) (v : HallState) : (setHall s k v).timeCfg = s.timeCfg := rfl
@[simp] theorem setHall_selfTest (s : State) (k : Nat) (v : HallState) : (setHall s k v).selfTest = s.selfTest := rfl
@[simp] theorem setHall_mem (s : State) (k : Nat) (v : HallState) : (setHall s k v).mem = s.mem := rfl
@[simp] theorem setHall_memErr (s : State) (k : Nat) (v : HallState) : (setHall s k v).memErr = s.memErr := rfl
@[simp] theorem setHall_outputs (s : State) (k : Nat) (v : HallState) : (setHall s k v).outputs = s.outputs := rfl
@[simp] theorem setHall_promotes (s : State) (k : Nat) (v : HallState) : (setHall s k v).promotes = s.promotes := rfl
@[simp] theorem setHall_series (s : State) (k : Nat) (v : HallState) : (setHall s k v).series = s.series := rfl
@[simp] theorem setHall_meshFault (s : State) (k : Nat) (v : HallState) : (setHall s k v).meshFault = s.meshFault := rfl
@[simp] theorem setHall_resent (s : State) (k : Nat) (v : HallState) : (setHall s k v).resent = s.resent := rfl
@[simp] theorem setHall_leafs (s : State) (k : Nat) (v : HallState) : (setHall s k v).leafs = s.leafs := rfl
@[simp] theorem setHall_hostMem (s : State) (k : Nat) (v : HallState) : (setHall s k v).hostMem = s.hostMem := rfl
@[simp] theorem setHall_hostRead (s : State) (k : Nat) (v : HallState) : (setHall s k v).hostRead = s.hostRead := rfl
@[simp] theorem setHall_hostReadPoison (s : State) (k : Nat) (v : HallState) : (setHall s k v).hostReadPoison = s.hostReadPoison := rfl
@[simp] theorem setHall_delivered (s : State) (k : Nat) (v : HallState) : (setHall s k v).delivered = s.delivered := rfl
@[simp] theorem setHall_halls (s : State) (k : Nat) (v : HallState) : (setHall s k v).halls = tabSet resetHall k v s.halls := rfl
@[simp] theorem getQueue_setHall (s : State) (k : Nat) (v : HallState) (x : Nat) : getQueue (setHall s k v) x = getQueue s x := rfl
@[simp] theorem getSem_setHall (s : State) (k : Nat) (v : HallState) (x : Nat) : getSem (setHall s k v) x = getSem s x := rfl
@[simp] theorem getSemGrp_setHall (s : State) (k : Nat) (v : HallState) (x : Nat) : getSemGrp (setHall s k v) x = getSemGrp s x := rfl
@[simp] theorem getOwn_setHall (s : State) (k : Nat) (v : HallState) (x : Nat) : getOwn (setHall s k v) x = getOwn s x := rfl
@[simp] theorem getCore_setHall (s : State) (k : Nat) (v : HallState) (x : Nat) : getCore (setHall s k v) x = getCore s x := rfl
@[simp] theorem getPos_setHall (s : State) (k : Nat) (v : HallState) (x : Nat) : getPos (setHall s k v) x = getPos s x := rfl
@[simp] theorem getHub_setHall (s : State) (k : Nat) (v : HallState) (x : Nat) : getHub (setHall s k v) x = getHub s x := rfl
@[simp] theorem getPort_setHall (s : State) (k : Nat) (v : HallState) (x : Nat) : getPort (setHall s k v) x = getPort s x := rfl
@[simp] theorem getJob_setHall (s : State) (k : Nat) (v : HallState) (x : Nat) : getJob (setHall s k v) x = getJob s x := rfl
theorem getHall_setHall_ne (s : State) {k x : Nat} (v : HallState) (h : x ≠ k) : getHall (setHall s k v) x = getHall s x := tabGet_tabSet_ne _ _ _ h
theorem getHall_setHall_same (s : State) (k : Nat) (v : HallState) (h : tabWf resetHall s.halls = true) : getHall (setHall s k v) k = v := tabGet_tabSet_same h k v
@[simp] theorem modHall_pending (s : State) (k : Nat) (u : HallState → HallState) : (modHall s k u).pending = s.pending := rfl
@[simp] theorem modHall_free (s : State) (k : Nat) (u : HallState → HallState) : (modHall s k u).free = s.free := rfl
@[simp] theorem modHall_order (s : State) (k : Nat) (u : HallState → HallState) : (modHall s k u).order = s.order := rfl
@[simp] theorem modHall_rate (s : State) (k : Nat) (u : HallState → HallState) : (modHall s k u).rate = s.rate := rfl
@[simp] theorem modHall_time (s : State) (k : Nat) (u : HallState → HallState) : (modHall s k u).time = s.time := rfl
@[simp] theorem modHall_time1 (s : State) (k : Nat) (u : HallState → HallState) : (modHall s k u).time1 = s.time1 := rfl
@[simp] theorem modHall_fuse (s : State) (k : Nat) (u : HallState → HallState) : (modHall s k u).fuse = s.fuse := rfl
@[simp] theorem modHall_started (s : State) (k : Nat) (u : HallState → HallState) : (modHall s k u).started = s.started := rfl
@[simp] theorem modHall_aliveLevel (s : State) (k : Nat) (u : HallState → HallState) : (modHall s k u).aliveLevel = s.aliveLevel := rfl
@[simp] theorem modHall_moduleDown (s : State) (k : Nat) (u : HallState → HallState) : (modHall s k u).moduleDown = s.moduleDown := rfl
@[simp] theorem modHall_queues (s : State) (k : Nat) (u : HallState → HallState) : (modHall s k u).queues = s.queues := rfl
@[simp] theorem modHall_sems (s : State) (k : Nat) (u : HallState → HallState) : (modHall s k u).sems = s.sems := rfl
@[simp] theorem modHall_semGrp (s : State) (k : Nat) (u : HallState → HallState) : (modHall s k u).semGrp = s.semGrp := rfl
@[simp] theorem modHall_own (s : State) (k : Nat) (u : HallState → HallState) : (modHall s k u).own = s.own := rfl
@[simp] theorem modHall_signals (s : State) (k : Nat) (u : HallState → HallState) : (modHall s k u).signals = s.signals := rfl
@[simp] theorem modHall_lcores (s : State) (k : Nat) (u : HallState → HallState) : (modHall s k u).lcores = s.lcores := rfl
@[simp] theorem modHall_positions (s : State) (k : Nat) (u : HallState → HallState) : (modHall s k u).positions = s.positions := rfl
@[simp] theorem modHall_hubs (s : State) (k : Nat) (u : HallState → HallState) : (modHall s k u).hubs = s.hubs := rfl
@[simp] theorem modHall_ports (s : State) (k : Nat) (u : HallState → HallState) : (modHall s k u).ports = s.ports := rfl
@[simp] theorem modHall_jobs (s : State) (k : Nat) (u : HallState → HallState) : (modHall s k u).jobs = s.jobs := rfl
@[simp] theorem modHall_slots (s : State) (k : Nat) (u : HallState → HallState) : (modHall s k u).slots = s.slots := rfl
@[simp] theorem modHall_stats (s : State) (k : Nat) (u : HallState → HallState) : (modHall s k u).stats = s.stats := rfl
@[simp] theorem modHall_miller (s : State) (k : Nat) (u : HallState → HallState) : (modHall s k u).miller = s.miller := rfl
@[simp] theorem modHall_chain (s : State) (k : Nat) (u : HallState → HallState) : (modHall s k u).chain = s.chain := rfl
@[simp] theorem modHall_power (s : State) (k : Nat) (u : HallState → HallState) : (modHall s k u).power = s.power := rfl
@[simp] theorem modHall_jtag (s : State) (k : Nat) (u : HallState → HallState) : (modHall s k u).jtag = s.jtag := rfl
@[simp] theorem modHall_timeCfg (s : State) (k : Nat) (u : HallState → HallState) : (modHall s k u).timeCfg = s.timeCfg := rfl
@[simp] theorem modHall_selfTest (s : State) (k : Nat) (u : HallState → HallState) : (modHall s k u).selfTest = s.selfTest := rfl
@[simp] theorem modHall_mem (s : State) (k : Nat) (u : HallState → HallState) : (modHall s k u).mem = s.mem := rfl
@[simp] theorem modHall_memErr (s : State) (k : Nat) (u : HallState → HallState) : (modHall s k u).memErr = s.memErr := rfl
@[simp] theorem modHall_outputs (s : State) (k : Nat) (u : HallState → HallState) : (modHall s k u).outputs = s.outputs := rfl
@[simp] theorem modHall_promotes (s : State) (k : Nat) (u : HallState → HallState) : (modHall s k u).promotes = s.promotes := rfl
@[simp] theorem modHall_series (s : State) (k : Nat) (u : HallState → HallState) : (modHall s k u).series = s.series := rfl
@[simp] theorem modHall_meshFault (s : State) (k : Nat) (u : HallState → HallState) : (modHall s k u).meshFault = s.meshFault := rfl
@[simp] theorem modHall_resent (s : State) (k : Nat) (u : HallState → HallState) : (modHall s k u).resent = s.resent := rfl
@[simp] theorem modHall_leafs (s : State) (k : Nat) (u : HallState → HallState) : (modHall s k u).leafs = s.leafs := rfl
@[simp] theorem modHall_hostMem (s : State) (k : Nat) (u : HallState → HallState) : (modHall s k u).hostMem = s.hostMem := rfl
@[simp] theorem modHall_hostRead (s : State) (k : Nat) (u : HallState → HallState) : (modHall s k u).hostRead = s.hostRead := rfl
@[simp] theorem modHall_hostReadPoison (s : State) (k : Nat) (u : HallState → HallState) : (modHall s k u).hostReadPoison = s.hostReadPoison := rfl
@[simp] theorem modHall_delivered (s : State) (k : Nat) (u : HallState → HallState) : (modHall s k u).delivered = s.delivered := rfl
@[simp] theorem getQueue_modHall (s : State) (k : Nat) (u : HallState → HallState) (x : Nat) : getQueue (modHall s k u) x = getQueue s x := rfl
@[simp] theorem getSem_modHall (s : State) (k : Nat) (u : HallState → HallState) (x : Nat) : getSem (modHall s k u) x = getSem s x := rfl
@[simp] theorem getSemGrp_modHall (s : State) (k : Nat) (u : HallState → HallState) (x : Nat) : getSemGrp (modHall s k u) x = getSemGrp s x := rfl
@[simp] theorem getOwn_modHall (s : State) (k : Nat) (u : HallState → HallState) (x : Nat) : getOwn (modHall s k u) x = getOwn s x := rfl
@[simp] theorem getCore_modHall (s : State) (k : Nat) (u : HallState → HallState) (x : Nat) : getCore (modHall s k u) x = getCore s x := rfl
@[simp] theorem getPos_modHall (s : State) (k : Nat) (u : HallState → HallState) (x : Nat) : getPos (modHall s k u) x = getPos s x := rfl
@[simp] theorem getHub_modHall (s : State) (k : Nat) (u : HallState → HallState) (x : Nat) : getHub (modHall s k u) x = getHub s x := rfl
@[simp] theorem getPort_modHall (s : State) (k : Nat) (u : HallState → HallState) (x : Nat) : getPort (modHall s k u) x = getPort s x := rfl
@[simp] theorem getJob_modHall (s : State) (k : Nat) (u : HallState → HallState) (x : Nat) : getJob (modHall s k u) x = getJob s x := rfl
theorem getHall_modHall_ne (s : State) {k x : Nat} (u : HallState → HallState) (h : x ≠ k) : getHall (modHall s k u) x = getHall s x := tabGet_tabSet_ne _ _ _ h
theorem getHall_modHall_same (s : State) (k : Nat) (u : HallState → HallState) (h : tabWf resetHall s.halls = true) : getHall (modHall s k u) k = u (getHall s k) := tabGet_tabSet_same h k _

/-! ## setHub -/

@[simp] theorem setHub_pending (s : State) (k : Nat) (v : HubState) : (setHub s k v).pending = s.pending := rfl
@[simp] theorem setHub_free (s : State) (k : Nat) (v : HubState) : (setHub s k v).free = s.free := rfl
@[simp] theorem setHub_order (s : State) (k : Nat) (v : HubState) : (setHub s k v).order = s.order := rfl
@[simp] theorem setHub_rate (s : State) (k : Nat) (v : HubState) : (setHub s k v).rate = s.rate := rfl
@[simp] theorem setHub_time (s : State) (k : Nat) (v : HubState) : (setHub s k v).time = s.time := rfl
@[simp] theorem setHub_time1 (s : State) (k : Nat) (v : HubState) : (setHub s k v).time1 = s.time1 := rfl
@[simp] theorem setHub_fuse (s : State) (k : Nat) (v : HubState) : (setHub s k v).fuse = s.fuse := rfl
@[simp] theorem setHub_started (s : State) (k : Nat) (v : HubState) : (setHub s k v).started = s.started := rfl
@[simp] theorem setHub_aliveLevel (s : State) (k : Nat) (v : HubState) : (setHub s k v).aliveLevel = s.aliveLevel := rfl
@[simp] theorem setHub_moduleDown (s : State) (k : Nat) (v : HubState) : (setHub s k v).moduleDown = s.moduleDown := rfl
@[simp] theorem setHub_queues (s : State) (k : Nat) (v : HubState) : (setHub s k v).queues = s.queues := rfl
@[simp] theorem setHub_sems (s : State) (k : Nat) (v : HubState) : (setHub s k v).sems = s.sems := rfl
@[simp] theorem setHub_semGrp (s : State) (k : Nat) (v : HubState) : (setHub s k v).semGrp = s.semGrp := rfl
@[simp] theorem setHub_own (s : State) (k : Nat) (v : HubState) : (setHub s k v).own = s.own := rfl
@[simp] theorem setHub_signals (s : State) (k : Nat) (v : HubState) : (setHub s k v).signals = s.signals := rfl
@[simp] theorem setHub_lcores (s : State) (k : Nat) (v : HubState) : (setHub s k v).lcores = s.lcores := rfl
@[simp] theorem setHub_positions (s : State) (k : Nat) (v : HubState) : (setHub s k v).positions = s.positions := rfl
@[simp] theorem setHub_halls (s : State) (k : Nat) (v : HubState) : (setHub s k v).halls = s.halls := rfl
@[simp] theorem setHub_ports (s : State) (k : Nat) (v : HubState) : (setHub s k v).ports = s.ports := rfl
@[simp] theorem setHub_jobs (s : State) (k : Nat) (v : HubState) : (setHub s k v).jobs = s.jobs := rfl
@[simp] theorem setHub_slots (s : State) (k : Nat) (v : HubState) : (setHub s k v).slots = s.slots := rfl
@[simp] theorem setHub_stats (s : State) (k : Nat) (v : HubState) : (setHub s k v).stats = s.stats := rfl
@[simp] theorem setHub_miller (s : State) (k : Nat) (v : HubState) : (setHub s k v).miller = s.miller := rfl
@[simp] theorem setHub_chain (s : State) (k : Nat) (v : HubState) : (setHub s k v).chain = s.chain := rfl
@[simp] theorem setHub_power (s : State) (k : Nat) (v : HubState) : (setHub s k v).power = s.power := rfl
@[simp] theorem setHub_jtag (s : State) (k : Nat) (v : HubState) : (setHub s k v).jtag = s.jtag := rfl
@[simp] theorem setHub_timeCfg (s : State) (k : Nat) (v : HubState) : (setHub s k v).timeCfg = s.timeCfg := rfl
@[simp] theorem setHub_selfTest (s : State) (k : Nat) (v : HubState) : (setHub s k v).selfTest = s.selfTest := rfl
@[simp] theorem setHub_mem (s : State) (k : Nat) (v : HubState) : (setHub s k v).mem = s.mem := rfl
@[simp] theorem setHub_memErr (s : State) (k : Nat) (v : HubState) : (setHub s k v).memErr = s.memErr := rfl
@[simp] theorem setHub_outputs (s : State) (k : Nat) (v : HubState) : (setHub s k v).outputs = s.outputs := rfl
@[simp] theorem setHub_promotes (s : State) (k : Nat) (v : HubState) : (setHub s k v).promotes = s.promotes := rfl
@[simp] theorem setHub_series (s : State) (k : Nat) (v : HubState) : (setHub s k v).series = s.series := rfl
@[simp] theorem setHub_meshFault (s : State) (k : Nat) (v : HubState) : (setHub s k v).meshFault = s.meshFault := rfl
@[simp] theorem setHub_resent (s : State) (k : Nat) (v : HubState) : (setHub s k v).resent = s.resent := rfl
@[simp] theorem setHub_leafs (s : State) (k : Nat) (v : HubState) : (setHub s k v).leafs = s.leafs := rfl
@[simp] theorem setHub_hostMem (s : State) (k : Nat) (v : HubState) : (setHub s k v).hostMem = s.hostMem := rfl
@[simp] theorem setHub_hostRead (s : State) (k : Nat) (v : HubState) : (setHub s k v).hostRead = s.hostRead := rfl
@[simp] theorem setHub_hostReadPoison (s : State) (k : Nat) (v : HubState) : (setHub s k v).hostReadPoison = s.hostReadPoison := rfl
@[simp] theorem setHub_delivered (s : State) (k : Nat) (v : HubState) : (setHub s k v).delivered = s.delivered := rfl
@[simp] theorem setHub_hubs (s : State) (k : Nat) (v : HubState) : (setHub s k v).hubs = tabSet ({} : HubState) k v s.hubs := rfl
@[simp] theorem getQueue_setHub (s : State) (k : Nat) (v : HubState) (x : Nat) : getQueue (setHub s k v) x = getQueue s x := rfl
@[simp] theorem getSem_setHub (s : State) (k : Nat) (v : HubState) (x : Nat) : getSem (setHub s k v) x = getSem s x := rfl
@[simp] theorem getSemGrp_setHub (s : State) (k : Nat) (v : HubState) (x : Nat) : getSemGrp (setHub s k v) x = getSemGrp s x := rfl
@[simp] theorem getOwn_setHub (s : State) (k : Nat) (v : HubState) (x : Nat) : getOwn (setHub s k v) x = getOwn s x := rfl
@[simp] theorem getCore_setHub (s : State) (k : Nat) (v : HubState) (x : Nat) : getCore (setHub s k v) x = getCore s x := rfl
@[simp] theorem getPos_setHub (s : State) (k : Nat) (v : HubState) (x : Nat) : getPos (setHub s k v) x = getPos s x := rfl
@[simp] theorem getHall_setHub (s : State) (k : Nat) (v : HubState) (x : Nat) : getHall (setHub s k v) x = getHall s x := rfl
@[simp] theorem getPort_setHub (s : State) (k : Nat) (v : HubState) (x : Nat) : getPort (setHub s k v) x = getPort s x := rfl
@[simp] theorem getJob_setHub (s : State) (k : Nat) (v : HubState) (x : Nat) : getJob (setHub s k v) x = getJob s x := rfl
theorem getHub_setHub_ne (s : State) {k x : Nat} (v : HubState) (h : x ≠ k) : getHub (setHub s k v) x = getHub s x := tabGet_tabSet_ne _ _ _ h
theorem getHub_setHub_same (s : State) (k : Nat) (v : HubState) (h : tabWf ({} : HubState) s.hubs = true) : getHub (setHub s k v) k = v := tabGet_tabSet_same h k v
@[simp] theorem modHub_pending (s : State) (k : Nat) (u : HubState → HubState) : (modHub s k u).pending = s.pending := rfl
@[simp] theorem modHub_free (s : State) (k : Nat) (u : HubState → HubState) : (modHub s k u).free = s.free := rfl
@[simp] theorem modHub_order (s : State) (k : Nat) (u : HubState → HubState) : (modHub s k u).order = s.order := rfl
@[simp] theorem modHub_rate (s : State) (k : Nat) (u : HubState → HubState) : (modHub s k u).rate = s.rate := rfl
@[simp] theorem modHub_time (s : State) (k : Nat) (u : HubState → HubState) : (modHub s k u).time = s.time := rfl
@[simp] theorem modHub_time1 (s : State) (k : Nat) (u : HubState → HubState) : (modHub s k u).time1 = s.time1 := rfl
@[simp] theorem modHub_fuse (s : State) (k : Nat) (u : HubState → HubState) : (modHub s k u).fuse = s.fuse := rfl
@[simp] theorem modHub_started (s : State) (k : Nat) (u : HubState → HubState) : (modHub s k u).started = s.started := rfl
@[simp] theorem modHub_aliveLevel (s : State) (k : Nat) (u : HubState → HubState) : (modHub s k u).aliveLevel = s.aliveLevel := rfl
@[simp] theorem modHub_moduleDown (s : State) (k : Nat) (u : HubState → HubState) : (modHub s k u).moduleDown = s.moduleDown := rfl
@[simp] theorem modHub_queues (s : State) (k : Nat) (u : HubState → HubState) : (modHub s k u).queues = s.queues := rfl
@[simp] theorem modHub_sems (s : State) (k : Nat) (u : HubState → HubState) : (modHub s k u).sems = s.sems := rfl
@[simp] theorem modHub_semGrp (s : State) (k : Nat) (u : HubState → HubState) : (modHub s k u).semGrp = s.semGrp := rfl
@[simp] theorem modHub_own (s : State) (k : Nat) (u : HubState → HubState) : (modHub s k u).own = s.own := rfl
@[simp] theorem modHub_signals (s : State) (k : Nat) (u : HubState → HubState) : (modHub s k u).signals = s.signals := rfl
@[simp] theorem modHub_lcores (s : State) (k : Nat) (u : HubState → HubState) : (modHub s k u).lcores = s.lcores := rfl
@[simp] theorem modHub_positions (s : State) (k : Nat) (u : HubState → HubState) : (modHub s k u).positions = s.positions := rfl
@[simp] theorem modHub_halls (s : State) (k : Nat) (u : HubState → HubState) : (modHub s k u).halls = s.halls := rfl
@[simp] theorem modHub_ports (s : State) (k : Nat) (u : HubState → HubState) : (modHub s k u).ports = s.ports := rfl
@[simp] theorem modHub_jobs (s : State) (k : Nat) (u : HubState → HubState) : (modHub s k u).jobs = s.jobs := rfl
@[simp] theorem modHub_slots (s : State) (k : Nat) (u : HubState → HubState) : (modHub s k u).slots = s.slots := rfl
@[simp] theorem modHub_stats (s : State) (k : Nat) (u : HubState → HubState) : (modHub s k u).stats = s.stats := rfl
@[simp] theorem modHub_miller (s : State) (k : Nat) (u : HubState → HubState) : (modHub s k u).miller = s.miller := rfl
@[simp] theorem modHub_chain (s : State) (k : Nat) (u : HubState → HubState) : (modHub s k u).chain = s.chain := rfl
@[simp] theorem modHub_power (s : State) (k : Nat) (u : HubState → HubState) : (modHub s k u).power = s.power := rfl
@[simp] theorem modHub_jtag (s : State) (k : Nat) (u : HubState → HubState) : (modHub s k u).jtag = s.jtag := rfl
@[simp] theorem modHub_timeCfg (s : State) (k : Nat) (u : HubState → HubState) : (modHub s k u).timeCfg = s.timeCfg := rfl
@[simp] theorem modHub_selfTest (s : State) (k : Nat) (u : HubState → HubState) : (modHub s k u).selfTest = s.selfTest := rfl
@[simp] theorem modHub_mem (s : State) (k : Nat) (u : HubState → HubState) : (modHub s k u).mem = s.mem := rfl
@[simp] theorem modHub_memErr (s : State) (k : Nat) (u : HubState → HubState) : (modHub s k u).memErr = s.memErr := rfl
@[simp] theorem modHub_outputs (s : State) (k : Nat) (u : HubState → HubState) : (modHub s k u).outputs = s.outputs := rfl
@[simp] theorem modHub_promotes (s : State) (k : Nat) (u : HubState → HubState) : (modHub s k u).promotes = s.promotes := rfl
@[simp] theorem modHub_series (s : State) (k : Nat) (u : HubState → HubState) : (modHub s k u).series = s.series := rfl
@[simp] theorem modHub_meshFault (s : State) (k : Nat) (u : HubState → HubState) : (modHub s k u).meshFault = s.meshFault := rfl
@[simp] theorem modHub_resent (s : State) (k : Nat) (u : HubState → HubState) : (modHub s k u).resent = s.resent := rfl
@[simp] theorem modHub_leafs (s : State) (k : Nat) (u : HubState → HubState) : (modHub s k u).leafs = s.leafs := rfl
@[simp] theorem modHub_hostMem (s : State) (k : Nat) (u : HubState → HubState) : (modHub s k u).hostMem = s.hostMem := rfl
@[simp] theorem modHub_hostRead (s : State) (k : Nat) (u : HubState → HubState) : (modHub s k u).hostRead = s.hostRead := rfl
@[simp] theorem modHub_hostReadPoison (s : State) (k : Nat) (u : HubState → HubState) : (modHub s k u).hostReadPoison = s.hostReadPoison := rfl
@[simp] theorem modHub_delivered (s : State) (k : Nat) (u : HubState → HubState) : (modHub s k u).delivered = s.delivered := rfl
@[simp] theorem getQueue_modHub (s : State) (k : Nat) (u : HubState → HubState) (x : Nat) : getQueue (modHub s k u) x = getQueue s x := rfl
@[simp] theorem getSem_modHub (s : State) (k : Nat) (u : HubState → HubState) (x : Nat) : getSem (modHub s k u) x = getSem s x := rfl
@[simp] theorem getSemGrp_modHub (s : State) (k : Nat) (u : HubState → HubState) (x : Nat) : getSemGrp (modHub s k u) x = getSemGrp s x := rfl
@[simp] theorem getOwn_modHub (s : State) (k : Nat) (u : HubState → HubState) (x : Nat) : getOwn (modHub s k u) x = getOwn s x := rfl
@[simp] theorem getCore_modHub (s : State) (k : Nat) (u : HubState → HubState) (x : Nat) : getCore (modHub s k u) x = getCore s x := rfl
@[simp] theorem getPos_modHub (s : State) (k : Nat) (u : HubState → HubState) (x : Nat) : getPos (modHub s k u) x = getPos s x := rfl
@[simp] theorem getHall_modHub (s : State) (k : Nat) (u : HubState → HubState) (x : Nat) : getHall (modHub s k u) x = getHall s x := rfl
@[simp] theorem getPort_modHub (s : State) (k : Nat) (u : HubState → HubState) (x : Nat) : getPort (modHub s k u) x = getPort s x := rfl
@[simp] theorem getJob_modHub (s : State) (k : Nat) (u : HubState → HubState) (x : Nat) : getJob (modHub s k u) x = getJob s x := rfl
theorem getHub_modHub_ne (s : State) {k x : Nat} (u : HubState → HubState) (h : x ≠ k) : getHub (modHub s k u) x = getHub s x := tabGet_tabSet_ne _ _ _ h
theorem getHub_modHub_same (s : State) (k : Nat) (u : HubState → HubState) (h : tabWf ({} : HubState) s.hubs = true) : getHub (modHub s k u) k = u (getHub s k) := tabGet_tabSet_same h k _

/-! ## setPort -/

@[simp] theorem setPort_pending (s : State) (k : Nat) (v : PortState) : (setPort s k v).pending = s.pending := rfl
@[simp] theorem setPort_free (s : State) (k : Nat) (v : PortState) : (setPort s k v).free = s.free := rfl
@[simp] theorem setPort_order (s : State) (k : Nat) (v : PortState) : (setPort s k v).order = s.order := rfl
@[simp] theorem setPort_rate (s : State) (k : Nat) (v : PortState) : (setPort s k v).rate = s.rate := rfl
@[simp] theorem setPort_time (s : State) (k : Nat) (v : PortState) : (setPort s k v).time = s.time := rfl
@[simp] theorem setPort_time1 (s : State) (k : Nat) (v : PortState) : (setPort s k v).time1 = s.time1 := rfl
@[simp] theorem setPort_fuse (s : State) (k : Nat) (v : PortState) : (setPort s k v).fuse = s.fuse := rfl
@[simp] theorem setPort_started (s : State) (k : Nat) (v : PortState) : (setPort s k v).started = s.started := rfl
@[simp] theorem setPort_aliveLevel (s : State) (k : Nat) (v : PortState) : (setPort s k v).aliveLevel = s.aliveLevel := rfl
@[simp] theorem setPort_moduleDown (s : State) (k : Nat) (v : PortState) : (setPort s k v).moduleDown = s.moduleDown := rfl
@[simp] theorem setPort_queues (s : State) (k : Nat) (v : PortState) : (setPort s k v).queues = s.queues := rfl
@[simp] theorem setPort_sems (s : State) (k : Nat) (v : PortState) : (setPort s k v).sems = s.sems := rfl
@[simp] theorem setPort_semGrp (s : State) (k : Nat) (v : PortState) : (setPort s k v).semGrp = s.semGrp := rfl
@[simp] theorem setPort_own (s : State) (k : Nat) (v : PortState) : (setPort s k v).own = s.own := rfl
@[simp] theorem setPort_signals (s : State) (k : Nat) (v : PortState) : (setPort s k v).signals = s.signals := rfl
@[simp] theorem setPort_lcores (s : State) (k : Nat) (v : PortState) : (setPort s k v).lcores = s.lcores := rfl
@[simp] theorem setPort_positions (s : State) (k : Nat) (v : PortState) : (setPort s k v).positions = s.positions := rfl
@[simp] theorem setPort_halls (s : State) (k : Nat) (v : PortState) : (setPort s k v).halls = s.halls := rfl
@[simp] theorem setPort_hubs (s : State) (k : Nat) (v : PortState) : (setPort s k v).hubs = s.hubs := rfl
@[simp] theorem setPort_jobs (s : State) (k : Nat) (v : PortState) : (setPort s k v).jobs = s.jobs := rfl
@[simp] theorem setPort_slots (s : State) (k : Nat) (v : PortState) : (setPort s k v).slots = s.slots := rfl
@[simp] theorem setPort_stats (s : State) (k : Nat) (v : PortState) : (setPort s k v).stats = s.stats := rfl
@[simp] theorem setPort_miller (s : State) (k : Nat) (v : PortState) : (setPort s k v).miller = s.miller := rfl
@[simp] theorem setPort_chain (s : State) (k : Nat) (v : PortState) : (setPort s k v).chain = s.chain := rfl
@[simp] theorem setPort_power (s : State) (k : Nat) (v : PortState) : (setPort s k v).power = s.power := rfl
@[simp] theorem setPort_jtag (s : State) (k : Nat) (v : PortState) : (setPort s k v).jtag = s.jtag := rfl
@[simp] theorem setPort_timeCfg (s : State) (k : Nat) (v : PortState) : (setPort s k v).timeCfg = s.timeCfg := rfl
@[simp] theorem setPort_selfTest (s : State) (k : Nat) (v : PortState) : (setPort s k v).selfTest = s.selfTest := rfl
@[simp] theorem setPort_mem (s : State) (k : Nat) (v : PortState) : (setPort s k v).mem = s.mem := rfl
@[simp] theorem setPort_memErr (s : State) (k : Nat) (v : PortState) : (setPort s k v).memErr = s.memErr := rfl
@[simp] theorem setPort_outputs (s : State) (k : Nat) (v : PortState) : (setPort s k v).outputs = s.outputs := rfl
@[simp] theorem setPort_promotes (s : State) (k : Nat) (v : PortState) : (setPort s k v).promotes = s.promotes := rfl
@[simp] theorem setPort_series (s : State) (k : Nat) (v : PortState) : (setPort s k v).series = s.series := rfl
@[simp] theorem setPort_meshFault (s : State) (k : Nat) (v : PortState) : (setPort s k v).meshFault = s.meshFault := rfl
@[simp] theorem setPort_resent (s : State) (k : Nat) (v : PortState) : (setPort s k v).resent = s.resent := rfl
@[simp] theorem setPort_leafs (s : State) (k : Nat) (v : PortState) : (setPort s k v).leafs = s.leafs := rfl
@[simp] theorem setPort_hostMem (s : State) (k : Nat) (v : PortState) : (setPort s k v).hostMem = s.hostMem := rfl
@[simp] theorem setPort_hostRead (s : State) (k : Nat) (v : PortState) : (setPort s k v).hostRead = s.hostRead := rfl
@[simp] theorem setPort_hostReadPoison (s : State) (k : Nat) (v : PortState) : (setPort s k v).hostReadPoison = s.hostReadPoison := rfl
@[simp] theorem setPort_delivered (s : State) (k : Nat) (v : PortState) : (setPort s k v).delivered = s.delivered := rfl
@[simp] theorem setPort_ports (s : State) (k : Nat) (v : PortState) : (setPort s k v).ports = tabSet ({} : PortState) k v s.ports := rfl
@[simp] theorem getQueue_setPort (s : State) (k : Nat) (v : PortState) (x : Nat) : getQueue (setPort s k v) x = getQueue s x := rfl
@[simp] theorem getSem_setPort (s : State) (k : Nat) (v : PortState) (x : Nat) : getSem (setPort s k v) x = getSem s x := rfl
@[simp] theorem getSemGrp_setPort (s : State) (k : Nat) (v : PortState) (x : Nat) : getSemGrp (setPort s k v) x = getSemGrp s x := rfl
@[simp] theorem getOwn_setPort (s : State) (k : Nat) (v : PortState) (x : Nat) : getOwn (setPort s k v) x = getOwn s x := rfl
@[simp] theorem getCore_setPort (s : State) (k : Nat) (v : PortState) (x : Nat) : getCore (setPort s k v) x = getCore s x := rfl
@[simp] theorem getPos_setPort (s : State) (k : Nat) (v : PortState) (x : Nat) : getPos (setPort s k v) x = getPos s x := rfl
@[simp] theorem getHall_setPort (s : State) (k : Nat) (v : PortState) (x : Nat) : getHall (setPort s k v) x = getHall s x := rfl
@[simp] theorem getHub_setPort (s : State) (k : Nat) (v : PortState) (x : Nat) : getHub (setPort s k v) x = getHub s x := rfl
@[simp] theorem getJob_setPort (s : State) (k : Nat) (v : PortState) (x : Nat) : getJob (setPort s k v) x = getJob s x := rfl
theorem getPort_setPort_ne (s : State) {k x : Nat} (v : PortState) (h : x ≠ k) : getPort (setPort s k v) x = getPort s x := tabGet_tabSet_ne _ _ _ h
theorem getPort_setPort_same (s : State) (k : Nat) (v : PortState) (h : tabWf ({} : PortState) s.ports = true) : getPort (setPort s k v) k = v := tabGet_tabSet_same h k v
@[simp] theorem modPort_pending (s : State) (k : Nat) (u : PortState → PortState) : (modPort s k u).pending = s.pending := rfl
@[simp] theorem modPort_free (s : State) (k : Nat) (u : PortState → PortState) : (modPort s k u).free = s.free := rfl
@[simp] theorem modPort_order (s : State) (k : Nat) (u : PortState → PortState) : (modPort s k u).order = s.order := rfl
@[simp] theorem modPort_rate (s : State) (k : Nat) (u : PortState → PortState) : (modPort s k u).rate = s.rate := rfl
@[simp] theorem modPort_time (s : State) (k : Nat) (u : PortState → PortState) : (modPort s k u).time = s.time := rfl
@[simp] theorem modPort_time1 (s : State) (k : Nat) (u : PortState → PortState) : (modPort s k u).time1 = s.time1 := rfl
@[simp] theorem modPort_fuse (s : State) (k : Nat) (u : PortState → PortState) : (modPort s k u).fuse = s.fuse := rfl
@[simp] theorem modPort_started (s : State) (k : Nat) (u : PortState → PortState) : (modPort s k u).started = s.started := rfl
@[simp] theorem modPort_aliveLevel (s : State) (k : Nat) (u : PortState → PortState) : (modPort s k u).aliveLevel = s.aliveLevel := rfl
@[simp] theorem modPort_moduleDown (s : State) (k : Nat) (u : PortState → PortState) : (modPort s k u).moduleDown = s.moduleDown := rfl
@[simp] theorem modPort_queues (s : State) (k : Nat) (u : PortState → PortState) : (modPort s k u).queues = s.queues := rfl
@[simp] theorem modPort_sems (s : State) (k : Nat) (u : PortState → PortState) : (modPort s k u).sems = s.sems := rfl
@[simp] theorem modPort_semGrp (s : State) (k : Nat) (u : PortState → PortState) : (modPort s k u).semGrp = s.semGrp := rfl
@[simp] theorem modPort_own (s : State) (k : Nat) (u : PortState → PortState) : (modPort s k u).own = s.own := rfl
@[simp] theorem modPort_signals (s : State) (k : Nat) (u : PortState → PortState) : (modPort s k u).signals = s.signals := rfl
@[simp] theorem modPort_lcores (s : State) (k : Nat) (u : PortState → PortState) : (modPort s k u).lcores = s.lcores := rfl
@[simp] theorem modPort_positions (s : State) (k : Nat) (u : PortState → PortState) : (modPort s k u).positions = s.positions := rfl
@[simp] theorem modPort_halls (s : State) (k : Nat) (u : PortState → PortState) : (modPort s k u).halls = s.halls := rfl
@[simp] theorem modPort_hubs (s : State) (k : Nat) (u : PortState → PortState) : (modPort s k u).hubs = s.hubs := rfl
@[simp] theorem modPort_jobs (s : State) (k : Nat) (u : PortState → PortState) : (modPort s k u).jobs = s.jobs := rfl
@[simp] theorem modPort_slots (s : State) (k : Nat) (u : PortState → PortState) : (modPort s k u).slots = s.slots := rfl
@[simp] theorem modPort_stats (s : State) (k : Nat) (u : PortState → PortState) : (modPort s k u).stats = s.stats := rfl
@[simp] theorem modPort_miller (s : State) (k : Nat) (u : PortState → PortState) : (modPort s k u).miller = s.miller := rfl
@[simp] theorem modPort_chain (s : State) (k : Nat) (u : PortState → PortState) : (modPort s k u).chain = s.chain := rfl
@[simp] theorem modPort_power (s : State) (k : Nat) (u : PortState → PortState) : (modPort s k u).power = s.power := rfl
@[simp] theorem modPort_jtag (s : State) (k : Nat) (u : PortState → PortState) : (modPort s k u).jtag = s.jtag := rfl
@[simp] theorem modPort_timeCfg (s : State) (k : Nat) (u : PortState → PortState) : (modPort s k u).timeCfg = s.timeCfg := rfl
@[simp] theorem modPort_selfTest (s : State) (k : Nat) (u : PortState → PortState) : (modPort s k u).selfTest = s.selfTest := rfl
@[simp] theorem modPort_mem (s : State) (k : Nat) (u : PortState → PortState) : (modPort s k u).mem = s.mem := rfl
@[simp] theorem modPort_memErr (s : State) (k : Nat) (u : PortState → PortState) : (modPort s k u).memErr = s.memErr := rfl
@[simp] theorem modPort_outputs (s : State) (k : Nat) (u : PortState → PortState) : (modPort s k u).outputs = s.outputs := rfl
@[simp] theorem modPort_promotes (s : State) (k : Nat) (u : PortState → PortState) : (modPort s k u).promotes = s.promotes := rfl
@[simp] theorem modPort_series (s : State) (k : Nat) (u : PortState → PortState) : (modPort s k u).series = s.series := rfl
@[simp] theorem modPort_meshFault (s : State) (k : Nat) (u : PortState → PortState) : (modPort s k u).meshFault = s.meshFault := rfl
@[simp] theorem modPort_resent (s : State) (k : Nat) (u : PortState → PortState) : (modPort s k u).resent = s.resent := rfl
@[simp] theorem modPort_leafs (s : State) (k : Nat) (u : PortState → PortState) : (modPort s k u).leafs = s.leafs := rfl
@[simp] theorem modPort_hostMem (s : State) (k : Nat) (u : PortState → PortState) : (modPort s k u).hostMem = s.hostMem := rfl
@[simp] theorem modPort_hostRead (s : State) (k : Nat) (u : PortState → PortState) : (modPort s k u).hostRead = s.hostRead := rfl
@[simp] theorem modPort_hostReadPoison (s : State) (k : Nat) (u : PortState → PortState) : (modPort s k u).hostReadPoison = s.hostReadPoison := rfl
@[simp] theorem modPort_delivered (s : State) (k : Nat) (u : PortState → PortState) : (modPort s k u).delivered = s.delivered := rfl
@[simp] theorem getQueue_modPort (s : State) (k : Nat) (u : PortState → PortState) (x : Nat) : getQueue (modPort s k u) x = getQueue s x := rfl
@[simp] theorem getSem_modPort (s : State) (k : Nat) (u : PortState → PortState) (x : Nat) : getSem (modPort s k u) x = getSem s x := rfl
@[simp] theorem getSemGrp_modPort (s : State) (k : Nat) (u : PortState → PortState) (x : Nat) : getSemGrp (modPort s k u) x = getSemGrp s x := rfl
@[simp] theorem getOwn_modPort (s : State) (k : Nat) (u : PortState → PortState) (x : Nat) : getOwn (modPort s k u) x = getOwn s x := rfl
@[simp] theorem getCore_modPort (s : State) (k : Nat) (u : PortState → PortState) (x : Nat) : getCore (modPort s k u) x = getCore s x := rfl
@[simp] theorem getPos_modPort (s : State) (k : Nat) (u : PortState → PortState) (x : Nat) : getPos (modPort s k u) x = getPos s x := rfl
@[simp] theorem getHall_modPort (s : State) (k : Nat) (u : PortState → PortState) (x : Nat) : getHall (modPort s k u) x = getHall s x := rfl
@[simp] theorem getHub_modPort (s : State) (k : Nat) (u : PortState → PortState) (x : Nat) : getHub (modPort s k u) x = getHub s x := rfl
@[simp] theorem getJob_modPort (s : State) (k : Nat) (u : PortState → PortState) (x : Nat) : getJob (modPort s k u) x = getJob s x := rfl
theorem getPort_modPort_ne (s : State) {k x : Nat} (u : PortState → PortState) (h : x ≠ k) : getPort (modPort s k u) x = getPort s x := tabGet_tabSet_ne _ _ _ h
theorem getPort_modPort_same (s : State) (k : Nat) (u : PortState → PortState) (h : tabWf ({} : PortState) s.ports = true) : getPort (modPort s k u) k = u (getPort s k) := tabGet_tabSet_same h k _

/-! ## setJob -/

@[simp] theorem setJob_pending (s : State) (k : Nat) (v : JobState) : (setJob s k v).pending = s.pending := rfl
@[simp] theorem setJob_free (s : State) (k : Nat) (v : JobState) : (setJob s k v).free = s.free := rfl
@[simp] theorem setJob_order (s : State) (k : Nat) (v : JobState) : (setJob s k v).order = s.order := rfl
@[simp] theorem setJob_rate (s : State) (k : Nat) (v : JobState) : (setJob s k v).rate = s.rate := rfl
@[simp] theorem setJob_time (s : State) (k : Nat) (v : JobState) : (setJob s k v).time = s.time := rfl
@[simp] theorem setJob_time1 (s : State) (k : Nat) (v : JobState) : (setJob s k v).time1 = s.time1 := rfl
@[simp] theorem setJob_fuse (s : State) (k : Nat) (v : JobState) : (setJob s k v).fuse = s.fuse := rfl
@[simp] theorem setJob_started (s : State) (k : Nat) (v : JobState) : (setJob s k v).started = s.started := rfl
@[simp] theorem setJob_aliveLevel (s : State) (k : Nat) (v : JobState) : (setJob s k v).aliveLevel = s.aliveLevel := rfl
@[simp] theorem setJob_moduleDown (s : State) (k : Nat) (v : JobState) : (setJob s k v).moduleDown = s.moduleDown := rfl
@[simp] theorem setJob_queues (s : State) (k : Nat) (v : JobState) : (setJob s k v).queues = s.queues := rfl
@[simp] theorem setJob_sems (s : State) (k : Nat) (v : JobState) : (setJob s k v).sems = s.sems := rfl
@[simp] theorem setJob_semGrp (s : State) (k : Nat) (v : JobState) : (setJob s k v).semGrp = s.semGrp := rfl
@[simp] theorem setJob_own (s : State) (k : Nat) (v : JobState) : (setJob s k v).own = s.own := rfl
@[simp] theorem setJob_signals (s : State) (k : Nat) (v : JobState) : (setJob s k v).signals = s.signals := rfl
@[simp] theorem setJob_lcores (s : State) (k : Nat) (v : JobState) : (setJob s k v).lcores = s.lcores := rfl
@[simp] theorem setJob_positions (s : State) (k : Nat) (v : JobState) : (setJob s k v).positions = s.positions := rfl
@[simp] theorem setJob_halls (s : State) (k : Nat) (v : JobState) : (setJob s k v).halls = s.halls := rfl
@[simp] theorem setJob_hubs (s : State) (k : Nat) (v : JobState) : (setJob s k v).hubs = s.hubs := rfl
@[simp] theorem setJob_ports (s : State) (k : Nat) (v : JobState) : (setJob s k v).ports = s.ports := rfl
@[simp] theorem setJob_slots (s : State) (k : Nat) (v : JobState) : (setJob s k v).slots = s.slots := rfl
@[simp] theorem setJob_stats (s : State) (k : Nat) (v : JobState) : (setJob s k v).stats = s.stats := rfl
@[simp] theorem setJob_miller (s : State) (k : Nat) (v : JobState) : (setJob s k v).miller = s.miller := rfl
@[simp] theorem setJob_chain (s : State) (k : Nat) (v : JobState) : (setJob s k v).chain = s.chain := rfl
@[simp] theorem setJob_power (s : State) (k : Nat) (v : JobState) : (setJob s k v).power = s.power := rfl
@[simp] theorem setJob_jtag (s : State) (k : Nat) (v : JobState) : (setJob s k v).jtag = s.jtag := rfl
@[simp] theorem setJob_timeCfg (s : State) (k : Nat) (v : JobState) : (setJob s k v).timeCfg = s.timeCfg := rfl
@[simp] theorem setJob_selfTest (s : State) (k : Nat) (v : JobState) : (setJob s k v).selfTest = s.selfTest := rfl
@[simp] theorem setJob_mem (s : State) (k : Nat) (v : JobState) : (setJob s k v).mem = s.mem := rfl
@[simp] theorem setJob_memErr (s : State) (k : Nat) (v : JobState) : (setJob s k v).memErr = s.memErr := rfl
@[simp] theorem setJob_outputs (s : State) (k : Nat) (v : JobState) : (setJob s k v).outputs = s.outputs := rfl
@[simp] theorem setJob_promotes (s : State) (k : Nat) (v : JobState) : (setJob s k v).promotes = s.promotes := rfl
@[simp] theorem setJob_series (s : State) (k : Nat) (v : JobState) : (setJob s k v).series = s.series := rfl
@[simp] theorem setJob_meshFault (s : State) (k : Nat) (v : JobState) : (setJob s k v).meshFault = s.meshFault := rfl
@[simp] theorem setJob_resent (s : State) (k : Nat) (v : JobState) : (setJob s k v).resent = s.resent := rfl
@[simp] theorem setJob_leafs (s : State) (k : Nat) (v : JobState) : (setJob s k v).leafs = s.leafs := rfl
@[simp] theorem setJob_hostMem (s : State) (k : Nat) (v : JobState) : (setJob s k v).hostMem = s.hostMem := rfl
@[simp] theorem setJob_hostRead (s : State) (k : Nat) (v : JobState) : (setJob s k v).hostRead = s.hostRead := rfl
@[simp] theorem setJob_hostReadPoison (s : State) (k : Nat) (v : JobState) : (setJob s k v).hostReadPoison = s.hostReadPoison := rfl
@[simp] theorem setJob_delivered (s : State) (k : Nat) (v : JobState) : (setJob s k v).delivered = s.delivered := rfl
@[simp] theorem setJob_jobs (s : State) (k : Nat) (v : JobState) : (setJob s k v).jobs = tabSet ({} : JobState) k v s.jobs := rfl
@[simp] theorem getQueue_setJob (s : State) (k : Nat) (v : JobState) (x : Nat) : getQueue (setJob s k v) x = getQueue s x := rfl
@[simp] theorem getSem_setJob (s : State) (k : Nat) (v : JobState) (x : Nat) : getSem (setJob s k v) x = getSem s x := rfl
@[simp] theorem getSemGrp_setJob (s : State) (k : Nat) (v : JobState) (x : Nat) : getSemGrp (setJob s k v) x = getSemGrp s x := rfl
@[simp] theorem getOwn_setJob (s : State) (k : Nat) (v : JobState) (x : Nat) : getOwn (setJob s k v) x = getOwn s x := rfl
@[simp] theorem getCore_setJob (s : State) (k : Nat) (v : JobState) (x : Nat) : getCore (setJob s k v) x = getCore s x := rfl
@[simp] theorem getPos_setJob (s : State) (k : Nat) (v : JobState) (x : Nat) : getPos (setJob s k v) x = getPos s x := rfl
@[simp] theorem getHall_setJob (s : State) (k : Nat) (v : JobState) (x : Nat) : getHall (setJob s k v) x = getHall s x := rfl
@[simp] theorem getHub_setJob (s : State) (k : Nat) (v : JobState) (x : Nat) : getHub (setJob s k v) x = getHub s x := rfl
@[simp] theorem getPort_setJob (s : State) (k : Nat) (v : JobState) (x : Nat) : getPort (setJob s k v) x = getPort s x := rfl
theorem getJob_setJob_ne (s : State) {k x : Nat} (v : JobState) (h : x ≠ k) : getJob (setJob s k v) x = getJob s x := tabGet_tabSet_ne _ _ _ h
theorem getJob_setJob_same (s : State) (k : Nat) (v : JobState) (h : tabWf ({} : JobState) s.jobs = true) : getJob (setJob s k v) k = v := tabGet_tabSet_same h k v
@[simp] theorem modJob_pending (s : State) (k : Nat) (u : JobState → JobState) : (modJob s k u).pending = s.pending := rfl
@[simp] theorem modJob_free (s : State) (k : Nat) (u : JobState → JobState) : (modJob s k u).free = s.free := rfl
@[simp] theorem modJob_order (s : State) (k : Nat) (u : JobState → JobState) : (modJob s k u).order = s.order := rfl
@[simp] theorem modJob_rate (s : State) (k : Nat) (u : JobState → JobState) : (modJob s k u).rate = s.rate := rfl
@[simp] theorem modJob_time (s : State) (k : Nat) (u : JobState → JobState) : (modJob s k u).time = s.time := rfl
@[simp] theorem modJob_time1 (s : State) (k : Nat) (u : JobState → JobState) : (modJob s k u).time1 = s.time1 := rfl
@[simp] theorem modJob_fuse (s : State) (k : Nat) (u : JobState → JobState) : (modJob s k u).fuse = s.fuse := rfl
@[simp] theorem modJob_started (s : State) (k : Nat) (u : JobState → JobState) : (modJob s k u).started = s.started := rfl
@[simp] theorem modJob_aliveLevel (s : State) (k : Nat) (u : JobState → JobState) : (modJob s k u).aliveLevel = s.aliveLevel := rfl
@[simp] theorem modJob_moduleDown (s : State) (k : Nat) (u : JobState → JobState) : (modJob s k u).moduleDown = s.moduleDown := rfl
@[simp] theorem modJob_queues (s : State) (k : Nat) (u : JobState → JobState) : (modJob s k u).queues = s.queues := rfl
@[simp] theorem modJob_sems (s : State) (k : Nat) (u : JobState → JobState) : (modJob s k u).sems = s.sems := rfl
@[simp] theorem modJob_semGrp (s : State) (k : Nat) (u : JobState → JobState) : (modJob s k u).semGrp = s.semGrp := rfl
@[simp] theorem modJob_own (s : State) (k : Nat) (u : JobState → JobState) : (modJob s k u).own = s.own := rfl
@[simp] theorem modJob_signals (s : State) (k : Nat) (u : JobState → JobState) : (modJob s k u).signals = s.signals := rfl
@[simp] theorem modJob_lcores (s : State) (k : Nat) (u : JobState → JobState) : (modJob s k u).lcores = s.lcores := rfl
@[simp] theorem modJob_positions (s : State) (k : Nat) (u : JobState → JobState) : (modJob s k u).positions = s.positions := rfl
@[simp] theorem modJob_halls (s : State) (k : Nat) (u : JobState → JobState) : (modJob s k u).halls = s.halls := rfl
@[simp] theorem modJob_hubs (s : State) (k : Nat) (u : JobState → JobState) : (modJob s k u).hubs = s.hubs := rfl
@[simp] theorem modJob_ports (s : State) (k : Nat) (u : JobState → JobState) : (modJob s k u).ports = s.ports := rfl
@[simp] theorem modJob_slots (s : State) (k : Nat) (u : JobState → JobState) : (modJob s k u).slots = s.slots := rfl
@[simp] theorem modJob_stats (s : State) (k : Nat) (u : JobState → JobState) : (modJob s k u).stats = s.stats := rfl
@[simp] theorem modJob_miller (s : State) (k : Nat) (u : JobState → JobState) : (modJob s k u).miller = s.miller := rfl
@[simp] theorem modJob_chain (s : State) (k : Nat) (u : JobState → JobState) : (modJob s k u).chain = s.chain := rfl
@[simp] theorem modJob_power (s : State) (k : Nat) (u : JobState → JobState) : (modJob s k u).power = s.power := rfl
@[simp] theorem modJob_jtag (s : State) (k : Nat) (u : JobState → JobState) : (modJob s k u).jtag = s.jtag := rfl
@[simp] theorem modJob_timeCfg (s : State) (k : Nat) (u : JobState → JobState) : (modJob s k u).timeCfg = s.timeCfg := rfl
@[simp] theorem modJob_selfTest (s : State) (k : Nat) (u : JobState → JobState) : (modJob s k u).selfTest = s.selfTest := rfl
@[simp] theorem modJob_mem (s : State) (k : Nat) (u : JobState → JobState) : (modJob s k u).mem = s.mem := rfl
@[simp] theorem modJob_memErr (s : State) (k : Nat) (u : JobState → JobState) : (modJob s k u).memErr = s.memErr := rfl
@[simp] theorem modJob_outputs (s : State) (k : Nat) (u : JobState → JobState) : (modJob s k u).outputs = s.outputs := rfl
@[simp] theorem modJob_promotes (s : State) (k : Nat) (u : JobState → JobState) : (modJob s k u).promotes = s.promotes := rfl
@[simp] theorem modJob_series (s : State) (k : Nat) (u : JobState → JobState) : (modJob s k u).series = s.series := rfl
@[simp] theorem modJob_meshFault (s : State) (k : Nat) (u : JobState → JobState) : (modJob s k u).meshFault = s.meshFault := rfl
@[simp] theorem modJob_resent (s : State) (k : Nat) (u : JobState → JobState) : (modJob s k u).resent = s.resent := rfl
@[simp] theorem modJob_leafs (s : State) (k : Nat) (u : JobState → JobState) : (modJob s k u).leafs = s.leafs := rfl
@[simp] theorem modJob_hostMem (s : State) (k : Nat) (u : JobState → JobState) : (modJob s k u).hostMem = s.hostMem := rfl
@[simp] theorem modJob_hostRead (s : State) (k : Nat) (u : JobState → JobState) : (modJob s k u).hostRead = s.hostRead := rfl
@[simp] theorem modJob_hostReadPoison (s : State) (k : Nat) (u : JobState → JobState) : (modJob s k u).hostReadPoison = s.hostReadPoison := rfl
@[simp] theorem modJob_delivered (s : State) (k : Nat) (u : JobState → JobState) : (modJob s k u).delivered = s.delivered := rfl
@[simp] theorem getQueue_modJob (s : State) (k : Nat) (u : JobState → JobState) (x : Nat) : getQueue (modJob s k u) x = getQueue s x := rfl
@[simp] theorem getSem_modJob (s : State) (k : Nat) (u : JobState → JobState) (x : Nat) : getSem (modJob s k u) x = getSem s x := rfl
@[simp] theorem getSemGrp_modJob (s : State) (k : Nat) (u : JobState → JobState) (x : Nat) : getSemGrp (modJob s k u) x = getSemGrp s x := rfl
@[simp] theorem getOwn_modJob (s : State) (k : Nat) (u : JobState → JobState) (x : Nat) : getOwn (modJob s k u) x = getOwn s x := rfl
@[simp] theorem getCore_modJob (s : State) (k : Nat) (u : JobState → JobState) (x : Nat) : getCore (modJob s k u) x = getCore s x := rfl
@[simp] theorem getPos_modJob (s : State) (k : Nat) (u : JobState → JobState) (x : Nat) : getPos (modJob s k u) x = getPos s x := rfl
@[simp] theorem getHall_modJob (s : State) (k : Nat) (u : JobState → JobState) (x : Nat) : getHall (modJob s k u) x = getHall s x := rfl
@[simp] theorem getHub_modJob (s : State) (k : Nat) (u : JobState → JobState) (x : Nat) : getHub (modJob s k u) x = getHub s x := rfl
@[simp] theorem getPort_modJob (s : State) (k : Nat) (u : JobState → JobState) (x : Nat) : getPort (modJob s k u) x = getPort s x := rfl
theorem getJob_modJob_ne (s : State) {k x : Nat} (u : JobState → JobState) (h : x ≠ k) : getJob (modJob s k u) x = getJob s x := tabGet_tabSet_ne _ _ _ h
theorem getJob_modJob_same (s : State) (k : Nat) (u : JobState → JobState) (h : tabWf ({} : JobState) s.jobs = true) : getJob (modJob s k u) k = u (getJob s k) := tabGet_tabSet_same h k _

/-! ## Events -/

@[simp] theorem pushEvent_pending (s : State) (h : Nat) (e : EventSpec) : (pushEvent s h e).pending = s.pending := rfl
@[simp] theorem pushEvent_free (s : State) (h : Nat) (e : EventSpec) : (pushEvent s h e).free = s.free := rfl
@[simp] theorem pushEvent_order (s : State) (h : Nat) (e : EventSpec) : (pushEvent s h e).order = s.order := rfl
@[simp] theorem pushEvent_rate (s : State) (h : Nat) (e : EventSpec) : (pushEvent s h e).rate = s.rate := rfl
@[simp] theorem pushEvent_time (s : State) (h : Nat) (e : EventSpec) : (pushEvent s h e).time = s.time := rfl
@[simp] theorem pushEvent_time1 (s : State) (h : Nat) (e : EventSpec) : (pushEvent s h e).time1 = s.time1 := rfl
@[simp] theorem pushEvent_fuse (s : State) (h : Nat) (e : EventSpec) : (pushEvent s h e).fuse = s.fuse := rfl
@[simp] theorem pushEvent_started (s : State) (h : Nat) (e : EventSpec) : (pushEvent s h e).started = s.started := rfl
@[simp] theorem pushEvent_aliveLevel (s : State) (h : Nat) (e : EventSpec) : (pushEvent s h e).aliveLevel = s.aliveLevel := rfl
@[simp] theorem pushEvent_moduleDown (s : State) (h : Nat) (e : EventSpec) : (pushEvent s h e).moduleDown = s.moduleDown := rfl
@[simp] theorem pushEvent_queues (s : State) (h : Nat) (e : EventSpec) : (pushEvent s h e).queues = s.queues := rfl
@[simp] theorem pushEvent_sems (s : State) (h : Nat) (e : EventSpec) : (pushEvent s h e).sems = s.sems := rfl
@[simp] theorem pushEvent_semGrp (s : State) (h : Nat) (e : EventSpec) : (pushEvent s h e).semGrp = s.semGrp := rfl
@[simp] theorem pushEvent_own (s : State) (h : Nat) (e : EventSpec) : (pushEvent s h e).own = s.own := rfl
@[simp] theorem pushEvent_signals (s : State) (h : Nat) (e : EventSpec) : (pushEvent s h e).signals = s.signals := rfl
@[simp] theorem pushEvent_lcores (s : State) (h : Nat) (e : EventSpec) : (pushEvent s h e).lcores = s.lcores := rfl
@[simp] theorem pushEvent_positions (s : State) (h : Nat) (e : EventSpec) : (pushEvent s h e).positions = s.positions := rfl
@[simp] theorem pushEvent_hubs (s : State) (h : Nat) (e : EventSpec) : (pushEvent s h e).hubs = s.hubs := rfl
@[simp] theorem pushEvent_ports (s : State) (h : Nat) (e : EventSpec) : (pushEvent s h e).ports = s.ports := rfl
@[simp] theorem pushEvent_jobs (s : State) (h : Nat) (e : EventSpec) : (pushEvent s h e).jobs = s.jobs := rfl
@[simp] theorem pushEvent_slots (s : State) (h : Nat) (e : EventSpec) : (pushEvent s h e).slots = s.slots := rfl
@[simp] theorem pushEvent_stats (s : State) (h : Nat) (e : EventSpec) : (pushEvent s h e).stats = s.stats := rfl
@[simp] theorem pushEvent_miller (s : State) (h : Nat) (e : EventSpec) : (pushEvent s h e).miller = s.miller := rfl
@[simp] theorem pushEvent_chain (s : State) (h : Nat) (e : EventSpec) : (pushEvent s h e).chain = s.chain := rfl
@[simp] theorem pushEvent_power (s : State) (h : Nat) (e : EventSpec) : (pushEvent s h e).power = s.power := rfl
@[simp] theorem pushEvent_jtag (s : State) (h : Nat) (e : EventSpec) : (pushEvent s h e).jtag = s.jtag := rfl
@[simp] theorem pushEvent_timeCfg (s : State) (h : Nat) (e : EventSpec) : (pushEvent s h e).timeCfg = s.timeCfg := rfl
@[simp] theorem pushEvent_selfTest (s : State) (h : Nat) (e : EventSpec) : (pushEvent s h e).selfTest = s.selfTest := rfl
@[simp] theorem pushEvent_mem (s : State) (h : Nat) (e : EventSpec) : (pushEvent s h e).mem = s.mem := rfl
@[simp] theorem pushEvent_memErr (s : State) (h : Nat) (e : EventSpec) : (pushEvent s h e).memErr = s.memErr := rfl
@[simp] theorem pushEvent_outputs (s : State) (h : Nat) (e : EventSpec) : (pushEvent s h e).outputs = s.outputs := rfl
@[simp] theorem pushEvent_promotes (s : State) (h : Nat) (e : EventSpec) : (pushEvent s h e).promotes = s.promotes := rfl
@[simp] theorem pushEvent_series (s : State) (h : Nat) (e : EventSpec) : (pushEvent s h e).series = s.series := rfl
@[simp] theorem pushEvent_meshFault (s : State) (h : Nat) (e : EventSpec) : (pushEvent s h e).meshFault = s.meshFault := rfl
@[simp] theorem pushEvent_resent (s : State) (h : Nat) (e : EventSpec) : (pushEvent s h e).resent = s.resent := rfl
@[simp] theorem pushEvent_leafs (s : State) (h : Nat) (e : EventSpec) : (pushEvent s h e).leafs = s.leafs := rfl
@[simp] theorem pushEvent_hostMem (s : State) (h : Nat) (e : EventSpec) : (pushEvent s h e).hostMem = s.hostMem := rfl
@[simp] theorem pushEvent_hostRead (s : State) (h : Nat) (e : EventSpec) : (pushEvent s h e).hostRead = s.hostRead := rfl
@[simp] theorem pushEvent_hostReadPoison (s : State) (h : Nat) (e : EventSpec) : (pushEvent s h e).hostReadPoison = s.hostReadPoison := rfl
@[simp] theorem pushEvent_delivered (s : State) (h : Nat) (e : EventSpec) : (pushEvent s h e).delivered = s.delivered := rfl
@[simp] theorem raise_pending (s : State) (h src cls : Nat) (e : EventSpec) : (raise s h src cls e).pending = s.pending := rfl
@[simp] theorem raise_free (s : State) (h src cls : Nat) (e : EventSpec) : (raise s h src cls e).free = s.free := rfl
@[simp] theorem raise_order (s : State) (h src cls : Nat) (e : EventSpec) : (raise s h src cls e).order = s.order := rfl
@[simp] theorem raise_rate (s : State) (h src cls : Nat) (e : EventSpec) : (raise s h src cls e).rate = s.rate := rfl
@[simp] theorem raise_time (s : State) (h src cls : Nat) (e : EventSpec) : (raise s h src cls e).time = s.time := rfl
@[simp] theorem raise_time1 (s : State) (h src cls : Nat) (e : EventSpec) : (raise s h src cls e).time1 = s.time1 := rfl
@[simp] theorem raise_fuse (s : State) (h src cls : Nat) (e : EventSpec) : (raise s h src cls e).fuse = s.fuse := rfl
@[simp] theorem raise_started (s : State) (h src cls : Nat) (e : EventSpec) : (raise s h src cls e).started = s.started := rfl
@[simp] theorem raise_aliveLevel (s : State) (h src cls : Nat) (e : EventSpec) : (raise s h src cls e).aliveLevel = s.aliveLevel := rfl
@[simp] theorem raise_moduleDown (s : State) (h src cls : Nat) (e : EventSpec) : (raise s h src cls e).moduleDown = s.moduleDown := rfl
@[simp] theorem raise_queues (s : State) (h src cls : Nat) (e : EventSpec) : (raise s h src cls e).queues = s.queues := rfl
@[simp] theorem raise_sems (s : State) (h src cls : Nat) (e : EventSpec) : (raise s h src cls e).sems = s.sems := rfl
@[simp] theorem raise_semGrp (s : State) (h src cls : Nat) (e : EventSpec) : (raise s h src cls e).semGrp = s.semGrp := rfl
@[simp] theorem raise_own (s : State) (h src cls : Nat) (e : EventSpec) : (raise s h src cls e).own = s.own := rfl
@[simp] theorem raise_signals (s : State) (h src cls : Nat) (e : EventSpec) : (raise s h src cls e).signals = s.signals := rfl
@[simp] theorem raise_lcores (s : State) (h src cls : Nat) (e : EventSpec) : (raise s h src cls e).lcores = s.lcores := rfl
@[simp] theorem raise_positions (s : State) (h src cls : Nat) (e : EventSpec) : (raise s h src cls e).positions = s.positions := rfl
@[simp] theorem raise_hubs (s : State) (h src cls : Nat) (e : EventSpec) : (raise s h src cls e).hubs = s.hubs := rfl
@[simp] theorem raise_ports (s : State) (h src cls : Nat) (e : EventSpec) : (raise s h src cls e).ports = s.ports := rfl
@[simp] theorem raise_jobs (s : State) (h src cls : Nat) (e : EventSpec) : (raise s h src cls e).jobs = s.jobs := rfl
@[simp] theorem raise_slots (s : State) (h src cls : Nat) (e : EventSpec) : (raise s h src cls e).slots = s.slots := rfl
@[simp] theorem raise_stats (s : State) (h src cls : Nat) (e : EventSpec) : (raise s h src cls e).stats = s.stats := rfl
@[simp] theorem raise_miller (s : State) (h src cls : Nat) (e : EventSpec) : (raise s h src cls e).miller = s.miller := rfl
@[simp] theorem raise_chain (s : State) (h src cls : Nat) (e : EventSpec) : (raise s h src cls e).chain = s.chain := rfl
@[simp] theorem raise_power (s : State) (h src cls : Nat) (e : EventSpec) : (raise s h src cls e).power = s.power := rfl
@[simp] theorem raise_jtag (s : State) (h src cls : Nat) (e : EventSpec) : (raise s h src cls e).jtag = s.jtag := rfl
@[simp] theorem raise_timeCfg (s : State) (h src cls : Nat) (e : EventSpec) : (raise s h src cls e).timeCfg = s.timeCfg := rfl
@[simp] theorem raise_selfTest (s : State) (h src cls : Nat) (e : EventSpec) : (raise s h src cls e).selfTest = s.selfTest := rfl
@[simp] theorem raise_mem (s : State) (h src cls : Nat) (e : EventSpec) : (raise s h src cls e).mem = s.mem := rfl
@[simp] theorem raise_memErr (s : State) (h src cls : Nat) (e : EventSpec) : (raise s h src cls e).memErr = s.memErr := rfl
@[simp] theorem raise_outputs (s : State) (h src cls : Nat) (e : EventSpec) : (raise s h src cls e).outputs = s.outputs := rfl
@[simp] theorem raise_promotes (s : State) (h src cls : Nat) (e : EventSpec) : (raise s h src cls e).promotes = s.promotes := rfl
@[simp] theorem raise_series (s : State) (h src cls : Nat) (e : EventSpec) : (raise s h src cls e).series = s.series := rfl
@[simp] theorem raise_meshFault (s : State) (h src cls : Nat) (e : EventSpec) : (raise s h src cls e).meshFault = s.meshFault := rfl
@[simp] theorem raise_resent (s : State) (h src cls : Nat) (e : EventSpec) : (raise s h src cls e).resent = s.resent := rfl
@[simp] theorem raise_leafs (s : State) (h src cls : Nat) (e : EventSpec) : (raise s h src cls e).leafs = s.leafs := rfl
@[simp] theorem raise_hostMem (s : State) (h src cls : Nat) (e : EventSpec) : (raise s h src cls e).hostMem = s.hostMem := rfl
@[simp] theorem raise_hostRead (s : State) (h src cls : Nat) (e : EventSpec) : (raise s h src cls e).hostRead = s.hostRead := rfl
@[simp] theorem raise_hostReadPoison (s : State) (h src cls : Nat) (e : EventSpec) : (raise s h src cls e).hostReadPoison = s.hostReadPoison := rfl
@[simp] theorem raise_delivered (s : State) (h src cls : Nat) (e : EventSpec) : (raise s h src cls e).delivered = s.delivered := rfl

end Sys2Proof.Machine
end

