-- ==== Sys2Proof/Laws/Changes.lean ====
section
/-! SUPPORT. What one operation on the state may change, as one relation: `Changes L s t` says that from `s` to `t` only the parts of the
state in `L` change, that the commands that wait stay as they are, and that the canonical form of the tables and the legal configuration
are kept. Each shared operation has one lemma that says so of it; the lemmas of this file combine them. -/

namespace Sys2Proof.Machine

/-- The parts of the state, apart from the queue of commands. -/
inductive Part
  | free | order | rate | time | time1 | fuse | started | aliveLevel | moduleDown | queues | sems | semGrp | own | signals | lcores | positions | halls
  | hubs | ports | jobs | slots | stats | miller | chain | power | jtag | timeCfg | selfTest | mem | memErr | outputs | promotes
  | series | meshFault | resent | leafs | hostMem | hostRead | hostReadPoison | delivered
  deriving DecidableEq, Repr

/-- A part of two states is the same. -/
def Part.same (p : Part) (s t : State) : Prop :=
  match p with
  | .free => t.free = s.free
  | .order => t.order = s.order
  | .rate => t.rate = s.rate
  | .time => t.time = s.time
  | .time1 => t.time1 = s.time1
  | .fuse => t.fuse = s.fuse
  | .started => t.started = s.started
  | .aliveLevel => t.aliveLevel = s.aliveLevel
  | .moduleDown => t.moduleDown = s.moduleDown
  | .queues => t.queues = s.queues
  | .sems => t.sems = s.sems
  | .semGrp => t.semGrp = s.semGrp
  | .own => t.own = s.own
  | .signals => t.signals = s.signals
  | .lcores => t.lcores = s.lcores
  | .positions => t.positions = s.positions
  | .halls => t.halls = s.halls
  | .hubs => t.hubs = s.hubs
  | .ports => t.ports = s.ports
  | .jobs => t.jobs = s.jobs
  | .slots => t.slots = s.slots
  | .stats => t.stats = s.stats
  | .miller => t.miller = s.miller
  | .chain => t.chain = s.chain
  | .power => t.power = s.power
  | .jtag => t.jtag = s.jtag
  | .timeCfg => t.timeCfg = s.timeCfg
  | .selfTest => t.selfTest = s.selfTest
  | .mem => t.mem = s.mem
  | .memErr => t.memErr = s.memErr
  | .outputs => t.outputs = s.outputs
  | .promotes => t.promotes = s.promotes
  | .series => t.series = s.series
  | .meshFault => t.meshFault = s.meshFault
  | .resent => t.resent = s.resent
  | .leafs => t.leafs = s.leafs
  | .hostMem => t.hostMem = s.hostMem
  | .hostRead => t.hostRead = s.hostRead
  | .hostReadPoison => t.hostReadPoison = s.hostReadPoison
  | .delivered => t.delivered = s.delivered

theorem Part.same_refl (p : Part) (s : State) : p.same s s := by cases p <;> rfl

theorem Part.same_trans {p : Part} {s t u : State} (h : p.same s t) (k : p.same t u) : p.same s u := by
  cases p <;> exact Eq.trans k h

/-- From `s` to `t` only the parts in `L` change; the commands that wait stand, and both invariants are kept. -/
structure Changes (L : List Part) (s t : State) : Prop where
  pending : t.pending = s.pending
  only : ∀ p, L.contains p = false → p.same s t
  canonical : Canonical s → Canonical t
  legal : Legal s → Legal t

/-- Every part of `A` is one of `B`. -/
def Part.sub (A B : List Part) : Bool := A.all fun p => B.contains p

namespace Changes

variable {L M : List Part} {s t u : State}

theorem refl : Changes L s s := ⟨rfl, fun p _ => p.same_refl s, id, id⟩

/-- One more operation. -/
theorem next (h : Changes L s t) (k : Changes M t u) (hs : Part.sub M L = true) : Changes L s u := by
  refine ⟨k.pending.trans h.pending, fun p hp => ?_, fun c => k.canonical (h.canonical c), fun c => k.legal (h.legal c)⟩
  refine Part.same_trans (h.only p hp) (k.only p ?_)
  cases hm : M.contains p with
  | false => rfl
  | true =>
    have := (List.all_eq_true.1 hs) p (by simpa using hm)
    rw [hp] at this
    cases this

/-- More parts may be named. -/
theorem mono (k : Changes M s t) (hs : Part.sub M L = true) : Changes L s t := next refl k hs

theorem of_snd {α : Type} {x : α × State} {a : α} (h : Changes L s x.2) (e : x = (a, t)) : Changes L s t := by subst e; exact h

theorem of_fst {α : Type} {x : State × α} {a : α} (h : Changes L s x.1) (e : x = (t, a)) : Changes L s t := by subst e; exact h

theorem of_eq (h : Changes L s t) (e : t = u) : Changes L s u := by subst e; exact h

theorem ite_ {c : Prop} [Decidable c] (h : c → Changes L s t) (k : ¬c → Changes L s u) : Changes L s (if c then t else u) := by
  split
  · exact h ‹_›
  · exact k ‹_›

theorem ite_in {β : Type} (π : β → State) {c : Prop} [Decidable c] {a b : β} (h : c → Changes L s (π a)) (k : ¬c → Changes L s (π b)) :
    Changes L s (π (if c then a else b)) := by
  split
  · exact h ‹_›
  · exact k ‹_›

theorem foldl {α : Type} {f : State → α → State} {l : List α} (h : Changes L s t) (hf : ∀ u x, Changes L u (f u x)) :
    Changes L s (l.foldl f t) := by
  induction l generalizing t with
  | nil => exact h
  | cons a r ih => exact ih (next h (hf t a) (by simp [Part.sub]))

/-- A fold that carries the state inside something else. -/
theorem foldl_in {α β : Type} {f : β → α → β} (π : β → State) {l : List α} {b : β} (h : Changes L s (π b))
    (hf : ∀ u x, Changes L (π u) (π (f u x))) : Changes L s (π (l.foldl f b)) := by
  induction l generalizing b with
  | nil => exact h
  | cons a r ih => exact ih (next h (hf b a) (by simp [Part.sub]))

end Changes

/-! ## Reading from a legal table -/

theorem tabGet_of_all {α : Type} {P : α → Prop} {d : α} {t : Tab α} (hd : P d) (h : ∀ x ∈ t, P x.2) (k : Nat) : P (tabGet d t k) := by
  induction t with
  | nil => exact hd
  | cons x r ih =>
    obtain ⟨a, b⟩ := x
    simp only [tabGet]
    split
    · exact h (a, b) (by simp)
    · exact ih fun y hy => h y (by simp [hy])

theorem tabSet_all {α : Type} [DecidableEq α] {P : α → Prop} {d : α} {t : Tab α} (h : ∀ x ∈ t, P x.2) (k : Nat) {v : α} (hv : P v) :
    ∀ x ∈ tabSet d k v t, P x.2 := by
  induction t with
  | nil => unfold tabSet; split <;> simp [hv]
  | cons y r ih =>
    have hr := ih fun x hx => h x (List.mem_cons_of_mem _ hx)
    rw [List.forall_mem_cons] at h
    unfold tabSet
    repeat' split
    all_goals (try rw [List.forall_mem_cons])
    all_goals (try rw [List.forall_mem_cons])
    all_goals first | exact h.2 | exact h | exact ⟨hv, h⟩ | exact ⟨hv, h.2⟩ | exact ⟨h.1, hr⟩

theorem tabMap_all {α : Type} [DecidableEq α] {P : α → Prop} {d : α} {t : Tab α} {f : Nat → α → α} (h : ∀ x ∈ t, P x.2)
    (hf : ∀ k v, P v → P (f k v)) : ∀ x ∈ tabMap d f t, P x.2 := by
  induction t with
  | nil => simp [tabMap]
  | cons y r ih =>
    simp only [List.forall_mem_cons] at h
    rw [tabMap_cons]
    split
    · exact ih h.2
    · simpa using ⟨hf _ _ h.1, fun a b hab => ih h.2 (a, b) hab⟩

theorem Legal.queue {s : State} (h : Legal s) (k : Nat) : QueueLegal (getQueue s k) :=
  tabGet_of_all (by intro e; cases e) h.queues k

theorem resetHall_legal : HallLegal resetHall := by
  refine ⟨by decide, by decide, by decide, by decide, by decide, by decide, by decide, ?_⟩
  simp only [HallTables]
  decide

theorem Legal.hall {s : State} (h : Legal s) (k : Nat) : HallLegal (getHall s k) :=
  tabGet_of_all resetHall_legal h.halls k

theorem Legal.port {s : State} (h : Legal s) (k : Nat) : PortLegal (getPort s k) :=
  tabGet_of_all (by simp [PortLegal, tabWf, tabWfFrom]) h.ports k

theorem Legal.job {s : State} (h : Legal s) (k : Nat) : JobLegal (getJob s k) :=
  tabGet_of_all (by simp [JobLegal]) h.jobs k

theorem Legal.hub {s : State} (h : Legal s) (k : Nat) : HubLegal (getHub s k) :=
  tabGet_of_all (by simp [HubLegal, tabWf, tabWfFrom]) h.hubs k

theorem Legal.pos {s : State} (h : Legal s) (k : Nat) : PosLegal (getPos s k) :=
  tabGet_of_all (by simp [PosLegal, tabWf, tabWfFrom]) h.positions k

/-! ## A legal part with one of its tables written -/

theorem HallLegal.withFlash {hl : HallState} {t : Tab Byte} (h : HallLegal hl)
    (k : tabWf 0xFF hl.flash = true → tabWf 0xFF t = true) : HallLegal { hl with flash := t } :=
  ⟨h.1, h.2.1, h.2.2.1, h.2.2.2.1, h.2.2.2.2.1, h.2.2.2.2.2.1, h.2.2.2.2.2.2.1,
    k h.2.2.2.2.2.2.2.1, h.2.2.2.2.2.2.2.2.1, h.2.2.2.2.2.2.2.2.2.1, h.2.2.2.2.2.2.2.2.2.2.1, h.2.2.2.2.2.2.2.2.2.2.2.1, h.2.2.2.2.2.2.2.2.2.2.2.2.1, h.2.2.2.2.2.2.2.2.2.2.2.2.2⟩

theorem HallLegal.withMailbox {hl : HallState} {t : Tab Byte} (h : HallLegal hl)
    (k : tabWf 0 hl.mailbox = true → tabWf 0 t = true) : HallLegal { hl with mailbox := t } :=
  ⟨h.1, h.2.1, h.2.2.1, h.2.2.2.1, h.2.2.2.2.1, h.2.2.2.2.2.1, h.2.2.2.2.2.2.1,
    h.2.2.2.2.2.2.2.1, k h.2.2.2.2.2.2.2.2.1, h.2.2.2.2.2.2.2.2.2.1, h.2.2.2.2.2.2.2.2.2.2.1, h.2.2.2.2.2.2.2.2.2.2.2.1, h.2.2.2.2.2.2.2.2.2.2.2.2.1, h.2.2.2.2.2.2.2.2.2.2.2.2.2⟩

theorem HallLegal.withSeam {hl : HallState} {t : Tab SeamLink} (h : HallLegal hl)
    (k : tabWf {} hl.seam = true → tabWf {} t = true) : HallLegal { hl with seam := t } :=
  ⟨h.1, h.2.1, h.2.2.1, h.2.2.2.1, h.2.2.2.2.1, h.2.2.2.2.2.1, h.2.2.2.2.2.2.1,
    h.2.2.2.2.2.2.2.1, h.2.2.2.2.2.2.2.2.1, k h.2.2.2.2.2.2.2.2.2.1, h.2.2.2.2.2.2.2.2.2.2.1, h.2.2.2.2.2.2.2.2.2.2.2.1, h.2.2.2.2.2.2.2.2.2.2.2.2.1, h.2.2.2.2.2.2.2.2.2.2.2.2.2⟩

theorem HallLegal.withVectors {hl : HallState} {t : Tab Vector} (h : HallLegal hl)
    (k : tabWf {} hl.vectors = true → tabWf {} t = true) : HallLegal { hl with vectors := t } :=
  ⟨h.1, h.2.1, h.2.2.1, h.2.2.2.1, h.2.2.2.2.1, h.2.2.2.2.2.1, h.2.2.2.2.2.2.1,
    h.2.2.2.2.2.2.2.1, h.2.2.2.2.2.2.2.2.1, h.2.2.2.2.2.2.2.2.2.1, k h.2.2.2.2.2.2.2.2.2.2.1, h.2.2.2.2.2.2.2.2.2.2.2.1, h.2.2.2.2.2.2.2.2.2.2.2.2.1, h.2.2.2.2.2.2.2.2.2.2.2.2.2⟩

theorem HallLegal.withWindows {hl : HallState} {t : Tab WindowUse} (h : HallLegal hl)
    (k : tabWf {} hl.windows = true → tabWf {} t = true) : HallLegal { hl with windows := t } :=
  ⟨h.1, h.2.1, h.2.2.1, h.2.2.2.1, h.2.2.2.2.1, h.2.2.2.2.2.1, h.2.2.2.2.2.2.1,
    h.2.2.2.2.2.2.2.1, h.2.2.2.2.2.2.2.2.1, h.2.2.2.2.2.2.2.2.2.1, h.2.2.2.2.2.2.2.2.2.2.1, k h.2.2.2.2.2.2.2.2.2.2.2.1, h.2.2.2.2.2.2.2.2.2.2.2.2.1, h.2.2.2.2.2.2.2.2.2.2.2.2.2⟩

theorem HallLegal.withCopGrants {hl : HallState} {t : Tab Nat} (h : HallLegal hl)
    (k : tabWf 0 hl.copGrants = true → tabWf 0 t = true) : HallLegal { hl with copGrants := t } :=
  ⟨h.1, h.2.1, h.2.2.1, h.2.2.2.1, h.2.2.2.2.1, h.2.2.2.2.2.1, h.2.2.2.2.2.2.1,
    h.2.2.2.2.2.2.2.1, h.2.2.2.2.2.2.2.2.1, h.2.2.2.2.2.2.2.2.2.1, h.2.2.2.2.2.2.2.2.2.2.1, h.2.2.2.2.2.2.2.2.2.2.2.1, k h.2.2.2.2.2.2.2.2.2.2.2.2.1, h.2.2.2.2.2.2.2.2.2.2.2.2.2⟩

theorem HallLegal.withCopLent {hl : HallState} {t : Tab Nat} (h : HallLegal hl)
    (k : tabWf 0 hl.copLent = true → tabWf 0 t = true) : HallLegal { hl with copLent := t } :=
  ⟨h.1, h.2.1, h.2.2.1, h.2.2.2.1, h.2.2.2.2.1, h.2.2.2.2.2.1, h.2.2.2.2.2.2.1,
    h.2.2.2.2.2.2.2.1, h.2.2.2.2.2.2.2.2.1, h.2.2.2.2.2.2.2.2.2.1, h.2.2.2.2.2.2.2.2.2.2.1, h.2.2.2.2.2.2.2.2.2.2.2.1, h.2.2.2.2.2.2.2.2.2.2.2.2.1, k h.2.2.2.2.2.2.2.2.2.2.2.2.2⟩

theorem HallLegal.withCops {hl : HallState} {t u : Tab Nat} (h : HallLegal hl) (k : tabWf 0 hl.copGrants = true → tabWf 0 t = true)
    (l : tabWf 0 hl.copLent = true → tabWf 0 u = true) : HallLegal { hl with copGrants := t, copLent := u } :=
  (h.withCopGrants k).withCopLent l

theorem HubLegal.withPkgs {hb : HubState} {t : Tab Package} (h : HubLegal hb)
    (k : tabWf {} hb.pkgs = true → tabWf {} t = true) : HubLegal { hb with pkgs := t } := ⟨k h.1, h.2.1, h.2.2⟩

theorem HubLegal.withShadows {hb : HubState} {t : Tab Shadow} (h : HubLegal hb)
    (k : tabWf {} hb.shadows = true → tabWf {} t = true) : HubLegal { hb with shadows := t } := ⟨h.1, k h.2.1, h.2.2⟩

theorem HubLegal.withChannels {hb : HubState} {t : Tab Channel} (h : HubLegal hb)
    (k : tabWf {} hb.channels = true → tabWf {} t = true) : HubLegal { hb with channels := t } := ⟨h.1, h.2.1, k h.2.2⟩

theorem PosLegal.withStore {ps : Position} {t : Tab SByte} (h : PosLegal ps)
    (k : tabWf {} ps.store = true → tabWf {} t = true) : PosLegal { ps with store := t } := ⟨k h.1, h.2⟩

theorem PosLegal.withRecords {ps : Position} {t : Tab BlockRec} (h : PosLegal ps)
    (k : tabWf {} ps.records = true → tabWf {} t = true) : PosLegal { ps with records := t } := ⟨h.1, k h.2⟩

theorem PortLegal.withLanes {p : PortState} {t : Tab Lane} (h : PortLegal p) (k : tabWf {} p.lanes = true → tabWf {} t = true) :
    PortLegal { p with lanes := t } := ⟨h.1, k h.2⟩

/-! ## The updates of one part -/

/-- What `Changes` says but for the legal configuration. -/
structure Frames (L : List Part) (s t : State) : Prop where
  pending : t.pending = s.pending
  only : ∀ p, L.contains p = false → p.same s t
  canonical : Canonical s → Canonical t

theorem Changes.of_frames {L : List Part} {s t : State} (h : Frames L s t) (k : Legal s → Legal t) : Changes L s t :=
  ⟨h.pending, h.only, h.canonical, k⟩

theorem Changes.and_frames {L M : List Part} {s t u : State} (h : Changes L s t) (k : Frames M t u) (hs : Part.sub M L = true)
    (hl : Legal s → Legal t → Legal u) : Changes L s u := by
  refine ⟨k.pending.trans h.pending, fun p hp => Part.same_trans (h.only p hp) (k.only p ?_), fun c => k.canonical (h.canonical c),
    fun l => hl l (h.legal l)⟩
  cases hm : M.contains p with
  | false => rfl
  | true =>
    have := (List.all_eq_true.1 hs) p (by simpa using hm)
    rw [hp] at this
    cases this

theorem setQueue_frames {s : State} {k : Nat} {v : Queue} : Frames [.queues] s (setQueue s k v) :=
  ⟨rfl, fun p hp => by cases p <;> first | rfl | exact absurd hp (by decide),
    fun c => { c with queues := tabWf_tabSet c.queues _ _ }⟩

theorem setQueue_changes {s : State} {k : Nat} {v : Queue} (hv : Legal s → QueueLegal v) : Changes [.queues] s (setQueue s k v) :=
  .of_frames setQueue_frames fun l => { l with queues := tabSet_all l.queues _ (hv l) }

theorem Changes.setQueue {L : List Part} {s t : State} {k : Nat} {v : Queue} (h : Changes L s t) (hv : Legal s → Legal t → QueueLegal v)
    (hs : Part.sub [.queues] L = true) : Changes L s (setQueue t k v) :=
  h.and_frames setQueue_frames hs fun m l => { l with queues := tabSet_all l.queues _ (hv m l) }

theorem modQueue_changes {s : State} {k : Nat} {f : Queue → Queue} (hf : ∀ x, QueueLegal x → QueueLegal (f x)) : Changes [.queues] s (modQueue s k f) :=
  setQueue_changes fun l => hf _ (l.queue _)

theorem Changes.modQueue {L : List Part} {s t : State} {k : Nat} {f : Queue → Queue} (h : Changes L s t)
    (hf : Legal s → Legal t → QueueLegal (f (getQueue t k))) (hs : Part.sub [.queues] L = true) : Changes L s (modQueue t k f) :=
  h.setQueue hf hs

theorem setSem_changes {s : State} {k : Nat} {v : Semaphore} : Changes [.sems] s (setSem s k v) :=
  ⟨rfl, fun p hp => by cases p <;> first | rfl | exact absurd hp (by decide),
    fun c => { c with sems := tabWf_tabSet c.sems _ _ },
    fun l => { l with rate := l.rate }⟩

theorem setSemGrp_changes {s : State} {k : Nat} {v : Owner} : Changes [.semGrp] s (setSemGrp s k v) :=
  ⟨rfl, fun p hp => by cases p <;> first | rfl | exact absurd hp (by decide),
    fun c => { c with semGrp := tabWf_tabSet c.semGrp _ _ },
    fun l => { l with rate := l.rate }⟩

theorem setOwn_changes {s : State} {k : Nat} {v : Owner} : Changes [.own] s (setOwn s k v) :=
  ⟨rfl, fun p hp => by cases p <;> first | rfl | exact absurd hp (by decide),
    fun c => { c with own := tabWf_tabSet c.own _ _ },
    fun l => { l with rate := l.rate }⟩

theorem setCore_changes {s : State} {k : Nat} {v : LCore} : Changes [.lcores] s (setCore s k v) :=
  ⟨rfl, fun p hp => by cases p <;> first | rfl | exact absurd hp (by decide),
    fun c => { c with lcores := tabWf_tabSet c.lcores _ _ },
    fun l => { l with rate := l.rate }⟩

theorem modCore_changes {s : State} {k : Nat} {f : LCore → LCore} : Changes [.lcores] s (modCore s k f) := setCore_changes

theorem setPos_frames {s : State} {k : Nat} {v : Position} : Frames [.positions] s (setPos s k v) :=
  ⟨rfl, fun p hp => by cases p <;> first | rfl | exact absurd hp (by decide),
    fun c => { c with positions := tabWf_tabSet c.positions _ _ }⟩

theorem setPos_changes {s : State} {k : Nat} {v : Position} (hv : Legal s → PosLegal v) : Changes [.positions] s (setPos s k v) :=
  .of_frames setPos_frames fun l => { l with positions := tabSet_all l.positions _ (hv l) }

theorem Changes.setPos {L : List Part} {s t : State} {k : Nat} {v : Position} (h : Changes L s t) (hv : Legal s → Legal t → PosLegal v)
    (hs : Part.sub [.positions] L = true) : Changes L s (setPos t k v) :=
  h.and_frames setPos_frames hs fun m l => { l with positions := tabSet_all l.positions _ (hv m l) }

theorem modPos_changes {s : State} {k : Nat} {f : Position → Position} (hf : ∀ x, PosLegal x → PosLegal (f x)) : Changes [.positions] s (modPos s k f) :=
  setPos_changes fun l => hf _ (l.pos _)

theorem Changes.modPos {L : List Part} {s t : State} {k : Nat} {f : Position → Position} (h : Changes L s t)
    (hf : Legal s → Legal t → PosLegal (f (getPos t k))) (hs : Part.sub [.positions] L = true) : Changes L s (modPos t k f) :=
  h.setPos hf hs

theorem setHall_frames {s : State} {k : Nat} {v : HallState} : Frames [.halls] s (setHall s k v) :=
  ⟨rfl, fun p hp => by cases p <;> first | rfl | exact absurd hp (by decide),
    fun c => { c with halls := tabWf_tabSet c.halls _ _ }⟩

theorem setHall_changes {s : State} {k : Nat} {v : HallState} (hv : Legal s → HallLegal v) : Changes [.halls] s (setHall s k v) :=
  .of_frames setHall_frames fun l => { l with halls := tabSet_all l.halls _ (hv l) }

theorem Changes.setHall {L : List Part} {s t : State} {k : Nat} {v : HallState} (h : Changes L s t) (hv : Legal s → Legal t → HallLegal v)
    (hs : Part.sub [.halls] L = true) : Changes L s (setHall t k v) :=
  h.and_frames setHall_frames hs fun m l => { l with halls := tabSet_all l.halls _ (hv m l) }

theorem modHall_changes {s : State} {k : Nat} {f : HallState → HallState} (hf : ∀ x, HallLegal x → HallLegal (f x)) : Changes [.halls] s (modHall s k f) :=
  setHall_changes fun l => hf _ (l.hall _)

theorem Changes.modHall {L : List Part} {s t : State} {k : Nat} {f : HallState → HallState} (h : Changes L s t)
    (hf : Legal s → Legal t → HallLegal (f (getHall t k))) (hs : Part.sub [.halls] L = true) : Changes L s (modHall t k f) :=
  h.setHall hf hs

theorem setHub_frames {s : State} {k : Nat} {v : HubState} : Frames [.hubs] s (setHub s k v) :=
  ⟨rfl, fun p hp => by cases p <;> first | rfl | exact absurd hp (by decide),
    fun c => { c with hubs := tabWf_tabSet c.hubs _ _ }⟩

theorem setHub_changes {s : State} {k : Nat} {v : HubState} (hv : Legal s → HubLegal v) : Changes [.hubs] s (setHub s k v) :=
  .of_frames setHub_frames fun l => { l with hubs := tabSet_all l.hubs _ (hv l) }

theorem Changes.setHub {L : List Part} {s t : State} {k : Nat} {v : HubState} (h : Changes L s t) (hv : Legal s → Legal t → HubLegal v)
    (hs : Part.sub [.hubs] L = true) : Changes L s (setHub t k v) :=
  h.and_frames setHub_frames hs fun m l => { l with hubs := tabSet_all l.hubs _ (hv m l) }

theorem modHub_changes {s : State} {k : Nat} {f : HubState → HubState} (hf : ∀ x, HubLegal x → HubLegal (f x)) : Changes [.hubs] s (modHub s k f) :=
  setHub_changes fun l => hf _ (l.hub _)

theorem Changes.modHub {L : List Part} {s t : State} {k : Nat} {f : HubState → HubState} (h : Changes L s t)
    (hf : Legal s → Legal t → HubLegal (f (getHub t k))) (hs : Part.sub [.hubs] L = true) : Changes L s (modHub t k f) :=
  h.setHub hf hs

theorem setPort_frames {s : State} {k : Nat} {v : PortState} : Frames [.ports] s (setPort s k v) :=
  ⟨rfl, fun p hp => by cases p <;> first | rfl | exact absurd hp (by decide),
    fun c => { c with ports := tabWf_tabSet c.ports _ _ }⟩

theorem setPort_changes {s : State} {k : Nat} {v : PortState} (hv : Legal s → PortLegal v) : Changes [.ports] s (setPort s k v) :=
  .of_frames setPort_frames fun l => { l with ports := tabSet_all l.ports _ (hv l) }

theorem Changes.setPort {L : List Part} {s t : State} {k : Nat} {v : PortState} (h : Changes L s t) (hv : Legal s → Legal t → PortLegal v)
    (hs : Part.sub [.ports] L = true) : Changes L s (setPort t k v) :=
  h.and_frames setPort_frames hs fun m l => { l with ports := tabSet_all l.ports _ (hv m l) }

theorem modPort_changes {s : State} {k : Nat} {f : PortState → PortState} (hf : ∀ x, PortLegal x → PortLegal (f x)) : Changes [.ports] s (modPort s k f) :=
  setPort_changes fun l => hf _ (l.port _)

theorem Changes.modPort {L : List Part} {s t : State} {k : Nat} {f : PortState → PortState} (h : Changes L s t)
    (hf : Legal s → Legal t → PortLegal (f (getPort t k))) (hs : Part.sub [.ports] L = true) : Changes L s (modPort t k f) :=
  h.setPort hf hs

theorem setJob_frames {s : State} {k : Nat} {v : JobState} : Frames [.jobs] s (setJob s k v) :=
  ⟨rfl, fun p hp => by cases p <;> first | rfl | exact absurd hp (by decide),
    fun c => { c with jobs := tabWf_tabSet c.jobs _ _ }⟩

theorem setJob_changes {s : State} {k : Nat} {v : JobState} (hv : Legal s → JobLegal v) : Changes [.jobs] s (setJob s k v) :=
  .of_frames setJob_frames fun l => { l with jobs := tabSet_all l.jobs _ (hv l) }

theorem Changes.setJob {L : List Part} {s t : State} {k : Nat} {v : JobState} (h : Changes L s t) (hv : Legal s → Legal t → JobLegal v)
    (hs : Part.sub [.jobs] L = true) : Changes L s (setJob t k v) :=
  h.and_frames setJob_frames hs fun m l => { l with jobs := tabSet_all l.jobs _ (hv m l) }

theorem modJob_changes {s : State} {k : Nat} {f : JobState → JobState} (hf : ∀ x, JobLegal x → JobLegal (f x)) : Changes [.jobs] s (modJob s k f) :=
  setJob_changes fun l => hf _ (l.job _)

theorem Changes.modJob {L : List Part} {s t : State} {k : Nat} {f : JobState → JobState} (h : Changes L s t)
    (hf : Legal s → Legal t → JobLegal (f (getJob t k))) (hs : Part.sub [.jobs] L = true) : Changes L s (modJob t k f) :=
  h.setJob hf hs

theorem setSlot_changes {s : State} {j i : Nat} {v : Slot} : Changes [.slots] s (setSlot s j i v) :=
  ⟨rfl, fun p hp => by cases p <;> first | rfl | exact absurd hp (by decide),
    fun c => { c with slots := tabWf_tabSet c.slots _ _ },
    fun l => { l with rate := l.rate }⟩

theorem setStats_changes {s : State} {h j i : Nat} {v : Stats} : Changes [.stats] s (setStats s h j i v) :=
  ⟨rfl, fun p hp => by cases p <;> first | rfl | exact absurd hp (by decide),
    fun c => { c with stats := tabWf_tabSet c.stats _ _ },
    fun l => { l with rate := l.rate }⟩

theorem with_miller_frames {s : State} {m : Miller} : Frames [.miller] s { s with miller := m } :=
  ⟨rfl, fun p hp => by cases p <;> first | rfl | exact absurd hp (by decide),
    fun c => { c with mem := c.mem }⟩

theorem Changes.setMiller {L : List Part} {s t : State} {m : Miller} (h : Changes L s t)
    (hm : Legal s → Legal t → MillerLegal m) (hs : Part.sub [.miller] L = true) : Changes L s { t with miller := m } :=
  h.and_frames with_miller_frames hs fun k l => { l with miller := hm k l }

theorem with_free_changes {s : State} {v : Nat} : Changes [.free] s { s with free := v } :=
  ⟨rfl, fun p hp => by cases p <;> first | rfl | exact absurd hp (by decide),
    fun c => { c with mem := c.mem }, fun l => { l with rate := l.rate }⟩

theorem with_time_changes {s : State} {v : W64} : Changes [.time] s { s with time := v } :=
  ⟨rfl, fun p hp => by cases p <;> first | rfl | exact absurd hp (by decide),
    fun c => { c with mem := c.mem }, fun l => { l with rate := l.rate }⟩

theorem with_time1_changes {s : State} {v : W64} : Changes [.time1] s { s with time1 := v } :=
  ⟨rfl, fun p hp => by cases p <;> first | rfl | exact absurd hp (by decide),
    fun c => { c with mem := c.mem }, fun l => { l with rate := l.rate }⟩

theorem with_meshFault_changes {s : State} {v : Option MeshFault} : Changes [.meshFault] s { s with meshFault := v } :=
  ⟨rfl, fun p hp => by cases p <;> first | rfl | exact absurd hp (by decide),
    fun c => { c with mem := c.mem }, fun l => { l with rate := l.rate }⟩

theorem with_resent_changes {s : State} {v : Option (Nat × Nat)} : Changes [.resent] s { s with resent := v } :=
  ⟨rfl, fun p hp => by cases p <;> first | rfl | exact absurd hp (by decide),
    fun c => { c with mem := c.mem }, fun l => { l with rate := l.rate }⟩

theorem with_outputs_changes {s : State} {v : Nat} : Changes [.outputs] s { s with outputs := v } :=
  ⟨rfl, fun p hp => by cases p <;> first | rfl | exact absurd hp (by decide),
    fun c => { c with mem := c.mem }, fun l => { l with rate := l.rate }⟩

theorem with_promotes_changes {s : State} {v : List W32} : Changes [.promotes] s { s with promotes := v } :=
  ⟨rfl, fun p hp => by cases p <;> first | rfl | exact absurd hp (by decide),
    fun c => { c with mem := c.mem }, fun l => { l with rate := l.rate }⟩

theorem with_started_changes {s : State} {v : Bool} : Changes [.started] s { s with started := v } :=
  ⟨rfl, fun p hp => by cases p <;> first | rfl | exact absurd hp (by decide),
    fun c => { c with mem := c.mem }, fun l => { l with rate := l.rate }⟩

theorem with_aliveLevel_changes {s : State} {v : Bool} : Changes [.aliveLevel] s { s with aliveLevel := v } :=
  ⟨rfl, fun p hp => by cases p <;> first | rfl | exact absurd hp (by decide),
    fun c => { c with mem := c.mem }, fun l => { l with rate := l.rate }⟩

theorem with_moduleDown_changes {s : State} {v : Bool} : Changes [.moduleDown] s { s with moduleDown := v } :=
  ⟨rfl, fun p hp => by cases p <;> first | rfl | exact absurd hp (by decide),
    fun c => { c with mem := c.mem }, fun l => { l with rate := l.rate }⟩

theorem with_signals_changes {s : State} {v : List Signal} : Changes [.signals] s { s with signals := v } :=
  ⟨rfl, fun p hp => by cases p <;> first | rfl | exact absurd hp (by decide),
    fun c => { c with mem := c.mem }, fun l => { l with rate := l.rate }⟩

theorem with_chain_changes {s : State} {v : Chain} : Changes [.chain] s { s with chain := v } :=
  ⟨rfl, fun p hp => by cases p <;> first | rfl | exact absurd hp (by decide),
    fun c => { c with mem := c.mem }, fun l => { l with rate := l.rate }⟩

theorem with_power_changes {s : State} {v : Power} : Changes [.power] s { s with power := v } :=
  ⟨rfl, fun p hp => by cases p <;> first | rfl | exact absurd hp (by decide),
    fun c => { c with mem := c.mem }, fun l => { l with rate := l.rate }⟩

theorem with_jtag_changes {s : State} {v : Jtag} : Changes [.jtag] s { s with jtag := v } :=
  ⟨rfl, fun p hp => by cases p <;> first | rfl | exact absurd hp (by decide),
    fun c => { c with mem := c.mem }, fun l => { l with rate := l.rate }⟩

theorem with_timeCfg_changes {s : State} {v : TimeCfg} : Changes [.timeCfg] s { s with timeCfg := v } :=
  ⟨rfl, fun p hp => by cases p <;> first | rfl | exact absurd hp (by decide),
    fun c => { c with mem := c.mem }, fun l => { l with rate := l.rate }⟩

theorem with_selfTest_changes {s : State} {v : SelfTest} : Changes [.selfTest] s { s with selfTest := v } :=
  ⟨rfl, fun p hp => by cases p <;> first | rfl | exact absurd hp (by decide),
    fun c => { c with mem := c.mem }, fun l => { l with rate := l.rate }⟩

theorem with_delivered_changes {s : State} {v : List (Byte × Bool)} : Changes [.delivered] s { s with delivered := v } :=
  ⟨rfl, fun p hp => by cases p <;> first | rfl | exact absurd hp (by decide),
    fun c => { c with mem := c.mem }, fun l => { l with rate := l.rate }⟩

theorem with_time_time1_changes {s : State} {v0 : W64} {v1 : W64} : Changes [.time, .time1] s { s with time := v0, time1 := v1 } :=
  ⟨rfl, fun p hp => by cases p <;> first | rfl | exact absurd hp (by decide),
    fun c => { c with mem := c.mem }, fun l => { l with rate := l.rate }⟩

theorem with_outputs_promotes_changes {s : State} {v0 : Nat} {v1 : List W32} : Changes [.outputs, .promotes] s { s with outputs := v0, promotes := v1 } :=
  ⟨rfl, fun p hp => by cases p <;> first | rfl | exact absurd hp (by decide),
    fun c => { c with mem := c.mem }, fun l => { l with rate := l.rate }⟩

theorem with_meshFault_resent_changes {s : State} {v0 : Option MeshFault} {v1 : Option (Nat × Nat)} : Changes [.meshFault, .resent] s { s with meshFault := v0, resent := v1 } :=
  ⟨rfl, fun p hp => by cases p <;> first | rfl | exact absurd hp (by decide),
    fun c => { c with mem := c.mem }, fun l => { l with rate := l.rate }⟩

theorem with_aliveLevel_chain_power_changes {s : State} {v0 : Bool} {v1 : Chain} {v2 : Power} : Changes [.aliveLevel, .chain, .power] s { s with aliveLevel := v0, chain := v1, power := v2 } :=
  ⟨rfl, fun p hp => by cases p <;> first | rfl | exact absurd hp (by decide),
    fun c => { c with mem := c.mem }, fun l => { l with rate := l.rate }⟩

theorem with_moduleDown_power_changes {s : State} {v0 : Bool} {v1 : Power} : Changes [.moduleDown, .power] s { s with moduleDown := v0, power := v1 } :=
  ⟨rfl, fun p hp => by cases p <;> first | rfl | exact absurd hp (by decide),
    fun c => { c with mem := c.mem }, fun l => { l with rate := l.rate }⟩

theorem with_aliveLevel_chain_power_jtag_changes {s : State} {v0 : Bool} {v1 : Chain} {v2 : Power} {v3 : Jtag} : Changes [.aliveLevel, .chain, .power, .jtag] s { s with aliveLevel := v0, chain := v1, power := v2, jtag := v3 } :=
  ⟨rfl, fun p hp => by cases p <;> first | rfl | exact absurd hp (by decide),
    fun c => { c with mem := c.mem }, fun l => { l with rate := l.rate }⟩

theorem with_started_power_changes {s : State} {v0 : Bool} {v1 : Power} : Changes [.started, .power] s { s with started := v0, power := v1 } :=
  ⟨rfl, fun p hp => by cases p <;> first | rfl | exact absurd hp (by decide),
    fun c => { c with mem := c.mem }, fun l => { l with rate := l.rate }⟩

theorem with_chain_power_changes {s : State} {v0 : Chain} {v1 : Power} : Changes [.chain, .power] s { s with chain := v0, power := v1 } :=
  ⟨rfl, fun p hp => by cases p <;> first | rfl | exact absurd hp (by decide),
    fun c => { c with mem := c.mem }, fun l => { l with rate := l.rate }⟩

theorem with_chain_jtag_changes {s : State} {v0 : Chain} {v1 : Jtag} : Changes [.chain, .jtag] s { s with chain := v0, jtag := v1 } :=
  ⟨rfl, fun p hp => by cases p <;> first | rfl | exact absurd hp (by decide),
    fun c => { c with mem := c.mem }, fun l => { l with rate := l.rate }⟩

theorem with_miller_power_changes {s : State} {m : Miller} {v : Power} (hm : MillerLegal s.miller → MillerLegal m) :
    Changes [.miller, .power] s { s with miller := m, power := v } :=
  ⟨rfl, fun p hp => by cases p <;> first | rfl | exact absurd hp (by decide),
    fun c => { c with mem := c.mem }, fun l => { l with miller := hm l.miller }⟩

theorem with_hostRead_changes {s : State} {v : List Byte} {b : Bool} :
    Changes [.hostRead, .hostReadPoison] s { s with hostRead := v, hostReadPoison := b } :=
  ⟨rfl, fun p hp => by cases p <;> first | rfl | exact absurd hp (by decide),
    fun c => { c with mem := c.mem }, fun l => { l with rate := l.rate }⟩

theorem with_hostMem_changes {s : State} {a : Nat} {bs : List Byte} :
    Changes [.hostMem] s { s with hostMem := putBytes s.hostMem a bs } :=
  ⟨rfl, fun p hp => by cases p <;> first | rfl | exact absurd hp (by decide),
    fun c => { c with hostMem := memory_wf_putBytes c.hostMem _ _ }, fun l => { l with rate := l.rate }⟩

theorem with_mem_changes {s : State} {a k : Nat} {bs : List Byte} {e : PairErr} :
    Changes [.mem, .memErr] s { s with mem := putBytes s.mem a bs, memErr := tabSet {} k e s.memErr } :=
  ⟨rfl, fun p hp => by cases p <;> first | rfl | exact absurd hp (by decide),
    fun c => { c with mem := memory_wf_putBytes c.mem _ _, memErr := tabWf_tabSet c.memErr _ _ }, fun l => { l with rate := l.rate }⟩

theorem with_leafs_changes {s : State} {t : Tab (List Leaf)} (ht : tabWf [] s.leafs = true → tabWf [] t = true) :
    Changes [.leafs] s { s with leafs := t } :=
  ⟨rfl, fun p hp => by cases p <;> first | rfl | exact absurd hp (by decide),
    fun c => { c with leafs := ht c.leafs }, fun l => { l with rate := l.rate }⟩

theorem with_series_changes {s : State} {k : Nat} {v : Series} : Changes [.series] s { s with series := tabSet {} k v s.series } :=
  ⟨rfl, fun p hp => by cases p <;> first | rfl | exact absurd hp (by decide),
    fun c => { c with series := tabWf_tabSet c.series _ _ }, fun l => { l with rate := l.rate }⟩

theorem with_rate_changes {s : State} {r : Rate} (h : r.code ≤ s.order.rate.code) : Changes [.rate] s { s with rate := r } :=
  ⟨rfl, fun p hp => by cases p <;> first | rfl | exact absurd hp (by decide),
    fun c => { c with mem := c.mem }, fun l => { l with rate := h }⟩

theorem with_faulted_changes {s : State} {c : Tab LCore} {p : Tab Position} {u : Tab HubState} {o : Tab PortState}
    {j : Tab JobState} (hj : tabWf {} s.jobs = true → tabWf {} j = true) (hk : (∀ x ∈ s.jobs, JobLegal x.2) → ∀ x ∈ j, JobLegal x.2)
    (hc : tabWf {} s.lcores = true → tabWf {} c = true) (hp : tabWf {} s.positions = true → tabWf {} p = true)
    (hu : tabWf {} s.hubs = true → tabWf {} u = true) (ho : tabWf {} s.ports = true → tabWf {} o = true)
    (hl : (∀ x ∈ s.ports, PortLegal x.2) → ∀ x ∈ o, PortLegal x.2) (hq : (∀ x ∈ s.positions, PosLegal x.2) → ∀ x ∈ p, PosLegal x.2)
    (hv : (∀ x ∈ s.hubs, HubLegal x.2) → ∀ x ∈ u, HubLegal x.2) :
    Changes [.lcores, .positions, .hubs, .ports, .jobs] s { s with lcores := c, positions := p, hubs := u, ports := o, jobs := j } :=
  ⟨rfl, fun p hp => by cases p <;> first | rfl | exact absurd hp (by decide),
    fun c => { c with lcores := hc c.lcores, positions := hp c.positions, hubs := hu c.hubs, ports := ho c.ports, jobs := hj c.jobs }, fun l => { l with ports := hl l.ports, positions := hq l.positions, hubs := hv l.hubs, jobs := hk l.jobs }⟩

theorem with_stats_changes {s : State} {f : Nat × Stats → Bool} : Changes [.stats] s { s with stats := s.stats.filter f } :=
  ⟨rfl, fun p hp => by cases p <;> first | rfl | exact absurd hp (by decide),
    fun c => { c with stats := tabWf_filter c.stats _ }, fun l => { l with rate := l.rate }⟩

end Sys2Proof.Machine
end

