-- ==== Sys2Proof/Laws/ChangeOps.lean ====
section
/-! SUPPORT. What the operations of Machine/Ops may change. -/

namespace Sys2Proof.Machine

theorem hallEvent_legal {hl : HallState} {now : W64} {e : EventSpec} (h : HallLegal hl) : HallLegal (hallEvent hl now e) := by
  unfold hallEvent
  split <;> exact h

theorem takeFree_changes {s : State} : Changes [.free] s (takeFree s).2 := by
  unfold takeFree
  with_reducible refine Changes.next ?_ with_free_changes (by decide)
  with_reducible exact Changes.refl

theorem setTime_changes {s : State} {f : W64 → W64} : Changes [.time, .time1] s (setTime s f) := by
  unfold setTime
  with_reducible refine Changes.next ?_ with_time_time1_changes (by decide)
  with_reducible exact Changes.refl

theorem tick_changes {s : State} : Changes [.time, .time1] s (tick s) := by
  unfold tick
  with_reducible refine Changes.next ?_ with_time_time1_changes (by decide)
  with_reducible exact Changes.refl

theorem pushEvent_changes {s : State} {h : Nat} {e : EventSpec} : Changes [.halls] s (pushEvent s h e) := by
  unfold pushEvent
  with_reducible refine Changes.next ?_ (modHall_changes ?_) (by decide)
  · with_reducible exact Changes.refl
  · exact fun _ h => hallEvent_legal h

theorem pushEventBoth_changes {s : State} {e : EventSpec} : Changes [.halls] s (pushEventBoth s e) := by
  unfold pushEventBoth
  with_reducible refine Changes.next ?_ pushEvent_changes (by decide)
  with_reducible refine Changes.next ?_ pushEvent_changes (by decide)
  with_reducible exact Changes.refl

theorem setSticky_changes {s : State} {h : Nat} {src : Nat} {cls : Nat} : Changes [.halls] s (setSticky s h src cls) := by
  unfold setSticky
  with_reducible refine Changes.next ?_ (modHall_changes ?_) (by decide)
  · with_reducible exact Changes.refl
  · exact fun _ h => h

theorem raise_changes {s : State} {h : Nat} {src : Nat} {cls : Nat} {e : EventSpec} : Changes [.halls] s (raise s h src cls e) := by
  unfold raise
  with_reducible refine Changes.next ?_ pushEvent_changes (by decide)
  with_reducible refine Changes.next ?_ setSticky_changes (by decide)
  with_reducible exact Changes.refl

theorem raiseQuiet_changes {s : State} {h : Nat} {src : Nat} : Changes [.halls] s (raiseQuiet s h src) := by
  unfold raiseQuiet
  with_reducible refine Changes.next ?_ setSticky_changes (by decide)
  with_reducible exact Changes.refl

theorem raiseBoth_changes {s : State} {src : Nat} {cls : Nat} {e : EventSpec} : Changes [.halls] s (raiseBoth s src cls e) := by
  unfold raiseBoth
  with_reducible refine Changes.next ?_ raise_changes (by decide)
  with_reducible refine Changes.next ?_ raise_changes (by decide)
  with_reducible exact Changes.refl

end Sys2Proof.Machine
end

