-- ==== Sys2Proof/Laws/ChangeNet.lean ====
section
/-! SUPPORT. What the operations of Machine/Net may change. -/

namespace Sys2Proof.Machine

theorem travel_changes {s : State} {v : Vc} {w : Way} : Changes [.halls, .outputs, .promotes] s (travel s v w) := by
  unfold travel
  with_reducible refine Changes.ite_ (fun _ => ?_) (fun _ => ?_)
  · with_reducible refine Changes.next ?_ with_outputs_promotes_changes (by decide)
    with_reducible refine Changes.foldl ?_ (fun _ _ => ?_)
    · with_reducible exact Changes.refl
    · with_reducible refine Changes.next ?_ (modHall_changes ?_) (by decide)
      · with_reducible exact Changes.refl
      · exact fun _ h => h
  · with_reducible refine Changes.foldl ?_ (fun _ _ => ?_)
    · with_reducible exact Changes.refl
    · with_reducible refine Changes.next ?_ (modHall_changes ?_) (by decide)
      · with_reducible exact Changes.refl
      · exact fun _ h => h

theorem setSeries_changes {s : State} {k : Nat} {v : Series} : Changes [.series] s (setSeries s k v) := by
  unfold setSeries
  with_reducible refine Changes.next ?_ with_series_changes (by decide)
  with_reducible exact Changes.refl

theorem transact_changes {s : State} {k : Nat} : Changes [.series] s (transact s k) := by
  unfold transact
  with_reducible refine Changes.next ?_ setSeries_changes (by decide)
  with_reducible exact Changes.refl

end Sys2Proof.Machine
end

