-- ==== Sys2Proof/Laws/ChangeHubMem.lean ====
section
/-! SUPPORT. What the operations of Machine/HubMem may change. -/

namespace Sys2Proof.Machine

theorem setPkg_legal {hb : HubState} {i : Nat} {p : Package} (h : HubLegal hb) : HubLegal (setPkg hb i p) :=
  h.withPkgs (tabWf_tabSet · _ _)

theorem retired_legal {hb : HubState} {i : Nat} {p : Package} {f : Nat × Shadow → Bool} {r : List (Nat × Nat × Nat)} (h : HubLegal hb) :
    HubLegal { setPkg hb i p with shadows := hb.shadows.filter f, hardRows := r } :=
  ⟨tabWf_tabSet h.1 _ _, tabWf_filter h.2.1 _, h.2.2⟩

theorem logDecision_changes {s : State} {h : Nat} {entry : List Byte} : Changes [.halls] s (logDecision s h entry) := by
  unfold logDecision
  with_reducible refine Changes.next ?_ (modHall_changes ?_) (by decide)
  · with_reducible exact Changes.refl
  · exact fun _ h => h

theorem writeCodeword_changes {s : State} {pair : Nat} {data : List Byte} {pat : W64} : Changes [.hubs, .mem, .memErr] s
    (writeCodeword s pair data pat) := by
  unfold writeCodeword
  with_reducible refine Changes.next ?_ with_mem_changes (by decide)
  with_reducible refine Changes.ite_ (fun _ => ?_) (fun _ => ?_)
  · with_reducible refine Changes.setHub ?_ ?_ (by decide)
    · with_reducible exact Changes.refl
    · exact fun l _ => l.hub _
  · with_reducible exact Changes.refl

theorem decodeStored_changes {s : State} {pair : Nat} : Changes [.free] s (decodeStored s pair).st := by
  unfold decodeStored
  split
  split
  (dsimp only; split)
  · with_reducible exact Changes.refl
  · (rename_i z57 z57_0; with_reducible refine Changes.of_eq ?_ (congrArg (fun x => x.2) z57))
    with_reducible refine Changes.next ?_ takeFree_changes (by decide)
    (rename_i z55 z55_0 z55_1 z55_2; with_reducible refine Changes.of_eq ?_ (congrArg (fun x => x.2) z55))
    with_reducible refine Changes.next ?_ takeFree_changes (by decide)
    with_reducible exact Changes.refl

theorem writeValue_changes {s : State} {pair : Nat} {v : PairValue} : Changes [.hubs, .mem, .memErr] s (writeValue s pair v) := by
  unfold writeValue
  with_reducible refine Changes.next ?_ writeCodeword_changes (by decide)
  with_reducible exact Changes.refl

theorem retirePackage_changes {s : State} {hk : Nat} {i : Nat} {cause : Nat} : Changes [.halls, .hubs] s (retirePackage s hk i
    cause) := by
  unfold retirePackage
  with_reducible refine Changes.ite_ (fun _ => ?_) (fun _ => ?_)
  · with_reducible exact Changes.refl
  · with_reducible refine Changes.next ?_ raise_changes (by decide)
    with_reducible refine Changes.next ?_ logDecision_changes (by decide)
    with_reducible refine Changes.setHub ?_ ?_ (by decide)
    · with_reducible exact Changes.refl
    · exact fun l _ => retired_legal (l.hub _)

theorem shadowPair_changes {s : State} {pair : Nat} : Changes [.free, .hubs, .mem, .memErr] s (shadowPair s pair) := by
  unfold shadowPair
  ((with_reducible conv => (arg 3; whnf)); split)
  · with_reducible refine Changes.next ?_ writeValue_changes (by decide)
    with_reducible refine Changes.next ?_ decodeStored_changes (by decide)
    with_reducible exact Changes.refl
  · with_reducible refine Changes.next ?_ writeValue_changes (by decide)
    with_reducible refine Changes.next ?_ decodeStored_changes (by decide)
    with_reducible exact Changes.refl
  · with_reducible refine Changes.next ?_ writeValue_changes (by decide)
    with_reducible refine Changes.next ?_ decodeStored_changes (by decide)
    with_reducible exact Changes.refl
  · with_reducible refine Changes.next ?_ writeValue_changes (by decide)
    with_reducible refine Changes.next ?_ decodeStored_changes (by decide)
    with_reducible exact Changes.refl

theorem hardRow_changes {s : State} {ch : Nat} {bank : Nat} {row : Nat} : Changes [.free, .halls, .hubs, .mem, .memErr] s (hardRow s
    ch bank row) := by
  unfold hardRow
  with_reducible refine Changes.ite_ (fun _ => ?_) (fun _ => ?_)
  · with_reducible exact Changes.refl
  · with_reducible refine Changes.ite_ (fun _ => ?_) (fun _ => ?_)
    · with_reducible refine Changes.next ?_ retirePackage_changes (by decide)
      ((with_reducible conv => (arg 3; whnf)); split)
      · with_reducible refine Changes.next ?_ raise_changes (by decide)
        with_reducible refine Changes.setHub ?_ ?_ (by decide)
        · with_reducible refine Changes.foldl ?_ (fun _ _ => ?_)
          · with_reducible refine Changes.next ?_ logDecision_changes (by decide)
            with_reducible refine Changes.setHub ?_ ?_ (by decide)
            · with_reducible exact Changes.refl
            · exact fun l _ => setPkg_legal (l.hub _)
          · with_reducible refine Changes.next ?_ shadowPair_changes (by decide)
            with_reducible exact Changes.refl
        · exact fun _ l => (l.hub _).withShadows (tabWf_tabSet · _ _)
      · with_reducible refine Changes.ite_ (fun _ => ?_) (fun _ => ?_)
        · with_reducible refine Changes.setHub ?_ ?_ (by decide)
          · with_reducible refine Changes.next ?_ logDecision_changes (by decide)
            with_reducible refine Changes.setHub ?_ ?_ (by decide)
            · with_reducible exact Changes.refl
            · exact fun l _ => setPkg_legal (l.hub _)
          · exact fun l _ => (l.hub _).withPkgs (tabWf_tabSet · _ _)
        · with_reducible refine Changes.next ?_ raise_changes (by decide)
          with_reducible refine Changes.setHub ?_ ?_ (by decide)
          · with_reducible refine Changes.next ?_ logDecision_changes (by decide)
            with_reducible refine Changes.setHub ?_ ?_ (by decide)
            · with_reducible exact Changes.refl
            · exact fun l _ => setPkg_legal (l.hub _)
          · exact fun l _ => (l.hub _).withPkgs (tabWf_tabSet · _ _)
    · ((with_reducible conv => (arg 3; whnf)); split)
      · with_reducible refine Changes.next ?_ raise_changes (by decide)
        with_reducible refine Changes.setHub ?_ ?_ (by decide)
        · with_reducible refine Changes.foldl ?_ (fun _ _ => ?_)
          · with_reducible refine Changes.next ?_ logDecision_changes (by decide)
            with_reducible refine Changes.setHub ?_ ?_ (by decide)
            · with_reducible exact Changes.refl
            · exact fun l _ => setPkg_legal (l.hub _)
          · with_reducible refine Changes.next ?_ shadowPair_changes (by decide)
            with_reducible exact Changes.refl
        · exact fun _ l => (l.hub _).withShadows (tabWf_tabSet · _ _)
      · with_reducible refine Changes.ite_ (fun _ => ?_) (fun _ => ?_)
        · with_reducible refine Changes.setHub ?_ ?_ (by decide)
          · with_reducible refine Changes.next ?_ logDecision_changes (by decide)
            with_reducible refine Changes.setHub ?_ ?_ (by decide)
            · with_reducible exact Changes.refl
            · exact fun l _ => setPkg_legal (l.hub _)
          · exact fun l _ => (l.hub _).withPkgs (tabWf_tabSet · _ _)
        · with_reducible refine Changes.next ?_ raise_changes (by decide)
          with_reducible refine Changes.setHub ?_ ?_ (by decide)
          · with_reducible refine Changes.next ?_ logDecision_changes (by decide)
            with_reducible refine Changes.setHub ?_ ?_ (by decide)
            · with_reducible exact Changes.refl
            · exact fun l _ => setPkg_legal (l.hub _)
          · exact fun l _ => (l.hub _).withPkgs (tabWf_tabSet · _ _)

theorem hardPair_changes {s : State} {pair : Nat} {inCheck : Bool} : Changes [.free, .halls, .hubs, .mem, .memErr] s (hardPair s
    pair inCheck) := by
  unfold hardPair
  with_reducible refine Changes.ite_ (fun _ => ?_) (fun _ => ?_)
  · with_reducible refine Changes.next ?_ hardRow_changes (by decide)
    with_reducible exact Changes.refl
  · with_reducible refine Changes.next ?_ hardRow_changes (by decide)
    with_reducible exact Changes.refl

theorem pairUe_changes {s : State} {pair : Nat} {stored : List Byte} {r : Sys2Proof.Reader} {job : Option Nat} : Changes [.free,
    .halls, .hubs, .mem, .memErr] s (pairUe s pair stored r job) := by
  unfold pairUe
  with_reducible refine Changes.next ?_ hardPair_changes (by decide)
  with_reducible refine Changes.next ?_ raise_changes (by decide)
  with_reducible refine Changes.next ?_ writeCodeword_changes (by decide)
  with_reducible refine Changes.next ?_ (modHub_changes ?_) (by decide)
  · with_reducible exact Changes.refl
  · exact fun _ h => h

theorem pairCe_changes {s : State} {pair : Nat} : Changes [.halls, .hubs] s (pairCe s pair) := by
  unfold pairCe
  with_reducible refine Changes.next ?_ raiseQuiet_changes (by decide)
  with_reducible refine Changes.next ?_ (modHub_changes ?_) (by decide)
  · with_reducible exact Changes.refl
  · exact fun _ h => h

theorem pairPoisonRd_changes {s : State} {pair : Nat} : Changes [.hubs] s (pairPoisonRd s pair) := by
  unfold pairPoisonRd
  with_reducible refine Changes.next ?_ (modHub_changes ?_) (by decide)
  · with_reducible exact Changes.refl
  · exact fun _ h => h

theorem rereadPair_changes {s : State} {pair : Nat} {good : List Byte} {pat : W64} {r : Sys2Proof.Reader} {job : Option Nat} :
    Changes [.free, .halls, .hubs, .mem, .memErr] s (rereadPair s pair good pat r job).st := by
  unfold rereadPair
  (dsimp only; split)
  · with_reducible exact Changes.refl
  · ((with_reducible conv => (arg 3; whnf)); split)
    · with_reducible refine Changes.next ?_ hardPair_changes (by decide)
      with_reducible refine Changes.next ?_ decodeStored_changes (by decide)
      with_reducible exact Changes.refl
    · with_reducible refine Changes.next ?_ hardPair_changes (by decide)
      with_reducible refine Changes.next ?_ pairCe_changes (by decide)
      with_reducible refine Changes.next ?_ decodeStored_changes (by decide)
      with_reducible exact Changes.refl
    · with_reducible refine Changes.next ?_ hardPair_changes (by decide)
      with_reducible refine Changes.next ?_ pairPoisonRd_changes (by decide)
      with_reducible refine Changes.next ?_ decodeStored_changes (by decide)
      with_reducible exact Changes.refl
    · with_reducible refine Changes.next ?_ pairUe_changes (by decide)
      with_reducible refine Changes.next ?_ decodeStored_changes (by decide)
      with_reducible exact Changes.refl

theorem channelRead_changes {s : State} {pair : Nat} {r : Sys2Proof.Reader} {job : Option Nat} : Changes [.free, .halls, .hubs,
    .mem, .memErr] s (channelRead s pair r job).st := by
  unfold channelRead
  (dsimp only; split)
  · with_reducible refine Changes.next ?_ decodeStored_changes (by decide)
    with_reducible exact Changes.refl
  · with_reducible refine Changes.next ?_ rereadPair_changes (by decide)
    with_reducible refine Changes.next ?_ writeValue_changes (by decide)
    with_reducible refine Changes.next ?_ pairCe_changes (by decide)
    with_reducible refine Changes.next ?_ decodeStored_changes (by decide)
    with_reducible exact Changes.refl
  · with_reducible refine Changes.next ?_ pairPoisonRd_changes (by decide)
    with_reducible refine Changes.next ?_ decodeStored_changes (by decide)
    with_reducible exact Changes.refl
  · with_reducible refine Changes.next ?_ pairUe_changes (by decide)
    with_reducible refine Changes.next ?_ decodeStored_changes (by decide)
    with_reducible exact Changes.refl

theorem writeBackLine_changes {s : State} {l : BufLine} : Changes [.free, .halls, .hubs, .mem, .memErr] s (writeBackLine s l) := by
  unfold writeBackLine
  with_reducible refine Changes.ite_ (fun _ => ?_) (fun _ => ?_)
  · with_reducible refine Changes.next ?_ (modHub_changes ?_) (by decide)
    · with_reducible refine Changes.next ?_ (modHub_changes ?_) (by decide)
      · with_reducible exact Changes.refl
      · exact fun _ h => h
    · exact fun _ h => h
  · with_reducible refine Changes.next ?_ writeCodeword_changes (by decide)
    with_reducible refine Changes.next ?_ channelRead_changes (by decide)
    with_reducible refine Changes.next ?_ (modHub_changes ?_) (by decide)
    · with_reducible exact Changes.refl
    · exact fun _ h => h

theorem writeBackPair_changes {s : State} {pair : Nat} : Changes [.hubs, .mem, .memErr] s (writeBackPair s pair) := by
  unfold writeBackPair
  ((with_reducible conv => (arg 3; whnf)); split)
  · with_reducible refine Changes.ite_ (fun _ => ?_) (fun _ => ?_)
    · with_reducible refine Changes.next ?_ writeCodeword_changes (by decide)
      with_reducible refine Changes.next ?_ (modHub_changes ?_) (by decide)
      · with_reducible exact Changes.refl
      · exact fun _ h => h
    · with_reducible exact Changes.refl
  · with_reducible exact Changes.refl

theorem mergeLine_changes {s : State} {line : Nat} {off : Nat} {bs : List Byte} {poison : Bool} {job : Option Nat} : Changes [.free,
    .halls, .hubs, .mem, .memErr] s (mergeLine s line off bs poison job) := by
  unfold mergeLine
  with_reducible refine Changes.next ?_ writeBackPair_changes (by decide)
  ((with_reducible conv => (arg 3; whnf)); split)
  · with_reducible refine Changes.next ?_ (modHub_changes ?_) (by decide)
    · with_reducible exact Changes.refl
    · exact fun _ h => h
  · with_reducible refine Changes.next ?_ (modHub_changes ?_) (by decide)
    · ((with_reducible conv => (arg 3; whnf)); split)
      · with_reducible exact Changes.refl
      · with_reducible refine Changes.ite_ (fun _ => ?_) (fun _ => ?_)
        · with_reducible refine Changes.next ?_ writeBackLine_changes (by decide)
          with_reducible exact Changes.refl
        · with_reducible exact Changes.refl
    · exact fun _ h => h

theorem writePairPart_changes {s : State} {pa : Nat} {data : List (Byte × Bool)} {job : Option Nat} {pair : Nat} : Changes [.free,
    .halls, .hubs, .mem, .memErr] s (writePairPart s pa data job pair) := by
  unfold writePairPart
  with_reducible refine Changes.ite_ (fun _ => ?_) (fun _ => ?_)
  · with_reducible refine Changes.next ?_ writeCodeword_changes (by decide)
    with_reducible refine Changes.next ?_ (modHub_changes ?_) (by decide)
    · with_reducible exact Changes.refl
    · exact fun _ h => h
  · with_reducible refine Changes.ite_ (fun _ => ?_) (fun _ => ?_)
    · with_reducible refine Changes.ite_ (fun _ => ?_) (fun _ => ?_)
      · with_reducible exact Changes.refl
      · with_reducible refine Changes.next ?_ mergeLine_changes (by decide)
        with_reducible exact Changes.refl
    · with_reducible refine Changes.next ?_ mergeLine_changes (by decide)
      with_reducible refine Changes.ite_ (fun _ => ?_) (fun _ => ?_)
      · with_reducible exact Changes.refl
      · with_reducible refine Changes.next ?_ mergeLine_changes (by decide)
        with_reducible exact Changes.refl

theorem serveWrite_changes {s : State} {pa : Nat} {data : List (Byte × Bool)} {job : Option Nat} : Changes [.free, .halls, .hubs,
    .mem, .memErr] s (serveWrite s pa data job) := by
  unfold serveWrite
  with_reducible refine Changes.ite_ (fun _ => ?_) (fun _ => ?_)
  · with_reducible exact Changes.refl
  · with_reducible refine Changes.ite_ (fun _ => ?_) (fun _ => ?_)
    · with_reducible refine Changes.next ?_ (modHub_changes ?_) (by decide)
      · with_reducible exact Changes.refl
      · exact fun _ h => h
    · with_reducible refine Changes.foldl ?_ (fun _ _ => ?_)
      · with_reducible exact Changes.refl
      · with_reducible refine Changes.next ?_ writePairPart_changes (by decide)
        with_reducible exact Changes.refl

theorem readPair_changes {s : State} {pair : Nat} {r : Sys2Proof.Reader} {job : Option Nat} : Changes [.free, .halls, .hubs, .mem,
    .memErr] s (readPair s pair r job).st := by
  unfold readPair
  with_reducible refine Changes.next ?_ channelRead_changes (by decide)
  with_reducible exact Changes.refl

theorem readPairs_changes {s : State} {r : Sys2Proof.Reader} {job : Option Nat} {pair : Nat} {n : Nat} : Changes [.free, .halls,
    .hubs, .mem, .memErr] s (readPairs s r job pair n).st := by
  induction n generalizing s r job pair with
  | zero => exact Changes.refl
  | succ n ih =>
  unfold readPairs
  with_reducible refine Changes.next ?_ (ih) (by decide)
  with_reducible refine Changes.next ?_ readPair_changes (by decide)
  with_reducible exact Changes.refl

theorem serveRead_changes {s : State} {pa : Nat} {len : Nat} {r : Sys2Proof.Reader} {job : Option Nat} : Changes [.free, .halls,
    .hubs, .mem, .memErr] s (serveRead s pa len r job).st := by
  unfold serveRead
  split
  · with_reducible exact Changes.refl
  · split
    · with_reducible refine Changes.next ?_ (modHub_changes ?_) (by decide)
      · with_reducible exact Changes.refl
      · exact fun _ h => h
    · with_reducible refine Changes.next ?_ readPairs_changes (by decide)
      with_reducible exact Changes.refl

theorem flippedFlit_changes {s : State} {f : Flip} {al : Nat} {bs : List (Byte × Bool)} {ce ue : State → State} (hc : ∀ u, Changes
    [.halls] u (ce u)) (hu : ∀ u, Changes [.halls] u (ue u)) : Changes [.free, .halls] s (flippedFlit s f al bs ce ue).st := by
  unfold flippedFlit
  split
  · with_reducible exact Changes.refl
  · split
    · (with_reducible refine Changes.next ?_ (hc _) (by decide))
      with_reducible exact Changes.refl
    · split
      · (with_reducible refine Changes.next ?_ (hu _) (by decide))
        with_reducible exact Changes.refl
      · split
        split
        split
        · (with_reducible refine Changes.next ?_ (hc _) (by decide))
          (rename_i z53 z53_0; with_reducible refine Changes.of_eq ?_ (congrArg (fun x => x.2) z53))
          with_reducible refine Changes.next ?_ takeFree_changes (by decide)
          (rename_i z51 z51_0 z51_1 z51_2; with_reducible refine Changes.of_eq ?_ (congrArg (fun x => x.2) z51))
          with_reducible refine Changes.next ?_ takeFree_changes (by decide)
          with_reducible exact Changes.refl
        · split
          · (with_reducible refine Changes.next ?_ (hu _) (by decide))
            (rename_i z52 z52_0 z52_1; with_reducible refine Changes.of_eq ?_ (congrArg (fun x => x.2) z52))
            with_reducible refine Changes.next ?_ takeFree_changes (by decide)
            (rename_i z50 z50_0 z50_1 z50_2; with_reducible refine Changes.of_eq ?_ (congrArg (fun x => x.2) z50))
            with_reducible refine Changes.next ?_ takeFree_changes (by decide)
            with_reducible exact Changes.refl
          · (rename_i z53 z53_0 z53_1; with_reducible refine Changes.of_eq ?_ (congrArg (fun x => x.2) z53))
            with_reducible refine Changes.next ?_ takeFree_changes (by decide)
            (rename_i z51 z51_0 z51_1 z51_2; with_reducible refine Changes.of_eq ?_ (congrArg (fun x => x.2) z51))
            with_reducible refine Changes.next ?_ takeFree_changes (by decide)
            with_reducible exact Changes.refl

theorem meshCe_changes {h : Nat} {s : State} : Changes [.halls] s (meshCe h s) := by
  unfold meshCe
  with_reducible refine Changes.next ?_ (modHall_changes ?_) (by decide)
  · with_reducible exact Changes.refl
  · exact fun _ h => h

theorem meshUe_changes {h : Nat} {s : State} : Changes [.halls] s (meshUe h s) := by
  unfold meshUe
  with_reducible refine Changes.next ?_ raise_changes (by decide)
  with_reducible refine Changes.next ?_ (modHall_changes ?_) (by decide)
  · with_reducible exact Changes.refl
  · exact fun _ h => h

theorem seamCe_changes {h : Nat} {n : Nat} {s : State} : Changes [.halls] s (seamCe h n s) := by
  unfold seamCe
  with_reducible refine Changes.next ?_ (modHall_changes ?_) (by decide)
  · with_reducible exact Changes.refl
  · exact fun _ h => h.withSeam (tabWf_tabSet · _ _)

theorem passMesh_changes {s : State} {h : Nat} {stops : List Nat} {al : Nat} {bs : List (Byte × Bool)} : Changes [.free, .halls] s
    (passMesh s h stops al bs).st := by
  unfold passMesh
  (dsimp only; split)
  · with_reducible refine Changes.next ?_ (flippedFlit_changes ?_ ?_) (by decide)
    · with_reducible refine Changes.next ?_ (modHall_changes ?_) (by decide)
      · with_reducible exact Changes.refl
      · exact fun _ h => h
    · intro _
      with_reducible refine Changes.next ?_ meshCe_changes (by decide)
      with_reducible exact Changes.refl
    · intro _
      with_reducible refine Changes.next ?_ meshUe_changes (by decide)
      with_reducible exact Changes.refl
  · with_reducible exact Changes.refl

theorem failingWire_changes {s : State} {h : Nat} {n : Nat} : Changes [.free, .halls] s (failingWire s h n) := by
  unfold failingWire
  with_reducible refine Changes.ite_ (fun _ => ?_) (fun _ => ?_)
  · with_reducible refine Changes.next ?_ (modHall_changes ?_) (by decide)
    · with_reducible refine Changes.next ?_ takeFree_changes (by decide)
      with_reducible exact Changes.refl
    · exact fun _ h => h.withSeam (tabWf_tabSet · _ _)
  · with_reducible exact Changes.refl

theorem passSeam_changes {s : State} {link : Option (Nat × Nat)} {al : Nat} {bs : List (Byte × Bool)} : Changes [.free, .halls] s
    (passSeam s link al bs).st := by
  unfold passSeam
  ((with_reducible conv => (arg 3; whnf)); split)
  · with_reducible exact Changes.refl
  · (dsimp only; split)
    · with_reducible refine Changes.next ?_ (flippedFlit_changes ?_ ?_) (by decide)
      · with_reducible refine Changes.next ?_ (modHall_changes ?_) (by decide)
        · with_reducible refine Changes.next ?_ failingWire_changes (by decide)
          with_reducible exact Changes.refl
        · exact fun _ h => h
      · intro _
        with_reducible refine Changes.next ?_ seamCe_changes (by decide)
        with_reducible exact Changes.refl
      · intro _
        with_reducible refine Changes.next ?_ meshUe_changes (by decide)
        with_reducible exact Changes.refl
    · with_reducible refine Changes.next ?_ failingWire_changes (by decide)
      with_reducible exact Changes.refl

theorem transit_changes {s : State} {net : Nat} {v : Vc} {src : Nat} {dst : Nat} {al : Nat} {bs : List (Byte × Bool)} : Changes
    [.free, .halls, .outputs, .promotes] s (transit s net v src dst al bs).st := by
  unfold transit
  split
  · with_reducible refine Changes.next ?_ passSeam_changes (by decide)
    with_reducible refine Changes.next ?_ passMesh_changes (by decide)
    with_reducible refine Changes.next ?_ travel_changes (by decide)
    with_reducible exact Changes.refl
  · with_reducible refine Changes.next ?_ passMesh_changes (by decide)
    with_reducible refine Changes.next ?_ passSeam_changes (by decide)
    with_reducible refine Changes.next ?_ passMesh_changes (by decide)
    with_reducible refine Changes.next ?_ travel_changes (by decide)
    with_reducible exact Changes.refl

theorem countResent_changes {s : State} {h : Nat} {n : Nat} : Changes [.halls] s (countResent s h n) := by
  unfold countResent
  with_reducible refine Changes.next ?_ (modHall_changes ?_) (by decide)
  · with_reducible exact Changes.refl
  · exact fun _ h => h

theorem fateOf_changes {s : State} {h : Nat} {key : Nat} : Changes [.meshFault, .resent] s (fateOf s h key).2 := by
  unfold fateOf
  ((with_reducible conv => (arg 3; whnf)); split)
  · split
    · with_reducible exact Changes.refl
    · split
      · with_reducible refine Changes.next ?_ with_meshFault_changes (by decide)
        with_reducible exact Changes.refl
      · split
        · with_reducible refine Changes.next ?_ with_meshFault_changes (by decide)
          with_reducible exact Changes.refl
        · with_reducible refine Changes.next ?_ with_meshFault_resent_changes (by decide)
          with_reducible exact Changes.refl
  · split
    · split
      · with_reducible refine Changes.next ?_ with_resent_changes (by decide)
        with_reducible exact Changes.refl
      · with_reducible exact Changes.refl
    · with_reducible exact Changes.refl

theorem sendNumbered_changes {s : State} {v : Vc} {src : Nat} {dst : Nat} {al : Nat} {bs : List (Byte × Bool)} : Changes [.free,
    .halls, .outputs, .promotes, .series, .meshFault, .resent] s (sendNumbered s v src dst al bs).2 := by
  unfold sendNumbered
  with_reducible refine Changes.ite_ (fun _ => ?_) (fun _ => ?_)
  · with_reducible refine Changes.next ?_ fateOf_changes (by decide)
    with_reducible refine Changes.next ?_ transact_changes (by decide)
    with_reducible exact Changes.refl
  · with_reducible refine Changes.next ?_ countResent_changes (by decide)
    with_reducible refine Changes.next ?_ transit_changes (by decide)
    with_reducible refine Changes.next ?_ fateOf_changes (by decide)
    with_reducible refine Changes.next ?_ transact_changes (by decide)
    with_reducible exact Changes.refl

theorem freeBytes_changes {s : State} {n : Nat} : Changes [.free] s (freeBytes s n).2 := by
  unfold freeBytes
  with_reducible refine Changes.next ?_ with_free_changes (by decide)
  with_reducible exact Changes.refl

theorem lostWrite_changes {s : State} {pa : Nat} {data : List (Byte × Bool)} {job : Option Nat} : Changes [.free, .halls, .hubs,
    .mem, .memErr] s (lostWrite s pa data job) := by
  induction data generalizing s pa job with
  | nil => exact Changes.refl
  | cons z r ih =>
  unfold lostWrite
  with_reducible refine Changes.next ?_ (ih) (by decide)
  with_reducible refine Changes.ite_ (fun _ => ?_) (fun _ => ?_)
  · with_reducible refine Changes.next ?_ serveWrite_changes (by decide)
    with_reducible refine Changes.next ?_ takeFree_changes (by decide)
    with_reducible exact Changes.refl
  · with_reducible refine Changes.next ?_ takeFree_changes (by decide)
    with_reducible exact Changes.refl

theorem checkedWrite_changes {s : State} {v : Vc} {src : Nat} {hk : Nat} {al : Nat} {data : List (Byte × Bool)} {got : List (Byte ×
    Bool)} : Changes [.free, .halls, .hubs, .outputs, .promotes] s (checkedWrite s v src hk al data got).1.st := by
  unfold checkedWrite
  split
  · with_reducible exact Changes.refl
  · (dsimp only; split)
    · with_reducible refine Changes.next ?_ (modHub_changes ?_) (by decide)
      · with_reducible refine Changes.next ?_ transit_changes (by decide)
        with_reducible exact Changes.refl
      · exact fun _ h => h
    · with_reducible refine Changes.next ?_ (modHub_changes ?_) (by decide)
      · with_reducible refine Changes.next ?_ transit_changes (by decide)
        with_reducible exact Changes.refl
      · exact fun _ h => h

theorem hubWrite_changes {s : State} {src : Nat} {r : Sys2Proof.Reader} {pa : Nat} {data : List (Byte × Bool)} {job : Option Nat} :
    Changes [.free, .halls, .hubs, .mem, .memErr, .outputs, .promotes, .series, .meshFault, .resent] s (hubWrite s src r pa data
    job).st := by
  unfold hubWrite
  split
  · with_reducible exact Changes.refl
  · split
    · (dsimp only; split)
      · with_reducible refine Changes.next ?_ lostWrite_changes (by decide)
        with_reducible refine Changes.next ?_ sendNumbered_changes (by decide)
        with_reducible exact Changes.refl
      · with_reducible refine Changes.next ?_ transit_changes (by decide)
        with_reducible refine Changes.next ?_ serveWrite_changes (by decide)
        with_reducible refine Changes.next ?_ checkedWrite_changes (by decide)
        with_reducible refine Changes.next ?_ transit_changes (by decide)
        with_reducible refine Changes.next ?_ sendNumbered_changes (by decide)
        with_reducible exact Changes.refl
    · (dsimp only; split)
      · with_reducible refine Changes.next ?_ lostWrite_changes (by decide)
        with_reducible refine Changes.next ?_ sendNumbered_changes (by decide)
        with_reducible exact Changes.refl
      · with_reducible refine Changes.next ?_ transit_changes (by decide)
        with_reducible refine Changes.next ?_ serveWrite_changes (by decide)
        with_reducible refine Changes.next ?_ transit_changes (by decide)
        with_reducible refine Changes.next ?_ sendNumbered_changes (by decide)
        with_reducible exact Changes.refl

theorem hubRead_changes {s : State} {src : Nat} {pa : Nat} {len : Nat} {r : Sys2Proof.Reader} {job : Option Nat} : Changes [.free,
    .halls, .hubs, .mem, .memErr, .outputs, .promotes, .series, .meshFault, .resent] s (hubRead s src pa len r job).st := by
  unfold hubRead
  split
  · with_reducible exact Changes.refl
  · (dsimp only; split)
    · with_reducible refine Changes.next ?_ freeBytes_changes (by decide)
      with_reducible refine Changes.next ?_ sendNumbered_changes (by decide)
      with_reducible exact Changes.refl
    · with_reducible refine Changes.next ?_ transit_changes (by decide)
      with_reducible refine Changes.next ?_ serveRead_changes (by decide)
      with_reducible refine Changes.next ?_ transit_changes (by decide)
      with_reducible refine Changes.next ?_ sendNumbered_changes (by decide)
      with_reducible exact Changes.refl

theorem resendParts_changes {s : State} {v : Vc} {dst : Nat} {l : List SegPart} : Changes [.free, .halls, .outputs, .promotes] s
    (resendParts s v dst l).st := by
  unfold resendParts
  with_reducible refine Changes.foldl_in Carried.st ?_ (fun _ _ => ?_)
  · with_reducible exact Changes.refl
  · with_reducible refine Changes.next ?_ transit_changes (by decide)
    with_reducible exact Changes.refl

theorem countCrc_changes {s : State} {dst : Nat} {hk : Nat} {failed : Bool} : Changes [.positions, .hubs, .ports] s (countCrc s dst
    hk failed) := by
  unfold countCrc
  split
  · with_reducible refine Changes.next ?_ (modPos_changes ?_) (by decide)
    · with_reducible exact Changes.refl
    · (intro _ h; split <;> exact h)
  · split
    · with_reducible refine Changes.next ?_ (modPort_changes ?_) (by decide)
      · with_reducible exact Changes.refl
      · (intro _ h; split <;> exact h)
    · with_reducible refine Changes.next ?_ (modHub_changes ?_) (by decide)
      · with_reducible exact Changes.refl
      · (intro _ h; split <;> exact h)

theorem checkSegment_changes {s : State} {v : Vc} {dst : Nat} {l : List SegPart} : Changes [.free, .positions, .halls, .hubs,
    .ports, .outputs, .promotes] s (checkSegment s v dst l).st := by
  unfold checkSegment
  (dsimp only; split)
  · with_reducible exact Changes.refl
  · split
    · with_reducible refine Changes.next ?_ countCrc_changes (by decide)
      with_reducible refine Changes.next ?_ resendParts_changes (by decide)
      with_reducible exact Changes.refl
    · with_reducible refine Changes.next ?_ countCrc_changes (by decide)
      with_reducible refine Changes.next ?_ resendParts_changes (by decide)
      with_reducible exact Changes.refl

theorem flushJob_changes {s : State} {hk : Nat} {job : Nat} : Changes [.free, .halls, .hubs, .mem, .memErr] s (flushJob s hk job) :=
    by
  unfold flushJob
  with_reducible refine Changes.foldl ?_ (fun _ _ => ?_)
  · with_reducible exact Changes.refl
  · with_reducible refine Changes.next ?_ writeBackLine_changes (by decide)
    with_reducible exact Changes.refl

end Sys2Proof.Machine
end

