-- ==== Sys2Proof/Laws/ChangeStore.lean ====
section
/-! SUPPORT. What the operations of Machine/Store may change. -/

namespace Sys2Proof.Machine

theorem tabWf_storeSet {t : Tab SByte} {off : Nat} {l : List (Byte × Bool)} (h : tabWf {} t = true) : tabWf {} (storeSet t off l) = true := by
  induction l generalizing t off with
  | nil => exact h
  | cons b r ih => exact ih (tabWf_tabSet h _ _)

theorem storeRaw_legal {ps : Position} {off : Nat} {bs : List (Byte × Bool)} (h : PosLegal ps) : PosLegal (storeRaw ps off bs) := by
  unfold storeRaw
  split
  · exact h
  · split
    · exact h.withStore fun k => tabWf_storeSet (tabWf_tabSet k _ _)
    · exact h.withStore tabWf_storeSet

theorem clearRecords_legal {ps : Position} {off n : Nat} (h : PosLegal ps) : PosLegal (clearRecords ps off n) := by
  unfold clearRecords
  split
  · exact h
  · exact h.withRecords (tabWf_filter · _)

theorem setRecord_legal {ps : Position} {blk : Nat} {v : W32} (h : PosLegal ps) : PosLegal (setRecord ps blk v) :=
  h.withRecords (tabWf_tabSet · _ _)

theorem storeByte_changes {s : State} {p : Nat} {off : Nat} : Changes [.positions, .halls] s (storeByte s p off).st := by
  unfold storeByte
  (dsimp only; split)
  · with_reducible exact Changes.refl
  · with_reducible exact Changes.refl
  · with_reducible refine Changes.next ?_ raiseQuiet_changes (by decide)
    with_reducible refine Changes.setPos ?_ ?_ (by decide)
    · with_reducible exact Changes.refl
    · exact fun l _ => l.pos _
  · with_reducible refine Changes.next ?_ raise_changes (by decide)
    with_reducible refine Changes.setPos ?_ ?_ (by decide)
    · with_reducible exact Changes.refl
    · exact fun l _ => storeRaw_legal (l.pos _)

theorem storeRead_changes {s : State} {p : Nat} {off : Nat} {n : Nat} : Changes [.positions, .halls] s (storeRead s p off n).st :=
    by
  induction n generalizing s p off with
  | zero => exact Changes.refl
  | succ n ih =>
  unfold storeRead
  with_reducible refine Changes.next ?_ (ih) (by decide)
  with_reducible refine Changes.next ?_ storeByte_changes (by decide)
  with_reducible exact Changes.refl

theorem storeWrite_changes {s : State} {p : Nat} {off : Nat} {bs : List (Byte × Bool)} : Changes [.positions] s (storeWrite s p off
    bs) := by
  unfold storeWrite
  with_reducible refine Changes.next ?_ (modPos_changes ?_) (by decide)
  · with_reducible exact Changes.refl
  · exact fun _ h => clearRecords_legal (storeRaw_legal h)

theorem recordValue_changes {s : State} {p : Nat} {blk : Nat} : Changes [.free, .positions, .halls] s (recordValue s p blk).2 := by
  unfold recordValue
  (dsimp only; split)
  · with_reducible exact Changes.refl
  · split
    · with_reducible exact Changes.refl
    · split
      · split
        · with_reducible refine Changes.next ?_ raiseQuiet_changes (by decide)
          with_reducible refine Changes.setPos ?_ ?_ (by decide)
          · with_reducible exact Changes.refl
          · exact fun l _ => l.pos _
        · with_reducible refine Changes.setPos ?_ ?_ (by decide)
          · with_reducible exact Changes.refl
          · exact fun _ l => (l.pos _).withRecords (tabWf_tabSet · _ _)
      · split
        · with_reducible refine Changes.next ?_ raiseQuiet_changes (by decide)
          with_reducible refine Changes.setPos ?_ ?_ (by decide)
          · with_reducible refine Changes.next ?_ takeFree_changes (by decide)
            with_reducible exact Changes.refl
          · exact fun l _ => l.pos _
        · with_reducible refine Changes.setPos ?_ ?_ (by decide)
          · with_reducible refine Changes.next ?_ takeFree_changes (by decide)
            with_reducible exact Changes.refl
          · exact fun _ l => (l.pos _).withRecords (tabWf_tabSet · _ _)

end Sys2Proof.Machine
end

