-- ==== Sys2Proof/Laws/ChangeTranslate.lean ====
section
/-! SUPPORT. What the operations of Machine/Translate may change. -/

namespace Sys2Proof.Machine

theorem cachePtr_changes {s : State} {c : Ctx} {level : Nat} {va : Nat} {table : Nat} : Changes [.halls] s (cachePtr s c level va
    table) := by
  unfold cachePtr
  split
  · with_reducible exact Changes.refl
  · refine modHall_changes fun x h => ?_
    unfold HallLegal HallTables at h ⊢
    exact h


theorem readPte_changes {s : State} {c : Ctx} {va : Nat} {level : Nat} {table : Nat} : Changes [.free, .halls, .hubs, .mem, .memErr,
    .outputs, .promotes, .series, .meshFault, .resent] s (readPte s c va level table).2 := by
  unfold readPte
  (dsimp only; split)
  · with_reducible refine Changes.next ?_ hubRead_changes (by decide)
    with_reducible exact Changes.refl
  · with_reducible refine Changes.next ?_ hubRead_changes (by decide)
    with_reducible exact Changes.refl

theorem walkFrom_changes {s : State} {c : Ctx} {va : Nat} {level : Nat} {table : Nat} : Changes [.free, .halls, .hubs, .mem,
    .memErr, .outputs, .promotes, .series, .meshFault, .resent] s (walkFrom s c va level table).st := by
  induction level generalizing s table with
  | zero =>
    unfold walkFrom
    split <;> exact (readPte_changes (s := s)).of_snd ‹_›
  | succ l ih =>
    unfold walkFrom
    split
    · exact ih
    · split
      · exact (readPte_changes (s := s)).of_snd ‹_›
      · exact (readPte_changes (s := s)).of_snd ‹_›
      · exact (((readPte_changes (s := s)).of_snd ‹_›).next cachePtr_changes (by decide)).next ih (by decide)


theorem walk_changes {s : State} {c : Ctx} {va : Nat} : Changes [.free, .halls, .hubs, .mem, .memErr, .outputs, .promotes, .series,
    .meshFault, .resent] s (walk s c va).st := by
  unfold walk
  (dsimp only; split)
  · with_reducible refine Changes.next ?_ (modHall_changes ?_) (by decide)
    · with_reducible exact Changes.refl
    · exact fun _ h => h
  · split
    · with_reducible refine Changes.next ?_ (modHall_changes ?_) (by decide)
      · with_reducible exact Changes.refl
      · exact fun _ h => h
    · with_reducible refine Changes.next ?_ walkFrom_changes (by decide)
      with_reducible refine Changes.next ?_ (modHall_changes ?_) (by decide)
      · with_reducible exact Changes.refl
      · exact fun _ h => h

theorem cacheLeaf_changes {s : State} {c : Ctx} {l : Leaf} : Changes [.leafs] s (cacheLeaf s c l) := by
  unfold cacheLeaf
  split
  · with_reducible exact Changes.refl
  · with_reducible refine Changes.next ?_ (with_leafs_changes ?_) (by decide)
    · with_reducible exact Changes.refl
    · exact fun h => tabWf_tabSet h _ _

theorem xlate_changes {s : State} {c : Ctx} {va : Nat} {write : Bool} : Changes [.free, .halls, .hubs, .mem, .memErr, .outputs,
    .promotes, .series, .meshFault, .resent, .leafs] s (xlate s c va write).st := by
  unfold xlate
  ((with_reducible conv => (arg 3; whnf)); split)
  · split
    · with_reducible exact Changes.refl
    · with_reducible exact Changes.refl
  · split
    · (dsimp only; split)
      · with_reducible refine Changes.next ?_ walk_changes (by decide)
        with_reducible exact Changes.refl
      · split
        · with_reducible refine Changes.next ?_ walk_changes (by decide)
          with_reducible exact Changes.refl
        · with_reducible refine Changes.next ?_ walk_changes (by decide)
          with_reducible exact Changes.refl
    · (dsimp only; split)
      · with_reducible refine Changes.next ?_ walk_changes (by decide)
        with_reducible exact Changes.refl
      · split
        · with_reducible refine Changes.next ?_ cacheLeaf_changes (by decide)
          with_reducible refine Changes.next ?_ walk_changes (by decide)
          with_reducible exact Changes.refl
        · with_reducible refine Changes.next ?_ cacheLeaf_changes (by decide)
          with_reducible refine Changes.next ?_ walk_changes (by decide)
          with_reducible exact Changes.refl

theorem readRequest_changes {s : State} {c : Ctx} {r : Sys2Proof.Reader} {pa : Nat} {n : Nat} : Changes [.free, .halls, .hubs, .mem,
    .memErr, .outputs, .promotes, .series, .meshFault, .resent] s (readRequest s c r pa n).st := by
  unfold readRequest
  split
  · with_reducible refine Changes.next ?_ hubRead_changes (by decide)
    with_reducible exact Changes.refl
  · with_reducible refine Changes.next ?_ hubRead_changes (by decide)
    with_reducible exact Changes.refl

theorem vaReadFrom_changes {s : State} {c : Ctx} {r : Sys2Proof.Reader} {n : Nat} {va : Nat} {len : Nat} : Changes [.free, .halls,
    .hubs, .mem, .memErr, .outputs, .promotes, .series, .meshFault, .resent, .leafs] s (vaReadFrom s c r n va len).st := by
  induction n generalizing s c r va len with
  | zero => exact Changes.refl
  | succ n ih =>
  unfold vaReadFrom
  split
  · with_reducible exact Changes.refl
  · (dsimp only; split)
    · with_reducible refine Changes.next ?_ xlate_changes (by decide)
      with_reducible exact Changes.refl
    · with_reducible refine Changes.next ?_ (ih) (by decide)
      with_reducible refine Changes.next ?_ readRequest_changes (by decide)
      with_reducible refine Changes.next ?_ xlate_changes (by decide)
      with_reducible exact Changes.refl

theorem segmentRead_changes {s : State} {c : Ctx} {r : Sys2Proof.Reader} {va : Nat} {len : Nat} : Changes [.free, .positions,
    .halls, .hubs, .ports, .mem, .memErr, .outputs, .promotes, .series, .meshFault, .resent, .leafs] s (segmentRead s c r va len).st
    := by
  unfold segmentRead
  with_reducible refine Changes.next ?_ checkSegment_changes (by decide)
  with_reducible refine Changes.next ?_ vaReadFrom_changes (by decide)
  with_reducible exact Changes.refl

theorem segmentsRead_changes {s : State} {c : Ctx} {r : Sys2Proof.Reader} {n : Nat} {va : Nat} {len : Nat} : Changes [.free,
    .positions, .halls, .hubs, .ports, .mem, .memErr, .outputs, .promotes, .series, .meshFault, .resent, .leafs] s (segmentsRead s c
    r n va len).st := by
  induction n generalizing s c r va len with
  | zero => exact Changes.refl
  | succ n ih =>
  unfold segmentsRead
  split
  · with_reducible exact Changes.refl
  · (dsimp only; split)
    · with_reducible refine Changes.next ?_ segmentRead_changes (by decide)
      with_reducible exact Changes.refl
    · with_reducible refine Changes.next ?_ (ih) (by decide)
      with_reducible refine Changes.next ?_ segmentRead_changes (by decide)
      with_reducible exact Changes.refl

theorem vaRead_changes {s : State} {c : Ctx} {va : Nat} {len : Nat} {r : Sys2Proof.Reader} : Changes [.free, .positions, .halls,
    .hubs, .ports, .mem, .memErr, .outputs, .promotes, .series, .meshFault, .resent, .leafs] s (vaRead s c va len r).st := by
  unfold vaRead
  split
  · with_reducible refine Changes.next ?_ segmentsRead_changes (by decide)
    with_reducible exact Changes.refl
  · with_reducible refine Changes.next ?_ vaReadFrom_changes (by decide)
    with_reducible exact Changes.refl

theorem writeRequest_changes {s : State} {c : Ctx} {r : Sys2Proof.Reader} {pa : Nat} {bs : List (Byte × Bool)} : Changes [.free,
    .positions, .halls, .hubs, .ports, .mem, .memErr, .outputs, .promotes, .series, .meshFault, .resent] s (writeRequest s c r pa
    bs).st := by
  unfold writeRequest
  split
  · with_reducible refine Changes.next ?_ hubWrite_changes (by decide)
    with_reducible exact Changes.refl
  · with_reducible refine Changes.next ?_ hubWrite_changes (by decide)
    split
    · with_reducible refine Changes.next ?_ checkSegment_changes (by decide)
      with_reducible refine Changes.next ?_ hubRead_changes (by decide)
      with_reducible exact Changes.refl
    · with_reducible refine Changes.next ?_ hubRead_changes (by decide)
      with_reducible exact Changes.refl

theorem vaWriteFrom_changes {s : State} {c : Ctx} {r : Sys2Proof.Reader} {n : Nat} {va : Nat} {data : List (Byte × Bool)} : Changes
    [.free, .positions, .halls, .hubs, .ports, .mem, .memErr, .outputs, .promotes, .series, .meshFault, .resent, .leafs] s
    (vaWriteFrom s c r n va data).st := by
  induction n generalizing s c r va data with
  | zero => exact Changes.refl
  | succ n ih =>
  unfold vaWriteFrom
  split
  · with_reducible exact Changes.refl
  · (dsimp only; split)
    · with_reducible refine Changes.next ?_ xlate_changes (by decide)
      with_reducible exact Changes.refl
    · with_reducible refine Changes.next ?_ (ih) (by decide)
      with_reducible refine Changes.next ?_ writeRequest_changes (by decide)
      with_reducible refine Changes.next ?_ xlate_changes (by decide)
      with_reducible exact Changes.refl

theorem vaWrite_changes {s : State} {c : Ctx} {r : Sys2Proof.Reader} {va : Nat} {data : List (Byte × Bool)} : Changes [.free,
    .positions, .halls, .hubs, .ports, .mem, .memErr, .outputs, .promotes, .series, .meshFault, .resent, .leafs] s (vaWrite s c r va
    data).st := by
  unfold vaWrite
  with_reducible refine Changes.next ?_ vaWriteFrom_changes (by decide)
  with_reducible exact Changes.refl

end Sys2Proof.Machine
end

