-- ==== Sys2Proof/Laws/ChangeLink.lean ====
section
/-! SUPPORT. What the operations of Machine/Link may change. -/

namespace Sys2Proof.Machine

theorem sendOne_legal {p r : PortState} (h : PortLegal p) (e : sendOne p = some r) : PortLegal r := by
  unfold sendOne at e
  split at e
  · cases e
  · split at e
    · cases e
    · split at e
      · cases e
      · split at e
        · cases e
        · cases e; exact h

theorem fillLine_legal {n : Nat} {p : PortState} (h : PortLegal p) : PortLegal (fillLine n p) := by
  induction n generalizing p with
  | zero => exact h
  | succ n ih =>
    unfold fillLine
    split
    · exact h
    · split
      · exact h
      · exact ih (sendOne_legal h ‹_›)

theorem downPort_legal {p : PortState} (h : PortLegal p) : PortLegal (downPort p) := h.withLanes (tabWf_tabMap · _)

theorem foldl_oweCredits_legal {l : List Nat} {g : Nat → Nat} {p : PortState} (h : PortLegal p) :
    PortLegal (l.foldl (fun p vl => oweCredits p vl (g vl)) p) := by
  induction l generalizing p with
  | nil => exact h
  | cons x r ih => exact ih h

theorem enqueueFrame_changes {s : State} {k : Nat} {f : Frame} : Changes [.ports] s (enqueueFrame s k f) := by
  unfold enqueueFrame
  with_reducible refine Changes.ite_ (fun _ => ?_) (fun _ => ?_)
  · with_reducible refine Changes.next ?_ (modPort_changes ?_) (by decide)
    · with_reducible exact Changes.refl
    · exact fun _ h => h
  · with_reducible exact Changes.refl

theorem dropColl_changes {s : State} {k : Nat} {coll : W32} {tag : W32} : Changes [.ports] s (dropColl s k coll tag) := by
  unfold dropColl
  refine modPort_changes fun x h => ?_
  exact foldl_oweCredits_legal h


theorem sendAbort_changes {s : State} {k : Nat} {coll : W32} {tag : W32} : Changes [.ports] s (sendAbort s k coll tag) := by
  unfold sendAbort
  with_reducible refine Changes.next ?_ enqueueFrame_changes (by decide)
  with_reducible refine Changes.next ?_ dropColl_changes (by decide)
  with_reducible exact Changes.refl

theorem drvAbort_changes {s : State} {h : Nat} {j : Nat} {cmd : BitVec 512} : Changes [.ports] s (drvAbort s h j cmd) := by
  unfold drvAbort
  with_reducible refine Changes.foldl ?_ (fun _ _ => ?_)
  · with_reducible exact Changes.refl
  · with_reducible refine Changes.next ?_ sendAbort_changes (by decide)
    with_reducible refine Changes.next ?_ sendAbort_changes (by decide)
    with_reducible exact Changes.refl

end Sys2Proof.Machine
end

