-- ==== Sys2Proof/Laws/ChangeForms.lean ====
section
/-! SUPPORT. What the operations of Machine/Forms may change. -/

namespace Sys2Proof.Machine

theorem tearStore_changes {s : State} {p : Nat} {off : Nat} {n : Nat} : Changes [.free, .positions] s (tearStore s p off n) := by
  induction n generalizing s p off with
  | zero => exact Changes.refl
  | succ n ih =>
  unfold tearStore
  with_reducible refine Changes.next ?_ (ih) (by decide)
  with_reducible refine Changes.ite_ (fun _ => ?_) (fun _ => ?_)
  · with_reducible refine Changes.next ?_ storeWrite_changes (by decide)
    with_reducible refine Changes.next ?_ takeFree_changes (by decide)
    with_reducible exact Changes.refl
  · with_reducible refine Changes.next ?_ takeFree_changes (by decide)
    with_reducible exact Changes.refl

theorem tearAccess_changes {s : State} {x : Ctx} {p : Nat} {b : CDesc} {fill : Option (List Byte)} {lo : Nat} {n : Nat} : Changes
    [.free, .positions, .halls, .hubs, .ports, .mem, .memErr, .outputs, .promotes, .series, .meshFault, .resent, .leafs] s
    (tearAccess s x p b fill lo n) := by
  unfold tearAccess
  with_reducible refine Changes.ite_ (fun _ => ?_) (fun _ => ?_)
  · with_reducible refine Changes.next ?_ takeFree_changes (by decide)
    with_reducible exact Changes.refl
  · split
    · with_reducible refine Changes.ite_ (fun _ => ?_) (fun _ => ?_)
      · with_reducible refine Changes.next ?_ storeWrite_changes (by decide)
        with_reducible refine Changes.next ?_ takeFree_changes (by decide)
        with_reducible exact Changes.refl
      · with_reducible refine Changes.next ?_ vaWrite_changes (by decide)
        with_reducible refine Changes.next ?_ takeFree_changes (by decide)
        with_reducible exact Changes.refl
    · with_reducible refine Changes.ite_ (fun _ => ?_) (fun _ => ?_)
      · with_reducible refine Changes.next ?_ storeWrite_changes (by decide)
        with_reducible refine Changes.next ?_ takeFree_changes (by decide)
        with_reducible refine Changes.next ?_ freeBytes_changes (by decide)
        with_reducible refine Changes.next ?_ takeFree_changes (by decide)
        with_reducible exact Changes.refl
      · with_reducible refine Changes.next ?_ vaWrite_changes (by decide)
        with_reducible refine Changes.next ?_ takeFree_changes (by decide)
        with_reducible refine Changes.next ?_ freeBytes_changes (by decide)
        with_reducible refine Changes.next ?_ takeFree_changes (by decide)
        with_reducible exact Changes.refl

theorem tearCarter_changes {s : State} {x : Ctx} {p : Nat} {c : InFlight} : Changes [.free, .positions, .halls, .hubs, .ports, .mem,
    .memErr, .outputs, .promotes, .series, .meshFault, .resent, .leafs] s (tearCarter s x p c) := by
  unfold tearCarter
  with_reducible refine Changes.foldl ?_ (fun _ _ => ?_)
  · with_reducible exact Changes.refl
  · with_reducible refine Changes.next ?_ tearAccess_changes (by decide)
    with_reducible exact Changes.refl

theorem tearReports_changes {s : State} {h : Nat} {j : Nat} {i : Nat} : Changes [.free, .stats] s (tearReports s h j i) := by
  unfold tearReports
  with_reducible refine Changes.next ?_ setStats_changes (by decide)
  with_reducible refine Changes.next ?_ with_free_changes (by decide)
  with_reducible exact Changes.refl

theorem tear_changes {s : State} {n : Nat} {x : Ctx} {c : InFlight} : Changes [.free, .positions, .halls, .hubs, .ports, .stats,
    .mem, .memErr, .outputs, .promotes, .series, .meshFault, .resent, .leafs] s (tear s n x c) := by
  unfold tear
  split
  · with_reducible exact Changes.refl
  · with_reducible refine Changes.ite_ (fun _ => ?_) (fun _ => ?_)
    · with_reducible exact Changes.refl
    · with_reducible refine Changes.ite_ (fun _ => ?_) (fun _ => ?_)
      · with_reducible refine Changes.next ?_ tearCarter_changes (by decide)
        with_reducible exact Changes.refl
      · with_reducible refine Changes.foldl ?_ (fun _ _ => ?_)
        · with_reducible refine Changes.foldl ?_ (fun _ _ => ?_)
          · with_reducible exact Changes.refl
          · with_reducible refine Changes.next ?_ tearStore_changes (by decide)
            with_reducible exact Changes.refl
        · with_reducible refine Changes.next ?_ tearReports_changes (by decide)
          with_reducible exact Changes.refl

end Sys2Proof.Machine
end

