-- ==== Sys2Proof/Laws/ChangeHalt.lean ====
section
/-! SUPPORT. What the operations of Machine/Halt may change. -/

namespace Sys2Proof.Machine

theorem raiseQueue_changes {s : State} {k : Nat} {src : Nat} {cls : Nat} {code : Nat} {seq : W32} {more : List Byte} : Changes
    [.halls] s (raiseQueue s k src cls code seq more) := by
  unfold raiseQueue
  with_reducible refine Changes.next ?_ raise_changes (by decide)
  with_reducible exact Changes.refl

theorem raiseXfail_changes {s : State} {k : Nat} {seq : W32} {f : XFail} {va : Nat} {write : Bool} : Changes [.halls] s (raiseXfail
    s k seq f va write) := by
  unfold raiseXfail
  with_reducible refine Changes.ite_ (fun _ => ?_) (fun _ => ?_)
  · with_reducible refine Changes.next ?_ raiseQueue_changes (by decide)
    with_reducible exact Changes.refl
  · with_reducible refine Changes.next ?_ raiseQueue_changes (by decide)
    with_reducible exact Changes.refl

theorem releaseGrant_changes {s : State} {k : Nat} : Changes [.queues, .halls] s (releaseGrant s k) := by
  unfold releaseGrant
  with_reducible refine Changes.ite_ (fun _ => ?_) (fun _ => ?_)
  · with_reducible refine Changes.setQueue ?_ ?_ (by decide)
    · with_reducible exact Changes.refl
    · exact fun l _ => l.queue _
  · with_reducible refine Changes.next ?_ (modHall_changes ?_) (by decide)
    · with_reducible refine Changes.setQueue ?_ ?_ (by decide)
      · with_reducible exact Changes.refl
      · exact fun l _ => l.queue _
    · exact fun _ h => h

theorem dropRequest_changes {s : State} {k : Nat} : Changes [.queues, .halls] s (dropRequest s k) := by
  unfold dropRequest
  with_reducible refine Changes.next ?_ (modHall_changes ?_) (by decide)
  · with_reducible refine Changes.ite_ (fun _ => ?_) (fun _ => ?_)
    · with_reducible exact Changes.refl
    · with_reducible refine Changes.next ?_ (modQueue_changes ?_) (by decide)
      · with_reducible exact Changes.refl
      · exact fun _ h => h
  · exact fun _ h => h

theorem writeRecord_changes {s : State} {k : Nat} {seq : W32} {status : Nat} {flags : Nat} {counts : List Nat} : Changes [.free,
    .queues, .halls, .hubs, .mem, .memErr, .outputs, .promotes, .series, .meshFault, .resent, .leafs] s (writeRecord s k seq status
    flags counts).st := by
  unfold writeRecord
  ((with_reducible conv => (arg 3; whnf)); split)
  · (dsimp only; split)
    · with_reducible refine Changes.next ?_ xlate_changes (by decide)
      with_reducible exact Changes.refl
    · split
      · with_reducible refine Changes.next ?_ hubRead_changes (by decide)
        with_reducible refine Changes.next ?_ xlate_changes (by decide)
        with_reducible exact Changes.refl
      · split
        · with_reducible refine Changes.next ?_ hubRead_changes (by decide)
          with_reducible refine Changes.next ?_ xlate_changes (by decide)
          with_reducible exact Changes.refl
        · with_reducible refine Changes.next ?_ (modQueue_changes ?_) (by decide)
          · with_reducible refine Changes.next ?_ hubWrite_changes (by decide)
            with_reducible refine Changes.next ?_ hubRead_changes (by decide)
            with_reducible refine Changes.next ?_ xlate_changes (by decide)
            with_reducible exact Changes.refl
          · exact fun _ h => h
  · (dsimp only; split)
    · with_reducible refine Changes.next ?_ xlate_changes (by decide)
      with_reducible exact Changes.refl
    · split
      · with_reducible refine Changes.next ?_ hubRead_changes (by decide)
        with_reducible refine Changes.next ?_ xlate_changes (by decide)
        with_reducible exact Changes.refl
      · split
        · with_reducible refine Changes.next ?_ hubRead_changes (by decide)
          with_reducible refine Changes.next ?_ xlate_changes (by decide)
          with_reducible exact Changes.refl
        · with_reducible refine Changes.next ?_ (modQueue_changes ?_) (by decide)
          · with_reducible refine Changes.next ?_ hubWrite_changes (by decide)
            with_reducible refine Changes.next ?_ hubRead_changes (by decide)
            with_reducible refine Changes.next ?_ xlate_changes (by decide)
            with_reducible exact Changes.refl
          · exact fun _ h => h

theorem raiseRecFail_changes {s : State} {k : Nat} {seq : W32} {f : RecFail} : Changes [.halls] s (raiseRecFail s k seq f) := by
  unfold raiseRecFail
  split
  · with_reducible refine Changes.next ?_ raiseXfail_changes (by decide)
    with_reducible exact Changes.refl
  · with_reducible refine Changes.next ?_ raiseQueue_changes (by decide)
    with_reducible exact Changes.refl
  · with_reducible refine Changes.next ?_ raiseQueue_changes (by decide)
    with_reducible exact Changes.refl

theorem sendSignal_changes {s : State} {g : Signal} : Changes [.signals, .series] s (sendSignal s g) := by
  unfold sendSignal
  with_reducible refine Changes.next ?_ with_signals_changes (by decide)
  with_reducible refine Changes.next ?_ setSeries_changes (by decide)
  with_reducible exact Changes.refl

theorem notifyEvent_changes {s : State} {k : Nat} {seq : W32} {job : Nat} : Changes [.halls] s (notifyEvent s k seq job) := by
  unfold notifyEvent
  with_reducible refine Changes.next ?_ pushEvent_changes (by decide)
  with_reducible exact Changes.refl

theorem signalNotify_changes {s : State} {k : Nat} {c : InFlight} : Changes [.signals, .halls, .series] s (signalNotify s k c) := by
  unfold signalNotify
  with_reducible refine Changes.ite_ (fun _ => ?_) (fun _ => ?_)
  · with_reducible refine Changes.next ?_ sendSignal_changes (by decide)
    with_reducible exact Changes.refl
  · with_reducible refine Changes.ite_ (fun _ => ?_) (fun _ => ?_)
    · with_reducible refine Changes.next ?_ notifyEvent_changes (by decide)
      with_reducible exact Changes.refl
    · with_reducible exact Changes.refl

theorem commandAborts_changes {s : State} {k : Nat} {c : BitVec 512} : Changes [.ports] s (commandAborts s k c) := by
  unfold commandAborts
  with_reducible refine Changes.ite_ (fun _ => ?_) (fun _ => ?_)
  · with_reducible refine Changes.next ?_ drvAbort_changes (by decide)
    with_reducible exact Changes.refl
  · with_reducible exact Changes.refl

theorem writeDiscards_changes {s : State} {k : Nat} {cmds : List InFlight} {write : Bool} : Changes [.free, .queues, .positions,
    .halls, .hubs, .ports, .stats, .mem, .memErr, .outputs, .promotes, .series, .meshFault, .resent, .leafs] s (writeDiscards s k
    cmds write).st := by
  induction cmds generalizing s k write with
  | nil => exact Changes.refl
  | cons z r ih =>
  unfold writeDiscards
  split
  · split
    · (dsimp only; split)
      · with_reducible refine Changes.next ?_ (ih) (by decide)
        with_reducible refine Changes.next ?_ writeRecord_changes (by decide)
        with_reducible refine Changes.next ?_ commandAborts_changes (by decide)
        with_reducible exact Changes.refl
      · with_reducible refine Changes.next ?_ (ih) (by decide)
        with_reducible refine Changes.next ?_ raiseRecFail_changes (by decide)
        with_reducible refine Changes.next ?_ writeRecord_changes (by decide)
        with_reducible refine Changes.next ?_ commandAborts_changes (by decide)
        with_reducible exact Changes.refl
    · with_reducible refine Changes.next ?_ (ih) (by decide)
      with_reducible refine Changes.next ?_ commandAborts_changes (by decide)
      with_reducible exact Changes.refl
  · split
    · (dsimp only; split)
      · with_reducible refine Changes.next ?_ (ih) (by decide)
        with_reducible refine Changes.next ?_ writeRecord_changes (by decide)
        with_reducible refine Changes.next ?_ tear_changes (by decide)
        with_reducible exact Changes.refl
      · with_reducible refine Changes.next ?_ (ih) (by decide)
        with_reducible refine Changes.next ?_ raiseRecFail_changes (by decide)
        with_reducible refine Changes.next ?_ writeRecord_changes (by decide)
        with_reducible refine Changes.next ?_ tear_changes (by decide)
        with_reducible exact Changes.refl
    · with_reducible refine Changes.next ?_ (ih) (by decide)
      with_reducible refine Changes.next ?_ tear_changes (by decide)
      with_reducible exact Changes.refl

theorem gleanAbandon_changes {s : State} {n : Nat} : Changes [.lcores, .positions, .halls] s (gleanAbandon s n) := by
  unfold gleanAbandon
  ((with_reducible conv => (arg 3; whnf)); split)
  · with_reducible refine Changes.next ?_ modCore_changes (by decide)
    with_reducible exact Changes.refl
  · with_reducible refine Changes.next ?_ pushEvent_changes (by decide)
    ((with_reducible conv => (arg 3; whnf)); split)
    · with_reducible refine Changes.next ?_ modCore_changes (by decide)
      with_reducible exact Changes.refl
    · with_reducible refine Changes.next ?_ (modPos_changes ?_) (by decide)
      · with_reducible refine Changes.next ?_ modCore_changes (by decide)
        with_reducible exact Changes.refl
      · exact fun _ h => h

theorem emptyAtHalt_changes {s : State} {k : Nat} : Changes [.lcores, .positions, .halls] s (emptyAtHalt s k) := by
  unfold emptyAtHalt
  with_reducible refine Changes.ite_ (fun _ => ?_) (fun _ => ?_)
  · with_reducible refine Changes.ite_ (fun _ => ?_) (fun _ => ?_)
    · with_reducible refine Changes.next ?_ modCore_changes (by decide)
      with_reducible refine Changes.next ?_ gleanAbandon_changes (by decide)
      with_reducible exact Changes.refl
    · with_reducible refine Changes.next ?_ modCore_changes (by decide)
      with_reducible refine Changes.next ?_ gleanAbandon_changes (by decide)
      with_reducible exact Changes.refl
  · with_reducible exact Changes.refl

theorem evDiscard_changes {s : State} {k : Nat} {o : Option Origin} {st : QState} {first : W32} : Changes [.halls] s (evDiscard s k
    o st first) := by
  unfold evDiscard
  with_reducible refine Changes.next ?_ pushEvent_changes (by decide)
  with_reducible exact Changes.refl

theorem reachBoundary_changes {s : State} {k : Nat} {first : W32} {st : QState} {o : Option Origin} {known : List Nat} {gone : List
    InFlight} {keep : List InFlight} {write : Bool} {spread : Bool} : Changes [.free, .queues, .lcores, .positions, .halls, .hubs,
    .ports, .stats, .mem, .memErr, .outputs, .promotes, .series, .meshFault, .resent, .leafs] s (reachBoundary s k first st o known
    gone keep write spread).st := by
  unfold reachBoundary
  with_reducible refine Changes.next ?_ emptyAtHalt_changes (by decide)
  with_reducible refine Changes.next ?_ (modQueue_changes ?_) (by decide)
  · with_reducible refine Changes.next ?_ evDiscard_changes (by decide)
    with_reducible refine Changes.next ?_ releaseGrant_changes (by decide)
    with_reducible refine Changes.next ?_ writeDiscards_changes (by decide)
    with_reducible refine Changes.next ?_ dropRequest_changes (by decide)
    with_reducible refine Changes.setQueue ?_ ?_ (by decide)
    · with_reducible exact Changes.refl
    · exact fun l _ => l.queue _
  · exact fun _ h => h

theorem releaseMark_changes {s : State} {k : Nat} : Changes [.free, .queues, .signals, .lcores, .positions, .halls, .hubs, .ports,
    .stats, .mem, .memErr, .outputs, .promotes, .series, .meshFault, .resent, .leafs] s (releaseMark s k).st := by
  unfold releaseMark
  ((with_reducible conv => (arg 3; whnf)); split)
  · (dsimp only; split)
    · split
      · with_reducible refine Changes.next ?_ signalNotify_changes (by decide)
        with_reducible refine Changes.next ?_ releaseGrant_changes (by decide)
        with_reducible refine Changes.next ?_ modCore_changes (by decide)
        with_reducible refine Changes.next ?_ (modQueue_changes ?_) (by decide)
        · with_reducible refine Changes.next ?_ writeRecord_changes (by decide)
          with_reducible refine Changes.setQueue ?_ ?_ (by decide)
          · with_reducible exact Changes.refl
          · exact fun l _ => l.queue _
        · exact fun _ h => h
      · with_reducible refine Changes.next ?_ reachBoundary_changes (by decide)
        with_reducible refine Changes.next ?_ raiseRecFail_changes (by decide)
        with_reducible refine Changes.next ?_ writeRecord_changes (by decide)
        with_reducible refine Changes.setQueue ?_ ?_ (by decide)
        · with_reducible exact Changes.refl
        · exact fun l _ => l.queue _
    · with_reducible exact Changes.refl
  · (dsimp only; split)
    · split
      · with_reducible refine Changes.next ?_ signalNotify_changes (by decide)
        with_reducible refine Changes.next ?_ releaseGrant_changes (by decide)
        with_reducible refine Changes.next ?_ (modQueue_changes ?_) (by decide)
        · with_reducible refine Changes.next ?_ writeRecord_changes (by decide)
          with_reducible refine Changes.setQueue ?_ ?_ (by decide)
          · with_reducible exact Changes.refl
          · exact fun l _ => l.queue _
        · exact fun _ h => h
      · with_reducible refine Changes.next ?_ reachBoundary_changes (by decide)
        with_reducible refine Changes.next ?_ raiseRecFail_changes (by decide)
        with_reducible refine Changes.next ?_ writeRecord_changes (by decide)
        with_reducible refine Changes.setQueue ?_ ?_ (by decide)
        · with_reducible exact Changes.refl
        · exact fun l _ => l.queue _
    · with_reducible exact Changes.refl

theorem releaseMarks_changes {s : State} {k : Nat} : Changes [.free, .queues, .signals, .lcores, .positions, .halls, .hubs, .ports,
    .stats, .mem, .memErr, .outputs, .promotes, .series, .meshFault, .resent, .leafs] s (releaseMarks s k).st := by
  unfold releaseMarks
  ((with_reducible conv => (arg 3; whnf)); split)
  · with_reducible exact Changes.refl
  · split
    · with_reducible exact Changes.refl
    · with_reducible refine Changes.foldl_in Kills.st ?_ (fun _ _ => ?_)
      · with_reducible refine Changes.next ?_ modCore_changes (by decide)
        with_reducible exact Changes.refl
      · with_reducible refine Changes.next ?_ releaseMark_changes (by decide)
        with_reducible exact Changes.refl

theorem badSlot_changes {s : State} {j : Nat} {n : Nat} : Changes [.free, .positions, .halls, .hubs, .ports, .mem, .memErr,
    .outputs, .promotes, .series, .meshFault, .resent, .leafs] s (badSlot s j n) := by
  unfold badSlot
  with_reducible refine Changes.next ?_ vaWrite_changes (by decide)
  with_reducible exact Changes.refl

theorem copStreamsEnd_changes {s : State} {j : Nat} : Changes [.halls] s (copStreamsEnd s j) := by
  unfold copStreamsEnd
  with_reducible refine Changes.foldl ?_ (fun _ _ => ?_)
  · with_reducible exact Changes.refl
  · with_reducible refine Changes.next ?_ (modHall_changes ?_) (by decide)
    · with_reducible exact Changes.refl
    · exact fun _ h => h.withCops (tabWf_tabSet · _ _) (tabWf_tabSet · _ _)

theorem copFail_changes {s : State} {j : Nat} : Changes [.free, .positions, .halls, .hubs, .ports, .jobs, .mem, .memErr, .outputs,
    .promotes, .series, .meshFault, .resent, .leafs] s (copFail s j) := by
  unfold copFail
  with_reducible refine Changes.next ?_ (modJob_changes ?_) (by decide)
  · with_reducible refine Changes.next ?_ copStreamsEnd_changes (by decide)
    with_reducible refine Changes.foldl ?_ (fun _ _ => ?_)
    · with_reducible exact Changes.refl
    · with_reducible refine Changes.next ?_ badSlot_changes (by decide)
      with_reducible exact Changes.refl
  · exact fun _ h => h

theorem killQueue_changes {s : State} {k : Nat} {o : Origin} : Changes [.free, .queues, .lcores, .positions, .halls, .hubs, .ports,
    .stats, .mem, .memErr, .outputs, .promotes, .series, .meshFault, .resent, .leafs] s (killQueue s k o) := by
  unfold killQueue
  ((with_reducible conv => (arg 3; whnf)); split)
  · with_reducible exact Changes.refl
  · with_reducible exact Changes.refl
  · with_reducible exact Changes.refl
  · with_reducible exact Changes.refl
  · split
    · with_reducible exact Changes.refl
    · with_reducible refine Changes.ite_ (fun _ => ?_) (fun _ => ?_)
      · with_reducible refine Changes.next ?_ modCore_changes (by decide)
        with_reducible exact Changes.refl
      · with_reducible refine Changes.ite_ (fun _ => ?_) (fun _ => ?_)
        · with_reducible exact Changes.refl
        · with_reducible refine Changes.next ?_ reachBoundary_changes (by decide)
          with_reducible refine Changes.next ?_ modCore_changes (by decide)
          with_reducible exact Changes.refl
  · with_reducible refine Changes.next ?_ reachBoundary_changes (by decide)
    with_reducible exact Changes.refl
  · with_reducible refine Changes.next ?_ reachBoundary_changes (by decide)
    with_reducible exact Changes.refl
  · with_reducible refine Changes.next ?_ reachBoundary_changes (by decide)
    with_reducible exact Changes.refl

theorem killJob_changes {s : State} {j : Nat} {cause : Nat} {o : Origin} : Changes [.free, .queues, .lcores, .positions, .halls,
    .hubs, .ports, .jobs, .stats, .mem, .memErr, .outputs, .promotes, .series, .meshFault, .resent, .leafs] s (killJob s j cause o)
    := by
  unfold killJob
  with_reducible refine Changes.next ?_ copFail_changes (by decide)
  with_reducible refine Changes.foldl ?_ (fun _ _ => ?_)
  · with_reducible refine Changes.next ?_ (modJob_changes ?_) (by decide)
    · with_reducible exact Changes.refl
    · exact fun _ h => h
  · with_reducible refine Changes.next ?_ killQueue_changes (by decide)
    with_reducible exact Changes.refl

theorem applyKill_changes {j : Nat} {r : Kills} : Changes [.free, .queues, .lcores, .positions, .halls, .hubs, .ports, .jobs,
    .stats, .mem, .memErr, .outputs, .promotes, .series, .meshFault, .resent, .leafs] r.st (applyKill j r) := by
  unfold applyKill
  split
  · with_reducible exact Changes.refl
  · with_reducible refine Changes.next ?_ killJob_changes (by decide)
    with_reducible exact Changes.refl

theorem haltQueue_changes {s : State} {k : Nat} {first : W32} {st : QState} {o : Option Origin} {known : List Nat} {gone : List
    InFlight} {keep : List InFlight} {write : Bool} : Changes [.free, .queues, .signals, .lcores, .positions, .halls, .hubs, .ports,
    .jobs, .stats, .mem, .memErr, .outputs, .promotes, .series, .meshFault, .resent, .leafs] s (haltQueue s k first st o known gone
    keep write) := by
  unfold haltQueue
  with_reducible refine Changes.next ?_ applyKill_changes (by decide)
  with_reducible refine Changes.next ?_ releaseMarks_changes (by decide)
  with_reducible refine Changes.next ?_ reachBoundary_changes (by decide)
  with_reducible exact Changes.refl

theorem lostRecord_changes {s : State} {k : Nat} {seq : W32} {sems : List Nat} {gone : List InFlight} {f : RecFail} : Changes
    [.free, .queues, .signals, .lcores, .positions, .halls, .hubs, .ports, .jobs, .stats, .mem, .memErr, .outputs, .promotes,
    .series, .meshFault, .resent, .leafs] s (lostRecord s k seq sems gone f) := by
  unfold lostRecord
  ((with_reducible conv => (arg 3; whnf)); split)
  · with_reducible refine Changes.next ?_ haltQueue_changes (by decide)
    with_reducible refine Changes.next ?_ raiseRecFail_changes (by decide)
    with_reducible exact Changes.refl
  · with_reducible refine Changes.next ?_ killJob_changes (by decide)
    with_reducible refine Changes.next ?_ haltQueue_changes (by decide)
    with_reducible refine Changes.next ?_ raiseRecFail_changes (by decide)
    with_reducible exact Changes.refl

theorem fenceQueue_changes {s : State} {k : Nat} {o : Origin} : Changes [.free, .queues, .lcores, .positions, .halls, .hubs, .ports,
    .stats, .mem, .memErr, .outputs, .promotes, .series, .meshFault, .resent, .leafs] s (fenceQueue s k o).st := by
  unfold fenceQueue
  ((with_reducible conv => (arg 3; whnf)); split)
  · (dsimp only; split)
    · with_reducible exact Changes.refl
    · with_reducible exact Changes.refl
    · with_reducible exact Changes.refl
    · with_reducible refine Changes.next ?_ (modQueue_changes ?_) (by decide)
      · with_reducible refine Changes.next ?_ reachBoundary_changes (by decide)
        with_reducible exact Changes.refl
      · exact fun _ h => h
    · with_reducible refine Changes.next ?_ (modQueue_changes ?_) (by decide)
      · with_reducible refine Changes.next ?_ reachBoundary_changes (by decide)
        with_reducible exact Changes.refl
      · exact fun _ h => h
    · with_reducible refine Changes.next ?_ (modQueue_changes ?_) (by decide)
      · with_reducible refine Changes.next ?_ reachBoundary_changes (by decide)
        with_reducible exact Changes.refl
      · exact fun _ h => h
    · with_reducible refine Changes.next ?_ (modQueue_changes ?_) (by decide)
      · with_reducible refine Changes.next ?_ reachBoundary_changes (by decide)
        with_reducible exact Changes.refl
      · exact fun _ h => h
    · with_reducible refine Changes.next ?_ (modQueue_changes ?_) (by decide)
      · with_reducible refine Changes.next ?_ reachBoundary_changes (by decide)
        with_reducible exact Changes.refl
      · exact fun _ h => h
  · (dsimp only; split)
    · with_reducible exact Changes.refl
    · with_reducible exact Changes.refl
    · with_reducible refine Changes.next ?_ (modQueue_changes ?_) (by decide)
      · with_reducible refine Changes.next ?_ reachBoundary_changes (by decide)
        with_reducible exact Changes.refl
      · exact fun _ h => h
    · with_reducible refine Changes.next ?_ (modQueue_changes ?_) (by decide)
      · with_reducible refine Changes.next ?_ reachBoundary_changes (by decide)
        with_reducible exact Changes.refl
      · exact fun _ h => h
    · with_reducible refine Changes.next ?_ (modQueue_changes ?_) (by decide)
      · with_reducible refine Changes.next ?_ reachBoundary_changes (by decide)
        with_reducible exact Changes.refl
      · exact fun _ h => h
    · with_reducible refine Changes.next ?_ (modQueue_changes ?_) (by decide)
      · with_reducible refine Changes.next ?_ reachBoundary_changes (by decide)
        with_reducible exact Changes.refl
      · exact fun _ h => h
    · with_reducible refine Changes.next ?_ (modQueue_changes ?_) (by decide)
      · with_reducible refine Changes.next ?_ reachBoundary_changes (by decide)
        with_reducible exact Changes.refl
      · exact fun _ h => h
    · with_reducible refine Changes.next ?_ (modQueue_changes ?_) (by decide)
      · with_reducible refine Changes.next ?_ reachBoundary_changes (by decide)
        with_reducible exact Changes.refl
      · exact fun _ h => h

theorem markFenced_changes {s : State} {n : Nat} : Changes [.lcores, .positions, .halls] s (markFenced s n) := by
  unfold markFenced
  with_reducible refine Changes.next ?_ modCore_changes (by decide)
  ((with_reducible conv => (arg 3; whnf)); split)
  · with_reducible refine Changes.ite_ (fun _ => ?_) (fun _ => ?_)
    · with_reducible exact Changes.refl
    · with_reducible refine Changes.next ?_ modCore_changes (by decide)
      ((with_reducible conv => (arg 3; whnf)); split)
      · with_reducible refine Changes.next ?_ (modHall_changes ?_) (by decide)
        · with_reducible exact Changes.refl
        · exact fun _ h => h
      · with_reducible refine Changes.next ?_ (modHall_changes ?_) (by decide)
        · with_reducible refine Changes.next ?_ (modHall_changes ?_) (by decide)
          · with_reducible exact Changes.refl
          · exact fun _ h => h
        · exact fun _ h => h
  · with_reducible refine Changes.next ?_ (modPos_changes ?_) (by decide)
    · with_reducible refine Changes.ite_ (fun _ => ?_) (fun _ => ?_)
      · with_reducible exact Changes.refl
      · with_reducible refine Changes.next ?_ modCore_changes (by decide)
        ((with_reducible conv => (arg 3; whnf)); split)
        · with_reducible refine Changes.next ?_ (modHall_changes ?_) (by decide)
          · with_reducible exact Changes.refl
          · exact fun _ h => h
        · with_reducible refine Changes.next ?_ (modHall_changes ?_) (by decide)
          · with_reducible refine Changes.next ?_ (modHall_changes ?_) (by decide)
            · with_reducible exact Changes.refl
            · exact fun _ h => h
          · exact fun _ h => h
    · exact fun _ h => h

theorem fenceCore_changes {s : State} {n : Nat} {o : Origin} {q0 : Option (Nat × W32 × List Nat × List InFlight × Bool)} : Changes
    [.free, .queues, .lcores, .positions, .halls, .hubs, .ports, .jobs, .stats, .mem, .memErr, .outputs, .promotes, .series,
    .meshFault, .resent, .leafs] s (fenceCore s n o q0) := by
  unfold fenceCore
  with_reducible refine Changes.next ?_ applyKill_changes (by decide)
  with_reducible refine Changes.foldl_in Kills.st ?_ (fun _ _ => ?_)
  · ((with_reducible conv => (arg 3; whnf)); split)
    · with_reducible refine Changes.next ?_ markFenced_changes (by decide)
      with_reducible exact Changes.refl
    · with_reducible refine Changes.next ?_ (modQueue_changes ?_) (by decide)
      · with_reducible refine Changes.next ?_ reachBoundary_changes (by decide)
        with_reducible refine Changes.next ?_ markFenced_changes (by decide)
        with_reducible exact Changes.refl
      · exact fun _ h => h
  · split
    · with_reducible exact Changes.refl
    · with_reducible refine Changes.next ?_ fenceQueue_changes (by decide)
      with_reducible exact Changes.refl

theorem faultRegs_changes {s : State} {h : Nat} : Changes [.lcores, .positions, .halls, .hubs, .ports, .jobs] s (faultRegs s h) :=
    by
  unfold faultRegs
  with_reducible refine Changes.next ?_ (modHall_changes ?_) (by decide)
  · refine Changes.mono (L := [.lcores, .positions, .halls, .hubs, .ports, .jobs]) (with_faulted_changes (tabWf_tabMap · _) (fun h => tabMap_all h fun _ _ hv => hv) (tabWf_tabMap · _) (tabWf_tabMap · _)
      (tabWf_tabMap · _) (tabWf_tabMap · _) (fun h => tabMap_all h fun _ _ hv => ?_) (fun h => tabMap_all h fun _ _ hv => ?_)
      fun h => tabMap_all h fun _ _ hv => ?_) (by decide)
    · split <;> exact hv
    · split <;> exact hv
    · split <;> exact hv
  · intro x h
    exact h


theorem passShare_changes {s : State} {h : Nat} : Changes [.halls] s (passShare s h) := by
  unfold passShare
  with_reducible refine Changes.next ?_ (modHall_changes ?_) (by decide)
  · with_reducible refine Changes.next ?_ (modHall_changes ?_) (by decide)
    · with_reducible exact Changes.refl
    · exact fun _ h => h
  · exact fun _ h => h

theorem dropGrants_changes {s : State} {h : Nat} : Changes [.queues, .halls] s (dropGrants s h) := by
  unfold dropGrants
  with_reducible refine Changes.next ?_ (modHall_changes ?_) (by decide)
  · with_reducible refine Changes.foldl ?_ (fun _ _ => ?_)
    · with_reducible exact Changes.refl
    · with_reducible refine Changes.next ?_ (modQueue_changes ?_) (by decide)
      · with_reducible refine Changes.next ?_ dropRequest_changes (by decide)
        with_reducible exact Changes.refl
      · exact fun _ h => h
  · exact fun _ h => h.withCops (fun _ => rfl) (fun _ => rfl)

theorem hallDown_changes {s : State} {h : Nat} {src : Nat} {o : Origin} : Changes [.free, .queues, .lcores, .positions, .halls,
    .hubs, .ports, .jobs, .stats, .mem, .memErr, .outputs, .promotes, .series, .meshFault, .resent, .leafs] s (hallDown s h src o)
    := by
  unfold hallDown
  with_reducible refine Changes.next ?_ faultRegs_changes (by decide)
  with_reducible refine Changes.next ?_ dropGrants_changes (by decide)
  with_reducible refine Changes.foldl ?_ (fun _ _ => ?_)
  · with_reducible refine Changes.foldl ?_ (fun _ _ => ?_)
    · with_reducible refine Changes.next ?_ passShare_changes (by decide)
      with_reducible refine Changes.next ?_ (modHall_changes ?_) (by decide)
      · with_reducible refine Changes.next ?_ pushEvent_changes (by decide)
        with_reducible exact Changes.refl
      · exact fun _ h => h
    · with_reducible refine Changes.next ?_ killJob_changes (by decide)
      with_reducible exact Changes.refl
  · with_reducible refine Changes.ite_ (fun _ => ?_) (fun _ => ?_)
    · with_reducible exact Changes.refl
    · with_reducible refine Changes.next ?_ copFail_changes (by decide)
      with_reducible exact Changes.refl

theorem moduleDown_changes {s : State} {src : Nat} {o : Origin} : Changes [.free, .moduleDown, .queues, .lcores, .positions, .halls,
    .hubs, .ports, .jobs, .stats, .mem, .memErr, .outputs, .promotes, .series, .meshFault, .resent, .leafs] s (moduleDown s src o)
    := by
  unfold moduleDown
  with_reducible refine Changes.next ?_ faultRegs_changes (by decide)
  with_reducible refine Changes.next ?_ faultRegs_changes (by decide)
  with_reducible refine Changes.foldl ?_ (fun _ _ => ?_)
  · with_reducible refine Changes.foldl ?_ (fun _ _ => ?_)
    · with_reducible refine Changes.next ?_ pushEventBoth_changes (by decide)
      with_reducible refine Changes.next ?_ with_moduleDown_changes (by decide)
      with_reducible exact Changes.refl
    · with_reducible refine Changes.next ?_ killJob_changes (by decide)
      with_reducible exact Changes.refl
  · with_reducible refine Changes.next ?_ (modPort_changes ?_) (by decide)
    · with_reducible exact Changes.refl
    · exact fun _ h => downPort_legal h

theorem applyClass_changes {s : State} {h : Nat} {src : Nat} {cls : Nat} {o : Origin} : Changes [.free, .moduleDown, .queues,
    .lcores, .positions, .halls, .hubs, .ports, .jobs, .stats, .mem, .memErr, .outputs, .promotes, .series, .meshFault, .resent,
    .leafs] s (applyClass s h src cls o) := by
  unfold applyClass
  with_reducible refine Changes.ite_ (fun _ => ?_) (fun _ => ?_)
  · with_reducible refine Changes.ite_ (fun _ => ?_) (fun _ => ?_)
    · with_reducible exact Changes.refl
    · with_reducible refine Changes.next ?_ hallDown_changes (by decide)
      with_reducible exact Changes.refl
  · with_reducible refine Changes.ite_ (fun _ => ?_) (fun _ => ?_)
    · with_reducible refine Changes.ite_ (fun _ => ?_) (fun _ => ?_)
      · with_reducible exact Changes.refl
      · with_reducible refine Changes.next ?_ moduleDown_changes (by decide)
        with_reducible exact Changes.refl
    · with_reducible exact Changes.refl

end Sys2Proof.Machine
end

