-- ==== Sys2Proof/Laws/ChangeComplete.lean ====
section
/-! SUPPORT. What the operations of Machine/Complete may change. -/

namespace Sys2Proof.Machine

theorem settle_legal {q : Queue} (h : QueueLegal q) : QueueLegal (settle q) := by
  unfold settle
  split <;> first | exact h | (split <;> exact h)

theorem sealCe_changes {s : State} {h : Nat} : Changes [.halls] s (sealCe s h) := by
  unfold sealCe
  with_reducible refine Changes.next ?_ (modHall_changes ?_) (by decide)
  · with_reducible exact Changes.refl
  · exact fun _ h => h

theorem sealUe_changes {s : State} {h : Nat} {j : Nat} {i : Nat} : Changes [.halls, .slots] s (sealUe s h j i) := by
  unfold sealUe
  with_reducible refine Changes.next ?_ setSlot_changes (by decide)
  with_reducible refine Changes.next ?_ raise_changes (by decide)
  with_reducible refine Changes.next ?_ (modHall_changes ?_) (by decide)
  · with_reducible exact Changes.refl
  · exact fun _ h => h

theorem readSlotIn_changes {s : State} {h : Nat} {j : Nat} {i : Nat} : Changes [.halls, .slots] s (readSlotIn s h j i) := by
  unfold readSlotIn
  with_reducible refine Changes.ite_ (fun _ => ?_) (fun _ => ?_)
  · with_reducible exact Changes.refl
  · with_reducible refine Changes.ite_ (fun _ => ?_) (fun _ => ?_)
    · with_reducible refine Changes.next ?_ sealCe_changes (by decide)
      with_reducible refine Changes.next ?_ setSlot_changes (by decide)
      with_reducible exact Changes.refl
    · with_reducible refine Changes.next ?_ sealUe_changes (by decide)
      with_reducible refine Changes.next ?_ setSlot_changes (by decide)
      with_reducible exact Changes.refl

theorem readStartSlot_changes {s : State} {k : Nat} {cmd : BitVec 512} : Changes [.halls, .slots] s (readStartSlot s k cmd) := by
  unfold readStartSlot
  split
  · with_reducible exact Changes.refl
  · with_reducible refine Changes.next ?_ readSlotIn_changes (by decide)
    with_reducible exact Changes.refl

theorem tagEvents_changes {s : State} {k : Nat} {cmd : BitVec 512} {seq : W32} : Changes [.queues, .signals] s (tagEvents s k cmd
    seq) := by
  unfold tagEvents
  with_reducible refine Changes.foldl ?_ (fun _ _ => ?_)
  · with_reducible refine Changes.next ?_ with_signals_changes (by decide)
    with_reducible exact Changes.refl
  · with_reducible refine Changes.next ?_ (modQueue_changes ?_) (by decide)
    · with_reducible exact Changes.refl
    · exact fun _ h => h

theorem startCommand_changes {s : State} {k : Nat} {charge : optParam Nat 0} : Changes [.queues, .signals, .lcores, .halls, .slots]
    s (startCommand s k charge) := by
  unfold startCommand
  split
  · with_reducible exact Changes.refl
  · with_reducible refine Changes.next ?_ (modQueue_changes ?_) (by decide)
    · with_reducible refine Changes.ite_ (fun _ => ?_) (fun _ => ?_)
      · with_reducible refine Changes.next ?_ modCore_changes (by decide)
        with_reducible refine Changes.next ?_ readStartSlot_changes (by decide)
        with_reducible refine Changes.ite_ (fun _ => ?_) (fun _ => ?_)
        · with_reducible refine Changes.next ?_ tagEvents_changes (by decide)
          with_reducible exact Changes.refl
        · with_reducible exact Changes.refl
      · with_reducible refine Changes.next ?_ readStartSlot_changes (by decide)
        with_reducible refine Changes.ite_ (fun _ => ?_) (fun _ => ?_)
        · with_reducible refine Changes.next ?_ tagEvents_changes (by decide)
          with_reducible exact Changes.refl
        · with_reducible exact Changes.refl
    · exact fun _ h => settle_legal h

theorem placeRequest_changes {s : State} {k : Nat} {cc : Nat} : Changes [.queues, .halls] s (placeRequest s k cc) := by
  unfold placeRequest
  with_reducible refine Changes.next ?_ (modHall_changes ?_) (by decide)
  · with_reducible refine Changes.next ?_ (modQueue_changes ?_) (by decide)
    · with_reducible exact Changes.refl
    · exact fun _ h => settle_legal h
  · exact fun _ h => h

theorem cqServe_changes {s : State} {h : Nat} : Changes [.queues, .signals, .lcores, .halls, .slots] s (cqServe s h) := by
  unfold cqServe
  split
  · with_reducible exact Changes.refl
  · with_reducible refine Changes.ite_ (fun _ => ?_) (fun _ => ?_)
    · with_reducible refine Changes.next ?_ startCommand_changes (by decide)
      with_reducible refine Changes.next ?_ (modHall_changes ?_) (by decide)
      · with_reducible exact Changes.refl
      · exact fun _ h => h
    · with_reducible exact Changes.refl

theorem cqTurns_changes {s : State} {h : Nat} : Changes [.queues, .signals, .lcores, .halls, .slots] s (cqTurns s h) := by
  unfold cqTurns
  with_reducible refine Changes.foldl ?_ (fun _ _ => ?_)
  · with_reducible exact Changes.refl
  · with_reducible refine Changes.next ?_ cqServe_changes (by decide)
    with_reducible exact Changes.refl

theorem askCq_changes {s : State} {k : Nat} : Changes [.queues, .signals, .lcores, .halls, .slots] s (askCq s k) := by
  unfold askCq
  with_reducible refine Changes.next ?_ cqTurns_changes (by decide)
  with_reducible refine Changes.next ?_ (modQueue_changes ?_) (by decide)
  · with_reducible exact Changes.refl
  · exact fun _ h => h

theorem raiseFront_changes {s : State} {k : Nat} {seq : W32} {f : FrontFail} : Changes [.halls] s (raiseFront s k seq f).1 := by
  unfold raiseFront
  ((with_reducible conv => (arg 3; whnf)); split)
  · with_reducible exact Changes.refl
  · with_reducible refine Changes.next ?_ raiseXfail_changes (by decide)
    with_reducible exact Changes.refl
  · with_reducible refine Changes.next ?_ raiseQueue_changes (by decide)
    with_reducible exact Changes.refl
  · with_reducible refine Changes.next ?_ raiseQueue_changes (by decide)
    with_reducible exact Changes.refl

theorem failFront_changes {s : State} {k : Nat} {f : Front} {why : FrontFail} : Changes [.free, .queues, .signals, .lcores,
    .positions, .halls, .hubs, .ports, .jobs, .stats, .mem, .memErr, .outputs, .promotes, .series, .meshFault, .resent, .leafs] s
    (failFront s k f why) := by
  unfold failFront
  ((with_reducible conv => (arg 3; whnf)); split)
  · split
    · with_reducible refine Changes.next ?_ haltQueue_changes (by decide)
      with_reducible refine Changes.next ?_ writeRecord_changes (by decide)
      with_reducible refine Changes.next ?_ commandAborts_changes (by decide)
      with_reducible refine Changes.next ?_ (modQueue_changes ?_) (by decide)
      · with_reducible refine Changes.next ?_ raiseFront_changes (by decide)
        with_reducible exact Changes.refl
      · exact fun _ h => h
    · with_reducible refine Changes.next ?_ lostRecord_changes (by decide)
      with_reducible refine Changes.next ?_ writeRecord_changes (by decide)
      with_reducible refine Changes.next ?_ commandAborts_changes (by decide)
      with_reducible refine Changes.next ?_ (modQueue_changes ?_) (by decide)
      · with_reducible refine Changes.next ?_ raiseFront_changes (by decide)
        with_reducible exact Changes.refl
      · exact fun _ h => h
  · with_reducible refine Changes.next ?_ killJob_changes (by decide)
    split
    · with_reducible refine Changes.next ?_ haltQueue_changes (by decide)
      with_reducible refine Changes.next ?_ writeRecord_changes (by decide)
      with_reducible refine Changes.next ?_ commandAborts_changes (by decide)
      with_reducible refine Changes.next ?_ (modQueue_changes ?_) (by decide)
      · with_reducible refine Changes.next ?_ raiseFront_changes (by decide)
        with_reducible exact Changes.refl
      · exact fun _ h => h
    · with_reducible refine Changes.next ?_ lostRecord_changes (by decide)
      with_reducible refine Changes.next ?_ writeRecord_changes (by decide)
      with_reducible refine Changes.next ?_ commandAborts_changes (by decide)
      with_reducible refine Changes.next ?_ (modQueue_changes ?_) (by decide)
      · with_reducible refine Changes.next ?_ raiseFront_changes (by decide)
        with_reducible exact Changes.refl
      · exact fun _ h => h

theorem advance_changes {s : State} {k : Nat} : Changes [.free, .queues, .signals, .lcores, .positions, .halls, .hubs, .ports,
    .jobs, .slots, .stats, .mem, .memErr, .outputs, .promotes, .series, .meshFault, .resent, .leafs] s (advance s k) := by
  unfold advance
  ((with_reducible conv => (arg 3; whnf)); split)
  · with_reducible refine Changes.setQueue ?_ ?_ (by decide)
    · with_reducible exact Changes.refl
    · exact fun l _ => settle_legal (l.queue _)
  · split
    · with_reducible refine Changes.ite_ (fun _ => ?_) (fun _ => ?_)
      · with_reducible refine Changes.next ?_ failFront_changes (by decide)
        with_reducible exact Changes.refl
      · with_reducible refine Changes.setQueue ?_ ?_ (by decide)
        · with_reducible exact Changes.refl
        · exact fun l _ => settle_legal (l.queue _)
    · with_reducible refine Changes.ite_ (fun _ => ?_) (fun _ => ?_)
      · with_reducible refine Changes.ite_ (fun _ => ?_) (fun _ => ?_)
        · with_reducible refine Changes.next ?_ askCq_changes (by decide)
          with_reducible exact Changes.refl
        · with_reducible refine Changes.ite_ (fun _ => ?_) (fun _ => ?_)
          · with_reducible refine Changes.next ?_ startCommand_changes (by decide)
            with_reducible exact Changes.refl
          · split
            · with_reducible refine Changes.next ?_ placeRequest_changes (by decide)
              with_reducible exact Changes.refl
            · with_reducible refine Changes.ite_ (fun _ => ?_) (fun _ => ?_)
              · with_reducible refine Changes.next ?_ startCommand_changes (by decide)
                with_reducible exact Changes.refl
              · with_reducible refine Changes.next ?_ placeRequest_changes (by decide)
                with_reducible exact Changes.refl
      · with_reducible refine Changes.setQueue ?_ ?_ (by decide)
        · with_reducible exact Changes.refl
        · exact fun l _ => settle_legal (l.queue _)

theorem markUnacked_changes {s : State} {k : Nat} : Changes [.queues] s (markUnacked s k) := by
  unfold markUnacked
  with_reducible refine Changes.next ?_ (modQueue_changes ?_) (by decide)
  · with_reducible exact Changes.refl
  · exact fun _ h => h

theorem afterRecord_changes {s : State} {k : Nat} {c : InFlight} : Changes [.free, .queues, .signals, .lcores, .positions, .halls,
    .hubs, .ports, .jobs, .slots, .stats, .mem, .memErr, .outputs, .promotes, .series, .meshFault, .resent, .leafs] s (afterRecord s
    k c) := by
  unfold afterRecord
  with_reducible refine Changes.next ?_ advance_changes (by decide)
  with_reducible refine Changes.ite_ (fun _ => ?_) (fun _ => ?_)
  · with_reducible refine Changes.next ?_ emptyAtHalt_changes (by decide)
    with_reducible refine Changes.next ?_ signalNotify_changes (by decide)
    with_reducible refine Changes.next ?_ releaseGrant_changes (by decide)
    with_reducible exact Changes.refl
  · with_reducible refine Changes.next ?_ signalNotify_changes (by decide)
    with_reducible refine Changes.next ?_ releaseGrant_changes (by decide)
    with_reducible exact Changes.refl

theorem completeDone_changes {s : State} {k : Nat} {c : InFlight} {flags : Nat} {counts : List Nat} : Changes [.free, .queues,
    .signals, .lcores, .positions, .halls, .hubs, .ports, .jobs, .slots, .stats, .mem, .memErr, .outputs, .promotes, .series,
    .meshFault, .resent, .leafs] s (completeDone s k c flags counts) := by
  unfold completeDone
  ((with_reducible conv => (arg 3; whnf)); split)
  · with_reducible refine Changes.next ?_ afterRecord_changes (by decide)
    with_reducible refine Changes.next ?_ writeRecord_changes (by decide)
    with_reducible refine Changes.next ?_ (modQueue_changes ?_) (by decide)
    · with_reducible exact Changes.refl
    · exact fun _ h => h
  · with_reducible refine Changes.next ?_ lostRecord_changes (by decide)
    with_reducible refine Changes.next ?_ writeRecord_changes (by decide)
    with_reducible refine Changes.next ?_ (modQueue_changes ?_) (by decide)
    · with_reducible exact Changes.refl
    · exact fun _ h => h

theorem completeFault_changes {s : State} {k : Nat} {c : InFlight} {status : Nat} {o : Option Origin} : Changes [.free, .queues,
    .signals, .lcores, .positions, .halls, .hubs, .ports, .jobs, .stats, .mem, .memErr, .outputs, .promotes, .series, .meshFault,
    .resent, .leafs] s (completeFault s k c status o) := by
  unfold completeFault
  with_reducible refine Changes.ite_ (fun _ => ?_) (fun _ => ?_)
  · with_reducible refine Changes.next ?_ killJob_changes (by decide)
    split
    · with_reducible refine Changes.next ?_ haltQueue_changes (by decide)
      with_reducible refine Changes.next ?_ writeRecord_changes (by decide)
      with_reducible refine Changes.next ?_ (modQueue_changes ?_) (by decide)
      · with_reducible refine Changes.next ?_ commandAborts_changes (by decide)
        with_reducible exact Changes.refl
      · exact fun _ h => h
    · with_reducible refine Changes.next ?_ lostRecord_changes (by decide)
      with_reducible refine Changes.next ?_ writeRecord_changes (by decide)
      with_reducible refine Changes.next ?_ (modQueue_changes ?_) (by decide)
      · with_reducible refine Changes.next ?_ commandAborts_changes (by decide)
        with_reducible exact Changes.refl
      · exact fun _ h => h
  · with_reducible refine Changes.ite_ (fun _ => ?_) (fun _ => ?_)
    · with_reducible refine Changes.next ?_ killJob_changes (by decide)
      split
      · with_reducible refine Changes.next ?_ haltQueue_changes (by decide)
        with_reducible refine Changes.next ?_ writeRecord_changes (by decide)
        with_reducible refine Changes.next ?_ (modQueue_changes ?_) (by decide)
        · with_reducible refine Changes.next ?_ commandAborts_changes (by decide)
          with_reducible exact Changes.refl
        · exact fun _ h => h
      · with_reducible refine Changes.next ?_ lostRecord_changes (by decide)
        with_reducible refine Changes.next ?_ writeRecord_changes (by decide)
        with_reducible refine Changes.next ?_ (modQueue_changes ?_) (by decide)
        · with_reducible refine Changes.next ?_ commandAborts_changes (by decide)
          with_reducible exact Changes.refl
        · exact fun _ h => h
    · split
      · with_reducible refine Changes.next ?_ haltQueue_changes (by decide)
        with_reducible refine Changes.next ?_ writeRecord_changes (by decide)
        with_reducible refine Changes.next ?_ (modQueue_changes ?_) (by decide)
        · with_reducible refine Changes.next ?_ commandAborts_changes (by decide)
          with_reducible exact Changes.refl
        · exact fun _ h => h
      · with_reducible refine Changes.next ?_ lostRecord_changes (by decide)
        with_reducible refine Changes.next ?_ writeRecord_changes (by decide)
        with_reducible refine Changes.next ?_ (modQueue_changes ?_) (by decide)
        · with_reducible refine Changes.next ?_ commandAborts_changes (by decide)
          with_reducible exact Changes.refl
        · exact fun _ h => h

theorem endPoison_changes {s : State} {k : Nat} {c : InFlight} : Changes [.free, .queues, .signals, .lcores, .positions, .halls,
    .hubs, .ports, .jobs, .stats, .mem, .memErr, .outputs, .promotes, .series, .meshFault, .resent, .leafs] s (endPoison s k c) :=
    by
  unfold endPoison
  with_reducible refine Changes.next ?_ completeFault_changes (by decide)
  with_reducible refine Changes.next ?_ raiseQueue_changes (by decide)
  with_reducible exact Changes.refl

theorem endXfail_changes {s : State} {k : Nat} {c : InFlight} {f : XFail} {va : Nat} {write : Bool} : Changes [.free, .queues,
    .signals, .lcores, .positions, .halls, .hubs, .ports, .jobs, .stats, .mem, .memErr, .outputs, .promotes, .series, .meshFault,
    .resent, .leafs] s (endXfail s k c f va write) := by
  unfold endXfail
  with_reducible refine Changes.next ?_ completeFault_changes (by decide)
  with_reducible refine Changes.next ?_ raiseXfail_changes (by decide)
  with_reducible exact Changes.refl

end Sys2Proof.Machine
end

