-- ==== Sys2Proof/Laws/ChangeOperands.lean ====
section
/-! SUPPORT. What the operations of Machine/Operands may change. -/

namespace Sys2Proof.Machine

theorem readRanges_changes {s : State} {p : Nat} {l : List Range} : Changes [.positions, .halls] s (readRanges s p l).st := by
  induction l generalizing s p with
  | nil => exact Changes.refl
  | cons z r ih =>
  unfold readRanges
  with_reducible refine Changes.next ?_ (ih) (by decide)
  with_reducible refine Changes.next ?_ storeRead_changes (by decide)
  with_reducible exact Changes.refl

theorem readA8_changes {s : State} {p : Nat} {base : Nat} {koff : Nat} {n : Nat} : Changes [.positions, .halls] s (readA8 s p base
    koff n).st := by
  unfold readA8
  with_reducible refine Changes.next ?_ readRanges_changes (by decide)
  with_reducible refine Changes.next ?_ readRanges_changes (by decide)
  with_reducible exact Changes.refl

theorem readFloats_changes {s : State} {p : Nat} {base : Nat} {code : Nat} {n : Nat} : Changes [.positions, .halls] s (readFloats s
    p base code n).st := by
  unfold readFloats
  with_reducible refine Changes.next ?_ storeRead_changes (by decide)
  with_reducible exact Changes.refl

theorem readRow_changes {s : State} {p : Nat} {fmt : Nat} {base : Nat} {n : Nat} : Changes [.positions, .halls] s (readRow s p fmt
    base n).st := by
  unfold readRow
  split
  · with_reducible refine Changes.next ?_ readA8_changes (by decide)
    with_reducible exact Changes.refl
  · with_reducible refine Changes.next ?_ readFloats_changes (by decide)
    with_reducible exact Changes.refl

theorem putPieces_changes {s : State} {p : Nat} {l : List Piece} : Changes [.positions] s (putPieces s p l) := by
  unfold putPieces
  with_reducible refine Changes.foldl ?_ (fun _ _ => ?_)
  · with_reducible exact Changes.refl
  · with_reducible refine Changes.next ?_ storeWrite_changes (by decide)
    with_reducible exact Changes.refl

theorem putPartialBytes_changes {s : State} {p : Nat} {off : Nat} {bs : List (Byte × Bool)} : Changes [.free, .positions] s
    (putPartialBytes s p off bs) := by
  induction bs generalizing s p off with
  | nil => exact Changes.refl
  | cons z r ih =>
  unfold putPartialBytes
  with_reducible refine Changes.next ?_ (ih) (by decide)
  with_reducible refine Changes.ite_ (fun _ => ?_) (fun _ => ?_)
  · with_reducible refine Changes.next ?_ storeWrite_changes (by decide)
    with_reducible refine Changes.next ?_ takeFree_changes (by decide)
    with_reducible exact Changes.refl
  · with_reducible refine Changes.next ?_ takeFree_changes (by decide)
    with_reducible exact Changes.refl

theorem putPartial_changes {s : State} {p : Nat} {l : List Piece} : Changes [.free, .positions] s (putPartial s p l) := by
  unfold putPartial
  with_reducible refine Changes.foldl ?_ (fun _ _ => ?_)
  · with_reducible exact Changes.refl
  · with_reducible refine Changes.next ?_ putPartialBytes_changes (by decide)
    with_reducible exact Changes.refl

theorem putFreeBytes_changes {s : State} {p : Nat} {off : Nat} {bs : List (Byte × Bool)} : Changes [.free, .positions] s
    (putFreeBytes s p off bs) := by
  induction bs generalizing s p off with
  | nil => exact Changes.refl
  | cons z r ih =>
  unfold putFreeBytes
  with_reducible refine Changes.next ?_ (ih) (by decide)
  with_reducible refine Changes.ite_ (fun _ => ?_) (fun _ => ?_)
  · with_reducible refine Changes.next ?_ storeWrite_changes (by decide)
    with_reducible refine Changes.next ?_ takeFree_changes (by decide)
    with_reducible exact Changes.refl
  · with_reducible refine Changes.next ?_ takeFree_changes (by decide)
    with_reducible exact Changes.refl

theorem putFree_changes {s : State} {p : Nat} {l : List Piece} : Changes [.free, .positions] s (putFree s p l) := by
  unfold putFree
  with_reducible refine Changes.foldl ?_ (fun _ _ => ?_)
  · with_reducible exact Changes.refl
  · with_reducible refine Changes.next ?_ putFreeBytes_changes (by decide)
    with_reducible exact Changes.refl

theorem freeSome_changes {α : Type} {s : State} {sure : α → Bool} {l : List α} : Changes [.free] s (freeSome s sure l).1 := by
  induction l generalizing s sure with
  | nil => exact Changes.refl
  | cons z r ih =>
  unfold freeSome
  with_reducible refine Changes.next ?_ (ih) (by decide)
  with_reducible refine Changes.next ?_ takeFree_changes (by decide)
  with_reducible exact Changes.refl

theorem addBusy_changes {s : State} {p : Nat} {cycles : Nat} : Changes [.positions] s (addBusy s p cycles) := by
  unfold addBusy
  with_reducible refine Changes.next ?_ (modPos_changes ?_) (by decide)
  · with_reducible exact Changes.refl
  · exact fun _ h => h

theorem freeBusy_changes {s : State} {p : Nat} : Changes [.free, .positions] s (freeBusy s p) := by
  unfold freeBusy
  with_reducible refine Changes.next ?_ addBusy_changes (by decide)
  with_reducible refine Changes.next ?_ takeFree_changes (by decide)
  with_reducible exact Changes.refl

theorem raiseEngineUe_changes {s : State} {p : Nat} : Changes [.halls] s (raiseEngineUe s p) := by
  unfold raiseEngineUe
  with_reducible refine Changes.next ?_ raise_changes (by decide)
  with_reducible exact Changes.refl

end Sys2Proof.Machine
end

