-- ==== Sys2Proof/Laws/ChangeAssay.lean ====
section
/-! SUPPORT. What the operations of Machine/Assay may change. -/

namespace Sys2Proof.Machine

theorem tabWf_restoreBytes {was t : Tab SByte} {l : List Piece} (h : tabWf {} t = true) : tabWf {} (restoreBytes was t l) = true := by
  unfold restoreBytes
  have row : ∀ (x : Piece) (is : List Nat) (t : Tab SByte), tabWf {} t = true →
      tabWf {} (is.foldl (fun t i => tabSet {} (x.1 + i) (tabGet {} was (x.1 + i)) t) t) = true := by
    intro x is
    induction is with
    | nil => exact fun _ h => h
    | cons i r ih => exact fun t h => ih _ (tabWf_tabSet h _ _)
  induction l generalizing t with
  | nil => exact h
  | cons x r ih => exact ih (row x _ t h)

/-- R75: the bytes of a position that was legal come back. -/
theorem rollback_then {L : List Part} {s t : State} {was : Position} {p : Nat} {l : List Piece} (h : Changes L s t)
    (hw : Legal s → PosLegal was) (hs : Part.sub [.free, .positions] L = true) : Changes L s (rollback was t p l) := by
  unfold rollback
  refine Changes.next (Changes.modPos h (fun l0 l1 => ?_) ?_) putFree_changes hs
  · exact ⟨tabWf_restoreBytes (l1.pos p).1, (hw l0).2⟩
  · simp only [Part.sub, List.all_cons, List.all_nil, Bool.and_true, Bool.and_eq_true] at hs ⊢
    exact hs.2

theorem copyUncorrectable_changes {s : State} {n : Nat} {p : Nat} {rows : Nat} {cols : Nat} : Changes [.positions, .halls] s
    (copyUncorrectable s n p rows cols) := by
  unfold copyUncorrectable
  with_reducible refine Changes.next ?_ raise_changes (by decide)
  with_reducible refine Changes.next ?_ (modPos_changes ?_) (by decide)
  · with_reducible exact Changes.refl
  · exact fun _ h => h

theorem assay_changes {s : State} {n : Nat} {p : Nat} {copyErr : Nat} {pass : Pass} : Changes [.free, .positions, .halls] s (assay s
    n p copyErr pass).st := by
  unfold assay
  split
  split
  · (dsimp only; split)
    · with_reducible exact Changes.refl
    · with_reducible refine Changes.next ?_ copyUncorrectable_changes (by decide)
      with_reducible refine Changes.next ?_ (modPos_changes ?_) (by decide)
      · (rename_i z55 z55_0 z55_1 z55_2; with_reducible refine Changes.of_eq ?_ (congrArg (fun x => x.2) z55))
        split
        · with_reducible exact Changes.refl
        · with_reducible refine Changes.next ?_ takeFree_changes (by decide)
          with_reducible exact Changes.refl
      · exact fun _ h => h
  · split
    · (dsimp only; split)
      · with_reducible exact Changes.refl
      · split
        · with_reducible refine Changes.next ?_ (modPos_changes ?_) (by decide)
          · with_reducible refine Changes.next ?_ (modPos_changes ?_) (by decide)
            · with_reducible refine Changes.next ?_ raiseQuiet_changes (by decide)
              with_reducible refine Changes.next ?_ (modPos_changes ?_) (by decide)
              · with_reducible refine Changes.next ?_ (modPos_changes ?_) (by decide)
                · (rename_i z50 z50_0 z50_1 z50_2 z50_3 z50_4; with_reducible refine Changes.of_eq ?_ (congrArg (fun x => x.2) z50))
                  split
                  · with_reducible exact Changes.refl
                  · with_reducible refine Changes.next ?_ takeFree_changes (by decide)
                    with_reducible exact Changes.refl
                · exact fun _ h => h
              · exact fun _ h => h
            · exact fun _ h => h
          · exact fun _ h => h
        · split
          · with_reducible refine Changes.next ?_ (modPos_changes ?_) (by decide)
            · with_reducible refine Changes.next ?_ raiseQuiet_changes (by decide)
              with_reducible refine Changes.next ?_ (modPos_changes ?_) (by decide)
              · with_reducible refine Changes.next ?_ (modPos_changes ?_) (by decide)
                · (rename_i z50 z50_0 z50_1 z50_2 z50_3 z50_4 z50_5; with_reducible refine Changes.of_eq ?_ (congrArg (fun x => x.2) z50))
                  split
                  · with_reducible exact Changes.refl
                  · with_reducible refine Changes.next ?_ takeFree_changes (by decide)
                    with_reducible exact Changes.refl
                · exact fun _ h => h
              · exact fun _ h => h
            · exact fun _ h => h
          · with_reducible refine Changes.next ?_ (modPos_changes ?_) (by decide)
            · with_reducible refine Changes.next ?_ raiseQuiet_changes (by decide)
              with_reducible refine Changes.next ?_ (modPos_changes ?_) (by decide)
              · with_reducible refine Changes.next ?_ (modPos_changes ?_) (by decide)
                · (rename_i z50 z50_0 z50_1 z50_2 z50_3 z50_4 z50_5; with_reducible refine Changes.of_eq ?_ (congrArg (fun x => x.2) z50))
                  split
                  · with_reducible exact Changes.refl
                  · with_reducible refine Changes.next ?_ takeFree_changes (by decide)
                    with_reducible exact Changes.refl
                · exact fun _ h => h
              · exact fun _ h => h
            · exact fun _ h => h
    · (dsimp only; split)
      · with_reducible exact Changes.refl
      · split
        · with_reducible refine Changes.next ?_ (modPos_changes ?_) (by decide)
          · with_reducible refine Changes.next ?_ (modPos_changes ?_) (by decide)
            · with_reducible refine Changes.next ?_ (modPos_changes ?_) (by decide)
              · (rename_i z52 z52_0 z52_1 z52_2 z52_3 z52_4; with_reducible refine Changes.of_eq ?_ (congrArg (fun x => x.2) z52))
                split
                · with_reducible exact Changes.refl
                · with_reducible refine Changes.next ?_ takeFree_changes (by decide)
                  with_reducible exact Changes.refl
              · exact fun _ h => h
            · exact fun _ h => h
          · exact fun _ h => h
        · split
          · with_reducible refine Changes.next ?_ (modPos_changes ?_) (by decide)
            · with_reducible refine Changes.next ?_ (modPos_changes ?_) (by decide)
              · (rename_i z52 z52_0 z52_1 z52_2 z52_3 z52_4 z52_5; with_reducible refine Changes.of_eq ?_ (congrArg (fun x => x.2) z52))
                split
                · with_reducible exact Changes.refl
                · with_reducible refine Changes.next ?_ takeFree_changes (by decide)
                  with_reducible exact Changes.refl
              · exact fun _ h => h
            · exact fun _ h => h
          · with_reducible refine Changes.next ?_ (modPos_changes ?_) (by decide)
            · with_reducible refine Changes.next ?_ (modPos_changes ?_) (by decide)
              · (rename_i z52 z52_0 z52_1 z52_2 z52_3 z52_4 z52_5; with_reducible refine Changes.of_eq ?_ (congrArg (fun x => x.2) z52))
                split
                · with_reducible exact Changes.refl
                · with_reducible refine Changes.next ?_ takeFree_changes (by decide)
                  with_reducible exact Changes.refl
              · exact fun _ h => h
            · exact fun _ h => h

theorem raiseAssay_changes {s : State} {k : Nat} {p : Nat} {seq : W32} {path : Nat} {makeup : Bool} {v : Verdict} {injected : Bool}
    : Changes [.free, .positions, .halls] s (raiseAssay s k p seq path makeup v injected) := by
  unfold raiseAssay
  with_reducible refine Changes.next ?_ raise_changes (by decide)
  with_reducible refine Changes.ite_ (fun _ => ?_) (fun _ => ?_)
  · with_reducible refine Changes.next ?_ (modPos_changes ?_) (by decide)
    · with_reducible refine Changes.next ?_ takeFree_changes (by decide)
      with_reducible refine Changes.next ?_ takeFree_changes (by decide)
      with_reducible exact Changes.refl
    · exact fun _ h => h
  · with_reducible refine Changes.next ?_ logDecision_changes (by decide)
    with_reducible refine Changes.next ?_ (modPos_changes ?_) (by decide)
    · with_reducible refine Changes.next ?_ takeFree_changes (by decide)
      with_reducible refine Changes.next ?_ takeFree_changes (by decide)
      with_reducible exact Changes.refl
    · exact fun _ h => h

theorem endAssay_changes {s : State} {k : Nat} {c : InFlight} {status : Nat} {o : Origin} : Changes [.free, .queues, .lcores,
    .positions, .halls, .hubs, .ports, .jobs, .stats, .mem, .memErr, .outputs, .promotes, .series, .meshFault, .resent, .leafs] s
    (endAssay s k c status o) := by
  unfold endAssay
  with_reducible refine Changes.next ?_ modCore_changes (by decide)
  split
  · with_reducible refine Changes.next ?_ fenceCore_changes (by decide)
    with_reducible refine Changes.next ?_ writeRecord_changes (by decide)
    with_reducible refine Changes.next ?_ (modQueue_changes ?_) (by decide)
    · with_reducible exact Changes.refl
    · exact fun _ h => h
  · ((with_reducible conv => (arg 3; whnf)); split)
    · with_reducible refine Changes.next ?_ fenceCore_changes (by decide)
      with_reducible refine Changes.next ?_ raiseRecFail_changes (by decide)
      with_reducible refine Changes.next ?_ writeRecord_changes (by decide)
      with_reducible refine Changes.next ?_ (modQueue_changes ?_) (by decide)
      · with_reducible exact Changes.refl
      · exact fun _ h => h
    · with_reducible refine Changes.next ?_ killJob_changes (by decide)
      with_reducible refine Changes.next ?_ fenceCore_changes (by decide)
      with_reducible refine Changes.next ?_ raiseRecFail_changes (by decide)
      with_reducible refine Changes.next ?_ writeRecord_changes (by decide)
      with_reducible refine Changes.next ?_ (modQueue_changes ?_) (by decide)
      · with_reducible exact Changes.refl
      · exact fun _ h => h

end Sys2Proof.Machine
end

