-- ==== Sys2Proof/Laws/ChangeControl.lean ====
section
/-! SUPPORT. What the operations of Machine/Control may change. -/

namespace Sys2Proof.Machine

theorem runPlain_changes {q : QRef} {op : Nat} {s : State} : Changes [.free, .queues, .signals, .lcores, .positions, .halls, .hubs,
    .ports, .jobs, .slots, .stats, .mem, .memErr, .outputs, .promotes, .series, .meshFault, .resent, .leafs] s (runPlain q op s) :=
    by
  unfold runPlain
  split
  · with_reducible exact Changes.refl
  · with_reducible refine Changes.next ?_ completeDone_changes (by decide)
    with_reducible exact Changes.refl

theorem runFence_changes {q : QRef} {s : State} : Changes [.free, .queues, .signals, .lcores, .positions, .halls, .hubs, .ports,
    .jobs, .slots, .stats, .mem, .memErr, .outputs, .promotes, .series, .meshFault, .resent, .leafs] s (runFence q s) := by
  unfold runFence
  split
  · with_reducible exact Changes.refl
  · with_reducible refine Changes.ite_ (fun _ => ?_) (fun _ => ?_)
    · with_reducible refine Changes.next ?_ completeDone_changes (by decide)
      with_reducible exact Changes.refl
    · with_reducible exact Changes.refl

theorem runFenceEvent_changes {q : QRef} {s : State} : Changes [.free, .queues, .signals, .lcores, .positions, .halls, .hubs,
    .ports, .jobs, .slots, .stats, .mem, .memErr, .outputs, .promotes, .series, .meshFault, .resent, .leafs] s (runFenceEvent q s)
    := by
  unfold runFenceEvent
  ((with_reducible conv => (arg 3; whnf)); split)
  · with_reducible exact Changes.refl
  · with_reducible refine Changes.ite_ (fun _ => ?_) (fun _ => ?_)
    · with_reducible refine Changes.next ?_ completeDone_changes (by decide)
      with_reducible refine Changes.next ?_ pushEvent_changes (by decide)
      with_reducible exact Changes.refl
    · with_reducible exact Changes.refl

theorem runSwapmark_changes {n : Core} {kind : QKind} {s : State} : Changes [.free, .queues, .signals, .lcores, .positions, .halls,
    .hubs, .ports, .jobs, .stats, .mem, .memErr, .outputs, .promotes, .series, .meshFault, .resent, .leafs] s (runSwapmark n kind s)
    := by
  unfold runSwapmark
  ((with_reducible conv => (arg 3; whnf)); split)
  · with_reducible exact Changes.refl
  · with_reducible refine Changes.ite_ (fun _ => ?_) (fun _ => ?_)
    · with_reducible exact Changes.refl
    · with_reducible refine Changes.ite_ (fun _ => ?_) (fun _ => ?_)
      · with_reducible refine Changes.next ?_ (modQueue_changes ?_) (by decide)
        · with_reducible refine Changes.next ?_ modCore_changes (by decide)
          with_reducible exact Changes.refl
        · exact fun _ h => h
      · with_reducible refine Changes.next ?_ completeFault_changes (by decide)
        with_reducible exact Changes.refl

theorem runWaitMet_changes {q : QRef} {s : State} : Changes [.free, .queues, .signals, .lcores, .positions, .halls, .hubs, .ports,
    .jobs, .slots, .stats, .mem, .memErr, .outputs, .promotes, .series, .meshFault, .resent, .leafs] s (runWaitMet q s) := by
  unfold runWaitMet
  ((with_reducible conv => (arg 3; whnf)); split)
  · with_reducible exact Changes.refl
  · with_reducible refine Changes.ite_ (fun _ => ?_) (fun _ => ?_)
    · with_reducible refine Changes.next ?_ advance_changes (by decide)
      with_reducible refine Changes.next ?_ (modQueue_changes ?_) (by decide)
      · with_reducible exact Changes.refl
      · exact fun _ h => h
    · with_reducible exact Changes.refl

theorem admitRequest_changes {s : State} {h : Nat} {r : Request} {loan : Bool} : Changes [.queues, .signals, .lcores, .halls,
    .slots] s (admitRequest s h r loan) := by
  unfold admitRequest
  with_reducible refine Changes.ite_ (fun _ => ?_) (fun _ => ?_)
  · with_reducible refine Changes.next ?_ (modHall_changes ?_) (by decide)
    · with_reducible refine Changes.next ?_ (modHall_changes ?_) (by decide)
      · with_reducible exact Changes.refl
      · exact fun _ h => h
    · exact fun _ h => h.withCops (tabWf_tabSet · _ _) (tabWf_tabSet · _ _)
  · with_reducible refine Changes.next ?_ startCommand_changes (by decide)
    with_reducible refine Changes.next ?_ (modQueue_changes ?_) (by decide)
    · with_reducible refine Changes.next ?_ (modHall_changes ?_) (by decide)
      · with_reducible exact Changes.refl
      · exact fun _ h => h
    · exact fun _ h => h

theorem countBenchWait_changes {s : State} {h : Nat} : Changes [.miller] s (countBenchWait s h) := by
  unfold countBenchWait
  with_reducible refine Changes.setMiller ?_ ?_ (by decide)
  · with_reducible exact Changes.refl
  · exact fun l _ => l.miller

theorem admitBench_changes {s : State} {h : Nat} : Changes [.halls, .miller] s (admitBench s h) := by
  unfold admitBench
  with_reducible refine Changes.ite_ (fun _ => ?_) (fun _ => ?_)
  · with_reducible refine Changes.next ?_ (modHall_changes ?_) (by decide)
    · with_reducible refine Changes.next ?_ countBenchWait_changes (by decide)
      with_reducible exact Changes.refl
    · exact fun _ h => h
  · with_reducible exact Changes.refl

theorem runGrantAdmit_changes {h : Hall} {s : State} : Changes [.queues, .signals, .lcores, .halls, .slots, .miller] s
    (runGrantAdmit h s) := by
  unfold runGrantAdmit
  split
  · with_reducible refine Changes.ite_ (fun _ => ?_) (fun _ => ?_)
    · with_reducible refine Changes.next ?_ admitBench_changes (by decide)
      with_reducible exact Changes.refl
    · with_reducible exact Changes.refl
  · with_reducible refine Changes.ite_ (fun _ => ?_) (fun _ => ?_)
    · with_reducible exact Changes.refl
    · split
      · with_reducible exact Changes.refl
      · with_reducible refine Changes.next ?_ admitRequest_changes (by decide)
        with_reducible exact Changes.refl

theorem haltWaiting_changes {s : State} {k : Nat} {o : Origin} : Changes [.free, .queues, .signals, .lcores, .positions, .halls,
    .hubs, .ports, .jobs, .stats, .mem, .memErr, .outputs, .promotes, .series, .meshFault, .resent, .leafs] s (haltWaiting s k o) :=
    by
  unfold haltWaiting
  split
  · with_reducible exact Changes.refl
  · with_reducible refine Changes.next ?_ haltQueue_changes (by decide)
    with_reducible exact Changes.refl

theorem recheckBroken_changes {s : State} {sem : Nat} : Changes [.free, .queues, .signals, .lcores, .positions, .halls, .hubs,
    .ports, .jobs, .stats, .mem, .memErr, .outputs, .promotes, .series, .meshFault, .resent, .leafs] s (recheckBroken s sem) := by
  unfold recheckBroken
  with_reducible refine Changes.ite_ (fun _ => ?_) (fun _ => ?_)
  · with_reducible refine Changes.foldl ?_ (fun _ _ => ?_)
    · with_reducible exact Changes.refl
    · with_reducible refine Changes.next ?_ haltWaiting_changes (by decide)
      with_reducible exact Changes.refl
  · with_reducible exact Changes.refl

theorem evSemWrap_changes {s : State} {sem : Nat} {src : SignalFrom} : Changes [.halls] s (evSemWrap s sem src) := by
  unfold evSemWrap
  split
  · with_reducible refine Changes.next ?_ pushEvent_changes (by decide)
    with_reducible exact Changes.refl
  · with_reducible refine Changes.next ?_ pushEvent_changes (by decide)
    with_reducible exact Changes.refl

theorem applySignal_changes {s : State} {g : Signal} : Changes [.free, .queues, .sems, .signals, .lcores, .positions, .halls, .hubs,
    .ports, .jobs, .stats, .mem, .memErr, .outputs, .promotes, .series, .meshFault, .resent, .leafs] s (applySignal s g) := by
  unfold applySignal
  with_reducible refine Changes.ite_ (fun _ => ?_) (fun _ => ?_)
  · with_reducible refine Changes.next ?_ recheckBroken_changes (by decide)
    with_reducible refine Changes.next ?_ evSemWrap_changes (by decide)
    with_reducible refine Changes.next ?_ setSem_changes (by decide)
    with_reducible exact Changes.refl
  · with_reducible refine Changes.next ?_ setSem_changes (by decide)
    with_reducible exact Changes.refl

theorem noticeOf_changes {s : State} {g : Signal} : Changes [.halls] s (noticeOf s g) := by
  unfold noticeOf
  split
  · with_reducible refine Changes.ite_ (fun _ => ?_) (fun _ => ?_)
    · with_reducible refine Changes.next ?_ notifyEvent_changes (by decide)
      with_reducible exact Changes.refl
    · with_reducible exact Changes.refl
  · with_reducible exact Changes.refl

theorem carrySignal_changes {s : State} {g : Signal} : Changes [.free, .halls, .outputs, .promotes] s (carrySignal s g).st := by
  unfold carrySignal
  (dsimp only; split)
  · with_reducible refine Changes.next ?_ transit_changes (by decide)
    with_reducible exact Changes.refl
  · with_reducible refine Changes.next ?_ takeFree_changes (by decide)
    with_reducible refine Changes.next ?_ transit_changes (by decide)
    with_reducible exact Changes.refl

theorem answerSignal_changes {s : State} {g : Signal} : Changes [.free, .halls, .outputs, .promotes] s (answerSignal s g) := by
  unfold answerSignal
  with_reducible refine Changes.next ?_ transit_changes (by decide)
  with_reducible exact Changes.refl

theorem runSignalApply_changes {i : Nat} {s : State} : Changes [.free, .queues, .sems, .signals, .lcores, .positions, .halls, .hubs,
    .ports, .jobs, .stats, .mem, .memErr, .outputs, .promotes, .series, .meshFault, .resent, .leafs] s (runSignalApply i s) := by
  unfold runSignalApply
  split
  · with_reducible exact Changes.refl
  · with_reducible refine Changes.ite_ (fun _ => ?_) (fun _ => ?_)
    · with_reducible exact Changes.refl
    · ((with_reducible conv => (arg 3; whnf)); split)
      · with_reducible refine Changes.next ?_ carrySignal_changes (by decide)
        with_reducible exact Changes.refl
      · with_reducible refine Changes.next ?_ with_signals_changes (by decide)
        with_reducible refine Changes.next ?_ answerSignal_changes (by decide)
        with_reducible refine Changes.next ?_ carrySignal_changes (by decide)
        with_reducible exact Changes.refl
      · with_reducible refine Changes.next ?_ noticeOf_changes (by decide)
        with_reducible refine Changes.next ?_ applySignal_changes (by decide)
        with_reducible refine Changes.next ?_ setSeries_changes (by decide)
        with_reducible refine Changes.next ?_ with_signals_changes (by decide)
        with_reducible refine Changes.next ?_ answerSignal_changes (by decide)
        with_reducible refine Changes.next ?_ carrySignal_changes (by decide)
        with_reducible exact Changes.refl

theorem sendHere_changes {s : State} {g : Signal} : Changes [.free, .queues, .sems, .signals, .lcores, .positions, .halls, .hubs,
    .ports, .jobs, .stats, .mem, .memErr, .outputs, .promotes, .series, .meshFault, .resent, .leafs] s (sendHere s g) := by
  unfold sendHere
  with_reducible refine Changes.next ?_ applySignal_changes (by decide)
  with_reducible refine Changes.next ?_ setSeries_changes (by decide)
  with_reducible refine Changes.next ?_ answerSignal_changes (by decide)
  with_reducible refine Changes.next ?_ carrySignal_changes (by decide)
  with_reducible exact Changes.refl

theorem markBroken_changes {s : State} {job : BitVec 4} {o : Origin} {sem : Nat} : Changes [.free, .queues, .sems, .signals,
    .lcores, .positions, .halls, .hubs, .ports, .jobs, .stats, .mem, .memErr, .outputs, .promotes, .series, .meshFault, .resent,
    .leafs] s (markBroken s job o sem) := by
  unfold markBroken
  with_reducible refine Changes.ite_ (fun _ => ?_) (fun _ => ?_)
  · with_reducible refine Changes.foldl ?_ (fun _ _ => ?_)
    · with_reducible refine Changes.next ?_ setSem_changes (by decide)
      with_reducible exact Changes.refl
    · with_reducible refine Changes.next ?_ haltWaiting_changes (by decide)
      with_reducible exact Changes.refl
  · with_reducible exact Changes.refl

theorem slotSsem_changes {s : State} {k : Nat} {seq : W32} : Changes [.free, .positions, .halls, .hubs, .ports, .mem, .memErr,
    .outputs, .promotes, .series, .meshFault, .resent, .leafs] s (slotSsem s k seq).2 := by
  unfold slotSsem
  (dsimp only; split)
  · with_reducible refine Changes.next ?_ vaRead_changes (by decide)
    with_reducible exact Changes.refl
  · with_reducible refine Changes.next ?_ vaRead_changes (by decide)
    with_reducible exact Changes.refl

theorem slotSsems_changes {s : State} {k : Nat} {seq : W32} {n : Nat} : Changes [.free, .positions, .halls, .hubs, .ports, .mem,
    .memErr, .outputs, .promotes, .series, .meshFault, .resent, .leafs] s (slotSsems s k seq n).2 := by
  induction n generalizing s k seq with
  | zero => exact Changes.refl
  | succ n ih =>
  unfold slotSsems
  with_reducible refine Changes.next ?_ (ih) (by decide)
  with_reducible refine Changes.next ?_ slotSsem_changes (by decide)
  with_reducible exact Changes.refl

theorem runBrokenMark_changes {q : QRef} {s : State} : Changes [.free, .queues, .sems, .signals, .lcores, .positions, .halls, .hubs,
    .ports, .jobs, .stats, .mem, .memErr, .outputs, .promotes, .series, .meshFault, .resent, .leafs] s (runBrokenMark q s) := by
  unfold runBrokenMark
  ((with_reducible conv => (arg 3; whnf)); split)
  · with_reducible exact Changes.refl
  · with_reducible refine Changes.ite_ (fun _ => ?_) (fun _ => ?_)
    · with_reducible exact Changes.refl
    · with_reducible refine Changes.foldl ?_ (fun _ _ => ?_)
      · with_reducible refine Changes.next ?_ slotSsems_changes (by decide)
        with_reducible refine Changes.next ?_ (modQueue_changes ?_) (by decide)
        · with_reducible exact Changes.refl
        · exact fun _ h => h
      · with_reducible refine Changes.next ?_ markBroken_changes (by decide)
        with_reducible exact Changes.refl

end Sys2Proof.Machine
end

