-- ==== Sys2Proof/Laws/ChangeCurrent.lean ====
section
/-! SUPPORT. What the operations of Machine/Current may change. -/

namespace Sys2Proof.Machine

theorem reshare_changes {s : State} : Changes [.halls] s (reshare s) := by
  unfold reshare
  with_reducible refine Changes.ite_ (fun _ => ?_) (fun _ => ?_)
  · with_reducible exact Changes.refl
  · with_reducible refine Changes.next ?_ (modHall_changes ?_) (by decide)
    · with_reducible refine Changes.next ?_ (modHall_changes ?_) (by decide)
      · with_reducible exact Changes.refl
      · exact fun _ h => h
    · exact fun _ h => h

theorem exchangeShares_changes {s : State} : Changes [.halls] s (exchangeShares s) := by
  unfold exchangeShares
  with_reducible refine Changes.ite_ (fun _ => ?_) (fun _ => ?_)
  · with_reducible exact Changes.refl
  · with_reducible refine Changes.next ?_ (modHall_changes ?_) (by decide)
    · with_reducible refine Changes.next ?_ (modHall_changes ?_) (by decide)
      · with_reducible exact Changes.refl
      · exact fun _ h => h
    · exact fun _ h => h

theorem warned_changes {s : State} : Changes [.halls, .miller, .power] s (warned s) := by
  unfold warned
  with_reducible refine Changes.next ?_ raiseBoth_changes (by decide)
  with_reducible refine Changes.next ?_ reshare_changes (by decide)
  with_reducible refine Changes.next ?_ (with_miller_power_changes ?_) (by decide)
  · with_reducible exact Changes.refl
  · exact fun h => h

end Sys2Proof.Machine
end

