-- ==== Sys2Proof/Laws/ChangeHostQueue.lean ====
section
/-! SUPPORT. What the operations of Machine/HostQueue may change. -/

namespace Sys2Proof.Machine

theorem writeSize_legal {q : Queue} {v : W32} (h : QueueLegal q) : QueueLegal (writeSize q v) := by
  unfold writeSize
  split
  · next e =>
    intro en
    simp [show q.enable = true from en] at e
  · exact h

theorem tabWf_keep {t : Tab (List Leaf)} {f : List Leaf → List Leaf} (h : tabWf [] t = true) :
    tabWf [] ((t.map fun x => (x.1, f x.2)).filter fun x => x.2 != []) = true := by
  unfold tabWf at *
  generalize hl : (0 : Nat) = lo at h ⊢
  clear hl
  induction t generalizing lo with
  | nil => rfl
  | cons x r ih =>
    simp [tabWfFrom] at h
    simp only [List.map, List.filter]
    split
    · next e =>
      simp only [tabWfFrom, Bool.and_eq_true, decide_eq_true_eq]
      exact ⟨⟨h.1.1, by simpa using e⟩, ih _ h.2⟩
    · exact tabWfFrom_le (ih _ h.2) (by omega)

theorem enableQueue_changes {s : State} {k : Nat} (hz : sizeOk (getQueue s k).sizeLog2.toNat = true) : Changes [.queues, .lcores] s
    (enableQueue s k) := by
  unfold enableQueue
  have hq : QueueLegal { getQueue s k with
      enable := true, prod := 0, cmplSeq := 0, haltSeq := 0, fetchSeq := 0, front := none, inflight := [], grant := none,
      qwait := 0, state := if (match qCore k with | none => false | some n => (getCore s n).fenced) then .fenced else .idle } := by
    intro _
    simpa [sizeOk] using hz
  with_reducible refine Changes.ite_ (fun _ => ?_) (fun _ => ?_)
  · with_reducible refine Changes.next ?_ modCore_changes (by decide)
    exact (setQueue_changes fun _ => hq).mono (by decide)
  · exact (setQueue_changes fun _ => hq).mono (by decide)


theorem runQEnable_changes {q : QRef} {v : W32} {s : State} : Changes [.queues, .lcores] s (runQEnable q v s) := by
  unfold runQEnable
  have hw : Changes [.queues, .lcores] s (modQueue s (qKey q) fun q => writeSize q v) :=
    (modQueue_changes fun _ h => writeSize_legal h).mono (by decide)
  with_reducible refine Changes.ite_ (fun _ => ?_) (fun _ => ?_)
  · exact Changes.refl
  · dsimp only
    with_reducible refine Changes.ite_ (fun e => ?_) (fun _ => ?_)
    · simp only [Bool.and_eq_true] at e
      exact hw.next (enableQueue_changes e.1.2) (by decide)
    · exact hw


theorem disableQueue_changes {s : State} {k : Nat} : Changes [.free, .queues, .signals, .lcores, .positions, .halls, .hubs, .ports,
    .jobs, .stats, .mem, .memErr, .outputs, .promotes, .series, .meshFault, .resent, .leafs] s (disableQueue s k) := by
  unfold disableQueue
  with_reducible refine Changes.next ?_ applyKill_changes (by decide)
  with_reducible refine Changes.next ?_ releaseMarks_changes (by decide)
  with_reducible refine Changes.next ?_ dropRequest_changes (by decide)
  with_reducible refine Changes.next ?_ (modQueue_changes ?_) (by decide)
  · split
    · with_reducible refine Changes.next ?_ releaseMark_changes (by decide)
      with_reducible exact Changes.refl
    · with_reducible exact Changes.refl
  · (intro _ _ e; cases e)

theorem runQDisable_changes {q : QRef} {v : W32} {s : State} : Changes [.free, .queues, .signals, .lcores, .positions, .halls,
    .hubs, .ports, .jobs, .stats, .mem, .memErr, .outputs, .promotes, .series, .meshFault, .resent, .leafs] s (runQDisable q v s) :=
    by
  unfold runQDisable
  with_reducible refine Changes.ite_ (fun _ => ?_) (fun _ => ?_)
  · with_reducible exact Changes.refl
  · with_reducible refine Changes.ite_ (fun _ => ?_) (fun _ => ?_)
    · with_reducible refine Changes.ite_ (fun _ => ?_) (fun _ => ?_)
      · with_reducible refine Changes.next ?_ disableQueue_changes (by decide)
        with_reducible exact Changes.refl
      · with_reducible exact Changes.refl
    · with_reducible refine Changes.next ?_ (modQueue_changes ?_) (by decide)
      · with_reducible exact Changes.refl
      · exact fun _ h => writeSize_legal h

theorem runQDoorbell_changes {q : QRef} {v : W32} {s : State} : Changes [.queues, .halls] s (runQDoorbell q v s) := by
  unfold runQDoorbell
  with_reducible refine Changes.ite_ (fun _ => ?_) (fun _ => ?_)
  · with_reducible exact Changes.refl
  · with_reducible refine Changes.ite_ (fun _ => ?_) (fun _ => ?_)
    · with_reducible refine Changes.setQueue ?_ ?_ (by decide)
      · with_reducible exact Changes.refl
      · exact fun l _ => settle_legal (l.queue _)
    · with_reducible refine Changes.next ?_ pushEvent_changes (by decide)
      with_reducible exact Changes.refl

theorem runQRestart_changes {q : QRef} {v : W32} {s : State} : Changes [.queues] s (runQRestart q v s) := by
  unfold runQRestart
  with_reducible refine Changes.ite_ (fun _ => ?_) (fun _ => ?_)
  · with_reducible refine Changes.next ?_ (modQueue_changes ?_) (by decide)
    · with_reducible exact Changes.refl
    · exact fun _ h => settle_legal h
  · with_reducible exact Changes.refl

theorem runOwnWrite_changes {n : Core} {v : W32} {s : State} : Changes [.queues, .own] s (runOwnWrite n v s) := by
  unfold runOwnWrite
  with_reducible refine Changes.ite_ (fun _ => ?_) (fun _ => ?_)
  · with_reducible refine Changes.foldl ?_ (fun _ _ => ?_)
    · with_reducible refine Changes.next ?_ setOwn_changes (by decide)
      with_reducible exact Changes.refl
    · with_reducible refine Changes.next ?_ (modQueue_changes ?_) (by decide)
      · with_reducible exact Changes.refl
      · exact fun _ h => h
  · with_reducible exact Changes.refl

theorem runSemgrpWrite_changes {h : Hall} {g : Fin 64} {v : W32} {s : State} : Changes [.semGrp] s (runSemgrpWrite h g v s) := by
  unfold runSemgrpWrite
  with_reducible refine Changes.ite_ (fun _ => ?_) (fun _ => ?_)
  · with_reducible refine Changes.next ?_ setSemGrp_changes (by decide)
    with_reducible exact Changes.refl
  · with_reducible exact Changes.refl

theorem runSemAdd_changes {h : Hall} {i : Sem} {v : W64} {s : State} : Changes [.free, .queues, .sems, .signals, .lcores,
    .positions, .halls, .hubs, .ports, .jobs, .stats, .mem, .memErr, .outputs, .promotes, .series, .meshFault, .resent, .leafs] s
    (runSemAdd h i v s) := by
  unfold runSemAdd
  with_reducible refine Changes.ite_ (fun _ => ?_) (fun _ => ?_)
  · with_reducible refine Changes.next ?_ sendHere_changes (by decide)
    with_reducible exact Changes.refl
  · with_reducible exact Changes.refl

theorem runSemSet_changes {h : Hall} {i : Sem} {v : W64} {s : State} : Changes [.free, .queues, .sems, .signals, .lcores,
    .positions, .halls, .hubs, .ports, .jobs, .stats, .mem, .memErr, .outputs, .promotes, .series, .meshFault, .resent, .leafs] s
    (runSemSet h i v s) := by
  unfold runSemSet
  with_reducible refine Changes.ite_ (fun _ => ?_) (fun _ => ?_)
  · with_reducible refine Changes.next ?_ recheckBroken_changes (by decide)
    with_reducible refine Changes.next ?_ setSem_changes (by decide)
    with_reducible exact Changes.refl
  · with_reducible exact Changes.refl

theorem runXlateInv_changes {v : W32} {s : State} : Changes [.jobs] s (runXlateInv v s) := by
  unfold runXlateInv
  with_reducible refine Changes.ite_ (fun _ => ?_) (fun _ => ?_)
  · with_reducible refine Changes.foldl ?_ (fun _ _ => ?_)
    · with_reducible exact Changes.refl
    · with_reducible refine Changes.ite_ (fun _ => ?_) (fun _ => ?_)
      · with_reducible refine Changes.next ?_ (modJob_changes ?_) (by decide)
        · with_reducible exact Changes.refl
        · exact fun _ h => h
      · with_reducible exact Changes.refl
  · with_reducible exact Changes.refl

theorem runXlateInvDone_changes {s : State} : Changes [.halls, .jobs, .leafs] s (runXlateInvDone s) := by
  unfold runXlateInvDone
  with_reducible refine Changes.ite_ (fun _ => ?_) (fun _ => ?_)
  · with_reducible refine Changes.foldl ?_ (fun _ _ => ?_)
    · with_reducible refine Changes.foldl ?_ (fun _ _ => ?_)
      · with_reducible refine Changes.next ?_ (with_leafs_changes ?_) (by decide)
        · with_reducible exact Changes.refl
        · exact fun h => tabWf_keep h
      · with_reducible refine Changes.next ?_ (modHall_changes ?_) (by decide)
        · with_reducible exact Changes.refl
        · exact fun _ h => h
    · with_reducible refine Changes.ite_ (fun _ => ?_) (fun _ => ?_)
      · with_reducible exact Changes.refl
      · with_reducible refine Changes.next ?_ (modJob_changes ?_) (by decide)
        · with_reducible exact Changes.refl
        · exact fun _ h => h
  · with_reducible exact Changes.refl

end Sys2Proof.Machine
end

