-- ==== Sys2Proof/Laws/ChangeBench.lean ====
section
/-! SUPPORT. What the operations of Machine/Bench may change. -/

namespace Sys2Proof.Machine

theorem logRetired_changes {s : State} {h : Nat} {i : Nat} {cause : Nat} {round : Nat} {test : Nat} : Changes [.free, .halls] s
    (logRetired s h i cause round test) := by
  unfold logRetired
  with_reducible refine Changes.next ?_ logDecision_changes (by decide)
  with_reducible refine Changes.next ?_ takeFree_changes (by decide)
  with_reducible refine Changes.next ?_ takeFree_changes (by decide)
  with_reducible exact Changes.refl

theorem retirePosition_changes {s : State} {h : Nat} {i : Nat} {cause : Nat} {round : Nat} {test : Nat} : Changes [.free,
    .positions, .halls] s (retirePosition s h i cause round test) := by
  unfold retirePosition
  with_reducible refine Changes.ite_ (fun _ => ?_) (fun _ => ?_)
  · with_reducible refine Changes.next ?_ raise_changes (by decide)
    with_reducible refine Changes.next ?_ raise_changes (by decide)
    with_reducible refine Changes.next ?_ logRetired_changes (by decide)
    with_reducible refine Changes.next ?_ (modHall_changes ?_) (by decide)
    · with_reducible refine Changes.next ?_ (modPos_changes ?_) (by decide)
      · with_reducible exact Changes.refl
      · exact fun _ h => h
    · exact fun _ h => h
  · with_reducible refine Changes.next ?_ pushEvent_changes (by decide)
    with_reducible refine Changes.next ?_ logRetired_changes (by decide)
    with_reducible refine Changes.next ?_ (modHall_changes ?_) (by decide)
    · with_reducible refine Changes.next ?_ (modPos_changes ?_) (by decide)
      · with_reducible exact Changes.refl
      · exact fun _ h => h
    · exact fun _ h => h

theorem retireTarget_changes {s : State} {h : Nat} {i : Nat} : Changes [.free, .halls] s (retireTarget s h i) := by
  unfold retireTarget
  with_reducible refine Changes.next ?_ pushEvent_changes (by decide)
  with_reducible refine Changes.next ?_ logRetired_changes (by decide)
  with_reducible refine Changes.next ?_ (modHall_changes ?_) (by decide)
  · with_reducible refine Changes.next ?_ takeFree_changes (by decide)
    with_reducible exact Changes.refl
  · exact fun _ h => h

theorem holdForBench_changes {s : State} {h : Nat} {i : Nat} : Changes [.positions, .halls] s (holdForBench s h i) := by
  unfold holdForBench
  with_reducible refine Changes.next ?_ (modHall_changes ?_) (by decide)
  · with_reducible refine Changes.next ?_ (modPos_changes ?_) (by decide)
    · with_reducible exact Changes.refl
    · exact fun _ h => h
  · exact fun _ h => h

theorem slackRun_changes {s : State} {h : Nat} : Changes [.halls] s (slackRun s h) := by
  unfold slackRun
  with_reducible refine Changes.ite_ (fun _ => ?_) (fun _ => ?_)
  · with_reducible refine Changes.next ?_ pushEvent_changes (by decide)
    with_reducible refine Changes.next ?_ (modHall_changes ?_) (by decide)
    · with_reducible exact Changes.refl
    · exact fun _ h => h
  · with_reducible refine Changes.next ?_ (modHall_changes ?_) (by decide)
    · with_reducible exact Changes.refl
    · exact fun _ h => h

theorem endBench_changes {s : State} {h : Nat} {verdict : Nat} {round : Nat} {test : Nat} : Changes [.free, .positions, .halls,
    .miller] s (endBench s h verdict round test) := by
  unfold endBench
  with_reducible refine Changes.ite_ (fun _ => ?_) (fun _ => ?_)
  · with_reducible refine Changes.next ?_ (modPos_changes ?_) (by decide)
    · with_reducible refine Changes.next ?_ (modPos_changes ?_) (by decide)
      · with_reducible refine Changes.next ?_ (modHall_changes ?_) (by decide)
        · with_reducible refine Changes.next ?_ countBenchWait_changes (by decide)
          with_reducible exact Changes.refl
        · exact fun _ h => h
      · exact fun _ h => h
    · (intro _ h; split <;> (try split) <;> exact h)
  · with_reducible refine Changes.ite_ (fun _ => ?_) (fun _ => ?_)
    · with_reducible refine Changes.ite_ (fun _ => ?_) (fun _ => ?_)
      · with_reducible refine Changes.next ?_ raise_changes (by decide)
        with_reducible refine Changes.next ?_ (modPos_changes ?_) (by decide)
        · with_reducible refine Changes.next ?_ (modPos_changes ?_) (by decide)
          · with_reducible refine Changes.next ?_ (modHall_changes ?_) (by decide)
            · with_reducible refine Changes.next ?_ countBenchWait_changes (by decide)
              with_reducible exact Changes.refl
            · exact fun _ h => h
          · exact fun _ h => h
        · exact fun _ h => h
      · with_reducible refine Changes.next ?_ retirePosition_changes (by decide)
        with_reducible refine Changes.next ?_ (modPos_changes ?_) (by decide)
        · with_reducible refine Changes.next ?_ (modHall_changes ?_) (by decide)
          · with_reducible refine Changes.next ?_ countBenchWait_changes (by decide)
            with_reducible exact Changes.refl
          · exact fun _ h => h
        · exact fun _ h => h
    · with_reducible refine Changes.next ?_ slackRun_changes (by decide)
      with_reducible refine Changes.ite_ (fun _ => ?_) (fun _ => ?_)
      · with_reducible refine Changes.next ?_ holdForBench_changes (by decide)
        with_reducible refine Changes.next ?_ (modPos_changes ?_) (by decide)
        · with_reducible refine Changes.next ?_ (modPos_changes ?_) (by decide)
          · with_reducible refine Changes.next ?_ (modHall_changes ?_) (by decide)
            · with_reducible refine Changes.next ?_ countBenchWait_changes (by decide)
              with_reducible exact Changes.refl
            · exact fun _ h => h
          · exact fun _ h => h
        · (intro _ h; split <;> exact h)
      · with_reducible refine Changes.next ?_ (modPos_changes ?_) (by decide)
        · with_reducible refine Changes.next ?_ (modPos_changes ?_) (by decide)
          · with_reducible refine Changes.next ?_ (modHall_changes ?_) (by decide)
            · with_reducible refine Changes.next ?_ countBenchWait_changes (by decide)
              with_reducible exact Changes.refl
            · exact fun _ h => h
          · exact fun _ h => h
        · (intro _ h; split <;> exact h)

theorem beginBench_changes {s : State} {h : Nat} {i : Nat} {under289 : Bool} : Changes [.positions, .halls] s (beginBench s h i
    under289) := by
  unfold beginBench
  with_reducible refine Changes.next ?_ (modHall_changes ?_) (by decide)
  · with_reducible refine Changes.next ?_ (modPos_changes ?_) (by decide)
    · with_reducible exact Changes.refl
    · exact fun _ h => h
  · exact fun _ h => h

theorem runBenchPeriod_changes {h : Hall} {s : State} : Changes [.free, .positions, .halls, .miller] s (runBenchPeriod h s) := by
  unfold runBenchPeriod
  with_reducible refine Changes.ite_ (fun _ => ?_) (fun _ => ?_)
  · with_reducible exact Changes.refl
  · with_reducible refine Changes.next ?_ (modHall_changes ?_) (by decide)
    · ((with_reducible conv => (arg 3; whnf)); split)
      · with_reducible refine Changes.ite_ (fun _ => ?_) (fun _ => ?_)
        · with_reducible refine Changes.next ?_ endBench_changes (by decide)
          with_reducible exact Changes.refl
        · with_reducible exact Changes.refl
      · with_reducible refine Changes.next ?_ beginBench_changes (by decide)
        with_reducible refine Changes.ite_ (fun _ => ?_) (fun _ => ?_)
        · with_reducible refine Changes.next ?_ endBench_changes (by decide)
          with_reducible exact Changes.refl
        · with_reducible exact Changes.refl
    · exact fun _ h => h

theorem runBenchRound_changes {h : Hall} {matched : Bool} {test : W16} {s : State} : Changes [.free, .positions, .halls, .miller] s
    (runBenchRound h matched test s) := by
  unfold runBenchRound
  with_reducible refine Changes.ite_ (fun _ => ?_) (fun _ => ?_)
  · with_reducible refine Changes.ite_ (fun _ => ?_) (fun _ => ?_)
    · with_reducible refine Changes.next ?_ (modHall_changes ?_) (by decide)
      · with_reducible refine Changes.next ?_ with_free_changes (by decide)
        with_reducible refine Changes.next ?_ (modPos_changes ?_) (by decide)
        · with_reducible exact Changes.refl
        · exact fun _ h => h
      · exact fun _ h => h
    · with_reducible refine Changes.next ?_ endBench_changes (by decide)
      with_reducible refine Changes.next ?_ with_free_changes (by decide)
      with_reducible refine Changes.next ?_ (modPos_changes ?_) (by decide)
      · with_reducible exact Changes.refl
      · exact fun _ h => h
  · with_reducible exact Changes.refl

theorem runBenchPause_changes {h : Hall} {s : State} : Changes [.halls] s (runBenchPause h s) := by
  unfold runBenchPause
  with_reducible refine Changes.ite_ (fun _ => ?_) (fun _ => ?_)
  · with_reducible refine Changes.next ?_ (modHall_changes ?_) (by decide)
    · with_reducible exact Changes.refl
    · exact fun _ h => h
  · with_reducible exact Changes.refl

theorem runTnkReq_changes {h : Hall} {v : W32} {s : State} : Changes [.halls] s (runTnkReq h v s) := by
  unfold runTnkReq
  with_reducible refine Changes.ite_ (fun _ => ?_) (fun _ => ?_)
  · with_reducible exact Changes.refl
  · with_reducible refine Changes.ite_ (fun _ => ?_) (fun _ => ?_)
    · with_reducible refine Changes.next ?_ (modHall_changes ?_) (by decide)
      · with_reducible exact Changes.refl
      · exact fun _ h => h
    · with_reducible refine Changes.ite_ (fun _ => ?_) (fun _ => ?_)
      · with_reducible refine Changes.next ?_ (modHall_changes ?_) (by decide)
        · with_reducible exact Changes.refl
        · exact fun _ h => h
      · with_reducible refine Changes.next ?_ pushEvent_changes (by decide)
        with_reducible exact Changes.refl

theorem runAsyInject_changes {h : Hall} {p : Pos} {v : W32} {s : State} : Changes [.positions] s (runAsyInject h p v s) := by
  unfold runAsyInject
  with_reducible refine Changes.ite_ (fun _ => ?_) (fun _ => ?_)
  · with_reducible refine Changes.next ?_ (modPos_changes ?_) (by decide)
    · with_reducible exact Changes.refl
    · exact fun _ h => h
  · with_reducible exact Changes.refl

end Sys2Proof.Machine
end

