-- ==== Sys2Proof/Laws/ChangeSwap.lean ====
section
/-! SUPPORT. What the operations of Machine/Swap may change. -/

namespace Sys2Proof.Machine

theorem clearStore_legal {ps : Position} : PosLegal (clearStore ps) := by
  unfold clearStore
  refine storeRaw_legal ?_
  exact ⟨rfl, rfl⟩

theorem countSwap_changes {s : State} {n : Nat} {f : WindowUse → WindowUse} : Changes [.halls] s (countSwap s n f) := by
  unfold countSwap
  split
  · with_reducible exact Changes.refl
  · with_reducible refine Changes.next ?_ (modHall_changes ?_) (by decide)
    · with_reducible exact Changes.refl
    · exact fun _ h => h.withWindows (tabWf_tabSet · _ _)

theorem openWindow_changes {s : State} {n : Nat} {old : Nat} {new : Nat} {cause : Nat} {swapped : Bool} : Changes [.lcores] s
    (openWindow s n old new cause swapped) := by
  unfold openWindow
  with_reducible refine Changes.next ?_ modCore_changes (by decide)
  with_reducible exact Changes.refl

theorem benchAfterAssay_changes {s : State} {h : Nat} {i : Nat} : Changes [.free, .positions, .halls, .miller] s (benchAfterAssay s
    h i) := by
  unfold benchAfterAssay
  with_reducible refine Changes.ite_ (fun _ => ?_) (fun _ => ?_)
  · with_reducible refine Changes.next ?_ retirePosition_changes (by decide)
    with_reducible refine Changes.next ?_ (modPos_changes ?_) (by decide)
    · with_reducible exact Changes.refl
    · exact fun _ h => h
  · with_reducible refine Changes.ite_ (fun _ => ?_) (fun _ => ?_)
    · with_reducible refine Changes.next ?_ holdForBench_changes (by decide)
      with_reducible refine Changes.next ?_ (modPos_changes ?_) (by decide)
      · with_reducible exact Changes.refl
      · exact fun _ h => h
    · with_reducible refine Changes.next ?_ beginBench_changes (by decide)
      with_reducible refine Changes.ite_ (fun _ => ?_) (fun _ => ?_)
      · with_reducible refine Changes.next ?_ endBench_changes (by decide)
        with_reducible refine Changes.next ?_ (modPos_changes ?_) (by decide)
        · with_reducible exact Changes.refl
        · exact fun _ h => h
      · with_reducible refine Changes.next ?_ (modPos_changes ?_) (by decide)
        · with_reducible exact Changes.refl
        · exact fun _ h => h

theorem repairSwap_changes {s : State} {n : Nat} {t : Nat} : Changes [.free, .lcores, .positions, .halls, .miller] s (repairSwap s n
    t) := by
  unfold repairSwap
  with_reducible refine Changes.ite_ (fun _ => ?_) (fun _ => ?_)
  · with_reducible refine Changes.ite_ (fun _ => ?_) (fun _ => ?_)
    · with_reducible refine Changes.ite_ (fun _ => ?_) (fun _ => ?_)
      · with_reducible refine Changes.next ?_ benchAfterAssay_changes (by decide)
        with_reducible refine Changes.next ?_ (modHall_changes ?_) (by decide)
        · with_reducible refine Changes.next ?_ modCore_changes (by decide)
          with_reducible refine Changes.next ?_ countSwap_changes (by decide)
          with_reducible refine Changes.next ?_ (modPos_changes ?_) (by decide)
          · with_reducible exact Changes.refl
          · exact fun _ _ => clearStore_legal
        · exact fun _ h => h
      · with_reducible refine Changes.next ?_ (modPos_changes ?_) (by decide)
        · with_reducible refine Changes.next ?_ (modHall_changes ?_) (by decide)
          · with_reducible refine Changes.next ?_ modCore_changes (by decide)
            with_reducible refine Changes.next ?_ countSwap_changes (by decide)
            with_reducible refine Changes.next ?_ (modPos_changes ?_) (by decide)
            · with_reducible exact Changes.refl
            · exact fun _ _ => clearStore_legal
          · exact fun _ h => h
        · exact fun _ h => h
    · with_reducible refine Changes.next ?_ (modHall_changes ?_) (by decide)
      · with_reducible refine Changes.next ?_ modCore_changes (by decide)
        with_reducible refine Changes.next ?_ countSwap_changes (by decide)
        with_reducible refine Changes.next ?_ (modPos_changes ?_) (by decide)
        · with_reducible exact Changes.refl
        · exact fun _ _ => clearStore_legal
      · exact fun _ h => h
  · with_reducible refine Changes.next ?_ (modHall_changes ?_) (by decide)
    · with_reducible refine Changes.next ?_ modCore_changes (by decide)
      with_reducible refine Changes.next ?_ countSwap_changes (by decide)
      with_reducible refine Changes.next ?_ (modPos_changes ?_) (by decide)
      · with_reducible exact Changes.refl
      · exact fun _ _ => clearStore_legal
    · exact fun _ h => h

theorem readBlockOf_changes {s : State} {p : Nat} {blk : Nat} {n : Nat} : Changes [.free, .positions, .halls] s (readBlockOf s p blk
    n).st := by
  unfold readBlockOf
  (dsimp only; split)
  · with_reducible refine Changes.next ?_ recordValue_changes (by decide)
    with_reducible refine Changes.next ?_ storeRead_changes (by decide)
    with_reducible exact Changes.refl
  · split
    · with_reducible refine Changes.next ?_ recordValue_changes (by decide)
      with_reducible refine Changes.next ?_ storeRead_changes (by decide)
      with_reducible exact Changes.refl
    · split
      · with_reducible refine Changes.next ?_ (modPos_changes ?_) (by decide)
        · with_reducible refine Changes.next ?_ storeRead_changes (by decide)
          with_reducible refine Changes.next ?_ recordValue_changes (by decide)
          with_reducible refine Changes.next ?_ storeRead_changes (by decide)
          with_reducible exact Changes.refl
        · exact fun _ h => h
      · with_reducible refine Changes.next ?_ (modPos_changes ?_) (by decide)
        · with_reducible refine Changes.next ?_ storeRead_changes (by decide)
          with_reducible refine Changes.next ?_ recordValue_changes (by decide)
          with_reducible refine Changes.next ?_ storeRead_changes (by decide)
          with_reducible exact Changes.refl
        · exact fun _ h => h

theorem readBlock_changes {s : State} {p : Nat} {blk : Nat} : Changes [.free, .positions, .halls] s (readBlock s p blk).st := by
  unfold readBlock
  with_reducible refine Changes.next ?_ readBlockOf_changes (by decide)
  with_reducible exact Changes.refl

theorem raiseCrc_changes {s : State} {h : Nat} {hop : Nat} {job : Option Nat} {lockind : Nat} {loc : Nat} {addr : Nat} : Changes
    [.halls] s (raiseCrc s h hop job lockind loc addr) := by
  unfold raiseCrc
  with_reducible refine Changes.next ?_ raise_changes (by decide)
  with_reducible exact Changes.refl

theorem writeBlock_changes {s : State} {p : Nat} {blk : Nat} {bs : List (Byte × Bool)} : Changes [.positions] s (writeBlock s p blk
    bs) := by
  unfold writeBlock
  with_reducible refine Changes.next ?_ (modPos_changes ?_) (by decide)
  · with_reducible exact Changes.refl
  · exact fun _ h => setRecord_legal (storeRaw_legal h)

theorem fencedRead_changes {s : State} {n : Nat} : Changes [.free] s (fencedRead s n).st := by
  unfold fencedRead
  with_reducible refine Changes.next ?_ with_free_changes (by decide)
  with_reducible refine Changes.next ?_ freeBytes_changes (by decide)
  with_reducible exact Changes.refl

theorem sendPackets_changes {s : State} {src : Nat} {dst : Nat} {old : List (List (Byte × Bool))} {l : List (List (Byte × Bool))} :
    Changes [.free, .halls, .outputs, .promotes, .series, .meshFault, .resent] s (sendPackets s src dst old l).st := by
  induction l generalizing s old with
  | nil =>
    cases old <;> (unfold sendPackets; exact Changes.refl)
  | cons x r ih =>
    cases old with
    | nil => unfold sendPackets; exact Changes.refl
    | cons o old =>
      unfold sendPackets
      dsimp only
      refine Changes.next ?_ ih (by decide)
      split
      · exact Changes.next sendNumbered_changes with_free_changes (by decide)
      · exact ((sendNumbered_changes.next transit_changes (by decide)).next transit_changes (by decide)).mono (by decide)


theorem sendSegment_changes {s : State} {src : Nat} {t : Nat} {old : List (Byte × Bool)} {bs : List (Byte × Bool)} : Changes [.free,
    .positions, .halls, .hubs, .ports, .outputs, .promotes, .series, .meshFault, .resent] s (sendSegment s src t old bs).1.st := by
  unfold sendSegment
  (dsimp only; split)
  · with_reducible refine Changes.next ?_ sendPackets_changes (by decide)
    with_reducible exact Changes.refl
  · split
    · with_reducible refine Changes.next ?_ sendPackets_changes (by decide)
      with_reducible refine Changes.next ?_ sendPackets_changes (by decide)
      with_reducible exact Changes.refl
    · split
      · with_reducible refine Changes.next ?_ countCrc_changes (by decide)
        with_reducible refine Changes.next ?_ sendPackets_changes (by decide)
        with_reducible refine Changes.next ?_ sendPackets_changes (by decide)
        with_reducible exact Changes.refl
      · with_reducible refine Changes.next ?_ countCrc_changes (by decide)
        with_reducible refine Changes.next ?_ sendPackets_changes (by decide)
        with_reducible refine Changes.next ?_ sendPackets_changes (by decide)
        with_reducible exact Changes.refl

theorem copyBlock_changes {s : State} {p : Nat} {t : Nat} {job : Option Nat} {n : Nat} {blk : Nat} : Changes [.free, .positions,
    .halls, .hubs, .ports, .outputs, .promotes, .series, .meshFault, .resent] s (copyBlock s p t job n blk) := by
  unfold copyBlock
  with_reducible refine Changes.ite_ (fun _ => ?_) (fun _ => ?_)
  · with_reducible refine Changes.ite_ (fun _ => ?_) (fun _ => ?_)
    · with_reducible refine Changes.next ?_ raiseCrc_changes (by decide)
      with_reducible refine Changes.next ?_ sendSegment_changes (by decide)
      with_reducible refine Changes.ite_ (fun _ => ?_) (fun _ => ?_)
      · with_reducible refine Changes.next ?_ raiseCrc_changes (by decide)
        split
        · with_reducible refine Changes.next ?_ readBlock_changes (by decide)
          with_reducible exact Changes.refl
        · with_reducible refine Changes.next ?_ fencedRead_changes (by decide)
          with_reducible exact Changes.refl
      · split
        · with_reducible refine Changes.next ?_ readBlock_changes (by decide)
          with_reducible exact Changes.refl
        · with_reducible refine Changes.next ?_ fencedRead_changes (by decide)
          with_reducible exact Changes.refl
    · with_reducible refine Changes.next ?_ sendSegment_changes (by decide)
      with_reducible refine Changes.ite_ (fun _ => ?_) (fun _ => ?_)
      · with_reducible refine Changes.next ?_ raiseCrc_changes (by decide)
        split
        · with_reducible refine Changes.next ?_ readBlock_changes (by decide)
          with_reducible exact Changes.refl
        · with_reducible refine Changes.next ?_ fencedRead_changes (by decide)
          with_reducible exact Changes.refl
      · split
        · with_reducible refine Changes.next ?_ readBlock_changes (by decide)
          with_reducible exact Changes.refl
        · with_reducible refine Changes.next ?_ fencedRead_changes (by decide)
          with_reducible exact Changes.refl
  · with_reducible refine Changes.ite_ (fun _ => ?_) (fun _ => ?_)
    · with_reducible refine Changes.next ?_ storeWrite_changes (by decide)
      with_reducible refine Changes.ite_ (fun _ => ?_) (fun _ => ?_)
      · with_reducible refine Changes.next ?_ raiseCrc_changes (by decide)
        with_reducible refine Changes.next ?_ sendSegment_changes (by decide)
        with_reducible refine Changes.ite_ (fun _ => ?_) (fun _ => ?_)
        · with_reducible refine Changes.next ?_ raiseCrc_changes (by decide)
          split
          · with_reducible refine Changes.next ?_ readBlock_changes (by decide)
            with_reducible exact Changes.refl
          · with_reducible refine Changes.next ?_ fencedRead_changes (by decide)
            with_reducible exact Changes.refl
        · split
          · with_reducible refine Changes.next ?_ readBlock_changes (by decide)
            with_reducible exact Changes.refl
          · with_reducible refine Changes.next ?_ fencedRead_changes (by decide)
            with_reducible exact Changes.refl
      · with_reducible refine Changes.next ?_ sendSegment_changes (by decide)
        with_reducible refine Changes.ite_ (fun _ => ?_) (fun _ => ?_)
        · with_reducible refine Changes.next ?_ raiseCrc_changes (by decide)
          split
          · with_reducible refine Changes.next ?_ readBlock_changes (by decide)
            with_reducible exact Changes.refl
          · with_reducible refine Changes.next ?_ fencedRead_changes (by decide)
            with_reducible exact Changes.refl
        · split
          · with_reducible refine Changes.next ?_ readBlock_changes (by decide)
            with_reducible exact Changes.refl
          · with_reducible refine Changes.next ?_ fencedRead_changes (by decide)
            with_reducible exact Changes.refl
    · with_reducible refine Changes.next ?_ writeBlock_changes (by decide)
      with_reducible refine Changes.ite_ (fun _ => ?_) (fun _ => ?_)
      · with_reducible refine Changes.next ?_ raiseCrc_changes (by decide)
        with_reducible refine Changes.next ?_ sendSegment_changes (by decide)
        with_reducible refine Changes.ite_ (fun _ => ?_) (fun _ => ?_)
        · with_reducible refine Changes.next ?_ raiseCrc_changes (by decide)
          split
          · with_reducible refine Changes.next ?_ readBlock_changes (by decide)
            with_reducible exact Changes.refl
          · with_reducible refine Changes.next ?_ fencedRead_changes (by decide)
            with_reducible exact Changes.refl
        · split
          · with_reducible refine Changes.next ?_ readBlock_changes (by decide)
            with_reducible exact Changes.refl
          · with_reducible refine Changes.next ?_ fencedRead_changes (by decide)
            with_reducible exact Changes.refl
      · with_reducible refine Changes.next ?_ sendSegment_changes (by decide)
        with_reducible refine Changes.ite_ (fun _ => ?_) (fun _ => ?_)
        · with_reducible refine Changes.next ?_ raiseCrc_changes (by decide)
          split
          · with_reducible refine Changes.next ?_ readBlock_changes (by decide)
            with_reducible exact Changes.refl
          · with_reducible refine Changes.next ?_ fencedRead_changes (by decide)
            with_reducible exact Changes.refl
        · split
          · with_reducible refine Changes.next ?_ readBlock_changes (by decide)
            with_reducible exact Changes.refl
          · with_reducible refine Changes.next ?_ fencedRead_changes (by decide)
            with_reducible exact Changes.refl

theorem copyStore_changes {s : State} {p : Nat} {t : Nat} {job : Option Nat} {n : Nat} : Changes [.free, .positions, .halls, .hubs,
    .ports, .outputs, .promotes, .series, .meshFault, .resent] s (copyStore s p t job n) := by
  unfold copyStore
  with_reducible refine Changes.foldl ?_ (fun _ _ => ?_)
  · with_reducible exact Changes.refl
  · with_reducible refine Changes.next ?_ copyBlock_changes (by decide)
    with_reducible exact Changes.refl

theorem beginRotation_changes {s : State} {n : Nat} {t : Nat} : Changes [.lcores, .halls] s (beginRotation s n t) := by
  unfold beginRotation
  with_reducible refine Changes.next ?_ countSwap_changes (by decide)
  with_reducible refine Changes.next ?_ modCore_changes (by decide)
  with_reducible refine Changes.next ?_ openWindow_changes (by decide)
  with_reducible exact Changes.refl

theorem rotationSwap_changes {s : State} {n : Nat} {w : SwapRun} : Changes [.free, .lcores, .positions, .halls, .hubs, .ports,
    .outputs, .promotes, .series, .meshFault, .resent] s (rotationSwap s n w) := by
  unfold rotationSwap
  with_reducible refine Changes.next ?_ (modHall_changes ?_) (by decide)
  · with_reducible refine Changes.next ?_ modCore_changes (by decide)
    with_reducible refine Changes.next ?_ (modPos_changes ?_) (by decide)
    · with_reducible refine Changes.next ?_ (modPos_changes ?_) (by decide)
      · with_reducible refine Changes.next ?_ copyStore_changes (by decide)
        with_reducible exact Changes.refl
      · exact fun _ h => h
    · exact fun _ h => h
  · exact fun _ h => h

theorem noSpare_changes {s : State} {n : Nat} : Changes [.halls] s (noSpare s n) := by
  unfold noSpare
  with_reducible refine Changes.next ?_ raise_changes (by decide)
  with_reducible exact Changes.refl

theorem endRotation_changes {s : State} {n : Nat} : Changes [.free, .lcores, .positions, .halls, .hubs, .ports, .miller, .outputs,
    .promotes, .series, .meshFault, .resent] s (endRotation s n) := by
  unfold endRotation
  ((with_reducible conv => (arg 3; whnf)); split)
  · with_reducible exact Changes.refl
  · with_reducible refine Changes.ite_ (fun _ => ?_) (fun _ => ?_)
    · with_reducible exact Changes.refl
    · with_reducible refine Changes.ite_ (fun _ => ?_) (fun _ => ?_)
      · ((with_reducible conv => (arg 3; whnf)); split)
        · with_reducible refine Changes.next ?_ repairSwap_changes (by decide)
          with_reducible refine Changes.next ?_ modCore_changes (by decide)
          with_reducible exact Changes.refl
        · with_reducible refine Changes.next ?_ noSpare_changes (by decide)
          with_reducible refine Changes.next ?_ modCore_changes (by decide)
          with_reducible exact Changes.refl
      · with_reducible refine Changes.ite_ (fun _ => ?_) (fun _ => ?_)
        · with_reducible refine Changes.next ?_ rotationSwap_changes (by decide)
          with_reducible exact Changes.refl
        · with_reducible refine Changes.next ?_ retireTarget_changes (by decide)
          with_reducible refine Changes.next ?_ modCore_changes (by decide)
          with_reducible exact Changes.refl

theorem giveUpRotation_changes {s : State} {n : Nat} : Changes [.lcores, .halls] s (giveUpRotation s n) := by
  unfold giveUpRotation
  with_reducible refine Changes.foldl ?_ (fun _ _ => ?_)
  · with_reducible exact Changes.refl
  · with_reducible refine Changes.ite_ (fun _ => ?_) (fun _ => ?_)
    · with_reducible refine Changes.next ?_ countSwap_changes (by decide)
      with_reducible refine Changes.next ?_ modCore_changes (by decide)
      with_reducible exact Changes.refl
    · with_reducible exact Changes.refl

theorem runSwapOpen_changes {n : Core} {s : State} : Changes [.free, .lcores, .positions, .halls, .miller] s (runSwapOpen n s) := by
  unfold runSwapOpen
  with_reducible refine Changes.ite_ (fun _ => ?_) (fun _ => ?_)
  · with_reducible exact Changes.refl
  · with_reducible refine Changes.ite_ (fun _ => ?_) (fun _ => ?_)
    · with_reducible refine Changes.ite_ (fun _ => ?_) (fun _ => ?_)
      · with_reducible exact Changes.refl
      · split
        · with_reducible refine Changes.next ?_ repairSwap_changes (by decide)
          with_reducible refine Changes.next ?_ openWindow_changes (by decide)
          with_reducible refine Changes.next ?_ giveUpRotation_changes (by decide)
          with_reducible exact Changes.refl
        · with_reducible refine Changes.next ?_ noSpare_changes (by decide)
          with_reducible refine Changes.next ?_ openWindow_changes (by decide)
          with_reducible exact Changes.refl
    · split
      · with_reducible refine Changes.next ?_ beginRotation_changes (by decide)
        with_reducible exact Changes.refl
      · with_reducible refine Changes.next ?_ openWindow_changes (by decide)
        with_reducible exact Changes.refl

theorem noteUnstarted_changes {s : State} {k : Nat} {o : Origin} : Changes [.queues] s (noteUnstarted s k o) := by
  unfold noteUnstarted
  with_reducible refine Changes.next ?_ (modQueue_changes ?_) (by decide)
  · with_reducible exact Changes.refl
  · exact fun _ h => h

theorem closeMarker_changes {s : State} {n : Nat} {w : SwapRun} {i : Nat} : Changes [.free, .queues, .signals, .lcores, .positions,
    .halls, .hubs, .ports, .jobs, .slots, .stats, .mem, .memErr, .outputs, .promotes, .series, .meshFault, .resent, .leafs] s
    (closeMarker s n w i) := by
  unfold closeMarker
  ((with_reducible conv => (arg 3; whnf)); split)
  · with_reducible exact Changes.refl
  · with_reducible refine Changes.ite_ (fun _ => ?_) (fun _ => ?_)
    · with_reducible exact Changes.refl
    · with_reducible refine Changes.ite_ (fun _ => ?_) (fun _ => ?_)
      · ((with_reducible conv => (arg 3; whnf)); split)
        · with_reducible refine Changes.next ?_ noteUnstarted_changes (by decide)
          with_reducible refine Changes.next ?_ evDiscard_changes (by decide)
          with_reducible refine Changes.next ?_ (modQueue_changes ?_) (by decide)
          · with_reducible refine Changes.next ?_ emptyAtHalt_changes (by decide)
            with_reducible refine Changes.ite_ (fun _ => ?_) (fun _ => ?_)
            · with_reducible refine Changes.next ?_ modCore_changes (by decide)
              with_reducible refine Changes.next ?_ completeDone_changes (by decide)
              with_reducible refine Changes.next ?_ (modQueue_changes ?_) (by decide)
              · with_reducible exact Changes.refl
              · exact fun _ h => h
            · with_reducible refine Changes.next ?_ completeDone_changes (by decide)
              with_reducible refine Changes.next ?_ (modQueue_changes ?_) (by decide)
              · with_reducible exact Changes.refl
              · exact fun _ h => h
          · exact fun _ h => h
        · with_reducible refine Changes.next ?_ noteUnstarted_changes (by decide)
          with_reducible refine Changes.next ?_ emptyAtHalt_changes (by decide)
          with_reducible refine Changes.ite_ (fun _ => ?_) (fun _ => ?_)
          · with_reducible refine Changes.next ?_ modCore_changes (by decide)
            with_reducible refine Changes.next ?_ completeDone_changes (by decide)
            with_reducible refine Changes.next ?_ (modQueue_changes ?_) (by decide)
            · with_reducible exact Changes.refl
            · exact fun _ h => h
          · with_reducible refine Changes.next ?_ completeDone_changes (by decide)
            with_reducible refine Changes.next ?_ (modQueue_changes ?_) (by decide)
            · with_reducible exact Changes.refl
            · exact fun _ h => h
      · with_reducible refine Changes.ite_ (fun _ => ?_) (fun _ => ?_)
        · with_reducible refine Changes.next ?_ modCore_changes (by decide)
          with_reducible refine Changes.next ?_ completeDone_changes (by decide)
          with_reducible refine Changes.next ?_ (modQueue_changes ?_) (by decide)
          · with_reducible exact Changes.refl
          · exact fun _ h => h
        · with_reducible refine Changes.next ?_ completeDone_changes (by decide)
          with_reducible refine Changes.next ?_ (modQueue_changes ?_) (by decide)
          · with_reducible exact Changes.refl
          · exact fun _ h => h

theorem runSwapClose_changes {n : Core} {s : State} : Changes [.free, .queues, .signals, .lcores, .positions, .halls, .hubs, .ports,
    .jobs, .slots, .stats, .miller, .mem, .memErr, .outputs, .promotes, .series, .meshFault, .resent, .leafs] s (runSwapClose n s)
    := by
  unfold runSwapClose
  with_reducible refine Changes.ite_ (fun _ => ?_) (fun _ => ?_)
  · with_reducible exact Changes.refl
  · ((with_reducible conv => (arg 3; whnf)); split)
    · with_reducible refine Changes.next ?_ endRotation_changes (by decide)
      with_reducible exact Changes.refl
    · with_reducible refine Changes.next ?_ modCore_changes (by decide)
      with_reducible refine Changes.foldl ?_ (fun _ _ => ?_)
      · with_reducible refine Changes.ite_ (fun _ => ?_) (fun _ => ?_)
        · with_reducible refine Changes.next ?_ pushEvent_changes (by decide)
          with_reducible refine Changes.next ?_ (modHall_changes ?_) (by decide)
          · with_reducible refine Changes.next ?_ endRotation_changes (by decide)
            with_reducible exact Changes.refl
          · exact fun _ h => h
        · with_reducible refine Changes.next ?_ endRotation_changes (by decide)
          with_reducible exact Changes.refl
      · with_reducible refine Changes.next ?_ closeMarker_changes (by decide)
        with_reducible exact Changes.refl

end Sys2Proof.Machine
end

