-- ==== Sys2Proof/Laws/ChangeCarter.lean ====
section
/-! SUPPORT. What the operations of Machine/Carter may change. -/

namespace Sys2Proof.Machine

theorem readAccess_changes {s : State} {w : Cart} {x : CDesc} {lo : Nat} {len : Nat} : Changes [.free, .positions, .halls, .hubs,
    .ports, .mem, .memErr, .outputs, .promotes, .series, .meshFault, .resent, .leafs] s (readAccess s w x lo len).st := by
  unfold readAccess
  split
  · split
    · have hb := readBlock_changes (s := s) (p := w.p) (blk := lo / 4096)
      obtain ⟨r, hr⟩ : ∃ r, r = readBlock s w.p (lo / 4096) := ⟨_, rfl⟩
      rw [← hr] at hb ⊢
      exact hb.mono (by decide)
    · exact storeRead_changes.mono (by decide)
  · dsimp only
    refine Changes.next ?_ (modPos_changes fun _ h => h) (by decide)
    with_reducible refine Changes.next ?_ vaRead_changes (by decide)
    exact Changes.refl


theorem flipBuffer_changes {s : State} {p : Nat} {lo : Nat} {es : Nat} {bytes : List (Byte × Bool)} : Changes [.free, .positions,
    .halls] s (flipBuffer s p lo es bytes).st := by
  unfold flipBuffer
  (dsimp only; split)
  · with_reducible exact Changes.refl
  · ((with_reducible conv => (arg 3; whnf)); split)
    · with_reducible refine Changes.next ?_ (modPos_changes ?_) (by decide)
      · split
        · with_reducible exact Changes.refl
        · with_reducible refine Changes.next ?_ takeFree_changes (by decide)
          with_reducible exact Changes.refl
      · exact fun _ h => h
    · with_reducible refine Changes.next ?_ raiseQuiet_changes (by decide)
      with_reducible refine Changes.next ?_ (modPos_changes ?_) (by decide)
      · with_reducible refine Changes.next ?_ (modPos_changes ?_) (by decide)
        · split
          · with_reducible exact Changes.refl
          · with_reducible refine Changes.next ?_ takeFree_changes (by decide)
            with_reducible exact Changes.refl
        · exact fun _ h => h
      · exact fun _ h => h
    · with_reducible refine Changes.next ?_ raiseEngineUe_changes (by decide)
      with_reducible refine Changes.next ?_ (modPos_changes ?_) (by decide)
      · with_reducible refine Changes.next ?_ (modPos_changes ?_) (by decide)
        · split
          · with_reducible exact Changes.refl
          · with_reducible refine Changes.next ?_ takeFree_changes (by decide)
            with_reducible exact Changes.refl
        · exact fun _ h => h
      · exact fun _ h => h

theorem readStep_changes {w : Cart} {x : CDesc} {a : Source} {l : List (Nat × Nat)} : Changes [.free, .positions, .halls, .hubs,
    .ports, .mem, .memErr, .outputs, .promotes, .series, .meshFault, .resent, .leafs] a.st (readStep w x a l).st := by
  unfold readStep
  split
  · with_reducible exact Changes.refl
  · (dsimp only; split)
    · with_reducible refine Changes.next ?_ readAccess_changes (by decide)
      with_reducible exact Changes.refl
    · with_reducible refine Changes.next ?_ (modPos_changes ?_) (by decide)
      · with_reducible refine Changes.next ?_ flipBuffer_changes (by decide)
        with_reducible refine Changes.next ?_ readAccess_changes (by decide)
        with_reducible exact Changes.refl
      · exact fun _ h => h

theorem readSource_changes {s : State} {w : Cart} {x : CDesc} {path : CPath} {order : List Nat} : Changes [.free, .positions,
    .halls, .hubs, .ports, .mem, .memErr, .outputs, .promotes, .series, .meshFault, .resent, .leafs] s (readSource s w x path
    order).st := by
  unfold readSource
  with_reducible refine Changes.foldl_in Source.st ?_ (fun _ _ => ?_)
  · with_reducible exact Changes.refl
  · with_reducible refine Changes.next ?_ readStep_changes (by decide)
    with_reducible exact Changes.refl

theorem aliasStep_changes {c : Ctx} {es : Nat} {a : State × List (Nat × Byte × Bool) × List CElem} {e : Nat × Nat × CElem} : Changes
    [.free] a.1 (aliasStep c es a e).1 := by
  unfold aliasStep
  ((with_reducible conv => (arg 3; whnf)); split)
  · with_reducible refine Changes.next ?_ with_free_changes (by decide)
    with_reducible exact Changes.refl
  · with_reducible exact Changes.refl

theorem aliasElems_changes {s : State} {c : Ctx} {a : CDesc} {b : CDesc} {l : List (Nat × Nat × CElem)} : Changes [.free] s
    (aliasElems s c a b l).1 := by
  unfold aliasElems
  split
  · with_reducible refine Changes.foldl_in Prod.fst ?_ (fun _ _ => ?_)
    · with_reducible exact Changes.refl
    · with_reducible refine Changes.next ?_ aliasStep_changes (by decide)
      with_reducible exact Changes.refl
  · with_reducible exact Changes.refl

theorem writeAccess_changes {s : State} {w : Cart} {x : CDesc} {lo : Nat} {bs : List (Byte × Bool)} {whole : Bool} : Changes [.free,
    .positions, .halls, .hubs, .ports, .mem, .memErr, .outputs, .promotes, .series, .meshFault, .resent, .leafs] s (writeAccess s w
    x lo bs whole).st := by
  unfold writeAccess
  split
  · with_reducible refine Changes.ite_ (fun _ => ?_) (fun _ => ?_)
    · with_reducible refine Changes.next ?_ writeBlock_changes (by decide)
      with_reducible exact Changes.refl
    · with_reducible refine Changes.next ?_ storeWrite_changes (by decide)
      with_reducible exact Changes.refl
  · with_reducible refine Changes.next ?_ (modPos_changes ?_) (by decide)
    · with_reducible refine Changes.next ?_ vaWrite_changes (by decide)
      with_reducible exact Changes.refl
    · exact fun _ h => h

theorem countWrong_changes {s : State} {w : Cart} {hop : Nat} {lo : Nat} : Changes [.positions, .hubs] s (countWrong s w hop lo) :=
    by
  unfold countWrong
  with_reducible refine Changes.ite_ (fun _ => ?_) (fun _ => ?_)
  · split
    · with_reducible refine Changes.next ?_ (modHub_changes ?_) (by decide)
      · with_reducible exact Changes.refl
      · exact fun _ h => h
    · with_reducible exact Changes.refl
  · with_reducible refine Changes.next ?_ (modPos_changes ?_) (by decide)
    · with_reducible exact Changes.refl
    · exact fun _ h => h

theorem writeStep_changes {w : Cart} {x : CDesc} {path : CPath} {item : Nat → CElem} {rank : Nat → Nat} {from' : Nat → Nat} {a :
    Dest} {l : List (Nat × Nat)} : Changes [.free, .positions, .halls, .hubs, .ports, .mem, .memErr, .outputs, .promotes, .series,
    .meshFault, .resent, .leafs] a.st (writeStep w x path item rank from' a l).st := by
  unfold writeStep
  split
  · split
    split
    · (rename_i z57 z57_0; with_reducible refine Changes.of_eq ?_ (congrArg (fun x => x.2) z57))
      with_reducible exact Changes.refl
    · (dsimp only; split)
      · with_reducible refine Changes.next ?_ writeAccess_changes (by decide)
        with_reducible refine Changes.ite_ (fun _ => ?_) (fun _ => ?_)
        · with_reducible refine Changes.next ?_ countWrong_changes (by decide)
          (rename_i z53 z53_0 z53_1 z53_2 z53_3 z53_4; with_reducible refine Changes.of_eq ?_ (congrArg (fun x => x.2) z53))
          with_reducible exact Changes.refl
        · (rename_i z54 z54_0 z54_1 z54_2 z54_3 z54_4; with_reducible refine Changes.of_eq ?_ (congrArg (fun x => x.2) z54))
          with_reducible exact Changes.refl
      · with_reducible refine Changes.next ?_ writeAccess_changes (by decide)
        with_reducible refine Changes.ite_ (fun _ => ?_) (fun _ => ?_)
        · with_reducible refine Changes.next ?_ countWrong_changes (by decide)
          (rename_i z53 z53_0 z53_1 z53_2 z53_3; with_reducible refine Changes.of_eq ?_ (congrArg (fun x => x.2) z53))
          with_reducible exact Changes.refl
        · (rename_i z54 z54_0 z54_1 z54_2 z54_3; with_reducible refine Changes.of_eq ?_ (congrArg (fun x => x.2) z54))
          with_reducible exact Changes.refl
  · split
    (dsimp only; split)
    · (rename_i z57 z57_0; with_reducible refine Changes.of_eq ?_ (congrArg (fun x => x.2) z57))
      with_reducible refine Changes.next ?_ takeFree_changes (by decide)
      with_reducible exact Changes.refl
    · ((with_reducible conv => (arg 3; whnf)); split)
      · with_reducible refine Changes.next ?_ writeAccess_changes (by decide)
        with_reducible refine Changes.ite_ (fun _ => ?_) (fun _ => ?_)
        · with_reducible refine Changes.next ?_ countWrong_changes (by decide)
          (rename_i z53 z53_0 z53_1 z53_2 z53_3 z53_4; with_reducible refine Changes.of_eq ?_ (congrArg (fun x => x.2) z53))
          with_reducible refine Changes.next ?_ takeFree_changes (by decide)
          with_reducible exact Changes.refl
        · (rename_i z54 z54_0 z54_1 z54_2 z54_3 z54_4; with_reducible refine Changes.of_eq ?_ (congrArg (fun x => x.2) z54))
          with_reducible refine Changes.next ?_ takeFree_changes (by decide)
          with_reducible exact Changes.refl
      · with_reducible refine Changes.next ?_ writeAccess_changes (by decide)
        with_reducible refine Changes.ite_ (fun _ => ?_) (fun _ => ?_)
        · with_reducible refine Changes.next ?_ countWrong_changes (by decide)
          (rename_i z53 z53_0 z53_1 z53_2 z53_3; with_reducible refine Changes.of_eq ?_ (congrArg (fun x => x.2) z53))
          with_reducible refine Changes.next ?_ takeFree_changes (by decide)
          with_reducible exact Changes.refl
        · (rename_i z54 z54_0 z54_1 z54_2 z54_3; with_reducible refine Changes.of_eq ?_ (congrArg (fun x => x.2) z54))
          with_reducible refine Changes.next ?_ takeFree_changes (by decide)
          with_reducible exact Changes.refl

theorem carterMove_changes {s : State} {w : Cart} {op : Nat} {c : BitVec 512} {blk : BitVec 1024} : Changes [.free, .positions,
    .halls, .hubs, .ports, .mem, .memErr, .outputs, .promotes, .series, .meshFault, .resent, .leafs] s (carterMove s w op c blk).st
    := by
  unfold carterMove
  split
  · (dsimp only; split)
    · with_reducible exact Changes.refl
    · with_reducible refine Changes.next ?_ (modPos_changes ?_) (by decide)
      · with_reducible refine Changes.foldl_in Dest.st ?_ (fun _ _ => ?_)
        · with_reducible exact Changes.refl
        · with_reducible refine Changes.next ?_ writeStep_changes (by decide)
          with_reducible exact Changes.refl
      · exact fun _ h => h
  · (dsimp only; split)
    · with_reducible exact Changes.refl
    · with_reducible refine Changes.next ?_ (modPos_changes ?_) (by decide)
      · with_reducible refine Changes.foldl_in Dest.st ?_ (fun _ _ => ?_)
        · with_reducible refine Changes.next ?_ aliasElems_changes (by decide)
          with_reducible refine Changes.next ?_ readSource_changes (by decide)
          with_reducible exact Changes.refl
        · with_reducible refine Changes.next ?_ writeStep_changes (by decide)
          with_reducible exact Changes.refl
      · exact fun _ h => h

theorem raiseUeRead_changes {s : State} {w : Cart} {seq : W32} {va : Nat} : Changes [.halls] s (raiseUeRead s w seq va) := by
  unfold raiseUeRead
  with_reducible refine Changes.next ?_ raiseQueue_changes (by decide)
  with_reducible exact Changes.refl

theorem endCarter_changes {s : State} {w : Cart} {c : InFlight} {f : CFault} : Changes [.free, .queues, .signals, .lcores,
    .positions, .halls, .hubs, .ports, .jobs, .stats, .mem, .memErr, .outputs, .promotes, .series, .meshFault, .resent, .leafs] s
    (endCarter s w c f) := by
  unfold endCarter
  split
  · with_reducible refine Changes.next ?_ endXfail_changes (by decide)
    with_reducible exact Changes.refl
  · with_reducible refine Changes.next ?_ completeFault_changes (by decide)
    with_reducible refine Changes.next ?_ raiseUeRead_changes (by decide)
    with_reducible exact Changes.refl
  · with_reducible refine Changes.next ?_ completeFault_changes (by decide)
    with_reducible refine Changes.next ?_ raiseUeRead_changes (by decide)
    with_reducible refine Changes.next ?_ raiseCrc_changes (by decide)
    with_reducible exact Changes.refl

theorem runCarter_changes {op : Nat} {n : Nat} {s : State} : Changes [.free, .queues, .signals, .lcores, .positions, .halls, .hubs,
    .ports, .jobs, .slots, .stats, .mem, .memErr, .outputs, .promotes, .series, .meshFault, .resent, .leafs] s (runCarter op n s) :=
    by
  unfold runCarter
  ((with_reducible conv => (arg 3; whnf)); split)
  · ((with_reducible conv => (arg 3; whnf)); split)
    · with_reducible refine Changes.next ?_ endCarter_changes (by decide)
      with_reducible refine Changes.next ?_ carterMove_changes (by decide)
      with_reducible exact Changes.refl
    · with_reducible refine Changes.ite_ (fun _ => ?_) (fun _ => ?_)
      · with_reducible refine Changes.next ?_ markUnacked_changes (by decide)
        with_reducible refine Changes.next ?_ carterMove_changes (by decide)
        with_reducible exact Changes.refl
      · with_reducible refine Changes.next ?_ completeDone_changes (by decide)
        with_reducible refine Changes.next ?_ carterMove_changes (by decide)
        with_reducible exact Changes.refl
  · with_reducible exact Changes.refl

end Sys2Proof.Machine
end

