-- ==== Sys2Proof/Laws/ChangeFlash.lean ====
section
/-! SUPPORT. What the operations of Machine/Flash may change. -/

namespace Sys2Proof.Machine

theorem tabWf_flashProgram {t : Tab Byte} {a : Nat} {bs : List Byte} (h : tabWf 0xFF t = true) : tabWf 0xFF (flashProgram t a bs) = true := by
  induction bs generalizing t a with
  | nil => exact h
  | cons b r ih => exact ih (tabWf_tabSet h _ _)

theorem tabWfFrom_listed {α : Type} [DecidableEq α] {d : α} {f : Nat → α} {lo n : Nat} :
    tabWfFrom d lo (((List.range' lo n).map fun i => (i, f i)).filter fun x => x.2 != d) = true := by
  induction n generalizing lo with
  | zero => rfl
  | succ n ih =>
    simp only [List.range'_succ, List.map_cons, List.filter_cons]
    split
    · next e => simp only [tabWfFrom, Bool.and_eq_true, decide_eq_true_eq]; exact ⟨⟨Nat.le_refl _, by simpa using e⟩, ih⟩
    · exact tabWfFrom_le ih (by omega)

theorem tabWf_bufferOf {l : List Byte} : tabWf 0 (bufferOf l) = true := by
  have h := tabWfFrom_listed (d := (0 : Byte)) (f := fun i => l.getD i 0) (lo := 0) (n := 256)
  rw [← List.range_eq_range'] at h
  exact h

theorem appendEntry_legal {hl r : HallState} {a n : Nat} {bs : List Byte} (e : appendEntry hl a n bs = some r) (h : HallLegal hl) :
    HallLegal r := by
  unfold appendEntry at e
  dsimp only at e
  split at e
  · cases e; exact h.withFlash tabWf_flashProgram
  · cases e

theorem appendFailed_changes {s : State} {h : Nat} {e : LogBytes} : Changes [.halls] s (appendFailed s h e) := by
  unfold appendFailed
  with_reducible refine Changes.next ?_ raise_changes (by decide)
  with_reducible refine Changes.next ?_ (modHall_changes ?_) (by decide)
  · with_reducible exact Changes.refl
  · exact fun _ h => h

theorem writeEntry_changes {s : State} {h : Nat} {e : LogBytes} : Changes [.halls] s (writeEntry s h e) := by
  unfold writeEntry
  ((with_reducible conv => (arg 3; whnf)); split)
  · with_reducible refine Changes.setHall ?_ ?_ (by decide)
    · with_reducible exact Changes.refl
    · (intro _ l; exact appendEntry_legal ‹_› (l.hall _))
  · with_reducible refine Changes.next ?_ appendFailed_changes (by decide)
    with_reducible exact Changes.refl

theorem runRepairLogAppend_changes {h : Hall} {s : State} : Changes [.halls] s (runRepairLogAppend h s) := by
  unfold runRepairLogAppend
  split
  · with_reducible exact Changes.refl
  · with_reducible refine Changes.ite_ (fun _ => ?_) (fun _ => ?_)
    · with_reducible refine Changes.next ?_ writeEntry_changes (by decide)
      with_reducible refine Changes.next ?_ (modHall_changes ?_) (by decide)
      · with_reducible exact Changes.refl
      · exact fun _ h => h
    · with_reducible exact Changes.refl

theorem runSeamWireLog_changes {h : Hall} {link : Fin 18} {wire : W16} {s : State} : Changes [.free, .halls] s (runSeamWireLog h
    link wire s) := by
  unfold runSeamWireLog
  with_reducible refine Changes.ite_ (fun _ => ?_) (fun _ => ?_)
  · with_reducible refine Changes.next ?_ writeEntry_changes (by decide)
    with_reducible refine Changes.next ?_ (modHall_changes ?_) (by decide)
    · with_reducible refine Changes.next ?_ takeFree_changes (by decide)
      with_reducible exact Changes.refl
    · exact fun _ h => h.withSeam (tabWf_tabSet · _ _)
  · with_reducible exact Changes.refl

theorem mailboxDone_changes {s : State} {h : Nat} {op : BitVec 2} {status : Nat} : Changes [.halls] s (mailboxDone s h op status) :=
    by
  unfold mailboxDone
  with_reducible refine Changes.next ?_ (modHall_changes ?_) (by decide)
  · with_reducible exact Changes.refl
  · exact fun _ h => h

theorem mailboxRun_changes {s : State} {h : Nat} {op : BitVec 2} {n : Nat} {f : HallState → Nat → HallState} (hf : ∀ hl a, HallLegal
    hl → HallLegal (f hl a)) : Changes [.halls] s (mailboxRun s h op n f) := by
  unfold mailboxRun
  dsimp only
  split
  · exact Changes.refl
  · split
    · exact mailboxDone_changes
    · split
      · exact (modHall_changes fun _ l => hf _ _ l).next mailboxDone_changes (by decide)
      · exact mailboxDone_changes


theorem runFlashRead_changes {h : Hall} {s : State} : Changes [.halls] s (runFlashRead h s) := by
  exact mailboxRun_changes fun _ _ l => l.withMailbox fun _ => tabWf_bufferOf


theorem runFlashProgram_changes {h : Hall} {s : State} : Changes [.halls] s (runFlashProgram h s) := by
  exact mailboxRun_changes fun _ _ l => l.withFlash tabWf_flashProgram


theorem runFlashErase_changes {h : Hall} {s : State} : Changes [.halls] s (runFlashErase h s) := by
  exact mailboxRun_changes fun _ _ l => l.withFlash (tabWf_filter · _)


theorem runFlashReserved_changes {h : Hall} {s : State} : Changes [.halls] s (runFlashReserved h s) := by
  unfold runFlashReserved
  with_reducible refine Changes.ite_ (fun _ => ?_) (fun _ => ?_)
  · with_reducible refine Changes.next ?_ mailboxDone_changes (by decide)
    with_reducible exact Changes.refl
  · with_reducible exact Changes.refl

end Sys2Proof.Machine
end

