-- ==== Sys2Proof/Laws/ChangeHubs.lean ====
section
/-! SUPPORT. What the operations of Machine/Hubs may change. -/

namespace Sys2Proof.Machine

theorem setChannel_legal {hb : HubState} {ch : Nat} {c : Channel} (h : HubLegal hb) : HubLegal (setChannel hb ch c) :=
  h.withChannels (tabWf_tabSet · _ _)

theorem endPass_legal {o : Order} {hb : HubState} (h : HubLegal hb) : HubLegal (endPass o hb) := by
  unfold endPass
  dsimp only
  split
  · have key : ∀ (l : List Nat) (x : HubState), HubLegal x →
        HubLegal (l.foldl (fun hb c => setChannel hb c { getChannel hb c with scrubPos := 0 }) x) := by
      intro l
      induction l with
      | nil => exact fun _ k => k
      | cons a r ih => exact fun x k => ih _ (setChannel_legal k)
    exact key _ _ h
  · exact h

theorem runHubRead_changes {s : State} {src : Nat} {pa : Nat} {n : Nat} {r : Sys2Proof.Reader} {job : Option Job} : Changes [.free,
    .positions, .halls, .hubs, .ports, .mem, .memErr, .outputs, .promotes, .series, .meshFault, .resent, .delivered] s (runHubRead s
    src pa n r job) := by
  unfold runHubRead
  with_reducible refine Changes.ite_ (fun _ => ?_) (fun _ => ?_)
  · with_reducible refine Changes.next ?_ with_delivered_changes (by decide)
    with_reducible refine Changes.next ?_ checkSegment_changes (by decide)
    with_reducible refine Changes.next ?_ hubRead_changes (by decide)
    with_reducible exact Changes.refl
  · with_reducible refine Changes.next ?_ with_delivered_changes (by decide)
    with_reducible refine Changes.next ?_ hubRead_changes (by decide)
    with_reducible exact Changes.refl

theorem runHubWrite_changes {s : State} {src : Nat} {pa : Nat} {data : List (Byte × Bool)} {r : Sys2Proof.Reader} {job : Option Job}
    : Changes [.free, .halls, .hubs, .mem, .memErr, .outputs, .promotes, .series, .meshFault, .resent] s (runHubWrite s src pa data
    r job) := by
  unfold runHubWrite
  with_reducible refine Changes.next ?_ hubWrite_changes (by decide)
  with_reducible exact Changes.refl

theorem askFlush_changes {s : State} {k : Nat} {hk : Nat} : Changes [.free, .halls, .outputs, .promotes, .series, .meshFault,
    .resent] s (askFlush s k hk).2 := by
  unfold askFlush
  with_reducible refine Changes.next ?_ transit_changes (by decide)
  with_reducible refine Changes.next ?_ sendNumbered_changes (by decide)
  with_reducible exact Changes.refl

theorem runFenceFlush_changes {h : Hall} {j : Hub} {job : Job} {s : State} : Changes [.free, .queues, .halls, .hubs, .mem, .memErr,
    .outputs, .promotes, .series, .meshFault, .resent] s (runFenceFlush h j job s) := by
  unfold runFenceFlush
  ((with_reducible conv => (arg 3; whnf)); split)
  · with_reducible exact Changes.refl
  · with_reducible refine Changes.ite_ (fun _ => ?_) (fun _ => ?_)
    · with_reducible exact Changes.refl
    · with_reducible refine Changes.ite_ (fun _ => ?_) (fun _ => ?_)
      · with_reducible refine Changes.next ?_ askFlush_changes (by decide)
        with_reducible exact Changes.refl
      · with_reducible refine Changes.next ?_ (modQueue_changes ?_) (by decide)
        · with_reducible refine Changes.next ?_ transit_changes (by decide)
          with_reducible refine Changes.next ?_ (modHub_changes ?_) (by decide)
          · with_reducible refine Changes.next ?_ flushJob_changes (by decide)
            with_reducible refine Changes.next ?_ askFlush_changes (by decide)
            with_reducible exact Changes.refl
          · exact fun _ h => h
        · exact fun _ h => h

theorem scrubPair_changes {s : State} {pair : Nat} : Changes [.free, .halls, .hubs, .mem, .memErr] s (scrubPair s pair) := by
  unfold scrubPair
  with_reducible refine Changes.ite_ (fun _ => ?_) (fun _ => ?_)
  · with_reducible exact Changes.refl
  · with_reducible refine Changes.next ?_ channelRead_changes (by decide)
    with_reducible exact Changes.refl

theorem scrubRow_changes {s : State} {mch : Nat} {pos : Nat} : Changes [.free, .halls, .hubs, .mem, .memErr] s (scrubRow s mch pos)
    := by
  unfold scrubRow
  with_reducible refine Changes.foldl ?_ (fun _ _ => ?_)
  · with_reducible exact Changes.refl
  · with_reducible refine Changes.next ?_ scrubPair_changes (by decide)
    with_reducible exact Changes.refl

theorem runPatrolScrub_changes {h : Hall} {j : Hub} {ch : Fin 32} {s : State} : Changes [.free, .halls, .hubs, .mem, .memErr] s
    (runPatrolScrub h j ch s) := by
  unfold runPatrolScrub
  with_reducible refine Changes.ite_ (fun _ => ?_) (fun _ => ?_)
  · with_reducible exact Changes.refl
  · with_reducible refine Changes.next ?_ (modHub_changes ?_) (by decide)
    · with_reducible refine Changes.ite_ (fun _ => ?_) (fun _ => ?_)
      · with_reducible refine Changes.next ?_ (modHub_changes ?_) (by decide)
        · with_reducible refine Changes.next ?_ scrubRow_changes (by decide)
          with_reducible exact Changes.refl
        · exact fun _ h => setChannel_legal h
      · with_reducible exact Changes.refl
    · exact fun _ h => endPass_legal h

theorem onChannel_changes {h : Hall} {j : Hub} {ch : Fin 32} {f : Channel → Channel} {s : State} : Changes [.hubs] s (onChannel h j
    ch f s) := by
  unfold onChannel
  with_reducible refine Changes.ite_ (fun _ => ?_) (fun _ => ?_)
  · with_reducible refine Changes.next ?_ (modHub_changes ?_) (by decide)
    · with_reducible exact Changes.refl
    · exact fun _ h => setChannel_legal h
  · with_reducible exact Changes.refl

theorem runRefresh_changes {h : Hall} {j : Hub} {ch : Fin 32} {s : State} : Changes [.hubs] s (runRefresh h j ch s) := by
  unfold runRefresh
  with_reducible refine Changes.next ?_ onChannel_changes (by decide)
  with_reducible exact Changes.refl

theorem runMr4Read_changes {h : Hall} {j : Hub} {i : Fin 8} {temp : Byte} {s : State} : Changes [.halls, .hubs, .miller, .power] s
    (runMr4Read h j i temp s) := by
  unfold runMr4Read
  with_reducible refine Changes.ite_ (fun _ => ?_) (fun _ => ?_)
  · with_reducible refine Changes.ite_ (fun _ => ?_) (fun _ => ?_)
    · with_reducible refine Changes.next ?_ warned_changes (by decide)
      with_reducible refine Changes.next ?_ (modHub_changes ?_) (by decide)
      · with_reducible exact Changes.refl
      · exact fun _ h => setPkg_legal h
    · with_reducible refine Changes.next ?_ (modHub_changes ?_) (by decide)
      · with_reducible exact Changes.refl
      · exact fun _ h => setPkg_legal h
  · with_reducible exact Changes.refl

theorem runWckTrack_changes {h : Hall} {j : Hub} {ch : Fin 32} {reading : W16} {s : State} : Changes [.hubs] s (runWckTrack h j ch
    reading s) := by
  unfold runWckTrack
  with_reducible refine Changes.next ?_ onChannel_changes (by decide)
  with_reducible exact Changes.refl

theorem retrainFailed_changes {s : State} {hk : Nat} {ch : Nat} : Changes [.halls, .hubs] s (retrainFailed s hk ch) := by
  unfold retrainFailed
  with_reducible refine Changes.next ?_ retirePackage_changes (by decide)
  with_reducible refine Changes.next ?_ raise_changes (by decide)
  with_reducible refine Changes.next ?_ (modHub_changes ?_) (by decide)
  · with_reducible exact Changes.refl
  · exact fun _ h => setPkg_legal h

theorem runRetrain_changes {h : Hall} {j : Hub} {ch : Fin 32} {ok : Bool} {s : State} : Changes [.halls, .hubs] s (runRetrain h j ch
    ok s) := by
  unfold runRetrain
  with_reducible refine Changes.ite_ (fun _ => ?_) (fun _ => ?_)
  · with_reducible exact Changes.refl
  · with_reducible refine Changes.ite_ (fun _ => ?_) (fun _ => ?_)
    · with_reducible refine Changes.next ?_ retrainFailed_changes (by decide)
      with_reducible refine Changes.next ?_ (modHub_changes ?_) (by decide)
      · with_reducible exact Changes.refl
      · exact fun _ h => setChannel_legal h
    · with_reducible refine Changes.next ?_ (modHub_changes ?_) (by decide)
      · with_reducible exact Changes.refl
      · exact fun _ h => setChannel_legal h

theorem runPkgRetire_changes {h : Hall} {j : Hub} {i : Fin 8} {s : State} : Changes [.halls, .hubs] s (runPkgRetire h j i s) := by
  unfold runPkgRetire
  with_reducible refine Changes.ite_ (fun _ => ?_) (fun _ => ?_)
  · with_reducible refine Changes.next ?_ retirePackage_changes (by decide)
    with_reducible exact Changes.refl
  · with_reducible exact Changes.refl

end Sys2Proof.Machine
end

