-- ==== Sys2Proof/Laws/ChangeMesh.lean ====
section
/-! SUPPORT. What the operations of Machine/Mesh may change. -/

namespace Sys2Proof.Machine

theorem runMeshResend_changes {h : Hall} {x : Resend} {s : State} : Changes [.halls, .meshFault] s (runMeshResend h x s) := by
  unfold runMeshResend
  with_reducible refine Changes.ite_ (fun _ => ?_) (fun _ => ?_)
  · with_reducible exact Changes.refl
  · split
    · with_reducible refine Changes.next ?_ with_meshFault_changes (by decide)
      with_reducible exact Changes.refl
    · split
      · with_reducible exact Changes.refl
      · with_reducible refine Changes.next ?_ countResent_changes (by decide)
        with_reducible exact Changes.refl

theorem reportLost_changes {s : State} {h : Nat} : Changes [.halls] s (reportLost s h) := by
  unfold reportLost
  with_reducible refine Changes.next ?_ raise_changes (by decide)
  with_reducible refine Changes.next ?_ (modHall_changes ?_) (by decide)
  · with_reducible exact Changes.refl
  · exact fun _ h => h

theorem closeGap_changes {s : State} {g : Signal} : Changes [.signals, .series] s (closeGap s g) := by
  unfold closeGap
  with_reducible refine Changes.next ?_ with_signals_changes (by decide)
  with_reducible refine Changes.next ?_ setSeries_changes (by decide)
  with_reducible exact Changes.refl

theorem loseSignal_changes {s : State} {i : Nat} {g : Signal} : Changes [.free, .queues, .sems, .signals, .lcores, .positions,
    .halls, .hubs, .ports, .jobs, .stats, .mem, .memErr, .outputs, .promotes, .series, .meshFault, .resent, .leafs] s (loseSignal s
    i g) := by
  unfold loseSignal
  with_reducible refine Changes.ite_ (fun _ => ?_) (fun _ => ?_)
  · with_reducible refine Changes.next ?_ noticeOf_changes (by decide)
    with_reducible refine Changes.next ?_ applySignal_changes (by decide)
    with_reducible refine Changes.next ?_ setSeries_changes (by decide)
    with_reducible refine Changes.next ?_ takeFree_changes (by decide)
    with_reducible refine Changes.next ?_ with_signals_changes (by decide)
    with_reducible exact Changes.refl
  · with_reducible refine Changes.next ?_ closeGap_changes (by decide)
    with_reducible refine Changes.next ?_ takeFree_changes (by decide)
    with_reducible refine Changes.next ?_ with_signals_changes (by decide)
    with_reducible exact Changes.refl

theorem runMeshLost_changes {h : Hall} {x : Loss} {s : State} : Changes [.free, .queues, .sems, .signals, .lcores, .positions,
    .halls, .hubs, .ports, .jobs, .stats, .mem, .memErr, .outputs, .promotes, .series, .meshFault, .resent, .leafs] s (runMeshLost h
    x s) := by
  unfold runMeshLost
  with_reducible refine Changes.ite_ (fun _ => ?_) (fun _ => ?_)
  · with_reducible exact Changes.refl
  · split
    · with_reducible refine Changes.next ?_ reportLost_changes (by decide)
      with_reducible refine Changes.next ?_ with_meshFault_changes (by decide)
      with_reducible exact Changes.refl
    · split
      · with_reducible exact Changes.refl
      · with_reducible refine Changes.next ?_ loseSignal_changes (by decide)
        with_reducible refine Changes.next ?_ reportLost_changes (by decide)
        with_reducible exact Changes.refl

theorem setUp_changes {s : State} {n : Nat} {up : Bool} : Changes [.halls] s (setUp s n up) := by
  unfold setUp
  with_reducible refine Changes.foldl ?_ (fun _ _ => ?_)
  · with_reducible exact Changes.refl
  · with_reducible refine Changes.next ?_ (modHall_changes ?_) (by decide)
    · with_reducible exact Changes.refl
    · exact fun _ h => h.withSeam (tabWf_tabSet · _ _)

theorem seamHole_changes {s : State} {h : Nat} {i : Nat} : Changes [.free, .moduleDown, .queues, .lcores, .positions, .halls, .hubs,
    .ports, .jobs, .stats, .mem, .memErr, .outputs, .promotes, .series, .meshFault, .resent, .leafs] s (seamHole s h i) := by
  unfold seamHole
  with_reducible refine Changes.ite_ (fun _ => ?_) (fun _ => ?_)
  · with_reducible exact Changes.refl
  · with_reducible refine Changes.next ?_ applyClass_changes (by decide)
    with_reducible refine Changes.next ?_ raiseBoth_changes (by decide)
    with_reducible refine Changes.next ?_ setUp_changes (by decide)
    with_reducible refine Changes.next ?_ setUp_changes (by decide)
    with_reducible exact Changes.refl

theorem makeHole_changes {s : State} {h : Nat} {i : Nat} : Changes [.free, .positions, .halls, .miller] s (makeHole s h i) := by
  unfold makeHole
  with_reducible refine Changes.next ?_ (modPos_changes ?_) (by decide)
  · with_reducible refine Changes.next ?_ (modHall_changes ?_) (by decide)
    · with_reducible refine Changes.ite_ (fun _ => ?_) (fun _ => ?_)
      · with_reducible refine Changes.next ?_ endBench_changes (by decide)
        with_reducible exact Changes.refl
      · with_reducible exact Changes.refl
    · exact fun _ h => h
  · exact fun _ h => h

theorem fenceAtHole_changes {s : State} {n : Nat} {o : Origin} : Changes [.free, .queues, .lcores, .positions, .halls, .hubs,
    .ports, .jobs, .stats, .mem, .memErr, .outputs, .promotes, .series, .meshFault, .resent, .leafs] s (fenceAtHole s n o) := by
  unfold fenceAtHole
  with_reducible refine Changes.ite_ (fun _ => ?_) (fun _ => ?_)
  · with_reducible exact Changes.refl
  · with_reducible refine Changes.next ?_ modCore_changes (by decide)
    with_reducible refine Changes.next ?_ fenceCore_changes (by decide)
    with_reducible exact Changes.refl

theorem runRouterFailed_changes {h : Hall} {stop : Fin 90} {s : State} : Changes [.free, .moduleDown, .queues, .lcores, .positions,
    .halls, .hubs, .ports, .jobs, .stats, .miller, .mem, .memErr, .outputs, .promotes, .series, .meshFault, .resent, .leafs] s
    (runRouterFailed h stop s) := by
  unfold runRouterFailed
  with_reducible refine Changes.ite_ (fun _ => ?_) (fun _ => ?_)
  · with_reducible exact Changes.refl
  · split
    · with_reducible refine Changes.next ?_ applyClass_changes (by decide)
      with_reducible refine Changes.next ?_ raise_changes (by decide)
      with_reducible exact Changes.refl
    · with_reducible refine Changes.ite_ (fun _ => ?_) (fun _ => ?_)
      · with_reducible exact Changes.refl
      · with_reducible refine Changes.ite_ (fun _ => ?_) (fun _ => ?_)
        · with_reducible refine Changes.next ?_ applyClass_changes (by decide)
          with_reducible refine Changes.next ?_ raise_changes (by decide)
          with_reducible exact Changes.refl
        · ((with_reducible conv => (arg 3; whnf)); split)
          · with_reducible refine Changes.next ?_ seamHole_changes (by decide)
            with_reducible refine Changes.next ?_ makeHole_changes (by decide)
            with_reducible refine Changes.next ?_ raise_changes (by decide)
            with_reducible exact Changes.refl
          · with_reducible refine Changes.next ?_ fenceAtHole_changes (by decide)
            with_reducible refine Changes.next ?_ seamHole_changes (by decide)
            with_reducible refine Changes.next ?_ makeHole_changes (by decide)
            with_reducible refine Changes.next ?_ raise_changes (by decide)
            with_reducible exact Changes.refl

end Sys2Proof.Machine
end

