-- ==== Sys2Proof/Laws/ChangeMiller.lean ====
section
/-! SUPPORT. What the operations of Machine/Miller may change. -/

namespace Sys2Proof.Machine

theorem throttleOn_legal {m : Miller} {t : W64} (h : MillerLegal m) : MillerLegal (throttleOn m t) := by
  unfold throttleOn
  split <;> exact h

theorem throttleOff_legal {m : Miller} {t : W64} (h : MillerLegal m) : MillerLegal (throttleOff m t) := h

theorem raiseVin_changes {s : State} : Changes [.halls] s (raiseVin s) := by
  unfold raiseVin
  with_reducible refine Changes.next ?_ raiseBoth_changes (by decide)
  with_reducible exact Changes.refl

theorem reportVin_changes {s : State} {was : Bool} : Changes [.halls] s (reportVin s was) := by
  unfold reportVin
  with_reducible refine Changes.ite_ (fun _ => ?_) (fun _ => ?_)
  · with_reducible refine Changes.next ?_ raiseVin_changes (by decide)
    with_reducible exact Changes.refl
  · with_reducible exact Changes.refl

theorem runMillerWindow_changes {iIn : Nat} {vIn : Nat} {s : State} : Changes [.halls, .miller] s (runMillerWindow iIn vIn s) := by
  unfold runMillerWindow
  with_reducible refine Changes.ite_ (fun _ => ?_) (fun _ => ?_)
  · with_reducible exact Changes.refl
  · with_reducible refine Changes.ite_ (fun _ => ?_) (fun _ => ?_)
    · with_reducible refine Changes.next ?_ raiseBoth_changes (by decide)
      with_reducible refine Changes.setMiller ?_ ?_ (by decide)
      · with_reducible refine Changes.next ?_ reportVin_changes (by decide)
        with_reducible refine Changes.next ?_ exchangeShares_changes (by decide)
        with_reducible refine Changes.next ?_ reshare_changes (by decide)
        with_reducible refine Changes.setMiller ?_ ?_ (by decide)
        · with_reducible exact Changes.refl
        · exact fun l _ => l.miller
      · exact fun _ l => throttleOn_legal l.miller
    · with_reducible refine Changes.ite_ (fun _ => ?_) (fun _ => ?_)
      · with_reducible refine Changes.setMiller ?_ ?_ (by decide)
        · with_reducible refine Changes.next ?_ reportVin_changes (by decide)
          with_reducible refine Changes.next ?_ exchangeShares_changes (by decide)
          with_reducible refine Changes.next ?_ reshare_changes (by decide)
          with_reducible refine Changes.setMiller ?_ ?_ (by decide)
          · with_reducible exact Changes.refl
          · exact fun l _ => l.miller
        · exact fun _ l => throttleOff_legal l.miller
      · with_reducible refine Changes.next ?_ reportVin_changes (by decide)
        with_reducible refine Changes.next ?_ exchangeShares_changes (by decide)
        with_reducible refine Changes.next ?_ reshare_changes (by decide)
        with_reducible refine Changes.setMiller ?_ ?_ (by decide)
        · with_reducible exact Changes.refl
        · exact fun l _ => l.miller

theorem runMillerYield_changes {h : Hall} {s : State} : Changes [.queues] s (runMillerYield h s) := by
  unfold runMillerYield
  with_reducible refine Changes.ite_ (fun _ => ?_) (fun _ => ?_)
  · with_reducible refine Changes.foldl ?_ (fun _ _ => ?_)
    · with_reducible exact Changes.refl
    · with_reducible refine Changes.next ?_ (modQueue_changes ?_) (by decide)
      · with_reducible exact Changes.refl
      · exact fun _ h => h
  · with_reducible exact Changes.refl

theorem runDerateEnd_changes {s : State} : Changes [.halls, .miller] s (runDerateEnd s) := by
  unfold runDerateEnd
  with_reducible refine Changes.ite_ (fun _ => ?_) (fun _ => ?_)
  · with_reducible refine Changes.next ?_ reshare_changes (by decide)
    with_reducible refine Changes.setMiller ?_ ?_ (by decide)
    · with_reducible exact Changes.refl
    · exact fun l _ => l.miller
  · with_reducible exact Changes.refl

end Sys2Proof.Machine
end

