-- ==== Sys2Proof/Laws/ChangeFaults.lean ====
section
/-! SUPPORT. What the operations of Machine/Faults may change. -/

namespace Sys2Proof.Machine

theorem report_changes {s : State} {h : Nat} {src : Nat} {cls : Nat} {forced : Bool} {job : Option Nat} : Changes [.halls] s (report
    s h src cls forced job) := by
  unfold report
  split
  · with_reducible refine Changes.next ?_ raiseQuiet_changes (by decide)
    with_reducible exact Changes.refl
  · with_reducible refine Changes.next ?_ raise_changes (by decide)
    with_reducible exact Changes.refl

theorem stillOut_changes {s : State} {h : Nat} {src : Nat} {cls : Nat} : Changes [.free, .halls] s (stillOut s h src cls).2 := by
  unfold stillOut
  split
  split
  · (dsimp only; split)
    · (rename_i z57 z57_0 z57_1; with_reducible refine Changes.of_eq ?_ (congrArg (fun x => x.2) z57))
      with_reducible refine Changes.next ?_ takeFree_changes (by decide)
      with_reducible exact Changes.refl
    · with_reducible exact Changes.refl
  · (dsimp only; split)
    · with_reducible refine Changes.next ?_ (modHall_changes ?_) (by decide)
      · (rename_i z56 z56_0 z56_1; with_reducible refine Changes.of_eq ?_ (congrArg (fun x => x.2) z56))
        with_reducible refine Changes.next ?_ takeFree_changes (by decide)
        with_reducible exact Changes.refl
      · exact fun _ h => h
    · with_reducible exact Changes.refl

theorem reraise_changes {s : State} {h : Nat} {src : Nat} {x : Outage} : Changes [.free, .halls] s (reraise s h src x) := by
  unfold reraise
  with_reducible refine Changes.ite_ (fun _ => ?_) (fun _ => ?_)
  · with_reducible exact Changes.refl
  · with_reducible refine Changes.ite_ (fun _ => ?_) (fun _ => ?_)
    · with_reducible refine Changes.foldl ?_ (fun _ _ => ?_)
      · with_reducible refine Changes.next ?_ takeFree_changes (by decide)
        with_reducible exact Changes.refl
      · with_reducible refine Changes.next ?_ raise_changes (by decide)
        with_reducible exact Changes.refl
    · with_reducible refine Changes.next ?_ (modHall_changes ?_) (by decide)
      · with_reducible refine Changes.next ?_ takeFree_changes (by decide)
        with_reducible exact Changes.refl
      · exact fun _ h => h

theorem clearSticky_changes {s : State} {h : Nat} {n : Nat} : Changes [.free, .halls] s (clearSticky s h n) := by
  unfold clearSticky
  with_reducible refine Changes.ite_ (fun _ => ?_) (fun _ => ?_)
  · with_reducible refine Changes.ite_ (fun _ => ?_) (fun _ => ?_)
    · with_reducible refine Changes.foldl ?_ (fun _ _ => ?_)
      · with_reducible refine Changes.next ?_ (modHall_changes ?_) (by decide)
        · with_reducible exact Changes.refl
        · exact fun _ h => h
      · with_reducible refine Changes.next ?_ raise_changes (by decide)
        with_reducible exact Changes.refl
    · with_reducible refine Changes.ite_ (fun _ => ?_) (fun _ => ?_)
      · with_reducible refine Changes.foldl ?_ (fun _ _ => ?_)
        · with_reducible refine Changes.next ?_ (modHall_changes ?_) (by decide)
          · with_reducible exact Changes.refl
          · exact fun _ h => h
        · with_reducible refine Changes.next ?_ reraise_changes (by decide)
          with_reducible exact Changes.refl
      · with_reducible refine Changes.ite_ (fun _ => ?_) (fun _ => ?_)
        · with_reducible refine Changes.next ?_ (modHall_changes ?_) (by decide)
          · with_reducible exact Changes.refl
          · exact fun _ h => h
        · with_reducible refine Changes.foldl ?_ (fun _ _ => ?_)
          · with_reducible refine Changes.next ?_ (modHall_changes ?_) (by decide)
            · with_reducible exact Changes.refl
            · exact fun _ h => h
          · with_reducible refine Changes.next ?_ report_changes (by decide)
            with_reducible exact Changes.refl
  · with_reducible exact Changes.refl

theorem runStickyClear_changes {h : Hall} {v : W64} {s : State} : Changes [.free, .halls] s (runStickyClear h v s) := by
  unfold runStickyClear
  with_reducible refine Changes.ite_ (fun _ => ?_) (fun _ => ?_)
  · with_reducible refine Changes.foldl ?_ (fun _ _ => ?_)
    · with_reducible exact Changes.refl
    · with_reducible refine Changes.ite_ (fun _ => ?_) (fun _ => ?_)
      · with_reducible refine Changes.next ?_ clearSticky_changes (by decide)
        with_reducible exact Changes.refl
      · with_reducible exact Changes.refl
  · with_reducible exact Changes.refl

theorem forceSource_changes {s : State} {h : Nat} {n : Nat} : Changes [.halls] s (forceSource s h n) := by
  unfold forceSource
  with_reducible refine Changes.foldl ?_ (fun _ _ => ?_)
  · with_reducible exact Changes.refl
  · with_reducible refine Changes.next ?_ report_changes (by decide)
    with_reducible exact Changes.refl

theorem runForce_changes {h : Hall} {v : W64} {s : State} : Changes [.halls] s (runForce h v s) := by
  unfold runForce
  with_reducible refine Changes.ite_ (fun _ => ?_) (fun _ => ?_)
  · with_reducible refine Changes.foldl ?_ (fun _ _ => ?_)
    · with_reducible exact Changes.refl
    · with_reducible refine Changes.ite_ (fun _ => ?_) (fun _ => ?_)
      · with_reducible refine Changes.next ?_ forceSource_changes (by decide)
        with_reducible exact Changes.refl
      · with_reducible exact Changes.refl
  · with_reducible exact Changes.refl

theorem runKilledClear_changes {j : Job} {s : State} : Changes [.jobs] s (runKilledClear j s) := by
  unfold runKilledClear
  with_reducible refine Changes.ite_ (fun _ => ?_) (fun _ => ?_)
  · with_reducible refine Changes.next ?_ (modJob_changes ?_) (by decide)
    · with_reducible exact Changes.refl
    · exact fun _ h => h
  · with_reducible exact Changes.refl

theorem runReport_changes {h : Hall} {src : Fin 44} {cls : Fin 7} {job : Option Job} {s : State} : Changes [.free, .moduleDown,
    .queues, .lcores, .positions, .halls, .hubs, .ports, .jobs, .stats, .mem, .memErr, .outputs, .promotes, .series, .meshFault,
    .resent, .leafs] s (runReport h src cls job s) := by
  unfold runReport
  with_reducible refine Changes.ite_ (fun _ => ?_) (fun _ => ?_)
  · with_reducible exact Changes.refl
  · with_reducible refine Changes.ite_ (fun _ => ?_) (fun _ => ?_)
    · split
      · with_reducible refine Changes.foldl ?_ (fun _ _ => ?_)
        · with_reducible exact Changes.refl
        · with_reducible refine Changes.next ?_ report_changes (by decide)
          with_reducible exact Changes.refl
      · with_reducible refine Changes.next ?_ killJob_changes (by decide)
        with_reducible refine Changes.foldl ?_ (fun _ _ => ?_)
        · with_reducible exact Changes.refl
        · with_reducible refine Changes.next ?_ report_changes (by decide)
          with_reducible exact Changes.refl
    · with_reducible refine Changes.next ?_ applyClass_changes (by decide)
      with_reducible refine Changes.foldl ?_ (fun _ _ => ?_)
      · with_reducible exact Changes.refl
      · with_reducible refine Changes.next ?_ report_changes (by decide)
        with_reducible exact Changes.refl

theorem dropLink_changes {s : State} {h : Nat} : Changes [.halls] s (dropLink s h) := by
  unfold dropLink
  with_reducible refine Changes.ite_ (fun _ => ?_) (fun _ => ?_)
  · with_reducible refine Changes.next ?_ raise_changes (by decide)
    with_reducible refine Changes.next ?_ (modHall_changes ?_) (by decide)
    · with_reducible exact Changes.refl
    · exact fun _ h => h
  · with_reducible refine Changes.next ?_ (modHall_changes ?_) (by decide)
    · with_reducible exact Changes.refl
    · exact fun _ h => h

theorem runLinkDown_changes {h : Hall} {s : State} : Changes [.halls] s (runLinkDown h s) := by
  unfold runLinkDown
  with_reducible refine Changes.ite_ (fun _ => ?_) (fun _ => ?_)
  · with_reducible refine Changes.next ?_ dropLink_changes (by decide)
    with_reducible exact Changes.refl
  · with_reducible exact Changes.refl

theorem runLinkUp_changes {h : Hall} {s : State} : Changes [.halls] s (runLinkUp h s) := by
  unfold runLinkUp
  with_reducible refine Changes.ite_ (fun _ => ?_) (fun _ => ?_)
  · with_reducible refine Changes.next ?_ (modHall_changes ?_) (by decide)
    · with_reducible exact Changes.refl
    · exact fun _ h => h
  · with_reducible exact Changes.refl

theorem runConfigWrite_changes {h : Hall} {bar0 : W64} {bar2 : W64} {c : PcieControl} {s : State} : Changes [.halls] s
    (runConfigWrite h bar0 bar2 c s) := by
  unfold runConfigWrite
  with_reducible refine Changes.ite_ (fun _ => ?_) (fun _ => ?_)
  · with_reducible refine Changes.next ?_ (modHall_changes ?_) (by decide)
    · with_reducible exact Changes.refl
    · exact fun _ h => h
  · with_reducible exact Changes.refl

theorem runPllUnlock_changes {d : PllDomain} {s : State} : Changes [.free, .moduleDown, .queues, .lcores, .positions, .halls, .hubs,
    .ports, .jobs, .stats, .miller, .mem, .memErr, .outputs, .promotes, .series, .meshFault, .resent, .leafs] s (runPllUnlock d s)
    := by
  unfold runPllUnlock
  with_reducible refine Changes.ite_ (fun _ => ?_) (fun _ => ?_)
  · with_reducible exact Changes.refl
  · ((with_reducible conv => (arg 3; whnf)); split)
    · with_reducible refine Changes.ite_ (fun _ => ?_) (fun _ => ?_)
      · with_reducible refine Changes.next ?_ endBench_changes (by decide)
        with_reducible refine Changes.next ?_ (modHall_changes ?_) (by decide)
        · with_reducible refine Changes.next ?_ raise_changes (by decide)
          with_reducible exact Changes.refl
        · exact fun _ h => h
      · with_reducible refine Changes.next ?_ (modHall_changes ?_) (by decide)
        · with_reducible refine Changes.next ?_ raise_changes (by decide)
          with_reducible exact Changes.refl
        · exact fun _ h => h
    · with_reducible refine Changes.next ?_ dropLink_changes (by decide)
      with_reducible refine Changes.next ?_ (modHall_changes ?_) (by decide)
      · with_reducible refine Changes.next ?_ raise_changes (by decide)
        with_reducible exact Changes.refl
      · exact fun _ h => h
    · with_reducible refine Changes.next ?_ applyClass_changes (by decide)
      with_reducible refine Changes.next ?_ (modHall_changes ?_) (by decide)
      · with_reducible refine Changes.next ?_ raise_changes (by decide)
        with_reducible exact Changes.refl
      · exact fun _ h => h
    · with_reducible refine Changes.next ?_ applyClass_changes (by decide)
      with_reducible refine Changes.next ?_ (modHall_changes ?_) (by decide)
      · with_reducible refine Changes.next ?_ raise_changes (by decide)
        with_reducible exact Changes.refl
      · exact fun _ h => h
    · with_reducible refine Changes.next ?_ applyClass_changes (by decide)
      with_reducible refine Changes.next ?_ (modHall_changes ?_) (by decide)
      · with_reducible refine Changes.next ?_ raise_changes (by decide)
        with_reducible exact Changes.refl
      · exact fun _ h => h
    · with_reducible refine Changes.next ?_ applyClass_changes (by decide)
      with_reducible refine Changes.next ?_ (modHall_changes ?_) (by decide)
      · with_reducible refine Changes.next ?_ raise_changes (by decide)
        with_reducible exact Changes.refl
      · exact fun _ h => h

theorem runWatchdog_changes {h : Hall} {s : State} : Changes [.free, .moduleDown, .queues, .lcores, .positions, .halls, .hubs,
    .ports, .jobs, .stats, .mem, .memErr, .outputs, .promotes, .series, .meshFault, .resent, .leafs] s (runWatchdog h s) := by
  unfold runWatchdog
  with_reducible refine Changes.ite_ (fun _ => ?_) (fun _ => ?_)
  · with_reducible exact Changes.refl
  · with_reducible refine Changes.next ?_ applyClass_changes (by decide)
    with_reducible refine Changes.next ?_ raise_changes (by decide)
    with_reducible exact Changes.refl

theorem islandsOff_changes {s : State} {h : Nat} : Changes [.positions] s (islandsOff s h) := by
  unfold islandsOff
  with_reducible refine Changes.foldl ?_ (fun _ _ => ?_)
  · with_reducible exact Changes.refl
  · with_reducible refine Changes.next ?_ (modPos_changes ?_) (by decide)
    · with_reducible exact Changes.refl
    · exact fun _ h => h

theorem noteSupply_changes {s : State} {x : Supply} {cls : Nat} : Changes [.halls] s (noteSupply s x cls) := by
  unfold noteSupply
  with_reducible refine Changes.foldl ?_ (fun _ _ => ?_)
  · with_reducible exact Changes.refl
  · with_reducible refine Changes.next ?_ (modHall_changes ?_) (by decide)
    · with_reducible exact Changes.refl
    · exact fun _ h => h

theorem supplyGone_changes {s : State} {x : Supply} : Changes [.free, .aliveLevel, .positions, .chain, .power, .jtag] s (supplyGone
    s x) := by
  unfold supplyGone
  split
  · with_reducible refine Changes.next ?_ with_aliveLevel_chain_power_changes (by decide)
    with_reducible exact Changes.refl
  · with_reducible refine Changes.next ?_ with_power_changes (by decide)
    with_reducible exact Changes.refl
  · with_reducible refine Changes.next ?_ islandsOff_changes (by decide)
    with_reducible exact Changes.refl
  · with_reducible exact Changes.refl
  · with_reducible exact Changes.refl
  · with_reducible exact Changes.refl
  · with_reducible exact Changes.refl

theorem runVrFault_changes {x : Supply} {s : State} : Changes [.free, .aliveLevel, .moduleDown, .queues, .lcores, .positions,
    .halls, .hubs, .ports, .jobs, .stats, .chain, .power, .jtag, .mem, .memErr, .outputs, .promotes, .series, .meshFault, .resent,
    .leafs] s (runVrFault x s) := by
  unfold runVrFault
  with_reducible refine Changes.ite_ (fun _ => ?_) (fun _ => ?_)
  · with_reducible refine Changes.ite_ (fun _ => ?_) (fun _ => ?_)
    · with_reducible refine Changes.next ?_ supplyGone_changes (by decide)
      with_reducible exact Changes.refl
    · with_reducible exact Changes.refl
  · with_reducible refine Changes.next ?_ supplyGone_changes (by decide)
    with_reducible refine Changes.next ?_ applyClass_changes (by decide)
    with_reducible refine Changes.next ?_ raiseBoth_changes (by decide)
    with_reducible refine Changes.next ?_ noteSupply_changes (by decide)
    with_reducible exact Changes.refl

theorem runVinOut_changes {vIn : Nat} {s : State} : Changes [.halls, .miller] s (runVinOut vIn s) := by
  unfold runVinOut
  with_reducible refine Changes.ite_ (fun _ => ?_) (fun _ => ?_)
  · with_reducible refine Changes.next ?_ raiseVin_changes (by decide)
    with_reducible refine Changes.next ?_ reshare_changes (by decide)
    with_reducible refine Changes.setMiller ?_ ?_ (by decide)
    · with_reducible exact Changes.refl
    · exact fun l _ => l.miller
  · with_reducible exact Changes.refl

theorem runEfuseTrip_changes {s : State} : Changes [.moduleDown, .ports, .power] s (runEfuseTrip s) := by
  unfold runEfuseTrip
  with_reducible refine Changes.ite_ (fun _ => ?_) (fun _ => ?_)
  · with_reducible refine Changes.foldl ?_ (fun _ _ => ?_)
    · with_reducible refine Changes.next ?_ with_moduleDown_power_changes (by decide)
      with_reducible exact Changes.refl
    · with_reducible refine Changes.next ?_ (modPort_changes ?_) (by decide)
      · with_reducible exact Changes.refl
      · exact fun _ h => downPort_legal h
  · with_reducible exact Changes.refl

theorem runThermWarn_changes {r : Reading} {s : State} : Changes [.halls, .miller, .power] s (runThermWarn r s) := by
  unfold runThermWarn
  with_reducible refine Changes.ite_ (fun _ => ?_) (fun _ => ?_)
  · with_reducible refine Changes.next ?_ warned_changes (by decide)
    with_reducible refine Changes.next ?_ with_power_changes (by decide)
    with_reducible exact Changes.refl
  · with_reducible exact Changes.refl

theorem runThermClear_changes {s : State} : Changes [.miller, .power] s (runThermClear s) := by
  unfold runThermClear
  with_reducible refine Changes.next ?_ (with_miller_power_changes ?_) (by decide)
  · with_reducible exact Changes.refl
  · exact fun h => h

theorem runThermTrip_changes {temp : Byte} {s : State} : Changes [.free, .moduleDown, .queues, .lcores, .positions, .halls, .hubs,
    .ports, .jobs, .stats, .power, .mem, .memErr, .outputs, .promotes, .series, .meshFault, .resent, .leafs] s (runThermTrip temp s)
    := by
  unfold runThermTrip
  with_reducible refine Changes.ite_ (fun _ => ?_) (fun _ => ?_)
  · with_reducible exact Changes.refl
  · with_reducible refine Changes.next ?_ with_power_changes (by decide)
    with_reducible refine Changes.next ?_ applyClass_changes (by decide)
    with_reducible refine Changes.next ?_ raiseBoth_changes (by decide)
    with_reducible refine Changes.next ?_ with_power_changes (by decide)
    with_reducible exact Changes.refl

theorem runAliveToggle_changes {s : State} : Changes [.aliveLevel] s (runAliveToggle s) := by
  unfold runAliveToggle
  with_reducible refine Changes.ite_ (fun _ => ?_) (fun _ => ?_)
  · with_reducible refine Changes.next ?_ with_aliveLevel_changes (by decide)
    with_reducible exact Changes.refl
  · with_reducible exact Changes.refl

end Sys2Proof.Machine
end

