-- ==== Sys2Proof/Laws/ChangeEvents.lean ====
section
/-! SUPPORT. What the operations of Machine/Events may change. -/

namespace Sys2Proof.Machine

theorem writeRingCfg_legal {v : W32} {hl : HallState} (h : HallLegal hl) : HallLegal (writeRingCfg v hl) := by
  have key : ∀ x : HallState, HallLegal x → HallLegal (if bitOf v.toNat 31 && !x.ringEnable then
      { x with ringEnable := true, ringProd := 0, ringCons := 0 } else { x with ringEnable := bitOf v.toNat 31 }) := by
    intro x hx
    split <;> exact hx
  unfold writeRingCfg
  apply key
  split
  · next e => exact ⟨h.1, h.2.1, h.2.2.1, e.2.1, e.2.2, h.2.2.2.2.2⟩
  · exact h

theorem writeRingCons_legal {v : W32} {hl : HallState} (h : HallLegal hl) : HallLegal (writeRingCons v hl) := by
  unfold writeRingCons
  split <;> exact h

theorem putRecord_changes {s : State} {h : Nat} {e : Event} {i : Nat} {more : Bool} : Changes [.halls, .hostMem] s (putRecord s h e
    i more) := by
  unfold putRecord
  with_reducible refine Changes.next ?_ (modHall_changes ?_) (by decide)
  · with_reducible refine Changes.next ?_ with_hostMem_changes (by decide)
    with_reducible exact Changes.refl
  · exact fun _ h => h

theorem overflow_changes {s : State} {h : Nat} : Changes [.halls] s (overflow s h) := by
  unfold overflow
  ((with_reducible conv => (arg 3; whnf)); split)
  · with_reducible exact Changes.refl
  · with_reducible refine Changes.next ?_ pushEvent_changes (by decide)
    with_reducible refine Changes.next ?_ (modHall_changes ?_) (by decide)
    · with_reducible exact Changes.refl
    · exact fun _ h => h

theorem runEventWrite_changes {h : Hall} {s : State} : Changes [.halls, .hostMem] s (runEventWrite h s) := by
  unfold runEventWrite
  split
  · with_reducible exact Changes.refl
  · with_reducible refine Changes.ite_ (fun _ => ?_) (fun _ => ?_)
    · with_reducible refine Changes.next ?_ overflow_changes (by decide)
      with_reducible refine Changes.next ?_ (modHall_changes ?_) (by decide)
      · with_reducible refine Changes.foldl ?_ (fun _ _ => ?_)
        · with_reducible refine Changes.next ?_ (modHall_changes ?_) (by decide)
          · with_reducible exact Changes.refl
          · exact fun _ h => h
        · with_reducible refine Changes.next ?_ putRecord_changes (by decide)
          with_reducible exact Changes.refl
      · exact fun _ h => h.withVectors (tabWf_tabSet · _ _)
    · with_reducible exact Changes.refl

theorem fireVector_changes {s : State} {h : Nat} {v : Nat} : Changes [.halls, .hostMem] s (fireVector s h v) := by
  unfold fireVector
  with_reducible refine Changes.ite_ (fun _ => ?_) (fun _ => ?_)
  · with_reducible refine Changes.ite_ (fun _ => ?_) (fun _ => ?_)
    · with_reducible refine Changes.next ?_ (modHall_changes ?_) (by decide)
      · with_reducible exact Changes.refl
      · exact fun _ h => h.withVectors (tabWf_tabSet · _ _)
    · with_reducible exact Changes.refl
  · with_reducible refine Changes.ite_ (fun _ => ?_) (fun _ => ?_)
    · with_reducible refine Changes.next ?_ (modHall_changes ?_) (by decide)
      · with_reducible refine Changes.next ?_ with_hostMem_changes (by decide)
        with_reducible exact Changes.refl
      · exact fun _ h => h.withVectors (tabWf_tabSet · _ _)
    · with_reducible exact Changes.refl

theorem runMsixFire_changes {h : Hall} {v : Fin 17} {s : State} : Changes [.halls, .hostMem] s (runMsixFire h v s) := by
  unfold runMsixFire
  with_reducible refine Changes.ite_ (fun _ => ?_) (fun _ => ?_)
  · with_reducible refine Changes.next ?_ fireVector_changes (by decide)
    with_reducible exact Changes.refl
  · with_reducible exact Changes.refl

theorem runRingEnable_changes {h : Hall} {v : W32} {s : State} : Changes [.halls] s (runRingEnable h v s) := by
  unfold runRingEnable
  with_reducible refine Changes.ite_ (fun _ => ?_) (fun _ => ?_)
  · with_reducible refine Changes.next ?_ (modHall_changes ?_) (by decide)
    · with_reducible exact Changes.refl
    · exact fun _ h => writeRingCfg_legal h
  · with_reducible exact Changes.refl

theorem runRingCons_changes {h : Hall} {v : W32} {s : State} : Changes [.halls] s (runRingCons h v s) := by
  unfold runRingCons
  with_reducible refine Changes.ite_ (fun _ => ?_) (fun _ => ?_)
  · with_reducible refine Changes.next ?_ (modHall_changes ?_) (by decide)
    · with_reducible exact Changes.refl
    · exact fun _ h => writeRingCons_legal h
  · with_reducible exact Changes.refl

end Sys2Proof.Machine
end

