-- ==== Sys2Proof/Laws/ChangeTiles.lean ====
section
/-! SUPPORT. What the operations of Machine/Tiles may change. -/

namespace Sys2Proof.Machine

theorem sealFlip_changes {s : State} {h : Nat} : Changes [.free, .halls] s (sealFlip s h).2.2 := by
  unfold sealFlip
  (dsimp only; split)
  · with_reducible exact Changes.refl
  · ((with_reducible conv => (arg 3; whnf)); split)
    · with_reducible refine Changes.next ?_ takeFree_changes (by decide)
      with_reducible refine Changes.next ?_ (modHall_changes ?_) (by decide)
      · with_reducible exact Changes.refl
      · exact fun _ h => h
    · with_reducible refine Changes.next ?_ takeFree_changes (by decide)
      with_reducible refine Changes.next ?_ (modHall_changes ?_) (by decide)
      · with_reducible exact Changes.refl
      · exact fun _ h => h
    · with_reducible refine Changes.next ?_ takeFree_changes (by decide)
      with_reducible refine Changes.next ?_ (modHall_changes ?_) (by decide)
      · with_reducible exact Changes.refl
      · exact fun _ h => h

theorem putStats_changes {s : State} {h : Nat} {j : Nat} {i : Nat} {v : Stats} : Changes [.free, .halls, .stats] s (putStats s h j i
    v) := by
  unfold putStats
  with_reducible refine Changes.next ?_ setStats_changes (by decide)
  with_reducible refine Changes.next ?_ sealFlip_changes (by decide)
  with_reducible exact Changes.refl

theorem readStats_changes {s : State} {h : Nat} {j : Nat} {i : Nat} : Changes [.free, .halls, .slots] s (readStats s h j i).2 := by
  unfold readStats
  split
  (dsimp only; split)
  · with_reducible exact Changes.refl
  · split
    · with_reducible refine Changes.next ?_ sealCe_changes (by decide)
      with_reducible exact Changes.refl
    · (rename_i z57 z57_0 z57_1; with_reducible refine Changes.of_eq ?_ (congrArg (fun x => x.2) z57))
      with_reducible refine Changes.next ?_ takeFree_changes (by decide)
      with_reducible refine Changes.next ?_ sealUe_changes (by decide)
      with_reducible exact Changes.refl

theorem sealReports_changes {s : State} {h : Nat} {j : Nat} {slot : Nat} {l : List BlockReport} : Changes [.free, .halls, .slots,
    .stats] s (sealReports s h j slot l) := by
  unfold sealReports
  with_reducible refine Changes.ite_ (fun _ => ?_) (fun _ => ?_)
  · with_reducible exact Changes.refl
  · with_reducible refine Changes.next ?_ putStats_changes (by decide)
    with_reducible refine Changes.next ?_ readStats_changes (by decide)
    with_reducible exact Changes.refl

end Sys2Proof.Machine
end

