-- ==== Sys2Proof/Laws/ChangeWeaver.lean ====
section
/-! SUPPORT. What the operations of Machine/Weaver may change. -/

namespace Sys2Proof.Machine

theorem Reader.overByte_changes {r : Reader} {off : Nat} : Changes [.free, .positions, .halls] r.st (Reader.overByte r off).2.st :=
    by
  unfold Reader.overByte
  (dsimp only; split)
  · with_reducible refine Changes.next ?_ takeFree_changes (by decide)
    with_reducible exact Changes.refl
  · with_reducible refine Changes.next ?_ storeRead_changes (by decide)
    with_reducible refine Changes.next ?_ takeFree_changes (by decide)
    with_reducible exact Changes.refl

theorem Reader.overBytes_changes {r : Reader} {off : Nat} {n : Nat} : Changes [.free, .positions, .halls] r.st (Reader.overBytes r
    off n).2.st := by
  induction n generalizing r off with
  | zero => exact Changes.refl
  | succ n ih =>
  unfold Reader.overBytes
  with_reducible refine Changes.next ?_ (ih) (by decide)
  with_reducible refine Changes.next ?_ Reader.overByte_changes (by decide)
  with_reducible exact Changes.refl

theorem Reader.bytes_changes {r : Reader} {off : Nat} {n : Nat} : Changes [.free, .positions, .halls] r.st (Reader.bytes r off
    n).2.st := by
  unfold Reader.bytes
  split
  · with_reducible refine Changes.next ?_ Reader.overBytes_changes (by decide)
    with_reducible exact Changes.refl
  · with_reducible refine Changes.next ?_ storeRead_changes (by decide)
    with_reducible exact Changes.refl

theorem Reader.ranges_changes {r : Reader} {l : List Range} : Changes [.free, .positions, .halls] r.st (Reader.ranges r l).2.st :=
    by
  induction l generalizing r with
  | nil => exact Changes.refl
  | cons z r ih =>
  unfold Reader.ranges
  with_reducible refine Changes.next ?_ (ih) (by decide)
  with_reducible refine Changes.next ?_ Reader.bytes_changes (by decide)
  with_reducible exact Changes.refl

theorem Reader.num_changes {r : Reader} {off : Nat} {n : Nat} : Changes [.free, .positions, .halls] r.st (Reader.num r off n).2.2.st
    := by
  unfold Reader.num
  with_reducible refine Changes.next ?_ Reader.bytes_changes (by decide)
  with_reducible exact Changes.refl

theorem Reader.block_changes {r : Reader} {base : Nat} : Changes [.free, .positions, .halls] r.st (Reader.block r base).2.st := by
  unfold Reader.block
  ((with_reducible conv => (arg 3; whnf)); split)
  · with_reducible exact Changes.refl
  · with_reducible refine Changes.next ?_ Reader.bytes_changes (by decide)
    with_reducible exact Changes.refl

theorem Reader.value_changes {r : Reader} {b : Loose} {vals : Bool} {x : Nat} : Changes [.free, .positions, .halls] r.st
    (Reader.value r b vals x).2.2.st := by
  unfold Reader.value
  split
  · with_reducible exact Changes.refl
  · split
    · with_reducible refine Changes.next ?_ Reader.num_changes (by decide)
      with_reducible refine Changes.next ?_ Reader.num_changes (by decide)
      with_reducible exact Changes.refl
    · with_reducible refine Changes.next ?_ Reader.num_changes (by decide)
      with_reducible exact Changes.refl

theorem Reader.entries_changes {r : Reader} {b : Loose} {vals : Bool} {n : Nat} {x : Nat} {lo : Nat} : Changes [.free, .positions,
    .halls] r.st (Reader.entries r b vals n x lo).2.2.st := by
  induction n generalizing r b vals x lo with
  | zero => exact Changes.refl
  | succ n ih =>
  unfold Reader.entries
  (dsimp only; split)
  · with_reducible refine Changes.next ?_ Reader.num_changes (by decide)
    with_reducible exact Changes.refl
  · split
    · with_reducible refine Changes.next ?_ (ih) (by decide)
      with_reducible refine Changes.next ?_ Reader.num_changes (by decide)
      with_reducible exact Changes.refl
    · with_reducible refine Changes.next ?_ (ih) (by decide)
      with_reducible refine Changes.next ?_ Reader.value_changes (by decide)
      with_reducible refine Changes.next ?_ Reader.num_changes (by decide)
      with_reducible exact Changes.refl

theorem Reader.readRow_changes {r : Reader} {b : Loose} {vals : Bool} {row : Nat} : Changes [.free, .positions, .halls] r.st
    (Reader.readRow r b vals row).2.st := by
  unfold Reader.readRow
  split
  · with_reducible exact Changes.refl
  · split
    · with_reducible exact Changes.refl
    · (dsimp only; split)
      · with_reducible refine Changes.next ?_ Reader.num_changes (by decide)
        with_reducible refine Changes.next ?_ Reader.num_changes (by decide)
        with_reducible exact Changes.refl
      · with_reducible refine Changes.next ?_ Reader.entries_changes (by decide)
        with_reducible refine Changes.next ?_ Reader.num_changes (by decide)
        with_reducible refine Changes.next ?_ Reader.num_changes (by decide)
        with_reducible exact Changes.refl

theorem Reader.row_changes {r : Reader} {base : Nat} {vals : Bool} {row : Nat} : Changes [.free, .positions, .halls] r.st
    (Reader.row r base vals row).2.st := by
  unfold Reader.row
  ((with_reducible conv => (arg 3; whnf)); split)
  · with_reducible exact Changes.refl
  · with_reducible refine Changes.next ?_ Reader.readRow_changes (by decide)
    with_reducible refine Changes.next ?_ Reader.block_changes (by decide)
    with_reducible exact Changes.refl

theorem Reader.rowList_changes {r : Reader} {base : Nat} {vals : Bool} {l : List Nat} : Changes [.free, .positions, .halls] r.st
    (Reader.rowList r base vals l).2.st := by
  induction l generalizing r base vals with
  | nil => exact Changes.refl
  | cons z r ih =>
  unfold Reader.rowList
  with_reducible refine Changes.next ?_ (ih) (by decide)
  with_reducible refine Changes.next ?_ Reader.row_changes (by decide)
  with_reducible exact Changes.refl

theorem Reader.panel_changes {r : Reader} {base : Nat} {wfmt : Nat} {p : Pattern} : Changes [.free, .positions, .halls] r.st
    (Reader.panel r base wfmt p).2.2.2.st := by
  unfold Reader.panel
  with_reducible refine Changes.next ?_ Reader.bytes_changes (by decide)
  with_reducible exact Changes.refl

theorem Reader.flipEntry_changes {r : Reader} {e : WEntry} : Changes [.free, .positions, .halls] r.st (Reader.flipEntry r e).2.2.st
    := by
  unfold Reader.flipEntry
  (dsimp only; split)
  · with_reducible exact Changes.refl
  · ((with_reducible conv => (arg 3; whnf)); split)
    · with_reducible refine Changes.next ?_ (modPos_changes ?_) (by decide)
      · split
        · with_reducible exact Changes.refl
        · with_reducible refine Changes.next ?_ takeFree_changes (by decide)
          with_reducible exact Changes.refl
      · exact fun _ h => h
    · with_reducible refine Changes.next ?_ raiseQuiet_changes (by decide)
      with_reducible refine Changes.next ?_ (modPos_changes ?_) (by decide)
      · with_reducible refine Changes.next ?_ (modPos_changes ?_) (by decide)
        · split
          · with_reducible exact Changes.refl
          · with_reducible refine Changes.next ?_ takeFree_changes (by decide)
            with_reducible exact Changes.refl
        · exact fun _ h => h
      · exact fun _ h => h
    · with_reducible refine Changes.next ?_ raiseEngineUe_changes (by decide)
      with_reducible refine Changes.next ?_ (modPos_changes ?_) (by decide)
      · with_reducible refine Changes.next ?_ (modPos_changes ?_) (by decide)
        · split
          · with_reducible exact Changes.refl
          · with_reducible refine Changes.next ?_ takeFree_changes (by decide)
            with_reducible exact Changes.refl
        · exact fun _ h => h
      · exact fun _ h => h

theorem Reader.flipFirst_changes {r : Reader} {l : List WRow} : Changes [.free, .positions, .halls] r.st (Reader.flipFirst r l).2.st
    := by
  induction l generalizing r with
  | nil => exact Changes.refl
  | cons z r ih =>
  unfold Reader.flipFirst
  ((with_reducible conv => (arg 3; whnf)); split)
  · with_reducible refine Changes.next ?_ (ih) (by decide)
    with_reducible exact Changes.refl
  · with_reducible refine Changes.next ?_ Reader.flipEntry_changes (by decide)
    with_reducible exact Changes.refl

theorem Reader.flipKeys_changes {r : Reader} {a : List WRow} {b : List WRow} : Changes [.free, .positions, .halls] r.st
    (Reader.flipKeys r a b).2.2.st := by
  unfold Reader.flipKeys
  ((with_reducible conv => (arg 3; whnf)); split)
  · with_reducible exact Changes.refl
  · split
    · with_reducible refine Changes.next ?_ Reader.flipFirst_changes (by decide)
      with_reducible exact Changes.refl
    · split
      · with_reducible refine Changes.next ?_ Reader.flipFirst_changes (by decide)
        with_reducible exact Changes.refl
      · with_reducible refine Changes.next ?_ Reader.flipFirst_changes (by decide)
        with_reducible exact Changes.refl

theorem withOverlap_changes {L : List Part} {s : State} {p : Nat} {w : List Range} {f : Reader → WRes} (hf : ∀ r, Changes L r.st (f
    r).rd.st) : Changes L s (withOverlap s p w f).rd.st := by
  unfold withOverlap
  dsimp only
  split
  · exact hf { st := s, p := p, avoid := w, tainted := (f { st := s, p := p }).rd.poison }
  · exact hf { st := s, p := p }

theorem withOverlap_then {L : List Part} {s t : State} {p : Nat} {w : List Range} {f : Reader → WRes} (h : Changes L s t)
    (hf : ∀ r, Changes L r.st (f r).rd.st) (_ : Part.sub [] L = true) : Changes L s (withOverlap t p w f).rd.st :=
  h.next (withOverlap_changes hf) (by simp [Part.sub])


theorem weaverCounts_changes {s : State} {p : Nat} {found : Nat} {drops : Nat} {crowd : Nat} : Changes [.free, .positions] s
    (weaverCounts s p found drops crowd) := by
  unfold weaverCounts
  with_reducible refine Changes.next ?_ (modPos_changes ?_) (by decide)
  · with_reducible refine Changes.next ?_ takeFree_changes (by decide)
    with_reducible exact Changes.refl
  · exact fun _ h => h

theorem partWeaver_changes {s : State} {p : Nat} {r : WRes} : Changes [.free, .positions] s (partWeaver s p r) := by
  unfold partWeaver
  with_reducible refine Changes.next ?_ putPieces_changes (by decide)
  with_reducible refine Changes.next ?_ putPieces_changes (by decide)
  with_reducible refine Changes.next ?_ freeSome_changes (by decide)
  with_reducible refine Changes.next ?_ freeSome_changes (by decide)
  with_reducible exact Changes.refl

theorem faultWeaver_changes {s : State} {n : Nat} {p : Nat} {c : InFlight} {tslot : Nat} {r : WRes} : Changes [.free, .positions,
    .halls, .slots, .stats] s (faultWeaver s n p c tslot r) := by
  unfold faultWeaver
  with_reducible refine Changes.next ?_ weaverCounts_changes (by decide)
  with_reducible refine Changes.next ?_ takeFree_changes (by decide)
  with_reducible refine Changes.next ?_ sealReports_changes (by decide)
  with_reducible refine Changes.next ?_ freeSome_changes (by decide)
  with_reducible refine Changes.next ?_ partWeaver_changes (by decide)
  with_reducible exact Changes.refl

theorem endWeaver_changes {n : Nat} {k : Nat} {p : Nat} {c : InFlight} {tslot : Nat} {r : WRes} : Changes [.free, .queues, .signals,
    .lcores, .positions, .halls, .hubs, .ports, .jobs, .slots, .stats, .mem, .memErr, .outputs, .promotes, .series, .meshFault,
    .resent, .leafs] r.rd.st (endWeaver n k p c tslot r) := by
  unfold endWeaver
  with_reducible refine Changes.ite_ (fun _ => ?_) (fun _ => ?_)
  · with_reducible refine Changes.next ?_ endPoison_changes (by decide)
    with_reducible refine Changes.next ?_ faultWeaver_changes (by decide)
    with_reducible exact Changes.refl
  · with_reducible refine Changes.next ?_ completeDone_changes (by decide)
    with_reducible refine Changes.next ?_ weaverCounts_changes (by decide)
    with_reducible refine Changes.next ?_ sealReports_changes (by decide)
    with_reducible refine Changes.next ?_ putPieces_changes (by decide)
    with_reducible exact Changes.refl

theorem spmmB_changes {r : Reader} {o : SpmmOps} : Changes [.free, .positions, .halls] r.st (spmmB r o).2.st := by
  unfold spmmB
  split
  · with_reducible refine Changes.next ?_ Reader.panel_changes (by decide)
    with_reducible exact Changes.refl
  · with_reducible refine Changes.next ?_ Reader.rowList_changes (by decide)
    with_reducible exact Changes.refl

theorem weaverOut_changes {r : Reader} {o : OutSpec} {rows : List (List OutEl)} {side : List Piece} {found : Nat} {crowd : Nat} :
    Changes [] r.st (weaverOut r o rows side found crowd).rd.st := by
  unfold weaverOut
  with_reducible exact Changes.refl

theorem spmmRes_changes {o : SpmmOps} {r : Reader} : Changes [.free, .positions, .halls] r.st (spmmRes o r).rd.st := by
  unfold spmmRes
  with_reducible refine Changes.next ?_ weaverOut_changes (by decide)
  with_reducible refine Changes.next ?_ Reader.flipKeys_changes (by decide)
  with_reducible refine Changes.next ?_ spmmB_changes (by decide)
  with_reducible refine Changes.next ?_ Reader.rowList_changes (by decide)
  with_reducible exact Changes.refl

theorem runSpmm_changes {n : Nat} {s : State} : Changes [.free, .queues, .signals, .lcores, .positions, .halls, .hubs, .ports,
    .jobs, .slots, .stats, .mem, .memErr, .outputs, .promotes, .series, .meshFault, .resent, .leafs] s (runSpmm n s) := by
  unfold runSpmm
  ((with_reducible conv => (arg 3; whnf)); split)
  · with_reducible refine Changes.next ?_ endWeaver_changes (by decide)
    with_reducible refine withOverlap_then ?_ ?_ (by decide)
    · with_reducible exact Changes.refl
    · intro _
      with_reducible refine Changes.next ?_ spmmRes_changes (by decide)
      with_reducible exact Changes.refl
  · with_reducible exact Changes.refl

theorem Reader.rowElems_changes {r : Reader} {fmt : Nat} {base : Nat} {n : Nat} : Changes [.free, .positions, .halls] r.st
    (Reader.rowElems r fmt base n).2.st := by
  unfold Reader.rowElems
  split
  · with_reducible refine Changes.next ?_ Reader.ranges_changes (by decide)
    with_reducible refine Changes.next ?_ Reader.ranges_changes (by decide)
    with_reducible exact Changes.refl
  · with_reducible refine Changes.next ?_ Reader.bytes_changes (by decide)
    with_reducible exact Changes.refl

theorem Reader.slice_changes {r : Reader} {o : GatherOps} {j : Nat} : Changes [.free, .positions, .halls] r.st (Reader.slice r o
    j).2.2.st := by
  unfold Reader.slice
  split
  · (dsimp only; split)
    · with_reducible exact Changes.refl
    · with_reducible refine Changes.next ?_ Reader.rowElems_changes (by decide)
      with_reducible exact Changes.refl
  · (dsimp only; split)
    · with_reducible exact Changes.refl
    · with_reducible refine Changes.next ?_ Reader.rowElems_changes (by decide)
      with_reducible exact Changes.refl

theorem Reader.bagProducts_changes {r : Reader} {o : GatherOps} {d0 : Nat} {l : List (WEntry × WEntry)} : Changes [.free,
    .positions, .halls] r.st (Reader.bagProducts r o d0 l).2.2.st := by
  induction l generalizing r o d0 with
  | nil => exact Changes.refl
  | cons z r ih =>
  unfold Reader.bagProducts
  with_reducible refine Changes.next ?_ (ih) (by decide)
  with_reducible refine Changes.next ?_ Reader.slice_changes (by decide)
  with_reducible exact Changes.refl

theorem Reader.bag_changes {r : Reader} {o : GatherOps} {a : WRow} {d : WRow} : Changes [.free, .positions, .halls] r.st (Reader.bag
    r o a d).2.st := by
  unfold Reader.bag
  with_reducible refine Changes.next ?_ Reader.bagProducts_changes (by decide)
  with_reducible exact Changes.refl

theorem Reader.bags_changes {r : Reader} {o : GatherOps} {d : WRow} {l : List WRow} : Changes [.free, .positions, .halls] r.st
    (Reader.bags r o d l).2.st := by
  induction l generalizing r o d with
  | nil => exact Changes.refl
  | cons z r ih =>
  unfold Reader.bags
  with_reducible refine Changes.next ?_ (ih) (by decide)
  with_reducible refine Changes.next ?_ Reader.bag_changes (by decide)
  with_reducible exact Changes.refl

theorem Reader.bagRows_changes {r : Reader} {o : GatherOps} {d : WRow} {d0 : WRow} {l : List WRow} : Changes [.free, .positions,
    .halls] r.st (Reader.bagRows r o d d0 l).2.st := by
  unfold Reader.bagRows
  ((with_reducible conv => (arg 3; whnf)); split)
  · with_reducible exact Changes.refl
  · with_reducible refine Changes.next ?_ Reader.bags_changes (by decide)
    with_reducible refine Changes.next ?_ Reader.bag_changes (by decide)
    with_reducible exact Changes.refl

theorem gatherRes_changes {o : GatherOps} {r : Reader} : Changes [.free, .positions, .halls] r.st (gatherRes o r).rd.st := by
  unfold gatherRes
  with_reducible refine Changes.next ?_ weaverOut_changes (by decide)
  with_reducible refine Changes.next ?_ Reader.bagRows_changes (by decide)
  with_reducible refine Changes.next ?_ Reader.flipKeys_changes (by decide)
  with_reducible refine Changes.next ?_ Reader.row_changes (by decide)
  with_reducible refine Changes.next ?_ Reader.rowList_changes (by decide)
  with_reducible exact Changes.refl

theorem runGather_changes {n : Nat} {s : State} : Changes [.free, .queues, .signals, .lcores, .positions, .halls, .hubs, .ports,
    .jobs, .slots, .stats, .mem, .memErr, .outputs, .promotes, .series, .meshFault, .resent, .leafs] s (runGather n s) := by
  unfold runGather
  ((with_reducible conv => (arg 3; whnf)); split)
  · with_reducible refine Changes.next ?_ endWeaver_changes (by decide)
    with_reducible refine withOverlap_then ?_ ?_ (by decide)
    · with_reducible exact Changes.refl
    · intro _
      with_reducible refine Changes.next ?_ gatherRes_changes (by decide)
      with_reducible exact Changes.refl
  · with_reducible exact Changes.refl

theorem Reader.token_changes {r : Reader} {o : DispatchOps} {t : Nat} : Changes [.free, .positions, .halls] r.st (Reader.token r o
    t).2.st := by
  unfold Reader.token
  (dsimp only; split)
  · with_reducible refine Changes.next ?_ Reader.bytes_changes (by decide)
    with_reducible exact Changes.refl
  · with_reducible exact Changes.refl

theorem Reader.copies_changes {r : Reader} {o : DispatchOps} {e : Nat} {i : Nat} {l : List (Nat × WEntry)} : Changes [.free,
    .positions, .halls] r.st (Reader.copies r o e i l).2.st := by
  induction l generalizing r o e i with
  | nil => exact Changes.refl
  | cons z r ih =>
  unfold Reader.copies
  with_reducible refine Changes.next ?_ (ih) (by decide)
  with_reducible refine Changes.next ?_ Reader.token_changes (by decide)
  with_reducible exact Changes.refl

theorem Reader.experts_changes {r : Reader} {o : DispatchOps} {e : Nat} {l : List (List (Nat × WEntry))} : Changes [.free,
    .positions, .halls] r.st (Reader.experts r o e l).2.st := by
  induction l generalizing r o e with
  | nil => exact Changes.refl
  | cons z r ih =>
  unfold Reader.experts
  with_reducible refine Changes.next ?_ (ih) (by decide)
  with_reducible refine Changes.next ?_ Reader.copies_changes (by decide)
  with_reducible exact Changes.refl

theorem dispatchRes_changes {o : DispatchOps} {r : Reader} : Changes [.free, .positions, .halls] r.st (dispatchRes o r).rd.st := by
  unfold dispatchRes
  with_reducible refine Changes.next ?_ Reader.experts_changes (by decide)
  with_reducible refine Changes.next ?_ Reader.flipFirst_changes (by decide)
  with_reducible refine Changes.next ?_ Reader.rowList_changes (by decide)
  with_reducible exact Changes.refl

theorem runDispatch_changes {n : Nat} {s : State} : Changes [.free, .queues, .signals, .lcores, .positions, .halls, .hubs, .ports,
    .jobs, .slots, .stats, .mem, .memErr, .outputs, .promotes, .series, .meshFault, .resent, .leafs] s (runDispatch n s) := by
  unfold runDispatch
  ((with_reducible conv => (arg 3; whnf)); split)
  · with_reducible refine Changes.next ?_ endWeaver_changes (by decide)
    with_reducible refine withOverlap_then ?_ ?_ (by decide)
    · with_reducible exact Changes.refl
    · intro _
      with_reducible refine Changes.next ?_ dispatchRes_changes (by decide)
      with_reducible exact Changes.refl
  · with_reducible exact Changes.refl

end Sys2Proof.Machine
end

