-- ==== Sys2Proof/Laws/ChangeDrover.lean ====
section
/-! SUPPORT. What the operations of Machine/Drover may change. -/

namespace Sys2Proof.Machine

theorem drvSend_changes {d : Drv} {r : DrvRun} {ch : Nat} {f : Frame} : Changes [.ports] r.st (drvSend d r ch f).st := by
  unfold drvSend
  split
  · with_reducible exact Changes.refl
  · split
    · (dsimp only; split)
      · with_reducible exact Changes.refl
      · split
        · with_reducible exact Changes.refl
        · with_reducible refine Changes.next ?_ enqueueFrame_changes (by decide)
          with_reducible exact Changes.refl
    · (dsimp only; split)
      · with_reducible exact Changes.refl
      · split
        · with_reducible exact Changes.refl
        · with_reducible refine Changes.next ?_ enqueueFrame_changes (by decide)
          with_reducible exact Changes.refl

theorem sendChunk_changes {d : Drv} {r : DrvRun} {step : Nat} {chunk : Nat} {bs : List (Byte × Bool)} {contrib : Nat} {stp : W32}
    {ver : W32} : Changes [.ports] r.st (sendChunk d r step chunk bs contrib stp ver).st := by
  unfold sendChunk
  with_reducible refine Changes.foldl_in DrvRun.st ?_ (fun _ _ => ?_)
  · with_reducible exact Changes.refl
  · with_reducible refine Changes.next ?_ drvSend_changes (by decide)
    with_reducible exact Changes.refl

theorem drvCrc_changes {d : Drv} {r : DrvRun} {s : State} {hop va : Nat} : Changes [.halls] s (drvCrc d r s hop va).st := by
  exact raiseCrc_changes.mono (by decide)


theorem drvRead_changes {d : Drv} {r : DrvRun} {va : Nat} {n : Nat} : Changes [.free, .positions, .halls, .hubs, .ports, .mem,
    .memErr, .outputs, .promotes, .series, .meshFault, .resent, .leafs] r.st (drvRead d r va n).1.st := by
  unfold drvRead
  split
  · with_reducible exact Changes.refl
  · (dsimp only; split)
    · with_reducible refine Changes.next ?_ vaRead_changes (by decide)
      with_reducible exact Changes.refl
    · with_reducible refine Changes.next ?_ drvCrc_changes (by decide)
      with_reducible refine Changes.next ?_ vaRead_changes (by decide)
      with_reducible exact Changes.refl
    · with_reducible refine Changes.next ?_ vaRead_changes (by decide)
      with_reducible exact Changes.refl

theorem drvWrite_changes {d : Drv} {r : DrvRun} {va : Nat} {bs : List (Byte × Bool)} : Changes [.free, .positions, .halls, .hubs,
    .ports, .mem, .memErr, .outputs, .promotes, .series, .meshFault, .resent, .leafs] r.st (drvWrite d r va bs).st := by
  unfold drvWrite
  split
  · with_reducible exact Changes.refl
  · (dsimp only; split)
    · with_reducible refine Changes.next ?_ vaWrite_changes (by decide)
      with_reducible exact Changes.refl
    · with_reducible refine Changes.next ?_ drvCrc_changes (by decide)
      with_reducible refine Changes.next ?_ vaWrite_changes (by decide)
      with_reducible exact Changes.refl
    · with_reducible refine Changes.next ?_ vaWrite_changes (by decide)
      with_reducible exact Changes.refl

theorem takeFrame_changes {s : State} {k : Nat} {x : RxFrame} : Changes [.free, .ports] s (takeFrame s k x).2 := by
  unfold takeFrame
  with_reducible refine Changes.next ?_ (modPort_changes ?_) (by decide)
  · with_reducible refine Changes.next ?_ takeFree_changes (by decide)
    with_reducible exact Changes.refl
  · exact fun _ h => h

theorem readLedger_changes {s : State} {k : Nat} {seq : W32} {h : Nat} {j : Nat} {va : Nat} : Changes [.free, .positions, .halls,
    .hubs, .ports, .mem, .memErr, .outputs, .promotes, .series, .meshFault, .resent, .leafs] s (readLedger s k seq h j va).st := by
  unfold readLedger
  (dsimp only; split)
  · with_reducible refine Changes.next ?_ raiseXfail_changes (by decide)
    with_reducible refine Changes.next ?_ vaRead_changes (by decide)
    with_reducible exact Changes.refl
  · split
    · with_reducible refine Changes.next ?_ vaRead_changes (by decide)
      with_reducible exact Changes.refl
    · with_reducible refine Changes.next ?_ vaRead_changes (by decide)
      with_reducible exact Changes.refl

theorem ledgerStale_changes {s : State} {d : Drv} : Changes [.free, .positions, .halls, .hubs, .ports, .mem, .memErr, .outputs,
    .promotes, .series, .meshFault, .resent, .leafs] s (ledgerStale s d).st := by
  unfold ledgerStale
  (dsimp only; split)
  · with_reducible exact Changes.refl
  · ((with_reducible conv => (arg 3; whnf)); split)
    · with_reducible refine Changes.next ?_ readLedger_changes (by decide)
      with_reducible exact Changes.refl
    · split
      · with_reducible refine Changes.next ?_ readLedger_changes (by decide)
        with_reducible exact Changes.refl
      · split
        · with_reducible refine Changes.next ?_ raiseXfail_changes (by decide)
          with_reducible refine Changes.next ?_ vaWrite_changes (by decide)
          with_reducible refine Changes.next ?_ readLedger_changes (by decide)
          with_reducible exact Changes.refl
        · with_reducible refine Changes.next ?_ vaWrite_changes (by decide)
          with_reducible refine Changes.next ?_ readLedger_changes (by decide)
          with_reducible exact Changes.refl

theorem chunkStale_changes {d : Drv} {r : DrvRun} {chunk : Nat} {f : Frame} : Changes [.free, .positions, .halls, .hubs, .ports,
    .jobs, .mem, .memErr, .outputs, .promotes, .series, .meshFault, .resent, .leafs] r.st (chunkStale d r chunk f).st := by
  unfold chunkStale
  split
  · with_reducible exact Changes.refl
  · with_reducible refine Changes.setJob ?_ ?_ (by decide)
    · with_reducible refine Changes.next ?_ raise_changes (by decide)
      with_reducible refine Changes.next ?_ ledgerStale_changes (by decide)
      with_reducible exact Changes.refl
    · exact fun _ l => l.job _

theorem staleHalt_changes {s : State} {d : Drv} {co : Coll} : Changes [.free, .queues, .lcores, .positions, .halls, .hubs, .ports,
    .jobs, .stats, .mem, .memErr, .outputs, .promotes, .series, .meshFault, .resent, .leafs] s (staleHalt s d co) := by
  unfold staleHalt
  with_reducible refine Changes.ite_ (fun _ => ?_) (fun _ => ?_)
  · with_reducible exact Changes.refl
  · with_reducible refine Changes.next ?_ killJob_changes (by decide)
    with_reducible refine Changes.next ?_ raise_changes (by decide)
    with_reducible refine Changes.next ?_ takeFree_changes (by decide)
    with_reducible exact Changes.refl

theorem sendOwn_changes {d : Drv} {r : DrvRun} {c : Nat} : Changes [.free, .positions, .halls, .hubs, .ports, .mem, .memErr,
    .outputs, .promotes, .series, .meshFault, .resent, .leafs] r.st (sendOwn d r c).st := by
  unfold sendOwn
  with_reducible refine Changes.next ?_ sendChunk_changes (by decide)
  with_reducible refine Changes.next ?_ drvRead_changes (by decide)
  with_reducible exact Changes.refl

theorem gatherFrame_changes {d : Drv} {r : DrvRun} {i : Nat} {port : Nat} {x : RxFrame} : Changes [.free, .positions, .halls, .hubs,
    .ports, .jobs, .mem, .memErr, .outputs, .promotes, .series, .meshFault, .resent, .leafs] r.st (gatherFrame d r i port x).st :=
    by
  unfold gatherFrame
  split
  · (dsimp only; split)
    · split
      · with_reducible refine Changes.next ?_ drvWrite_changes (by decide)
        with_reducible refine Changes.next ?_ drvWrite_changes (by decide)
        with_reducible refine Changes.next ?_ takeFrame_changes (by decide)
        with_reducible exact Changes.refl
      · with_reducible refine Changes.next ?_ drvWrite_changes (by decide)
        with_reducible refine Changes.next ?_ drvWrite_changes (by decide)
        with_reducible refine Changes.next ?_ takeFrame_changes (by decide)
        with_reducible exact Changes.refl
    · split
      · with_reducible refine Changes.next ?_ drvWrite_changes (by decide)
        with_reducible refine Changes.next ?_ takeFrame_changes (by decide)
        with_reducible exact Changes.refl
      · with_reducible refine Changes.next ?_ drvWrite_changes (by decide)
        with_reducible refine Changes.next ?_ takeFrame_changes (by decide)
        with_reducible exact Changes.refl
  · split
    · (dsimp only; split)
      · split
        · with_reducible refine Changes.next ?_ drvWrite_changes (by decide)
          with_reducible refine Changes.next ?_ drvWrite_changes (by decide)
          with_reducible refine Changes.next ?_ takeFrame_changes (by decide)
          with_reducible exact Changes.refl
        · split
          · with_reducible refine Changes.next ?_ drvSend_changes (by decide)
            with_reducible refine Changes.next ?_ chunkStale_changes (by decide)
            with_reducible refine Changes.next ?_ drvWrite_changes (by decide)
            with_reducible refine Changes.next ?_ drvWrite_changes (by decide)
            with_reducible refine Changes.next ?_ takeFrame_changes (by decide)
            with_reducible exact Changes.refl
          · with_reducible refine Changes.next ?_ chunkStale_changes (by decide)
            with_reducible refine Changes.next ?_ drvWrite_changes (by decide)
            with_reducible refine Changes.next ?_ drvWrite_changes (by decide)
            with_reducible refine Changes.next ?_ takeFrame_changes (by decide)
            with_reducible exact Changes.refl
      · split
        · with_reducible refine Changes.next ?_ drvWrite_changes (by decide)
          with_reducible refine Changes.next ?_ takeFrame_changes (by decide)
          with_reducible exact Changes.refl
        · split
          · with_reducible refine Changes.next ?_ drvSend_changes (by decide)
            with_reducible refine Changes.next ?_ chunkStale_changes (by decide)
            with_reducible refine Changes.next ?_ drvWrite_changes (by decide)
            with_reducible refine Changes.next ?_ takeFrame_changes (by decide)
            with_reducible exact Changes.refl
          · with_reducible refine Changes.next ?_ chunkStale_changes (by decide)
            with_reducible refine Changes.next ?_ drvWrite_changes (by decide)
            with_reducible refine Changes.next ?_ takeFrame_changes (by decide)
            with_reducible exact Changes.refl
    · (dsimp only; split)
      · split
        · with_reducible refine Changes.next ?_ drvWrite_changes (by decide)
          with_reducible refine Changes.next ?_ drvWrite_changes (by decide)
          with_reducible refine Changes.next ?_ takeFrame_changes (by decide)
          with_reducible exact Changes.refl
        · split
          · with_reducible refine Changes.next ?_ drvSend_changes (by decide)
            with_reducible refine Changes.next ?_ chunkStale_changes (by decide)
            with_reducible refine Changes.next ?_ drvWrite_changes (by decide)
            with_reducible refine Changes.next ?_ drvWrite_changes (by decide)
            with_reducible refine Changes.next ?_ takeFrame_changes (by decide)
            with_reducible exact Changes.refl
          · with_reducible refine Changes.next ?_ chunkStale_changes (by decide)
            with_reducible refine Changes.next ?_ drvWrite_changes (by decide)
            with_reducible refine Changes.next ?_ drvWrite_changes (by decide)
            with_reducible refine Changes.next ?_ takeFrame_changes (by decide)
            with_reducible exact Changes.refl
      · split
        · with_reducible refine Changes.next ?_ drvWrite_changes (by decide)
          with_reducible refine Changes.next ?_ takeFrame_changes (by decide)
          with_reducible exact Changes.refl
        · split
          · with_reducible refine Changes.next ?_ drvSend_changes (by decide)
            with_reducible refine Changes.next ?_ chunkStale_changes (by decide)
            with_reducible refine Changes.next ?_ drvWrite_changes (by decide)
            with_reducible refine Changes.next ?_ takeFrame_changes (by decide)
            with_reducible exact Changes.refl
          · with_reducible refine Changes.next ?_ chunkStale_changes (by decide)
            with_reducible refine Changes.next ?_ drvWrite_changes (by decide)
            with_reducible refine Changes.next ?_ takeFrame_changes (by decide)
            with_reducible exact Changes.refl

theorem gatherNext_changes {d : Drv} {r : DrvRun} : Changes [] r.st (gatherNext d r).st := by
  unfold gatherNext
  split
  · with_reducible exact Changes.refl
  · with_reducible exact Changes.refl

theorem gatherLoop_changes {d : Drv} {n : Nat} {r : DrvRun} : Changes [.free, .positions, .halls, .hubs, .ports, .jobs, .mem,
    .memErr, .outputs, .promotes, .series, .meshFault, .resent, .leafs] r.st (gatherLoop d n r).st := by
  induction n generalizing r with
  | zero => unfold gatherLoop; repeat' first | exact Changes.refl | split
  | succ n ih =>
  unfold gatherLoop
  dsimp only
  split
  · with_reducible exact Changes.refl
  · split
    · with_reducible exact Changes.refl
    · ((with_reducible conv => (arg 3; whnf)); split)
      · with_reducible exact Changes.refl
      · with_reducible exact Changes.refl
      · with_reducible refine Changes.next ?_ (ih) (by decide)
        with_reducible refine Changes.next ?_ gatherNext_changes (by decide)
        with_reducible refine Changes.next ?_ gatherFrame_changes (by decide)
        with_reducible exact Changes.refl

theorem redFree_changes {d : Drv} {s : State} {p : Partial} : Changes [.free] s (redFree d s p).2 := by
  unfold redFree
  split
  · with_reducible refine Changes.next ?_ with_free_changes (by decide)
    with_reducible exact Changes.refl
  · with_reducible exact Changes.refl

theorem contribField_changes {s : State} {n : Nat} : Changes [.free] s (contribField s n).2 := by
  unfold contribField
  split
  · with_reducible exact Changes.refl
  · with_reducible refine Changes.next ?_ with_free_changes (by decide)
    with_reducible refine Changes.next ?_ takeFree_changes (by decide)
    with_reducible exact Changes.refl

theorem sendPartial_changes {d : Drv} {r : DrvRun} {step : Nat} {chunk : Nat} {p : Partial} : Changes [.free, .positions, .halls,
    .ports] r.st (sendPartial d r step chunk p).st := by
  unfold sendPartial
  with_reducible refine Changes.next ?_ sendChunk_changes (by decide)
  with_reducible refine Changes.next ?_ contribField_changes (by decide)
  with_reducible refine Changes.next ?_ redFree_changes (by decide)
  with_reducible exact Changes.refl

theorem looseFull_changes {d : Drv} {s : State} {p : Partial} : Changes [.halls] s (looseFull d s p) := by
  unfold looseFull
  with_reducible refine Changes.ite_ (fun _ => ?_) (fun _ => ?_)
  · with_reducible exact Changes.refl
  · with_reducible refine Changes.next ?_ pushEvent_changes (by decide)
    with_reducible exact Changes.refl

theorem redStart_changes {d : Drv} {r : DrvRun} : Changes [.free, .positions, .halls, .hubs, .ports, .mem, .memErr, .outputs,
    .promotes, .series, .meshFault, .resent, .leafs] r.st (redStart d r).st := by
  unfold redStart
  (dsimp only; split)
  · with_reducible refine Changes.next ?_ drvRead_changes (by decide)
    with_reducible refine Changes.next ?_ drvRead_changes (by decide)
    with_reducible exact Changes.refl
  · with_reducible refine Changes.next ?_ sendPartial_changes (by decide)
    with_reducible refine Changes.next ?_ looseFull_changes (by decide)
    with_reducible refine Changes.next ?_ drvRead_changes (by decide)
    with_reducible refine Changes.next ?_ drvRead_changes (by decide)
    with_reducible exact Changes.refl

theorem redNext_changes {d : Drv} {r : DrvRun} : Changes [.free, .positions, .halls, .hubs, .ports, .mem, .memErr, .outputs,
    .promotes, .series, .meshFault, .resent, .leafs] r.st (redNext d r).st := by
  unfold redNext
  split
  · with_reducible exact Changes.refl
  · (dsimp only; split)
    · with_reducible refine Changes.next ?_ drvRead_changes (by decide)
      with_reducible exact Changes.refl
    · split
      · split
        · split
          · with_reducible refine Changes.next ?_ drvWrite_changes (by decide)
            with_reducible refine Changes.next ?_ redFree_changes (by decide)
            with_reducible refine Changes.next ?_ looseFull_changes (by decide)
            with_reducible refine Changes.next ?_ pushEvent_changes (by decide)
            with_reducible refine Changes.next ?_ drvRead_changes (by decide)
            with_reducible exact Changes.refl
          · with_reducible refine Changes.next ?_ drvWrite_changes (by decide)
            with_reducible refine Changes.next ?_ redFree_changes (by decide)
            with_reducible refine Changes.next ?_ looseFull_changes (by decide)
            with_reducible refine Changes.next ?_ pushEvent_changes (by decide)
            with_reducible refine Changes.next ?_ drvRead_changes (by decide)
            with_reducible exact Changes.refl
        · split
          · with_reducible refine Changes.next ?_ drvWrite_changes (by decide)
            with_reducible refine Changes.next ?_ redFree_changes (by decide)
            with_reducible refine Changes.next ?_ looseFull_changes (by decide)
            with_reducible refine Changes.next ?_ drvRead_changes (by decide)
            with_reducible exact Changes.refl
          · with_reducible refine Changes.next ?_ drvWrite_changes (by decide)
            with_reducible refine Changes.next ?_ redFree_changes (by decide)
            with_reducible refine Changes.next ?_ looseFull_changes (by decide)
            with_reducible refine Changes.next ?_ drvRead_changes (by decide)
            with_reducible exact Changes.refl
      · with_reducible refine Changes.next ?_ sendPartial_changes (by decide)
        with_reducible refine Changes.next ?_ looseFull_changes (by decide)
        with_reducible refine Changes.ite_ (fun _ => ?_) (fun _ => ?_)
        · with_reducible refine Changes.next ?_ pushEvent_changes (by decide)
          with_reducible refine Changes.next ?_ drvRead_changes (by decide)
          with_reducible exact Changes.refl
        · with_reducible refine Changes.next ?_ drvRead_changes (by decide)
          with_reducible exact Changes.refl

theorem redFrame_changes {d : Drv} {r : DrvRun} {i : Nat} {port : Nat} {x : RxFrame} : Changes [.free, .ports] r.st (redFrame d r i
    port x).st := by
  unfold redFrame
  split
  · with_reducible refine Changes.next ?_ takeFrame_changes (by decide)
    with_reducible exact Changes.refl
  · with_reducible refine Changes.next ?_ takeFrame_changes (by decide)
    with_reducible exact Changes.refl

theorem redLoop_changes {d : Drv} {n : Nat} {r : DrvRun} : Changes [.free, .positions, .halls, .hubs, .ports, .mem, .memErr,
    .outputs, .promotes, .series, .meshFault, .resent, .leafs] r.st (redLoop d n r).st := by
  induction n generalizing r with
  | zero => unfold redLoop; repeat' first | exact Changes.refl | split
  | succ n ih =>
  unfold redLoop
  dsimp only
  split
  · with_reducible exact Changes.refl
  · ((with_reducible conv => (arg 3; whnf)); split)
    · with_reducible exact Changes.refl
    · with_reducible exact Changes.refl
    · with_reducible refine Changes.next ?_ (ih) (by decide)
      with_reducible refine Changes.next ?_ redNext_changes (by decide)
      with_reducible refine Changes.next ?_ redFrame_changes (by decide)
      with_reducible exact Changes.refl

theorem sendToken_changes {d : Drv} {r : DrvRun} {round : Nat} {count : Nat} : Changes [.ports] r.st (sendToken d r round count).st
    := by
  unfold sendToken
  with_reducible refine Changes.next ?_ drvSend_changes (by decide)
  with_reducible exact Changes.refl

theorem barrierFrame_changes {d : Drv} {r : DrvRun} {port : Nat} {x : RxFrame} : Changes [.free, .ports] r.st (barrierFrame d r port
    x).st := by
  unfold barrierFrame
  split
  · with_reducible refine Changes.next ?_ takeFrame_changes (by decide)
    with_reducible exact Changes.refl
  · (dsimp only; split)
    · split
      · split
        · with_reducible refine Changes.next ?_ sendToken_changes (by decide)
          with_reducible refine Changes.next ?_ takeFrame_changes (by decide)
          with_reducible exact Changes.refl
        · with_reducible refine Changes.next ?_ takeFrame_changes (by decide)
          with_reducible exact Changes.refl
      · with_reducible refine Changes.next ?_ sendToken_changes (by decide)
        with_reducible refine Changes.next ?_ takeFrame_changes (by decide)
        with_reducible exact Changes.refl
    · split
      · split
        · with_reducible refine Changes.next ?_ takeFrame_changes (by decide)
          with_reducible exact Changes.refl
        · with_reducible refine Changes.next ?_ takeFrame_changes (by decide)
          with_reducible exact Changes.refl
      · split
        · with_reducible refine Changes.next ?_ sendToken_changes (by decide)
          with_reducible refine Changes.next ?_ takeFrame_changes (by decide)
          with_reducible exact Changes.refl
        · with_reducible refine Changes.next ?_ sendToken_changes (by decide)
          with_reducible refine Changes.next ?_ takeFrame_changes (by decide)
          with_reducible exact Changes.refl

theorem barrierLoop_changes {d : Drv} {n : Nat} {r : DrvRun} : Changes [.free, .ports] r.st (barrierLoop d n r).st := by
  induction n generalizing r with
  | zero => unfold barrierLoop; repeat' first | exact Changes.refl | split
  | succ n ih =>
  unfold barrierLoop
  dsimp only
  split
  · with_reducible exact Changes.refl
  · ((with_reducible conv => (arg 3; whnf)); split)
    · with_reducible exact Changes.refl
    · with_reducible exact Changes.refl
    · with_reducible refine Changes.next ?_ (ih) (by decide)
      with_reducible refine Changes.next ?_ barrierFrame_changes (by decide)
      with_reducible exact Changes.refl

theorem drvFault_changes {s : State} {d : Drv} {c : InFlight} {cause : Nat} {ch : Nat} {peer : BitVec 12} : Changes [.free, .queues,
    .signals, .lcores, .positions, .halls, .hubs, .ports, .jobs, .stats, .mem, .memErr, .outputs, .promotes, .series, .meshFault,
    .resent, .leafs] s (drvFault s d c cause ch peer) := by
  unfold drvFault
  with_reducible refine Changes.next ?_ completeFault_changes (by decide)
  with_reducible refine Changes.next ?_ raise_changes (by decide)
  with_reducible exact Changes.refl

theorem drvBegin_changes {d : Drv} {r : DrvRun} : Changes [.free, .positions, .halls, .hubs, .ports, .mem, .memErr, .outputs,
    .promotes, .series, .meshFault, .resent, .leafs] r.st (drvBegin d r).st := by
  unfold drvBegin
  ((with_reducible conv => (arg 3; whnf)); split)
  · with_reducible refine Changes.next ?_ (modHall_changes ?_) (by decide)
    · with_reducible exact Changes.refl
    · exact fun _ h => h
  · split
    · with_reducible exact Changes.refl
    · split
      · with_reducible refine Changes.next ?_ sendOwn_changes (by decide)
        with_reducible exact Changes.refl
      · split
        · with_reducible refine Changes.next ?_ redStart_changes (by decide)
          with_reducible exact Changes.refl
        · split
          · split
            · with_reducible refine Changes.next ?_ sendOwn_changes (by decide)
              with_reducible exact Changes.refl
            · with_reducible exact Changes.refl
          · split
            · with_reducible refine Changes.next ?_ sendToken_changes (by decide)
              with_reducible exact Changes.refl
            · with_reducible exact Changes.refl

theorem drvFinish_changes {d : Drv} {c : InFlight} {r : DrvRun} : Changes [.free, .queues, .signals, .lcores, .positions, .halls,
    .hubs, .ports, .jobs, .slots, .stats, .mem, .memErr, .outputs, .promotes, .series, .meshFault, .resent, .leafs] r.st (drvFinish
    d c r) := by
  unfold drvFinish
  ((with_reducible conv => (arg 3; whnf)); split)
  · with_reducible refine Changes.next ?_ (modQueue_changes ?_) (by decide)
    · with_reducible exact Changes.refl
    · exact fun _ h => h
  · with_reducible refine Changes.ite_ (fun _ => ?_) (fun _ => ?_)
    · with_reducible refine Changes.next ?_ markUnacked_changes (by decide)
      with_reducible refine Changes.next ?_ (modQueue_changes ?_) (by decide)
      · with_reducible exact Changes.refl
      · exact fun _ h => h
    · with_reducible refine Changes.next ?_ staleHalt_changes (by decide)
      with_reducible refine Changes.next ?_ completeDone_changes (by decide)
      with_reducible refine Changes.next ?_ (modQueue_changes ?_) (by decide)
      · with_reducible exact Changes.refl
      · exact fun _ h => h
  · with_reducible refine Changes.next ?_ staleHalt_changes (by decide)
    with_reducible refine Changes.next ?_ drvFault_changes (by decide)
    with_reducible refine Changes.next ?_ (modQueue_changes ?_) (by decide)
    · with_reducible exact Changes.refl
    · exact fun _ h => h
  · with_reducible refine Changes.next ?_ staleHalt_changes (by decide)
    with_reducible refine Changes.next ?_ completeFault_changes (by decide)
    with_reducible refine Changes.next ?_ (modQueue_changes ?_) (by decide)
    · with_reducible exact Changes.refl
    · exact fun _ h => h
  · with_reducible refine Changes.next ?_ staleHalt_changes (by decide)
    with_reducible refine Changes.next ?_ endXfail_changes (by decide)
    with_reducible refine Changes.next ?_ (modQueue_changes ?_) (by decide)
    · with_reducible exact Changes.refl
    · exact fun _ h => h

theorem runDrover_changes {op : Nat} {h : Hall} {j : Job} {s : State} : Changes [.free, .queues, .signals, .lcores, .positions,
    .halls, .hubs, .ports, .jobs, .slots, .stats, .mem, .memErr, .outputs, .promotes, .series, .meshFault, .resent, .leafs] s
    (runDrover op h j s) := by
  unfold runDrover
  split
  · with_reducible exact Changes.refl
  · with_reducible refine Changes.next ?_ drvFinish_changes (by decide)
    split
    · with_reducible refine Changes.next ?_ redLoop_changes (by decide)
      ((with_reducible conv => (arg 3; whnf)); split)
      · with_reducible refine Changes.next ?_ drvBegin_changes (by decide)
        with_reducible exact Changes.refl
      · with_reducible exact Changes.refl
    · split
      · with_reducible refine Changes.next ?_ barrierLoop_changes (by decide)
        ((with_reducible conv => (arg 3; whnf)); split)
        · with_reducible refine Changes.next ?_ drvBegin_changes (by decide)
          with_reducible exact Changes.refl
        · with_reducible exact Changes.refl
      · with_reducible refine Changes.next ?_ gatherLoop_changes (by decide)
        ((with_reducible conv => (arg 3; whnf)); split)
        · with_reducible refine Changes.next ?_ drvBegin_changes (by decide)
          with_reducible exact Changes.refl
        · with_reducible exact Changes.refl

theorem runDrvTimeout_changes {h : Hall} {j : Job} {s : State} : Changes [.free, .queues, .signals, .lcores, .positions, .halls,
    .hubs, .ports, .jobs, .stats, .mem, .memErr, .outputs, .promotes, .series, .meshFault, .resent, .leafs] s (runDrvTimeout h j s)
    := by
  unfold runDrvTimeout
  with_reducible refine Changes.ite_ (fun _ => ?_) (fun _ => ?_)
  · with_reducible exact Changes.refl
  · split
    · with_reducible exact Changes.refl
    · with_reducible refine Changes.ite_ (fun _ => ?_) (fun _ => ?_)
      · with_reducible exact Changes.refl
      · with_reducible refine Changes.next ?_ staleHalt_changes (by decide)
        with_reducible refine Changes.next ?_ drvFault_changes (by decide)
        with_reducible exact Changes.refl

theorem endDrovers_changes {s : State} {h : Nat} {cause : Nat} {port : Nat} {peer : BitVec 12} {hit : Drv → Bool} : Changes [.free,
    .queues, .signals, .lcores, .positions, .halls, .hubs, .ports, .jobs, .stats, .mem, .memErr, .outputs, .promotes, .series,
    .meshFault, .resent, .leafs] s (endDrovers s h cause port peer hit) := by
  unfold endDrovers
  with_reducible refine Changes.foldl ?_ (fun _ _ => ?_)
  · with_reducible exact Changes.refl
  · split
    · with_reducible exact Changes.refl
    · with_reducible refine Changes.ite_ (fun _ => ?_) (fun _ => ?_)
      · with_reducible refine Changes.next ?_ staleHalt_changes (by decide)
        with_reducible refine Changes.next ?_ drvFault_changes (by decide)
        with_reducible exact Changes.refl
      · with_reducible exact Changes.refl

theorem endOnPort_changes {s : State} {port : Nat} {peer : BitVec 12} : Changes [.free, .queues, .signals, .lcores, .positions,
    .halls, .hubs, .ports, .jobs, .stats, .mem, .memErr, .outputs, .promotes, .series, .meshFault, .resent, .leafs] s (endOnPort s
    port peer) := by
  unfold endOnPort
  with_reducible refine Changes.next ?_ endDrovers_changes (by decide)
  with_reducible exact Changes.refl

theorem receiveAbort_changes {s : State} {port : Nat} {coll : W32} {tag : W32} : Changes [.free, .queues, .signals, .lcores,
    .positions, .halls, .hubs, .ports, .jobs, .stats, .mem, .memErr, .outputs, .promotes, .series, .meshFault, .resent, .leafs] s
    (receiveAbort s port coll tag) := by
  unfold receiveAbort
  with_reducible refine Changes.ite_ (fun _ => ?_) (fun _ => ?_)
  · with_reducible refine Changes.next ?_ endDrovers_changes (by decide)
    with_reducible refine Changes.next ?_ dropColl_changes (by decide)
    with_reducible exact Changes.refl
  · with_reducible refine Changes.next ?_ (modHall_changes ?_) (by decide)
    · with_reducible refine Changes.next ?_ dropColl_changes (by decide)
      with_reducible exact Changes.refl
    · exact fun _ h => h

end Sys2Proof.Machine
end

