-- ==== Sys2Proof/Laws/ChangeSealer.lean ====
section
/-! SUPPORT. What the operations of Machine/Sealer may change. -/

namespace Sys2Proof.Machine

theorem readSlot_changes {s : State} {j : Nat} {i : Nat} : Changes [.halls, .slots] s (readSlot s j i) := by
  unfold readSlot
  with_reducible refine Changes.next ?_ readSlotIn_changes (by decide)
  with_reducible refine Changes.next ?_ readSlotIn_changes (by decide)
  with_reducible exact Changes.refl

theorem modSlot_changes {s : State} {j : Nat} {i : Nat} {f : Slot → Slot} : Changes [.free, .halls, .slots] s (modSlot s j i f) :=
    by
  unfold modSlot
  with_reducible refine Changes.next ?_ setSlot_changes (by decide)
  with_reducible refine Changes.next ?_ sealFlip_changes (by decide)
  with_reducible refine Changes.next ?_ sealFlip_changes (by decide)
  with_reducible refine Changes.next ?_ readSlot_changes (by decide)
  with_reducible exact Changes.refl

theorem runSeaSlotCfg_changes {j : Job} {i : Fin 255} {v : W32} {s : State} : Changes [.free, .halls, .slots] s (runSeaSlotCfg j i v
    s) := by
  unfold runSeaSlotCfg
  with_reducible refine Changes.ite_ (fun _ => ?_) (fun _ => ?_)
  · with_reducible refine Changes.next ?_ modSlot_changes (by decide)
    with_reducible exact Changes.refl
  · with_reducible exact Changes.refl

theorem runSeaJobCfg_changes {j : Job} {v : W32} {s : State} : Changes [.free, .positions, .halls, .jobs] s (runSeaJobCfg j v s) :=
    by
  unfold runSeaJobCfg
  split
  · exact Changes.refl
  · have hj : ∀ z : JobState, z.log2 = (getJob s j).log2 → z.log2Next = (getJob s j).log2Next → Legal s → JobLegal z := by
      intro z e1 e2 l
      unfold JobLegal
      rw [e1, e2]
      exact l.job _
    dsimp only
    split <;> refine Changes.next Changes.refl (setJob_changes fun l => hj _ ?_ ?_ l) (by decide) <;> dsimp only <;> split <;> rfl


theorem dropStats_changes {s : State} {j : Nat} : Changes [.free, .halls, .stats] s (dropStats s j) := by
  unfold dropStats
  with_reducible refine Changes.next ?_ putStats_changes (by decide)
  with_reducible refine Changes.next ?_ putStats_changes (by decide)
  with_reducible refine Changes.next ?_ with_stats_changes (by decide)
  with_reducible exact Changes.refl

theorem closeEvents_changes {s : State} {h : Nat} {j : Nat} {i : Nat} {close : Nat} {c : Closed} : Changes [.halls] s (closeEvents s
    h j i close c) := by
  unfold closeEvents
  with_reducible refine Changes.ite_ (fun _ => ?_) (fun _ => ?_)
  · with_reducible refine Changes.next ?_ pushEvent_changes (by decide)
    split
    · with_reducible exact Changes.refl
    · with_reducible refine Changes.next ?_ pushEvent_changes (by decide)
      with_reducible exact Changes.refl
  · split
    · with_reducible exact Changes.refl
    · with_reducible refine Changes.next ?_ pushEvent_changes (by decide)
      with_reducible exact Changes.refl

theorem slotMemEvent_changes {s : State} {h : Nat} {j : Nat} {i : Nat} {pa : Nat} : Changes [.halls] s (slotMemEvent s h j i pa) :=
    by
  unfold slotMemEvent
  with_reducible refine Changes.next ?_ raise_changes (by decide)
  with_reducible exact Changes.refl

theorem writeSlotRecord_changes {s : State} {h : Nat} {j : Nat} {i : Nat} {bs : List Byte} : Changes [.free, .positions, .halls,
    .hubs, .ports, .mem, .memErr, .outputs, .promotes, .series, .meshFault, .resent, .leafs] s (writeSlotRecord s h j i bs) := by
  unfold writeSlotRecord
  ((with_reducible conv => (arg 3; whnf)); split)
  · with_reducible refine Changes.next ?_ raise_changes (by decide)
    with_reducible refine Changes.next ?_ vaWrite_changes (by decide)
    with_reducible exact Changes.refl
  · with_reducible refine Changes.ite_ (fun _ => ?_) (fun _ => ?_)
    · with_reducible refine Changes.next ?_ vaWrite_changes (by decide)
      with_reducible exact Changes.refl
    · with_reducible refine Changes.next ?_ slotMemEvent_changes (by decide)
      with_reducible refine Changes.next ?_ vaWrite_changes (by decide)
      with_reducible exact Changes.refl
  · with_reducible refine Changes.next ?_ vaWrite_changes (by decide)
    with_reducible exact Changes.refl

theorem closeOne_changes {h : Nat} {j : Nat} {close : Nat} {s : State} {i : Nat} : Changes [.free, .positions, .halls, .hubs,
    .ports, .slots, .stats, .mem, .memErr, .outputs, .promotes, .series, .meshFault, .resent, .leafs] s (closeOne h j close s i) :=
    by
  unfold closeOne
  with_reducible refine Changes.next ?_ putStats_changes (by decide)
  with_reducible refine Changes.next ?_ putStats_changes (by decide)
  with_reducible refine Changes.next ?_ writeSlotRecord_changes (by decide)
  with_reducible refine Changes.next ?_ closeEvents_changes (by decide)
  with_reducible refine Changes.ite_ (fun _ => ?_) (fun _ => ?_)
  · with_reducible refine Changes.next ?_ modSlot_changes (by decide)
    with_reducible refine Changes.next ?_ readSlot_changes (by decide)
    with_reducible refine Changes.next ?_ readStats_changes (by decide)
    with_reducible refine Changes.next ?_ readStats_changes (by decide)
    with_reducible exact Changes.refl
  · with_reducible refine Changes.next ?_ readSlot_changes (by decide)
    with_reducible refine Changes.next ?_ readStats_changes (by decide)
    with_reducible refine Changes.next ?_ readStats_changes (by decide)
    with_reducible exact Changes.refl

theorem closeJob_changes {s : State} {j : Nat} : Changes [.free, .queues, .sems, .signals, .lcores, .positions, .halls, .hubs,
    .ports, .jobs, .slots, .stats, .mem, .memErr, .outputs, .promotes, .series, .meshFault, .resent, .leafs] s (closeJob s j) := by
  unfold closeJob
  with_reducible refine Changes.next ?_ sendHere_changes (by decide)
  with_reducible refine Changes.next ?_ (modJob_changes ?_) (by decide)
  · with_reducible refine Changes.foldl ?_ (fun _ _ => ?_)
    · with_reducible exact Changes.refl
    · with_reducible refine Changes.next ?_ closeOne_changes (by decide)
      with_reducible exact Changes.refl
  · exact fun _ h => h

theorem closeJobs_changes {j : Nat} {n : Nat} {s : State} : Changes [.free, .queues, .sems, .signals, .lcores, .positions, .halls,
    .hubs, .ports, .jobs, .slots, .stats, .mem, .memErr, .outputs, .promotes, .series, .meshFault, .resent, .leafs] s (closeJobs j n
    s) := by
  induction n generalizing s with
  | zero => exact Changes.refl
  | succ n ih =>
    unfold closeJobs
    exact Changes.next closeJob_changes ih (by decide)


theorem runSealerClose_changes {j : Job} {s : State} : Changes [.free, .queues, .sems, .signals, .lcores, .positions, .halls, .hubs,
    .ports, .jobs, .slots, .stats, .mem, .memErr, .outputs, .promotes, .series, .meshFault, .resent, .leafs] s (runSealerClose j s)
    := by
  unfold runSealerClose
  with_reducible refine Changes.ite_ (fun _ => ?_) (fun _ => ?_)
  · with_reducible refine Changes.next ?_ closeJobs_changes (by decide)
    with_reducible exact Changes.refl
  · with_reducible exact Changes.refl

end Sys2Proof.Machine
end

