-- ==== Sys2Proof/Laws/ChangeCooper.lean ====
section
/-! SUPPORT. What the operations of Machine/Cooper may change. -/

namespace Sys2Proof.Machine

theorem applyInterval_legal {jb : JobState} {step : W32} (h : JobLegal jb) : JobLegal (applyInterval jb step) := by
  unfold applyInterval
  split
  · exact h
  · next n e =>
    split
    · exact ⟨by simpa [e] using h.2, by simp⟩
    · exact h

theorem costAt_legal {jb : JobState} {t : W64} (h : JobLegal jb) : JobLegal (costAt jb t) := by
  unfold costAt
  split
  · exact h
  · split <;> exact h

theorem copSend_changes {r : CopRun} {j : Nat} {i : Nat} {f : Frame} : Changes [.ports] r.st (copSend r j i f).st := by
  unfold copSend
  split
  · with_reducible exact Changes.refl
  · ((with_reducible conv => (arg 3; whnf)); split)
    · with_reducible exact Changes.refl
    · split
      · with_reducible refine Changes.next ?_ enqueueFrame_changes (by decide)
        with_reducible exact Changes.refl
      · with_reducible exact Changes.refl

theorem copCrc_changes {s : State} {h : Nat} {j : Nat} {hop : Nat} {va : Nat} : Changes [.halls] s (copCrc s h j hop va) := by
  unfold copCrc
  with_reducible refine Changes.next ?_ raiseCrc_changes (by decide)
  with_reducible exact Changes.refl

theorem copRead_changes {r : CopRun} {j : Nat} {h : Nat} {va : Nat} {n : Nat} : Changes [.free, .positions, .halls, .hubs, .ports,
    .mem, .memErr, .outputs, .promotes, .series, .meshFault, .resent, .leafs] r.st (copRead r j h va n).1.st := by
  unfold copRead
  split
  · with_reducible exact Changes.refl
  · (dsimp only; split)
    · with_reducible refine Changes.next ?_ vaRead_changes (by decide)
      with_reducible exact Changes.refl
    · ((with_reducible conv => (arg 3; whnf)); split)
      · with_reducible refine Changes.next ?_ copCrc_changes (by decide)
        with_reducible refine Changes.next ?_ vaRead_changes (by decide)
        with_reducible exact Changes.refl
      · with_reducible refine Changes.next ?_ vaRead_changes (by decide)
        with_reducible exact Changes.refl

theorem copWrite_changes {r : CopRun} {j : Nat} {h : Nat} {va : Nat} {bs : List (Byte × Bool)} : Changes [.free, .positions, .halls,
    .hubs, .ports, .mem, .memErr, .outputs, .promotes, .series, .meshFault, .resent, .leafs] r.st (copWrite r j h va bs).st := by
  unfold copWrite
  split
  · with_reducible exact Changes.refl
  · (dsimp only; split)
    · with_reducible refine Changes.next ?_ vaWrite_changes (by decide)
      with_reducible exact Changes.refl
    · with_reducible refine Changes.next ?_ copCrc_changes (by decide)
      with_reducible refine Changes.next ?_ vaWrite_changes (by decide)
      with_reducible exact Changes.refl
    · with_reducible refine Changes.next ?_ vaWrite_changes (by decide)
      with_reducible exact Changes.refl

theorem copSegment_changes {j : Nat} {src : Nat} {dst : Nat} {send : Option (Nat × W32)} {r : CopRun} {x : Nat × Nat × Nat} :
    Changes [.free, .positions, .halls, .hubs, .ports, .mem, .memErr, .outputs, .promotes, .series, .meshFault, .resent, .leafs]
    r.st (copSegment j src dst send r x).st := by
  unfold copSegment
  ((with_reducible conv => (arg 3; whnf)); split)
  · with_reducible refine Changes.next ?_ copWrite_changes (by decide)
    with_reducible refine Changes.next ?_ copRead_changes (by decide)
    with_reducible exact Changes.refl
  · with_reducible refine Changes.next ?_ copSend_changes (by decide)
    with_reducible refine Changes.next ?_ copWrite_changes (by decide)
    with_reducible refine Changes.next ?_ copRead_changes (by decide)
    with_reducible exact Changes.refl

theorem copCopy_changes {r : CopRun} {j : Nat} {src : Nat} {dst : Nat} {len : Nat} {send : Option (Nat × W32)} : Changes [.free,
    .positions, .halls, .hubs, .ports, .mem, .memErr, .outputs, .promotes, .series, .meshFault, .resent, .leafs] r.st (copCopy r j
    src dst len send).st := by
  unfold copCopy
  with_reducible refine Changes.foldl_in CopRun.st ?_ (fun _ _ => ?_)
  · with_reducible exact Changes.refl
  · with_reducible refine Changes.next ?_ copSegment_changes (by decide)
    with_reducible exact Changes.refl

theorem copCopyIn_changes {h : Nat} {r : CopRun} {j : Nat} {src : Nat} {dst : Nat} {len : Nat} {send : Option (Nat × W32)} : Changes
    [.free, .positions, .halls, .hubs, .ports, .mem, .memErr, .outputs, .promotes, .series, .meshFault, .resent, .leafs] r.st
    (copCopyIn h r j src dst len send).st := by
  unfold copCopyIn
  with_reducible refine Changes.foldl_in CopRun.st ?_ (fun _ _ => ?_)
  · with_reducible exact Changes.refl
  · with_reducible refine Changes.next ?_ copSegment_changes (by decide)
    with_reducible exact Changes.refl

theorem genState_changes {s : State} {j : Nat} {n : Nat} : Changes [.free, .positions, .halls, .hubs, .ports, .mem, .memErr,
    .outputs, .promotes, .series, .meshFault, .resent, .leafs] s (genState s j n).2 := by
  unfold genState
  (dsimp only; split)
  · with_reducible refine Changes.next ?_ vaRead_changes (by decide)
    with_reducible exact Changes.refl
  · with_reducible refine Changes.next ?_ vaRead_changes (by decide)
    with_reducible exact Changes.refl

theorem olderSlot_changes {s : State} {j : Nat} {a : Nat} : Changes [.free, .positions, .halls, .hubs, .ports, .mem, .memErr,
    .outputs, .promotes, .series, .meshFault, .resent, .leafs] s (olderSlot s j a).2 := by
  unfold olderSlot
  with_reducible refine Changes.next ?_ genState_changes (by decide)
  with_reducible refine Changes.next ?_ genState_changes (by decide)
  with_reducible exact Changes.refl

theorem findGen_changes {s : State} {j : Nat} {a : Nat} {step : W32} : Changes [.free, .positions, .halls, .hubs, .ports, .mem,
    .memErr, .outputs, .promotes, .series, .meshFault, .resent, .leafs] s (findGen s j a step).2 := by
  unfold findGen
  with_reducible refine Changes.next ?_ genState_changes (by decide)
  with_reducible refine Changes.next ?_ genState_changes (by decide)
  with_reducible exact Changes.refl

theorem setGens_changes {s : State} {j : Nat} {f : List Gen → List Gen} : Changes [.jobs] s (setGens s j f) := by
  unfold setGens
  with_reducible refine Changes.next ?_ (modJob_changes ?_) (by decide)
  · with_reducible exact Changes.refl
  · exact fun _ h => h

theorem markPoisoned_changes {r : CopRun} {j : Nat} {n : Nat} : Changes [.free, .positions, .halls, .hubs, .ports, .mem, .memErr,
    .outputs, .promotes, .series, .meshFault, .resent, .leafs] r.st (markPoisoned r j n).st := by
  unfold markPoisoned
  split
  · with_reducible refine Changes.next ?_ copWrite_changes (by decide)
    with_reducible exact Changes.refl
  · with_reducible exact Changes.refl

theorem setStatus_changes {r : CopRun} {j : Nat} {n : Nat} {status : Nat} : Changes [.free, .positions, .halls, .hubs, .ports, .mem,
    .memErr, .outputs, .promotes, .series, .meshFault, .resent, .leafs] r.st (setStatus r j n status).st := by
  unfold setStatus
  with_reducible refine Changes.next ?_ copWrite_changes (by decide)
  with_reducible exact Changes.refl

theorem slotWords_changes {s : State} {j : Nat} : Changes [.halls, .slots] s (slotWords s j).2 := by
  unfold slotWords
  with_reducible refine Changes.foldl_in Prod.snd ?_ (fun _ _ => ?_)
  · with_reducible exact Changes.refl
  · with_reducible refine Changes.next ?_ readSlotIn_changes (by decide)
    with_reducible exact Changes.refl

theorem copDone_changes {s : State} {j : Nat} {n : Nat} : Changes [.free, .queues, .sems, .signals, .lcores, .positions, .halls,
    .hubs, .ports, .jobs, .stats, .mem, .memErr, .outputs, .promotes, .series, .meshFault, .resent, .leafs] s (copDone s j n) := by
  unfold copDone
  with_reducible refine Changes.next ?_ sendHere_changes (by decide)
  with_reducible exact Changes.refl

theorem closeRise_changes {s : State} {j : Nat} : Changes [.free, .queues, .sems, .signals, .lcores, .positions, .halls, .hubs,
    .ports, .jobs, .stats, .mem, .memErr, .outputs, .promotes, .series, .meshFault, .resent, .leafs] s (closeRise s j) := by
  unfold closeRise
  split
  · with_reducible exact Changes.refl
  · with_reducible refine Changes.ite_ (fun _ => ?_) (fun _ => ?_)
    · with_reducible exact Changes.refl
    · with_reducible refine Changes.next ?_ copDone_changes (by decide)
      with_reducible refine Changes.next ?_ (modJob_changes ?_) (by decide)
      · with_reducible exact Changes.refl
      · exact fun _ h => costAt_legal h

theorem genFail_changes {s : State} {j : Nat} {n : Nat} : Changes [.free, .positions, .halls, .hubs, .ports, .jobs, .mem, .memErr,
    .outputs, .promotes, .series, .meshFault, .resent, .leafs] s (genFail s j n) := by
  unfold genFail
  with_reducible refine Changes.ite_ (fun _ => ?_) (fun _ => ?_)
  · with_reducible refine Changes.next ?_ (modJob_changes ?_) (by decide)
    · with_reducible refine Changes.next ?_ copStreamsEnd_changes (by decide)
      with_reducible refine Changes.next ?_ (modJob_changes ?_) (by decide)
      · with_reducible refine Changes.next ?_ badSlot_changes (by decide)
        with_reducible exact Changes.refl
      · exact fun _ h => h
    · exact fun _ h => h
  · with_reducible refine Changes.next ?_ (modJob_changes ?_) (by decide)
    · with_reducible refine Changes.next ?_ badSlot_changes (by decide)
      with_reducible exact Changes.refl
    · exact fun _ h => h

theorem snapFail_changes {s : State} {j : Nat} {n : Nat} {step : W32} {cause : Nat} : Changes [.free, .queues, .sems, .signals,
    .lcores, .positions, .halls, .hubs, .ports, .jobs, .stats, .mem, .memErr, .outputs, .promotes, .series, .meshFault, .resent,
    .leafs] s (snapFail s j n step cause) := by
  unfold snapFail
  with_reducible refine Changes.next ?_ closeRise_changes (by decide)
  with_reducible refine Changes.next ?_ genFail_changes (by decide)
  with_reducible refine Changes.next ?_ raiseBoth_changes (by decide)
  with_reducible exact Changes.refl

theorem copEnd_changes {r : CopRun} {j : Nat} {n : Nat} {step : W32} : Changes [.free, .queues, .sems, .signals, .lcores,
    .positions, .halls, .hubs, .ports, .jobs, .stats, .mem, .memErr, .outputs, .promotes, .series, .meshFault, .resent, .leafs] r.st
    (copEnd r j n step) := by
  unfold copEnd
  split
  · with_reducible refine Changes.next ?_ snapFail_changes (by decide)
    with_reducible exact Changes.refl
  · with_reducible refine Changes.ite_ (fun _ => ?_) (fun _ => ?_)
    · with_reducible exact Changes.refl
    · with_reducible refine Changes.next ?_ (modJob_changes ?_) (by decide)
      · with_reducible exact Changes.refl
      · exact fun _ h => h

theorem completeBuddy_changes {r : CopRun} {j : Nat} {n : Nat} : Changes [.free, .positions, .halls, .hubs, .ports, .jobs, .mem,
    .memErr, .outputs, .promotes, .series, .meshFault, .resent, .leafs] r.st (completeBuddy r j n).st := by
  unfold completeBuddy
  (dsimp only; split)
  · with_reducible exact Changes.refl
  · split
    · with_reducible refine Changes.next ?_ setGens_changes (by decide)
      with_reducible refine Changes.next ?_ setStatus_changes (by decide)
      with_reducible exact Changes.refl
    · with_reducible exact Changes.refl

theorem closeOwn_changes {r : CopRun} {j : Nat} {g : Gen} : Changes [.free, .positions, .halls, .hubs, .ports, .jobs, .mem, .memErr,
    .outputs, .promotes, .series, .meshFault, .resent, .leafs] r.st (closeOwn r j g).st := by
  unfold closeOwn
  (dsimp only; split)
  · split
    · with_reducible refine Changes.next ?_ markPoisoned_changes (by decide)
      with_reducible refine Changes.next ?_ copSend_changes (by decide)
      with_reducible refine Changes.next ?_ copWrite_changes (by decide)
      with_reducible refine Changes.next ?_ copRead_changes (by decide)
      with_reducible refine Changes.next ?_ copRead_changes (by decide)
      with_reducible exact Changes.refl
    · with_reducible refine Changes.next ?_ setGens_changes (by decide)
      with_reducible refine Changes.next ?_ setStatus_changes (by decide)
      with_reducible refine Changes.next ?_ markPoisoned_changes (by decide)
      with_reducible refine Changes.next ?_ copSend_changes (by decide)
      with_reducible refine Changes.next ?_ copWrite_changes (by decide)
      with_reducible refine Changes.next ?_ copRead_changes (by decide)
      with_reducible refine Changes.next ?_ copRead_changes (by decide)
      with_reducible exact Changes.refl
  · split
    · with_reducible refine Changes.next ?_ markPoisoned_changes (by decide)
      with_reducible refine Changes.next ?_ copSend_changes (by decide)
      with_reducible refine Changes.next ?_ copWrite_changes (by decide)
      with_reducible refine Changes.next ?_ copRead_changes (by decide)
      with_reducible exact Changes.refl
    · with_reducible refine Changes.next ?_ setGens_changes (by decide)
      with_reducible refine Changes.next ?_ setStatus_changes (by decide)
      with_reducible refine Changes.next ?_ markPoisoned_changes (by decide)
      with_reducible refine Changes.next ?_ copSend_changes (by decide)
      with_reducible refine Changes.next ?_ copWrite_changes (by decide)
      with_reducible refine Changes.next ?_ copRead_changes (by decide)
      with_reducible exact Changes.refl

theorem closeBuddy_changes {r : CopRun} {j : Nat} {g : Gen} : Changes [.free, .positions, .halls, .hubs, .ports, .jobs, .mem,
    .memErr, .outputs, .promotes, .series, .meshFault, .resent, .leafs] r.st (closeBuddy r j g).st := by
  unfold closeBuddy
  with_reducible refine Changes.next ?_ completeBuddy_changes (by decide)
  with_reducible refine Changes.next ?_ setGens_changes (by decide)
  with_reducible refine Changes.next ?_ markPoisoned_changes (by decide)
  with_reducible refine Changes.next ?_ copCopy_changes (by decide)
  with_reducible exact Changes.refl

theorem closeGens_changes {s : State} {j : Nat} {step : W32} : Changes [.free, .queues, .sems, .signals, .lcores, .positions,
    .halls, .hubs, .ports, .jobs, .stats, .mem, .memErr, .outputs, .promotes, .series, .meshFault, .resent, .leafs] s (closeGens s j
    step) := by
  unfold closeGens
  with_reducible refine Changes.next ?_ closeRise_changes (by decide)
  with_reducible refine Changes.next ?_ (modJob_changes ?_) (by decide)
  · with_reducible refine Changes.foldl ?_ (fun _ _ => ?_)
    · with_reducible exact Changes.refl
    · with_reducible refine Changes.next ?_ copEnd_changes (by decide)
      split
      · with_reducible refine Changes.next ?_ closeOwn_changes (by decide)
        with_reducible exact Changes.refl
      · with_reducible refine Changes.next ?_ closeBuddy_changes (by decide)
        with_reducible exact Changes.refl
  · exact fun _ h => h

theorem copAsk_changes {j : Nat} {s : State} {h : Nat} : Changes [.halls] s (copAsk j s h) := by
  unfold copAsk
  with_reducible refine Changes.next ?_ (modHall_changes ?_) (by decide)
  · with_reducible exact Changes.refl
  · exact fun _ h => h

theorem openGen_changes {s : State} {j : Nat} {step : W32} : Changes [.free, .queues, .sems, .signals, .lcores, .positions, .halls,
    .hubs, .ports, .jobs, .stats, .mem, .memErr, .outputs, .promotes, .series, .meshFault, .resent, .leafs] s (openGen s j step) :=
    by
  unfold openGen
  with_reducible refine Changes.ite_ (fun _ => ?_) (fun _ => ?_)
  · with_reducible refine Changes.next ?_ copEnd_changes (by decide)
    with_reducible refine Changes.next ?_ (modJob_changes ?_) (by decide)
    · with_reducible refine Changes.next ?_ copWrite_changes (by decide)
      with_reducible refine Changes.next ?_ olderSlot_changes (by decide)
      with_reducible exact Changes.refl
    · exact fun _ h => h
  · with_reducible refine Changes.ite_ (fun _ => ?_) (fun _ => ?_)
    · with_reducible refine Changes.next ?_ closeRise_changes (by decide)
      with_reducible refine Changes.next ?_ genFail_changes (by decide)
      with_reducible refine Changes.next ?_ copEnd_changes (by decide)
      with_reducible refine Changes.next ?_ (modJob_changes ?_) (by decide)
      · with_reducible refine Changes.next ?_ copWrite_changes (by decide)
        with_reducible refine Changes.next ?_ olderSlot_changes (by decide)
        with_reducible exact Changes.refl
      · exact fun _ h => h
    · with_reducible refine Changes.foldl ?_ (fun _ _ => ?_)
      · with_reducible refine Changes.next ?_ copEnd_changes (by decide)
        with_reducible refine Changes.next ?_ (modJob_changes ?_) (by decide)
        · with_reducible refine Changes.next ?_ copWrite_changes (by decide)
          with_reducible refine Changes.next ?_ olderSlot_changes (by decide)
          with_reducible exact Changes.refl
        · exact fun _ h => h
      · with_reducible refine Changes.next ?_ copAsk_changes (by decide)
        with_reducible exact Changes.refl

theorem copyHall_changes {r : CopRun} {j : Nat} {h : Nat} {n : Nat} {step : W32} : Changes [.free, .positions, .halls, .hubs,
    .ports, .slots, .mem, .memErr, .outputs, .promotes, .series, .meshFault, .resent, .leafs] r.st (copyHall r j h n step).st := by
  unfold copyHall
  with_reducible refine Changes.next ?_ copCopyIn_changes (by decide)
  with_reducible refine Changes.next ?_ copCopyIn_changes (by decide)
  split
  · with_reducible refine Changes.next ?_ copSend_changes (by decide)
    with_reducible refine Changes.next ?_ copWrite_changes (by decide)
    with_reducible refine Changes.next ?_ slotWords_changes (by decide)
    with_reducible exact Changes.refl
  · with_reducible exact Changes.refl

theorem openCopies_changes {s : State} {h : Nat} {j : Nat} : Changes [.free, .queues, .sems, .signals, .lcores, .positions, .halls,
    .hubs, .ports, .jobs, .slots, .stats, .mem, .memErr, .outputs, .promotes, .series, .meshFault, .resent, .leafs] s (openCopies s
    h j) := by
  unfold openCopies
  split
  · with_reducible exact Changes.refl
  · with_reducible refine Changes.next ?_ copEnd_changes (by decide)
    with_reducible refine Changes.next ?_ markPoisoned_changes (by decide)
    with_reducible refine Changes.next ?_ copyHall_changes (by decide)
    with_reducible exact Changes.refl

theorem runAdmit_changes {h : Hall} {s : State} : Changes [.free, .queues, .sems, .signals, .lcores, .positions, .halls, .hubs,
    .ports, .jobs, .slots, .stats, .miller, .mem, .memErr, .outputs, .promotes, .series, .meshFault, .resent, .leafs] s (runAdmit h
    s) := by
  unfold runAdmit
  ((with_reducible conv => (arg 3; whnf)); split)
  · with_reducible refine Changes.next ?_ runGrantAdmit_changes (by decide)
    with_reducible exact Changes.refl
  · with_reducible refine Changes.ite_ (fun _ => ?_) (fun _ => ?_)
    · with_reducible refine Changes.next ?_ openCopies_changes (by decide)
      with_reducible refine Changes.next ?_ runGrantAdmit_changes (by decide)
      with_reducible exact Changes.refl
    · with_reducible refine Changes.next ?_ runGrantAdmit_changes (by decide)
      with_reducible exact Changes.refl

theorem lossBytes_changes {s : State} {j : Nat} {va : Nat} : Changes [.free, .positions, .halls, .hubs, .ports, .mem, .memErr,
    .outputs, .promotes, .series, .meshFault, .resent, .leafs] s (lossBytes s j va).2 := by
  unfold lossBytes
  with_reducible refine Changes.next ?_ vaRead_changes (by decide)
  with_reducible exact Changes.refl

theorem verifyTrigger_changes {s : State} {j : Nat} {step : W32} : Changes [.free, .queues, .sems, .signals, .lcores, .positions,
    .halls, .hubs, .ports, .jobs, .stats, .mem, .memErr, .outputs, .promotes, .series, .meshFault, .resent, .leafs] s (verifyTrigger
    s j step) := by
  unfold verifyTrigger
  ((with_reducible conv => (arg 3; whnf)); split)
  · with_reducible refine Changes.next ?_ openGen_changes (by decide)
    with_reducible refine Changes.next ?_ copDone_changes (by decide)
    with_reducible refine Changes.next ?_ (modJob_changes ?_) (by decide)
    · with_reducible refine Changes.next ?_ copEnd_changes (by decide)
      with_reducible refine Changes.next ?_ setStatus_changes (by decide)
      with_reducible refine Changes.next ?_ takeFree_changes (by decide)
      with_reducible refine Changes.next ?_ lossBytes_changes (by decide)
      with_reducible refine Changes.next ?_ lossBytes_changes (by decide)
      with_reducible refine Changes.next ?_ findGen_changes (by decide)
      with_reducible exact Changes.refl
    · exact fun _ h => h
  · with_reducible refine Changes.next ?_ copDone_changes (by decide)
    with_reducible refine Changes.next ?_ raiseBoth_changes (by decide)
    with_reducible refine Changes.next ?_ (modJob_changes ?_) (by decide)
    · with_reducible refine Changes.next ?_ copEnd_changes (by decide)
      with_reducible refine Changes.next ?_ setStatus_changes (by decide)
      with_reducible refine Changes.next ?_ takeFree_changes (by decide)
      with_reducible refine Changes.next ?_ lossBytes_changes (by decide)
      with_reducible refine Changes.next ?_ lossBytes_changes (by decide)
      with_reducible refine Changes.next ?_ findGen_changes (by decide)
      with_reducible exact Changes.refl
    · exact fun _ h => h

theorem triggerRegs_changes {s : State} {j : Nat} {step : W32} : Changes [.free, .jobs] s (triggerRegs s j step) := by
  unfold triggerRegs
  exact Changes.next (takeFree_changes.mono (by decide)) (modJob_changes fun _ h => applyInterval_legal h) (by decide)


theorem copTrigger_changes {s : State} {j : Nat} : Changes [.free, .queues, .sems, .signals, .lcores, .positions, .halls, .hubs,
    .ports, .jobs, .stats, .mem, .memErr, .outputs, .promotes, .series, .meshFault, .resent, .leafs] s (copTrigger s j) := by
  unfold copTrigger
  with_reducible refine Changes.ite_ (fun _ => ?_) (fun _ => ?_)
  · with_reducible refine Changes.next ?_ triggerRegs_changes (by decide)
    with_reducible exact Changes.refl
  · with_reducible refine Changes.ite_ (fun _ => ?_) (fun _ => ?_)
    · with_reducible refine Changes.next ?_ copDone_changes (by decide)
      with_reducible refine Changes.next ?_ triggerRegs_changes (by decide)
      with_reducible exact Changes.refl
    · with_reducible refine Changes.ite_ (fun _ => ?_) (fun _ => ?_)
      · with_reducible refine Changes.ite_ (fun _ => ?_) (fun _ => ?_)
        · with_reducible refine Changes.next ?_ verifyTrigger_changes (by decide)
          with_reducible refine Changes.next ?_ triggerRegs_changes (by decide)
          with_reducible exact Changes.refl
        · with_reducible refine Changes.next ?_ copDone_changes (by decide)
          with_reducible refine Changes.next ?_ (modJob_changes ?_) (by decide)
          · with_reducible refine Changes.next ?_ triggerRegs_changes (by decide)
            with_reducible exact Changes.refl
          · exact fun _ h => h
      · with_reducible refine Changes.ite_ (fun _ => ?_) (fun _ => ?_)
        · with_reducible refine Changes.next ?_ openGen_changes (by decide)
          with_reducible refine Changes.next ?_ closeGens_changes (by decide)
          with_reducible refine Changes.next ?_ triggerRegs_changes (by decide)
          with_reducible exact Changes.refl
        · with_reducible refine Changes.next ?_ copDone_changes (by decide)
          with_reducible refine Changes.next ?_ closeGens_changes (by decide)
          with_reducible refine Changes.next ?_ triggerRegs_changes (by decide)
          with_reducible exact Changes.refl

theorem runCooperTrigger_changes {j : Job} {s : State} : Changes [.free, .queues, .sems, .signals, .lcores, .positions, .halls,
    .hubs, .ports, .jobs, .stats, .mem, .memErr, .outputs, .promotes, .series, .meshFault, .resent, .leafs] s (runCooperTrigger j s)
    := by
  unfold runCooperTrigger
  with_reducible refine Changes.ite_ (fun _ => ?_) (fun _ => ?_)
  · with_reducible refine Changes.next ?_ copTrigger_changes (by decide)
    with_reducible exact Changes.refl
  · with_reducible exact Changes.refl

theorem runCooperCopyDone_changes {j : Job} {s : State} : Changes [.free, .queues, .sems, .signals, .lcores, .positions, .halls,
    .hubs, .ports, .jobs, .stats, .mem, .memErr, .outputs, .promotes, .series, .meshFault, .resent, .leafs] s (runCooperCopyDone j
    s) := by
  unfold runCooperCopyDone
  with_reducible refine Changes.ite_ (fun _ => ?_) (fun _ => ?_)
  · with_reducible exact Changes.refl
  · split
    · with_reducible exact Changes.refl
    · with_reducible refine Changes.ite_ (fun _ => ?_) (fun _ => ?_)
      · with_reducible refine Changes.next ?_ copDone_changes (by decide)
        with_reducible refine Changes.next ?_ (modJob_changes ?_) (by decide)
        · with_reducible refine Changes.next ?_ copStreamsEnd_changes (by decide)
          with_reducible exact Changes.refl
        · exact fun _ h => costAt_legal h
      · with_reducible exact Changes.refl

theorem runCopCfg_changes {j : Job} {v : W32} {s : State} : Changes [.free, .positions, .halls, .jobs] s (runCopCfg j v s) := by
  unfold runCopCfg
  split
  · exact Changes.refl
  · have hj : ∀ z : JobState, z.log2 = (getJob s j).log2 → z.log2Next = (getJob s j).log2Next → Legal s → JobLegal z := by
      intro z e1 e2 l
      unfold JobLegal
      rw [e1, e2]
      exact l.job _
    dsimp only
    split <;> refine Changes.next Changes.refl (setJob_changes fun l => hj _ ?_ ?_ l) (by decide) <;> dsimp only <;> split <;> rfl


theorem runCopInterval_changes {j : Job} {v : W32} {s : State} : Changes [.jobs] s (runCopInterval j v s) := by
  unfold runCopInterval
  dsimp only
  split
  · next e =>
    simp only [Bool.and_eq_true, decide_eq_true_eq] at e
    exact Changes.next Changes.refl (modJob_changes fun _ h => ⟨h.1, by simpa using e.2⟩) (by decide)
  · exact Changes.refl


theorem setResult_changes {s : State} {j : Nat} {v : Nat} : Changes [.jobs] s (setResult s j v) := by
  unfold setResult
  with_reducible refine Changes.next ?_ (modJob_changes ?_) (by decide)
  · with_reducible exact Changes.refl
  · exact fun _ h => h

theorem restoreSlots_changes {s : State} {j : Nat} {bs : List Byte} : Changes [.free, .halls, .slots] s (restoreSlots s j bs) := by
  unfold restoreSlots
  with_reducible refine Changes.foldl ?_ (fun _ _ => ?_)
  · with_reducible exact Changes.refl
  · with_reducible refine Changes.next ?_ modSlot_changes (by decide)
    with_reducible exact Changes.refl

theorem restoreFrom_changes {s : State} {j : Nat} {n : Nat} : Changes [.free, .positions, .halls, .hubs, .ports, .jobs, .slots,
    .mem, .memErr, .outputs, .promotes, .series, .meshFault, .resent, .leafs] s (restoreFrom s j n) := by
  unfold restoreFrom
  ((with_reducible conv => (arg 3; whnf)); split)
  · with_reducible refine Changes.next ?_ raiseBoth_changes (by decide)
    split
    · with_reducible refine Changes.next ?_ copWrite_changes (by decide)
      with_reducible refine Changes.next ?_ copRead_changes (by decide)
      split
      · with_reducible refine Changes.next ?_ copRead_changes (by decide)
        with_reducible refine Changes.next ?_ copCopy_changes (by decide)
        with_reducible refine Changes.next ?_ copCopy_changes (by decide)
        with_reducible exact Changes.refl
      · with_reducible refine Changes.next ?_ restoreSlots_changes (by decide)
        with_reducible refine Changes.next ?_ copRead_changes (by decide)
        with_reducible refine Changes.next ?_ copCopy_changes (by decide)
        with_reducible refine Changes.next ?_ copCopy_changes (by decide)
        with_reducible exact Changes.refl
    · with_reducible refine Changes.next ?_ copRead_changes (by decide)
      split
      · with_reducible refine Changes.next ?_ copRead_changes (by decide)
        with_reducible refine Changes.next ?_ copCopy_changes (by decide)
        with_reducible refine Changes.next ?_ copCopy_changes (by decide)
        with_reducible exact Changes.refl
      · with_reducible refine Changes.next ?_ restoreSlots_changes (by decide)
        with_reducible refine Changes.next ?_ copRead_changes (by decide)
        with_reducible refine Changes.next ?_ copCopy_changes (by decide)
        with_reducible refine Changes.next ?_ copCopy_changes (by decide)
        with_reducible exact Changes.refl
  · with_reducible refine Changes.ite_ (fun _ => ?_) (fun _ => ?_)
    · with_reducible refine Changes.next ?_ (modJob_changes ?_) (by decide)
      · split
        · with_reducible refine Changes.next ?_ copWrite_changes (by decide)
          with_reducible refine Changes.next ?_ copRead_changes (by decide)
          split
          · with_reducible refine Changes.next ?_ copRead_changes (by decide)
            with_reducible refine Changes.next ?_ copCopy_changes (by decide)
            with_reducible refine Changes.next ?_ copCopy_changes (by decide)
            with_reducible exact Changes.refl
          · with_reducible refine Changes.next ?_ restoreSlots_changes (by decide)
            with_reducible refine Changes.next ?_ copRead_changes (by decide)
            with_reducible refine Changes.next ?_ copCopy_changes (by decide)
            with_reducible refine Changes.next ?_ copCopy_changes (by decide)
            with_reducible exact Changes.refl
        · with_reducible refine Changes.next ?_ copRead_changes (by decide)
          split
          · with_reducible refine Changes.next ?_ copRead_changes (by decide)
            with_reducible refine Changes.next ?_ copCopy_changes (by decide)
            with_reducible refine Changes.next ?_ copCopy_changes (by decide)
            with_reducible exact Changes.refl
          · with_reducible refine Changes.next ?_ restoreSlots_changes (by decide)
            with_reducible refine Changes.next ?_ copRead_changes (by decide)
            with_reducible refine Changes.next ?_ copCopy_changes (by decide)
            with_reducible refine Changes.next ?_ copCopy_changes (by decide)
            with_reducible exact Changes.refl
      · exact fun _ h => h
    · with_reducible refine Changes.next ?_ (modJob_changes ?_) (by decide)
      · split
        · with_reducible refine Changes.next ?_ copWrite_changes (by decide)
          with_reducible refine Changes.next ?_ copRead_changes (by decide)
          split
          · with_reducible refine Changes.next ?_ copRead_changes (by decide)
            with_reducible refine Changes.next ?_ copCopy_changes (by decide)
            with_reducible refine Changes.next ?_ copCopy_changes (by decide)
            with_reducible exact Changes.refl
          · with_reducible refine Changes.next ?_ restoreSlots_changes (by decide)
            with_reducible refine Changes.next ?_ copRead_changes (by decide)
            with_reducible refine Changes.next ?_ copCopy_changes (by decide)
            with_reducible refine Changes.next ?_ copCopy_changes (by decide)
            with_reducible exact Changes.refl
        · with_reducible refine Changes.next ?_ copRead_changes (by decide)
          split
          · with_reducible refine Changes.next ?_ copRead_changes (by decide)
            with_reducible refine Changes.next ?_ copCopy_changes (by decide)
            with_reducible refine Changes.next ?_ copCopy_changes (by decide)
            with_reducible exact Changes.refl
          · with_reducible refine Changes.next ?_ restoreSlots_changes (by decide)
            with_reducible refine Changes.next ?_ copRead_changes (by decide)
            with_reducible refine Changes.next ?_ copCopy_changes (by decide)
            with_reducible refine Changes.next ?_ copCopy_changes (by decide)
            with_reducible exact Changes.refl
      · exact fun _ h => h

theorem runCopRestore_changes {j : Job} {s : State} : Changes [.free, .positions, .halls, .hubs, .ports, .jobs, .slots, .mem,
    .memErr, .outputs, .promotes, .series, .meshFault, .resent, .leafs] s (runCopRestore j s) := by
  unfold runCopRestore
  with_reducible refine Changes.ite_ (fun _ => ?_) (fun _ => ?_)
  · with_reducible exact Changes.refl
  · with_reducible refine Changes.ite_ (fun _ => ?_) (fun _ => ?_)
    · with_reducible refine Changes.next ?_ setResult_changes (by decide)
      with_reducible exact Changes.refl
    · ((with_reducible conv => (arg 3; whnf)); split)
      · with_reducible refine Changes.next ?_ setResult_changes (by decide)
        with_reducible refine Changes.next ?_ findGen_changes (by decide)
        with_reducible exact Changes.refl
      · with_reducible refine Changes.next ?_ restoreFrom_changes (by decide)
        with_reducible refine Changes.next ?_ findGen_changes (by decide)
        with_reducible exact Changes.refl

theorem runCopFetch_changes {j : Job} {s : State} : Changes [.ports, .jobs] s (runCopFetch j s) := by
  unfold runCopFetch
  with_reducible refine Changes.ite_ (fun _ => ?_) (fun _ => ?_)
  · with_reducible exact Changes.refl
  · with_reducible refine Changes.ite_ (fun _ => ?_) (fun _ => ?_)
    · with_reducible refine Changes.next ?_ setResult_changes (by decide)
      with_reducible exact Changes.refl
    · with_reducible refine Changes.ite_ (fun _ => ?_) (fun _ => ?_)
      · with_reducible refine Changes.next ?_ setResult_changes (by decide)
        with_reducible exact Changes.refl
      · with_reducible refine Changes.foldl ?_ (fun _ _ => ?_)
        · with_reducible refine Changes.next ?_ (modJob_changes ?_) (by decide)
          · with_reducible exact Changes.refl
          · exact fun _ h => h
        · split
          · with_reducible exact Changes.refl
          · with_reducible refine Changes.next ?_ enqueueFrame_changes (by decide)
            with_reducible exact Changes.refl

theorem runCopFetchTimeout_changes {j : Job} {s : State} : Changes [.jobs] s (runCopFetchTimeout j s) := by
  unfold runCopFetchTimeout
  with_reducible refine Changes.ite_ (fun _ => ?_) (fun _ => ?_)
  · with_reducible refine Changes.next ?_ (modJob_changes ?_) (by decide)
    · with_reducible exact Changes.refl
    · exact fun _ h => h
  · with_reducible exact Changes.refl

theorem serveFetch_changes {s : State} {j : Nat} {h : Nat} {step : W32} : Changes [.free, .positions, .halls, .hubs, .ports, .mem,
    .memErr, .outputs, .promotes, .series, .meshFault, .resent, .leafs] s (serveFetch s j h step) := by
  unfold serveFetch
  ((with_reducible conv => (arg 3; whnf)); split)
  · with_reducible refine Changes.next ?_ findGen_changes (by decide)
    with_reducible exact Changes.refl
  · with_reducible refine Changes.foldl ?_ (fun _ _ => ?_)
    · with_reducible refine Changes.next ?_ findGen_changes (by decide)
      with_reducible exact Changes.refl
    · ((with_reducible conv => (arg 3; whnf)); split)
      · with_reducible refine Changes.foldl ?_ (fun _ _ => ?_)
        · with_reducible refine Changes.next ?_ vaRead_changes (by decide)
          with_reducible exact Changes.refl
        · with_reducible refine Changes.next ?_ copCrc_changes (by decide)
          with_reducible exact Changes.refl
      · with_reducible refine Changes.ite_ (fun _ => ?_) (fun _ => ?_)
        · with_reducible refine Changes.foldl ?_ (fun _ _ => ?_)
          · with_reducible refine Changes.next ?_ vaRead_changes (by decide)
            with_reducible exact Changes.refl
          · with_reducible refine Changes.next ?_ copCrc_changes (by decide)
            with_reducible exact Changes.refl
        · with_reducible refine Changes.next ?_ enqueueFrame_changes (by decide)
          with_reducible refine Changes.foldl ?_ (fun _ _ => ?_)
          · with_reducible refine Changes.next ?_ vaRead_changes (by decide)
            with_reducible exact Changes.refl
          · with_reducible refine Changes.next ?_ copCrc_changes (by decide)
            with_reducible exact Changes.refl

theorem fetchData_changes {s : State} {j : Nat} {h : Nat} {f : Frame} : Changes [.free, .positions, .halls, .hubs, .ports, .jobs,
    .slots, .mem, .memErr, .outputs, .promotes, .series, .meshFault, .resent, .leafs] s (fetchData s j h f) := by
  unfold fetchData
  ((with_reducible conv => (arg 3; whnf)); split)
  · with_reducible refine Changes.next ?_ raiseBoth_changes (by decide)
    with_reducible refine Changes.next ?_ (modJob_changes ?_) (by decide)
    · with_reducible refine Changes.next ?_ copWrite_changes (by decide)
      with_reducible exact Changes.refl
    · exact fun _ h => h
  · with_reducible refine Changes.ite_ (fun _ => ?_) (fun _ => ?_)
    · with_reducible refine Changes.next ?_ (modJob_changes ?_) (by decide)
      · with_reducible refine Changes.next ?_ copWrite_changes (by decide)
        with_reducible exact Changes.refl
      · exact fun _ h => h
    · with_reducible refine Changes.next ?_ restoreFrom_changes (by decide)
      with_reducible refine Changes.next ?_ markPoisoned_changes (by decide)
      with_reducible refine Changes.next ?_ (modJob_changes ?_) (by decide)
      · with_reducible refine Changes.next ?_ (modJob_changes ?_) (by decide)
        · with_reducible refine Changes.next ?_ copWrite_changes (by decide)
          with_reducible exact Changes.refl
        · exact fun _ h => h
      · exact fun _ h => h

theorem buddyPart_changes {s : State} {j : Nat} {h : Nat} {f : Frame} : Changes [.free, .queues, .sems, .signals, .lcores,
    .positions, .halls, .hubs, .ports, .jobs, .stats, .mem, .memErr, .outputs, .promotes, .series, .meshFault, .resent, .leafs] s
    (buddyPart s j h f) := by
  unfold buddyPart
  dsimp only
  split
  · exact Changes.refl
  · next b e =>
    have hb : Changes [.free, .queues, .sems, .signals, .lcores, .positions, .halls, .hubs, .ports, .jobs, .stats, .mem, .memErr, .outputs, .promotes,
    .series, .meshFault, .resent, .leafs] s b.2.st := by
      unfold buddySlot at e
      dsimp only at e
      split at e
      · cases e
        exact Changes.refl
      · split at e
        · cases e
        · cases e
          dsimp only
          with_reducible refine Changes.next ?_ (modJob_changes ?_) (by decide)
          · with_reducible refine Changes.next ?_ copWrite_changes (by decide)
            with_reducible refine Changes.next ?_ olderSlot_changes (by decide)
            with_reducible exact Changes.refl
          · exact fun _ h => h
    with_reducible refine Changes.next ?_ closeRise_changes (by decide)
    with_reducible refine Changes.next ?_ copEnd_changes (by decide)
    with_reducible refine Changes.next ?_ completeBuddy_changes (by decide)
    with_reducible refine Changes.next ?_ setGens_changes (by decide)
    with_reducible refine Changes.next ?_ markPoisoned_changes (by decide)
    with_reducible refine Changes.next ?_ copWrite_changes (by decide)
    exact hb


theorem receiveCooper_changes {s : State} {port : Nat} {f : Frame} : Changes [.free, .queues, .sems, .signals, .lcores, .positions,
    .halls, .hubs, .ports, .jobs, .slots, .stats, .mem, .memErr, .outputs, .promotes, .series, .meshFault, .resent, .leafs] s
    (receiveCooper s port f) := by
  unfold receiveCooper
  split
  · with_reducible exact Changes.refl
  · with_reducible refine Changes.ite_ (fun _ => ?_) (fun _ => ?_)
    · with_reducible refine Changes.ite_ (fun _ => ?_) (fun _ => ?_)
      · with_reducible refine Changes.next ?_ serveFetch_changes (by decide)
        with_reducible exact Changes.refl
      · with_reducible exact Changes.refl
    · with_reducible refine Changes.ite_ (fun _ => ?_) (fun _ => ?_)
      · with_reducible refine Changes.ite_ (fun _ => ?_) (fun _ => ?_)
        · with_reducible refine Changes.next ?_ fetchData_changes (by decide)
          with_reducible exact Changes.refl
        · with_reducible exact Changes.refl
      · with_reducible refine Changes.ite_ (fun _ => ?_) (fun _ => ?_)
        · with_reducible refine Changes.next ?_ buddyPart_changes (by decide)
          with_reducible exact Changes.refl
        · with_reducible exact Changes.refl

theorem copPortDown_changes {s : State} {port : Nat} : Changes [.free, .queues, .sems, .signals, .lcores, .positions, .halls, .hubs,
    .ports, .jobs, .stats, .mem, .memErr, .outputs, .promotes, .series, .meshFault, .resent, .leafs] s (copPortDown s port) := by
  unfold copPortDown
  with_reducible refine Changes.foldl ?_ (fun _ _ => ?_)
  · with_reducible exact Changes.refl
  · with_reducible refine Changes.ite_ (fun _ => ?_) (fun _ => ?_)
    · with_reducible exact Changes.refl
    · ((with_reducible conv => (arg 3; whnf)); split)
      · with_reducible refine Changes.ite_ (fun _ => ?_) (fun _ => ?_)
        · with_reducible refine Changes.next ?_ (modJob_changes ?_) (by decide)
          · with_reducible exact Changes.refl
          · exact fun _ h => h
        · with_reducible exact Changes.refl
      · with_reducible refine Changes.next ?_ snapFail_changes (by decide)
        with_reducible refine Changes.ite_ (fun _ => ?_) (fun _ => ?_)
        · with_reducible refine Changes.next ?_ (modJob_changes ?_) (by decide)
          · with_reducible exact Changes.refl
          · exact fun _ h => h
        · with_reducible exact Changes.refl

theorem slotMapEntry_changes {s : State} {h : Nat} {j : Nat} {n : Nat} : Changes [.free, .positions, .halls, .hubs, .ports, .mem,
    .memErr, .outputs, .promotes, .series, .meshFault, .resent, .leafs] s (slotMapEntry s h j n).2 := by
  unfold slotMapEntry
  (dsimp only; split)
  · with_reducible refine Changes.next ?_ raise_changes (by decide)
    with_reducible refine Changes.next ?_ vaRead_changes (by decide)
    with_reducible exact Changes.refl
  · split
    · with_reducible refine Changes.next ?_ vaRead_changes (by decide)
      with_reducible exact Changes.refl
    · with_reducible refine Changes.next ?_ vaRead_changes (by decide)
      with_reducible exact Changes.refl

theorem dropLive_changes {s : State} {h : Nat} {j : Nat} {n : Nat} {slots : W16} : Changes [.free, .positions, .halls, .hubs,
    .ports, .mem, .memErr, .outputs, .promotes, .series, .meshFault, .resent, .leafs] s (dropLive s h j n slots).st := by
  unfold dropLive
  (dsimp only; split)
  · with_reducible refine Changes.next ?_ raise_changes (by decide)
    with_reducible refine Changes.next ?_ vaRead_changes (by decide)
    with_reducible exact Changes.refl
  · split
    · with_reducible refine Changes.next ?_ vaRead_changes (by decide)
      with_reducible exact Changes.refl
    · ((with_reducible conv => (arg 3; whnf)); split)
      · with_reducible refine Changes.next ?_ vaRead_changes (by decide)
        with_reducible exact Changes.refl
      · ((with_reducible conv => (arg 3; whnf)); split)
        · with_reducible refine Changes.next ?_ vaWrite_changes (by decide)
          with_reducible refine Changes.next ?_ vaRead_changes (by decide)
          with_reducible exact Changes.refl
        · with_reducible refine Changes.next ?_ raise_changes (by decide)
          with_reducible refine Changes.next ?_ vaWrite_changes (by decide)
          with_reducible refine Changes.next ?_ vaRead_changes (by decide)
          with_reducible exact Changes.refl

theorem runSlotDrop_changes {n : Core} {s : State} : Changes [.free, .lcores, .positions, .halls, .hubs, .ports, .mem, .memErr,
    .outputs, .promotes, .series, .meshFault, .resent, .leafs] s (runSlotDrop n s) := by
  unfold runSlotDrop
  with_reducible refine Changes.ite_ (fun _ => ?_) (fun _ => ?_)
  · with_reducible exact Changes.refl
  · with_reducible refine Changes.next ?_ pushEvent_changes (by decide)
    split
    · (dsimp only; split)
      · with_reducible refine Changes.next ?_ slotMapEntry_changes (by decide)
        with_reducible refine Changes.next ?_ modCore_changes (by decide)
        with_reducible exact Changes.refl
      · with_reducible refine Changes.next ?_ dropLive_changes (by decide)
        with_reducible refine Changes.next ?_ slotMapEntry_changes (by decide)
        with_reducible refine Changes.next ?_ modCore_changes (by decide)
        with_reducible exact Changes.refl
    · with_reducible refine Changes.next ?_ modCore_changes (by decide)
      with_reducible exact Changes.refl

end Sys2Proof.Machine
end

