-- ==== Sys2Proof/Laws/ChangePorts.lean ====
section
/-! SUPPORT. What the operations of Machine/Ports may change. -/

namespace Sys2Proof.Machine

theorem setLane_legal {p : PortState} {n : Nat} {l : Lane} (h : PortLegal p) : PortLegal (setLane p n l) := h.withLanes (tabWf_tabSet · _ _)

theorem foldl_setLane_legal {g : PortState → Nat → Lane} {l : List Nat} {p : PortState} (h : PortLegal p) :
    PortLegal (l.foldl (fun p n => setLane p n (g p n)) p) := by
  induction l generalizing p with
  | nil => exact h
  | cons a r ih => exact ih (setLane_legal h)

theorem rotateLanes_legal {p : PortState} (h : PortLegal p) : PortLegal (rotateLanes p) := by
  unfold rotateLanes
  split
  · exact setLane_legal (setLane_legal h)
  · exact h

theorem dropRxLane_legal {p : PortState} {n : Nat} (h : PortLegal p) : PortLegal (dropRxLane p n) := by
  unfold dropRxLane
  repeat' split
  all_goals exact h

theorem closeUp_legal {p : PortState} {role : Nat} (h : PortLegal p) : PortLegal (closeUp p role) := by
  unfold closeUp
  generalize List.range 5 = l
  induction l generalizing p with
  | nil => exact h
  | cons a r ih =>
    rw [List.foldl_cons]
    refine ih ?_
    dsimp only
    split
    · exact setLane_legal h
    · exact h

theorem withSpare_legal {p : PortState} {x : Option (Fin 5)} (h : PortLegal p) : PortLegal { p with spare := x } := ⟨h.1, h.2⟩

theorem withActive_legal {p : PortState} {n : Nat} (h : PortLegal p) : PortLegal { p with active := n } := ⟨h.1, h.2⟩

theorem dropLane_legal {p : PortState} {n : Nat} (h : PortLegal p) : PortLegal (dropLane p n) := by
  have hq := dropRxLane_legal (n := n) h
  unfold dropLane
  dsimp only
  generalize dropRxLane p n = q at hq ⊢
  have hs : PortLegal (setLane q n { getLane q n with retired := true, role := 5 }) := setLane_legal hq
  generalize setLane q n { getLane q n with retired := true, role := 5 } = u at hs ⊢
  split
  · exact hs
  · split
    · exact hs
    · split
      · split
        · exact withSpare_legal (setLane_legal hs)
        · exact withActive_legal (closeUp_legal hs)
      · exact hs

theorem trainPort_legal {p : PortState} {ok : List Nat} {a : BitVec 12} (h : PortLegal p) : PortLegal (trainPort p ok a) := by
  unfold trainPort
  exact foldl_setLane_legal h

theorem rollSecond_legal {p : PortState} {n : Nat} (h : PortLegal p) : PortLegal (rollSecond p n) := by
  unfold rollSecond
  split
  · exact h
  · exact h.withLanes (tabWf_tabMap · _)

theorem switchRx_legal {p : PortState} {i : Fin 4} (h : PortLegal p) : PortLegal (switchRx p i) := by
  unfold switchRx
  split <;> exact h

theorem countBad_legal {p : PortState} {w : LaneWord} (h : PortLegal p) : PortLegal (countBad p w) := by
  unfold countBad
  split
  · exact h
  · exact setLane_legal h

theorem countCorrected_legal {p : PortState} {w : LaneWord} (h : PortLegal p) : PortLegal (countCorrected p w) := by
  unfold countCorrected
  split <;> exact h

theorem takeControl_legal {p : PortState} {c : ControlCodeword} (h : PortLegal p) : PortLegal (takeControl p c) := by
  unfold takeControl
  dsimp only
  split <;> split <;> first | exact h | exact switchRx_legal h

theorem writeRot_legal {p : PortState} {x : Nat} (h : PortLegal p) (hx : x < 256) :
    PortLegal { p with rotS := if x = 0 then p.rotS else BitVec.ofNat 8 x } := by
  refine ⟨?_, h.2⟩
  show (if x = 0 then p.rotS else BitVec.ofNat 8 x) ≠ 0
  split
  · exact h.1
  · intro e
    have := congrArg BitVec.toNat e
    simp at this
    omega

theorem updateTime_changes {s : State} : Changes [.free, .time, .time1, .halls, .timeCfg] s (updateTime s) := by
  unfold updateTime
  with_reducible refine Changes.ite_ (fun _ => ?_) (fun _ => ?_)
  · with_reducible refine Changes.next ?_ with_timeCfg_changes (by decide)
    with_reducible exact Changes.refl
  · split
    · with_reducible refine Changes.ite_ (fun _ => ?_) (fun _ => ?_)
      · with_reducible refine Changes.next ?_ setTime_changes (by decide)
        with_reducible refine Changes.next ?_ with_timeCfg_changes (by decide)
        with_reducible refine Changes.next ?_ takeFree_changes (by decide)
        with_reducible exact Changes.refl
      · with_reducible refine Changes.next ?_ with_timeCfg_changes (by decide)
        with_reducible refine Changes.next ?_ takeFree_changes (by decide)
        with_reducible exact Changes.refl
    · with_reducible refine Changes.ite_ (fun _ => ?_) (fun _ => ?_)
      · with_reducible exact Changes.refl
      · with_reducible refine Changes.next ?_ raiseBoth_changes (by decide)
        with_reducible refine Changes.next ?_ with_timeCfg_changes (by decide)
        with_reducible exact Changes.refl

theorem portDown_changes {s : State} {k : Nat} : Changes [.free, .time, .time1, .queues, .sems, .signals, .lcores, .positions,
    .halls, .hubs, .ports, .jobs, .stats, .timeCfg, .mem, .memErr, .outputs, .promotes, .series, .meshFault, .resent, .leafs] s
    (portDown s k) := by
  unfold portDown
  with_reducible refine Changes.ite_ (fun _ => ?_) (fun _ => ?_)
  · with_reducible refine Changes.next ?_ updateTime_changes (by decide)
    with_reducible refine Changes.next ?_ copPortDown_changes (by decide)
    with_reducible refine Changes.next ?_ endOnPort_changes (by decide)
    with_reducible refine Changes.next ?_ raise_changes (by decide)
    with_reducible refine Changes.next ?_ (modPort_changes ?_) (by decide)
    · with_reducible exact Changes.refl
    · exact fun _ h => downPort_legal h
  · with_reducible exact Changes.refl

theorem runLinkClockLost_changes {h : Hall} {p : Port} {s : State} : Changes [.free, .time, .time1, .queues, .sems, .signals,
    .lcores, .positions, .halls, .hubs, .ports, .jobs, .stats, .timeCfg, .mem, .memErr, .outputs, .promotes, .series, .meshFault,
    .resent, .leafs] s (runLinkClockLost h p s) := by
  unfold runLinkClockLost
  with_reducible refine Changes.ite_ (fun _ => ?_) (fun _ => ?_)
  · with_reducible refine Changes.next ?_ portDown_changes (by decide)
    with_reducible exact Changes.refl
  · with_reducible exact Changes.refl

theorem runPortTrain_changes {h : Hall} {p : Port} {t : Training} {peer : Option (BitVec 12)} {s : State} : Changes [.ports] s
    (runPortTrain h p t peer s) := by
  unfold runPortTrain
  ((with_reducible conv => (arg 3; whnf)); split)
  · with_reducible exact Changes.refl
  · with_reducible refine Changes.ite_ (fun _ => ?_) (fun _ => ?_)
    · with_reducible refine Changes.setPort ?_ ?_ (by decide)
      · with_reducible exact Changes.refl
      · exact fun l _ => trainPort_legal (l.port _)
    · with_reducible exact Changes.refl

theorem runLaneRotate_changes {h : Hall} {p : Port} {s : State} : Changes [.ports] s (runLaneRotate h p s) := by
  unfold runLaneRotate
  with_reducible refine Changes.ite_ (fun _ => ?_) (fun _ => ?_)
  · with_reducible refine Changes.next ?_ (modPort_changes ?_) (by decide)
    · with_reducible exact Changes.refl
    · exact fun _ h => rotateLanes_legal h
  · with_reducible exact Changes.refl

theorem retireLane_changes {s : State} {k : Nat} {n : Nat} : Changes [.free, .time, .time1, .queues, .sems, .signals, .lcores,
    .positions, .halls, .hubs, .ports, .jobs, .stats, .timeCfg, .mem, .memErr, .outputs, .promotes, .series, .meshFault, .resent,
    .leafs] s (retireLane s k n) := by
  unfold retireLane
  with_reducible refine Changes.ite_ (fun _ => ?_) (fun _ => ?_)
  · with_reducible exact Changes.refl
  · with_reducible refine Changes.ite_ (fun _ => ?_) (fun _ => ?_)
    · with_reducible refine Changes.next ?_ portDown_changes (by decide)
      with_reducible refine Changes.ite_ (fun _ => ?_) (fun _ => ?_)
      · with_reducible refine Changes.next ?_ raise_changes (by decide)
        with_reducible refine Changes.next ?_ raise_changes (by decide)
        with_reducible refine Changes.next ?_ logDecision_changes (by decide)
        with_reducible refine Changes.next ?_ (modPort_changes ?_) (by decide)
        · with_reducible exact Changes.refl
        · exact fun _ h => dropLane_legal h
      · with_reducible refine Changes.next ?_ raise_changes (by decide)
        with_reducible refine Changes.next ?_ logDecision_changes (by decide)
        with_reducible refine Changes.next ?_ (modPort_changes ?_) (by decide)
        · with_reducible exact Changes.refl
        · exact fun _ h => dropLane_legal h
    · with_reducible refine Changes.ite_ (fun _ => ?_) (fun _ => ?_)
      · with_reducible refine Changes.next ?_ raise_changes (by decide)
        with_reducible refine Changes.next ?_ raise_changes (by decide)
        with_reducible refine Changes.next ?_ logDecision_changes (by decide)
        with_reducible refine Changes.next ?_ (modPort_changes ?_) (by decide)
        · with_reducible exact Changes.refl
        · exact fun _ h => dropLane_legal h
      · with_reducible refine Changes.next ?_ raise_changes (by decide)
        with_reducible refine Changes.next ?_ logDecision_changes (by decide)
        with_reducible refine Changes.next ?_ (modPort_changes ?_) (by decide)
        · with_reducible exact Changes.refl
        · exact fun _ h => dropLane_legal h

theorem runLaneRetire_changes {h : Hall} {p : Port} {lane : Fin 5} {s : State} : Changes [.free, .time, .time1, .queues, .sems,
    .signals, .lcores, .positions, .halls, .hubs, .ports, .jobs, .stats, .timeCfg, .mem, .memErr, .outputs, .promotes, .series,
    .meshFault, .resent, .leafs] s (runLaneRetire h p lane s) := by
  unfold runLaneRetire
  with_reducible refine Changes.ite_ (fun _ => ?_) (fun _ => ?_)
  · with_reducible refine Changes.next ?_ retireLane_changes (by decide)
    with_reducible exact Changes.refl
  · with_reducible exact Changes.refl

theorem writeLnkCtl_changes {s : State} {k : Nat} {v : W32} : Changes [.free, .time, .time1, .queues, .sems, .signals, .lcores,
    .positions, .halls, .hubs, .ports, .jobs, .stats, .timeCfg, .mem, .memErr, .outputs, .promotes, .series, .meshFault, .resent,
    .leafs] s (writeLnkCtl s k v) := by
  unfold writeLnkCtl
  with_reducible refine Changes.foldl ?_ (fun _ _ => ?_)
  · exact (modPort_changes fun _ h => writeRot_legal h (by unfold bitsOf; omega)).mono (by decide)
  · with_reducible refine Changes.ite_ (fun _ => ?_) (fun _ => ?_)
    · with_reducible exact retireLane_changes
    · with_reducible exact Changes.refl


theorem runLaneRetireWrite_changes {h : Hall} {p : Port} {v : W32} {s : State} : Changes [.free, .time, .time1, .queues, .sems,
    .signals, .lcores, .positions, .halls, .hubs, .ports, .jobs, .stats, .timeCfg, .mem, .memErr, .outputs, .promotes, .series,
    .meshFault, .resent, .leafs] s (runLaneRetireWrite h p v s) := by
  unfold runLaneRetireWrite
  with_reducible refine Changes.ite_ (fun _ => ?_) (fun _ => ?_)
  · with_reducible refine Changes.next ?_ writeLnkCtl_changes (by decide)
    with_reducible exact Changes.refl
  · with_reducible exact Changes.refl

theorem countReplay_changes {s : State} {h : Nat} {f : Frame} : Changes [.queues, .resent] s (countReplay s h f) := by
  unfold countReplay
  ((with_reducible conv => (arg 3; whnf)); split)
  · with_reducible exact Changes.refl
  · with_reducible refine Changes.ite_ (fun _ => ?_) (fun _ => ?_)
    · with_reducible refine Changes.next ?_ (modQueue_changes ?_) (by decide)
      · with_reducible exact Changes.refl
      · exact fun _ h => h
    · with_reducible exact Changes.refl

theorem replayFrames_changes {s : State} {k : Nat} : Changes [.free, .time, .time1, .queues, .sems, .signals, .lcores, .positions,
    .halls, .hubs, .ports, .jobs, .stats, .timeCfg, .mem, .memErr, .outputs, .promotes, .series, .meshFault, .resent, .leafs] s
    (replayFrames s k) := by
  unfold replayFrames
  with_reducible refine Changes.ite_ (fun _ => ?_) (fun _ => ?_)
  · with_reducible refine Changes.next ?_ portDown_changes (by decide)
    with_reducible refine Changes.foldl ?_ (fun _ _ => ?_)
    · with_reducible refine Changes.next ?_ with_free_changes (by decide)
      with_reducible refine Changes.next ?_ (modPort_changes ?_) (by decide)
      · with_reducible exact Changes.refl
      · exact fun _ h => h
    · with_reducible refine Changes.next ?_ countReplay_changes (by decide)
      with_reducible exact Changes.refl
  · with_reducible refine Changes.foldl ?_ (fun _ _ => ?_)
    · with_reducible refine Changes.next ?_ with_free_changes (by decide)
      with_reducible refine Changes.next ?_ (modPort_changes ?_) (by decide)
      · with_reducible exact Changes.refl
      · exact fun _ h => h
    · with_reducible refine Changes.next ?_ countReplay_changes (by decide)
      with_reducible exact Changes.refl

theorem runReplayTimeout_changes {h : Hall} {p : Port} {s : State} : Changes [.free, .time, .time1, .queues, .sems, .signals,
    .lcores, .positions, .halls, .hubs, .ports, .jobs, .stats, .timeCfg, .mem, .memErr, .outputs, .promotes, .series, .meshFault,
    .resent, .leafs] s (runReplayTimeout h p s) := by
  unfold runReplayTimeout
  with_reducible refine Changes.ite_ (fun _ => ?_) (fun _ => ?_)
  · with_reducible refine Changes.next ?_ replayFrames_changes (by decide)
    with_reducible exact Changes.refl
  · with_reducible exact Changes.refl

theorem uncorrectable_changes {s : State} {k : Nat} : Changes [.halls, .ports] s (uncorrectable s k) := by
  unfold uncorrectable
  with_reducible refine Changes.next ?_ raiseQuiet_changes (by decide)
  with_reducible refine Changes.next ?_ (modPort_changes ?_) (by decide)
  · with_reducible exact Changes.refl
  · exact fun _ h => h

theorem noteWord_changes {s : State} {k : Nat} {w : LaneWord} : Changes [.halls, .ports] s (noteWord s k w) := by
  unfold noteWord
  dsimp only
  have key : Changes [.halls, .ports] s (modPort s k fun p => countCorrected (countBad (rollSecond p (secondOf s (k / 6))) w) w) :=
    (modPort_changes fun x h => countCorrected_legal (countBad_legal (rollSecond_legal h))).mono (by decide)
  exact Changes.ite_ (fun _ => key) fun _ => key.next uncorrectable_changes (by decide)


theorem runControl_changes {h : Hall} {p : Port} {c : ControlCodeword} {s : State} : Changes [.free, .time, .time1, .queues, .sems,
    .signals, .lcores, .positions, .halls, .hubs, .ports, .jobs, .stats, .timeCfg, .mem, .memErr, .outputs, .promotes, .series,
    .meshFault, .resent, .leafs] s (runControl h p c s) := by
  unfold runControl
  dsimp only
  with_reducible refine Changes.ite_ (fun _ => Changes.refl) (fun _ => ?_)
  with_reducible refine Changes.ite_ (fun _ => noteWord_changes.mono (by decide)) (fun _ => ?_)
  have h1 : Changes [.free, .time, .time1, .queues, .sems, .signals, .lcores, .positions, .halls, .hubs, .ports, .jobs, .stats, .timeCfg, .mem, .memErr,
    .outputs, .promotes, .series, .meshFault, .resent, .leafs] s (updateTime (modPort (noteWord s (6 * h.val + p.val) c.word) (6 * h.val + p.val) fun p => takeControl p c)) :=
    ((noteWord_changes.mono (by decide)).next (modPort_changes fun _ l => takeControl_legal l) (by decide)).next updateTime_changes (by decide)
  split
  · exact h1
  · refine (h1.next (modPort_changes ?_) (by decide)).next replayFrames_changes (by decide)
    exact fun _ l => l


theorem freeNibbles_changes {s : State} {n : Nat} : Changes [.free] s (freeNibbles s n).2 := by
  unfold freeNibbles
  with_reducible refine Changes.next ?_ with_free_changes (by decide)
  with_reducible exact Changes.refl

theorem lineWord_changes {s : State} {k : Nat} : Changes [.free, .ports] s (lineWord s k).2 := by
  unfold lineWord
  with_reducible refine Changes.next ?_ (modPort_changes ?_) (by decide)
  · with_reducible refine Changes.next ?_ freeNibbles_changes (by decide)
    with_reducible exact Changes.refl
  · exact fun _ h => h

theorem controlWord_changes {s : State} : Changes [.free] s (controlWord s).2 := by
  unfold controlWord
  with_reducible refine Changes.next ?_ freeNibbles_changes (by decide)
  with_reducible exact Changes.refl

theorem sendSlot_changes {s : State} {k : Nat} {i : Nat} : Changes [.free, .ports] s (sendSlot s k i) := by
  unfold sendSlot
  with_reducible refine Changes.ite_ (fun _ => ?_) (fun _ => ?_)
  · with_reducible refine Changes.ite_ (fun _ => ?_) (fun _ => ?_)
    · with_reducible refine Changes.next ?_ (modPort_changes ?_) (by decide)
      · with_reducible refine Changes.next ?_ controlWord_changes (by decide)
        with_reducible exact Changes.refl
      · exact fun _ h => h
    · with_reducible refine Changes.next ?_ (modPort_changes ?_) (by decide)
      · with_reducible refine Changes.next ?_ controlWord_changes (by decide)
        with_reducible refine Changes.next ?_ takeFree_changes (by decide)
        with_reducible exact Changes.refl
      · exact fun _ h => h
  · with_reducible refine Changes.next ?_ (modPort_changes ?_) (by decide)
    · with_reducible refine Changes.next ?_ lineWord_changes (by decide)
      with_reducible refine Changes.next ?_ (modPort_changes ?_) (by decide)
      · with_reducible exact Changes.refl
      · exact fun _ h => fillLine_legal h
    · exact fun _ h => h

theorem sendRound_changes {s : State} {k : Nat} : Changes [.free, .ports] s (sendRound s k) := by
  unfold sendRound
  dsimp only
  with_reducible refine Changes.ite_ (fun _ => Changes.refl) (fun _ => ?_)
  with_reducible refine Changes.next ?_ (modPort_changes ?_) (by decide)
  · with_reducible refine Changes.foldl ?_ (fun _ _ => ?_)
    · refine (modPort_changes fun x h => ?_).mono (by decide)
      exact rollSecond_legal h
    · with_reducible exact sendSlot_changes
  · exact fun _ h => h


theorem idleStep_changes {s : State} : Changes [.free, .time, .time1, .ports] s (idleStep s) := by
  unfold idleStep
  with_reducible refine Changes.foldl ?_ (fun _ _ => ?_)
  · with_reducible refine Changes.next ?_ tick_changes (by decide)
    with_reducible exact Changes.refl
  · with_reducible refine Changes.ite_ (fun _ => ?_) (fun _ => ?_)
    · with_reducible refine Changes.next ?_ sendRound_changes (by decide)
      with_reducible exact Changes.refl
    · with_reducible exact Changes.refl

theorem lostFrame_changes {s : State} {k : Nat} : Changes [.ports] s (lostFrame s k) := by
  unfold lostFrame
  with_reducible refine Changes.next ?_ (modPort_changes ?_) (by decide)
  · with_reducible exact Changes.refl
  · exact fun _ h => h

theorem tookSeq_changes {s : State} {k : Nat} : Changes [.ports] s (tookSeq s k) := by
  unfold tookSeq
  with_reducible refine Changes.next ?_ (modPort_changes ?_) (by decide)
  · with_reducible exact Changes.refl
  · exact fun _ h => h

theorem acceptFrame_changes {s : State} {k : Nat} {f : Frame} {bad : Option W32} : Changes [.free, .queues, .sems, .signals,
    .lcores, .positions, .halls, .hubs, .ports, .jobs, .slots, .stats, .mem, .memErr, .outputs, .promotes, .series, .meshFault,
    .resent, .leafs] s (acceptFrame s k f bad) := by
  unfold acceptFrame
  with_reducible refine Changes.ite_ (fun _ => ?_) (fun _ => ?_)
  · with_reducible refine Changes.next ?_ receiveAbort_changes (by decide)
    with_reducible refine Changes.next ?_ takeFrame_changes (by decide)
    with_reducible refine Changes.next ?_ (modPort_changes ?_) (by decide)
    · with_reducible exact Changes.refl
    · exact fun _ h => h
  · with_reducible refine Changes.ite_ (fun _ => ?_) (fun _ => ?_)
    · with_reducible refine Changes.next ?_ receiveCooper_changes (by decide)
      with_reducible refine Changes.next ?_ takeFrame_changes (by decide)
      with_reducible refine Changes.next ?_ (modPort_changes ?_) (by decide)
      · with_reducible exact Changes.refl
      · exact fun _ h => h
    · with_reducible refine Changes.next ?_ (modPort_changes ?_) (by decide)
      · with_reducible exact Changes.refl
      · exact fun _ h => h

theorem checkPayload_changes {s : State} {k : Nat} {f : Frame} : Changes [.free, .queues, .sems, .signals, .lcores, .positions,
    .halls, .hubs, .ports, .jobs, .slots, .stats, .mem, .memErr, .outputs, .promotes, .series, .meshFault, .resent, .leafs] s
    (checkPayload s k f) := by
  unfold checkPayload
  with_reducible refine Changes.ite_ (fun _ => ?_) (fun _ => ?_)
  · with_reducible refine Changes.next ?_ acceptFrame_changes (by decide)
    with_reducible refine Changes.next ?_ tookSeq_changes (by decide)
    with_reducible refine Changes.ite_ (fun _ => ?_) (fun _ => ?_)
    · with_reducible refine Changes.next ?_ (modPort_changes ?_) (by decide)
      · with_reducible exact Changes.refl
      · exact fun _ h => h
    · with_reducible exact Changes.refl
  · with_reducible refine Changes.ite_ (fun _ => ?_) (fun _ => ?_)
    · with_reducible refine Changes.next ?_ (modPort_changes ?_) (by decide)
      · with_reducible exact Changes.refl
      · exact fun _ h => h
    · with_reducible refine Changes.next ?_ acceptFrame_changes (by decide)
      with_reducible refine Changes.next ?_ raiseCrc_changes (by decide)
      with_reducible refine Changes.next ?_ (modPort_changes ?_) (by decide)
      · with_reducible refine Changes.next ?_ tookSeq_changes (by decide)
        with_reducible exact Changes.refl
      · exact fun _ h => h

theorem checkFrame_changes {s : State} {k : Nat} {f : Frame} {head : List Byte} : Changes [.free, .queues, .sems, .signals, .lcores,
    .positions, .halls, .hubs, .ports, .jobs, .slots, .stats, .mem, .memErr, .outputs, .promotes, .series, .meshFault, .resent,
    .leafs] s (checkFrame s k f head) := by
  unfold checkFrame
  with_reducible refine Changes.ite_ (fun _ => ?_) (fun _ => ?_)
  · with_reducible refine Changes.next ?_ lostFrame_changes (by decide)
    with_reducible exact Changes.refl
  · with_reducible refine Changes.ite_ (fun _ => ?_) (fun _ => ?_)
    · with_reducible refine Changes.ite_ (fun _ => ?_) (fun _ => ?_)
      · with_reducible exact Changes.refl
      · with_reducible refine Changes.next ?_ lostFrame_changes (by decide)
        with_reducible exact Changes.refl
    · with_reducible refine Changes.ite_ (fun _ => ?_) (fun _ => ?_)
      · with_reducible refine Changes.next ?_ lostFrame_changes (by decide)
        with_reducible exact Changes.refl
      · with_reducible refine Changes.ite_ (fun _ => ?_) (fun _ => ?_)
        · with_reducible refine Changes.next ?_ (modPort_changes ?_) (by decide)
          · with_reducible refine Changes.next ?_ tookSeq_changes (by decide)
            with_reducible exact Changes.refl
          · exact fun _ h => h
        · with_reducible refine Changes.next ?_ checkPayload_changes (by decide)
          with_reducible exact Changes.refl

theorem runFrameReceive_changes {h : Hall} {p : Port} {bytes : List Byte} {words : List LaneWord} {s : State} : Changes [.free,
    .queues, .sems, .signals, .lcores, .positions, .halls, .hubs, .ports, .jobs, .slots, .stats, .mem, .memErr, .outputs, .promotes,
    .series, .meshFault, .resent, .leafs] s (runFrameReceive h p bytes words s) := by
  unfold runFrameReceive
  with_reducible refine Changes.ite_ (fun _ => ?_) (fun _ => ?_)
  · with_reducible exact Changes.refl
  · with_reducible refine Changes.ite_ (fun _ => ?_) (fun _ => ?_)
    · with_reducible refine Changes.next ?_ checkFrame_changes (by decide)
      with_reducible refine Changes.foldl ?_ (fun _ _ => ?_)
      · with_reducible exact Changes.refl
      · with_reducible refine Changes.next ?_ noteWord_changes (by decide)
        with_reducible exact Changes.refl
    · with_reducible refine Changes.next ?_ lostFrame_changes (by decide)
      with_reducible refine Changes.foldl ?_ (fun _ _ => ?_)
      · with_reducible exact Changes.refl
      · with_reducible refine Changes.next ?_ noteWord_changes (by decide)
        with_reducible exact Changes.refl

end Sys2Proof.Machine
end

