-- ==== Sys2Proof/Laws/ChangeStart.lean ====
section
/-! SUPPORT. What the operations of Machine/Start may change. -/

namespace Sys2Proof.Machine

theorem resetLCores_wf : tabWf ({} : LCore) resetLCores = true := by decide +kernel

theorem resetPositions_wf : tabWf ({} : Position) resetPositions = true := by decide +kernel

theorem resetPositions_legal : ∀ x ∈ resetPositions, PosLegal x.2 := by
  simp only [PosLegal]
  decide +kernel

theorem HallLegal.forms {hl : HallState} (h : HallLegal hl) : HallTables hl := h.2.2.2.2.2.2.2

theorem startHall_legal {s : State} {h : Nat} {x : StartState} {again : Bool} (l : HallLegal (getHall s h)) :
    HallLegal (startHall s h x again) := by
  unfold startHall
  have r := resetHall_legal
  refine ⟨r.1, r.2.1, r.2.2.1, r.2.2.2.1, r.2.2.2.2.1, r.2.2.2.2.2.1, r.2.2.2.2.2.2.1, l.forms.1, ?_, rfl, rfl, rfl, rfl, rfl⟩
  dsimp only
  split
  · exact l.forms.2.1
  · rfl

theorem withImage_legal {hl : HallState} {a b : Bool} (h : HallLegal hl) : HallLegal (withImage hl a b) := by
  unfold withImage HallLegal HallTables at *
  exact h

theorem reloadedHall_legal {hl : HallState} {n : Nat} {b : Bool} (h : HallLegal hl) : HallLegal (reloadedHall hl n b) := by
  unfold reloadedHall
  exact ⟨h.1, h.2.1, h.2.2.1, h.2.2.2.1, h.2.2.2.2.1, h.2.2.2.2.2.1, h.2.2.2.2.2.2.1, h.forms.1, h.forms.2.1, rfl, h.forms.2.2.2.1, rfl, rfl, rfl⟩

theorem writeBoot_legal {hl : HallState} {slot : Bool} (h : HallLegal hl) : HallLegal (writeBoot hl slot) := by
  unfold writeBoot
  exact h.withFlash fun k => tabWf_flashProgram (tabWf_filter (tabWf_flashProgram (tabWf_filter k _)) _)

theorem tabWf_ends {f : Nat → SeamLink} {l : List Nat} {t : Tab SeamLink} (h : tabWf {} t = true) :
    tabWf {} (l.foldl (fun t n => tabSet {} n (f n) t) t) = true := by
  induction l generalizing t with
  | nil => exact h
  | cons a r ih => exact ih (tabWf_tabSet h _ _)

theorem startRate_le {s : State} {a b : Bool} : (startRate s a b).code ≤ s.order.rate.code := by
  unfold startRate
  dsimp only
  have key : ∀ p q : Rate, (slower p q).code ≤ p.code := by
    intro p q
    unfold slower
    split
    · exact Nat.le_refl _
    · omega
  exact key _ _

theorem appendHeld_changes {s : State} {h : Nat} : Changes [.halls] s (appendHeld s h) := by
  unfold appendHeld
  with_reducible refine Changes.foldl ?_ (fun _ _ => ?_)
  · with_reducible refine Changes.next ?_ (modHall_changes ?_) (by decide)
    · with_reducible exact Changes.refl
    · exact fun _ h => h
  · with_reducible refine Changes.next ?_ writeEntry_changes (by decide)
    with_reducible exact Changes.refl

theorem noSpares_changes {s : State} {h : Nat} : Changes [.halls] s (noSpares s h) := by
  unfold noSpares
  with_reducible refine Changes.foldl ?_ (fun _ _ => ?_)
  · with_reducible exact Changes.refl
  · with_reducible refine Changes.ite_ (fun _ => ?_) (fun _ => ?_)
    · with_reducible refine Changes.next ?_ raise_changes (by decide)
      with_reducible exact Changes.refl
    · with_reducible exact Changes.refl

theorem mapHall_changes {s : State} {h : Nat} : Changes [.lcores, .positions, .halls] s (mapHall s h) := by
  unfold mapHall
  with_reducible refine Changes.next ?_ noSpares_changes (by decide)
  with_reducible refine Changes.next ?_ (modHall_changes ?_) (by decide)
  · with_reducible refine Changes.foldl ?_ (fun _ _ => ?_)
    · with_reducible refine Changes.foldl Changes.refl (fun _ _ => ?_)
      with_reducible refine Changes.next Changes.refl (setPos_changes ?_) (by decide)
      intro _
      unfold startPosition
      dsimp only
      split <;> exact ⟨rfl, rfl⟩
    · with_reducible exact setCore_changes.mono (by decide)
  · intro _ h
    unfold HallLegal HallTables at h ⊢
    exact h


theorem startPackages_changes {s : State} {h : Nat} : Changes [.hubs] s (startPackages s h) := by
  unfold startPackages
  with_reducible refine Changes.foldl ?_ (fun _ _ => ?_)
  · with_reducible exact Changes.refl
  · with_reducible refine Changes.next ?_ (modHub_changes ?_) (by decide)
    · with_reducible exact Changes.refl
    · exact fun _ h => setPkg_legal h

theorem startRow_changes {s : State} {h : Nat} {x : Nat × List Byte} : Changes [.free, .halls, .hubs] s (startRow s h x) := by
  unfold startRow
  extract_lets hk ch i done gone
  split
  next n u e =>
  have hu : Changes [.free, .halls, .hubs] s u := takeFree_changes.of_snd e |>.mono (by decide)
  dsimp only
  refine Changes.next (t := ite _ _ _) ?_ (modHub_changes fun hb h => ?_) (by decide)
  · refine Changes.ite_ (fun _ => hu.next (modHall_changes fun _ h => h.withFlash tabWf_flashProgram) (by decide)) fun _ => hu
  · split
    · exact setPkg_legal h
    · split
      · exact setPkg_legal h
      · exact (setPkg_legal h).withShadows (tabWf_tabSet · _ _)


theorem startRows_changes {s : State} {h : Nat} : Changes [.free, .halls, .hubs] s (startRows s h) := by
  unfold startRows
  with_reducible refine Changes.foldl ?_ (fun _ _ => ?_)
  · with_reducible exact Changes.refl
  · with_reducible refine Changes.next ?_ startRow_changes (by decide)
    with_reducible exact Changes.refl

theorem startLanes_changes {s : State} {h : Nat} : Changes [.ports] s (startLanes s h) := by
  unfold startLanes
  with_reducible refine Changes.foldl ?_ (fun _ _ => ?_)
  · with_reducible exact Changes.refl
  · with_reducible refine Changes.next ?_ (modPort_changes ?_) (by decide)
    · with_reducible exact Changes.refl
    · exact fun _ h => setLane_legal h

theorem startEnds_changes {s : State} {h : Nat} : Changes [.halls] s (startEnds s h) := by
  unfold startEnds
  exact modHall_changes fun _ h => h.withSeam fun _ => tabWf_ends rfl


theorem trainLink_changes {s : State} {n : Nat} : Changes [.free, .halls] s (trainLink s n) := by
  unfold trainLink
  with_reducible refine Changes.next ?_ setUp_changes (by decide)
  with_reducible refine Changes.next ?_ takeFree_changes (by decide)
  with_reducible exact Changes.refl

theorem trainSeam_changes {s : State} : Changes [.free, .halls] s (trainSeam s) := by
  unfold trainSeam
  with_reducible refine Changes.foldl ?_ (fun _ _ => ?_)
  · with_reducible exact Changes.refl
  · with_reducible refine Changes.next ?_ trainLink_changes (by decide)
    with_reducible exact Changes.refl

theorem startBase_changes {s : State} {x : StartState} {again : Bool} : Changes [.time, .time1, .started, .aliveLevel, .moduleDown,
    .queues, .sems, .semGrp, .own, .signals, .lcores, .positions, .halls, .hubs, .ports, .jobs, .slots, .stats, .miller, .chain,
    .power, .jtag, .timeCfg, .selfTest, .mem, .memErr, .outputs, .promotes, .series, .meshFault, .resent, .leafs, .delivered] s
    (startBase s x again) := by
  have hh : ∀ h : Nat, Legal s → HallLegal (startHall s h x again) := fun h l => startHall_legal (l.hall h)
  have hm : ∀ d : Bool, MillerLegal { derate := d } := fun d => by
    refine ⟨?_, ?_, ?_, ?_, ?_, ?_, ?_⟩ <;> dsimp only <;> decide
  refine ⟨rfl, fun p hp => by cases p <;> first | rfl | exact absurd hp (by decide), fun c => ?_, fun l => ?_⟩
  · exact ⟨rfl, rfl, rfl, rfl, resetLCores_wf, resetPositions_wf, tabWf_tabSet (tabWf_tabSet rfl _ _) _ _, rfl, rfl, rfl, rfl, rfl, rfl, rfl,
      rfl, rfl, c.hostMem⟩
  · exact ⟨l.rate, hm _, tabSet_all (tabSet_all (fun _ h => nomatch h) _ (hh 1 l)) _ (hh 0 l),
      (fun _ h => nomatch h), (fun _ h => nomatch h), (fun _ h => nomatch h), resetPositions_legal, fun _ h => nomatch h⟩


theorem startEvents_changes {s : State} {h : Nat} {fallback : Bool} : Changes [.halls] s (startEvents s h fallback) := by
  unfold startEvents
  with_reducible refine Changes.next ?_ pushEvent_changes (by decide)
  with_reducible refine Changes.ite_ (fun _ => ?_) (fun _ => ?_)
  · with_reducible refine Changes.next ?_ pushEvent_changes (by decide)
    with_reducible exact Changes.refl
  · with_reducible exact Changes.refl

theorem startLinked_changes {s : State} {a : Bool × Bool} {b : Bool × Bool} {again : Bool} : Changes [.free, .rate, .time, .time1,
    .started, .aliveLevel, .moduleDown, .queues, .sems, .semGrp, .own, .signals, .lcores, .positions, .halls, .hubs, .ports, .jobs,
    .slots, .stats, .miller, .chain, .power, .jtag, .timeCfg, .selfTest, .mem, .memErr, .outputs, .promotes, .series, .meshFault,
    .resent, .leafs, .delivered] s (startLinked s a b again) := by
  unfold startLinked
  with_reducible refine Changes.next ?_ trainSeam_changes (by decide)
  with_reducible refine Changes.next ?_ startEnds_changes (by decide)
  with_reducible refine Changes.next ?_ startEnds_changes (by decide)
  with_reducible refine Changes.next ?_ (modHall_changes fun _ h => withImage_legal h) (by decide)
  with_reducible refine Changes.next ?_ (modHall_changes fun _ h => withImage_legal h) (by decide)
  with_reducible refine Changes.next ?_ appendHeld_changes (by decide)
  with_reducible refine Changes.next ?_ appendHeld_changes (by decide)
  with_reducible refine Changes.next ?_ (with_rate_changes startRate_le) (by decide)
  with_reducible exact startBase_changes.mono (by decide)


theorem startMapped_changes {t : State} : Changes [.free, .started, .lcores, .positions, .halls, .hubs, .ports, .power] t
    (startMapped t) := by
  unfold startMapped
  with_reducible refine Changes.next ?_ mapHall_changes (by decide)
  with_reducible refine Changes.next ?_ mapHall_changes (by decide)
  with_reducible refine Changes.next ?_ reshare_changes (by decide)
  with_reducible refine Changes.next ?_ with_started_power_changes (by decide)
  refine Changes.foldl Changes.refl fun u h => ?_
  exact ((startPackages_changes.mono (by decide)).next startRows_changes (by decide)).next startLanes_changes (by decide)


theorem startReported_changes {t : State} {latch : Bool} : Changes [.halls] t (startReported t latch) := by
  unfold startReported
  with_reducible refine Changes.next ?_ startEvents_changes (by decide)
  with_reducible refine Changes.next ?_ startEvents_changes (by decide)
  with_reducible refine Changes.ite_ (fun _ => ?_) (fun _ => ?_)
  · with_reducible refine Changes.next ?_ raiseBoth_changes (by decide)
    with_reducible refine Changes.ite_ (fun _ => ?_) (fun _ => ?_)
    · with_reducible refine Changes.next ?_ raiseBoth_changes (by decide)
      with_reducible exact Changes.refl
    · with_reducible exact Changes.refl
  · with_reducible refine Changes.ite_ (fun _ => ?_) (fun _ => ?_)
    · with_reducible refine Changes.next ?_ raiseBoth_changes (by decide)
      with_reducible exact Changes.refl
    · with_reducible exact Changes.refl

theorem startThrough_changes {s : State} {a : Bool × Bool} {b : Bool × Bool} {again : Bool} : Changes [.free, .rate, .time, .time1,
    .started, .aliveLevel, .moduleDown, .queues, .sems, .semGrp, .own, .signals, .lcores, .positions, .halls, .hubs, .ports, .jobs,
    .slots, .stats, .miller, .chain, .power, .jtag, .timeCfg, .selfTest, .mem, .memErr, .outputs, .promotes, .series, .meshFault,
    .resent, .leafs, .delivered] s (startThrough s a b again) := by
  unfold startThrough
  with_reducible refine Changes.ite_ (fun _ => ?_) (fun _ => ?_)
  · with_reducible refine Changes.next ?_ raiseBoth_changes (by decide)
    with_reducible refine Changes.next ?_ startBase_changes (by decide)
    with_reducible exact Changes.refl
  · with_reducible refine Changes.next ?_ startReported_changes (by decide)
    with_reducible refine Changes.next ?_ startMapped_changes (by decide)
    with_reducible refine Changes.next ?_ startLinked_changes (by decide)
    with_reducible exact Changes.refl

theorem flashStopped_changes {s : State} {again : Bool} : Changes [.time, .time1, .started, .aliveLevel, .moduleDown, .queues,
    .sems, .semGrp, .own, .signals, .lcores, .positions, .halls, .hubs, .ports, .jobs, .slots, .stats, .miller, .chain, .power,
    .jtag, .timeCfg, .selfTest, .mem, .memErr, .outputs, .promotes, .series, .meshFault, .resent, .leafs, .delivered] s
    (flashStopped s again) := by
  unfold flashStopped
  with_reducible refine Changes.foldl ?_ (fun _ _ => ?_)
  · with_reducible refine Changes.next ?_ startBase_changes (by decide)
    with_reducible exact Changes.refl
  · with_reducible refine Changes.next ?_ (modHall_changes ?_) (by decide)
    · with_reducible exact Changes.refl
    · exact fun _ h => h

theorem coldStarted_changes {s : State} {again : Bool} : Changes [.free, .rate, .time, .time1, .started, .aliveLevel, .moduleDown,
    .queues, .sems, .semGrp, .own, .signals, .lcores, .positions, .halls, .hubs, .ports, .jobs, .slots, .stats, .miller, .chain,
    .power, .jtag, .timeCfg, .selfTest, .mem, .memErr, .outputs, .promotes, .series, .meshFault, .resent, .leafs, .delivered] s
    (coldStarted s again) := by
  unfold coldStarted
  with_reducible refine Changes.ite_ (fun _ => ?_) (fun _ => ?_)
  · with_reducible refine Changes.next ?_ flashStopped_changes (by decide)
    with_reducible exact Changes.refl
  · split
    · with_reducible refine Changes.next ?_ startBase_changes (by decide)
      with_reducible exact Changes.refl
    · with_reducible refine Changes.next ?_ startThrough_changes (by decide)
      with_reducible exact Changes.refl

theorem runColdStart_changes {s : State} : Changes [.free, .rate, .time, .time1, .started, .aliveLevel, .moduleDown, .queues, .sems,
    .semGrp, .own, .signals, .lcores, .positions, .halls, .hubs, .ports, .jobs, .slots, .stats, .miller, .chain, .power, .jtag,
    .timeCfg, .selfTest, .mem, .memErr, .outputs, .promotes, .series, .meshFault, .resent, .leafs, .delivered] s (runColdStart s) :=
    by
  unfold runColdStart
  with_reducible refine Changes.ite_ (fun _ => ?_) (fun _ => ?_)
  · with_reducible exact Changes.refl
  · with_reducible refine Changes.ite_ (fun _ => ?_) (fun _ => ?_)
    · with_reducible refine Changes.next ?_ with_power_changes (by decide)
      with_reducible refine Changes.ite_ (fun _ => ?_) (fun _ => ?_)
      · with_reducible exact Changes.refl
      · with_reducible refine Changes.next ?_ with_chain_jtag_changes (by decide)
        with_reducible exact Changes.refl
    · with_reducible refine Changes.next ?_ coldStarted_changes (by decide)
      with_reducible refine Changes.next ?_ with_power_changes (by decide)
      with_reducible refine Changes.ite_ (fun _ => ?_) (fun _ => ?_)
      · with_reducible exact Changes.refl
      · with_reducible refine Changes.next ?_ with_chain_jtag_changes (by decide)
        with_reducible exact Changes.refl

theorem runStartRetry_changes {h : Hall} {s : State} : Changes [.free, .rate, .time, .time1, .started, .aliveLevel, .moduleDown,
    .queues, .sems, .semGrp, .own, .signals, .lcores, .positions, .halls, .hubs, .ports, .jobs, .slots, .stats, .miller, .chain,
    .power, .jtag, .timeCfg, .selfTest, .mem, .memErr, .outputs, .promotes, .series, .meshFault, .resent, .leafs, .delivered] s
    (runStartRetry h s) := by
  unfold runStartRetry
  with_reducible refine Changes.ite_ (fun _ => ?_) (fun _ => ?_)
  · with_reducible refine Changes.next ?_ coldStarted_changes (by decide)
    with_reducible exact Changes.refl
  · with_reducible exact Changes.refl

theorem clearHall_changes {s : State} {h : Nat} : Changes [.queues, .own, .slots, .stats, .promotes, .leafs] s (clearHall s h) := by
  refine ⟨rfl, fun p hp => by cases p <;> first | rfl | exact absurd hp (by decide), fun c => ?_, fun l => ?_⟩
  · exact { c with
      queues := tabWf_filter (tabWf_filter c.queues _) _, own := tabWf_filter c.own _, stats := tabWf_filter c.stats _,
      leafs := tabWf_filter c.leafs _, slots := tabWf_tabMap (d := {}) c.slots fun _ x => copiedSlot h x }
  · exact { l with queues := fun x hx => l.queues x ((List.mem_filter.1 (List.mem_filter.1 hx).1).1) }


theorem takeShare_changes {s : State} {h : Nat} : Changes [.halls] s (takeShare s h) := by
  unfold takeShare
  with_reducible refine Changes.ite_ (fun _ => ?_) (fun _ => ?_)
  · with_reducible exact Changes.refl
  · with_reducible refine Changes.next ?_ (modHall_changes ?_) (by decide)
    · with_reducible exact Changes.refl
    · (intro _ h; split <;> exact h)

theorem quiesce_changes {s : State} {h : Nat} : Changes [.free, .queues, .sems, .signals, .lcores, .positions, .halls, .hubs,
    .ports, .jobs, .stats, .miller, .mem, .memErr, .outputs, .promotes, .series, .meshFault, .resent, .leafs] s (quiesce s h) := by
  unfold quiesce
  with_reducible refine Changes.foldl ?_ (fun _ _ => ?_)
  · with_reducible refine Changes.ite_ (fun _ => ?_) (fun _ => ?_)
    · with_reducible refine Changes.next ?_ endBench_changes (by decide)
      with_reducible exact Changes.refl
    · with_reducible exact Changes.refl
  · split
    · with_reducible exact Changes.refl
    · with_reducible refine Changes.next ?_ snapFail_changes (by decide)
      with_reducible exact Changes.refl

theorem resync_changes {s : State} {h : Nat} : Changes [.time, .time1] s (resync s h) := by
  unfold resync
  with_reducible refine Changes.ite_ (fun _ => ?_) (fun _ => ?_)
  · with_reducible exact Changes.refl
  · with_reducible refine Changes.ite_ (fun _ => ?_) (fun _ => ?_)
    · with_reducible refine Changes.next ?_ with_time_changes (by decide)
      with_reducible exact Changes.refl
    · with_reducible refine Changes.next ?_ with_time1_changes (by decide)
      with_reducible exact Changes.refl

theorem reloadThrough_changes {s : State} {h : Nat} {slot : Bool} {failed : Bool} : Changes [.free, .time, .time1, .queues, .sems,
    .own, .signals, .lcores, .positions, .halls, .hubs, .ports, .jobs, .slots, .stats, .miller, .mem, .memErr, .outputs, .promotes,
    .series, .meshFault, .resent, .leafs] s (reloadThrough s h slot failed) := by
  unfold reloadThrough
  extract_lets s1 back passed s2
  have h1 : Changes [.free, .time, .time1, .queues, .sems, .own, .signals, .lcores, .positions, .halls, .hubs, .ports, .jobs, .slots, .stats, .miller,
    .mem, .memErr, .outputs, .promotes, .series, .meshFault, .resent, .leafs] s s1 := quiesce_changes.mono (by decide)
  clear_value s1
  have h2 : Changes [.free, .time, .time1, .queues, .sems, .own, .signals, .lcores, .positions, .halls, .hubs, .ports, .jobs, .slots, .stats, .miller,
    .mem, .memErr, .outputs, .promotes, .series, .meshFault, .resent, .leafs] s s2 := by
    with_reducible refine Changes.next ?_ appendHeld_changes (by decide)
    exact Changes.ite_ (fun _ => h1) fun _ => h1.next takeShare_changes (by decide)
  clear_value s2
  with_reducible refine Changes.next ?_ mapHall_changes (by decide)
  with_reducible refine Changes.next ?_ trainSeam_changes (by decide)
  with_reducible refine Changes.next ?_ startEnds_changes (by decide)
  with_reducible refine Changes.next ?_ resync_changes (by decide)
  with_reducible refine Changes.next ?_ (modHall_changes ?_) (by decide)
  · with_reducible exact h2.next clearHall_changes (by decide)
  · intro hl l
    have k : HallLegal (withImage (reloadedHall hl back failed) slot false) := withImage_legal (reloadedHall_legal l)
    dsimp only
    generalize withImage (reloadedHall hl back failed) slot false = r at k ⊢
    split <;> exact k


theorem persistsH_changes {s : State} {h : Nat} : Changes [.free, .halls] s (persistsH s h).2 := by
  unfold persistsH
  split
  · with_reducible refine Changes.next ?_ stillOut_changes (by decide)
    with_reducible refine Changes.next ?_ stillOut_changes (by decide)
    with_reducible exact Changes.refl
  · with_reducible exact Changes.refl

theorem persistsM_changes {s : State} : Changes [.free, .halls] s (persistsM s).2 := by
  unfold persistsM
  with_reducible refine Changes.foldl_in Prod.snd ?_ (fun _ _ => ?_)
  · with_reducible exact Changes.refl
  · with_reducible refine Changes.next ?_ stillOut_changes (by decide)
    with_reducible exact Changes.refl

theorem comeBack_changes {s : State} {h : Nat} : Changes [.free, .moduleDown, .halls] s (comeBack s h) := by
  unfold comeBack
  with_reducible refine Changes.ite_ (fun _ => ?_) (fun _ => ?_)
  · with_reducible exact Changes.refl
  · with_reducible refine Changes.ite_ (fun _ => ?_) (fun _ => ?_)
    · with_reducible refine Changes.next ?_ (modHall_changes ?_) (by decide)
      · with_reducible refine Changes.next ?_ (modHall_changes ?_) (by decide)
        · with_reducible refine Changes.next ?_ persistsM_changes (by decide)
          with_reducible exact Changes.refl
        · exact fun _ h => h
      · exact fun _ h => h
    · with_reducible refine Changes.ite_ (fun _ => ?_) (fun _ => ?_)
      · with_reducible refine Changes.next ?_ with_moduleDown_changes (by decide)
        with_reducible refine Changes.next ?_ (modHall_changes ?_) (by decide)
        · with_reducible refine Changes.next ?_ (modHall_changes ?_) (by decide)
          · with_reducible refine Changes.next ?_ persistsM_changes (by decide)
            with_reducible exact Changes.refl
          · exact fun _ h => h
        · exact fun _ h => h
      · with_reducible refine Changes.next ?_ (modHall_changes ?_) (by decide)
        · with_reducible refine Changes.next ?_ persistsM_changes (by decide)
          with_reducible exact Changes.refl
        · exact fun _ h => h

theorem endReload_changes {s : State} {h : Nat} {slot : Bool} {status : Nat} : Changes [.halls] s (endReload s h slot status) := by
  unfold endReload
  with_reducible refine Changes.next ?_ pushEvent_changes (by decide)
  refine modHall_changes fun hl l => ?_
  dsimp only
  split
  · exact writeBoot_legal (hl := { hl with reloadStatus := status }) l
  · exact l


theorem reload_changes {s : State} {h : Nat} {slot : Bool} : Changes [.free, .time, .time1, .moduleDown, .queues, .sems, .own,
    .signals, .lcores, .positions, .halls, .hubs, .ports, .jobs, .slots, .stats, .miller, .mem, .memErr, .outputs, .promotes,
    .series, .meshFault, .resent, .leafs] s (reload s h slot) := by
  unfold reload
  generalize hp : persistsH s h = p
  have h0 : Changes [.free, .time, .time1, .moduleDown, .queues, .sems, .own, .signals, .lcores, .positions, .halls, .hubs, .ports, .jobs, .slots,
    .stats, .miller, .mem, .memErr, .outputs, .promotes, .series, .meshFault, .resent, .leafs] s (reloadThrough p.2 h slot p.1) :=
    Changes.next (hp ▸ persistsH_changes.mono (by decide)) reloadThrough_changes (by decide)
  dsimp only
  generalize reloadThrough p.2 h slot p.1 = t at h0
  generalize originNext t h 11 (seamClass t) = o
  generalize seamClass t = c
  have h1 : Changes [.free, .time, .time1, .moduleDown, .queues, .sems, .own, .signals, .lcores, .positions, .halls, .hubs, .ports, .jobs, .slots,
    .stats, .miller, .mem, .memErr, .outputs, .promotes, .series, .meshFault, .resent, .leafs] s (if c = 0 then t else raiseBoth t 11 c { code := 0x0409 }) :=
    Changes.ite_ (fun _ => h0) fun _ => h0.next raiseBoth_changes (by decide)
  generalize (if c = 0 then t else raiseBoth t 11 c { code := 0x0409 }) = u at h1 ⊢
  with_reducible refine Changes.ite_ (fun _ => ?_) (fun _ => ?_)
  · exact h1.next endReload_changes (by decide)
  · have h3 : Changes [.free, .time, .time1, .moduleDown, .queues, .sems, .own, .signals, .lcores, .positions, .halls, .hubs, .ports, .jobs, .slots,
    .stats, .miller, .mem, .memErr, .outputs, .promotes, .series, .meshFault, .resent, .leafs] s (comeBack (endReload u h slot 2) h) := by
      with_reducible refine Changes.next ?_ comeBack_changes (by decide)
      with_reducible exact Changes.next h1 endReload_changes (by decide)
    generalize comeBack (endReload u h slot 2) h = v at h3 ⊢
    exact Changes.ite_ (fun _ => h3.next applyClass_changes (by decide)) fun _ => h3


theorem runHallReload_changes {h : Hall} {v : W32} {s : State} : Changes [.free, .time, .time1, .moduleDown, .queues, .sems, .own,
    .signals, .lcores, .positions, .halls, .hubs, .ports, .jobs, .slots, .stats, .miller, .mem, .memErr, .outputs, .promotes,
    .series, .meshFault, .resent, .leafs] s (runHallReload h v s) := by
  unfold runHallReload
  with_reducible refine Changes.ite_ (fun _ => ?_) (fun _ => ?_)
  · with_reducible exact Changes.refl
  · with_reducible refine Changes.ite_ (fun _ => ?_) (fun _ => ?_)
    · with_reducible refine Changes.next ?_ (modHall_changes ?_) (by decide)
      · with_reducible exact Changes.refl
      · exact fun _ h => h
    · split
      · with_reducible refine Changes.next ?_ (modHall_changes ?_) (by decide)
        · with_reducible refine Changes.next ?_ (modHall_changes ?_) (by decide)
          · with_reducible exact Changes.refl
          · exact fun _ h => h
        · exact fun _ h => h
      · with_reducible refine Changes.next ?_ reload_changes (by decide)
        with_reducible refine Changes.next ?_ (modHall_changes ?_) (by decide)
        · with_reducible exact Changes.refl
        · exact fun _ h => h

theorem failPosition_changes {s : State} {x : Hall × Pos} : Changes [.free, .queues, .lcores, .positions, .halls, .hubs, .ports,
    .jobs, .stats, .miller, .mem, .memErr, .outputs, .promotes, .series, .meshFault, .resent, .leafs] s (failPosition s x) := by
  unfold failPosition
  with_reducible refine Changes.ite_ (fun _ => ?_) (fun _ => ?_)
  · with_reducible exact Changes.refl
  · with_reducible refine Changes.ite_ (fun _ => ?_) (fun _ => ?_)
    · with_reducible refine Changes.next ?_ endBench_changes (by decide)
      with_reducible exact Changes.refl
    · ((with_reducible conv => (arg 3; whnf)); split)
      · with_reducible refine Changes.next ?_ retirePosition_changes (by decide)
        with_reducible exact Changes.refl
      · with_reducible refine Changes.next ?_ fenceCore_changes (by decide)
        with_reducible refine Changes.next ?_ retirePosition_changes (by decide)
        with_reducible exact Changes.refl

theorem zeroAll_changes {s : State} : Changes [.positions, .hubs, .mem, .memErr] s (zeroAll s) := by
  unfold zeroAll
  refine ⟨rfl, fun p hp => by cases p <;> first | rfl | exact absurd hp (by decide), fun c => ?_, fun l => ?_⟩
  · exact { c with
      positions := by dsimp only; exact tabWf_tabMap c.positions _
      hubs := by dsimp only; exact tabWf_tabMap c.hubs _
      mem := tabWf_filter c.mem _
      memErr := tabWf_filter c.memErr _ }
  · exact { l with
      hubs := by dsimp only; exact tabMap_all l.hubs fun _ _ h => h
      positions := by dsimp only; exact tabMap_all l.positions fun _ _ _ => ⟨rfl, rfl⟩ }


theorem testPositions_changes {s : State} {failing : List (Hall × Pos)} : Changes [.free, .positions] s (testPositions s failing) :=
    by
  unfold testPositions
  with_reducible refine Changes.foldl ?_ (fun _ _ => ?_)
  · with_reducible exact Changes.refl
  · with_reducible refine Changes.ite_ (fun _ => ?_) (fun _ => ?_)
    · with_reducible exact Changes.refl
    · with_reducible refine Changes.next ?_ with_free_changes (by decide)
      with_reducible refine Changes.next ?_ (modPos_changes ?_) (by decide)
      · with_reducible exact Changes.refl
      · exact fun _ h => h

theorem testFlips_changes {s : State} : Changes [.halls, .hubs] s (testFlips s) := by
  unfold testFlips
  refine Changes.foldl ?_ fun u x => Changes.next Changes.refl (modHall_changes fun _ h => h) (by decide)
  refine ⟨rfl, fun p hp => by cases p <;> first | rfl | exact absurd hp (by decide), fun c => ?_, fun l => ?_⟩
  · exact { c with hubs := by dsimp only; exact tabWf_tabMap c.hubs _ }
  · exact { l with hubs := by dsimp only; exact tabMap_all l.hubs fun _ _ h => by split <;> exact h }


theorem failRow_changes {s : State} {x : BadRow} : Changes [.free, .positions, .halls, .hubs, .mem, .memErr] s (failRow s x) := by
  unfold failRow
  with_reducible refine Changes.ite_ (fun _ => ?_) (fun _ => ?_)
  · with_reducible exact Changes.refl
  · with_reducible refine Changes.next ?_ hardRow_changes (by decide)
    with_reducible exact Changes.refl

theorem runSelfTest_changes {found : Findings} {s : State} : Changes [.free, .queues, .lcores, .positions, .halls, .hubs, .ports,
    .jobs, .stats, .miller, .selfTest, .mem, .memErr, .outputs, .promotes, .series, .meshFault, .resent, .leafs] s (runSelfTest
    found s) := by
  unfold runSelfTest
  with_reducible refine Changes.ite_ (fun _ => ?_) (fun _ => ?_)
  · with_reducible exact Changes.refl
  · with_reducible refine Changes.ite_ (fun _ => ?_) (fun _ => ?_)
    · with_reducible refine Changes.next ?_ with_selfTest_changes (by decide)
      with_reducible exact Changes.refl
    · with_reducible refine Changes.next ?_ with_selfTest_changes (by decide)
      with_reducible refine Changes.foldl ?_ (fun _ _ => ?_)
      · with_reducible refine Changes.foldl ?_ (fun _ _ => ?_)
        · with_reducible refine Changes.foldl ?_ (fun _ _ => ?_)
          · with_reducible refine Changes.next ?_ zeroAll_changes (by decide)
            with_reducible refine Changes.next ?_ testFlips_changes (by decide)
            with_reducible refine Changes.next ?_ testPositions_changes (by decide)
            with_reducible refine Changes.next ?_ takeFree_changes (by decide)
            with_reducible exact Changes.refl
          · with_reducible refine Changes.next ?_ failPosition_changes (by decide)
            with_reducible exact Changes.refl
        · with_reducible refine Changes.next ?_ failRow_changes (by decide)
          with_reducible exact Changes.refl
      · with_reducible refine Changes.next ?_ retirePackage_changes (by decide)
        with_reducible exact Changes.refl

end Sys2Proof.Machine
end

