-- ==== Sys2Proof/Laws/ChangeChain.lean ====
section
/-! SUPPORT. What the operations of Machine/Chain may change. -/

namespace Sys2Proof.Machine

theorem sendChain_changes {s : State} {type : Byte} {f : ChainFrame} : Changes [.chain] s (sendChain s type f) := by
  unfold sendChain
  with_reducible refine Changes.next ?_ with_chain_changes (by decide)
  with_reducible exact Changes.refl

theorem respond_changes {s : State} {f : ChainFrame} {data : Nat} : Changes [.chain] s (respond s f data) := by
  unfold respond
  with_reducible refine Changes.next ?_ sendChain_changes (by decide)
  with_reducible exact Changes.refl

theorem receiveChain_changes {L : List Part} {s : State} {type : Byte} {f : ChainFrame} {act : State → State} (ha : ∀ u, Changes L u
    (act u)) (hs : Part.sub [.chain] L = true) : Changes L s (receiveChain s type f act) := by
  unfold receiveChain
  with_reducible refine Changes.ite_ (fun _ => ?_) (fun _ => ?_)
  · exact sendChain_changes.mono hs
  · with_reducible refine Changes.ite_ (fun _ => ?_) (fun _ => Changes.refl)
    exact Changes.next (with_chain_changes.mono hs) (ha _) (by simp [Part.sub])


theorem atAddress_changes {L : List Part} {s : State} {type : Byte} {f : ChainFrame} {act : State → State} (ha : ∀ u, Changes L u
    (act u)) (hs : Part.sub [.chain] L = true) : Changes L s (atAddress s type f act) := by
  unfold atAddress
  exact Changes.ite_ (fun _ => ha _) (fun _ => sendChain_changes.mono hs)


theorem chainCount_changes {f : ChainFrame} {s : State} : Changes [.chain] s (chainCount f s) := by
  unfold chainCount
  with_reducible refine Changes.next ?_ sendChain_changes (by decide)
  with_reducible refine Changes.next ?_ with_chain_changes (by decide)
  with_reducible exact Changes.refl

theorem setLfa_changes {f : ChainFrame} {s : State} : Changes [.chain] s (setLfa f s) := by
  unfold setLfa
  with_reducible refine Changes.ite_ (fun _ => ?_) (fun _ => ?_)
  · with_reducible refine Changes.next ?_ respond_changes (by decide)
    with_reducible exact Changes.refl
  · with_reducible refine Changes.next ?_ respond_changes (by decide)
    with_reducible refine Changes.next ?_ with_chain_changes (by decide)
    with_reducible exact Changes.refl

theorem chainStatusAct_changes {f : ChainFrame} {s : State} : Changes [.free, .chain] s (chainStatusAct f s) := by
  unfold chainStatusAct
  with_reducible refine Changes.next ?_ respond_changes (by decide)
  with_reducible refine Changes.next ?_ takeFree_changes (by decide)
  with_reducible exact Changes.refl

theorem chainRestartAct_changes {f : ChainFrame} {s : State} : Changes [.free, .rate, .time, .time1, .started, .aliveLevel,
    .moduleDown, .queues, .sems, .semGrp, .own, .signals, .lcores, .positions, .halls, .hubs, .ports, .jobs, .slots, .stats,
    .miller, .chain, .power, .jtag, .timeCfg, .selfTest, .mem, .memErr, .outputs, .promotes, .series, .meshFault, .resent, .leafs,
    .delivered] s (chainRestartAct f s) := by
  unfold chainRestartAct
  with_reducible refine Changes.ite_ (fun _ => ?_) (fun _ => ?_)
  · with_reducible refine Changes.next ?_ coldStarted_changes (by decide)
    with_reducible refine Changes.next ?_ with_jtag_changes (by decide)
    with_reducible refine Changes.next ?_ respond_changes (by decide)
    with_reducible exact Changes.refl
  · with_reducible refine Changes.next ?_ respond_changes (by decide)
    with_reducible exact Changes.refl

theorem chainFrame_changes {type : Byte} {f : ChainFrame} {s : State} : Changes [.free, .rate, .time, .time1, .started, .aliveLevel,
    .moduleDown, .queues, .sems, .semGrp, .own, .signals, .lcores, .positions, .halls, .hubs, .ports, .jobs, .slots, .stats,
    .miller, .chain, .power, .jtag, .timeCfg, .selfTest, .mem, .memErr, .outputs, .promotes, .series, .meshFault, .resent, .leafs,
    .delivered] s (chainFrame type f s) := by
  unfold chainFrame
  with_reducible refine Changes.ite_ (fun _ => ?_) (fun _ => ?_)
  · exact chainCount_changes.mono (by decide)
  · with_reducible refine Changes.ite_ (fun _ => ?_) (fun _ => ?_)
    · exact atAddress_changes (fun _ => setLfa_changes.mono (by decide)) (by decide)
    · with_reducible refine Changes.ite_ (fun _ => ?_) (fun _ => ?_)
      · exact atAddress_changes (fun _ => chainStatusAct_changes.mono (by decide)) (by decide)
      · with_reducible refine Changes.ite_ (fun _ => ?_) (fun _ => ?_)
        · exact atAddress_changes (fun _ => respond_changes.mono (by decide)) (by decide)
        · with_reducible refine Changes.ite_ (fun _ => ?_) (fun _ => ?_)
          · exact atAddress_changes (fun _ => chainRestartAct_changes) (by decide)
          · exact sendChain_changes.mono (by decide)


theorem runInputLost_changes {s : State} : Changes [.halls, .chain] s (runInputLost s) := by
  unfold runInputLost
  with_reducible refine Changes.ite_ (fun _ => ?_) (fun _ => ?_)
  · with_reducible refine Changes.ite_ (fun _ => ?_) (fun _ => ?_)
    · with_reducible refine Changes.next ?_ raiseBoth_changes (by decide)
      with_reducible refine Changes.next ?_ with_chain_changes (by decide)
      with_reducible exact Changes.refl
    · with_reducible refine Changes.next ?_ with_chain_changes (by decide)
      with_reducible exact Changes.refl
  · with_reducible exact Changes.refl

theorem runMgmtUp_changes {s : State} : Changes [.aliveLevel, .chain, .power, .jtag] s (runMgmtUp s) := by
  unfold runMgmtUp
  with_reducible refine Changes.ite_ (fun _ => ?_) (fun _ => ?_)
  · exact ⟨rfl, fun p hp => by cases p <;> first | rfl | exact absurd hp (by decide),
      fun c => { c with mem := c.mem }, fun l => { l with rate := l.rate }⟩
  · with_reducible exact Changes.refl


theorem runMgmtLost_changes {s : State} : Changes [.aliveLevel, .chain, .power] s (runMgmtLost s) := by
  unfold runMgmtLost
  with_reducible refine Changes.ite_ (fun _ => ?_) (fun _ => ?_)
  · exact ⟨rfl, fun p hp => by cases p <;> first | rfl | exact absurd hp (by decide),
      fun c => { c with mem := c.mem }, fun l => { l with rate := l.rate }⟩
  · with_reducible exact Changes.refl


theorem runBypass_changes {s : State} : Changes [.jtag] s (runBypass s) := by
  unfold runBypass
  with_reducible refine Changes.ite_ (fun _ => ?_) (fun _ => ?_)
  · with_reducible refine Changes.next ?_ with_jtag_changes (by decide)
    with_reducible exact Changes.refl
  · with_reducible exact Changes.refl

theorem runIdcode_changes {s : State} : Changes [.jtag] s (runIdcode s) := by
  unfold runIdcode
  with_reducible refine Changes.ite_ (fun _ => ?_) (fun _ => ?_)
  · with_reducible refine Changes.next ?_ with_jtag_changes (by decide)
    with_reducible exact Changes.refl
  · with_reducible exact Changes.refl

theorem runSample_changes {u : ScanUse} {s : State} : Changes [.free, .jtag] s (runSample u s) := by
  unfold runSample
  with_reducible refine Changes.ite_ (fun _ => ?_) (fun _ => ?_)
  · split
    · with_reducible refine Changes.next ?_ with_jtag_changes (by decide)
      with_reducible exact Changes.refl
    · with_reducible refine Changes.next ?_ with_jtag_changes (by decide)
      with_reducible refine Changes.next ?_ takeFree_changes (by decide)
      with_reducible exact Changes.refl
  · with_reducible exact Changes.refl

theorem drivePins_changes {s : State} : Changes [.free, .time, .time1, .queues, .sems, .signals, .lcores, .positions, .halls, .hubs,
    .ports, .jobs, .stats, .jtag, .timeCfg, .mem, .memErr, .outputs, .promotes, .series, .meshFault, .resent, .leafs] s (drivePins
    s) := by
  unfold drivePins
  with_reducible refine Changes.ite_ (fun _ => ?_) (fun _ => ?_)
  · with_reducible exact Changes.refl
  · with_reducible refine Changes.foldl ?_ (fun _ _ => ?_)
    · with_reducible refine Changes.next ?_ dropLink_changes (by decide)
      with_reducible refine Changes.next ?_ dropLink_changes (by decide)
      with_reducible refine Changes.next ?_ with_jtag_changes (by decide)
      with_reducible exact Changes.refl
    · with_reducible refine Changes.next ?_ portDown_changes (by decide)
      with_reducible exact Changes.refl

theorem runScan_changes {ir : JtagIr} {s : State} : Changes [.free, .time, .time1, .queues, .sems, .signals, .lcores, .positions,
    .halls, .hubs, .ports, .jobs, .stats, .jtag, .timeCfg, .mem, .memErr, .outputs, .promotes, .series, .meshFault, .resent, .leafs]
    s (runScan ir s) := by
  unfold runScan
  with_reducible refine Changes.ite_ (fun _ => ?_) (fun _ => ?_)
  · with_reducible exact Changes.refl
  · with_reducible refine Changes.ite_ (fun _ => ?_) (fun _ => ?_)
    · with_reducible refine Changes.next ?_ with_jtag_changes (by decide)
      with_reducible exact Changes.refl
    · with_reducible refine Changes.next ?_ drivePins_changes (by decide)
      with_reducible refine Changes.next ?_ with_jtag_changes (by decide)
      with_reducible exact Changes.refl

theorem runTrst_changes {s : State} : Changes [.jtag] s (runTrst s) := by
  unfold runTrst
  with_reducible refine Changes.ite_ (fun _ => ?_) (fun _ => ?_)
  · with_reducible refine Changes.next ?_ with_jtag_changes (by decide)
    with_reducible exact Changes.refl
  · with_reducible exact Changes.refl

end Sys2Proof.Machine
end

