-- ==== Sys2Proof/Laws/ChangeLoom.lean ====
section
/-! SUPPORT. What the operations of Machine/Loom may change. -/

namespace Sys2Proof.Machine

theorem readPanels_changes {s : State} {p : Nat} {size : Nat} {l : List Nat} : Changes [.free, .positions, .halls] s (readPanels s p
    size l).1 := by
  induction l generalizing s p size with
  | nil => exact Changes.refl
  | cons z r ih =>
  unfold readPanels
  with_reducible refine Changes.next ?_ (ih) (by decide)
  with_reducible refine Changes.next ?_ storeRead_changes (by decide)
  with_reducible exact Changes.refl

theorem stagePlane_changes {s : State} {p : Nat} {c : BitVec 512} : Changes [.free, .positions, .halls] s (stagePlane s p c).1 := by
  unfold stagePlane
  (dsimp only; split)
  · with_reducible refine Changes.next ?_ readPanels_changes (by decide)
    with_reducible exact Changes.refl
  · with_reducible refine Changes.next ?_ readPanels_changes (by decide)
    with_reducible exact Changes.refl

theorem runLoadw_changes {n : Core} {s : State} : Changes [.free, .queues, .signals, .lcores, .positions, .halls, .hubs, .ports,
    .jobs, .slots, .stats, .mem, .memErr, .outputs, .promotes, .series, .meshFault, .resent, .leafs] s (runLoadw n s) := by
  unfold runLoadw
  with_reducible refine Changes.ite_ (fun _ => ?_) (fun _ => ?_)
  · with_reducible exact Changes.refl
  · split
    · with_reducible refine Changes.next ?_ advance_changes (by decide)
      with_reducible refine Changes.next ?_ (modQueue_changes ?_) (by decide)
      · with_reducible refine Changes.next ?_ stagePlane_changes (by decide)
        with_reducible exact Changes.refl
      · exact fun _ h => h
    · with_reducible exact Changes.refl

theorem flipCopy_changes {s : State} {p : Nat} {pl : Plane} : Changes [.free, .positions, .halls] s (flipCopy s p pl).2 := by
  unfold flipCopy
  (dsimp only; split)
  · with_reducible refine Changes.next ?_ (modPos_changes ?_) (by decide)
    · with_reducible exact Changes.refl
    · exact fun _ h => h
  · with_reducible exact Changes.refl

theorem runLoadwWrite_changes {n : Core} {s : State} : Changes [.free, .queues, .signals, .lcores, .positions, .halls, .hubs,
    .ports, .jobs, .slots, .stats, .mem, .memErr, .outputs, .promotes, .series, .meshFault, .resent, .leafs] s (runLoadwWrite n s)
    := by
  unfold runLoadwWrite
  ((with_reducible conv => (arg 3; whnf)); split)
  · split
    · with_reducible exact Changes.refl
    · split
      · with_reducible refine Changes.next ?_ endPoison_changes (by decide)
        with_reducible refine Changes.next ?_ modCore_changes (by decide)
        with_reducible exact Changes.refl
      · with_reducible refine Changes.next ?_ completeDone_changes (by decide)
        with_reducible refine Changes.next ?_ modCore_changes (by decide)
        with_reducible refine Changes.next ?_ flipCopy_changes (by decide)
        with_reducible exact Changes.refl
  · with_reducible exact Changes.refl

theorem readActs_changes {s : State} {p : Nat} {o : MatOps} {idx : List Nat} : Changes [.positions, .halls] s (readActs s p o idx).1
    := by
  induction idx generalizing s p o with
  | nil => exact Changes.refl
  | cons z r ih =>
  unfold readActs
  with_reducible refine Changes.next ?_ (ih) (by decide)
  split
  · with_reducible refine Changes.next ?_ readA8_changes (by decide)
    with_reducible exact Changes.refl
  · with_reducible refine Changes.next ?_ readFloats_changes (by decide)
    with_reducible exact Changes.refl

theorem flipAcc_changes {s : State} {p : Nat} {rows : List (List AccEl)} : Changes [.free, .positions] s (flipAcc s p rows).1 := by
  unfold flipAcc
  ((with_reducible conv => (arg 3; whnf)); split)
  · (dsimp only; split)
    · with_reducible exact Changes.refl
    · with_reducible refine Changes.next ?_ (modPos_changes ?_) (by decide)
      · split
        · with_reducible exact Changes.refl
        · with_reducible refine Changes.next ?_ takeFree_changes (by decide)
          with_reducible refine Changes.next ?_ takeFree_changes (by decide)
          with_reducible exact Changes.refl
      · exact fun _ h => h
  · with_reducible exact Changes.refl

theorem readAccEl_changes {s : State} {p : Nat} {e : AccEl} : Changes [.positions, .halls] s (readAccEl s p e).1 := by
  unfold readAccEl
  split
  · with_reducible exact Changes.refl
  · split
    · with_reducible refine Changes.next ?_ raiseQuiet_changes (by decide)
      with_reducible refine Changes.next ?_ (modPos_changes ?_) (by decide)
      · with_reducible exact Changes.refl
      · exact fun _ h => h
    · with_reducible refine Changes.next ?_ raiseEngineUe_changes (by decide)
      with_reducible refine Changes.next ?_ (modPos_changes ?_) (by decide)
      · with_reducible exact Changes.refl
      · exact fun _ h => h

theorem readAccRow_changes {s : State} {p : Nat} {l : List AccEl} : Changes [.positions, .halls] s (readAccRow s p l).1 := by
  induction l generalizing s p with
  | nil => exact Changes.refl
  | cons z r ih =>
  unfold readAccRow
  with_reducible refine Changes.next ?_ (ih) (by decide)
  with_reducible refine Changes.next ?_ readAccEl_changes (by decide)
  with_reducible exact Changes.refl

theorem readAccRows_changes {s : State} {p : Nat} {l : List (List AccEl)} : Changes [.positions, .halls] s (readAccRows s p l).1 :=
    by
  induction l generalizing s p with
  | nil => exact Changes.refl
  | cons z r ih =>
  unfold readAccRows
  with_reducible refine Changes.next ?_ (ih) (by decide)
  with_reducible refine Changes.next ?_ readAccRow_changes (by decide)
  with_reducible exact Changes.refl

theorem runPass_changes {s : State} {p : Nat} {pl : Plane} {o : MatOps} {path : Nat} {acc : Acc} {idx : List Nat} {out : List (List
    Bool)} : Changes [.free, .positions, .halls] s (runPass s p pl o path acc idx out).st := by
  unfold runPass
  with_reducible refine Changes.next ?_ (modPos_changes ?_) (by decide)
  · with_reducible refine Changes.next ?_ takeFree_changes (by decide)
    with_reducible refine Changes.next ?_ (modPos_changes ?_) (by decide)
    · with_reducible refine Changes.next ?_ flipAcc_changes (by decide)
      with_reducible refine Changes.next ?_ readAccRows_changes (by decide)
      with_reducible refine Changes.next ?_ readActs_changes (by decide)
      with_reducible exact Changes.refl
    · exact fun _ h => h
  · exact fun _ h => h

end Sys2Proof.Machine
end

