-- ==== Sys2Proof/Laws/ChangeDrain.lean ====
section
/-! SUPPORT. What the operations of Machine/Drain may change. -/

namespace Sys2Proof.Machine

theorem endMatrix_then {L : List Part} {s t : State} {k p : Nat} {c : InFlight} {path : Nat} {makeup : Bool} {w : Trouble}
    {done : State → State} (h : Changes L s t) (hd : Changes L t (done t))
    (hs : Part.sub [.free, .queues, .signals, .lcores, .positions, .halls, .hubs, .ports, .jobs, .stats, .mem, .memErr, .outputs, .promotes, .series,
      .meshFault, .resent, .leafs] L = true) :
    Changes L s (endMatrix t k p c path makeup w done) := by
  unfold endMatrix
  split
  · exact h.next hd (by simp [Part.sub])
  · exact h.next (endPoison_changes.mono (by decide)) hs
  · exact h.next ((raiseAssay_changes.mono (by decide)).next endAssay_changes (by decide)) hs
  · next v _ _ =>
    dsimp only
    refine h.next ?_ hs
    refine Changes.next (Changes.next (Changes.mono (M := [.free, .positions, .halls]) (Changes.ite_ (fun _ => ?_) fun _ => ?_) (by decide))
      endAssay_changes (by decide)) killJob_changes (by decide)
    · exact Changes.next (Changes.ite_ (fun _ => raiseAssay_changes) fun _ => Changes.refl) raiseQueue_changes (by decide)
    · exact Changes.next (Changes.next (Changes.ite_ (fun _ => raiseAssay_changes) fun _ => Changes.refl) raiseQueue_changes (by decide))
        raiseAssay_changes (by decide)

theorem readFused_changes {s : State} {p : Nat} {o : MatOps} {idx : List Nat} : Changes [.positions, .halls] s (readFused s p o
    idx).1 := by
  induction idx generalizing s p o with
  | nil => exact Changes.refl
  | cons z r ih =>
  unfold readFused
  with_reducible refine Changes.next ?_ (ih) (by decide)
  with_reducible refine Changes.next ?_ readRow_changes (by decide)
  with_reducible exact Changes.refl

theorem finishAll_changes {s : State} {p : Nat} {path : Nat} {o : MatOps} {pl : Plane} {acc : Acc} {idx : List Nat} : Changes
    [.positions, .halls] s (finishAll s p path o pl acc idx).st := by
  unfold finishAll
  with_reducible refine Changes.next ?_ readAccRows_changes (by decide)
  split
  · with_reducible refine Changes.next ?_ readFloats_changes (by decide)
    split
    · with_reducible exact Changes.refl
    · with_reducible refine Changes.next ?_ readFused_changes (by decide)
      with_reducible exact Changes.refl
  · split
    · with_reducible exact Changes.refl
    · with_reducible refine Changes.next ?_ readFused_changes (by decide)
      with_reducible exact Changes.refl

theorem noteLog_changes {s : State} {n : Nat} {p : Nat} {c : InFlight} {t : Int} {acc : Acc} {fin : List (List OutEl)} : Changes
    [.lcores, .positions] s (noteLog s n p c t acc fin) := by
  unfold noteLog
  ((with_reducible conv => (arg 3; whnf)); split)
  · with_reducible exact Changes.refl
  · with_reducible refine Changes.ite_ (fun _ => ?_) (fun _ => ?_)
    · with_reducible refine Changes.next ?_ modCore_changes (by decide)
      with_reducible exact Changes.refl
    · with_reducible refine Changes.next ?_ storeWrite_changes (by decide)
      with_reducible refine Changes.next ?_ storeWrite_changes (by decide)
      with_reducible refine Changes.next ?_ modCore_changes (by decide)
      with_reducible exact Changes.refl

theorem drainCounts_changes {s : State} {p : Nat} {sat : Nat} {tiles : Nat} : Changes [.positions] s (drainCounts s p sat tiles) :=
    by
  unfold drainCounts
  with_reducible refine Changes.next ?_ (modPos_changes ?_) (by decide)
  · with_reducible exact Changes.refl
  · exact fun _ h => h

theorem matOutput_changes {s : State} {p : Nat} {c : InFlight} {o : MatOps} {path : Nat} {pl : Plane} {pr : PassRes} {g : Option
    Gating} : Changes [.positions, .halls] s (matOutput s p c o path pl pr g).st := by
  unfold matOutput
  with_reducible refine Changes.next ?_ finishAll_changes (by decide)
  with_reducible exact Changes.refl

theorem faultOutput_changes {s : State} {n : Nat} {p : Nat} {c : InFlight} {o : MatOps} {m : MatOutput} {exact : Bool} {stopped :
    Bool} : Changes [.free, .positions, .halls, .slots, .stats] s (faultOutput s n p c o m exact stopped) := by
  unfold faultOutput
  with_reducible refine Changes.next ?_ drainCounts_changes (by decide)
  with_reducible refine Changes.next ?_ takeFree_changes (by decide)
  with_reducible refine Changes.next ?_ takeFree_changes (by decide)
  with_reducible refine Changes.next ?_ sealReports_changes (by decide)
  with_reducible refine Changes.next ?_ freeSome_changes (by decide)
  with_reducible refine Changes.next ?_ putPieces_changes (by decide)
  with_reducible refine Changes.next ?_ putPartial_changes (by decide)
  with_reducible exact Changes.refl

theorem finishMatrix_changes {s : State} {n : Nat} {p : Nat} {c : InFlight} {o : MatOps} {path : Nat} {pl : Plane} {pr : PassRes} {g
    : Option Gating} {fail : Option (Verdict × Bool)} : Changes [.free, .queues, .signals, .lcores, .positions, .halls, .hubs,
    .ports, .jobs, .slots, .stats, .mem, .memErr, .outputs, .promotes, .series, .meshFault, .resent, .leafs] s (finishMatrix s n p c
    o path pl pr g fail) := by
  unfold finishMatrix
  with_reducible refine endMatrix_then ?_ ?_ (by decide)
  · with_reducible refine Changes.ite_ (fun _ => ?_) (fun _ => ?_)
    · with_reducible refine Changes.next ?_ faultOutput_changes (by decide)
      with_reducible refine Changes.next ?_ takeFree_changes (by decide)
      with_reducible refine Changes.next ?_ matOutput_changes (by decide)
      with_reducible exact Changes.refl
    · with_reducible refine Changes.next ?_ sealReports_changes (by decide)
      with_reducible refine Changes.next ?_ drainCounts_changes (by decide)
      with_reducible refine Changes.next ?_ putPieces_changes (by decide)
      with_reducible refine Changes.next ?_ matOutput_changes (by decide)
      with_reducible exact Changes.refl
  · with_reducible refine Changes.next ?_ completeDone_changes (by decide)
    with_reducible refine Changes.ite_ (fun _ => ?_) (fun _ => ?_)
    · with_reducible refine Changes.next ?_ noteLog_changes (by decide)
      with_reducible refine Changes.next ?_ modCore_changes (by decide)
      with_reducible exact Changes.refl
    · with_reducible refine Changes.next ?_ modCore_changes (by decide)
      with_reducible exact Changes.refl

theorem runMatrix_changes {op : Nat} {n : Nat} {s : State} : Changes [.free, .queues, .signals, .lcores, .positions, .halls, .hubs,
    .ports, .jobs, .slots, .stats, .mem, .memErr, .outputs, .promotes, .series, .meshFault, .resent, .leafs] s (runMatrix op n s) :=
    by
  unfold runMatrix
  ((with_reducible conv => (arg 3; whnf)); split)
  · ((with_reducible conv => (arg 3; whnf)); split)
    · with_reducible refine Changes.ite_ (fun _ => ?_) (fun _ => ?_)
      · with_reducible refine Changes.next ?_ finishMatrix_changes (by decide)
        with_reducible refine Changes.ite_ (fun _ => ?_) (fun _ => ?_)
        · with_reducible refine Changes.next ?_ modCore_changes (by decide)
          with_reducible refine Changes.next ?_ assay_changes (by decide)
          with_reducible refine Changes.next ?_ runPass_changes (by decide)
          with_reducible exact Changes.refl
        · with_reducible refine Changes.next ?_ assay_changes (by decide)
          with_reducible refine Changes.next ?_ runPass_changes (by decide)
          with_reducible exact Changes.refl
      · with_reducible refine endMatrix_then ?_ ?_ (by decide)
        · with_reducible refine Changes.ite_ (fun _ => ?_) (fun _ => ?_)
          · with_reducible refine Changes.next ?_ modCore_changes (by decide)
            with_reducible refine Changes.next ?_ assay_changes (by decide)
            with_reducible refine Changes.next ?_ runPass_changes (by decide)
            with_reducible exact Changes.refl
          · with_reducible refine Changes.next ?_ assay_changes (by decide)
            with_reducible refine Changes.next ?_ runPass_changes (by decide)
            with_reducible exact Changes.refl
        · with_reducible refine Changes.next ?_ completeDone_changes (by decide)
          with_reducible refine Changes.ite_ (fun _ => ?_) (fun _ => ?_)
          · with_reducible refine Changes.next ?_ noteLog_changes (by decide)
            with_reducible refine Changes.next ?_ modCore_changes (by decide)
            with_reducible exact Changes.refl
          · with_reducible refine Changes.next ?_ modCore_changes (by decide)
            with_reducible exact Changes.refl
    · with_reducible exact Changes.refl
  · with_reducible exact Changes.refl

end Sys2Proof.Machine
end

