-- ==== Sys2Proof/Laws/ChangeFec.lean ====
section
/-! SUPPORT. What the operations of Machine/Fec may change. -/

namespace Sys2Proof.Machine


end Sys2Proof.Machine
end

