-- ==== Sys2Proof/Laws/ChangeFuller.lean ====
section
/-! SUPPORT. What the operations of Machine/Fuller may change. -/

namespace Sys2Proof.Machine

theorem FRun.flipVec_changes {r : FRun} {d : Nat} {wr : Nat → Bool} {l : List VEl} : Changes [.free, .positions] r.st (FRun.flipVec
    r d wr l).2.st := by
  unfold FRun.flipVec
  ((with_reducible conv => (arg 3; whnf)); split)
  · with_reducible exact Changes.refl
  · (dsimp only; split)
    · with_reducible exact Changes.refl
    · split
      · with_reducible refine Changes.next ?_ (modPos_changes ?_) (by decide)
        · split
          · with_reducible exact Changes.refl
          · with_reducible refine Changes.next ?_ takeFree_changes (by decide)
            with_reducible exact Changes.refl
        · exact fun _ h => h
      · with_reducible refine Changes.next ?_ (modPos_changes ?_) (by decide)
        · split
          · with_reducible exact Changes.refl
          · with_reducible refine Changes.next ?_ takeFree_changes (by decide)
            with_reducible exact Changes.refl
        · exact fun _ h => h
      · with_reducible refine Changes.next ?_ (modPos_changes ?_) (by decide)
        · split
          · with_reducible exact Changes.refl
          · with_reducible refine Changes.next ?_ takeFree_changes (by decide)
            with_reducible exact Changes.refl
        · exact fun _ h => h

theorem FRun.setVec_changes {r : FRun} {x : FInst} {new : List VEl} : Changes [.free, .positions] r.st (FRun.setVec r x new).st :=
    by
  unfold FRun.setVec
  with_reducible refine Changes.next ?_ FRun.flipVec_changes (by decide)
  with_reducible exact Changes.refl

theorem FRun.setMask_changes {r : FRun} {x : FInst} {new : List Bool} : Changes [] r.st (FRun.setMask r x new).st := by
  unfold FRun.setMask
  with_reducible exact Changes.refl

theorem FRun.putMask_changes {r : FRun} {x : FInst} {new : List Bool} : Changes [] r.st (FRun.putMask r x new).st := by
  unfold FRun.putMask
  with_reducible exact Changes.refl

theorem loadEl_changes {s : State} {p : Nat} {f : Nat} {t : Int} {a : Int} {j : Nat} : Changes [.free, .positions, .halls] s (loadEl
    s p f t a j).1 := by
  unfold loadEl
  split
  · split
    · with_reducible exact Changes.refl
    · with_reducible refine Changes.next ?_ storeRead_changes (by decide)
      with_reducible refine Changes.next ?_ storeRead_changes (by decide)
      with_reducible exact Changes.refl
  · split
    · (dsimp only; split)
      · with_reducible exact Changes.refl
      · with_reducible refine Changes.next ?_ storeRead_changes (by decide)
        with_reducible exact Changes.refl
    · (dsimp only; split)
      · with_reducible exact Changes.refl
      · with_reducible refine Changes.next ?_ storeRead_changes (by decide)
        with_reducible exact Changes.refl

theorem loadEls_changes {s : State} {p : Nat} {f : Nat} {t : Int} {a : Int} {act : Nat → Bool} {n : Nat} {j : Nat} : Changes [.free,
    .positions, .halls] s (loadEls s p f t a act n j).st := by
  induction n generalizing s p f t a act j with
  | zero => exact Changes.refl
  | succ n ih =>
  unfold loadEls
  split
  · (dsimp only; split)
    · with_reducible refine Changes.next ?_ loadEl_changes (by decide)
      with_reducible exact Changes.refl
    · with_reducible refine Changes.next ?_ (ih) (by decide)
      with_reducible refine Changes.next ?_ loadEl_changes (by decide)
      with_reducible exact Changes.refl
  · (dsimp only; split)
    · with_reducible exact Changes.refl
    · with_reducible refine Changes.next ?_ (ih) (by decide)
      with_reducible exact Changes.refl

theorem noteStored_changes {r : FRun} {i : Nat} {inst : Nat} {f : Nat} {l : List StoreEl} : Changes [] r.st (noteStored r i inst f
    l).st := by
  unfold noteStored
  split
  · with_reducible exact Changes.refl
  · with_reducible exact Changes.refl

theorem FRun.write_changes {r : FRun} {l : List (Int × List Byte)} {poison : Bool} : Changes [.positions] r.st (FRun.write r l
    poison).1.st := by
  unfold FRun.write
  with_reducible refine Changes.ite_ (fun _ => ?_) (fun _ => ?_)
  · with_reducible exact Changes.refl
  · with_reducible refine Changes.next ?_ putPieces_changes (by decide)
    with_reducible exact Changes.refl

theorem FRun.store_changes {r : FRun} {i : Nat} {inst : Nat} {f : Nat} {slot : Nat} {t : Int} {a : Int} {l : List StoreEl} : Changes
    [.positions] r.st (FRun.store r i inst f slot t a l).st := by
  unfold FRun.store
  split
  · (dsimp only; split)
    · with_reducible refine Changes.next ?_ FRun.write_changes (by decide)
      with_reducible exact Changes.refl
    · ((with_reducible conv => (arg 3; whnf)); split)
      · with_reducible refine Changes.next ?_ FRun.write_changes (by decide)
        with_reducible exact Changes.refl
      · with_reducible refine Changes.next ?_ noteStored_changes (by decide)
        with_reducible refine Changes.next ?_ FRun.write_changes (by decide)
        with_reducible exact Changes.refl
  · (dsimp only; split)
    · with_reducible refine Changes.next ?_ FRun.write_changes (by decide)
      with_reducible exact Changes.refl
    · ((with_reducible conv => (arg 3; whnf)); split)
      · with_reducible refine Changes.next ?_ FRun.write_changes (by decide)
        with_reducible exact Changes.refl
      · with_reducible refine Changes.next ?_ noteStored_changes (by decide)
        with_reducible refine Changes.next ?_ FRun.write_changes (by decide)
        with_reducible exact Changes.refl

theorem FRun.reduce_changes {r : FRun} {e : FEnv} {x : FInst} : Changes [.free, .positions] r.st (FRun.reduce r e x).st := by
  unfold FRun.reduce
  (dsimp only; split)
  · with_reducible exact Changes.refl
  · with_reducible refine Changes.next ?_ FRun.setVec_changes (by decide)
    with_reducible exact Changes.refl

theorem FRun.compareOp_changes {r : FRun} {e : FEnv} {x : FInst} {i : Nat} : Changes [] r.st (FRun.compareOp r e x i).st := by
  unfold FRun.compareOp
  (dsimp only; split)
  · with_reducible exact Changes.refl
  · with_reducible refine Changes.next ?_ FRun.setMask_changes (by decide)
    with_reducible exact Changes.refl

theorem FRun.aluOp_changes {r : FRun} {e : FEnv} {x : FInst} {i : Nat} : Changes [.free, .positions] r.st (FRun.aluOp r e x i).st :=
    by
  unfold FRun.aluOp
  with_reducible refine Changes.next ?_ FRun.setVec_changes (by decide)
  with_reducible exact Changes.refl

theorem FRun.maskOp_changes {r : FRun} {e : FEnv} {x : FInst} : Changes [] r.st (FRun.maskOp r e x).st := by
  unfold FRun.maskOp
  with_reducible refine Changes.next ?_ FRun.putMask_changes (by decide)
  with_reducible exact Changes.refl

theorem FRun.load_changes {r : FRun} {e : FEnv} {x : FInst} {i : Nat} : Changes [.free, .positions, .halls] r.st (FRun.load r e x
    i).st := by
  unfold FRun.load
  (dsimp only; split)
  · with_reducible refine Changes.next ?_ loadEls_changes (by decide)
    with_reducible exact Changes.refl
  · with_reducible refine Changes.next ?_ FRun.setVec_changes (by decide)
    with_reducible refine Changes.next ?_ loadEls_changes (by decide)
    with_reducible exact Changes.refl

theorem FRun.storeOp_changes {r : FRun} {e : FEnv} {x : FInst} {i : Nat} {inst : Nat} : Changes [.positions, .halls, .slots] r.st
    (FRun.storeOp r e x i inst).st := by
  unfold FRun.storeOp
  split
  · split
    · with_reducible refine Changes.next ?_ FRun.store_changes (by decide)
      split
      · split
        · with_reducible exact Changes.refl
        · with_reducible refine Changes.next ?_ readSlotIn_changes (by decide)
          with_reducible exact Changes.refl
      · split
        · with_reducible exact Changes.refl
        · with_reducible refine Changes.next ?_ readSlotIn_changes (by decide)
          with_reducible exact Changes.refl
    · split
      · with_reducible refine Changes.next ?_ FRun.store_changes (by decide)
        split
        · split
          · with_reducible exact Changes.refl
          · with_reducible refine Changes.next ?_ readSlotIn_changes (by decide)
            with_reducible exact Changes.refl
        · split
          · with_reducible exact Changes.refl
          · with_reducible refine Changes.next ?_ readSlotIn_changes (by decide)
            with_reducible exact Changes.refl
      · with_reducible refine Changes.next ?_ FRun.store_changes (by decide)
        split
        · split
          · with_reducible exact Changes.refl
          · with_reducible refine Changes.next ?_ readSlotIn_changes (by decide)
            with_reducible exact Changes.refl
        · split
          · with_reducible exact Changes.refl
          · with_reducible refine Changes.next ?_ readSlotIn_changes (by decide)
            with_reducible exact Changes.refl
  · split
    · with_reducible refine Changes.next ?_ FRun.store_changes (by decide)
      split
      · split
        · with_reducible exact Changes.refl
        · with_reducible refine Changes.next ?_ readSlotIn_changes (by decide)
          with_reducible exact Changes.refl
      · split
        · with_reducible exact Changes.refl
        · with_reducible refine Changes.next ?_ readSlotIn_changes (by decide)
          with_reducible exact Changes.refl
    · split
      · with_reducible refine Changes.next ?_ FRun.store_changes (by decide)
        split
        · split
          · with_reducible exact Changes.refl
          · with_reducible refine Changes.next ?_ readSlotIn_changes (by decide)
            with_reducible exact Changes.refl
        · split
          · with_reducible exact Changes.refl
          · with_reducible refine Changes.next ?_ readSlotIn_changes (by decide)
            with_reducible exact Changes.refl
      · with_reducible refine Changes.next ?_ FRun.store_changes (by decide)
        split
        · split
          · with_reducible exact Changes.refl
          · with_reducible refine Changes.next ?_ readSlotIn_changes (by decide)
            with_reducible exact Changes.refl
        · split
          · with_reducible exact Changes.refl
          · with_reducible refine Changes.next ?_ readSlotIn_changes (by decide)
            with_reducible exact Changes.refl

theorem FRun.readFlaw_changes {r : FRun} {x : FInst} {i : Nat} : Changes [.positions, .halls] r.st (FRun.readFlaw r x i).st := by
  unfold FRun.readFlaw
  ((with_reducible conv => (arg 3; whnf)); split)
  · with_reducible exact Changes.refl
  · split
    · with_reducible exact Changes.refl
    · split
      · with_reducible refine Changes.next ?_ raiseQuiet_changes (by decide)
        with_reducible refine Changes.next ?_ (modPos_changes ?_) (by decide)
        · with_reducible exact Changes.refl
        · exact fun _ h => h
      · with_reducible refine Changes.next ?_ raiseEngineUe_changes (by decide)
        with_reducible refine Changes.next ?_ (modPos_changes ?_) (by decide)
        · with_reducible exact Changes.refl
        · exact fun _ h => h

theorem FRun.issue_changes {r : FRun} {vl : Nat} {x : FInst} : Changes [] r.st (FRun.issue r vl x).st := by
  unfold FRun.issue
  with_reducible exact Changes.refl

theorem fExecute_changes {e : FEnv} {i : Nat} {r : FRun} {inst : Nat} {x : FInst} : Changes [.free, .positions, .halls, .slots] r.st
    (fExecute e i r inst x).st := by
  unfold fExecute
  split
  · with_reducible exact Changes.refl
  · split
    · with_reducible refine Changes.next ?_ FRun.setVec_changes (by decide)
      with_reducible exact Changes.refl
    · split
      · with_reducible refine Changes.next ?_ FRun.setVec_changes (by decide)
        with_reducible exact Changes.refl
      · split
        · with_reducible refine Changes.next ?_ FRun.setVec_changes (by decide)
          with_reducible exact Changes.refl
        · split
          · with_reducible refine Changes.next ?_ FRun.aluOp_changes (by decide)
            with_reducible exact Changes.refl
          · split
            · with_reducible refine Changes.next ?_ FRun.compareOp_changes (by decide)
              with_reducible exact Changes.refl
            · split
              · with_reducible refine Changes.next ?_ FRun.maskOp_changes (by decide)
                with_reducible exact Changes.refl
              · split
                · with_reducible refine Changes.next ?_ FRun.reduce_changes (by decide)
                  with_reducible exact Changes.refl
                · split
                  · with_reducible refine Changes.next ?_ FRun.load_changes (by decide)
                    with_reducible exact Changes.refl
                  · split
                    · with_reducible refine Changes.next ?_ FRun.storeOp_changes (by decide)
                      with_reducible exact Changes.refl
                    · with_reducible exact Changes.refl

theorem fStep_changes {e : FEnv} {i : Nat} {r : FRun} {inst : Nat} {x : FInst} : Changes [.free, .positions, .halls, .slots] r.st
    (fStep e i r inst x).st := by
  unfold fStep
  split
  · with_reducible exact Changes.refl
  · with_reducible refine Changes.next ?_ fExecute_changes (by decide)
    with_reducible refine Changes.next ?_ FRun.issue_changes (by decide)
    with_reducible refine Changes.next ?_ FRun.readFlaw_changes (by decide)
    with_reducible exact Changes.refl

theorem fProgram_changes {e : FEnv} {i : Nat} {j : Nat} {r : FRun} {l : List FInst} : Changes [.free, .positions, .halls, .slots]
    r.st (fProgram e i j r l).st := by
  induction l generalizing e i j r with
  | nil => exact Changes.refl
  | cons z r ih =>
  unfold fProgram
  with_reducible refine Changes.next ?_ (ih) (by decide)
  with_reducible refine Changes.next ?_ fStep_changes (by decide)
  with_reducible exact Changes.refl

theorem fIterate_changes {e : FEnv} {l : List FInst} {n : Nat} {i : Nat} {r : FRun} : Changes [.free, .positions, .halls, .slots]
    r.st (fIterate e l n i r).st := by
  induction n generalizing e l i r with
  | zero => exact Changes.refl
  | succ n ih =>
  unfold fIterate
  split
  · with_reducible exact Changes.refl
  · with_reducible refine Changes.next ?_ (ih) (by decide)
    with_reducible refine Changes.next ?_ fProgram_changes (by decide)
    with_reducible exact Changes.refl

theorem endFulProt_changes {s : State} {k : Nat} {c : InFlight} {va : Nat} : Changes [.free, .queues, .signals, .lcores, .positions,
    .halls, .hubs, .ports, .jobs, .stats, .mem, .memErr, .outputs, .promotes, .series, .meshFault, .resent, .leafs] s (endFulProt s
    k c va) := by
  unfold endFulProt
  with_reducible refine Changes.next ?_ completeFault_changes (by decide)
  with_reducible refine Changes.next ?_ raiseQueue_changes (by decide)
  with_reducible exact Changes.refl

theorem sealEach_changes {s : State} {h : Nat} {j : Nat} {l : List (Nat × BlockReport)} : Changes [.free, .halls, .slots, .stats] s
    (sealEach s h j l) := by
  unfold sealEach
  with_reducible refine Changes.foldl ?_ (fun _ _ => ?_)
  · with_reducible exact Changes.refl
  · with_reducible refine Changes.next ?_ sealReports_changes (by decide)
    with_reducible exact Changes.refl

theorem fulRun_changes {s : State} {p : Nat} {c : InFlight} : Changes [.free, .positions, .halls, .slots] s (fulRun s p c).st := by
  unfold fulRun
  (dsimp only; split)
  · with_reducible refine Changes.next ?_ storeRead_changes (by decide)
    with_reducible refine Changes.next ?_ storeRead_changes (by decide)
    with_reducible exact Changes.refl
  · with_reducible refine Changes.next ?_ fIterate_changes (by decide)
    with_reducible refine Changes.next ?_ storeRead_changes (by decide)
    with_reducible refine Changes.next ?_ storeRead_changes (by decide)
    with_reducible exact Changes.refl

/-- R75: what a FUL.RUN that ends with a fault leaves, where the position was legal before it ran. -/
theorem faultFul_then {L : List Part} {s t : State} {n p : Nat} {c : InFlight} {r : FRun} (h : Changes L t r.st)
    (hw : Legal t → PosLegal (getPos s p)) (hs : Part.sub [.free, .positions, .halls, .slots, .stats] L = true) :
    Changes L t (faultFul s n p c r) := by
  unfold faultFul
  have hp : Part.sub [.free, .positions] L = true := by
    simp only [Part.sub, List.all_cons, List.all_nil, Bool.and_true, Bool.and_eq_true] at hs ⊢
    exact ⟨hs.1, hs.2.1⟩
  have hf : Part.sub [.free] L = true := by
    simp only [Part.sub, List.all_cons, List.all_nil, Bool.and_true, Bool.and_eq_true] at hp ⊢
    exact hp.1
  refine Changes.next ?_ (sealEach_changes.mono (by decide)) hs
  refine Changes.next ?_ (freeSome_changes.mono (by decide)) hf
  refine rollback_then ?_ hw hp
  exact Changes.next h (freeBusy_changes.mono (by decide)) hp


theorem runFul_changes {n : Nat} {s : State} : Changes [.free, .queues, .signals, .lcores, .positions, .halls, .hubs, .ports, .jobs,
    .slots, .stats, .mem, .memErr, .outputs, .promotes, .series, .meshFault, .resent, .leafs] s (runFul n s) := by
  unfold runFul
  ((with_reducible conv => (arg 3; whnf)); split)
  · ((with_reducible conv => (arg 3; whnf)); split)
    · with_reducible refine Changes.next ?_ endPoison_changes (by decide)
      with_reducible refine faultFul_then ?_ ?_ (by decide)
      · with_reducible refine Changes.next ?_ (modPos_changes ?_) (by decide)
        · with_reducible refine Changes.next ?_ fulRun_changes (by decide)
          with_reducible exact Changes.refl
        · exact fun _ h => h
      · exact fun l => l.pos _
    · with_reducible refine Changes.next ?_ endFulProt_changes (by decide)
      with_reducible refine faultFul_then ?_ ?_ (by decide)
      · with_reducible refine Changes.next ?_ (modPos_changes ?_) (by decide)
        · with_reducible refine Changes.next ?_ fulRun_changes (by decide)
          with_reducible exact Changes.refl
        · exact fun _ h => h
      · exact fun l => l.pos _
    · with_reducible refine Changes.next ?_ completeDone_changes (by decide)
      with_reducible refine Changes.ite_ (fun _ => ?_) (fun _ => ?_)
      · with_reducible refine Changes.next ?_ storeWrite_changes (by decide)
        with_reducible refine Changes.next ?_ sealEach_changes (by decide)
        with_reducible refine Changes.next ?_ addBusy_changes (by decide)
        with_reducible refine Changes.next ?_ freeBusy_changes (by decide)
        with_reducible refine Changes.next ?_ (modPos_changes ?_) (by decide)
        · with_reducible refine Changes.next ?_ fulRun_changes (by decide)
          with_reducible exact Changes.refl
        · exact fun _ h => h
      · with_reducible refine Changes.next ?_ sealEach_changes (by decide)
        with_reducible refine Changes.next ?_ addBusy_changes (by decide)
        with_reducible refine Changes.next ?_ freeBusy_changes (by decide)
        with_reducible refine Changes.next ?_ (modPos_changes ?_) (by decide)
        · with_reducible refine Changes.next ?_ fulRun_changes (by decide)
          with_reducible exact Changes.refl
        · exact fun _ h => h
  · with_reducible exact Changes.refl

theorem readBits_changes {s : State} {p : Nat} {off : Nat} {n : Nat} : Changes [.free, .positions, .halls] s (readBits s p off n).1
    := by
  unfold readBits
  with_reducible refine Changes.next ?_ storeRead_changes (by decide)
  with_reducible exact Changes.refl

theorem softRow_changes {s : State} {p : Nat} {o : SoftOps} {r : Nat} : Changes [.free, .positions, .halls] s (softRow s p o r).1 :=
    by
  unfold softRow
  split
  · with_reducible refine Changes.next ?_ readBits_changes (by decide)
    with_reducible refine Changes.next ?_ readRow_changes (by decide)
    with_reducible exact Changes.refl
  · with_reducible refine Changes.next ?_ readRow_changes (by decide)
    with_reducible exact Changes.refl

theorem softRows_changes {s : State} {p : Nat} {o : SoftOps} {n : Nat} {r : Nat} : Changes [.free, .positions, .halls] s (softRows s
    p o n r).1 := by
  induction n generalizing s p o r with
  | zero => exact Changes.refl
  | succ n ih =>
  unfold softRows
  with_reducible refine Changes.next ?_ (ih) (by decide)
  with_reducible refine Changes.next ?_ softRow_changes (by decide)
  with_reducible exact Changes.refl

theorem runSoftmax_changes {n : Nat} {s : State} : Changes [.free, .queues, .signals, .lcores, .positions, .halls, .hubs, .ports,
    .jobs, .slots, .stats, .mem, .memErr, .outputs, .promotes, .series, .meshFault, .resent, .leafs] s (runSoftmax n s) := by
  unfold runSoftmax
  ((with_reducible conv => (arg 3; whnf)); split)
  · with_reducible refine Changes.ite_ (fun _ => ?_) (fun _ => ?_)
    · with_reducible refine Changes.next ?_ endPoison_changes (by decide)
      with_reducible refine Changes.next ?_ sealReports_changes (by decide)
      with_reducible refine Changes.next ?_ freeSome_changes (by decide)
      with_reducible refine Changes.next ?_ putFree_changes (by decide)
      with_reducible refine Changes.next ?_ freeBusy_changes (by decide)
      with_reducible refine Changes.next ?_ softRows_changes (by decide)
      with_reducible exact Changes.refl
    · with_reducible refine Changes.next ?_ completeDone_changes (by decide)
      with_reducible refine Changes.next ?_ addBusy_changes (by decide)
      with_reducible refine Changes.next ?_ sealReports_changes (by decide)
      with_reducible refine Changes.next ?_ putPieces_changes (by decide)
      with_reducible refine Changes.next ?_ softRows_changes (by decide)
      with_reducible exact Changes.refl
  · with_reducible exact Changes.refl

end Sys2Proof.Machine
end

