-- ==== Sys2Proof/Laws/ChangeLamp.lean ====
section
/-! SUPPORT. What the operations of Machine/Lamp may change. -/

namespace Sys2Proof.Machine

theorem runLoadf_changes {n : Core} {s : State} : Changes [.free, .queues, .signals, .lcores, .positions, .halls, .hubs, .ports,
    .jobs, .slots, .stats, .mem, .memErr, .outputs, .promotes, .series, .meshFault, .resent, .leafs] s (runLoadf n s) := by
  unfold runLoadf
  ((with_reducible conv => (arg 3; whnf)); split)
  · with_reducible refine Changes.ite_ (fun _ => ?_) (fun _ => ?_)
    · with_reducible refine Changes.next ?_ endPoison_changes (by decide)
      with_reducible refine Changes.next ?_ storeRead_changes (by decide)
      with_reducible exact Changes.refl
    · with_reducible refine Changes.next ?_ completeDone_changes (by decide)
      with_reducible refine Changes.next ?_ modCore_changes (by decide)
      with_reducible refine Changes.next ?_ storeRead_changes (by decide)
      with_reducible exact Changes.refl
  · with_reducible exact Changes.refl

theorem readSlices_changes {s : State} {p : Nat} {o : PredOps} {r : Nat} {n : Nat} : Changes [.positions, .halls] s (readSlices s p
    o r n).1 := by
  induction n generalizing s p o r with
  | zero => exact Changes.refl
  | succ n ih =>
  unfold readSlices
  with_reducible refine Changes.next ?_ (ih) (by decide)
  with_reducible refine Changes.next ?_ readA8_changes (by decide)
  with_reducible exact Changes.refl

theorem flipProj_changes {s : State} {p : Nat} {pj : Projection} : Changes [.free, .positions] s (flipProj s p pj).2 := by
  unfold flipProj
  (dsimp only; split)
  · with_reducible exact Changes.refl
  · ((with_reducible conv => (arg 3; whnf)); split)
    · with_reducible refine Changes.next ?_ (modPos_changes ?_) (by decide)
      · split
        · with_reducible exact Changes.refl
        · with_reducible refine Changes.next ?_ takeFree_changes (by decide)
          with_reducible refine Changes.next ?_ takeFree_changes (by decide)
          with_reducible exact Changes.refl
      · exact fun _ h => h
    · with_reducible refine Changes.next ?_ (modPos_changes ?_) (by decide)
      · split
        · with_reducible exact Changes.refl
        · with_reducible refine Changes.next ?_ takeFree_changes (by decide)
          with_reducible refine Changes.next ?_ takeFree_changes (by decide)
          with_reducible exact Changes.refl
      · exact fun _ h => h
    · with_reducible refine Changes.next ?_ (modPos_changes ?_) (by decide)
      · split
        · with_reducible exact Changes.refl
        · with_reducible refine Changes.next ?_ takeFree_changes (by decide)
          with_reducible refine Changes.next ?_ takeFree_changes (by decide)
          with_reducible exact Changes.refl
      · exact fun _ h => h

theorem readProj_changes {s : State} {p : Nat} {pj : Projection} : Changes [.positions, .halls] s (readProj s p pj).1 := by
  unfold readProj
  split
  · with_reducible exact Changes.refl
  · split
    · with_reducible refine Changes.next ?_ raiseQuiet_changes (by decide)
      with_reducible refine Changes.next ?_ (modPos_changes ?_) (by decide)
      · with_reducible exact Changes.refl
      · exact fun _ h => h
    · with_reducible refine Changes.next ?_ raiseEngineUe_changes (by decide)
      with_reducible refine Changes.next ?_ (modPos_changes ?_) (by decide)
      · with_reducible exact Changes.refl
      · exact fun _ h => h

theorem projectSlice_changes {s : State} {n : Nat} {p : Nat} {o : PredOps} : Changes [.free, .positions, .halls] s (projectSlice s n
    p o).1 := by
  unfold projectSlice
  with_reducible refine Changes.next ?_ flipProj_changes (by decide)
  with_reducible refine Changes.next ?_ readProj_changes (by decide)
  with_reducible refine Changes.next ?_ storeRead_changes (by decide)
  with_reducible refine Changes.next ?_ readSlices_changes (by decide)
  with_reducible exact Changes.refl

theorem project_changes {s : State} {n : Nat} {p : Nat} {o : PredOps} : Changes [.free, .positions, .halls] s (project s n p o).1 :=
    by
  unfold project
  ((with_reducible conv => (arg 3; whnf)); split)
  · split
    · (dsimp only; split)
      · with_reducible exact Changes.refl
      · with_reducible exact Changes.refl
    · (dsimp only; split)
      · with_reducible exact Changes.refl
      · with_reducible refine Changes.next ?_ readProj_changes (by decide)
        with_reducible exact Changes.refl
  · split
    · (dsimp only; split)
      · with_reducible refine Changes.next ?_ projectSlice_changes (by decide)
        with_reducible exact Changes.refl
      · with_reducible refine Changes.next ?_ projectSlice_changes (by decide)
        with_reducible exact Changes.refl
    · (dsimp only; split)
      · with_reducible refine Changes.next ?_ projectSlice_changes (by decide)
        with_reducible exact Changes.refl
      · with_reducible refine Changes.next ?_ readProj_changes (by decide)
        with_reducible refine Changes.next ?_ projectSlice_changes (by decide)
        with_reducible exact Changes.refl

theorem runPredict_changes {n : Core} {s : State} : Changes [.free, .queues, .signals, .lcores, .positions, .halls, .hubs, .ports,
    .jobs, .slots, .stats, .mem, .memErr, .outputs, .promotes, .series, .meshFault, .resent, .leafs] s (runPredict n s) := by
  unfold runPredict
  ((with_reducible conv => (arg 3; whnf)); split)
  · with_reducible refine Changes.ite_ (fun _ => ?_) (fun _ => ?_)
    · with_reducible exact Changes.refl
    · ((with_reducible conv => (arg 3; whnf)); split)
      · with_reducible refine Changes.next ?_ endPoison_changes (by decide)
        with_reducible refine Changes.next ?_ project_changes (by decide)
        with_reducible exact Changes.refl
      · with_reducible refine Changes.ite_ (fun _ => ?_) (fun _ => ?_)
        · with_reducible refine Changes.next ?_ completeDone_changes (by decide)
          with_reducible refine Changes.next ?_ modCore_changes (by decide)
          with_reducible refine Changes.next ?_ project_changes (by decide)
          with_reducible exact Changes.refl
        · split
          · with_reducible refine Changes.next ?_ modCore_changes (by decide)
            with_reducible refine Changes.next ?_ project_changes (by decide)
            with_reducible exact Changes.refl
          · with_reducible refine Changes.next ?_ (modQueue_changes ?_) (by decide)
            · with_reducible refine Changes.next ?_ modCore_changes (by decide)
              with_reducible refine Changes.next ?_ project_changes (by decide)
              with_reducible exact Changes.refl
            · exact fun _ h => h
  · with_reducible exact Changes.refl

theorem runBitmapReplace_changes {n : Core} {s : State} : Changes [.free, .queues, .signals, .lcores, .positions, .halls, .hubs,
    .ports, .jobs, .slots, .stats, .mem, .memErr, .outputs, .promotes, .series, .meshFault, .resent, .leafs] s (runBitmapReplace n
    s) := by
  unfold runBitmapReplace
  ((with_reducible conv => (arg 3; whnf)); split)
  · split
    · with_reducible exact Changes.refl
    · with_reducible refine Changes.next ?_ completeDone_changes (by decide)
      with_reducible refine Changes.next ?_ modCore_changes (by decide)
      with_reducible refine Changes.next ?_ (modPos_changes ?_) (by decide)
      · with_reducible refine Changes.ite_ (fun _ => ?_) (fun _ => ?_)
        · with_reducible refine Changes.next ?_ storeWrite_changes (by decide)
          with_reducible exact Changes.refl
        · with_reducible exact Changes.refl
      · exact fun _ h => h
  · with_reducible exact Changes.refl

end Sys2Proof.Machine
end

