-- ==== Sys2Proof/Laws/ChangeGlean.lean ====
section
/-! SUPPORT. What the operations of Machine/Glean may change. -/

namespace Sys2Proof.Machine

theorem runGlnConfig_changes {n : Core} {s : State} : Changes [.free, .queues, .signals, .lcores, .positions, .halls, .hubs, .ports,
    .jobs, .slots, .stats, .mem, .memErr, .outputs, .promotes, .series, .meshFault, .resent, .leafs] s (runGlnConfig n s) := by
  unfold runGlnConfig
  ((with_reducible conv => (arg 3; whnf)); split)
  · with_reducible refine Changes.ite_ (fun _ => ?_) (fun _ => ?_)
    · with_reducible refine Changes.next ?_ completeDone_changes (by decide)
      with_reducible refine Changes.next ?_ modCore_changes (by decide)
      with_reducible exact Changes.refl
    · with_reducible refine Changes.ite_ (fun _ => ?_) (fun _ => ?_)
      · with_reducible refine Changes.next ?_ endPoison_changes (by decide)
        with_reducible refine Changes.next ?_ storeRead_changes (by decide)
        with_reducible exact Changes.refl
      · with_reducible refine Changes.next ?_ completeDone_changes (by decide)
        with_reducible refine Changes.next ?_ modCore_changes (by decide)
        with_reducible refine Changes.next ?_ storeRead_changes (by decide)
        with_reducible exact Changes.refl
  · with_reducible exact Changes.refl

theorem runAdapt_changes {s : State} {n : Nat} : Changes [.lcores, .halls] s (runAdapt s n) := by
  unfold runAdapt
  with_reducible refine Changes.ite_ (fun _ => ?_) (fun _ => ?_)
  · with_reducible refine Changes.next ?_ pushEvent_changes (by decide)
    with_reducible refine Changes.next ?_ modCore_changes (by decide)
    with_reducible exact Changes.refl
  · with_reducible refine Changes.next ?_ modCore_changes (by decide)
    with_reducible exact Changes.refl

theorem replayPasses_changes {s : State} {n : Nat} {p : Nat} {idx : List Nat} {out : List (List Bool)} {acc : Acc} {pl : Option
    Plane} {es : List LogEntry} : Changes [.free, .positions, .halls] s (replayPasses s n p idx out acc pl es).st := by
  induction es generalizing s n p idx out acc pl with
  | nil => exact Changes.refl
  | cons z r ih =>
  unfold replayPasses
  (dsimp only; split)
  · with_reducible refine Changes.next ?_ stagePlane_changes (by decide)
    with_reducible exact Changes.refl
  · split
    · with_reducible refine Changes.next ?_ (ih) (by decide)
      with_reducible refine Changes.next ?_ assay_changes (by decide)
      with_reducible refine Changes.next ?_ runPass_changes (by decide)
      with_reducible refine Changes.next ?_ flipCopy_changes (by decide)
      with_reducible refine Changes.next ?_ stagePlane_changes (by decide)
      with_reducible exact Changes.refl
    · with_reducible refine Changes.next ?_ assay_changes (by decide)
      with_reducible refine Changes.next ?_ runPass_changes (by decide)
      with_reducible refine Changes.next ?_ flipCopy_changes (by decide)
      with_reducible refine Changes.next ?_ stagePlane_changes (by decide)
      with_reducible exact Changes.refl

theorem writeMakeup_changes {s : State} {n : Nat} {p : Nat} {job : Nat} {e : LogEntry} {skip : List (List Bool)} {comp : List (List
    Bool)} {m : MadeUp} : Changes [.free, .lcores, .positions, .halls, .slots, .stats] s (writeMakeup s n p job e skip comp m) := by
  unfold writeMakeup
  with_reducible refine Changes.next ?_ modCore_changes (by decide)
  with_reducible refine Changes.next ?_ drainCounts_changes (by decide)
  with_reducible refine Changes.next ?_ sealReports_changes (by decide)
  with_reducible refine Changes.next ?_ putPieces_changes (by decide)
  with_reducible exact Changes.refl

theorem faultMakeup_changes {s : State} {n : Nat} {p : Nat} {job : Nat} {e : LogEntry} {skip : List (List Bool)} {m : MadeUp} :
    Changes [.free, .positions, .halls, .slots, .stats] s (faultMakeup s n p job e skip m) := by
  unfold faultMakeup
  with_reducible refine Changes.next ?_ drainCounts_changes (by decide)
  with_reducible refine Changes.next ?_ takeFree_changes (by decide)
  with_reducible refine Changes.next ?_ takeFree_changes (by decide)
  with_reducible refine Changes.next ?_ sealReports_changes (by decide)
  with_reducible refine Changes.next ?_ freeSome_changes (by decide)
  with_reducible refine Changes.next ?_ putPieces_changes (by decide)
  with_reducible refine Changes.next ?_ putPartial_changes (by decide)
  with_reducible exact Changes.refl

theorem finishMakeup_changes {n : Nat} {p : Nat} {job : Nat} {es : List LogEntry} {e : LogEntry} {skip : List (List Bool)} {comp :
    List (List Bool)} {idx : List Nat} {rp : Replay} {pl : Plane} : Changes [.free, .lcores, .positions, .halls, .slots, .stats]
    rp.st (finishMakeup n p job es e skip comp idx rp pl).1 := by
  unfold finishMakeup
  (dsimp only; split)
  · with_reducible refine Changes.next ?_ modCore_changes (by decide)
    with_reducible refine Changes.next ?_ writeMakeup_changes (by decide)
    with_reducible refine Changes.next ?_ finishAll_changes (by decide)
    with_reducible exact Changes.refl
  · with_reducible refine Changes.next ?_ faultMakeup_changes (by decide)
    with_reducible refine Changes.next ?_ takeFree_changes (by decide)
    with_reducible refine Changes.next ?_ finishAll_changes (by decide)
    with_reducible exact Changes.refl

theorem makeUpAcc_changes {s : State} {n : Nat} {p : Nat} {job : Nat} {es : List LogEntry} : Changes [.free, .lcores, .positions,
    .halls, .slots, .stats] s (makeUpAcc s n p job es).1 := by
  unfold makeUpAcc
  ((with_reducible conv => (arg 3; whnf)); split)
  · with_reducible exact Changes.refl
  · split
    · with_reducible refine Changes.next ?_ modCore_changes (by decide)
      with_reducible exact Changes.refl
    · (dsimp only; split)
      · with_reducible refine Changes.next ?_ modCore_changes (by decide)
        with_reducible exact Changes.refl
      · split
        · with_reducible refine Changes.next ?_ finishMakeup_changes (by decide)
          with_reducible refine Changes.next ?_ replayPasses_changes (by decide)
          with_reducible exact Changes.refl
        · with_reducible refine Changes.next ?_ replayPasses_changes (by decide)
          with_reducible exact Changes.refl

theorem makeUpAll_changes {s : State} {n : Nat} {p : Nat} {job : Nat} {l : List (List LogEntry)} : Changes [.free, .lcores,
    .positions, .halls, .slots, .stats] s (makeUpAll s n p job l).1 := by
  induction l generalizing s n p job with
  | nil => exact Changes.refl
  | cons z r ih =>
  unfold makeUpAll
  (dsimp only; split)
  · with_reducible refine Changes.next ?_ (ih) (by decide)
    with_reducible refine Changes.next ?_ makeUpAcc_changes (by decide)
    with_reducible exact Changes.refl
  · with_reducible refine Changes.next ?_ makeUpAcc_changes (by decide)
    with_reducible exact Changes.refl

theorem restagePlane_changes {s : State} {n : Nat} {p : Nat} {i : Nat} : Changes [.free, .lcores, .positions, .halls] s
    (restagePlane s n p i).1 := by
  unfold restagePlane
  ((with_reducible conv => (arg 3; whnf)); split)
  · with_reducible exact Changes.refl
  · (dsimp only; split)
    · with_reducible refine Changes.next ?_ stagePlane_changes (by decide)
      with_reducible exact Changes.refl
    · with_reducible refine Changes.next ?_ modCore_changes (by decide)
      with_reducible refine Changes.next ?_ flipCopy_changes (by decide)
      with_reducible refine Changes.next ?_ stagePlane_changes (by decide)
      with_reducible exact Changes.refl

theorem exactMakeUp_changes {s : State} {n : Nat} {p : Nat} {job : Nat} : Changes [.free, .lcores, .positions, .halls, .slots,
    .stats] s (exactMakeUp s n p job).1 := by
  unfold exactMakeUp
  (dsimp only; split)
  · with_reducible refine Changes.next ?_ (modPos_changes ?_) (by decide)
    · with_reducible refine Changes.next ?_ takeFree_changes (by decide)
      with_reducible refine Changes.next ?_ makeUpAll_changes (by decide)
      with_reducible exact Changes.refl
    · exact fun _ h => h
  · split
    · with_reducible refine Changes.next ?_ restagePlane_changes (by decide)
      with_reducible refine Changes.next ?_ restagePlane_changes (by decide)
      with_reducible refine Changes.next ?_ (modPos_changes ?_) (by decide)
      · with_reducible refine Changes.next ?_ takeFree_changes (by decide)
        with_reducible refine Changes.next ?_ makeUpAll_changes (by decide)
        with_reducible exact Changes.refl
      · exact fun _ h => h
    · with_reducible refine Changes.next ?_ restagePlane_changes (by decide)
      with_reducible refine Changes.next ?_ (modPos_changes ?_) (by decide)
      · with_reducible refine Changes.next ?_ takeFree_changes (by decide)
        with_reducible refine Changes.next ?_ makeUpAll_changes (by decide)
        with_reducible exact Changes.refl
      · exact fun _ h => h

theorem finishFence_changes {s : State} {n : Nat} {p : Nat} {c : InFlight} : Changes [.free, .queues, .signals, .lcores, .positions,
    .halls, .hubs, .ports, .jobs, .slots, .stats, .mem, .memErr, .outputs, .promotes, .series, .meshFault, .resent, .leafs] s
    (finishFence s n p c) := by
  unfold finishFence
  with_reducible refine Changes.next ?_ completeDone_changes (by decide)
  with_reducible refine Changes.next ?_ storeWrite_changes (by decide)
  with_reducible refine Changes.next ?_ modCore_changes (by decide)
  with_reducible exact Changes.refl

theorem runGlnFence_changes {n : Core} {s : State} : Changes [.free, .queues, .signals, .lcores, .positions, .halls, .hubs, .ports,
    .jobs, .slots, .stats, .mem, .memErr, .outputs, .promotes, .series, .meshFault, .resent, .leafs] s (runGlnFence n s) := by
  unfold runGlnFence
  dsimp only
  split
  · with_reducible refine Changes.ite_ (fun _ => ?_) (fun _ => ?_)
    · with_reducible exact completeDone_changes.mono (by decide)
    · with_reducible refine Changes.ite_ (fun _ => ?_) (fun _ => ?_)
      · refine endMatrix_then (exactMakeUp_changes.mono (by decide)) ?_ (by decide)
        with_reducible exact finishFence_changes.mono (by decide)
      · with_reducible refine Changes.ite_ (fun _ => ?_) (fun _ => ?_)
        · with_reducible refine Changes.next ?_ finishFence_changes (by decide)
          with_reducible exact runAdapt_changes.mono (by decide)
        · with_reducible exact finishFence_changes.mono (by decide)
  · with_reducible exact Changes.refl


end Sys2Proof.Machine
end

