-- ==== Sys2Proof/Laws/ChangeMask.lean ====
section
/-! SUPPORT. What the operations of Machine/Mask may change. -/

namespace Sys2Proof.Machine

theorem Reader.scoutCol_changes {r : Reader} {o : ScoutOps} {armed : Bool} {c : Nat} {l : List Nat} : Changes [.free, .positions,
    .halls] r.st (Reader.scoutCol r o armed c l).2.2.st := by
  induction l generalizing r o armed c with
  | nil => exact Changes.refl
  | cons z r ih =>
  unfold Reader.scoutCol
  with_reducible refine Changes.next ?_ (ih) (by decide)
  split
  · with_reducible refine Changes.next ?_ Reader.flipKeys_changes (by decide)
    with_reducible refine Changes.next ?_ Reader.row_changes (by decide)
    with_reducible refine Changes.next ?_ Reader.row_changes (by decide)
    with_reducible exact Changes.refl
  · with_reducible refine Changes.next ?_ Reader.row_changes (by decide)
    with_reducible refine Changes.next ?_ Reader.row_changes (by decide)
    with_reducible exact Changes.refl

theorem Reader.scoutCols_changes {r : Reader} {o : ScoutOps} {h : PanelHeader} {kept : CheckedPanel} {armed : Bool} {l : List Nat} :
    Changes [.free, .positions, .halls] r.st (Reader.scoutCols r o h kept armed l).2.st := by
  induction l generalizing r o h kept armed with
  | nil => exact Changes.refl
  | cons z r ih =>
  unfold Reader.scoutCols
  with_reducible refine Changes.next ?_ (ih) (by decide)
  with_reducible refine Changes.next ?_ Reader.scoutCol_changes (by decide)
  with_reducible exact Changes.refl

theorem scoutRes_changes {o : ScoutOps} {r : Reader} : Changes [.free, .positions, .halls] r.st (scoutRes o r).rd.st := by
  unfold scoutRes
  with_reducible refine Changes.next ?_ Reader.scoutCols_changes (by decide)
  with_reducible refine Changes.next ?_ Reader.panel_changes (by decide)
  with_reducible exact Changes.refl

theorem runScout_changes {n : Nat} {s : State} : Changes [.free, .queues, .signals, .lcores, .positions, .halls, .hubs, .ports,
    .jobs, .slots, .stats, .mem, .memErr, .outputs, .promotes, .series, .meshFault, .resent, .leafs] s (runScout n s) := by
  unfold runScout
  ((with_reducible conv => (arg 3; whnf)); split)
  · with_reducible refine Changes.next ?_ endWeaver_changes (by decide)
    with_reducible refine withOverlap_then ?_ ?_ (by decide)
    · with_reducible exact Changes.refl
    · intro _
      with_reducible refine Changes.next ?_ scoutRes_changes (by decide)
      with_reducible exact Changes.refl
  · with_reducible exact Changes.refl

theorem Reader.momentsAt_changes {r : Reader} {o : MaskOps} {i : Nat} {l : List Nat} : Changes [.free, .positions, .halls] r.st
    (Reader.momentsAt r o i l).2.st := by
  induction l generalizing r o i with
  | nil => exact Changes.refl
  | cons z r ih =>
  unfold Reader.momentsAt
  with_reducible refine Changes.next ?_ (ih) (by decide)
  with_reducible refine Changes.next ?_ Reader.num_changes (by decide)
  with_reducible exact Changes.refl

theorem Reader.values_changes {r : Reader} {o : MaskOps} {l : List PanelEntry} : Changes [.free, .positions, .halls] r.st
    (Reader.values r o l).2.st := by
  induction l generalizing r o with
  | nil => exact Changes.refl
  | cons z r ih =>
  unfold Reader.values
  with_reducible refine Changes.next ?_ (ih) (by decide)
  with_reducible refine Changes.next ?_ Reader.momentsAt_changes (by decide)
  with_reducible refine Changes.next ?_ Reader.num_changes (by decide)
  with_reducible refine Changes.next ?_ Reader.num_changes (by decide)
  with_reducible exact Changes.refl

theorem Reader.colRec_changes {r : Reader} {o : MaskOps} {c : Nat} : Changes [.free, .positions, .halls] r.st (Reader.colRec r o
    c).2.st := by
  unfold Reader.colRec
  with_reducible refine Changes.next ?_ Reader.num_changes (by decide)
  with_reducible refine Changes.next ?_ Reader.num_changes (by decide)
  with_reducible refine Changes.next ?_ Reader.num_changes (by decide)
  with_reducible exact Changes.refl

theorem Reader.colRecs_changes {r : Reader} {o : MaskOps} {l : List Nat} : Changes [.free, .positions, .halls] r.st (Reader.colRecs
    r o l).2.st := by
  induction l generalizing r o with
  | nil => exact Changes.refl
  | cons z r ih =>
  unfold Reader.colRecs
  with_reducible refine Changes.next ?_ (ih) (by decide)
  with_reducible refine Changes.next ?_ Reader.colRec_changes (by decide)
  with_reducible exact Changes.refl

theorem flipWorking_changes {s : State} {p : Nat} {l : List MEntry} : Changes [.free, .positions, .halls] s (flipWorking s p l).2.2
    := by
  unfold flipWorking
  ((with_reducible conv => (arg 3; whnf)); split)
  · with_reducible exact Changes.refl
  · (dsimp only; split)
    · with_reducible exact Changes.refl
    · split
      · with_reducible refine Changes.next ?_ takeFree_changes (by decide)
        with_reducible refine Changes.next ?_ (modPos_changes ?_) (by decide)
        · with_reducible exact Changes.refl
        · exact fun _ h => h
      · with_reducible refine Changes.next ?_ raiseQuiet_changes (by decide)
        with_reducible refine Changes.next ?_ (modPos_changes ?_) (by decide)
        · with_reducible refine Changes.next ?_ takeFree_changes (by decide)
          with_reducible refine Changes.next ?_ (modPos_changes ?_) (by decide)
          · with_reducible exact Changes.refl
          · exact fun _ h => h
        · exact fun _ h => h
      · with_reducible refine Changes.next ?_ raiseEngineUe_changes (by decide)
        with_reducible refine Changes.next ?_ (modPos_changes ?_) (by decide)
        · with_reducible refine Changes.next ?_ takeFree_changes (by decide)
          with_reducible refine Changes.next ?_ (modPos_changes ?_) (by decide)
          · with_reducible exact Changes.refl
          · exact fun _ h => h
        · exact fun _ h => h

theorem maskUnit_changes {op : Nat} {o : MaskOps} {h : PanelHeader} {cands : List Cand} {m : MaskRun} {cols : List Nat} : Changes
    [.free, .positions, .halls] m.rd.st (maskUnit op o h cands m cols).rd.st := by
  unfold maskUnit
  split
  · with_reducible exact Changes.refl
  · split
    · (dsimp only; split)
      · with_reducible refine Changes.next ?_ Reader.values_changes (by decide)
        with_reducible refine Changes.next ?_ Reader.colRecs_changes (by decide)
        with_reducible exact Changes.refl
      · with_reducible refine Changes.ite_ (fun _ => ?_) (fun _ => ?_)
        · with_reducible refine Changes.next ?_ putFree_changes (by decide)
          with_reducible refine Changes.next ?_ flipWorking_changes (by decide)
          with_reducible refine Changes.next ?_ Reader.values_changes (by decide)
          with_reducible refine Changes.next ?_ Reader.colRecs_changes (by decide)
          with_reducible exact Changes.refl
        · with_reducible refine Changes.next ?_ putPieces_changes (by decide)
          with_reducible refine Changes.next ?_ flipWorking_changes (by decide)
          with_reducible refine Changes.next ?_ Reader.values_changes (by decide)
          with_reducible refine Changes.next ?_ Reader.colRecs_changes (by decide)
          with_reducible exact Changes.refl
    · split
      · (dsimp only; split)
        · with_reducible refine Changes.next ?_ Reader.values_changes (by decide)
          with_reducible refine Changes.next ?_ Reader.colRecs_changes (by decide)
          with_reducible exact Changes.refl
        · with_reducible refine Changes.ite_ (fun _ => ?_) (fun _ => ?_)
          · with_reducible refine Changes.next ?_ putFree_changes (by decide)
            with_reducible refine Changes.next ?_ flipWorking_changes (by decide)
            with_reducible refine Changes.next ?_ Reader.values_changes (by decide)
            with_reducible refine Changes.next ?_ Reader.colRecs_changes (by decide)
            with_reducible exact Changes.refl
          · with_reducible refine Changes.next ?_ putPieces_changes (by decide)
            with_reducible refine Changes.next ?_ flipWorking_changes (by decide)
            with_reducible refine Changes.next ?_ Reader.values_changes (by decide)
            with_reducible refine Changes.next ?_ Reader.colRecs_changes (by decide)
            with_reducible exact Changes.refl
      · (dsimp only; split)
        · with_reducible refine Changes.next ?_ Reader.values_changes (by decide)
          with_reducible refine Changes.next ?_ Reader.colRecs_changes (by decide)
          with_reducible exact Changes.refl
        · with_reducible refine Changes.ite_ (fun _ => ?_) (fun _ => ?_)
          · with_reducible refine Changes.next ?_ putFree_changes (by decide)
            with_reducible refine Changes.next ?_ flipWorking_changes (by decide)
            with_reducible refine Changes.next ?_ Reader.values_changes (by decide)
            with_reducible refine Changes.next ?_ Reader.colRecs_changes (by decide)
            with_reducible exact Changes.refl
          · with_reducible refine Changes.next ?_ putPieces_changes (by decide)
            with_reducible refine Changes.next ?_ flipWorking_changes (by decide)
            with_reducible refine Changes.next ?_ Reader.values_changes (by decide)
            with_reducible refine Changes.next ?_ Reader.colRecs_changes (by decide)
            with_reducible exact Changes.refl

theorem readCands_changes {o : MaskOps} {r : Reader} {l : List Nat} : Changes [.free, .positions, .halls] r.st (readCands o r
    l).2.2.st := by
  induction l generalizing o r with
  | nil => exact Changes.refl
  | cons z r ih =>
  unfold readCands
  (dsimp only; split)
  · with_reducible refine Changes.next ?_ Reader.row_changes (by decide)
    with_reducible exact Changes.refl
  · with_reducible refine Changes.next ?_ (ih) (by decide)
    with_reducible refine Changes.next ?_ Reader.row_changes (by decide)
    with_reducible exact Changes.refl

theorem maskCands_changes {op : Nat} {o : MaskOps} {r : Reader} : Changes [.free, .positions, .halls] r.st (maskCands op o r).2.2.st
    := by
  unfold maskCands
  split
  · with_reducible refine Changes.next ?_ readCands_changes (by decide)
    with_reducible exact Changes.refl
  · with_reducible exact Changes.refl

theorem maskRes_changes {op : Nat} {p : Nat} {o : MaskOps} {s : State} {cand : List Cand × Option Nat × Reader} : Changes [.free,
    .positions, .halls] s (maskRes op p o s cand).rd.st := by
  unfold maskRes
  split
  · (dsimp only; split)
    · with_reducible refine Changes.foldl_in (fun r : MaskRun => r.rd.st) ?_ (fun _ _ => ?_)
      · with_reducible refine Changes.next ?_ Reader.bytes_changes (by decide)
        with_reducible exact Changes.refl
      · with_reducible refine Changes.next ?_ maskUnit_changes (by decide)
        with_reducible exact Changes.refl
    · with_reducible refine Changes.next ?_ putPieces_changes (by decide)
      with_reducible refine Changes.foldl_in (fun r : MaskRun => r.rd.st) ?_ (fun _ _ => ?_)
      · with_reducible refine Changes.next ?_ Reader.bytes_changes (by decide)
        with_reducible exact Changes.refl
      · with_reducible refine Changes.next ?_ maskUnit_changes (by decide)
        with_reducible exact Changes.refl
  · (dsimp only; split)
    · with_reducible refine Changes.foldl_in (fun r : MaskRun => r.rd.st) ?_ (fun _ _ => ?_)
      · with_reducible refine Changes.next ?_ Reader.bytes_changes (by decide)
        with_reducible exact Changes.refl
      · with_reducible refine Changes.next ?_ maskUnit_changes (by decide)
        with_reducible exact Changes.refl
    · with_reducible refine Changes.next ?_ putPieces_changes (by decide)
      with_reducible refine Changes.foldl_in (fun r : MaskRun => r.rd.st) ?_ (fun _ _ => ?_)
      · with_reducible refine Changes.next ?_ Reader.bytes_changes (by decide)
        with_reducible exact Changes.refl
      · with_reducible refine Changes.next ?_ maskUnit_changes (by decide)
        with_reducible exact Changes.refl

theorem maskRun_changes {op : Nat} {p : Nat} {o : MaskOps} {s : State} : Changes [.free, .positions, .halls] s (maskRun op p o
    s).rd.st := by
  have h0 : ∀ w t u, Changes [.free, .positions, .halls] u (maskCands op o { st := u, p := p, avoid := w, tainted := t }).2.2.st :=
    fun w t u => (maskCands_changes (r := { st := u, p := p, avoid := w, tainted := t })).mono (by decide)
  unfold maskRun
  dsimp only
  split
  · exact (h0 _ _ s).next maskRes_changes (by decide)
  · exact (h0 [] false s).next maskRes_changes (by decide)


theorem runMask_changes {op : Nat} {n : Nat} {s : State} : Changes [.free, .queues, .signals, .lcores, .positions, .halls, .hubs,
    .ports, .jobs, .slots, .stats, .mem, .memErr, .outputs, .promotes, .series, .meshFault, .resent, .leafs] s (runMask op n s) :=
    by
  unfold runMask
  ((with_reducible conv => (arg 3; whnf)); split)
  · with_reducible refine Changes.ite_ (fun _ => ?_) (fun _ => ?_)
    · with_reducible refine Changes.next ?_ endPoison_changes (by decide)
      with_reducible refine Changes.next ?_ freeBusy_changes (by decide)
      with_reducible refine Changes.next ?_ maskRun_changes (by decide)
      with_reducible exact Changes.refl
    · with_reducible refine Changes.next ?_ completeDone_changes (by decide)
      with_reducible refine Changes.next ?_ addBusy_changes (by decide)
      with_reducible refine Changes.next ?_ maskRun_changes (by decide)
      with_reducible exact Changes.refl
  · with_reducible exact Changes.refl

end Sys2Proof.Machine
end

