-- ==== Sys2Proof/Laws/ChangeOptimiser.lean ====
section
/-! SUPPORT. What the operations of Machine/Optimiser may change. -/

namespace Sys2Proof.Machine

theorem Reader.grad_changes {r : Reader} {o : OptOps} {i : Nat} : Changes [.free, .positions, .halls] r.st (Reader.grad r o i).2.st
    := by
  unfold Reader.grad
  split
  · with_reducible refine Changes.next ?_ Reader.num_changes (by decide)
    with_reducible exact Changes.refl
  · with_reducible refine Changes.next ?_ Reader.num_changes (by decide)
    with_reducible refine Changes.next ?_ Reader.num_changes (by decide)
    with_reducible exact Changes.refl

theorem optCode_changes {o : OptOps} {scale : W32} {c : Nat} {s : Nat} {w : Val} {m : OptRun} : Changes [.free, .positions, .halls]
    m.rd.st (optCode o scale c s w m).rd.st := by
  unfold optCode
  ((with_reducible conv => (arg 3; whnf)); split)
  · with_reducible refine Changes.next ?_ Reader.num_changes (by decide)
    with_reducible exact Changes.refl
  · (dsimp only; split)
    · with_reducible refine Changes.next ?_ Reader.num_changes (by decide)
      with_reducible exact Changes.refl
    · with_reducible refine Changes.next ?_ putPieces_changes (by decide)
      with_reducible refine Changes.next ?_ Reader.num_changes (by decide)
      with_reducible exact Changes.refl

theorem optElement_changes {isAdam : Bool} {o : OptOps} {h : Hyper} {scale : W32} {m : OptRun} {i : Nat} : Changes [.free,
    .positions, .halls] m.rd.st (optElement isAdam o h scale m i).rd.st := by
  unfold optElement
  split
  · with_reducible exact Changes.refl
  · split
    · split
      · (dsimp only; split)
        · with_reducible refine Changes.next ?_ Reader.grad_changes (by decide)
          with_reducible refine Changes.next ?_ Reader.num_changes (by decide)
          with_reducible refine Changes.next ?_ Reader.num_changes (by decide)
          with_reducible refine Changes.next ?_ Reader.num_changes (by decide)
          with_reducible refine Changes.next ?_ Reader.num_changes (by decide)
          with_reducible exact Changes.refl
        · with_reducible refine Changes.next ?_ optCode_changes (by decide)
          with_reducible refine Changes.next ?_ putPieces_changes (by decide)
          with_reducible refine Changes.next ?_ Reader.grad_changes (by decide)
          with_reducible refine Changes.next ?_ Reader.num_changes (by decide)
          with_reducible refine Changes.next ?_ Reader.num_changes (by decide)
          with_reducible refine Changes.next ?_ Reader.num_changes (by decide)
          with_reducible refine Changes.next ?_ Reader.num_changes (by decide)
          with_reducible exact Changes.refl
      · (dsimp only; split)
        · with_reducible refine Changes.next ?_ Reader.grad_changes (by decide)
          with_reducible refine Changes.next ?_ Reader.num_changes (by decide)
          with_reducible refine Changes.next ?_ Reader.num_changes (by decide)
          with_reducible refine Changes.next ?_ Reader.num_changes (by decide)
          with_reducible refine Changes.next ?_ Reader.num_changes (by decide)
          with_reducible exact Changes.refl
        · with_reducible refine Changes.next ?_ putPieces_changes (by decide)
          with_reducible refine Changes.next ?_ Reader.grad_changes (by decide)
          with_reducible refine Changes.next ?_ Reader.num_changes (by decide)
          with_reducible refine Changes.next ?_ Reader.num_changes (by decide)
          with_reducible refine Changes.next ?_ Reader.num_changes (by decide)
          with_reducible refine Changes.next ?_ Reader.num_changes (by decide)
          with_reducible exact Changes.refl
    · split
      · (dsimp only; split)
        · with_reducible refine Changes.next ?_ Reader.grad_changes (by decide)
          with_reducible refine Changes.next ?_ Reader.num_changes (by decide)
          with_reducible refine Changes.next ?_ Reader.num_changes (by decide)
          with_reducible refine Changes.next ?_ Reader.num_changes (by decide)
          with_reducible exact Changes.refl
        · with_reducible refine Changes.next ?_ optCode_changes (by decide)
          with_reducible refine Changes.next ?_ putPieces_changes (by decide)
          with_reducible refine Changes.next ?_ Reader.grad_changes (by decide)
          with_reducible refine Changes.next ?_ Reader.num_changes (by decide)
          with_reducible refine Changes.next ?_ Reader.num_changes (by decide)
          with_reducible refine Changes.next ?_ Reader.num_changes (by decide)
          with_reducible exact Changes.refl
      · (dsimp only; split)
        · with_reducible refine Changes.next ?_ Reader.grad_changes (by decide)
          with_reducible refine Changes.next ?_ Reader.num_changes (by decide)
          with_reducible refine Changes.next ?_ Reader.num_changes (by decide)
          with_reducible refine Changes.next ?_ Reader.num_changes (by decide)
          with_reducible exact Changes.refl
        · with_reducible refine Changes.next ?_ putPieces_changes (by decide)
          with_reducible refine Changes.next ?_ Reader.grad_changes (by decide)
          with_reducible refine Changes.next ?_ Reader.num_changes (by decide)
          with_reducible refine Changes.next ?_ Reader.num_changes (by decide)
          with_reducible refine Changes.next ?_ Reader.num_changes (by decide)
          with_reducible exact Changes.refl

theorem optColumn_changes {isAdam : Bool} {o : OptOps} {h : Hyper} {m : OptRun} {i : Nat} : Changes [.free, .positions, .halls]
    m.rd.st (optColumn isAdam o h m i).rd.st := by
  unfold optColumn
  split
  · with_reducible exact Changes.refl
  · (dsimp only; split)
    · with_reducible refine Changes.next ?_ Reader.num_changes (by decide)
      with_reducible refine Changes.next ?_ Reader.num_changes (by decide)
      with_reducible exact Changes.refl
    · with_reducible refine Changes.foldl_in (fun r : OptRun => r.rd.st) ?_ (fun _ _ => ?_)
      · with_reducible refine Changes.next ?_ Reader.num_changes (by decide)
        with_reducible refine Changes.next ?_ Reader.num_changes (by decide)
        with_reducible exact Changes.refl
      · with_reducible refine Changes.next ?_ optElement_changes (by decide)
        with_reducible exact Changes.refl

theorem optRun_changes {isAdam : Bool} {o : OptOps} {s : State} {p : Nat} : Changes [.free, .positions, .halls] s (optRun isAdam o s
    p).rd.st := by
  unfold optRun
  split
  · with_reducible refine Changes.foldl_in (fun r : OptRun => r.rd.st) ?_ (fun _ _ => ?_)
    · with_reducible refine Changes.next ?_ Reader.bytes_changes (by decide)
      with_reducible exact Changes.refl
    · with_reducible refine Changes.next ?_ optColumn_changes (by decide)
      with_reducible exact Changes.refl
  · with_reducible refine Changes.foldl_in (fun r : OptRun => r.rd.st) ?_ (fun _ _ => ?_)
    · with_reducible refine Changes.next ?_ Reader.bytes_changes (by decide)
      with_reducible exact Changes.refl
    · with_reducible refine Changes.next ?_ optElement_changes (by decide)
      with_reducible exact Changes.refl

theorem runOpt_changes {op : Nat} {n : Nat} {s : State} : Changes [.free, .queues, .signals, .lcores, .positions, .halls, .hubs,
    .ports, .jobs, .slots, .stats, .mem, .memErr, .outputs, .promotes, .series, .meshFault, .resent, .leafs] s (runOpt op n s) := by
  unfold runOpt
  dsimp only
  split
  · split
    · with_reducible refine Changes.next ?_ endPoison_changes (by decide)
      refine rollback_then ?_ (fun l => l.pos _) (by decide)
      with_reducible refine Changes.next ?_ freeBusy_changes (by decide)
      with_reducible exact optRun_changes.mono (by decide)
    · with_reducible refine Changes.next ?_ completeDone_changes (by decide)
      with_reducible refine Changes.next ?_ addBusy_changes (by decide)
      with_reducible refine Changes.next ?_ putPieces_changes (by decide)
      with_reducible exact optRun_changes.mono (by decide)
  · with_reducible exact Changes.refl


end Sys2Proof.Machine
end

