-- ==== Sys2Proof/Laws/ChangeFetch.lean ====
section
/-! SUPPORT. What the operations of Machine/Fetch may change. -/

namespace Sys2Proof.Machine

theorem appendLog_changes {s : State} {n : Nat} {t : MqTrack} {c : BitVec 512} {seq : W32} : Changes [.lcores, .positions] s
    (appendLog s n t c seq) := by
  unfold appendLog
  ((with_reducible conv => (arg 3; whnf)); split)
  · with_reducible refine Changes.next ?_ modCore_changes (by decide)
    with_reducible exact Changes.refl
  · with_reducible refine Changes.next ?_ storeWrite_changes (by decide)
    with_reducible refine Changes.next ?_ modCore_changes (by decide)
    with_reducible exact Changes.refl

theorem checkMq_changes {s t : State} {n : Nat} {c : BitVec 512} {seq : W32} (e : checkMq s n c seq = some t) :
    Changes [.lcores, .positions] s t := by
  unfold checkMq at e
  dsimp only at e
  split at e
  · cases e
  · cases e
    with_reducible refine Changes.ite_ (fun _ => ?_) (fun _ => ?_)
    · exact Changes.next (modCore_changes.mono (by decide)) appendLog_changes (by decide)
    · exact modCore_changes.mono (by decide)


theorem readDesc_changes {s : State} {k : Nat} {c : BitVec 512} : Changes [.free, .positions, .halls, .hubs, .ports, .mem, .memErr,
    .outputs, .promotes, .series, .meshFault, .resent, .leafs] s (readDesc s k c).st := by
  unfold readDesc
  (dsimp only; split)
  · with_reducible exact Changes.refl
  · ((with_reducible conv => (arg 3; whnf)); split)
    · with_reducible refine Changes.next ?_ vaRead_changes (by decide)
      with_reducible exact Changes.refl
    · split
      · with_reducible refine Changes.next ?_ vaRead_changes (by decide)
        with_reducible exact Changes.refl
      · split
        · with_reducible refine Changes.next ?_ vaRead_changes (by decide)
          with_reducible exact Changes.refl
        · with_reducible refine Changes.next ?_ vaRead_changes (by decide)
          with_reducible exact Changes.refl

theorem checkRest_changes {s : State} {k : Nat} {c : BitVec 512} {seq : W32} {desc : BitVec 1024} : Changes [.lcores, .positions] s
    (checkRest s k c seq desc).st := by
  unfold checkRest
  dsimp only
  repeat' split
  all_goals first | with_reducible exact Changes.refl | exact checkMq_changes ‹_›


theorem checkCommand_changes {s : State} {k : Nat} {c : BitVec 512} {seq : W32} : Changes [.free, .lcores, .positions, .halls,
    .hubs, .ports, .mem, .memErr, .outputs, .promotes, .series, .meshFault, .resent, .leafs] s (checkCommand s k c seq).st := by
  unfold checkCommand
  split
  · with_reducible exact Changes.refl
  · split
    · (dsimp only; split)
      · ((with_reducible conv => (arg 3; whnf)); split)
        · with_reducible refine Changes.next ?_ readDesc_changes (by decide)
          with_reducible exact Changes.refl
        · with_reducible refine Changes.next ?_ readDesc_changes (by decide)
          with_reducible exact Changes.refl
        · with_reducible refine Changes.next ?_ readDesc_changes (by decide)
          with_reducible exact Changes.refl
        · with_reducible refine Changes.next ?_ checkRest_changes (by decide)
          with_reducible refine Changes.next ?_ readDesc_changes (by decide)
          with_reducible exact Changes.refl
      · with_reducible exact Changes.refl
    · (dsimp only; split)
      · ((with_reducible conv => (arg 3; whnf)); split)
        · with_reducible refine Changes.next ?_ readDesc_changes (by decide)
          with_reducible exact Changes.refl
        · with_reducible refine Changes.next ?_ readDesc_changes (by decide)
          with_reducible exact Changes.refl
        · with_reducible refine Changes.next ?_ readDesc_changes (by decide)
          with_reducible exact Changes.refl
        · with_reducible refine Changes.next ?_ checkRest_changes (by decide)
          with_reducible refine Changes.next ?_ readDesc_changes (by decide)
          with_reducible exact Changes.refl
      · with_reducible refine Changes.next ?_ checkRest_changes (by decide)
        with_reducible exact Changes.refl

theorem placeFront_changes {s : State} {k : Nat} {f : Front} : Changes [.free, .queues, .signals, .lcores, .positions, .halls,
    .hubs, .ports, .jobs, .slots, .stats, .mem, .memErr, .outputs, .promotes, .series, .meshFault, .resent, .leafs] s (placeFront s
    k f) := by
  unfold placeFront
  with_reducible refine Changes.ite_ (fun _ => ?_) (fun _ => ?_)
  · with_reducible refine Changes.next ?_ advance_changes (by decide)
    with_reducible refine Changes.next ?_ (modQueue_changes ?_) (by decide)
    · with_reducible exact Changes.refl
    · exact fun _ h => settle_legal h
  · with_reducible refine Changes.ite_ (fun _ => ?_) (fun _ => ?_)
    · with_reducible refine Changes.next ?_ haltWaiting_changes (by decide)
      with_reducible refine Changes.next ?_ (modQueue_changes ?_) (by decide)
      · with_reducible exact Changes.refl
      · exact fun _ h => settle_legal h
    · with_reducible refine Changes.ite_ (fun _ => ?_) (fun _ => ?_)
      · with_reducible refine Changes.next ?_ (modQueue_changes ?_) (by decide)
        · with_reducible exact Changes.refl
        · exact fun _ h => settle_legal h
      · with_reducible refine Changes.next ?_ advance_changes (by decide)
        with_reducible refine Changes.next ?_ (modQueue_changes ?_) (by decide)
        · with_reducible exact Changes.refl
        · exact fun _ h => settle_legal h

theorem retireRecord_changes {s : State} {k : Nat} {seq : W32} : Changes [.free, .queues, .halls, .hubs, .mem, .memErr, .outputs,
    .promotes, .series, .meshFault, .resent, .leafs] s (retireRecord s k seq).st := by
  unfold retireRecord
  (dsimp only; split)
  · with_reducible refine Changes.next ?_ writeRecord_changes (by decide)
    with_reducible exact Changes.refl
  · with_reducible refine Changes.next ?_ (modQueue_changes ?_) (by decide)
    · with_reducible refine Changes.next ?_ raiseRecFail_changes (by decide)
      with_reducible refine Changes.next ?_ writeRecord_changes (by decide)
      with_reducible exact Changes.refl
    · exact fun _ h => h

theorem retireFenced_changes {s : State} {k : Nat} {c : BitVec 512} {seq : W32} {bad : Option FrontFail} : Changes [.free, .queues,
    .sems, .signals, .lcores, .positions, .halls, .hubs, .ports, .jobs, .stats, .mem, .memErr, .outputs, .promotes, .series,
    .meshFault, .resent, .leafs] s (retireFenced s k c seq bad) := by
  unfold retireFenced
  split
  · with_reducible refine Changes.ite_ (fun _ => ?_) (fun _ => ?_)
    · with_reducible refine Changes.next ?_ (modQueue_changes ?_) (by decide)
      · with_reducible exact Changes.refl
      · exact fun _ h => h
    · with_reducible refine Changes.next ?_ applyKill_changes (by decide)
      with_reducible refine Changes.foldl ?_ (fun _ _ => ?_)
      · with_reducible refine Changes.next ?_ retireRecord_changes (by decide)
        with_reducible exact Changes.refl
      · with_reducible refine Changes.next ?_ markBroken_changes (by decide)
        with_reducible exact Changes.refl
  · with_reducible refine Changes.next ?_ applyKill_changes (by decide)
    with_reducible refine Changes.next ?_ retireRecord_changes (by decide)
    with_reducible refine Changes.next ?_ raiseFront_changes (by decide)
    with_reducible exact Changes.refl

theorem fetchOne_changes {k : Nat} {s : State} : Changes [.free, .queues, .sems, .signals, .lcores, .positions, .halls, .hubs,
    .ports, .jobs, .slots, .stats, .mem, .memErr, .outputs, .promotes, .series, .meshFault, .resent, .leafs] s (fetchOne k s) := by
  unfold fetchOne
  with_reducible refine Changes.ite_ (fun _ => ?_) (fun _ => ?_)
  · with_reducible exact Changes.refl
  · with_reducible refine Changes.ite_ (fun _ => ?_) (fun _ => ?_)
    · with_reducible refine Changes.next ?_ retireFenced_changes (by decide)
      with_reducible refine Changes.next ?_ (modQueue_changes ?_) (by decide)
      · with_reducible refine Changes.next ?_ vaRead_changes (by decide)
        with_reducible exact Changes.refl
      · exact fun _ h => h
    · with_reducible refine Changes.next ?_ placeFront_changes (by decide)
      split
      · with_reducible refine Changes.next ?_ (modQueue_changes ?_) (by decide)
        · with_reducible refine Changes.next ?_ vaRead_changes (by decide)
          with_reducible exact Changes.refl
        · exact fun _ h => h
      · with_reducible refine Changes.next ?_ checkCommand_changes (by decide)
        with_reducible refine Changes.next ?_ (modQueue_changes ?_) (by decide)
        · with_reducible refine Changes.next ?_ vaRead_changes (by decide)
          with_reducible exact Changes.refl
        · exact fun _ h => h

theorem runFetch_changes {q : QRef} {s : State} : Changes [.free, .queues, .sems, .signals, .lcores, .positions, .halls, .hubs,
    .ports, .jobs, .slots, .stats, .mem, .memErr, .outputs, .promotes, .series, .meshFault, .resent, .leafs] s (runFetch q s) := by
  unfold runFetch
  with_reducible refine Changes.ite_ (fun _ => ?_) (fun _ => ?_)
  · with_reducible refine Changes.next ?_ cqTurns_changes (by decide)
    with_reducible refine Changes.next ?_ fetchOne_changes (by decide)
    with_reducible exact Changes.refl
  · with_reducible refine Changes.next ?_ fetchOne_changes (by decide)
    with_reducible exact Changes.refl

end Sys2Proof.Machine
end

