-- ==== Sys2Proof/Laws/ChangeRegWrite.lean ====
section
/-! SUPPORT. What the operations of Machine/RegWrite may change. -/

namespace Sys2Proof.Machine

theorem writeDrvJob_legal {o : Nat} {v : W32} {jb : JobState} (h : JobLegal jb) : JobLegal (writeDrvJob o v jb) := by
  unfold writeDrvJob
  dsimp only
  repeat' first | exact h | split

theorem writeCopBase_legal {o : Nat} {v : W64} {jb : JobState} (h : JobLegal jb) : JobLegal (writeCopBase o v jb) := by
  unfold writeCopBase
  dsimp only
  repeat' first | exact h | split

theorem writeMlrCfg_legal {v : W32} {m : Miller} (h : MillerLegal m) : MillerLegal (writeMlrCfg v m) := by
  refine ⟨h.1, h.2.1, ?_, ?_, h.2.2.2.2.1, h.2.2.2.2.2.1, h.2.2.2.2.2.2⟩ <;> unfold writeMlrCfg <;> dsimp only <;> split <;>
    first | omega | exact h.2.2.1 | exact h.2.2.2.1

theorem flipPos_changes {s : State} {h : Nat} {i : Nat} {f : Position → Position} (hf : ∀ x, PosLegal x → PosLegal (f x)) : Changes
    [.positions] s (flipPos s h i f) := by
  unfold flipPos
  split
  · exact Changes.refl
  · exact modPos_changes hf


theorem writeFlipReg_changes {s : State} {t : FlipTarget} {v : W32} : Changes [.positions, .halls, .hubs, .ports] s (writeFlipReg s
    t v) := by
  unfold writeFlipReg
  split
  · with_reducible refine Changes.next ?_ (flipPos_changes ?_) (by decide)
    · with_reducible exact Changes.refl
    · exact fun _ h => h
  · with_reducible refine Changes.next ?_ (flipPos_changes ?_) (by decide)
    · with_reducible exact Changes.refl
    · exact fun _ h => h
  · with_reducible refine Changes.next ?_ (flipPos_changes ?_) (by decide)
    · with_reducible exact Changes.refl
    · exact fun _ h => h
  · with_reducible refine Changes.next ?_ (flipPos_changes ?_) (by decide)
    · with_reducible exact Changes.refl
    · exact fun _ h => h
  · with_reducible refine Changes.next ?_ (flipPos_changes ?_) (by decide)
    · with_reducible exact Changes.refl
    · exact fun _ h => h
  · with_reducible refine Changes.next ?_ (flipPos_changes ?_) (by decide)
    · with_reducible exact Changes.refl
    · exact fun _ h => h
  · with_reducible refine Changes.next ?_ (flipPos_changes ?_) (by decide)
    · with_reducible exact Changes.refl
    · exact fun _ h => h
  · with_reducible refine Changes.next ?_ (flipPos_changes ?_) (by decide)
    · with_reducible exact Changes.refl
    · exact fun _ h => h
  · with_reducible refine Changes.next ?_ (modHall_changes ?_) (by decide)
    · with_reducible exact Changes.refl
    · exact fun _ h => h
  · with_reducible refine Changes.next ?_ (modHub_changes ?_) (by decide)
    · with_reducible exact Changes.refl
    · exact fun _ h => h
  · with_reducible refine Changes.next ?_ (modPort_changes ?_) (by decide)
    · with_reducible exact Changes.refl
    · exact fun _ h => h
  · with_reducible refine Changes.next ?_ (modHall_changes ?_) (by decide)
    · with_reducible exact Changes.refl
    · exact fun _ h => h
  · with_reducible refine Changes.next ?_ (modHall_changes ?_) (by decide)
    · with_reducible exact Changes.refl
    · exact fun _ h => h

theorem runFlipArm_changes {t : FlipTarget} {v : W32} {s : State} : Changes [.positions, .halls, .hubs, .ports] s (runFlipArm t v s)
    := by
  unfold runFlipArm
  with_reducible refine Changes.ite_ (fun _ => ?_) (fun _ => ?_)
  · with_reducible refine Changes.next ?_ writeFlipReg_changes (by decide)
    with_reducible exact Changes.refl
  · with_reducible exact Changes.refl

theorem writeFlashCmd_changes {h : Hall} {v : W32} {s : State} : Changes [.halls] s (writeFlashCmd h v s) := by
  unfold writeFlashCmd
  with_reducible refine Changes.ite_ (fun _ => ?_) (fun _ => ?_)
  · with_reducible refine Changes.next ?_ (modHall_changes ?_) (by decide)
    · with_reducible exact Changes.refl
    · exact fun _ h => h
  · with_reducible refine Changes.ite_ (fun _ => ?_) (fun _ => ?_)
    · with_reducible refine Changes.next ?_ runFlashRead_changes (by decide)
      with_reducible refine Changes.next ?_ (modHall_changes ?_) (by decide)
      · with_reducible exact Changes.refl
      · exact fun _ h => h
    · with_reducible refine Changes.ite_ (fun _ => ?_) (fun _ => ?_)
      · with_reducible refine Changes.next ?_ runFlashProgram_changes (by decide)
        with_reducible refine Changes.next ?_ (modHall_changes ?_) (by decide)
        · with_reducible exact Changes.refl
        · exact fun _ h => h
      · with_reducible refine Changes.ite_ (fun _ => ?_) (fun _ => ?_)
        · with_reducible refine Changes.next ?_ runFlashErase_changes (by decide)
          with_reducible refine Changes.next ?_ (modHall_changes ?_) (by decide)
          · with_reducible exact Changes.refl
          · exact fun _ h => h
        · with_reducible refine Changes.next ?_ runFlashReserved_changes (by decide)
          with_reducible refine Changes.next ?_ (modHall_changes ?_) (by decide)
          · with_reducible exact Changes.refl
          · exact fun _ h => h

theorem writeStart_changes {h : Hall} {a : Nat} {v : W32} {s : State} : Changes [.free, .rate, .time, .time1, .started, .aliveLevel,
    .moduleDown, .queues, .sems, .semGrp, .own, .signals, .lcores, .positions, .halls, .hubs, .ports, .jobs, .slots, .stats,
    .miller, .chain, .power, .jtag, .timeCfg, .selfTest, .mem, .memErr, .outputs, .promotes, .series, .meshFault, .resent, .leafs,
    .delivered] s (writeStart h a v s) := by
  unfold writeStart
  with_reducible refine Changes.ite_ (fun _ => ?_) (fun _ => ?_)
  · with_reducible refine Changes.ite_ (fun _ => ?_) (fun _ => ?_)
    · with_reducible refine Changes.next ?_ runStartRetry_changes (by decide)
      with_reducible exact Changes.refl
    · with_reducible exact Changes.refl
  · with_reducible refine Changes.ite_ (fun _ => ?_) (fun _ => ?_)
    · with_reducible refine Changes.next ?_ runHallReload_changes (by decide)
      with_reducible exact Changes.refl
    · with_reducible refine Changes.ite_ (fun _ => ?_) (fun _ => ?_)
      · with_reducible refine Changes.next ?_ writeFlashCmd_changes (by decide)
        with_reducible exact Changes.refl
      · with_reducible refine Changes.ite_ (fun _ => ?_) (fun _ => ?_)
        · with_reducible refine Changes.next ?_ (modHall_changes ?_) (by decide)
          · with_reducible exact Changes.refl
          · exact fun _ h => h
        · with_reducible exact Changes.refl

theorem writeSteward_changes {h : Hall} {a : Nat} {v : W32} {s : State} : Changes [.queues, .semGrp, .own] s (writeSteward h a v s)
    := by
  unfold writeSteward
  with_reducible refine Changes.ite_ (fun _ => ?_) (fun _ => ?_)
  · with_reducible refine Changes.next ?_ runOwnWrite_changes (by decide)
    with_reducible exact Changes.refl
  · with_reducible refine Changes.ite_ (fun _ => ?_) (fun _ => ?_)
    · with_reducible refine Changes.next ?_ runSemgrpWrite_changes (by decide)
      with_reducible exact Changes.refl
    · with_reducible exact Changes.refl

theorem writeQueue_changes {h : Hall} {a : Nat} {v : W32} {s : State} : Changes [.free, .queues, .signals, .lcores, .positions,
    .halls, .hubs, .ports, .jobs, .stats, .mem, .memErr, .outputs, .promotes, .series, .meshFault, .resent, .leafs] s (writeQueue h
    a v s) := by
  unfold writeQueue
  with_reducible refine Changes.ite_ (fun _ => ?_) (fun _ => ?_)
  · with_reducible refine Changes.ite_ (fun _ => ?_) (fun _ => ?_)
    · with_reducible refine Changes.next ?_ runQEnable_changes (by decide)
      with_reducible exact Changes.refl
    · with_reducible refine Changes.next ?_ runQDisable_changes (by decide)
      with_reducible exact Changes.refl
  · with_reducible refine Changes.ite_ (fun _ => ?_) (fun _ => ?_)
    · with_reducible refine Changes.next ?_ runQDoorbell_changes (by decide)
      with_reducible exact Changes.refl
    · with_reducible refine Changes.ite_ (fun _ => ?_) (fun _ => ?_)
      · with_reducible refine Changes.next ?_ runQRestart_changes (by decide)
        with_reducible exact Changes.refl
      · with_reducible exact Changes.refl

theorem writeSlotReg_changes {a : Nat} {v : W32} {s : State} : Changes [.free, .halls, .slots] s (writeSlotReg a v s) := by
  unfold writeSlotReg
  ((with_reducible conv => (arg 3; whnf)); split)
  · with_reducible refine Changes.ite_ (fun _ => ?_) (fun _ => ?_)
    · with_reducible refine Changes.next ?_ runSeaSlotCfg_changes (by decide)
      with_reducible exact Changes.refl
    · with_reducible refine Changes.ite_ (fun _ => ?_) (fun _ => ?_)
      · with_reducible refine Changes.next ?_ modSlot_changes (by decide)
        with_reducible exact Changes.refl
      · with_reducible exact Changes.refl
  · with_reducible exact Changes.refl

theorem writeSealer_changes {h : Hall} {a : Nat} {v : W32} {s : State} : Changes [.free, .positions, .halls, .hubs, .ports, .jobs,
    .stats] s (writeSealer h a v s) := by
  unfold writeSealer
  with_reducible refine Changes.ite_ (fun _ => ?_) (fun _ => ?_)
  · with_reducible refine Changes.ite_ (fun _ => ?_) (fun _ => ?_)
    · with_reducible refine Changes.next ?_ runSeaJobCfg_changes (by decide)
      with_reducible exact Changes.refl
    · with_reducible refine Changes.ite_ (fun _ => ?_) (fun _ => ?_)
      · with_reducible refine Changes.next ?_ dropStats_changes (by decide)
        with_reducible exact Changes.refl
      · with_reducible exact Changes.refl
  · with_reducible refine Changes.ite_ (fun _ => ?_) (fun _ => ?_)
    · with_reducible refine Changes.next ?_ writeFlipReg_changes (by decide)
      with_reducible exact Changes.refl
    · with_reducible refine Changes.ite_ (fun _ => ?_) (fun _ => ?_)
      · with_reducible refine Changes.next ?_ (modHall_changes ?_) (by decide)
        · with_reducible exact Changes.refl
        · exact fun _ h => h
      · with_reducible exact Changes.refl

theorem writeTinker_changes {h : Hall} {a : Nat} {v : W32} {s : State} : Changes [.halls] s (writeTinker h a v s) := by
  unfold writeTinker
  with_reducible refine Changes.ite_ (fun _ => ?_) (fun _ => ?_)
  · refine modHall_changes fun x h => ?_
    refine ⟨?_, ?_, ?_, h.2.2.2⟩ <;> dsimp only <;> split <;> first | omega | exact h.1 | exact h.2.1 | exact h.2.2.1
  · with_reducible refine Changes.ite_ (fun _ => ?_) (fun _ => ?_)
    · with_reducible exact runTnkReq_changes
    · with_reducible exact Changes.refl


theorem writeMesh_changes {h : Hall} {a : Nat} {v : W32} {s : State} : Changes [.positions, .halls, .hubs, .ports] s (writeMesh h a
    v s) := by
  unfold writeMesh
  with_reducible refine Changes.ite_ (fun _ => ?_) (fun _ => ?_)
  · with_reducible refine Changes.next ?_ (modHall_changes ?_) (by decide)
    · with_reducible exact Changes.refl
    · exact fun _ h => h
  · with_reducible refine Changes.ite_ (fun _ => ?_) (fun _ => ?_)
    · with_reducible refine Changes.next ?_ writeFlipReg_changes (by decide)
      with_reducible exact Changes.refl
    · with_reducible refine Changes.ite_ (fun _ => ?_) (fun _ => ?_)
      · with_reducible refine Changes.next ?_ writeFlipReg_changes (by decide)
        with_reducible exact Changes.refl
      · with_reducible refine Changes.ite_ (fun _ => ?_) (fun _ => ?_)
        · with_reducible refine Changes.next ?_ (modHall_changes ?_) (by decide)
          · with_reducible exact Changes.refl
          · exact fun _ h => h.withSeam (tabWf_tabSet · _ _)
        · with_reducible exact Changes.refl

theorem startSelfTest_changes {s : State} : Changes [.free, .queues, .lcores, .positions, .halls, .hubs, .ports, .jobs, .stats,
    .miller, .selfTest, .mem, .memErr, .outputs, .promotes, .series, .meshFault, .resent, .leafs] s (startSelfTest s) := by
  unfold startSelfTest
  with_reducible refine Changes.next ?_ runSelfTest_changes (by decide)
  with_reducible refine Changes.next ?_ with_free_changes (by decide)
  with_reducible exact Changes.refl

theorem writeJobStat_changes {a : Nat} {v : W32} {s : State} : Changes [.free, .queues, .lcores, .positions, .halls, .hubs, .ports,
    .jobs, .stats, .miller, .selfTest, .mem, .memErr, .outputs, .promotes, .series, .meshFault, .resent, .leafs] s (writeJobStat a v
    s) := by
  unfold writeJobStat
  with_reducible refine Changes.ite_ (fun _ => ?_) (fun _ => ?_)
  · with_reducible refine Changes.ite_ (fun _ => ?_) (fun _ => ?_)
    · with_reducible refine Changes.next ?_ runKilledClear_changes (by decide)
      with_reducible exact Changes.refl
    · with_reducible exact Changes.refl
  · with_reducible refine Changes.ite_ (fun _ => ?_) (fun _ => ?_)
    · with_reducible refine Changes.next ?_ startSelfTest_changes (by decide)
      with_reducible exact Changes.refl
    · with_reducible exact Changes.refl

theorem writeCooper_changes {a : Nat} {v : W32} {s : State} : Changes [.free, .positions, .halls, .hubs, .ports, .jobs, .slots,
    .mem, .memErr, .outputs, .promotes, .series, .meshFault, .resent, .leafs] s (writeCooper a v s) := by
  unfold writeCooper
  with_reducible refine Changes.ite_ (fun _ => ?_) (fun _ => ?_)
  · with_reducible refine Changes.next ?_ runCopCfg_changes (by decide)
    with_reducible exact Changes.refl
  · with_reducible refine Changes.ite_ (fun _ => ?_) (fun _ => ?_)
    · with_reducible refine Changes.next ?_ (modJob_changes ?_) (by decide)
      · with_reducible exact Changes.refl
      · (intro _ h; split <;> exact h)
    · with_reducible refine Changes.ite_ (fun _ => ?_) (fun _ => ?_)
      · with_reducible refine Changes.next ?_ runCopInterval_changes (by decide)
        with_reducible exact Changes.refl
      · with_reducible refine Changes.ite_ (fun _ => ?_) (fun _ => ?_)
        · with_reducible refine Changes.next ?_ (modJob_changes ?_) (by decide)
          · with_reducible exact Changes.refl
          · exact fun _ h => h
        · with_reducible refine Changes.ite_ (fun _ => ?_) (fun _ => ?_)
          · with_reducible refine Changes.ite_ (fun _ => ?_) (fun _ => ?_)
            · with_reducible refine Changes.next ?_ runCopFetch_changes (by decide)
              with_reducible refine Changes.ite_ (fun _ => ?_) (fun _ => ?_)
              · with_reducible refine Changes.next ?_ runCopRestore_changes (by decide)
                with_reducible exact Changes.refl
              · with_reducible exact Changes.refl
            · with_reducible refine Changes.ite_ (fun _ => ?_) (fun _ => ?_)
              · with_reducible refine Changes.next ?_ runCopRestore_changes (by decide)
                with_reducible exact Changes.refl
              · with_reducible exact Changes.refl
          · with_reducible exact Changes.refl

theorem writeMiller_changes {a : Nat} {v : W32} {s : State} : Changes [.halls, .miller] s (writeMiller a v s) := by
  unfold writeMiller
  with_reducible refine Changes.ite_ (fun _ => ?_) (fun _ => ?_)
  · with_reducible refine Changes.ite_ (fun e => ?_) (fun _ => ?_)
    · with_reducible refine Changes.next ?_ reshare_changes (by decide)
      with_reducible refine Changes.setMiller Changes.refl ?_ (by decide)
      exact fun l _ => ⟨e.1, e.2, l.miller.2.2⟩
    · with_reducible exact Changes.refl
  · with_reducible refine Changes.ite_ (fun _ => ?_) (fun _ => ?_)
    · with_reducible refine Changes.next ?_ reshare_changes (by decide)
      with_reducible refine Changes.setMiller Changes.refl ?_ (by decide)
      exact fun l _ => writeMlrCfg_legal l.miller
    · with_reducible refine Changes.ite_ (fun _ => ?_) (fun _ => ?_)
      · with_reducible refine Changes.ite_ (fun e => ?_) (fun _ => ?_)
        · with_reducible refine Changes.setMiller Changes.refl ?_ (by decide)
          exact fun l _ => ⟨l.miller.1, l.miller.2.1, l.miller.2.2.1, l.miller.2.2.2.1, e, l.miller.2.2.2.2.2⟩
        · with_reducible exact Changes.refl
      · with_reducible refine Changes.ite_ (fun e => ?_) (fun _ => ?_)
        · with_reducible refine Changes.setMiller Changes.refl ?_ (by decide)
          intro l _
          obtain ⟨h1, h2, h3, h4, h5, h6, h7⟩ := l.miller
          refine ⟨h1, h2, h3, h4, h5, ?_, ?_⟩
          · simpa using h6
          · have : (a - 0xB0010) / 4 ≠ 0 := by omega
            simpa [List.getElem?_set_ne this] using h7
        · with_reducible exact Changes.refl


theorem writeCoreBlock_changes {h : Hall} {a : Nat} {v : W32} {s : State} : Changes [.positions, .halls, .hubs, .ports] s
    (writeCoreBlock h a v s) := by
  unfold writeCoreBlock
  with_reducible refine Changes.ite_ (fun _ => ?_) (fun _ => ?_)
  · with_reducible refine Changes.next ?_ writeFlipReg_changes (by decide)
    with_reducible exact Changes.refl
  · with_reducible refine Changes.ite_ (fun _ => ?_) (fun _ => ?_)
    · with_reducible refine Changes.next ?_ (flipPos_changes ?_) (by decide)
      · with_reducible exact Changes.refl
      · exact fun _ h => h
    · with_reducible refine Changes.ite_ (fun _ => ?_) (fun _ => ?_)
      · with_reducible refine Changes.next ?_ writeFlipReg_changes (by decide)
        with_reducible exact Changes.refl
      · with_reducible refine Changes.ite_ (fun _ => ?_) (fun _ => ?_)
        · with_reducible refine Changes.next ?_ (flipPos_changes ?_) (by decide)
          · with_reducible exact Changes.refl
          · exact fun _ h => h
        · with_reducible refine Changes.ite_ (fun _ => ?_) (fun _ => ?_)
          · with_reducible refine Changes.next ?_ writeFlipReg_changes (by decide)
            with_reducible exact Changes.refl
          · with_reducible refine Changes.ite_ (fun _ => ?_) (fun _ => ?_)
            · with_reducible refine Changes.next ?_ (flipPos_changes ?_) (by decide)
              · with_reducible exact Changes.refl
              · exact fun _ h => h
            · with_reducible refine Changes.ite_ (fun _ => ?_) (fun _ => ?_)
              · with_reducible refine Changes.next ?_ writeFlipReg_changes (by decide)
                with_reducible exact Changes.refl
              · with_reducible refine Changes.ite_ (fun _ => ?_) (fun _ => ?_)
                · with_reducible refine Changes.next ?_ (flipPos_changes ?_) (by decide)
                  · with_reducible exact Changes.refl
                  · exact fun _ h => h
                · with_reducible refine Changes.ite_ (fun _ => ?_) (fun _ => ?_)
                  · with_reducible refine Changes.next ?_ runAsyInject_changes (by decide)
                    with_reducible exact Changes.refl
                  · with_reducible refine Changes.ite_ (fun _ => ?_) (fun _ => ?_)
                    · with_reducible refine Changes.next ?_ (flipPos_changes ?_) (by decide)
                      · with_reducible exact Changes.refl
                      · exact fun _ h => h
                    · with_reducible refine Changes.ite_ (fun _ => ?_) (fun _ => ?_)
                      · with_reducible refine Changes.next ?_ writeFlipReg_changes (by decide)
                        with_reducible exact Changes.refl
                      · with_reducible refine Changes.ite_ (fun _ => ?_) (fun _ => ?_)
                        · with_reducible refine Changes.next ?_ writeFlipReg_changes (by decide)
                          with_reducible exact Changes.refl
                        · with_reducible refine Changes.ite_ (fun _ => ?_) (fun _ => ?_)
                          · with_reducible refine Changes.next ?_ (flipPos_changes ?_) (by decide)
                            · with_reducible exact Changes.refl
                            · exact fun _ h => h
                          · with_reducible refine Changes.ite_ (fun _ => ?_) (fun _ => ?_)
                            · with_reducible refine Changes.next ?_ writeFlipReg_changes (by decide)
                              with_reducible exact Changes.refl
                            · with_reducible refine Changes.ite_ (fun _ => ?_) (fun _ => ?_)
                              · with_reducible refine Changes.next ?_ (flipPos_changes ?_) (by decide)
                                · with_reducible exact Changes.refl
                                · exact fun _ h => h
                              · with_reducible refine Changes.ite_ (fun _ => ?_) (fun _ => ?_)
                                · with_reducible refine Changes.next ?_ writeFlipReg_changes (by decide)
                                  with_reducible exact Changes.refl
                                · with_reducible refine Changes.ite_ (fun _ => ?_) (fun _ => ?_)
                                  · with_reducible refine Changes.next ?_ (flipPos_changes ?_) (by decide)
                                    · with_reducible exact Changes.refl
                                    · exact fun _ h => h
                                  · with_reducible exact Changes.refl

theorem writeHub_changes {h : Hall} {a : Nat} {v : W32} {s : State} : Changes [.positions, .halls, .hubs, .ports] s (writeHub h a v
    s) := by
  unfold writeHub
  with_reducible refine Changes.ite_ (fun _ => ?_) (fun _ => ?_)
  · with_reducible refine Changes.next ?_ writeFlipReg_changes (by decide)
    with_reducible exact Changes.refl
  · with_reducible refine Changes.ite_ (fun _ => ?_) (fun _ => ?_)
    · with_reducible refine Changes.next ?_ runPkgRetire_changes (by decide)
      with_reducible exact Changes.refl
    · with_reducible exact Changes.refl

theorem writeLink_changes {h : Hall} {a : Nat} {v : W32} {s : State} : Changes [.free, .time, .time1, .queues, .sems, .signals,
    .lcores, .positions, .halls, .hubs, .ports, .jobs, .stats, .timeCfg, .mem, .memErr, .outputs, .promotes, .series, .meshFault,
    .resent, .leafs] s (writeLink h a v s) := by
  unfold writeLink
  with_reducible refine Changes.ite_ (fun _ => ?_) (fun _ => ?_)
  · with_reducible refine Changes.next ?_ runLaneRetireWrite_changes (by decide)
    with_reducible exact Changes.refl
  · with_reducible refine Changes.ite_ (fun _ => ?_) (fun _ => ?_)
    · with_reducible refine Changes.next ?_ writeFlipReg_changes (by decide)
      with_reducible exact Changes.refl
    · with_reducible exact Changes.refl

theorem writeTimeCfg_changes {v : W32} {s : State} : Changes [.free, .time, .time1, .halls, .timeCfg] s (writeTimeCfg v s) := by
  unfold writeTimeCfg
  with_reducible refine Changes.ite_ (fun _ => ?_) (fun _ => ?_)
  · with_reducible exact Changes.refl
  · with_reducible refine Changes.ite_ (fun _ => ?_) (fun _ => ?_)
    · with_reducible refine Changes.next ?_ updateTime_changes (by decide)
      with_reducible refine Changes.next ?_ with_timeCfg_changes (by decide)
      with_reducible exact Changes.refl
    · ((with_reducible conv => (arg 3; whnf)); split)
      · with_reducible refine Changes.next ?_ updateTime_changes (by decide)
        with_reducible refine Changes.next ?_ with_timeCfg_changes (by decide)
        with_reducible exact Changes.refl
      · with_reducible refine Changes.next ?_ raiseBoth_changes (by decide)
        with_reducible refine Changes.next ?_ with_timeCfg_changes (by decide)
        with_reducible refine Changes.next ?_ with_timeCfg_changes (by decide)
        with_reducible exact Changes.refl

theorem writeDrover_changes {h : Hall} {a : Nat} {v : W32} {s : State} : Changes [.free, .time, .time1, .halls, .jobs, .timeCfg] s
    (writeDrover h a v s) := by
  unfold writeDrover
  with_reducible refine Changes.ite_ (fun _ => ?_) (fun _ => ?_)
  · with_reducible refine Changes.ite_ (fun _ => ?_) (fun _ => ?_)
    · with_reducible exact Changes.refl
    · exact (modJob_changes fun _ h => writeDrvJob_legal h).mono (by decide)
  · with_reducible refine Changes.ite_ (fun _ => ?_) (fun _ => ?_)
    · with_reducible refine Changes.ite_ (fun e => ?_) (fun _ => ?_)
      · with_reducible refine Changes.next Changes.refl (modHall_changes ?_) (by decide)
        exact fun _ h => ⟨h.1, h.2.1, h.2.2.1, h.2.2.2.1, h.2.2.2.2.1, e.1, e.2, h.2.2.2.2.2.2.2⟩
      · with_reducible exact Changes.refl
    · with_reducible refine Changes.ite_ (fun _ => ?_) (fun _ => ?_)
      · exact writeTimeCfg_changes.mono (by decide)
      · with_reducible refine Changes.ite_ (fun _ => ?_) (fun _ => ?_)
        · with_reducible refine Changes.ite_ (fun _ => ?_) (fun _ => ?_)
          · with_reducible exact Changes.refl
          · with_reducible refine Changes.next Changes.refl (modJob_changes ?_) (by decide)
            exact fun _ h => h
        · with_reducible exact Changes.refl


theorem writeHostReg_changes {h : Hall} {a : Nat} {v : W32} {s : State} : Changes [.halls] s (writeHostReg h a v s) := by
  unfold writeHostReg
  with_reducible refine Changes.ite_ (fun _ => ?_) (fun _ => ?_)
  · with_reducible refine Changes.next ?_ (modHall_changes ?_) (by decide)
    · with_reducible exact Changes.refl
    · exact fun _ h => h
  · with_reducible refine Changes.ite_ (fun _ => ?_) (fun _ => ?_)
    · with_reducible refine Changes.next ?_ runRingEnable_changes (by decide)
      with_reducible exact Changes.refl
    · with_reducible refine Changes.ite_ (fun _ => ?_) (fun _ => ?_)
      · with_reducible refine Changes.next ?_ runRingCons_changes (by decide)
        with_reducible exact Changes.refl
      · with_reducible refine Changes.ite_ (fun _ => ?_) (fun _ => ?_)
        · with_reducible refine Changes.next ?_ (modHall_changes ?_) (by decide)
          · with_reducible exact Changes.refl
          · exact fun _ h => h
        · with_reducible exact Changes.refl

theorem writeSemStatus_changes {h : Hall} {a : Nat} {v : W32} {s : State} : Changes [.sems] s (writeSemStatus h a v s) := by
  unfold writeSemStatus
  with_reducible refine Changes.ite_ (fun _ => ?_) (fun _ => ?_)
  · with_reducible refine Changes.next ?_ setSem_changes (by decide)
    with_reducible exact Changes.refl
  · with_reducible exact Changes.refl

theorem write32_changes {h : Hall} {a : Nat} {v : W32} {s : State} : Changes [.free, .rate, .time, .time1, .started, .aliveLevel,
    .moduleDown, .queues, .sems, .semGrp, .own, .signals, .lcores, .positions, .halls, .hubs, .ports, .jobs, .slots, .stats,
    .miller, .chain, .power, .jtag, .timeCfg, .selfTest, .mem, .memErr, .outputs, .promotes, .series, .meshFault, .resent, .leafs,
    .delivered] s (write32 h a v s) := by
  unfold write32
  with_reducible refine Changes.ite_ (fun _ => ?_) (fun _ => ?_)
  · with_reducible refine Changes.next ?_ writeStart_changes (by decide)
    with_reducible exact Changes.refl
  · with_reducible refine Changes.ite_ (fun _ => ?_) (fun _ => ?_)
    · with_reducible refine Changes.next ?_ writeSteward_changes (by decide)
      with_reducible exact Changes.refl
    · with_reducible refine Changes.ite_ (fun _ => ?_) (fun _ => ?_)
      · with_reducible refine Changes.next ?_ writeQueue_changes (by decide)
        with_reducible exact Changes.refl
      · with_reducible refine Changes.ite_ (fun _ => ?_) (fun _ => ?_)
        · with_reducible refine Changes.next ?_ writeSlotReg_changes (by decide)
          with_reducible exact Changes.refl
        · with_reducible refine Changes.ite_ (fun _ => ?_) (fun _ => ?_)
          · with_reducible refine Changes.next ?_ writeSealer_changes (by decide)
            with_reducible exact Changes.refl
          · with_reducible refine Changes.ite_ (fun _ => ?_) (fun _ => ?_)
            · with_reducible refine Changes.next ?_ writeTinker_changes (by decide)
              with_reducible exact Changes.refl
            · with_reducible refine Changes.ite_ (fun _ => ?_) (fun _ => ?_)
              · with_reducible refine Changes.next ?_ runXlateInv_changes (by decide)
                with_reducible exact Changes.refl
              · with_reducible refine Changes.ite_ (fun _ => ?_) (fun _ => ?_)
                · with_reducible refine Changes.next ?_ writeMesh_changes (by decide)
                  with_reducible exact Changes.refl
                · with_reducible refine Changes.ite_ (fun _ => ?_) (fun _ => ?_)
                  · with_reducible refine Changes.next ?_ writeJobStat_changes (by decide)
                    with_reducible exact Changes.refl
                  · with_reducible refine Changes.ite_ (fun _ => ?_) (fun _ => ?_)
                    · with_reducible refine Changes.next ?_ writeCooper_changes (by decide)
                      with_reducible exact Changes.refl
                    · with_reducible refine Changes.ite_ (fun _ => ?_) (fun _ => ?_)
                      · with_reducible refine Changes.next ?_ writeMiller_changes (by decide)
                        with_reducible exact Changes.refl
                      · with_reducible refine Changes.ite_ (fun _ => ?_) (fun _ => ?_)
                        · with_reducible refine Changes.next ?_ writeCoreBlock_changes (by decide)
                          with_reducible exact Changes.refl
                        · with_reducible refine Changes.ite_ (fun _ => ?_) (fun _ => ?_)
                          · with_reducible refine Changes.next ?_ writeHub_changes (by decide)
                            with_reducible exact Changes.refl
                          · with_reducible refine Changes.ite_ (fun _ => ?_) (fun _ => ?_)
                            · with_reducible refine Changes.next ?_ writeLink_changes (by decide)
                              with_reducible exact Changes.refl
                            · with_reducible refine Changes.ite_ (fun _ => ?_) (fun _ => ?_)
                              · with_reducible refine Changes.next ?_ writeDrover_changes (by decide)
                                with_reducible exact Changes.refl
                              · with_reducible refine Changes.ite_ (fun _ => ?_) (fun _ => ?_)
                                · with_reducible refine Changes.next ?_ writeHostReg_changes (by decide)
                                  with_reducible exact Changes.refl
                                · with_reducible refine Changes.ite_ (fun _ => ?_) (fun _ => ?_)
                                  · with_reducible refine Changes.next ?_ writeSemStatus_changes (by decide)
                                    with_reducible exact Changes.refl
                                  · with_reducible exact Changes.refl

theorem writeQueueBase_changes {h : Hall} {a : Nat} {v : W64} {s : State} : Changes [.queues] s (writeQueueBase h a v s) := by
  unfold writeQueueBase
  with_reducible refine Changes.next ?_ (modQueue_changes ?_) (by decide)
  · with_reducible exact Changes.refl
  · (intro _ h; split <;> (try split) <;> exact h)

theorem write64_changes {h : Hall} {a : Nat} {v : W64} {s : State} : Changes [.free, .queues, .sems, .signals, .lcores, .positions,
    .halls, .hubs, .ports, .jobs, .stats, .mem, .memErr, .outputs, .promotes, .series, .meshFault, .resent, .leafs] s (write64 h a v
    s) := by
  unfold write64
  with_reducible refine Changes.ite_ (fun _ => ?_) (fun _ => ?_)
  · with_reducible refine Changes.next ?_ writeQueueBase_changes (by decide)
    with_reducible exact Changes.refl
  · with_reducible refine Changes.ite_ (fun _ => ?_) (fun _ => ?_)
    · with_reducible refine Changes.next ?_ (modJob_changes ?_) (by decide)
      · with_reducible exact Changes.refl
      · (intro _ h; split <;> exact h)
    · with_reducible refine Changes.ite_ (fun _ => ?_) (fun _ => ?_)
      · with_reducible refine Changes.next ?_ (modJob_changes ?_) (by decide)
        · with_reducible exact Changes.refl
        · exact fun _ h => h
      · with_reducible refine Changes.ite_ (fun _ => ?_) (fun _ => ?_)
        · with_reducible refine Changes.next ?_ runStickyClear_changes (by decide)
          with_reducible exact Changes.refl
        · with_reducible refine Changes.ite_ (fun _ => ?_) (fun _ => ?_)
          · with_reducible refine Changes.next ?_ runForce_changes (by decide)
            with_reducible exact Changes.refl
          · with_reducible refine Changes.ite_ (fun _ => ?_) (fun _ => ?_)
            · with_reducible refine Changes.next ?_ (modHall_changes ?_) (by decide)
              · with_reducible exact Changes.refl
              · exact fun _ h => h
            · with_reducible refine Changes.ite_ (fun _ => ?_) (fun _ => ?_)
              · with_reducible refine Changes.next ?_ (modJob_changes ?_) (by decide)
                · with_reducible exact Changes.refl
                · exact fun _ h => h
              · with_reducible refine Changes.ite_ (fun _ => ?_) (fun _ => ?_)
                · exact Changes.next Changes.refl (modJob_changes fun _ h => writeCopBase_legal h) (by decide)
                · with_reducible refine Changes.ite_ (fun _ => ?_) (fun _ => ?_)
                  · with_reducible refine Changes.ite_ (fun _ => ?_) (fun _ => ?_)
                    · refine Changes.next ?_ (modHub_changes fun _ h => h) (by decide)
                      with_reducible exact Changes.refl
                    · with_reducible refine Changes.ite_ (fun _ => ?_) (fun _ => ?_)
                      · refine Changes.next ?_ (modHub_changes fun _ h => h) (by decide)
                        with_reducible exact Changes.refl
                      · with_reducible exact Changes.refl
                  · with_reducible refine Changes.ite_ (fun _ => ?_) (fun _ => ?_)
                    · with_reducible refine Changes.ite_ (fun _ => ?_) (fun _ => ?_)
                      · with_reducible exact Changes.refl
                      · with_reducible refine Changes.next ?_ (modJob_changes ?_) (by decide)
                        · with_reducible exact Changes.refl
                        · exact fun _ h => h
                    · with_reducible refine Changes.ite_ (fun _ => ?_) (fun _ => ?_)
                      · with_reducible refine Changes.next ?_ (modHall_changes ?_) (by decide)
                        · with_reducible exact Changes.refl
                        · (intro _ h; split <;> exact h)
                      · with_reducible refine Changes.ite_ (fun _ => ?_) (fun _ => ?_)
                        · with_reducible refine Changes.ite_ (fun _ => ?_) (fun _ => ?_)
                          · with_reducible refine Changes.next ?_ runSemAdd_changes (by decide)
                            with_reducible exact Changes.refl
                          · with_reducible refine Changes.ite_ (fun _ => ?_) (fun _ => ?_)
                            · with_reducible refine Changes.next ?_ runSemSet_changes (by decide)
                              with_reducible exact Changes.refl
                            · with_reducible exact Changes.refl
                        · with_reducible exact Changes.refl

theorem writeByte_changes {h : Nat} {a : Nat} {b : Byte} {s : State} : Changes [.halls] s (writeByte h a b s) := by
  unfold writeByte
  with_reducible refine Changes.ite_ (fun _ => ?_) (fun _ => ?_)
  · with_reducible refine Changes.next ?_ (modHall_changes ?_) (by decide)
    · with_reducible exact Changes.refl
    · exact fun _ h => h.withMailbox (tabWf_tabSet · _ _)
  · with_reducible refine Changes.ite_ (fun _ => ?_) (fun _ => ?_)
    · with_reducible refine Changes.next ?_ (modHall_changes ?_) (by decide)
      · with_reducible exact Changes.refl
      · exact fun _ h => h.withVectors (tabWf_tabSet · _ _)
    · with_reducible exact Changes.refl

theorem dropWrite_changes {s : State} {h : Nat} : Changes [.halls] s (dropWrite s h) := by
  unfold dropWrite
  with_reducible refine Changes.next ?_ (modHall_changes ?_) (by decide)
  · with_reducible exact Changes.refl
  · exact fun _ h => h

theorem writeAligned_changes {h : Hall} {a : Nat} {n : Nat} {v : W64} {s : State} : Changes [.free, .rate, .time, .time1, .started,
    .aliveLevel, .moduleDown, .queues, .sems, .semGrp, .own, .signals, .lcores, .positions, .halls, .hubs, .ports, .jobs, .slots,
    .stats, .miller, .chain, .power, .jtag, .timeCfg, .selfTest, .mem, .memErr, .outputs, .promotes, .series, .meshFault, .resent,
    .leafs, .delivered] s (writeAligned h a n v s) := by
  unfold writeAligned
  with_reducible refine Changes.ite_ (fun _ => ?_) (fun _ => ?_)
  · with_reducible refine Changes.ite_ (fun _ => ?_) (fun _ => ?_)
    · with_reducible refine Changes.next ?_ write64_changes (by decide)
      with_reducible exact Changes.refl
    · with_reducible refine Changes.next ?_ write32_changes (by decide)
      with_reducible refine Changes.next ?_ write32_changes (by decide)
      with_reducible exact Changes.refl
  · with_reducible refine Changes.ite_ (fun _ => ?_) (fun _ => ?_)
    · with_reducible refine Changes.next ?_ dropWrite_changes (by decide)
      with_reducible exact Changes.refl
    · with_reducible refine Changes.next ?_ write32_changes (by decide)
      with_reducible exact Changes.refl

theorem runRegisterWrite_changes {h : Hall} {addr : BitVec 26} {width : Width} {v : W64} {s : State} : Changes [.free, .rate, .time,
    .time1, .started, .aliveLevel, .moduleDown, .queues, .sems, .semGrp, .own, .signals, .lcores, .positions, .halls, .hubs, .ports,
    .jobs, .slots, .stats, .miller, .chain, .power, .jtag, .timeCfg, .selfTest, .mem, .memErr, .outputs, .promotes, .series,
    .meshFault, .resent, .leafs, .delivered] s (runRegisterWrite h addr width v s) := by
  unfold runRegisterWrite
  with_reducible refine Changes.ite_ (fun _ => ?_) (fun _ => ?_)
  · with_reducible exact Changes.refl
  · with_reducible refine Changes.ite_ (fun _ => ?_) (fun _ => ?_)
    · with_reducible refine Changes.foldl ?_ (fun _ _ => ?_)
      · with_reducible exact Changes.refl
      · with_reducible refine Changes.next ?_ writeByte_changes (by decide)
        with_reducible exact Changes.refl
    · with_reducible refine Changes.ite_ (fun _ => ?_) (fun _ => ?_)
      · with_reducible refine Changes.ite_ (fun _ => ?_) (fun _ => ?_)
        · with_reducible refine Changes.next ?_ writeAligned_changes (by decide)
          with_reducible exact Changes.refl
        · with_reducible exact Changes.refl
      · with_reducible refine Changes.ite_ (fun _ => ?_) (fun _ => ?_)
        · with_reducible refine Changes.next ?_ writeAligned_changes (by decide)
          with_reducible exact Changes.refl
        · with_reducible refine Changes.next ?_ dropWrite_changes (by decide)
          with_reducible exact Changes.refl

theorem bar2Piece_changes {s : State} {h : Nat} {pa : Nat} {n : Nat} : Changes [.free, .positions, .halls, .hubs, .mem, .memErr,
    .outputs, .promotes, .series, .meshFault, .resent] s (bar2Piece s h pa n).1 := by
  unfold bar2Piece
  split
  · with_reducible exact Changes.refl
  · with_reducible refine Changes.next ?_ hubRead_changes (by decide)
    with_reducible exact Changes.refl

theorem runBar2Read_changes {h : Hall} {offset : BitVec 36} {n : Nat} {s : State} : Changes [.free, .positions, .halls, .hubs, .mem,
    .memErr, .outputs, .promotes, .series, .meshFault, .resent, .hostRead, .hostReadPoison] s (runBar2Read h offset n s) := by
  unfold runBar2Read
  with_reducible refine Changes.ite_ (fun _ => ?_) (fun _ => ?_)
  · with_reducible refine Changes.ite_ (fun _ => ?_) (fun _ => ?_)
    · with_reducible refine Changes.next ?_ with_hostRead_changes (by decide)
      with_reducible exact Changes.refl
    · with_reducible exact Changes.refl
  · with_reducible refine Changes.next ?_ with_hostRead_changes (by decide)
    with_reducible refine Changes.ite_ (fun _ => ?_) (fun _ => ?_)
    · with_reducible refine Changes.next ?_ (modHall_changes ?_) (by decide)
      · with_reducible refine Changes.foldl_in Prod.fst ?_ (fun _ _ => ?_)
        · with_reducible exact Changes.refl
        · with_reducible refine Changes.next ?_ bar2Piece_changes (by decide)
          with_reducible exact Changes.refl
      · exact fun _ h => h
    · with_reducible refine Changes.foldl_in Prod.fst ?_ (fun _ _ => ?_)
      · with_reducible exact Changes.refl
      · with_reducible refine Changes.next ?_ bar2Piece_changes (by decide)
        with_reducible exact Changes.refl

theorem runBar2Write_changes {h : Hall} {offset : BitVec 36} {data : List Byte} {s : State} : Changes [.free, .halls, .hubs, .mem,
    .memErr, .outputs, .promotes, .series, .meshFault, .resent] s (runBar2Write h offset data s) := by
  unfold runBar2Write
  with_reducible refine Changes.ite_ (fun _ => ?_) (fun _ => ?_)
  · with_reducible exact Changes.refl
  · with_reducible refine Changes.foldl ?_ (fun _ _ => ?_)
    · with_reducible exact Changes.refl
    · with_reducible refine Changes.ite_ (fun _ => ?_) (fun _ => ?_)
      · with_reducible exact Changes.refl
      · with_reducible refine Changes.next ?_ hubWrite_changes (by decide)
        with_reducible exact Changes.refl

end Sys2Proof.Machine
end

