-- ==== Sys2Proof/Laws/ChangesRead.lean ====
section
/-! SUPPORT. Reading the state through `Changes`, states equal part by part, and writing back what was read. -/

namespace Sys2Proof.Machine

/-- Two states with the same commands waiting and every part the same are one state. -/
theorem State.eq_of_parts {s t : State} (hp : t.pending = s.pending) (h : ∀ p : Part, p.same s t) : t = s := by
  cases s; cases t
  simp only [State.mk.injEq]
  exact ⟨hp, h .free, h .order, h .rate, h .time, h .time1, h .fuse, h .started, h .aliveLevel, h .moduleDown, h .queues, h .sems, h .semGrp, h .own, h .signals, h .lcores, h .positions, h .halls, h .hubs, h .ports, h .jobs, h .slots, h .stats, h .miller, h .chain, h .power, h .jtag, h .timeCfg, h .selfTest, h .mem, h .memErr, h .outputs, h .promotes, h .series, h .meshFault, h .resent, h .leafs, h .hostMem, h .hostRead, h .hostReadPoison, h .delivered⟩

/-- What changes no part changes nothing. -/
theorem Changes.eq_of_none {s t : State} (h : Changes [] s t) : t = s := State.eq_of_parts h.pending fun p => h.only p rfl

theorem Changes.getQueue {L : List Part} {s t : State} (h : Changes L s t) (e : L.contains .queues = false) (k : Nat) :
    Sys2Proof.Machine.getQueue t k = Sys2Proof.Machine.getQueue s k := by
  unfold Sys2Proof.Machine.getQueue
  rw [show t.queues = s.queues from h.only .queues e]

theorem Changes.getSem {L : List Part} {s t : State} (h : Changes L s t) (e : L.contains .sems = false) (k : Nat) :
    Sys2Proof.Machine.getSem t k = Sys2Proof.Machine.getSem s k := by
  unfold Sys2Proof.Machine.getSem
  rw [show t.sems = s.sems from h.only .sems e]

theorem Changes.getSemGrp {L : List Part} {s t : State} (h : Changes L s t) (e : L.contains .semGrp = false) (k : Nat) :
    Sys2Proof.Machine.getSemGrp t k = Sys2Proof.Machine.getSemGrp s k := by
  unfold Sys2Proof.Machine.getSemGrp
  rw [show t.semGrp = s.semGrp from h.only .semGrp e]

theorem Changes.getOwn {L : List Part} {s t : State} (h : Changes L s t) (e : L.contains .own = false) (k : Nat) :
    Sys2Proof.Machine.getOwn t k = Sys2Proof.Machine.getOwn s k := by
  unfold Sys2Proof.Machine.getOwn
  rw [show t.own = s.own from h.only .own e]

theorem Changes.getCore {L : List Part} {s t : State} (h : Changes L s t) (e : L.contains .lcores = false) (k : Nat) :
    Sys2Proof.Machine.getCore t k = Sys2Proof.Machine.getCore s k := by
  unfold Sys2Proof.Machine.getCore
  rw [show t.lcores = s.lcores from h.only .lcores e]

theorem Changes.getPos {L : List Part} {s t : State} (h : Changes L s t) (e : L.contains .positions = false) (k : Nat) :
    Sys2Proof.Machine.getPos t k = Sys2Proof.Machine.getPos s k := by
  unfold Sys2Proof.Machine.getPos
  rw [show t.positions = s.positions from h.only .positions e]

theorem Changes.getHall {L : List Part} {s t : State} (h : Changes L s t) (e : L.contains .halls = false) (k : Nat) :
    Sys2Proof.Machine.getHall t k = Sys2Proof.Machine.getHall s k := by
  unfold Sys2Proof.Machine.getHall
  rw [show t.halls = s.halls from h.only .halls e]

theorem Changes.getHub {L : List Part} {s t : State} (h : Changes L s t) (e : L.contains .hubs = false) (k : Nat) :
    Sys2Proof.Machine.getHub t k = Sys2Proof.Machine.getHub s k := by
  unfold Sys2Proof.Machine.getHub
  rw [show t.hubs = s.hubs from h.only .hubs e]

theorem Changes.getPort {L : List Part} {s t : State} (h : Changes L s t) (e : L.contains .ports = false) (k : Nat) :
    Sys2Proof.Machine.getPort t k = Sys2Proof.Machine.getPort s k := by
  unfold Sys2Proof.Machine.getPort
  rw [show t.ports = s.ports from h.only .ports e]

theorem Changes.getJob {L : List Part} {s t : State} (h : Changes L s t) (e : L.contains .jobs = false) (k : Nat) :
    Sys2Proof.Machine.getJob t k = Sys2Proof.Machine.getJob s k := by
  unfold Sys2Proof.Machine.getJob
  rw [show t.jobs = s.jobs from h.only .jobs e]

/-- A table in its canonical form keeps what it holds when that is written back. -/
theorem tabSet_tabGetFrom {α : Type} [DecidableEq α] {d : α} {lo : Nat} {t : Tab α} (h : tabWfFrom d lo t = true) (k : Nat) :
    tabSet d k (tabGet d t k) t = t := by
  induction t generalizing lo with
  | nil => simp [tabGet, tabSet]
  | cons x r ih =>
    obtain ⟨a, b⟩ := x
    simp [tabWfFrom] at h
    by_cases e : a = k
    · subst e
      simp [tabGet, tabSet, h.1.2]
    · simp only [tabGet, if_neg e, tabSet]
      split
      · next l => rw [tabGet_below h.2 (by omega)]; simp
      · rw [if_neg (fun e' => e e'.symm), ih h.2]

theorem tabSet_tabGet {α : Type} [DecidableEq α] {d : α} {t : Tab α} (h : tabWf d t = true) (k : Nat) :
    tabSet d k (tabGet d t k) t = t := tabSet_tabGetFrom h k

theorem setQueue_getQueue {s : State} (c : Canonical s) (k : Nat) : setQueue s k (getQueue s k) = s := by
  unfold setQueue getQueue
  rw [tabSet_tabGet c.queues]

theorem setSem_getSem {s : State} (c : Canonical s) (k : Nat) : setSem s k (getSem s k) = s := by
  unfold setSem getSem
  rw [tabSet_tabGet c.sems]

theorem setSemGrp_getSemGrp {s : State} (c : Canonical s) (k : Nat) : setSemGrp s k (getSemGrp s k) = s := by
  unfold setSemGrp getSemGrp
  rw [tabSet_tabGet c.semGrp]

theorem setOwn_getOwn {s : State} (c : Canonical s) (k : Nat) : setOwn s k (getOwn s k) = s := by
  unfold setOwn getOwn
  rw [tabSet_tabGet c.own]

theorem setCore_getCore {s : State} (c : Canonical s) (k : Nat) : setCore s k (getCore s k) = s := by
  unfold setCore getCore
  rw [tabSet_tabGet c.lcores]

theorem setPos_getPos {s : State} (c : Canonical s) (k : Nat) : setPos s k (getPos s k) = s := by
  unfold setPos getPos
  rw [tabSet_tabGet c.positions]

theorem setHall_getHall {s : State} (c : Canonical s) (k : Nat) : setHall s k (getHall s k) = s := by
  unfold setHall getHall
  rw [tabSet_tabGet c.halls]

theorem setHub_getHub {s : State} (c : Canonical s) (k : Nat) : setHub s k (getHub s k) = s := by
  unfold setHub getHub
  rw [tabSet_tabGet c.hubs]

theorem setPort_getPort {s : State} (c : Canonical s) (k : Nat) : setPort s k (getPort s k) = s := by
  unfold setPort getPort
  rw [tabSet_tabGet c.ports]

theorem setJob_getJob {s : State} (c : Canonical s) (k : Nat) : setJob s k (getJob s k) = s := by
  unfold setJob getJob
  rw [tabSet_tabGet c.jobs]

end Sys2Proof.Machine
end

