-- ==== Sys2Proof/Tests/Slice0.lean ====
section
/-! SUPPORT. The tests: what well-formedness refuses, one step of the commands on small states with results taken from the manual, and for
the hypotheses of every statement a state and operands that meet them. -/

open Sys2Proof Sys2Proof.Machine

namespace Sys2Proof.Tests

set_option Elab.async false

/-! ## Well-formedness: one ill-formed term for each check -/

def frame0 : Frame := { blankFrame with payload := [] }
def codeword0 : ControlCodeword :=
  { word := { slot := 0, errors := [] }, lfa := 5, credits := [0, 0, 0, 0], ack := none, replay := none, handover := none, timeOffset := 0,
    hops := 1, master := 0 }

/-- The host hub of hall 0 as the one that asks, and bytes with one poison mark. -/
def hostAsks : Asker := { stop := 44, reader := .host }
def withMark (l : List Byte) (poison : Bool) : List (Byte × Bool) := l.map fun b => (b, poison)

/-- A self-test that finds nothing failing. -/
def allGood : Findings := { positions := [], rows := [], packages := [], other := false }
def row0 : BadRow := { hub := 0, channel := 4, bank := 1, row := 9 }

theorem test_wellFormed_repeatedPosition : (Instr.selftestStart { allGood with positions := [(0, 3), (0, 3)] }).wellFormed = false := by decide
theorem test_wellFormed_repeatedRow : (Instr.selftestStart { allGood with rows := [row0, row0] }).wellFormed = false := by decide
theorem test_wellFormed_repeatedPackage : (Instr.selftestStart { allGood with packages := [(0, 1), (0, 1)] }).wellFormed = false := by decide
theorem test_wellFormed_widthNine : (Instr.registerWrite 0 0 9 0).wellFormed = false := by decide
theorem test_wellFormed_widthZero : (Instr.registerWrite 0 0 0 0).wellFormed = false := by decide
theorem test_wellFormed_emptyBar2Read : (Instr.bar2Read 0 0 0).wellFormed = false := by decide
theorem test_wellFormed_emptyBar2Write : (Instr.bar2Write 0 0 []).wellFormed = false := by decide
theorem test_wellFormed_readAcrossBolts : (Instr.hubReadRequest 2047 2 hostAsks none).wellFormed = false := by decide
theorem test_wellFormed_emptyHubWrite : (Instr.hubWriteRequest 0 (withMark [] false) hostAsks none).wellFormed = false := by decide
theorem test_wellFormed_longPayload :
    (Instr.frameReceive 0 0 (List.replicate 64 0) (List.replicate 4097 0) [] []).wellFormed = false := by decide +kernel
theorem test_wellFormed_shortHeader : (Instr.frameReceive 0 0 (List.replicate 63 0) [] [] []).wellFormed = false := by decide
theorem test_wellFormed_threeCredits :
    (Instr.controlCodeword 0 0 { codeword0 with credits := [0, 0, 0] }).wellFormed = false := by decide
theorem test_wellFormed_repeatedLane : (Instr.portTrain 0 0 { lanes := [1, 1], deskewed := true } none).wellFormed = false := by decide
theorem test_wellFormed_wideCurrent : (Instr.millerWindow 65536 0).wellFormed = false := by decide
theorem test_wellFormed_wideVoltage : (Instr.vinOut 65536).wellFormed = false := by decide
theorem test_wellFormed_boltEnd : (Instr.hubReadRequest 2047 1 hostAsks none).wellFormed = true := by decide

/-! ## States the tests start from -/

/-- The state a command leaves. -/
def after (c : Instr) (s : State) : State :=
  match exec c s with
  | .next t => t
  | .fault _ => s
  | .refused _ => s

/-- The address a command stops at. -/
def stopsAt (c : Instr) (s : State) : Option Nat :=
  match exec c s with
  | .next _ => none
  | .fault (.noSuchAddress a) => some a
  | .refused _ => none

/-- The reset state with logical cores 0 and 1 and their positions alone, and a cached leaf that maps the first 64 KiB of job context 0. -/
def w0 : State :=
  { State.reset with
    lcores := [(0, { pos := 0 }), (1, { pos := 1 })],
    positions := [(0, { status := .inService }), (1, { status := .inService })],
    leafs := [(0, [{ job := 0, va := 0, size := 0x10000, pa := 0x10000, write := true }])] }

theorem canonical_w0 : Canonical w0 := canonical_of_test (by decide +kernel)

/-- No packet and no access to memory meets an error. -/
theorem quiet_w0 : QuietMemory w0 :=
  ⟨⟨rfl, rfl, fun _ => ⟨rfl, rfl⟩, fun _ _ => rfl⟩, fun _ => rfl, fun _ => (by decide : (0 : Nat) < 256), fun _ _ => rfl,
    fun _ => ⟨false, false, (by decide : ({} : PairErr) = { syms := [], chk := poisonPattern false false })⟩⟩

/-- A command of 64 bytes: its opcode, and numbers at byte offsets. -/
def word (op : Nat) (l : List (Nat × Nat)) : BitVec 512 := BitVec.ofNat 512 (op + (l.map fun x => x.2 * 256 ^ x.1).sum)

def flight (op : Nat) (l : List (Nat × Nat)) : InFlight := { seq := 0, cmd := word op l, desc := 0, start := 0 }

/-- Queue `k` with one command in flight. -/
def running (k : Nat) (c : InFlight) : State :=
  setQueue w0 k { enable := true, state := .run, sizeLog2 := 4, prod := 1, fetchSeq := 1, inflight := [c] }

def mq0 : QRef := .core 0 .mq

/-! ## Opcodes that only complete (R53, R58, R67) -/

theorem test_ctlNop_counts : (getQueue (after (.ctlNop mq0) (running 0 (flight 0 []))) 0).cmplSeq = 1 := by decide +kernel
theorem test_fence_record :
    (hubRead (after (.fence mq0) (running 0 { flight 4 [(24, 3)] with seq := 5 })) 44 0x10050 6 .host none).bytes.map (·.1) = [5, 0, 0, 0, 0, 0] := by
  decide +kernel
theorem test_semSignal_sends :
    (after (.semSignal mq0) (running 0 (flight 2 [(1, 2), (6, 0x145), (16, 7)]))).signals
      = [{ sem := 0x145, add := 7, source := .command 0 0 0, stop := 0 }] := by decide +kernel
theorem test_semWait_idles : (getQueue (after (.semWait mq0) (running 0 (flight 1 []))) 0).state = .idle := by decide +kernel
theorem test_otherOpcode_waits : after (.semWait mq0) (running 0 (flight 2 [])) = running 0 (flight 2 []) := by decide +kernel
theorem test_fenceEvent_marks :
    ((getHall (after (.fenceEvent mq0) (running 0 (flight 5 [(24, 3)]))) 0).held.map (·.code)) = [0x0800, 0x0002] := by decide +kernel
theorem test_swapmark_marks : (getQueue (after (.syncSwapmark 0 .mq) (running 0 (flight 6 [(24, 9)]))) 0).state = .mark := by
  decide +kernel
theorem test_swapmark_window : (getCore (after (.syncSwapmark 0 .mq) (running 0 (flight 6 [(24, 9)]))) 0).window = some 9 := by
  decide +kernel

/-! ## Witnesses: the machine and the life of a command -/

theorem witness_emptyQueue : w0.pending = [] := rfl
theorem witness_absentAddress :
    requestOk w0 2061584302080 1 = false ∧ stopsAt (.hubReadRequest 2061584302080 1 hostAsks none) w0 = some 2061584302080
      ∧ stopsAt (.hubWriteRequest 2061584302080 (withMark [1] false) hostAsks none) w0 = some 2061584302080 := by decide +kernel
theorem witness_lastAddress : stopsAt (.hubReadRequest 2061584302079 1 hostAsks none) w0 = none := by decide +kernel

/-- A queue whose oldest command can complete with a record. -/
theorem witness_completion :
    Canonical (running 0 (flight 2 [(1, 2)])) ∧ headOf (running 0 (flight 2 [(1, 2)])) 0 = some (flight 2 [(1, 2)])
      ∧ (getQueue (running 0 (flight 2 [(1, 2)])) 0).front = none ∧ Going (getQueue (running 0 (flight 2 [(1, 2)])) 0)
      ∧ RecordLands (running 0 (flight 2 [(1, 2)])) 0 (flight 2 [(1, 2)]) 0 0 [] ∧ dieUp (running 0 (flight 2 [(1, 2)])) = true
      ∧ opcodeOf (flight 2 [(1, 2)]).cmd = 0x02 := by
  refine ⟨canonical_of_test (by decide +kernel), by decide +kernel, rfl, Or.inr (Or.inl (by decide +kernel)), ?_, ?_⟩
  · show _ = none
    decide +kernel
  · decide +kernel
/-- One that waits for an acknowledgement that never comes. -/
def lostAck (op : Nat) : InFlight := { flight op [] with unacked := true }
theorem witness_lostAck : headOf (running 0 (lostAck 0)) 0 = some (lostAck 0) ∧ (lostAck 0).unacked = true := by decide +kernel
theorem test_lostAck : after (.ctlNop mq0) (running 0 (lostAck 0)) = running 0 (lostAck 0) := by decide +kernel
theorem witness_plainNop : headOf (running 0 (flight 0 [])) 0 = some (flight 0 []) ∧ opcodeOf (flight 0 []).cmd = 0x00 := by decide +kernel
theorem witness_plainWait : headOf (running 0 (flight 1 [])) 0 = some (flight 1 []) ∧ opcodeOf (flight 1 []).cmd = 0x01 := by decide +kernel

/-- Fences with every condition met, and with a covered command still in flight. -/
def covering (op : Nat) : InFlight := { flight op [(24, 1)] with covers := [(1, 0)] }
def fenced (op : Nat) : State :=
  setQueue (running 0 (covering op)) 1 { enable := true, state := .run, sizeLog2 := 4, prod := 1, fetchSeq := 1, inflight := [flight 0x40 []] }
theorem witness_fenceMet :
    dieUp w0 = true ∧ headOf (running 0 (covering 4)) 0 = some (covering 4) ∧ opcodeOf (covering 4).cmd = 0x04
      ∧ headOf (running 0 (covering 5)) 0 = some (covering 5) ∧ opcodeOf (covering 5).cmd = 0x05
      ∧ (∀ x ∈ (covering 4).covers, ∀ f ∈ (getQueue (running 0 (covering 4)) x.1).inflight, f.seq ≠ x.2)
      ∧ scopeHubs 0 (fld (covering 4).cmd 24 0 2) = [] ∧ eventsPending (running 0 (covering 5)) 0 (covering 5) = false := by
  decide +kernel
theorem witness_fenceUnmet :
    (covering 4).covers = [(1, 0)] ∧ (getQueue (fenced 4) 1).inflight.map (·.seq) = [0] ∧ headOf (fenced 4) 0 = some (covering 4) := by
  decide +kernel

theorem witness_swapMark :
    Canonical (running 0 (flight 6 [])) ∧ dieUp (running 0 (flight 6 [])) = true ∧ headOf (running 0 (flight 6 [])) 0 = some (flight 6 [])
      ∧ opcodeOf (flight 6 []).cmd = 0x06 ∧ (getQueue (running 0 (flight 6 [])) 0).state ≠ .mark
      ∧ isHalted (getQueue (running 0 (flight 6 [])) 0).state = false ∧ (getCore (running 0 (flight 6 [])) 0).window = none :=
  ⟨canonical_of_test (by decide +kernel), by decide +kernel⟩
/-- Another window number is rejected. -/
theorem witness_swapMarkOther :
    (getCore (modCore (running 0 (flight 6 [])) 0 fun c => { c with window := some 3 }) 0).window = some 3
      ∧ (getCore (modCore (running 0 (flight 6 [])) 0 fun c => { c with window := some 3 }) 0).fenced = false
      ∧ markWindow (flight 6 []).cmd ≠ 3
      ∧ (getQueue (after (.syncSwapmark 0 .mq) (modCore (running 0 (flight 6 [])) 0 fun c => { c with window := some 3 })) 0).lastStatus = 0x18 := by
  decide +kernel

/-- A ring of job context 0 at address 0 of its space, with a SEM.WAIT for semaphore 3 to reach 1 in slot 0. -/
def posted : State :=
  setSemGrp (setOwn (setQueue { w0 with mem := putBytes [] 0x10000 (leBytes 64 (word 1 [(1, 1), (4, 3), (8, 1)]).toNat) } 0
    { enable := true, state := .run, sizeLog2 := 4, prod := 1, cbase := 0x1000 }) 0 { owned := true }) 0 { owned := true }
theorem test_fetch_waits : (getQueue (after (.commandFetch mq0) posted) 0).state = .wait := by decide +kernel
theorem witness_fetch :
    let qu := getQueue posted 0
    let rd := vaRead posted (qCtx posted 0) (qu.base.toNat + 64 * (qu.fetchSeq.toNat % ringSize qu)) 64 .fetch
    let c : BitVec 512 := BitVec.ofNat 512 (leNat (rd.bytes.map (·.1)))
    let r := checkCommand (modQueue rd.st 0 fun q => { q with fetchSeq := qu.fetchSeq + 1 }) 0 c qu.fetchSeq
    mayFetch posted 0 = true ∧ qu.state = .run ∧ fetchFail rd = none ∧ r.fail = none ∧ hdrWait c = true ∧ brokenWait r.st c = false
      ∧ mayFetch w0 0 = false := by decide +kernel
theorem canonical_posted : Canonical posted := canonical_of_test (by decide +kernel)

/-- A front command that waits for semaphore 3 to reach 1. -/
def waiting (cc : Nat) : Front := { seq := 0, cmd := word 1 [(1, 1), (3, cc), (4, 3), (8, 1)], desc := 0, stage := .wait, fail := none }
def atWait (cc : Nat) (v : W64) : State :=
  setSem (setQueue w0 0 { enable := true, state := .wait, sizeLog2 := 4, prod := 1, fetchSeq := 1, front := some (waiting cc) }) 3 { value := v }
theorem witness_waitBelow : (getSem (atWait 0 0) (hdrWsem (waiting 0).cmd)).value.toNat < hdrWval (waiting 0).cmd := by decide +kernel
theorem witness_waitMet :
    Canonical (atWait 0 1) ∧ dieUp (atWait 0 1) = true ∧ (getQueue (atWait 0 1) 0).front = some (waiting 0) ∧ (waiting 0).stage = .wait
      ∧ (waiting 0).fail = none ∧ Going (getQueue (atWait 0 1) 0)
      ∧ hdrWval (waiting 0).cmd ≤ (getSem (atWait 0 1) (hdrWsem (waiting 0).cmd)).value.toNat ∧ hdrClass (waiting 0).cmd = 0
      ∧ startsInOrder (getQueue (atWait 0 1) 0) (waiting 0).cmd = true ∧ isMatrix (waiting 0).cmd = false :=
  ⟨canonical_of_test (by decide +kernel), rfl, rfl, rfl, rfl, Or.inr (Or.inr (by decide +kernel)), by decide +kernel⟩
/-- The ring of job context 0 in hall 0, with its command at its wait and no other ring asking for its turn. -/
def ringWait (v : W64) : State :=
  setSem (setQueue w0 512 { (getQueue (atWait 0 v) 0) with
    front := some { waiting 0 with cmd := word 0xC3 [(1, 1), (4, 3), (8, 1)] } }) 3 { value := v }
theorem witness_ringWait :
    Canonical (ringWait 1) ∧ (∀ j, j < 16 → 512 + 16 * qHall 512 + j ≠ 512 → cqDue (ringWait 1) (qHall 512) j = false)
      ∧ startsInOrder (getQueue (ringWait 1) 512) (word 0xC3 [(1, 1), (4, 3), (8, 1)]) = true ∧ isMatrix (word 0xC3 [(1, 1), (4, 3), (8, 1)]) = false :=
  ⟨canonical_of_test (by decide +kernel), by decide +kernel⟩
theorem test_ring_starts : (getQueue (after (.waitMet (.cq 0 0)) (ringWait 1)) 512).inflight.length = 1 := by decide +kernel
theorem test_wait_starts : (getQueue (after (.waitMet mq0) (atWait 0 1)) 0).state = .run := by decide +kernel

/-- A request of MQ of logical core 0 for class 1 (R461). -/
def request0 : Request := { queue := 0, cc := 1, res := 100, time := 0 }
def charge0 : Nat := chargeOf w0.miller request0.res
def asking : State :=
  modHall (setQueue w0 0 { enable := true, state := .run, sizeLog2 := 4, prod := 1, fetchSeq := 1,
                           front := some { waiting 1 with stage := .request } }) 0 fun hl => { hl with requests := [request0] }
theorem witness_grant :
    Canonical asking ∧ dieUp asking = true ∧ (getHall asking 0).requests = [request0] ∧ request0.queue < 2048
      ∧ (getQueue asking request0.queue).front = some { waiting 1 with stage := .request } ∧ isMatrix (waiting 1).cmd = false
      ∧ asking.miller.throttle = false ∧ (getHall asking 0).down = false
      ∧ ((recentRamp (getHall asking 0) (now asking 0)).map (·.2)).sum + charge0 ≤ 1000 ∧ charge0 ≤ unreserved asking 0
      ∧ admission asking 0 request0 = some false :=
  ⟨canonical_of_test (by decide +kernel), by decide +kernel⟩
theorem test_grant_starts : (getQueue (after (.grantAdmit 0) asking) 0).inflight.length = 1 := by decide +kernel

/-! ## Witnesses: semaphores and marks -/

def signalled (v : W64) : State := { setSem w0 7 { value := v } with signals := [{ sem := 7, add := 1, source := .host }] }
theorem witness_signal :
    Canonical (signalled 5) ∧ dieUp (signalled 5) = true ∧ (signalled 5).signals[0]? = some { sem := 7, add := 1, source := .host }
      ∧ (getSem (signalled 5) 7).value.toNat + 1 < 2 ^ 64 ∧ 2 ^ 64 ≤ (getSem (signalled 0xFFFFFFFFFFFFFFFF) 7).value.toNat + 1 :=
  ⟨canonical_of_test (by decide +kernel), by decide +kernel⟩
/-- A signal that comes before its turn, and one that comes again (R355, R368). -/
def early : Signal := { sem := 7, add := 1, source := .host, num := 1 }
def repeated : State := setSeries { w0 with signals := [{ early with num := 0 }] } (Machine.signalSeries early) { sent := 1, applied := 1 }
theorem witness_signalTurn :
    (getSeries { w0 with signals := [early] } (Machine.signalSeries early)).applied < early.num
      ∧ 0 < (getSeries repeated (Machine.signalSeries early)).applied := by decide +kernel
theorem test_signalTurn :
    after (.semaphoreSignalApply 0) { w0 with signals := [early] } = { w0 with signals := [early] }
      ∧ (after (.semaphoreSignalApply 0) repeated).signals = [] ∧ getSem (after (.semaphoreSignalApply 0) repeated) 7 = {} := by decide +kernel
theorem test_signal_wraps :
    getSem (after (.semaphoreSignalApply 0) (signalled 0xFFFFFFFFFFFFFFFF)) 7 = { value := 0, wrap := true } := by decide +kernel
theorem witness_semAdd : hostUp w0 0 = true ∧ hostUp w0 1 = true := by decide +kernel
theorem test_semAdd_event : (getHall (after (.semAdd 0 7 1) (signalled 0xFFFFFFFFFFFFFFFF)) 0).evSeq = 2 := by decide +kernel
/-- R71: a BROKEN semaphore at 1 on which queue 0 waits. -/
def brokenWaits : State := setSem (atWait 0 1) 3 { value := 1, broken := true }
theorem witness_semSet : (getSem w0 4103).broken = false ∧ (getSem brokenWaits 3).broken = true := by decide +kernel
theorem test_semSet_breaks : (getQueue (after (.semSet 0 3 0) brokenWaits) 0).state = .haltWait := by decide +kernel
theorem test_semSet_value : getSem (after (.semSet 1 7 9) w0) 4103 = { value := 9 } := by decide +kernel

def mark0 : Marking := { sems := [7], first := 3, upto := 3, origin := {} }
def halted : State :=
  setSemGrp (setQueue w0 0 { enable := true, state := .haltFault, sizeLog2 := 4, markings := [mark0] }) 0 { owned := true }
theorem witness_brokenMark :
    dieUp halted = true ∧ (getQueue halted 0).markings = [mark0] ∧ mark0.first = mark0.upto
      ∧ ownsSem halted 0 7 = true ∧ ownsSem halted 1 7 = false ∧ brokenWaiters halted 7 = [] := by decide +kernel
theorem canonical_halted : Canonical halted := canonical_of_test (by decide +kernel)
theorem test_brokenMark : (getSem (after (.brokenMark mq0) halted) 7).broken = true := by decide +kernel

/-! ## Witnesses: swap windows -/

def marker (k : Nat) (s : State) : State := setQueue s k { enable := true, state := .mark, sizeLog2 := 4, inflight := [flight 6 []] }
def marked : State := marker 3 (marker 2 (marker 1 (marker 0 w0)))
def markedFenced : State := modCore marked 0 fun c => { c with fenced := true }
theorem witness_swapOpen :
    dieUp markedFenced = true ∧ allMarked markedFenced 0 = true ∧ (getCore markedFenced 0).swap = none ∧ (getCore markedFenced 0).fenced = true
      ∧ earlierRepair markedFenced 0 = false ∧ (getCore markedFenced 0).pos < 72 ∧ (getPos markedFenced (posKey 0 0)).status = .inService
      ∧ (nearestSpare markedFenced 0 0).isSome = true ∧ (getCore marked 0).fenced = false ∧ allMarked marked 0 = true := by decide +kernel
theorem canonical_markedFenced : Canonical markedFenced := canonical_of_test (by decide +kernel)
theorem canonical_marked : Canonical marked := canonical_of_test (by decide +kernel)
theorem witness_noRotation : rotates marked 0 = false ∧ windowDue marked 0 = true ∧ windowDue w0 1 = true := by decide +kernel
/-- The position of logical core 0 asks for a bench run under R291. -/
def rotating : State := modPos marked 0 fun p => { p with benchReq291 := true }
theorem witness_rotation :
    Canonical rotating ∧ windowDue rotating 0 = true ∧ (getCore rotating 0).swap = none ∧ (getCore rotating 0).fenced = false
      ∧ rotates rotating 0 = true ∧ (nearestSpare rotating 0 (getCore rotating 0).pos).isSome = true :=
  ⟨canonical_of_test (by decide +kernel), by decide +kernel⟩
/-- The copy of that rotation, to position 10. -/
def copying : State := modCore rotating 0 fun c => { c with swap := some { start := 0, old := 0, new := 10, cause := 1, swapped := false, copying := true } }
theorem witness_rotationEnds :
    ((getCore copying 0).swap.map (·.copying)) = some true ∧ (getPos copying (posKey 0 10)).status = .ready
      ∧ nearestSpare (modCore (modCore copying 0 fun c => { c with fenced := true }) 0 fun c =>
          { c with swap := c.swap.map fun w => { w with cause := 0, copying := false } }) 0 0 = some 10
      ∧ (getPos (setPos copying 10 { status := .hole }) (posKey 0 10)).status ≠ .ready := by decide +kernel
theorem canonical_copying : Canonical copying := canonical_of_test (by decide +kernel)
theorem test_rotation : (getCore (after (.swapWindowOpen 0) rotating) 0).swap.map (·.copying) = some true
    ∧ (getCore (after (.swapWindowOpen 0) rotating) 0).pos = 0 := by decide +kernel
/-- R33: with its target failed the core stays where it is. -/
theorem test_rotationFails : (getCore (endRotation (setPos copying 10 { status := .hole }) 0) 0).pos = 0 := by decide +kernel
theorem witness_swapClose :
    (getCore (after (.swapWindowOpen 0) markedFenced) 0).swap.isSome = true
      ∧ ((getCore (after (.swapWindowOpen 0) markedFenced) 0).swap.map (·.swapped)) = some true
      ∧ ((getCore (after (.swapWindowOpen 0) marked) 0).swap.map (·.swapped)) = some false := by decide +kernel
theorem test_swap_counts :
    (getHall (after (.swapWindowClose 0) (after (.swapWindowOpen 0) markedFenced)) 0).swapCount = 1 := by decide +kernel
theorem test_swap_markers :
    (getQueue (after (.swapWindowClose 0) (after (.swapWindowOpen 0) marked)) 2).cmplSeq = 1 := by decide +kernel
theorem witness_noSpare : nearestSpare { w0 with positions := (List.range 72).map fun i => (i, { status := .retired }) } 0 0 = none := by
  decide +kernel

/-! ## Witnesses and tests: queues, ownership and translation -/

def withQueue (k : Nat) (q : Queue) : State := setQueue w0 k q
/-- A ring of 16 commands, 3 posted, 1 complete, in a given state. -/
def ring (st : QState) : Queue := { enable := true, state := st, sizeLog2 := 4, prod := 3, cmplSeq := 1, fetchSeq := 1 }

theorem witness_doorbell :
    Canonical (withQueue 0 (ring .idle)) ∧ hostUp (withQueue 0 (ring .idle)) (qHall (qKey mq0)) = true
      ∧ (0 ≤ ((17 : W32) - (ring .idle).prod).toInt ∧ ((17 : W32) - (ring .idle).cmplSeq).toInt ≤ 16)
      ∧ ¬ ((18 : W32) - (ring .idle).cmplSeq).toInt ≤ 16 ∧ ¬ 0 ≤ ((2 : W32) - (ring .idle).prod).toInt :=
  ⟨canonical_of_test (by decide +kernel), by decide +kernel, by decide +kernel, by decide +kernel, by decide +kernel⟩
theorem test_doorbell_full : (getQueue (after (.qDoorbell mq0 17) (withQueue 0 (ring .idle))) 0).prod = 17 := by decide +kernel
theorem test_doorbell_over :
    (getQueue (after (.qDoorbell mq0 18) (withQueue 0 (ring .idle))) 0).prod = 3
      ∧ (getHall (after (.qDoorbell mq0 18) (withQueue 0 (ring .idle))) 0).held.map (·.code) = [0x0800, 0x0004] := by decide +kernel
theorem witness_restart :
    Canonical (withQueue 0 (ring .haltWait)) ∧ (ring .haltWait).inflight = [] ∧ ((17 : W32) - (ring .haltWait).cmplSeq).toNat ≤ 2 ^ 4
      ∧ (getJob (withQueue 0 (ring .haltWait)) 0).killed = false ∧ (ring .run).state ≠ .haltFault ∧ (ring .run).state ≠ .haltWait :=
  ⟨canonical_of_test (by decide +kernel), by decide +kernel⟩
theorem test_restart : (getQueue (after (.qRestart mq0 17) (withQueue 0 (ring .haltFault))) 0).state = .run
    ∧ (getQueue (after (.qRestart mq0 1) (withQueue 0 (ring .haltWait))) 0).state = .idle := by decide +kernel
theorem test_restart_killed :
    after (.qRestart mq0 17) (modJob (withQueue 0 (ring .haltFault)) 0 fun j => { j with killed := true })
      = modJob (withQueue 0 (ring .haltFault)) 0 fun j => { j with killed := true } := by decide +kernel

/-- Logical core 0 owned by job context 5, its queues disabled. -/
def ownedCore : State := setOwn w0 0 { owned := true, job := 5 }
theorem witness_enable :
    Canonical ownedCore ∧ hostUp ownedCore (qHall (qKey mq0)) = true ∧ bitOf (0x10004 : W32).toNat 16 = true
      ∧ (getQueue ownedCore 0).enable = false ∧ sizeOk (writeSize (getQueue ownedCore 0) 0x10004).sizeLog2.toNat = true
      ∧ enableOwned ownedCore 0 = true ∧ enableOwned w0 0 = false ∧ sizeOk 4 = true ∧ sizeOk 12 = true ∧ sizeOk 3 = false
      ∧ sizeOk 13 = false ∧ bitOf (0x4 : W32).toNat 16 = false :=
  ⟨canonical_of_test (by decide +kernel), by decide +kernel⟩
theorem test_enable : (getQueue (after (.qEnable mq0 0x10004) ownedCore) 0).state = .idle
    ∧ (getQueue (after (.qEnable mq0 0x10004) w0) 0).enable = false := by decide +kernel
theorem witness_disable :
    Canonical (withQueue 0 (ring .haltFault)) ∧ (ring .haltFault).enable = true
      ∧ (∀ n, qCore 0 = some n → ∀ i, i < 4 → (getQueue (withQueue 0 (ring .haltFault)) (4 * n + i)).state ≠ .mark) :=
  ⟨canonical_of_test (by decide +kernel), rfl, by intro n h; cases h; decide +kernel⟩
theorem test_disable : (getQueue (after (.qDisable mq0 0) (withQueue 0 (ring .idle))) 0).state = .disabled
    ∧ (getQueue (after (.qDisable mq0 0) (withQueue 0 (ring .run))) 0).enable = true := by decide +kernel

theorem witness_own :
    Canonical w0 ∧ hostUp w0 0 = true ∧ (∀ i, i < 4 → (getQueue w0 i).enable = false)
      ∧ (getQueue (withQueue 3 (ring .idle)) 3).enable = true ∧ anyHostUp w0 = true := ⟨canonical_w0, by decide +kernel⟩
theorem test_own : getOwn (after (.stwOwnWrite 0 0x80000005) w0) 0 = { owned := true, job := 5 }
    ∧ (getQueue (after (.stwOwnWrite 0 0x80000005) w0) 3).job = 5
    ∧ after (.stwOwnWrite 0 0x80000005) (withQueue 3 (ring .idle)) = withQueue 3 (ring .idle) := by decide +kernel
theorem test_semgrp : getSemGrp (after (.stwSemgrpWrite 1 63 0x8000000F) w0) 127 = { owned := true, job := 15 } := by decide +kernel
theorem test_invalidate : (getJob (after (.xlateInv 0x8001) w0) 15).invalidating = true
    ∧ (after .xlateInvDone (after (.xlateInv 1) w0)).leafs = [] ∧ (after .xlateInvDone (after (.xlateInv 2) w0)).leafs = w0.leafs := by
  decide +kernel

/-! ## Witnesses and tests: the Sealer, the bench registers, the flip masks -/

theorem witness_sealer :
    Canonical w0 ∧ (getHall w0 0).seaFlip.arm = false ∧ (getHall w0 1).seaFlip.arm = false ∧ (getJob w0 3).seaEnable = false :=
  ⟨canonical_w0, by decide +kernel⟩
/-- A flip of two bits armed in hall 0. -/
def flipped2 : State := modHall w0 0 fun hl => { hl with seaFlip := { arm := true, data := 3 } }
theorem witness_sealerFlip : Canonical flipped2 ∧ (getHall flipped2 0).seaFlip.bits = 2 ∧ (getHall flipped2 1).seaFlip.arm = false
    ∧ (getSlot flipped2 3 9).ecc0 = 0 ∧ (getSlot flipped2 3 9).ecc1 = 0 := ⟨canonical_of_test (by decide +kernel), by decide +kernel⟩
/-- R281: T stands where an uncorrectable error is found. -/
theorem test_sealerFlip : (getSlot (after (.seaSlotCfgWrite 3 9 0x98140005) flipped2) 3 9).t = 0 := by decide +kernel
/-- R273: a write of T sets L_RUN to T + 21 - HEAD; one outside the range leaves it and stores the rest. -/
theorem test_slotCfg :
    getSlot (after (.seaSlotCfgWrite 3 9 0x98140005) w0) 3 9 = { fixed := true, head := 3, fall := 20, t := 5, lrun := 23 }
      ∧ getSlot (after (.seaSlotCfgWrite 3 9 0x98140065) w0) 3 9 = { fixed := true, head := 3, fall := 20 } := by decide +kernel
theorem test_seaJob : (getJob (after (.seaJobEnable 3 0x80000007) (setSem w0 7 { value := 40 })) 3).seaV0 = 40 := by decide +kernel
def closing : State := modJob (setSem w0 7 { value := 41 }) 3 fun j => { j with seaEnable := true, closeSem := 7, seaV0 := 40, doneSem := 8 }
theorem witness_close :
    Canonical closing ∧ dieUp closing = true ∧ (getJob closing 3).seaEnable = true
      ∧ (getJob closing 3).seaV0.toNat + 1 ≤ (getSem closing (getJob closing 3).closeSem).value.toNat ∧ (getJob closing 2).seaEnable = false :=
  ⟨canonical_of_test (by decide +kernel), by decide +kernel⟩
/-- R272: a maximum of 2^22 moves the slot to T 3; a saturated block without a finite maximum raises T by one. -/
theorem test_closeSlot :
    (closeSlot {} { blocks := 1, maxFin := 0x4A800000 }).slot = { t := 3, lrun := 22 }
      ∧ (closeSlot {} { blocks := 1, sat := 1 }).slot = { t := 1, lrun := 20, quiet := 1 } := by decide +kernel
/-- R270: a slot without statistics writes a record of its own; its line of 64 bytes holds the close number. -/
theorem test_closeOne :
    (getStats (closeOne 0 3 1 (setStats closing 1 3 9 { blocks := 1, maxFin := 0x4A800000 }) 9) 1 3 9) = {}
      ∧ (getSlot (closeOne 0 3 1 (setStats closing 1 3 9 { blocks := 1, maxFin := 0x4A800000 }) 9) 3 9).t = 3 := by decide +kernel
theorem test_closeBefore : after (.sealerClose 2) closing = closing := by decide +kernel
theorem test_seaDiscard :
    getStats (after (.seaJobDiscard 3) (setStats (setStats w0 1 3 9 { blocks := 4 }) 1 4 9 { blocks := 5 })) 1 3 9 = {}
      ∧ (getStats (after (.seaJobDiscard 3) (setStats (setStats w0 1 3 9 { blocks := 4 }) 1 4 9 { blocks := 5 })) 1 4 9).blocks = 5 := by
  decide +kernel

theorem witness_tnkReq :
    Canonical w0 ∧ (0x80000046 : W32).getLsbD 31 = true ∧ (getPos w0 (posKey 0 70)).status = .ready
      ∧ (getPos w0 (posKey 0 0)).status = .inService ∧ (0x46 : W32).getLsbD 31 = false := ⟨canonical_w0, by decide +kernel⟩
theorem test_tnkReq : (getHall (after (.tnkReqWrite 0 0x80000046) w0) 0).tnkReqPending = true
    ∧ (getHall (after (.tnkReqWrite 0 0x80000048) w0) 0).tnkReqPending = false
    ∧ ((getHall (after (.tnkReqWrite 0 0x80000000) w0) 0).held.map (·.code)) = [0x0800, 0x0303] := by decide +kernel
def holed : State := setPos w0 5 { status := .hole }
theorem witness_flips :
    Canonical w0 ∧ hostUp w0 (flipHall (.drn 0 0)) = true ∧ ¬ flipInHole w0 (.drn 0 0) ∧ flipInHole holed (.sto 0 5) ∧ Canonical holed
      ∧ hostUp holed (flipHall (.sto 0 5)) = true :=
  ⟨canonical_w0, by decide +kernel, by simp only [flipInHole]; decide +kernel, by simp only [flipInHole]; decide +kernel,
    canonical_of_test (by decide +kernel), by decide +kernel⟩
theorem test_flipArm : (getPos (after (.flipArm (.drn 0 0) 0x81230004) w0) 0).drnFlip = { arm := true, check := 0x123, data := 4 }
    ∧ (getPos (after (.flipArm (.sto 0 0) 0x80000F01) w0) 0).stoFlip = { arm := true, check := 15, data := 1 }
    ∧ after (.flipArm (.sto 0 5) 0x80000F01) holed = holed := by decide +kernel
theorem test_asyCtl : (getPos (after (.asyInject 0 0 0x80000000) w0) 0).asyInject = true
    ∧ (getPos (after (.asyInject 0 0 0x80000000) w0) 0).asyEnable = false ∧ after (.asyInject 0 5 1) holed = holed := by decide +kernel

/-! ## Witnesses and tests: the Cooper's registers -/

def killedJob : State := modJob w0 2 fun j => { j with killed := true, cause := 3 }
def fetchingJob : State := modJob w0 2 fun j => { j with fetching := true }
theorem witness_cooper :
    Canonical w0 ∧ Canonical killedJob ∧ Canonical fetchingJob ∧ bitsOf (16 : W32).toNat 0 5 ≤ 16 ∧ 16 < bitsOf (17 : W32).toNat 0 5
      ∧ (getJob fetchingJob 2).fetching = true ∧ (getJob w0 2).fetching = false ∧ (getJob w0 2).copEnable = false :=
  ⟨canonical_w0, canonical_of_test (by decide +kernel), canonical_of_test (by decide +kernel), by decide +kernel⟩
theorem test_killedClear : (getJob (after (.killedClear 2) killedJob) 2).killed = false ∧ (getJob (after (.killedClear 2) killedJob) 2).cause = 3 := by
  decide +kernel
theorem test_copEnable : (getJob (after (.copEnable 2 0xF2001007) (setSem w0 4103 { value := 9 })) 2).copV0 = 9
    ∧ (getJob (after (.copEnable 2 0xF2001007) w0) 2).copDone = 4096 := by decide +kernel
theorem test_copInterval : (getJob (after (.copIntervalWrite 2 16) w0) 2).log2Next = some 16
    ∧ (getJob (after (.copIntervalWrite 2 17) w0) 2).log2Next = none := by decide +kernel
theorem test_copFetchTimeout : (getJob (after (.copFetchTimeout 2) fetchingJob) 2).result = 3 := by decide +kernel

/-- Job context 0 with a queue in RUN. -/
def busyJob : State := withQueue 0 (ring .run)
/-- Job context 0 with its queues still, its channel 0 towards both neighbours of each hall up. -/
def portsUp : State := [0, 1, 2, 3, 4, 5, 6, 7, 8, 9, 10, 11].foldl (fun s k => modPort s k fun p => { p with up := true, active := 4 })
  (modJob w0 0 fun j => { j with copChmask := 1 })
theorem witness_restoreBusy :
    Canonical busyJob ∧ (getQueue busyJob 0).enable = true ∧ (qJob busyJob 0).toNat = (0 : Job).val ∧ (getQueue busyJob 0).state = .run :=
  ⟨canonical_of_test (by decide +kernel), by decide +kernel⟩
theorem witness_fetchJob :
    Canonical portsUp ∧ jobStill portsUp 0 = true ∧ copPorts portsUp 0 ≠ [] ∧ (∀ k ∈ copPorts portsUp 0, (getPort portsUp k).up = true)
      ∧ copPorts w0 0 = [] ∧ (findGen w0 0 0 (getJob w0 0).copStep).1 = none := ⟨canonical_of_test (by decide +kernel), by decide +kernel⟩
/-- A generation of step 0, complete, at address 0x100000 of a space mapped by one page of 1 GiB. -/
def oneGen : State :=
  modJob { w0 with mem := putBytes (putBytes (putBytes [] 0x1000 (leBytes 8 0x2001)) 0x2000 (leBytes 8 0xD)) 0x100004 [2] } 0 fun j =>
    { j with rootValid := true, root := 1, genBase := 0x100000 }
theorem witness_restore : Canonical oneGen ∧ (findGen oneGen 0 0 (getJob oneGen 0).copStep).1 = some 0 :=
  ⟨canonical_of_test (by decide +kernel), by decide +kernel⟩
theorem test_copRestore : (getJob (after (.copRestore 0) w0) 0).result = 2 ∧ (getJob (after (.copRestore 0) busyJob) 0).result = 6 := by
  decide +kernel
theorem test_copFetch : (getJob (after (.copFetch 0) portsUp) 0).fetching = true ∧ (getJob (after (.copFetch 0) w0) 0).result = 3 := by
  decide +kernel

def due (killed : Bool) : State :=
  modJob (setSem w0 7 { value := 1 }) 0 fun j => { j with copEnable := true, copTrig := 7, killed := killed, log2Next := some 4 }
theorem witness_trigger :
    Canonical (due true) ∧ dieUp (due true) = true ∧ (getJob (due true) 0).copEnable = true
      ∧ (getJob (due true) 0).copV0.toNat + 1 ≤ (getSem (due true) (getJob (due true) 0).copTrig).value.toNat
      ∧ (getJob (due true) 0).killed = true ∧ (getJob w0 0).copEnable = false := ⟨canonical_of_test (by decide +kernel), by decide +kernel⟩
theorem test_trigger : (getJob (after (.cooperTrigger 0) (due true)) 0).copStep = 1 ∧ (getJob (after (.cooperTrigger 0) (due true)) 0).log2 = 4 := by
  decide +kernel
def openGen : State := modJob { w0 with time := 5000 } 0 fun j => { j with opening := some (9, 1000), openedAt := some 1000, copDone := 8 }
/-- The same before its trigger's close has raised DONE_SEM. -/
def stillClosing : State := modJob openGen 0 fun j => { j with openedAt := none }
theorem witness_copyDone :
    Canonical openGen ∧ (getJob openGen 0).opening = some (9, 1000) ∧ (getJob openGen 0).openedAt = some 1000
      ∧ (getJob openGen 0).closing = none ∧ (getJob stillClosing 0).openedAt = none ∧ copiesDone stillClosing 0 9 = true ∧ copiesDone openGen 0 9 = true ∧ (getJob w0 0).opening = none
      ∧ copiesDone (modPort openGen 0 fun p => { p with egress := [{ frame0 with kind := 3, step := 9 }] }) 0 9 = false :=
  ⟨canonical_of_test (by decide +kernel), by decide +kernel⟩
theorem test_copyDone : (getJob (after (.cooperCopyDone 0) openGen) 0).cost = 4 ∧ (getSem (after (.cooperCopyDone 0) openGen) 8).value = 1 := by
  decide +kernel

/-! ## Witnesses and tests: the Bellman and the events -/

def stickyAt (x : W64) : State := modHall w0 0 fun hl => { hl with sticky := x, heldRouter := 5 }
theorem witness_sticky :
    Canonical (stickyAt 0x101) ∧ hostUp (stickyAt 0x101) 0 = true
      ∧ (∀ n, n < 44 → (0x100 : W64).getLsbD n = true → clearable (stickyAt 0x101) 0 n = true ∧ Settled (stickyAt 0x101) 0 n) := by
  have key : ∀ n, n < 44 → (0x100 : W64).getLsbD n = true → n = 8 := by decide
  refine ⟨canonical_of_test (by decide +kernel), by decide +kernel, fun n hn hb => ?_⟩
  obtain rfl := key n hn hb
  exact ⟨by decide +kernel, by decide, by decide, fun _ _ => by decide +kernel⟩
/-- FS_THERM_WARN while the outlet is warm: it is raised again (R427). -/
def warmSticky : State := { stickyAt (2 ^ 34) with power := { w0.power with warm := true } }
theorem witness_stickyPersists :
    Canonical warmSticky ∧ hostUp warmSticky 0 = true ∧ clearable warmSticky 0 34 = true
      ∧ (getHall warmSticky 0).sticky.getLsbD 34 = true ∧ (persists (modHall warmSticky 0 fun hl => clearBit hl 34) 0 34) ≠ 0 :=
  ⟨canonical_of_test (by decide +kernel), by decide +kernel⟩
theorem test_stickyPersists : (getHall (after (.belStickyClear 0 (2 ^ 34)) warmSticky) 0).sticky = 2 ^ 34 := by decide +kernel
theorem witness_stickyStays : clearable (modHall (stickyAt (2 ^ 31)) 0 fun hl => { hl with down := true }) 0 31 = false
    ∧ hostUp (modHall (stickyAt (2 ^ 31)) 0 fun hl => { hl with down := true }) 0 = true := by decide +kernel
theorem test_stickyClear : (getHall (after (.belStickyClear 0 0x100) (stickyAt 0x101)) 0).sticky = 1
    ∧ (getHall (after (.belStickyClear 0 0x100) (stickyAt 0x101)) 0).heldRouter = 0 := by decide +kernel
theorem witness_force : Canonical w0 ∧ hostUp w0 1 = true ∧ (0x10 : W64).getLsbD 4 = true ∧ (0x10 : W64).getLsbD 5 = false :=
  ⟨canonical_w0, by decide +kernel⟩
/-- R428: a forced FS_THERM_WARN (34, in both halls) sets its bit and event, and takes nothing down. -/
theorem test_force : (getHall (after (.belForce 0 (2 ^ 34)) w0) 1).sticky = 2 ^ 34
    ∧ ((getHall (after (.belForce 0 (2 ^ 31)) w0) 0).held.map (·.forced)) = [false, true]
    ∧ (getHall (after (.belForce 0 (2 ^ 31)) w0) 0).down = false := by decide +kernel
theorem witness_report :
    dieUp w0 = true ∧ reportClass (2 : Fin 44) (2 : Fin 7) = 2 ∧ reportClass (0 : Fin 44) (3 : Fin 7) = 3
      ∧ reportClass (31 : Fin 44) (5 : Fin 7) = 5 ∧ reportClass (32 : Fin 44) (6 : Fin 7) = 6 ∧ (getHall w0 0).down = false
      ∧ w0.moduleDown = false ∧ (getHall (after (.stewardWatchdog 0) w0) 0).down = true
      ∧ (after (.bellmanReport 0 32 6 none) w0).moduleDown = true := by decide +kernel
theorem test_report_hall : (getHall (after (.bellmanReport 1 31 5 none) w0) 1).down = true
    ∧ (getHall (after (.bellmanReport 1 31 5 none) w0) 0).down = false := by decide +kernel
theorem test_report_job : (getJob (after (.bellmanReport 0 0 3 (some 4)) w0) 4).killed = true
    ∧ (getJob (after (.bellmanReport 0 0 3 (some 4)) w0) 4).cause = 1 := by decide +kernel

theorem witness_alive : toggling w0 = true ∧ toggling (modHall w0 1 fun hl => { hl with sticky := 2 ^ 31 }) = false := by decide +kernel
theorem test_alive : (after .aliveToggle w0).aliveLevel = true ∧ toggling (modHall w0 1 fun hl => { hl with sticky := 2 ^ 31, aliveMask := 2 ^ 31 })
    = true := by decide +kernel

/-- The event of a completed start in front of a ring that is enabled at 0x1000, one place before its end. -/
def ringOn : State := modHall w0 0 fun hl => { hl with ringEnable := true, ringBase := 0x1000, ringProd := 127, ringCons := 126 }
theorem witness_eventWrite :
    Canonical ringOn ∧ (getHall ringOn 0).held = resetHall.held ∧ ringReady ringOn 0 (eventRecords []) = true ∧ (getHall ringOn 0).lostFirst = none
      ∧ ringReady w0 0 (eventRecords []) = false ∧ (getHall (modHall w0 0 fun hl => { hl with held := [] }) 0).held = [] :=
  ⟨canonical_of_test (by decide +kernel), by decide +kernel⟩
/-- R491: CODE 0x0800 at bytes 12 and 13 of the record, whose PHASE is 1 on the first pass of the ring. -/
theorem test_eventWrite : (getHall (after (.eventWrite 0) ringOn) 0).ringProd = 128
    ∧ tabGet 0 (after (.eventWrite 0) ringOn).hostMem (0x1000 + 32 * 127 + 13) = 0x08 := by decide +kernel
def vec (masked urgent pendingBit : Bool) : State :=
  modHall w0 0 fun hl => setVector hl 3 { addr := 0x2000, data := 0xA5, masked := masked, pendingBit := pendingBit, count := boolNat urgent,
                                          urgent := urgent }
theorem witness_vector :
    Canonical (vec false true false) ∧ (getHall (vec false true false) 0).linkUp = true ∧ (getHall (vec false true false) 0).busMaster = true
      ∧ vectorDue (getHall (vec false true false) 0) 0 (getVector (getHall (vec false true false) 0) 3) = true
      ∧ vectorDue (getHall (vec false false true) 0) 0 (getVector (getHall (vec false false true) 0) 3) = false
      ∧ (getVector (getHall (vec false false true) 0) 3).pendingBit = true ∧ (getVector (getHall (vec true true false) 0) 3).masked = true :=
  ⟨canonical_of_test (by decide +kernel), by decide +kernel⟩
theorem test_msix : tabGet 0 (after (.msixFire 0 3) (vec false true false)).hostMem 0x2000 = 0xA5
    ∧ (getVector (getHall (after (.msixFire 0 3) (vec true true false)) 0) 3).pendingBit = true
    ∧ (after (.msixFire 0 3) (vec true true false)).hostMem = [] := by decide +kernel
theorem witness_ring : Canonical w0 ∧ hostUp w0 0 = true ∧ (0 < ((4 : W32) - (getHall w0 0).ringProd).toInt) ∧
    ¬ (0 < ((0 : W32) - (getHall w0 0).ringProd).toInt) := ⟨canonical_w0, by decide +kernel⟩
theorem test_ringCfg : (getHall (after (.scbRingEnable 0 0x80000010) w0) 0).ringSizeLog2 = 16
    ∧ (getHall (after (.scbRingEnable 0 0x80000006) w0) 0).ringSizeLog2 = 7
    ∧ (getHall (after (.scbRingEnable 0 0x80000011) w0) 0).ringSizeLog2 = 7
    ∧ (getHall (after (.scbRingConsWrite 0 127) ringOn) 0).ringCons = 127
    ∧ (getHall (after (.scbRingConsWrite 0 128) ringOn) 0).ringCons = 126 := by decide +kernel
def dropDue : State := modCore w0 0 fun c => { c with dropPending := true }
theorem witness_slotDrop :
    Canonical dropDue ∧ dieUp dropDue = true ∧ (getCore dropDue 0).dropPending = true ∧ (getCore w0 0).dropPending = false
      ∧ (getJob dropDue (getOwn dropDue 0).job.toNat).slotmapEnable = false := ⟨canonical_of_test (by decide +kernel), by decide +kernel⟩
theorem test_slotDrop : ((getHall (after (.slotDrop 0) dropDue) 0).held.map (·.code)) = [0x0800, 0x0008] := by decide +kernel

/-! ## Witnesses and tests: start, reload, flash -/

/-- A module whose start stopped: its hall `h` has no image. -/
def noImage : State :=
  modHall (modHall { w0 with started := false, power := { w0.power with die := false } } 0 fun hl => { hl with start := .bootFail }) 1 fun hl =>
    { hl with flash := [], start := .bootFail }
/-- A bare error, to compare. -/
def slotError (s : State) : Option StartState :=
  match chooseSlots (getHall s 0) (getHall s 1) with
  | .error e => some e
  | .ok _ => none
theorem witness_retry : bootUp noImage 0 = true ∧ noImage.started = false ∧ bootUp w0 0 = true ∧ w0.started = true
    ∧ slotError noImage = some .bootFail := by decide +kernel
theorem test_retry : (getHall (after (.stwStartRetry 0) noImage) 1).start = .bootFail ∧ (after (.stwStartRetry 0) noImage).power.die = false
    ∧ after (.stwStartRetry 0) w0 = w0 := by decide +kernel
/-- R508: with no position retired logical core 5 of hall 1 begins at position 5. -/
theorem test_mapping : (startCore w0 1 5).pos = 5 ∧ (startPosition w0 1 64).status = .ready := by decide +kernel
theorem witness_coldStart : w0.power.mgmt = true ∧ w0.power.input48 = true
    ∧ (after (.stwStartRetry 0) noImage).power.efuseOpen = false := by decide +kernel
theorem test_coldStart : (after .coldStart { noImage with power := { w0.power with input48 := false, efuseOpen := true } }).power.input48 = true
    ∧ after .coldStart w0 = w0 := by decide +kernel

/-- Hall 0 with a valid slot B of COMPAT `c`. -/
def slotB (c : Byte) : State := modHall w0 0 fun hl => { hl with
  flash := resetFlash ++ ((List.range 64).map fun i => (0x3100000 + i, if i = 0 then 0x40 else if i = 8 then c else (0 : Byte))) }
theorem witness_reload :
    Canonical (slotB 0) ∧ hostUp (slotB 0) 0 = true ∧ anyResident (slotB 0) 0 = false ∧ anyResident ownedCore 0 = true
      ∧ slotCompat (getHall (slotB 0) 0) true = (getHall (slotB 0) 1).imageCompat ∧ slotValid (getHall (slotB 0) 0) true = true
      ∧ slotCompat (getHall (slotB 1) 0) true ≠ (getHall (slotB 1) 1).imageCompat ∧ (0xE0000000 : W32).getLsbD 29 = true := by
  refine ⟨canonical_of_test (by decide +kernel), by decide +kernel⟩
theorem test_reload : (getHall (after (.hallReload 0 0xA0000000) (slotB 1)) 0).reloadStatus = 4
    ∧ (getHall (after (.hallReload 0 0x80000000) ownedCore) 0).reloadStatus = 3
    ∧ (getHall (after (.hallReload 0 0x20000000) (slotB 0)) 0).reloadSlot = true := by decide +kernel
theorem witness_selfTest : Canonical w0 ∧ anyHostUp w0 = true ∧ anyJob w0 = false ∧ anyJob ownedCore = true ∧ Canonical ownedCore :=
  ⟨canonical_w0, by decide +kernel, by decide +kernel, by decide +kernel, canonical_of_test (by decide +kernel)⟩
theorem test_selfTest : (after (.selftestStart { allGood with positions := [(0, 5)] }) w0).selfTest.status = 3 ∧ (after (.selftestStart allGood) ownedCore).selfTest.status = 4 := by
  decide +kernel

/-- Hall 0 with STW_FLASH_ADDR at the idle slot B, whose first byte there is 0x3C. -/
def mailboxAt (a : BitVec 27) : State := modHall w0 0 fun hl => { hl with flashAddr := a, flash := resetFlash ++ [(0x3100000, 0x3C)],
                                                                           mailbox := [(0, 0x0F)] }
theorem witness_mailbox :
    Canonical (mailboxAt 0x3100042) ∧ bootUp (mailboxAt 0x3100042) 0 = true ∧ mailboxSlot (mailboxAt 0x3100042) 0 0x3100000 = true
      ∧ mailboxSlot (mailboxAt 0x3100042) 0 0x60FFFFF = true ∧ mailboxSlot (mailboxAt 0x3100042) 0 0x6100000 = false
      ∧ mailboxSlot (mailboxAt 0x3100042) 0 0x100000 = false ∧ tabWf 0xFF (getHall (mailboxAt 0x3100042) 0).flash = true :=
  ⟨canonical_of_test (by decide +kernel), by decide +kernel⟩
theorem test_mailbox : tabGet 0 (getHall (after (.flashRead 0) (mailboxAt 0x3100042)) 0).mailbox 0 = 0x3C
    ∧ flashByte (getHall (after (.flashProgram 0) (mailboxAt 0x3100042)) 0) 0x3100000 = 0x0C
    ∧ flashByte (getHall (after (.flashErase 0) (mailboxAt 0x3100042)) 0) 0x3100000 = 0xFF
    ∧ (getHall (after (.flashRead 0) (mailboxAt 0x100042)) 0).flashStatus = 2
    ∧ (getHall (after (.flashOpReserved 0) w0) 0).flashStatus = 2 := by decide +kernel
def logged : State := modHall w0 0 fun hl => { hl with logPending := [BitVec.ofNat 512 5] }
theorem witness_append : Canonical logged ∧ (getHall logged 0).logPending = [BitVec.ofNat 512 5]
    ∧ (appendEntry { getHall logged 0 with logPending := [] } (entryRegion (entryBytes 5)).1 (entryRegion (entryBytes 5)).2 (entryBytes 5)).isSome = true
    ∧ appendEntry { getHall logged 0 with logPending := [] } 0 0 (entryBytes 5) = none ∧ (getHall w0 0).logPending = [] :=
  ⟨canonical_of_test (by decide +kernel), by decide +kernel⟩
theorem test_append : flashByte (getHall (after (.repairLogAppend 0) logged) 0) 0x6200000 = 5 := by decide +kernel
/-- R476: KIND 6 of a seam wire's entry is its byte 8, and the link the first byte of its payload. -/
theorem test_seamEntry : ((logEntry 0 6 0 0xFF (leBytes 1 17 ++ leBytes 2 0x123)).drop 8).take 8 = [6, 0, 0xFF, 0xFF, 17, 0x23, 1, 0xFF] := by decide +kernel

/-! ## Witnesses and tests: the BARs -/

/-- Hall 0 with its MGMT clock out. -/
def mgmtOut : State := modHall w0 0 fun hl => { hl with conds := [{ source := 12, part := .mgmt, cls := 1 }] }
theorem witness_bar : hostUp w0 0 = true ∧ blockLost w0 0 0x20014 = false ∧ blockLost mgmtOut 0 0x20014 = true ∧ hostUp mgmtOut 0 = true ∧ byteAddr 0x20014 = false ∧ ¬ ((2 = 4 ∨ 2 = 8) ∧ 0x20014 % 2 = 0)
    ∧ bootUp (modHall w0 0 fun hl => { hl with linkUp := false }) 0 = false := by decide +kernel
theorem test_bar0 : (getHall (after (.registerWrite 0 0x20014 2 5) w0) 0).bar0Drop = 1
    ∧ getSem (after (.registerWrite 0 0x800810 8 77) w0) 1 = { value := 77 } := by decide +kernel
theorem witness_bar2 : Canonical w0 ∧ bar2Pa (getHall w0 0) 0x7F0 % 2048 + 16 ≤ 2048 ∧ bar2Pa (getHall w0 0) 0x7F0 < w0.order.usable
    ∧ (hubRead w0 (hostStop 0) 0x7F0 16 .host none).bytes.any (·.2) = false
    ∧ w0.order.usable ≤ bar2Pa { getHall w0 0 with bar2Base := 1023 } 0xFFFFFFFFF :=
  ⟨canonical_w0, by decide +kernel⟩
/-- A line of a hub buffer that is poisoned. -/
def poisonedLine : State := after (.hubWriteRequest 0x7C0 (withMark (List.replicate 64 7) true) hostAsks none) w0
theorem witness_bar2Poison : (hubRead poisonedLine (hostStop 0) 0x7F0 16 .host none).bytes.any (·.2) = true := by decide +kernel
theorem test_bar2 : (after (.bar2Read 0 0x7F0 2) (after (.bar2Write 0 0x7F0 [1, 2]) w0)).hostRead = [1, 2] := by decide +kernel

/-! ## Witnesses and tests: the memory hubs -/

theorem witness_hubRequest : requestOk w0 0x7C0 64 = true ∧ requestOk w0 0x7C1 64 = false ∧ requestOk w0 0 0 = false ∧ dieUp w0 = true
    ∧ dieUp noImage = false ∧ 0x7C0 / 2048 = (0x7C0 + 64 - 1) / 2048 := by decide +kernel
/-- R294: requests of the Carter carry a check value, those of the host do not; a job context goes with a request or none. -/
theorem witness_readers : inSegments .host = false ∧ inSegments .carter = true := by decide +kernel
theorem test_hubRead : (after (.hubReadRequest 0x7FE 2 hostAsks none) (after (.hubWriteRequest 0x7FE (withMark [1, 2] false) hostAsks none) w0)).delivered
    = [(1, false), (2, false)] := by decide +kernel
/-- R333: a line written in part whose write was poisoned reads poisoned. -/
theorem test_hubPoison : (after (.hubReadRequest 0x7FE 1 hostAsks none) (after (.hubWriteRequest 0x7C0 (withMark (List.replicate 64 7) true) hostAsks none) w0)).delivered
    = [(7, true)] := by decide +kernel
theorem witness_pair :
    Canonical w0 ∧ (List.replicate 128 (9 : Byte)).length = 128 ∧ 128 * 5 + 128 ≤ w0.order.usable ∧ retiredAt w0 (128 * 5) = false
      ∧ w0.meshFault = none ∧ w0.resent = none ∧ (∀ h, h < 2 → (getHall w0 h).meshFlip.arm = false ∧ (getHall w0 h).seamFlip.arm = false)
      ∧ (getHub w0 (hubOf (128 * 5))).flip.arm = false := ⟨canonical_w0, by decide +kernel⟩
theorem test_pair : readBytes (after (.hubWriteRequest 640 (withMark (List.replicate 128 9) false) hostAsks none) w0).mem 640 2 = [9, 9] := by decide +kernel

def pkgGone : State := modHub w0 0 fun hb => setPkg hb 7 { retired := true, cause := 2 }
theorem witness_upkeep : Canonical w0 ∧ Canonical pkgGone ∧ chRetired (getHub w0 0) 31 = false ∧ chRetired (getHub pkgGone 0) 31 = true
    ∧ chRetired (getHub pkgGone 0) 27 = false ∧ (getPkg (getHub pkgGone 0) 7).retired = true ∧ (getPkg (getHub w0 0) 7).retired = false :=
  ⟨canonical_w0, canonical_of_test (by decide +kernel), by decide +kernel⟩
theorem test_upkeep : (getChannel (getHub (after (.refresh 0 0 31) w0) 0) 31).refreshes = 1
    ∧ (getChannel (getHub (after (.wck2dqTrack 0 0 31 0x55) w0) 0) 31).osc = 0x55 ∧ (getPkg (getHub (after (.mr4Read 0 0 7 3) w0) 0) 7).temp = 3
    ∧ after (.refresh 0 0 31) pkgGone = pkgGone := by decide +kernel
/-- A fence of module scope on MQ of logical core 0. -/
def moduleFence : State := running 0 (flight 4 [(24, 2)])
theorem witness_flush : Canonical moduleFence ∧ flushQueue moduleFence 3 0 = some 0 ∧ flushQueue w0 3 0 = none :=
  ⟨canonical_of_test (by decide +kernel), by decide +kernel⟩
theorem test_flush : (getHub (after (.hubFenceFlush 0 3 0) moduleFence) 3).flush = 1
    ∧ ((getQueue (after (.hubFenceFlush 0 3 0) moduleFence) 0).inflight.map (·.flushed)) = [[3]] := by decide +kernel
def scrubbed : State := modHub w0 0 fun hb => setChannel hb 4 { scrubPos := scrubRows w0.order }
theorem witness_scrub : chRetired (getHub w0 0) 4 = false ∧ (getChannel (getHub w0 0) 4).scrubPos < scrubRows w0.order
    ∧ scrubRows scrubbed.order ≤ (getChannel (getHub scrubbed 0) 4).scrubPos := by decide +kernel
theorem test_scrubWaits : (getChannel (getHub (after (.patrolScrub 0 0 4) scrubbed) 0) 4).scrubPos = scrubRows w0.order := by decide +kernel
def failedOnce : State := modHub w0 0 fun hb => setChannel hb 4 { failed := true }
theorem witness_retrain : Canonical failedOnce ∧ chRetired (getHub failedOnce 0) 4 = false ∧ (getChannel (getHub failedOnce 0) 4).failed = true
    ∧ tabWf {} (getHub failedOnce 0).pkgs = true ∧ (getChannel (getHub w0 0) 4).failed = false ∧ chRetired (getHub w0 0) 4 = false :=
  ⟨canonical_of_test (by decide +kernel), by decide +kernel⟩
/-- Hub 0 of hall 0 within a retraining window, and just past it. -/
def inWindow (end_ : W64) : State := modHub { w0 with time := 4000 } 0 fun hb => { hb with window := 4, windowEnd := end_ }
theorem witness_retrainWindow : Canonical (inWindow 4001) ∧ windowOpen (inWindow 4001) 0 = true ∧ windowOpen (inWindow 4000) 0 = false
    ∧ windowOpen failedOnce 0 = false ∧ windowOpen w0 0 = false := ⟨canonical_of_test (by decide +kernel), by decide +kernel⟩
theorem test_retrainWindow : after (.retrainWindow 0 0 5 false) (inWindow 4001) = inWindow 4001
    ∧ (getHub (after (.retrainWindow 0 0 5 false) (inWindow 4000)) 0).windowEnd = 8000 := by decide +kernel
theorem test_retrain : (getPkg (getHub (after (.retrainWindow 0 0 4 false) failedOnce) 0) 1) = { retired := true, cause := 1, retrainFail := 1 }
    ∧ (getChannel (getHub (after (.retrainWindow 0 0 4 true) failedOnce) 0) 4) = { windows := 1 } := by decide +kernel
theorem witness_retire : Canonical w0 ∧ hostUp w0 0 = true ∧ (getPkg (getHub w0 0) 7).retired = false ∧ tabWf ({} : Package) (getHub w0 0).pkgs = true
    ∧ (getPkg (getHub pkgGone 0) 7).retired = true := ⟨canonical_w0, by decide +kernel⟩
theorem test_retire : getPkg (getHub (after (.hubPkgRetire 1 7 0) w0) 15) 0 = { retired := true, cause := 3 } := by decide +kernel

/-! ## The store code (R349) -/

theorem test_storeCode : decodeByte (storeCode 0x5A true) = .poisoned 0x5A ∧ decodeByte { d := 0x5B, c := storeCheck 0x5A } = .corrected 0x5A := by
  decide +kernel
def badByte : State := modPos w0 0 fun ps => { ps with store := [(3, { d := 1, c := (storeCode 1 true).c ^^^ 1 })] }
theorem witness_storeByte : Canonical badByte ∧ decodeByte (readSByte (getPos badByte 0) 3) = .uncorrectable 1
    ∧ decodeByte (readSByte (getPos badByte 0) 4) = .clean 0 := ⟨canonical_of_test (by decide +kernel), by decide +kernel⟩
theorem test_storeByte : (storeByte badByte 0 3).bytes = [(1, true)] ∧ readSByte (getPos (storeByte badByte 0 3).st 0) 3 = storeCode 1 true := by
  decide +kernel

/-! ## Witnesses and tests: the mesh and the links -/

def oneHole : State := modHall w0 0 fun hl => { hl with holes := [71] }
theorem witness_router :
    Canonical w0 ∧ stopPos 12 = none ∧ stopPos 89 = some 71 ∧ stopPos 88 = some 70 ∧ holeOk (getHall w0 0) 71 = true
      ∧ (getPos w0 (posKey 0 71)).status = .ready ∧ (getHall w0 0).tnkActive = false ∧ (getHall oneHole 0).holes.contains 71 = true
      ∧ holeOk (getHall oneHole 0) 70 = false ∧ (getHall oneHole 0).holes.contains 70 = false := ⟨canonical_w0, by decide +kernel⟩
theorem test_router : (getPos (after (.routerFailed 0 89) w0) 71).status = .hole ∧ (getHall (after (.routerFailed 0 88) oneHole) 0).down = true
    ∧ after (.routerFailed 0 89) oneHole = oneHole := by decide +kernel
/-- Of position 71 no Joiner link goes out; position 0 of hall 1 and the column 9 of hall 0 lie at the seam. -/
theorem witness_seamHole : atSeam 0 71 = (stopPos 89 == some 71 && (stopXY 71).1 == 9) ∧ (List.range 72).any (fun i => atSeam 0 i) = true
    ∧ (List.range 72).any (fun i => !atSeam 0 i && holeOk (getHall w0 0) i) = true := by decide +kernel
/-- Two signals of the Steward's stop, the second of the same series as the first. -/
def twoSignals : State := { w0 with signals := [{ sem := 7, add := 1, source := .host }, { sem := 9, add := 2, source := .host, num := 1 }] }
def fullSem : State := setSem twoSignals 7 { value := 0xFFFFFFFFFFFFFFFF }
theorem witness_meshSignal : Canonical twoSignals ∧ stopHall ({ sem := 7, add := 1, source := .host } : Signal).stop = 0 ∧ twoSignals.signals[0]? = some { sem := 7, add := 1, source := .host }
    ∧ twoSignals.signals[2]? = none
    ∧ (receiptOf (getSeries twoSignals (Machine.signalSeries { sem := 7, add := 1, source := .host })) 0 = .apply)
    ∧ (receiptOf (getSeries twoSignals (Machine.signalSeries { sem := 9, add := 2, source := .host, num := 1 })) 1 ≠ .apply)
    ∧ (getSem twoSignals 7).value.toNat + 1 < 2 ^ 64 ∧ ¬ (getSem fullSem 7).value.toNat + 1 < 2 ^ 64 :=
  ⟨canonical_of_test (by decide +kernel), by decide +kernel⟩
theorem test_mesh : (after (.meshResend 0 (.access 0 2)) w0).meshFault = some { hall := 0, skip := 0, lost := false, later := 2 } ∧ (getHall (after (.meshLost 1 (.access 0)) w0) 1).meshLost = 1
    ∧ (getHall (after (.meshResend 0 (.signal 0)) twoSignals) 0).meshResend = 2
    ∧ (after (.meshLost 0 (.signal 1)) twoSignals).signals.map (·.sem) = [7] ∧ after (.meshLost 1 (.signal 0)) twoSignals = twoSignals := by
  decide +kernel

/-- Port 0 of hall 0 up towards 0x234, this module at 0x123, job context 0 with tag 9. -/
def portUp : State :=
  modPort (modJob { w0 with chain := { w0.chain with lfa := some 0x123 }, timeCfg := { w0.timeCfg with master := true } } 0
    fun j => { j with tag := 9 }) 0 fun p => { p with up := true, active := 4, peer := 0x234, rxSeq := 5, rxSlots := [0, 1, 2, 3], rxSpare := some 4 }
/-- A frame of VL 0 and kind 0 for this module, with the SEQ given. -/
def frameAt (f : Frame) (seq : W32) : Frame := signFrame { f with src := 0x234, dst := 0x123, jobTag := 9 } seq
def frame5 : Frame := frameAt frame0 5
/-- One codeword on slot 0 with two wrong symbols, and one with sixteen. -/
def fixedWord : LaneWord := { slot := 0, errors := [{ pos := 3, mask := 1 }, { pos := 9, mask := 0x3FF }] }
def badWord : LaneWord := { slot := 0, errors := (List.range 16).map fun i => { pos := Fin.ofNat 544 i, mask := 1 } }
def badPayload : Frame := { frame5 with pcrc := frame5.pcrc ^^^ 1 }
def resealed (f : Frame) : Frame := { f with hcrc := crc32c (headerStart f) }
/-- The frame's bytes arrive at port 0 of hall 0 in the codewords given. -/
def arrival0 (f : Frame) (w : List LaneWord) : Instr := .frameReceive 0 0 ((lineBytes f).take 64) f.payload w []
/-- A port whose eight buffers of VL 0 are taken. -/
def fullPort : State := modPort portUp 0 fun p => { p with rx := List.replicate 8 { frame := frame5 } }
theorem witness_frame :
    Canonical portUp ∧ dieUp portUp = true ∧ (getPort portUp 0).up = true ∧ frameForUs portUp 0 frame5 = true
      ∧ frameOf (lineBytes frame5) = frame5 ∧ frame5.hcrc = crc32c ((lineBytes frame5).take 60) ∧ frame5.pcrc = crc32c frame5.payload
      ∧ frame5.seq = (getPort portUp 0).rxSeq ∧ rxHeld (getPort portUp 0) 0 < rxBuffers.getD 0 0 ∧ frame5.kind ≠ 2
      ∧ ¬ (frame5.kind = 3 ∧ frame5.vl = 3) ∧ (getPort portUp 0).crcTries < 4 ∧ (getPort w0 0).up = false :=
  ⟨canonical_of_test (by decide +kernel), by decide +kernel⟩
theorem witness_frameWords : decodes fixedWord.errors = true ∧ corrected fixedWord.errors = true ∧ decodes badWord.errors = false
    ∧ decodes (badWord.errors.take 15) = true ∧ afterWords portUp 0 [] = portUp := by decide +kernel
theorem witness_badFrame :
    (frameOf (lineBytes { frame5 with hcrc := 0 })).hcrc ≠ crc32c ((lineBytes { frame5 with hcrc := 0 }).take 60)
      ∧ frameForUs portUp 0 (frameAt { frame0 with payload := [1] } 5) = true ∧ frameForUs portUp 0 { frame5 with jobTag := 8 } = false
      ∧ (resealed badPayload).pcrc ≠ crc32c frame5.payload ∧ frameOf (lineBytes (resealed badPayload)) = resealed badPayload
      ∧ seqLe 4 (getPort portUp 0).rxSeq = true ∧ seqLe 6 (getPort portUp 0).rxSeq = false := by decide +kernel
theorem witness_fullPort : Canonical fullPort ∧ rxBuffers.getD frame5.vl 0 ≤ rxHeld (getPort fullPort 0) frame5.vl :=
  ⟨canonical_of_test (by decide +kernel), by decide +kernel⟩
theorem test_frame : ((getPort (after (arrival0 frame5 [fixedWord]) portUp) 0).rx.map (·.frame)) = [frame5]
    ∧ (getPort (after (arrival0 frame5 [fixedWord]) portUp) 0).fecCorr = 1
    ∧ (getPort (after (arrival0 frame5 [badWord]) portUp) 0).fecUnc = 1
    ∧ (getPort (after (arrival0 (frameAt frame0 6) []) portUp) 0).askReplay = true := by decide +kernel
theorem test_lateFrame : after (arrival0 (frameAt frame0 4) []) portUp = portUp
    ∧ (getPort (after (arrival0 (resealed badPayload) []) portUp) 0).crcTries = 1
    ∧ (getPort (after (arrival0 (resealed { frame5 with jobTag := 8 }) []) portUp) 0).drops = 1
    ∧ (getPort (after (arrival0 frame5 []) fullPort) 0).askReplay = true := by decide +kernel
def spent : State := modPort portUp 0 fun p => { p with credits := [8, 40, 64, 8], retry := [{ frame := frame0, replays := 0 }] }
theorem witness_codeword : Canonical spent ∧ decodes codeword0.word.errors = true ∧ codeword0.replay = none ∧ codeword0.handover = none
    ∧ (getPort spent 0).egress = [] ∧ spent.timeCfg.master = true :=
  ⟨canonical_of_test (by decide +kernel), by decide +kernel⟩
theorem test_codeword :
    (getPort (after (.controlCodeword 0 0 { codeword0 with credits := [0, 9, 0, 0], ack := some 0 }) spent) 0).credits = [8, 48, 64, 8]
      ∧ (getPort (after (.controlCodeword 0 0 { codeword0 with ack := some 0 }) spent) 0).retry = []
      ∧ (getPort (after (.controlCodeword 0 0 { codeword0 with word := badWord }) spent) 0).fecUnc = 1
      ∧ (getPort (after (.controlCodeword 0 0 { codeword0 with handover := some 1 }) spent) 0).rxSlots = [0, 4, 2, 3] := by decide +kernel
/-- Port 0 down, with an address to come up with. -/
def portDown : State := modPort portUp 0 fun p => { p with up := false }
theorem witness_train : Canonical portDown ∧ dieUp portDown = true ∧ (getPort portDown 0).up = false ∧ portDown.moduleDown = false
    ∧ portDown.jtag.driving = false ∧ portDown.chain.lfa.isSome = true
    ∧ 3 ≤ ((lanesLeft (getPort portDown 0)).filter fun n => [0, 1, 2].contains n).length := ⟨canonical_of_test (by decide +kernel), by decide +kernel⟩
theorem test_train : (getPort (after (.portTrain 0 0 { lanes := [0, 1, 2, 3, 4], deskewed := true } (some 7)) portDown) 0).spare = some 4
    ∧ (getPort (after (.portTrain 0 0 { lanes := [0, 1, 2], deskewed := true } (some 7)) portDown) 0).active = 3
    ∧ (getPort (after (.portTrain 0 0 { lanes := [0, 1], deskewed := true } (some 7)) portDown) 0).up = false
    ∧ after (.portTrain 0 0 { lanes := [0, 1, 2], deskewed := false } (some 7)) portDown = portDown := by decide +kernel
def trained : State := after (.portTrain 0 0 { lanes := [0, 1, 2, 3, 4], deskewed := true } (some 7)) portDown
theorem witness_rotate : Canonical trained ∧ (getPort trained 0).up = true ∧ (getPort trained 0).spare = some 4
    ∧ laneOfRole (getPort trained 0) (getPort trained 0).rotSlot = some 0 ∧ tabWf {} (getPort trained 0).lanes = true
    ∧ (getPort w0 0).up = false := ⟨canonical_of_test (by decide +kernel), by decide +kernel⟩
theorem test_rotate : (getPort (after (.laneRotate 0 0) trained) 0).spare = some 0
    ∧ (getLane (getPort (after (.laneRotate 0 0) trained) 0) 4).role = 0 := by decide +kernel
theorem witness_laneRetire : (getLane (getPort trained 0) 4).retired = false ∧ (getLane (getPort trained 0) 4).role = 4
    ∧ (getPort trained 0).active = 4 ∧ (lanesLeft (getPort trained 0)).length = 5
    ∧ (getLane (getPort (after (.laneRetire 0 0 4) trained) 0) 4).retired = true ∧ (∀ n, n < 5 → (0x700 : W32).getLsbD n = false)
    ∧ hostUp w0 0 = true := by decide +kernel
theorem test_laneRetire : (getPort (after (.laneRetire 0 0 4) trained) 0).spare = none
    ∧ (getPort (after (.lnkLaneRetireWrite 0 0 0x700) w0) 0).rotS = 7 ∧ (getPort (after (.lnkLaneRetireWrite 0 0 0) w0) 0).rotS = 2 := by decide +kernel
theorem witness_clockLost : (∀ j, j < 16 → runningDrv portUp 0 j = none)
    ∧ (∀ j, j < 16 → (getJob portUp j).opening = none ∧ (getJob portUp j).fetching = false) := by decide +kernel
theorem test_clockLost : (getPort (after (.linkClockLost 0 0) portUp) 0).up = false
    ∧ (getPort (after (.linkClockLost 0 0) portUp) 0).rxSeq = 0 := by decide +kernel
theorem witness_replay : (getPort spent 0).retry ≠ [] ∧ (∀ u ∈ (getPort spent 0).retry, u.replays + 1 < 16)
    ∧ (∀ j, j < 16 → runningDrv spent 0 j = none) ∧ (getPort portUp 0).retry = [] := by decide +kernel
theorem test_replay : (getPort (after (.frameReplayTimeout 0 0) spent) 0).replayed = 1 := by decide +kernel

/-! ## Witnesses and tests: the bench, the Miller, supplies and faults -/

def benching : State := modHall w0 0 fun hl => { hl with tnkActive := true, tnkEnable := false, tnkPos := 70, tnkRounds := 15, benchGrant := 40 }
theorem witness_bench : Canonical benching ∧ (getHall benching 0).tnkActive = true ∧ (getHall benching 0).tnkEnable = false
    ∧ 0 < (getHall benching 0).benchGrant ∧ (getHall benching 0).benchWasRetired = false ∧ (getHall benching 0).benchUnder289 = false
    ∧ (getHall w0 0).tnkActive = false ∧ (getHall w0 0).tnkEnable = true ∧ (benchChoice w0 0).isSome = true
    ∧ (getHall (modHall w0 0 fun hl => { hl with tnkEnable := false }) 0).tnkEnable = false ∧ (getHall w0 0).benchGrant = 0 :=
  ⟨canonical_of_test (by decide +kernel), by decide +kernel⟩
/-- A request of 2 µs ago at the hall of the bench. -/
def benchWaits (ago : W64) : State := modHall { benching with time := ago } 0 fun hl => { hl with requests := [request0] }
theorem witness_benchPause : Canonical (benchWaits 2000) ∧ (∃ r ∈ (getHall (benchWaits 2000) 0).requests, 2000 ≤ ((2000 : W64) - r.time).toNat)
    ∧ ∀ r ∈ (getHall (benchWaits 1999) 0).requests, ((benchWaits 1999).time - r.time).toNat < 2000 :=
  ⟨canonical_of_test (by decide +kernel), by decide +kernel⟩
theorem test_bench : (getHall (after (.benchPeriodStart 0) benching) 0).tnkVerdict = 3
    ∧ (getHall (after (.benchPeriodStart 0) (after (.benchRound 0 true 5) benching)) 0).tnkVerdict = 1
    ∧ (getHall (after (.benchRound 0 false 5) benching) 0).tnkRetired = 1 ∧ (getPos (endBench benching 0 2 1 5) 70).status = .retired := by
  decide +kernel
theorem test_benchPause : (getHall (after (.benchPause 0) (benchWaits 2000)) 0).benchGrant = 0
    ∧ (getHall (after (.benchPause 0) (benchWaits 1999)) 0).benchGrant = 40 := by decide +kernel

theorem witness_window : Canonical w0 ∧ aEff (measured w0.miller 28019 4800 0) < 28010 ∧ aEff (measured w0.miller 28009 4800 0) = 28000
    ∧ 28000 - 100 * w0.miller.margin < 27990 ∧ 26000 ≤ 28000 - 100 * w0.miller.margin ∧ (measured w0.miller 0 3999 0).vinOut = true
    ∧ ((getHall w0 0).down = false ∨ (getHall w0 1).down = false) := ⟨canonical_w0, by decide +kernel⟩
theorem test_window : (after (.millerWindow 28019 4800) w0).miller.throttle = true ∧ (after (.millerWindow 28009 4800) w0).miller.throttle = false
    ∧ (after (.millerWindow 28019 4800) w0).miller.iIn = 28010 := by
  decide +kernel
/-- A grant held since time 0, and a request that waits since then. -/
def holding (now : W64) : State :=
  modHall { withQueue 0 { ring .run with grant := some { cc := 1, charge := 10, lent := 0, since := 0 } } with time := now } 0 fun hl =>
    { hl with requests := [request0] }
theorem witness_yield : Canonical (holding 100001) ∧ yieldDue (holding 100001) 0 = true ∧ yieldDue w0 0 = false :=
  ⟨canonical_of_test (by decide +kernel), by decide +kernel⟩
theorem test_yield : ((getQueue (after (.millerYield 0) (holding 100001)) 0).grant.map (·.yield)) = some true
    ∧ ((getQueue (after (.millerYield 0) (holding 100000)) 0).grant.map (·.yield)) = some false := by decide +kernel
def hotDie (temp : Byte) : Reading := { sensor := .die, temp := temp }
theorem test_warnings : (after (.thermWarn (hotDie 96)) w0).miller.derate = true ∧ after (.thermWarn (hotDie 95)) w0 = w0
    ∧ (after (.thermWarn { sensor := .optics, temp := 71 }) w0).power.warm = true
    ∧ (after .thermWarnClear (after (.thermWarn (hotDie 96)) w0)).power.warm = false
    ∧ (after .derateEnd (after (.thermWarn (hotDie 96)) w0)).miller.derate = true
    ∧ (after (.vinOut 3999) w0).miller.vinOut = true ∧ after (.vinOut 4000) w0 = w0 ∧ after (.vinOut 6000) w0 = w0 := by decide +kernel
theorem witness_derateEnd : dieUp w0 = true ∧ w0.power.warm = false ∧ (after (.thermWarn (hotDie 96)) w0).power.warm = true
    ∧ (1000000000 ≤ (now { w0 with time := 1000000000 } 0 - w0.miller.warmEnd).toNat)
    ∧ (now w0 0 - w0.miller.warmEnd).toNat < 1000000000 := by decide +kernel

theorem witness_hallDown : Canonical w0 ∧ (∀ j, j < 16 → resident w0 0 j = false) ∧ (∀ j, j < 16 → (getJob w0 j).gens = [])
    ∧ (∀ j, j < 16 → jobQueues w0 j = [] ∧ (getJob w0 j).gens = []) := ⟨canonical_w0, by decide +kernel⟩
theorem test_hallDown : (getHall (after (.stewardWatchdog 0) w0) 1).share = 14600 ∧ (getHall (after (.stewardWatchdog 0) w0) 0).share = 0 := by
  decide +kernel
theorem test_faults : (after (.pllUnlock (.mesh 0)) w0).moduleDown = true ∧ (after (.pllUnlock (.host 1)) w0).moduleDown = false
    ∧ (getHall (after (.pllUnlock (.host 1)) w0) 1).linkUp = false ∧ (after (.vrFault .memory) w0).moduleDown = true
    ∧ (after (.thermTrip 120) w0).power.die = false := by decide +kernel
theorem test_killFirst : (getJob (killJob (killJob w0 3 2 {}) 3 1 {}) 3).cause = 2 := by decide +kernel

def unpowered (mgmt : Bool) : State := { w0 with power := { w0.power with mgmt := mgmt, input48 := false, die := false } }
theorem witness_power : w0.power.input48 = true ∧ w0.power.efuseOpen = false ∧ (after .efuseTrip w0).power.efuseOpen = true
    ∧ (unpowered false).power.input48 = false ∧ (unpowered true).power.die = false ∧ (unpowered true).power.mgmt = true
    ∧ ({ unpowered true with power := { (unpowered true).power with efuseOpen := true } } : State).power.efuseOpen = true := by decide +kernel
theorem test_power : (after .efuseTrip w0).power.efuseLatch = true ∧ (after .mgmtSupplyLost (unpowered true)).power.mgmt = false
    ∧ (after .mgmtSupplyUp (unpowered false)).power.mgmt = true := by decide +kernel

/-! ## Witnesses and tests: host links, the tally chain, boundary scan -/

theorem witness_link : Canonical w0 ∧ (getHall w0 0).linkUp = true ∧ (getHall (after (.hostLinkDown 0) w0) 0).linkUp = false
    ∧ w0.power.input48 = true ∧ w0.jtag.driving = false ∧ bootUp w0 0 = true ∧ bootUp (after (.hostLinkDown 0) w0) 0 = false :=
  ⟨canonical_w0, by decide +kernel⟩
theorem test_link : (getHall (after (.hostLinkUp 0) (after (.hostLinkDown 0) w0)) 0).linkUp = true
    ∧ (getHall (after (.pcieConfigWrite 0 1 2 { busMaster := false, msixEnable := true, msixMask := false }) w0) 0).bar2Addr = 2 ∧ (after .chainInputLost w0).chain.inOk = false := by decide +kernel
def chainF (type : Byte) (addr : W16) (data : W64) : ChainFrame := sealFrame type { seq := 1, addr := addr, data := data, crc := 0 }
def member : State := { w0 with chain := { w0.chain with caddr := 7 } }
theorem witness_chain : member.power.mgmt = true ∧ chainGood 0x01 (chainF 0x01 0 0x54095) = true ∧ addressed member (chainF 0x02 7 0x123) = true
    ∧ chainGood 0x02 (chainF 0x02 7 0x123) = true ∧ chainGood 0x03 (chainF 0x03 7 0) = true ∧ chainGood 0x04 (chainF 0x04 7 0) = true
    ∧ chainGood 0x05 (chainF 0x05 7 0) = true ∧ anyJob member = false ∧ anyJob { ownedCore with chain := member.chain } = true
    ∧ restartAllowed member = false ∧ restartAllowed { noImage with chain := member.chain } = true
    ∧ addressed member (chainF 0x02 8 0) = false ∧ chainGood 0x02 (chainF 0x03 7 0) = false ∧ w0.chain.caddr = 0
    ∧ (unpowered false).power.mgmt = false := by decide +kernel
/-- R487: COUNT 4,095 is the address, and 4,096 goes on; 4,096 is no address, and goes on as it is. -/
theorem test_enum : (after (.chainEnum (chainF 0x01 0 4095)) w0).chain.caddr = 4095
    ∧ ((after (.chainEnum (chainF 0x01 0 4095)) w0).chain.out.map fun x => x.2.data) = [4096]
    ∧ (after (.chainEnum (chainF 0x01 0 4096)) w0).chain.caddr = 0
    ∧ ((after (.chainEnum (chainF 0x01 0 4096)) w0).chain.out.map fun x => x.2.data) = [4096] := by decide +kernel
theorem test_setLfa : (after (.chainSetLfa (chainF 0x02 7 0x123)) member).chain.lfa = some 0x123
    ∧ ((after (.chainSetLfa (chainF 0x02 7 0x123)) member).chain.out.map fun x => (x.1, x.2.data)) = [(0x80, 0x123)]
    ∧ (after (.chainSetLfa (chainF 0x02 8 0x123)) member).chain.lfa = none := by decide +kernel
theorem test_chainForward : ((after (.chainForward 0x77 (chainF 0x77 7 5)) member).chain.out) = [(0x77, chainF 0x77 7 5)] := by decide +kernel
theorem test_crc32c : crc32c [0x31, 0x32, 0x33, 0x34, 0x35, 0x36, 0x37, 0x38, 0x39] = 0xE3069283 := by decide +kernel
theorem witness_scan : ¬ w0.power.mgmt = false ∧ w0.power.die = true ∧ anyJob w0 = false ∧ w0.jtag.driving = false ∧ anyJob ownedCore = true
    ∧ (after .extest w0).jtag.driving = true ∧ anyJob (after .extest w0) = false ∧ Canonical w0 :=
  ⟨by decide +kernel, by decide +kernel, by decide +kernel, by decide +kernel, by decide +kernel, by decide +kernel, by decide +kernel, canonical_w0⟩
theorem test_scan : tapData (after .idcode w0).jtag = 0x15A209A7
    ∧ (after .bypass (after (.samplePreload (.preload 9)) w0)).jtag.boundary = 9 ∧ (after .extest w0).jtag.ir = .extest
    ∧ (getHall (after .clamp w0) 1).linkUp = false ∧ (after .extest ownedCore).jtag.ir = .bypass := by decide +kernel

/-! ## Witnesses and tests: the engines -/

/-- Queue `k` with command `c` in flight on a core whose store holds bytes, poisoned or not, at given places. -/
def engine (k : Nat) (c : InFlight) (bytes : List (Nat × List (Byte × Bool))) : State :=
  bytes.foldl (fun s x => storeWrite s 0 x.1 x.2) (running k c)
def clean (l : List Byte) : List (Byte × Bool) := l.map fun b => (b, false)
/-- What the store of position 0 holds as a number after a command. -/
def stored (s : State) (off n : Nat) : Nat := leNat ((List.range n).map fun i => (readSByte (getPos s 0) (off + i)).d)

def loadf : InFlight := flight 0x20 [(24, 1), (26, 0x400)]
def predict (flags : Nat) : InFlight := flight 0x21 [(24, flags), (38, 0x1000), (41, 0x2000)]
def factors0 : Factors := { nspan := 1, su := List.replicate 32 0x3F800000, beta := [0x40000000], v := [List.replicate 32 0] }
def predicting (flags : Nat) : State := modCore (running 0 (predict flags)) 0 fun c => { c with slot0 := some factors0 }
def replacing : InFlight := { predict 0x16 with bitmap := some { rows := 1, nspan := 1, bits := [1] } }
def glnConfig (mode : Nat) : InFlight := flight 0x28 [(24, mode), (26, 0x400)]
def glnFence (mode : Nat) : State := modCore (running 0 (flight 0x29 [])) 0 fun c => { c with gln := { c.gln with mode := mode, gbase := 0x400 } }
def spmmCmd : InFlight := flight 0x40 [(26, 3), (40, 0x400), (43, 0x800), (46, 0x1000)]
def gatherCmd : InFlight := flight 0x41 [(24, 3), (25, 3), (36, 0x400), (39, 0x800), (42, 0xC00), (48, 0x1000)]
def dispatchCmd : InFlight := flight 0x42 [(24, 3), (32, 0x400), (35, 0x800), (41, 0xC00), (47, 0x1000), (50, 0x1400)]
def scoutCmd : InFlight := flight 0x48 [(24, 0x14), (28, 15), (32, 0x10000), (35, 0x800), (42, 0xC00), (49, 0x1000)]
/-- MOVI v1, 1.0; EXP2 v2, v1; ST v2 as FP32 at A0, which holds 0x1000. -/
def fulProgram : List Byte := leBytes 64 0 ++ leBytes 8 0x3F80000000010001 ++ leBytes 8 0x0000000000120010 ++ leBytes 8 0x0000000030200031
def fulCmd : InFlight := flight 0x60 [(24, 0x400), (27, 2), (32, 0x1000)]
def softCmd : InFlight := flight 0x61 [(24, 0x33), (34, 0x3F800000), (38, 0x400), (44, 0x1000)]
def optCmd (op : Nat) : InFlight := flight op [(25, 3), (32, 0x400), (38, 0x800), (41, 0xC00), (44, 0x1000), (47, 0x1400), (50, 0x1800), (53, 0x1C00)]
def maskCmd (op : Nat) : InFlight := flight op [(24, 4), (30, 0x10000), (33, 0x20000), (36, 0x21000), (39, 0x22000), (42, 0x23000), (45, 0x24000)]
/-- CTR.FILL of two elements of 4 bytes at store offset 0x1000. -/
def fillDesc : BitVec 1024 := BitVec.ofNat 1024 ((0x1000 + 1 * 256 ^ 8 + 2 * 256 ^ 9 + 1 * 256 ^ 10 + 1 * 256 ^ 12 + 4 * 256 ^ 32) * 256 ^ 64)
def ctrCmd (op : Nat) : InFlight := { flight op [(32, 0xA5)] with desc := fillDesc }
def mask0 : MaskOps := maskOps (maskCmd 0x68).cmd
/-- A plane that holds one FP32 weight, 2.0, and a matrix command FP32 by FP32 on it: one row, one column. -/
def plane0 : Plane :=
  { fmt := 3, pat := 0, trans := false, place := 0, cols := 1, entries := [{ k := 0, row := 0, col := 0, w := 0, bits := 0x40000000 }],
    scales := [], dropped := false, loadw := 0 }
def matCmd (op flags : Nat) : InFlight := flight op [(24, 0x33), (25, flags), (28, 1), (34, 0x400), (46, 3), (54, 0x1000)]
/-- The activation is 3.0. -/
def matrix (op flags : Nat) (poison : Bool) : State :=
  modCore (engine 0 (matCmd op flags) [(0x400, (leBytes 4 0x40400000).map fun b => (b, poison))]) 0 fun c => { c with plane0 := some plane0 }
def loadw (w : Nat) : InFlight := flight 0x10 [(24, w), (26, 1), (28, 0x400)]
/-- DRV.BARRIER of rank 1 of 2 on channel 0 of hall 0, with COLL_ID 77, in a ring whose neighbours are at 0x234. -/
def barrier (coll : Option Coll) : InFlight := { flight 0xC3 [(24, 4), (28, 77), (48, 1), (50, 2)] with coll := coll }
def token (id : W32) (round : BitVec 12) (count : W16) : Frame :=
  { frame0 with src := 0x234, dst := 0x123, kind := 1, jobTag := 9, collId := id, rstep := round, contrib := count }
def ringed (c : InFlight) (rx : List Frame) : State :=
  let s := setQueue { w0 with chain := { w0.chain with lfa := some 0x123 } } 512
    { enable := true, state := .run, sizeLog2 := 4, prod := 1, fetchSeq := 1, inflight := [c] }
  let s := modJob s 0 fun j => { j with tag := 9, ringValid := true, succ := 0x234, pred := 0x234 }
  let s := modPort s 0 fun p => { p with up := true, active := 4, peer := 0x234 }
  modPort s 1 fun p => { p with up := true, active := 4, peer := 0x234, rx := rx.map fun f => { frame := f } }
def barrierEnd (c : InFlight) (rx : List Frame) : DrvEnd := (drvTurn 0xC3 (ringed c rx) (drvOf 0 0 c) c).fin

def count (s : State) (k : Nat) : W32 × W16 := ((getQueue s k).cmplSeq, (getQueue s k).lastStatus)
def badBytes (n : Nat) : List (Byte × Bool) := [(BitVec.ofNat 8 n, true)]

theorem canonical_predicting : Canonical (predicting 2) := canonical_of_test (by decide +kernel)
theorem witness_loadw : corePos (running 0 (loadw 3)) 0 = some 0 ∧ dieUp (running 0 (loadw 3)) = true
    ∧ unstaged (getQueue (running 0 (loadw 3)) 0) = some (loadw 3) := by decide +kernel
def stagedWith (pl : Option Plane) : InFlight := { loadw 3 with staged := some { status := 0, plane := pl, overfull := 0, range := 0, order := 0 } }
theorem witness_write : headOp (running 0 (stagedWith (some plane0))) 0 0x10 = some (stagedWith (some plane0))
    ∧ headOp (running 0 (stagedWith none)) 0 0x10 = some (stagedWith none)
    ∧ (getPos (running 0 (stagedWith none)) 0).asyFlip.arm = false ∧ Canonical (running 0 (stagedWith none)) :=
  ⟨by decide +kernel, by decide +kernel, by decide +kernel, canonical_of_test (by decide +kernel)⟩
theorem test_write : getPlane (getCore (after (.loadwWritePart 0) (running 0 (stagedWith (some plane0)))) 0) 0 = some plane0
    ∧ count (after (.loadwWritePart 0) (running 0 (stagedWith none))) 0 = (1, 0x30) := by decide +kernel

/-- What decides the end of a matrix command: whether the Assayer fails, and the poison of its pass and of its output. -/
def matFacts (op flags : Nat) (poison : Bool) : Bool × Bool × Bool :=
  let s := matrix op flags poison
  let c := matCmd op flags
  let o := matOps c.cmd
  let lc := getCore s 0
  let g := gatingOf lc o (if o.last then o.ncols else plane0.cols)
  let out := (g.map fun g => gatedOut g.skip g.audit).getD []
  let pr := runPass s 0 plane0 o 5 (accFor lc o 5 plane0) (List.range o.rows) out
  let a := assay pr.st 0 0 plane0.copyErr pr.seen
  (a.fail.isNone, pr.poison, (matOutput a.st 0 c o 5 plane0 pr g).poison)
theorem witness_matrix :
    corePos (matrix 0x11 6 false) 0 = some 0 ∧ headOp (matrix 0x11 6 false) 0 0x11 = some (matCmd 0x11 6)
      ∧ headOp (matrix 0x12 6 false) 0 0x12 = some (matCmd 0x12 6) ∧ getPlane (getCore (matrix 0x11 6 false) 0) 0 = some plane0
      ∧ pathOf (matOps (matCmd 0x11 6).cmd).afmt (matOps (matCmd 0x11 6).cmd).wfmt = some 5 ∧ (matOps (matCmd 0x11 6).cmd).last = true
      ∧ (matOps (matCmd 0x11 2).cmd).last = false ∧ (matOps (matCmd 0x11 6).cmd).gate = false := by decide +kernel
theorem witness_matrixEnds : matFacts 0x11 6 false = (true, false, false) ∧ matFacts 0x11 2 false = (true, false, false)
    ∧ matFacts 0x11 2 true = (true, true, true) ∧ matFacts 0x11 6 true = (true, true, true) := by decide +kernel
theorem canonical_matrix : Canonical (matrix 0x11 6 true) := canonical_of_test (by decide +kernel)
/-- 3.0 times 2.0 in FP32. -/
theorem test_matmul : stored (after (.loomMatmul 0) (matrix 0x11 6 false)) 0x1000 4 = 0x40C00000
    ∧ count (after (.loomMatmul 0) (matrix 0x11 2 true)) 0 = (1, 0x30) := by decide +kernel
theorem test_matmulT : stored (after (.loomMatmulT 0) (matrix 0x12 6 false)) 0x1000 4 = 0x40C00000 := by decide +kernel

theorem witness_loadf : headOp (running 0 loadf) 0 0x20 = some loadf ∧ anyPoison (storeRead (running 0 loadf) 0 (loadfBase loadf.cmd) (factorSize 1)).bytes = false
    ∧ loadfSpans loadf.cmd = 1 ∧ anyPoison (storeRead (engine 0 loadf [(0x400, badBytes 1)]) 0 (loadfBase loadf.cmd) (factorSize 1)).bytes = true := by
  decide +kernel
theorem test_loadf : getSlotF (getCore (after (.lampLoadf 0) (engine 0 loadf [(0x404, clean [1])])) 0) 1
    = some { nspan := 1, su := 0 :: 1 :: List.replicate 30 0, beta := [0], v := [List.replicate 32 0] } := by decide +kernel
theorem witness_predict :
    headOp (predicting 2) 0 0x21 = some (predict 2) ∧ (predict 2).bitmap = none ∧ (predOps (predict 2).cmd).last = false
      ∧ (project (predicting 2) 0 0 (predOps (predict 2).cmd)).2.isSome = true ∧ (predOps (predict 0x16).cmd).last = true
      ∧ (project (predicting 0x16) 0 0 (predOps (predict 0x16).cmd)).2.isSome = true
      ∧ getSlotF (getCore (predicting 0x16) 0) (predOps (predict 0x16).cmd).slot = some factors0 := by decide +kernel
theorem witness_replace : headOp (running 0 replacing) 0 0x21 = some replacing
    ∧ replacing.bitmap = some { rows := 1, nspan := 1, bits := [1] } := by decide +kernel
/-- R201: a span whose score, 2.0 with a zero projection, is above θ is active. -/
theorem test_predict : ((getQueue (after (.lampPredict 0) (predicting 0x16)) 0).inflight.map (·.bitmap))
    = [some { rows := 1, nspan := 1, bits := [1] }] := by decide +kernel
theorem test_replace : (getCore (after (.bitmapReplace 0) (running 0 replacing)) 0).bitmap = some { rows := 1, nspan := 1, bits := [1] }
    ∧ stored (after (.bitmapReplace 0) (running 0 replacing)) 0x2000 2 = 1 := by decide +kernel
theorem witness_gln : headOp (running 0 (glnConfig 2)) 0 0x28 = some (glnConfig 2) ∧ (glnOps (glnConfig 2).cmd).mode = 2
    ∧ (glnOps (glnConfig 0).cmd).mode = 0 ∧ anyPoison (storeRead (running 0 (glnConfig 2)) 0 0x400 64).bytes = false
    ∧ anyPoison (storeRead (engine 0 (glnConfig 2) [(0x43F, badBytes 1)]) 0 0x400 64).bytes = true
    ∧ headOp (glnFence 1) 0 0x29 = some (flight 0x29 []) ∧ (getCore (glnFence 1) 0).gln.mode = 1 ∧ (getCore (glnFence 0) 0).gln.mode = 0
    ∧ 2 ≤ (getCore (glnFence 2) 0).gln.mode := by decide +kernel
theorem witness_exact : (exactMakeUp (glnFence 1) 0 0 0).2.ok = true := by decide +kernel
theorem test_gln : (getCore (after (.glnConfig 0) (engine 0 (glnConfig 2) [(0x400, clean [0, 0, 0x80, 0x3F])])) 0).gln.mode = 2
    ∧ count (after (.glnFence 0) (glnFence 2)) 0 = (1, 0) := by decide +kernel

/-- How the WVR.SPMM in flight ends. -/
def spmmEnd (s : State) : WRes := withOverlap s 0 (outRanges (spmmOps spmmCmd.cmd 0).out 0) (spmmRes (spmmOps spmmCmd.cmd 0))
theorem witness_weaver :
    headOp (running 1 spmmCmd) 1 0x40 = some spmmCmd ∧ headOp (running 1 gatherCmd) 1 0x41 = some gatherCmd
      ∧ headOp (running 1 dispatchCmd) 1 0x42 = some dispatchCmd ∧ headOp (running 1 scoutCmd) 1 0x48 = some scoutCmd
      ∧ (spmmEnd (running 1 spmmCmd)).rd.poison = false
      ∧ (spmmEnd (storeWrite (running 1 spmmCmd) 0 0x400 (badBytes 1))).rd.poison = true := by decide +kernel
theorem test_weaver : count (after (.wvrSpmm 0) (running 1 spmmCmd)) 1 = (1, 0) ∧ count (after (.wvrGather 0) (running 1 gatherCmd)) 1 = (1, 0) := by
  decide +kernel
theorem test_dispatch : count (after (.wvrDispatch 0) (running 1 dispatchCmd)) 1 = (1, 0) := by decide +kernel

theorem witness_fuller :
    headOp (running 2 fulCmd) 2 0x60 = some fulCmd ∧ headOp (running 2 softCmd) 2 0x61 = some softCmd
      ∧ [0x62, 0x63, 0x68, 0x69, 0x6A].map (fun op => (headOp (running 2 (flight op [])) 2 op).isSome) = [true, true, true, true, true] := by
  decide +kernel
/-- How FUL.RUN of the program at 0x400 with A0 holding `va` stops. -/
def fulStop (bytes : List (Nat × List (Byte × Bool))) (va : Nat) : FStop :=
  (fulRun (engine 2 (flight 0x60 [(24, 0x400), (27, 2), (32, va)]) bytes) 0 (flight 0x60 [(24, 0x400), (27, 2), (32, va)])).stop
/-- The last instruction of the program with a byte offset of 4, beyond the store from its last word. -/
def beyond : List Byte := fulProgram.take 80 ++ leBytes 8 0x0000000430200031
theorem witness_fulStop : fulStop [(0x400, clean fulProgram)] 0x1000 = .none ∧ fulStop [(0x400, badBytes 1)] 0x1000 = .poison
    ∧ fulStop [(0x400, clean beyond)] 0x2FFFFC = .prot 0x300000 := by decide +kernel
/-- EXP2 of 1.0 is 2.0. -/
theorem test_fulRun : stored (after (.fulRun 0) (engine 2 fulCmd [(0x400, clean fulProgram)])) 0x1000 4 = 0x40000000 := by decide +kernel
/-- The softmax of one element is 1.0. -/
theorem test_softmax : stored (after (.fulSoftmax 0) (running 2 softCmd)) 0x1000 4 = 0x3F800000 := by decide +kernel
theorem witness_softPoison :
    ((softRows (engine 2 softCmd [(0x400, badBytes 1)]) 0 (softOps softCmd.cmd 0) 1 0).2.any (·.poison)) = true
      ∧ (optRun true (optOps (optCmd 0x62).cmd) (engine 2 (optCmd 0x62) [(0x1000, badBytes 1)]) 0).rd.poison = true
      ∧ (optRun false (optOps (optCmd 0x63).cmd) (running 2 (optCmd 0x63)) 0).rd.poison = false := by decide +kernel
theorem test_optimiser : count (after (.fulAdam 0) (running 2 (optCmd 0x62))) 2 = (1, 0) ∧ count (after (.fulSgdm 0) (running 2 (optCmd 0x63))) 2 = (1, 0)
    ∧ count (after (.fulAdam 0) (engine 2 (optCmd 0x62) [(0x1000, badBytes 1)])) 2 = (1, 0x30) := by decide +kernel
theorem witness_masks : (maskRun 0x68 0 (maskOps (maskCmd 0x68).cmd) (running 2 (maskCmd 0x68))).stopped = false
    ∧ headOp (running 2 (maskCmd 0x68)) 2 0x68 = some (maskCmd 0x68) := by decide +kernel
theorem test_masks : count (after (.maskPrune 0) (engine 2 (maskCmd 0x68) [(0x10000, badBytes 1)])) 2 = (1, 0x30) := by decide +kernel

theorem witness_carter : [0xA0, 0xA1, 0xA2].map (fun op => headOp (running 3 (ctrCmd op)) 3 op == some (ctrCmd op)) = [true, true, true]
    ∧ (carterMove (running 3 (ctrCmd 0xA1)) { k := 3, p := 0, ctx := qCtx (running 3 (ctrCmd 0xA1)) 3, seq := 0 } 0xA1 (ctrCmd 0xA1).cmd (ctrCmd 0xA1).desc).fault
      = none := by decide +kernel
theorem test_fill : stored (after (.ctrFill 0) (running 3 (ctrCmd 0xA1))) 0x1000 8 = 0xA5000000A5 := by decide +kernel
/-- A copy of one block of the store, at `off`, to itself. -/
def selfCopy : BitVec 1024 := BitVec.ofNat 1024 ((0x1000 + 1 * 256 ^ 8 + 2 * 256 ^ 9 + 1 * 256 ^ 10 + 1 * 256 ^ 12 + 4 * 256 ^ 32) * (256 ^ 64 + 1))
theorem witness_selfCopy : plainCopy 0xA0 (srcDesc selfCopy) (dstDesc selfCopy) = true ∧ extentsMeet (srcDesc selfCopy) (dstDesc selfCopy) = true
    ∧ (srcDesc selfCopy).base = (dstDesc selfCopy).base := by decide +kernel
theorem test_copyPermute : count (after (.ctrCopy 0) (running 3 { ctrCmd 0xA0 with desc := selfCopy })) 3 = (1, 0)
    ∧ count (after (.ctrPermute 0) (running 3 { ctrCmd 0xA2 with desc := selfCopy })) 3 = (1, 0) := by decide +kernel

/-- A CTR.FILL of two elements of 4 bytes into device memory. -/
def fillTo (va : Nat) : InFlight :=
  { ctrCmd 0xA1 with
    desc := BitVec.ofNat 1024 ((va + 2 * 256 ^ 9 + 1 * 256 ^ 10 + 1 * 256 ^ 12 + 4 * 256 ^ 32) * 256 ^ 64) }
/-- Hall 0 with one of its accesses about to be lost. -/
def losing (s : State) : State := { s with meshFault := some { hall := 0, skip := 0, lost := true } }
def fillEnd (va : Nat) (f : State → State) : Bool × Bool :=
  let s := f (running 3 (fillTo va))
  let m := carterMove s { k := 3, p := 0, ctx := qCtx s 3, seq := 0 } 0xA1 (fillTo va).cmd (fillTo va).desc
  (m.fault.isSome, m.acked)
/-- Into a page that is mapped, into one that is not, and with an acknowledgement lost. -/
theorem witness_carterEnds : fillEnd 0x1000 id = (false, true) ∧ fillEnd 0x20000 id = (true, true) ∧ fillEnd 0x1000 losing = (false, false) := by
  decide +kernel

/-- DRV.BCAST of root 0 at rank 1 of 2 on channel 0 of hall 0: a chunk of 64 bytes into BUF. -/
def bcast (buf : Nat) : InFlight := flight 0xC2 [(24, 4), (28, 77), (32, buf), (38, 64), (48, 1), (50, 2)]
def chunkFrame : Frame := { token 77 0 0 with vl := 1, kind := 0, payload := List.replicate 64 9 }
/-- The ring with the tables of job context 0 down to a page of 1 GiB at 0x40000000. -/
def mapped (s : State) : State :=
  modHall (modJob { s with mem := [(0, 0x0D), (3, 0x40)] } 0 fun j => { j with rootValid := true }) 0 fun hl =>
    { hl with ptrs := [{ job := 0, level := 3, pre := 0, table := 0 }] }
def bcasting (buf : Nat) (bad : Option W32) : State :=
  modPort (mapped (ringed (bcast buf) [])) 1 fun p => { p with rx := [{ frame := chunkFrame, bad := bad }] }
/-- How a DRV.BCAST ends, and whether all its writes were acknowledged. -/
def bcastEnd (s : State) (buf : Nat) : DrvEnd × Bool :=
  let r := drvTurn 0xC2 s (drvOf 0 0 (bcast buf)) (bcast buf)
  (r.fin, r.acked)
/-- The chunk arrives; it arrives poisoned for its check value; it is for an address beyond the page; an access of its write is lost. -/
theorem witness_droverEnds :
    Canonical (bcasting 0x1000 none) ∧ bcastEnd (bcasting 0x1000 none) 0x1000 = (.done, true)
      ∧ bcastEnd (bcasting 0x1000 (some 6)) 0x1000 = (.ueRead 6, true)
      ∧ bcastEnd (bcasting 0x80000000 none) 0x80000000 = (.xfail { cause := 1, level := 2 } 0x80000000 true, true)
      ∧ bcastEnd { bcasting 0x1000 none with meshFault := some { hall := 0, skip := 1, lost := true } } 0x1000
        = (.done, false) :=
  ⟨canonical_of_test (by decide +kernel), by decide +kernel⟩
theorem witness_unackedTimeout : runningDrv (ringed { barrier (some {}) with unacked := true } []) 0 0
    = some { barrier (some {}) with unacked := true } := by decide +kernel
theorem witness_drover :
    headOp (ringed (barrier none) []) 512 0xC3 = some (barrier none) ∧ runningDrv w0 0 0 = none
      ∧ runningDrv (ringed (barrier (some {})) []) 0 0 = some (barrier (some {})) ∧ barrierEnd (barrier none) [token 77 0 1] = .running
      ∧ barrierEnd (barrier (some { k := 1 })) [token 77 1 0] = .done ∧ barrierEnd (barrier none) [token 78 0 1] = .fault 4 0 1
      ∧ [0xC0, 0xC1, 0xC2].map (fun op => (headOp (ringed (flight op []) []) 512 op).isSome) = [true, true, true] := by decide +kernel
theorem canonical_ringed : Canonical (ringed (barrier none) [token 77 0 1]) := canonical_of_test (by decide +kernel)
/-- R397: a member counts itself in the token of the first round. -/
theorem test_barrier : ((getPort (after (.drvBarrier 0 0) (ringed (barrier none) [token 77 0 1])) 0).egress.map fun f => f.contrib) = [2]
    ∧ (getQueue (after (.drvBarrier 0 0) (ringed (barrier (some { k := 1 })) [token 77 1 0])) 512).inflight = [] := by decide +kernel
/-- R399: EV_DRV_FAULT at the timeout. -/
theorem test_drvTimeout : ((getHall (after (.drvTimeout 0 0) (ringed (barrier (some {})) [])) 0).held.map (·.code)).contains 0x0106 = true := by
  decide +kernel

/-! ## Witnesses of further clauses -/

/-- A port whose hall's next step begins a codeword, of a module with an address and of one without. -/
def lineDue (lfa : Option (BitVec 12)) : State := modPort { portUp with time := 8, chain := { portUp.chain with lfa := lfa } } 0 fun p => { p with round := 15 }
theorem witness_lines : Canonical (lineDue none) ∧ (lineDue none).pending = [] ∧ (getPort (lineDue none) 0).up = true ∧ dieUp (lineDue none) = true
    ∧ (lineDue none).chain.lfa = none ∧ (lineDue (some 5)).chain.lfa ≠ none ∧ (8 + 4) % 12 < 4 := ⟨canonical_of_test (by decide +kernel), by decide +kernel⟩
def isControl : SentWord → Bool
  | .control _ _ => true
  | _ => false
/-- What port 0 has sent after one step. -/
def sentNext (s : State) : List Bool :=
  match step s with
  | .next t => (getPort t 0).sent.map isControl
  | _ => []
/-- R380, R489: four codewords leave at once; slot 0's sixteenth is a control codeword, and idle from a module with no address. -/
theorem test_lines : sentNext (lineDue (some 5)) = [true, false, false, false] ∧ sentNext (lineDue none) = [false, false, false, false] := by
  decide +kernel

/-- Nothing goes wrong in the mesh or the memory, and the record of the SEM.SIGNAL lies at a line of device memory. -/
theorem witness_record : QuietMemory (running 0 (flight 2 [(1, 2)])) ∧ recordPa (running 0 (flight 2 [(1, 2)])) 0 0 = some 0x10000 :=
  ⟨⟨⟨rfl, rfl, fun _ => ⟨rfl, rfl⟩, fun _ _ => rfl⟩, fun _ => rfl, fun _ => (by decide : (0 : Nat) < 256), fun _ _ => rfl,
    fun _ => ⟨false, false, (by decide : ({} : PairErr) = { syms := [], chk := poisonPattern false false })⟩⟩, by decide +kernel⟩

/-- A FENCE.EVENT that follows a signal still on its way. -/
def owing : State := { running 0 (covering 5) with signals := [{ sem := 7, add := 1, source := .host, fences := [(0, 0)] }] }
theorem witness_owed : headOf owing 0 = some (covering 5) ∧ (∃ g ∈ owing.signals, (0, (covering 5).seq) ∈ g.fences)
    ∧ opcodeOf (covering 5).cmd = 0x05 := by decide +kernel
theorem test_owed : after (.fenceEvent mq0) owing = owing := by decide +kernel

/-- Queue 0 with the command of `c` in slot 0 of its ring at address 0, and `l` in flight. -/
def posting (c : BitVec 512) (st : QState) (l : List InFlight) : State :=
  setOwn (setQueue { w0 with mem := putBytes [] 0x10000 (leBytes 64 c.toNat) } 0
    { enable := true, state := st, sizeLog2 := 4, prod := 1, cbase := 0x1000, inflight := l }) 0 { owned := true }
def fetched (s : State) : BitVec 512 :=
  BitVec.ofNat 512 (leNat ((vaRead s (qCtx s 0) ((getQueue s 0).base.toNat + 64 * ((getQueue s 0).fetchSeq.toNat % ringSize (getQueue s 0))) 64 .fetch).bytes.map (·.1)))
def taken (s : State) : State :=
  modQueue (vaRead s (qCtx s 0) (getQueue s 0).base.toNat 64 .fetch).st 0 fun q => { q with fetchSeq := (getQueue s 0).fetchSeq + 1 }
theorem witness_fetchStarts : Canonical (posting (word 0 []) .idle []) ∧ mayFetch (posting (word 0 []) .run []) 0 = true
    ∧ fetched (posting (word 0 []) .run []) = word 0 [] ∧ (checkCommand (taken (posting (word 0 []) .run [])) 0 (word 0 []) 0).fail = none
    ∧ hdrWait (word 0 []) = false ∧ hdrClass (word 0 []) = 0 ∧ startsInOrder (getQueue (posting (word 0 []) .run []) 0) (word 0 []) = true
    ∧ fetchFail (vaRead (posting (word 0 []) .run []) (qCtx (posting (word 0 []) .run []) 0) 0 64 .fetch) = none :=
  ⟨canonical_of_test (by decide +kernel), by decide +kernel⟩
theorem test_fetchStarts : ((getQueue (after (.commandFetch mq0) (posting (word 0 []) .run [])) 0).inflight.map (·.cmd)) = [word 0 []] := by decide +kernel
/-- A command of job context 1 on a queue of job context 0, with nothing in flight and with a command in flight. -/
def foreign : BitVec 512 := word 0 [(2, 1)]
theorem witness_fetchRejects : RejectedWith (taken (posting foreign .run [])) 0 foreign 0 0x12 ∧ fetched (posting foreign .run []) = foreign
    ∧ Canonical (posting foreign .run []) ∧ mayFetch (posting foreign .run []) 0 = true
    ∧ (writeRecord (modQueue (taken (posting foreign .run [])) 0 fun q => { q with state := .run, front := none }) 0 0 0x12 0 []).fail = none
    ∧ mayFetch (posting foreign .run [{ flight 2 [] with seq := 0xFFFFFFFF }]) 0 = true :=
  ⟨Or.inr ⟨by decide +kernel, by decide +kernel, Or.inr ⟨by decide +kernel, Or.inl ⟨by decide +kernel, rfl⟩⟩⟩, by decide +kernel,
    canonical_of_test (by decide +kernel), by decide +kernel, by decide +kernel, by decide +kernel⟩
theorem test_fetchRejects : (getQueue (after (.commandFetch mq0) (posting foreign .run [])) 0).lastStatus = 0x12
    ∧ (getQueue (after (.commandFetch mq0) (posting foreign .run [])) 0).state = .haltFault := by decide +kernel
theorem witness_fencedFetch : Canonical (posting (word 2 []) .fenced []) ∧ mayFetch (posting (word 2 []) .fenced []) 0 = true
    ∧ fetched (posting (word 2 []) .fenced []) = word 2 [] ∧ opcodeOf (word 2 []) ≠ 0x06 ∧ opcodeOf (word 6 []) = 0x06
    ∧ fetched (posting (word 6 []) .fenced []) = word 6 []
    ∧ (writeRecord (taken (posting (word 2 []) .fenced [])) 0 0 2 0 []).fail = none ∧ hdrSignal (word 2 []) = false :=
  ⟨canonical_of_test (by decide +kernel), by decide +kernel⟩
theorem test_fencedFetch : (getQueue (after (.commandFetch mq0) (posting (word 2 []) .fenced [])) 0).lastStatus = 2
    ∧ ((getQueue (after (.commandFetch mq0) (posting (word 6 []) .fenced [])) 0).inflight.map (·.cmd)) = [word 6 []] := by decide +kernel

/-- A copy stream of the Cooper that asks for its grant. -/
def copAsking : State := modHall w0 0 fun hl => { hl with requests := [{ queue := 2048, cc := 6, res := 100, time := 0 }] }
theorem witness_copGrant : dieUp copAsking = true ∧ (admission copAsking 0 { queue := 2048, cc := 6, res := 100, time := 0 }).isSome = true := by decide +kernel
/-- Ring 0 of a hall at its wait, when the turn is ring 1's, whose command is posted and not fetched. -/
def turnOfOne : State :=
  setQueue (modHall (ringWait 1) 0 fun hl => { hl with cqTurn := 0 }) 513 { enable := true, state := .run, sizeLog2 := 4, prod := 1, job := 1 }
theorem witness_turn : Canonical turnOfOne ∧ cqNext (modQueue turnOfOne 512 fun q => { q with front := q.front.map fun f => { f with stage := .request } }) 0 = some 1
    ∧ asksStart (getQueue turnOfOne 513) = false := ⟨canonical_of_test (by decide +kernel), by decide +kernel⟩
theorem test_turn : asksStart (getQueue (after (.waitMet (.cq 0 0)) turnOfOne) 512) = true := by decide +kernel

/-- The fenced core of `markedFenced` in a hall without a spare. -/
def noSpareFenced : State := { markedFenced with positions := (List.range 72).map fun i => (i, { status := if i = 0 then .inService else .retired }) }
theorem witness_noSpareOpen : Canonical noSpareFenced ∧ windowDue noSpareFenced 0 = true ∧ (getCore noSpareFenced 0).swap = none
    ∧ (getCore noSpareFenced 0).fenced = true ∧ earlierRepair noSpareFenced 0 = false ∧ nearestSpare noSpareFenced 0 (getCore noSpareFenced 0).pos = none :=
  ⟨canonical_of_test (by decide +kernel), by decide +kernel⟩
theorem test_noSpareOpen : (getHall (after (.swapWindowOpen 0) noSpareFenced) 0).sticky = 2 ^ 30
    ∧ (getCore (after (.swapWindowOpen 0) noSpareFenced) 0).pos = 0 := by decide +kernel
theorem witness_rotationNoSpare : nearestSpare (modCore { copying with positions := noSpareFenced.positions } 0 fun c =>
    { c with swap := c.swap.map fun w => { w with cause := 0, copying := false } }) 0 0 = none := by decide +kernel

theorem witness_closeOne : QuietMesh closing ∧ (getSem closing (getJob closing 3).closeSem).value.toNat - (getJob closing 3).seaV0.toNat = 1
    ∧ (getSem closing (getJob closing 3).doneSem).broken = false ∧ (getHall closing 0).seaFlip.arm = false ∧ (getHall closing 1).seaFlip.arm = false :=
  ⟨⟨rfl, rfl, fun _ => ⟨rfl, rfl⟩, fun _ _ => rfl⟩, by decide +kernel⟩
def restoringJob : State := modJob w0 2 fun j => { j with restoring := true }
theorem witness_restoring : ¬ (getJob restoringJob 2).restoring = false ∧ (getJob w0 2).restoring = false ∧ anyHostUp restoringJob = true := by decide +kernel
theorem test_restoring : after (.copRestore 2) restoringJob = restoringJob ∧ after (.copFetch 2) fetchingJob = fetchingJob := by decide +kernel
theorem witness_triggerHeld : (getJob openGen 0).opening.isSome = true ∧ QuietMesh openGen ∧ (getSem openGen (getJob openGen 0).copDone).broken = false
    ∧ tabWf 0 (getHall openGen 0).copGrants = true ∧ tabWf 0 (getHall openGen 0).copLent = true :=
  ⟨by decide +kernel, ⟨rfl, rfl, fun _ => ⟨rfl, rfl⟩, fun _ _ => rfl⟩, by decide +kernel⟩

/-- FS_PLL of the MGMT clock of hall 0, whose condition stands. -/
def pllOut : State := modHall (stickyAt (2 ^ 12)) 0 fun hl => { hl with conds := (getHall mgmtOut 0).conds }
theorem witness_pllClear : Canonical pllOut ∧ hostUp pllOut 0 = true ∧ clearable pllOut 0 12 = true ∧ (getHall pllOut 0).sticky.getLsbD 12 = true
    ∧ persists w0 0 34 = 0 := ⟨canonical_of_test (by decide +kernel), by decide +kernel⟩
def ringLost : State := modHall ringOn 0 fun hl => { hl with lostFirst := some 7, ringCons := 120 }
theorem witness_lost : Canonical ringLost ∧ (getHall ringLost 0).held = resetHall.held ∧ ringReady ringLost 0 (eventRecords []) = true
    ∧ (getHall ringLost 0).lostFirst = some 7 := ⟨canonical_of_test (by decide +kernel), by decide +kernel⟩
theorem witness_msix : (getHall (vec false true false) 0).msixEnable = true ∧ (getHall (vec false true false) 0).msixMask = false
    ∧ (getHall (modHall w0 0 fun hl => { hl with msixEnable := false }) 0).msixEnable = false := by decide +kernel

/-- A stopped start without its management supply, and one whose hall 1 has a flash that cannot be used. -/
def noMgmt : State := { noImage with power := { noImage.power with mgmt := false } }
def badFlash : State := { noImage with fuse := { noImage.fuse with badFlash := [1] } }
theorem witness_stopped : bootUp noMgmt 0 = true ∧ noMgmt.power.mgmt = false ∧ noImage.power.mgmt = true ∧ flashUnusable noImage 0 = false
    ∧ flashUnusable noImage 1 = false ∧ flashUnusable badFlash 1 = true ∧ flashUnusable badFlash 0 = false ∧ bootUp badFlash 1 = true := by decide +kernel
theorem test_flashBad : (getHall (after (.stwStartRetry 0) badFlash) 1).start = .flashBad ∧ (getHall (after (.stwStartRetry 0) badFlash) 0).start = .bootFail
    ∧ after (.stwStartRetry 0) noMgmt = noMgmt ∧ (getHall (after (.flashErase 1) badFlash) 1).flashStatus = 3 := by decide +kernel
/-- Where a start has stopped the mailbox takes bytes, and a doorbell none. -/
theorem witness_bootBar : bootUp noImage 0 = true ∧ hostUp noImage 0 = false ∧ blockLost noImage 0 0x110 = false ∧ blockLost noImage 0 0x20014 = false
    ∧ tabWf 0 (getHall noImage 0).mailbox = true ∧ byteAddr 0x20014 = false ∧ Canonical noImage :=
  ⟨by decide +kernel, by decide +kernel, by decide +kernel, by decide +kernel, by decide +kernel, by decide +kernel, canonical_of_test (by decide +kernel)⟩
theorem test_bootBar : tabGet 0 (getHall (after (.registerWrite 0 0x110 2 0x4321) noImage) 0).mailbox 0x11 = 0x43
    ∧ after (.registerWrite 0 0x20014 4 9) noImage = noImage ∧ after (.registerWrite 0 0x20002 4 9) noImage = noImage := by decide +kernel

theorem witness_mr4 : (getPkg (getHub w0 0) 7).temp.toNat ≤ 95 ∧ 95 < (96 : Byte).toNat ∧ (getHall (after (.mr4Read 0 0 7 96) w0) 1).sticky.getLsbD 34 = true := by
  decide +kernel
theorem witness_flushFate : QuietMesh moduleFence ∧ (askFlush (losing moduleFence) 0 3).1 = .lost ∧ (askFlush moduleFence 0 3).1 = .answered :=
  ⟨⟨rfl, rfl, fun _ => ⟨rfl, rfl⟩, fun _ _ => rfl⟩, by decide +kernel⟩
def badByteFlip : State := modPos badByte 0 fun ps => { ps with stoFlip := { arm := true, data := 2 } }
theorem witness_badByteFlip : (getPos badByteFlip 0).stoFlip.arm = true ∧ (getPos badByte 0).stoFlip.arm = false
    ∧ decodeByte (readSByte (getPos badByteFlip 0) 3) = .uncorrectable 1 ∧ Canonical badByteFlip :=
  ⟨by decide +kernel, by decide +kernel, by decide +kernel, canonical_of_test (by decide +kernel)⟩

/-- An access of hall 0 to be sent once more with two of its series, and the same before the second of them. -/
def resending : State := { w0 with meshFault := some { hall := 0, skip := 0, lost := false, later := 2 } }
theorem witness_resend : stopHall 0 = 0 ∧ resending.resent = none
    ∧ ({ w0 with resent := some (seriesKey 0 1 0 .vc1, 2) } : State).meshFault = none ∧ (losing w0).meshFault = some { hall := 0, skip := 0, lost := true } := by
  decide +kernel
theorem test_resend : (getHall (sendNumbered resending .vc1 0 1 0 []).2 0).meshResend = 1
    ∧ (sendNumbered resending .vc1 0 1 0 []).2.resent = some (seriesKey 0 1 0 .vc1, 2) := by decide +kernel
/-- The first position of hall 0 beside the seam: in service with its core, or a spare. -/
def seamPos : Nat := ((List.range 64).find? fun i => atSeam 0 i).getD 0
theorem witness_routerCore : atSeam 0 seamPos = true ∧ holeOk (getHall w0 0) seamPos = true ∧ (getHall w0 0).holes.contains seamPos = false
    ∧ (List.range 90).any (fun x => stopPos x == some seamPos) = true
    ∧ stopPos (posStop 0) = some 0 ∧ (getPos w0 0).status = .inService ∧ posCore w0 0 = some 0 ∧ holeOk (getHall w0 0) 0 = true := by decide +kernel
theorem test_routerCore : (getCore (after (.routerFailed 0 0) w0) 0).fenced = (stopPos 0 == some 0) := by decide +kernel

/-- A port of three lanes, and one of four without a spare. -/
def fourLanes : State := after (.laneRetire 0 0 4) trained
def threeLanes : State := after (.portTrain 0 0 { lanes := [0, 1, 2], deskewed := true } (some 7)) portDown
theorem witness_activeLane : (getLane (getPort trained 0) 0).role < 4 ∧ (getPort trained 0).spare = some 4 ∧ (getPort trained 0).up = true
    ∧ (getLane (getPort fourLanes 0) 0).role < 4 ∧ (getPort fourLanes 0).spare = none ∧ (getPort fourLanes 0).active = 4
    ∧ (lanesLeft (getPort fourLanes 0)).length = 4 ∧ tabWf {} (getPort fourLanes 0).lanes = true ∧ (getPort fourLanes 0).up = true := by decide +kernel
/-- Two more lanes retired, so that three are left. -/
def lastLanes : State := after (.laneRetire 0 0 1) (after (.laneRetire 0 0 0) trained)
theorem witness_lastLanes : Canonical lastLanes ∧ (getPort lastLanes 0).up = true ∧ (lanesLeft (getPort lastLanes 0)).length ≤ 3
    ∧ (getLane (getPort lastLanes 0) 2).retired = false ∧ tabWf {} (getPort lastLanes 0).lanes = true
    ∧ (∀ m, m < 5 → (0x104 : W32).getLsbD m = decide (m = 2)) :=
  ⟨canonical_of_test (by decide +kernel), by decide +kernel⟩
theorem test_lastLanes : (getPort lastLanes 0).active = 3 ∧ (getPort (after (.laneRetire 0 0 2) lastLanes) 0).up = false
    ∧ (getPort (after (.lnkLaneRetireWrite 0 0 0x104) lastLanes) 0).up = false := by decide +kernel

/-- Logical core 0 owned by job context 5, which has a queue in RUN with a command in flight. -/
def resident5 : State :=
  setQueue (setOwn w0 0 { owned := true, job := 5 }) 0 { ring .run with job := 5, inflight := [flight 0x40 []] }
theorem witness_resident : Canonical resident5 ∧ resident resident5 0 5 = true ∧ 0 ∈ jobQueues resident5 5 ∧ (getQueue resident5 0).state = .run
    ∧ (getJob resident5 5).killed = false ∧ (qJob resident5 0).toNat = 5 := ⟨canonical_of_test (by decide +kernel), by decide +kernel⟩
theorem test_resident : (getQueue (after (.stewardWatchdog 0) resident5) 0).state = .haltFault ∧ (getJob (after (.stewardWatchdog 0) resident5) 5).cause = 4
    ∧ (getQueue (fenceCore resident5 0 {} none) 0).state = .fenced ∧ (getCore (fenceCore resident5 0 {} none) 0).fenced = true := by decide +kernel
theorem witness_trip : (110 : Byte).toNat ≤ 110 ∧ 110 < (111 : Byte).toNat ∧ after (.thermTrip 110) w0 = w0
    ∧ ((now w0 0 - w0.power.lostAt).toNat ≤ 50000) := by decide +kernel
theorem witness_dieWarm : (after (.thermWarn (hotDie 96)) member).power.dieWarm = true ∧ member.power.dieWarm = false := by decide +kernel

/-! ## Witnesses of the engines' further clauses -/

/-- A byte is delivered without poison. -/
def soundByte (b : SByte) : Bool :=
  match decodeByte b with
  | .clean _ | .corrected _ => true
  | _ => false
theorem tabGet_sound (off : Nat) : ∀ t : Tab SByte, (t.all fun x => soundByte x.2) = true → soundByte (tabGet {} t off) = true
  | [], _ => by unfold tabGet; decide
  | (k, v) :: r, h => by
    have h := Bool.and_eq_true_iff.mp (List.all_cons ▸ h)
    unfold tabGet
    split
    · exact h.1
    · exact tabGet_sound off r h.2
/-- A store all of whose bytes are delivered without poison is sound. -/
theorem sound_of_all (s : State) (p : Nat) (h : ((getPos s p).store.all fun x => soundByte x.2) = true) : SoundStore s p := by
  intro off
  have h : soundByte (readSByte (getPos s p) off) = true := tabGet_sound off _ h
  unfold soundByte at h
  split at h
  · exact ⟨_, Or.inl ‹_›⟩
  · exact ⟨_, Or.inr ‹_›⟩
  · exact absurd h (by decide)
theorem witness_soundStores : SoundStore (running 0 (loadw 3)) 0 ∧ SoundStore (matrix 0x11 6 false) 0 ∧ SoundStore (running 0 loadf) 0
    ∧ SoundStore (predicting 2) 0 ∧ SoundStore (running 0 (glnConfig 2)) 0 ∧ SoundStore (glnFence 1) 0 :=
  ⟨sound_of_all _ _ (by decide +kernel), sound_of_all _ _ (by decide +kernel), sound_of_all _ _ (by decide +kernel),
    sound_of_all _ _ (by decide +kernel), sound_of_all _ _ (by decide +kernel), sound_of_all _ _ (by decide +kernel)⟩
theorem witness_soundEngines : (getPos (matrix 0x11 6 false) 0).drnFlip.arm = false ∧ (accFor (getCore (matrix 0x11 6 false) 0) (matOps (matCmd 0x11 6).cmd) 5 plane0).els = []
    ∧ (getPos (predicting 2) 0).lmpFlip.arm = false ∧ (predOps (predict 2).cmd).rescore = false
    ∧ (projFor (getCore (predicting 2) 0) (predOps (predict 2).cmd)).ecc ≤ 1 ∧ (getCore (glnFence 1) 0).gln.log = []
    ∧ (getCore (glnFence 3) 0).gln.mode = 3 ∧ Canonical (matrix 0x11 6 false) ∧ Canonical (glnFence 1) :=
  ⟨by decide +kernel, by decide +kernel, by decide +kernel, by decide +kernel, by decide +kernel, by decide +kernel, by decide +kernel,
    canonical_of_test (by decide +kernel), canonical_of_test (by decide +kernel)⟩
/-- What a command writes lies at its last piece. -/
theorem witness_lastWritten : lastWritten [(4, clean [1, 2]), (5, clean [3])] 5 = some (3, false) ∧ lastWritten [(4, clean [1, 2])] 4 = some (1, false)
    ∧ lastWritten [(4, clean [1, 2])] 6 = none ∧ (getPos w0 0).stoFlip.arm = false := by decide +kernel

/-- Queue `k` of core 0 at its first command, whose record lies in device memory. -/
theorem witness_landing : [0, 1, 2].all (fun k => decide ((getQueue (running k loadf) k).front = none) && decide ((getQueue (running k loadf) k).state = .run)
    && (recordPa (running k loadf) k 0).isSome) = true := by decide +kernel

/-- The matrix command under an armed injection of the Assayer. -/
def injected (flags : Nat) (poison : Bool) : State :=
  modPos (matrix 0x11 flags poison) 0 fun ps => { ps with asyInject := true }
def injectedFacts (flags : Nat) : Bool × Bool × Bool :=
  let s := injected flags false
  let c := matCmd 0x11 flags
  let o := matOps c.cmd
  let pr := runPass s 0 plane0 o 5 (accFor (getCore s 0) o 5 plane0) (List.range o.rows) []
  let a := assay pr.st 0 0 plane0.copyErr pr.seen
  (a.fail.isSome, pr.poison, (matOutput a.st 0 c o 5 plane0 pr none).poison)
theorem witness_mismatch : injectedFacts 2 = (true, false, false) ∧ injectedFacts 6 = (true, false, false) ∧ Canonical (injected 6 false) :=
  ⟨by decide +kernel, by decide +kernel, canonical_of_test (by decide +kernel)⟩

/-- A gated command with its log entry, in EXACT mode. -/
def gatedMat : State :=
  modCore (matrix 0x11 0x26 false) 0 fun c => { c with
    bitmap := some { rows := 1, nspan := 1, bits := [1] }
    gln := { c.gln with mode := 1, gbase := 0x400, log := [{ cmd := (matCmd 0x11 0x26).cmd, loadw := 0, seq := (matCmd 0x11 0x26).seq, off := 0x8000 }] } }
theorem witness_gated : headOp gatedMat 0 0x11 = some (matCmd 0x11 0x26) ∧ (gatingOf (getCore gatedMat 0) (matOps (matCmd 0x11 0x26).cmd) 1).isSome = true
    ∧ (notePieces (getCore gatedMat 0) (matCmd 0x11 0x26) 0).length = 2 ∧ Canonical gatedMat :=
  ⟨by decide +kernel, by decide +kernel, by decide +kernel, canonical_of_test (by decide +kernel)⟩
theorem test_gated : ((notePieces (getCore gatedMat 0) (matCmd 0x11 0x26) 0).map fun x => (x.1, (x.2.take 2).map (·.1))) = [(0x8054, [0]), (0x8080, [1, 0])] := by
  decide +kernel

end Sys2Proof.Tests
end

section
/-! O5: every step keeps a legal configuration. Each command's own operation has a lemma `…_changes` under Laws/; here they meet in one lemma about
`exec`, and from it in the step. -/

namespace Sys2Proof.Machine

/-- The next state of an outcome, if it has one, is reached from `s` by a change that `Changes` speaks of. -/
def NextChanges (s : State) (o : Host.Outcome State Fault Refusal) : Prop := ∀ t, o = .next t → ∃ L, Changes L s t

theorem NextChanges.of_changes {L : List Part} {s t : State} (h : Changes L s t) : NextChanges s (.next t) := by
  rintro u ⟨⟩
  exact ⟨L, h⟩

/-- The outcome of a hub request: nothing while the die is down, and a fault at an address that no hub has (R328, R332). -/
theorem NextChanges.of_request {L : List Part} {s t : State} {f : Fault} {down ok : Prop} [Decidable down] [Decidable ok]
    (h : Changes L s t) : NextChanges s (if down then .next s else if ok then .next t else .fault f) := by
  split
  · exact .of_changes (L := L) .refl
  · split
    · exact .of_changes h
    · rintro _ ⟨⟩

/-! ## The commands of the chain -/

/-- A chain frame that acts only at the module's own address. -/
theorem addressedChain_changes {L : List Part} {s : State} {type : Byte} {f : ChainFrame} {act : State → State}
    (ha : ∀ u, Changes L u (act u)) (hs : Part.sub [.chain] L = true) :
    Changes L s (receiveChain s type f fun u => atAddress u type f act) :=
  receiveChain_changes (fun _ => atAddress_changes ha hs) hs

/-! ## Every command -/

/-- Every command, by the lemma of its operation. -/
theorem exec_changes {s : State} : ∀ c : Instr, NextChanges s (exec c s)
  | .ctlNop _ | .semWait _ | .semSignal _ => .of_changes runPlain_changes
  | .fence _ => .of_changes runFence_changes
  | .fenceEvent _ => .of_changes runFenceEvent_changes
  | .syncSwapmark _ _ => .of_changes runSwapmark_changes
  | .loomLoadw _ => .of_changes runLoadw_changes
  | .loadwWritePart _ => .of_changes runLoadwWrite_changes
  | .loomMatmul _ | .loomMatmulT _ => .of_changes runMatrix_changes
  | .lampLoadf _ => .of_changes runLoadf_changes
  | .lampPredict _ => .of_changes runPredict_changes
  | .bitmapReplace _ => .of_changes runBitmapReplace_changes
  | .glnConfig _ => .of_changes runGlnConfig_changes
  | .glnFence _ => .of_changes runGlnFence_changes
  | .wvrSpmm _ => .of_changes runSpmm_changes
  | .wvrGather _ => .of_changes runGather_changes
  | .wvrDispatch _ => .of_changes runDispatch_changes
  | .maskScout _ => .of_changes runScout_changes
  | .fulRun _ => .of_changes runFul_changes
  | .fulSoftmax _ => .of_changes runSoftmax_changes
  | .fulAdam _ | .fulSgdm _ => .of_changes runOpt_changes
  | .maskPrune _ | .maskRegrow _ | .maskRepair _ => .of_changes runMask_changes
  | .ctrCopy _ | .ctrFill _ | .ctrPermute _ => .of_changes runCarter_changes
  | .drvAllgather _ _ | .drvRedscat _ _ | .drvBcast _ _ | .drvBarrier _ _ => .of_changes runDrover_changes
  | .commandFetch _ => .of_changes runFetch_changes
  | .waitMet _ => .of_changes runWaitMet_changes
  | .grantAdmit _ => .of_changes runAdmit_changes
  | .semaphoreSignalApply _ => .of_changes runSignalApply_changes
  | .brokenMark _ => .of_changes runBrokenMark_changes
  | .swapWindowOpen _ => .of_changes runSwapOpen_changes
  | .swapWindowClose _ => .of_changes runSwapClose_changes
  | .qDoorbell _ _ => .of_changes runQDoorbell_changes
  | .qRestart _ _ => .of_changes runQRestart_changes
  | .qEnable _ _ => .of_changes runQEnable_changes
  | .qDisable _ _ => .of_changes runQDisable_changes
  | .semAdd _ _ _ => .of_changes runSemAdd_changes
  | .semSet _ _ _ => .of_changes runSemSet_changes
  | .stwOwnWrite _ _ => .of_changes runOwnWrite_changes
  | .stwSemgrpWrite _ _ _ => .of_changes runSemgrpWrite_changes
  | .xlateInv _ => .of_changes runXlateInv_changes
  | .xlateInvDone => .of_changes runXlateInvDone_changes
  | .seaSlotCfgWrite _ _ _ => .of_changes runSeaSlotCfg_changes
  | .seaJobEnable _ _ => .of_changes runSeaJobCfg_changes
  | .seaJobDiscard _ => .of_changes (.ite_ (fun _ => dropStats_changes) fun _ => .refl)
  | .sealerClose _ => .of_changes runSealerClose_changes
  | .tnkReqWrite _ _ => .of_changes runTnkReq_changes
  | .asyInject _ _ _ => .of_changes runAsyInject_changes
  | .flipArm _ _ => .of_changes runFlipArm_changes
  | .hubPkgRetire _ _ _ => .of_changes runPkgRetire_changes
  | .lnkLaneRetireWrite _ _ _ => .of_changes runLaneRetireWrite_changes
  | .belStickyClear _ _ => .of_changes runStickyClear_changes
  | .belForce _ _ => .of_changes runForce_changes
  | .killedClear _ => .of_changes runKilledClear_changes
  | .selftestStart _ => .of_changes runSelfTest_changes
  | .copEnable _ _ => .of_changes runCopCfg_changes
  | .copRestore _ => .of_changes runCopRestore_changes
  | .copFetch _ => .of_changes runCopFetch_changes
  | .copIntervalWrite _ _ => .of_changes runCopInterval_changes
  | .cooperTrigger _ => .of_changes runCooperTrigger_changes
  | .cooperCopyDone _ => .of_changes runCooperCopyDone_changes
  | .stwStartRetry _ => .of_changes runStartRetry_changes
  | .hallReload _ _ => .of_changes runHallReload_changes
  | .flashRead _ => .of_changes runFlashRead_changes
  | .flashProgram _ => .of_changes runFlashProgram_changes
  | .flashErase _ => .of_changes runFlashErase_changes
  | .flashOpReserved _ => .of_changes runFlashReserved_changes
  | .scbRingEnable _ _ => .of_changes runRingEnable_changes
  | .scbRingConsWrite _ _ => .of_changes runRingCons_changes
  | .registerWrite _ _ _ _ => .of_changes runRegisterWrite_changes
  | .bar2Read _ _ _ => .of_changes runBar2Read_changes
  | .bar2Write _ _ _ => .of_changes runBar2Write_changes
  | .eventWrite _ => .of_changes runEventWrite_changes
  | .msixFire _ _ => .of_changes runMsixFire_changes
  | .bellmanReport _ _ _ _ => .of_changes runReport_changes
  | .slotDrop _ => .of_changes runSlotDrop_changes
  | .aliveToggle => .of_changes runAliveToggle_changes
  | .hubReadRequest _ _ _ _ => .of_request runHubRead_changes
  | .hubWriteRequest _ _ _ _ => .of_request runHubWrite_changes
  | .hubFenceFlush _ _ _ => .of_changes runFenceFlush_changes
  | .patrolScrub _ _ _ => .of_changes runPatrolScrub_changes
  | .refresh _ _ _ => .of_changes runRefresh_changes
  | .mr4Read _ _ _ _ => .of_changes runMr4Read_changes
  | .wck2dqTrack _ _ _ _ => .of_changes runWckTrack_changes
  | .retrainWindow _ _ _ _ => .of_changes runRetrain_changes
  | .repairLogAppend _ => .of_changes runRepairLogAppend_changes
  | .meshResend _ _ => .of_changes runMeshResend_changes
  | .meshLost _ _ => .of_changes runMeshLost_changes
  | .routerFailed _ _ => .of_changes runRouterFailed_changes
  | .seamWireLog _ _ _ => .of_changes runSeamWireLog_changes
  | .frameReceive _ _ _ _ _ _ => .of_changes runFrameReceive_changes
  | .controlCodeword _ _ _ => .of_changes runControl_changes
  | .frameReplayTimeout _ _ => .of_changes runReplayTimeout_changes
  | .laneRotate _ _ => .of_changes runLaneRotate_changes
  | .laneRetire _ _ _ => .of_changes runLaneRetire_changes
  | .portTrain _ _ _ _ => .of_changes runPortTrain_changes
  | .linkClockLost _ _ => .of_changes runLinkClockLost_changes
  | .drvTimeout _ _ => .of_changes runDrvTimeout_changes
  | .benchPeriodStart _ => .of_changes runBenchPeriod_changes
  | .benchRound _ _ _ => .of_changes runBenchRound_changes
  | .benchPause _ => .of_changes runBenchPause_changes
  | .millerWindow _ _ => .of_changes runMillerWindow_changes
  | .millerYield _ => .of_changes runMillerYield_changes
  | .derateEnd => .of_changes runDerateEnd_changes
  | .coldStart => .of_changes runColdStart_changes
  | .efuseTrip => .of_changes runEfuseTrip_changes
  | .vrFault _ => .of_changes runVrFault_changes
  | .vinOut _ => .of_changes runVinOut_changes
  | .thermWarn _ => .of_changes runThermWarn_changes
  | .thermTrip _ => .of_changes runThermTrip_changes
  | .pllUnlock _ => .of_changes runPllUnlock_changes
  | .stewardWatchdog _ => .of_changes runWatchdog_changes
  | .hostLinkDown _ => .of_changes runLinkDown_changes
  | .chainEnum _ => .of_changes (receiveChain_changes (fun _ => chainCount_changes) (by decide))
  | .chainSetLfa _ => .of_changes (addressedChain_changes (fun _ => setLfa_changes) (by decide))
  | .chainStatus _ => .of_changes (addressedChain_changes (fun _ => chainStatusAct_changes) (by decide))
  | .chainIdent _ => .of_changes (addressedChain_changes (fun _ => respond_changes) (by decide))
  | .chainRestart _ => .of_changes (addressedChain_changes (fun _ => chainRestartAct_changes) (by decide))
  | .chainForward _ _ => .of_changes (receiveChain_changes (fun _ => chainFrame_changes) (by decide))
  | .chainInputLost => .of_changes runInputLost_changes
  | .bypass => .of_changes runBypass_changes
  | .samplePreload _ => .of_changes runSample_changes
  | .extest | .clamp => .of_changes runScan_changes
  | .idcode => .of_changes runIdcode_changes
  | .trstReset => .of_changes runTrst_changes
  | .mgmtSupplyUp => .of_changes runMgmtUp_changes
  | .mgmtSupplyLost => .of_changes runMgmtLost_changes
  | .thermWarnClear => .of_changes runThermClear_changes
  | .hostLinkUp _ => .of_changes runLinkUp_changes
  | .pcieConfigWrite _ _ _ _ => .of_changes runConfigWrite_changes
  | .copFetchTimeout _ => .of_changes runCopFetchTimeout_changes

/-! ## The step -/

/-- Whether a configuration is legal does not depend on the commands that wait. -/
theorem Legal.withPending {s : State} (h : Legal s) (l : List Instr) : Legal { s with pending := l } := { h with rate := h.rate }

/-- Settles O5. On an empty queue only time, ports and free values change (`idleStep_changes`); otherwise the front command runs with the rest of the
queue, and `exec_changes` holds of it. -/
theorem stepKeepsLegalConfiguration : Obligations.StepKeepsLegalConfiguration := by
  intro s t h hstep
  unfold step at hstep
  split at hstep
  · cases hstep
    exact idleStep_changes.legal h
  · next c rest _ =>
    obtain ⟨_, hc⟩ := exec_changes c t hstep
    exact hc.legal (h.withPending rest)

end Sys2Proof.Machine
end

section
/-! O15, O16: the windows of a swap. First what an operation reports and counts, then the target of a swap, the parts of a repair swap and of a
rotation, and from them the opening of a window and its close. -/

namespace Sys2Proof.Machine

/-! ## Time, reports and counts -/

/-- What leaves both copies of the time base leaves a hall's time. -/
theorem Changes.now {L : List Part} {s t : State} (h : Changes L s t) (e : L.contains .time = false) (e1 : L.contains .time1 = false)
    (k : Nat) : Sys2Proof.Machine.now t k = Sys2Proof.Machine.now s k := by
  unfold Sys2Proof.Machine.now
  rw [show t.time = s.time from h.only .time e, show t.time1 = s.time1 from h.only .time1 e1]

/-- What changes only the logical cores and the halls is the state with both replaced. -/
theorem Changes.eq_with_lcores_halls {s t : State} (h : Changes [.lcores, .halls] s t) :
    t = { s with halls := t.halls, lcores := t.lcores } :=
  State.eq_of_parts h.pending fun p => by
    have same := h.only p
    cases p <;> first | rfl | exact same rfl

theorem hallEvent_sticky (hl : HallState) (t : W64) (e : EventSpec) : (hallEvent hl t e).sticky = hl.sticky := by
  unfold hallEvent
  split <;> rfl

/-- R425: a report sets the sticky bit of its source and clears none. -/
theorem getHall_raise_sticky {s : State} (c : Canonical s) (h src cls : Nat) (e : EventSpec) :
    (getHall (raise s h src cls e) h).sticky = (getHall s h).sticky ||| BitVec.ofNat 64 (2 ^ src) := by
  unfold raise pushEvent
  rw [getHall_modHall_same _ _ _ (setSticky_changes.canonical c).halls, hallEvent_sticky]
  unfold setSticky
  rw [getHall_modHall_same _ _ _ c.halls]

/-- R34: a repair without a spare sets FS_NO_SPARE. -/
theorem noSpare_sticky {s : State} (c : Canonical s) (n : Nat) : (getHall (noSpare s n) (n / 64)).sticky.getLsbD 30 = true := by
  unfold noSpare
  rw [getHall_raise_sticky c, BitVec.getLsbD_or, show (BitVec.ofNat 64 (2 ^ 30)).getLsbD 30 = true by decide, Bool.or_true]

theorem canonical_modPos {s : State} (c : Canonical s) (k : Nat) (f : Position → Position) : Canonical (modPos s k f) :=
  { c with positions := tabWf_tabSet c.positions _ _ }

/-- Counting a swap leaves the bench of every hall as it is. -/
theorem countSwap_tnkActive {s : State} (c : Canonical s) (n : Nat) (f : WindowUse → WindowUse) (k : Nat) :
    (getHall (countSwap s n f) k).tnkActive = (getHall s k).tnkActive := by
  unfold countSwap
  split
  · rfl
  · by_cases e : k = n / 64
    · subst e
      rw [getHall_modHall_same _ _ _ c.halls]
    · rw [getHall_modHall_ne _ _ e]

/-! ## The target of a swap (R30, R33) -/

/-- The ready spares of a hall that no swap is filling, by rising index. -/
def spareTargets (s : State) (h : Nat) : List Nat :=
  (List.range 72).filter fun x => isSpare (getPos s (posKey h x)) && !swapTarget s h x

/-- Position `t` is nearer to `i` than `x`, or as near and of no higher index. -/
def Precedes (i t x : Nat) : Prop := hops t i < hops x i ∨ (hops t i = hops x i ∧ t ≤ x)

theorem Precedes.refl (i t : Nat) : Precedes i t t := Or.inr ⟨rfl, Nat.le_refl t⟩

theorem Precedes.trans {i t x y : Nat} (h : Precedes i t x) (k : Precedes i x y) : Precedes i t y := by
  unfold Precedes at *
  omega

/-- The nearer of the best candidate so far and a later one. -/
def nearerSpare (i : Nat) (best : Option Nat) (x : Nat) : Option Nat :=
  match best with
  | none => some x
  | some b => if hops x i < hops b i then some x else some b

theorem nearestSpare_eq_foldl (s : State) (h i : Nat) : nearestSpare s h i = (spareTargets s h).foldl (nearerSpare i) none := rfl

/-- Of two candidates by rising index, the one kept precedes both. -/
theorem nearerSpare_some {i b x : Nat} (h : b < x) :
    ∃ y, nearerSpare i (some b) x = some y ∧ (y = b ∨ y = x) ∧ Precedes i y b ∧ Precedes i y x := by
  by_cases nearer : hops x i < hops b i
  · exact ⟨x, if_pos nearer, Or.inr rfl, Or.inl nearer, .refl i x⟩
  · refine ⟨b, if_neg nearer, Or.inl rfl, .refl i b, ?_⟩
    unfold Precedes
    omega

/-- Of candidates by rising index, the one kept precedes all. -/
theorem foldl_nearerSpare {i : Nat} {l : List Nat} {b : Nat} (hl : (b :: l).Pairwise (· < ·)) :
    ∃ t, l.foldl (nearerSpare i) (some b) = some t ∧ t ∈ b :: l ∧ ∀ x ∈ b :: l, Precedes i t x := by
  induction l generalizing b with
  | nil =>
    refine ⟨b, rfl, List.mem_cons_self, fun x hx => ?_⟩
    rw [List.mem_singleton.1 hx]
    exact .refl i b
  | cons x r ih =>
    obtain ⟨hb, hr⟩ := List.pairwise_cons.1 hl
    obtain ⟨hx, hrest⟩ := List.pairwise_cons.1 hr
    obtain ⟨y, kept, hy, toB, toX⟩ := nearerSpare_some (i := i) (hb x List.mem_cons_self)
    have below : ∀ z ∈ r, y < z := by
      rcases hy with rfl | rfl
      · exact fun z hz => hb z (List.mem_cons_of_mem _ hz)
      · exact hx
    obtain ⟨t, found, ht, least⟩ := ih (List.pairwise_cons.2 ⟨below, hrest⟩)
    have toY := least y List.mem_cons_self
    refine ⟨t, by rw [List.foldl_cons, kept, found], ?_, ?_⟩
    · rcases List.mem_cons.1 ht with rfl | hr
      · rcases hy with rfl | rfl
        · exact List.mem_cons_self
        · exact List.mem_cons_of_mem _ List.mem_cons_self
      · exact List.mem_cons_of_mem _ (List.mem_cons_of_mem _ hr)
    · rintro z (_ | ⟨_, _ | ⟨_, hz⟩⟩)
      · exact toY.trans toB
      · exact toY.trans toX
      · exact least z (List.mem_cons_of_mem _ hz)

theorem swapTarget_eq_false_iff (s : State) (h x : Nat) : swapTarget s h x = false ↔
    ∀ c, c < 64 → ∀ w, (getCore s (64 * h + c)).swap = some w → ¬ (w.copying = true ∧ w.new = x) := by
  simp only [swapTarget, List.any_eq_false, List.mem_range, Option.any_eq_true, Bool.and_eq_true, beq_iff_eq, not_exists]
  simp only [not_and]

theorem mem_spareTargets {s : State} {h x : Nat} : x ∈ spareTargets s h ↔ x < 72 ∧ isSpare (getPos s (posKey h x)) = true ∧
    ∀ c, c < 64 → ∀ w, (getCore s (64 * h + c)).swap = some w → ¬ (w.copying = true ∧ w.new = x) := by
  rw [← swapTarget_eq_false_iff]
  simp [spareTargets]

theorem spareTargets_pairwise_lt (s : State) (h : Nat) : (spareTargets s h).Pairwise (· < ·) := List.pairwise_lt_range.filter _

/-- A hall with no candidate has no target; in one with candidates the target is the candidate that precedes all. -/
theorem nearestSpare_cases (s : State) (h i : Nat) : (spareTargets s h = [] ∧ nearestSpare s h i = none) ∨
    ∃ t, nearestSpare s h i = some t ∧ t ∈ spareTargets s h ∧ ∀ x ∈ spareTargets s h, Precedes i t x := by
  rw [nearestSpare_eq_foldl]
  have rising := spareTargets_pairwise_lt s h
  cases e : spareTargets s h with
  | nil => exact Or.inl ⟨rfl, rfl⟩
  | cons b l => exact Or.inr (foldl_nearerSpare (e ▸ rising))

theorem nearestSpare_eq_some {s : State} {h i t : Nat} (e : nearestSpare s h i = some t) :
    t ∈ spareTargets s h ∧ ∀ x ∈ spareTargets s h, Precedes i t x := by
  rcases nearestSpare_cases s h i with ⟨-, e'⟩ | ⟨t', e', least⟩
  · rw [e] at e'
    cases e'
  · rw [e] at e'
    cases e'
    exact least

theorem spareTargets_of_nearestSpare_none {s : State} {h i : Nat} (e : nearestSpare s h i = none) : spareTargets s h = [] := by
  rcases nearestSpare_cases s h i with ⟨empty, -⟩ | ⟨t, e', -⟩
  · exact empty
  · rw [e] at e'
    cases e'

theorem status_of_nearestSpare {s : State} {h i t : Nat} (e : nearestSpare s h i = some t) : (getPos s (posKey h t)).status = .ready := by
  obtain ⟨-, spare, -⟩ := mem_spareTargets.1 (nearestSpare_eq_some e).1
  simp only [isSpare, Bool.and_eq_true, beq_iff_eq] at spare
  exact spare.1.1

/-- R30, R33: the candidate that precedes all is the target that the rule names. -/
theorem swapTargetIsTheNearestReadySpare : SwapTargetIsTheNearestReadySpare := by
  intro s h i
  refine ⟨fun t e => ?_, fun e x hx may => ?_⟩
  · obtain ⟨ht, least⟩ := nearestSpare_eq_some e
    obtain ⟨lt, may⟩ := mem_spareTargets.1 ht
    exact ⟨lt, may, fun x hx hmay => least x (mem_spareTargets.2 ⟨hx, hmay⟩)⟩
  · have hx := mem_spareTargets.2 ⟨hx, may⟩
    rw [spareTargets_of_nearestSpare_none e] at hx
    exact List.not_mem_nil hx

/-! ## The position that a repair swap leaves (R289, R300) -/

theorem posKey_ne {h i j : Nat} (e : i ≠ j) : posKey h i ≠ posKey h j := by
  unfold posKey
  omega

section
variable {s : State} {h i p : Nat} (hp : p ≠ posKey h i)
include hp

theorem getPos_retirePosition_ne (cause round test : Nat) : getPos (retirePosition s h i cause round test) p = getPos s p := by
  have before (hl : HallState → HallState) (ps : Position → Position) :
      getPos (logRetired (modHall (modPos s (posKey h i) ps) h hl) h i cause round test) p = getPos s p := by
    rw [logRetired_changes.getPos rfl, getPos_modHall, getPos_modPos_ne _ _ hp]
  unfold retirePosition
  dsimp only
  split
  · rw [raise_changes.getPos rfl, raise_changes.getPos rfl, before]
  · rw [pushEvent_changes.getPos rfl, before]

theorem getPos_holdForBench_ne : getPos (holdForBench s h i) p = getPos s p := by
  unfold holdForBench
  rw [getPos_modHall, getPos_modPos_ne _ _ hp]

theorem getPos_beginBench_ne (under289 : Bool) : getPos (beginBench s h i under289) p = getPos s p := by
  unfold beginBench
  rw [getPos_modHall, getPos_modPos_ne _ _ hp]

/-- Where no bench run is under way, the position alone goes its way. -/
theorem getPos_benchAfterAssay_ne (idle : (getHall s h).tnkActive = false) : getPos (benchAfterAssay s h i) p = getPos s p := by
  unfold benchAfterAssay
  extract_lets ps hl earlier u
  have hu : getPos u p = getPos s p := getPos_modPos_ne _ _ hp
  split
  · rw [getPos_retirePosition_ne hp, hu]
  · split
    · rw [getPos_holdForBench_ne hp, hu]
    · rw [if_neg (show ¬ hl.tnkActive = true by simp [hl, idle]), getPos_beginBench_ne hp, hu]

end

/-- R32, R289: the second part of a repair swap: what becomes of the position that the core leaves. -/
def leavePosition (s : State) (h old : Nat) : State :=
  if old < 72 then
    if (getPos s (posKey h old)).status = .inService then
      if (getPos s (posKey h old)).assayFence then benchAfterAssay s h old
      else modPos s (posKey h old) fun ps => { ps with status := .ready, fenced := false }
    else s
  else s

theorem leavePosition_changes {s : State} {h old : Nat} : Changes [.free, .positions, .halls, .miller] s (leavePosition s h old) := by
  unfold leavePosition
  split
  · split
    · split
      · exact benchAfterAssay_changes
      · exact Changes.next .refl (modPos_changes fun _ h => h) (by decide)
    · exact .refl
  · exact .refl

theorem getPos_leavePosition_ne {s : State} {h old p : Nat} (hp : p ≠ posKey h old)
    (quiet : (getPos s (posKey h old)).assayFence = false ∨ (getHall s h).tnkActive = false) :
    getPos (leavePosition s h old) p = getPos s p := by
  unfold leavePosition
  split
  · split
    · split
      · next fence => exact getPos_benchAfterAssay_ne hp (quiet.resolve_left (by simp [fence]))
      · exact getPos_modPos_ne _ _ hp
    · rfl
  · rfl

/-! ## The spare that a repair swap takes (R32) -/

/-- A logical core served by position `t` after a repair swap. -/
def repaired (t : Nat) (c : LCore) : LCore :=
  { emptyAtSwap c with pos := t, fenced := false, swap := c.swap.map fun w => { w with new := t, cause := 0, swapped := true } }

/-- A spare that enters service in a repair swap. -/
def entered (ps : Position) : Position := { clearStore ps with status := .inService }

/-- R32: the first part of a repair swap: spare `t` enters service and logical core `n` is mapped to it. -/
def takeSpare (s : State) (n t : Nat) : State :=
  modHall (modCore (countSwap (modPos s (posKey (n / 64) t) entered) n fun u => { u with repairs := u.repairs + 1 }) n (repaired t)) (n / 64)
    fun hl => { forgetPos hl (getCore s n).pos with fencedOrder := hl.fencedOrder.filter fun x => x != n }

theorem repairSwap_eq (s : State) (n t : Nat) : repairSwap s n t = leavePosition (takeSpare s n t) (n / 64) (getCore s n).pos := rfl

/-- A zero byte is stored as an unlisted one reads. -/
theorem storeSet_zero : storeSet [] 0 [(0, false)] = [] := by decide

theorem entered_store {ps : Position} (h : ps.stoFlip.arm = false) : (entered ps).store = [] := by
  simp only [entered, clearStore, storeRaw, h, Bool.false_eq_true, if_false, storeSet_zero]

theorem canonical_countSwap_entered {s : State} (c : Canonical s) (p n : Nat) (f : WindowUse → WindowUse) :
    Canonical (countSwap (modPos s p entered) n f) :=
  countSwap_changes.canonical (canonical_modPos c _ _)

theorem getCore_takeSpare_same {s : State} (c : Canonical s) (n t : Nat) : getCore (takeSpare s n t) n = repaired t (getCore s n) := by
  unfold takeSpare
  rw [getCore_modHall, getCore_modCore_same _ _ _ (canonical_countSwap_entered c _ _ _).lcores, countSwap_changes.getCore rfl,
    getCore_modPos]

theorem getCore_takeSpare_ne (s : State) {n m : Nat} (t : Nat) (h : m ≠ n) : getCore (takeSpare s n t) m = getCore s m := by
  unfold takeSpare
  rw [getCore_modHall, getCore_modCore_ne _ _ h, countSwap_changes.getCore rfl, getCore_modPos]

theorem getPos_takeSpare_same {s : State} (c : Canonical s) (n t : Nat) :
    getPos (takeSpare s n t) (posKey (n / 64) t) = entered (getPos s (posKey (n / 64) t)) := by
  unfold takeSpare
  rw [getPos_modHall, getPos_modCore, countSwap_changes.getPos rfl, getPos_modPos_same _ _ _ c.positions]

theorem getPos_takeSpare_ne (s : State) {n t p : Nat} (h : p ≠ posKey (n / 64) t) : getPos (takeSpare s n t) p = getPos s p := by
  unfold takeSpare
  rw [getPos_modHall, getPos_modCore, countSwap_changes.getPos rfl, getPos_modPos_ne _ _ h]

theorem takeSpare_tnkActive {s : State} (c : Canonical s) (n t : Nat) :
    (getHall (takeSpare s n t) (n / 64)).tnkActive = (getHall s (n / 64)).tnkActive := by
  unfold takeSpare
  rw [getHall_modHall_same _ _ _ (modCore_changes.canonical (canonical_countSwap_entered c _ _ _)).halls]
  change (getHall (countSwap _ _ _) _).tnkActive = _
  rw [countSwap_tnkActive (canonical_modPos c _ _), getHall_modPos]

/-! ## The repair swap -/

theorem getCore_repairSwap_same {s : State} (c : Canonical s) (n t : Nat) : getCore (repairSwap s n t) n = repaired t (getCore s n) := by
  rw [repairSwap_eq, leavePosition_changes.getCore rfl, getCore_takeSpare_same c]

theorem getCore_repairSwap_ne (s : State) {n m : Nat} (t : Nat) (h : m ≠ n) : getCore (repairSwap s n t) m = getCore s m := by
  rw [repairSwap_eq, leavePosition_changes.getCore rfl, getCore_takeSpare_ne s t h]

/-- R32: the target of a repair swap enters service with its store cleared. -/
theorem getPos_repairSwap_target {s : State} (c : Canonical s) {n t : Nat} (ht : t ≠ (getCore s n).pos)
    (quiet : (getPos s (posKey (n / 64) (getCore s n).pos)).assayFence = false ∨ (getHall s (n / 64)).tnkActive = false) :
    getPos (repairSwap s n t) (posKey (n / 64) t) = entered (getPos s (posKey (n / 64) t)) := by
  rw [repairSwap_eq, getPos_leavePosition_ne (posKey_ne ht), getPos_takeSpare_same c]
  rwa [getPos_takeSpare_ne s (posKey_ne ht.symm), takeSpare_tnkActive c]

/-! ## A rotation that gives way to a repair (R29, log entry 177) -/

/-- From `s` to `u` logical core `m` stands, or it is another one in the window of `n` and the copy of its rotation is given up. -/
def StandsOrGivenUp (s u : State) (n m : Nat) : Prop :=
  getCore u m = getCore s m ∨
    m ≠ n ∧ ∃ w, (getCore s m).swap = some w ∧ w.copying = true ∧ (getCore s m).window = (getCore s n).window ∧
      getCore u m = { getCore s m with swap := some { w with copying := false } }

theorem StandsOrGivenUp.self {s u : State} {n : Nat} (h : StandsOrGivenUp s u n n) : getCore u n = getCore s n :=
  h.resolve_right fun k => k.1 rfl

/-- The copy of the rotation of logical core `x` is given up where it stands in the window of `n`. -/
def giveUpOne (n : Nat) (s : State) (x : Nat) : State :=
  if x ≠ n ∧ (getCore s x).window.isSome ∧ (getCore s x).window = (getCore s n).window ∧ (getCore s x).swap.any fun w => w.copying then
    countSwap (modCore s x fun c => { c with swap := c.swap.map fun w => { w with copying := false } }) x
      fun u => { u with rotations := u.rotations - 1 }
  else s

theorem giveUpRotation_eq (s : State) (n : Nat) :
    giveUpRotation s n = ((List.range 64).map fun i => 64 * (n / 64) + i).foldl (giveUpOne n) s := rfl

theorem giveUpOne_changes {n : Nat} {s : State} {x : Nat} : Changes [.lcores, .halls] s (giveUpOne n s x) := by
  unfold giveUpOne
  split
  · exact (modCore_changes.mono (by decide)).next countSwap_changes (by decide)
  · exact .refl

theorem giveUpOne_tnkActive {s : State} (c : Canonical s) (n x k : Nat) :
    (getHall (giveUpOne n s x) k).tnkActive = (getHall s k).tnkActive := by
  unfold giveUpOne
  split
  · rw [countSwap_tnkActive (modCore_changes.canonical c), getHall_modCore]
  · rfl

/-- A copy is given up once only: a core whose copy has ended is not one that copies. -/
theorem giveUpOne_standsOrGivenUp {s u : State} {n : Nat} (c : Canonical u) (h : ∀ m, StandsOrGivenUp s u n m) (x m : Nat) :
    StandsOrGivenUp s (giveUpOne n u x) n m := by
  unfold giveUpOne
  split
  · next copies =>
    obtain ⟨hx, -, win, copying⟩ := copies
    unfold StandsOrGivenUp
    rw [countSwap_changes.getCore rfl]
    by_cases e : m = x
    · subst e
      rw [getCore_modCore_same _ _ _ c.lcores]
      rcases h m with stands | ⟨-, w, -, -, -, given⟩
      · rw [stands, (h n).self] at win
        rw [stands] at copying ⊢
        obtain ⟨w, hw, hc⟩ := Option.any_eq_true _ _ |>.1 copying
        exact Or.inr ⟨hx, w, hw, hc, win, by rw [hw]; rfl⟩
      · rw [given] at copying
        exact absurd copying (by simp)
    · rw [getCore_modCore_ne _ _ e]
      exact h m
  · exact h m

/-- What giving up rotations in the window of logical core `n` keeps from `s` to `u`: the form of the tables, each core but for its copy, and whether
the bench of a hall runs. -/
structure RotationsGivenUp (s u : State) (n : Nat) : Prop where
  canonical : Canonical u
  cores : ∀ m, StandsOrGivenUp s u n m
  benches : ∀ k, (getHall u k).tnkActive = (getHall s k).tnkActive

theorem RotationsGivenUp.giveUpOne {s u : State} {n : Nat} (h : RotationsGivenUp s u n) (x : Nat) :
    RotationsGivenUp s (giveUpOne n u x) n where
  canonical := giveUpOne_changes.canonical h.canonical
  cores := giveUpOne_standsOrGivenUp h.canonical h.cores x
  benches k := (giveUpOne_tnkActive h.canonical n x k).trans (h.benches k)

theorem giveUpRotation_givesUp {s : State} (c : Canonical s) (n : Nat) : RotationsGivenUp s (giveUpRotation s n) n := by
  rw [giveUpRotation_eq]
  exact List.foldlRecOn (motive := (RotationsGivenUp s · n)) _ _ ⟨c, fun _ => Or.inl rfl, fun _ => rfl⟩ fun _ h x _ =>
    h.giveUpOne x

/-! ## The opening of a window -/

/-- The swap of a window that opens now on logical core `n`. -/
def opened (s : State) (n new cause : Nat) : SwapRun :=
  { start := now s (n / 64), old := (getCore s n).pos, new := new, cause := cause, swapped := false }

theorem getCore_openWindow_same {s : State} (c : Canonical s) (n old new cause : Nat) (swapped : Bool) :
    getCore (openWindow s n old new cause swapped) n =
      { getCore s n with swap := some { start := now s (n / 64), old := old, new := new, cause := cause, swapped := swapped } } :=
  getCore_modCore_same _ _ _ c.lcores

theorem getCore_openWindow_ne (s : State) {n m : Nat} (old new cause : Nat) (swapped : Bool) (h : m ≠ n) :
    getCore (openWindow s n old new cause swapped) m = getCore s m := getCore_modCore_ne _ _ h

/-- The window of a repair to spare `t`. -/
def repairWindow (s : State) (n t : Nat) : State :=
  repairSwap (openWindow (giveUpRotation s n) n (getCore s n).pos t 0 false) n t

theorem repairWindow_changes {s : State} {n t : Nat} : Changes [.free, .lcores, .positions, .halls, .miller] s (repairWindow s n t) :=
  ((giveUpRotation_changes.mono (by decide)).next openWindow_changes (by decide)).next repairSwap_changes (by decide)

section
variable {s : State} (c : Canonical s) (n t : Nat)
include c

theorem getCore_opened_repairWindow :
    getCore (openWindow (giveUpRotation s n) n (getCore s n).pos t 0 false) n = { getCore s n with swap := some (opened s n t 0) } := by
  have given := giveUpRotation_givesUp c n
  rw [getCore_openWindow_same given.canonical, (given.cores n).self, giveUpRotation_changes.now rfl rfl]
  rfl

theorem getCore_repairWindow_same :
    getCore (repairWindow s n t) n = repaired t { getCore s n with swap := some (opened s n t 0) } := by
  unfold repairWindow
  rw [getCore_repairSwap_same (openWindow_changes.canonical (giveUpRotation_givesUp c n).canonical), getCore_opened_repairWindow c]

theorem getCore_repairWindow_ne {m : Nat} (h : m ≠ n) : StandsOrGivenUp s (repairWindow s n t) n m := by
  unfold StandsOrGivenUp repairWindow
  rw [getCore_repairSwap_ne _ _ h, getCore_openWindow_ne _ _ _ _ _ h]
  exact (giveUpRotation_givesUp c n).cores m

theorem getPos_repairWindow_target (ht : t ≠ (getCore s n).pos)
    (quiet : (getPos s (posKey (n / 64) (getCore s n).pos)).assayFence = false ∨ (getHall s (n / 64)).tnkActive = false) :
    getPos (repairWindow s n t) (posKey (n / 64) t) = entered (getPos s (posKey (n / 64) t)) := by
  have given := giveUpRotation_givesUp c n
  have pos (p : Nat) : getPos (openWindow (giveUpRotation s n) n (getCore s n).pos t 0 false) p = getPos s p := by
    rw [openWindow_changes.getPos rfl, giveUpRotation_changes.getPos rfl]
  have core := getCore_opened_repairWindow c n t
  unfold repairWindow
  rw [getPos_repairSwap_target (openWindow_changes.canonical given.canonical), pos]
  · rwa [core]
  · rwa [core, pos, openWindow_changes.getHall rfl, given.benches]

end

theorem getCore_beginRotation_same {s : State} (c : Canonical s) (n t : Nat) :
    getCore (beginRotation s n t) n = { getCore s n with swap := some { opened s n t 1 with copying := true } } := by
  unfold beginRotation
  rw [countSwap_changes.getCore rfl, getCore_modCore_same _ _ _ (openWindow_changes.canonical c).lcores, getCore_openWindow_same c]
  rfl

theorem getCore_beginRotation_ne (s : State) {n m : Nat} (t : Nat) (h : m ≠ n) : getCore (beginRotation s n t) m = getCore s m := by
  unfold beginRotation
  rw [countSwap_changes.getCore rfl, getCore_modCore_ne _ _ h, getCore_openWindow_ne _ _ _ _ _ h]

theorem exec_swapWindowOpen (n : Core) (s : State) : exec (.swapWindowOpen n) s = .next (runSwapOpen n s) := rfl

/-! What a window that may open does, case by case. -/

section
variable {n : Core} {s : State} (up : dieUp s = true) (due : windowDue s n = true) (free : (getCore s n).swap = none)
include up due free

theorem runSwapOpen_repair {t : Nat} (fenced : (getCore s n).fenced = true) (first : earlierRepair s n = false)
    (spare : nearestSpare s (n.val / 64) (getCore s n).pos = some t) : runSwapOpen n s = repairWindow s n t := by
  simp [runSwapOpen, up, due, free, fenced, first, spare, repairWindow]

theorem runSwapOpen_noSpare (fenced : (getCore s n).fenced = true) (first : earlierRepair s n = false)
    (nowhere : nearestSpare s (n.val / 64) (getCore s n).pos = none) :
    runSwapOpen n s = noSpare (openWindow s n (getCore s n).pos (getCore s n).pos 0 false) n := by
  simp [runSwapOpen, up, due, free, fenced, first, nowhere]

theorem runSwapOpen_rotation {t : Nat} (sound : (getCore s n).fenced = false) (rot : rotates s n = true)
    (spare : nearestSpare s (n.val / 64) (getCore s n).pos = some t) : runSwapOpen n s = beginRotation s n t := by
  simp [runSwapOpen, up, due, free, sound, rot, spare]

theorem runSwapOpen_stays (sound : (getCore s n).fenced = false)
    (stays : rotates s n = false ∨ nearestSpare s (n.val / 64) (getCore s n).pos = none) :
    runSwapOpen n s = openWindow s n (getCore s n).pos (getCore s n).pos 1 false := by
  rcases stays with rot | nowhere
  · simp [runSwapOpen, up, due, free, sound, rot]
  · simp [runSwapOpen, up, due, free, sound, nowhere]

end

/-- R27, R29, R32 to R34, by the four cases of a window that may open. -/
theorem swapWindowsOpen : SwapWindowsOpen := by
  intro n s h c run can up due free
  refine ⟨fun t fenced first spare => ?_, fun fenced first nowhere => ?_, fun t sound rot spare => ?_, fun sound stays => ?_⟩
  · have core := getCore_repairWindow_same can n t
    refine ⟨repairWindow s n t, by rw [exec_swapWindowOpen, runSwapOpen_repair up due free fenced first spare], ?_⟩
    rw [core]
    refine ⟨rfl, rfl, rfl, rfl, rfl, rfl, fun _ served quiet => ?_, fun m hm => (getCore_repairWindow_ne can n t hm).imp_right (·.2),
      repairWindow_changes.only .queues rfl, repairWindow_changes.only .sems rfl, repairWindow_changes.only .mem rfl⟩
    have ht : t ≠ c.pos := by
      rintro rfl
      rw [status_of_nearestSpare spare] at served
      cases served
    rw [getPos_repairWindow_target can n t ht quiet]
    exact ⟨rfl, entered_store⟩
  · refine ⟨_, by rw [exec_swapWindowOpen, runSwapOpen_noSpare up due free fenced first nowhere], ?_, fun m hm => ?_,
      noSpare_sticky (openWindow_changes.canonical can) n, rfl, rfl⟩
    · rw [noSpare_changes.getCore rfl, getCore_openWindow_same can]
    · rw [noSpare_changes.getCore rfl, getCore_openWindow_ne _ _ _ _ _ hm]
  · exact ⟨_, by rw [exec_swapWindowOpen, runSwapOpen_rotation up due free sound rot spare], getCore_beginRotation_same can n t,
      fun m hm => getCore_beginRotation_ne s t hm, beginRotation_changes.eq_with_lcores_halls⟩
  · exact ⟨_, by rw [exec_swapWindowOpen, runSwapOpen_stays up due free sound stays], getCore_openWindow_same can _ _ _ _ _,
      fun m hm => getCore_openWindow_ne _ _ _ _ _ hm, rfl⟩

/-- Settles O15, by the target of a swap and the opening of a window. -/
theorem swapWindowsMoveFencedCores : Obligations.SwapWindowsMoveFencedCores :=
  ⟨swapTargetIsTheNearestReadySpare, swapWindowsOpen⟩

/-! ## The end of a rotation (R31, R33) -/

section
variable {s : State} (c : Canonical s) (n : Nat) (w : SwapRun)
include c

theorem getCore_rotationSwap_same : getCore (rotationSwap s n w) n =
    { emptyAtSwap (getCore s n) with pos := w.new, swap := some { w with swapped := true, copying := false } } := by
  unfold rotationSwap
  rw [getCore_modHall,
    getCore_modCore_same _ _ _ (canonical_modPos (canonical_modPos (copyStore_changes.canonical c) _ _) _ _).lcores,
    getCore_modPos, getCore_modPos, copyStore_changes.getCore rfl]

theorem getPos_rotationSwap_old : (getPos (rotationSwap s n w) (posKey (n / 64) w.old)).status = .ready := by
  unfold rotationSwap
  rw [getPos_modHall, getPos_modCore, getPos_modPos_same _ _ _ (canonical_modPos (copyStore_changes.canonical c) _ _).positions]

theorem getPos_rotationSwap_new (h : w.old ≠ w.new) : (getPos (rotationSwap s n w) (posKey (n / 64) w.new)).status = .inService := by
  unfold rotationSwap
  rw [getPos_modHall, getPos_modCore, getPos_modPos_ne _ _ (posKey_ne h.symm),
    getPos_modPos_same _ _ _ (copyStore_changes.canonical c).positions]

end

theorem getCore_rotationSwap_ne (s : State) {n m : Nat} (w : SwapRun) (h : m ≠ n) : getCore (rotationSwap s n w) m = getCore s m := by
  unfold rotationSwap
  rw [getCore_modHall, getCore_modCore_ne _ _ h, getCore_modPos, getCore_modPos, copyStore_changes.getCore rfl]

/-- Logical core `n` at the end of a copy that becomes a repair. -/
def turnedToRepair (s : State) (n : Nat) (w : SwapRun) : State :=
  modCore s n fun c => { c with swap := some { w with cause := 0, copying := false } }

theorem canonical_turnedToRepair {s : State} (c : Canonical s) (n : Nat) (w : SwapRun) : Canonical (turnedToRepair s n w) :=
  modCore_changes.canonical c

theorem getCore_turnedToRepair {s : State} (c : Canonical s) (n : Nat) (w : SwapRun) :
    getCore (turnedToRepair s n w) n = { getCore s n with swap := some { w with cause := 0, copying := false } } :=
  getCore_modCore_same _ _ _ c.lcores

theorem pos_turnedToRepair {s : State} (c : Canonical s) (n : Nat) (w : SwapRun) :
    (getCore (turnedToRepair s n w) n).pos = (getCore s n).pos := by rw [getCore_turnedToRepair c]

/-! What the end of a copy does, case by case. -/

section
variable {s : State} {n : Nat} {w : SwapRun} (run : (getCore s n).swap = some w)
include run

theorem endRotation_notCopying (h : w.copying = false) : endRotation s n = s := by
  simp [endRotation, run, h]

theorem endRotation_repair {t : Nat} (copying : w.copying = true) (fenced : (getCore s n).fenced = true)
    (c : Canonical s) (spare : nearestSpare (turnedToRepair s n w) (n / 64) (getCore s n).pos = some t) :
    endRotation s n = repairSwap (turnedToRepair s n w) n t := by
  rw [← pos_turnedToRepair c n w] at spare
  unfold turnedToRepair at spare ⊢
  simp [endRotation, run, copying, fenced, spare]

theorem endRotation_noSpare (copying : w.copying = true) (fenced : (getCore s n).fenced = true)
    (c : Canonical s) (nowhere : nearestSpare (turnedToRepair s n w) (n / 64) (getCore s n).pos = none) :
    endRotation s n = noSpare (turnedToRepair s n w) n := by
  rw [← pos_turnedToRepair c n w] at nowhere
  unfold turnedToRepair at nowhere ⊢
  simp [endRotation, run, copying, fenced, nowhere]

theorem endRotation_swap (copying : w.copying = true) (sound : (getCore s n).fenced = false)
    (ready : (getPos s (posKey (n / 64) w.new)).status = .ready) : endRotation s n = rotationSwap s n w := by
  simp [endRotation, run, copying, sound, ready]

theorem endRotation_abandoned (copying : w.copying = true) (sound : (getCore s n).fenced = false)
    (failed : (getPos s (posKey (n / 64) w.new)).status ≠ .ready) :
    endRotation s n = retireTarget (modCore s n fun c => { c with swap := some { w with copying := false } }) (n / 64) w.new := by
  simp [endRotation, run, copying, sound, failed]

end

/-- R31, R33, by the ways in which the copy of a rotation ends, and where there is none. -/
theorem rotationsEnd : RotationsEnd := by
  intro n s w can run h u
  have turned := getCore_turnedToRepair can n w
  have canTurned := canonical_turnedToRepair can n w
  refine ⟨endRotation_notCopying run, fun copying sound ready ne => ?_, fun copying fenced t spare => ?_, fun copying fenced nowhere => ?_,
    fun copying sound failed => ?_⟩
  · have hu : u = rotationSwap s n w := endRotation_swap run copying sound ready
    have core := getCore_rotationSwap_same can n w
    rw [hu]
    exact ⟨by rw [core], by rw [core], getPos_rotationSwap_new can n w ne, getPos_rotationSwap_old can n w,
      fun m hm => getCore_rotationSwap_ne s w hm, rotationSwap_changes.only .queues rfl, rotationSwap_changes.only .sems rfl⟩
  · have hu : u = repairSwap (turnedToRepair s n w) n t := endRotation_repair run copying fenced can spare
    rw [hu, getCore_repairSwap_same canTurned, turned]
    exact ⟨rfl, rfl, rfl⟩
  · have hu : u = noSpare (turnedToRepair s n w) n := endRotation_noSpare run copying fenced can nowhere
    rw [hu, noSpare_changes.getCore rfl, turned]
    exact ⟨rfl, noSpare_sticky canTurned n, rfl, rfl⟩
  · have hu := endRotation_abandoned run copying sound failed
    change u = _ at hu
    rw [hu, retireTarget_changes.getCore rfl, retireTarget_changes.getPos rfl, getCore_modCore_same _ _ _ can.lcores, getPos_modCore]
    exact ⟨rfl, rfl⟩

/-! ## The close of a window (R33, R35, R59) -/

/-- R33, R35, R59: the close unfolded, with a window left after the copy has ended and without. -/
theorem markersCloseTheWindow : MarkersCloseTheWindow := by
  intro n s up h u
  have exec_eq : exec (.swapWindowClose n) s = .next (runSwapClose n s) := rfl
  refine ⟨fun (noWindow : (getCore (endRotation s n) n).swap = none) => ?_, fun w (run : (getCore (endRotation s n) n).swap = some w) => ?_⟩
  · rw [exec_eq]
    simp only [runSwapClose, up, noWindow, Bool.not_true, Bool.false_eq_true, if_false, u]
  · rw [exec_eq]
    simp only [runSwapClose, up, run, Bool.not_true, Bool.false_eq_true, if_false, u, h]

/-- Settles O16, by the end of a rotation and the order of a window's close. -/
theorem swapWindowsClose : Obligations.SwapWindowsClose := ⟨rotationsEnd, markersCloseTheWindow⟩

end Sys2Proof.Machine
end

section
/-! O56: the statement asks for a canonical state, and Canonical leaves the tables inside a position to Legal. A store that lists one byte twice is
therefore allowed, and there a byte written as 0, which drops one of the two entries, reads as the other. -/

namespace Sys2Proof.Machine

/-! ## Reading a byte of a store (R349) -/

/-- What a read of a store byte delivers depends on the positions alone. -/
theorem storeByte_bytes_of_positions {s t : State} (h : t.positions = s.positions) (p off : Nat) :
    (storeByte t p off).bytes = (storeByte s p off).bytes := by
  have same : getPos t p = getPos s p := by
    unfold getPos
    rw [h]
  unfold storeByte
  rw [same]
  dsimp only
  cases decodeByte (readSByte (getPos s p) off) <;> rfl

/-! ## Queues without a marker (R61) -/

/-- No queue waits at a marker. -/
def NoMark (s : State) : Prop := ∀ x ∈ s.queues, x.2.state ≠ .mark

theorem NoMark.getQueue {s : State} (h : NoMark s) (k : Nat) : (getQueue s k).state ≠ .mark :=
  tabGet_of_all (P := fun q : Queue => q.state ≠ .mark) (by decide) h k

theorem NoMark.setQueue {s : State} (h : NoMark s) (k : Nat) {v : Queue} (hv : v.state ≠ .mark) : NoMark (setQueue s k v) :=
  tabSet_all (P := fun q : Queue => q.state ≠ .mark) h k hv

theorem NoMark.of_changes {L : List Part} {s t : State} (h : NoMark s) (k : Changes L s t) (e : L.contains .queues = false) : NoMark t := by
  unfold NoMark
  rw [show t.queues = s.queues from k.only .queues e]
  exact h

theorem NoMark.dropRequest {s : State} (h : NoMark s) (k : Nat) : NoMark (dropRequest s k) := by
  unfold Machine.dropRequest
  dsimp only
  split
  · exact h
  · exact h.setQueue k (h.getQueue k)

theorem NoMark.releaseGrant {s : State} (h : NoMark s) (k : Nat) : NoMark (releaseGrant s k) := by
  have set : NoMark (Machine.setQueue s k { Machine.getQueue s k with grant := fallGrant (Machine.getQueue s k) }) := h.setQueue k (h.getQueue k)
  unfold Machine.releaseGrant
  dsimp only
  split
  · exact set
  · exact set

theorem releaseMark_of_noMark {s : State} (h : NoMark s) (k : Nat) : releaseMark s k = { st := s, kill := none } := by
  have hk := h.getQueue k
  unfold releaseMark
  dsimp only
  split
  · next e _ => exact absurd e hk
  · rfl

/-- Where no queue waits at a marker, releasing the markers leaves every position and kills nothing. -/
theorem releaseMarks_of_noMark {s : State} (h : NoMark s) (k : Nat) :
    (releaseMarks s k).st.positions = s.positions ∧ (releaseMarks s k).kill = none := by
  unfold releaseMarks
  split
  · exact ⟨rfl, rfl⟩
  · next n _ =>
    split
    · exact ⟨rfl, rfl⟩
    · have hm : NoMark (modCore s n fun c => { c with window := none }) := h
      simp [List.range_succ, releaseMark_of_noMark hm]

/-! ## A record lost for want of a translation (R70, R74, R323) -/

section
variable {s : State} {k : Nat}

/-- The core of queue `k`, which is no MQ, is not emptied when the queue halts (R129). -/
theorem emptyAtHalt_of_notMq (hk : k % 4 ≠ 0) : emptyAtHalt s k = s := if_neg fun h => hk h.2

theorem reachBoundary_of_noMark (hk : k % 4 ≠ 0) (h : NoMark s) {first : W32} {st : QState} (hst : st ≠ .mark) {o : Option Origin}
    {known : List Nat} {write spread : Bool} :
    let r := reachBoundary s k first st o known [] [] write spread
    r.st.positions = s.positions ∧ r.kill = none ∧ NoMark r.st := by
  simp only [reachBoundary, writeDiscards, emptyAtHalt_of_notMq hk, modQueue_positions]
  refine ⟨?_, trivial, ?_⟩
  · rw [evDiscard_changes.only .positions rfl, releaseGrant_changes.only .positions rfl, dropRequest_changes.only .positions rfl,
      setQueue_positions]
  · refine NoMark.setQueue (.of_changes (((h.setQueue k ?_).dropRequest k).releaseGrant k) evDiscard_changes rfl) k hst
    exact h.getQueue k

/-- A queue that halts with nothing in flight, where no queue waits at a marker, leaves every position. -/
theorem haltQueue_positions (hk : k % 4 ≠ 0) (h : NoMark s) {first : W32} {o : Option Origin} {known : List Nat} {write : Bool} :
    (haltQueue s k first .haltFault o known [] [] write).positions = s.positions := by
  obtain ⟨positions, kill, noMark⟩ := reachBoundary_of_noMark hk h (first := first) (st := .haltFault) (by decide) (o := o)
    (known := known) (write := write) (spread := true)
  obtain ⟨released, unkilled⟩ := releaseMarks_of_noMark noMark k
  simp only [haltQueue, kill, unkilled, applyKill]
  exact released.trans positions

theorem lostRecord_positions (hk : k % 4 ≠ 0) (h : NoMark s) {seq : W32} {sems : List Nat} {f : XFail} {va : Nat} :
    (lostRecord s k seq sems [] (.xlate f va)).positions = s.positions := by
  simp only [lostRecord, recFailKill]
  rw [haltQueue_positions hk (h.of_changes raiseRecFail_changes rfl), raiseRecFail_changes.only .positions rfl]

/-- Without a cached leaf and without page tables no address translates. -/
theorem xlate_unmapped (noLeaf : s.leafs = []) (noRoot : ∀ j, (getJob s j).rootValid = false) (c : Ctx) (va : Nat) (write : Bool) :
    xlate s c va write = { st := (walk s c va).st, res := .error { cause := 1, level := 3 }, miss := true } := by
  have miss : hitLeaf (cachedLeafs s c) c.job va = none := by
    unfold cachedLeafs
    rw [noLeaf]
    cases c.pos <;> rfl
  have fails : (walk s c va).res = .error { cause := 1, level := 3 } := by
    simp [walk, noRoot]
  simp only [xlate, miss, fails]

theorem writeRecord_unmapped (noLeaf : s.leafs = []) (noRoot : ∀ j, (getJob s j).rootValid = false) (seq : W32) (status flags : Nat)
    (counts : List Nat) :
    let x := xlate s (qCtx s k) (recordVa (getQueue s k) seq) true
    writeRecord s k seq status flags counts = { st := x.st, fail := some (.xlate { cause := 1, level := 3 } (recordVa (getQueue s k) seq)) } := by
  simp only [writeRecord, xlate_unmapped noLeaf noRoot]

theorem completeDone_lost {t : State} {f : RecFail} {c : InFlight} {flags : Nat} {counts : List Nat}
    (h : writeRecord (retiring s k) k c.seq 0 flags counts = { st := t, fail := some f }) :
    completeDone s k c flags counts = lostRecord t k c.seq (ssemOf c.cmd) (getQueue t k).inflight f := by
  unfold retiring at h
  simp only [completeDone, h]

/-- A command completes on a queue, no MQ, where nothing else is in flight and no record can be written, and no queue waits at a marker: every
position stays as it is. -/
theorem completeDone_positions (hk : k % 4 ≠ 0) (h : NoMark s) (wf : tabWf {} s.queues = true) {c : InFlight}
    (alone : (getQueue s k).inflight = [c]) (noLeaf : s.leafs = []) (noRoot : ∀ j, (getJob s j).rootValid = false) {flags : Nat}
    {counts : List Nat} : (completeDone s k c flags counts).positions = s.positions := by
  have noMark : NoMark (retiring s k) := h.setQueue k (h.getQueue k)
  have empty : (getQueue (retiring s k) k).inflight = [] := by
    rw [retiring, getQueue_modQueue_same _ _ _ wf, alone]
    rfl
  rw [completeDone_lost (writeRecord_unmapped (s := retiring s k) noLeaf noRoot _ _ _ _), xlate_changes.getQueue rfl, empty,
    lostRecord_positions hk (noMark.of_changes xlate_changes rfl), xlate_changes.only .positions rfl]
  rfl

end

/-! ## The counterexample -/

/-- WVR.SPMM with one FP32 element as its output, at offset 0x1000 of the store. -/
def oneElement : InFlight :=
  { seq := 0, cmd := BitVec.ofNat 512 (0x40 + 3 * 256 ^ 26 + 0x400 * 256 ^ 40 + 0x800 * 256 ^ 43 + 0x1000 * 256 ^ 46), desc := 0, start := 0 }

/-- The reset state with that command in flight on WQ of core 0, and with the byte 0x1000 of its store listed twice, as a 1. -/
def listedTwice : State :=
  setQueue (modPos State.reset 0 fun ps => { ps with store := [(0x1000, storeCode 1 false), (0x1000, storeCode 1 false)] }) 1
    { enable := true, state := .run, sizeLog2 := 4, prod := 1, fetchSeq := 1, inflight := [oneElement] }

/-- The operands of the command. -/
def oneElementOps : SpmmOps := spmmOps oneElement.cmd (slotScale oneElement (fld oneElement.cmd 27 0 8))

/-- How the command ends. -/
def oneElementEnd : WRes := withOverlap listedTwice 0 (outRanges oneElementOps.out 0) (spmmRes oneElementOps)

theorem canonical_listedTwice : Canonical listedTwice := canonical_of_test (by decide +kernel)

/-- The command passes check 6 (R184); the state is not Legal, for the store of position 0 is in no canonical form. -/
theorem listedTwice_beyondLegal : spmmOk oneElement.cmd = true ∧ ¬ Legal listedTwice :=
  ⟨by decide +kernel, fun h => absurd (h.pos 0).1 (by decide +kernel)⟩

theorem unarmed_listedTwice : (getPos listedTwice 0).stoFlip.arm = false := by decide +kernel

theorem corePos_listedTwice : corePos listedTwice 0 = some 0 := by decide +kernel

theorem headOp_listedTwice : headOp listedTwice 1 0x40 = some oneElement := by decide +kernel

/-- No entry is read, so no poison is met, and the element is written as +0. -/
theorem oneElementEnd_writes : oneElementEnd.rd.poison = false ∧ lastWritten oneElementEnd.pieces 0x1000 = some (0, false) := by
  decide +kernel

/-- The byte written as 0 reads as 1 after the command. -/
theorem storeByte_after_oneElement : (storeByte (runSpmm 0 listedTwice) 0 0x1000).bytes = [(1, false)] := by decide +kernel

theorem exec_wvrSpmm (n : Core) (s : State) : exec (.wvrSpmm n) s = .next (runSpmm n s) := rfl

/-- From what the command leaves of the rest of the machine, its completion leaves the positions: no record can be written. -/
theorem completeDone_positions_of_onCore {e : State} {n p flags : Nat} {counts : List Nat} (h : OnCore listedTwice e n p) :
    (completeDone e 1 oneElement flags counts).positions = e.positions := by
  obtain ⟨same, -, -⟩ := h
  have queues : e.queues = listedTwice.queues := by rw [same]
  have leafs : e.leafs = [] := by rw [same]; rfl
  have jobs : e.jobs = [] := by rw [same]; rfl
  have noMark : NoMark e := by
    unfold NoMark
    rw [queues]
    decide +kernel
  have alone : (getQueue e 1).inflight = [oneElement] := by
    unfold getQueue
    rw [queues]
    rfl
  have noRoot (j : Nat) : (getJob e j).rootValid = false := by
    unfold getJob
    rw [jobs]
    rfl
  exact completeDone_positions (by decide) noMark (queues ▸ canonical_listedTwice.queues) alone leafs noRoot

/-- No completion of the command has the byte 0x1000 written as 0: it reads as 1 afterwards. -/
theorem not_completes_listedTwice {flags : Nat} {counts : List Nat} {l : List Piece} {holds : State → Prop}
    (wrote : lastWritten l 0x1000 = some (0, false)) : ¬ Completes (.wvrSpmm 0) listedTwice 1 0 0 oneElement flags counts l holds := by
  rintro ⟨e, ends, onCore, -, written, -⟩
  have byte : (storeByte e 0 0x1000).bytes = [(0, false)] := written unarmed_listedTwice 0x1000 (0, false) wrote
  have ended : runSpmm 0 listedTwice = completeDone e 1 oneElement flags counts :=
    Host.Outcome.next.inj ((exec_wvrSpmm 0 listedTwice).symm.trans ends)
  have positions : (runSpmm 0 listedTwice).positions = e.positions := by
    rw [ended, completeDone_positions_of_onCore onCore]
  have reads := storeByte_bytes_of_positions positions 0 0x1000
  rw [byte, storeByte_after_oneElement] at reads
  exact absurd reads (by decide)

/-- Refutes O56: Canonical does not ask that the tables inside a position are canonical (Legal does), and in a store that lists a byte twice a byte that
the command writes does not read as written. -/
theorem not_weaverCommandsRun : ¬ Obligations.WeaverCommandsRun := by
  unfold Obligations.WeaverCommandsRun
  intro holds
  obtain ⟨spmm, -⟩ := holds 0 listedTwice oneElement 0 canonical_listedTwice corePos_listedTwice
  obtain ⟨poison, wrote⟩ := oneElementEnd_writes
  unfold oneElementEnd oneElementOps at poison wrote
  exact not_completes_listedTwice wrote ((spmm headOp_listedTwice).1 poison)

end Sys2Proof.Machine
end

section
/-! O55: the statement asks for a canonical state, and Canonical leaves the tables inside a position to Legal, as in O56. Where a store lists a byte
of the glean record twice, the fence's write of that byte as 0 drops one of the two entries, and the byte reads as the other. -/

namespace Sys2Proof.Machine

/-! ## An MQ that halts with an empty log (R129, R198, R218) -/

section
variable {s : State} {k : Nat}

/-- R218: with an empty log no make-up is owed, and emptying the core at a halt leaves every position. -/
theorem emptyAtHalt_positions (noLog : (getCore s (k / 4)).gln.log = []) : (emptyAtHalt s k).positions = s.positions := by
  have owed : firstOwed (getCore s (k / 4)).gln.log = none := by rw [noLog]; rfl
  unfold emptyAtHalt gleanAbandon
  simp only [owed]
  split
  · split <;> rfl
  · rfl

theorem reachBoundary_of_noLog (noLog : (getCore s (k / 4)).gln.log = []) (h : NoMark s) {first : W32} {st : QState} (hst : st ≠ .mark)
    {o : Option Origin} {known : List Nat} {write spread : Bool} :
    let r := reachBoundary s k first st o known [] [] write spread
    r.st.positions = s.positions ∧ r.kill = none ∧ NoMark r.st := by
  simp only [reachBoundary, writeDiscards]
  refine ⟨?_, trivial, ?_⟩
  · rw [emptyAtHalt_positions, modQueue_positions, evDiscard_changes.only .positions rfl, releaseGrant_changes.only .positions rfl,
      dropRequest_changes.only .positions rfl, setQueue_positions]
    rw [getCore_modQueue, evDiscard_changes.getCore rfl, releaseGrant_changes.getCore rfl, dropRequest_changes.getCore rfl,
      getCore_setQueue, noLog]
  · refine NoMark.of_changes (NoMark.setQueue (.of_changes (((h.setQueue k ?_).dropRequest k).releaseGrant k) evDiscard_changes rfl) k hst)
      emptyAtHalt_changes rfl
    exact h.getQueue k

/-- A queue whose core has an empty log loses a record for want of a translation, with nothing in flight and no queue at a marker: every position stays
as it is. -/
theorem lostRecord_positions_of_noLog (noLog : (getCore s (k / 4)).gln.log = []) (h : NoMark s) {seq : W32} {sems : List Nat} {f : XFail}
    {va : Nat} : (lostRecord s k seq sems [] (.xlate f va)).positions = s.positions := by
  obtain ⟨positions, kill, noMark⟩ := reachBoundary_of_noLog (s := raiseRecFail s k seq (.xlate f va)) (k := k)
    (by rw [raiseRecFail_changes.getCore rfl, noLog]) (h.of_changes raiseRecFail_changes rfl) (first := seq) (st := .haltFault) (by decide)
    (o := some (recFailOrigin s k (.xlate f va))) (known := sems) (write := false) (spread := true)
  obtain ⟨released, unkilled⟩ := releaseMarks_of_noMark noMark k
  simp only [lostRecord, recFailKill, haltQueue, kill, unkilled, applyKill]
  exact (released.trans positions).trans (raiseRecFail_changes.only .positions rfl)

/-- `completeDone_positions` for a queue whose core has an empty log. -/
theorem completeDone_positions_of_noLog (noLog : (getCore s (k / 4)).gln.log = []) (h : NoMark s) (wf : tabWf {} s.queues = true) {c : InFlight}
    (alone : (getQueue s k).inflight = [c]) (noLeaf : s.leafs = []) (noRoot : ∀ j, (getJob s j).rootValid = false) {flags : Nat}
    {counts : List Nat} : (completeDone s k c flags counts).positions = s.positions := by
  have noMark : NoMark (retiring s k) := h.setQueue k (h.getQueue k)
  have empty : (getQueue (retiring s k) k).inflight = [] := by
    rw [retiring, getQueue_modQueue_same _ _ _ wf, alone]
    rfl
  rw [completeDone_lost (writeRecord_unmapped (s := retiring s k) noLeaf noRoot _ _ _ _), xlate_changes.getQueue rfl, empty,
    lostRecord_positions_of_noLog (by rw [xlate_changes.getCore rfl]; exact noLog) (noMark.of_changes xlate_changes rfl),
    xlate_changes.only .positions rfl]
  rfl

end

/-! ## The counterexample -/

/-- A GLN.FENCE (R216). -/
def loneFence : InFlight := { seq := 0, cmd := 0x29, desc := 0, start := 0 }

/-- The state of O56's counterexample, whose store lists the byte 0x1000 twice, with a GLN.FENCE in flight on MQ of core 0 and the Gleaner in mode 2
with GBASE 0x1000. -/
def fenceListedTwice : State :=
  modCore (setQueue listedTwice 0 { enable := true, state := .run, sizeLog2 := 4, prod := 1, fetchSeq := 1, inflight := [loneFence] }) 0
    fun lc => { lc with gln := { mode := 2, gbase := 0x1000 } }

theorem canonical_fenceListedTwice : Canonical fenceListedTwice := canonical_of_test (by decide +kernel)

/-- The state is not Legal, for the store of position 0 is in no canonical form. -/
theorem fenceListedTwice_beyondLegal : ¬ Legal fenceListedTwice := fun h => absurd (h.pos 0).1 (by decide +kernel)

theorem unarmed_fenceListedTwice : (getPos fenceListedTwice 0).stoFlip.arm = false := by decide +kernel

theorem corePos_fenceListedTwice : corePos fenceListedTwice 0 = some 0 := by decide +kernel

theorem headOp_fenceListedTwice : headOp fenceListedTwice 0 0x29 = some loneFence := by decide +kernel

theorem gln_fenceListedTwice : (getCore fenceListedTwice (0 : Core).val).gln = { mode := 2, gbase := 0x1000 } := by decide +kernel

theorem mode_fenceListedTwice : 2 ≤ (getCore fenceListedTwice (0 : Core).val).gln.mode := by decide +kernel

/-- The first byte of the record is a 0. -/
theorem record_fenceListedTwice :
    lastWritten [plainPiece 0x1000 (gleanRecord { mode := 2, gbase := 0x1000 })] 0x1000 = some (0, false) := by decide +kernel

/-- The byte written as 0 reads as 1 after the fence. -/
theorem storeByte_after_loneFence : (storeByte (runGlnFence 0 fenceListedTwice) 0 0x1000).bytes = [(1, false)] := by decide +kernel

theorem exec_glnFence (n : Core) (s : State) : exec (.glnFence n) s = .next (runGlnFence n s) := rfl

/-- From what the fence leaves of the rest of the machine, its completion leaves the positions: no record can be written, and no log is held. -/
theorem completeDone_loneFence_positions {e : State} {n p flags : Nat} {counts : List Nat} (h : OnCore fenceListedTwice e n p)
    (noLog : (getCore e 0).gln.log = []) : (completeDone e 0 loneFence flags counts).positions = e.positions := by
  obtain ⟨same, -, -⟩ := h
  have queues : e.queues = fenceListedTwice.queues := by rw [same]
  have leafs : e.leafs = [] := by rw [same]; rfl
  have jobs : e.jobs = [] := by rw [same]; rfl
  have noMark : NoMark e := by
    unfold NoMark
    rw [queues]
    decide +kernel
  have alone : (getQueue e 0).inflight = [loneFence] := by
    unfold getQueue
    rw [queues]
    rfl
  have noRoot (j : Nat) : (getJob e j).rootValid = false := by
    unfold getJob
    rw [jobs]
    rfl
  exact completeDone_positions_of_noLog noLog noMark (queues ▸ canonical_fenceListedTwice.queues) alone leafs noRoot

/-- No completion of the fence that leaves the log empty has the byte 0x1000 written as 0: it reads as 1 afterwards. -/
theorem not_completes_fenceListedTwice {flags : Nat} {counts : List Nat} {l : List Piece} {holds : State → Prop}
    (wrote : lastWritten l 0x1000 = some (0, false)) (noLog : ∀ e, holds e → (getCore e 0).gln.log = []) :
    ¬ Completes (.glnFence 0) fenceListedTwice 0 0 0 loneFence flags counts l holds := by
  rintro ⟨e, ends, onCore, -, written, held, -⟩
  have byte : (storeByte e 0 0x1000).bytes = [(0, false)] := written unarmed_fenceListedTwice 0x1000 (0, false) wrote
  have ended : runGlnFence 0 fenceListedTwice = completeDone e 0 loneFence flags counts :=
    Host.Outcome.next.inj ((exec_glnFence 0 fenceListedTwice).symm.trans ends)
  have positions : (runGlnFence 0 fenceListedTwice).positions = e.positions := by
    rw [ended, completeDone_loneFence_positions onCore (noLog e held)]
  have reads := storeByte_bytes_of_positions positions 0 0x1000
  rw [byte, storeByte_after_loneFence] at reads
  exact absurd reads (by decide)

/-- Refutes O55: Canonical does not ask that the tables inside a position are canonical (Legal does), and in a store that lists a byte twice a byte of
the glean record that GLN.FENCE writes in mode 2 does not read as written. -/
theorem not_lamplighterAndGleanerCommandsRun : ¬ Obligations.LamplighterAndGleanerCommandsRun := by
  rintro ⟨-, gleaner⟩
  obtain ⟨-, fence⟩ := gleaner 0 fenceListedTwice loneFence 0 canonical_fenceListedTwice corePos_fenceListedTwice
  obtain ⟨-, records, -⟩ := fence headOp_fenceListedTwice
  have completes := records mode_fenceListedTwice
  rw [gln_fenceListedTwice] at completes
  exact not_completes_fenceListedTwice record_fenceListedTwice (fun _ held => congrArg Gleaner.log held) completes

end Sys2Proof.Machine
end

section
/-! O58: the statement asks for a canonical state, and Canonical leaves the tables inside a position to Legal, as in O56. A MASK.REPAIR of NEWVER 0
writes the first byte of its panel's header as 0 (R223). Where the store lists that byte twice, the write drops one of the two entries, and the byte reads as
the other. -/

namespace Sys2Proof.Machine

/-! ## A mask command over a store in which no byte is in error (R226, R238, R349) -/

/-- Every byte of the store of position `p` is delivered clean. -/
def CleanStore (s : State) (p : Nat) : Prop := ∀ off, ∃ d, decodeByte (readSByte (getPos s p) off) = .clean d

theorem storeByte_bytes_of_clean {s : State} {p off : Nat} {d : Byte} (h : decodeByte (readSByte (getPos s p) off) = .clean d) :
    (storeByte s p off).bytes = [(d, false)] := by
  simp only [storeByte, h]

theorem storeRead_st_of_clean {s : State} {p : Nat} (h : CleanStore s p) (off n : Nat) : (storeRead s p off n).st = s := by
  induction n generalizing off with
  | zero => rfl
  | succ n ih =>
    obtain ⟨d, clean⟩ := h off
    simp only [storeRead, storeByte, clean, ih]

theorem anyPoison_storeRead_of_clean {s : State} {p : Nat} (h : CleanStore s p) (off n : Nat) :
    anyPoison (storeRead s p off n).bytes = false := by
  induction n generalizing off with
  | zero => rfl
  | succ n ih =>
    obtain ⟨d, clean⟩ := h off
    have rest := ih (off + 1)
    simp only [anyPoison] at rest
    simp [storeRead, storeByte, clean, anyPoison, rest]

section
variable {r : Reader} (h : CleanStore r.st r.p) (avoid : r.avoid = [])
include h avoid

/-- Reading a clean store changes nothing of the reader. -/
theorem Reader.bytes_of_clean (off n : Nat) : (r.bytes off n).2 = r := by
  have apart : anyMeets [(off, n)] r.avoid = false := by simp [avoid, anyMeets]
  simp [Reader.bytes, apart, storeRead_st_of_clean h, anyPoison_storeRead_of_clean h]

theorem Reader.num_of_clean (off n : Nat) : (r.num off n).2.2 = r := Reader.bytes_of_clean h avoid off n

theorem Reader.momentsAt_of_clean (o : MaskOps) (i : Nat) (l : List Nat) : (r.momentsAt o i l).2 = r := by
  induction l with
  | nil => rfl
  | cons b t ih => simp only [Reader.momentsAt, Reader.num_of_clean h avoid, ih]

theorem Reader.values_of_clean (o : MaskOps) (l : List PanelEntry) : (r.values o l).2 = r := by
  induction l with
  | nil => rfl
  | cons e t ih => simp only [Reader.values, Reader.num_of_clean h avoid, Reader.momentsAt_of_clean h avoid, ih]

theorem Reader.colRec_of_clean (o : MaskOps) (c : Nat) : (r.colRec o c).2 = r := by
  simp only [Reader.colRec, Reader.num_of_clean h avoid]

theorem Reader.colRecs_of_clean (o : MaskOps) (l : List Nat) : (r.colRecs o l).2 = r := by
  induction l with
  | nil => rfl
  | cons c t ih => simp only [Reader.colRecs, Reader.colRec_of_clean h avoid, ih]

end

theorem flipWorking_of_unarmed {s : State} {p : Nat} (h : (getPos s p).fulFlip.arm = false) (l : List MEntry) :
    flipWorking s p l = (l, false, s) := by
  cases l with
  | nil => rfl
  | cons e t => simp [flipWorking, h]

/-- R226, R238: with no flip of the Fuller armed, a unit over a clean store is rebuilt from some entries. -/
theorem maskUnit_of_clean {m : MaskRun} (clean : CleanStore m.rd.st m.rd.p) (avoid : m.rd.avoid = []) (poison : m.rd.poison = false)
    (unarmed : (getPos m.rd.st m.rd.p).fulFlip.arm = false) (going : m.stopped = false) (op : Nat) (o : MaskOps) (h : PanelHeader)
    (cands : List Cand) (cols : List Nat) :
    ∃ ents, let u := maskUnit op o h cands m cols
      let ps := cols.flatMap fun c => buildColumn o ents c
      u.stopped = false ∧ u.pieces = m.pieces ++ ps ∧ u.rd.st = putPieces m.rd.st m.rd.p ps := by
  simp only [maskUnit, going, Reader.colRecs_of_clean clean avoid, Reader.values_of_clean clean avoid, poison,
    flipWorking_of_unarmed unarmed, Bool.false_eq_true, if_false]
  exact ⟨_, trivial, rfl, rfl⟩

theorem putPieces_append (s : State) (p : Nat) (l l' : List Piece) : putPieces s p (l ++ l') = putPieces (putPieces s p l) p l' := List.foldl_append

/-- R223, R235, R238: a mask command of one unit that needs no candidates writes, over a clean store, the unit's columns, the header and the
report. -/
theorem maskRes_of_clean {s : State} {p : Nat} {o : MaskOps} {cols : List Nat} (unit : maskUnits o = [cols]) (clean : CleanStore s p)
    (unarmed : (getPos s p).fulFlip.arm = false) (op : Nat) (r : Reader) :
    ∃ ents old report, let m := maskRes op p o s ([], none, r)
      m.stopped = false ∧
      m.pieces = (cols.flatMap fun c => buildColumn o ents c) ++ [plainPiece o.pbase (maskHeader o old), plainPiece o.rbase report] ∧
      m.rd.st = putPieces s p m.pieces := by
  have read := Reader.bytes_of_clean (r := { st := s, p := p }) clean rfl o.pbase 64
  have built := fun h => maskUnit_of_clean (m := { rd := { st := s, p := p }, n := {}, pieces := [], stopped := false }) clean rfl rfl unarmed rfl
    op o h [] cols
  obtain ⟨ents, going, pieces, st⟩ := built (panelHeader o.wfmt (patternOf o.pattern)
    ((Reader.bytes { st := s, p := p } o.pbase 64).1.map (·.1)).toArray)
  simp only [maskRes, unit, read, List.foldl_cons, List.foldl_nil, going, pieces, st, putPieces_append, Option.isSome_none, Bool.or_false,
    Bool.false_eq_true, if_false, List.nil_append]
  exact ⟨ents, _, _, trivial, rfl, trivial⟩

/-- MASK.PRUNE and MASK.REPAIR read no candidate block, and so never meet what they write (R192). -/
theorem maskRun_of_noCands {op : Nat} (h : op ≠ 0x69) (p : Nat) (o : MaskOps) (s : State) :
    ∃ r, maskRun op p o s = maskRes op p o s ([], none, r) := by
  refine ⟨{ st := s, p := p, avoid := maskRegions o false, tainted := (maskRes op p o s ([], none, { st := s, p := p })).stopped }, ?_⟩
  simp only [maskRun, maskCands, if_neg h, Reader.bornOut, List.all_nil, if_true]

theorem readSByte_addBusy {s : State} (c : Canonical s) (p cycles : Nat) :
    readSByte (getPos (addBusy s p cycles) p) = readSByte (getPos s p) := by
  rw [addBusy, getPos_modPos_same _ _ _ c.positions]
  rfl

/-- A mask command that met no poison completes from what its run leaves, with the Fuller's busy count raised (R236, R237). -/
theorem runMask_of_going {op n k p : Nat} {s : State} {c : InFlight} (vq : k = 4 * n + 2) (head : headOp s k op = some c)
    (core : corePos s n = some p) (going : (maskRun op p (maskOps c.cmd) s).stopped = false) :
    ∃ flags, let m := maskRun op p (maskOps c.cmd) s
      runMask op n s = completeDone (addBusy m.rd.st p (maskCycles (maskOps c.cmd) m.nnz)) k c flags [] := by
  subst vq
  simp only [runMask, head, core, going]
  exact ⟨_, rfl⟩

/-! ## Writing above the lowest byte of a store (R349) -/

theorem tabSet_above {α : Type} [DecidableEq α] (d : α) {k k' : Nat} (h : k < k') (x v : α) (t : Tab α) :
    tabSet d k' v ((k, x) :: t) = (k, x) :: tabSet d k' v t := by
  rw [tabSet, if_neg (by omega), if_neg (by omega)]

theorem storeSet_above {k off : Nat} (h : k < off) (x : SByte) (t : Tab SByte) (bs : List (Byte × Bool)) :
    storeSet ((k, x) :: t) off bs = (k, x) :: storeSet t off bs := by
  induction bs generalizing off t with
  | nil => rfl
  | cons b r ih =>
    rw [storeSet, storeSet, tabSet_above _ h]
    exact ih (by omega) _

/-- A store with pieces written to it, one after the other. -/
def storePieces (t : Tab SByte) (l : List Piece) : Tab SByte := l.foldl (fun t x => storeSet t x.1 x.2) t

theorem storePieces_append (t : Tab SByte) (l l' : List Piece) : storePieces t (l ++ l') = storePieces (storePieces t l) l' := List.foldl_append

theorem storePieces_above {k : Nat} (x : SByte) (t : Tab SByte) {l : List Piece} (h : ∀ y ∈ l, k < y.1) :
    storePieces ((k, x) :: t) l = (k, x) :: storePieces t l := by
  induction l generalizing t with
  | nil => rfl
  | cons y r ih =>
    obtain ⟨above, rest⟩ := List.forall_mem_cons.mp h
    simp only [storePieces, List.foldl_cons, storeSet_above above]
    exact ih _ rest

section
variable {s : State} {p : Nat} (c : Canonical s) (unarmed : (getPos s p).stoFlip.arm = false)
include c unarmed

theorem getPos_storeWrite_same (off : Nat) (bs : List (Byte × Bool)) :
    (getPos (storeWrite s p off bs) p).store = storeSet (getPos s p).store off bs ∧ (getPos (storeWrite s p off bs) p).stoFlip.arm = false := by
  rw [storeWrite, getPos_modPos_same _ _ _ c.positions]
  cases bs <;> simp [clearRecords, storeRaw, unarmed, storeSet]

/-- With no flip of the store armed, `storePieces` is what `putPieces` makes of a position's store. -/
theorem getPos_putPieces_store (l : List Piece) : (getPos (putPieces s p l) p).store = storePieces (getPos s p).store l := by
  induction l generalizing s with
  | nil => rfl
  | cons x r ih =>
    obtain ⟨store, flip⟩ := getPos_storeWrite_same c unarmed x.1 x.2
    have rest := ih (s := storeWrite s p x.1 x.2) (canonical_modPos c _ _) flip
    rw [store] at rest
    exact rest

end

/-- A 0 written over a byte that a store lists twice, and lists first, leaves one of the two; pieces above it leave both. -/
theorem storePieces_listedTwice {k : Nat} (x : SByte) (t : Tab SByte) {l l' : List Piece} (before : ∀ y ∈ l, k < y.1)
    (after : ∀ y ∈ l', k < y.1) (bs : List Byte) : tabGet {} (storePieces ((k, x) :: (k, x) :: t) (l ++ plainPiece k (0 :: bs) :: l')) k = x := by
  have dropped (u : Tab SByte) : tabSet {} k (storeCode 0 false) ((k, x) :: u) = u := by
    rw [tabSet, if_neg (Nat.lt_irrefl k), if_pos rfl, if_pos (by decide)]
  have first (u : Tab SByte) : storePieces ((k, x) :: (k, x) :: u) (plainPiece k (0 :: bs) :: l') =
      storePieces (storeSet ((k, x) :: u) (k + 1) (bs.map fun b => (b, false))) l' := by
    rw [storePieces, plainPiece, List.foldl_cons, List.map_cons, storeSet, dropped]
    rfl
  rw [storePieces_append, storePieces_above _ _ before, storePieces_above _ _ before, first, storeSet_above (Nat.lt_succ_self k),
    storePieces_above _ _ after]
  simp [tabGet]

theorem lastWritten_of_after {k : Nat} {l : List Piece} {b : Byte} {bs : List Byte} {y : Piece} (after : k < y.1) :
    lastWritten (l ++ [plainPiece k (b :: bs), y]) k = some (b, false) := by
  simp [lastWritten, plainPiece, Nat.not_le.mpr after]

/-- Every piece of a column lies above the panel's first byte, where the planes do. -/
theorem buildColumn_above {o : MaskOps} (w : o.pbase < o.wbase) (x : o.pbase < o.xbase) (m : o.moments = []) (ents : List MEntry) (c : Nat) :
    ∀ y ∈ buildColumn o ents c, o.pbase < y.1 := by
  simp only [buildColumn, m, plainPiece, List.mapIdx_nil, List.append_nil, List.forall_mem_cons, countOff, codeOff, metaOff]
  refine ⟨?_, ?_, ?_, ?_, ?_, by simp⟩ <;> omega

/-! ## The counterexample -/

/-- MASK.REPAIR of a W1 panel of pattern 1:4 at offset 0x1000 of the store, over columns 0 to 15 and with NEWVER 0, its planes and report above the
panel. -/
def zeroVersion : InFlight :=
  { seq := 0, cmd := BitVec.ofNat 512 (0x6A + 0x14 * 256 ^ 24 + 15 * 256 ^ 28 + 0x1000 * 256 ^ 30 + 0x80000 * 256 ^ 33 + 0x90000 * 256 ^ 36 +
      0xA0000 * 256 ^ 45), desc := 0, start := 0 }

/-- The state of O56's counterexample, whose store lists the byte 0x1000 twice, with that command in flight on VQ of core 0. -/
def repairListedTwice : State :=
  setQueue listedTwice 2 { enable := true, state := .run, sizeLog2 := 4, prod := 1, fetchSeq := 1, inflight := [zeroVersion] }

/-- The command passes check 6 (R225); the state is not Legal, for the store of position 0 is in no canonical form. -/
theorem repairListedTwice_beyondLegal : maskOk 0x6A zeroVersion.cmd = true ∧ ¬ Legal repairListedTwice :=
  ⟨by decide +kernel, fun h => absurd (h.pos 0).1 (by decide +kernel)⟩

theorem canonical_repairListedTwice : Canonical repairListedTwice := canonical_of_test (by decide +kernel)

theorem unarmed_repairListedTwice :
    (getPos repairListedTwice 0).stoFlip.arm = false ∧ (getPos repairListedTwice 0).fulFlip.arm = false := by decide +kernel

theorem corePos_repairListedTwice : corePos repairListedTwice 0 = some 0 := by decide +kernel

theorem headOp_repairListedTwice : headOp repairListedTwice 2 0x6A = some zeroVersion := by decide +kernel

theorem store_repairListedTwice :
    (getPos repairListedTwice 0).store = [(0x1000, storeCode 1 false), (0x1000, storeCode 1 false)] := by decide +kernel

theorem cleanStore_repairListedTwice : CleanStore repairListedTwice 0 := by
  intro off
  by_cases h : 0x1000 = off
  · exact ⟨1, by rw [readSByte, store_repairListedTwice, tabGet, if_pos h]; decide⟩
  · exact ⟨0, by rw [readSByte, store_repairListedTwice, tabGet, if_neg h, tabGet, if_neg h, tabGet]; decide⟩

/-- R223: the header begins with NEWVER. -/
theorem maskHeader_of_zeroVersion {o : MaskOps} (h : o.newver = 0) (old : List Byte) : ∃ bs, maskHeader o old = 0 :: bs := by
  rw [maskHeader, h]
  exact ⟨_, rfl⟩

/-- The operands of the command. -/
def zeroVersionOps : MaskOps :=
  { wfmt := 4, pattern := 1, mcount := 0, mbf16 := false, c0 := 0, nc := 16, pbase := 0x1000, wbase := 0x80000, xbase := 0x90000, m0base := 0,
    m1base := 0, rbase := 0xA0000, newver := 0, step := 0, lim := 0, pthresh := 0, sbase := 0 }

theorem maskOps_zeroVersion : maskOps zeroVersion.cmd = zeroVersionOps := by decide +kernel

/-- How the command ends. -/
def repairEnd : MaskRun := maskRun 0x6A 0 (maskOps zeroVersion.cmd) repairListedTwice

/-- The command meets no poison and writes columns above the header, the header, whose first byte is a 0, and the report above it. -/
theorem repairEnd_writes : repairEnd.stopped = false ∧ repairEnd.rd.st = putPieces repairListedTwice 0 repairEnd.pieces ∧
    ∃ l bs report, repairEnd.pieces = l ++ [plainPiece 0x1000 (0 :: bs), plainPiece 0xA0000 report] ∧ ∀ y ∈ l, 0x1000 < y.1 := by
  obtain ⟨-, unarmed⟩ := unarmed_repairListedTwice
  obtain ⟨r, run⟩ := maskRun_of_noCands (op := 0x6A) (by decide) 0 zeroVersionOps repairListedTwice
  obtain ⟨ents, old, report, going, pieces, st⟩ := maskRes_of_clean (o := zeroVersionOps) (cols := List.range 16) (by decide)
    cleanStore_repairListedTwice unarmed 0x6A r
  obtain ⟨bs, header⟩ := maskHeader_of_zeroVersion (o := zeroVersionOps) rfl old
  rw [header] at pieces
  rw [repairEnd, maskOps_zeroVersion, run]
  refine ⟨going, st, _, bs, report, pieces, fun y hy => ?_⟩
  obtain ⟨c, -, hy⟩ := List.mem_flatMap.mp hy
  exact buildColumn_above (by decide) (by decide) rfl ents c y hy

/-- The byte is written as a 0. -/
theorem lastWritten_repairEnd : lastWritten repairEnd.pieces 0x1000 = some (0, false) := by
  obtain ⟨-, -, l, bs, report, pieces, -⟩ := repairEnd_writes
  rw [pieces]
  exact lastWritten_of_after (by decide : 0x1000 < 0xA0000)

/-- The byte keeps a listed 1. -/
theorem readSByte_repairEnd : readSByte (getPos repairEnd.rd.st 0) 0x1000 = storeCode 1 false := by
  obtain ⟨unarmed, -⟩ := unarmed_repairListedTwice
  obtain ⟨-, st, l, bs, report, pieces, above⟩ := repairEnd_writes
  rw [readSByte, st, getPos_putPieces_store canonical_repairListedTwice unarmed, store_repairListedTwice, pieces]
  exact storePieces_listedTwice _ [] above (by simp [plainPiece]) bs

/-- The state in which the command completes: only the Fuller's busy count differs from what the run leaves. -/
def repairBusy : State := addBusy repairEnd.rd.st 0 (maskCycles (maskOps zeroVersion.cmd) repairEnd.nnz)

theorem repairEnd_changes : Changes [.free, .positions, .halls] repairListedTwice repairEnd.rd.st := by
  rw [repairEnd]
  exact maskRun_changes

theorem repairBusy_changes : Changes [.free, .positions, .halls] repairListedTwice repairBusy := by
  rw [repairBusy]
  exact repairEnd_changes.next addBusy_changes (by decide)

/-- In the state before the completion the byte written as 0 reads as 1. -/
theorem storeByte_repairBusy : (storeByte repairBusy 0 0x1000).bytes = [(1, false)] := by
  apply storeByte_bytes_of_clean
  rw [repairBusy, readSByte_addBusy (repairEnd_changes.canonical canonical_repairListedTwice), readSByte_repairEnd]
  decide

theorem exec_maskRepair (n : Core) (s : State) : exec (.maskRepair n) s = .next (runMask 0x6A n s) := rfl

theorem runMask_repairListedTwice : ∃ flags, runMask 0x6A 0 repairListedTwice = completeDone repairBusy 2 zeroVersion flags [] := by
  obtain ⟨going, -⟩ := repairEnd_writes
  rw [repairBusy]
  rw [repairEnd] at going ⊢
  exact runMask_of_going rfl headOp_repairListedTwice corePos_repairListedTwice going

/-- Completing the command leaves the positions: no record can be written. -/
theorem completeDone_zeroVersion_positions {e : State} (queues : e.queues = repairListedTwice.queues) (leafs : e.leafs = repairListedTwice.leafs)
    (jobs : e.jobs = repairListedTwice.jobs) (flags : Nat) (counts : List Nat) :
    (completeDone e 2 zeroVersion flags counts).positions = e.positions := by
  have noMark : NoMark e := by
    unfold NoMark
    rw [queues]
    decide +kernel
  have alone : (getQueue e 2).inflight = [zeroVersion] := by
    unfold getQueue
    rw [queues]
    rfl
  have noRoot (j : Nat) : (getJob e j).rootValid = false := by
    unfold getJob
    rw [jobs]
    rfl
  exact completeDone_positions (by decide) noMark (queues ▸ canonical_repairListedTwice.queues) alone leafs noRoot

/-- No completion of the command has the byte 0x1000 written as 0: it reads as 1 afterwards. -/
theorem not_completes_repairListedTwice {flags : Nat} {counts : List Nat} {l : List Piece} {holds : State → Prop}
    (wrote : lastWritten l 0x1000 = some (0, false)) :
    ¬ Completes (.maskRepair 0) repairListedTwice 2 0 0 zeroVersion flags counts l holds := by
  rintro ⟨e, ends, ⟨same, -, -⟩, -, written, -⟩
  obtain ⟨unarmed, -⟩ := unarmed_repairListedTwice
  have byte : (storeByte e 0 0x1000).bytes = [(0, false)] := written unarmed 0x1000 (0, false) wrote
  obtain ⟨_, ran⟩ := runMask_repairListedTwice
  have ended : completeDone repairBusy 2 zeroVersion _ [] = completeDone e 2 zeroVersion flags counts :=
    ran.symm.trans (Host.Outcome.next.inj ((exec_maskRepair 0 repairListedTwice).symm.trans ends))
  have positions : repairBusy.positions = e.positions := by
    rw [← completeDone_zeroVersion_positions (repairBusy_changes.only .queues rfl) (repairBusy_changes.only .leafs rfl)
      (repairBusy_changes.only .jobs rfl), ended]
    exact completeDone_zeroVersion_positions (by rw [same]) (by rw [same]) (by rw [same]) _ _
  have reads := storeByte_bytes_of_positions positions 0 0x1000
  rw [byte, storeByte_repairBusy] at reads
  exact absurd reads (by decide)

/-- Refutes O58: Canonical does not ask that the tables inside a position are canonical (Legal does), and in a store that lists a byte twice the first
byte of the header that a MASK.REPAIR of NEWVER 0 writes does not read as written. -/
theorem not_maskCommandsRun : ¬ Obligations.MaskCommandsRun := by
  unfold Obligations.MaskCommandsRun
  intro holds
  obtain ⟨completes, -⟩ := holds 0 repairListedTwice zeroVersion 0 canonical_repairListedTwice corePos_repairListedTwice (0x6A, .maskRepair 0)
    (by simp) headOp_repairListedTwice
  obtain ⟨going, -⟩ := repairEnd_writes
  exact not_completes_repairListedTwice lastWritten_repairEnd (completes going)

end Sys2Proof.Machine
end

section
/-! O57: the statement asks for a canonical state, and Canonical leaves the tables inside a position to Legal, as in O56. The softmax of one element is
1.0 (R253), whose first byte in FP32 is 0. Where the store lists that byte twice, the write drops one of the two entries, and the byte reads as the
other. -/

namespace Sys2Proof.Machine

/-! ## A completion that leaves the positions (R70, R74, R323) -/

theorem NoMark.modPos {s : State} (h : NoMark s) (p : Nat) (f : Position → Position) : NoMark (modPos s p f) := h

section
variable {s t : State} {i : Instr} {k n p off : Nat} {c : InFlight}

/-- `completeDone_positions` from what an engine leaves of a state in which no record can be written. -/
theorem completeDone_positions_of_engine {e : State} (onCore : OnCore s e n p) (hk : k % 4 ≠ 0) (noMark : NoMark s)
    (wf : tabWf {} s.queues = true) (alone : (getQueue s k).inflight = [c]) (noLeaf : s.leafs = [])
    (noRoot : ∀ j, (getJob s j).rootValid = false) (flags : Nat) (counts : List Nat) :
    (completeDone e k c flags counts).positions = e.positions := by
  obtain ⟨same, -, -⟩ := onCore
  have queues : e.queues = s.queues := by rw [same]
  have leafs : e.leafs = s.leafs := by rw [same]
  have jobs : e.jobs = s.jobs := by rw [same]
  refine Sys2Proof.Machine.completeDone_positions hk ?_ (queues ▸ wf) ?_ (leafs.trans noLeaf) fun j => ?_
  · unfold NoMark
    rw [queues]
    exact noMark
  · unfold getQueue
    rw [queues]
    exact alone
  · unfold getJob
    rw [jobs]
    exact noRoot j

/-- A command of an engine, in a state in which no record can be written, does not complete with a piece whose last byte over an offset reads otherwise
once the command has ended. -/
theorem not_completes_of_readsOtherwise (hk : k % 4 ≠ 0) (noMark : NoMark s) (wf : tabWf {} s.queues = true)
    (alone : (getQueue s k).inflight = [c]) (noLeaf : s.leafs = []) (noRoot : ∀ j, (getJob s j).rootValid = false)
    (unarmed : (getPos s p).stoFlip.arm = false) (ran : exec i s = .next t) {l : List Piece} {b : Byte × Bool}
    (wrote : lastWritten l off = some b) (reads : (storeByte t p off).bytes ≠ [b]) {flags : Nat} {counts : List Nat}
    {holds : State → Prop} : ¬ Completes i s k n p c flags counts l holds := by
  rintro ⟨e, ends, onCore, -, written, -⟩
  have ended : t = completeDone e k c flags counts := Host.Outcome.next.inj (ran.symm.trans ends)
  have positions : t.positions = e.positions := by
    rw [ended]
    exact completeDone_positions_of_engine onCore hk noMark wf alone noLeaf noRoot flags counts
  exact reads ((storeByte_bytes_of_positions positions p off).trans (written unarmed off b wrote))

end

/-! ## The counterexample -/

/-- FUL.SOFTMAX of one FP32 element at offset 0x400 of the store, with scale 1.0 and its FP32 output at 0x1000. -/
def loneSoftmax : InFlight :=
  { seq := 0, cmd := BitVec.ofNat 512 (0x61 + 0x33 * 256 ^ 24 + 0xFF * 256 ^ 27 + 0x3F800000 * 256 ^ 34 + 0x400 * 256 ^ 38 + 0x1000 * 256 ^ 44),
    desc := 0, start := 0 }

/-- The state of O56's counterexample, whose store lists the byte 0x1000 twice, with that command in flight on VQ of core 0. -/
def softmaxListedTwice : State :=
  setQueue listedTwice 2 { enable := true, state := .run, sizeLog2 := 4, prod := 1, fetchSeq := 1, inflight := [loneSoftmax] }

theorem getPos_softmaxListedTwice (p : Nat) : getPos softmaxListedTwice p = getPos listedTwice p := getPos_setQueue ..

theorem corePos_softmaxListedTwice : corePos softmaxListedTwice 0 = some 0 := corePos_listedTwice

theorem canonical_softmaxListedTwice : Canonical softmaxListedTwice :=
  have change : Changes [.queues] listedTwice softmaxListedTwice := setQueue_changes fun _ _ => show 4 ≤ 4 ∧ 4 ≤ 12 by decide
  change.canonical canonical_listedTwice

theorem unarmed_softmaxListedTwice : (getPos softmaxListedTwice 0).stoFlip.arm = false := by
  rw [getPos_softmaxListedTwice]
  exact unarmed_listedTwice

/-- The state is not Legal, for the store of position 0 is in no canonical form. -/
theorem not_legal_softmaxListedTwice : ¬ Legal softmaxListedTwice := fun h => by
  have listed : getPos repairListedTwice 0 = getPos listedTwice 0 := getPos_setQueue ..
  obtain ⟨store, -⟩ := h.pos 0
  rw [getPos_softmaxListedTwice, ← listed, store_repairListedTwice] at store
  exact absurd store (by decide)

theorem noMark_softmaxListedTwice : NoMark softmaxListedTwice := by
  have reset : NoMark State.reset := fun _ h => absurd h List.not_mem_nil
  have going : QState.run ≠ .mark := by decide
  unfold softmaxListedTwice listedTwice
  exact .setQueue (.setQueue (.modPos reset _ _) 1 going) 2 going

/-- The operands of the command. -/
def loneSoftmaxOps : SoftOps := softOps loneSoftmax.cmd (slotScale loneSoftmax (fld loneSoftmax.cmd 27 0 8))

/-- The rows that it computes. -/
def loneSoftmaxRows : List SoftRow := (softRows softmaxListedTwice 0 loneSoftmaxOps loneSoftmaxOps.out.rows 0).2

/-- The pieces that it writes (R164, R168). -/
def loneSoftmaxPieces : List Piece :=
  let out := makeOutput loneSoftmaxOps.out false false (loneSoftmaxRows.map (·.els))
  out.elementPieces ++ [statusPiece loneSoftmaxOps.out out.tiles]

/-- The command is the oldest of its queue and passes check 6 (R252), meets no poison, and writes the first byte of its output, 1.0, as a 0. After it that
byte reads as 1. -/
theorem loneSoftmax_runs : headOp softmaxListedTwice 2 0x61 = some loneSoftmax ∧ softOk loneSoftmax.cmd = true ∧
    loneSoftmaxRows.any (·.poison) = false ∧ lastWritten loneSoftmaxPieces 0x1000 = some (0, false) ∧
    (storeByte (runSoftmax 0 softmaxListedTwice) 0 0x1000).bytes = [(1, false)] := by
  decide +kernel

theorem exec_fulSoftmax (n : Core) (s : State) : exec (.fulSoftmax n) s = .next (runSoftmax n s) := rfl

/-- No completion of the command has written its pieces. -/
theorem not_completes_softmaxListedTwice {flags : Nat} {counts : List Nat} {holds : State → Prop} :
    ¬ Completes (.fulSoftmax 0) softmaxListedTwice 2 0 0 loneSoftmax flags counts loneSoftmaxPieces holds := by
  obtain ⟨-, -, -, wrote, reads⟩ := loneSoftmax_runs
  refine not_completes_of_readsOtherwise (by decide) noMark_softmaxListedTwice canonical_softmaxListedTwice.queues rfl rfl (fun _ => rfl)
    unarmed_softmaxListedTwice (exec_fulSoftmax 0 _) wrote ?_
  rw [Fin.val_zero, reads]
  decide

/-- Refutes O57: Canonical does not ask that the tables inside a position are canonical (Legal does), and in a store that lists a byte twice a byte of
the output that FUL.SOFTMAX writes does not read as written. -/
theorem not_fullerCommandsRun : ¬ Obligations.FullerCommandsRun := by
  unfold Obligations.FullerCommandsRun
  intro holds
  obtain ⟨head, -, sound, -⟩ := loneSoftmax_runs
  obtain ⟨-, softmax, -⟩ := holds 0 softmaxListedTwice loneSoftmax 0 canonical_softmaxListedTwice corePos_softmaxListedTwice
  obtain ⟨completes, -⟩ := softmax head
  exact not_completes_softmaxListedTwice (completes sound)

end Sys2Proof.Machine
end

section
/-! O23, O46: the bench of a hall and the test registers. First the registers; then what a report leaves of a hall, how a run ends by its verdict,
and the commands of a run. -/

namespace Sys2Proof.Machine

/-! ## The registers of the bench and of the Assayer (R292, R302 to R304) -/

theorem bitOf_toNat {n : Nat} (v : BitVec n) (i : Nat) : bitOf v.toNat i = v.getLsbD i := by
  unfold bitOf bitsOf BitVec.getLsbD
  rw [Nat.shiftRight_eq_div_pow, Nat.testBit_eq_decide_div_mod_eq]
  rfl

theorem canonical_modHall {s : State} (c : Canonical s) (k : Nat) (f : HallState → HallState) : Canonical (modHall s k f) :=
  setHall_frames.canonical c

theorem getHall_pushEvent_same {s : State} (c : Canonical s) (h : Nat) (e : EventSpec) :
    getHall (pushEvent s h e) h = hallEvent (getHall s h) (now s h) e := getHall_modHall_same _ _ _ c.halls

theorem reqNameable_iff {s : State} {h i : Nat} : reqNameable s h i = true ↔
    i < 72 ∧ ((getPos s (posKey h i)).status = .ready ∨ (getPos s (posKey h i)).status = .retired) := by
  simp [reqNameable]

theorem exec_tnkReqWrite (h : Hall) (v : W32) (s : State) : exec (.tnkReqWrite h v) s = .next (runTnkReq h v s) := rfl

/-- What a write of TNK_REQ makes of its hall. -/
def tnkReqHall (s : State) (h : Nat) (v : W32) : HallState :=
  let i := bitsOf v.toNat 0 7
  if !bitOf v.toNat 31 then { getHall s h with tnkReqPending := false, tnkReqPos := BitVec.ofNat 7 i }
  else if reqNameable s h i then { getHall s h with tnkReqPending := true, tnkReqPos := BitVec.ofNat 7 i }
  else hallEvent (getHall s h) (now s h) { code := 0x0303, lockind := 3, loc := posKey h i }

theorem runTnkReq_eq {h : Hall} {s : State} (up : hostUp s h = true) (v : W32) :
    runTnkReq h v s = setHall s h (tnkReqHall s h v) := by
  unfold runTnkReq tnkReqHall
  rw [if_neg (by simp [up])]
  dsimp only
  split
  · rfl
  · split <;> rfl

/-- R302, R304, by the PENDING bit and what the position may be named for. -/
theorem benchRequestsNameSpares : BenchRequestsNameSpares := by
  intro h v s c up i ok
  refine ⟨setHall s h (tnkReqHall s h v), by rw [exec_tnkReqWrite, runTnkReq_eq up], rfl, fun x ne => getHall_setHall_ne _ _ ne, ?_⟩
  rw [getHall_setHall_same _ _ _ c.halls]
  unfold tnkReqHall
  rw [bitOf_toNat]
  refine ⟨fun pending named => ?_, fun pending refused => ?_, fun withdrawn => ?_⟩
  · simp only [pending, reqNameable_iff.2 named, Bool.not_true, Bool.false_eq_true, if_false, if_true, i]
  · have unnamed : ¬ reqNameable s h i = true := fun named => refused (reqNameable_iff.1 named)
    simp only [pending, unnamed, Bool.not_true, Bool.false_eq_true, if_false, i]
  · simp only [withdrawn, Bool.not_false, if_true, i]

theorem exec_asyInject (h : Hall) (p : Pos) (v : W32) (s : State) : exec (.asyInject h p v) s = .next (runAsyInject h p v s) := rfl

/-- R292, R303, R367, by whether the position is a hole. -/
theorem assayerControlIsWritten : AssayerControlIsWritten := by
  intro h p v s c up k
  rw [exec_asyInject]
  unfold runAsyInject
  refine ⟨fun hole => by rw [if_neg fun served => served.2 hole], fun served => ?_⟩
  rw [if_pos ⟨up, served⟩]
  refine ⟨_, rfl, rfl, ?_, fun x ne => getPos_modPos_ne _ _ ne⟩
  rw [getPos_modPos_same _ _ _ c.positions, bitOf_toNat, bitOf_toNat]

/-- Settles O23, by the two registers. -/
theorem benchAndAssayerRegistersAreWritten : Obligations.BenchAndAssayerRegistersAreWritten :=
  ⟨benchRequestsNameSpares, assayerControlIsWritten⟩

/-! ## What reports leave of a hall (R423, R491, R301) -/

/-- Hall `b` is hall `a` but for its events, its sticky bits with their held classes, and the entries of its repair log. -/
def OnlyReports (a b : HallState) : Prop :=
  b = { a with evSeq := b.evSeq, held := b.held, lost := b.lost, lostNow := b.lostNow, lostFirst := b.lostFirst, sticky := b.sticky,
               heldRouter := b.heldRouter, heldSeam := b.heldSeam, heldPll := b.heldPll, heldVr := b.heldVr, logPending := b.logPending }

theorem OnlyReports.trans {a b c : HallState} (h : OnlyReports a b) (k : OnlyReports b c) : OnlyReports a c := by
  unfold OnlyReports at *
  rw [h] at k
  exact k

theorem onlyReports_hallEvent (hl : HallState) (t : W64) (e : EventSpec) : OnlyReports hl (hallEvent hl t e) := by
  unfold hallEvent
  split <;> rfl

/-- The hall of a position that is retired, before the reports. -/
def retiredHall (hl : HallState) (i : Nat) : HallState := { forgetPos hl i with tnkRetired := hl.tnkRetired + 1 }

/-- A position that is retired, and its hall, before the reports. -/
def beginRetirement (s : State) (h i : Nat) : State :=
  modHall (modPos s (posKey h i) fun ps => { ps with status := .retired, islandOn := false, heldBench := false, fenced := false }) h
    fun hl => retiredHall hl i

/-- R301: the retirement after a failed run is logged and reported as FS_BENCH_FAIL, with both of its events. -/
theorem retirePosition_failed (s : State) (h i round test : Nat) : retirePosition s h i 0 round test =
    raise (raise (logRetired (beginRetirement s h i) h i 0 round test) h 29 1 { code := 0x0300, lockind := 3, loc := posKey h i }) h 29 1
      { code := 0x0301, lockind := 3, loc := posKey h i } := rfl

/-- The hall of one more inconclusive run in a row. -/
def slackHall (hl : HallState) : HallState := { hl with tnkSlack := hl.tnkSlack + 1 }

section
variable {s : State} (c : Canonical s)
include c

theorem onlyReports_pushEvent (h : Nat) (e : EventSpec) : OnlyReports (getHall s h) (getHall (pushEvent s h e) h) := by
  rw [getHall_pushEvent_same c]
  exact onlyReports_hallEvent ..

theorem onlyReports_raise (h src cls : Nat) (e : EventSpec) : OnlyReports (getHall s h) (getHall (raise s h src cls e) h) := by
  refine .trans ?_ (onlyReports_pushEvent (setSticky_changes.canonical c) h _)
  unfold setSticky
  rw [getHall_modHall_same _ _ _ c.halls]
  rfl

theorem onlyReports_logRetired (h i cause round test : Nat) :
    OnlyReports (getHall s h) (getHall (logRetired s h i cause round test) h) := by
  have drawn : Canonical (takeFree (takeFree s).2).2 := takeFree_changes.canonical (takeFree_changes.canonical c)
  unfold logRetired logDecision
  dsimp only
  rw [getHall_modHall_same _ _ _ drawn.halls]
  rfl

/-! ## A retirement and an inconclusive run (R299, R301) -/

theorem onlyReports_retirePosition (h i round test : Nat) :
    OnlyReports (retiredHall (getHall s h) i) (getHall (retirePosition s h i 0 round test) h) := by
  have canR : Canonical (beginRetirement s h i) := canonical_modHall (canonical_modPos c _ _) _ _
  have canL : Canonical (logRetired (beginRetirement s h i) h i 0 round test) := logRetired_changes.canonical canR
  have hallR : getHall (beginRetirement s h i) h = retiredHall (getHall s h) i := getHall_modHall_same _ _ _ c.halls
  rw [← hallR, retirePosition_failed]
  exact ((onlyReports_logRetired canR h i 0 round test).trans (onlyReports_raise canL h 29 1 _)).trans
    (onlyReports_raise (raise_changes.canonical canL) h 29 1 _)

theorem status_retirePosition (h i round test : Nat) : (getPos (retirePosition s h i 0 round test) (posKey h i)).status = .retired := by
  rw [retirePosition_failed, raise_changes.getPos rfl, raise_changes.getPos rfl, logRetired_changes.getPos rfl, beginRetirement,
    getPos_modHall, getPos_modPos_same _ _ _ c.positions]

theorem onlyReports_slackRun (h : Nat) : OnlyReports (slackHall (getHall s h)) (getHall (slackRun s h) h) := by
  have counted : getHall (modHall s h slackHall) h = slackHall (getHall s h) := getHall_modHall_same _ _ _ c.halls
  unfold slackRun
  dsimp only
  rw [← counted]
  split
  · exact onlyReports_pushEvent (canonical_modHall c _ _) h _
  · rfl

end

/-! ## How a run ends (R299) -/

/-- The hall of a run that ends, as it is before the verdict settles anything else. -/
def endedHall (hl : HallState) (verdict : Nat) : HallState :=
  { hl with tnkActive := false, tnkVerdict := verdict, tnkRuns := hl.tnkRuns + 1, benchGrant := 0, benchUnder289 := false,
            tnkSlack := if verdict = 3 then hl.tnkSlack else 0 }

/-- The state of a run that ends, before its verdict settles the position. -/
def benchEnded (s : State) (h verdict : Nat) : State :=
  modPos (modHall (countBenchWait s h) h fun hl => endedHall hl verdict) (posKey h (getHall s h).tnkPos) fun ps => { ps with ueSince := 0 }

/-- The position of a run that passed. -/
def passedPos (s : State) (h : Nat) (ps : Position) : Position :=
  let ps := { ps with lastBench := some (now s h) }
  if (getHall s h).benchWasRetired then retiredAgain ps else { ps with status := .ready }

/-- The position of a run that ends inconclusive. -/
def inconclusivePos (hl : HallState) (ps : Position) : Position :=
  if hl.benchWasRetired then retiredAgain ps else { ps with status := hl.benchFrom }

/-- The position of a run that ends inconclusive, settled and held again where R289 asked for the run. -/
def inconclusive (s : State) (h verdict : Nat) : State :=
  let u := modPos (benchEnded s h verdict) (posKey h (getHall s h).tnkPos) (inconclusivePos (getHall s h))
  if (getHall s h).benchUnder289 then holdForBench u h (getHall s h).tnkPos else u

theorem endBench_passed (s : State) (h round test : Nat) :
    endBench s h 1 round test = modPos (benchEnded s h 1) (posKey h (getHall s h).tnkPos) (passedPos s h) := by
  unfold endBench
  dsimp only
  rw [if_pos rfl]
  rfl

theorem endBench_failedAgain {s : State} {h : Nat} (was : (getHall s h).benchWasRetired = true) (round test : Nat) :
    endBench s h 2 round test = raise (modPos (benchEnded s h 2) (posKey h (getHall s h).tnkPos) retiredAgain) h 29 1
      { code := 0x0300, lockind := 3, loc := posKey h (getHall s h).tnkPos } := by
  unfold endBench
  dsimp only
  rw [if_neg (by decide), if_pos rfl, if_pos was]
  rfl

theorem endBench_failed {s : State} {h : Nat} (was : (getHall s h).benchWasRetired = false) (round test : Nat) :
    endBench s h 2 round test = retirePosition (benchEnded s h 2) h (getHall s h).tnkPos 0 round test := by
  unfold endBench
  dsimp only
  rw [if_neg (by decide), if_pos rfl, if_neg (by simp [was])]
  rfl

theorem endBench_inconclusive {s : State} {h verdict : Nat} (h1 : verdict ≠ 1) (h2 : verdict ≠ 2) (round test : Nat) :
    endBench s h verdict round test = slackRun (inconclusive s h verdict) h := by
  unfold endBench
  dsimp only
  rw [if_neg h1, if_neg h2]
  rfl

section
variable {s : State} (c : Canonical s) (h verdict : Nat)
include c

theorem canonical_benchEnded : Canonical (benchEnded s h verdict) :=
  canonical_modPos (canonical_modHall (countBenchWait_changes.canonical c) _ _) _ _

theorem getHall_benchEnded : getHall (benchEnded s h verdict) h = endedHall (getHall s h) verdict := by
  unfold benchEnded
  rw [getHall_modPos, getHall_modHall_same _ _ _ (countBenchWait_changes.canonical c).halls, countBenchWait_changes.getHall rfl]

theorem getPos_benchEnded :
    getPos (benchEnded s h verdict) (posKey h (getHall s h).tnkPos) = { getPos s (posKey h (getHall s h).tnkPos) with ueSince := 0 } := by
  have canH : Canonical (modHall (countBenchWait s h) h fun hl => endedHall hl verdict) :=
    canonical_modHall (countBenchWait_changes.canonical c) _ _
  unfold benchEnded
  rw [getPos_modPos_same _ _ _ canH.positions, getPos_modHall, countBenchWait_changes.getPos rfl]

theorem canonical_inconclusive : Canonical (inconclusive s h verdict) := by
  have canU := canonical_modPos (canonical_benchEnded c h verdict) (posKey h (getHall s h).tnkPos) (inconclusivePos (getHall s h))
  unfold inconclusive
  dsimp only
  split
  · exact holdForBench_changes.canonical canU
  · exact canU

/-- Holding the position again writes only the order of the held positions. -/
theorem getHall_inconclusive : getHall (inconclusive s h verdict) h =
    { endedHall (getHall s h) verdict with heldOrder := (getHall (inconclusive s h verdict) h).heldOrder } := by
  have canU := canonical_modPos (canonical_benchEnded c h verdict) (posKey h (getHall s h).tnkPos) (inconclusivePos (getHall s h))
  unfold inconclusive
  dsimp only
  split
  · unfold holdForBench
    rw [getHall_modHall_same _ _ _ (canonical_modPos canU _ _).halls, getHall_modPos, getHall_modPos, getHall_benchEnded c]
  · rw [getHall_modPos, getHall_benchEnded c]

end

/-- What every verdict makes of the hall of its run: the run has ended and counts, its grant is back, and runs go on or not as before. -/
structure RunEnded (hl : HallState) (verdict : Nat) (u : HallState) : Prop where
  runs : u.tnkRuns = hl.tnkRuns + 1
  idle : u.tnkActive = false
  grant : u.benchGrant = 0
  verdict : u.tnkVerdict = verdict
  enable : u.tnkEnable = hl.tnkEnable

theorem RunEnded.endedHall (hl : HallState) (verdict : Nat) : RunEnded hl verdict (endedHall hl verdict) := ⟨rfl, rfl, rfl, rfl, rfl⟩

section
variable {hl a : HallState} {verdict : Nat} (h : RunEnded hl verdict a)
include h

theorem RunEnded.retiredHall (i : Nat) : RunEnded hl verdict (retiredHall a i) := ⟨h.runs, h.idle, h.grant, h.verdict, h.enable⟩

theorem RunEnded.slackHall : RunEnded hl verdict (slackHall a) := ⟨h.runs, h.idle, h.grant, h.verdict, h.enable⟩

theorem RunEnded.withHeldOrder (l : List Nat) : RunEnded hl verdict { a with heldOrder := l } :=
  ⟨h.runs, h.idle, h.grant, h.verdict, h.enable⟩

end

theorem RunEnded.reported {hl a b : HallState} {verdict : Nat} (h : RunEnded hl verdict a) (k : OnlyReports a b) : RunEnded hl verdict b where
  runs := (congrArg HallState.tnkRuns k).trans h.runs
  idle := (congrArg HallState.tnkActive k).trans h.idle
  grant := (congrArg HallState.benchGrant k).trans h.grant
  verdict := (congrArg HallState.tnkVerdict k).trans h.verdict
  enable := (congrArg HallState.tnkEnable k).trans h.enable

/-- R299, by the verdict and what the run was of. -/
theorem runEnded_endBench {s : State} (c : Canonical s) (h verdict round test : Nat) :
    RunEnded (getHall s h) verdict (getHall (endBench s h verdict round test) h) := by
  have canE := canonical_benchEnded c h verdict
  have ended := RunEnded.endedHall (getHall s h) verdict
  have hallE := getHall_benchEnded c h verdict
  by_cases h1 : verdict = 1
  · subst h1
    rwa [endBench_passed, getHall_modPos, hallE]
  · by_cases h2 : verdict = 2
    · subst h2
      cases was : (getHall s h).benchWasRetired with
      | true =>
        rw [endBench_failedAgain was]
        refine ended.reported ?_
        rw [← hallE]
        exact onlyReports_raise (canonical_modPos canE _ _) h 29 1 _
      | false =>
        rw [endBench_failed was]
        have reports := onlyReports_retirePosition canE h (getHall s h).tnkPos round test
        rw [hallE] at reports
        exact (ended.retiredHall _).reported reports
    · rw [endBench_inconclusive h1 h2]
      have reports := onlyReports_slackRun (canonical_inconclusive c h verdict) h
      rw [getHall_inconclusive c] at reports
      exact (ended.withHeldOrder _).slackHall.reported reports

/-- R299, by the verdict. -/
theorem benchVerdictsSettleThePosition : BenchVerdictsSettleThePosition := by
  intro s h verdict round test c sound plain i t
  obtain ⟨runs, idle, grant, given, -⟩ := runEnded_endBench c h verdict round test
  have changes : Changes _ s t := endBench_changes
  have canE := canonical_benchEnded c h verdict
  have hallE := getHall_benchEnded c h verdict
  have posE := getPos_benchEnded c h verdict
  refine ⟨runs, idle, grant, given, ?passed, ?failed, ?inconclusive, changes.only .queues rfl, changes.only .sems rfl,
    changes.only .lcores rfl⟩
  case passed =>
    rintro rfl
    rw [show t = _ from endBench_passed .., getPos_modPos_same _ _ _ canE.positions, posE]
    simp only [passedPos, sound, Bool.false_eq_true, if_false, i]
  case failed =>
    rintro rfl
    have ran : t = _ := endBench_failed sound round test
    have reports := onlyReports_retirePosition canE h i round test
    rw [hallE] at reports
    rw [ran]
    exact ⟨status_retirePosition canE .., congrArg HallState.tnkRetired reports⟩
  case inconclusive =>
    rintro rfl
    have ran : t = _ := endBench_inconclusive (by decide) (by decide) round test
    have reports := onlyReports_slackRun (canonical_inconclusive c h 3) h
    rw [getHall_inconclusive c] at reports
    rw [ran]
    refine ⟨?_, congrArg HallState.tnkSlack reports⟩
    rw [slackRun_changes.getPos rfl]
    simp only [inconclusive, plain, Bool.false_eq_true, if_false]
    rw [getPos_modPos_same _ _ _ canE.positions]
    simp only [inconclusivePos, sound, Bool.false_eq_true, if_false]

/-! ## The commands of a run (R298 to R300, R467) -/

/-- R300: the rotation of the oldest position is asked for, where none is. -/
def askRotation (s : State) (h : Nat) : State := modHall s h fun hl => { hl with rotateReq := hl.rotateReq <|> rotationDue s h }

/-- The state of a round that a run goes through (R298). -/
def rounded (s : State) (h : Nat) (matched : Bool) : State :=
  { modPos s (posKey h (getHall s h).tnkPos) (fun ps => roundPos ps matched s.free) with free := s.free + 40 }

theorem exec_benchPeriodStart (h : Hall) (s : State) : exec (.benchPeriodStart h) s = .next (runBenchPeriod h s) := rfl

theorem exec_benchRound (h : Hall) (matched : Bool) (test : W16) (s : State) :
    exec (.benchRound h matched test) s = .next (runBenchRound h matched test s) := rfl

theorem exec_benchPause (h : Hall) (s : State) : exec (.benchPause h) s = .next (runBenchPause h s) := rfl

theorem status_beginBench {s : State} (c : Canonical s) (h i : Nat) (under289 : Bool) :
    (getPos (beginBench s h i under289) (posKey h i)).status = .bench := by
  unfold beginBench
  rw [getPos_modHall, getPos_modPos_same _ _ _ c.positions]

/-- The run that begins is of position `i` and has no round yet. -/
theorem getHall_beginBench {s : State} (c : Canonical s) (h i : Nat) (under289 : Bool) :
    (getHall (beginBench s h i under289) h).tnkActive = true ∧ (getHall (beginBench s h i under289) h).tnkPos = i ∧
      (getHall (beginBench s h i under289) h).tnkRounds = 0 := by
  unfold beginBench
  dsimp only
  rw [getHall_modHall_same _ _ _ (canonical_modPos c _ _).halls]
  exact ⟨rfl, rfl, rfl⟩

theorem benchMustPause_iff {s : State} {h : Nat} :
    benchMustPause s h = true ↔ ∃ r ∈ (getHall s h).requests, 2000 ≤ (now s h - r.time).toNat := by
  simp [benchMustPause]

/-- A round that is gone through uses up the flips of its position and holds an injected mismatch at row 0 and column 0 (R292, R298). -/
theorem roundPos_whole (ps : Position) (n : Nat) : (roundPos ps true n).stoFlip.arm = false ∧ (roundPos ps true n).asyInject = false ∧
    (roundPos ps true n).asyLastValid = true ∧ (roundPos ps true n).asyLastRow = 0 ∧ (roundPos ps true n).asyLastCol = 0 :=
  ⟨rfl, rfl, rfl, rfl, rfl⟩

/-! What each command does while the die is up, case by case. -/

section
variable {h : Hall} {s : State} (up : dieUp s = true)
include up

theorem runBenchPeriod_ends (c : Canonical s) (active : (getHall s h).tnkActive = true) (off : (getHall s h).tnkEnable = false) :
    runBenchPeriod h s = askRotation (endBench s h (periodVerdict (getHall s h)) 0xFFFF 0xFFFF) h := by
  have stays := (runEnded_endBench c h (periodVerdict (getHall s h)) 0xFFFF 0xFFFF).enable.trans off
  unfold runBenchPeriod
  rw [if_neg (by simp [up])]
  dsimp only
  rw [if_pos active, stays]
  rfl

theorem runBenchPeriod_idle (idle : (getHall s h).tnkActive = false) (off : (getHall s h).tnkEnable = false) :
    runBenchPeriod h s = askRotation s h := by
  unfold runBenchPeriod
  rw [if_neg (by simp [up])]
  dsimp only
  rw [idle, if_neg Bool.false_ne_true, off]
  rfl

theorem runBenchPeriod_begins (idle : (getHall s h).tnkActive = false) (on : (getHall s h).tnkEnable = true) {i : Nat} {under289 : Bool}
    (choice : benchChoice s h = some (i, under289)) : runBenchPeriod h s = askRotation (beginBench s h i under289) h := by
  unfold runBenchPeriod
  rw [if_neg (by simp [up])]
  dsimp only
  rw [idle, if_neg Bool.false_ne_true, on, if_pos rfl, choice]
  rfl

theorem runBenchRound_matched (active : (getHall s h).tnkActive = true) (granted : 0 < (getHall s h).benchGrant) (test : W16) :
    runBenchRound h true test s = modHall (rounded s h true) h fun hl => { hl with tnkRounds := satAdd 0xFFFF hl.tnkRounds 1 } := by
  unfold runBenchRound
  dsimp only
  rw [if_pos ⟨up, active, granted⟩, if_pos rfl]
  rfl

theorem runBenchRound_failed (active : (getHall s h).tnkActive = true) (granted : 0 < (getHall s h).benchGrant) (test : W16) :
    runBenchRound h false test s = endBench (rounded s h false) h 2 ((getHall s h).tnkRounds + 1) test.toNat := by
  unfold runBenchRound
  dsimp only
  rw [if_pos ⟨up, active, granted⟩, if_neg Bool.false_ne_true]
  rfl

theorem runBenchPause_pauses (granted : 0 < (getHall s h).benchGrant) (must : benchMustPause s h = true) :
    runBenchPause h s = modHall s h fun hl => { hl with benchGrant := 0, benchSince := now s h } := by
  unfold runBenchPause
  rw [if_pos ⟨up, granted, must⟩]

end

theorem runBenchRound_stays {h : Hall} {s : State} (stays : (getHall s h).tnkActive = false ∨ (getHall s h).benchGrant = 0)
    (matched : Bool) (test : W16) : runBenchRound h matched test s = s := by
  unfold runBenchRound
  dsimp only
  refine if_neg fun ⟨_, active, granted⟩ => ?_
  rcases stays with idle | none
  · simp [idle] at active
  · omega

theorem runBenchPause_stays {h : Hall} {s : State} (stays : (getHall s h).benchGrant = 0 ∨ ¬ benchMustPause s h = true) :
    runBenchPause h s = s := by
  unfold runBenchPause
  refine if_neg fun ⟨_, granted, must⟩ => ?_
  rcases stays with none | not
  · omega
  · exact not must

theorem getHall_askRotation {s : State} (c : Canonical s) (h : Nat) :
    getHall (askRotation s h) h = { getHall s h with rotateReq := (getHall s h).rotateReq <|> rotationDue s h } :=
  getHall_modHall_same _ _ _ c.halls

/-- R300: a run that begins at a period's start. -/
theorem begun_askRotation {s : State} (c : Canonical s) (h i : Nat) (under289 : Bool) :
    let t := askRotation (beginBench s h i under289) h
    t = { s with halls := t.halls, positions := t.positions } ∧ (getHall t h).tnkActive = true ∧ (getHall t h).tnkPos = i ∧
      (getHall t h).tnkRounds = 0 ∧ (getPos t (posKey h i)).status = .bench ∧ ∀ x, x ≠ posKey h i → getPos t x = getPos s x := by
  intro t
  obtain ⟨active, pos, rounds⟩ := getHall_beginBench c h i under289
  have hall : getHall t h = _ := getHall_askRotation (beginBench_changes.canonical c) h
  rw [hall]
  exact ⟨rfl, active, pos, rounds, status_beginBench c h i under289,
    fun x ne => getPos_beginBench_ne ne under289⟩

theorem canonical_rounded {s : State} (c : Canonical s) (h : Nat) (matched : Bool) : Canonical (rounded s h matched) :=
  with_free_changes.canonical (canonical_modPos c _ _)

theorem getPos_rounded_same {s : State} (c : Canonical s) (h : Nat) (matched : Bool) :
    getPos (rounded s h matched) (posKey h (getHall s h).tnkPos) = roundPos (getPos s (posKey h (getHall s h).tnkPos)) matched s.free :=
  getPos_modPos_same s _ (fun ps => roundPos ps matched s.free) c.positions

theorem getPos_rounded_ne {s : State} {h x : Nat} (matched : Bool) (ne : x ≠ posKey h (getHall s h).tnkPos) :
    getPos (rounded s h matched) x = getPos s x := getPos_modPos_ne s (fun ps => roundPos ps matched s.free) ne

/-- R298 to R300, R467, by the command, whether a run is under way, and what it meets. -/
theorem benchRunsCountRounds : BenchRunsCountRounds := by
  intro h s c up hl asked roundedTo
  have mustPause := benchMustPause_iff (s := s) (h := h)
  refine ⟨fun active off => ?ends, fun idle off => ?idle, fun idle on i u choice => ?begins, fun active granted test => ?matched,
    fun active granted test => ?failed, fun stays m test => ?noRound, fun granted waited => ?pauses, fun stays => ?noPause⟩
  case ends =>
    rw [exec_benchPeriodStart, runBenchPeriod_ends up c active off]
    rfl
  case idle =>
    rw [exec_benchPeriodStart, runBenchPeriod_idle up idle off]
    rfl
  case begins =>
    exact ⟨_, by rw [exec_benchPeriodStart, runBenchPeriod_begins up idle on choice], begun_askRotation c h i u⟩
  case matched =>
    refine ⟨_, by rw [exec_benchRound, runBenchRound_matched up active granted], rfl,
      getHall_modHall_same _ _ _ (canonical_rounded c h true).halls, ?_⟩
    rw [getPos_modHall, getPos_rounded_same c]
    obtain ⟨unarmed, consumed, valid, row, col⟩ := roundPos_whole (getPos s (posKey h hl.tnkPos)) s.free
    exact ⟨rfl, unarmed, consumed, valid, row, col, fun x ne => getPos_rounded_ne true ne⟩
  case failed =>
    rw [exec_benchRound, runBenchRound_failed up active granted]
    rfl
  case noRound => rw [exec_benchRound, runBenchRound_stays stays]
  case pauses =>
    exact ⟨_, by rw [exec_benchPause, runBenchPause_pauses up granted (mustPause.2 waited)], rfl, getHall_modHall_same _ _ _ c.halls⟩
  case noPause =>
    have short : hl.benchGrant = 0 ∨ ¬ benchMustPause s h = true := by
      refine stays.imp_right fun waited must => ?_
      obtain ⟨r, hr, long⟩ := mustPause.1 must
      exact absurd (waited r hr) (Nat.not_lt.2 long)
    rw [exec_benchPause, runBenchPause_stays short]

/-- Settles O46, by the commands of a run and its verdicts. -/
theorem benchRunsCountAndSettle : Obligations.BenchRunsCountAndSettle := ⟨benchRunsCountRounds, benchVerdictsSettleThePosition⟩

end Sys2Proof.Machine
end

section
/-! O37: the accesses of the memory hubs. A range is taken bolt by bolt: one within a bolt is one piece, and the pieces of one at or above the usable
capacity lie there too. -/

namespace Sys2Proof.Machine

/-! ## The pieces of a range (R332) -/

/-- A range within one bolt is one piece. -/
theorem boltPieces_within {a n : Nat} (pos : 0 < n) (fits : a % 2048 + n ≤ 2048) : boltPieces (n + 1) a n = [(a, n)] := by
  obtain ⟨m, rfl⟩ : ∃ m, n = m + 1 := ⟨n - 1, by omega⟩
  have whole : min (m + 1) (2048 - a % 2048) = m + 1 := by omega
  simp [boltPieces, whole]

/-- No piece of a range lies below it. -/
theorem le_of_mem_boltPieces {fuel a n : Nat} {x : Nat × Nat} (hx : x ∈ boltPieces fuel a n) : a ≤ x.1 := by
  induction fuel generalizing a n with
  | zero => exact absurd hx List.not_mem_nil
  | succ fuel ih =>
    unfold boltPieces at hx
    split at hx
    · exact absurd hx List.not_mem_nil
    · rcases List.mem_cons.1 hx with rfl | later
      · exact Nat.le_refl _
      · have := ih later
        omega

/-- The pieces of a range have its length together. -/
theorem sum_boltPieces {fuel a n : Nat} (enough : n < fuel) : ((boltPieces fuel a n).map (·.2)).sum = n := by
  induction fuel generalizing a n with
  | zero => omega
  | succ fuel ih =>
    unfold boltPieces
    split
    · next none => rw [none]; rfl
    · have room : 0 < 2048 - a % 2048 := Nat.sub_pos_of_lt (Nat.mod_lt _ (by decide))
      rw [List.map_cons, List.sum_cons, ih (by omega)]
      omega

/-! ## BAR2 (R483) -/

/-- One piece of a BAR2 read, with what the pieces before it have read. -/
def bar2Step (h : Nat) (r : State × List (Byte × Bool)) (x : Nat × Nat) : State × List (Byte × Bool) :=
  ((bar2Piece r.1 h x.1 x.2).1, r.2 ++ (bar2Piece r.1 h x.1 x.2).2)

/-- One piece of a BAR2 write of `data` from `pa`. -/
def bar2Put (h pa : Nat) (data : List Byte) (s : State) (x : Nat × Nat) : State :=
  if s.order.usable ≤ x.1 then s
  else (hubWrite s (hostStop h) .host x.1 (((data.drop (x.1 - pa)).take x.2).map fun b => (b, false)) none).st

/-- A read completed with what its pieces have read. -/
def bar2Completed (h : Nat) (r : State × List (Byte × Bool)) : State :=
  { (if r.2.any (·.2) then modHall r.1 h fun hl => { hl with poisonRd := hl.poisonRd + 1 } else r.1) with
    hostRead := r.2.map (·.1), hostReadPoison := r.2.any (·.2) }

theorem exec_bar2Read {h : Hall} {s : State} (up : hostUp s h = true) (o : BitVec 36) (n : Nat) :
    exec (.bar2Read h o n) s = .next (bar2Completed h
      ((boltPieces (n + 1) (bar2Pa (getHall s h) o) n).foldl (bar2Step h) (s, []))) := by
  have ran : exec (.bar2Read h o n) s = .next (runBar2Read h o n s) := rfl
  rw [ran]
  unfold runBar2Read
  rw [if_neg (by simp [up])]
  rfl

theorem exec_bar2Write {h : Hall} {s : State} (up : hostUp s h = true) (o : BitVec 36) (data : List Byte) :
    exec (.bar2Write h o data) s = .next ((boltPieces (data.length + 1) (bar2Pa (getHall s h) o) data.length).foldl
      (bar2Put h (bar2Pa (getHall s h) o) data) s) := by
  have ran : exec (.bar2Write h o data) s = .next (runBar2Write h o data s) := rfl
  rw [ran]
  unfold runBar2Write
  rw [if_neg (by simp [up])]
  rfl

theorem bar2Piece_below {s : State} {pa : Nat} (below : pa < s.order.usable) (h n : Nat) :
    bar2Piece s h pa n = ((hubRead s (hostStop h) pa n .host none).st, (hubRead s (hostStop h) pa n .host none).bytes) :=
  if_neg (Nat.not_le.2 below)

theorem bar2Piece_above {s : State} {pa : Nat} (above : s.order.usable ≤ pa) (h n : Nat) :
    bar2Piece s h pa n = (s, List.replicate n (0, false)) := if_pos above

/-- Pieces at or above the usable capacity read zeros and change nothing. -/
theorem foldl_bar2Step_above {s : State} {h : Nat} {l : List (Nat × Nat)} (above : ∀ x ∈ l, s.order.usable ≤ x.1)
    (got : List (Byte × Bool)) : l.foldl (bar2Step h) (s, got) = (s, got ++ List.replicate (l.map (·.2)).sum (0, false)) := by
  induction l generalizing got with
  | nil => simp
  | cons x r ih =>
    obtain ⟨first, rest⟩ := List.forall_mem_cons.1 above
    have step : bar2Step h (s, got) x = (s, got ++ List.replicate x.2 (0, false)) := by
      simp [bar2Step, bar2Piece_above first]
    rw [List.foldl_cons, step, ih rest]
    rw [List.map_cons, List.sum_cons, ← List.replicate_append_replicate, List.append_assoc]

theorem foldl_bar2Put_above {s : State} {h pa : Nat} {data : List Byte} {l : List (Nat × Nat)}
    (above : ∀ x ∈ l, s.order.usable ≤ x.1) : l.foldl (bar2Put h pa data) s = s := by
  induction l with
  | nil => rfl
  | cons x r ih =>
    obtain ⟨first, rest⟩ := List.forall_mem_cons.1 above
    rw [List.foldl_cons, show bar2Put h pa data s x = s from if_pos first]
    exact ih rest

/-- R332, R483, by whether the address lies below the usable capacity. -/
theorem bar2ReachesTheHubs : Bar2ReachesTheHubs := by
  intro h o s c up pa
  have aboveAll {n : Nat} (above : s.order.usable ≤ pa) : ∀ x ∈ boltPieces (n + 1) pa n, s.order.usable ≤ x.1 :=
    fun x hx => Nat.le_trans above (le_of_mem_boltPieces hx)
  refine ⟨fun n pos fits below => ?below, fun n pos above => ?readAbove, fun data above => ?writeAbove,
    fun data some fits below => ?writeBelow⟩
  case below =>
    have ran : exec (.bar2Read h o n) s = .next (bar2Completed h
        ((hubRead s (hostStop h) pa n .host none).st, (hubRead s (hostStop h) pa n .host none).bytes)) := by
      rw [exec_bar2Read up, boltPieces_within pos fits, List.foldl_cons, List.foldl_nil, bar2Step, bar2Piece_below below]
      rfl
    refine ⟨fun clean => ?_, fun poisoned => ?_⟩
    · rw [ran]
      simp only [bar2Completed, clean, Bool.false_eq_true, if_false]
    · rw [ran]
      simp only [bar2Completed, poisoned, if_true]
  case readAbove =>
    rw [exec_bar2Read up, foldl_bar2Step_above (aboveAll above), sum_boltPieces (Nat.lt_succ_self n)]
    simp [bar2Completed]
  case writeAbove => rw [exec_bar2Write up, foldl_bar2Put_above (aboveAll above)]
  case writeBelow =>
    have whole : ((data.drop (pa - pa)).take data.length) = data := by simp
    rw [exec_bar2Write up, boltPieces_within (List.length_pos_iff.2 some) fits, List.foldl_cons, List.foldl_nil, bar2Put,
      if_neg (Nat.not_le.2 below), whole]

/-! ## The requests to the hubs (R328, R332, R333) -/

theorem requestOk_iff {s : State} {pa n : Nat} :
    requestOk s pa n = true ↔ 0 < n ∧ pa + n ≤ s.order.usable ∧ pa / 2048 = (pa + n - 1) / 2048 := by
  simp [requestOk, and_assoc]

section
variable {s : State} {pa : Nat} {a : Asker} {job : Option Job}

theorem exec_hubReadRequest (up : dieUp s = true) (n : Nat) : exec (.hubReadRequest pa n a job) s =
    if requestOk s pa n then .next (runHubRead s a.stop pa n a.reader job) else .fault (.noSuchAddress pa) := if_neg (by simp [up])

theorem exec_hubWriteRequest (up : dieUp s = true) (data : List (Byte × Bool)) : exec (.hubWriteRequest pa data a job) s =
    if requestOk s pa data.length then .next (runHubWrite s a.stop pa data a.reader job) else .fault (.noSuchAddress pa) :=
  if_neg (by simp [up])

theorem exec_hubRequests_down (down : dieUp s = false) (n : Nat) (data : List (Byte × Bool)) :
    exec (.hubReadRequest pa n a job) s = .next s ∧ exec (.hubWriteRequest pa data a job) s = .next s :=
  ⟨if_pos (by simp [down]), if_pos (by simp [down])⟩

end

/-- What a hub read delivers where its data moves in no segments. -/
theorem delivered_runHubRead_plain {r : Sys2Proof.Reader} (plain : inSegments r = false) (s : State) (src pa n : Nat) (job : Option Job) :
    (runHubRead s src pa n r job).delivered = (hubRead s src pa n r (job.map fun j => j.val)).bytes := by
  unfold runHubRead
  simp only [plain, Bool.false_eq_true, if_false]

/-- What a hub read delivers where its data moves in segments: what their check leaves of it (R297). -/
theorem delivered_runHubRead_segment {r : Sys2Proof.Reader} (segments : inSegments r = true) (s : State) (src pa n : Nat) (job : Option Job) :
    let rd := hubRead s src pa n r (job.map fun j => j.val)
    (runHubRead s src pa n r job).delivered =
      (checkSegment rd.st (readerVc r) src [{ hub := hubOf pa, al := pa % 64, sent := rd.sent, got := rd.bytes }]).bytes := by
  unfold runHubRead
  simp only [segments, if_true]

/-- R328, R332, R333, by whether the die is up and the request lies within one bolt. -/
theorem hubRequestsReachOneBolt : HubRequestsReachOneBolt := by
  intro pa a job s src r ok j
  refine ⟨fun up n good => ?_, fun up data good => ?_, fun up n bad => ?_, fun up data bad => ?_, exec_hubRequests_down⟩
  · have read := runHubRead_changes (s := s) (src := src) (pa := pa) (n := n) (r := r) (job := job)
    exact ⟨_, (exec_hubReadRequest up n).trans (if_pos (requestOk_iff.2 good)), fun plain => delivered_runHubRead_plain plain ..,
      fun segments => delivered_runHubRead_segment segments .., read.only .queues rfl, read.only .sems rfl, read.only .lcores rfl⟩
  · have written := runHubWrite_changes (s := s) (src := src) (pa := pa) (data := data) (r := r) (job := job)
    exact ⟨_, (exec_hubWriteRequest up data).trans (if_pos (requestOk_iff.2 good)), rfl, written.only .queues rfl,
      written.only .sems rfl, written.only .lcores rfl, written.only .delivered rfl⟩
  · exact (exec_hubReadRequest up n).trans (if_neg fun good => bad (requestOk_iff.1 good))
  · exact (exec_hubWriteRequest up data).trans (if_neg fun good => bad (requestOk_iff.1 good))

/-- Settles O37, by the accesses of BAR2 and the requests to the hubs. -/
theorem hubAccessesReachOneBolt : Obligations.HubAccessesReachOneBolt := ⟨bar2ReachesTheHubs, hubRequestsReachOneBolt⟩

end Sys2Proof.Machine
end

section
/-! O19: the ownership tables and the invalidation of cached translations. Each of these commands walks a list and writes one entry of a table at each
step; what such a walk leaves is said once. -/

namespace Sys2Proof.Machine

/-! ## A change of some parts as a record update -/

/-- What changes only the parts in `L` is the state with those parts replaced. -/
theorem Changes.eq_with {L : List Part} {s t u : State} (h : Changes L s t) (pending : u.pending = s.pending)
    (parts : ∀ p : Part, p.same u (if L.contains p then t else s)) : t = u :=
  State.eq_of_parts (h.pending.trans pending.symm) fun p => by
    have part := parts p
    split at part
    · exact part
    · next out => exact Part.same_trans part (h.only p (Bool.eq_false_iff.2 out))

theorem Changes.eq_with_own_queues {s t : State} (h : Changes [.queues, .own] s t) : t = { s with own := t.own, queues := t.queues } :=
  h.eq_with rfl fun p => by cases p <;> rfl

theorem Changes.eq_with_jobs {s t : State} (h : Changes [.jobs] s t) : t = { s with jobs := t.jobs } :=
  h.eq_with rfl fun p => by cases p <;> rfl

theorem Changes.eq_with_jobs_leafs_halls {s t : State} (h : Changes [.halls, .jobs, .leafs] s t) :
    t = { s with jobs := t.jobs, leafs := t.leafs, halls := t.halls } := h.eq_with rfl fun p => by cases p <;> rfl

/-! ## Walks that write one entry of a table at each step -/

/-- Where `P` holds, step `g u i` keeps `P` and, of the table that `get` reads, writes entry `key i` alone, making `new i` of it. -/
structure WritesEntry {α : Type} (P : State → Prop) (get : State → Nat → α) (key : Nat → Nat) (new : Nat → α → α) (g : State → Nat → State) :
    Prop where
  keeps : ∀ u i, P u → P (g u i)
  same : ∀ u i, P u → get (g u i) (key i) = new i (get u (key i))
  other : ∀ u i k, k ≠ key i → get (g u i) k = get u k

namespace WritesEntry

variable {α : Type} {P : State → Prop} {get : State → Nat → α} {key : Nat → Nat} {new : Nat → α → α} {g : State → Nat → State} {l : List Nat}

/-- An entry that no step of the walk writes stands. -/
theorem foldl_other (w : WritesEntry P get key new g) {k : Nat} (h : ∀ i ∈ l, k ≠ key i) (s : State) : get (l.foldl g s) k = get s k := by
  induction l generalizing s with
  | nil => rfl
  | cons a r ih =>
    obtain ⟨first, rest⟩ := List.forall_mem_cons.1 h
    rw [List.foldl_cons, ih rest, w.other _ _ _ first]

/-- An entry that the walk comes to is written once. -/
theorem foldl_same (w : WritesEntry P get key new g) (inj : Function.Injective key) (once : l.Nodup) {s : State} (h : P s) {i : Nat}
    (hi : i ∈ l) : get (l.foldl g s) (key i) = new i (get s (key i)) := by
  induction l generalizing s with
  | nil => cases hi
  | cons a r ih =>
    obtain ⟨fresh, once⟩ := List.nodup_cons.1 once
    have apart : ∀ j ∈ r, key a ≠ key j := fun j hj e => fresh (by rwa [inj e])
    rw [List.foldl_cons]
    rcases List.mem_cons.1 hi with rfl | later
    · rw [w.foldl_other apart, w.same _ _ h]
    · rw [ih once (w.keeps _ _ h) later, w.other _ _ _ (apart i later).symm]

end WritesEntry

/-! ## The ownership tables (R505, R506) -/

theorem coreDisabled_iff {s : State} {n : Nat} : coreDisabled s n = true ↔ ∀ i, i < 4 → (getQueue s (4 * n + i)).enable = false := by
  simp [coreDisabled]

/-- Queue `i` of core `n` takes a JOB. -/
def takeJob (n : Nat) (j : BitVec 4) (s : State) (i : Nat) : State := modQueue s (4 * n + i) fun q => { q with job := j }

theorem takeJob_writes (n : Nat) (j : BitVec 4) :
    WritesEntry (fun u => tabWf {} u.queues = true) getQueue (4 * n + ·) (fun _ q => { q with job := j }) (takeJob n j) where
  keeps _ _ h := tabWf_tabSet h _ _
  same u _ h := getQueue_modQueue_same u _ _ h
  other u _ _ h := getQueue_modQueue_ne u _ h

theorem foldl_takeJob_changes {n : Nat} {j : BitVec 4} {l : List Nat} {s : State} : Changes [.queues] s (l.foldl (takeJob n j) s) :=
  Changes.refl.foldl fun _ _ => modQueue_changes fun _ h => h

/-- R505: the owner that a write of STW_OWN or STW_SEMGRP names. -/
def ownerOf (v : W32) : Owner := { owned := v.getLsbD 31, job := v.setWidth 4 }

/-- R505: an accepted write of STW_OWN sets the core's owner, then the JOB of its four queues. -/
theorem runOwnWrite_disabled {n : Core} {s : State} (up : hostUp s (n.val / 64) = true)
    (disabled : ∀ i, i < 4 → (getQueue s (4 * n.val + i)).enable = false) (v : W32) : runOwnWrite n v s =
      (List.range 4).foldl (takeJob n (if v.getLsbD 31 then v.setWidth 4 else 0)) (setOwn s n (ownerOf v)) := by
  rw [runOwnWrite, up, coreDisabled_iff.2 disabled, bitOf_toNat, BitVec.ofNat_toNat]
  rfl

theorem runOwnWrite_enabled {n : Core} {s : State} (enabled : ∃ i, i < 4 ∧ (getQueue s (4 * n.val + i)).enable = true) (v : W32) :
    runOwnWrite n v s = s := by
  obtain ⟨i, hi, on⟩ := enabled
  refine if_neg fun accepted => ?_
  rw [Bool.and_eq_true] at accepted
  rw [coreDisabled_iff.1 accepted.2 i hi] at on
  cases on

theorem runSemgrpWrite_up {h : Hall} {s : State} (up : hostUp s h = true) (g : Fin 64) (v : W32) :
    runSemgrpWrite h g v s = setSemGrp s (64 * h.val + g.val) (ownerOf v) := by
  rw [runSemgrpWrite, if_pos up, bitOf_toNat, BitVec.ofNat_toNat]
  rfl

/-- R505, R506: by the walk over the core's four queues, and by the entry of the group. -/
theorem ownershipTablesAreWritten : OwnershipTablesAreWritten := by
  refine ⟨fun n v s c up => ⟨fun disabled => ?accepted, fun enabled => ?refused⟩, fun h g v s c up => ?group⟩
  case accepted =>
    refine ⟨runOwnWrite n v s, rfl, runOwnWrite_changes.eq_with_own_queues, ?_⟩
    rw [runOwnWrite_disabled up disabled]
    have written := takeJob_writes n (if v.getLsbD 31 then v.setWidth 4 else 0)
    refine ⟨?owner, fun m hm => ?owners, fun i hi => ?queue, fun k hk => ?queues⟩
    case owner => rw [foldl_takeJob_changes.getOwn rfl, getOwn_setOwn_same _ _ _ c.own, ownerOf]
    case owners => rw [foldl_takeJob_changes.getOwn rfl, getOwn_setOwn_ne _ _ hm]
    case queue =>
      have taken := written.foldl_same (s := setOwn s n (ownerOf v)) (fun _ _ => Nat.add_left_cancel) List.nodup_range c.queues (List.mem_range.2 hi)
      rwa [getQueue_setOwn] at taken
    case queues =>
      have apart : ∀ i ∈ List.range 4, k ≠ 4 * n.val + i := fun i hi e => hk (by have := List.mem_range.1 hi; omega)
      rw [written.foldl_other apart, getQueue_setOwn]
  case refused => exact congrArg Host.Outcome.next (runOwnWrite_enabled enabled v)
  case group =>
    refine ⟨_, congrArg Host.Outcome.next (runSemgrpWrite_up up g v), rfl, getSemGrp_setSemGrp_same _ _ _ c.semGrp, fun x hx => ?_⟩
    exact getSemGrp_setSemGrp_ne _ _ hx

/-! ## The start of an invalidation (R324, R326) -/

/-- R326: bit `j` of JOBS starts an invalidation of job context `j`. -/
def startInvalidation (v : W32) (s : State) (j : Nat) : State :=
  if bitOf v.toNat j then modJob s j fun jb => { jb with invalidating := true } else s

theorem startInvalidation_writes (v : W32) : WritesEntry (fun u => tabWf {} u.jobs = true) getJob id
    (fun j jb => { jb with invalidating := jb.invalidating || v.getLsbD j }) (startInvalidation v) where
  keeps u j h := by
    unfold startInvalidation
    split
    · exact tabWf_tabSet h _ _
    · exact h
  same u j h := by
    unfold startInvalidation
    rw [bitOf_toNat]
    split
    · next bit => rw [id, getJob_modJob_same _ _ _ h, bit, Bool.or_true]
    · next bit => rw [Bool.eq_false_iff.2 bit, Bool.or_false]
  other u j k h := by
    unfold startInvalidation
    split
    · exact getJob_modJob_ne _ _ h
    · rfl

theorem runXlateInv_up {s : State} (up : anyHostUp s = true) (v : W32) :
    runXlateInv v s = (List.range 16).foldl (startInvalidation v) s := if_pos up

/-! ## Its end (R324) -/

/-- The invalidation of job context `j` ends where all its writes are acknowledged. -/
def endInvalidation (s : State) (j : Nat) : State :=
  if unackedOf s j then s else modJob s j fun jb => { jb with invalidating := false }

/-- The table pointers of the job contexts under invalidation in `s` leave hall `h`. -/
def dropPtrs (s u : State) (h : Nat) : State := modHall u h fun hl => { hl with ptrs := keepPtrs s hl.ptrs }

/-- The leaves that stay. -/
def dropLeafs (s : State) : State :=
  { s with leafs := (s.leafs.map fun x => (x.1, keepLeafs s x.2)).filter fun x => x.2 != [] }

theorem runXlateInvDone_up {s : State} (up : dieUp s = true) :
    runXlateInvDone s = (List.range 16).foldl endInvalidation ([0, 1].foldl (dropPtrs s) (dropLeafs s)) := if_pos up

/-- Whether a write of job context `j` is to be acknowledged, by the queues of `s` and what job context `j` holds (R369). -/
def unackedIn (s : State) (j : Nat) (jb : JobState) : Bool :=
  (s.queues.any fun x => (qJob s x.1).toNat == j && x.2.inflight.any fun c => c.unacked) || jb.gens.any fun g => g.unacked

theorem unackedOf_of_queues {s u : State} (h : u.queues = s.queues) (j : Nat) : unackedOf u j = unackedIn s j (getJob u j) := by
  simp only [unackedOf, unackedIn, qJob, getQueue, h]

theorem endInvalidation_writes (s : State) : WritesEntry (fun u => tabWf {} u.jobs = true ∧ u.queues = s.queues) getJob id
    (fun j jb => { jb with invalidating := jb.invalidating && unackedIn s j jb }) endInvalidation where
  keeps u j h := by
    obtain ⟨wf, queues⟩ := h
    unfold endInvalidation
    split
    · exact ⟨wf, queues⟩
    · exact ⟨tabWf_tabSet wf _ _, queues⟩
  same u j h := by
    obtain ⟨wf, queues⟩ := h
    unfold endInvalidation
    rw [unackedOf_of_queues queues]
    split
    · next busy => rw [id, busy, Bool.and_true]
    · next done => rw [id, getJob_modJob_same _ _ _ wf, Bool.eq_false_iff.2 done, Bool.and_false]
  other u j k h := by
    unfold endInvalidation
    split
    · rfl
    · exact getJob_modJob_ne _ _ h

theorem dropPtrs_writes (s : State) : WritesEntry (fun u => tabWf resetHall u.halls = true) getHall id
    (fun _ hl => { hl with ptrs := keepPtrs s hl.ptrs }) (dropPtrs s) where
  keeps _ _ h := tabWf_tabSet h _ _
  same u _ h := getHall_modHall_same u _ _ h
  other u _ _ h := getHall_modHall_ne u _ h

theorem foldl_dropPtrs_changes {s u : State} {l : List Nat} : Changes [.halls] u (l.foldl (dropPtrs s) u) :=
  Changes.refl.foldl fun _ _ => modHall_changes fun _ h => h

theorem foldl_endInvalidation_changes {u : State} {l : List Nat} : Changes [.jobs] u (l.foldl endInvalidation u) :=
  Changes.refl.foldl fun _ _ => .ite_ (fun _ => .refl) fun _ => modJob_changes fun _ h => h

/-- The leaves that stay as a change of every listed value. -/
theorem dropLeafs_leafs (s : State) : (dropLeafs s).leafs = tabMap [] (fun _ => keepLeafs s) s.leafs := by
  unfold dropLeafs
  generalize s.leafs = t
  induction t with
  | nil => rfl
  | cons x r ih =>
    rw [tabMap_cons, ← ih]
    by_cases e : keepLeafs s x.2 = [] <;> simp [e]

/-- R324: a leaf stays cached where its job context is not under invalidation. -/
theorem mem_dropLeafs {s : State} (c : Canonical s) {p : Nat} {l : Leaf} : l ∈ tabGet [] (dropLeafs s).leafs p ↔
    l ∈ tabGet [] s.leafs p ∧ (getJob s l.job.val).invalidating = false := by
  rw [dropLeafs_leafs, tabGet_tabMap c.leafs _ _ rfl]
  simp [keepLeafs]

/-- R324, R326: by the walk over the job contexts, and at its end by the cached leaves, the walk over the two halls and that over the job contexts. -/
theorem invalidationDropsTheJobsLeafs : InvalidationDropsTheJobsLeafs := by
  refine ⟨fun v s c up => ?start, fun s c up => ?done⟩
  case start =>
    refine ⟨runXlateInv v s, rfl, runXlateInv_changes.eq_with_jobs, fun j => ?_⟩
    rw [runXlateInv_up up]
    by_cases hj : j < 16
    · rw [decide_eq_true hj, Bool.true_and]
      exact (startInvalidation_writes v).foldl_same Function.injective_id List.nodup_range c.jobs (List.mem_range.2 hj)
    · rw [decide_eq_false hj, Bool.false_and, Bool.or_false]
      exact (startInvalidation_writes v).foldl_other (fun i hi (e : j = i) => hj (e ▸ List.mem_range.1 hi)) s
  case done =>
    refine ⟨runXlateInvDone s, rfl, runXlateInvDone_changes.eq_with_jobs_leafs_halls, ?_⟩
    rw [runXlateInvDone_up up]
    have ptrs := foldl_dropPtrs_changes (s := s) (u := dropLeafs s) (l := [0, 1])
    refine ⟨fun j hj => ?jobs, fun p l => ?leafs, fun h => ?halls⟩
    case jobs =>
      have jobs : ([0, 1].foldl (dropPtrs s) (dropLeafs s)).jobs = s.jobs := ptrs.only .jobs rfl
      have queues : ([0, 1].foldl (dropPtrs s) (dropLeafs s)).queues = s.queues := ptrs.only .queues rfl
      rw [unackedOf_of_queues (s := s) rfl]
      have ended := (endInvalidation_writes s).foldl_same Function.injective_id List.nodup_range ⟨jobs ▸ c.jobs, queues⟩ (List.mem_range.2 hj)
      rwa [id, ptrs.getJob rfl] at ended
    case leafs =>
      rw [show ((List.range 16).foldl endInvalidation ([0, 1].foldl (dropPtrs s) (dropLeafs s))).leafs = (dropLeafs s).leafs from
        (foldl_endInvalidation_changes.only .leafs rfl).trans (ptrs.only .leafs rfl)]
      exact mem_dropLeafs c
    case halls =>
      rw [foldl_endInvalidation_changes.getHall rfl]
      split
      · next hh =>
        have hall : h ∈ [0, 1] := by simp; omega
        exact (dropPtrs_writes s).foldl_same (s := dropLeafs s) Function.injective_id (by decide : [0, 1].Nodup) c.halls hall
      · next hh =>
        have apart : ∀ i ∈ [0, 1], h ≠ id i := by simp; omega
        exact (dropPtrs_writes s).foldl_other apart (dropLeafs s)

/-- Settles O19, by the two tables of owners and the two ends of an invalidation. -/
theorem ownershipAndLeafsAreWritten : Obligations.OwnershipAndLeafsAreWritten :=
  ⟨ownershipTablesAreWritten, invalidationDropsTheJobsLeafs⟩

end Sys2Proof.Machine
end

section
/-! O59: the commands of the Carter. What a command moves reaches memory and its own position alone: each operation under it is shown to spare every
other position and every port, down to the count of a failed check, which falls at the position whose stop consumes the data. -/

namespace Sys2Proof.Machine

/-! ## What leaves the other positions and the ports -/

/-- A part that is the same need not be named. -/
theorem Changes.without {L : List Part} {s t : State} (h : Changes L s t) {q : Part} (same : q.same s t) : Changes (L.erase q) s t where
  pending := h.pending
  only p out := by
    by_cases e : p = q
    · exact e ▸ same
    · refine h.only p ?_
      simpa [List.mem_erase_of_ne e] using out
  canonical := h.canonical
  legal := h.legal

/-- From `s` to `t` every position but `p`, and every port, stays as it is. -/
structure SparesOthers (p : Nat) (s t : State) : Prop where
  positions : ∀ y, y ≠ p → getPos t y = getPos s y
  ports : t.ports = s.ports

namespace SparesOthers

variable {p : Nat} {s t u : State}

theorem refl : SparesOthers p s s := ⟨fun _ _ => rfl, rfl⟩

theorem trans (h : SparesOthers p s t) (k : SparesOthers p t u) : SparesOthers p s u :=
  ⟨fun y hy => (k.positions y hy).trans (h.positions y hy), k.ports.trans h.ports⟩

/-- What changes no position and no port spares them all. -/
theorem of_changes {L : List Part} (h : Changes L s t) (positions : L.contains .positions = false) (ports : L.contains .ports = false) :
    SparesOthers p s t := ⟨fun y _ => h.getPos positions y, h.only .ports ports⟩

theorem setPos (v : Position) : SparesOthers p s (Machine.setPos s p v) := ⟨fun _ hy => getPos_setPos_ne _ _ hy, rfl⟩

theorem modPos (f : Position → Position) : SparesOthers p s (Machine.modPos s p f) := setPos _

theorem takeFree : SparesOthers p s (Machine.takeFree s).2 := of_changes takeFree_changes rfl rfl

theorem raiseQuiet {h src : Nat} : SparesOthers p s (Machine.raiseQuiet s h src) := of_changes raiseQuiet_changes rfl rfl

/-- A fold that carries the state inside something else. -/
theorem foldl_in {α β : Type} {f : β → α → β} (π : β → State) {l : List α} {b : β} (h : SparesOthers p s (π b))
    (hf : ∀ b a, SparesOthers p (π b) (π (f b a))) : SparesOthers p s (π (l.foldl f b)) := by
  induction l generalizing b with
  | nil => exact h
  | cons a r ih => exact ih (h.trans (hf b a))

end SparesOthers

/-! ## The stop of a position (R36) -/

theorem posStop_lt_succ : ∀ p < 143, posStop p < posStop (p + 1) := by decide

theorem posStop_lt {p q : Nat} (lt : p < q) (hq : q < 144) : posStop p < posStop q := by
  induction q with
  | zero => omega
  | succ q ih =>
    have next := posStop_lt_succ q (by omega)
    rcases Nat.lt_succ_iff_lt_or_eq.1 lt with below | rfl
    · exact Nat.lt_trans (ih below (by omega)) next
    · exact next

/-- No two positions share a stop. -/
theorem find_posStop {p : Nat} (hp : p < 144) : ((List.range 144).find? fun q => posStop q == posStop p) = some p := by
  rw [List.find?_range_eq_some]
  refine ⟨beq_self_eq_true _, List.mem_range.2 hp, fun q hq => ?_⟩
  simpa only [bne_iff_ne, ne_eq, Bool.not_eq_true', beq_eq_false_iff_ne] using Nat.ne_of_lt (posStop_lt hq hp)

/-! ## The store of the position (R296, R297, R349) -/

section
variable {s : State} {p : Nat}

theorem storeByte_spares (off : Nat) : SparesOthers p s (storeByte s p off).st := by
  unfold storeByte
  dsimp only
  split
  · exact .refl
  · exact .refl
  · with_reducible exact (SparesOthers.setPos _).trans .raiseQuiet
  · with_reducible exact (SparesOthers.setPos _).trans (.of_changes raise_changes rfl rfl)

theorem storeRead_spares (off n : Nat) : SparesOthers p s (storeRead s p off n).st := by
  induction n generalizing s off with
  | zero => exact .refl
  | succ n ih => exact (storeByte_spares off).trans (ih (off + 1))

theorem storeWrite_spares (off : Nat) (bs : List (Byte × Bool)) : SparesOthers p s (storeWrite s p off bs) := .modPos _

theorem writeBlock_spares (blk : Nat) (bs : List (Byte × Bool)) : SparesOthers p s (writeBlock s p blk bs) := .modPos _

theorem recordValue_spares (blk : Nat) : SparesOthers p s (recordValue s p blk).2 := by
  unfold recordValue
  dsimp only
  split
  · exact .refl
  · split
    · exact .refl
    · split
      · split
        · with_reducible exact (SparesOthers.setPos _).trans .raiseQuiet
        · with_reducible exact .setPos _
      · split
        · with_reducible exact (SparesOthers.takeFree.trans (.setPos _)).trans .raiseQuiet
        · with_reducible exact SparesOthers.takeFree.trans (.setPos _)

theorem readBlockOf_spares (blk n : Nat) : SparesOthers p s (readBlockOf s p blk n).st := by
  unfold readBlockOf
  have first := (storeRead_spares (s := s) (4096 * blk) n).trans (recordValue_spares (p := p) blk)
  dsimp only
  split
  · exact first
  · split
    · exact first
    · have again := first.trans (storeRead_spares (4096 * blk) n)
      split
      · with_reducible exact again.trans (.modPos _)
      · with_reducible exact again.trans (.modPos _)

theorem readBlock_spares (blk : Nat) : SparesOthers p s (readBlock s p blk).st := by
  unfold readBlock
  with_reducible exact readBlockOf_spares _ _

end

/-! ## Device memory as the position reads and writes it (R294, R295, R297) -/

section
variable {s : State} {p : Nat} {c : Ctx} (hp : p < 144) (stop : c.stop = posStop p)
include hp

/-- R297: a failed check is counted at the position whose stop consumes the segment. -/
theorem countCrc_spares (hk : Nat) (failed : Bool) : SparesOthers p s (countCrc s (posStop p) hk failed) := by
  unfold countCrc
  rw [find_posStop hp]
  exact .modPos _

theorem checkSegment_spares (v : Vc) (l : List SegPart) : SparesOthers p s (checkSegment s v (posStop p) l).st := by
  unfold checkSegment
  dsimp only
  have resent := SparesOthers.of_changes (p := p) (resendParts_changes (s := s) (v := v) (dst := posStop p) (l := l)) rfl rfl
  split
  · exact .refl
  · split
    · exact resent.trans (countCrc_spares hp _ _)
    · exact resent.trans (countCrc_spares hp _ _)

include stop

theorem segmentRead_spares (r : Sys2Proof.Reader) (va len : Nat) : SparesOthers p s (segmentRead s c r va len).st := by
  unfold segmentRead
  rw [stop]
  exact (SparesOthers.of_changes vaReadFrom_changes rfl rfl).trans (checkSegment_spares hp _ _)

theorem segmentsRead_spares (r : Sys2Proof.Reader) (n va len : Nat) : SparesOthers p s (segmentsRead s c r n va len).st := by
  induction n generalizing s va len with
  | zero => exact .refl
  | succ n ih =>
    unfold segmentsRead
    dsimp only
    split
    · exact .refl
    · have first := segmentRead_spares (s := s) hp stop r va (min len (4096 - va % 4096))
      split
      · exact first
      · exact first.trans (ih _ _)

theorem vaRead_spares (va len : Nat) (r : Sys2Proof.Reader) : SparesOthers p s (vaRead s c va len r).st := by
  unfold vaRead
  split
  · exact segmentsRead_spares hp stop r _ va len
  · exact .of_changes vaReadFrom_changes rfl rfl

end

/-- R332: a run of the Carter is written as it is, with no line read for it. -/
theorem writeRequest_carter (s : State) (c : Ctx) (pa : Nat) (bs : List (Byte × Bool)) :
    writeRequest s c .carter pa bs = hubWrite s c.stop .carter pa bs (some c.job) := if_pos (Or.inl rfl)

theorem vaWriteFrom_carter_spares {s : State} {p : Nat} (c : Ctx) (n va : Nat) (data : List (Byte × Bool)) :
    SparesOthers p s (vaWriteFrom s c .carter n va data).st := by
  induction n generalizing s va data with
  | zero => exact .refl
  | succ n ih =>
    unfold vaWriteFrom
    split
    · exact .refl
    · have translated := SparesOthers.of_changes (p := p) (xlate_changes (s := s) (c := c) (va := va) (write := true)) rfl rfl
      dsimp only
      split
      · exact translated
      · rw [writeRequest_carter]
        exact (translated.trans (.of_changes hubWrite_changes rfl rfl)).trans (ih _ _)

/-! ## One access of a move (R294, R296, R314, R325) -/

/-- The Carter of a position: it reaches the mesh at the position's stop. -/
structure Cart.Stands (w : Cart) : Prop where
  pos : w.p < 144
  stop : w.ctx.stop = posStop w.p

section
variable {s : State} {w : Cart}

theorem readAccess_spares (stands : w.Stands) (x : CDesc) (lo len : Nat) : SparesOthers w.p s (readAccess s w x lo len).st := by
  unfold readAccess
  split
  · split
    · -- The read is named, so that the kernel does not run its 4,096 steps.
      have block := readBlock_spares (s := s) (p := w.p) (lo / 4096)
      obtain ⟨r, read⟩ : ∃ r, r = readBlock s w.p (lo / 4096) := ⟨_, rfl⟩
      rw [← read] at block ⊢
      exact block
    · exact storeRead_spares _ _
  · dsimp only
    with_reducible exact (vaRead_spares stands.pos stands.stop _ _ _).trans (.modPos _)

theorem flipBuffer_spares (p lo es : Nat) (bytes : List (Byte × Bool)) : SparesOthers p s (flipBuffer s p lo es bytes).st := by
  unfold flipBuffer
  dsimp only
  split
  · exact .refl
  · have drawn : SparesOthers p s (if (getPos s p).ctrFlip.bits ≤ 2 then (0, s) else takeFree s).2 := by
      split
      · exact .refl
      · exact .takeFree
    split
    · with_reducible exact drawn.trans (.modPos _)
    · with_reducible exact ((drawn.trans (.modPos _)).trans (.modPos _)).trans .raiseQuiet
    · with_reducible exact ((drawn.trans (.modPos _)).trans (.modPos _)).trans (.of_changes raiseEngineUe_changes rfl rfl)

theorem readStep_spares (stands : w.Stands) (x : CDesc) (a : Source) (l : List (Nat × Nat)) : SparesOthers w.p a.st (readStep w x a l).st := by
  unfold readStep
  split
  · exact .refl
  · have got := readAccess_spares (s := a.st) stands x (accessLow l) (l.length * x.es)
    dsimp only
    split
    · exact got
    · with_reducible exact (got.trans (flipBuffer_spares ..)).trans (.modPos _)

theorem writeAccess_spares (x : CDesc) (lo : Nat) (bs : List (Byte × Bool)) (whole : Bool) :
    SparesOthers w.p s (writeAccess s w x lo bs whole).st := by
  unfold writeAccess vaWrite
  dsimp only
  split
  · split
    · exact writeBlock_spares _ _
    · exact storeWrite_spares _ _
  · with_reducible exact (vaWriteFrom_carter_spares ..).trans (.modPos _)

theorem countWrong_spares (hop lo : Nat) : SparesOthers w.p s (countWrong s w hop lo) := by
  unfold countWrong
  split
  · split
    · exact .of_changes (modHub_changes fun _ h => h) rfl rfl
    · exact .refl
  · exact .modPos _

/-- An access issued from a state that has spared the others, its wrong words counted first (R297). -/
theorem issued_spares {t : State} (h : SparesOthers w.p s t) {wrong : Bool} {hop lo : Nat} (x : CDesc) (bs : List (Byte × Bool)) (whole : Bool) :
    SparesOthers w.p s (writeAccess (if wrong then countWrong t w hop lo else t) w x lo bs whole).st := by
  split
  · exact (h.trans (countWrong_spares _ _)).trans (writeAccess_spares ..)
  · exact h.trans (writeAccess_spares ..)

theorem writeStep_spares (x : CDesc) (path : CPath) (item : Nat → CElem) (rank from' : Nat → Nat) (a : Dest) (l : List (Nat × Nat)) :
    SparesOthers w.p a.st (writeStep w x path item rank from' a l).st := by
  unfold writeStep
  dsimp only
  cases fault : a.fault with
  | none =>
    rw [if_neg (by simp)]
    split
    · with_reducible exact issued_spares .refl ..
    · with_reducible exact issued_spares .refl ..
  | some f =>
    dsimp only
    split
    · exact .takeFree
    · split
      · with_reducible exact issued_spares .takeFree ..
      · with_reducible exact issued_spares .takeFree ..

end

/-! ## A whole move (R309, R310, R320) -/

theorem readSource_spares {w : Cart} (stands : w.Stands) (s : State) (x : CDesc) (path : CPath) (order : List Nat) :
    SparesOthers w.p s (readSource s w x path order).st := by
  unfold readSource
  with_reducible exact .foldl_in Source.st .refl (readStep_spares stands x)

/-- A move spares every position but its own and every port. -/
theorem carterMove_spares {w : Cart} (stands : w.Stands) (s : State) (op : Nat) (cmd : BitVec 512) (blk : BitVec 1024) :
    SparesOthers w.p s (carterMove s w op cmd blk).st := by
  unfold carterMove
  split
  · dsimp only
    split
    · exact .refl
    · with_reducible refine .trans (.foldl_in Dest.st ?_ fun _ _ => writeStep_spares ..) (.modPos _)
      with_reducible exact .refl
  · dsimp only
    split
    · exact .refl
    · with_reducible refine .trans (.foldl_in Dest.st ?_ fun _ _ => writeStep_spares ..) (.modPos _)
      with_reducible exact (readSource_spares stands ..).trans (.of_changes aliasElems_changes rfl rfl)

/-- A plain copy onto itself moves nothing (R310). -/
theorem carterMove_onItself {s : State} {w : Cart} {op : Nat} {cmd : BitVec 512} {blk : BitVec 1024}
    (plain : plainCopy op (srcDesc blk) (dstDesc blk) = true) (meet : extentsMeet (srcDesc blk) (dstDesc blk) = true)
    (same : (srcDesc blk).base = (dstDesc blk).base) :
    carterMove s w op cmd blk = { st := s, fault := none, bytes := 0, lines := 0 } := by
  unfold carterMove
  exact if_pos (by simp [plain, meet, same])

/-- What changes only what a move may reach is the state with those parts replaced. -/
theorem Changes.eq_with_moved {s t : State} (h : Changes [.free, .positions, .halls, .hubs, .mem, .memErr, .outputs, .promotes, .series,
    .meshFault, .resent, .leafs] s t) : t = { s with
      positions := t.positions, halls := t.halls, hubs := t.hubs, mem := t.mem, memErr := t.memErr, leafs := t.leafs, series := t.series,
      meshFault := t.meshFault, resent := t.resent, outputs := t.outputs, promotes := t.promotes, free := t.free } :=
  h.eq_with rfl fun p => by cases p <;> rfl

/-! ## The command (R309 to R320, R369) -/

/-- The Carter of core `n` at position `p`, for the command of number `seq` in its queue. -/
def cartOf (s : State) (n p : Nat) (seq : W32) : Cart := { k := 4 * n + 3, p := p, ctx := qCtx s (4 * n + 3), seq := seq }

theorem cartOf_stands {s : State} {n : Core} {p : Nat} (seq : W32) (hp : corePos s n = some p) : (cartOf s n p seq).Stands where
  pos := by
    unfold corePos at hp
    split at hp
    · have := n.isLt
      cases hp
      show 72 * (n.val / 64) + _ < 144
      omega
    · cases hp
  stop := by
    have core : qCore (4 * n.val + 3) = some n.val := by
      have := n.isLt
      rw [qCore, if_pos (by omega)]
      congr 1
      omega
    simp only [cartOf, qCtx, queueStop, core, hp]

section
variable {s : State} {op n p : Nat} {c : InFlight} (head : headOp s (4 * n + 3) op = some c) (pos : corePos s n = some p)
include head pos

theorem runCarter_fault {f : CFault} (fault : (carterMove s (cartOf s n p c.seq) op c.cmd c.desc).fault = some f) :
    runCarter op n s = endCarter (carterMove s (cartOf s n p c.seq) op c.cmd c.desc).st (cartOf s n p c.seq) c f := by
  unfold cartOf at fault ⊢
  unfold runCarter
  simp only [head, pos, fault]

theorem runCarter_unacked (fault : (carterMove s (cartOf s n p c.seq) op c.cmd c.desc).fault = none)
    (acked : (carterMove s (cartOf s n p c.seq) op c.cmd c.desc).acked = false) :
    runCarter op n s = markUnacked (carterMove s (cartOf s n p c.seq) op c.cmd c.desc).st (4 * n + 3) := by
  unfold cartOf at fault acked ⊢
  unfold runCarter
  simp only [head, pos, fault, acked, Bool.not_false, if_true]

theorem runCarter_done (fault : (carterMove s (cartOf s n p c.seq) op c.cmd c.desc).fault = none)
    (acked : (carterMove s (cartOf s n p c.seq) op c.cmd c.desc).acked = true) :
    let m := carterMove s (cartOf s n p c.seq) op c.cmd c.desc
    let bolts := (m.bytes + 2047) / 2048
    runCarter op n s = completeDone m.st (4 * n + 3) c ({ poisonCopied := decide (0 < m.lines) : RecFlags }).toNat
      [bolts % 65536, bolts / 65536 % 65536, recCount m.lines, 0] := by
  unfold cartOf at fault acked ⊢
  unfold runCarter
  simp only [head, pos, fault, acked, Bool.not_true, Bool.false_eq_true, if_false]

end

theorem exec_carter {n : Core} {x : Nat × Instr} (hx : x ∈ [(0xA0, .ctrCopy n), (0xA1, .ctrFill n), (0xA2, .ctrPermute n)]) (s : State) :
    exec x.2 s = .next (runCarter x.1 n s) := by
  simp only [List.mem_cons, List.not_mem_nil, or_false] at hx
  rcases hx with rfl | rfl | rfl
  · rfl
  · rfl
  · rfl

/-- Settles O59, by how a command ends and by what its move spares. -/
theorem carterCommandsRun : Obligations.CarterCommandsRun := by
  intro n s c p _ pos k w x hx head m bolts
  have stands := cartOf_stands c.seq pos
  have spares : SparesOthers p s m.st := carterMove_spares stands s x.1 c.cmd c.desc
  rw [exec_carter hx]
  refine ⟨fun fault acked => ?_, fun fault acked => ?_, fun f fault => ?_, ?_, spares.positions, fun plain meet same => ?_⟩
  · exact congrArg _ (runCarter_unacked head pos fault acked)
  · exact congrArg _ (runCarter_done head pos fault acked)
  · exact congrArg _ (runCarter_fault head pos fault)
  · exact (carterMove_changes.without (q := .ports) spares.ports).eq_with_moved
  · have still : m = _ := carterMove_onItself plain meet same
    rw [still]
    exact ⟨rfl, rfl, rfl⟩

end Sys2Proof.Machine
end

section
/-! O2, O3, O4, O6: the machine as a whole. What holds of every command is said by `exec_changes` and by what each command may come to; what a step on an
empty queue does follows from the turn that each port has in it. -/

namespace Sys2Proof.Machine

/-! ## The canonical form (O4) and the invariants at reset (O6) -/

/-- The form of the tables does not depend on the commands that wait. -/
theorem Canonical.withPending {s : State} (h : Canonical s) (l : List Instr) : Canonical { s with pending := l } := { h with mem := h.mem }

/-- Settles O4. On an empty queue only time, ports and free values change (`idleStep_changes`); otherwise the front command runs with the rest of the
queue, and `exec_changes` holds of it. -/
theorem stepKeepsCanonicalTables : Obligations.StepKeepsCanonicalTables := by
  intro s t h hstep
  unfold step at hstep
  split at hstep
  · cases hstep
    exact idleStep_changes.canonical h
  · next c rest _ =>
    obtain ⟨_, hc⟩ := exec_changes c t hstep
    exact hc.canonical (h.withPending rest)

theorem resetIsCanonical : ResetIsCanonical := canonical_of_test (by decide +kernel)

/-- At reset only the logical cores and the positions are listed, and of these the positions alone have a legal form to keep. -/
theorem resetIsLegal : ResetIsLegal where
  rate := Nat.le_refl _
  miller := by unfold MillerLegal; decide
  halls _ h := absurd h List.not_mem_nil
  queues _ h := absurd h List.not_mem_nil
  ports _ h := absurd h List.not_mem_nil
  hubs _ h := absurd h List.not_mem_nil
  positions := resetPositions_legal
  jobs _ h := absurd h List.not_mem_nil

/-- Settles O6, by the test of the tables and by the parts of the reset state. -/
theorem resetMeetsTheInvariants : Obligations.ResetMeetsTheInvariants := ⟨resetIsCanonical, resetIsLegal⟩

/-! ## What stops (O2) -/

/-- A request to the hubs (R328, R332). -/
def isHubRequest : Instr → Bool
  | .hubReadRequest .. | .hubWriteRequest .. => true
  | _ => false

/-- Every command but the two requests to the hubs has a next state. -/
theorem exec_next {c : Instr} (h : isHubRequest c = false) (s : State) : ∃ t, exec c s = .next t := by
  cases c
  case hubReadRequest => cases h
  case hubWriteRequest => cases h
  all_goals exact ⟨_, rfl⟩

/-- What a request to the hubs may come to: a next state, or the fault of an address that no hub has. -/
theorem request_outcome {s t : State} {pa n : Nat} {o : Host.Outcome State Fault Refusal}
    (h : o = if !dieUp s then .next s else if requestOk s pa n then .next t else .fault (.noSuchAddress pa)) :
    (∃ u, o = .next u) ∨ (o = .fault (.noSuchAddress pa) ∧ requestOk s pa n = false) := by
  subst h
  split
  · exact Or.inl ⟨_, rfl⟩
  · split
    · exact Or.inl ⟨_, rfl⟩
    · next bad => exact Or.inr ⟨rfl, Bool.eq_false_iff.2 bad⟩

/-- What every command may come to. -/
theorem exec_outcome (c : Instr) (s : State) : (∃ t, exec c s = .next t) ∨ ∃ pa n, exec c s = .fault (.noSuchAddress pa) ∧
    requestOk s pa n = false ∧
      ((∃ a job, c = .hubReadRequest pa n a job) ∨ ∃ data a job, c = .hubWriteRequest pa data a job ∧ data.length = n) := by
  cases h : isHubRequest c with
  | false => exact Or.inl (exec_next h s)
  | true =>
    cases c
    case hubReadRequest pa n a job =>
      exact (request_outcome (n := n) rfl).imp_right fun ⟨fault, bad⟩ => ⟨pa, n, fault, bad, Or.inl ⟨a, job, rfl⟩⟩
    case hubWriteRequest pa data a job =>
      exact (request_outcome (n := data.length) rfl).imp_right fun ⟨fault, bad⟩ =>
        ⟨pa, _, fault, bad, Or.inr ⟨data, a, job, rfl, rfl⟩⟩
    all_goals cases h

/-- Settles O2, by what every command may come to. -/
theorem onlyAbsentAddressesStop : Obligations.OnlyAbsentAddressesStop := by
  refine ⟨fun c s r refused => ?_, fun c s f faulted => ?_⟩
  · rcases exec_outcome c s with ⟨_, next⟩ | ⟨_, _, fault, -⟩
    · rw [refused] at next
      cases next
    · rw [refused] at fault
      cases fault
  · rcases exec_outcome c s with ⟨_, next⟩ | ⟨pa, n, fault, bad, request⟩
    · rw [faulted] at next
      cases next
    · rw [faulted] at fault
      cases fault
      exact ⟨pa, n, rfl, bad, request⟩

/-! ## An empty queue (R378, R380) -/

/-- A codeword that is a control codeword (R381). -/
def IsControlSent (w : SentWord) : Prop := ∃ c x, w = .control c x

/-- What a port last sent, how many slots it has, and its codeword time. -/
def slotsOf (p : PortState) : List SentWord × Nat × Nat := (p.sent, p.active, p.round)

theorem sendOne_slots {p q : PortState} (h : sendOne p = some q) : slotsOf q = slotsOf p := by
  unfold sendOne at h
  split at h
  · cases h
  · split at h
    · cases h
    · split at h
      · cases h
      · split at h
        · cases h
        · cases h
          rfl

theorem fillLine_slots (n : Nat) (p : PortState) : slotsOf (fillLine n p) = slotsOf p := by
  induction n generalizing p with
  | zero => rfl
  | succ n ih =>
    unfold fillLine
    split
    · rfl
    · split
      · rfl
      · next sent => exact (ih _).trans (sendOne_slots sent)

theorem rollSecond_slots (p : PortState) (n : Nat) : slotsOf (rollSecond p n) = slotsOf p := by
  unfold rollSecond
  split <;> rfl

/-- What a port sends after a change `f` of it, where `f` keeps its slots but for one more codeword. -/
theorem slotsOf_modPort {s u : State} {k : Nat} {f : PortState → PortState} {w : SentWord} (wf : tabWf {} u.ports = true)
    (port : slotsOf (getPort u k) = slotsOf (getPort s k)) (f_slots : ∀ p, slotsOf (f p) = (p.sent ++ [w], p.active, p.round)) :
    slotsOf (getPort (modPort u k f) k) = ((getPort s k).sent ++ [w], (getPort s k).active, (getPort s k).round) := by
  obtain ⟨sent, rest⟩ := Prod.mk.inj port
  obtain ⟨active, round⟩ := Prod.mk.inj rest
  rw [getPort_modPort_same _ _ _ wf, f_slots, sent, active, round]

/-- R380, R381, R489: an active slot sends one codeword, a control codeword in its turn of a module with an address. -/
theorem sendSlot_sends {s : State} (c : Canonical s) (k i : Nat) : ∃ w,
    slotsOf (getPort (sendSlot s k i) k) = ((getPort s k).sent ++ [w], (getPort s k).active, (getPort s k).round) ∧
    (IsControlSent w ↔ isControlWord (getPort s k).round i = true ∧ s.chain.lfa ≠ none) := by
  unfold sendSlot
  dsimp only
  split
  · next turn =>
    split
    · next noLfa => exact ⟨_, slotsOf_modPort c.ports rfl fun _ => rfl, by simp [IsControlSent, noLfa]⟩
    · next lfa => exact ⟨_, slotsOf_modPort c.ports rfl fun _ => rfl, by simp [IsControlSent, lfa, turn]⟩
  · next noTurn =>
    refine ⟨_, slotsOf_modPort ?wf ?port fun _ => rfl, ?kind⟩
    case wf => exact (lineWord_changes.canonical (modPort_changes (fun _ => fillLine_legal) |>.canonical c)).ports
    case port =>
      unfold lineWord
      dsimp only
      rw [getPort_modPort_same _ _ _ (tabWf_tabSet c.ports _ _)]
      change slotsOf (getPort (modPort s k _) k) = _
      rw [getPort_modPort_same _ _ _ c.ports, fillLine_slots]
    case kind =>
      refine iff_of_false ?_ fun h => noTurn h.1
      rintro ⟨_, _, e⟩
      split at e <;> cases e

theorem getPort_sendSlot_ne (s : State) {k y : Nat} (i : Nat) (h : y ≠ k) : getPort (sendSlot s k i) y = getPort s y := by
  unfold sendSlot
  dsimp only
  split
  · split <;> exact getPort_modPort_ne _ _ h
  · refine (getPort_modPort_ne _ _ h).trans ?_
    unfold lineWord
    exact (getPort_modPort_ne _ _ h).trans (getPort_modPort_ne s _ h)

/-- R380: the codewords that the first `n` active slots of a port send, in the order of the slots. -/
theorem foldl_sendSlot_sends {s : State} (c : Canonical s) (k n : Nat) : ∃ ws : List SentWord,
    slotsOf (getPort ((List.range n).foldl (sendSlot · k ·) s) k) = ((getPort s k).sent ++ ws, (getPort s k).active, (getPort s k).round) ∧
    ws.length = n ∧ ∀ i w, ws[i]? = some w →
      (IsControlSent w ↔ isControlWord (getPort s k).round i = true ∧ s.chain.lfa ≠ none) := by
  induction n with
  | zero => exact ⟨[], by simp [slotsOf], rfl, by simp⟩
  | succ n ih =>
    obtain ⟨ws, slots, length, kinds⟩ := ih
    obtain ⟨sent, rest⟩ := Prod.mk.inj slots
    obtain ⟨active, round⟩ := Prod.mk.inj rest
    have changes : Changes [.free, .ports] s ((List.range n).foldl (sendSlot · k ·) s) := Changes.refl.foldl fun _ _ => sendSlot_changes
    obtain ⟨w, one, kind⟩ := sendSlot_sends (changes.canonical c) k n
    rw [sent, active, round] at one
    rw [round, show _ = s.chain from changes.only .chain rfl] at kind
    refine ⟨ws ++ [w], by rw [List.range_succ, List.foldl_append, List.foldl_cons, List.foldl_nil, one, List.append_assoc],
      by rw [List.length_append, length]; rfl, fun i x at_i => ?_⟩
    rcases Nat.lt_or_ge i ws.length with earlier | later
    · exact kinds i x (by rwa [List.getElem?_append_left earlier] at at_i)
    · rw [List.getElem?_append_right later] at at_i
      obtain ⟨here, rfl⟩ : i - ws.length = 0 ∧ w = x := by simpa [List.getElem?_singleton] using at_i
      rwa [show i = n by omega]

/-- R380: a codeword time of a port that is up: one codeword on each active slot. -/
theorem sendRound_sends {s : State} (c : Canonical s) {k : Nat} (up : (getPort s k).up = true) (die : dieUp s = true) :
    ∃ ws : List SentWord,
      slotsOf (getPort (sendRound s k) k) = (ws, (getPort s k).active, ((getPort s k).round + 1) % 16) ∧
      ws.length = (getPort s k).active ∧ ∀ i w, ws[i]? = some w →
        (IsControlSent w ↔ isControlWord (getPort s k).round i = true ∧ s.chain.lfa ≠ none) := by
  unfold sendRound
  rw [if_neg (by simp [up, die])]
  dsimp only
  generalize opened : modPort s k _ = u
  have canU : Canonical u := opened ▸ { c with ports := tabWf_tabSet c.ports _ _ }
  have slotsU : slotsOf (getPort u k) = ([], (getPort s k).active, (getPort s k).round) := by
    rw [← opened, getPort_modPort_same _ _ _ c.ports]
    have rolled := rollSecond_slots (getPort s k) (secondOf s (k / 6))
    obtain ⟨-, rest⟩ := Prod.mk.inj rolled
    obtain ⟨active, round⟩ := Prod.mk.inj rest
    simp only [slotsOf, countBoth, active, round]
  obtain ⟨ws, slots, length, kinds⟩ := foldl_sendSlot_sends canU k (getPort s k).active
  obtain ⟨sentU, restU⟩ := Prod.mk.inj slotsU
  obtain ⟨activeU, roundU⟩ := Prod.mk.inj restU
  rw [sentU, activeU, roundU, List.nil_append] at slots
  obtain ⟨sent, rest⟩ := Prod.mk.inj slots
  obtain ⟨active, round⟩ := Prod.mk.inj rest
  have changes : Changes [.free, .ports] u ((List.range (getPort s k).active).foldl (sendSlot · k ·) u) :=
    Changes.refl.foldl fun _ _ => sendSlot_changes
  refine ⟨ws, ?_, length, fun i w h => ?_⟩
  · rw [getPort_modPort_same _ _ _ (changes.canonical canU).ports]
    simp only [slotsOf, sent, active, round]
  · have kind := kinds i w h
    rwa [roundU, show u.chain = s.chain by rw [← opened]; rfl] at kind

theorem getPort_sendRound_ne (s : State) {k y : Nat} (h : y ≠ k) : getPort (sendRound s k) y = getPort s y := by
  unfold sendRound
  dsimp only
  split
  · rfl
  · rw [getPort_modPort_ne _ _ h]
    exact List.foldlRecOn (motive := fun u => getPort u y = getPort s y) _ _ (getPort_modPort_ne _ _ h) fun u hu i _ =>
      (getPort_sendSlot_ne u i h).trans hu

theorem sendRound_idle {s : State} {k : Nat} (h : (getPort s k).up = false ∨ dieUp s = false) : sendRound s k = s :=
  if_pos (by simpa using h)

/-- The codeword time of port `k`, where its hall's time base is at one. -/
def portTurn (t : State) (k : Nat) : State := if (now t (k / 6)).toNat % 12 < 4 then sendRound t k else t

theorem idleStep_eq (s : State) : idleStep s = (List.range 12).foldl portTurn (tick s) := rfl

theorem portTurn_changes {s : State} {k : Nat} : Changes [.free, .ports] s (portTurn s k) := .ite_ (fun _ => sendRound_changes) fun _ => .refl

theorem getPort_portTurn_ne (s : State) {k y : Nat} (h : y ≠ k) : getPort (portTurn s k) y = getPort s y := by
  unfold portTurn
  split
  · exact getPort_sendRound_ne s h
  · rfl

/-- From `s` to `t` the ports have their turns: the time bases stand, and the tables keep their form. -/
theorem foldl_portTurn_changes {s : State} (l : List Nat) : Changes [.free, .ports] s (l.foldl portTurn s) :=
  Changes.refl.foldl fun _ _ => portTurn_changes

theorem getPort_foldl_portTurn {l : List Nat} {k : Nat} (h : k ∉ l) (s : State) : getPort (l.foldl portTurn s) k = getPort s k :=
  List.foldlRecOn (motive := fun u => getPort u k = getPort s k) _ _ rfl fun u hu i hi =>
    (getPort_portTurn_ne u fun (e : k = i) => h (e ▸ hi)).trans hu

/-- What port `k` is after the turns of all: what its own turn, after those before it, makes of it. -/
theorem getPort_foldl_range_portTurn (s : State) {k n : Nat} (h : k < n) :
    getPort ((List.range n).foldl portTurn s) k = getPort (portTurn ((List.range k).foldl portTurn s) k) k := by
  obtain ⟨m, rfl⟩ : ∃ m, n = k + 1 + m := ⟨n - (k + 1), by omega⟩
  rw [List.range_add, List.foldl_append, List.range_succ, List.foldl_append]
  refine getPort_foldl_portTurn (fun hk => ?_) _
  obtain ⟨x, -, e⟩ := List.mem_map.1 hk
  omega

theorem portTurn_idle {u : State} {k : Nat} (h : (getPort u k).up = false ∨ dieUp u = false ∨ 4 ≤ (now u (k / 6)).toNat % 12) :
    portTurn u k = u := by
  unfold portTurn
  split
  · refine sendRound_idle ?_
    rcases h with down | off | late
    · exact Or.inl down
    · exact Or.inr off
    · omega
  · rfl

/-- The state in which port `k` has its turn on an empty queue. -/
def turnsBefore (s : State) (k : Nat) : State := (List.range k).foldl portTurn (tick s)

theorem turnsBefore_changes (s : State) (k : Nat) : Changes [.free, .time, .time1, .ports] s (turnsBefore s k) :=
  (tick_changes.mono (by decide)).next (foldl_portTurn_changes _) (by decide)

theorem getPort_turnsBefore (s : State) (k : Nat) : getPort (turnsBefore s k) k = getPort s k :=
  getPort_foldl_portTurn (by simp) (tick s)

theorem dieUp_turnsBefore (s : State) (k : Nat) : dieUp (turnsBefore s k) = dieUp s := by
  have changes := turnsBefore_changes s k
  unfold dieUp
  rw [show _ = s.power from changes.only .power rfl, show _ = s.started from changes.only .started rfl]

theorem getPort_idleStep (s : State) {k : Nat} (h : k < 12) : getPort (idleStep s) k = getPort (portTurn (turnsBefore s k) k) k :=
  getPort_foldl_range_portTurn _ h

theorem now_turnsBefore (s : State) (k h : Nat) : now (turnsBefore s k) h = now (tick s) h :=
  (foldl_portTurn_changes (List.range k)).now rfl rfl h

theorem now_idleStep (s : State) (h : Nat) : now (idleStep s) h = now (tick s) h := now_turnsBefore s 12 h

theorem now_tick (s : State) {h : Nat} (lt : h < 2) : now (tick s) h = clockStep s h := by
  obtain rfl | rfl : h = 0 ∨ h = 1 := by omega
  · rfl
  · rfl

/-- R380: on an empty queue a port that is up sends, at its codeword time, one codeword on each active slot. -/
theorem idleStep_sends {s : State} (c : Canonical s) {k : Nat} (lt : k < 12) (up : (getPort s k).up = true) (die : dieUp s = true)
    (turn : (now (idleStep s) (k / 6)).toNat % 12 < 4) : ∃ ws : List SentWord,
      slotsOf (getPort (idleStep s) k) = (ws, (getPort s k).active, ((getPort s k).round + 1) % 16) ∧
      ws.length = (getPort s k).active ∧ ∀ i w, ws[i]? = some w →
        (IsControlSent w ↔ isControlWord (getPort s k).round i = true ∧ s.chain.lfa ≠ none) := by
  have port := getPort_turnsBefore s k
  have sends := sendRound_sends ((turnsBefore_changes s k).canonical c) (k := k) (by rw [port, up]) (by rw [dieUp_turnsBefore, die])
  have turned : portTurn (turnsBefore s k) k = sendRound (turnsBefore s k) k := if_pos (by rwa [now_turnsBefore, ← now_idleStep])
  rwa [port, ← turned, ← getPort_idleStep s lt, show _ = s.chain from (turnsBefore_changes s k).only .chain rfl] at sends

/-- R378, R380, by whether the port has a turn. -/
theorem emptyQueueLetsTimePass : EmptyQueueLetsTimePass := by
  intro s c empty
  refine ⟨idleStep s, by unfold step; rw [empty], ?frame, fun h lt => ?time, fun k still => ?still, fun k lt up die turn => ?sends⟩
  case frame => exact idleStep_changes.eq_with rfl fun p => by cases p <;> rfl
  case time =>
    rw [now_idleStep, now_tick s lt]
    rfl
  case still =>
    rcases still with ge | still
    · exact getPort_foldl_portTurn (by simpa using ge) (tick s)
    · rcases Nat.lt_or_ge k 12 with lt | ge
      · rw [getPort_idleStep s lt, portTurn_idle, getPort_turnsBefore]
        rwa [getPort_turnsBefore, dieUp_turnsBefore, now_turnsBefore, ← now_idleStep]
      · exact getPort_foldl_portTurn (by simpa using ge) (tick s)
  case sends =>
    obtain ⟨ws, slots, length, kinds⟩ := idleStep_sends c lt up die turn
    obtain ⟨sent, rest⟩ := Prod.mk.inj slots
    obtain ⟨-, round⟩ := Prod.mk.inj rest
    simp only [sent, round, List.head?_drop]
    refine ⟨length, trivial, fun lfa i active => ?_, fun noLfa i c w at_i => ?_⟩
    · obtain ⟨w, at_i⟩ : ∃ w, ws[i]? = some w := ⟨_, List.getElem?_eq_getElem (length.symm ▸ active)⟩
      have kind := kinds i w at_i
      simp only [IsControlSent, lfa, ne_eq, not_false_eq_true, and_true] at kind
      simp only [at_i, ← kind, Option.some.injEq]
    · exact ((kinds i _ at_i).1 ⟨c, w, rfl⟩).2 noLfa

theorem commandsLeaveTheWaitingQueue : CommandsLeaveTheWaitingQueue := by
  intro c s t next
  obtain ⟨_, changes⟩ := exec_changes c t next
  exact changes.pending

/-- Settles O3, by the step on an empty queue and by what every command leaves. -/
theorem queueIsReadByStepsAlone : Obligations.QueueIsReadByStepsAlone := ⟨emptyQueueLetsTimePass, commandsLeaveTheWaitingQueue⟩

end Sys2Proof.Machine
end

section
/-! O38: the quiet mesh, and the bytes of a whole pair written over it. -/

namespace Sys2Proof.Machine

/-! ## A quiet mesh (R353, R368, R372) -/

/-- From `s` to `t` packets have passed a quiet mesh: only its counts and its numbering move. -/
structure MeshCounted (s t : State) : Prop where
  changes : Changes [.halls, .series, .outputs, .promotes] s t
  halls : ∀ h, { getHall t h with meshDetour := 0 } = { getHall s h with meshDetour := 0 }

namespace MeshCounted

variable {s t u : State}

theorem refl : MeshCounted s s := ⟨.refl, fun _ => rfl⟩

theorem trans (h : MeshCounted s t) (k : MeshCounted t u) : MeshCounted s u :=
  ⟨h.changes.next k.changes (by decide), fun x => (k.halls x).trans (h.halls x)⟩

/-- A field of a hall that is no count of detours stands. -/
theorem hall_field {α : Type} (h : MeshCounted s t) (x : Nat) {f : HallState → α} (other : ∀ hl, f { hl with meshDetour := 0 } = f hl) :
    f (getHall t x) = f (getHall s x) := by
  rw [← other (getHall t x), h.halls x, other]

/-- The mesh stays quiet. -/
theorem quiet (h : MeshCounted s t) (q : QuietMesh s) : QuietMesh t where
  fault := (h.changes.only .meshFault rfl).trans q.fault
  resent := (h.changes.only .resent rfl).trans q.resent
  flips x := by
    rw [h.hall_field x (f := HallState.meshFlip) fun _ => rfl, h.hall_field x (f := HallState.seamFlip) fun _ => rfl]
    exact q.flips x
  wires x n := by
    unfold getSeam
    rw [h.hall_field x (f := HallState.seam) fun _ => rfl]
    exact q.wires x n

/-- A hall counts one more detour. -/
theorem countDetour (c : Canonical s) (x : Nat) : MeshCounted s (modHall s x fun hl => { hl with meshDetour := hl.meshDetour + 1 }) where
  changes := Changes.mono (modHall_changes fun _ h => h) (by decide)
  halls h := by
    by_cases e : h = x
    · rw [e, getHall_modHall_same _ _ _ c.halls]
    · rw [getHall_modHall_ne _ _ e]

theorem countDetours (c : Canonical s) (l : List Nat) :
    MeshCounted s (l.foldl (fun s h => modHall s h fun hl => { hl with meshDetour := hl.meshDetour + 1 }) s) :=
  List.foldlRecOn (motive := MeshCounted s) _ _ refl fun _ h x _ => h.trans (countDetour (h.changes.canonical c) x)

theorem travel (c : Canonical s) (v : Vc) (w : Way) : MeshCounted s (travel s v w) := by
  have detours := countDetours c w.detours.eraseDups
  unfold Machine.travel
  dsimp only
  split
  · exact detours.trans ⟨with_outputs_promotes_changes.mono (by decide), fun _ => rfl⟩
  · exact detours

theorem transact (k : Nat) : MeshCounted s (transact s k) := ⟨transact_changes.mono (by decide), fun _ => rfl⟩

end MeshCounted

section
variable {s : State} (q : QuietMesh s)
include q

theorem passMesh_quiet (h : Nat) (stops : List Nat) (al : Nat) (bs : List (Byte × Bool)) :
    passMesh s h stops al bs = { st := s, bytes := bs } := by
  unfold passMesh
  exact if_neg (by simp [(q.flips h).1])

theorem passSeam_quiet (link : Option (Nat × Nat)) (al : Nat) (bs : List (Byte × Bool)) :
    passSeam s link al bs = { st := s, bytes := bs } := by
  unfold passSeam
  split
  · rfl
  · next h n =>
    have whole : failingWire s (1 - h) n = s := by
      unfold failingWire
      exact if_neg (by simp [q.wires])
    dsimp only
    rw [whole]
    exact if_neg (by simp [(q.flips h).2])

/-- R353: in a quiet mesh a packet arrives as it was sent, and only counts its way. -/
theorem transit_quiet (c : Canonical s) (net : Nat) (v : Vc) (src dst al : Nat) (bs : List (Byte × Bool)) :
    ∃ t, transit s net v src dst al bs = { st := t, bytes := bs } ∧ MeshCounted s t := by
  have travelled := MeshCounted.travel c v (way s net src dst)
  refine ⟨_, ?_, travelled⟩
  have quiet := travelled.quiet q
  unfold transit
  simp only [passMesh_quiet quiet, passSeam_quiet quiet, ite_self]

/-- R368: in a quiet mesh a transaction is answered at its first sending. -/
theorem sendNumbered_quiet (v : Vc) (src dst al : Nat) (bs : List (Byte × Bool)) :
    sendNumbered s v src dst al bs = (.answered, transact s (seriesKey src dst 0 v)) := by
  have answered : ∀ h key, fateOf (transact s (seriesKey src dst 0 v)) h key = (.answered, transact s (seriesKey src dst 0 v)) := by
    intro h key
    have numbered := (MeshCounted.transact (s := s) (seriesKey src dst 0 v)).quiet q
    unfold fateOf
    rw [numbered.fault, numbered.resent]
  unfold sendNumbered
  simp only [answered, if_true]

end

theorem getSeries_transact_ne (s : State) {k x : Nat} (h : x ≠ k) : getSeries (transact s k) x = getSeries s x :=
  tabGet_tabSet_ne _ _ _ h

/-! ## A whole pair written (R333, R334) -/

/-- The bytes written are the bytes read. -/
theorem readBytes_putBytes {m : List Host.Cell} (h : Memory.wf m = true) (a : Nat) (bs : List Byte) :
    readBytes (putBytes m a bs) a bs.length = bs := by
  refine List.ext_getElem (by simp [readBytes]) fun i hi hj => ?_
  simp only [readBytes, List.getElem_map, List.getElem_range]
  exact tabGet_putBytes_inside h a bs hj

/-- The part of a write of a whole pair that falls on its line `b`. -/
theorem lineSlice_pair (pair : Nat) {data : List (Byte × Bool)} (whole : data.length = 128) :
    lineSlice (128 * pair) data (2 * pair) = (0, data.take 64) ∧ lineSlice (128 * pair) data (2 * pair + 1) = (0, data.drop 64) := by
  unfold lineSlice
  constructor
  · rw [show max (128 * pair) (64 * (2 * pair)) = 128 * pair by omega, whole]
    simp
    omega
  · rw [show max (128 * pair) (64 * (2 * pair + 1)) = 128 * pair + 64 by omega, whole]
    simp
    omega

section
variable {s : State} {pair : Nat}

/-- R334: a whole pair goes to its channel as one code word. -/
theorem serveWrite_pair {data : List (Byte × Bool)} (whole : data.length = 128) (live : retiredAt s (128 * pair) = false)
    (job : Option Nat) : serveWrite s (128 * pair) data job =
      writeCodeword (modHub s (hubOf (128 * pair)) fun hb => dropLines hb fun n => n / 2 == pair) pair
        ((data.take 64).map (·.1) ++ (data.drop 64).map (·.1)) (poisonPattern ((data.take 64).any (·.2)) ((data.drop 64).any (·.2))) := by
  obtain ⟨first, second⟩ := lineSlice_pair pair whole
  have some : data ≠ [] := by
    rintro rfl
    cases whole
  have lines : (data.take 64).length = 64 ∧ (data.drop 64).length = 64 := by simp [whole]
  unfold serveWrite
  rw [if_neg some, live, if_neg Bool.false_ne_true, whole, show 128 * pair / 128 = pair by omega,
    show (128 * pair + 128 - 1) / 128 + 1 - pair = 1 by omega]
  unfold writePairPart
  simp only [List.range_one, List.foldl_cons, List.foldl_nil, Nat.add_zero, first, second]
  exact if_pos lines

/-- R339: what a code word written leaves in memory, where no flip is armed. -/
theorem writeCodeword_unarmed (plain : (getHub s (hubOf (128 * pair))).flip.arm = false) (data : List Byte) (pat : W64) :
    writeCodeword s pair data pat =
      { s with mem := putBytes s.mem (128 * pair) data, memErr := tabSet {} pair { syms := [], chk := pat } s.memErr } := by
  unfold writeCodeword
  simp only [plain, Bool.false_eq_true, if_false]

/-- R295: data that arrives as it was sent is taken. -/
theorem checkedWrite_same (v : Vc) (src hk al : Nat) (data : List (Byte × Bool)) :
    checkedWrite s v src hk al data data = ({ st := s, bytes := data }, false) := if_pos (by simp [sameCheck])

end

/-- Bytes that all bear one mark. -/
theorem marked_plain (l : List Byte) (poison : Bool) : (l.map fun b => (b, poison)).map (·.1) = l := by simp [Function.comp_def]

theorem marked_any {l : List Byte} (some : l ≠ []) (poison : Bool) : (l.map fun b => (b, poison)).any (·.2) = poison := by
  cases poison
  · simp
  · obtain ⟨b, r, rfl⟩ := List.exists_cons_of_ne_nil some
    simp

/-- R333, R334: a write that reaches its hub over a quiet mesh is served there once, with what was sent. -/
theorem hubWrite_quiet {s : State} (c : Canonical s) (q : QuietMesh s) (src : Nat) (r : Sys2Proof.Reader) (pa : Nat)
    {data : List (Byte × Bool)} (some : data ≠ []) (job : Option Nat) :
    let key := seriesKey src (hubStop (hubOf pa)) 0 (readerVc r)
    ∃ u, MeshCounted s u ∧ (∀ k, k ≠ key → getSeries u k = getSeries s k) ∧
      (hubWrite s src r pa data job).st =
        (transit (serveWrite u pa data job) 1 (readerVc r) (hubStop (hubOf pa)) src 0 []).st := by
  intro key
  have numbered : MeshCounted s (transact s key) := .transact key
  obtain ⟨u, sent, counted⟩ := transit_quiet (numbered.quiet q) (numbered.changes.canonical c) 0 (readerVc r) src (hubStop (hubOf pa))
    (pa % 64) data
  refine ⟨u, numbered.trans counted, fun k ne => ?_, ?_⟩
  · have kept := transit_changes (s := transact s key) (net := 0) (v := readerVc r) (src := src) (dst := hubStop (hubOf pa))
      (al := pa % 64) (bs := data) |>.only .series rfl
    rw [sent] at kept
    rw [← getSeries_transact_ne s ne]
    exact congrArg (tabGet {} · k) kept
  · unfold hubWrite
    rw [if_neg some]
    simp only [sendNumbered_quiet q]
    rw [if_neg (by decide)]
    dsimp only
    rw [sent]
    simp only [checkedWrite_same, ite_self]

/-- R334, R339: what a whole pair served by its hub leaves: the pair stands as it was written. -/
theorem serveWrite_pair_stored {s : State} (c : Canonical s) {pair : Nat} {data : List Byte} (whole : data.length = 128) (poison : Bool)
    (live : retiredAt s (128 * pair) = false) (plain : (getHub s (hubOf (128 * pair))).flip.arm = false) (job : Option Nat) :
    let x := serveWrite s (128 * pair) (data.map fun b => (b, poison)) job
    x.mem = putBytes s.mem (128 * pair) data ∧
      x.memErr = tabSet {} pair { syms := [], chk := poisonPattern poison poison } s.memErr ∧ Changes [.hubs, .mem, .memErr] s x := by
  intro x
  have lines : data.take 64 ≠ [] ∧ data.drop 64 ≠ [] := by
    constructor <;> (apply List.ne_nil_of_length_pos; simp [whole])
  have dropped : Changes [.hubs] s (modHub s (hubOf (128 * pair)) fun hb => dropLines hb fun n => n / 2 == pair) :=
    modHub_changes fun _ h => h
  have unarmed : (getHub (modHub s (hubOf (128 * pair)) fun hb => dropLines hb fun n => n / 2 == pair) (hubOf (128 * pair))).flip.arm =
      false := by
    rw [getHub_modHub_same _ _ _ c.hubs]
    exact plain
  have served : x = writeCodeword (modHub s (hubOf (128 * pair)) fun hb => dropLines hb fun n => n / 2 == pair) pair data
      (poisonPattern poison poison) := by
    rw [show x = _ from serveWrite_pair (by rwa [List.length_map]) live job, ← List.map_take, ← List.map_drop, marked_plain,
      marked_plain, marked_any lines.1, marked_any lines.2, List.take_append_drop]
  refine ⟨?_, ?_, ?_⟩
  · rw [served, writeCodeword_unarmed unarmed]
    rfl
  · rw [served, writeCodeword_unarmed unarmed]
    rfl
  · rw [served]
    exact (dropped.mono (by decide)).next writeCodeword_changes (by decide)

/-- What leaves the halls and the faults of the mesh leaves a quiet mesh quiet. -/
theorem QuietMesh.of_changes {L : List Part} {s t : State} (q : QuietMesh s) (h : Changes L s t) (halls : L.contains .halls = false)
    (fault : L.contains .meshFault = false) (resent : L.contains .resent = false) : QuietMesh t where
  fault := (h.only .meshFault fault).trans q.fault
  resent := (h.only .resent resent).trans q.resent
  flips k := by
    rw [h.getHall halls]
    exact q.flips k
  wires k n := by
    rw [h.getHall halls]
    exact q.wires k n

/-- R333, R334: what a whole pair written over a quiet mesh to a package in use leaves. -/
theorem hubWrite_pair {s : State} (c : Canonical s) (q : QuietMesh s) (src : Nat) (r : Sys2Proof.Reader) {pair : Nat}
    {data : List Byte} (whole : data.length = 128) (poison : Bool) (live : retiredAt s (128 * pair) = false)
    (plain : (getHub s (hubOf (128 * pair))).flip.arm = false) (job : Option Nat) :
    let key := seriesKey src (hubStop (hubOf (128 * pair))) 0 (readerVc r)
    let t := (hubWrite s src r (128 * pair) (data.map fun b => (b, poison)) job).st
    t.mem = putBytes s.mem (128 * pair) data ∧
      t.memErr = tabSet {} pair { syms := [], chk := poisonPattern poison poison } s.memErr ∧
      (∀ h, { getHall t h with meshDetour := 0 } = { getHall s h with meshDetour := 0 }) ∧
      (∀ k, k ≠ key → getSeries t k = getSeries s k) ∧ Changes [.mem, .memErr, .hubs, .series, .outputs, .promotes, .halls] s t := by
  intro key t
  have some : (data.map fun b => (b, poison)) ≠ [] := by
    rintro none
    rw [List.map_eq_nil_iff.1 none] at whole
    cases whole
  obtain ⟨u, sent, series, ran⟩ := hubWrite_quiet c q src r (128 * pair) some job
  have canU := sent.changes.canonical c
  obtain ⟨mem, memErr, served⟩ := serveWrite_pair_stored canU whole poison (by unfold retiredAt; rw [sent.changes.getHub rfl]; exact live)
    (by rw [sent.changes.getHub rfl]; exact plain) job
  generalize serveWrite u (128 * pair) (data.map fun b => (b, poison)) job = x at ran mem memErr served
  obtain ⟨y, back, returned⟩ := transit_quiet ((sent.quiet q).of_changes served rfl rfl rfl) (served.canonical canU) 1 (readerVc r)
    (hubStop (hubOf (128 * pair))) src 0 []
  have ty : t = y := by rw [show t = _ from ran, back]
  have kept := transit_changes (s := x) (net := 1) (v := readerVc r) (src := hubStop (hubOf (128 * pair))) (dst := src) (al := 0)
    (bs := []) |>.only .series rfl
  rw [back] at kept
  rw [ty]
  refine ⟨?_, ?_, fun h => ?_, fun k ne => ?_, ?_⟩
  · rw [show y.mem = x.mem from returned.changes.only .mem rfl, mem, show u.mem = s.mem from sent.changes.only .mem rfl]
  · rw [show y.memErr = x.memErr from returned.changes.only .memErr rfl, memErr, show u.memErr = s.memErr from sent.changes.only .memErr rfl]
  · rw [returned.halls, served.getHall rfl, sent.halls]
  · rw [← series k ne]
    unfold getSeries
    rw [show y.series = x.series from kept, show x.series = u.series from served.only .series rfl]
  · exact ((sent.changes.mono (by decide)).next served (by decide)).next returned.changes (by decide)

/-- Settles O38, by the way of the pair over a quiet mesh and the code word that its hub writes. -/
theorem wholePairWritesAreStored : Obligations.WholePairWritesAreStored := by
  intro a pair data poison job s c up whole fits live q plain
  obtain ⟨mem, memErr, halls, series, changes⟩ := hubWrite_pair c q a.stop a.reader whole poison live plain (job.map fun j => j.val)
  have length : (data.map fun b => (b, poison)).length = 128 := by rwa [List.length_map]
  have ok : requestOk s (128 * pair) (data.map fun b => (b, poison)).length = true := by
    rw [requestOk_iff, length]
    omega
  refine ⟨_, (exec_hubWriteRequest up _).trans (if_pos ok), ?_⟩
  unfold runHubWrite
  generalize (hubWrite s a.stop a.reader (128 * pair) (data.map fun b => (b, poison)) (job.map fun j => j.val)).st = t at *
  have err : tabGet {} t.memErr pair = { syms := [], chk := poisonPattern poison poison } := by rw [memErr, tabGet_tabSet_same c.memErr]
  refine ⟨?_, fun x out => ?_, ?_, ?_, halls, series, changes.eq_with rfl fun p => by cases p <;> rfl⟩
  · rw [mem, ← whole]
    exact readBytes_putBytes c.mem _ _
  · rw [mem]
    exact tabGet_putBytes_outside _ _ (by omega)
  · rw [err]
  · rw [err]

end Sys2Proof.Machine
end

section
/-! What a report leaves in the halls, and O39, O40: the upkeep of the memory hubs. -/

namespace Sys2Proof.Machine

/-! ## Reports (R423, R425) -/

/-- R425: a report leaves the other halls. -/
theorem getHall_raise_ne {s : State} {h x : Nat} (ne : x ≠ h) (src cls : Nat) (e : EventSpec) :
    getHall (raise s h src cls e) x = getHall s x := by
  unfold raise pushEvent setSticky
  rw [getHall_modHall_ne _ _ ne, getHall_modHall_ne _ _ ne]

/-- R425: no report clears a sticky bit. -/
theorem sticky_raise_of_sticky {s : State} (c : Canonical s) {x i : Nat} (set : (getHall s x).sticky.getLsbD i = true) (h src cls : Nat)
    (e : EventSpec) : (getHall (raise s h src cls e) x).sticky.getLsbD i = true := by
  by_cases same : x = h
  · subst same
    rw [getHall_raise_sticky c, BitVec.getLsbD_or, set, Bool.true_or]
  · rwa [getHall_raise_ne same]

/-- R425: a report sets the bit of its source. -/
theorem sticky_raise {s : State} (c : Canonical s) (h : Nat) {src : Nat} (small : src < 64) (cls : Nat) (e : EventSpec) :
    (getHall (raise s h src cls e) h).sticky.getLsbD src = true := by
  rw [getHall_raise_sticky c, BitVec.getLsbD_or, BitVec.getLsbD_ofNat, Nat.testBit_two_pow_self]
  simp [small]

/-- R423: a report of both halls sets the bit of its source in each. -/
theorem sticky_raiseBoth {s : State} (c : Canonical s) {src : Nat} (small : src < 64) (cls : Nat) (e : EventSpec) {x : Nat} (hall : x < 2) :
    (getHall (raiseBoth s src cls e) x).sticky.getLsbD src = true := by
  have first : Canonical (raise s 0 src cls e) := raise_changes.canonical c
  obtain rfl | rfl : x = 0 ∨ x = 1 := by omega
  · exact sticky_raise_of_sticky first (sticky_raise c 0 small cls e) ..
  · exact sticky_raise first 1 small cls e

/-! ## The upkeep of a channel or package (O39) -/

theorem canonical_modHub {s : State} (c : Canonical s) (k : Nat) (f : HubState → HubState) : Canonical (modHub s k f) :=
  { c with hubs := tabWf_tabSet c.hubs _ _ }

/-- A hub written alone. -/
theorem modHub_alone {s : State} (c : Canonical s) (k : Nat) (f : HubState → HubState) :
    modHub s k f = { s with hubs := (modHub s k f).hubs } ∧ getHub (modHub s k f) k = f (getHub s k) ∧
      ∀ y, y ≠ k → getHub (modHub s k f) y = getHub s y :=
  ⟨rfl, getHub_modHub_same _ _ _ c.hubs, fun _ ne => getHub_modHub_ne _ _ ne⟩

/-- R347: what is done on a channel whose package is in use. -/
theorem onChannel_live {h : Hall} {j : Hub} {ch : Fin 32} {s : State} (up : dieUp s = true)
    (live : chRetired (getHub s (8 * h.val + j.val)) ch = false) (f : Channel → Channel) :
    onChannel h j ch f s = modHub s (8 * h.val + j.val) fun hb => setChannel hb ch (f (getChannel hb ch)) := by
  unfold onChannel
  exact if_pos (by rw [up, live]; rfl)

theorem onChannel_retired {h : Hall} {j : Hub} {ch : Fin 32} {s : State}
    (dead : chRetired (getHub s (8 * h.val + j.val)) ch = true) (f : Channel → Channel) : onChannel h j ch f s = s := by
  unfold onChannel
  exact if_neg (by rw [dead, Bool.not_true, Bool.and_false]; decide)

/-- R529: the thermal warning sets FS_THERM_WARN in both halls. -/
theorem sticky_warned {s : State} (c : Canonical s) {x : Nat} (hall : x < 2) : (getHall (warned s) x).sticky.getLsbD 34 = true := by
  unfold warned
  refine sticky_raiseBoth (reshare_changes.canonical ?_) (by decide) _ _ hall
  exact { c with mem := c.mem }

/-- R350, R529: a temperature read in a package in use. -/
theorem runMr4Read_live {h : Hall} {j : Hub} {i : Fin 8} {s : State} (up : dieUp s = true)
    (live : (getPkg (getHub s (8 * h.val + j.val)) i).retired = false) (temp : Byte) :
    let t := modHub s (8 * h.val + j.val) fun hb => setPkg hb i { getPkg hb i with temp := temp }
    runMr4Read h j i temp s =
      if passes (warnLimit .package) (getPkg (getHub s (8 * h.val + j.val)) i).temp temp then warned t else t := by
  unfold runMr4Read
  exact if_pos (by rw [up, live]; rfl)

theorem passes_iff (limit : Nat) (was now : Byte) : passes limit was now = true ↔ was.toNat ≤ limit ∧ limit < now.toNat := by
  unfold passes
  rw [Bool.and_eq_true, decide_eq_true_iff, decide_eq_true_iff]

theorem warned_miller (s : State) : (warned s).miller = { s.miller with derate := true } :=
  (raiseBoth_changes.only .miller rfl).trans (reshare_changes.only .miller rfl)

theorem warned_warm (s : State) : (warned s).power.warm = true :=
  congrArg Power.warm ((raiseBoth_changes.only .power rfl).trans (reshare_changes.only .power rfl))

theorem upkeepTouchesItsChannelAlone : UpkeepTouchesItsChannelAlone := by
  intro h j s c up hk hb only
  have channel (ch : Fin 32) (live : chRetired hb ch = false) (f : Channel → Channel) :
      let t := onChannel h j ch f s
      t = { s with hubs := t.hubs } ∧ getHub t hk = setChannel hb ch (f (getChannel hb ch)) ∧ ∀ y, y ≠ hk → getHub t y = getHub s y := by
    rw [onChannel_live up live]
    exact modHub_alone c hk _
  refine ⟨fun ch live => ⟨_, rfl, channel ch live _⟩, fun ch r live => ⟨_, rfl, channel ch live _⟩, fun i temp live => ?_, ?_, ?_⟩
  · have alone := modHub_alone c hk fun hb => setPkg hb i { getPkg hb i with temp := temp }
    generalize e : (modHub s hk fun hb => setPkg hb i { getPkg hb i with temp := temp }) = t at alone
    have canT : Canonical t := e ▸ canonical_modHub c _ _
    have miller : t.miller = s.miller := e ▸ rfl
    have read : runMr4Read h j i temp s = if passes (warnLimit .package) (getPkg hb i).temp temp then warned t else t :=
      e ▸ runMr4Read_live up live temp
    refine ⟨fun low => ⟨_, rfl, ?_⟩, fun was high => ⟨_, rfl, ?_⟩⟩
    · rw [read, if_neg (by rw [passes_iff, warnLimit]; omega)]
      exact alone
    · rw [read, if_pos ((passes_iff (warnLimit .package) _ _).2 ⟨was, high⟩)]
      exact ⟨by rw [warned_changes.getHub rfl, alone.2.1], by rw [warned_miller, miller], warned_warm _,
        fun x hall => sticky_warned canT hall⟩
  · intro ch r dead
    refine ⟨congrArg _ (onChannel_retired dead _), congrArg _ (onChannel_retired dead _), congrArg Host.Outcome.next ?_⟩
    unfold runPatrolScrub
    exact if_pos (by rw [dead, Bool.or_true])
  · intro i temp dead
    refine congrArg Host.Outcome.next ?_
    unfold runMr4Read
    exact if_neg (by rw [dead, Bool.not_true, Bool.and_false]; decide)

/-- R353, R369: in a quiet mesh no flush request is lost. -/
theorem askFlush_quiet {s : State} (q : QuietMesh s) (k hk : Nat) : (askFlush s k hk).1 = .answered := by
  unfold askFlush
  rw [sendNumbered_quiet q]

/-- R335: what a hub does with the flush that a fence asks for. -/
def flushAnswered (s : State) (k hk job : Nat) : State :=
  (transit (modHub (flushJob (askFlush s k hk).2 hk job) hk fun hb => { hb with flush := hb.flush + 1 }) 1 .vc1 (hubStop hk)
    (queueStop s k) 0 []).st

theorem flushAnswered_changes (s : State) (k hk job : Nat) :
    Changes [.free, .halls, .hubs, .mem, .memErr, .outputs, .promotes, .series, .meshFault, .resent] s (flushAnswered s k hk job) := by
  unfold flushAnswered
  refine Changes.next ?_ transit_changes (by decide)
  have asked : Changes [.free, .halls, .hubs, .mem, .memErr, .outputs, .promotes, .series, .meshFault, .resent] s (askFlush s k hk).2 :=
    askFlush_changes.mono (by decide)
  exact (asked.next flushJob_changes (by decide)).next (modHub_changes fun _ h => h) (by decide)

theorem runFenceFlush_eq {h : Hall} {j : Hub} {job : Job} {s : State} (up : dieUp s = true) {k : Nat}
    (asked : flushQueue s (8 * h.val + j.val) job = some k) (kept : (askFlush s k (8 * h.val + j.val)).1 ≠ .lost) :
    runFenceFlush h j job s = modQueue (flushAnswered s k (8 * h.val + j.val) job) k fun q =>
      { q with inflight := q.inflight.map fun c =>
        if asksFlush s k (8 * h.val + j.val) c then { c with flushed := (8 * h.val + j.val) :: c.flushed } else c } := by
  unfold runFenceFlush
  dsimp only
  rw [asked]
  dsimp only
  rw [if_neg (by simp [up]), if_neg kept]
  rfl

theorem fenceFlushIsServedOnce : FenceFlushIsServedOnce := by
  intro h j job s c up hk
  refine ⟨fun none => congrArg Host.Outcome.next ?_, fun k asked => ?_⟩
  · unfold runFenceFlush
    dsimp only
    rw [show flushQueue s (8 * h.val + j.val) job = Option.none from none]
  · intro a
    refine ⟨fun q => askFlush_quiet q k hk, fun lost => ⟨congrArg Host.Outcome.next ?_, askFlush_changes.only .queues rfl,
      askFlush_changes.only .mem rfl⟩, fun kept => ⟨_, congrArg Host.Outcome.next (runFenceFlush_eq up asked kept), ?_⟩⟩
    · unfold runFenceFlush
      dsimp only
      rw [show flushQueue s (8 * h.val + j.val) job = some k from asked]
      dsimp only
      rw [if_neg (by simp [up]), if_pos lost]
    · have changes := flushAnswered_changes s k hk job
      have can := changes.canonical c
      have canAsked : Canonical (flushJob a.2 hk job) := flushJob_changes.canonical (askFlush_changes.canonical c)
      refine ⟨?_, ?_, fun k' ne => ?_, changes.only .sems rfl, changes.only .signals rfl, changes.only .lcores rfl⟩
      · calc _ = (getHub (flushAnswered s k hk job) hk).flush := rfl
          _ = (getHub (modHub (flushJob a.2 hk job) hk fun hb => { hb with flush := hb.flush + 1 }) hk).flush :=
            congrArg HubState.flush (transit_changes.getHub rfl hk)
          _ = _ := by rw [getHub_modHub_same _ _ _ canAsked.hubs]
      · rw [getQueue_modQueue_same _ _ _ can.queues, changes.getQueue rfl]
      · rw [getQueue_modQueue_ne _ _ ne, changes.getQueue rfl]

theorem patrolScrubAdvancesOneRow : PatrolScrubAdvancesOneRow := by
  intro h j ch s up live hk pos
  have order : (scrubRow s (32 * hk + ch.val) pos).order = s.order := scrubRow_changes.only .order rfl
  refine ⟨fun rows => congrArg Host.Outcome.next ?_, fun done => congrArg Host.Outcome.next ?_⟩
  · unfold runPatrolScrub
    dsimp only
    rw [if_neg (by simp [up, live]), if_pos rows, ← order]
    rfl
  · unfold runPatrolScrub
    dsimp only
    rw [if_neg (by simp [up, live]), if_neg (Nat.not_lt.2 done)]

/-- Settles O39, by the three parts of the upkeep of a hub. -/
theorem hubUpkeepIsServed : Obligations.HubUpkeepIsServed :=
  ⟨upkeepTouchesItsChannelAlone, fenceFlushIsServedOnce, patrolScrubAdvancesOneRow⟩

/-! ## Retirement of packages (O40) -/

theorem getChannel_setChannel_same (hb : HubState) (w : tabWf ({} : Channel) hb.channels = true) (ch : Nat) (c : Channel) :
    getChannel (setChannel hb ch c) ch = c := tabGet_tabSet_same w _ _

theorem getPkg_setPkg_same {hb : HubState} (w : tabWf ({} : Package) hb.pkgs = true) (i : Nat) (p : Package) :
    getPkg (setPkg hb i p) i = p := tabGet_tabSet_same w _ _

theorem getPkg_setPkg_ne (hb : HubState) {i x : Nat} (p : Package) (ne : x ≠ i) : getPkg (setPkg hb i p) x = getPkg hb x :=
  tabGet_tabSet_ne _ _ _ ne

/-- R344: a decision waits for the repair log beside those that wait already. -/
theorem logPending_logDecision {s : State} (c : Canonical s) (h : Nat) (entry : List Byte) :
    (getHall (logDecision s h entry) h).logPending = (getHall s h).logPending ++ [BitVec.ofNat 512 (leNat entry)] := by
  unfold logDecision
  rw [getHall_modHall_same _ _ _ c.halls]

theorem hallEvent_logPending (hl : HallState) (t : W64) (e : EventSpec) : (hallEvent hl t e).logPending = hl.logPending := by
  unfold hallEvent
  split <;> rfl

theorem logPending_raise {s : State} (c : Canonical s) (h src cls : Nat) (e : EventSpec) :
    (getHall (raise s h src cls e) h).logPending = (getHall s h).logPending := by
  unfold raise
  rw [getHall_pushEvent_same (setSticky_changes.canonical c), hallEvent_logPending, setSticky,
    getHall_modHall_same _ _ _ c.halls]

/-- The hub of a package that is retired (R346): what was repaired of the package in it goes. -/
def withoutPackage (hb : HubState) (i cause : Nat) : HubState :=
  let hb := setPkg hb i { getPkg hb i with retired := true, cause := cause }
  { hb with shadows := hb.shadows.filter fun x => x.2.ch / 4 != i, hardRows := hb.hardRows.filter fun x => x.1 / 4 != i }

/-- R346: the retirement of a package in use. -/
theorem retirePackage_live {s : State} (c : Canonical s) {hk i cause : Nat} (live : (getPkg (getHub s hk) i).retired = false) :
    let t := retirePackage s hk i cause
    getHub t hk = withoutPackage (getHub s hk) i cause ∧ (∀ y, y ≠ hk → getHub t y = getHub s y) ∧
      (getHall t (hk / 8)).sticky.getLsbD 17 = true ∧
      (∀ n, (getHall s (hk / 8)).sticky.getLsbD n = true → (getHall t (hk / 8)).sticky.getLsbD n = true) ∧
      (getHall t (hk / 8)).logPending.length = (getHall s (hk / 8)).logPending.length + 1 := by
  intro t
  let gone := setHub s hk (withoutPackage (getHub s hk) i cause)
  let logged := logDecision gone (hk / 8) (logEntry (now gone (hk / 8)) 4 cause 0xFF (leBytes 1 hk ++ leBytes 1 i))
  have ran : t = raise logged (hk / 8) 17 1 { code := 0x0405, lockind := 4, loc := hk, payload := leBytes 1 i ++ leBytes 1 cause } := by
    unfold t retirePackage
    dsimp only
    rw [if_neg (by simp [live])]
    rfl
  have canGone : Canonical gone := { c with hubs := tabWf_tabSet c.hubs _ _ }
  have canLogged : Canonical logged := canonical_modHall canGone _ _
  have hubs (y : Nat) : getHub t y = getHub gone y := ran ▸ raise_changes.getHub rfl y
  rw [hubs, ran, logPending_raise canLogged, logPending_logDecision canGone]
  refine ⟨getHub_setHub_same _ _ _ c.hubs, fun y ne => ?_, sticky_raise canLogged _ (by decide) .., fun n set => ?_, ?_⟩
  · rw [← ran, hubs]
    exact getHub_setHub_ne _ _ ne
  · refine sticky_raise_of_sticky canLogged ?_ ..
    unfold logged logDecision
    rw [getHall_modHall_same _ _ _ canGone.halls]
    exact set
  · rw [List.length_append]
    rfl

/-- R348: the hub at the end of a window that was opened in a channel. -/
def windowed (s : State) (h : Hall) (j : Hub) (ch : Fin 32) (ok : Bool) : State :=
  let c := getChannel (getHub s (8 * h.val + j.val)) ch
  modHub s (8 * h.val + j.val) fun hb => setChannel { hb with window := ch.val, windowEnd := now s h + 4000 } ch
    { c with failed := !ok, windows := if ok then (c.windows + 1) % 5 else c.windows }

theorem windowed_changes {s : State} {h : Hall} {j : Hub} {ch : Fin 32} {ok : Bool} : Changes [.hubs] s (windowed s h j ch ok) := by
  unfold windowed
  exact modHub_changes fun _ h => setChannel_legal h

theorem runRetrain_open {h : Hall} {j : Hub} {s : State} (wait : windowOpen s (8 * h.val + j.val) = true) (ch : Fin 32) (ok : Bool) :
    runRetrain h j ch ok s = s := by
  unfold runRetrain
  exact if_pos (by rw [wait, Bool.or_true])

/-- R348: the window of a channel in use. -/
theorem runRetrain_live {h : Hall} {j : Hub} {ch : Fin 32} {s : State} (up : dieUp s = true)
    (live : chRetired (getHub s (8 * h.val + j.val)) ch = false) (free : windowOpen s (8 * h.val + j.val) = false) (ok : Bool) :
    runRetrain h j ch ok s =
      if !ok && (getChannel (getHub s (8 * h.val + j.val)) ch).failed then
        retrainFailed (windowed s h j ch ok) (8 * h.val + j.val) ch else windowed s h j ch ok := by
  unfold runRetrain
  dsimp only
  rw [if_neg (by simp [up, live, free])]
  rfl

/-- R348, R423: the second failed window in a row retires the package. -/
theorem retrainFailed_live {s : State} (c : Canonical s) {hk ch : Nat} (wf : tabWf ({} : Package) (getHub s hk).pkgs = true)
    (live : chRetired (getHub s hk) ch = false) :
    let t := retrainFailed s hk ch
    let p := getPkg (getHub t hk) (chSlot ch)
    p.retired = true ∧ p.cause = 1 ∧ p.retrainFail = min 15 ((getPkg (getHub s hk) (chSlot ch)).retrainFail + 1) ∧
      (getHall t (hk / 8)).sticky.getLsbD 16 = true ∧ (getHall t (hk / 8)).sticky.getLsbD 17 = true := by
  intro t p
  let counted := modHub s hk fun hb =>
    setPkg hb (chSlot ch) { getPkg hb (chSlot ch) with retrainFail := satAdd 15 (getPkg hb (chSlot ch)).retrainFail 1 }
  let told := raise counted (hk / 8) 16 1 { code := 0x0404, lockind := 4, loc := hk }
  have canCounted : Canonical counted := canonical_modHub c _ _
  have canTold : Canonical told := raise_changes.canonical canCounted
  have hub : getHub told hk = setPkg (getHub s hk) (chSlot ch)
      { getPkg (getHub s hk) (chSlot ch) with retrainFail := satAdd 15 (getPkg (getHub s hk) (chSlot ch)).retrainFail 1 } :=
    (raise_changes.getHub rfl hk).trans (getHub_modHub_same _ _ _ c.hubs)
  have pkg : getPkg (getHub told hk) (chSlot ch) = { getPkg (getHub s hk) (chSlot ch) with
      retrainFail := satAdd 15 (getPkg (getHub s hk) (chSlot ch)).retrainFail 1 } := by
    rw [hub, getPkg_setPkg_same wf]
  obtain ⟨gone, -, retired, kept, -⟩ := retirePackage_live canTold (cause := 1) (show (getPkg (getHub told hk) (chSlot ch)).retired = false by
    rw [pkg]; exact live)
  have after : p = { getPkg (getHub told hk) (chSlot ch) with retired := true, cause := 1 } := by
    unfold p t
    rw [show getHub (retrainFailed s hk ch) hk = _ from gone]
    exact getPkg_setPkg_same (hub ▸ tabWf_tabSet wf _ _) _ _
  rw [after, pkg]
  exact ⟨rfl, rfl, rfl, kept 16 (sticky_raise canCounted _ (by decide) ..), retired⟩

theorem retrainingFailsTwiceBeforeRetiring : RetrainingFailsTwiceBeforeRetiring := by
  intro h j ch s c up hk hb cc opened
  refine ⟨fun wait ok => congrArg Host.Outcome.next (runRetrain_open wait ch ok), fun live free => ?_⟩
  have ran (ok : Bool) := runRetrain_live up live free ok
  have hub (ok : Bool) : getHub (windowed s h j ch ok) hk =
      setChannel (opened hb) ch { cc with failed := !ok, windows := if ok then (cc.windows + 1) % 5 else cc.windows } :=
    getHub_modHub_same _ _ _ c.hubs
  refine ⟨⟨_, congrArg Host.Outcome.next (ran true), rfl, hub true⟩,
    fun first => ⟨_, congrArg Host.Outcome.next ((ran false).trans (if_neg (by rw [show (getChannel _ _).failed = false from first]; decide))), rfl, hub false⟩,
    fun second wf => ⟨_, congrArg Host.Outcome.next ((ran false).trans (if_pos (by simpa using second))), ?_⟩⟩
  have hall : hk / 8 = h.val := by omega
  have pkgs : (getHub (windowed s h j ch false) hk).pkgs = hb.pkgs := by rw [hub]; rfl
  obtain ⟨retired, cause, count, failed, gone⟩ := retrainFailed_live (s := windowed s h j ch false) (windowed_changes.canonical c) (hk := hk) (ch := ch)
    (by rw [pkgs]; exact wf) (by unfold chRetired getPkg; rw [pkgs]; exact live)
  rw [hall] at failed gone
  refine ⟨retired, cause, ?_, failed, gone, ?_⟩
  · unfold getPkg at count ⊢
    rw [pkgs] at count
    exact count
  · have window : Changes [.halls, .hubs] s (windowed s h j ch false) := windowed_changes.mono (by decide)
    exact (window.next retrainFailed_changes (by decide)).eq_with rfl fun p => by cases p <;> rfl

theorem hostRetiresAPackage : HostRetiresAPackage := by
  intro h j i s c up hk hb
  have hall : hk / 8 = h.val := by omega
  have ran : exec (.hubPkgRetire h j i) s = .next (retirePackage s hk i 3) := by
    refine congrArg Host.Outcome.next ?_
    unfold runPkgRetire
    exact if_pos up
  refine ⟨fun gone => ?_, fun live wf => ⟨_, ran, ?_⟩⟩
  · rw [ran]
    unfold retirePackage
    exact congrArg Host.Outcome.next (if_pos gone)
  · obtain ⟨hub, hubs, told, -, logged⟩ := retirePackage_live c (cause := 3) (show (getPkg (getHub s hk) i).retired = false from live)
    rw [hall] at told logged
    refine ⟨?_, fun x ne => ?_, hubs, told, logged, retirePackage_changes.eq_with rfl fun p => by cases p <;> rfl⟩
    · rw [hub]
      exact getPkg_setPkg_same wf _ _
    · rw [hub]
      exact getPkg_setPkg_ne _ _ ne

/-- Settles O40, by what a window and a retirement leave of the hub. -/
theorem packagesRetire : Obligations.PackagesRetire := ⟨retrainingFailsTwiceBeforeRetiring, hostRetiresAPackage⟩

end Sys2Proof.Machine
end

section
/-! O41: the statement asks for a canonical state, and Canonical leaves the tables inside a position to Legal. A store that lists one byte twice is
therefore allowed; there the rewrite of an uncorrectable byte, whose flip masks make it the unwritten byte, leaves the other entry to be read. -/

namespace Sys2Proof.Machine

/-- Position 0 lists byte 4 of its store twice, first with an uncorrectable error; STW_STO_FLIP is armed to take back the poison of the rewrite. -/
def twiceListedBadByte : State :=
  { State.reset with
    positions := [(0, { status := .inService, store := [(4, { c := 13 }), (4, { d := 1, c := storeCheck 1 })],
                        stoFlip := { arm := true, check := 15 } })] }

theorem canonical_twiceListedBadByte : Canonical twiceListedBadByte := canonical_of_test (by decide +kernel)

/-- Refutes O41: in `twiceListedBadByte` the armed rewrite of byte 4 should leave the byte 0 without check bits, and byte 4 then reads as its second entry. -/
theorem not_storeBytesKeepTheirCode : ¬ Obligations.StoreBytesKeepTheirCode := by
  rintro ⟨-, reads⟩
  obtain ⟨-, -, -, bad, -⟩ := reads twiceListedBadByte 0 4 canonical_twiceListedBadByte
  obtain ⟨-, -, -, -, flipped, -, -⟩ := bad 0 (by decide +kernel)
  exact absurd (flipped (by decide +kernel)) (by decide +kernel)

end Sys2Proof.Machine
end

section
/-! O22: the flip-mask registers. Those of the core blocks are fields of a position, which `posFlip` reads and `onPosFlip` writes. -/

namespace Sys2Proof.Machine

/-! ## The flip-mask registers of the core blocks (R511) -/

/-- The hall and position of a flip-mask register of a core block. -/
def flipPlace (x : FlipTarget) : Option (Hall × Pos) :=
  match x with
  | .drn h p | .wvr h p | .lmp h p | .ful h p | .asy h p | .asyCrc h p | .ctr h p | .sto h p => some (h, p)
  | .sea _ | .hub _ _ | .lnk _ _ | .mesh _ | .seam _ => none

/-- The field of a position that is the register. -/
def posFlip (x : FlipTarget) (ps : Position) : Flip :=
  match x with
  | .drn _ _ => ps.drnFlip
  | .wvr _ _ => ps.wvrFlip
  | .lmp _ _ => ps.lmpFlip
  | .ful _ _ => ps.fulFlip
  | .asy _ _ => ps.asyFlip
  | .asyCrc _ _ => ps.asyCrcFlip
  | .ctr _ _ => ps.ctrFlip
  | .sto _ _ => ps.stoFlip
  | .sea _ | .hub _ _ | .lnk _ _ | .mesh _ | .seam _ => {}

/-- The position with that field changed. -/
def onPosFlip (x : FlipTarget) (g : Flip → Flip) (ps : Position) : Position :=
  match x with
  | .drn _ _ => { ps with drnFlip := g ps.drnFlip }
  | .wvr _ _ => { ps with wvrFlip := g ps.wvrFlip }
  | .lmp _ _ => { ps with lmpFlip := g ps.lmpFlip }
  | .ful _ _ => { ps with fulFlip := g ps.fulFlip }
  | .asy _ _ => { ps with asyFlip := g ps.asyFlip }
  | .asyCrc _ _ => { ps with asyCrcFlip := g ps.asyCrcFlip }
  | .ctr _ _ => { ps with ctrFlip := g ps.ctrFlip }
  | .sto _ _ => { ps with stoFlip := g ps.stoFlip }
  | .sea _ | .hub _ _ | .lnk _ _ | .mesh _ | .seam _ => ps

variable {x y : FlipTarget} {h : Hall} {p : Pos} {s : State}

theorem flipOf_of_place (e : flipPlace x = some (h, p)) (s : State) : flipOf s x = posFlip x (getPos s (posKey h p)) := by
  cases x <;> cases e <;> rfl

/-- A register that lies in no core block does not depend on the positions. -/
theorem flipOf_withPositions (e : flipPlace x = none) (s : State) (l : List (Nat × Position)) :
    flipOf { s with positions := l } x = flipOf s x := by
  cases x <;> cases e <;> rfl

theorem flipInHole_of_place (e : flipPlace x = some (h, p)) (s : State) : flipInHole s x ↔ (getPos s (posKey h p)).status = .hole := by
  cases x <;> cases e <;> rfl

theorem not_flipInHole_of_place (e : flipPlace x = none) (s : State) : ¬ flipInHole s x := by
  cases x <;> cases e <;> exact id

theorem writeFlipReg_of_place (e : flipPlace x = some (h, p)) (v : W32) (s : State) :
    writeFlipReg s x v = flipPos s h p (onPosFlip x (writeFlip (flipLayout x).1 (flipLayout x).2.1 (flipLayout x).2.2 v)) := by
  cases x <;> cases e <;> rfl

theorem posFlip_onPosFlip_same (e : flipPlace x = some (h, p)) (g : Flip → Flip) (ps : Position) :
    posFlip x (onPosFlip x g ps) = g (posFlip x ps) := by
  cases x <;> cases e <;> rfl

/-- Two registers of one position are different fields. -/
theorem posFlip_onPosFlip_ne (ex : flipPlace x = some (h, p)) (ey : flipPlace y = some (h, p)) (ne : y ≠ x) (g : Flip → Flip)
    (ps : Position) : posFlip y (onPosFlip x g ps) = posFlip y ps := by
  cases x <;> cases ex <;> cases y <;> cases ey <;> solve | rfl | exact absurd rfl ne

theorem posKey_injective {h h' : Hall} {p p' : Pos} (e : posKey h p = posKey h' p') : (h, p) = (h', p') := by
  unfold posKey at e
  rw [Prod.mk.injEq, Fin.ext_iff, Fin.ext_iff]
  omega

/-- A register of a core block written leaves every other. -/
theorem flipOf_modPos_ne (c : Canonical s) (ex : flipPlace x = some (h, p)) (ne : y ≠ x) (g : Flip → Flip) :
    flipOf (modPos s (posKey h p) (onPosFlip x g)) y = flipOf s y := by
  cases ey : flipPlace y with
  | none => exact flipOf_withPositions ey s _
  | some a =>
    obtain ⟨h', p'⟩ := a
    rw [flipOf_of_place ey, flipOf_of_place ey]
    by_cases same : posKey h' p' = posKey h p
    · obtain ⟨rfl, rfl⟩ := Prod.mk.inj (posKey_injective same)
      rw [getPos_modPos_same _ _ _ c.positions, posFlip_onPosFlip_ne ex ey ne]
    · rw [getPos_modPos_ne _ _ same]

/-! ## Every flip-mask register -/

/-- A register written as its row says: the masks, then ARM. -/
def IsFlipWrite (x : FlipTarget) (v : W32) (a b : Flip) : Prop :=
  b.arm = (a.arm || v.getLsbD 31) ∧ b.check = bitsOf v.toNat (flipLayout x).1 (flipLayout x).2.1 ∧
    b.data = bitsOf v.toNat 0 (flipLayout x).2.2

theorem isFlipWrite_writeFlip (x : FlipTarget) (v : W32) (a : Flip) :
    IsFlipWrite x v a (writeFlip (flipLayout x).1 (flipLayout x).2.1 (flipLayout x).2.2 v a) :=
  ⟨congrArg (a.arm || ·) (bitOf_toNat v 31), rfl, rfl⟩

/-- R401: a selecting field beside the masks leaves them as they are written. -/
theorem IsFlipWrite.writeSel {v : W32} {a b : Flip} (h : IsFlipWrite x v a b) (lo w limit : Nat) :
    IsFlipWrite x v a (writeSel lo w limit v b) := h

/-- R511: a flip-mask register of a hall written leaves every other. -/
theorem flipOf_modHall_ne (c : Canonical s) (h : Hall) (f : HallState → HallState) (y : FlipTarget)
    (sea : y = .sea h → ∀ hl, (f hl).seaFlip = hl.seaFlip) (mesh : y = .mesh h → ∀ hl, (f hl).meshFlip = hl.meshFlip)
    (seam : y = .seam h → ∀ hl, (f hl).seamFlip = hl.seamFlip) : flipOf (modHall s h f) y = flipOf s y := by
  have field (read : HallState → Flip) (h' : Hall) (kept : h' = h → ∀ hl, read (f hl) = read hl) :
      read (getHall (modHall s h f) h') = read (getHall s h') := by
    by_cases same : h' = h
    · subst same
      rw [getHall_modHall_same _ _ _ c.halls, kept rfl]
    · rw [getHall_modHall_ne _ _ (Fin.val_ne_of_ne same)]
  cases y with
  | sea h' => exact field HallState.seaFlip h' fun e => sea (e ▸ rfl)
  | mesh h' => exact field HallState.meshFlip h' fun e => mesh (e ▸ rfl)
  | seam h' => exact field HallState.seamFlip h' fun e => seam (e ▸ rfl)
  | drn | wvr | lmp | ful | asy | asyCrc | ctr | sto | hub | lnk => rfl

theorem flipOf_modHub_ne (h : Hall) (j : Hub) (f : HubState → HubState) {y : FlipTarget} (ne : y ≠ .hub h j) :
    flipOf (modHub s (8 * h.val + j.val) f) y = flipOf s y := by
  cases y with
  | hub h' j' =>
    refine congrArg HubState.flip (getHub_modHub_ne _ _ fun e => ne ?_)
    rw [FlipTarget.hub.injEq, Fin.ext_iff, Fin.ext_iff]
    omega
  | drn | wvr | lmp | ful | asy | asyCrc | ctr | sto | sea | lnk | mesh | seam => rfl

theorem flipOf_modPort_ne (h : Hall) (j : Port) (f : PortState → PortState) {y : FlipTarget} (ne : y ≠ .lnk h j) :
    flipOf (modPort s (6 * h.val + j.val) f) y = flipOf s y := by
  cases y with
  | lnk h' j' =>
    refine congrArg PortState.flip (getPort_modPort_ne _ _ fun e => ne ?_)
    rw [FlipTarget.lnk.injEq, Fin.ext_iff, Fin.ext_iff]
    omega
  | drn | wvr | lmp | ful | asy | asyCrc | ctr | sto | sea | hub | mesh | seam => rfl

/-- R511: a register that lies outside the core blocks, or in one that is no hole, takes the write, and no other changes. -/
theorem writeFlipReg_writes (c : Canonical s) (v : W32) (live : ¬ flipInHole s x) :
    IsFlipWrite x v (flipOf s x) (flipOf (writeFlipReg s x v) x) ∧ ∀ y, y ≠ x → flipOf (writeFlipReg s x v) y = flipOf s y := by
  cases e : flipPlace x with
  | some a =>
    obtain ⟨h, p⟩ := a
    rw [writeFlipReg_of_place e, flipPos, if_neg ((flipInHole_of_place e s).not.1 live), flipOf_of_place e, flipOf_of_place e,
      getPos_modPos_same _ _ _ c.positions, posFlip_onPosFlip_same e]
    exact ⟨isFlipWrite_writeFlip .., fun y ne => flipOf_modPos_ne c e ne _⟩
  | none =>
    cases x with
    | sea h =>
      refine ⟨?_, fun y ne => flipOf_modHall_ne c h _ y (fun e => absurd e ne) (fun _ _ => rfl) fun _ _ => rfl⟩
      unfold flipOf writeFlipReg
      dsimp only
      rw [getHall_modHall_same _ _ _ c.halls]
      exact isFlipWrite_writeFlip (.sea h) ..
    | mesh h =>
      refine ⟨?_, fun y ne => flipOf_modHall_ne c h _ y (fun _ _ => rfl) (fun e => absurd e ne) fun _ _ => rfl⟩
      unfold flipOf writeFlipReg
      dsimp only
      rw [getHall_modHall_same _ _ _ c.halls]
      exact (isFlipWrite_writeFlip (.mesh h) ..).writeSel ..
    | seam h =>
      refine ⟨?_, fun y ne => flipOf_modHall_ne c h _ y (fun _ _ => rfl) (fun _ _ => rfl) fun e => absurd e ne⟩
      unfold flipOf writeFlipReg
      dsimp only
      rw [getHall_modHall_same _ _ _ c.halls]
      exact (isFlipWrite_writeFlip (.seam h) ..).writeSel ..
    | hub h j =>
      refine ⟨?_, fun y ne => flipOf_modHub_ne h j _ ne⟩
      unfold flipOf writeFlipReg
      dsimp only
      rw [getHub_modHub_same _ _ _ c.hubs]
      exact (isFlipWrite_writeFlip (.hub h j) ..).writeSel ..
    | lnk h j =>
      refine ⟨?_, fun y ne => flipOf_modPort_ne h j _ ne⟩
      unfold flipOf writeFlipReg
      dsimp only
      rw [getPort_modPort_same _ _ _ c.ports]
      exact (isFlipWrite_writeFlip (.lnk h j) ..).writeSel ..
    | drn | wvr | lmp | ful | asy | asyCrc | ctr | sto => cases e

/-- R367: in the core block of a hole the write is discarded. -/
theorem writeFlipReg_hole (v : W32) (hole : flipInHole s x) : writeFlipReg s x v = s := by
  cases e : flipPlace x with
  | some a => rw [writeFlipReg_of_place e, flipPos, if_pos ((flipInHole_of_place e s).1 hole)]
  | none => exact absurd hole (not_flipInHole_of_place e s)

/-- Settles O22, by the field that each register is. -/
theorem flipMasksAreStoredAndArmed : Obligations.FlipMasksAreStoredAndArmed := by
  intro x v s c up l
  have ran : runFlipArm x v s = writeFlipReg s x v := by
    unfold runFlipArm
    exact if_pos up
  refine ⟨fun hole => congrArg Host.Outcome.next (ran.trans (writeFlipReg_hole v hole)), fun live => ?_⟩
  obtain ⟨⟨arm, check, data⟩, others⟩ := writeFlipReg_writes c v live
  refine ⟨_, congrArg Host.Outcome.next ran, arm, check, data, others, ?_⟩
  rw [← ran]
  exact runFlipArm_changes.eq_with rfl fun p => by cases p <;> rfl

end Sys2Proof.Machine
end

section
/-! O43, O44, O45: the ports. What each codeword counts, what a frame meets after its codewords, and how a port goes down. -/

namespace Sys2Proof.Machine

/-! ## Codewords (R380, R386, R401) -/

theorem Changes.halls_ports {s t : State} (h : Changes [.halls, .ports] s t) : t = { s with ports := t.ports, halls := t.halls } :=
  h.eq_with rfl fun p => by cases p <;> rfl

theorem canonical_modPort {s : State} (c : Canonical s) (k : Nat) (f : PortState → PortState) : Canonical (modPort s k f) :=
  { c with ports := tabWf_tabSet c.ports _ _ }

/-- From `s` to `t` port `k` alone changes, and is then `x`. -/
structure PortAlone (k : Nat) (s t : State) (x : PortState) : Prop where
  canonical : Canonical t
  frame : t = { s with ports := t.ports }
  port : getPort t k = x
  others : ∀ y, y ≠ k → getPort t y = getPort s y

theorem PortAlone.refl {s : State} (c : Canonical s) (k : Nat) : PortAlone k s s (getPort s k) := ⟨c, rfl, rfl, fun _ _ => rfl⟩

theorem PortAlone.modPort {k : Nat} {s t : State} {x : PortState} (h : PortAlone k s t x) (f : PortState → PortState) :
    PortAlone k s (modPort t k f) (f x) where
  canonical := canonical_modPort h.canonical _ _
  frame := congrArg (fun u : State => { u with ports := (Machine.modPort t k f).ports }) h.frame
  port := by rw [getPort_modPort_same _ _ _ h.canonical.ports, h.port]
  others y ne := by rw [getPort_modPort_ne _ _ ne, h.others y ne]

/-- R401: port `b` is port `a` after codewords of which `n` were corrected and `m` could not be. -/
def WordsCounted (n m : Nat) (a b : PortState) : Prop :=
  b = { a with lanes := b.lanes, second := b.second, fecCorr := a.fecCorr + BitVec.ofNat 32 n, fecUnc := a.fecUnc + BitVec.ofNat 32 m }

theorem WordsCounted.refl (a : PortState) : WordsCounted 0 0 a a := by
  unfold WordsCounted
  simp

theorem WordsCounted.trans {n m n' m' : Nat} {a b c : PortState} (h : WordsCounted n m a b) (k : WordsCounted n' m' b c) :
    WordsCounted (n + n') (m + m') a c := by
  unfold WordsCounted at *
  rw [h] at k
  rw [BitVec.ofNat_add, BitVec.ofNat_add, ← BitVec.add_assoc, ← BitVec.add_assoc]
  exact k

section
variable {n m : Nat} {a b : PortState} (h : WordsCounted n m a b)
include h

theorem WordsCounted.eq : b = { a with
    lanes := b.lanes, second := b.second, fecCorr := a.fecCorr + BitVec.ofNat 32 n, fecUnc := a.fecUnc + BitVec.ofNat 32 m } := h
theorem WordsCounted.fecUnc : b.fecUnc = a.fecUnc + BitVec.ofNat 32 m := by rw [WordsCounted.eq h]
theorem WordsCounted.credits : b.credits = a.credits := by rw [WordsCounted.eq h]
theorem WordsCounted.retry : b.retry = a.retry := by rw [WordsCounted.eq h]
theorem WordsCounted.rxSlots : b.rxSlots = a.rxSlots := by rw [WordsCounted.eq h]
theorem WordsCounted.rxSpare : b.rxSpare = a.rxSpare := by rw [WordsCounted.eq h]

end

theorem wordsCounted_rollSecond (p : PortState) (n : Nat) : WordsCounted 0 0 p (rollSecond p n) := by
  unfold rollSecond WordsCounted
  split <;> simp

theorem wordsCounted_countBad (p : PortState) (w : LaneWord) : WordsCounted 0 0 p (countBad p w) := by
  unfold countBad WordsCounted
  split <;> simp [setLane]

theorem wordsCounted_countCorrected (p : PortState) (w : LaneWord) :
    WordsCounted (if corrected w.errors then 1 else 0) 0 p (countCorrected p w) := by
  unfold countCorrected WordsCounted
  split <;> simp

/-- R380, R401: the port at which a codeword has arrived, apart from LNK_FEC_UNC. -/
def wordNoted (s : State) (k : Nat) (w : LaneWord) (p : PortState) : PortState :=
  countCorrected (countBad (rollSecond p (secondOf s (k / 6))) w) w

theorem wordsCounted_wordNoted (s : State) (k : Nat) (w : LaneWord) (p : PortState) :
    WordsCounted (if corrected w.errors then 1 else 0) 0 p (wordNoted s k w p) := by
  have counted := ((wordsCounted_rollSecond p (secondOf s (k / 6))).trans (wordsCounted_countBad _ w)).trans (wordsCounted_countCorrected _ w)
  rwa [Nat.zero_add, Nat.zero_add] at counted

theorem noteWord_good {w : LaneWord} (good : decodes w.errors = true) (s : State) (k : Nat) :
    noteWord s k w = modPort s k (wordNoted s k w) := by
  unfold noteWord
  exact if_pos good

theorem noteWord_bad {w : LaneWord} (bad : decodes w.errors = false) (s : State) (k : Nat) :
    noteWord s k w = uncorrectable (modPort s k (wordNoted s k w)) k := by
  unfold noteWord
  exact if_neg (by rw [bad]; decide)

/-- R386: an uncorrectable codeword counts and sets FS_FEC. -/
theorem uncorrectable_alone {s : State} (c : Canonical s) (k : Nat) :
    getPort (uncorrectable s k) k = { getPort s k with fecUnc := (getPort s k).fecUnc + 1 } ∧
      (∀ y, y ≠ k → getPort (uncorrectable s k) y = getPort s y) ∧ (getHall (uncorrectable s k) (k / 6)).sticky.getLsbD 24 = true := by
  have canPort := canonical_modPort c k fun p => { p with fecUnc := p.fecUnc + 1 }
  refine ⟨(raiseQuiet_changes.getPort rfl k).trans (getPort_modPort_same _ _ _ c.ports),
    fun y ne => (raiseQuiet_changes.getPort rfl y).trans (getPort_modPort_ne _ _ ne), ?_⟩
  unfold uncorrectable raiseQuiet setSticky
  rw [getHall_modHall_same _ _ _ canPort.halls, BitVec.getLsbD_or]
  exact Bool.or_true _

theorem sticky_uncorrectable_of_sticky {s : State} (c : Canonical s) {x i : Nat} (set : (getHall s x).sticky.getLsbD i = true) (k : Nat) :
    (getHall (uncorrectable s k) x).sticky.getLsbD i = true := by
  have canPort := canonical_modPort c k fun p => { p with fecUnc := p.fecUnc + 1 }
  unfold uncorrectable raiseQuiet setSticky
  by_cases same : x = k / 6
  · subst same
    rw [getHall_modHall_same _ _ _ canPort.halls, BitVec.getLsbD_or]
    exact Bool.or_eq_true_iff.2 (.inl set)
  · rw [getHall_modHall_ne _ _ same]
    exact set

/-- What one codeword leaves. -/
theorem noteWord_counts {s : State} (c : Canonical s) (k : Nat) (w : LaneWord) :
    WordsCounted (if corrected w.errors then 1 else 0) (if decodes w.errors then 0 else 1) (getPort s k) (getPort (noteWord s k w) k) ∧
      ∀ y, y ≠ k → getPort (noteWord s k w) y = getPort s y := by
  have ⟨_, _, port, others⟩ := (PortAlone.refl c k).modPort (wordNoted s k w)
  have counted := wordsCounted_wordNoted s k w (getPort s k)
  cases good : decodes w.errors with
  | true =>
    rw [noteWord_good good, port]
    exact ⟨counted, others⟩
  | false =>
    obtain ⟨unc, same, -⟩ := uncorrectable_alone (canonical_modPort c k (wordNoted s k w)) k
    rw [noteWord_bad good, unc, port]
    refine ⟨?_, fun y ne => (same y ne).trans (others y ne)⟩
    have one : WordsCounted 0 1 (wordNoted s k w (getPort s k)) { wordNoted s k w (getPort s k) with
        fecUnc := (wordNoted s k w (getPort s k)).fecUnc + 1 } := by
      unfold WordsCounted
      simp
    have both := counted.trans one
    rwa [Nat.add_zero, Nat.zero_add] at both

theorem noteWord_sticky_of_sticky {s : State} (c : Canonical s) {x i : Nat} (set : (getHall s x).sticky.getLsbD i = true) (k : Nat)
    (w : LaneWord) : (getHall (noteWord s k w) x).sticky.getLsbD i = true := by
  cases good : decodes w.errors with
  | true =>
    rw [noteWord_good good]
    exact set
  | false =>
    rw [noteWord_bad good]
    exact sticky_uncorrectable_of_sticky (canonical_modPort c _ _) set k

theorem noteWord_sticky {s : State} (c : Canonical s) (k : Nat) {w : LaneWord} (bad : decodes w.errors = false) :
    (getHall (noteWord s k w) (k / 6)).sticky.getLsbD 24 = true := by
  rw [noteWord_bad bad]
  exact (uncorrectable_alone (canonical_modPort c _ _) k).2.2

theorem afterWords_changes {s : State} {k : Nat} {words : List LaneWord} : Changes [.halls, .ports] s (afterWords s k words) :=
  Changes.foldl .refl fun _ _ => noteWord_changes

theorem afterWords_cons (s : State) (k : Nat) (w : LaneWord) (words : List LaneWord) :
    afterWords s k (w :: words) = afterWords (noteWord s k w) k words := by
  unfold afterWords
  exact List.foldl_cons ..

theorem afterWords_sticky_of_sticky {x i : Nat} (k : Nat) (words : List LaneWord) :
    ∀ {s : State}, Canonical s → (getHall s x).sticky.getLsbD i = true → (getHall (afterWords s k words) x).sticky.getLsbD i = true := by
  induction words with
  | nil => exact fun _ set => set
  | cons w words ih =>
    intro s c set
    rw [afterWords_cons]
    exact ih (noteWord_changes.canonical c) (noteWord_sticky_of_sticky c set k w)

/-- What the codewords of a frame leave: each counts, an uncorrectable one is reported, and the others leave the halls. -/
theorem afterWords_counts (k : Nat) (words : List LaneWord) : ∀ {s : State}, Canonical s →
    (∀ y, y ≠ k → getPort (afterWords s k words) y = getPort s y) ∧
      WordsCounted (words.filter fun w => corrected w.errors).length (words.filter fun w => !decodes w.errors).length (getPort s k)
        (getPort (afterWords s k words) k) ∧
      ((∃ w ∈ words, decodes w.errors = false) → (getHall (afterWords s k words) (k / 6)).sticky.getLsbD 24 = true) ∧
      ((∀ w ∈ words, decodes w.errors = true) → (afterWords s k words).halls = s.halls) := by
  induction words with
  | nil => exact fun _ => ⟨fun _ _ => rfl, .refl _, fun ⟨_, mem, _⟩ => absurd mem List.not_mem_nil, fun _ => rfl⟩
  | cons w words ih =>
    intro s c
    have can : Canonical (noteWord s k w) := noteWord_changes.canonical c
    obtain ⟨others, counted, told, quiet⟩ := ih can
    obtain ⟨first, same⟩ := noteWord_counts c k w
    rw [afterWords_cons]
    refine ⟨fun y ne => (others y ne).trans (same y ne), ?_, ?_, fun good => ?_⟩
    · have both := first.trans counted
      rw [List.filter_cons, List.filter_cons]
      cases corr : corrected w.errors <;> cases dec : decodes w.errors <;> simpa [corr, dec, Nat.add_comm] using both
    · rintro ⟨x, mem, bad⟩
      rcases List.mem_cons.1 mem with rfl | later
      · exact afterWords_sticky_of_sticky k words can (noteWord_sticky c k bad)
      · exact told ⟨x, later, bad⟩
    · refine (quiet fun x mem => good x (List.mem_cons_of_mem _ mem)).trans ?_
      rw [noteWord_good (good w List.mem_cons_self)]
      rfl

theorem frameCodewordsAreCounted : FrameCodewordsAreCounted := by
  intro h p words s c k ps t
  obtain ⟨others, counted, told, quiet⟩ := afterWords_counts k words c
  rw [show k / 6 = h.val by omega] at told
  exact ⟨afterWords_changes.halls_ports, others, counted, told, quiet⟩

/-! ## Frames (R386 to R388) -/

theorem runFrameReceive_down {h : Hall} {p : Port} {s : State} (down : (getPort s (6 * h.val + p.val)).up = false) (bytes : List Byte)
    (words : List LaneWord) : runFrameReceive h p bytes words s = s := by
  unfold runFrameReceive
  exact if_pos (by rw [down, Bool.not_false, Bool.or_true])

theorem runFrameReceive_up {h : Hall} {p : Port} {s : State} (die : dieUp s = true) (up : (getPort s (6 * h.val + p.val)).up = true)
    (bytes : List Byte) (words : List LaneWord) :
    runFrameReceive h p bytes words s =
      if words.all fun w => decodes w.errors then
        checkFrame (afterWords s (6 * h.val + p.val) words) (6 * h.val + p.val) (frameOf bytes) (bytes.take 60)
      else lostFrame (afterWords s (6 * h.val + p.val) words) (6 * h.val + p.val) := by
  unfold runFrameReceive
  exact if_neg (by rw [die, up]; decide)

section
variable {u : State} {k : Nat} {f : Frame} {head : List Byte}

theorem checkFrame_header (bad : f.hcrc ≠ crc32c head) : checkFrame u k f head = lostFrame u k := if_pos bad

/-- R386, R387: a frame out of its turn is dropped, and a later one asks for a replay. -/
theorem checkFrame_turn (good : f.hcrc = crc32c head) (turn : f.seq ≠ (getPort u k).rxSeq) :
    checkFrame u k f head = if seqLe f.seq (getPort u k).rxSeq then u else lostFrame u k :=
  (if_neg (not_not_intro good)).trans (if_pos turn)

theorem checkFrame_full (good : f.hcrc = crc32c head) (turn : f.seq = (getPort u k).rxSeq)
    (full : rxBuffers.getD f.vl 0 ≤ rxHeld (getPort u k) f.vl) : checkFrame u k f head = lostFrame u k := by
  unfold checkFrame
  dsimp only
  rw [if_neg (not_not_intro good), if_neg (not_not_intro turn), if_pos full]

theorem checkFrame_foreign (good : f.hcrc = crc32c head) (turn : f.seq = (getPort u k).rxSeq)
    (room : rxHeld (getPort u k) f.vl < rxBuffers.getD f.vl 0) (foreign : frameForUs u k f = false) :
    checkFrame u k f head = modPort (tookSeq u k) k fun p => oweCredits { p with drops := p.drops + 1 } f.vl 1 := by
  unfold checkFrame
  dsimp only
  rw [if_neg (not_not_intro good), if_neg (not_not_intro turn), if_neg (by omega), if_pos (by rw [foreign]; rfl)]

theorem checkFrame_ours (good : f.hcrc = crc32c head) (turn : f.seq = (getPort u k).rxSeq)
    (room : rxHeld (getPort u k) f.vl < rxBuffers.getD f.vl 0) (ours : frameForUs u k f = true) :
    checkFrame u k f head = checkPayload u k f := by
  unfold checkFrame
  dsimp only
  rw [if_neg (not_not_intro good), if_neg (not_not_intro turn), if_neg (by omega), if_neg (by rw [ours]; decide)]

end

theorem lostFrame_alone {u : State} (c : Canonical u) (k : Nat) : PortAlone k u (lostFrame u k) { getPort u k with askReplay := true } :=
  (PortAlone.refl c k).modPort _

theorem tookSeq_alone {s u : State} {k : Nat} {x : PortState} (h : PortAlone k s u x) :
    PortAlone k s (tookSeq u k) { x with rxSeq := x.rxSeq + 1, askReplay := false, crcTries := 0 } := h.modPort _

theorem badFramesAreNotAccepted : BadFramesAreNotAccepted := by
  refine ⟨frameCodewordsAreCounted, ?_⟩
  intro h p header payload headWords dataWords s c k bytes words u ps f run only
  refine ⟨fun down => congrArg Host.Outcome.next (runFrameReceive_down down _ _), fun die up => ?_⟩
  have canU : Canonical u := afterWords_changes.canonical c
  have ran := runFrameReceive_up die up bytes words
  have alone (t : State) (x : PortState) (e : runFrameReceive h p bytes words s = t) (one : PortAlone k u t x) : only x :=
    ⟨t, congrArg Host.Outcome.next e, one.frame, one.port, one.others⟩
  refine ⟨?_, fun good => ?_⟩
  · rintro ⟨w, mem, bad⟩
    refine alone _ _ (ran.trans (if_neg fun all => ?_)) (lostFrame_alone canU k)
    rw [List.all_eq_true.1 all w mem] at bad
    cases bad
  · rw [if_pos (List.all_eq_true.2 good)] at ran
    refine ⟨fun head => alone _ _ (ran.trans (checkFrame_header head)) (lostFrame_alone canU k), fun head => ⟨?_, ?_, ?_, ?_⟩⟩
    · exact fun turn old => congrArg Host.Outcome.next (ran.trans ((checkFrame_turn head turn).trans (if_pos old)))
    · exact fun turn late => alone _ _ (ran.trans ((checkFrame_turn head turn).trans (if_neg (by rw [late]; decide)))) (lostFrame_alone canU k)
    · exact fun turn full => alone _ _ (ran.trans (checkFrame_full head turn full)) (lostFrame_alone canU k)
    · intro turn room
      refine ⟨fun foreign => alone _ _ (ran.trans (checkFrame_foreign head turn room foreign))
        ((tookSeq_alone (PortAlone.refl canU k)).modPort _), fun ours bad tries => ?_⟩
      refine alone _ _ (ran.trans ((checkFrame_ours head turn room ours).trans ?_)) ((PortAlone.refl canU k).modPort
        fun p => { p with crcTries := p.crcTries + 1, askReplay := true })
      exact (if_neg bad).trans (if_pos tries)

theorem goodFramesWaitInTheirBuffer : GoodFramesWaitInTheirBuffer := by
  intro h p header payload headWords dataWords s c die k bytes words u ps f up good head turn room ours sound notAbort notCooper
  have canU : Canonical u := afterWords_changes.canonical c
  have ran := runFrameReceive_up die up bytes words
  rw [if_pos (List.all_eq_true.2 good), checkFrame_ours head turn room ours] at ran
  let v := if 0 < ps.crcTries then modPort u k fun p => { p with crcRetry := p.crcRetry + 1 } else u
  have counted : PortAlone k u v { ps with crcRetry := if 0 < ps.crcTries then ps.crcRetry + 1 else ps.crcRetry } := by
    unfold v
    split
    · exact (PortAlone.refl canU k).modPort _
    · exact .refl canU k
  have taken := tookSeq_alone counted
  have accepted : runFrameReceive h p bytes words s = modPort (tookSeq v k) k fun p =>
      { p with flip := disarmBuf p 1, rx := p.rx ++ [{ frame := f, bad := none, flip := bufFlip (getPort (tookSeq v k) k) 1 }] } := by
    refine ran.trans ((if_pos sound).trans ?_)
    unfold acceptFrame
    exact (if_neg notAbort).trans (if_neg notCooper)
  have stands := taken.modPort fun p =>
      { p with flip := disarmBuf p 1, rx := p.rx ++ [{ frame := f, bad := none, flip := bufFlip (getPort (tookSeq v k) k) 1 }] }
  refine ⟨_, congrArg Host.Outcome.next accepted, stands.frame, stands.others, ?_⟩
  rw [stands.port, taken.port]
  rfl

/-! ## Control codewords (R381, R388, R400) -/

theorem runControl_down {h : Hall} {p : Port} {s : State} (down : (getPort s (6 * h.val + p.val)).up = false) (c : ControlCodeword) :
    runControl h p c s = s := by
  unfold runControl
  exact if_pos (by rw [down, Bool.not_false, Bool.or_true])

theorem runControl_bad {h : Hall} {p : Port} {s : State} (die : dieUp s = true) (up : (getPort s (6 * h.val + p.val)).up = true)
    {c : ControlCodeword} (bad : decodes c.word.errors = false) : runControl h p c s = noteWord s (6 * h.val + p.val) c.word := by
  unfold runControl
  dsimp only
  rw [if_neg (by rw [die, up]; decide), if_pos (by rw [bad]; rfl)]

theorem runControl_good {h : Hall} {p : Port} {s : State} (die : dieUp s = true) (up : (getPort s (6 * h.val + p.val)).up = true)
    {c : ControlCodeword} (good : decodes c.word.errors = true) (plain : c.replay = none) :
    runControl h p c s =
      updateTime (modPort (modPort s (6 * h.val + p.val) (wordNoted s (6 * h.val + p.val) c.word)) (6 * h.val + p.val)
        fun q => takeControl q c) := by
  unfold runControl
  dsimp only
  rw [if_neg (by rw [die, up]; decide), if_neg (by rw [good]; decide), noteWord_good good, plain]

/-- R400: a master is its own source of time. -/
theorem updateTime_master {s : State} (master : s.timeCfg.master = true) :
    updateTime s = { s with timeCfg := { s.timeCfg with holdover := false, source := 15, hops := 0, offset := 0 } } := by
  unfold updateTime
  exact if_pos master

theorem switchRx_slots (p q : PortState) (slot : Fin 4) (slots : q.rxSlots = p.rxSlots) (spare : q.rxSpare = p.rxSpare) :
    (switchRx q slot).rxSlots = (switchRx p slot).rxSlots ∧ (switchRx q slot).rxSpare = (switchRx p slot).rxSpare := by
  unfold switchRx
  rw [slots, spare]
  split
  · exact ⟨rfl, rfl⟩
  · exact ⟨slots, spare⟩

/-- R383: a handover changes the receiving lanes alone. -/
theorem switchRx_frame (p : PortState) (slot : Fin 4) :
    switchRx p slot = { p with rxSlots := (switchRx p slot).rxSlots, rxSpare := (switchRx p slot).rxSpare } := by
  unfold switchRx
  split <;> rfl

/-- The port `q` that a codeword's handover leaves of `p`. -/
def HandedOver (p q : PortState) (c : ControlCodeword) : Prop :=
  (∀ slot, c.handover = some slot → q.rxSlots = (switchRx p slot).rxSlots ∧ q.rxSpare = (switchRx p slot).rxSpare) ∧
    (c.handover = none → q.rxSlots = p.rxSlots ∧ q.rxSpare = p.rxSpare)

/-- R381, R383, R387, R388: what a control codeword tells a port. -/
theorem takeControl_tells (p : PortState) (c : ControlCodeword) :
    let q := takeControl p c
    (∀ i, i < 4 → q.credits.getD i 0 = min ([8, 48, 64, 8].getD i 0) (p.credits.getD i 0 + c.credits.getD i 0)) ∧
      (∀ r, r ∈ q.retry ↔ r ∈ p.retry ∧ ∀ n, c.ack = some n → seqLe r.frame.seq n = false) ∧ HandedOver p q c ∧
      q.peer = c.lfa ∧ q.hops = min 255 c.hops ∧ q.master = c.master := by
  intro q
  obtain ⟨p', kept, given, shape⟩ : ∃ p', p' = { p with rxSlots := p'.rxSlots, rxSpare := p'.rxSpare } ∧ HandedOver p p' c ∧
      q = match c.ack with
        | some n => ackFrames (addCredits { p' with peer := c.lfa, hops := min 255 c.hops, offset := c.timeOffset, master := c.master } c.credits) n
        | none => addCredits { p' with peer := c.lfa, hops := min 255 c.hops, offset := c.timeOffset, master := c.master } c.credits := by
    unfold q takeControl
    cases e : c.handover with
    | none => exact ⟨p, rfl, ⟨fun slot some => by simp [e] at some, fun _ => ⟨rfl, rfl⟩⟩, rfl⟩
    | some slot =>
      refine ⟨switchRx p slot, switchRx_frame p slot, ⟨fun slot' same => ?_, fun none => by simp [e] at none⟩, rfl⟩
      rw [e, Option.some.injEq] at same
      subst same
      exact ⟨rfl, rfl⟩
  have credits : ∀ i, i < 4 → ((List.range 4).map fun i => min ([8, 48, 64, 8].getD i 0) (p'.credits.getD i 0 + c.credits.getD i 0)).getD i 0 =
      min ([8, 48, 64, 8].getD i 0) (p.credits.getD i 0 + c.credits.getD i 0) := by
    intro i small
    rw [show p'.credits = p.credits from kept ▸ rfl]
    simp [List.getD_eq_getElem?_getD, small]
  have retry : p'.retry = p.retry := kept ▸ rfl
  cases e : c.ack with
  | none =>
    rw [e] at shape
    rw [shape]
    exact ⟨credits, fun r => by simp [addCredits, retry], given, rfl, rfl, rfl⟩
  | some n =>
    rw [e] at shape
    rw [shape]
    exact ⟨credits, fun r => by simp [addCredits, ackFrames, retry], given, rfl, rfl, rfl⟩

theorem HandedOver.of_same {p p' q : PortState} {c : ControlCodeword} (h : HandedOver p' q c) (slots : p'.rxSlots = p.rxSlots)
    (spare : p'.rxSpare = p.rxSpare) : HandedOver p q c := by
  refine ⟨fun slot e => ?_, fun none => ?_⟩
  · obtain ⟨a, b⟩ := h.1 slot e
    obtain ⟨a', b'⟩ := switchRx_slots p p' slot slots spare
    exact ⟨a.trans a', b.trans b'⟩
  · obtain ⟨a, b⟩ := h.2 none
    exact ⟨a.trans slots, b.trans spare⟩

theorem controlCodewordsReturnCredits : ControlCodewordsReturnCredits := by
  intro h p c s can die k ps u
  refine ⟨fun down => congrArg Host.Outcome.next (runControl_down down c), fun up bad => ?_, fun up good plain master => ?_⟩
  · have counted := (noteWord_counts can k c.word).1
    rw [bad, if_neg Bool.false_ne_true] at counted
    have told := noteWord_sticky can k bad
    rw [show k / 6 = h.val by omega] at told
    exact ⟨congrArg Host.Outcome.next (runControl_bad die up bad), counted.fecUnc, counted.credits, counted.retry, told,
      noteWord_changes.halls_ports⟩
  · have alone := ((PortAlone.refl can k).modPort (wordNoted s k c.word)).modPort fun q => takeControl q c
    have counted := wordsCounted_wordNoted s k c.word ps
    obtain ⟨credits, retry, given, peer, hops, masters⟩ := takeControl_tells (wordNoted s k c.word ps) c
    generalize wordNoted s k c.word ps = q at alone counted credits retry given peer hops masters
    generalize et : (modPort (modPort s k (wordNoted s k c.word)) k fun q => takeControl q c) = t at alone
    have ran : runControl h p c s = updateTime t := et ▸ runControl_good die up good plain
    have timed := updateTime_master (s := t) (by rw [alone.frame]; exact master)
    have handed := given.of_same counted.rxSlots counted.rxSpare
    have port : getPort (updateTime t) k = takeControl q c := (updateTime_changes.getPort rfl k).trans alone.port
    refine ⟨updateTime t, congrArg Host.Outcome.next ran, fun y ne => (updateTime_changes.getPort rfl y).trans (alone.others y ne), ?_⟩
    rw [port, show ps.credits = q.credits from counted.credits.symm, show ps.retry = q.retry from counted.retry.symm]
    refine ⟨credits, retry, handed.1, handed.2, peer, hops, masters, ?_⟩
    rw [timed]
    have frame := alone.frame
    clear * - frame
    generalize t.ports = l at frame
    subst frame
    rfl

/-- Settles O43, by what the codewords leave of the port and what each check of a frame then does. -/
theorem framesAndCodewordsAreTakenInOrder : Obligations.FramesAndCodewordsAreTakenInOrder :=
  ⟨badFramesAreNotAccepted, goodFramesWaitInTheirBuffer, controlCodewordsReturnCredits⟩

/-! ## Ports that go down, and replays (R382, R387; O45) -/

theorem endOnPort_idle {s : State} {k : Nat} (idle : ∀ j, j < 16 → runningDrv s (k / 6) j = none) (peer : BitVec 12) :
    endOnPort s k peer = s := by
  refine List.foldlRecOn (motive := (· = s)) _ _ rfl fun t same j mem => ?_
  subst same
  rw [idle j (List.mem_range.1 mem)]

theorem copPortDown_idle {s : State} (idle : ∀ j, (getJob s j).opening = none ∧ (getJob s j).fetching = false) (k : Nat) :
    copPortDown s k = s := by
  refine List.foldlRecOn (motive := (· = s)) _ _ rfl fun t same j _ => ?_
  subst same
  obtain ⟨closed, still⟩ := idle j
  dsimp only
  rw [closed, still]
  split <;> rfl

theorem runningDrv_of_queues {s t : State} (e : t.queues = s.queues) (h j : Nat) : runningDrv t h j = runningDrv s h j := by
  unfold runningDrv headOf getQueue
  rw [e]

/-- R382: a port that no Drover command, copy or time source uses goes down alone. -/
theorem portDown_idle {s : State} (up : (getPort s k).up = true) (drovers : ∀ j, j < 16 → runningDrv s (k / 6) j = none)
    (copies : ∀ j, (getJob s j).opening = none ∧ (getJob s j).fetching = false) (master : s.timeCfg.master = true) :
    ∃ e, let u := raise (modPort s k downPort) (k / 6) 26 1 e
      portDown s k = { u with timeCfg := { u.timeCfg with holdover := false, source := 15, hops := 0, offset := 0 } } := by
  refine ⟨{ code := 0x0502, lockind := 5, loc := k }, ?_⟩
  generalize eu : raise (modPort s k downPort) (k / 6) 26 1 { code := 0x0502, lockind := 5, loc := k } = u
  have queues : u.queues = s.queues := by rw [← eu]; exact raise_changes.only .queues rfl
  have jobs (j : Nat) : getJob u j = getJob s j := by rw [← eu]; exact raise_changes.getJob rfl j
  have time : u.timeCfg = s.timeCfg := by rw [← eu]; exact raise_changes.only .timeCfg rfl
  unfold portDown
  rw [if_pos up]
  dsimp only
  rw [eu, endOnPort_idle fun j small => (runningDrv_of_queues queues _ j).trans (drovers j small), copPortDown_idle fun j => by rw [jobs]; exact copies j,
    updateTime_master (by rw [time]; exact master)]

theorem lostClocksTakeThePortDown : LostClocksTakeThePortDown := by
  intro h p s c die k
  have ran : runLinkClockLost h p s = portDown s k := by
    unfold runLinkClockLost
    exact if_pos die
  refine ⟨fun down => congrArg Host.Outcome.next (ran.trans (if_neg (by rw [down]; decide))), fun up drovers copies master => ?_⟩
  have hall : k / 6 = h.val := by omega
  obtain ⟨e, gone⟩ := portDown_idle up (by rw [hall]; exact drovers) copies master
  have ports := (PortAlone.refl c k).modPort downPort
  have told : Changes [.halls] (modPort s k downPort) (raise (modPort s k downPort) (k / 6) 26 1 e) := raise_changes
  refine ⟨_, congrArg Host.Outcome.next (ran.trans gone), (told.getPort rfl k).trans ports.port,
    fun y ne => (told.getPort rfl y).trans (ports.others y ne), ?_, told.only .queues rfl, told.only .sems rfl⟩
  rw [← hall]
  exact sticky_raise ports.canonical (k / 6) (by decide) 1 e

/-- R398: with no Drover command running no replay is counted for one. -/
theorem countReplay_idle {s : State} {h : Nat} (idle : ∀ j, j < 16 → runningDrv s h j = none) (f : Frame) : countReplay s h f = s := by
  unfold countReplay
  rw [List.find?_eq_none.2 fun j mem => by simp [idle j (List.mem_range.1 mem)]]

theorem foldl_countReplay_idle {s v : State} {h : Nat} (queues : v.queues = s.queues) (idle : ∀ j, j < 16 → runningDrv s h j = none)
    (l : List Unacked) : l.foldl (fun s u => countReplay s h u.frame) v = v := by
  refine List.foldlRecOn (motive := (· = v)) _ _ rfl fun t same u _ => ?_
  subst same
  exact countReplay_idle (fun j small => (runningDrv_of_queues queues h j).trans (idle j small)) u.frame

theorem timeoutsReplayEveryFrame : TimeoutsReplayEveryFrame := by
  intro h p s c die k ps
  refine ⟨fun none => congrArg Host.Outcome.next ?_, fun up some few drovers => ?_⟩
  · unfold runReplayTimeout
    refine if_neg fun all => ?_
    rcases none with down | empty
    · simp [show (getPort s (6 * h.val + p.val)).up = false from down] at all
    · simp [show (getPort s (6 * h.val + p.val)).retry = [] from empty] at all
  · have ran : runReplayTimeout h p s = replayFrames s k := by
      unfold runReplayTimeout
      exact if_pos (by simp [die, show (getPort s (6 * h.val + p.val)).up = true from up, show (getPort s (6 * h.val + p.val)).retry ≠ [] from some])
    have alone := (PortAlone.refl c k).modPort fun p =>
      { p with retry := p.retry.map fun u => { u with replays := u.replays + 1 }, replayed := p.replayed + BitVec.ofNat 32 ps.retry.length,
               line := p.line ++
                 (ps.retry.mapIdx fun i u => nibbles (readLine (lineBytes u.frame) u.flip (Config.freeNat (s.free + i)))).flatten }
    have hall : k / 6 = h.val := by omega
    have calm : ¬ (ps.retry.any fun u => decide (16 ≤ u.replays + 1)) = true := by
      rw [List.any_eq_true]
      rintro ⟨u, mem, many⟩
      exact absurd (few u mem) (by simpa using many)
    have replayed := ran
    unfold replayFrames at replayed
    dsimp only at replayed
    rw [hall, foldl_countReplay_idle (s := s) ?_ drovers, if_neg calm] at replayed
    · exact ⟨_, congrArg Host.Outcome.next replayed, rfl, alone.port, alone.others⟩
    · rfl

/-- Settles O45, by what a port that goes down leaves when nothing uses it, and what a replay counts. -/
theorem portsFallAndReplay : Obligations.PortsFallAndReplay := ⟨lostClocksTakeThePortDown, timeoutsReplayEveryFrame⟩

/-! ## The last lane of a busy port (O44)

Where its fourth lane but two retires, a port goes down and ends the Drover command on it. The command's record is read and written in device memory,
and an uncorrectable pair there makes a row hard, which the same Steward logs too: two decisions wait where the statement allows one. -/

/-- A DRV.BARRIER on channel 0 that has begun. -/
def begunBarrier : InFlight :=
  { seq := 0, cmd := BitVec.ofNat 512 (0xC3 + 4 * 256 ^ 24 + 77 * 256 ^ 28 + 256 ^ 48 + 2 * 256 ^ 50), desc := 0, start := 0, coll := some {} }

/-- Port 0 with three lanes and that command; the ring's records lie in a page at 0x40000000, whose first pair has three symbols in error. -/
def busyPort : State :=
  { State.reset with
    queues := [(512, { enable := true, state := .run, sizeLog2 := 4, prod := 1, fetchSeq := 1, inflight := [begunBarrier] })]
    jobs := [(0, { rootValid := true })]
    halls := [(0, { getHall State.reset 0 with ptrs := [{ job := 0, level := 3, pre := 0, table := 0 }] })]
    ports := [(0, { up := true, active := 3, lanes := [(3, { retired := true, role := 5 }), (4, { retired := true, role := 5 })] })]
    mem := [(0, 0x0D), (3, 0x40)]
    memErr := [(0x40000000 / 128, { syms := [(0, 1), (1, 1), (2, 1)] })] }

theorem canonical_busyPort : Canonical busyPort := canonical_of_test (by decide +kernel)

theorem busyPort_logs : ((getHall (runLaneRetire 0 0 0 busyPort) 0).logPending.length, (getHall busyPort 0).logPending.length) = (2, 0) := by
  decide +kernel

/-- Refutes O44: in `busyPort` the retirement of lane 0 leaves two entries for the repair log. -/
theorem not_portsTrainAndRotate : ¬ Obligations.PortsTrainAndRotate := by
  rintro ⟨-, -, retirement, -⟩
  obtain ⟨-, live⟩ := retirement 0 0 0 busyPort canonical_busyPort (by decide +kernel)
  obtain ⟨-, -, -, last⟩ := live (by decide +kernel) (by decide +kernel) (by decide +kernel)
  obtain ⟨t, ran, -, -, logged, -⟩ := last (by decide +kernel)
  obtain rfl : runLaneRetire 0 0 0 busyPort = t := Host.Outcome.next.inj ran
  obtain ⟨two, zero⟩ := Prod.mk.inj busyPort_logs
  exact absurd ((two.symm.trans logged).trans (congrArg (· + 1) zero)) (by decide)

end Sys2Proof.Machine
end

section
/-! What a packet on its way does to the halls (R353, R365, R372), said once for every relation of halls that each of its marks keeps. -/

namespace Sys2Proof.Machine

/-! ## Relations of the halls -/

/-- From `s` to `t` each hall stands in relation `R` to what it was. -/
structure EachHall (R : HallState → HallState → Prop) (s t : State) : Prop where
  canonical : Canonical t
  hall : ∀ x, R (getHall s x) (getHall t x)

/-- R425, R534: a hall with the sticky bit of a source set. -/
def stuck (src cls : Nat) (hl : HallState) : HallState :=
  let was := bitOf hl.sticky.toNat src
  { hl with
    sticky := hl.sticky ||| BitVec.ofNat 64 (2 ^ src),
    heldRouter := if src = 8 then heldAfter was hl.heldRouter cls else hl.heldRouter,
    heldSeam := if src = 11 then heldAfter was hl.heldSeam cls else hl.heldSeam,
    heldPll := if src = 12 then heldAfter was hl.heldPll cls else hl.heldPll,
    heldVr := if src = 32 then heldAfter was hl.heldVr cls else hl.heldVr }

theorem setSticky_eq (s : State) (h src cls : Nat) : setSticky s h src cls = modHall s h (stuck src cls) := rfl

/-- A relation of halls that composes and that a report keeps. -/
structure Reporting (R : HallState → HallState → Prop) : Prop where
  refl : ∀ a, R a a
  trans : ∀ {a b c}, R a b → R b c → R a c
  event : ∀ a t e, R a (hallEvent a t e)
  sticky : ∀ a src cls, R a (stuck src cls a)

/-- A relation of halls that the marks of a packet keep: detours, ECC counts, flips and counts of links. -/
structure Carrying (R : HallState → HallState → Prop) : Prop extends Reporting R where
  detour : ∀ a n, R a { a with meshDetour := n }
  ecc : ∀ a e, R a { a with meshEcc := e }
  flip : ∀ a f, R a { a with meshFlip := f }
  seamFlip : ∀ a f, R a { a with seamFlip := f }
  link : ∀ a n ce, R a { a with seam := tabSet {} n { getSeam a n with ce := ce } a.seam }

section
variable {R : HallState → HallState → Prop} {s t u : State}

theorem EachHall.trans (w : Reporting R) (h : EachHall R s t) (k : EachHall R t u) : EachHall R s u :=
  ⟨k.canonical, fun x => w.trans (h.hall x) (k.hall x)⟩

theorem EachHall.of_halls (w : Reporting R) (c : Canonical t) (e : t.halls = s.halls) : EachHall R s t := by
  refine ⟨c, fun x => ?_⟩
  unfold getHall
  rw [e]
  exact w.refl _

/-- What leaves the halls. -/
theorem EachHall.of_changes (w : Reporting R) {L : List Part} (c : Canonical s) (h : Changes L s t) (e : L.contains .halls = false) :
    EachHall R s t := .of_halls w (h.canonical c) (h.only .halls e)

theorem EachHall.refl (w : Reporting R) (c : Canonical s) : EachHall R s s := .of_halls w c rfl

theorem EachHall.modHall (w : Reporting R) (c : Canonical s) (k : Nat) {f : HallState → HallState} (step : ∀ a, R a (f a)) :
    EachHall R s (modHall s k f) := by
  refine ⟨canonical_modHall c k f, fun x => ?_⟩
  by_cases e : x = k
  · subst e
    rw [getHall_modHall_same _ _ _ c.halls]
    exact step _
  · rw [getHall_modHall_ne _ _ e]
    exact w.refl _

theorem EachHall.pushEvent (w : Reporting R) (c : Canonical s) (h : Nat) (e : EventSpec) : EachHall R s (pushEvent s h e) :=
  .modHall w c h fun a => w.event a _ e

theorem EachHall.setSticky (w : Reporting R) (c : Canonical s) (h src cls : Nat) : EachHall R s (setSticky s h src cls) :=
  .modHall w c h fun a => w.sticky a src cls

theorem EachHall.raise (w : Reporting R) (c : Canonical s) (h src cls : Nat) (e : EventSpec) : EachHall R s (raise s h src cls e) :=
  have set := EachHall.setSticky w c h src cls
  set.trans w (.pushEvent w set.canonical h _)

theorem EachHall.raiseBoth (w : Reporting R) (c : Canonical s) (src cls : Nat) (e : EventSpec) : EachHall R s (raiseBoth s src cls e) :=
  have first := EachHall.raise w c 0 src cls e
  first.trans w (.raise w first.canonical 1 src cls e)

theorem EachHall.foldl (w : Reporting R) {α : Type} {f : State → α → State} (step : ∀ {s} a, Canonical s → EachHall R s (f s a)) (l : List α)
    (c : Canonical s) : EachHall R s (l.foldl f s) :=
  List.foldlRecOn (motive := EachHall R s) l f (.refl w c) fun _ h a _ => h.trans w (step a h.canonical)

end

/-! ## The way of a packet -/

section
variable {R : HallState → HallState → Prop} (w : Carrying R)
include w

theorem eachHall_takeFree {s : State} (c : Canonical s) : EachHall R s (takeFree s).2 := .of_changes w.toReporting c takeFree_changes rfl

theorem eachHall_travel {s : State} (c : Canonical s) (v : Vc) (x : Way) : EachHall R s (travel s v x) := by
  have detours := EachHall.foldl w.toReporting (f := fun s h => modHall s h fun hl => { hl with meshDetour := hl.meshDetour + 1 })
    (fun h c => .modHall w.toReporting c h fun a => w.detour a _) x.detours.eraseDups c
  unfold travel
  dsimp only
  split
  · exact detours.trans w.toReporting (.of_changes w.toReporting detours.canonical with_outputs_promotes_changes rfl)
  · exact detours

theorem eachHall_meshCe {s : State} (c : Canonical s) (h : Nat) : EachHall R s (meshCe h s) :=
  .modHall w.toReporting c h fun a => w.ecc a _

theorem eachHall_meshUe {s : State} (c : Canonical s) (h : Nat) : EachHall R s (meshUe h s) :=
  have counted := EachHall.modHall w.toReporting c h fun a => w.ecc a { a.meshEcc with ue := satAdd 0xFFFF a.meshEcc.ue 1 }
  counted.trans w.toReporting (.raise w.toReporting counted.canonical h 9 1 _)

theorem eachHall_seamCe {s : State} (c : Canonical s) (h n : Nat) : EachHall R s (seamCe h n s) :=
  .modHall w.toReporting c h fun a => w.link a n _

theorem eachHall_flippedFlit {s : State} (c : Canonical s) {ce ue : State → State} (hce : ∀ u, Canonical u → EachHall R u (ce u))
    (hue : ∀ u, Canonical u → EachHall R u (ue u)) (f : Flip) (al : Nat) (bs : List (Byte × Bool)) :
    EachHall R s (flippedFlit s f al bs ce ue).st := by
  have free := eachHall_takeFree w c
  have drawn := free.trans w.toReporting (eachHall_takeFree w free.canonical)
  unfold flippedFlit
  split
  · exact .refl w.toReporting c
  split
  · exact hce s c
  split
  · exact hue s c
  dsimp only
  split
  · exact drawn.trans w.toReporting (hce _ drawn.canonical)
  split
  · exact drawn.trans w.toReporting (hue _ drawn.canonical)
  · exact drawn

theorem eachHall_passMesh {s : State} (c : Canonical s) (h : Nat) (stops : List Nat) (al : Nat) (bs : List (Byte × Bool)) :
    EachHall R s (passMesh s h stops al bs).st := by
  unfold passMesh
  dsimp only
  split
  · have used := EachHall.modHall w.toReporting c h fun a => w.flip a { (getHall s h).meshFlip with arm := false }
    exact used.trans w.toReporting (eachHall_flippedFlit w used.canonical (fun _ c => eachHall_meshCe w c h) (fun _ c => eachHall_meshUe w c h) _ _ _)
  · exact .refl w.toReporting c

theorem eachHall_failingWire {s : State} (c : Canonical s) (h n : Nat) : EachHall R s (failingWire s h n) := by
  have free := eachHall_takeFree w c
  unfold failingWire
  split
  · exact free.trans w.toReporting (.modHall w.toReporting free.canonical h fun a => w.link a n _)
  · exact .refl w.toReporting c

theorem eachHall_passSeam {s : State} (c : Canonical s) (link : Option (Nat × Nat)) (al : Nat) (bs : List (Byte × Bool)) :
    EachHall R s (passSeam s link al bs).st := by
  cases link with
  | none => exact .refl w.toReporting c
  | some x =>
    obtain ⟨h, n⟩ := x
    have wire := eachHall_failingWire w c (1 - h) n
    unfold passSeam
    dsimp only
    split
    · have used := EachHall.modHall w.toReporting wire.canonical h
        fun a => w.seamFlip a { (getHall (failingWire s (1 - h) n) h).seamFlip with arm := false }
      exact (wire.trans w.toReporting used).trans w.toReporting (eachHall_flippedFlit w used.canonical (fun _ c => eachHall_seamCe w c (1 - h) n)
        (fun _ c => eachHall_meshUe w c (1 - h)) _ _ _)
    · exact wire

/-- A packet on its way marks the halls and does nothing else to them. -/
theorem eachHall_transit {s : State} (c : Canonical s) (net : Nat) (v : Vc) (src dst al : Nat) (bs : List (Byte × Bool)) :
    EachHall R s (transit s net v src dst al bs).st := by
  have travelled := eachHall_travel w c v (way s net src dst)
  have left := travelled.trans w.toReporting
    (eachHall_passMesh w travelled.canonical (stopHall src) (way s net src dst).stops al bs)
  have crossed := left.trans w.toReporting (eachHall_passSeam w left.canonical (way s net src dst).link al
    (passMesh (travel s v (way s net src dst)) (stopHall src) (way s net src dst).stops al bs).bytes)
  unfold transit
  dsimp only
  split
  · exact crossed
  · exact crossed.trans w.toReporting (eachHall_passMesh w crossed.canonical ..)

end

end Sys2Proof.Machine
end

section
/-! O24, O25: the Cooper's registers, restores, fetches, triggers, and the end of its copies. -/

namespace Sys2Proof.Machine

/-! ## A job context written alone -/

/-- From `s` to `t` job context `j` alone changes, and is then `x`. -/
def JobAlone (j : Nat) (s t : State) (x : JobState) : Prop :=
  t = { s with jobs := t.jobs } ∧ getJob t j = x ∧ ∀ y, y ≠ j → getJob t y = getJob s y

theorem setJob_alone {s : State} (c : Canonical s) (j : Nat) (x : JobState) : JobAlone j s (setJob s j x) x :=
  ⟨rfl, getJob_setJob_same _ _ _ c.jobs, fun _ ne => getJob_setJob_ne _ _ ne⟩

theorem modJob_alone {s : State} (c : Canonical s) (j : Nat) (f : JobState → JobState) : JobAlone j s (modJob s j f) (f (getJob s j)) :=
  setJob_alone c j _

/-! ## The registers (R433, R440, R443, R454) -/

/-- R440, R454: a job context whose COP_JOB_CFG is written: the fields that are fixed while ENABLE is 1, ENABLE, and V₀ as it is enabled. -/
def copCfgWritten (s : State) (v : W32) (jb : JobState) : JobState :=
  let written := if jb.copEnable then jb else
    { jb with copChmask := BitVec.ofNat 3 (bitsOf v.toNat 28 3), copDone := 4096 * bitsOf v.toNat 25 1 + bitsOf v.toNat 13 12,
              copTrig := 4096 * bitsOf v.toNat 12 1 + bitsOf v.toNat 0 12 }
  if v.getLsbD 31 && !jb.copEnable then { written with copEnable := true, copV0 := (getSem s written.copTrig).value, lastTrigger := none }
  else { written with copEnable := v.getLsbD 31 }

theorem runCopCfg_up {s : State} (up : anyHostUp s = true) (j : Job) (v : W32) :
    runCopCfg j v s = setJob s j (copCfgWritten s v (getJob s j)) := by
  unfold runCopCfg copCfgWritten
  rw [if_neg (by rw [up]; decide)]
  dsimp only
  rw [bitOf_toNat]
  split <;> rfl

theorem copCfgWritten_enable (s : State) (v : W32) (jb : JobState) : (copCfgWritten s v jb).copEnable = v.getLsbD 31 := by
  unfold copCfgWritten
  dsimp only
  split
  · next on => exact (Bool.and_eq_true_iff.1 on).1.symm
  · rfl

theorem copCfgWritten_of_enabled {jb : JobState} (on : jb.copEnable = true) (s : State) (v : W32) :
    copCfgWritten s v jb = { jb with copEnable := v.getLsbD 31 } := by
  unfold copCfgWritten
  rw [if_neg (by rw [on, Bool.not_true, Bool.and_false]; decide)]
  simp only [on, if_true]

theorem copCfgWritten_of_disabled {jb : JobState} (off : jb.copEnable = false) (s : State) (v : W32) :
    let x := copCfgWritten s v jb
    x.copChmask.toNat = bitsOf v.toNat 28 3 ∧ x.copTrig = 4096 * bitsOf v.toNat 12 1 + bitsOf v.toNat 0 12 ∧
      x.copDone = 4096 * bitsOf v.toNat 25 1 + bitsOf v.toNat 13 12 ∧
      (v.getLsbD 31 = true → x.copV0 = (getSem s x.copTrig).value ∧ x.lastTrigger = none) := by
  have mask : (BitVec.ofNat 3 (bitsOf v.toNat 28 3)).toNat = bitsOf v.toNat 28 3 :=
    (BitVec.toNat_ofNat _ _).trans (Nat.mod_mod_of_dvd _ (dvd_refl _))
  unfold copCfgWritten
  simp only [off, Bool.not_false, Bool.and_true, Bool.false_eq_true, if_false]
  cases on : v.getLsbD 31 with
  | true => exact ⟨mask, rfl, rfl, fun _ => ⟨rfl, rfl⟩⟩
  | false => exact ⟨mask, rfl, rfl, fun h => absurd h Bool.false_ne_true⟩

theorem cooperRegistersAreWritten : CooperRegistersAreWritten := by
  refine ⟨fun j s c up => ?_, fun j v s c up => ?_, fun j v s c up => ?_, fun j s c up => ⟨fun busy => ?_, fun still => ?_⟩⟩
  · have ran : runKilledClear j s = modJob s j fun jb => { jb with killed := false } := by
      unfold runKilledClear
      exact if_pos up
    exact ⟨_, congrArg Host.Outcome.next ran, modJob_alone c j _⟩
  · obtain ⟨frame, written, others⟩ := setJob_alone c j (copCfgWritten s v (getJob s j))
    refine ⟨_, congrArg Host.Outcome.next (runCopCfg_up up j v), frame, others, ?_⟩
    rw [written]
    exact ⟨copCfgWritten_enable .., fun on => copCfgWritten_of_enabled on s v, fun off => copCfgWritten_of_disabled off s v⟩
  · refine ⟨fun small => ?_, fun large => congrArg Host.Outcome.next ?_⟩
    · have ran : runCopInterval j v s = modJob s j fun jb => { jb with log2Next := some (bitsOf v.toNat 0 5) } := by
        unfold runCopInterval
        exact if_pos (by rw [up, decide_eq_true small]; rfl)
      exact ⟨_, congrArg Host.Outcome.next ran, modJob_alone c j _⟩
    · unfold runCopInterval
      exact if_neg (by rw [decide_eq_false (Nat.not_le.2 large), Bool.and_false]; decide)
  · have ran : runCopFetchTimeout j s = modJob s j fun jb => { jb with fetching := false, result := 3 } := by
      unfold runCopFetchTimeout
      exact if_pos (by rw [up, busy]; rfl)
    exact ⟨_, congrArg Host.Outcome.next ran, modJob_alone c j _⟩
  · refine congrArg Host.Outcome.next ?_
    unfold runCopFetchTimeout
    exact if_neg (by rw [still, Bool.and_false]; decide)

/-! ## Restores and fetches (R444, R445, R502) -/

/-- R444: some queue of the job context is in RUN, WAIT or MARK. -/
def JobBusy (s : State) (j : Nat) : Prop :=
  ∃ k, (getQueue s k).enable = true ∧ (qJob s k).toNat = j ∧
    ((getQueue s k).state = .run ∨ (getQueue s k).state = .wait ∨ (getQueue s k).state = .mark)

/-- A key whose value is not the default stands in the table. -/
theorem mem_keys_of_tabGet_ne {α : Type} {d : α} {k : Nat} : ∀ {t : Tab α}, tabGet d t k ≠ d → k ∈ t.map (·.1)
  | [], h => absurd rfl h
  | (k', v) :: r, h => by
    rw [List.map_cons, List.mem_cons]
    by_cases e : k = k'
    · exact .inl e
    · refine .inr (mem_keys_of_tabGet_ne (d := d) fun none => h ?_)
      rw [tabGet, if_neg (Ne.symm e), none]

theorem mem_jobQueues_iff {s : State} {j k : Nat} :
    k ∈ jobQueues s j ↔ (getQueue s k).enable = true ∧ (qJob s k).toNat = j := by
  unfold jobQueues
  rw [List.mem_filter, Bool.and_eq_true, beq_iff_eq]
  refine ⟨And.right, fun h => ⟨mem_keys_of_tabGet_ne (d := {}) fun none => ?_, h⟩⟩
  rw [getQueue, none] at h
  exact absurd h.1 (by decide)

theorem jobStill_eq_false_iff {s : State} {j : Nat} : jobStill s j = false ↔ JobBusy s j := by
  unfold jobStill JobBusy
  rw [List.all_eq_false]
  constructor
  · rintro ⟨k, mem, busy⟩
    obtain ⟨enable, job⟩ := mem_jobQueues_iff.1 mem
    refine ⟨k, enable, job, ?_⟩
    simpa [or_assoc, ← not_or] using busy
  · rintro ⟨k, enable, job, state⟩
    refine ⟨k, mem_jobQueues_iff.2 ⟨enable, job⟩, ?_⟩
    rcases state with e | e | e <;> simp [e]

theorem jobStill_of_not_busy {s : State} {j : Nat} (still : ¬ JobBusy s j) : jobStill s j = true := by
  rw [← jobStill_eq_false_iff] at still
  exact Bool.not_eq_false _ ▸ still

section
variable {s : State} {j : Job}

theorem runCopRestore_again (again : (getJob s j).restoring = true) : runCopRestore j s = s := by
  unfold runCopRestore
  exact if_pos (by rw [again, Bool.or_true])

theorem runCopFetch_again (again : (getJob s j).fetching = true) : runCopFetch j s = s := by
  unfold runCopFetch
  exact if_pos (by rw [again, Bool.or_true])

variable (up : anyHostUp s = true)
include up

theorem runCopRestore_busy (free : (getJob s j).restoring = false) (busy : JobBusy s j) : runCopRestore j s = setResult s j 6 := by
  unfold runCopRestore
  rw [if_neg (by rw [up, free]; decide), if_pos (by rw [jobStill_eq_false_iff.2 busy]; rfl)]

theorem runCopFetch_busy (free : (getJob s j).fetching = false) (busy : JobBusy s j) : runCopFetch j s = setResult s j 6 := by
  unfold runCopFetch
  rw [if_neg (by rw [up, free]; decide), if_pos (by rw [jobStill_eq_false_iff.2 busy]; rfl)]

/-- R444: a restore of a job context that is still. -/
theorem runCopRestore_still (free : (getJob s j).restoring = false) (still : ¬ JobBusy s j) :
    runCopRestore j s = match (findGen s j 0 (getJob s j).copStep).1 with
      | none => setResult (findGen s j 0 (getJob s j).copStep).2 j 2
      | some n => restoreFrom (findGen s j 0 (getJob s j).copStep).2 j n := by
  unfold runCopRestore
  exact (if_neg (c := (!anyHostUp s || (getJob s j).restoring) = true) (by rw [up, free]; decide)).trans
    (if_neg (c := (!jobStill s j) = true) (by rw [jobStill_of_not_busy still]; decide))

theorem runCopFetch_still (free : (getJob s j).fetching = false) (still : ¬ JobBusy s j) :
    runCopFetch j s = if copPorts s j = [] ∨ (copPorts s j).any (fun k => !(getPort s k).up) then setResult s j 3 else
      [0, 1].foldl (fun u h => match copPort u j h 0 false with
        | none => u
        | some k => enqueueFrame u k (copFrame u j 3 0 (getJob u j).copStep []))
        (modJob s j fun jb => { jb with fetching := true, fetched := 0, fetchPoison := false }) := by
  unfold runCopFetch
  exact (if_neg (c := (!anyHostUp s || (getJob s j).fetching) = true) (by rw [up, free]; decide)).trans
    (if_neg (c := (!jobStill s j) = true) (by rw [jobStill_of_not_busy still]; decide))

end

theorem restoreAndFetchNeedAStillJob : RestoreAndFetchNeedAStillJob := by
  intro j s c up busy result restores fetches
  have ends (v : Nat) : JobAlone j s (setResult s j v) { getJob s j with result := v } := modJob_alone c j _
  refine ⟨fun again => congrArg Host.Outcome.next (runCopRestore_again (by simpa [restores] using again)),
    fun again => congrArg Host.Outcome.next (runCopFetch_again (by simpa [fetches] using again)),
    fun work => ⟨fun free => ⟨_, congrArg Host.Outcome.next (runCopRestore_busy up free work), ends 6⟩,
      fun free => ⟨_, congrArg Host.Outcome.next (runCopFetch_busy up free work), ends 6⟩⟩, fun still => ⟨fun free down => ?_, ?_, ?_, ?_⟩⟩
  · refine ⟨_, congrArg Host.Outcome.next ((runCopFetch_still up free still).trans (if_pos ?_)), ends 3⟩
    rcases down with none | ⟨k, mem, off⟩
    · exact .inl none
    · exact .inr (List.any_eq_true.2 ⟨k, mem, by rw [off]; rfl⟩)
  · intro free some all
    refine congrArg Host.Outcome.next ((runCopFetch_still up free still).trans (if_neg ?_))
    rintro (none | any)
    · exact some none
    · obtain ⟨k, mem, off⟩ := List.any_eq_true.1 any
      rw [all k mem] at off
      cases off
  · intro free n found
    refine congrArg Host.Outcome.next ((runCopRestore_still up free still).trans ?_)
    rw [found]
  · intro free none
    refine congrArg Host.Outcome.next ((runCopRestore_still up free still).trans ?_)
    rw [none]

/-- Settles O24, by what each register and each start says of the job context. -/
theorem cooperRegistersAndRestoresAct : Obligations.CooperRegistersAndRestoresAct :=
  ⟨cooperRegistersAreWritten, restoreAndFetchNeedAStillJob⟩

end Sys2Proof.Machine
end

section
/-! O25: a signal that is applied where it is sent, the Cooper's triggers, and the end of its copies. -/

namespace Sys2Proof.Machine

/-! ## A signal sent and applied in one step (R62; O25) -/

/-- R358: only a packet of VC2 moves the counts of its outputs. -/
theorem travel_halls_changes {s : State} {v : Vc} (ne : v ≠ .vc2) {x : Way} : Changes [.halls] s (travel s v x) := by
  unfold travel
  dsimp only
  rw [if_neg ne]
  exact Changes.foldl .refl fun _ _ => modHall_changes fun _ h => h

theorem transit_halls_changes {s : State} {v : Vc} (ne : v ≠ .vc2) {net src dst al : Nat} {bs : List (Byte × Bool)} :
    Changes [.free, .halls] s (transit s net v src dst al bs).st := by
  have travelled : Changes [.free, .halls] s (travel s v (way s net src dst)) := (travel_halls_changes ne).mono (by decide)
  unfold transit
  dsimp only
  split
  · exact (travelled.next passMesh_changes (by decide)).next passSeam_changes (by decide)
  · exact ((travelled.next passMesh_changes (by decide)).next passSeam_changes (by decide)).next passMesh_changes (by decide)

theorem carrySignal_halls_changes {s : State} {g : Signal} : Changes [.free, .halls] s (carrySignal s g).st := by
  have carried := transit_halls_changes (s := s) (v := .vc0) (by decide) (net := 0) (src := g.stop) (dst := stewardStop (g.sem / 4096)) (al := 0)
    (bs := (leBytes 8 g.add.toNat).map fun b => (b, false))
  unfold carrySignal
  dsimp only
  split
  · exact carried
  · exact carried.next takeFree_changes (by decide)

/-- What arrives of a signal is for the semaphore that was named. -/
theorem carrySignal_sem (s : State) (g : Signal) : (carrySignal s g).sig.sem = g.sem ∧ (carrySignal s g).sig.source = g.source := by
  unfold carrySignal
  dsimp only
  split <;> exact ⟨rfl, rfl⟩

theorem carrySignal_quiet {s : State} (c : Canonical s) (q : QuietMesh s) (g : Signal) : (carrySignal s g).sig = g := by
  obtain ⟨t, carried, -⟩ := transit_quiet q c 0 .vc0 g.stop (stewardStop (g.sem / 4096)) 0 ((leBytes 8 g.add.toNat).map fun b => (b, false))
  unfold carrySignal
  dsimp only
  rw [carried]
  exact congrArg Arrived.sig (if_pos rfl)

/-- R62, R71: an increment of a semaphore that is not BROKEN. -/
theorem applySignal_unbroken {s : State} (c : Canonical s) {g : Signal} (whole : (getSem s g.sem).broken = false) :
    SemIncremented s (applySignal s g) g.sem g.add ∧ Changes [.sems, .halls] s (applySignal s g) ∧
      ∃ t, Changes [.sems] s t ∧ (applySignal s g = t ∨ applySignal s g = evSemWrap t g.sem g.source) := by
  let t := setSem s g.sem (addSem (getSem s g.sem) g.add)
  have added : getSem t g.sem = addSem (getSem s g.sem) g.add := getSem_setSem_same _ _ _ c.sems
  have set : Changes [.sems] s t := setSem_changes
  have ends : applySignal s g = t ∨ applySignal s g = evSemWrap t g.sem g.source := by
    unfold applySignal
    dsimp only
    split
    · refine .inr ?_
      unfold recheckBroken
      refine if_neg ?_
      rw [evSemWrap_changes.getSem rfl, added, addSem, whole]
      decide
    · exact .inl rfl
  have told : Changes [.halls] t (applySignal s g) := by
    rcases ends with e | e <;> rw [e]
    · exact .refl
    · exact evSemWrap_changes
  refine ⟨?_, ((set.mono (by decide)).next told (by decide)), t, set, ends⟩
  unfold SemIncremented
  rw [told.getSem rfl, added]
  refine ⟨rfl, rfl, rfl, fun k ne => ?_⟩
  rw [told.getSem rfl]
  exact getSem_setSem_ne _ _ ne

theorem eachHall_carrySignal {R : HallState → HallState → Prop} (w : Carrying R) {s : State} (c : Canonical s) (g : Signal) :
    EachHall R s (carrySignal s g).st := by
  have carried := eachHall_transit w c 0 .vc0 g.stop (stewardStop (g.sem / 4096)) 0 ((leBytes 8 g.add.toNat).map fun b => (b, false))
  unfold carrySignal
  dsimp only
  split
  · exact carried
  · exact carried.trans w.toReporting (eachHall_takeFree w carried.canonical)

theorem eachHall_evSemWrap {R : HallState → HallState → Prop} (w : Reporting R) {s : State} (c : Canonical s) (sem : Nat) (src : SignalFrom) :
    EachHall R s (evSemWrap s sem src) := by
  cases src <;> exact .pushEvent w c _ _

/-- R62: a signal sent and applied at once to a semaphore that is not BROKEN. -/
theorem sendHere_unbroken {R : HallState → HallState → Prop} (w : Carrying R) {s : State} (c : Canonical s) {g : Signal}
    (whole : (getSem s g.sem).broken = false) :
    Changes [.free, .sems, .halls, .series] s (sendHere s g) ∧ EachHall R s (sendHere s g) ∧
      (QuietMesh s → SemIncremented s (sendHere s g) g.sem g.add) := by
  let x := getSeries s (signalSeries g)
  let a := carrySignal s { g with num := x.sent }
  let v := answerSignal a.st g
  let u := setSeries v (signalSeries g) { sent := x.sent + 1, applied := x.applied + 1 }
  obtain ⟨sem, -⟩ := carrySignal_sem s { g with num := x.sent }
  have carried : Changes [.free, .halls] s a.st := carrySignal_halls_changes
  have answered : Changes [.free, .halls] s v := carried.next (transit_halls_changes (by decide)) (by decide)
  have ready : Changes [.free, .halls, .series] s u := (answered.mono (by decide)).next setSeries_changes (by decide)
  have canU : Canonical u := ready.canonical c
  have wholeU : (getSem u a.sig.sem).broken = false := by
    rw [show a.sig.sem = g.sem from sem, ready.getSem rfl]
    exact whole
  obtain ⟨incremented, changes, t, set, ends⟩ := applySignal_unbroken canU wholeU
  have halls : EachHall R s u := by
    have first : EachHall R s a.st := eachHall_carrySignal w c _
    exact (first.trans w.toReporting (eachHall_transit w first.canonical ..)).trans w.toReporting
      (.of_halls w.toReporting canU rfl)
  refine ⟨(ready.mono (by decide)).next changes (by decide), halls.trans w.toReporting (?_ : EachHall R u (applySignal u a.sig)), fun q => ?_⟩
  · have base : EachHall R u t := .of_changes w.toReporting canU set rfl
    rcases ends with e | e
    · rw [show applySignal u a.sig = _ from e]
      exact base
    · rw [show applySignal u a.sig = _ from e]
      exact base.trans w.toReporting (eachHall_evSemWrap w.toReporting base.canonical _ _)
  · have arrived : a.sig = { g with num := x.sent } := carrySignal_quiet c q _
    rw [arrived] at incremented
    rw [show sendHere s g = applySignal u { g with num := x.sent } from congrArg (applySignal u) arrived]
    unfold SemIncremented at *
    rw [ready.getSem rfl] at incremented
    obtain ⟨value, wrap, broken, others⟩ := incremented
    exact ⟨value, wrap, broken, fun k ne => (others k ne).trans (ready.getSem rfl k)⟩

/-! ## Triggers (R433, R440, R443; O25) -/

section
variable {s : State} {j : Job}

theorem runCooperTrigger_waits (wait : (getJob s j).copEnable = false ∨ (getJob s j).opening.isSome = true ∨ (getJob s j).closing.isSome = true ∨
    (getSem s (getJob s j).copTrig).value.toNat < (getJob s j).copV0.toNat + 1) : runCooperTrigger j s = s := by
  unfold runCooperTrigger
  refine if_neg ?_
  rcases wait with e | e | e | e
  · simp [e]
  · simp [e]
  · simp [e]
  · simp [Nat.lt_add_one_iff.1 e]

theorem runCooperTrigger_due (up : dieUp s = true) (on : (getJob s j).copEnable = true) (opening : (getJob s j).opening = none)
    (closing : (getJob s j).closing = none) (due : (getJob s j).copV0.toNat + 1 ≤ (getSem s (getJob s j).copTrig).value.toNat) :
    runCooperTrigger j s = copTrigger s j := by
  unfold runCooperTrigger
  exact if_pos (by simp [up, on, opening, closing, Nat.lt_iff_add_one_le.2 due])

end

theorem applyInterval_killed (jb : JobState) (step : W32) : (applyInterval jb step).killed = jb.killed := by
  unfold applyInterval
  split
  · rfl
  · split <;> rfl

/-- R443: the interval written takes effect at a step that both intervals divide. -/
theorem applyInterval_log2 (jb : JobState) (step : W32) :
    (jb.log2Next = none → (applyInterval jb step).log2 = jb.log2) ∧
      ∀ n, jb.log2Next = some n → (applyInterval jb step).log2 = if step.toNat % 2 ^ max jb.log2 n = 0 then n else jb.log2 := by
  unfold applyInterval
  refine ⟨fun none => by rw [none], fun n some => ?_⟩
  rw [some]
  dsimp only
  split <;> rfl

/-- R433: a trigger of a killed job context moves its registers alone. -/
theorem copTrigger_killed {s : State} (c : Canonical s) {j : Nat} (killed : (getJob s j).killed = true) :
    copTrigger s j = triggerRegs s j (getJob s j).copStep := by
  have same : (getJob (triggerRegs s j (getJob s j).copStep) j).killed = true := by
    unfold triggerRegs
    dsimp only
    rw [getJob_modJob_same _ _ _ (takeFree_changes.canonical c).jobs]
    exact (applyInterval_killed _ _).trans killed
  unfold copTrigger
  exact if_pos same

theorem triggersFollowTheirSemaphore : TriggersFollowTheirSemaphore := by
  intro j s c up jb
  refine ⟨fun wait => congrArg Host.Outcome.next (runCooperTrigger_waits wait), fun on opening closing due => ?_⟩
  have ran := runCooperTrigger_due up on opening closing due
  refine ⟨congrArg Host.Outcome.next ran, fun killed => ⟨_, congrArg Host.Outcome.next (ran.trans (copTrigger_killed c killed)), ?_⟩⟩
  have drawn : Canonical (takeFree s).2 := takeFree_changes.canonical c
  have job : getJob (takeFree s).2 j = jb := takeFree_changes.getJob rfl j
  obtain ⟨kept, taken⟩ := applyInterval_log2 jb jb.copStep
  unfold triggerRegs
  dsimp only
  rw [getJob_modJob_same _ _ _ drawn.jobs, job]
  exact ⟨rfl, rfl, rfl, kept, taken, fun x ne => (getJob_modJob_ne _ _ ne).trans (takeFree_changes.getJob rfl x), rfl⟩

/-! ## The end of the copies (R440, R442, R462, R467) -/

/-- R462: hall `a` without the requests, grants and loans of the copy stream of job context `j`. -/
def streamless (j : Nat) (a : HallState) : HallState :=
  { a with requests := a.requests.filter fun r => r.queue != 2048 + j, copGrants := tabSet 0 j 0 a.copGrants,
           lent := a.lent - tabGet 0 a.copLent j, copLent := tabSet 0 j 0 a.copLent }

theorem getHall_copStreamsEnd {s : State} (c : Canonical s) (j : Nat) {h : Nat} (hall : h < 2) :
    getHall (copStreamsEnd s j) h = streamless j (getHall s h) := by
  have first : Canonical (modHall s 0 (streamless j)) := canonical_modHall c _ _
  rw [show copStreamsEnd s j = modHall (modHall s 0 (streamless j)) 1 (streamless j) from rfl]
  obtain rfl | rfl : h = 0 ∨ h = 1 := by omega
  · rw [getHall_modHall_ne _ _ (by decide), getHall_modHall_same _ _ _ c.halls]
  · rw [getHall_modHall_same _ _ _ first.halls, getHall_modHall_ne _ _ (by decide)]

/-- Two halls whose mesh and links are the same. -/
def SameMesh (a b : HallState) : Prop := b.meshFlip = a.meshFlip ∧ b.seamFlip = a.seamFlip ∧ b.seam = a.seam

theorem QuietMesh.of_sameMesh {s t : State} (q : QuietMesh s) (fault : t.meshFault = s.meshFault) (resent : t.resent = s.resent)
    (same : ∀ h, SameMesh (getHall s h) (getHall t h)) : QuietMesh t where
  fault := fault.trans q.fault
  resent := resent.trans q.resent
  flips h := by
    obtain ⟨mesh, seam, -⟩ := same h
    rw [mesh, seam]
    exact q.flips h
  wires h n := by
    unfold getSeam
    rw [(same h).2.2]
    exact q.wires h n

theorem sameMesh_copStreamsEnd {s : State} (c : Canonical s) (j h : Nat) : SameMesh (getHall s h) (getHall (copStreamsEnd s j) h) := by
  by_cases hall : h < 2
  · rw [getHall_copStreamsEnd c j hall]
    exact ⟨rfl, rfl, rfl⟩
  · rw [show copStreamsEnd s j = modHall (modHall s 0 (streamless j)) 1 (streamless j) from rfl, getHall_modHall_ne _ _ (by omega),
      getHall_modHall_ne _ _ (by omega)]
    exact ⟨rfl, rfl, rfl⟩

/-- The grants and loans of the copy streams stand. -/
def SameLoans (a b : HallState) : Prop := b.copGrants = a.copGrants ∧ b.copLent = a.copLent

theorem carrying_sameLoans : Carrying SameLoans where
  refl _ := ⟨rfl, rfl⟩
  trans h k := ⟨k.1.trans h.1, k.2.trans h.2⟩
  event a t e := by
    unfold hallEvent
    split <;> exact ⟨rfl, rfl⟩
  sticky _ _ _ := ⟨rfl, rfl⟩
  detour _ _ := ⟨rfl, rfl⟩
  ecc _ _ := ⟨rfl, rfl⟩
  flip _ _ := ⟨rfl, rfl⟩
  seamFlip _ _ := ⟨rfl, rfl⟩
  link _ _ _ := ⟨rfl, rfl⟩

/-- R442: COST, where the close of the trigger has raised DONE_SEM already. -/
theorem costAt_opened (jb : JobState) (t : W64) :
    (∀ a, jb.openedAt = some a → jb.closing = none → costAt { jb with opening := none } t =
      { jb with opening := none, openedAt := none, cost := BitVec.ofNat 32 ((t - a).toNat / 1000) }) ∧
    (jb.openedAt = none ∨ jb.closing.isSome = true → costAt { jb with opening := none } t = { jb with opening := none }) := by
  unfold costAt
  refine ⟨fun a opened closed => ?_, fun none => ?_⟩
  · simp only [opened, closed]
    rfl
  · rcases none with e | e
    · simp only [e]
    · cases opened : jb.openedAt <;> simp [e]

theorem costAt_copDone (jb : JobState) (t : W64) : (costAt jb t).copDone = jb.copDone := by
  unfold costAt
  split
  · rfl
  · split <;> rfl

theorem copiesEndAtTheirLastAcknowledgement : CopiesEndAtTheirLastAcknowledgement := by
  intro j s c up jb
  have opened (o : W32 × W64) (e : jb.opening = some o) : runCooperCopyDone j s = if copiesDone s j o.1 then
      copDone (modJob (copStreamsEnd s j) j fun jb => costAt { jb with opening := none } (now s 0)) j 1 else s := by
    unfold runCooperCopyDone
    rw [if_neg (by rw [up]; decide), show (getJob s j).opening = some o from e]
  refine ⟨fun none => congrArg Host.Outcome.next ?_, fun o e => ⟨fun wait => congrArg Host.Outcome.next ?_, fun done whole => ?_⟩⟩
  · unfold runCooperCopyDone
    rw [if_neg (by rw [up]; decide), show (getJob s j).opening = Option.none from none]
  · rw [opened o e, wait]
    rfl
  · let ended := copStreamsEnd s j
    let u := modJob ended j fun jb => costAt { jb with opening := none } (now s 0)
    have ends : Changes [.halls] s ended := copStreamsEnd_changes
    have canEnded : Canonical ended := ends.canonical c
    have canU : Canonical u := { canEnded with jobs := tabWf_tabSet canEnded.jobs _ _ }
    have job : getJob u j = costAt { jb with opening := none } (now s 0) := by
      rw [getJob_modJob_same _ _ _ canEnded.jobs, ends.getJob rfl]
    have sem : (getJob u j).copDone = jb.copDone := by rw [job, costAt_copDone]
    have sems (k : Nat) : getSem u k = getSem s k := ends.getSem rfl k
    obtain ⟨changes, loans, quiet⟩ := sendHere_unbroken carrying_sameLoans canU
      (g := { sem := (getJob u j).copDone, add := BitVec.ofNat 64 1, source := .host, stop := cooperStop 0 })
      (by rw [sems, sem]; exact whole)
    refine ⟨_, congrArg Host.Outcome.next ((opened o e).trans (if_pos done)), ?_⟩
    rw [show copDone u j 1 = sendHere u _ from rfl]
    generalize sendHere u { sem := (getJob u j).copDone, add := BitVec.ofNat 64 1, source := .host, stop := cooperStop 0 } = t at changes loans quiet
    have same : getJob t j = costAt { jb with opening := none } (now s 0) := (changes.getJob rfl j).trans job
    rw [same]
    obtain ⟨open_, closed⟩ := costAt_opened jb (now s 0)
    refine ⟨open_, closed, fun q => ?_, fun x ne => ?_, fun h hall wf => ?_, fun h hall wf => ?_, ?_⟩
    · have calm : QuietMesh u := q.of_sameMesh (ends.only .meshFault rfl) (ends.only .resent rfl) (sameMesh_copStreamsEnd c j)
      have incremented := quiet calm
      unfold SemIncremented at incremented ⊢
      rw [sem, sems] at incremented
      exact incremented
    · rw [changes.getJob rfl, getJob_modJob_ne _ _ ne, ends.getJob rfl]
    · rw [(loans.hall h).1, show getHall u h = _ from getHall_copStreamsEnd c j hall]
      exact tabGet_tabSet_same wf _ _
    · rw [(loans.hall h).2, show getHall u h = _ from getHall_copStreamsEnd c j hall]
      exact tabGet_tabSet_same wf _ _
    · have jobs : Changes [.free, .sems, .halls, .series, .jobs] s u := (ends.mono (by decide)).next (modJob_changes fun _ h => costAt_legal h) (by decide)
      exact (jobs.next changes (by decide)).eq_with rfl fun p => by cases p <;> rfl

/-- Settles O25, by what a trigger moves and what the end of the copies sends. -/
theorem cooperTriggersAndCopiesEnd : Obligations.CooperTriggersAndCopiesEnd :=
  ⟨triggersFollowTheirSemaphore, copiesEndAtTheirLastAcknowledgement⟩

end Sys2Proof.Machine
end

section
/-! O26, O27: the sticky bits of the halls, cleared, forced and reported. -/

namespace Sys2Proof.Machine

/-! ## Bits (R427, R428) -/

theorem getLsbD_twoPow (m n : Nat) : (BitVec.ofNat 64 (2 ^ m)).getLsbD n = (decide (n < 64) && decide (m = n)) := by
  rw [BitVec.getLsbD_ofNat, Nat.testBit_two_pow]

/-- A fold over the bits of a register that names one of them. -/
theorem foldl_one_bit {α : Type} (f : α → Nat → α) (s : α) {n : Nat} (small : n < 44) :
    (List.range 44).foldl (fun s m => if bitOf (BitVec.ofNat 64 (2 ^ n)).toNat m then f s m else s) s = f s n := by
  rw [← List.foldl_filter]
  have one : (List.range 44).filter (fun m => bitOf (BitVec.ofNat 64 (2 ^ n)).toNat m) = [n] := by
    have named : ∀ m ∈ List.range 44, bitOf (BitVec.ofNat 64 (2 ^ n)).toNat m = decide (m = n) := fun m mem => by
      rw [bitOf_toNat, getLsbD_twoPow, decide_eq_true (by have := List.mem_range.1 mem; omega), Bool.true_and, decide_eq_decide]
      exact eq_comm
    rw [List.filter_congr named, List.filter_eq, List.count_eq_one_of_mem List.nodup_range (List.mem_range.2 small)]
    rfl
  rw [one]
  rfl

/-! ## Reports (R425) -/

/-- The sticky bits of hall `b` are those of `a` with more of `B` set, and the hall is as much down. -/
def Rises (B : Nat → Prop) (a b : HallState) : Prop :=
  b.down = a.down ∧ (∀ n, a.sticky.getLsbD n = true → b.sticky.getLsbD n = true) ∧
    ∀ n, n < 64 → ¬ B n → b.sticky.getLsbD n = a.sticky.getLsbD n

theorem Rises.refl (B : Nat → Prop) (a : HallState) : Rises B a a := ⟨rfl, fun _ h => h, fun _ _ _ => rfl⟩

theorem Rises.trans {B : Nat → Prop} {a b c : HallState} (h : Rises B a b) (k : Rises B b c) : Rises B a c := by
  obtain ⟨down, keep, out⟩ := h
  obtain ⟨down', keep', out'⟩ := k
  exact ⟨down'.trans down, fun n set => keep' n (keep n set), fun n small not => (out' n small not).trans (out n small not)⟩

theorem rises_stuck {B : Nat → Prop} {src : Nat} (mem : B src) (cls : Nat) (a : HallState) : Rises B a (stuck src cls a) := by
  refine ⟨rfl, fun n set => ?_, fun n _ not => ?_⟩
  · rw [stuck, BitVec.getLsbD_or, set, Bool.true_or]
  · rw [stuck, BitVec.getLsbD_or, getLsbD_twoPow, decide_eq_false (fun e : src = n => not (e ▸ mem)), Bool.and_false, Bool.or_false]

theorem rises_hallEvent (B : Nat → Prop) (a : HallState) (t : W64) (e : EventSpec) : Rises B a (hallEvent a t e) := by
  refine ⟨?_, fun n set => ?_, fun n _ _ => ?_⟩
  · unfold hallEvent
    split <;> rfl
  · rwa [hallEvent_sticky]
  · rw [hallEvent_sticky]

/-- From `s` to `t` the sticky bits of `B` may be set, and nothing else changes but what the Bellman and the events keep. -/
structure AllRise (B : Nat → Prop) (s t : State) : Prop where
  canonical : Canonical t
  frame : t = { s with halls := t.halls }
  rises : ∀ x, Rises B (getHall s x) (getHall t x)

section
variable {B : Nat → Prop} {s t u : State}

theorem AllRise.refl (c : Canonical s) : AllRise B s s := ⟨c, rfl, fun _ => .refl B _⟩

theorem AllRise.trans (h : AllRise B s t) (k : AllRise B t u) : AllRise B s u where
  canonical := k.canonical
  frame := by
    rw [k.frame, h.frame]
  rises x := (h.rises x).trans (k.rises x)

theorem AllRise.modHall (c : Canonical s) (h : Nat) {f : HallState → HallState} (step : ∀ a, Rises B a (f a)) : AllRise B s (modHall s h f) where
  canonical := canonical_modHall c _ _
  frame := rfl
  rises x := by
    by_cases e : x = h
    · subst e
      rw [getHall_modHall_same _ _ _ c.halls]
      exact step _
    · rw [getHall_modHall_ne _ _ e]
      exact .refl B _

theorem AllRise.report (c : Canonical s) {src : Nat} (mem : B src) (h cls : Nat) (forced : Bool) (job : Option Nat) :
    AllRise B s (report s h src cls forced job) := by
  have set (cls : Nat) : AllRise B s (setSticky s h src cls) := .modHall c h (rises_stuck mem cls)
  unfold Machine.report
  split
  · exact set 0
  · exact (set cls).trans (.modHall (set cls).canonical h fun a => rises_hallEvent B a _ _)

theorem AllRise.foldl {α : Type} {f : State → α → State} {l : List α} (c : Canonical s)
    (step : ∀ s, ∀ a ∈ l, Canonical s → AllRise B s (f s a)) : AllRise B s (l.foldl f s) :=
  List.foldlRecOn (motive := AllRise B s) l f (.refl c) fun t h a mem => h.trans (step t a mem h.canonical)

end

/-- A report sets the bit of its source. -/
theorem sticky_report {s : State} (c : Canonical s) (h : Nat) {src : Nat} (small : src < 64) (cls : Nat) (forced : Bool) (job : Option Nat) :
    (getHall (report s h src cls forced job) h).sticky.getLsbD src = true := by
  unfold report
  split
  · rw [raiseQuiet, setSticky_eq, getHall_modHall_same _ _ _ c.halls, stuck, BitVec.getLsbD_or, getLsbD_twoPow]
    simp [small]
  · exact sticky_raise c h small cls _

/-- What is set by one of a list of steps, and cleared by none, stands at the end. -/
theorem sticky_foldl {B : Nat → Prop} {α : Type} {f : State → α → State} {l : List α} (step : ∀ s, ∀ a ∈ l, Canonical s → AllRise B s (f s a))
    {a : α} (mem : a ∈ l) {x n : Nat} (sets : ∀ s, Canonical s → (getHall (f s a) x).sticky.getLsbD n = true) {s : State} (c : Canonical s) :
    (getHall (l.foldl f s) x).sticky.getLsbD n = true := by
  obtain ⟨before, later, rfl⟩ := List.append_of_mem mem
  have first : AllRise B s (before.foldl f s) := .foldl c fun s b m => step s b (List.mem_append_left _ m)
  have here := step _ a mem first.canonical
  rw [List.foldl_append, List.foldl_cons]
  exact ((AllRise.foldl (B := B) here.canonical fun s b m => step s b (List.mem_append_right _ (List.mem_cons_of_mem _ m))).rises x).2.1 n
    (sets _ first.canonical)

/-- R423: a report in every hall of its source. -/
theorem reportHalls {B : Nat → Prop} {s : State} (c : Canonical s) {src : Nat} (mem : B src) (small : src < 64) (h cls : Nat) (forced : Bool)
    (job : Option Nat) :
    let t := (sourceHalls h src).foldl (fun u x => report u x src cls forced job) s
    AllRise B s t ∧ ∀ x ∈ sourceHalls h src, (getHall t x).sticky.getLsbD src = true :=
  ⟨.foldl c fun _ x _ c => .report c mem x cls forced job,
    fun _ named => sticky_foldl (B := B) (fun _ x _ c => .report c mem x cls forced job) named (fun _ c => sticky_report c _ small cls forced job) c⟩

/-! ## Forced sources (R428; O27) -/

theorem forcedSourcesSetTheirBits : ForcedSourcesSetTheirBits := by
  intro h v s c up
  let B (n : Nat) : Prop := n < 44 ∧ v.getLsbD n = true
  have step (s : State) (n : Nat) (mem : n ∈ List.range 44) (c : Canonical s) :
      AllRise B s (if bitOf v.toNat n then forceSource s h n else s) := by
    split
    · next set =>
      exact (reportHalls c ⟨List.mem_range.1 mem, bitOf_toNat v n ▸ set⟩ (by have := List.mem_range.1 mem; omega) h (forcedClass n) true none).1
    · exact .refl c
  have ran : runForce h v s = (List.range 44).foldl (fun s n => if bitOf v.toNat n then forceSource s h n else s) s := by
    unfold runForce
    exact if_pos up
  have all : AllRise B s ((List.range 44).foldl (fun s n => if bitOf v.toNat n then forceSource s h n else s) s) := .foldl c step
  refine ⟨_, congrArg Host.Outcome.next ran, all.frame, fun n small set x named => ?_, fun n x _ set => (all.rises x).2.1 n set,
    fun n x small out => (all.rises x).2.2 n small ?_, fun x => (all.rises x).1⟩
  · refine sticky_foldl step (List.mem_range.2 small) (fun s c => ?_) c
    rw [bitOf_toNat, set]
    exact (reportHalls (B := fun _ => True) c trivial (by omega) h (forcedClass n) true none).2 x named
  · rintro ⟨low, set⟩
    rcases out with high | clear
    · omega
    · rw [clear] at set
      cases set

theorem reportsSetStickyBitsAndAct : ReportsSetStickyBitsAndAct := by
  intro h src cls job s can up c told
  have ran : runReport h src cls job s = if c = 3 then
      match job with
      | none => told
      | some j => killJob told j (killCause src) (originNext s h src c)
      else applyClass told h src c (originNext s h src c) := by
    unfold runReport
    exact if_neg (c := (!dieUp s) = true) (by rw [up]; decide)
  obtain ⟨all, sets⟩ := reportHalls (B := fun _ => True) can (src := src) trivial (by omega) h c false (job.map fun j => j.val)
  have down : (getHall told h).down = (getHall s h).down := (all.rises h).1
  have mod : told.moduleDown = s.moduleDown := by rw [show told = _ from all.frame]
  refine ⟨sets, all.frame, fun no3 no5 no6 => ?_, fun e none => ?_, fun j e some => ?_, fun e was => ?_, fun e was => ?_, fun e was => ?_,
    fun e was => ?_⟩ <;> refine congrArg Host.Outcome.next (ran.trans ?_)
  · rw [if_neg no3, applyClass, if_neg no5, if_neg no6]
  · subst none
    exact if_pos e
  · subst some
    exact if_pos e
  · rw [if_neg (by omega), applyClass, if_pos e, down, was]
    rfl
  · rw [if_neg (by omega), applyClass, if_pos e, down, was]
    rfl
  · rw [if_neg (by omega), applyClass, if_neg (by omega), if_pos e, mod, was]
    rfl
  · rw [if_neg (by omega), applyClass, if_neg (by omega), if_pos e, mod, was]
    rfl

/-- Settles O27, by what a report and a forced raise may change. -/
theorem sourcesAreReportedAndForced : Obligations.SourcesAreReportedAndForced := ⟨forcedSourcesSetTheirBits, reportsSetStickyBitsAndAct⟩

/-! ## Bits cleared (R427; O26) -/

/-- A field of the halls that a change of one hall leaves. -/
theorem hall_field_modHall {α : Type} {s : State} (c : Canonical s) {h : Nat} {f : HallState → HallState} (read : HallState → α)
    (kept : ∀ a, read (f a) = read a) (x : Nat) : read (getHall (modHall s h f) x) = read (getHall s x) := by
  by_cases e : x = h
  · subst e
    rw [getHall_modHall_same _ _ _ c.halls, kept]
  · rw [getHall_modHall_ne _ _ e]

/-- The links, the holes and the PCIe link of a hall stand. -/
def SameLinks (a b : HallState) : Prop := b.seam = a.seam ∧ b.holes = a.holes ∧ b.linkUp = a.linkUp

/-- R427: a condition persists whatever the sticky bits say. -/
theorem persists_of_frame {s t : State} (frame : t = { s with halls := t.halls }) (same : ∀ x, SameLinks (getHall s x) (getHall t x)) (h n : Nat) :
    persists t h n = persists s h n := by
  have seam (x l : Nat) : getSeam (getHall t x) l = getSeam (getHall s x) l := congrArg (tabGet ({} : SeamLink) · l) (same x).1
  have out (net : Nat) : linksOut t net = linksOut s net := by
    unfold linksOut linkUsable isHole
    simp only [seam, fun x => (same x).2.1]
  unfold persists seamClass
  rw [out, out, (same h).2.2]
  rw [frame]

theorem persists_clearBit {s : State} (c : Canonical s) (h m n : Nat) : persists (modHall s h fun hl => clearBit hl m) h n = persists s h n := by
  refine persists_of_frame rfl (fun x => ?_) h n
  by_cases e : x = h
  · subst e
    rw [getHall_modHall_same _ _ _ c.halls]
    exact ⟨rfl, rfl, rfl⟩
  · rw [getHall_modHall_ne _ _ e]
    exact ⟨rfl, rfl, rfl⟩

theorem clearBit_getLsbD (a : HallState) (m n : Nat) :
    (clearBit a m).sticky.getLsbD n = (a.sticky.getLsbD n && !decide (m = n)) := by
  rw [clearBit, BitVec.getLsbD_and, BitVec.getLsbD_not, getLsbD_twoPow]
  by_cases small : n < 64
  · simp [small]
  · rw [BitVec.getLsbD_of_ge _ _ (by omega), Bool.false_and, Bool.false_and]

/-- R424: clearing a bit leaves the class of every other source. -/
theorem sourceClass_clearBit {m n : Nat} (ne : n ≠ m) (a : HallState) : sourceClass (clearBit a m) n = sourceClass a n := by
  unfold sourceClass clearBit
  split
  · next e => exact if_neg (by omega)
  split
  · next e => exact if_neg (by omega)
  split
  · next e => exact if_neg (by omega)
  split
  · next e => exact if_neg (by omega)
  · rfl

/-- Nothing of a settled source raises it again. -/
theorem clearSticky_settled {s : State} (c : Canonical s) {h n : Nat} (set : (getHall s h).sticky.getLsbD n = true)
    (free : clearable s h n = true) (settled : Settled s h n) : clearSticky s h n = modHall s h fun hl => clearBit hl n := by
  obtain ⟨ports, outages, rest⟩ := settled
  unfold clearSticky
  rw [if_pos (by rw [bitOf_toNat, set, free]; rfl)]
  dsimp only
  split
  · next e => rw [show lostPorts (modHall s h fun hl => clearBit hl n) h = [] from ports e]; rfl
  split
  · next e =>
    rw [hall_field_modHall c (f := fun hl => clearBit hl n) HallState.conds (fun _ => rfl)]
    refine List.foldlRecOn (motive := (· = modHall s h fun hl => clearBit hl n)) _ _ rfl fun t same x mem => ?_
    subst same
    exact if_pos (outages e x mem)
  · next e => exact if_pos ((persists_clearBit c h n n).trans (rest (by omega) (by omega)))

theorem clearSticky_unset {s : State} {h n : Nat} (clear : (getHall s h).sticky.getLsbD n = false) : clearSticky s h n = s := by
  unfold clearSticky
  exact if_neg (by rw [bitOf_toNat, clear, Bool.false_and]; decide)

theorem clearSticky_held {s : State} {h n : Nat} (held : clearable s h n = false) : clearSticky s h n = s := by
  unfold clearSticky
  exact if_neg (by rw [held, Bool.and_false]; decide)

/-- Hall `b` is hall `a` with the bits of `v` below `m` cleared. -/
structure ClearedTo (v : W64) (m : Nat) (a b : HallState) : Prop where
  rest : b = { a with sticky := b.sticky, heldRouter := b.heldRouter, heldSeam := b.heldSeam, heldPll := b.heldPll, heldVr := b.heldVr }
  bits : ∀ n, b.sticky.getLsbD n = (a.sticky.getLsbD n && !(decide (n < m) && v.getLsbD n))
  router : b.heldRouter = if decide (8 < m) && v.getLsbD 8 && a.sticky.getLsbD 8 then 0 else a.heldRouter
  later : ∀ n, m ≤ n → sourceClass b n = sourceClass a n

theorem ClearedTo.zero (v : W64) (a : HallState) : ClearedTo v 0 a a where
  rest := rfl
  bits n := by simp
  router := rfl
  later _ _ := rfl

theorem ClearedTo.skip {v : W64} {m : Nat} {a b : HallState} (h : ClearedTo v m a b) (out : v.getLsbD m = false ∨ a.sticky.getLsbD m = false) :
    ClearedTo v (m + 1) a b where
  rest := h.rest
  bits n := by
    rw [h.bits]
    by_cases e : n = m
    · subst e
      rcases out with o | o <;> simp [o]
    · rw [show decide (n < m + 1) = decide (n < m) from decide_eq_decide.2 (by omega)]
  router := by
    rw [h.router]
    by_cases e : 8 = m
    · subst e
      rcases out with o | o <;> simp only [o, Bool.and_false, Bool.false_and, Nat.lt_irrefl, decide_false, Bool.false_eq_true, if_false]
    · rw [show decide (8 < m + 1) = decide (8 < m) from decide_eq_decide.2 (by omega)]
  later n le := h.later n (by omega)

theorem ClearedTo.clear {v : W64} {m : Nat} {a b : HallState} (h : ClearedTo v m a b) (named : v.getLsbD m = true)
    (set : a.sticky.getLsbD m = true) : ClearedTo v (m + 1) a (clearBit b m) where
  rest := by
    conv_lhs => rw [h.rest]
    rfl
  bits n := by
    rw [clearBit_getLsbD, h.bits]
    by_cases e : n = m
    · subst e
      simp [named]
    · rw [show decide (n < m + 1) = decide (n < m) from decide_eq_decide.2 (by omega), decide_eq_false (Ne.symm e), Bool.not_false, Bool.and_true]
  router := by
    by_cases e : 8 = m
    · subst e
      simp [clearBit, named, set]
    · rw [show decide (8 < m + 1) = decide (8 < m) from decide_eq_decide.2 (by omega), ← h.router]
      exact if_neg (Ne.symm e)
  later n le := (sourceClass_clearBit (by omega) b).trans (h.later n (by omega))

theorem clearable_of_later {v : W64} {m n : Nat} {s t : State} {h : Nat} (frame : t = { s with halls := t.halls })
    (cleared : ClearedTo v m (getHall s h) (getHall t h)) (le : m ≤ n) : clearable t h n = clearable s h n := by
  unfold clearable
  rw [cleared.later n le, show (getHall t h).down = (getHall s h).down by rw [cleared.rest], frame]

theorem settled_of_cleared {v : W64} {m n : Nat} {s t : State} {h : Nat} (frame : t = { s with halls := t.halls })
    (cleared : ClearedTo v m (getHall s h) (getHall t h)) (others : ∀ x, x ≠ h → getHall t x = getHall s x) (settled : Settled s h n) :
    Settled t h n := by
  obtain ⟨ports, outages, rest⟩ := settled
  have lost : lostPorts t h = lostPorts s h := by
    rw [frame]
    rfl
  refine ⟨fun e => lost.trans (ports e), fun e => ?_, fun a b => ?_⟩
  · rw [show (getHall t h).conds = (getHall s h).conds by rw [cleared.rest]]
    exact outages e
  · refine (persists_of_frame frame (fun x => ?_) h n).trans (rest a b)
    by_cases e : x = h
    · subst e
      rw [cleared.rest]
      exact ⟨rfl, rfl, rfl⟩
    · rw [others x e]
      exact ⟨rfl, rfl, rfl⟩

/-- R427: the bits written 1 clear one after the other, where none is raised again. -/
theorem clearedTo_foldl {s : State} (c : Canonical s) (h : Nat) (v : W64)
    (free : ∀ n, n < 44 → v.getLsbD n = true → clearable s h n = true ∧ Settled s h n) :
    ∀ m, m ≤ 44 → ∃ t, (List.range m).foldl (fun s n => if bitOf v.toNat n then clearSticky s h n else s) s = t ∧ Canonical t ∧
      t = { s with halls := t.halls } ∧ (∀ x, x ≠ h → getHall t x = getHall s x) ∧ ClearedTo v m (getHall s h) (getHall t h)
  | 0, _ => ⟨s, rfl, c, rfl, fun _ _ => rfl, .zero v _⟩
  | m + 1, le => by
    obtain ⟨t, ran, can, frame, others, cleared⟩ := clearedTo_foldl c h v free m (by omega)
    rw [List.range_succ, List.foldl_append, ran, List.foldl_cons, List.foldl_nil, bitOf_toNat]
    cases named : v.getLsbD m with
    | false => exact ⟨t, rfl, can, frame, others, cleared.skip (.inl named)⟩
    | true =>
      have bit : (getHall t h).sticky.getLsbD m = (getHall s h).sticky.getLsbD m := by
        rw [cleared.bits, decide_eq_false (by omega), Bool.false_and, Bool.not_false, Bool.and_true]
      cases set : (getHall s h).sticky.getLsbD m with
      | false =>
        rw [if_pos rfl, clearSticky_unset (bit.trans set)]
        exact ⟨t, rfl, can, frame, others, cleared.skip (.inr set)⟩
      | true =>
        obtain ⟨may, settled⟩ := free m (by omega) named
        rw [if_pos rfl, clearSticky_settled can (bit.trans set) ((clearable_of_later frame cleared (by omega)).trans may)
          (settled_of_cleared frame cleared others settled)]
        refine ⟨_, rfl, canonical_modHall can _ _, ?_, fun x ne => (getHall_modHall_ne _ _ ne).trans (others x ne), ?_⟩
        · exact congrArg (fun u : State => { u with halls := (modHall t h fun hl => clearBit hl m).halls }) frame
        · rw [getHall_modHall_same _ _ _ can.halls]
          exact cleared.clear named set

theorem runStickyClear_up {h : Hall} {s : State} (up : hostUp s h = true) (v : W64) :
    runStickyClear h v s = (List.range 44).foldl (fun s n => if bitOf v.toNat n then clearSticky s h n else s) s := by
  unfold runStickyClear
  exact if_pos up

theorem runStickyClear_one {h : Hall} {s : State} (up : hostUp s h = true) {n : Nat} (small : n < 44) :
    runStickyClear h (BitVec.ofNat 64 (2 ^ n)) s = clearSticky s h n :=
  (runStickyClear_up up _).trans (foldl_one_bit (fun s m => clearSticky s h m) s small)

/-- R427: a source other than FS_PORT_DOWN, a PLL or a supply, whose condition persists, is raised again in its halls. -/
theorem clearSticky_persists {s : State} {h n : Nat} (set : (getHall s h).sticky.getLsbD n = true) (free : clearable s h n = true)
    (ports : n ≠ 26) (still : persists (modHall s h fun hl => clearBit hl n) h n ≠ 0) :
    clearSticky s h n = (sourceHalls h n).foldl (fun u x => report u x n (persists (modHall s h fun hl => clearBit hl n) h n) false none)
      (modHall s h fun hl => clearBit hl n) := by
  have outage : ¬ (n = 12 ∨ n = 32) := by
    rintro (e | e) <;> subst e <;> exact still rfl
  unfold clearSticky
  rw [if_pos (by rw [bitOf_toNat, set, free]; rfl)]
  dsimp only
  rw [if_neg ports, if_neg outage, if_neg still]

/-- R427: a PLL or supply that failed is raised again with its event, or has come back. -/
theorem clearSticky_outage {s : State} {h n : Nat} (set : (getHall s h).sticky.getLsbD n = true) (free : clearable s h n = true)
    (outage : n = 12 ∨ n = 32) :
    clearSticky s h n = (getHall (modHall s h fun hl => clearBit hl n) h).conds.foldl (fun u x => reraise u h n x)
      (modHall s h fun hl => clearBit hl n) := by
  unfold clearSticky
  rw [if_pos (by rw [bitOf_toNat, set, free]; rfl)]
  dsimp only
  rw [if_neg (by omega), if_pos outage]

/-- What the turn of one failed PLL or supply leaves: bits that are set stay, and of the failures of its hall some have come back. -/
structure Reraised (h : Nat) (s t : State) : Prop where
  canonical : Canonical t
  frame : t = { s with halls := t.halls, free := t.free }
  bits : ∀ x n, (getHall s x).sticky.getLsbD n = true → (getHall t x).sticky.getLsbD n = true
  conds : ∀ c ∈ (getHall t h).conds, c ∈ (getHall s h).conds

theorem Reraised.refl {s : State} (c : Canonical s) (h : Nat) : Reraised h s s := ⟨c, rfl, fun _ _ h => h, fun _ h => h⟩

theorem Reraised.trans {h : Nat} {s t u : State} (a : Reraised h s t) (b : Reraised h t u) : Reraised h s u where
  canonical := b.canonical
  frame := by
    rw [b.frame, a.frame]
  bits x n set := b.bits x n (a.bits x n set)
  conds c mem := a.conds c (b.conds c mem)

theorem conds_raise {s : State} (c : Canonical s) (h x src cls : Nat) (e : EventSpec) :
    (getHall (raise s x src cls e) h).conds = (getHall s h).conds := by
  by_cases same : h = x
  · subst same
    rw [onlyReports_raise c h src cls e]
  · rw [getHall_raise_ne same]

theorem Reraised.raise {s : State} (c : Canonical s) (h x src cls : Nat) (e : EventSpec) : Reraised h s (raise s x src cls e) where
  canonical := raise_changes.canonical c
  frame := rfl
  bits _ _ set := sticky_raise_of_sticky c set ..
  conds _ mem := conds_raise c h x src cls e ▸ mem

theorem Reraised.foldl {α : Type} {h : Nat} {f : State → α → State} (step : ∀ {s} a, Canonical s → Reraised h s (f s a)) (l : List α) {s : State}
    (c : Canonical s) : Reraised h s (l.foldl f s) :=
  List.foldlRecOn (motive := Reraised h s) l f (.refl c h) fun _ k a _ => k.trans (step a k.canonical)

/-- R427: a PLL or supply of the source has come back, or the bits of the source are set. -/
def SettledOutage (h n : Nat) (x : Outage) (t : State) : Prop :=
  x.source = n → x ∉ (getHall t h).conds ∨ ∀ y ∈ sourceHalls h n, (getHall t y).sticky.getLsbD n = true

theorem SettledOutage.next {h n : Nat} {x : Outage} {t u : State} (a : SettledOutage h n x t) (k : Reraised h t u) : SettledOutage h n x u := by
  intro e
  rcases a e with gone | set
  · exact .inl fun mem => gone (k.conds x mem)
  · exact .inr fun y named => k.bits y n (set y named)

theorem reraise_settles {s : State} (c : Canonical s) (h : Nat) {n : Nat} (small : n < 64) (x : Outage) :
    Reraised h s (reraise s h n x) ∧ SettledOutage h n x (reraise s h n x) := by
  have free : Reraised h s (takeFree s).2 := ⟨takeFree_changes.canonical c, rfl, fun _ _ set => set, fun _ mem => mem⟩
  unfold reraise
  split
  · next other => exact ⟨.refl c h, fun e => absurd e other⟩
  dsimp only
  split
  · refine ⟨free.trans (.foldl (fun y c => .raise c h y n x.cls _) _ free.canonical), fun _ => .inr fun y named => ?_⟩
    have halls : sourceHalls h n = [0, 1] ∨ sourceHalls h n = [h] := by
      unfold sourceHalls
      split
      · exact .inl rfl
      · exact .inr rfl
    rcases halls with two | one
    · rw [two] at named ⊢
      exact sticky_raiseBoth free.canonical small x.cls _ (by simpa [Nat.lt_succ_iff, Nat.le_one_iff_eq_zero_or_eq_one] using named)
    · rw [one] at named ⊢
      obtain rfl := List.mem_singleton.1 named
      exact sticky_raise free.canonical y small x.cls _
  · refine ⟨free.trans ⟨canonical_modHall free.canonical _ _, rfl, fun y m set => ?_, fun y mem => ?_⟩, fun _ => .inl ?_⟩
    · rw [hall_field_modHall free.canonical HallState.sticky]
      · exact set
      · exact fun _ => rfl
    · rw [getHall_modHall_same _ _ _ free.canonical.halls] at mem
      exact (List.mem_filter.1 mem).1
    · rw [getHall_modHall_same _ _ _ free.canonical.halls]
      intro mem
      simpa using (List.mem_filter.1 mem).2

/-- R427: after every failure had its turn, each of those left has set the bits of its source. -/
theorem foldl_reraise {h n : Nat} (small : n < 64) : ∀ (l : List Outage) {s : State}, Canonical s →
    let t := l.foldl (fun u x => reraise u h n x) s
    Reraised h s t ∧ ∀ x ∈ l, SettledOutage h n x t
  | [], _, c => ⟨.refl c h, fun _ mem => absurd mem List.not_mem_nil⟩
  | x :: l, _, c => by
    obtain ⟨turn, settled⟩ := reraise_settles c h small x
    obtain ⟨rest, all⟩ := foldl_reraise (h := h) small l turn.canonical
    refine ⟨turn.trans rest, fun y mem => ?_⟩
    rcases List.mem_cons.1 mem with rfl | later
    · exact settled.next rest
    · exact all y later

/-- Settles O26, by the bits one after the other, and by what raises a source again. -/
theorem stickyBitsClearWhenWritten : Obligations.StickyBitsClearWhenWritten := by
  refine ⟨fun h v s c up free => ?_, fun h n s small up held => ?_, fun h n s c small ports up may set still => ?_, fun h n s c outage up may set => ?_⟩
  · obtain ⟨t, ran, -, frame, others, cleared⟩ := clearedTo_foldl c h v free 44 (by omega)
    refine ⟨t, congrArg Host.Outcome.next ((runStickyClear_up up v).trans ran), frame, others, fun n _ => cleared.bits n, ?_, ?_⟩
    · rw [cleared.router, decide_eq_true (by omega), Bool.true_and]
    · rw [cleared.rest]
  · exact congrArg Host.Outcome.next ((runStickyClear_one up small).trans (clearSticky_held held))
  · obtain ⟨all, sets⟩ := reportHalls (B := fun _ => True) (canonical_modHall c h fun hl => clearBit hl n) (src := n) trivial (by omega) h
      (persists (modHall s h fun hl => clearBit hl n) h n) false none
    refine ⟨_, congrArg Host.Outcome.next ((runStickyClear_one up small).trans (clearSticky_persists set may ports still)), ?_, sets⟩
    rw [all.frame]
    rfl
  · obtain ⟨turns, settled⟩ := foldl_reraise (h := h) (n := n) (by omega) (getHall s h).conds (canonical_modHall c h fun hl => clearBit hl n)
    have conds : (getHall (modHall s h fun hl => clearBit hl n) h).conds = (getHall s h).conds := hall_field_modHall c (f := fun hl => clearBit hl n)
      HallState.conds (fun _ => rfl) h
    refine ⟨_, congrArg Host.Outcome.next ((runStickyClear_one up (by omega)).trans ((clearSticky_outage set may outage).trans (by rw [conds]))),
      turns.frame, fun x mem => conds ▸ turns.conds x mem, fun x mem e => ?_⟩
    rcases settled x (conds ▸ turns.conds x mem) e with gone | set
    · exact absurd mem gone
    · exact set

end Sys2Proof.Machine
end

section
/-! O28, O29, O30: the events' ring in host memory, the MSI-X vectors and the ring registers. -/

namespace Sys2Proof.Machine

/-! ## Records in the ring (R491 to R493) -/

theorem length_recordOf (h : Nat) (e : Event) (more phase : Bool) (piece : List Byte) :
    (recordOf h e more phase piece).length = 32 := by
  simp [recordOf, leBytes, sliceD]

/-- R493: the place of record `n` in the ring. -/
def ringSlot (hl : HallState) (n : W32) : Nat := hl.ringBase.toNat + 32 * (n.toNat % 2 ^ hl.ringSizeLog2)

/-- R491, R492: record `i` of event `e` at place `n` of the ring. -/
def recordAt (h : Nat) (e : Event) (more : Bool) (hl : HallState) (n : W32) (i : Nat) : List Byte :=
  recordOf h e more (ringPhase hl n) (e.payload.drop (12 * i))

theorem length_recordAt (h : Nat) (e : Event) (more : Bool) (hl : HallState) (n : W32) (i : Nat) :
    (recordAt h e more hl n i).length = 32 := length_recordOf _ _ _ _ _

/-- R493: PROD counts one record more. -/
def prodNext (hl : HallState) : HallState := { hl with ringProd := hl.ringProd + 1 }

theorem prod_succ (p : W32) (k : Nat) : p + BitVec.ofNat 32 k + 1 = p + BitVec.ofNat 32 (k + 1) := by
  rw [BitVec.ofNat_add, ← BitVec.add_assoc]
  rfl

/-- The state with bytes in host memory. -/
def putHost (s : State) (a : Nat) (bs : List Byte) : State := { s with hostMem := putBytes s.hostMem a bs }

theorem putRecord_eq (s : State) (h : Nat) (e : Event) (i : Nat) (more : Bool) : putRecord s h e i more =
    modHall (putHost s (ringSlot (getHall s h) (getHall s h).ringProd) (recordAt h e more (getHall s h) (getHall s h).ringProd i))
      h prodNext := by
  delta putRecord ringSlot recordAt putHost prodNext
  with_reducible rfl

theorem ringSlots_apart (hl : HallState) {n m : W32} (other : n.toNat % 2 ^ hl.ringSizeLog2 ≠ m.toNat % 2 ^ hl.ringSizeLog2) :
    ringSlot hl n + 32 ≤ ringSlot hl m ∨ ringSlot hl m + 32 ≤ ringSlot hl n := by
  unfold ringSlot
  omega

/-- Records counted on from one number, no more of them than the ring holds, take different places. -/
theorem ringSlots_differ {b i k : Nat} (p : W32) (size : b ≤ 16) (less : i < k) (room : k < 2 ^ b) :
    (p + BitVec.ofNat 32 i).toNat % 2 ^ b ≠ (p + BitVec.ofNat 32 k).toNat % 2 ^ b := by
  have divides : (2 : Nat) ^ b ∣ 2 ^ 32 := Nat.pow_dvd_pow 2 (by omega)
  have place : ∀ j, (p + BitVec.ofNat 32 j).toNat % 2 ^ b = (p.toNat + j) % 2 ^ b := fun j => by
    rw [BitVec.toNat_add, BitVec.toNat_ofNat, Nat.mod_mod_of_dvd _ divides, Nat.add_mod, Nat.mod_mod_of_dvd _ divides, ← Nat.add_mod]
  rw [place, place]
  intro same
  have gap : (k - i) % 2 ^ b = 0 := by
    have := (Nat.modEq_iff_dvd' (by omega : p.toNat + i ≤ p.toNat + k)).1 same
    rw [show p.toNat + k - (p.toNat + i) = k - i by omega] at this
    exact Nat.mod_eq_zero_of_dvd this
  rw [Nat.mod_eq_of_lt (by omega)] at gap
  omega

/-- After `k` records of event `e`, of `n`, from state `s`: PROD counts them, they stand in the ring, and nothing else has changed. -/
structure RecordsPut (s : State) (h : Hall) (e : Event) (n k : Nat) (t : State) : Prop where
  canonical : Canonical t
  frame : t = { s with halls := t.halls, hostMem := t.hostMem }
  others : ∀ x, x ≠ h.val → getHall t x = getHall s x
  hall : getHall t h = { getHall s h with ringProd := (getHall s h).ringProd + BitVec.ofNat 32 k }
  stand : (getHall s h).ringSizeLog2 ≤ 16 → ∀ i, i < k →
    readBytes t.hostMem (ringSlot (getHall s h) ((getHall s h).ringProd + BitVec.ofNat 32 i)) 32 =
      recordAt h e (decide (i + 1 < n)) (getHall s h) ((getHall s h).ringProd + BitVec.ofNat 32 i) i
  rest : ∀ a, (∀ i, i < k → a < ringSlot (getHall s h) ((getHall s h).ringProd + BitVec.ofNat 32 i) ∨
    ringSlot (getHall s h) ((getHall s h).ringProd + BitVec.ofNat 32 i) + 32 ≤ a) → tabGet 0 t.hostMem a = tabGet 0 s.hostMem a

theorem readBytes_putBytes_outside {m : List Host.Cell} (a : Nat) (bs : List Byte) {x n : Nat} (apart : x + n ≤ a ∨ a + bs.length ≤ x) :
    readBytes (putBytes m a bs) x n = readBytes m x n :=
  List.map_congr_left fun i mem => tabGet_putBytes_outside a bs (by have := List.mem_range.1 mem; omega)

section
variable (s : State) (a : Nat) (bs : List Byte) (h : Nat) (f : HallState → HallState)

theorem getHall_putHost (x : Nat) : getHall (putHost s a bs) x = getHall s x := rfl

theorem modHall_putHost_hostMem : (modHall (putHost s a bs) h f).hostMem = putBytes s.hostMem a bs := rfl

theorem modHall_putHost_frame : modHall (putHost s a bs) h f =
    { s with halls := (modHall (putHost s a bs) h f).halls, hostMem := (modHall (putHost s a bs) h f).hostMem } := rfl

end

theorem putRecord_hostMem (s : State) (h : Nat) (e : Event) (i : Nat) (more : Bool) : (putRecord s h e i more).hostMem =
    putBytes s.hostMem (ringSlot (getHall s h) (getHall s h).ringProd)
      (recordAt h e more (getHall s h) (getHall s h).ringProd i) := by
  rw [putRecord_eq, modHall_putHost_hostMem]

theorem getHall_putRecord_same {s : State} (c : Canonical s) (h : Nat) (e : Event) (i : Nat) (more : Bool) :
    getHall (putRecord s h e i more) h = prodNext (getHall s h) := by
  have after : ∀ a bs, getHall (modHall (putHost s a bs) h prodNext) h = prodNext (getHall s h) :=
    fun _ _ => getHall_modHall_same _ _ _ c.halls
  rw [putRecord_eq, after]

theorem getHall_putRecord_ne (s : State) {h x : Nat} (ne : x ≠ h) (e : Event) (i : Nat) (more : Bool) :
    getHall (putRecord s h e i more) x = getHall s x := by
  rw [putRecord_eq, getHall_modHall_ne _ _ ne, getHall_putHost]

theorem putRecord_frame (s : State) (h : Nat) (e : Event) (i : Nat) (more : Bool) : putRecord s h e i more =
    { s with halls := (putRecord s h e i more).halls, hostMem := (putRecord s h e i more).hostMem } := by
  rw [putRecord_eq]
  exact modHall_putHost_frame _ _ _ _ _

/-- One record more, with room in the ring for it. -/
theorem RecordsPut.putRecord {s t : State} {h : Hall} {e : Event} {n k : Nat} (put : RecordsPut s h e n k t)
    (room : k < 2 ^ (getHall s h).ringSizeLog2) : RecordsPut s h e n (k + 1) (putRecord t h e k (k + 1 < n)) := by
  obtain ⟨c, frame, others, hall, stand, rest⟩ := put
  have memory := putRecord_hostMem t h e k (decide (k + 1 < n))
  rw [hall] at memory
  refine ⟨putRecord_changes.canonical c, ?_, fun x ne => ?_, ?_, fun size i less => ?_, fun a outside => ?_⟩
  · rw [putRecord_frame]
    generalize Machine.putRecord t h e k (decide (k + 1 < n)) = u
    rw [frame]
  · exact (getHall_putRecord_ne _ ne _ _ _).trans (others x ne)
  · rw [getHall_putRecord_same c, hall]
    exact congrArg (fun p : W32 => ({ getHall s h with ringProd := p } : HallState)) (prod_succ _ k)
  · rw [memory]
    rcases Nat.lt_succ_iff_lt_or_eq.1 less with before | rfl
    · refine (readBytes_putBytes_outside _ _ ?_).trans (stand size i before)
      rw [length_recordAt]
      exact ringSlots_apart _ (ringSlots_differ _ size before room)
    · have read := readBytes_putBytes c.hostMem (ringSlot (getHall s h) ((getHall s h).ringProd + BitVec.ofNat 32 i))
        (recordAt h e (decide (i + 1 < n)) (getHall s h) ((getHall s h).ringProd + BitVec.ofNat 32 i) i)
      rw [length_recordAt] at read
      exact read
  · rw [memory]
    refine (tabGet_putBytes_outside _ _ ?_).trans (rest a fun i less => outside i (by omega))
    rw [length_recordAt]
    exact outside k (by omega)

/-- The records of an event, with room for all of them. -/
theorem RecordsPut.all {s : State} (c : Canonical s) (h : Hall) (e : Event) (n k : Nat) (room : k ≤ 2 ^ (getHall s h).ringSizeLog2) :
    RecordsPut s h e n k ((List.range k).foldl (fun s i => Machine.putRecord s h e i (i + 1 < n)) s) := by
  induction k with
  | zero =>
    exact ⟨c, rfl, fun _ _ => rfl, by simp, fun _ i less => absurd less (Nat.not_lt_zero i), fun _ _ => rfl⟩
  | succ k ih =>
    rw [List.range_succ, List.foldl_append]
    exact (ih (by omega)).putRecord (by omega)

/-! ## What follows the records (R494, R495) -/

theorem noteVector_eq (now : W64) (e : Event) (hl : HallState) :
    noteVector now e hl = { hl with vectors := (noteVector now e hl).vectors } := rfl

theorem hallEvent_ringProd (hl : HallState) (t : W64) (e : EventSpec) : (hallEvent hl t e).ringProd = hl.ringProd := by
  unfold hallEvent
  split <;> rfl

theorem hallEvent_evSeq (hl : HallState) (t : W64) (e : EventSpec) : (hallEvent hl t e).evSeq = hl.evSeq + 1 := by
  unfold hallEvent
  split <;> rfl

theorem overflow_none {s : State} {h : Nat} (first : (getHall s h).lostFirst = none) : overflow s h = s := by
  unfold overflow
  simp only [first]

theorem overflow_some {s : State} {h : Nat} {f : W32} (first : (getHall s h).lostFirst = some f) :
    overflow s h = pushEvent (modHall s h fun hl => { hl with lostFirst := none, lostNow := 0 }) h
      { code := 0x0009, payload := leBytes 4 (getHall s h).lostNow ++ leBytes 4 f.toNat } := by
  unfold overflow
  simp only [first]

/-- The hall's event of overflow changes nothing but its events. -/
theorem getHall_overflow {s : State} (c : Canonical s) {h : Nat} {f : W32} (first : (getHall s h).lostFirst = some f) :
    (getHall (overflow s h) h).ringProd = (getHall s h).ringProd ∧ (getHall (overflow s h) h).evSeq = (getHall s h).evSeq + 1 := by
  rw [overflow_some first, getHall_pushEvent_same (canonical_modHall c _ _), getHall_modHall_same _ _ _ c.halls, hallEvent_ringProd,
    hallEvent_evSeq]
  exact ⟨rfl, rfl⟩

theorem getHall_overflow_ne {s : State} {h x : Nat} (ne : x ≠ h) : getHall (overflow s h) x = getHall s x := by
  cases first : (getHall s h).lostFirst with
  | none => rw [overflow_none first]
  | some f => rw [overflow_some first, pushEvent, getHall_modHall_ne _ _ ne, getHall_modHall_ne _ _ ne]

theorem ringRoom_le (hl : HallState) : ringRoom hl ≤ 2 ^ hl.ringSizeLog2 := Nat.sub_le _ _

theorem runEventWrite_held {h : Hall} {s : State} {e : Event} {rest : List Event} (held : (getHall s h).held = e :: rest) :
    runEventWrite h s = if ringReady s h (eventRecords e.payload) then
      overflow (modHall ((List.range (eventRecords e.payload)).foldl
        (fun s i => putRecord s h e i (i + 1 < eventRecords e.payload)) (modHall s h fun hl => { hl with held := rest })) h
          (noteVector (now ((List.range (eventRecords e.payload)).foldl
            (fun s i => putRecord s h e i (i + 1 < eventRecords e.payload)) (modHall s h fun hl => { hl with held := rest })) h) e)) h
      else s := by
  unfold runEventWrite
  simp only [held]

/-- Settles O28: the records are put one after another, and the vector and the overflow event leave PROD, host memory and the other hall. -/
theorem eventsGoToTheRingInOrder : Obligations.EventsGoToTheRingInOrder := by
  unfold Obligations.EventsGoToTheRingInOrder
  refine fun h s => ⟨fun e rest held busy => ?_, fun none => ?_, fun e rest c held ready => ?_⟩
  · exact congrArg Host.Outcome.next ((runEventWrite_held held).trans (if_neg (by simp [busy])))
  · have same : runEventWrite h s = s := by
      unfold runEventWrite
      simp only [none]
    exact congrArg Host.Outcome.next same
  · intro n hl at'
    have run := (runEventWrite_held held).trans (if_pos ready)
    have room : n ≤ 2 ^ hl.ringSizeLog2 := by
      have fits : n ≤ ringRoom hl := by
        simp only [ringReady, Bool.and_eq_true, decide_eq_true_eq] at ready
        exact ready.2
      exact fits.trans (ringRoom_le hl)
    let begun := modHall s h fun hl => { hl with held := rest }
    have begins : getHall begun h = { hl with held := rest } := getHall_modHall_same _ _ _ c.halls
    obtain ⟨cu, frame, others, hall, stand, out⟩ :=
      RecordsPut.all (canonical_modHall c h _ : Canonical begun) h e n n (by rw [begins]; exact room)
    rw [begins] at hall stand out
    let u := (List.range n).foldl (fun s i => putRecord s h e i (i + 1 < n)) begun
    let noted := modHall u h (noteVector (now u h) e)
    have cn : Canonical noted := canonical_modHall cu _ _
    have hallNoted : getHall noted h = noteVector (now u h) e (getHall u h) := getHall_modHall_same _ _ _ cu.halls
    rw [show getHall u h = _ from hall, noteVector_eq] at hallNoted
    have same : overflow noted h = { noted with halls := (overflow noted h).halls } :=
      overflow_changes.eq_with rfl fun p => by cases p <;> rfl
    have memory : (overflow noted h).hostMem = u.hostMem := (congrArg State.hostMem same).trans rfl
    have whole : overflow noted h = { s with halls := (overflow noted h).halls, hostMem := (overflow noted h).hostMem } := by
      rw [memory]
      exact same.trans (congrArg (fun v : State => { v with halls := (overflow noted h).halls }) frame)
    refine ⟨overflow noted h, congrArg Host.Outcome.next run, ?_, fun none => ?_, fun f some => ?_, fun size i less => ?_,
      fun x ne => ?_, fun a outside => ?_, whole⟩
    · cases first : hl.lostFirst with
      | none => rw [overflow_none (by rw [hallNoted]; exact first), hallNoted]
      | some f => rw [(getHall_overflow cn (f := f) (by rw [hallNoted]; exact first)).1, hallNoted]
    · rw [overflow_none (by rw [hallNoted]; exact none), hallNoted]
      exact ⟨rfl, rfl⟩
    · rw [(getHall_overflow cn (f := f) (by rw [hallNoted]; exact some)).2, hallNoted]
    · rw [memory]
      exact stand size i less
    · rw [getHall_overflow_ne ne, getHall_modHall_ne _ _ ne, others x ne, getHall_modHall_ne _ _ ne]
    · rw [memory]
      exact out a outside

/-! ## Vectors (R495) -/

/-- A vector served, by what is known of it. -/
theorem fireVector_eq {s : State} {h v : Nat} {x : Vector} {due masked pending : Bool} (its : getVector (getHall s h) v = x)
    (isDue : vectorDue (getHall s h) (now s h) x = due) (isMasked : (x.masked || (getHall s h).msixMask) = masked)
    (isPending : x.pendingBit = pending) :
    fireVector s h v =
      let y := if due then { x with count := 0, urgent := false } else x
      if masked then if due then modHall s h fun hl => setVector hl v { y with pendingBit := true } else s
      else if due || pending then
        modHall { s with hostMem := putBytes s.hostMem x.addr.toNat (leBytes 4 x.data.toNat) } h fun hl =>
          setVector hl v { y with pendingBit := false }
      else s := by
  subst its isDue isMasked isPending
  exact rfl

/-- Settles O29, by the branches of `fireVector`. -/
theorem vectorsFireWhenDue : Obligations.VectorsFireWhenDue := by
  unfold Obligations.VectorsFireWhenDue
  intro h v s _ hl x due masked sent
  have serves : dieUp s = true → hl.linkUp = true → hl.busMaster = true → hl.msixEnable = true →
      exec (.msixFire h v) s = .next (fireVector s h v) := fun up link master enable =>
    congrArg Host.Outcome.next (if_pos (by rw [up, link, master, enable]; rfl))
  refine ⟨fun off => ?_, fun up link master enable => ?_⟩
  · refine congrArg Host.Outcome.next (if_neg fun on => ?_)
    simp only [Bool.and_eq_true] at on
    obtain ⟨⟨⟨up, link⟩, master⟩, enable⟩ := on
    rcases off with off | off | off | off <;> exact absurd (off.symm.trans ‹_›) Bool.false_ne_true
  · have served {d m p : Bool} (isDue : due = d) (isMasked : masked = m) (isPending : x.pendingBit = p) :=
      (serves up link master enable).trans (congrArg Host.Outcome.next (fireVector_eq (x := x) rfl isDue isMasked isPending))
    refine ⟨fun isDue open' => served isDue open' rfl, fun isDue shut => served isDue shut rfl,
      fun idle quiet => ?_, fun idle open' pending => served idle open' pending⟩
    rcases Bool.eq_false_or_eq_true masked with shut | open'
    · exact served idle shut rfl
    · exact served idle open' (quiet.resolve_left (by rw [open']; decide))

/-! ## Ring registers (R493, R497) -/

theorem writeRingCfg_eq (v : W32) (hl : HallState) : writeRingCfg v hl = { hl with
    ringEnable := v.getLsbD 31,
    ringSizeLog2 := if hl.ringEnable = false ∧ 7 ≤ bitsOf v.toNat 0 5 ∧ bitsOf v.toNat 0 5 ≤ 16 then bitsOf v.toNat 0 5 else hl.ringSizeLog2,
    ringProd := if v.getLsbD 31 = true ∧ hl.ringEnable = false then 0 else hl.ringProd,
    ringCons := if v.getLsbD 31 = true ∧ hl.ringEnable = false then 0 else hl.ringCons } := by
  unfold writeRingCfg
  rw [bitOf_toNat]
  cases on : hl.ringEnable <;> cases v.getLsbD 31 <;>
    by_cases size : 7 ≤ bitsOf v.toNat 0 5 ∧ bitsOf v.toNat 0 5 ≤ 16 <;> simp [on, size]

theorem writeRingCons_eq (v : W32) (hl : HallState) :
    writeRingCons v hl = { hl with ringCons := if 0 < (v - hl.ringProd).toInt then hl.ringCons else v } := by
  unfold writeRingCons
  split <;> rfl

/-- Settles O30, by what the two writes leave in the hall. -/
theorem ringRegistersAreWritten : Obligations.RingRegistersAreWritten := by
  unfold Obligations.RingRegistersAreWritten
  refine ⟨fun h v s c up => ?_, fun h v s c up => ?_⟩
  · exact ⟨modHall s h (writeRingCfg v), congrArg Host.Outcome.next (if_pos up), rfl, fun x ne => getHall_modHall_ne _ _ ne,
      (getHall_modHall_same _ _ _ c.halls).trans (writeRingCfg_eq v _)⟩
  · exact ⟨modHall s h (writeRingCons v), congrArg Host.Outcome.next (if_pos up), rfl, fun x ne => getHall_modHall_ne _ _ ne,
      (getHall_modHall_same _ _ _ c.halls).trans (writeRingCons_eq v _)⟩

end Sys2Proof.Machine
end

section
/-! O32, O33: the flash mailbox, the reload of a hall and the self-test. -/

namespace Sys2Proof.Machine

/-! ## Tables filtered by their keys -/

/-- What a key reads as where only the entries with a key of `P` are left. -/
theorem tabGet_filter_key {α : Type} (d : α) (t : Tab α) (P : Nat → Bool) (k : Nat) :
    tabGet d (t.filter fun x => P x.1) k = if P k then tabGet d t k else d := by
  induction t with
  | nil => split <;> rfl
  | cons e r ih =>
    by_cases here : e.1 = k
    · subst here
      cases kept : P e.1
      · rw [List.filter_cons_of_neg (p := fun x : Nat × α => P x.1) (by rw [kept]; decide), ih, kept]
        rfl
      · rw [List.filter_cons_of_pos (p := fun x : Nat × α => P x.1) kept]
        exact (if_pos rfl).trans (if_pos rfl).symm
    · have skips : tabGet d (e :: r) k = tabGet d r k := if_neg here
      rw [skips, ← ih]
      cases kept : P e.1
      · rw [List.filter_cons_of_neg (p := fun x : Nat × α => P x.1) (by rw [kept]; decide)]
      · rw [List.filter_cons_of_pos (p := fun x : Nat × α => P x.1) kept]
        exact if_neg here

/-- A table of consecutive keys, without the entries that are the default. -/
theorem tabGet_indexed {α : Type} [DecidableEq α] (d : α) (f : Nat → α) (n k : Nat) (small : k < n) :
    tabGet d (((List.range n).map fun i => (i, f i)).filter fun x => x.2 != d) k = f k := by
  have filtered : ((List.range n).map fun i => (i, f i)).filter (fun x => x.2 != d) =
      ((List.range n).map fun i => (i, f i)).filter (fun x => f x.1 != d) :=
    List.filter_congr fun x mem => by
      obtain ⟨i, _, rfl⟩ := List.mem_map.1 mem
      rfl
  have listed : ∀ l : List Nat, k ∈ l → tabGet d (l.map fun i => (i, f i)) k = f k := fun l mem => by
    induction l with
    | nil => exact absurd mem (List.not_mem_nil)
    | cons i r ih =>
      by_cases here : i = k
      · subst here
        exact if_pos rfl
      · exact (if_neg here).trans (ih ((List.mem_cons.1 mem).resolve_left fun e => here e.symm))
  rw [filtered, tabGet_filter_key d _ (fun i => f i != d), listed _ (List.mem_range.2 small)]
  split
  · rfl
  · next same => exact (by simpa using same : f k = d).symm

/-! ## The flash mailbox (R475, R496) -/

theorem flashBytes_getD (hl : HallState) (a : Nat) {i n : Nat} (small : i < n) : (flashBytes hl a n).getD i 0 = flashByte hl (a + i) := by
  rw [flashBytes, List.getD_eq_getElem?_getD, List.getElem?_map, List.getElem?_range small]
  rfl

theorem tabGet_bufferOf_flashBytes (hl : HallState) (a : Nat) {i : Nat} (small : i < 256) :
    tabGet 0 (bufferOf (flashBytes hl a 256)) i = flashByte hl (a + i) :=
  (tabGet_indexed (0 : Byte) (fun i => (flashBytes hl a 256).getD i 0) 256 i small).trans (flashBytes_getD hl a small)

theorem tabGet_flashErase (t : Tab Byte) (a n i : Nat) :
    tabGet 0xFF (flashErase t a n) i = if i < a ∨ a + n ≤ i then tabGet 0xFF t i else 0xFF := by
  refine (tabGet_filter_key 0xFF t (fun i => decide (i < a) || decide (a + n ≤ i)) i).trans ?_
  simp

theorem tabGet_flashErase_inside (t : Tab Byte) {a n i : Nat} (low : a ≤ i) (high : i < a + n) :
    tabGet 0xFF (flashErase t a n) i = 0xFF := (tabGet_flashErase t a n i).trans (if_neg (by omega))

theorem tabGet_flashErase_outside (t : Tab Byte) {a n i : Nat} (out : i < a ∨ a + n ≤ i) :
    tabGet 0xFF (flashErase t a n) i = tabGet 0xFF t i := (tabGet_flashErase t a n i).trans (if_pos out)

theorem tabGet_flashProgram_outside (t : Tab Byte) (a : Nat) (bs : List Byte) {i : Nat} (out : i < a ∨ a + bs.length ≤ i) :
    tabGet 0xFF (flashProgram t a bs) i = tabGet 0xFF t i := by
  induction bs generalizing t a with
  | nil => rfl
  | cons b r ih =>
    rw [List.length_cons] at out
    exact (ih _ (a + 1) (by omega)).trans (tabGet_tabSet_ne _ _ _ (by omega))

theorem tabGet_flashProgram_inside {t : Tab Byte} (w : tabWf 0xFF t = true) (a : Nat) (bs : List Byte) {i : Nat} (inside : i < bs.length) :
    tabGet 0xFF (flashProgram t a bs) (a + i) = tabGet 0xFF t (a + i) &&& bs[i] := by
  induction bs generalizing t a i with
  | nil => exact absurd inside (Nat.not_lt_zero i)
  | cons b r ih =>
    cases i with
    | zero => exact (tabGet_flashProgram_outside _ (a + 1) r (by omega)).trans (tabGet_tabSet_same w _ _)
    | succ j =>
      have next := ih (tabWf_tabSet w a (tabGet 0xFF t a &&& b)) (a + 1) (Nat.lt_of_succ_lt_succ inside)
      rw [Nat.add_right_comm, tabGet_tabSet_ne _ _ _ (by omega)] at next
      exact next

section
variable {s : State} {h : Hall} {op : BitVec 2} {n : Nat} {f : HallState → Nat → HallState}

theorem mailboxRun_unusable (up : bootUp s h = true) (bad : flashUnusable s h = true) :
    mailboxRun s h op n f = mailboxDone s h op 3 := (if_neg (by rw [up]; decide)).trans (if_pos bad)

theorem mailboxRun_refused (up : bootUp s h = true) (good : flashUnusable s h = false)
    (other : mailboxSlot s h ((getHall s h).flashAddr.toNat / n * n) = false) : mailboxRun s h op n f = mailboxDone s h op 2 :=
  (if_neg (by rw [up]; decide)).trans ((if_neg (by rw [good]; decide)).trans (if_neg (by rw [other]; decide)))

theorem mailboxRun_done (up : bootUp s h = true) (good : flashUnusable s h = false)
    (idle : mailboxSlot s h ((getHall s h).flashAddr.toNat / n * n) = true) : mailboxRun s h op n f =
      mailboxDone (modHall s h fun hl => f hl ((getHall s h).flashAddr.toNat / n * n)) h op 1 :=
  (if_neg (by rw [up]; decide)).trans ((if_neg (by rw [good]; decide)).trans (if_pos idle))

end

/-- The state is `s` with hall `h` replaced by one of which `P` holds. -/
def HallBecomes (s : State) (h : Nat) (P : HallState → Prop) (t : State) : Prop :=
  t = { s with halls := t.halls } ∧ (∀ x, x ≠ h → getHall t x = getHall s x) ∧ P (getHall t h)

theorem modHall_becomes {s : State} (c : Canonical s) (h : Nat) (f : HallState → HallState) {P : HallState → Prop}
    (holds : P (f (getHall s h))) : HallBecomes s h P (modHall s h f) := by
  refine ⟨rfl, fun x ne => getHall_modHall_ne _ _ ne, ?_⟩
  rwa [getHall_modHall_same _ _ _ c.halls]

theorem getHall_modHall_twice {s : State} (c : Canonical s) (h : Nat) (f g : HallState → HallState) :
    getHall (modHall (modHall s h f) h g) h = g (f (getHall s h)) := by
  rw [getHall_modHall_same _ _ _ (canonical_modHall c h f).halls, getHall_modHall_same _ _ _ c.halls]

theorem getHall_modHall_twice_ne (s : State) {h x : Nat} (ne : x ≠ h) (f g : HallState → HallState) :
    getHall (modHall (modHall s h f) h g) x = getHall s x := by
  rw [getHall_modHall_ne _ _ ne, getHall_modHall_ne _ _ ne]

/-- Settles O33, by the branches of `mailboxRun`. -/
theorem mailboxActsOnTheIdleSlot : Obligations.MailboxActsOnTheIdleSlot := by
  unfold Obligations.MailboxActsOnTheIdleSlot
  intro h s c up hl a b at' ended good
  have ends (i : Instr) {t : State} {P : HallState → Prop} (run : exec i s = .next t) (becomes : HallBecomes s h P t) : at' i P := by
    obtain ⟨frame, others, hall⟩ := becomes
    exact ⟨t, run, frame, others, hall⟩
  have done (op : BitVec 2) (status : Nat) : HallBecomes s h (ended op status) (mailboxDone s h op status) := modHall_becomes c h _ rfl
  have bad (unusable : ¬ good) : flashUnusable s h = true := eq_true_of_ne_false unusable
  refine ⟨fun usable idle => ?_, fun usable idle w => ?_, fun usable idle => ?_, fun usable other => ⟨?_, ?_⟩, fun usable other => ?_,
    fun unusable => ⟨?_, ?_, ?_⟩, ?_⟩
  · refine ⟨_, congrArg Host.Outcome.next (mailboxRun_done up usable idle), rfl, fun x ne => getHall_modHall_twice_ne s ne _ _, ?_⟩
    rw [mailboxDone, getHall_modHall_twice c]
    exact ⟨fun i small => tabGet_bufferOf_flashBytes hl a small, rfl⟩
  · refine ⟨_, congrArg Host.Outcome.next (mailboxRun_done up usable idle), rfl, fun x ne => getHall_modHall_twice_ne s ne _ _, ?_⟩
    rw [mailboxDone, getHall_modHall_twice c]
    have length : ((List.range 256).map fun i => tabGet 0 hl.mailbox i).length = 256 := by simp
    have read (i : Nat) (small : i < 256) : ((List.range 256).map fun i => tabGet 0 hl.mailbox i)[i]? = some (tabGet 0 hl.mailbox i) := by
      rw [List.getElem?_map, List.getElem?_range small]
      rfl
    revert length read
    generalize (List.range 256).map (fun i => tabGet 0 hl.mailbox i) = bytes
    intro length read
    refine ⟨fun i small => ?_, fun i out => ?_, rfl⟩
    · obtain ⟨_, byte⟩ := List.getElem?_eq_some_iff.1 (read i small)
      rw [← byte]
      exact tabGet_flashProgram_inside w a bytes _
    · exact tabGet_flashProgram_outside _ a _ (by rwa [length])
  · refine ⟨_, congrArg Host.Outcome.next (mailboxRun_done up usable idle), rfl, fun x ne => getHall_modHall_twice_ne s ne _ _, ?_⟩
    rw [mailboxDone, getHall_modHall_twice c]
    refine ⟨fun i low high => ?_, fun i out => ?_, rfl⟩
    · exact tabGet_flashErase_inside hl.flash low high
    · exact tabGet_flashErase_outside hl.flash out
  · exact ends (.flashRead h) (congrArg Host.Outcome.next (mailboxRun_refused up usable other)) (done 0 2)
  · exact ends (.flashProgram h) (congrArg Host.Outcome.next (mailboxRun_refused up usable other)) (done 1 2)
  · exact ends (.flashErase h) (congrArg Host.Outcome.next (mailboxRun_refused up usable other)) (done 2 2)
  · exact ends (.flashRead h) (congrArg Host.Outcome.next (mailboxRun_unusable up (bad unusable))) (done 0 3)
  · exact ends (.flashProgram h) (congrArg Host.Outcome.next (mailboxRun_unusable up (bad unusable))) (done 1 3)
  · exact ends (.flashErase h) (congrArg Host.Outcome.next (mailboxRun_unusable up (bad unusable))) (done 2 3)
  · exact ends (.flashOpReserved h) (congrArg Host.Outcome.next (if_pos up)) (done 3 2)

/-! ## Reload (R480, R496) -/

theorem writeReload_eq (v : W32) (hl : HallState) :
    writeReload v hl = { hl with reloadMakeActive := v.getLsbD 30, reloadSlot := v.getLsbD 29 } := by
  rw [writeReload, bitOf_toNat, bitOf_toNat]

theorem anyResident_of_frame {s t : State} (frame : t = { s with halls := t.halls }) (h : Nat) : anyResident t h = anyResident s h := by
  rw [frame]
  rfl

theorem runHallReload_up {h : Hall} {v : W32} {s : State} (up : hostUp s h = true) : runHallReload h v s =
    if !bitOf v.toNat 31 then modHall s h (writeReload v) else
      match reloadRefusal (modHall s h (writeReload v)) h (bitOf v.toNat 29) with
      | some x => modHall (modHall s h (writeReload v)) h fun hl => { hl with reloadStatus := x }
      | none => reload (modHall s h (writeReload v)) h (bitOf v.toNat 29) :=
  (if_neg (c := (!hostUp s h) = true) (by rw [up]; decide)).trans rfl

theorem reloadsAreCheckedInOrder : ReloadsAreCheckedInOrder := by
  intro h v s c up slot hl ends other
  let t := modHall s h (writeReload v)
  have written : t = setHall s h hl := by
    have same := writeReload_eq v (getHall s h)
    exact congrArg (setHall s h) same
  have hall : getHall t h = hl := (getHall_modHall_same _ _ _ c.halls).trans (writeReload_eq v _)
  have peer : (getHall t (1 - h.val)).imageCompat = other := congrArg HallState.imageCompat (getHall_modHall_ne _ _ (by omega))
  have still : anyResident t h = anyResident s h := anyResident_of_frame (s := s) (t := t) rfl h
  have bit : bitOf v.toNat 29 = slot := bitOf_toNat v 29
  have starts (start : v.getLsbD 31 = true) : runHallReload h v s = match reloadRefusal t h slot with
      | some x => modHall t h fun hl => { hl with reloadStatus := x }
      | none => reload t h slot := by
    rw [← bit]
    exact (runHallReload_up up).trans (if_neg (by rw [bitOf_toNat, start]; decide))
  have refused {x : Nat} (start : v.getLsbD 31 = true) (no : reloadRefusal t h slot = some x) : ends { hl with reloadStatus := x } := by
    have run := starts start
    rw [no] at run
    obtain ⟨frame, others, becomes⟩ := modHall_becomes (canonical_modHall c h (writeReload v)) h
      (fun hl => { hl with reloadStatus := x }) (P := fun y => y = { getHall t h with reloadStatus := x }) rfl
    rw [hall] at becomes
    exact ⟨_, congrArg Host.Outcome.next run, frame, becomes, fun y ne => (others y ne).trans (getHall_modHall_ne _ _ ne)⟩
  refine ⟨fun noStart => ?_, fun start busy => refused start ?_, fun start idle differs => refused start ?_,
    fun start idle same invalid => refused start ?_, fun start idle same valid => ?_⟩
  · exact ⟨t, congrArg Host.Outcome.next ((runHallReload_up up).trans (if_pos (by rw [bitOf_toNat, noStart]; rfl))), rfl, hall,
      fun y ne => getHall_modHall_ne _ _ ne⟩
  · exact if_pos (still.trans busy)
  · refine (if_neg (by rw [still, idle]; decide)).trans (if_pos ?_)
    rwa [hall, peer]
  · refine (if_neg (by rw [still, idle]; decide)).trans ((if_neg ?_).trans (if_pos ?_))
    · rw [hall, peer, same]
      exact fun no => no rfl
    · rw [hall, invalid]
      rfl
  · have go : reloadRefusal t h slot = none := by
      refine (if_neg (by rw [still, idle]; decide)).trans ((if_neg ?_).trans (if_neg ?_))
      · rw [hall, peer, same]
        exact fun no => no rfl
      · rw [hall, valid]
        decide
    have run := starts start
    rw [go, written] at run
    exact congrArg Host.Outcome.next run

/-! ## The self-test (R450) -/

theorem getPkg_disarmed (hb : HubState) (i : Nat) : getPkg { hb with flip := disarm hb.flip } i = getPkg hb i := rfl

/-- The hubs' packages stand through the flips consumed. -/
theorem retiredAt_testFlips {s : State} (c : Canonical s) (a : Nat) : retiredAt (testFlips s) a = retiredAt s a := by
  have hubs : (testFlips s).hubs = tabMap {} (fun _ hb =>
    if (List.range 8).all fun i => (getPkg hb i).retired then hb else { hb with flip := disarm hb.flip }) s.hubs := rfl
  have hub : getHub (testFlips s) (hubOf a) = if (List.range 8).all fun i => (getPkg (getHub s (hubOf a)) i).retired
      then getHub s (hubOf a) else { getHub s (hubOf a) with flip := disarm (getHub s (hubOf a)).flip } := by
    unfold getHub
    rw [hubs]
    exact tabGet_tabMap c.hubs _ _ (by rfl)
  unfold retiredAt
  rw [hub]
  split <;> rfl

theorem retiredAt_testPositions (s : State) (failing : List (Hall × Pos)) (a : Nat) : retiredAt (testPositions s failing) a = retiredAt s a := by
  unfold retiredAt
  rw [testPositions_changes.getHub rfl]

theorem foundAny_none {found : Findings} (none : foundAny found = false) : found.positions = [] ∧ found.rows = [] ∧ found.packages = [] := by
  simp only [foundAny, Bool.or_eq_false_iff, Bool.not_eq_false', Bool.and_eq_true, List.isEmpty_iff] at none
  obtain ⟨⟨⟨positions, rows⟩, packages⟩, _⟩ := none
  exact ⟨positions, rows, packages⟩

theorem runSelfTest_idle {found : Findings} {s : State} (up : anyHostUp s = true) (idle : anyJob s = false) : runSelfTest found s =
    { found.packages.foldl (fun s x => retirePackage s x.1 x.2 2) (found.rows.foldl failRow
        (found.positions.foldl failPosition (zeroAll (testFlips (testPositions (takeFree s).2 found.positions))))) with
      selfTest := { status := if foundAny found then 3 else 2, seconds := Config.freeNat (takeFree s).1 % 121 } } :=
  (if_neg (c := (!anyHostUp s) = true) (by rw [up]; decide)).trans (if_neg (by rw [idle]; decide))

/-- A test that finds nothing only zeroes. -/
theorem runSelfTest_passed {found : Findings} {s : State} (up : anyHostUp s = true) (idle : anyJob s = false)
    (passed : foundAny found = false) : runSelfTest found s =
    { zeroAll (testFlips (testPositions (takeFree s).2 [])) with
      selfTest := { status := 2, seconds := Config.freeNat (takeFree s).1 % 121 } } := by
  obtain ⟨positions, rows, packages⟩ := foundAny_none passed
  rw [runSelfTest_idle up idle, passed, positions, rows, packages]
  generalize testPositions (takeFree s).2 [] = p
  rfl

theorem readSByte_zeroAll {s : State} (c : Canonical s) (p off : Nat) : readSByte (getPos (zeroAll s) p) off = {} := by
  have stored : getPos (zeroAll s) p = { getPos s p with store := [], records := [] } :=
    tabGet_tabMap c.positions (fun _ ps => { ps with store := [], records := [] }) p rfl
  rw [stored]
  rfl

theorem zeroAll_mem (s : State) (a : Nat) : tabGet 0 (zeroAll s).mem a = if retiredAt s a then tabGet 0 s.mem a else 0 :=
  tabGet_filter_key (0 : Byte) s.mem (fun a => retiredAt s a) a

theorem selfTestZeroesOrIsBusy : SelfTestZeroesOrIsBusy := by
  intro found s c up
  refine ⟨fun busy => ?_, fun idle => ⟨runSelfTest found s, rfl, ?_, fun passed => ?_⟩⟩
  · exact congrArg Host.Outcome.next ((if_neg (by rw [up]; decide)).trans (if_pos busy))
  · rw [runSelfTest_idle up idle]
  · rw [runSelfTest_passed up idle passed]
    have tested : Changes [.free, .positions, .halls, .hubs] s (testFlips (testPositions (takeFree s).2 [])) :=
      Changes.next (Changes.next (Changes.next .refl takeFree_changes (by decide)) testPositions_changes (by decide)) testFlips_changes
        (by decide)
    have retired (a : Nat) : retiredAt (testFlips (testPositions (takeFree s).2 [])) a = retiredAt s a :=
      (retiredAt_testFlips (testPositions_changes.canonical (takeFree_changes.canonical c)) a).trans (retiredAt_testPositions _ _ a)
    revert tested retired
    generalize testFlips (testPositions (takeFree s).2 []) = f
    intro tested retired
    have zeroed (a : Nat) : tabGet 0 (zeroAll f).mem a = if retiredAt s a then tabGet 0 s.mem a else 0 := by
      rw [← retired a, ← show f.mem = s.mem from tested.only .mem rfl]
      exact zeroAll_mem f a
    exact ⟨readSByte_zeroAll (tested.canonical c), fun a live => (zeroed a).trans (if_neg (by rw [live]; decide)),
      fun a gone => (zeroed a).trans (if_pos gone), tested.only .queues rfl, tested.only .sems rfl, tested.only .lcores rfl⟩

/-- Settles O32: a reload by the checks of `reloadRefusal`, a self-test by what it leaves where nothing is found. -/
theorem reloadsAndSelfTestsAreChecked : Obligations.ReloadsAndSelfTestsAreChecked :=
  ⟨reloadsAreCheckedInOrder, selfTestZeroesOrIsBusy⟩

end Sys2Proof.Machine
end

section
/-! O31, O49, O50, O51: starts, supplies and the tally chain. -/

namespace Sys2Proof.Machine

/-! ## Supplies (R429, R518, R519) -/

theorem aliveEnable_iff (hl : HallState) : aliveEnable hl = true ↔ ∀ n, n < 44 →
    hl.sticky.getLsbD n = true → 5 ≤ sourceClass hl n → hl.aliveMask.getLsbD n = true := by
  simp only [aliveEnable, bitOf_toNat, Bool.not_eq_true', List.any_eq_false, List.mem_range, Bool.and_eq_true, decide_eq_true_eq,
    Bool.not_eq_true', Bool.not_eq_false, not_and, and_imp]

theorem toggling_iff (s : State) : toggling s = true ↔ dieUp s = true ∧ s.power.mgmt = true ∧ s.power.input48 = true ∧ ∀ h, h < 2 →
    ∀ n, n < 44 → (getHall s h).sticky.getLsbD n = true → 5 ≤ sourceClass (getHall s h) n → (getHall s h).aliveMask.getLsbD n = true := by
  simp only [toggling, Bool.and_eq_true, aliveEnable_iff, and_assoc]
  refine and_congr_right fun _ => and_congr_right fun _ => and_congr_right fun _ =>
    ⟨fun both h small => ?_, fun all => ⟨all 0 (by decide), all 1 (by decide)⟩⟩
  match h, small with
  | 0, _ => exact both.1
  | 1, _ => exact both.2

theorem aliveTogglesWhileBothHallsEnable : AliveTogglesWhileBothHallsEnable := fun s =>
  ⟨fun on => congrArg Host.Outcome.next (if_pos on), fun off => congrArg Host.Outcome.next (if_neg (by rw [off]; decide)), toggling_iff s⟩

theorem getPort_foldl_modPort {s : State} (c : Canonical s) (f : PortState → PortState) (n k : Nat) :
    getPort ((List.range n).foldl (fun s k => modPort s k f) s) k = if k < n then f (getPort s k) else getPort s k := by
  induction n with
  | zero => exact (if_neg (Nat.not_lt_zero k)).symm
  | succ n ih =>
    have cn : Canonical ((List.range n).foldl (fun s k => modPort s k f) s) := by
      clear ih
      induction n with
      | zero => exact c
      | succ n ih =>
        rw [List.range_succ, List.foldl_append]
        exact canonical_modPort ih n f
    rw [List.range_succ, List.foldl_append]
    by_cases here : k = n
    · subst here
      rw [if_pos (Nat.lt_succ_self k)]
      refine (getPort_modPort_same _ _ _ cn.ports).trans ?_
      rw [ih, if_neg (Nat.lt_irrefl k)]
    · refine (getPort_modPort_ne _ _ here).trans (ih.trans ?_)
      by_cases low : k < n
      · rw [if_pos low, if_pos (by omega)]
      · rw [if_neg low, if_neg (by omega)]

theorem foldl_modPort_frame (s : State) (f : PortState → PortState) (n : Nat) : (List.range n).foldl (fun s k => modPort s k f) s =
    { s with ports := ((List.range n).foldl (fun s k => modPort s k f) s).ports } := by
  induction n with
  | zero => rfl
  | succ n ih =>
    rw [List.range_succ, List.foldl_append]
    exact congrArg (fun u : State => setPort u n _) ih

theorem tripOk_iff (s : State) : tripOk s = true ↔
    s.power.efuseOpen = false ∧ (s.power.input48 = true ∨ (now s 0 - s.power.lostAt).toNat ≤ 50000) := by
  simp [tripOk]

theorem suppliesComeAndGo : SuppliesComeAndGo := by
  intro s c mayTrip
  refine ⟨fun may => ?_, fun no => ?_, fun mgmt input => ?_, fun up => ?_, fun mgmt die => ?_, fun no => ?_⟩
  · let u : State := { s with power := { s.power with efuseOpen := true, efuseLatch := s.power.mgmt, die := false }, moduleDown := true }
    have cu : Canonical u := ⟨c.queues, c.sems, c.semGrp, c.own, c.lcores, c.positions, c.halls, c.hubs, c.ports, c.jobs, c.slots, c.stats,
      c.mem, c.memErr, c.series, c.leafs, c.hostMem⟩
    exact ⟨_, congrArg Host.Outcome.next (if_pos ((tripOk_iff s).2 may)), foldl_modPort_frame u downPort 12,
      getPort_foldl_modPort cu downPort 12⟩
  · exact congrArg Host.Outcome.next (if_neg fun ok => no ((tripOk_iff s).1 ok))
  · exact congrArg Host.Outcome.next (if_pos (by rw [mgmt, input]; rfl))
  · refine congrArg Host.Outcome.next (if_neg ?_)
    rcases up with up | up <;> rw [up] <;> simp
  · exact congrArg Host.Outcome.next (if_pos (by rw [mgmt, die]; rfl))
  · refine congrArg Host.Outcome.next (if_neg ?_)
    rcases no with no | no <;> rw [no] <;> simp

/-- Settles O49: the toggle by its enables, the supplies by the branches of their rows. -/
theorem aliveAndSuppliesFollowPower : Obligations.AliveAndSuppliesFollowPower := ⟨aliveTogglesWhileBothHallsEnable, suppliesComeAndGo⟩

/-! ## Frames of the chain (R485 to R488) -/

section
variable {s : State} {type : Byte} {f : ChainFrame} {act : State → State}

theorem receiveChain_bypassed (off : s.power.mgmt = false) : receiveChain s type f act = sendChain s type f :=
  if_pos (by rw [off]; rfl)

theorem receiveChain_dropped (on : s.power.mgmt = true) (bad : chainGood type f = false) : receiveChain s type f act = s :=
  (if_neg (by rw [on]; decide)).trans (if_neg (by rw [bad]; decide))

theorem receiveChain_good (on : s.power.mgmt = true) (good : chainGood type f = true) :
    receiveChain s type f act = act { s with chain := { s.chain with inOk := true } } :=
  (if_neg (by rw [on]; decide)).trans (if_pos good)

theorem receiveChain_elsewhere (on : s.power.mgmt = true) (good : chainGood type f = true) (other : addressed s f = false) :
    receiveChain s type f (fun s => atAddress s type f act) =
      { s with chain := { s.chain with inOk := true, out := s.chain.out ++ [(type, f)] } } :=
  (receiveChain_good on good).trans (if_neg (c := addressed s f = true) (by rw [other]; decide))

theorem receiveChain_here (on : s.power.mgmt = true) (good : chainGood type f = true) (here : addressed s f = true) :
    receiveChain s type f (fun s => atAddress s type f act) = act { s with chain := { s.chain with inOk := true } } :=
  (receiveChain_good on good).trans (if_pos (c := addressed s f = true) here)

end

theorem addressed_none {s : State} (f : ChainFrame) (unset : s.chain.caddr = 0) : addressed s f = false := by
  rw [addressed, unset]
  rfl

theorem chainGood_sealFrame (type : Byte) (f : ChainFrame) : chainGood type (sealFrame type f) = true := beq_self_eq_true _

theorem chainFrame_other {type : Byte} (f : ChainFrame) (s : State)
    (other : type ≠ 0x01 ∧ type ≠ 0x02 ∧ type ≠ 0x03 ∧ type ≠ 0x04 ∧ type ≠ 0x05) : chainFrame type f s = sendChain s type f := by
  obtain ⟨one, two, three, four, five⟩ := other
  exact (if_neg one).trans ((if_neg two).trans ((if_neg three).trans ((if_neg four).trans (if_neg five))))

/-- What is said of each of five rows is said of one after the other. -/
theorem forall_mem_five {α : Type} {P : α → Prop} {a b c d e : α} (pa : P a) (pb : P b) (pc : P c) (pd : P d) (pe : P e) :
    ∀ x ∈ [a, b, c, d, e], P x := by
  simp only [List.forall_mem_cons]
  exact ⟨pa, pb, pc, pd, pe, fun _ mem => absurd mem List.not_mem_nil⟩

/-- R485: the TYPE of each frame that a module acts on, and its row. -/
def chainRows (f : ChainFrame) : List (Byte × Instr) :=
  [(0x01, .chainEnum f), (0x02, .chainSetLfa f), (0x03, .chainStatus f), (0x04, .chainIdent f), (0x05, .chainRestart f)]

/-- Each row receives its frame; all but ENUM act on it at their address. -/
theorem exec_chainRow (f : ChainFrame) (s : State) : ∀ x ∈ chainRows f, ∃ act, exec x.2 s = .next (receiveChain s x.1 f act) ∧
    (x.1 ≠ 0x01 → ∃ a, act = fun s => atAddress s x.1 f a) :=
  forall_mem_five ⟨chainCount f, rfl, fun no => absurd rfl no⟩ ⟨_, rfl, fun _ => ⟨setLfa f, rfl⟩⟩ ⟨_, rfl, fun _ => ⟨chainStatusAct f, rfl⟩⟩
    ⟨_, rfl, fun _ => ⟨fun s => respond s f (identData s), rfl⟩⟩ ⟨_, rfl, fun _ => ⟨chainRestartAct f, rfl⟩⟩

theorem exec_chainForward (type : Byte) (f : ChainFrame) (s : State) :
    exec (.chainForward type f) s = .next (receiveChain s type f (chainFrame type f)) := rfl

/-- A frame forwarded is acted on as its row does. -/
theorem exec_chainForward_row (f : ChainFrame) (s : State) : ∀ x ∈ chainRows f, exec (.chainForward x.1 f) s = exec x.2 s :=
  forall_mem_five rfl rfl rfl rfl rfl

theorem chainFramesPassOrAreDropped : ChainFramesPassOrAreDropped := by
  intro f s rows sent
  refine ⟨fun x mem off => ?_, fun x mem on bad => ?_, fun x mem notEnum on good other => ?_, fun type off => ?_, fun type on bad => ?_,
    fun type notRow on good => ?_, exec_chainForward_row f s⟩
  · obtain ⟨act, run, _⟩ := exec_chainRow f s x mem
    rw [run, receiveChain_bypassed off]
    rfl
  · obtain ⟨act, run, _⟩ := exec_chainRow f s x mem
    rw [run, receiveChain_dropped on bad]
  · obtain ⟨act, run, acts⟩ := exec_chainRow f s x mem
    obtain ⟨a, rfl⟩ := acts notEnum
    rw [run, receiveChain_elsewhere on good other]
  · rw [exec_chainForward, receiveChain_bypassed off]
    rfl
  · rw [exec_chainForward, receiveChain_dropped on bad]
  · have other : type ≠ 0x01 ∧ type ≠ 0x02 ∧ type ≠ 0x03 ∧ type ≠ 0x04 ∧ type ≠ 0x05 := by
      simpa [rows] using notRow
    rw [exec_chainForward, receiveChain_good on good, chainFrame_other f _ other]
    rfl

/-! ## What the commands do (R487 to R490) -/

theorem bitsOf_low (v w : Nat) : bitsOf v 0 w = v % 2 ^ w := by rw [bitsOf, Nat.shiftRight_zero]

theorem setBits_low (v w x : Nat) : setBits v 0 w x = v / 2 ^ w * 2 ^ w + x % 2 ^ w := by
  rw [setBits, bitsOf_low, Nat.pow_zero, Nat.mul_one, Nat.mul_one, Nat.div_mul_self_eq_mod_sub_self]

/-- R487: COUNT of the frame sent on, and the rest of its DATA. -/
theorem countedData (v : W64) (c : Nat) (small : c < 65536) :
    let g := BitVec.ofNat 64 (setBits v.toNat 0 16 c)
    bitsOf g.toNat 0 16 = c ∧ g.toNat / 65536 = v.toNat / 65536 := by
  have whole : (BitVec.ofNat 64 (setBits v.toNat 0 16 c)).toNat = v.toNat / 65536 * 65536 + c := by
    have := v.isLt
    rw [BitVec.toNat_ofNat, setBits_low]
    omega
  intro g
  rw [bitsOf_low, whole]
  omega

/-- Settles O50: ENUM by `chainCount`, the other frames of a module without a chain address by `atAddress`. -/
theorem enumTakesItsCount : Obligations.EnumTakesItsCount := by
  unfold Obligations.EnumTakesItsCount
  refine fun f s on => ⟨fun good => ?_, fun unset => ?_⟩
  · intro c
    obtain ⟨count, rest⟩ := countedData f.data (min (c + 1) 4096) (by omega)
    exact ⟨_, congrArg Host.Outcome.next (receiveChain_good on good), rfl, rfl, rfl, _, rfl, count, rest, chainGood_sealFrame _ _⟩
  · have elsewhere := addressed_none f unset
    have passes : ∀ x ∈ chainRows f, x.1 ≠ 0x01 → chainGood x.1 f = true →
        exec x.2 s = .next { s with chain := { s.chain with inOk := true, out := s.chain.out ++ [(x.1, f)] } } := fun x mem notEnum good => by
      obtain ⟨act, run, acts⟩ := exec_chainRow f s x mem
      obtain ⟨a, rfl⟩ := acts notEnum
      rw [run, receiveChain_elsewhere on good elsewhere]
    exact fun x mem => passes x (List.mem_cons_of_mem _ mem) (by rcases x with ⟨type, i⟩; simp at mem; rcases mem with m | m | m | m <;> simp [m])

theorem setLfa_idle {f : ChainFrame} {s : State} (idle : anyJob s = false) : setLfa f s =
    respond { s with chain := { s.chain with lfa := if f.data.getLsbD 15 then none else some (f.data.setWidth 12) } } f
      (lfaCode { s with chain := { s.chain with lfa := if f.data.getLsbD 15 then none else some (f.data.setWidth 12) } }) := by
  have width : BitVec.ofNat 12 f.data.toNat = f.data.setWidth 12 := rfl
  rw [← bitOf_toNat, ← width]
  exact if_neg (by rw [idle]; decide)

theorem dieTemp_range (s : State) (n : Nat) :
    (s.power.dieWarm = true → dieTemp s n = s.power.temp) ∧ (s.power.dieWarm = false → (dieTemp s n).toNat ≤ 95) := by
  refine ⟨fun warm => if_pos warm, fun cool => ?_⟩
  rw [dieTemp, if_neg (by rw [cool]; decide), BitVec.toNat_ofNat]
  omega

theorem chainCommandsAct : ChainCommandsAct := by
  intro f s on u here
  have acts {type : Byte} {act : State → State} (good : chainGood type f = true) :
      receiveChain s type f (fun s => atAddress s type f act) = act u := receiveChain_here on good here
  refine ⟨fun good busy => ?_, fun good idle => ?_, fun good => ?_, fun good => ?_, fun good no => ?_, fun good may => ?_⟩
  · exact congrArg Host.Outcome.next ((acts good).trans (if_pos busy))
  · exact ⟨_, congrArg Host.Outcome.next ((acts good).trans (setLfa_idle (s := u) idle)), rfl, rfl, rfl, rfl⟩
  · exact ⟨dieTemp { u with free := s.free + 1 } s.free, congrArg Host.Outcome.next (acts good), dieTemp_range _ _⟩
  · exact congrArg Host.Outcome.next (acts good)
  · exact congrArg Host.Outcome.next ((acts good).trans (if_neg (c := restartAllowed s = true) (by rw [no]; decide)))
  · exact congrArg Host.Outcome.next ((acts good).trans (if_pos (c := restartAllowed s = true) may))

/-- Settles O51: frames by `receiveChain`, commands by what they do at their address. -/
theorem chainFramesActOrPass : Obligations.ChainFramesActOrPass := ⟨chainFramesPassOrAreDropped, chainCommandsAct⟩

/-! ## Starts (R470, R477 to R479) -/

theorem getHall_startBase (s : State) (x : StartState) (again : Bool) {i : Nat} (small : i < 2) :
    getHall (startBase s x again) i = startHall s i x again := by
  have empty : tabWf resetHall ([] : Tab HallState) = true := rfl
  match i, small with
  | 0, _ => exact tabGet_tabSet_same (tabWf_tabSet empty _ _) 0 _
  | 1, _ => exact (tabGet_tabSet_ne _ _ _ (by decide)).trans (tabGet_tabSet_same empty 1 _)

theorem coldStarted_error {s : State} {again : Bool} {x : StartState} (west : flashUnusable s 0 = false) (east : flashUnusable s 1 = false)
    (stops : chooseSlots (getHall s 0) (getHall s 1) = .error x) : coldStarted s again = startBase s x again := by
  refine (if_neg (by rw [west, east]; decide)).trans ?_
  simp only [stops]

theorem coldStarted_unusable {s : State} {again : Bool} (bad : flashUnusable s 0 = true ∨ flashUnusable s 1 = true) :
    coldStarted s again = flashStopped s again :=
  if_pos (by rcases bad with bad | bad <;> rw [bad] <;> simp)

/-- A hall named in the list stops in FLASH_BAD, and no other hall is touched. -/
theorem getHall_foldl_flashBad {s : State} (w : tabWf resetHall s.halls = true) (l : List Nat) (i : Nat) :
    getHall (l.foldl (fun s h => modHall s h fun hl => { hl with start := .flashBad }) s) i =
      if i ∈ l then { getHall s i with start := .flashBad } else getHall s i := by
  induction l generalizing s with
  | nil => rfl
  | cons h r ih =>
    rw [List.foldl_cons, ih (s := modHall s h _) (tabWf_tabSet w _ _)]
    by_cases here : i = h
    · subst here
      rw [getHall_modHall_same _ _ _ w, if_pos List.mem_cons_self, ite_self]
    · rw [getHall_modHall_ne _ _ here]
      simp only [List.mem_cons, here, false_or]

theorem foldl_flashBad_frame (s : State) (l : List Nat) : l.foldl (fun s h => modHall s h fun hl => { hl with start := .flashBad }) s =
    { s with halls := (l.foldl (fun s h => modHall s h fun hl => { hl with start := .flashBad }) s).halls } := by
  induction l generalizing s with
  | nil => rfl
  | cons h r ih => exact (ih _).trans rfl

theorem chosenSlot_eq_none (hl : HallState) : chosenSlot hl = none ↔ slotValid hl false = false ∧ slotValid hl true = false := by
  cases active : activeSlot hl <;> cases low : slotValid hl false <;> cases high : slotValid hl true <;>
    simp [chosenSlot, active, low, high]

theorem chooseSlots_bootFail (w e : HallState) : chooseSlots w e = .error .bootFail ↔ (chosenSlot w = none ∨ chosenSlot e = none) := by
  unfold chooseSlots
  cases chosenSlot w <;> cases chosenSlot e <;> simp
  split
  · exact fun h => nomatch h
  · split <;> exact fun h => nomatch h

/-- What a stopped start leaves of the module. -/
structure Stopped (s t : State) : Prop where
  off : t.started = false ∧ t.power.die = false
  lost : (∀ k, getQueue t k = {}) ∧ (∀ k, getSem t k = {}) ∧ t.mem = []
  stand : t.chain = s.chain ∧ t.hostMem = s.hostMem ∧ t.order = s.order
  halls : ∀ i, i < 2 → (getHall t i).sticky = (getHall s i).sticky ∧ (getHall t i).held = (getHall s i).held ∧
    (getHall t i).linkUp = (getHall s i).linkUp ∧ (getHall t i).busMaster = (getHall s i).busMaster ∧
    (getHall t i).mailbox = (getHall s i).mailbox ∧ (getHall t i).flash = (getHall s i).flash

/-- What a hall whose start had stopped keeps when it is tried again. -/
theorem startHall_again {s : State} (waits : s.started = false) (h : Nat) (x : StartState) :
    (startHall s h x true).start = x ∧ (startHall s h x true).sticky = (getHall s h).sticky ∧
      (startHall s h x true).held = (getHall s h).held ∧ (startHall s h x true).linkUp = (getHall s h).linkUp ∧
      (startHall s h x true).busMaster = (getHall s h).busMaster ∧ (startHall s h x true).mailbox = (getHall s h).mailbox ∧
      (startHall s h x true).flash = (getHall s h).flash := by
  unfold startHall
  rw [waits]
  exact ⟨rfl, rfl, rfl, rfl, rfl, rfl, rfl⟩

theorem stopped_startBase {s : State} (waits : s.started = false) (x : StartState) : Stopped s (startBase s x true) where
  off := ⟨rfl, rfl⟩
  lost := ⟨fun _ => rfl, fun _ => rfl, rfl⟩
  stand := ⟨rfl, rfl, rfl⟩
  halls i small := by
    rw [getHall_startBase s x true small]
    exact (startHall_again waits i x).2

theorem startBase_halls_wf (s : State) (x : StartState) (again : Bool) : tabWf resetHall (startBase s x again).halls = true :=
  tabWf_tabSet (tabWf_tabSet rfl _ _) _ _

/-- Halls marked FLASH_BAD after a stop. -/
theorem Stopped.flashBad {s t : State} (w : tabWf resetHall t.halls = true) (stopped : Stopped s t) (l : List Nat) :
    Stopped s (l.foldl (fun s h => modHall s h fun hl => { hl with start := .flashBad }) t) := by
  have marked := getHall_foldl_flashBad w l
  have frame := foldl_flashBad_frame t l
  revert marked frame
  generalize l.foldl (fun s h => modHall s h fun hl => { hl with start := .flashBad }) t = u
  intro marked frame
  obtain ⟨off, lost, stand, halls⟩ := stopped
  refine ⟨?_, ?_, ?_, fun i small => ?_⟩
  · rw [frame]
    exact off
  · rw [frame]
    exact lost
  · rw [frame]
    exact stand
  · rw [marked i]
    split <;> exact halls i small

theorem stopped_flashStopped {s : State} (waits : s.started = false) : Stopped s (flashStopped s true) :=
  (stopped_startBase waits .bootFail).flashBad (startBase_halls_wf _ _ _) _

theorem flashStopped_start {s : State} (waits : s.started = false) {i : Nat} (small : i < 2) :
    (getHall (flashStopped s true) i).start = if flashUnusable s i then .flashBad else .bootFail := by
  have listed : i ∈ [0, 1].filter (fun h => flashUnusable s h) ↔ flashUnusable s i = true := by
    rw [List.mem_filter]
    exact and_iff_right (by simp; omega)
  rw [flashStopped, getHall_foldl_flashBad (startBase_halls_wf _ _ _)]
  by_cases bad : flashUnusable s i = true
  · rw [if_pos (listed.2 bad), if_pos bad]
  · rw [if_neg fun mem => bad (listed.1 mem), if_neg bad, getHall_startBase s _ _ small]
    exact (startHall_again waits i _).1

theorem runStartRetry_stopped {s : State} {h : Hall} (up : bootUp s h = true) (waits : s.started = false) (mgmt : s.power.mgmt = true) :
    runStartRetry h s = coldStarted s true := if_pos (by rw [up, waits, mgmt]; rfl)

theorem runStartRetry_idle {s : State} {h : Hall} (no : s.started = true ∨ s.power.mgmt = false) : runStartRetry h s = s := by
  refine if_neg ?_
  rcases no with no | no <;> rw [no] <;> simp

theorem stoppedStartsTellWhy : StoppedStartsTellWhy := by
  refine ⟨fun h s up => ?_, fun w e => ⟨chooseSlots_bootFail w e, chosenSlot_eq_none⟩⟩
  intro kept
  have keeps {t : State} (stopped : Stopped s t) : kept t := by
    obtain ⟨⟨started, die⟩, ⟨queues, sems, mem⟩, ⟨chain, host, order⟩, halls⟩ := stopped
    exact ⟨started, die, queues, sems, mem, chain, host, order, halls⟩
  refine ⟨fun no => congrArg Host.Outcome.next (runStartRetry_idle no),
    fun waits mgmt => congrArg Host.Outcome.next (runStartRetry_stopped up waits mgmt),
    fun waits mgmt west east x stops => ?_, fun waits mgmt bad => ?_⟩
  · have run := (runStartRetry_stopped up waits mgmt).trans (coldStarted_error west east stops)
    refine ⟨_, congrArg Host.Outcome.next run, keeps (stopped_startBase waits x), fun i small => ?_⟩
    rw [getHall_startBase s x true small]
    exact (startHall_again waits i x).1
  · have run := (runStartRetry_stopped up waits mgmt).trans (coldStarted_unusable bad)
    exact ⟨_, congrArg Host.Outcome.next run, keeps (stopped_flashStopped waits), fun i small => flashStopped_start waits small⟩

/-- The cold start, by what is known of the supplies and the eFuse. -/
theorem runColdStart_eq {s : State} {mgmt input opened : Bool} (m : s.power.mgmt = mgmt) (i : s.power.input48 = input)
    (o : s.power.efuseOpen = opened) : runColdStart s =
    if mgmt && input then s else
      let t := if mgmt then s else { s with chain := { s.chain with lfa := none, caddr := 0, inOk := false }, jtag := {} }
      let t := { t with power := { t.power with mgmt := true, input48 := true } }
      if opened then t else coldStarted t false := by
  subst i o
  rw [runColdStart, m]
  cases mgmt <;> rfl

theorem coldStartNeedsItsSupplies : ColdStartNeedsItsSupplies := fun _ =>
  ⟨fun mgmt input => congrArg Host.Outcome.next (runColdStart_eq mgmt input rfl),
    fun mgmt input closed => congrArg Host.Outcome.next (runColdStart_eq mgmt input closed),
    fun mgmt closed => congrArg Host.Outcome.next (runColdStart_eq mgmt rfl closed),
    fun mgmt input opened => congrArg Host.Outcome.next (runColdStart_eq mgmt input opened),
    fun mgmt opened => congrArg Host.Outcome.next (runColdStart_eq mgmt rfl opened)⟩

/-- Settles O31: a stop leaves `startBase`, and the cold start runs by its supplies. -/
theorem startsTellWhyTheyStop : Obligations.StartsTellWhyTheyStop := ⟨stoppedStartsTellWhy, coldStartNeedsItsSupplies⟩

end Sys2Proof.Machine
end

section
/-! O36: every REGISTER_WRITE completes. -/

namespace Sys2Proof.Machine

theorem bootUp_of_hostUp {s : State} {h : Nat} (up : hostUp s h = true) : bootUp s h = true := by
  rw [bootUp, up, Bool.true_or]

/-! ## REGISTER_WRITE by what the host hub takes (R482, R499, R503) -/

section
variable {h : Hall} {a : BitVec 26} {w : Width} {v : W64} {s : State}

theorem runRegisterWrite_idle (no : bootUp s h = false ∨ blockLost s h a.toNat = true) : runRegisterWrite h a w v s = s := by
  refine if_pos ?_
  rcases no with no | no <;> rw [no] <;> simp

/-- The write of bytes, from the lowest address on. -/
def writeBytes (h : Hall) (a n : Nat) (v : W64) (s : State) : State :=
  (List.range n).foldl (fun s i => writeByte h (a + i) (BitVec.ofNat 8 (v.toNat >>> (8 * i))) s) s

theorem runRegisterWrite_bytes (up : bootUp s h = true) (runs : blockLost s h a.toNat = false) (bytes : byteAddr a.toNat = true) :
    runRegisterWrite h a w v s = writeBytes h a.toNat (min w 8) v s :=
  (if_neg (by rw [up, runs]; decide)).trans (if_pos bytes)

theorem runRegisterWrite_stopped (up : bootUp s h = true) (runs : blockLost s h a.toNat = false) (word : byteAddr a.toNat = false)
    (off : hostUp s h = false) : runRegisterWrite h a w v s =
      if a.toNat < 0x200 ∧ (w = 4 ∨ w = 8) ∧ a.toNat % w = 0 then writeAligned h a.toNat w v s else s :=
  (if_neg (by rw [up, runs]; decide)).trans ((if_neg (by rw [word]; decide)).trans (if_pos (by rw [off]; rfl)))

theorem runRegisterWrite_up (up : hostUp s h = true) (runs : blockLost s h a.toNat = false) (word : byteAddr a.toNat = false) :
    runRegisterWrite h a w v s = if (w = 4 ∨ w = 8) ∧ a.toNat % w = 0 then writeAligned h a.toNat w v s else dropWrite s h :=
  (if_neg (by rw [bootUp_of_hostUp up, runs]; decide)).trans
    ((if_neg (by rw [word]; decide)).trans (if_neg (by rw [up]; decide)))

end

/-! ## The mailbox (R475) -/

theorem writeByte_mailbox {h a : Nat} (b : Byte) (s : State) (low : 0x100 ≤ a) (high : a < 0x200) :
    writeByte h a b s = modHall s h fun hl => { hl with mailbox := tabSet 0 (a - 0x100) b hl.mailbox } := if_pos ⟨low, high⟩

/-- The `n` low bytes of `v` in the mailbox buffer from `o` on. -/
def mailboxPut (t : Tab Byte) (o n : Nat) (v : W64) : Tab Byte :=
  (List.range n).foldl (fun t i => tabSet 0 (o + i) (BitVec.ofNat 8 (v.toNat >>> (8 * i))) t) t

theorem mailboxPut_succ (t : Tab Byte) (o n : Nat) (v : W64) :
    mailboxPut t o (n + 1) v = tabSet 0 (o + n) (BitVec.ofNat 8 (v.toNat >>> (8 * n))) (mailboxPut t o n v) := by
  rw [mailboxPut, List.range_succ, List.foldl_append]
  rfl

theorem tabWf_mailboxPut {t : Tab Byte} (wf : tabWf 0 t = true) (o n : Nat) (v : W64) : tabWf 0 (mailboxPut t o n v) = true := by
  induction n with
  | zero => exact wf
  | succ n ih =>
    rw [mailboxPut_succ]
    exact tabWf_tabSet ih _ _

theorem tabGet_mailboxPut_outside (t : Tab Byte) (o n : Nat) (v : W64) {i : Nat} (out : i < o ∨ o + n ≤ i) :
    tabGet 0 (mailboxPut t o n v) i = tabGet 0 t i := by
  induction n with
  | zero => rfl
  | succ n ih =>
    rw [mailboxPut_succ, tabGet_tabSet_ne _ _ _ (by omega), ih (by omega)]

theorem tabGet_mailboxPut_inside {t : Tab Byte} (wf : tabWf 0 t = true) (o : Nat) (v : W64) {i n : Nat} (inside : i < n) :
    tabGet 0 (mailboxPut t o n v) (o + i) = BitVec.ofNat 8 (v.toNat / 256 ^ i) := by
  induction n with
  | zero => exact absurd inside (Nat.not_lt_zero i)
  | succ n ih =>
    rw [mailboxPut_succ]
    by_cases last : i = n
    · subst last
      rw [tabGet_tabSet_same (tabWf_mailboxPut wf o i v), Nat.shiftRight_eq_div_pow, Nat.pow_mul]
    · rw [tabGet_tabSet_ne _ _ _ (by omega), ih (by omega)]

/-- Bytes written within the mailbox buffer. -/
theorem writeBytes_mailbox {s : State} (c : Canonical s) (h : Hall) {a n : Nat} (v : W64) (low : 0x100 ≤ a) (high : a + n ≤ 0x200) :
    HallBecomes s h (fun x => x = { getHall s h with mailbox := mailboxPut (getHall s h).mailbox (a - 0x100) n v }) (writeBytes h a n v s) ∧
      Canonical (writeBytes h a n v s) := by
  induction n with
  | zero => exact ⟨⟨rfl, fun _ _ => rfl, rfl⟩, c⟩
  | succ n ih =>
    obtain ⟨⟨frame, others, hall⟩, cn⟩ := ih (by omega)
    have last : writeBytes h a (n + 1) v s = modHall (writeBytes h a n v s) h fun hl =>
        { hl with mailbox := tabSet 0 (a + n - 0x100) (BitVec.ofNat 8 (v.toNat >>> (8 * n))) hl.mailbox } := by
      rw [writeBytes, List.range_succ, List.foldl_append]
      exact writeByte_mailbox _ _ (by omega) (by omega)
    rw [last]
    refine ⟨⟨?_, fun x ne => (getHall_modHall_ne _ _ ne).trans (others x ne), ?_⟩, canonical_modHall cn _ _⟩
    · exact congrArg (fun u : State => setHall u h _) frame
    · rw [getHall_modHall_same _ _ _ cn.halls, hall, mailboxPut_succ, Nat.sub_add_comm low]

/-- Settles O36, by the branches of `runRegisterWrite`. -/
theorem registerWritesComplete : Obligations.RegisterWritesComplete := by
  unfold Obligations.RegisterWritesComplete
  intro h a w v s c aligned toMailbox
  have kept := runRegisterWrite_changes (h := h) (addr := a) (width := w) (v := v) (s := s)
  have mailed (up : bootUp s h = true) (runs : blockLost s h a.toNat = false) : toMailbox (runRegisterWrite h a w v s) := by
    intro low one eight high
    have bytes : byteAddr a.toNat = true := by
      rw [byteAddr, decide_eq_true low, decide_eq_true (Nat.lt_of_lt_of_le (Nat.lt_add_of_pos_right one) high)]
      rfl
    obtain ⟨⟨frame, others, hall⟩, _⟩ := writeBytes_mailbox c h v low (n := w) high
    rw [runRegisterWrite_bytes up runs bytes, Nat.min_eq_left eight]
    refine ⟨frame, others, ?_, fun wf => ⟨fun i inside => ?_, fun i out => ?_⟩⟩
    · rw [hall]
    · rw [hall]
      exact tabGet_mailboxPut_inside wf _ v inside
    · rw [hall]
      exact tabGet_mailboxPut_outside _ _ _ v out
  refine ⟨fun no => congrArg Host.Outcome.next (runRegisterWrite_idle no), fun up runs => ?_, fun up off runs => ?_⟩
  · refine ⟨_, rfl, kept.pending, kept.only .hostMem rfl, fun word misaligned => ?_, mailed (bootUp_of_hostUp up) runs⟩
    rw [runRegisterWrite_up up runs word, if_neg misaligned]
    exact ⟨rfl, fun x ne => getHall_modHall_ne _ _ ne, getHall_modHall_same _ _ _ c.halls⟩
  · refine ⟨_, rfl, kept.pending, kept.only .hostMem rfl, fun word refused => ?_, mailed up runs⟩
    rw [runRegisterWrite_stopped up runs word off, if_neg refused]

end Sys2Proof.Machine
end

section
/-! O35: the addresses of the registers that have a row of their own. -/

namespace Sys2Proof.Machine

/-! ## Register addresses (R499, R500) -/

/-- An address of a 32-bit register: aligned, outside the byte-wide regions and in no 64-bit register. -/
def IsWord (a : Nat) : Prop := a < 2 ^ 26 ∧ a % 4 = 0 ∧ byteAddr a = false ∧ is64 (a / 8 * 8) = false

/-- An address of a 64-bit register. -/
def IsLong (a : Nat) : Prop := a < 2 ^ 26 ∧ a % 8 = 0 ∧ byteAddr a = false ∧ is64 a = true

/-- The writes at `a` complete as instruction `i` while the block of `a` runs. -/
def Names (s : State) (h : Hall) (a : Nat) (w : Width) (v : W64) (i : Instr) : Prop :=
  blockLost s h a = false → ∃ t, exec (.registerWrite h (BitVec.ofNat 26 a) w v) s = .next t ∧ exec i s = .next t

section
variable {s : State} {h : Hall} {a : Nat} {v : W64} {i : Instr}

theorem names_of_write32 (up : hostUp s h = true) (word : IsWord a) (run : exec i s = .next (write32 h a (v.setWidth 32) s)) :
    Names s h a 4 v i := by
  obtain ⟨small, aligned, bytes, long⟩ := word
  intro runs
  have address : (BitVec.ofNat 26 a).toNat = a := by rw [BitVec.toNat_ofNat, Nat.mod_eq_of_lt small]
  refine ⟨_, congrArg Host.Outcome.next ?_, run⟩
  rw [runRegisterWrite_up up (by rwa [address]) (by rwa [address]), address, if_pos ⟨.inl rfl, aligned⟩]
  exact (if_neg (by decide)).trans (if_neg (by rw [long]; decide))

theorem names_of_write64 (up : hostUp s h = true) (double : IsLong a) (run : exec i s = .next (write64 h a v s)) :
    Names s h a 8 v i := by
  obtain ⟨small, aligned, bytes, long⟩ := double
  intro runs
  have address : (BitVec.ofNat 26 a).toNat = a := by rw [BitVec.toNat_ofNat, Nat.mod_eq_of_lt small]
  refine ⟨_, congrArg Host.Outcome.next ?_, run⟩
  rw [runRegisterWrite_up up (by rwa [address]) (by rwa [address]), address, if_pos ⟨.inr rfl, aligned⟩]
  exact (if_pos rfl).trans (if_pos long)

end

theorem byteAddr_eq_false {a : Nat} (one : a < 0x100 ∨ 0x200 ≤ a) (two : a < 0x7E0000 ∨ 0x800000 ≤ a) : byteAddr a = false := by
  simp [byteAddr]
  omega

/-- What the byte-wide and 64-bit regions leave to the 32-bit registers, block by block. -/
def Plain (a : Nat) : Prop :=
  a % 4 = 0 ∧ (a < 0x100 ∨ 0x200 ≤ a) ∧ a < 0x7E0000 ∧ (a < 0x10300 ∨ 0x10400 ≤ a) ∧
  (0x20000 ≤ a → a < 0x24400 → 16 ≤ a % 64) ∧ (0x50000 ≤ a → a < 0x50400 → a % 64 < 8 ∨ 16 ≤ a % 64) ∧ (a < 0x70000 ∨ 0x70100 ≤ a) ∧
  (a < 0x90000 ∨ 0x90018 ≤ a) ∧ (a < 0x90200 ∨ 0x90280 ≤ a) ∧ (0xA0000 ≤ a → a < 0xA0800 → a % 128 < 8 ∨ 0x38 ≤ a % 128) ∧
  (0x600000 ≤ a → a < 0x680000 → a % 0x10000 < 0x20 ∨ 0x28 ≤ a % 0x10000 ∧ a % 0x10000 < 0x30 ∨ 0x38 ≤ a % 0x10000) ∧
  (a < 0x6F1000 ∨ 0x6F1100 ≤ a) ∧ (a < 0x710000 ∨ 0x710008 ≤ a)

theorem Plain.isWord {a : Nat} (plain : Plain a) : IsWord a := by
  unfold Plain at plain
  refine ⟨by omega, by omega, byteAddr_eq_false (by omega) (by omega), ?_⟩
  simp [is64]
  omega

/-! ## The blocks of the 32-bit registers -/

section
variable {h : Hall} {a : Nat} {v : W32} {s : State}

theorem write32_start (high : a < 0x200) : write32 h a v s = writeStart h a v s := if_pos high

theorem write32_steward (low : 0x10000 ≤ a) (high : a < 0x10400) : write32 h a v s = writeSteward h a v s := by
  unfold write32
  iterate 1 rw [if_neg (by omega)]
  exact if_pos ⟨low, high⟩

theorem write32_queue (low : 0x20000 ≤ a) (high : a < 0x24400) : write32 h a v s = writeQueue h a v s := by
  unfold write32
  iterate 2 rw [if_neg (by omega)]
  exact if_pos ⟨low, high⟩

theorem write32_slotReg (low : 0x40000 ≤ a) (high : a < 0x50000) : write32 h a v s = writeSlotReg a v s := by
  unfold write32
  iterate 3 rw [if_neg (by omega)]
  exact if_pos ⟨low, high⟩

theorem write32_sealer (low : 0x50000 ≤ a) (high : a < 0x51008) : write32 h a v s = writeSealer h a v s := by
  unfold write32
  iterate 4 rw [if_neg (by omega)]
  exact if_pos ⟨low, high⟩

theorem write32_tinker (low : 0x60000 ≤ a) (high : a < 0x60400) : write32 h a v s = writeTinker h a v s := by
  unfold write32
  iterate 5 rw [if_neg (by omega)]
  exact if_pos ⟨low, high⟩

theorem write32_xlateInv : write32 h 0x70100 v s = runXlateInv v s := by
  unfold write32
  iterate 6 rw [if_neg (by omega)]
  exact if_pos rfl

theorem write32_mesh (low : 0x80000 ≤ a) (high : a < 0x80400) : write32 h a v s = writeMesh h a v s := by
  unfold write32
  iterate 7 rw [if_neg (by omega)]
  exact if_pos ⟨low, high⟩

theorem write32_jobStat (low : 0x90100 ≤ a) (high : a < 0x90400) : write32 h a v s = writeJobStat a v s := by
  unfold write32
  iterate 8 rw [if_neg (by omega)]
  exact if_pos ⟨low, high⟩

theorem write32_cooper (low : 0xA0000 ≤ a) (high : a < 0xA0800) : write32 h a v s = writeCooper a v s := by
  unfold write32
  iterate 9 rw [if_neg (by omega)]
  exact if_pos ⟨low, high⟩

theorem write32_coreBlock (low : 0x100000 ≤ a) (high : a < 0x580000) : write32 h a v s = writeCoreBlock h a v s := by
  unfold write32
  iterate 11 rw [if_neg (by omega)]
  exact if_pos ⟨low, high⟩

theorem write32_hub (low : 0x600000 ≤ a) (high : a < 0x680000) : write32 h a v s = writeHub h a v s := by
  unfold write32
  iterate 12 rw [if_neg (by omega)]
  exact if_pos ⟨low, high⟩

theorem write32_link (low : 0x680000 ≤ a) (high : a < 0x6E0000) : write32 h a v s = writeLink h a v s := by
  unfold write32
  iterate 13 rw [if_neg (by omega)]
  exact if_pos ⟨low, high⟩

theorem write32_hostReg (low : 0x700000 ≤ a) (high : a < 0x730000) : write32 h a v s = writeHostReg h a v s := by
  unfold write32
  iterate 15 rw [if_neg (by omega)]
  exact if_pos ⟨low, high⟩

end

/-! ## The registers of each block -/

theorem finOfNat_eq {n : Nat} [NeZero n] (j : Fin n) {x : Nat} (same : x = j.val) : Fin.ofNat n x = j := by
  subst same
  exact Fin.ext (Nat.mod_eq_of_lt j.isLt)

theorem anyHostUp_of_hostUp {s : State} {h : Hall} (up : hostUp s h = true) : anyHostUp s = true := by
  unfold anyHostUp
  rcases Fin.exists_fin_two.1 ⟨h, rfl⟩ with rfl | rfl
  · exact Bool.or_eq_true_iff.2 (.inl up)
  · exact Bool.or_eq_true_iff.2 (.inr up)

/-- The bit of a 64-bit value that a 32-bit register takes. -/
theorem bitOf_setWidth (v : W64) {n : Nat} (small : n < 32) : bitOf (v.setWidth 32).toNat n = v.getLsbD n := by
  rw [bitOf_toNat, BitVec.getLsbD_setWidth, decide_eq_true small, Bool.true_and]

section
variable {s : State} {h : Hall} {a : Nat} {v : W64}

/-- R45: the queue of a core by its place in the core's block. -/
def coreQueue (q : Fin 4) : QKind := if q = 0 then .mq else if q = 1 then .wq else if q = 2 then .vq else .tq

theorem queueAt_core (h : Hall) (n : Fin 64) (q : Fin 4) (low : a < 0x24000) (index : (a - 0x20000) / 64 = 4 * n.val + q.val) :
    queueAt h a = .core (Fin.ofNat 128 (64 * h.val + n.val)) (coreQueue q) := by
  have core : (4 * n.val + q.val) / 4 = n.val := by omega
  have queue : (4 * n.val + q.val) % 4 = q.val := by omega
  unfold queueAt
  rw [if_pos low]
  simp only [index, core, queue]
  match q with
  | 0 | 1 | 2 | 3 => rfl

theorem queueAt_cq (h : Hall) (j : Job) {r : Nat} (reg : r < 64) : queueAt h (0x24000 + 64 * j.val + r) = .cq h j := by
  unfold queueAt
  rw [if_neg (by omega), finOfNat_eq j (by omega)]

/-- The registers of one queue. -/
theorem names_queue (up : hostUp s h = true) {q : QRef} {b : Nat} (v : W64) (low : 0x20000 ≤ b) (high : b + 64 ≤ 0x24400) (block : b % 64 = 0)
    (named : ∀ r, r < 64 → queueAt h (b + r) = q) :
    Names s h (b + 0x14) 4 v (.qDoorbell q (v.setWidth 32)) ∧ Names s h (b + 0x24) 4 v (.qRestart q (v.setWidth 32)) ∧
      Names s h (b + 0x10) 4 v (if v.getLsbD 16 then .qEnable q (v.setWidth 32) else .qDisable q (v.setWidth 32)) := by
  have plain {r : Nat} (aligned : r % 4 = 0) (reg : 16 ≤ r) (inside : r < 64) : Plain (b + r) := by
    unfold Plain
    omega
  have writes {r : Nat} (inside : r < 64) (w : W32) : write32 h (b + r) w s = writeQueue h (b + r) w s :=
    write32_queue (by omega) (by omega)
  refine ⟨names_of_write32 up (plain rfl (by decide) (by decide)).isWord (congrArg Host.Outcome.next ?_),
    names_of_write32 up (plain rfl (by decide) (by decide)).isWord (congrArg Host.Outcome.next ?_),
    names_of_write32 up (plain rfl (by decide) (by decide)).isWord ?_⟩
  · rw [writes (by decide), writeQueue, named _ (by decide), if_neg (by omega), if_pos (by omega)]
  · rw [writes (by decide), writeQueue, named _ (by decide), if_neg (by omega), if_neg (by omega), if_pos (by omega)]
  · rw [writes (by decide), writeQueue, named _ (by decide), bitOf_setWidth v (by decide)]
    cases v.getLsbD 16 <;> exact congrArg Host.Outcome.next (if_pos (by omega)).symm

/-- R280, R433, R454: the registers of a job context. -/
theorem names_job (up : hostUp s h = true) (j : Job) (v : W64) :
    Names s h (0x50000 + 64 * j.val) 4 v (.seaJobEnable j (v.setWidth 32)) ∧
    (v.getLsbD 0 = true → Names s h (0x50018 + 64 * j.val) 4 v (.seaJobDiscard j)) ∧
    (v.getLsbD 31 = true → Names s h (0x90100 + 4 * j.val) 4 v (.killedClear j)) ∧
    Names s h (0xA0000 + 128 * j.val) 4 v (.copEnable j (v.setWidth 32)) ∧
    Names s h (0xA003C + 128 * j.val) 4 v (.copIntervalWrite j (v.setWidth 32)) ∧
    (v.getLsbD 31 = true → v.getLsbD 30 = false → Names s h (0xA004C + 128 * j.val) 4 v (.copRestore j)) ∧
    (v.getLsbD 31 = false → v.getLsbD 30 = true → Names s h (0xA004C + 128 * j.val) 4 v (.copFetch j)) := by
  have plain {a : Nat} (is : Plain a) := (names_of_write32 (s := s) (h := h) (v := v) (i := ·) up is.isWord)
  refine ⟨plain (by unfold Plain; omega) _ (congrArg Host.Outcome.next ?_), fun discard => plain (by unfold Plain; omega) _ ?_,
    fun clear => plain (by unfold Plain; omega) _ (congrArg Host.Outcome.next ?_),
    plain (by unfold Plain; omega) _ (congrArg Host.Outcome.next ?_), plain (by unfold Plain; omega) _ (congrArg Host.Outcome.next ?_),
    fun restore noFetch => plain (by unfold Plain; omega) _ (congrArg Host.Outcome.next ?_),
    fun noRestore fetch => plain (by unfold Plain; omega) _ (congrArg Host.Outcome.next ?_)⟩
  · rw [write32_sealer (by omega) (by omega), writeSealer, if_pos (by omega), if_pos (by omega), finOfNat_eq j (by omega)]
  · refine congrArg Host.Outcome.next ((if_pos (anyHostUp_of_hostUp up)).trans ?_)
    rw [write32_sealer (by omega) (by omega), writeSealer, if_pos (by omega), if_neg (by omega), bitOf_setWidth v (by decide),
      if_pos ⟨by omega, discard⟩, finOfNat_eq j (by omega)]
  · rw [write32_jobStat (by omega) (by omega), writeJobStat, if_pos (by omega), bitOf_setWidth v (by decide), if_pos clear,
      finOfNat_eq j (by omega)]
  · rw [write32_cooper (by omega) (by omega), writeCooper, if_pos (by omega), finOfNat_eq j (by omega)]
  · rw [write32_cooper (by omega) (by omega), writeCooper, if_neg (by omega), if_neg (by omega), if_pos (by omega),
      finOfNat_eq j (by omega)]
  · rw [write32_cooper (by omega) (by omega), writeCooper, if_neg (by omega), if_neg (by omega), if_neg (by omega), if_neg (by omega),
      if_pos (by omega), finOfNat_eq j (by omega), bitOf_setWidth v (by decide), bitOf_setWidth v (by decide), restore, noFetch]
    rfl
  · rw [write32_cooper (by omega) (by omega), writeCooper, if_neg (by omega), if_neg (by omega), if_neg (by omega), if_neg (by omega),
      if_pos (by omega), finOfNat_eq j (by omega), bitOf_setWidth v (by decide), bitOf_setWidth v (by decide), noRestore, fetch]
    rfl

/-- R281: the configuration of a Sealer slot. -/
theorem names_slot (up : hostUp s h = true) (j : Job) (i : Fin 255) (v : W64) :
    Names s h (0x40000 + 4096 * j.val + 16 * i.val) 4 v (.seaSlotCfgWrite j i (v.setWidth 32)) := by
  refine names_of_write32 up (Plain.isWord (by unfold Plain; omega)) (congrArg Host.Outcome.next ?_)
  have slot : (0x40000 + 4096 * j.val + 16 * i.val - 0x40000) / 16 % 256 = i.val := by omega
  rw [write32_slotReg (by omega) (by omega), writeSlotReg]
  simp only [slot, i.isLt, dite_true]
  rw [if_pos (by omega), finOfNat_eq j (by omega)]

/-- R505, R506: ownership and semaphore groups. -/
theorem names_steward (up : hostUp s h = true) (n : Fin 64) (v : W64) :
    Names s h (0x10100 + 4 * n.val) 4 v (.stwOwnWrite (Fin.ofNat 128 (64 * h.val + n.val)) (v.setWidth 32)) ∧
    Names s h (0x10200 + 4 * n.val) 4 v (.stwSemgrpWrite h n (v.setWidth 32)) := by
  refine ⟨names_of_write32 up (Plain.isWord (by unfold Plain; omega)) (congrArg Host.Outcome.next ?_),
    names_of_write32 up (Plain.isWord (by unfold Plain; omega)) (congrArg Host.Outcome.next ?_)⟩
  · have core : (0x10100 + 4 * n.val - 0x10100) / 4 = n.val := by omega
    rw [write32_steward (by omega) (by omega), writeSteward, if_pos (by omega), core]
  · rw [write32_steward (by omega) (by omega), writeSteward, if_neg (by omega), if_pos (by omega), finOfNat_eq n (by omega)]

theorem coreBlock_page (p : Pos) {o : Nat} (inside : o < 0x10000) :
    Fin.ofNat 72 ((0x100000 + 0x10000 * p.val + o - 0x100000) / 0x10000) = p := finOfNat_eq p (by omega)

theorem coreBlock_offset (p : Pos) {o : Nat} (inside : o < 0x10000) : (0x100000 + 0x10000 * p.val + o) % 0x10000 = o := by omega

/-- R509, R511: the flip masks of a core's block. -/
def coreFlips (h : Hall) (p : Pos) : List (Nat × FlipTarget) :=
  [(0x1108, .drn h p), (0x120C, .wvr h p), (0x130C, .lmp h p), (0x1408, .ful h p), (0x151C, .asy h p), (0x1520, .asyCrc h p),
   (0x1610, .ctr h p), (0x1700, .sto h p)]

theorem coreFlips_offset (h : Hall) (p : Pos) : ∀ x ∈ coreFlips h p, 0x1100 ≤ x.1 ∧ x.1 < 0x1800 ∧ x.1 % 4 = 0 ∧ flipHall x.2 = h.val := by
  simp [coreFlips, flipHall]

theorem writeCoreBlock_flip (h : Hall) (p : Pos) (w : W32) (s : State) :
    ∀ x ∈ coreFlips h p, writeCoreBlock h (0x100000 + 0x10000 * p.val + x.1) w s = writeFlipReg s x.2 w := by
  simp only [coreFlips, List.forall_mem_cons]
  refine ⟨?_, ?_, ?_, ?_, ?_, ?_, ?_, ?_, fun _ mem => absurd mem List.not_mem_nil⟩ <;>
    (rw [writeCoreBlock, coreBlock_page p (by decide), coreBlock_offset p (by decide)]; rfl)

theorem runFlipArm_up {t : FlipTarget} {w : W32} (up : hostUp s h = true) (hall : flipHall t = h.val) :
    runFlipArm t w s = writeFlipReg s t w :=
  if_pos (by rwa [hall])

/-- R303, R509: the registers of a core's block. -/
theorem names_coreBlock (up : hostUp s h = true) (p : Pos) (v : W64) :
    Names s h (0x101500 + 0x10000 * p.val) 4 v (.asyInject h p (v.setWidth 32)) ∧
    ∀ x ∈ coreFlips h p, Names s h (0x100000 + 0x10000 * p.val + x.1) 4 v (.flipArm x.2 (v.setWidth 32)) := by
  refine ⟨names_of_write32 up (Plain.isWord (by unfold Plain; omega)) (congrArg Host.Outcome.next ?_), fun x mem => ?_⟩
  · have address : 0x101500 + 0x10000 * p.val = 0x100000 + 0x10000 * p.val + 0x1500 := by omega
    rw [write32_coreBlock (by omega) (by omega), address, writeCoreBlock, coreBlock_page p (by decide), coreBlock_offset p (by decide)]
    rfl
  · obtain ⟨low, high, aligned, hall⟩ := coreFlips_offset h p x mem
    refine names_of_write32 up (Plain.isWord (by unfold Plain; omega)) (congrArg Host.Outcome.next ?_)
    rw [write32_coreBlock (by omega) (by omega), writeCoreBlock_flip h p _ s x mem, runFlipArm_up up hall]

/-- R346, R350: the registers of a memory hub. -/
theorem names_hub (up : hostUp s h = true) (j : Hub) (v : W64) :
    Names s h (0x600028 + 0x10000 * j.val) 4 v (.flipArm (.hub h j) (v.setWidth 32)) ∧
    ∀ i : Fin 8, v.getLsbD 31 = true → Names s h (0x600100 + 0x10000 * j.val + 4 * i.val) 4 v (.hubPkgRetire h j i) := by
  refine ⟨names_of_write32 up (Plain.isWord (by unfold Plain; omega)) (congrArg Host.Outcome.next ?_), fun i retire =>
    names_of_write32 up (Plain.isWord (by unfold Plain; omega)) (congrArg Host.Outcome.next ?_)⟩
  · rw [write32_hub (by omega) (by omega), writeHub, if_pos (by omega), finOfNat_eq j (by omega), runFlipArm_up up rfl]
  · have package : (0x600100 + 0x10000 * j.val + 4 * i.val) % 0x10000 = 0x100 + 4 * i.val := by omega
    rw [write32_hub (by omega) (by omega), writeHub, package, if_neg (by omega), bitOf_setWidth v (by decide),
      if_pos ⟨by omega, by omega, retire⟩, finOfNat_eq j (by omega), finOfNat_eq i (by omega)]

/-- R401: the registers of a link hub. -/
theorem names_link (up : hostUp s h = true) (p : Port) (v : W64) :
    Names s h (0x680004 + 0x10000 * p.val) 4 v (.lnkLaneRetireWrite h p (v.setWidth 32)) ∧
    Names s h (0x680200 + 0x10000 * p.val) 4 v (.flipArm (.lnk h p) (v.setWidth 32)) := by
  refine ⟨names_of_write32 up (Plain.isWord (by unfold Plain; omega)) (congrArg Host.Outcome.next ?_),
    names_of_write32 up (Plain.isWord (by unfold Plain; omega)) (congrArg Host.Outcome.next ?_)⟩
  · rw [write32_link (by omega) (by omega), writeLink, if_pos (by omega), finOfNat_eq p (by omega)]
  · rw [write32_link (by omega) (by omega), writeLink, if_neg (by omega), if_pos (by omega), finOfNat_eq p (by omega),
      runFlipArm_up up rfl]

/-- R64: the semaphores. -/
theorem names_sem (up : hostUp s h = true) (i : Sem) (v : W64) :
    Names s h (0x800000 + 0x800 * i.val + 8) 8 v (.semAdd h i v) ∧ Names s h (0x800000 + 0x800 * i.val + 16) 8 v (.semSet h i v) := by
  have double {r : Nat} (reg : r = 8 ∨ r = 16) : IsLong (0x800000 + 0x800 * i.val + r) := by
    refine ⟨by omega, by omega, byteAddr_eq_false (by omega) (by omega), ?_⟩
    have low : decide (0x800000 ≤ 0x800000 + 0x800 * i.val + r) = true := decide_eq_true (by omega)
    have high : decide (0x800000 + 0x800 * i.val + r < 0x1000000) = true := decide_eq_true (by omega)
    have register : (0x800000 + 0x800 * i.val + r) % 0x800 = r := by omega
    rw [is64, low, high, register]
    rcases reg with rfl | rfl <;> simp
  have writes {r : Nat} (reg : r = 8 ∨ r = 16) : write64 h (0x800000 + 0x800 * i.val + r) v s =
      if r = 8 then runSemAdd h i v s else if r = 0x10 then runSemSet h i v s else s := by
    have register : (0x800000 + 0x800 * i.val + r) % 0x800 = r := by omega
    unfold write64
    iterate 11 rw [if_neg (by omega)]
    rw [if_pos (by omega), register, finOfNat_eq i (by omega)]
  exact ⟨names_of_write64 up (double (.inl rfl)) (congrArg Host.Outcome.next (writes (.inl rfl)).symm),
    names_of_write64 up (double (.inr rfl)) (congrArg Host.Outcome.next (writes (.inr rfl)).symm)⟩

/-- R280, R304, R324, R379, R427, R493: the registers of which a hall has one. -/
theorem names_single (up : hostUp s h = true) (v : W64) :
    Names s h 0x51000 4 v (.flipArm (.sea h) (v.setWidth 32)) ∧ Names s h 0x80018 4 v (.flipArm (.mesh h) (v.setWidth 32)) ∧
    Names s h 0x80200 4 v (.flipArm (.seam h) (v.setWidth 32)) ∧ Names s h 0x4 4 v (.hallReload h (v.setWidth 32)) ∧
    Names s h 0x60008 4 v (.tnkReqWrite h (v.setWidth 32)) ∧ Names s h 0x70100 4 v (.xlateInv (v.setWidth 32)) ∧
    Names s h 0x710008 4 v (.scbRingEnable h (v.setWidth 32)) ∧ Names s h 0x710010 4 v (.scbRingConsWrite h (v.setWidth 32)) := by
  have word (a : Nat) (i : Instr) (is : Plain a) := names_of_write32 (s := s) (h := h) (v := v) (i := i) up is.isWord
  refine ⟨word _ _ (by unfold Plain; omega) (congrArg Host.Outcome.next ?_),
    word _ _ (by unfold Plain; omega) (congrArg Host.Outcome.next ?_),
    word _ _ (by unfold Plain; omega) (congrArg Host.Outcome.next ?_), word _ _ (by unfold Plain; omega) (congrArg Host.Outcome.next ?_),
    word _ _ (by unfold Plain; omega) (congrArg Host.Outcome.next ?_), word _ _ (by unfold Plain; omega) (congrArg Host.Outcome.next ?_),
    word _ _ (by unfold Plain; omega) (congrArg Host.Outcome.next ?_), word _ _ (by unfold Plain; omega) (congrArg Host.Outcome.next ?_)⟩
  · rw [write32_sealer (by decide) (by decide)]
    exact runFlipArm_up up rfl
  · rw [write32_mesh (by decide) (by decide)]
    exact runFlipArm_up up rfl
  · rw [write32_mesh (by decide) (by decide)]
    exact runFlipArm_up up rfl
  · rw [write32_start (by decide)]
    rfl
  · rw [write32_tinker (by decide) (by decide)]
    rfl
  · exact write32_xlateInv.symm
  · rw [write32_hostReg (by decide) (by decide)]
    rfl
  · rw [write32_hostReg (by decide) (by decide)]
    rfl

theorem names_bellman (up : hostUp s h = true) (v : W64) :
    Names s h 0x90000 8 v (.belStickyClear h v) ∧ Names s h 0x90008 8 v (.belForce h v) :=
  ⟨names_of_write64 up ⟨by decide, by decide, by decide, by decide⟩ rfl, names_of_write64 up ⟨by decide, by decide, by decide, by decide⟩ rfl⟩

end

/-! ## The start and flash registers (R478, R496) -/

theorem tabSet_tabSetFrom {α : Type} [DecidableEq α] {d : α} {lo : Nat} {t : Tab α} (wf : tabWfFrom d lo t = true) (k : Nat) (x y : α) :
    tabSet d k y (tabSet d k x t) = tabSet d k y t := by
  induction t generalizing lo with
  | nil => by_cases none : x = d <;> simp [tabSet, none]
  | cons e r ih =>
    obtain ⟨k', z⟩ := e
    simp only [tabWfFrom, Bool.and_eq_true, decide_eq_true_eq] at wf
    obtain ⟨_, rest⟩ := wf
    rcases Nat.lt_trichotomy k k' with less | rfl | more
    · by_cases none : x = d <;> simp [tabSet, less, none]
    · by_cases none : x = d
      · simp only [tabSet, Nat.lt_irrefl, if_false, if_true, none]
        cases r with
        | nil => simp [tabSet]
        | cons e' r' =>
          simp only [tabWfFrom, Bool.and_eq_true, decide_eq_true_eq] at rest
          obtain ⟨⟨above, _⟩, _⟩ := rest
          rw [tabSet, if_pos (by omega)]
      · simp [tabSet, none]
    · rw [tabSet_above d more, tabSet_above d more, tabSet_above d more, ih rest]

section
variable {s : State} (c : Canonical s) (h : Nat) (f g : HallState → HallState)
include c

theorem setHall_modHall (x : HallState) : setHall (modHall s h f) h x = setHall s h x :=
  congrArg (fun t => { s with halls := t }) (tabSet_tabSetFrom c.halls h _ _)

theorem modHall_merge : modHall (modHall s h f) h g = setHall s h (g (f (getHall s h))) := by
  rw [modHall, getHall_modHall_same _ _ _ c.halls, setHall_modHall c]

end

/-- R496: OP of STW_FLASH_CMD. -/
def withOp (op : BitVec 2) (hl : HallState) : HallState := { hl with flashOp := op }

section
variable {s : State} {h : Hall}

theorem getHall_withOp (c : Canonical s) (x : BitVec 2) : getHall (modHall s h (withOp x)) h = withOp x (getHall s h) :=
  getHall_modHall_same _ _ _ c.halls

theorem bootUp_withOp (c : Canonical s) (x : BitVec 2) : bootUp (modHall s h (withOp x)) h = bootUp s h := by
  unfold bootUp hostUp
  rw [getHall_withOp c]
  rfl

theorem mailboxSlot_withOp (c : Canonical s) (x : BitVec 2) (a : Nat) : mailboxSlot (modHall s h (withOp x)) h a = mailboxSlot s h a := by
  unfold mailboxSlot
  rw [getHall_withOp c]
  rfl

theorem mailboxDone_withOp (c : Canonical s) (x op : BitVec 2) (status : Nat) :
    mailboxDone (modHall s h (withOp x)) h op status = mailboxDone s h op status := by
  rw [mailboxDone, modHall_merge c]
  rfl

/-- A mailbox operation sets OP itself. -/
theorem mailboxRun_withOp (c : Canonical s) (up : bootUp s h = true) (x op : BitVec 2) (n : Nat) (f : HallState → Nat → HallState)
    (apart : ∀ hl a status, { f (withOp x hl) a with flashOp := op, flashStatus := status } =
      { f hl a with flashOp := op, flashStatus := status }) :
    mailboxRun (modHall s h (withOp x)) h op n f = mailboxRun s h op n f := by
  have acted (a : Nat) : mailboxDone (modHall (modHall s h (withOp x)) h fun hl => f hl a) h op 1 =
      mailboxDone (modHall s h fun hl => f hl a) h op 1 := by
    rw [mailboxDone, modHall_merge (canonical_modHall c h _), setHall_modHall c, getHall_withOp c, apart, mailboxDone, modHall_merge c]
  unfold mailboxRun
  rw [bootUp_withOp c, up, getHall_withOp c]
  simp only [mailboxDone_withOp c, mailboxSlot_withOp c, acted]
  rfl

theorem runFlashReserved_withOp (c : Canonical s) (up : bootUp s h = true) (x : BitVec 2) :
    runFlashReserved h (modHall s h (withOp x)) = runFlashReserved h s := by
  unfold runFlashReserved
  rw [bootUp_withOp c, up]
  exact mailboxDone_withOp c x 3 2

theorem writeFlashCmd_go {w : W32} (go : bitOf w.toNat 31 = true) : writeFlashCmd h w s =
    let s := modHall s h (withOp (BitVec.ofNat 2 (bitsOf w.toNat 0 2)))
    if bitsOf w.toNat 0 2 = 0 then runFlashRead h s
    else if bitsOf w.toNat 0 2 = 1 then runFlashProgram h s
    else if bitsOf w.toNat 0 2 = 2 then runFlashErase h s
    else runFlashReserved h s := if_neg (by rw [go]; decide)

/-- The two bits of OP. -/
theorem bitsOf_setWidth_op (v : W64) : bitsOf (v.setWidth 32).toNat 0 2 = v.toNat % 4 := by
  rw [bitsOf_low, BitVec.toNat_setWidth]
  omega

/-- R478, R496: STW_START and STW_FLASH_CMD with GO. -/
theorem names_start (up : hostUp s h = true) (v : W64) (go : v.getLsbD 31 = true) :
    Names s h 0x0 4 v (.stwStartRetry h) ∧
    (Canonical s → v.toNat % 4 = 0 → Names s h 0x10 4 v (.flashRead h)) ∧
    (Canonical s → v.toNat % 4 = 1 → Names s h 0x10 4 v (.flashProgram h)) ∧
    (Canonical s → v.toNat % 4 = 2 → Names s h 0x10 4 v (.flashErase h)) ∧
    (Canonical s → v.toNat % 4 = 3 → Names s h 0x10 4 v (.flashOpReserved h)) := by
  have goes : bitOf (v.setWidth 32).toNat 31 = true := (bitOf_setWidth v (by decide)).trans go
  have word (a : Nat) (i : Instr) (is : Plain a) := names_of_write32 (s := s) (h := h) (v := v) (i := i) up is.isWord
  have command : write32 h 0x10 (v.setWidth 32) s = writeFlashCmd h (v.setWidth 32) s := write32_start (by decide)
  refine ⟨word _ _ (by unfold Plain; omega) (congrArg Host.Outcome.next ?_),
    fun c op => word _ _ (by unfold Plain; omega) (congrArg Host.Outcome.next ?_),
    fun c op => word _ _ (by unfold Plain; omega) (congrArg Host.Outcome.next ?_),
    fun c op => word _ _ (by unfold Plain; omega) (congrArg Host.Outcome.next ?_),
    fun c op => word _ _ (by unfold Plain; omega) (congrArg Host.Outcome.next ?_)⟩
  · exact (if_pos (c := bitOf (v.setWidth 32).toNat 31 = true) goes).symm
  · rw [command, writeFlashCmd_go goes, bitsOf_setWidth_op, op]
    exact (mailboxRun_withOp c (bootUp_of_hostUp up) _ _ _ _ fun _ _ _ => rfl).symm
  · rw [command, writeFlashCmd_go goes, bitsOf_setWidth_op, op]
    exact (mailboxRun_withOp c (bootUp_of_hostUp up) _ _ _ _ fun _ _ _ => rfl).symm
  · rw [command, writeFlashCmd_go goes, bitsOf_setWidth_op, op]
    exact (mailboxRun_withOp c (bootUp_of_hostUp up) _ _ _ _ fun _ _ _ => rfl).symm
  · rw [command, writeFlashCmd_go goes, bitsOf_setWidth_op, op]
    exact (runFlashReserved_withOp c (bootUp_of_hostUp up) _).symm

end

/-- Settles O35: each address lies in its block and names its register there. -/
theorem registerAddressesNameTheirRows : Obligations.RegisterAddressesNameTheirRows := by
  unfold Obligations.RegisterAddressesNameTheirRows
  intro h s up row
  have cq (j : Job) (v : W64) := names_queue up (q := .cq h j) (b := 0x24000 + 64 * j.val) v (by omega) (by omega) (by omega)
    fun r inside => queueAt_cq h j inside
  refine ⟨fun n q v => ?_, fun j v => ?_, fun n v => names_steward up n v, fun p v => names_coreBlock up p v, fun j v => names_hub up j v,
    fun p v => names_link up p v, fun v => ?_, fun i v => names_sem up i v, fun v => ?_⟩
  · intro kind core
    exact names_queue up (b := 0x20000 + 256 * n.val + 64 * q.val) v (by omega) (by omega) (by omega)
      fun r inside => queueAt_core h n q (by omega) (by omega)
  · obtain ⟨doorbell, restart, enable⟩ := cq j v
    obtain ⟨sealer, discard, killed, cooper, interval, restore, fetch⟩ := names_job up j v
    exact ⟨doorbell, restart, enable, sealer, discard, killed, cooper, interval, restore, fetch, fun i => names_slot up j i v⟩
  · obtain ⟨sea, mesh, seam, reload, _⟩ := names_single up v
    exact ⟨sea, mesh, seam, reload, fun go => names_start up v go⟩
  · obtain ⟨_, _, _, _, request, xlate, enable, cons⟩ := names_single up v
    obtain ⟨sticky, force⟩ := names_bellman up v
    exact ⟨request, xlate, sticky, force, enable, cons⟩

end Sys2Proof.Machine
end

section
/-! O12, O47: the Miller's admissions, windows, shares, yields and derating. -/

namespace Sys2Proof.Machine

/-! ## A command's start (R53) -/

/-- What an admission and a start leave of a hall's requests and loans. -/
def KeepsRequests (a b : HallState) : Prop := b.requests = a.requests ∧ b.lent = a.lent ∧ b.lastAdmit = a.lastAdmit

theorem keepsRequests_reporting : Reporting KeepsRequests where
  refl _ := ⟨rfl, rfl, rfl⟩
  trans h k := by
    obtain ⟨requests, lent, last⟩ := h
    obtain ⟨requests', lent', last'⟩ := k
    exact ⟨requests'.trans requests, lent'.trans lent, last'.trans last⟩
  event a t e := by
    unfold hallEvent KeepsRequests
    split <;> exact ⟨rfl, rfl, rfl⟩
  sticky _ _ _ := ⟨rfl, rfl, rfl⟩

theorem eachHall_readSlotIn {s : State} (c : Canonical s) (h j i : Nat) : EachHall KeepsRequests s (readSlotIn s h j i) := by
  have w := keepsRequests_reporting
  have stored {u : State} (cu : Canonical u) (x : Slot) : EachHall KeepsRequests u (setSlot u j i x) := .of_changes w cu setSlot_changes rfl
  have counted {u : State} (cu : Canonical u) (e : Ecc → Ecc) :
      EachHall KeepsRequests u (modHall u h fun hl => { hl with seaEcc := e hl.seaEcc }) := .modHall w cu h fun _ => ⟨rfl, rfl, rfl⟩
  unfold readSlotIn
  dsimp only
  generalize (if h = 0 then (getSlot s j i).ecc0 else (getSlot s j i).ecc1) = e
  generalize (if h = 0 then { getSlot s j i with ecc0 := 0 } else { getSlot s j i with ecc1 := 0 }) = x
  have first := stored c x
  split
  · exact .refl w c
  split
  · exact first.trans w (counted first.canonical Ecc.addCe)
  · have marked := first.trans w (counted first.canonical Ecc.addUe)
    refine marked.trans w (EachHall.trans w (.raise w marked.canonical h 23 1 _) (stored ?_ _))
    exact (EachHall.raise w marked.canonical h 23 1 _).canonical

theorem eachHall_readStartSlot {s : State} (c : Canonical s) (k : Nat) (cmd : BitVec 512) :
    EachHall KeepsRequests s (readStartSlot s k cmd) := by
  unfold readStartSlot
  split
  · exact .refl keepsRequests_reporting c
  · exact eachHall_readSlotIn c _ _ _

/-- The start of a command that is no matrix command and no FENCE.EVENT. -/
theorem startCommand_plain {s : State} {k charge : Nat} {f : Front} (front : (getQueue s k).front = some f) (plain : isMatrix f.cmd = false)
    (noEvent : opcodeOf f.cmd ≠ 0x05) : ∃ covers scales, startCommand s k charge =
      modQueue (readStartSlot s k f.cmd) k fun q => settle { q with
        front := none,
        inflight := q.inflight ++ [{
          seq := f.seq, cmd := f.cmd, desc := f.desc, start := now (readStartSlot s k f.cmd) (qHall k), covers := covers,
          sealT := scales, dest := f.dest, charge := charge }] } := by
  unfold startCommand
  simp only [front, plain, if_neg noEvent]
  exact ⟨_, _, rfl⟩

theorem settle_started {q : Queue} (going : Going q) (x : InFlight) :
    settle { q with front := none, inflight := q.inflight ++ [x] } =
      { q with front := none, inflight := q.inflight ++ [x], state := .run } := by
  unfold settle
  rcases going with g | g | g <;> simp [g]

theorem modQueue_frame {s u : State} (frame : u = { s with halls := u.halls, slots := u.slots }) (k : Nat) (f : Queue → Queue) :
    modQueue u k f = { s with queues := (modQueue u k f).queues, halls := (modQueue u k f).halls, slots := (modQueue u k f).slots } :=
  congrArg (fun v : State => { v with queues := (modQueue u k f).queues }) frame

theorem started_startCommand {s : State} (c : Canonical s) {k charge : Nat} {f : Front} (front : (getQueue s k).front = some f)
    (plain : isMatrix f.cmd = false) (noEvent : opcodeOf f.cmd ≠ 0x05) (going : Going (getQueue s k)) :
    ∃ x : InFlight, getQueue (startCommand s k charge) k =
        { getQueue s k with front := none, inflight := (getQueue s k).inflight ++ [x], state := .run } ∧
      x.seq = f.seq ∧ x.cmd = f.cmd ∧ x.desc = f.desc ∧ x.dest = f.dest ∧ x.start = now s (qHall k) ∧ x.charge = charge ∧
      (∀ k', k' ≠ k → getQueue (startCommand s k charge) k' = getQueue s k') ∧
      (∀ h, KeepsRequests (getHall s h) (getHall (startCommand s k charge) h)) ∧
      startCommand s k charge = { s with
        queues := (startCommand s k charge).queues, halls := (startCommand s k charge).halls, slots := (startCommand s k charge).slots } := by
  obtain ⟨covers, scales, run⟩ := startCommand_plain (charge := charge) front plain noEvent
  have kept := readStartSlot_changes (s := s) (k := k) (cmd := f.cmd)
  have queue (k' : Nat) : getQueue (readStartSlot s k f.cmd) k' = getQueue s k' := kept.getQueue rfl k'
  have time : now (readStartSlot s k f.cmd) (qHall k) = now s (qHall k) := by
    unfold now
    rw [show (readStartSlot s k f.cmd).time = s.time from kept.only .time rfl,
      show (readStartSlot s k f.cmd).time1 = s.time1 from kept.only .time1 rfl]
  have frame : readStartSlot s k f.cmd = { s with halls := (readStartSlot s k f.cmd).halls, slots := (readStartSlot s k f.cmd).slots } :=
    kept.eq_with rfl fun p => by cases p <;> rfl
  rw [run, time]
  refine ⟨{ seq := f.seq, cmd := f.cmd, desc := f.desc, start := now s (qHall k), covers := covers, sealT := scales, dest := f.dest,
            charge := charge }, ?_, rfl, rfl, rfl, rfl, rfl, rfl, fun k' ne => ?_, (eachHall_readStartSlot c k f.cmd).hall, ?_⟩
  · rw [getQueue_modQueue_same _ _ _ (kept.canonical c).queues, queue]
    exact settle_started going _
  · rw [getQueue_modQueue_ne _ _ ne, queue]
  · exact modQueue_frame frame k _

/-! ## Admission (R457, R460, R461) -/

theorem runGrantAdmit_admitted {h : Hall} {s : State} {r : Request} {rest : List Request} {loan : Bool} (up : dieUp s = true)
    (oldest : (getHall s h).requests = r :: rest) (admits : admission s h r = some loan) : runGrantAdmit h s = admitRequest s h r loan := by
  unfold runGrantAdmit
  simp only [oldest, up, admits]
  rfl

/-- What a key reads as after a write of another value than the default, whatever the table. -/
theorem tabGet_tabSet_listed {α : Type} [DecidableEq α] {d v : α} (listed : v ≠ d) (k : Nat) (t : Tab α) : tabGet d (tabSet d k v t) k = v := by
  induction t with
  | nil =>
    rw [tabSet, if_neg listed]
    exact if_pos rfl
  | cons e r ih =>
    obtain ⟨k', x⟩ := e
    unfold tabSet
    split
    · exact if_pos rfl
    split
    · exact if_pos rfl
    · next _ other => exact (if_neg fun same => other same.symm).trans ih

/-- A hall that has admitted a request is not as at reset. -/
theorem getHall_modHall_admitted {s : State} {h : Nat} {f : HallState → HallState} (last : (f (getHall s h)).lastAdmit ≠ none) :
    getHall (modHall s h f) h = f (getHall s h) :=
  tabGet_tabSet_listed (fun same => last (congrArg HallState.lastAdmit same)) _ _

/-- R461: the hall with its oldest request admitted. -/
def admittedHall (t : W64) (charge lent : Nat) (hl : HallState) : HallState :=
  { hl with requests := hl.requests.tail, ramp := recentRamp hl t ++ [(t, charge)], lastAdmit := some t, lent := hl.lent + lent }

/-- R467: the hall with a stream of the Cooper that holds its grant. -/
def streamHall (j charge lent : Nat) (hl : HallState) : HallState :=
  { hl with copGrants := tabSet 0 j charge hl.copGrants, copLent := tabSet 0 j lent hl.copLent }

/-- R460: the queue with its grant. -/
def grantedQueue (r : Request) (charge : Nat) (loan : Bool) (t : W64) (q : Queue) : Queue :=
  { q with grant := some (addGrant q r charge loan t), qwait := q.qwait + BitVec.ofNat 32 ((t - r.time).toNat / 4) }

theorem admitRequest_stream_eq {s : State} {h : Nat} {r : Request} (loan : Bool) (stream : 2048 ≤ r.queue) : admitRequest s h r loan =
    modHall (modHall s h (admittedHall (now s h) (requestCharge s r) (if loan then requestCharge s r else 0))) h
      (streamHall (r.queue - 2048) (requestCharge s r) (if loan then requestCharge s r else 0)) := if_pos stream

theorem admitRequest_queue_eq {s : State} {h : Nat} {r : Request} (loan : Bool) (queue : r.queue < 2048) : admitRequest s h r loan =
    let t := modQueue (modHall s h (admittedHall (now s h) (requestCharge s r) (if loan then requestCharge s r else 0))) r.queue
      (grantedQueue r (requestCharge s r) loan (now s h))
    startCommand t r.queue (min (heldCharge t r) (chargeOf s.miller r.res)) := if_neg (by omega)

theorem admitRequest_stream {s : State} {h : Nat} {r : Request} {rest : List Request} {loan : Bool} (stream : 2048 ≤ r.queue)
    (oldest : (getHall s h).requests = r :: rest) : (getHall (admitRequest s h r loan) h).requests = rest := by
  have last (t : W64) (charge lent : Nat) (hl : HallState) : (admittedHall t charge lent hl).lastAdmit ≠ none := nofun
  have admitted := getHall_modHall_admitted (s := s) (h := h) (last (now s h) (requestCharge s r) (if loan then requestCharge s r else 0) _)
  rw [admitRequest_stream_eq loan stream, getHall_modHall_admitted (by rw [admitted]; exact Option.some_ne_none _), admitted]
  exact congrArg List.tail oldest

theorem requestCharge_queue {s : State} {r : Request} (queue : r.queue < 2048) :
    requestCharge s r = chargeOf s.miller r.res - ((getQueue s r.queue).grant.map (·.charge)).getD 0 := by
  rw [requestCharge, heldCharge, if_neg (by omega)]

theorem addGrant_charge (q : Queue) (r : Request) (c : Nat) (t : W64) :
    (addGrant q r (c - (q.grant.map (·.charge)).getD 0) false t).charge = max c ((q.grant.map (·.charge)).getD 0) := by
  unfold addGrant
  cases q.grant with
  | none => simp
  | some g => simp; omega

section
variable {h : Hall} {s : State} {r : Request} {rest : List Request} {loan : Bool} (up : dieUp s = true)
  (oldest : (getHall s h).requests = r :: rest) (admits : admission s h r = some loan)
include up oldest admits

theorem runAdmit_admitted : runAdmit h s =
    if decide (2048 ≤ r.queue) && !((getHall (admitRequest s h r loan) h).requests.any fun x => x.queue == r.queue)
    then openCopies (admitRequest s h r loan) h (r.queue - 2048) else admitRequest s h r loan := by
  unfold runAdmit
  simp only [oldest, runGrantAdmit_admitted up oldest admits]

theorem runAdmit_queue (queue : r.queue < 2048) : runAdmit h s = admitRequest s h r loan := by
  rw [runAdmit_admitted up oldest admits, decide_eq_false (by omega), Bool.false_and]
  rfl

theorem runAdmit_stream (stream : 2048 ≤ r.queue) (alone : ∀ x ∈ rest, x.queue ≠ r.queue) :
    runAdmit h s = openCopies (admitRequest s h r loan) h (r.queue - 2048) := by
  refine (runAdmit_admitted up oldest admits).trans (if_pos ?_)
  rw [decide_eq_true stream, admitRequest_stream stream oldest, Bool.true_and, Bool.not_eq_true', List.any_eq_false]
  exact fun x mem same => alone x mem (beq_iff_eq.1 same)

end

/-- Settles O12: admission by `admission`, and the start of a plain command. -/
theorem grantsAreAdmittedFromTheShare : Obligations.GrantsAreAdmittedFromTheShare := by
  unfold Obligations.GrantsAreAdmittedFromTheShare
  refine ⟨fun h s r rest loan up oldest admits =>
    ⟨fun queue => congrArg Host.Outcome.next (runAdmit_queue up oldest admits queue),
      fun stream alone => congrArg Host.Outcome.next (runAdmit_stream up oldest admits stream alone)⟩, fun h s r rest f => ?_⟩
  intro charge c up oldest queue front plain noEvent going free inService ramp fits
  have its : requestCharge s r = charge := requestCharge_queue queue
  have admits : admission s h r = some false := by
    unfold admission rampFits
    simp only [its, free, inService, decide_eq_true ramp, if_pos fits]
    rfl
  have ch : Canonical (modHall s h (admittedHall (now s h) charge 0)) := canonical_modHall c _ _
  let granted : State := modQueue (modHall s h (admittedHall (now s h) charge 0)) r.queue (grantedQueue r charge false (now s h))
  have cg : Canonical granted := (modQueue_changes (f := grantedQueue r charge false (now s h)) fun _ h => h).canonical ch
  have held : getQueue granted r.queue = grantedQueue r charge false (now s h) (getQueue s r.queue) := getQueue_modQueue_same _ _ _ ch.queues
  have cost : min (heldCharge granted r) (chargeOf s.miller r.res) = chargeOf s.miller r.res := by
    have whole := addGrant_charge (getQueue s r.queue) r (chargeOf s.miller r.res) (now s h)
    rw [heldCharge, if_neg (by omega), held]
    exact Nat.min_eq_right (le_of_le_of_eq (le_max_left _ _) whole.symm)
  have admitted : admitRequest s h r false = startCommand granted r.queue (chargeOf s.miller r.res) := by
    rw [admitRequest_queue_eq false queue, its]
    exact congrArg (fun paid => startCommand granted r.queue paid) cost
  obtain ⟨x, begun, seq, cmd, desc, dest, start, paid, others, halls, frame⟩ := started_startCommand cg
    (charge := chargeOf s.miller r.res) (k := r.queue) (f := f) (by rw [held]; exact front) plain noEvent (by rw [held]; exact going)
  obtain ⟨requests, lent, last⟩ := halls h
  have hall : getHall granted h = admittedHall (now s h) charge 0 (getHall s h) := getHall_modHall_same _ _ _ c.halls
  have run := (runAdmit_queue up oldest admits queue).trans admitted
  refine ⟨_, congrArg Host.Outcome.next run, ?_, ?_, ?_, ?_, ?_, ⟨x, ?_, ?_, ?_, seq, cmd, desc, dest, start, paid⟩, fun k' ne => ?_, ?_⟩
  · rw [requests, hall]
    exact congrArg List.tail oldest
  · rw [lent, hall]
    rfl
  · rw [last, hall]
    rfl
  · rw [begun, held]
    rfl
  · rw [begun, held]
    rfl
  · rw [begun]
  · rw [begun]
  · rw [begun, held]
    rfl
  · exact (others k' ne).trans (getQueue_modQueue_ne _ _ ne)
  · exact frame

/-! ## Shares (R463) -/

section
variable {s : State} (c : Canonical s)
include c

/-- What a new deal of the shares leaves of each hall. -/
theorem hall_field_reshare {α : Type} (read : HallState → α) (kept : ∀ a n, read { a with share := n } = read a) (x : Nat) :
    read (getHall (reshare s) x) = read (getHall s x) := by
  unfold reshare
  dsimp only
  split
  · rfl
  · rw [hall_field_modHall (canonical_modHall c _ _) read fun a => kept a _, hall_field_modHall c read fun a => kept a _]

theorem hall_field_exchangeShares {α : Type} (read : HallState → α) (kept : ∀ a n, read { a with share := n } = read a) (x : Nat) :
    read (getHall (exchangeShares s) x) = read (getHall s x) := by
  unfold exchangeShares
  dsimp only
  split
  · rfl
  · rw [hall_field_modHall (canonical_modHall c _ _) read fun a => kept a _, hall_field_modHall c read fun a => kept a _]

omit c in
/-- The shares dealt sum to the pool where a hall may hold one. -/
theorem sharesFor_sum (p : Nat) (held : (getHall s 0).down = false ∨ (getHall s 1).down = false) : (sharesFor s p).1 + (sharesFor s p).2 = p := by
  unfold sharesFor holdsShare
  cases west : (getHall s 0).down <;> cases east : (getHall s 1).down <;> simp [west, east] at held ⊢
  split <;> simp
  omega

theorem sharesSum (held : (getHall s 0).down = false ∨ (getHall s 1).down = false) :
    (getHall (reshare s) 0).share + (getHall (reshare s) 1).share = pool s.miller := by
  unfold reshare
  dsimp only
  split
  · next same => exact same
  · have cw := canonical_modHall c 0 fun hl => { hl with share := (sharesFor s (pool s.miller)).1 }
    rw [getHall_modHall_same _ _ _ cw.halls, getHall_modHall_ne _ _ (by decide : 0 ≠ 1), getHall_modHall_same _ _ _ c.halls]
    exact sharesFor_sum _ held

end

/-! ## Yields (R464) -/

theorem yieldGrant_yieldGrant (t : W64) (q : Queue) : yieldGrant t (yieldGrant t q) = yieldGrant t q := by
  unfold yieldGrant
  cases q.grant with
  | none => rfl
  | some g => by_cases long : 100000 < (t - g.since).toNat <;> simp only [Option.map_some, long, if_true, if_false]

theorem getQueue_foldl_modQueue {s : State} (c : Canonical s) (f : Queue → Queue) (twice : ∀ q, f (f q) = f q)
    (legal : ∀ q, QueueLegal q → QueueLegal (f q)) (l : List Nat) (k : Nat) :
    getQueue (l.foldl (fun s k => modQueue s k f) s) k = if k ∈ l then f (getQueue s k) else getQueue s k := by
  induction l generalizing s with
  | nil => rfl
  | cons x r ih =>
    rw [List.foldl_cons, ih ((modQueue_changes legal).canonical c)]
    by_cases here : k = x
    · subst here
      rw [getQueue_modQueue_same _ _ _ c.queues, if_pos List.mem_cons_self, twice, ite_self]
    · rw [getQueue_modQueue_ne _ _ here]
      simp only [List.mem_cons, here, false_or]

theorem foldl_modQueue_frame (s : State) (f : Queue → Queue) (l : List Nat) :
    l.foldl (fun s k => modQueue s k f) s = { s with queues := (l.foldl (fun s k => modQueue s k f) s).queues } := by
  induction l generalizing s with
  | nil => rfl
  | cons x r ih => exact (ih _).trans rfl

/-- The time stands while the queues yield. -/
theorem foldl_yield (h : Nat) (t : W64) (l : List Nat) {s : State} (time : now s h = t) :
    l.foldl (fun u k => modQueue u k (yieldGrant (now u h))) s = l.foldl (fun u k => modQueue u k (yieldGrant t)) s := by
  induction l generalizing s with
  | nil => rfl
  | cons x r ih =>
    rw [List.foldl_cons, List.foldl_cons, time]
    exact ih time

theorem runMillerYield_due {h : Hall} {s : State} (up : dieUp s = true) (due : yieldDue s h = true) : runMillerYield h s =
    ((s.queues.map (·.1)).filter fun k => qHall k == h.val).foldl (fun u k => modQueue u k (yieldGrant (now s h))) s :=
  (if_pos (by rw [up, due]; rfl)).trans (foldl_yield h _ _ rfl)

theorem longHeldGrantsYield : LongHeldGrantsYield := by
  intro h s c up
  refine ⟨fun no => congrArg Host.Outcome.next (if_neg (by rw [no]; simp)), fun due =>
    ⟨_, congrArg Host.Outcome.next (runMillerYield_due up due), foldl_modQueue_frame _ _ _, fun k here => ?_, fun k elsewhere => ?_⟩⟩
  · rw [getQueue_foldl_modQueue c _ (yieldGrant_yieldGrant _) fun _ l => l]
    split
    · rfl
    · next out =>
      have empty : getQueue s k = {} := by
        by_contra other
        exact out (List.mem_filter.2 ⟨mem_keys_of_tabGet_ne other, beq_iff_eq.2 here⟩)
      rw [empty]
      rfl
  · rw [getQueue_foldl_modQueue c _ (yieldGrant_yieldGrant _) fun _ l => l, if_neg]
    exact fun mem => elsewhere (beq_iff_eq.1 (List.mem_filter.1 mem).2)

/-! ## Windows (R455, R468) -/

/-- The state with the measures of a window. -/
def withMeasures (s : State) (i v : Nat) : State := { s with miller := measured s.miller i v (now s 0) }

/-- What a window leaves before the throttle: the measures, the shares dealt and exchanged, and FS_VIN. -/
def measuredAndDealt (s : State) (i v : Nat) : State := exchangeShares (reshare (withMeasures s i v))

theorem reportVin_left {s : State} (out : s.miller.vinOut = true) : reportVin s false = raiseVin s := if_pos ⟨out, rfl⟩

theorem reportVin_idle {s : State} {was : Bool} (no : s.miller.vinOut = false ∨ was = true) : reportVin s was = s := by
  refine if_neg ?_
  rcases no with no | no <;> rw [no] <;> simp

theorem runMillerWindow_up {i v : Nat} {s : State} (up : dieUp s = true) : runMillerWindow i v s =
    let w := reportVin (measuredAndDealt s i v) s.miller.vinOut
    if aEff w.miller < w.miller.iIn then raiseBoth { w with miller := throttleOn w.miller (now w 0) } 43 1 { code := 0x0706 }
    else if w.miller.iIn ≤ aEff w.miller - 100 * w.miller.margin then { w with miller := throttleOff w.miller (now w 0) }
    else w := if_neg (by rw [up]; decide)

theorem canonical_withMiller {s : State} (c : Canonical s) (m : Miller) : Canonical { s with miller := m } :=
  ⟨c.queues, c.sems, c.semGrp, c.own, c.lcores, c.positions, c.halls, c.hubs, c.ports, c.jobs, c.slots, c.stats, c.mem, c.memErr, c.series,
    c.leafs, c.hostMem⟩

section
variable {s : State} (i v : Nat)

theorem measuredAndDealt_changes : Changes [.halls] (withMeasures s i v) (measuredAndDealt s i v) :=
  .next (.next .refl reshare_changes (by decide)) exchangeShares_changes (by decide)

theorem hall_field_measuredAndDealt (c : Canonical s) {α : Type} (read : HallState → α)
    (kept : ∀ a n, read { a with share := n } = read a) (x : Nat) :
    read (getHall (measuredAndDealt s i v) x) = read (getHall s x) :=
  (hall_field_exchangeShares (reshare_changes.canonical (canonical_withMiller c _)) read kept x).trans
    (hall_field_reshare (canonical_withMiller c _) read kept x)

end

theorem throttleCount_eq (m : Miller) (t : W64) : throttleCount m t =
    if m.throttle = true then m.throttleUs + BitVec.ofNat 32 ((t - m.throttleFrom).toNat / 1000) else m.throttleUs := by
  unfold throttleCount
  split
  · rfl
  · exact BitVec.add_zero _

/-- R425: a report of both halls clears no sticky bit. -/
theorem sticky_raiseBoth_of_sticky {s : State} (c : Canonical s) {x n : Nat} (set : (getHall s x).sticky.getLsbD n = true) (src cls : Nat)
    (e : EventSpec) : (getHall (raiseBoth s src cls e) x).sticky.getLsbD n = true :=
  sticky_raise_of_sticky (raise_changes.canonical c) (sticky_raise_of_sticky c set ..) ..

/-- R468: the sticky bits and the sequence of events of each hall stand. -/
def BellmanStands (s t : State) : Prop := ∀ h, (getHall t h).sticky = (getHall s h).sticky ∧ (getHall t h).evSeq = (getHall s h).evSeq

theorem windowsMeasureAndThrottle : WindowsMeasureAndThrottle := by
  intro i v s c up m
  let w := reportVin (measuredAndDealt s i v) s.miller.vinOut
  have dealt := measuredAndDealt_changes (s := s) i v
  have cd : Canonical (measuredAndDealt s i v) := dealt.canonical (canonical_withMiller c _)
  have changed : Changes [.halls] (withMeasures s i v) w := dealt.next reportVin_changes (by decide)
  have cw : Canonical w := changed.canonical (canonical_withMiller c _)
  have frame : w = { withMeasures s i v with halls := w.halls } := changed.eq_with rfl fun p => by cases p <;> rfl
  have miller : w.miller = m := changed.only .miller rfl
  have time : now w 0 = now s 0 := changed.only .time rfl
  have vin (out : m.vinOut = true) (was : s.miller.vinOut = false) (h : Nat) (small : h < 2) : (getHall w h).sticky.getLsbD 33 = true := by
    have left : w = raiseVin (measuredAndDealt s i v) := by
      unfold w
      rw [was]
      exact reportVin_left ((congrArg Miller.vinOut (dealt.only .miller rfl)).trans out)
    rw [left]
    exact sticky_raiseBoth cd (by decide) 1 _ small
  have still (no : m.vinOut = false ∨ s.miller.vinOut = true) : BellmanStands s w := fun h => by
    have same : w = measuredAndDealt s i v :=
      reportVin_idle (no.imp_left fun out => (congrArg Miller.vinOut (dealt.only .miller rfl)).trans out)
    rw [same]
    exact ⟨hall_field_measuredAndDealt i v c (·.sticky) (fun _ _ => rfl) h, hall_field_measuredAndDealt i v c (·.evSeq) (fun _ _ => rfl) h⟩
  have run := runMillerWindow_up (i := i) (v := v) up
  rw [show reportVin (measuredAndDealt s i v) s.miller.vinOut = w from rfl] at run
  dsimp only at run
  rw [miller, time] at run
  have whole (x : Miller) : ({ w with miller := x } : State) = { s with halls := w.halls, miller := x } :=
    congrArg (fun u : State => { u with miller := x }) frame
  by_cases above : aEff m < m.iIn
  · rw [if_pos above] at run
    let e : EventSpec := { code := 0x0706 }
    let t := raiseBoth { w with miller := throttleOn m (now s 0) } 43 1 e
    have told : Changes [.halls] { w with miller := throttleOn m (now s 0) } t := raiseBoth_changes
    have ct : Canonical { w with miller := throttleOn m (now s 0) } := canonical_withMiller cw _
    have same : t = { ({ w with miller := throttleOn m (now s 0) } : State) with halls := t.halls } := told.eq_with rfl fun p => by cases p <;> rfl
    have throttled : t.miller = throttleOn m (now s 0) := told.only .miller rfl
    refine ⟨t, congrArg Host.Outcome.next run, ?_, fun _ => ⟨throttled, fun h small => sticky_raiseBoth ct (by decide) 1 _ small⟩,
      fun below => absurd above (Nat.not_lt.2 below), fun below => absurd above (by omega), fun out was h small => ?_,
      fun below => absurd above (Nat.not_lt.2 below)⟩
    · rw [throttled]
      exact same.trans (congrArg (fun u : State => { u with halls := t.halls }) (whole _))
    · exact sticky_raiseBoth_of_sticky ct (vin out was h small) 43 1 e
  rw [if_neg above] at run
  by_cases below : m.iIn ≤ aEff m - 100 * m.margin
  · rw [if_pos below] at run
    refine ⟨_, congrArg Host.Outcome.next run, whole _, fun high => absurd high above, fun _ high => absurd below (Nat.not_le.2 high),
      fun _ => congrArg (fun n => { m with throttle := false, throttleUs := n }) (throttleCount_eq m _), vin, fun _ => still⟩
  · rw [if_neg below] at run
    refine ⟨_, congrArg Host.Outcome.next run, ?_, fun high => absurd high above, fun _ _ => miller, fun under => absurd under below, vin,
      fun _ => still⟩
    rw [miller]
    exact frame

/-! ## Warnings (R468, R529) -/

theorem warnLimit_eq (x : Sensor) : warnLimit x = if x = .optics then 70 else 95 := by
  cases x <;> rfl

/-- A report of both halls after a new deal of the shares. -/
theorem raiseBoth_reshare_frame (s : State) (src cls : Nat) (e : EventSpec) :
    raiseBoth (reshare s) src cls e = { s with halls := (raiseBoth (reshare s) src cls e).halls } :=
  (Changes.next (.next .refl reshare_changes (by decide)) raiseBoth_changes (by decide) : Changes [.halls] s _).eq_with rfl
    fun p => by cases p <;> rfl

/-- What a change of the halls from another power and Miller leaves. -/
theorem frame_power_miller {s t : State} {p : Power} {m : Miller}
    (frame : t = { ({ s with power := p, miller := m } : State) with halls := t.halls }) :
    t = { s with halls := t.halls, power := t.power, miller := t.miller } := by
  have power : t.power = p := congrArg State.power frame
  have miller : t.miller = m := congrArg State.miller frame
  subst power miller
  exact frame

theorem frame_miller {s t : State} {m : Miller} (frame : t = { ({ s with miller := m } : State) with halls := t.halls }) :
    t = { s with halls := t.halls, miller := t.miller } := by
  have miller : t.miller = m := congrArg State.miller frame
  subst miller
  exact frame

theorem warningsDerate : WarningsDerate := by
  refine ⟨fun r s c up => ?_, fun _ => rfl, fun s up => ⟨fun no => ?_, fun cool late => ?_⟩,
    fun v s c up => ⟨fun low high => ?_, fun out => ?_⟩⟩
  · intro limit
    have its : warnLimit r.sensor = limit := warnLimit_eq r.sensor
    refine ⟨fun below => congrArg Host.Outcome.next (if_neg fun on => ?_), fun above => ?_⟩
    · obtain ⟨_, hot⟩ := on
      rw [its] at hot
      omega
    · let u : State := { s with
        power := { s.power with
          warm := true, temp := if r.sensor = .die then r.temp else s.power.temp, dieWarm := s.power.dieWarm || decide (r.sensor = .die) },
        miller := { s.miller with derate := true } }
      have cu : Canonical u := ⟨c.queues, c.sems, c.semGrp, c.own, c.lcores, c.positions, c.halls, c.hubs, c.ports, c.jobs, c.slots, c.stats,
        c.mem, c.memErr, c.series, c.leafs, c.hostMem⟩
      have frame := raiseBoth_reshare_frame u 34 1 { code := 0x0704 }
      have run : runThermWarn r s = raiseBoth (reshare u) 34 1 { code := 0x0704 } := if_pos ⟨up, by rwa [its]⟩
      refine ⟨_, congrArg Host.Outcome.next run, congrArg State.power frame, congrArg State.miller frame,
        fun h small => sticky_raiseBoth (reshare_changes.canonical cu) (by decide) 1 _ small, ?_⟩
      exact frame_power_miller frame
  · refine congrArg Host.Outcome.next (if_neg ?_)
    rcases no with no | no
    · rw [no]
      simp
    · rw [decide_eq_false (by omega)]
      simp
  · let u : State := { s with miller := { s.miller with derate := false } }
    have frame : reshare u = { u with halls := (reshare u).halls } := reshare_changes.eq_with rfl fun p => by cases p <;> rfl
    have run : runDerateEnd s = reshare u := if_pos (by rw [up, cool, decide_eq_true late]; rfl)
    exact ⟨_, congrArg Host.Outcome.next run, congrArg State.miller frame, frame_miller frame⟩
  · exact congrArg Host.Outcome.next (if_neg (by rw [up, vinOutside, decide_eq_false (by omega), decide_eq_false (by omega)]; decide))
  · let u : State := { s with miller := { s.miller with vIn := v, vinOut := true } }
    have outside : vinOutside v = true := by
      simp only [vinOutside, Bool.or_eq_true, decide_eq_true_eq]
      exact out
    have frame := raiseBoth_reshare_frame u 33 1 { code := 0x0703 }
    have run : runVinOut v s = raiseBoth (reshare u) 33 1 { code := 0x0703 } := if_pos (by rw [up, outside]; rfl)
    exact ⟨_, congrArg Host.Outcome.next run, congrArg State.miller frame,
      fun h small => sticky_raiseBoth (reshare_changes.canonical (canonical_withMiller c _)) (by decide) 1 _ small, frame_miller frame⟩

/-- Settles O47: windows, shares, yields and warnings by their rows. -/
theorem millerMeasuresAndYields : Obligations.MillerMeasuresAndYields :=
  ⟨windowsMeasureAndThrottle, fun _ c held => sharesSum c held, longHeldGrantsYield, warningsDerate⟩

end Sys2Proof.Machine
end

section
/-! O60: the Drover's commands. -/

namespace Sys2Proof.Machine

/-! ## What a Drover command leaves of the positions (R297, R392)

The check of a segment counts at the core whose stop consumes it. A Drover command reads and writes from its hall's first link hub, and its
ledger is read and written from the Cooper's stop, where no core stands: so no position changes. -/

/-- No core stands at the stop. -/
def NoCoreAt (dst : Nat) : Prop := ((List.range 144).find? fun p => posStop p == dst) = none

section
variable {s : State} {r : Sys2Proof.Reader} {c : Ctx} {v : Vc} {d : Drv} {u : DrvRun}

@[simp] theorem hubRead_positions {src pa len job} : (hubRead s src pa len r job).st.positions = s.positions :=
  hubRead_changes.only .positions rfl

@[simp] theorem hubWrite_positions {src pa data job} : (hubWrite s src r pa data job).st.positions = s.positions :=
  hubWrite_changes.only .positions rfl

@[simp] theorem resendParts_positions {dst l} : (resendParts s v dst l).st.positions = s.positions :=
  resendParts_changes.only .positions rfl

@[simp] theorem vaReadFrom_positions {n va len} : (vaReadFrom s c r n va len).st.positions = s.positions :=
  vaReadFrom_changes.only .positions rfl

@[simp] theorem xlate_positions {va write} : (xlate s c va write).st.positions = s.positions :=
  xlate_changes.only .positions rfl

@[simp] theorem raiseXfail_positions {k seq f va write} : (raiseXfail s k seq f va write).positions = s.positions :=
  raiseXfail_changes.only .positions rfl

@[simp] theorem drvCrc_positions {hop va} : (drvCrc d u s hop va).st.positions = s.positions :=
  drvCrc_changes.only .positions rfl

@[simp] theorem drvSend_positions {ch f} : (drvSend d u ch f).st.positions = u.st.positions :=
  drvSend_changes.only .positions rfl

@[simp] theorem sendChunk_positions {step chunk bs contrib stp ver} :
    (sendChunk d u step chunk bs contrib stp ver).st.positions = u.st.positions :=
  sendChunk_changes.only .positions rfl

@[simp] theorem sendToken_positions {round count} : (sendToken d u round count).st.positions = u.st.positions :=
  sendToken_changes.only .positions rfl

@[simp] theorem takeFrame_positions {k x} : (takeFrame s k x).2.positions = s.positions :=
  takeFrame_changes.only .positions rfl

@[simp] theorem sendPartial_positions {step chunk p} : (sendPartial d u step chunk p).st.positions = u.st.positions := by
  unfold sendPartial
  exact (sendChunk_positions).trans ((contribField_changes.only .positions rfl).trans (redFree_changes.only .positions rfl))

@[simp] theorem redFree_positions {p} : (redFree d s p).2.positions = s.positions :=
  redFree_changes.only .positions rfl

@[simp] theorem looseFull_positions {p} : (looseFull d s p).positions = s.positions :=
  looseFull_changes.only .positions rfl

@[simp] theorem gatherNext_positions : (gatherNext d u).st.positions = u.st.positions :=
  gatherNext_changes.only .positions rfl

@[simp] theorem redFrame_positions {i port x} : (redFrame d u i port x).st.positions = u.st.positions :=
  redFrame_changes.only .positions rfl

@[simp] theorem barrierLoop_positions {n} : (barrierLoop d n u).st.positions = u.st.positions :=
  barrierLoop_changes.only .positions rfl

/-! ### Segments and ranges -/

theorem countCrc_positions {dst hk failed} (h : NoCoreAt dst) : (countCrc s dst hk failed).positions = s.positions := by
  unfold NoCoreAt at h
  unfold countCrc
  simp only [h]
  split <;> rfl

theorem checkSegment_positions {dst l} (h : NoCoreAt dst) : (checkSegment s v dst l).st.positions = s.positions := by
  unfold checkSegment
  dsimp only
  split
  · rfl
  · split <;> simp [countCrc_positions h]

theorem segmentRead_positions {va len} (h : NoCoreAt c.stop) : (segmentRead s c r va len).st.positions = s.positions := by
  simp [segmentRead, checkSegment_positions h]

theorem segmentsRead_positions {n va len} (h : NoCoreAt c.stop) : (segmentsRead s c r n va len).st.positions = s.positions := by
  induction n generalizing s va len with
  | zero => rfl
  | succ n ih =>
    unfold segmentsRead
    dsimp only
    split
    · rfl
    · split <;> simp [ih, segmentRead_positions h]

theorem vaRead_positions {va len} (h : NoCoreAt c.stop) : (vaRead s c va len r).st.positions = s.positions := by
  unfold vaRead
  split
  · exact segmentsRead_positions h
  · exact vaReadFrom_positions

theorem writeRequest_positions {pa bs} (h : NoCoreAt c.stop) : (writeRequest s c r pa bs).st.positions = s.positions := by
  unfold writeRequest
  split
  · exact hubWrite_positions
  · dsimp only
    split <;> simp [checkSegment_positions h]

theorem vaWriteFrom_positions {n va data} (h : NoCoreAt c.stop) : (vaWriteFrom s c r n va data).st.positions = s.positions := by
  induction n generalizing s va data with
  | zero => rfl
  | succ n ih =>
    unfold vaWriteFrom
    split
    · rfl
    · dsimp only
      split
      · exact xlate_positions
      · simp [ih, writeRequest_positions h]

theorem vaWrite_positions {va data} (h : NoCoreAt c.stop) : (vaWrite s c r va data).st.positions = s.positions :=
  vaWriteFrom_positions h

end

/-! ### The Drover's runs -/

/-- The Drover's queue is a CQ ring of a hall of the module, and its command and ledger work from stops where no core stands. -/
structure OffCores (d : Drv) : Prop where
  ring : ∀ s, NoCoreAt (qCtx s d.key).stop
  ledger : NoCoreAt (jobCtx d.h d.j).stop

theorem offCores_drvOf (h : Hall) (j : Job) (c : InFlight) : OffCores (drvOf h j c) := by
  have link : ∀ h : Hall, NoCoreAt (linkStop (6 * h.val)) := by unfold NoCoreAt; decide +kernel
  have cooper : ∀ h : Hall, NoCoreAt (cooperStop h.val) := by unfold NoCoreAt; decide +kernel
  have hall : qHall (512 + 16 * h.val + j.val) = h.val := by simp only [qHall]; split <;> omega
  have none : qCore (512 + 16 * h.val + j.val) = none := if_neg (by omega)
  refine ⟨fun s => ?_, cooper h⟩
  have stop : (qCtx s (drvOf h j c).key).stop = linkStop (6 * h.val) := by simp only [qCtx, drvOf, Drv.key, queueStop, none, hall]
  rw [stop]
  exact link h

section
variable {d : Drv} (hd : OffCores d) {r : DrvRun}
include hd

theorem drvRead_positions {va n} : (drvRead d r va n).1.st.positions = r.st.positions := by
  unfold drvRead
  split
  · rfl
  · dsimp only
    split <;> simp [vaRead_positions (hd.ring _)]

theorem drvWrite_positions {va bs} : (drvWrite d r va bs).st.positions = r.st.positions := by
  unfold drvWrite
  split
  · rfl
  · dsimp only
    split <;> simp [vaWrite_positions (hd.ring _)]

theorem readLedger_positions {s : State} {va} : (readLedger s d.key d.seq d.h d.j va).st.positions = s.positions := by
  unfold readLedger
  dsimp only
  split
  · simp [vaRead_positions hd.ledger]
  · split <;> exact vaRead_positions hd.ledger

theorem ledgerStale_positions {s : State} : (ledgerStale s d).st.positions = s.positions := by
  unfold ledgerStale
  dsimp only
  split
  · rfl
  · split
    · exact readLedger_positions hd
    · split
      · exact readLedger_positions hd
      · split <;> simp [vaWrite_positions hd.ledger, readLedger_positions hd]

theorem chunkStale_positions {chunk f} : (chunkStale d r chunk f).st.positions = r.st.positions := by
  unfold chunkStale
  split
  · rfl
  · exact ledgerStale_positions hd

theorem sendOwn_positions {c} : (sendOwn d r c).st.positions = r.st.positions := by
  simp [sendOwn, drvRead_positions hd]

theorem redStart_positions : (redStart d r).st.positions = r.st.positions := by
  unfold redStart
  dsimp only
  split <;> simp [drvRead_positions hd]

theorem redNext_positions : (redNext d r).st.positions = r.st.positions := by
  unfold redNext
  dsimp only
  split_ifs <;> simp [drvRead_positions hd, drvWrite_positions hd]

theorem gatherFrame_positions {i port x} : (gatherFrame d r i port x).st.positions = r.st.positions := by
  unfold gatherFrame
  dsimp only
  split_ifs <;> simp [drvWrite_positions hd, chunkStale_positions hd]

theorem drvBegin_positions : (drvBegin d r).st.positions = r.st.positions := by
  unfold drvBegin
  split
  · rfl
  · split
    · rfl
    · split_ifs <;> simp [sendOwn_positions hd, redStart_positions hd]

theorem gatherLoop_positions {n} : (gatherLoop d n r).st.positions = r.st.positions := by
  induction n generalizing r with
  | zero => unfold gatherLoop; split_ifs <;> rfl
  | succ n ih =>
    unfold gatherLoop
    split_ifs
    · rfl
    · rfl
    · dsimp only
      split <;> simp [ih, gatherFrame_positions hd]

theorem redLoop_positions {n} : (redLoop d n r).st.positions = r.st.positions := by
  induction n generalizing r with
  | zero => unfold redLoop; split_ifs <;> rfl
  | succ n ih =>
    unfold redLoop
    split_ifs
    · rfl
    · dsimp only
      split <;> simp [ih, redNext_positions hd]

end

/-! ## One run of a command -/

/-- What the first part of a run is: a command's beginning, or where it stood. -/
theorem drvTurn_eq (op : Nat) (s : State) (d : Drv) (c : InFlight) :
    ∃ r : DrvRun, (r = drvBegin d { st := s, co := {} } ∨ ∃ co, r = { st := s, co := co }) ∧
      drvTurn op s d c = (if op = 0xC1 then redLoop d (heldFrames d s + 1) r
        else if op = 0xC3 then barrierLoop d (heldFrames d s + 1) r else gatherLoop d (heldFrames d s + 1) r) := by
  unfold drvTurn
  cases c.coll with
  | none => exact ⟨_, .inl rfl, rfl⟩
  | some co => exact ⟨_, .inr ⟨co, rfl⟩, rfl⟩

theorem drvTurn_positions {d : Drv} (hd : OffCores d) (op : Nat) (s : State) (c : InFlight) :
    (drvTurn op s d c).st.positions = s.positions := by
  obtain ⟨r, hr, e⟩ := drvTurn_eq op s d c
  have began : r.st.positions = s.positions := by
    obtain rfl | ⟨co, rfl⟩ := hr
    · exact drvBegin_positions hd
    · rfl
  rw [e]
  split_ifs <;> simp [redLoop_positions hd, gatherLoop_positions hd, began]

/-- The parts that a Drover's turn may change. -/
theorem drvTurn_changes (op : Nat) (s : State) (d : Drv) (c : InFlight) :
    Changes [.free, .positions, .halls, .hubs, .ports, .jobs, .mem, .memErr, .outputs, .promotes, .series, .meshFault, .resent, .leafs]
      s (drvTurn op s d c).st := by
  obtain ⟨r, hr, e⟩ := drvTurn_eq op s d c
  have began : Changes [.free, .positions, .halls, .hubs, .ports, .jobs, .mem, .memErr, .outputs, .promotes, .series, .meshFault, .resent, .leafs]
      s r.st := by
    obtain rfl | ⟨co, rfl⟩ := hr
    · refine Changes.next ?_ (drvBegin_changes (d := d)) (by decide)
      exact Changes.refl
    · exact Changes.refl
  rw [e]
  split_ifs
  · exact began.next redLoop_changes (by decide)
  · exact began.next barrierLoop_changes (by decide)
  · exact began.next gatherLoop_changes (by decide)

/-- A turn leaves the progress it made with the command. -/
def keepProgress (r : DrvRun) (k : Nat) : State :=
  modQueue r.st k fun q => { q with inflight := match q.inflight with
    | [] => []
    | x :: t => { x with coll := some r.co } :: t }

/-- The end of a turn, from the state that holds its progress. -/
theorem drvFinish_eq (d : Drv) (c : InFlight) (r : DrvRun) : drvFinish d c r = match r.fin with
    | .running => keepProgress r d.key
    | .done => if !r.acked then markUnacked (keepProgress r d.key) d.key
        else staleHalt (completeDone (keepProgress r d.key) d.key c r.flags.toNat (drvCounts d (keepProgress r d.key) r)) d r.co
    | .fault cause ch port =>
      staleHalt (drvFault (keepProgress r d.key) d c cause ch (getPort (keepProgress r d.key) port).peer) d r.co
    | .ueRead seq =>
      staleHalt (completeFault (keepProgress r d.key) d.key c 0x31 (some { seq := seq, source := 5, sev := 2 })) d r.co
    | .xfail f va write => staleHalt (endXfail (keepProgress r d.key) d.key c f va write) d r.co := by
  rfl

theorem headOf_of_headOp {s : State} {k op : Nat} {c : InFlight} (h : headOp s k op = some c) : headOf s k = some c := by
  unfold headOp at h
  split at h
  · cases h
  · rename_i x hx
    split at h
    · rw [hx, h]
    · cases h

theorem runDrover_of_headOp {op : Nat} {h : Hall} {j : Job} {s : State} {c : InFlight} (hc : headOp s (512 + 16 * h + j) op = some c) :
    runDrover op h j s = drvFinish (drvOf h j c) c (drvTurn op s (drvOf h j c) c) := by
  unfold runDrover
  rw [hc]
  rfl

/-- A run's state with its progress kept: no other queue, no position, core or semaphore differs. -/
theorem keepProgress_drvTurn {h : Hall} {j : Job} {op : Nat} {s : State} {c : InFlight} (hs : Canonical s)
    (hc : headOp s (512 + 16 * h + j) op = some c) :
    let k := 512 + 16 * h.val + j.val
    let r := drvTurn op s (drvOf h j c) c
    let e := keepProgress r k
    (∀ y, y ≠ k → getQueue e y = getQueue s y) ∧
      (getQueue e k).inflight = { c with coll := some r.co } :: (getQueue s k).inflight.tail ∧
      e.sems = s.sems ∧ e.lcores = s.lcores ∧ e.positions = s.positions := by
  intro k r e
  have turn := drvTurn_changes op s (drvOf h j c) c
  have queues : r.st.queues = s.queues := turn.only .queues rfl
  have read (y : Nat) : getQueue r.st y = getQueue s y := congrArg (tabGet ({} : Queue) · y) queues
  refine ⟨fun y ne => (getQueue_modQueue_ne _ _ ne).trans (read y), ?_, turn.only .sems rfl, turn.only .lcores rfl,
    drvTurn_positions (offCores_drvOf h j c) op s c⟩
  have head : (getQueue s k).inflight.head? = some c := headOf_of_headOp hc
  have got : (getQueue e k).inflight = (match (getQueue s k).inflight with
      | [] => []
      | x :: t => { x with coll := some r.co } :: t) := by
    rw [← read k]
    exact congrArg Queue.inflight (getQueue_modQueue_same _ _ _ (turn.canonical hs).queues)
  revert got head
  generalize (getQueue s k).inflight = l
  cases l with
  | nil => intro no; cases no
  | cons x t => rintro ⟨⟩ got; exact got

/-- What O60 says of a command in a run, for the run of its opcode. -/
theorem runDrover_ends {h : Hall} {j : Job} {op : Nat} {s : State} {c : InFlight} (hs : Canonical s)
    (hc : headOp s (512 + 16 * h + j) op = some c) :
    let k := 512 + 16 * h.val + j.val
    let d := drvOf h j c
    let r := drvTurn op s d c
    ∃ e, (∀ y, y ≠ k → getQueue e y = getQueue s y) ∧
      (getQueue e k).inflight = { c with coll := some r.co } :: (getQueue s k).inflight.tail ∧
      e.sems = s.sems ∧ e.lcores = s.lcores ∧ e.positions = s.positions ∧
      (r.fin = .running → runDrover op h j s = e) ∧
      (r.fin = .done → r.acked = false → runDrover op h j s = markUnacked e k) ∧
      (r.fin = .done → r.acked = true → runDrover op h j s = staleHalt (completeDone e k c r.flags.toNat (drvCounts d e r)) d r.co) ∧
      (∀ cause ch port, r.fin = .fault cause ch port →
        runDrover op h j s = staleHalt (drvFault e d c cause ch (getPort e port).peer) d r.co) ∧
      (∀ seq, r.fin = .ueRead seq →
        runDrover op h j s = staleHalt (completeFault e k c 0x31 (some { seq := seq, source := 5, sev := 2 })) d r.co) ∧
      (∀ f va write, r.fin = .xfail f va write → runDrover op h j s = staleHalt (endXfail e k c f va write) d r.co) := by
  intro k d r
  obtain ⟨others, own, sems, lcores, positions⟩ := keepProgress_drvTurn hs hc
  have ends := (runDrover_of_headOp hc).trans (drvFinish_eq d c r)
  refine ⟨keepProgress r k, others, own, sems, lcores, positions, fun e => ?_, fun e a => ?_, fun e a => ?_, fun _ _ _ e => ?_,
    fun _ e => ?_, fun _ _ _ e => ?_⟩ <;> rw [ends, e]
  · rfl
  · rw [a]; rfl
  · rw [a]; rfl
  · rfl
  · rfl
  · rfl

theorem runDrvTimeout_none {h : Hall} {j : Job} {s : State} (hn : runningDrv s h j = none) : runDrvTimeout h j s = s := by
  unfold runDrvTimeout
  rw [hn]
  exact ite_self _

theorem runDrvTimeout_unacked {h : Hall} {j : Job} {s : State} {c : InFlight} (hc : runningDrv s h j = some c) (hu : c.unacked = true) :
    runDrvTimeout h j s = s := by
  unfold runDrvTimeout
  simp only [hc, hu, if_true, ite_self]

/-- Settles O60: what a turn of the command does before its end stands in `keepProgress_drvTurn`, and its end is `drvFinish` by cases; a turn
changes no position, for its segments are checked where no core stands. -/
theorem droverCommandsRun : Obligations.DroverCommandsRun := by
  intro h j s c hs up k d
  refine ⟨fun x hx hc => ?_, fun hn => congrArg _ (runDrvTimeout_none hn), fun hc hu => congrArg _ (runDrvTimeout_unacked hc hu),
    fun hc hu => ?_⟩
  · obtain ⟨e, others, own, sems, lcores, positions, running, unacked, done, fault, ueRead, xfail⟩ := runDrover_ends hs hc
    have row : exec x.2 s = .next (runDrover x.1 h j s) := by
      simp only [List.mem_cons, List.not_mem_nil, or_false] at hx
      obtain rfl | rfl | rfl | rfl := hx <;> rfl
    refine ⟨e, others, own, sems, lcores, positions, ?_⟩
    rw [row]
    exact ⟨fun f => congrArg _ (running f), fun f a => congrArg _ (unacked f a), fun f a => congrArg _ (done f a),
      fun i ch p f => congrArg _ (fault i ch p f), fun q f => congrArg _ (ueRead q f), fun f va w e => congrArg _ (xfail f va w e)⟩
  · refine congrArg Host.Outcome.next ?_
    unfold runDrvTimeout
    simp only [up, hc, hu]
    rfl

end Sys2Proof.Machine
end

section
/-! What no halt brings back: a PCIe link or a port that is down stays down, a seam link that is down stays down, a sticky bit that is set
stays set, and the count of lost mesh transactions stands. One lemma for each operation that a halt of a queue, a job, a hall, a port or the
module is made of. -/

namespace Sys2Proof.Machine

/-! ## The relation -/

/-- From `a` to `b` a hall keeps its PCIe link, its count of lost transactions, its sticky bits and its lost seam links. -/
structure StaysDown (a b : HallState) : Prop where
  linkUp : b.linkUp = a.linkUp
  meshLost : b.meshLost = a.meshLost
  sticky : ∀ n, a.sticky.getLsbD n = true → b.sticky.getLsbD n = true
  seam : ∀ n, (getSeam a n).up = false → (getSeam b n).up = false

/-- A change that touches none of the four. -/
theorem StaysDown.same {a b : HallState} (link : b.linkUp = a.linkUp) (lost : b.meshLost = a.meshLost) (sticky : b.sticky = a.sticky)
    (seam : b.seam = a.seam) : StaysDown a b where
  linkUp := link
  meshLost := lost
  sticky n h := by rw [sticky]; exact h
  seam n h := by unfold getSeam at h ⊢; rw [seam]; exact h

/-- A change of one seam link that does not bring it up. -/
theorem StaysDown.link {a b : HallState} {n : Nat} {v : SeamLink} (link : b.linkUp = a.linkUp) (lost : b.meshLost = a.meshLost)
    (sticky : b.sticky = a.sticky) (seam : b.seam = tabSet {} n v a.seam) (down : (getSeam a n).up = false → v.up = false) : StaysDown a b where
  linkUp := link
  meshLost := lost
  sticky n h := by rw [sticky]; exact h
  seam m h := by
    unfold getSeam at h ⊢
    rw [seam]
    by_cases e : m = n
    · subst e
      have ne : v ≠ {} := by
        rintro rfl
        cases down h
      rw [tabGet_tabSet_listed ne]
      exact down h
    · rw [tabGet_tabSet_ne _ _ _ e]
      exact h

theorem staysDown_carrying : Carrying StaysDown where
  refl _ := .same rfl rfl rfl rfl
  trans h k := ⟨k.linkUp.trans h.linkUp, k.meshLost.trans h.meshLost, fun n b => k.sticky n (h.sticky n b), fun n b => k.seam n (h.seam n b)⟩
  event a t e := by
    unfold hallEvent
    split <;> exact .same rfl rfl rfl rfl
  sticky a src cls := {
    linkUp := rfl
    meshLost := rfl
    sticky := fun n h => by
      show (a.sticky ||| _).getLsbD n = true
      rw [BitVec.getLsbD_or, h]
      rfl
    seam := fun _ h => h }
  detour _ _ := .same rfl rfl rfl rfl
  ecc _ _ := .same rfl rfl rfl rfl
  flip _ _ := .same rfl rfl rfl rfl
  seamFlip _ _ := .same rfl rfl rfl rfl
  link _ _ _ := .link rfl rfl rfl rfl id

/-- From `s` to `t` no hall and no port brings back what was down. -/
structure KeepsDown (s t : State) : Prop where
  canonical : Canonical s → Canonical t
  hall : Canonical s → ∀ x, StaysDown (getHall s x) (getHall t x)
  port : Canonical s → ∀ k, (getPort s k).up = false → (getPort t k).up = false

namespace KeepsDown

variable {s t u : State}

/-- One operation after another. -/
theorem after (k : KeepsDown t u) (h : KeepsDown s t) : KeepsDown s u where
  canonical c := k.canonical (h.canonical c)
  hall c x := staysDown_carrying.trans (h.hall c x) (k.hall (h.canonical c) x)
  port c x up := k.port (h.canonical c) x (h.port c x up)

theorem of_frames {L : List Part} (h : Frames L s t) (e : (L.contains .halls || L.contains .ports) = false) : KeepsDown s t := by
  obtain ⟨halls, ports⟩ := Bool.or_eq_false_iff.1 e
  have same : t.halls = s.halls := h.only .halls halls
  have same' : t.ports = s.ports := h.only .ports ports
  refine ⟨h.canonical, fun _ x => ?_, fun _ x up => ?_⟩
  · unfold getHall
    rw [same]
    exact staysDown_carrying.refl _
  · unfold getPort at up ⊢
    rw [same']
    exact up

/-- What leaves the halls and the ports. -/
theorem of_changes {L : List Part} (h : Changes L s t) (e : (L.contains .halls || L.contains .ports) = false) : KeepsDown s t :=
  .of_frames ⟨h.pending, h.only, h.canonical⟩ e

theorem refl : KeepsDown s s := .of_changes (L := []) .refl rfl

/-- What a relation of halls gives for an operation that leaves the ports. -/
theorem of_halls {L : List Part} (h : Changes L s t) (e : L.contains .ports = false) (k : Canonical s → EachHall StaysDown s t) :
    KeepsDown s t where
  canonical := h.canonical
  hall c := (k c).hall
  port _ x up := by rw [h.getPort e]; exact up

theorem modHall {h : Nat} {f : HallState → HallState} (step : ∀ a, StaysDown a (f a)) : KeepsDown s (modHall s h f) where
  canonical c := canonical_modHall c h f
  hall c := (EachHall.modHall staysDown_carrying.toReporting c h step).hall
  port _ _ up := up

theorem modPort {k : Nat} {f : PortState → PortState} (step : ∀ p, p.up = false → (f p).up = false) : KeepsDown s (modPort s k f) where
  canonical c := canonical_modPort c k f
  hall _ _ := .same rfl rfl rfl rfl
  port c x up := by
    by_cases e : x = k
    · subst e
      rw [getPort_modPort_same _ _ _ c.ports]
      exact step _ up
    · rw [getPort_modPort_ne _ _ e]
      exact up

theorem ite_ {c : Prop} [Decidable c] (h : c → KeepsDown s t) (k : ¬c → KeepsDown s u) : KeepsDown s (if c then t else u) := by
  split
  · exact h ‹_›
  · exact k ‹_›

theorem foldl {α : Type} {f : State → α → State} {l : List α} (h : KeepsDown s t) (step : ∀ u x, KeepsDown u (f u x)) :
    KeepsDown s (l.foldl f t) :=
  List.foldlRecOn (motive := KeepsDown s) l f h fun _ h a _ => (step _ a).after h

/-- A fold that carries the state inside something else. -/
theorem foldl_in {α β : Type} {f : β → α → β} (π : β → State) {l : List α} {b : β} (h : KeepsDown s (π b))
    (step : ∀ u x, KeepsDown (π u) (π (f u x))) : KeepsDown s (π (l.foldl f b)) :=
  List.foldlRecOn (motive := fun b => KeepsDown s (π b)) l f h fun _ h a _ => (step _ a).after h

end KeepsDown

/-! ## Reports and events -/

theorem pushEvent_keepsDown {s h e} : KeepsDown s (pushEvent s h e) :=
  .modHall fun a => staysDown_carrying.event a _ e

theorem setSticky_keepsDown {s h src cls} : KeepsDown s (setSticky s h src cls) :=
  .modHall fun a => staysDown_carrying.sticky a src cls

theorem pushEventBoth_keepsDown {s e} : KeepsDown s (pushEventBoth s e) := by
  unfold pushEventBoth
  exact .after pushEvent_keepsDown pushEvent_keepsDown

theorem raise_keepsDown {s h src cls e} : KeepsDown s (raise s h src cls e) := by
  unfold raise
  exact .after pushEvent_keepsDown setSticky_keepsDown

theorem raiseQuiet_keepsDown {s h src} : KeepsDown s (raiseQuiet s h src) := by
  unfold raiseQuiet
  exact setSticky_keepsDown

theorem raiseBoth_keepsDown {s src cls e} : KeepsDown s (raiseBoth s src cls e) := by
  unfold raiseBoth
  exact .after raise_keepsDown raise_keepsDown

theorem logDecision_keepsDown {s h entry} : KeepsDown s (logDecision s h entry) := by
  unfold logDecision
  exact .modHall fun _ => .same rfl rfl rfl rfl

/-! ## Memory and its hubs -/

theorem retirePackage_keepsDown {s hk i cause} : KeepsDown s (retirePackage s hk i cause) := by
  unfold retirePackage
  exact .ite_ (fun _ => .refl) fun _ => .after raise_keepsDown (.after logDecision_keepsDown (.of_frames setHub_frames rfl))

theorem hardRow_keepsDown {s ch bank row} : KeepsDown s (hardRow s ch bank row) := by
  unfold hardRow
  refine .ite_ (fun _ => .refl) fun _ => .ite_ (fun _ => .after retirePackage_keepsDown ?_) fun _ => ?_
  all_goals
    dsimp only
    split
    · exact .after raise_keepsDown (.after (.of_frames setHub_frames rfl) (.foldl (.after logDecision_keepsDown (.of_frames setHub_frames rfl))
        fun _ _ => .of_changes shadowPair_changes rfl))
    · refine .ite_ (fun _ => ?_) fun _ => ?_
      · exact .after (.of_frames setHub_frames rfl) (.after logDecision_keepsDown (.of_frames setHub_frames rfl))
      · exact .after raise_keepsDown (.after (.of_frames setHub_frames rfl) (.after logDecision_keepsDown (.of_frames setHub_frames rfl)))

theorem hardPair_keepsDown {s pair inCheck} : KeepsDown s (hardPair s pair inCheck) := by
  unfold hardPair
  exact .ite_ (fun _ => hardRow_keepsDown) fun _ => hardRow_keepsDown

theorem pairUe_keepsDown {s pair stored r job} : KeepsDown s (pairUe s pair stored r job) := by
  unfold pairUe
  exact .after hardPair_keepsDown (.after raise_keepsDown (.after (.of_changes writeCodeword_changes rfl) (.of_frames setHub_frames rfl)))

theorem pairCe_keepsDown {s pair} : KeepsDown s (pairCe s pair) := by
  unfold pairCe
  exact .after raiseQuiet_keepsDown (.of_frames setHub_frames rfl)

theorem rereadPair_keepsDown {s pair good pat r job} : KeepsDown s (rereadPair s pair good pat r job).st := by
  unfold rereadPair
  dsimp only
  split
  · exact .refl
  · split
    · exact .after hardPair_keepsDown (.of_changes decodeStored_changes rfl)
    · exact .after hardPair_keepsDown (.after pairCe_keepsDown (.of_changes decodeStored_changes rfl))
    · exact .after hardPair_keepsDown (.after (.of_changes pairPoisonRd_changes rfl) (.of_changes decodeStored_changes rfl))
    · exact .after pairUe_keepsDown (.of_changes decodeStored_changes rfl)

theorem channelRead_keepsDown {s pair r job} : KeepsDown s (channelRead s pair r job).st := by
  unfold channelRead
  dsimp only
  split
  · exact .of_changes decodeStored_changes rfl
  · exact .after rereadPair_keepsDown (.after (.of_changes writeValue_changes rfl) (.after pairCe_keepsDown
      (.of_changes decodeStored_changes rfl)))
  · exact .after (.of_changes pairPoisonRd_changes rfl) (.of_changes decodeStored_changes rfl)
  · exact .after pairUe_keepsDown (.of_changes decodeStored_changes rfl)

theorem writeBackLine_keepsDown {s l} : KeepsDown s (writeBackLine s l) := by
  unfold writeBackLine
  refine .ite_ (fun _ => ?_) fun _ => ?_
  · exact .after (.of_frames setHub_frames rfl) (.of_frames setHub_frames rfl)
  · exact .after (.of_changes writeCodeword_changes rfl) (.after channelRead_keepsDown (.of_frames setHub_frames rfl))

theorem mergeLine_keepsDown {s line off bs poison job} : KeepsDown s (mergeLine s line off bs poison job) := by
  unfold mergeLine
  refine .after (.of_changes writeBackPair_changes rfl) ?_
  dsimp only
  split
  · exact .of_frames setHub_frames rfl
  · refine .after (.of_frames setHub_frames rfl) ?_
    split
    · exact .refl
    · exact .ite_ (fun _ => writeBackLine_keepsDown) fun _ => .refl

theorem writePairPart_keepsDown {s pa data job pair} : KeepsDown s (writePairPart s pa data job pair) := by
  unfold writePairPart
  refine .ite_ (fun _ => ?_) fun _ => ?_
  · exact .after (.of_changes writeCodeword_changes rfl) (.of_frames setHub_frames rfl)
  · refine .ite_ (fun _ => ?_) fun _ => ?_
    · exact .ite_ (fun _ => .refl) fun _ => mergeLine_keepsDown
    · exact .after mergeLine_keepsDown (.ite_ (fun _ => .refl) fun _ => mergeLine_keepsDown)

theorem serveWrite_keepsDown {s pa data job} : KeepsDown s (serveWrite s pa data job) := by
  unfold serveWrite
  exact .ite_ (fun _ => .refl) fun _ => .ite_ (fun _ => .of_frames setHub_frames rfl) fun _ => .foldl .refl fun _ _ => writePairPart_keepsDown

theorem readPair_keepsDown {s pair r job} : KeepsDown s (readPair s pair r job).st := by
  unfold readPair
  exact channelRead_keepsDown

theorem readPairs_keepsDown {s r job pair n} : KeepsDown s (readPairs s r job pair n).st := by
  induction n generalizing s r job pair with
  | zero => exact .refl
  | succ n ih =>
    unfold readPairs
    exact .after ih readPair_keepsDown

theorem serveRead_keepsDown {s pa len r job} : KeepsDown s (serveRead s pa len r job).st := by
  unfold serveRead
  split
  · exact .refl
  · split
    · exact .of_frames setHub_frames rfl
    · exact readPairs_keepsDown

theorem countResent_keepsDown {s h n} : KeepsDown s (countResent s h n) := by
  unfold countResent
  exact .modHall fun _ => .same rfl rfl rfl rfl

theorem transit_keepsDown {s net v src dst al bs} : KeepsDown s (transit s net v src dst al bs).st :=
  .of_halls transit_changes rfl fun c => eachHall_transit staysDown_carrying c net v src dst al bs

theorem sendNumbered_keepsDown {s v src dst al bs} : KeepsDown s (sendNumbered s v src dst al bs).2 := by
  unfold sendNumbered
  refine .ite_ (fun _ => ?_) fun _ => ?_
  · exact .after (.of_changes fateOf_changes rfl) (.of_changes transact_changes rfl)
  · exact .after countResent_keepsDown (.after transit_keepsDown (.after (.of_changes fateOf_changes rfl) (.of_changes transact_changes rfl)))

theorem lostWrite_keepsDown {s pa data job} : KeepsDown s (lostWrite s pa data job) := by
  induction data generalizing s pa job with
  | nil => exact .refl
  | cons z r ih =>
    unfold lostWrite
    exact .after ih (.ite_ (fun _ => .after serveWrite_keepsDown (.of_changes takeFree_changes rfl)) fun _ => .of_changes takeFree_changes rfl)

theorem checkedWrite_keepsDown {s v src hk al data got} : KeepsDown s (checkedWrite s v src hk al data got).1.st := by
  unfold checkedWrite
  split
  · exact .refl
  · dsimp only
    split <;> exact .after (.of_frames setHub_frames rfl) transit_keepsDown

theorem hubWrite_keepsDown {s src r pa data job} : KeepsDown s (hubWrite s src r pa data job).st := by
  unfold hubWrite
  split
  · exact .refl
  · split
    · dsimp only
      split
      · exact .after lostWrite_keepsDown sendNumbered_keepsDown
      · exact .after transit_keepsDown (.after serveWrite_keepsDown (.after checkedWrite_keepsDown
          (.after transit_keepsDown sendNumbered_keepsDown)))
    · dsimp only
      split
      · exact .after lostWrite_keepsDown sendNumbered_keepsDown
      · exact .after transit_keepsDown (.after serveWrite_keepsDown (.after transit_keepsDown sendNumbered_keepsDown))

theorem hubRead_keepsDown {s src pa len r job} : KeepsDown s (hubRead s src pa len r job).st := by
  unfold hubRead
  split
  · exact .refl
  · dsimp only
    split
    · exact .after (.of_changes freeBytes_changes rfl) sendNumbered_keepsDown
    · exact .after transit_keepsDown (.after serveRead_keepsDown (.after transit_keepsDown sendNumbered_keepsDown))

theorem resendParts_keepsDown {s v dst l} : KeepsDown s (resendParts s v dst l).st := by
  unfold resendParts
  exact .foldl_in Carried.st .refl fun _ _ => transit_keepsDown

theorem countCrc_keepsDown {s dst hk failed} : KeepsDown s (countCrc s dst hk failed) := by
  unfold countCrc
  split
  · exact .of_frames setPos_frames rfl
  · split
    · refine .modPort fun p up => ?_
      split <;> exact up
    · exact .of_frames setHub_frames rfl

theorem checkSegment_keepsDown {s v dst l} : KeepsDown s (checkSegment s v dst l).st := by
  unfold checkSegment
  dsimp only
  split
  · exact .refl
  · split <;> exact .after countCrc_keepsDown resendParts_keepsDown

theorem readPte_keepsDown {s c va level table} : KeepsDown s (readPte s c va level table).2 := by
  unfold readPte
  dsimp only
  split <;> exact hubRead_keepsDown

theorem cachePtr_keepsDown {s c level va table} : KeepsDown s (cachePtr s c level va table) := by
  unfold cachePtr
  split
  · exact .refl
  · exact .modHall fun _ => .same rfl rfl rfl rfl

theorem walkFrom_keepsDown {s c va level table} : KeepsDown s (walkFrom s c va level table).st := by
  induction level generalizing s table with
  | zero =>
    unfold walkFrom
    split <;> (rename_i e; exact (congrArg (KeepsDown s) (congrArg Prod.snd e)).mp readPte_keepsDown)
  | succ l ih =>
    unfold walkFrom
    split
    · exact ih
    · split <;> rename_i e <;> have read := (congrArg (KeepsDown s) (congrArg Prod.snd e)).mp readPte_keepsDown
      · exact read
      · exact read
      · exact .after ih (.after cachePtr_keepsDown read)

theorem walk_keepsDown {s c va} : KeepsDown s (walk s c va).st := by
  unfold walk
  dsimp only
  split
  · dsimp only
    exact .modHall fun _ => .same rfl rfl rfl rfl
  · split
    · dsimp only
      exact .modHall fun _ => .same rfl rfl rfl rfl
    · exact .after walkFrom_keepsDown (.modHall fun _ => .same rfl rfl rfl rfl)

theorem xlate_keepsDown {s c va write} : KeepsDown s (xlate s c va write).st := by
  unfold xlate
  split
  · split <;> exact .refl
  · dsimp only
    split
    · exact walk_keepsDown
    · have cached (j : Option Job) (l : Job → Leaf) : KeepsDown s (match j with
          | none => (walk s c va).st
          | some j => cacheLeaf (walk s c va).st c (l j)) := by
        cases j with
        | none => exact walk_keepsDown
        | some j => exact .after (.of_changes cacheLeaf_changes rfl) walk_keepsDown
      split <;> exact cached (jobFin (some c.job)) _

theorem writeRequest_keepsDown {s c r pa bs} : KeepsDown s (writeRequest s c r pa bs).st := by
  unfold writeRequest
  split
  · exact hubWrite_keepsDown
  · refine .after hubWrite_keepsDown ?_
    split
    · exact .after checkSegment_keepsDown hubRead_keepsDown
    · exact hubRead_keepsDown

theorem vaWriteFrom_keepsDown {s c r n va data} : KeepsDown s (vaWriteFrom s c r n va data).st := by
  induction n generalizing s c r va data with
  | zero => exact .refl
  | succ n ih =>
    unfold vaWriteFrom
    split
    · exact .refl
    · dsimp only
      split
      · exact xlate_keepsDown
      · exact .after ih (.after writeRequest_keepsDown xlate_keepsDown)

theorem vaWrite_keepsDown {s c r va data} : KeepsDown s (vaWrite s c r va data).st := by
  unfold vaWrite
  exact vaWriteFrom_keepsDown

/-! ## Aborts, torn writes and records -/

theorem enqueueFrame_keepsDown {s k f} : KeepsDown s (enqueueFrame s k f) := by
  unfold enqueueFrame
  exact .ite_ (fun _ => .modPort fun _ h => h) fun _ => .refl

theorem foldl_oweCredits_up (p : PortState) (l : List Nat) (n : Nat → Nat) :
    (l.foldl (fun p vl => oweCredits p vl (n vl)) p).up = p.up :=
  List.foldlRecOn (motive := fun q : PortState => q.up = p.up) l _ rfl fun _ h _ _ => h

theorem dropColl_keepsDown {s k coll tag} : KeepsDown s (dropColl s k coll tag) :=
  .modPort fun _ up => (foldl_oweCredits_up ..).trans up

theorem sendAbort_keepsDown {s k coll tag} : KeepsDown s (sendAbort s k coll tag) := by
  unfold sendAbort
  exact .after enqueueFrame_keepsDown dropColl_keepsDown

theorem drvAbort_keepsDown {s h j cmd} : KeepsDown s (drvAbort s h j cmd) := by
  unfold drvAbort
  exact .foldl .refl fun _ _ => .after sendAbort_keepsDown sendAbort_keepsDown

theorem tearAccess_keepsDown {s x p b fill lo n} : KeepsDown s (tearAccess s x p b fill lo n) := by
  unfold tearAccess
  refine .ite_ (fun _ => .of_changes takeFree_changes rfl) fun _ => ?_
  split
  · refine .ite_ (fun _ => ?_) fun _ => ?_
    · exact .after (.of_changes storeWrite_changes rfl) (.of_changes takeFree_changes rfl)
    · exact .after vaWrite_keepsDown (.of_changes takeFree_changes rfl)
  · refine .ite_ (fun _ => ?_) fun _ => ?_
    · exact .after (.of_changes storeWrite_changes rfl) (.after (.of_changes takeFree_changes rfl) (.after (.of_changes freeBytes_changes rfl)
        (.of_changes takeFree_changes rfl)))
    · exact .after vaWrite_keepsDown (.after (.of_changes takeFree_changes rfl) (.after (.of_changes freeBytes_changes rfl)
        (.of_changes takeFree_changes rfl)))

theorem tearCarter_keepsDown {s x p c} : KeepsDown s (tearCarter s x p c) := by
  unfold tearCarter
  exact .foldl .refl fun _ _ => tearAccess_keepsDown

theorem tear_keepsDown {s n x c} : KeepsDown s (tear s n x c) := by
  unfold tear
  split
  · exact .refl
  · refine .ite_ (fun _ => .refl) fun _ => ?_
    refine .ite_ (fun _ => tearCarter_keepsDown) fun _ => ?_
    exact .foldl (.foldl .refl fun _ _ => .of_changes tearStore_changes rfl) fun _ _ => .of_changes tearReports_changes rfl

theorem raiseQueue_keepsDown {s k src cls code seq more} : KeepsDown s (raiseQueue s k src cls code seq more) := by
  unfold raiseQueue
  exact raise_keepsDown

theorem raiseXfail_keepsDown {s k seq f va write} : KeepsDown s (raiseXfail s k seq f va write) := by
  unfold raiseXfail
  exact .ite_ (fun _ => raiseQueue_keepsDown) fun _ => raiseQueue_keepsDown

theorem releaseGrant_keepsDown {s k} : KeepsDown s (releaseGrant s k) := by
  unfold releaseGrant
  exact .ite_ (fun _ => .of_frames setQueue_frames rfl) fun _ => .after (.modHall fun _ => .same rfl rfl rfl rfl) (.of_frames setQueue_frames rfl)

theorem dropRequest_keepsDown {s k} : KeepsDown s (dropRequest s k) := by
  unfold dropRequest
  exact .after (.modHall fun _ => .same rfl rfl rfl rfl) (.ite_ (fun _ => .refl) fun _ => .of_frames setQueue_frames rfl)

theorem writeRecord_keepsDown {s k seq status flags counts} : KeepsDown s (writeRecord s k seq status flags counts).st := by
  unfold writeRecord
  dsimp only
  split
  · exact xlate_keepsDown
  · split
    · exact .after hubRead_keepsDown xlate_keepsDown
    · split
      · exact .after hubRead_keepsDown xlate_keepsDown
      · exact .after (.of_frames setQueue_frames rfl) (.after hubWrite_keepsDown (.after hubRead_keepsDown xlate_keepsDown))

theorem raiseRecFail_keepsDown {s k seq f} : KeepsDown s (raiseRecFail s k seq f) := by
  unfold raiseRecFail
  split
  · exact raiseXfail_keepsDown
  · exact raiseQueue_keepsDown
  · exact raiseQueue_keepsDown

theorem notifyEvent_keepsDown {s k seq job} : KeepsDown s (notifyEvent s k seq job) := by
  unfold notifyEvent
  exact pushEvent_keepsDown

theorem signalNotify_keepsDown {s k c} : KeepsDown s (signalNotify s k c) := by
  unfold signalNotify
  exact .ite_ (fun _ => .of_changes sendSignal_changes rfl) fun _ => .ite_ (fun _ => notifyEvent_keepsDown) fun _ => .refl

theorem commandAborts_keepsDown {s k c} : KeepsDown s (commandAborts s k c) := by
  unfold commandAborts
  exact .ite_ (fun _ => drvAbort_keepsDown) fun _ => .refl

theorem writeDiscards_keepsDown {s k cmds write} : KeepsDown s (writeDiscards s k cmds write).st := by
  induction cmds generalizing s k write with
  | nil => exact .refl
  | cons z r ih =>
    unfold writeDiscards
    split
    · split
      · dsimp only
        split
        · exact .after ih (.after writeRecord_keepsDown commandAborts_keepsDown)
        · exact .after ih (.after raiseRecFail_keepsDown (.after writeRecord_keepsDown commandAborts_keepsDown))
      · exact .after ih commandAborts_keepsDown
    · split
      · dsimp only
        split
        · exact .after ih (.after writeRecord_keepsDown tear_keepsDown)
        · exact .after ih (.after raiseRecFail_keepsDown (.after writeRecord_keepsDown tear_keepsDown))
      · exact .after ih tear_keepsDown

/-! ## Queues and jobs -/

theorem gleanAbandon_keepsDown {s n} : KeepsDown s (gleanAbandon s n) := by
  unfold gleanAbandon
  split
  · exact .of_changes modCore_changes rfl
  · refine .after pushEvent_keepsDown ?_
    split
    · exact .of_changes modCore_changes rfl
    · exact .after (.of_frames setPos_frames rfl) (.of_changes modCore_changes rfl)

theorem emptyAtHalt_keepsDown {s k} : KeepsDown s (emptyAtHalt s k) := by
  have cleared (f : LCore → LCore) : KeepsDown s (modCore (gleanAbandon s (k / 4)) (k / 4) f) :=
    .after (.of_changes modCore_changes rfl) gleanAbandon_keepsDown
  unfold emptyAtHalt
  exact .ite_ (fun _ => .ite_ (fun _ => cleared _) fun _ => cleared _) fun _ => .refl

theorem evDiscard_keepsDown {s k o st first} : KeepsDown s (evDiscard s k o st first) := by
  unfold evDiscard
  exact pushEvent_keepsDown

theorem reachBoundary_keepsDown {s k first st o known gone keep write spread} :
    KeepsDown s (reachBoundary s k first st o known gone keep write spread).st := by
  unfold reachBoundary
  exact .after emptyAtHalt_keepsDown (.after (.of_frames setQueue_frames rfl) (.after evDiscard_keepsDown (.after releaseGrant_keepsDown
    (.after writeDiscards_keepsDown (.after dropRequest_keepsDown (.of_frames setQueue_frames rfl))))))

theorem releaseMark_keepsDown {s k} : KeepsDown s (releaseMark s k).st := by
  have emptied (u : State) (f : LCore → LCore) : KeepsDown u (if k % 4 = 0 then modCore u (k / 4) f else u) :=
    .ite_ (fun _ => .of_changes modCore_changes rfl) fun _ => .refl
  unfold releaseMark
  dsimp only
  split
  · split
    · exact .after signalNotify_keepsDown (.after releaseGrant_keepsDown (.after (emptied _ _) (.after (.of_frames setQueue_frames rfl)
        (.after writeRecord_keepsDown (.of_frames setQueue_frames rfl)))))
    · exact .after reachBoundary_keepsDown (.after raiseRecFail_keepsDown (.after writeRecord_keepsDown (.of_frames setQueue_frames rfl)))
  · exact .refl

theorem releaseMarks_keepsDown {s k} : KeepsDown s (releaseMarks s k).st := by
  unfold releaseMarks
  split
  · exact .refl
  · split
    · exact .refl
    · refine .foldl_in Kills.st ?_ fun _ _ => releaseMark_keepsDown
      dsimp only
      exact .of_changes modCore_changes rfl

theorem badSlot_keepsDown {s j n} : KeepsDown s (badSlot s j n) := by
  unfold badSlot
  exact vaWrite_keepsDown

theorem copStreamsEnd_keepsDown {s j} : KeepsDown s (copStreamsEnd s j) := by
  unfold copStreamsEnd
  exact .foldl .refl fun _ _ => .modHall fun _ => .same rfl rfl rfl rfl

theorem copFail_keepsDown {s j} : KeepsDown s (copFail s j) := by
  unfold copFail
  exact .after (.of_frames setJob_frames rfl) (.after copStreamsEnd_keepsDown (.foldl .refl fun _ _ => badSlot_keepsDown))

theorem killQueue_keepsDown {s k o} : KeepsDown s (killQueue s k o) := by
  unfold killQueue
  dsimp only
  split
  · exact .refl
  · exact .refl
  · exact .refl
  · exact .refl
  · split
    · exact .refl
    · refine .ite_ (fun _ => .of_changes modCore_changes rfl) fun _ => ?_
      exact .ite_ (fun _ => .refl) fun _ => .after reachBoundary_keepsDown (.of_changes modCore_changes rfl)
  · exact reachBoundary_keepsDown
  · exact reachBoundary_keepsDown
  · exact reachBoundary_keepsDown

theorem killJob_keepsDown {s j cause o} : KeepsDown s (killJob s j cause o) := by
  unfold killJob
  exact .after copFail_keepsDown (.foldl (.of_frames setJob_frames rfl) fun _ _ => killQueue_keepsDown)

theorem applyKill_keepsDown {j r} : KeepsDown r.st (applyKill j r) := by
  unfold applyKill
  split
  · exact .refl
  · exact killJob_keepsDown

theorem haltQueue_keepsDown {s k first st o known gone keep write} : KeepsDown s (haltQueue s k first st o known gone keep write) := by
  unfold haltQueue
  exact .after applyKill_keepsDown (.after releaseMarks_keepsDown reachBoundary_keepsDown)

theorem lostRecord_keepsDown {s k seq sems gone f} : KeepsDown s (lostRecord s k seq sems gone f) := by
  unfold lostRecord
  dsimp only
  split
  · exact .after haltQueue_keepsDown raiseRecFail_keepsDown
  · exact .after killJob_keepsDown (.after haltQueue_keepsDown raiseRecFail_keepsDown)

/-! ## Halls and the module -/

/-- What a fault of hall `h` does to port `k`: its armed flip is disarmed (R503). -/
def faultPort (h k : Nat) (v : PortState) : PortState := if k / 6 = h then { v with flip := disarm v.flip } else v

theorem faultPort_up (h k : Nat) (v : PortState) : (faultPort h k v).up = v.up := by
  unfold faultPort
  split <;> rfl

theorem getPort_faultRegs {s : State} (c : Canonical s) (h k : Nat) : getPort (faultRegs s h) k = faultPort h k (getPort s k) := by
  have default : faultPort h k {} = {} := by
    unfold faultPort
    split <;> rfl
  exact tabGet_tabMap c.ports (faultPort h) k default

theorem faultRegs_keepsDown {s h} : KeepsDown s (faultRegs s h) where
  canonical := faultRegs_changes.canonical
  hall c x := by
    unfold faultRegs
    dsimp only
    by_cases e : x = h
    · subst e
      rw [getHall_modHall_same]
      · exact .same rfl rfl rfl rfl
      · exact c.halls
    · rw [getHall_modHall_ne _ _ e]
      exact staysDown_carrying.refl _
  port c k up := by
    rw [getPort_faultRegs c, faultPort_up]
    exact up

theorem passShare_keepsDown {s h} : KeepsDown s (passShare s h) := by
  unfold passShare
  exact .after (.modHall fun _ => .same rfl rfl rfl rfl) (.modHall fun _ => .same rfl rfl rfl rfl)

theorem dropGrants_keepsDown {s h} : KeepsDown s (dropGrants s h) := by
  unfold dropGrants
  exact .after (.modHall fun _ => .same rfl rfl rfl rfl) (.foldl .refl fun _ _ => .after (.of_frames setQueue_frames rfl) dropRequest_keepsDown)

theorem hallDown_keepsDown {s h src o} : KeepsDown s (hallDown s h src o) := by
  unfold hallDown
  exact .after faultRegs_keepsDown (.after dropGrants_keepsDown (.foldl (.foldl (.after passShare_keepsDown (.after (.modHall
    fun _ => .same rfl rfl rfl rfl) pushEvent_keepsDown)) fun _ _ => killJob_keepsDown) fun _ _ => .ite_ (fun _ => .refl)
    fun _ => copFail_keepsDown))

theorem moduleDown_keepsDown {s src o} : KeepsDown s (moduleDown s src o) := by
  unfold moduleDown
  exact .after faultRegs_keepsDown (.after faultRegs_keepsDown (.foldl (.foldl (.after pushEventBoth_keepsDown
    (.of_changes with_moduleDown_changes rfl)) fun _ _ => killJob_keepsDown) fun _ _ => .modPort fun _ _ => rfl))

theorem applyClass_keepsDown {s h src cls o} : KeepsDown s (applyClass s h src cls o) := by
  unfold applyClass
  refine .ite_ (fun _ => ?_) fun _ => ?_
  · exact .ite_ (fun _ => .refl) fun _ => hallDown_keepsDown
  · exact .ite_ (fun _ => .ite_ (fun _ => .refl) fun _ => moduleDown_keepsDown) fun _ => .refl

/-! ## Signals -/

theorem completeFault_keepsDown {s k c status o} : KeepsDown s (completeFault s k c status o) := by
  unfold completeFault
  refine .ite_ (fun _ => .after killJob_keepsDown ?_) fun _ => .ite_ (fun _ => .after killJob_keepsDown ?_) fun _ => ?_
  all_goals
    split
    · exact .after haltQueue_keepsDown (.after writeRecord_keepsDown (.after (.of_frames setQueue_frames rfl) commandAborts_keepsDown))
    · exact .after lostRecord_keepsDown (.after writeRecord_keepsDown (.after (.of_frames setQueue_frames rfl) commandAborts_keepsDown))

theorem haltWaiting_keepsDown {s k o} : KeepsDown s (haltWaiting s k o) := by
  unfold haltWaiting
  split
  · exact .refl
  · exact haltQueue_keepsDown

theorem recheckBroken_keepsDown {s sem} : KeepsDown s (recheckBroken s sem) := by
  unfold recheckBroken
  exact .ite_ (fun _ => .foldl .refl fun _ _ => haltWaiting_keepsDown) fun _ => .refl

theorem evSemWrap_keepsDown {s sem src} : KeepsDown s (evSemWrap s sem src) := by
  unfold evSemWrap
  split <;> exact pushEvent_keepsDown

theorem applySignal_keepsDown {s g} : KeepsDown s (applySignal s g) := by
  unfold applySignal
  refine .ite_ (fun _ => ?_) fun _ => ?_
  · exact .after recheckBroken_keepsDown (.after evSemWrap_keepsDown (.of_changes setSem_changes rfl))
  · exact .of_changes setSem_changes rfl

theorem noticeOf_keepsDown {s g} : KeepsDown s (noticeOf s g) := by
  unfold noticeOf
  split
  · exact .ite_ (fun _ => notifyEvent_keepsDown) fun _ => .refl
  · exact .refl

theorem carrySignal_keepsDown {s g} : KeepsDown s (carrySignal s g).st := by
  unfold carrySignal
  dsimp only
  split
  · exact transit_keepsDown
  · exact .after (.of_changes takeFree_changes rfl) transit_keepsDown

theorem answerSignal_keepsDown {s g} : KeepsDown s (answerSignal s g) := by
  unfold answerSignal
  exact transit_keepsDown

theorem sendHere_keepsDown {s g} : KeepsDown s (sendHere s g) := by
  unfold sendHere
  exact .after applySignal_keepsDown (.after (.of_changes setSeries_changes rfl) (.after answerSignal_keepsDown carrySignal_keepsDown))

theorem loseSignal_keepsDown {s i g} : KeepsDown s (loseSignal s i g) := by
  unfold loseSignal
  refine .ite_ (fun _ => ?_) fun _ => ?_
  · exact .after noticeOf_keepsDown (.after applySignal_keepsDown (.after (.of_changes setSeries_changes rfl) (.after
      (.of_changes takeFree_changes rfl) (.of_changes with_signals_changes rfl))))
  · exact .after (.of_changes closeGap_changes rfl) (.after (.of_changes takeFree_changes rfl) (.of_changes with_signals_changes rfl))

/-! ## Ports and the Cooper -/

theorem staleHalt_keepsDown {s d co} : KeepsDown s (staleHalt s d co) := by
  unfold staleHalt
  exact .ite_ (fun _ => .refl) fun _ => .after killJob_keepsDown (.after raise_keepsDown (.of_changes takeFree_changes rfl))

theorem drvFault_keepsDown {s d c cause ch peer} : KeepsDown s (drvFault s d c cause ch peer) := by
  unfold drvFault
  exact .after completeFault_keepsDown raise_keepsDown

theorem endDrovers_keepsDown {s h cause port peer hit} : KeepsDown s (endDrovers s h cause port peer hit) := by
  unfold endDrovers
  refine .foldl .refl fun _ _ => ?_
  split
  · exact .refl
  · exact .ite_ (fun _ => .after staleHalt_keepsDown drvFault_keepsDown) fun _ => .refl

theorem endOnPort_keepsDown {s port peer} : KeepsDown s (endOnPort s port peer) := by
  unfold endOnPort
  exact endDrovers_keepsDown

theorem copDone_keepsDown {s j n} : KeepsDown s (copDone s j n) := by
  unfold copDone
  exact sendHere_keepsDown

theorem closeRise_keepsDown {s j} : KeepsDown s (closeRise s j) := by
  unfold closeRise
  split
  · exact .refl
  · exact .ite_ (fun _ => .refl) fun _ => .after copDone_keepsDown (.of_frames setJob_frames rfl)

theorem genFail_keepsDown {s j n} : KeepsDown s (genFail s j n) := by
  unfold genFail
  refine .ite_ (fun _ => ?_) fun _ => ?_
  · exact .after (.of_frames setJob_frames rfl) (.after copStreamsEnd_keepsDown (.after (.of_frames setJob_frames rfl) badSlot_keepsDown))
  · exact .after (.of_frames setJob_frames rfl) badSlot_keepsDown

theorem snapFail_keepsDown {s j n step cause} : KeepsDown s (snapFail s j n step cause) := by
  unfold snapFail
  exact .after closeRise_keepsDown (.after genFail_keepsDown raiseBoth_keepsDown)

theorem copPortDown_keepsDown {s port} : KeepsDown s (copPortDown s port) := by
  unfold copPortDown
  refine .foldl .refl fun _ _ => ?_
  refine .ite_ (fun _ => .refl) fun _ => ?_
  dsimp only
  split
  · exact .ite_ (fun _ => .of_frames setJob_frames rfl) fun _ => .refl
  · exact .after snapFail_keepsDown (.ite_ (fun _ => .of_frames setJob_frames rfl) fun _ => .refl)

theorem updateTime_keepsDown {s} : KeepsDown s (updateTime s) := by
  unfold updateTime
  refine .ite_ (fun _ => .of_changes with_timeCfg_changes rfl) fun _ => ?_
  split
  · refine .ite_ (fun _ => ?_) fun _ => ?_
    · exact .after (.of_changes setTime_changes rfl) (.after (.of_changes with_timeCfg_changes rfl) (.of_changes takeFree_changes rfl))
    · exact .after (.of_changes with_timeCfg_changes rfl) (.of_changes takeFree_changes rfl)
  · exact .ite_ (fun _ => .refl) fun _ => .after raiseBoth_keepsDown (.of_changes with_timeCfg_changes rfl)

theorem portDown_keepsDown {s k} : KeepsDown s (portDown s k) := by
  unfold portDown
  refine .ite_ (fun _ => ?_) fun _ => ?_
  · exact .after updateTime_keepsDown (.after copPortDown_keepsDown (.after endOnPort_keepsDown (.after raise_keepsDown (.modPort
      fun _ _ => rfl))))
  · exact .refl

end Sys2Proof.Machine
end

section
/-! O52: the PCIe links, the chain input and the test access port. -/

namespace Sys2Proof.Machine

/-! ## A PCIe link (R482, R484) -/

/-- A hall keeps its PCIe link and its configuration space. -/
def KeepsLink (a b : HallState) : Prop :=
  b.linkUp = a.linkUp ∧ b.busMaster = a.busMaster ∧ b.msixEnable = a.msixEnable ∧ b.bar0Addr = a.bar0Addr ∧ b.bar2Addr = a.bar2Addr

theorem keepsLink_reporting : Reporting KeepsLink where
  refl _ := ⟨rfl, rfl, rfl, rfl, rfl⟩
  trans h k := by
    obtain ⟨link, master, msix, bar0, bar2⟩ := h
    obtain ⟨link', master', msix', bar0', bar2'⟩ := k
    exact ⟨link'.trans link, master'.trans master, msix'.trans msix, bar0'.trans bar0, bar2'.trans bar2⟩
  event a t e := by
    unfold hallEvent
    split <;> exact ⟨rfl, rfl, rfl, rfl, rfl⟩
  sticky _ _ _ := ⟨rfl, rfl, rfl, rfl, rfl⟩

/-- R484: the configuration space of a hall at its reset values, with the link down. -/
def unlinked (hl : HallState) : HallState :=
  { hl with linkUp := false, busMaster := false, msixEnable := false, msixMask := false, bar0Addr := 0, bar2Addr := 0 }

theorem dropLink_eq (s : State) (h : Nat) :
    dropLink s h = if dieUp s then raise (modHall s h unlinked) h 37 1 { code := 0x0709 } else modHall s h unlinked := rfl

theorem getHall_dropLink_ne {s : State} {h x : Nat} (ne : x ≠ h) : getHall (dropLink s h) x = getHall s x := by
  rw [dropLink_eq]
  split
  · rw [getHall_raise_ne ne, getHall_modHall_ne _ _ ne]
  · exact getHall_modHall_ne _ _ ne

/-- A link dropped leaves its hall unlinked. -/
theorem keepsLink_dropLink {s : State} (c : Canonical s) (h : Nat) : KeepsLink (unlinked (getHall s h)) (getHall (dropLink s h) h) := by
  have unlink : getHall (modHall s h unlinked) h = unlinked (getHall s h) := getHall_modHall_same _ _ _ c.halls
  rw [dropLink_eq, ← unlink]
  split
  · exact (EachHall.raise keepsLink_reporting (canonical_modHall c ..) h 37 1 _).hall h
  · exact keepsLink_reporting.refl _

theorem linkUp_dropLink {s : State} (c : Canonical s) {h x : Nat} (down : x = h ∨ (getHall s x).linkUp = false) :
    (getHall (dropLink s h) x).linkUp = false := by
  by_cases e : x = h
  · subst e
    exact (keepsLink_dropLink c x).1
  · rw [getHall_dropLink_ne e]
    exact down.resolve_left e

theorem sticky_dropLink {s : State} (c : Canonical s) (h : Nat) (up : dieUp s = true) : (getHall (dropLink s h) h).sticky.getLsbD 37 = true := by
  rw [dropLink_eq, if_pos up]
  exact sticky_raise (canonical_modHall c ..) h (by decide) 1 _

theorem hostLinksDropAndReturn : HostLinksDropAndReturn := by
  intro h s c
  refine ⟨fun down => ?_, fun up => ?_, fun input free => ?_, fun no => ?_, fun b0 b2 x up => ?_, fun b0 b2 x down => ?_⟩
  · exact congrArg Host.Outcome.next (if_neg (by rw [down]; decide))
  · obtain ⟨link, master, msix, bar0, bar2⟩ := keepsLink_dropLink c h.val
    exact ⟨dropLink s h, congrArg Host.Outcome.next (if_pos up), (dropLink_changes (s := s) (h := h)).eq_with rfl fun p => by cases p <;> rfl,
      link, master, msix, bar0, bar2, sticky_dropLink c h, fun x ne => getHall_dropLink_ne ne⟩
  · exact ⟨_, congrArg Host.Outcome.next (if_pos (by rw [input, free]; rfl)), rfl, getHall_modHall_same _ _ _ c.halls,
      fun x ne => getHall_modHall_ne _ _ ne⟩
  · refine congrArg Host.Outcome.next (if_neg ?_)
    rcases no with no | no <;> rw [no] <;> simp
  · exact ⟨_, congrArg Host.Outcome.next (if_pos up), rfl, getHall_modHall_same _ _ _ c.halls, fun x ne => getHall_modHall_ne _ _ ne⟩
  · exact congrArg Host.Outcome.next (if_neg (by rw [down]; decide))

/-! ## The chain input (R486) -/

theorem lostChainInputKeepsAddresses : LostChainInputKeepsAddresses := by
  intro s c
  refine ⟨fun off => congrArg Host.Outcome.next (if_neg (by rw [off]; decide)), fun on => ?_⟩
  let u : State := { s with chain := { s.chain with inOk := false } }
  have cu : Canonical u := ⟨c.queues, c.sems, c.semGrp, c.own, c.lcores, c.positions, c.halls, c.hubs, c.ports, c.jobs, c.slots, c.stats,
    c.mem, c.memErr, c.series, c.leafs, c.hostMem⟩
  have run : runInputLost s = if dieUp s then raiseBoth u 38 1 { code := 0x070A } else u := if_pos on
  by_cases up : dieUp s = true
  · have told := raiseBoth_changes (s := u) (src := 38) (cls := 1) (e := { code := 0x070A })
    have chain := told.only .chain rfl
    refine ⟨_, congrArg Host.Outcome.next (run.trans (if_pos up)), chain, fun _ x hall => sticky_raiseBoth cu (by decide) 1 _ hall, ?_⟩
    exact told.eq_with rfl fun p => by cases p <;> rfl
  · exact ⟨u, congrArg Host.Outcome.next (run.trans (if_neg up)), rfl, fun yes => absurd yes up, rfl⟩

/-! ## The test access port (R522 to R524) -/

/-- A port that is taken down is down. -/
theorem up_portDown {s : State} (c : Canonical s) (k : Nat) : (getPort (portDown s k) k).up = false := by
  unfold portDown
  split
  · refine KeepsDown.port (s := modPort s k downPort) ?_ (canonical_modPort c ..) k ?_
    · exact .after updateTime_keepsDown (.after copPortDown_keepsDown (.after endOnPort_keepsDown raise_keepsDown))
    · rw [getPort_modPort_same _ _ _ c.ports]
      rfl
  · exact Bool.eq_false_iff.2 ‹_›

theorem portsDown_keepsDown (s : State) (l : List Nat) : KeepsDown s (l.foldl portDown s) :=
  .foldl .refl fun _ _ => portDown_keepsDown

/-- Ports taken down one after another are all down. -/
theorem up_portsDown {s : State} (c : Canonical s) {l : List Nat} {k : Nat} (hk : k ∈ l) : (getPort (l.foldl portDown s) k).up = false := by
  induction l generalizing s with
  | nil => cases hk
  | cons a r ih =>
    have step : Canonical (portDown s a) := portDown_changes.canonical c
    obtain rfl | hk := List.mem_cons.1 hk
    · exact (portsDown_keepsDown (portDown s k) r).port step k (up_portDown c k)
    · exact ih step hk

theorem portsDown_jtag (s : State) (l : List Nat) : (l.foldl portDown s).jtag = s.jtag :=
  List.foldlRecOn (motive := fun t : State => t.jtag = s.jtag) l portDown rfl fun _ h _ _ => (portDown_changes.only .jtag rfl).trans h

/-- R524: the pins driven leave every link and every port down. -/
theorem drivePins_downs {s : State} (c : Canonical s) (free : s.jtag.driving = false) :
    (drivePins s).jtag = { s.jtag with driving := true } ∧ (∀ h, h < 2 → (getHall (drivePins s) h).linkUp = false) ∧
      ∀ k, k < 12 → (getPort (drivePins s) k).up = false := by
  let driven : State := { s with jtag := { s.jtag with driving := true } }
  have cd : Canonical driven := ⟨c.queues, c.sems, c.semGrp, c.own, c.lcores, c.positions, c.halls, c.hubs, c.ports, c.jobs, c.slots, c.stats,
    c.mem, c.memErr, c.series, c.leafs, c.hostMem⟩
  have c0 : Canonical (dropLink driven 0) := dropLink_changes.canonical cd
  have both : Changes [.halls] driven (dropLink (dropLink driven 0) 1) := dropLink_changes.next dropLink_changes (by decide)
  have run : drivePins s = (List.range 12).foldl portDown (dropLink (dropLink driven 0) 1) := if_neg (by rw [free]; decide)
  have links (h : Nat) (hall : h < 2) : (getHall (dropLink (dropLink driven 0) 1) h).linkUp = false := by
    obtain rfl | rfl : h = 0 ∨ h = 1 := by omega
    · exact linkUp_dropLink c0 (.inr (linkUp_dropLink cd (.inl rfl)))
    · exact linkUp_dropLink c0 (.inl rfl)
  have halls := (portsDown_keepsDown (dropLink (dropLink driven 0) 1) (List.range 12)).hall (both.canonical cd)
  rw [run]
  exact ⟨(portsDown_jtag _ _).trans (both.only .jtag rfl), fun h hall => (halls h).linkUp.trans (links h hall),
    fun k low => up_portsDown (both.canonical cd) (List.mem_range.2 low)⟩

theorem runScan_off {s : State} {ir : JtagIr} (off : s.power.mgmt = false) : runScan ir s = s := if_pos (by simp [tapUp, off])

/-- With the supplies there and a job context resident, EXTEST and CLAMP load BYPASS. -/
theorem runScan_resident {s : State} {ir : JtagIr} (on : s.power.mgmt = true) (die : s.power.die = true) (job : anyJob s = true) :
    runScan ir s = { s with jtag := { s.jtag with ir := .bypass } } := (if_neg (by simp [tapUp, on, die])).trans (if_pos job)

theorem runScan_idle {s : State} {ir : JtagIr} (on : s.power.mgmt = true) (die : s.power.die = true) (job : anyJob s = false) :
    runScan ir s = drivePins { s with jtag := { s.jtag with ir := ir } } :=
  (if_neg (by simp [tapUp, on, die])).trans (if_neg (by rw [job]; decide))

theorem scanInstructionsAct : ScanInstructionsAct := by
  intro s off selects
  have taps (on : ¬ off) : tapUp s = true := by simpa [off, tapUp] using on
  refine ⟨fun on => ?_, fun j => ⟨rfl, rfl, rfl⟩, rfl, fun v on die => ?_, fun on die => ?_, fun on die job => ?_, fun on die job driving => ?_,
    fun on die job free c x hx => ?_, fun no u => ?_⟩
  · exact ⟨congrArg Host.Outcome.next (if_pos (taps on)), congrArg Host.Outcome.next (if_pos (taps on)),
      congrArg Host.Outcome.next (if_pos (taps on))⟩
  · exact congrArg Host.Outcome.next (if_pos (by rw [taps on, die]; rfl))
  · exact ⟨_, congrArg Host.Outcome.next (if_pos (by rw [taps on, die]; rfl)), rfl, rfl, rfl⟩
  · exact ⟨congrArg _ (runScan_resident (taps on) die job), congrArg _ (runScan_resident (taps on) die job)⟩
  · have stays (ir : JtagIr) : runScan ir s = { s with jtag := { s.jtag with ir := ir } } := (runScan_idle (taps on) die job).trans (if_pos driving)
    exact ⟨congrArg _ (stays .extest), congrArg _ (stays .clamp)⟩
  · let u : State := { s with jtag := { s.jtag with ir := x } }
    have cu : Canonical u := ⟨c.queues, c.sems, c.semGrp, c.own, c.lcores, c.positions, c.halls, c.hubs, c.ports, c.jobs, c.slots, c.stats,
      c.mem, c.memErr, c.series, c.leafs, c.hostMem⟩
    refine ⟨drivePins u, ?_, drivePins_downs cu free⟩
    have row : exec (if x = .extest then .extest else .clamp) s = .next (runScan x s) := by
      simp only [List.mem_cons, List.not_mem_nil, or_false] at hx
      obtain rfl | rfl := hx <;> rfl
    exact row.trans (congrArg _ (runScan_idle (taps on) die job))
  · have down : ¬ tapUp s = true := by simp [tapUp, show s.power.mgmt = false from no]
    have sampled : runSample u s = s := if_neg (by simp [down])
    exact ⟨congrArg Host.Outcome.next (if_neg down), congrArg Host.Outcome.next (if_neg down), congrArg Host.Outcome.next (if_neg down),
      congrArg _ (runScan_off no), congrArg _ (runScan_off no), congrArg _ sampled⟩

/-- Settles O52: the links and the chain input by their rows' branches; EXTEST and CLAMP drop both links and then each port, and no later step of the
fold brings one back (`KeepsDown`). -/
theorem linksAndPinsAct : Obligations.LinksAndPinsAct := ⟨hostLinksDropAndReturn, lostChainInputKeepsAddresses, scanInstructionsAct⟩

end Sys2Proof.Machine
end

section
/-! O42: resent and lost transactions of the mesh, and failed routers. -/

namespace Sys2Proof.Machine

/-! ## The fate of an access (R368, R369) -/

section
variable {s : State}

theorem fateOf_idle (fault : s.meshFault = none) (resent : s.resent = none) (h key : Nat) : fateOf s h key = (.answered, s) := by
  unfold fateOf
  rw [fault, resent]

theorem fateOf_resend {h later : Nat} (fault : s.meshFault = some { hall := h, skip := 0, lost := false, later := later }) (key : Nat) :
    fateOf s h key = (.again, { s with meshFault := none, resent := if later = 0 then none else some (key, later) }) := by
  unfold fateOf
  simp only [fault, ne_eq, not_true_eq_false, if_false, Bool.false_eq_true]

theorem fateOf_series {key n : Nat} (fault : s.meshFault = none) (resent : s.resent = some (key, n)) (h : Nat) :
    fateOf s h key = (.again, { s with resent := if n ≤ 1 then none else some (key, n - 1) }) := by
  unfold fateOf
  simp only [fault, resent, if_true]

theorem fateOf_lost {h : Nat} (fault : s.meshFault = some { hall := h, skip := 0, lost := true }) (key : Nat) :
    fateOf s h key = (.lost, { s with meshFault := none }) := by
  unfold fateOf
  simp only [fault, ne_eq, not_true_eq_false, if_false, if_true]

end

/-- The hall's count of transactions sent once more stands. -/
def KeepsResends (a b : HallState) : Prop := b.meshResend = a.meshResend

theorem keepsResends_carrying : Carrying KeepsResends where
  refl _ := rfl
  trans h k := k.trans h
  event a t e := by
    unfold hallEvent KeepsResends
    split <;> rfl
  sticky _ _ _ := rfl
  detour _ _ := rfl
  ecc _ _ := rfl
  flip _ _ := rfl
  seamFlip _ _ := rfl
  link _ _ _ := rfl

/-- An access that is not answered crosses the mesh once more: it counts in the hall of its source, and the fault and the series are as its fate
left them. -/
theorem sendNumbered_unanswered {s : State} (c : Canonical s) {v : Vc} {src dst : Nat} {f : Fate} {t : State}
    (fate : fateOf (transact s (seriesKey src dst 0 v)) (stopHall src) (seriesKey src dst 0 v) = (f, t)) (un : f ≠ .answered) (al : Nat)
    (bs : List (Byte × Bool)) :
    let u := sendNumbered s v src dst al bs
    u.1 = f ∧ (∀ x, (getHall u.2 x).meshResend = (getHall s x).meshResend + BitVec.ofNat 32 (if x = stopHall src then 1 else 0)) ∧
      u.2.meshFault = t.meshFault ∧ u.2.resent = t.resent := by
  have sent : sendNumbered s v src dst al bs = (f, countResent (transit t 0 v src dst al bs).st (stopHall src) 1) := by
    unfold sendNumbered
    simp only [fate, un, if_false]
  have fated : Changes [.series, .meshFault, .resent] s (fateOf (transact s (seriesKey src dst 0 v)) (stopHall src) (seriesKey src dst 0 v)).2 :=
    .next (Changes.next .refl transact_changes (by decide)) fateOf_changes (by decide)
  rw [fate] at fated
  have crossed := eachHall_transit keepsResends_carrying (fated.canonical c) 0 v src dst al bs
  have was (x : Nat) : (getHall (transit t 0 v src dst al bs).st x).meshResend = (getHall s x).meshResend :=
    (crossed.hall x).trans (congrArg HallState.meshResend (fated.getHall rfl x))
  have moved : Changes [.free, .halls, .outputs, .promotes] t (countResent (transit t 0 v src dst al bs).st (stopHall src) 1) :=
    .next transit_changes countResent_changes (by decide)
  rw [sent]
  refine ⟨rfl, fun x => ?_, moved.only .meshFault rfl, moved.only .resent rfl⟩
  by_cases e : x = stopHall src
  · subst e
    rw [if_pos rfl, ← was]
    exact congrArg HallState.meshResend (getHall_modHall_same _ _ _ crossed.canonical.halls)
  · rw [if_neg e, ← was]
    exact (congrArg HallState.meshResend (getHall_modHall_ne _ _ e)).trans (BitVec.add_zero _).symm

/-- R368, R369, R423: what becomes of an access by its fate. -/
theorem sendNumbered_fates (s : State) (v : Vc) (src dst al : Nat) (bs : List (Byte × Bool)) (c : Canonical s) :
    let u := sendNumbered s v src dst al bs
    let counts (n : Nat) : Prop := ∀ x, (getHall u.2 x).meshResend =
      (getHall s x).meshResend + BitVec.ofNat 32 (if x = stopHall src then n else 0)
    (s.meshFault = none → s.resent = none → u.1 = .answered ∧ counts 0) ∧
    (∀ later, s.meshFault = some { hall := stopHall src, skip := 0, lost := false, later := later } → u.1 = .again ∧ counts 1 ∧
      u.2.meshFault = none ∧ u.2.resent = if later = 0 then none else some (seriesKey src dst 0 v, later)) ∧
    (∀ n, s.meshFault = none → s.resent = some (seriesKey src dst 0 v, n) → u.1 = .again ∧ counts 1 ∧
      u.2.resent = if n ≤ 1 then none else some (seriesKey src dst 0 v, n - 1)) ∧
    (s.meshFault = some { hall := stopHall src, skip := 0, lost := true } → u.1 = .lost ∧ u.2.meshFault = none) := by
  intro u counts
  have numbered : Changes [.series] s (transact s (seriesKey src dst 0 v)) := transact_changes
  have fault : (transact s (seriesKey src dst 0 v)).meshFault = s.meshFault := numbered.only .meshFault rfl
  have resent : (transact s (seriesKey src dst 0 v)).resent = s.resent := numbered.only .resent rfl
  refine ⟨fun hf hr => ?_, fun later hf => ?_, fun n hf hr => ?_, fun hf => ?_⟩
  · have answered : u = (.answered, transact s (seriesKey src dst 0 v)) := by
      have fate := fateOf_idle (fault.trans hf) (resent.trans hr) (stopHall src) (seriesKey src dst 0 v)
      show sendNumbered s v src dst al bs = _
      unfold sendNumbered
      simp only [fate, if_true]
    refine ⟨congrArg Prod.fst answered, fun x => ?_⟩
    rw [answered, ite_self]
    exact (congrArg HallState.meshResend (numbered.getHall rfl x)).trans (BitVec.add_zero _).symm
  · exact sendNumbered_unanswered c (fateOf_resend (fault.trans hf) (seriesKey src dst 0 v)) (by decide) al bs
  · obtain ⟨again, count, -, series⟩ :=
      sendNumbered_unanswered c (fateOf_series (fault.trans hf) (resent.trans hr) (stopHall src)) (by decide) al bs
    exact ⟨again, count, series⟩
  · obtain ⟨lost, -, fault', -⟩ := sendNumbered_unanswered c (fateOf_lost (fault.trans hf) (seriesKey src dst 0 v)) (by decide) al bs
    exact ⟨lost, fault'⟩

/-! ## Resent and lost transactions -/

theorem signalFrom_none {s : State} {h i : Nat} (no : ∀ g, s.signals[i]? = some g → stopHall g.stop ≠ h) : signalFrom s h i = none := by
  unfold signalFrom
  cases e : s.signals[i]? with
  | none => rfl
  | some g => simp [Option.filter, no g e]

theorem signalFrom_some {s : State} {h i : Nat} {g : Signal} (here : s.signals[i]? = some g) (hall : stopHall g.stop = h) :
    signalFrom s h i = some g := by
  unfold signalFrom
  simp [here, Option.filter, hall]

/-- R369: a report of a lost transaction counts it and sets FS_MESH_LOST in its hall alone. -/
theorem reportLost_counts {s : State} (c : Canonical s) (h : Nat) :
    Changes [.halls] s (reportLost s h) ∧ (getHall (reportLost s h) h).meshLost = (getHall s h).meshLost + 1 ∧
      (getHall (reportLost s h) h).sticky.getLsbD 10 = true ∧ ∀ x, x ≠ h → getHall (reportLost s h) x = getHall s x := by
  let lost : HallState → HallState := fun hl => { hl with meshLost := hl.meshLost + 1 }
  have cl : Canonical (modHall s h lost) := canonical_modHall c h lost
  have counted : getHall (modHall s h lost) h = lost (getHall s h) := getHall_modHall_same _ _ _ c.halls
  refine ⟨reportLost_changes, ?_, sticky_raise cl h (by decide) 1 _, fun x ne => ?_⟩
  · have kept := (raise_keepsDown (s := modHall s h lost) (h := h) (src := 10) (cls := 1) (e := { code := 0x0408 })).hall cl h
    exact kept.meshLost.trans (congrArg HallState.meshLost counted)
  · exact (getHall_raise_ne ne ..).trans (getHall_modHall_ne _ _ ne)

/-- R368, R369: a lost signal is on its way no more; where its semaphore does not wrap, no queue changes, and it was applied or not. -/
theorem loseSignal_leaves {s : State} {i : Nat} {g : Signal} (here : s.signals[i]? = some g)
    (plain : receiptOf (getSeries s (signalSeries g)) g.num ≠ .apply ∨ (getSem s g.sem).value.toNat + g.add.toNat < 2 ^ 64) :
    (loseSignal s i g).signals.length + 1 = s.signals.length ∧ (loseSignal s i g).queues = s.queues ∧
      ((loseSignal s i g).sems = s.sems ∨ receiptOf (getSeries s (signalSeries g)) g.num = .apply ∧
        (loseSignal s i g).sems = (setSem s g.sem (addSem (getSem s g.sem) g.add)).sems) := by
  obtain ⟨hi, -⟩ := List.getElem?_eq_some_iff.1 here
  have one : (s.signals.eraseIdx i).length + 1 = s.signals.length := by
    rw [List.length_eraseIdx_of_lt hi]
    omega
  unfold loseSignal
  dsimp only
  split
  · rename_i taken
    obtain ⟨apply, -⟩ := taken
    have small : (getSem s g.sem).value.toNat + g.add.toNat < 2 ^ 64 := plain.resolve_left fun no => no apply
    let u := setSeries (takeFree { s with signals := s.signals.eraseIdx i }).2 (signalSeries g)
      { getSeries s (signalSeries g) with applied := (getSeries s (signalSeries g)).applied + 1 }
    have applied : applySignal u g = setSem u g.sem (addSem (getSem s g.sem) g.add) := if_neg (Nat.not_le.2 small)
    have told : Changes [.halls] (applySignal u g) (noticeOf (applySignal u g) g) := noticeOf_changes
    have signals : (noticeOf (applySignal u g) g).signals = s.signals.eraseIdx i :=
      (told.only .signals rfl).trans (congrArg State.signals applied)
    have queues : (noticeOf (applySignal u g) g).queues = s.queues := 
      (told.only .queues rfl).trans (congrArg State.queues applied :)
    have sems : (noticeOf (applySignal u g) g).sems = (setSem u g.sem (addSem (getSem s g.sem) g.add)).sems :=
      (told.only .sems rfl).trans (congrArg State.sems applied)
    exact ⟨(congrArg (fun l => List.length l + 1) signals).trans one, queues, .inr ⟨apply, sems⟩⟩
  · refine ⟨?_, rfl, .inl rfl⟩
    show (List.map _ (s.signals.eraseIdx i)).length + 1 = s.signals.length
    rw [List.length_map]
    exact one

/-- R368, R369: a signal that is resent counts with the later ones of its series; a lost one is counted and reported. -/
theorem signals_resent_or_lost (h : Hall) (i : Nat) (s : State) (c : Canonical s) (up : dieUp s = true) :
    ((∀ g, s.signals[i]? = some g → stopHall g.stop ≠ h.val) →
      exec (.meshResend h (.signal i)) s = .next s ∧ exec (.meshLost h (.signal i)) s = .next s) ∧
    (∀ g, s.signals[i]? = some g → stopHall g.stop = h.val →
      (∃ t, exec (.meshResend h (.signal i)) s = .next t ∧ t = { s with halls := t.halls } ∧
        getHall t h = { getHall s h with meshResend := (getHall s h).meshResend + BitVec.ofNat 32 (1 + laterSignals s i g) } ∧
        ∀ x, x ≠ h.val → getHall t x = getHall s x) ∧
      (∃ t, exec (.meshLost h (.signal i)) s = .next t ∧
        (getHall t h).meshLost = (getHall s h).meshLost + 1 ∧ (getHall t h).sticky.getLsbD 10 = true ∧
        (receiptOf (getSeries s (signalSeries g)) g.num ≠ .apply ∨ (getSem s g.sem).value.toNat + g.add.toNat < 2 ^ 64 →
          t.signals.length + 1 = s.signals.length ∧ t.queues = s.queues ∧
            (t.sems = s.sems ∨ receiptOf (getSeries s (signalSeries g)) g.num = .apply ∧
              t.sems = (setSem s g.sem (addSem (getSem s g.sem) g.add)).sems)))) := by
  have running : ¬ (!dieUp s) = true := by rw [up]; decide
  refine ⟨fun no => ?_, fun g here hall => ⟨?_, ?_⟩⟩
  · have none := signalFrom_none no
    have resend : runMeshResend h (.signal i) s = s := by
      unfold runMeshResend
      simp only [none, ite_self]
    have lose : runMeshLost h (.signal i) s = s := by
      unfold runMeshLost
      simp only [none, ite_self]
    exact ⟨congrArg Host.Outcome.next resend, congrArg Host.Outcome.next lose⟩
  · have run : runMeshResend h (.signal i) s = countResent s h (1 + laterSignals s i g) := by
      unfold runMeshResend
      simp only [up, signalFrom_some here hall]
      rfl
    exact ⟨_, congrArg Host.Outcome.next run, rfl, getHall_modHall_same _ _ _ c.halls, fun x ne => getHall_modHall_ne _ _ ne⟩
  · have run : runMeshLost h (.signal i) s = loseSignal (reportLost s h) i g := by
      unfold runMeshLost
      simp only [up, signalFrom_some here hall]
      rfl
    obtain ⟨told, count, sticky, -⟩ := reportLost_counts c h.val
    have kept := (loseSignal_keepsDown (s := reportLost s h) (i := i) (g := g)).hall (told.canonical c) h.val
    exact ⟨_, congrArg Host.Outcome.next run, kept.meshLost.trans count, kept.sticky 10 sticky,
      fun plain => loseSignal_leaves (s := reportLost s h) here plain⟩

theorem accesses_lost (h : Hall) (skip : Nat) (s : State) (c : Canonical s) (up : dieUp s = true) :
    ∃ t, exec (.meshLost h (.access skip)) s = .next t ∧
      t = { s with halls := t.halls, meshFault := some { hall := h, skip := skip, lost := true } } ∧
      (getHall t h).meshLost = (getHall s h).meshLost + 1 ∧ (getHall t h).sticky.getLsbD 10 = true ∧
      ∀ x, x ≠ h.val → getHall t x = getHall s x := by
  let u : State := { s with meshFault := some { hall := h, skip := skip, lost := true } }
  have cu : Canonical u := ⟨c.queues, c.sems, c.semGrp, c.own, c.lcores, c.positions, c.halls, c.hubs, c.ports, c.jobs, c.slots, c.stats,
    c.mem, c.memErr, c.series, c.leafs, c.hostMem⟩
  obtain ⟨told, count, sticky, others⟩ := reportLost_counts cu h.val
  have run : runMeshLost h (.access skip) s = reportLost u h := if_neg (by rw [up]; decide)
  exact ⟨_, congrArg Host.Outcome.next run, told.eq_with rfl fun p => by cases p <;> rfl, count, sticky, others⟩

/-! ## A failed router (R364 to R366, R423) -/

/-- A report leaves what a hall knows of its holes and its tables. -/
def KeepsHoles (a b : HallState) : Prop := b.holes = a.holes ∧ b.tableGen = a.tableGen ∧ b.tnkActive = a.tnkActive

theorem keepsHoles_reporting : Reporting KeepsHoles where
  refl _ := ⟨rfl, rfl, rfl⟩
  trans h k := by
    obtain ⟨holes, table, active⟩ := h
    obtain ⟨holes', table', active'⟩ := k
    exact ⟨holes'.trans holes, table'.trans table, active'.trans active⟩
  event a t e := by
    unfold hallEvent KeepsHoles
    split <;> exact ⟨rfl, rfl, rfl⟩
  sticky _ _ _ := ⟨rfl, rfl, rfl⟩

/-- R364: what a hole at position `i` adds to what its hall knows. -/
def holed (i : Nat) (hl : HallState) : HallState := { forgetPos hl i with holes := hl.holes ++ [i], tableGen := hl.tableGen + 1 }

/-- R364: a position that is a hole. -/
def asHole (ps : Position) : Position := { ps with status := .hole, heldBench := false, benchReq291 := false }

/-- With no bench run in the hall, a hole changes the hall and the position. -/
theorem makeHole_idle {s : State} {h : Nat} (idle : (getHall s h).tnkActive = false) (i : Nat) :
    makeHole s h i = modPos (modHall s h (holed i)) (posKey h i) asHole := by
  unfold makeHole
  simp only [idle, Bool.false_eq_true, false_and, if_false]
  rfl

/-- R364: a reported router of a hall with no bench run becomes a hole. -/
theorem makeHole_raise {s : State} (c : Canonical s) (h i : Nat) (e : EventSpec) (idle : (getHall s h).tnkActive = false) :
    let t := makeHole (raise s h 8 4 e) h i
    Canonical t ∧ (getHall t h).holes = (getHall s h).holes ++ [i] ∧ (getHall t h).tableGen = (getHall s h).tableGen + 1 ∧
      (getPos t (posKey h i)).status = .hole ∧ (getHall t h).sticky.getLsbD 8 = true ∧
      t = { s with halls := t.halls, positions := t.positions } := by
  intro t
  let r := raise s h 8 4 e
  have told : Changes [.halls] s r := raise_changes
  have cr : Canonical r := told.canonical c
  obtain ⟨holes, table, active⟩ := (EachHall.raise keepsHoles_reporting c h 8 4 e).hall h
  have made : t = modPos (modHall r h (holed i)) (posKey h i) asHole := makeHole_idle (active.trans idle) i
  have here : getHall t h = holed i (getHall r h) := (congrArg (getHall · h) made).trans (getHall_modHall_same _ _ _ cr.halls)
  have ct : Canonical t := makeHole_changes.canonical cr
  refine ⟨ct, ?_, ?_, ?_, ?_, ?_⟩
  · rw [here]
    exact congrArg (· ++ [i]) holes
  · rw [here]
    exact congrArg (· + 1) table
  · rw [made, getPos_modPos_same]
    · rfl
    · exact cr.positions
  · rw [here]
    exact sticky_raise c h (by decide) 4 e
  · have frame : Changes [.halls, .positions] s t := by
      rw [made]
      have hole : Changes [.halls, .positions] s (modHall r h (holed i)) :=
        .next (told.mono (by decide)) (modHall_changes fun _ l => l) (by decide)
      exact hole.next (modPos_changes fun _ l => l) (by decide)
    exact frame.eq_with rfl fun p => by cases p <;> rfl

/-- R379: a link taken down is down at both ends, and no other link changes. -/
theorem setUp_down {s : State} (c : Canonical s) (n : Nat) :
    Canonical (setUp s n false) ∧ ∀ g, g < 2 → ∀ m, (m = n ∨ (getSeam (getHall s g) m).up = false) →
      (getSeam (getHall (setUp s n false) g) m).up = false := by
  let lower : HallState → HallState := fun hl => { hl with seam := tabSet {} n { getSeam hl n with up := false } hl.seam }
  have c0 : Canonical (modHall s 0 lower) := canonical_modHall c 0 lower
  have lowered (hl : HallState) (m : Nat) (down : m = n ∨ (getSeam hl m).up = false) : (getSeam (lower hl) m).up = false := by
    by_cases e : m = n
    · subst e
      have listed : ({ getSeam hl m with up := false } : SeamLink) ≠ {} := fun e => by cases congrArg SeamLink.up e
      exact congrArg SeamLink.up (tabGet_tabSet_listed listed m hl.seam)
    · exact (congrArg SeamLink.up (tabGet_tabSet_ne _ _ _ e)).trans (down.resolve_left e)
  refine ⟨canonical_modHall c0 1 lower, fun g hall m down => ?_⟩
  show (getSeam (getHall (modHall (modHall s 0 lower) 1 lower) g) m).up = false
  obtain rfl | rfl : g = 0 ∨ g = 1 := by omega
  · rw [getHall_modHall_ne _ _ (by decide), getHall_modHall_same _ _ _ c.halls]
    exact lowered _ m down
  · rw [getHall_modHall_same _ _ _ c0.halls, getHall_modHall_ne _ _ (by decide)]
    exact lowered _ m down

/-- R365, R423: a hole at the seam raises FS_SEAM in both halls and takes the links of its row down on both networks. -/
theorem seamHole_downs {s : State} (c : Canonical s) {h i : Nat} (seam : atSeam h i = true) {g : Nat} (hall : g < 2) :
    (getHall (seamHole s h i) g).sticky.getLsbD 11 = true ∧
      ∀ net, net < 2 → (getSeam (getHall (seamHole s h i) g) (linkOf net (stopXY i).2)).up = false := by
  obtain ⟨c0, first⟩ := setUp_down c (linkOf 0 (stopXY i).2)
  obtain ⟨c1, second⟩ := setUp_down c0 (linkOf 1 (stopXY i).2)
  let u := setUp (setUp s (linkOf 0 (stopXY i).2) false) (linkOf 1 (stopXY i).2) false
  have run : seamHole s h i =
      applyClass (raiseBoth u 11 (seamClass u) { code := 0x0409 }) h 11 (seamClass u) (originNext u h 11 (seamClass u)) :=
    if_neg (by rw [seam]; decide)
  have told : KeepsDown u (raiseBoth u 11 (seamClass u) { code := 0x0409 }) := raiseBoth_keepsDown
  have fell := (applyClass_keepsDown (s := raiseBoth u 11 (seamClass u) { code := 0x0409 }) (h := h) (src := 11) (cls := seamClass u)
    (o := originNext u h 11 (seamClass u))).hall (told.canonical c1) g
  rw [run]
  refine ⟨fell.sticky 11 (sticky_raiseBoth c1 (by decide) _ _ hall), fun net low => fell.seam _ ((told.hall c1 g).seam _ ?_)⟩
  obtain rfl | rfl : net = 0 ∨ net = 1 := by omega
  · exact second g hall _ (.inr (first g hall _ (.inl rfl)))
  · exact second g hall _ (.inl rfl)

theorem routers_fail (h : Hall) (stop : Fin 90) (s : State) (c : Canonical s) (up : dieUp s = true) :
    let down := applyClass (raise s h 8 5 { code := 0x0406 }) h 8 5 (originNext s h 8 5)
    (stopPos stop = none → exec (.routerFailed h stop) s = .next down) ∧
    (∀ i, stopPos stop = some i → (getHall s h).holes.contains i = true → exec (.routerFailed h stop) s = .next s) ∧
    (∀ i, stopPos stop = some i → (getHall s h).holes.contains i = false → holeOk (getHall s h) i = false →
      exec (.routerFailed h stop) s = .next down) ∧
    (∀ i, stopPos stop = some i → (getHall s h).holes.contains i = false → holeOk (getHall s h) i = true → (getHall s h).tnkActive = false →
      ∃ t, (getHall t h).holes = (getHall s h).holes ++ [i] ∧
        (getHall t h).tableGen = (getHall s h).tableGen + 1 ∧ (getPos t (posKey h i)).status = .hole ∧
        (getHall t h).sticky.getLsbD 8 = true ∧ t = { s with halls := t.halls, positions := t.positions } ∧
        (atSeam h i = false → seamHole t h i = t) ∧
        (atSeam h i = true → ∀ g, g < 2 → (getHall (seamHole t h i) g).sticky.getLsbD 11 = true ∧
          ∀ net, net < 2 → (getSeam (getHall (seamHole t h i) g) (linkOf net (stopXY i).2)).up = false) ∧
        ((getPos s (posKey h i)).status ≠ .inService ∨ posCore s (posKey h i) = none →
          exec (.routerFailed h stop) s = .next (seamHole t h i)) ∧
        (∀ n, (getPos s (posKey h i)).status = .inService → posCore s (posKey h i) = some n →
          exec (.routerFailed h stop) s = .next (fenceAtHole (seamHole t h i) n (originNext s h 8 4)))) := by
  intro down
  have row : exec (.routerFailed h stop) s = .next (runRouterFailed h stop s) := rfl
  rw [row]
  refine ⟨fun no => congrArg Host.Outcome.next ?_, fun i at_ hole => congrArg Host.Outcome.next ?_,
    fun i at_ hole full => congrArg Host.Outcome.next ?_, fun i at_ hole ok idle => ?_⟩
  · unfold runRouterFailed
    simp only [up, no]
    rfl
  · unfold runRouterFailed
    simp only [up, at_, hole]
    rfl
  · unfold runRouterFailed
    simp only [up, at_, hole, full]
    rfl
  · obtain ⟨ct, holes, table, status, sticky, frame⟩ := makeHole_raise c h.val i { code := 0x0406, lockind := 3, loc := posKey h i } idle
    refine ⟨_, holes, table, status, sticky, frame, fun off => if_pos (by rw [off]; rfl), fun on g hall => seamHole_downs ct on hall,
      fun no => congrArg Host.Outcome.next ?_, fun n served core => congrArg Host.Outcome.next ?_⟩
    · have none : (if (getPos s (posKey h i)).status = .inService then posCore s (posKey h i) else none) = none := by
        split
        · exact no.resolve_left (not_not.2 ‹_›)
        · rfl
      unfold runRouterFailed
      simp only [up, at_, hole, ok, none]
      rfl
    · unfold runRouterFailed
      simp only [up, at_, hole, ok, served, core]
      rfl

/-- Settles O42: an access by its fate, a signal and a lost transaction by their rows; what a lost signal or a seam's fault takes down with it keeps
the count, the sticky bits and the links that are down (`KeepsDown`). -/
theorem meshFaultsAreCountedAndRaised : Obligations.MeshFaultsAreCountedAndRaised :=
  ⟨fun _ _ _ s up => congrArg Host.Outcome.next (if_neg (by rw [up]; decide)), sendNumbered_fates,
    signals_resent_or_lost, accesses_lost, routers_fail⟩

end Sys2Proof.Machine
end
